-- ==== Sys2Proof/Word.lean ====
section
/-! DEFINITION. The word types of the KQ-4128: what the manual counts in bits. -/

namespace Sys2Proof

/-- A register of one lane, an instruction word (R43, R46). -/
abbrev Word := BitVec 32

/-- One byte of memory (R5). -/
abbrev Byte := BitVec 8

/-- A 64-bit address or register pair (R50, R152). -/
abbrev DWord := BitVec 64

end Sys2Proof
end

