-- ==== Sys2Proof/Config.lean ====
section
/-! DEFINITION. What the manual leaves to the part, and the free values: opaque, so that nothing can be proved of the
number a free value is. -/

namespace Sys2Proof.Config

/-- An undefined value (R9) of one 32-bit word: applied to the counter of State that each use advances. -/
opaque freeWord : Nat → Word

/-- An undefined byte (R9). -/
opaque freeByte : Nat → Byte

/-- Which of the lanes beside a faulting one a memory instruction had performed when it stopped (R156). -/
opaque freeLanes : Nat → BitVec 32

/-- The FUN results that R139 bounds but does not publish: one fixed result per function and input, the same on every
part. The first argument is the fn of FUN. -/
opaque funResult : Nat → Word → Word

/-- The CRC-64 of a flit's bytes 0 to 247 (R320), whose polynomial the manual does not give. -/
opaque crc64 : List Byte → DWord

/-- Whether an SLH-DSA-SHA2-192s signature (FIPS 205) of a message verifies under a public key: key, message, signature. -/
opaque slhVerify : List Byte → List Byte → List Byte → Bool

/-- The SLH-DSA-SHA2-192s signature the security controller makes of a message with the identity key of the part (R344): key,
message. -/
opaque slhSign : List Byte → List Byte → List Byte

/-- The credits returned and the flit kind of a flit's header, whose values R320 does not give. -/
opaque flitHead : Nat → BitVec 12

end Sys2Proof.Config
end

