-- ==== Sys2Proof/Machine/Store.lean ====
section
/-! DEFINITION. Finite maps from numbers, held as a list in one canonical form: keys strictly rising, no entry equal to
what an unlisted key reads as. Memory, register files and every table of the machine are such maps, so that equal
contents are equal data. -/

namespace Sys2Proof.Machine

/-- A map from numbers: entries in strictly rising order of key. -/
abbrev SMap (α : Type) := List (Nat × α)

/-- The entry at a key. -/
def sget {α : Type} (m : SMap α) (k : Nat) : Option α :=
  match m with
  | [] => none
  | (j, x) :: r => if j = k then some x else sget r k

/-- The map without a key. -/
def sdel {α : Type} (m : SMap α) (k : Nat) : SMap α := m.filter (fun e => !(e.1 == k))

/-- Puts an entry before the first entry whose key is not below its own. -/
def splace {α : Type} (m : SMap α) (k : Nat) (x : α) : SMap α :=
  match m with
  | [] => [(k, x)]
  | (j, y) :: r => if j < k then (j, y) :: splace r k x else (k, x) :: (j, y) :: r

/-- The map with an entry set. -/
def sput {α : Type} (m : SMap α) (k : Nat) (x : α) : SMap α := splace (sdel m k) k x

/-- The map with the entry at a key changed, where there is one. -/
def smod {α : Type} (m : SMap α) (k : Nat) (f : α → α) : SMap α :=
  match sget m k with
  | none => m
  | some x => sput m k (f x)

/-- What a key reads as in a map whose unlisted keys read as `z`. -/
def zget {α : Type} (z : α) (m : SMap α) (k : Nat) : α := (sget m k).getD z

/-- A write in a map whose unlisted keys read as `z`: writing `z` removes the entry. -/
def zput {α : Type} [DecidableEq α] (z : α) (m : SMap α) (k : Nat) (x : α) : SMap α :=
  if x = z then sdel m k else sput m k x

/-- Keys strictly rising. -/
def srising {α : Type} : SMap α → Bool
  | [] => true
  | (k, _) :: r => r.all (fun e => decide (k < e.1)) && srising r

/-- The canonical form of a map whose unlisted keys read as `z`. -/
def zwf {α : Type} [DecidableEq α] (z : α) (m : SMap α) : Bool :=
  srising m && m.all (fun e => !(e.2 == z))

/-- The least number from `n` on that is no key, trying at most `fuel` of them. -/
def sfresh {α : Type} (m : SMap α) : Nat → Nat → Nat
  | 0, n => n
  | fuel + 1, n => if (sget m n).isNone then n else sfresh m fuel (n + 1)

end Sys2Proof.Machine
end

