-- ==== Sys2Proof/Syntax.lean ====
section
/-! DEFINITION. The instructions and events of the opcode table (spec/opcode_table.json), one constructor a row.
The 352 rows with an encoding carry the fields of their word; the 99 rows without one are steps of the machine's
other agents (95_what_each_step_holds.md) and carry what identifies the step: a warp, a command, a context. -/

namespace Sys2Proof

/-- One constructor per row of the opcode table. -/
inductive Instr where
  /-- IADD_V: Adds vector a and vector b in each active lane, wrapping. (R106) -/
  | iaddV (g : BitVec 2) (d : BitVec 7) (a : BitVec 7) (b : BitVec 7)
  /-- IADD_S: Adds vector a and a scalar b in each active lane, wrapping. (R106) -/
  | iaddS (g : BitVec 2) (d : BitVec 7) (a : BitVec 7) (b : BitVec 7)
  /-- IADD_I: Adds vector a and an IMM-extendable immediate in each active lane. (R106) -/
  | iaddI (g : BitVec 2) (d : BitVec 7) (a : BitVec 7) (i : BitVec 7)
  /-- IADD_UINT: Adds two scalars once per issue into the gang's scalar view. (R106) -/
  | iaddUint (d : BitVec 7) (a : BitVec 7) (b : BitVec 7)
  /-- IADD_UINT_I: Adds a scalar and an immediate once per issue. (R106) -/
  | iaddUintI (d : BitVec 7) (a : BitVec 7) (i : BitVec 7)
  /-- ISUB_V: Subtracts vector b from vector a, wrapping. (R106) -/
  | isubV (g : BitVec 2) (d : BitVec 7) (a : BitVec 7) (b : BitVec 7)
  /-- ISUB_S: Subtracts a scalar from vector a, wrapping. (R106) -/
  | isubS (g : BitVec 2) (d : BitVec 7) (a : BitVec 7) (b : BitVec 7)
  /-- ISUB_I: Subtracts an immediate from vector a, wrapping. (R106) -/
  | isubI (g : BitVec 2) (d : BitVec 7) (a : BitVec 7) (i : BitVec 7)
  /-- ISUB_UINT: Subtracts two scalars once per issue. (R106) -/
  | isubUint (d : BitVec 7) (a : BitVec 7) (b : BitVec 7)
  /-- ISUB_UINT_I: Subtracts an immediate from a scalar once per issue. (R106) -/
  | isubUintI (d : BitVec 7) (a : BitVec 7) (i : BitVec 7)
  /-- IMUL_V: Multiplies vector a by vector b, low half. (R106) -/
  | imulV (g : BitVec 2) (d : BitVec 7) (a : BitVec 7) (b : BitVec 7)
  /-- IMUL_S: Multiplies vector a by a scalar, low half. (R106) -/
  | imulS (g : BitVec 2) (d : BitVec 7) (a : BitVec 7) (b : BitVec 7)
  /-- IMUL_I: Multiplies vector a by an immediate, low half. (R106) -/
  | imulI (g : BitVec 2) (d : BitVec 7) (a : BitVec 7) (i : BitVec 7)
  /-- IMUL_UINT: Multiplies two scalars once per issue. (R106) -/
  | imulUint (d : BitVec 7) (a : BitVec 7) (b : BitVec 7)
  /-- IMUL_UINT_I: Multiplies a scalar by an immediate once per issue. (R106) -/
  | imulUintI (d : BitVec 7) (a : BitVec 7) (i : BitVec 7)
  /-- IMULH_V: Writes the high half of the exact product of vectors a and b. (R106) -/
  | imulhV (g : BitVec 2) (d : BitVec 7) (a : BitVec 7) (b : BitVec 7)
  /-- IMULH_S: Writes the high half of vector a times a scalar. (R106) -/
  | imulhS (g : BitVec 2) (d : BitVec 7) (a : BitVec 7) (b : BitVec 7)
  /-- IMULH_I: Writes the high half of vector a times an immediate. (R106) -/
  | imulhI (g : BitVec 2) (d : BitVec 7) (a : BitVec 7) (i : BitVec 7)
  /-- IMULH_UINT: Writes the high half of a scalar product once per issue. (R106) -/
  | imulhUint (d : BitVec 7) (a : BitVec 7) (b : BitVec 7)
  /-- IMULH_UINT_I: Writes the high half of a scalar times an immediate. (R106) -/
  | imulhUintI (d : BitVec 7) (a : BitVec 7) (i : BitVec 7)
  /-- IMIN_V: Writes the minimum of vectors a and b. (R106) -/
  | iminV (g : BitVec 2) (d : BitVec 7) (a : BitVec 7) (b : BitVec 7)
  /-- IMIN_S: Writes the minimum of vector a and a scalar. (R106) -/
  | iminS (g : BitVec 2) (d : BitVec 7) (a : BitVec 7) (b : BitVec 7)
  /-- IMIN_I: Writes the minimum of vector a and an immediate. (R106) -/
  | iminI (g : BitVec 2) (d : BitVec 7) (a : BitVec 7) (i : BitVec 7)
  /-- IMIN_UINT: Writes the minimum of two scalars once per issue. (R106) -/
  | iminUint (d : BitVec 7) (a : BitVec 7) (b : BitVec 7)
  /-- IMIN_UINT_I: Writes the minimum of a scalar and an immediate. (R106) -/
  | iminUintI (d : BitVec 7) (a : BitVec 7) (i : BitVec 7)
  /-- IMAX_V: Writes the maximum of vectors a and b. (R106) -/
  | imaxV (g : BitVec 2) (d : BitVec 7) (a : BitVec 7) (b : BitVec 7)
  /-- IMAX_S: Writes the maximum of vector a and a scalar. (R106) -/
  | imaxS (g : BitVec 2) (d : BitVec 7) (a : BitVec 7) (b : BitVec 7)
  /-- IMAX_I: Writes the maximum of vector a and an immediate. (R106) -/
  | imaxI (g : BitVec 2) (d : BitVec 7) (a : BitVec 7) (i : BitVec 7)
  /-- IMAX_UINT: Writes the maximum of two scalars once per issue. (R106) -/
  | imaxUint (d : BitVec 7) (a : BitVec 7) (b : BitVec 7)
  /-- IMAX_UINT_I: Writes the maximum of a scalar and an immediate. (R106) -/
  | imaxUintI (d : BitVec 7) (a : BitVec 7) (i : BitVec 7)
  /-- IADDC_V: Adds vectors a and b with carry in and out through p6. (R106) -/
  | iaddcV (g : BitVec 2) (d : BitVec 7) (a : BitVec 7) (b : BitVec 7)
  /-- IADDC_S: Adds vector a and a scalar with carry through p6. (R106) -/
  | iaddcS (g : BitVec 2) (d : BitVec 7) (a : BitVec 7) (b : BitVec 7)
  /-- IADDC_I: Adds vector a and an immediate with carry through p6. (R106) -/
  | iaddcI (g : BitVec 2) (d : BitVec 7) (a : BitVec 7) (i : BitVec 7)
  /-- IADDC_UINT: Adds two scalars with carry through q2. (R106) -/
  | iaddcUint (d : BitVec 7) (a : BitVec 7) (b : BitVec 7)
  /-- IADDC_UINT_I: Adds a scalar and an immediate with carry through q2. (R106) -/
  | iaddcUintI (d : BitVec 7) (a : BitVec 7) (i : BitVec 7)
  /-- ISUBC_V: Subtracts vector b from a with borrow through p6. (R106) -/
  | isubcV (g : BitVec 2) (d : BitVec 7) (a : BitVec 7) (b : BitVec 7)
  /-- ISUBC_S: Subtracts a scalar from vector a with borrow through p6. (R106) -/
  | isubcS (g : BitVec 2) (d : BitVec 7) (a : BitVec 7) (b : BitVec 7)
  /-- ISUBC_I: Subtracts an immediate from vector a with borrow through p6. (R106) -/
  | isubcI (g : BitVec 2) (d : BitVec 7) (a : BitVec 7) (i : BitVec 7)
  /-- ISUBC_UINT: Subtracts two scalars with borrow through q2. (R106) -/
  | isubcUint (d : BitVec 7) (a : BitVec 7) (b : BitVec 7)
  /-- ISUBC_UINT_I: Subtracts an immediate from a scalar with borrow through q2. (R106) -/
  | isubcUintI (d : BitVec 7) (a : BitVec 7) (i : BitVec 7)
  /-- AND_V: Bitwise and of vectors a and b. (R107) -/
  | andV (g : BitVec 2) (d : BitVec 7) (a : BitVec 7) (b : BitVec 7)
  /-- AND_S: Bitwise and of vector a and a scalar. (R107) -/
  | andS (g : BitVec 2) (d : BitVec 7) (a : BitVec 7) (b : BitVec 7)
  /-- AND_I: Bitwise and of vector a and an immediate. (R107) -/
  | andI (g : BitVec 2) (d : BitVec 7) (a : BitVec 7) (i : BitVec 7)
  /-- AND_ULOG: Bitwise and of two scalars once per issue. (R107) -/
  | andUlog (d : BitVec 7) (a : BitVec 7) (b : BitVec 7)
  /-- AND_ULOG_I: Bitwise and of a scalar and an immediate. (R107) -/
  | andUlogI (d : BitVec 7) (a : BitVec 7) (i : BitVec 7)
  /-- OR_V: Bitwise or of vectors a and b. (R107) -/
  | orV (g : BitVec 2) (d : BitVec 7) (a : BitVec 7) (b : BitVec 7)
  /-- OR_S: Bitwise or of vector a and a scalar. (R107) -/
  | orS (g : BitVec 2) (d : BitVec 7) (a : BitVec 7) (b : BitVec 7)
  /-- OR_I: Bitwise or of vector a and an immediate. (R107) -/
  | orI (g : BitVec 2) (d : BitVec 7) (a : BitVec 7) (i : BitVec 7)
  /-- OR_ULOG: Bitwise or of two scalars once per issue. (R107) -/
  | orUlog (d : BitVec 7) (a : BitVec 7) (b : BitVec 7)
  /-- OR_ULOG_I: Bitwise or of a scalar and an immediate. (R107) -/
  | orUlogI (d : BitVec 7) (a : BitVec 7) (i : BitVec 7)
  /-- XOR_V: Bitwise xor of vectors a and b. (R107) -/
  | xorV (g : BitVec 2) (d : BitVec 7) (a : BitVec 7) (b : BitVec 7)
  /-- XOR_S: Bitwise xor of vector a and a scalar. (R107) -/
  | xorS (g : BitVec 2) (d : BitVec 7) (a : BitVec 7) (b : BitVec 7)
  /-- XOR_I: Bitwise xor of vector a and an immediate. (R107) -/
  | xorI (g : BitVec 2) (d : BitVec 7) (a : BitVec 7) (i : BitVec 7)
  /-- XOR_ULOG: Bitwise xor of two scalars once per issue. (R107) -/
  | xorUlog (d : BitVec 7) (a : BitVec 7) (b : BitVec 7)
  /-- XOR_ULOG_I: Bitwise xor of a scalar and an immediate. (R107) -/
  | xorUlogI (d : BitVec 7) (a : BitVec 7) (i : BitVec 7)
  /-- ANDN_V: Computes a and not b for vectors. (R107) -/
  | andnV (g : BitVec 2) (d : BitVec 7) (a : BitVec 7) (b : BitVec 7)
  /-- ANDN_S: Computes vector a and not a scalar. (R107) -/
  | andnS (g : BitVec 2) (d : BitVec 7) (a : BitVec 7) (b : BitVec 7)
  /-- ANDN_I: Computes vector a and not an immediate. (R107) -/
  | andnI (g : BitVec 2) (d : BitVec 7) (a : BitVec 7) (i : BitVec 7)
  /-- ANDN_ULOG: Computes scalar a and not scalar b. (R107) -/
  | andnUlog (d : BitVec 7) (a : BitVec 7) (b : BitVec 7)
  /-- ANDN_ULOG_I: Computes scalar a and not an immediate. (R107) -/
  | andnUlogI (d : BitVec 7) (a : BitVec 7) (i : BitVec 7)
  /-- SHL_V: Shifts vector a left by b mod 32. (R107) -/
  | shlV (g : BitVec 2) (d : BitVec 7) (a : BitVec 7) (b : BitVec 7)
  /-- SHL_S: Shifts vector a left by a scalar amount. (R107) -/
  | shlS (g : BitVec 2) (d : BitVec 7) (a : BitVec 7) (b : BitVec 7)
  /-- SHL_I: Shifts vector a left by an immediate amount. (R107) -/
  | shlI (g : BitVec 2) (d : BitVec 7) (a : BitVec 7) (i : BitVec 7)
  /-- SHL_ULOG: Shifts a scalar left by a scalar amount. (R107) -/
  | shlUlog (d : BitVec 7) (a : BitVec 7) (b : BitVec 7)
  /-- SHL_ULOG_I: Shifts a scalar left by an immediate amount. (R107) -/
  | shlUlogI (d : BitVec 7) (a : BitVec 7) (i : BitVec 7)
  /-- SHR_V: Shifts vector a right with zero fill. (R107) -/
  | shrV (g : BitVec 2) (d : BitVec 7) (a : BitVec 7) (b : BitVec 7)
  /-- SHR_S: Shifts vector a right with zero fill by a scalar amount. (R107) -/
  | shrS (g : BitVec 2) (d : BitVec 7) (a : BitVec 7) (b : BitVec 7)
  /-- SHR_I: Shifts vector a right with zero fill by an immediate. (R107) -/
  | shrI (g : BitVec 2) (d : BitVec 7) (a : BitVec 7) (i : BitVec 7)
  /-- SHR_ULOG: Shifts a scalar right with zero fill. (R107) -/
  | shrUlog (d : BitVec 7) (a : BitVec 7) (b : BitVec 7)
  /-- SHR_ULOG_I: Shifts a scalar right by an immediate with zero fill. (R107) -/
  | shrUlogI (d : BitVec 7) (a : BitVec 7) (i : BitVec 7)
  /-- SAR_V: Shifts vector a right arithmetically. (R107) -/
  | sarV (g : BitVec 2) (d : BitVec 7) (a : BitVec 7) (b : BitVec 7)
  /-- SAR_S: Shifts vector a right arithmetically by a scalar amount. (R107) -/
  | sarS (g : BitVec 2) (d : BitVec 7) (a : BitVec 7) (b : BitVec 7)
  /-- SAR_I: Shifts vector a right arithmetically by an immediate. (R107) -/
  | sarI (g : BitVec 2) (d : BitVec 7) (a : BitVec 7) (i : BitVec 7)
  /-- SAR_ULOG: Shifts a scalar right arithmetically. (R107) -/
  | sarUlog (d : BitVec 7) (a : BitVec 7) (b : BitVec 7)
  /-- SAR_ULOG_I: Shifts a scalar right arithmetically by an immediate. (R107) -/
  | sarUlogI (d : BitVec 7) (a : BitVec 7) (i : BitVec 7)
  /-- ROTL_V: Rotates vector a left by b mod 32. (R107) -/
  | rotlV (g : BitVec 2) (d : BitVec 7) (a : BitVec 7) (b : BitVec 7)
  /-- ROTL_S: Rotates vector a left by a scalar amount. (R107) -/
  | rotlS (g : BitVec 2) (d : BitVec 7) (a : BitVec 7) (b : BitVec 7)
  /-- ROTL_I: Rotates vector a left by an immediate. (R107) -/
  | rotlI (g : BitVec 2) (d : BitVec 7) (a : BitVec 7) (i : BitVec 7)
  /-- ROTL_ULOG: Rotates a scalar left by a scalar amount. (R107) -/
  | rotlUlog (d : BitVec 7) (a : BitVec 7) (b : BitVec 7)
  /-- ROTL_ULOG_I: Rotates a scalar left by an immediate. (R107) -/
  | rotlUlogI (d : BitVec 7) (a : BitVec 7) (i : BitVec 7)
  /-- IDIV_V: Long-latency integer division truncating toward zero, IZ on zero divisor. (R108) -/
  | idivV (g : BitVec 2) (d : BitVec 7) (a : BitVec 7) (b : BitVec 7)
  /-- IDIV_S: Long-latency division of vector a by a scalar. (R108) -/
  | idivS (g : BitVec 2) (d : BitVec 7) (a : BitVec 7) (b : BitVec 7)
  /-- IREM_V: Long-latency integer remainder with the dividend's sign. (R108) -/
  | iremV (g : BitVec 2) (d : BitVec 7) (a : BitVec 7) (b : BitVec 7)
  /-- IREM_S: Long-latency remainder of vector a by a scalar. (R108) -/
  | iremS (g : BitVec 2) (d : BitVec 7) (a : BitVec 7) (b : BitVec 7)
  /-- IABSD_V: Writes the exact absolute difference of vectors a and b. (R109) -/
  | iabsdV (g : BitVec 2) (d : BitVec 7) (a : BitVec 7) (b : BitVec 7)
  /-- IABSD_S: Writes the absolute difference of vector a and a scalar. (R109) -/
  | iabsdS (g : BitVec 2) (d : BitVec 7) (a : BitVec 7) (b : BitVec 7)
  /-- IADDSAT_V: Adds vectors with clamping to the type's range. (R109) -/
  | iaddsatV (g : BitVec 2) (d : BitVec 7) (a : BitVec 7) (b : BitVec 7)
  /-- IADDSAT_S: Adds vector and scalar with clamping. (R109) -/
  | iaddsatS (g : BitVec 2) (d : BitVec 7) (a : BitVec 7) (b : BitVec 7)
  /-- ISUBSAT_V: Subtracts vectors with clamping. (R109) -/
  | isubsatV (g : BitVec 2) (d : BitVec 7) (a : BitVec 7) (b : BitVec 7)
  /-- ISUBSAT_S: Subtracts a scalar from a vector with clamping. (R109) -/
  | isubsatS (g : BitVec 2) (d : BitVec 7) (a : BitVec 7) (b : BitVec 7)
  /-- LEA_V: Forms a 64-bit address from a base pair plus a scaled vector index. (R110) -/
  | leaV (g : BitVec 2) (d : BitVec 7) (a : BitVec 7) (b : BitVec 7)
  /-- LEA_S: Forms a 64-bit address from a base pair plus a scaled scalar index. (R110) -/
  | leaS (g : BitVec 2) (d : BitVec 7) (a : BitVec 7) (b : BitVec 7)
  /-- BPERM_V: Permutes the bytes of a by selector nibbles of b. (R111) -/
  | bpermV (g : BitVec 2) (d : BitVec 7) (a : BitVec 7) (b : BitVec 7)
  /-- BPERM_S: Permutes the bytes of a by a scalar selector. (R111) -/
  | bpermS (g : BitVec 2) (d : BitVec 7) (a : BitVec 7) (b : BitVec 7)
  /-- IMAD_V: Writes a times b plus c modulo 2^32. (R111) -/
  | imadV (g : BitVec 2) (d : BitVec 7) (a : BitVec 7) (b : BitVec 7)
  /-- IMAD_S: Writes a times a scalar plus c modulo 2^32. (R111) -/
  | imadS (g : BitVec 2) (d : BitVec 7) (a : BitVec 7) (b : BitVec 7)
  /-- CLZ: Counts leading zero bits of a. (R112) -/
  | clz (g : BitVec 2) (d : BitVec 7) (a : BitVec 7)
  /-- CTZ: Counts trailing zero bits of a. (R112) -/
  | ctz (g : BitVec 2) (d : BitVec 7) (a : BitVec 7)
  /-- POPC: Counts set bits of a. (R112) -/
  | popc (g : BitVec 2) (d : BitVec 7) (a : BitVec 7)
  /-- BREV: Reverses the bit order of a. (R112) -/
  | brev (g : BitVec 2) (d : BitVec 7) (a : BitVec 7)
  /-- IABS: Writes the absolute value of a modulo 2^32. (R112) -/
  | iabs (g : BitVec 2) (d : BitVec 7) (a : BitVec 7)
  /-- INEG: Writes the negation of a modulo 2^32. (R112) -/
  | ineg (g : BitVec 2) (d : BitVec 7) (a : BitVec 7)
  /-- NOT: Writes the bitwise complement of a. (R112) -/
  | notV (g : BitVec 2) (d : BitVec 7) (a : BitVec 7)
  /-- ICVT: Converts between integer types by the codes in b, truncating or clamping. (R112) -/
  | icvt (g : BitVec 2) (d : BitVec 7) (a : BitVec 7) (s : BitVec 3) (x : BitVec 3) (t : BitVec 1)
  /-- BFX: Extracts a bit field of a, sign-extended. (R113) -/
  | bfx (g : BitVec 2) (d : BitVec 7) (a : BitVec 7) (b : BitVec 7)
  /-- BFXN: Extracts a bit field of a, zero-extended. (R113) -/
  | bfxn (g : BitVec 2) (d : BitVec 7) (a : BitVec 7) (b : BitVec 7)
  /-- BFI: Inserts the low bits of a into a field of c. (R113) -/
  | bfi (g : BitVec 2) (d : BitVec 7) (a : BitVec 7) (b : BitVec 7)
  /-- FSHL: Funnel-shifts a 64-bit pair left and keeps the high word. (R113) -/
  | fshl (g : BitVec 2) (d : BitVec 7) (a : BitVec 7) (b : BitVec 7)
  /-- FSHR: Funnel-shifts a 64-bit pair right and keeps the low word. (R113) -/
  | fshr (g : BitVec 2) (d : BitVec 7) (a : BitVec 7) (b : BitVec 7)
  /-- IDOT4: Adds four signed byte products to c. (R114) -/
  | idot4 (g : BitVec 2) (d : BitVec 7) (a : BitVec 7) (b : BitVec 7)
  /-- IDOT4N: Adds four unsigned byte products to c. (R114) -/
  | idot4n (g : BitVec 2) (d : BitVec 7) (a : BitVec 7) (b : BitVec 7)
  /-- IDOT4M: Adds four signed-by-unsigned byte products to c. (R114) -/
  | idot4m (g : BitVec 2) (d : BitVec 7) (a : BitVec 7) (b : BitVec 7)
  /-- IDOT2: Adds two signed halfword products to c. (R114) -/
  | idot2 (g : BitVec 2) (d : BitVec 7) (a : BitVec 7) (b : BitVec 7)
  /-- ISET_EQ_V: Compares vectors for equality and combines into a predicate. (R115) -/
  | isetEqV (g : BitVec 2) (c : BitVec 4) (p : BitVec 3) (a : BitVec 7) (b : BitVec 7)
  /-- ISET_EQ_S: Compares vector and scalar for equality into a predicate. (R115) -/
  | isetEqS (g : BitVec 2) (c : BitVec 4) (p : BitVec 3) (a : BitVec 7) (b : BitVec 7)
  /-- ISET_EQ_I: Compares vector and immediate for equality into a predicate. (R115) -/
  | isetEqI (g : BitVec 2) (c : BitVec 4) (p : BitVec 3) (a : BitVec 7) (i : BitVec 7)
  /-- ISET_NE_V: Compares vectors for inequality into a predicate. (R115) -/
  | isetNeV (g : BitVec 2) (c : BitVec 4) (p : BitVec 3) (a : BitVec 7) (b : BitVec 7)
  /-- ISET_NE_S: Compares vector and scalar for inequality. (R115) -/
  | isetNeS (g : BitVec 2) (c : BitVec 4) (p : BitVec 3) (a : BitVec 7) (b : BitVec 7)
  /-- ISET_NE_I: Compares vector and immediate for inequality. (R115) -/
  | isetNeI (g : BitVec 2) (c : BitVec 4) (p : BitVec 3) (a : BitVec 7) (i : BitVec 7)
  /-- ISET_LT_V: Signed less-than of vectors into a predicate. (R115) -/
  | isetLtV (g : BitVec 2) (c : BitVec 4) (p : BitVec 3) (a : BitVec 7) (b : BitVec 7)
  /-- ISET_LT_S: Signed less-than of vector and scalar. (R115) -/
  | isetLtS (g : BitVec 2) (c : BitVec 4) (p : BitVec 3) (a : BitVec 7) (b : BitVec 7)
  /-- ISET_LT_I: Signed less-than of vector and immediate. (R115) -/
  | isetLtI (g : BitVec 2) (c : BitVec 4) (p : BitVec 3) (a : BitVec 7) (i : BitVec 7)
  /-- ISET_GE_V: Signed greater-or-equal of vectors. (R115) -/
  | isetGeV (g : BitVec 2) (c : BitVec 4) (p : BitVec 3) (a : BitVec 7) (b : BitVec 7)
  /-- ISET_GE_S: Signed greater-or-equal of vector and scalar. (R115) -/
  | isetGeS (g : BitVec 2) (c : BitVec 4) (p : BitVec 3) (a : BitVec 7) (b : BitVec 7)
  /-- ISET_GE_I: Signed greater-or-equal of vector and immediate. (R115) -/
  | isetGeI (g : BitVec 2) (c : BitVec 4) (p : BitVec 3) (a : BitVec 7) (i : BitVec 7)
  /-- ISET_LTN_V: Unsigned less-than of vectors. (R115) -/
  | isetLtnV (g : BitVec 2) (c : BitVec 4) (p : BitVec 3) (a : BitVec 7) (b : BitVec 7)
  /-- ISET_LTN_S: Unsigned less-than of vector and scalar. (R115) -/
  | isetLtnS (g : BitVec 2) (c : BitVec 4) (p : BitVec 3) (a : BitVec 7) (b : BitVec 7)
  /-- ISET_LTN_I: Unsigned less-than of vector and sign-extended immediate. (R115) -/
  | isetLtnI (g : BitVec 2) (c : BitVec 4) (p : BitVec 3) (a : BitVec 7) (i : BitVec 7)
  /-- ISET_GEN_V: Unsigned greater-or-equal of vectors. (R115) -/
  | isetGenV (g : BitVec 2) (c : BitVec 4) (p : BitVec 3) (a : BitVec 7) (b : BitVec 7)
  /-- ISET_GEN_S: Unsigned greater-or-equal of vector and scalar. (R115) -/
  | isetGenS (g : BitVec 2) (c : BitVec 4) (p : BitVec 3) (a : BitVec 7) (b : BitVec 7)
  /-- ISET_GEN_I: Unsigned greater-or-equal of vector and immediate. (R115) -/
  | isetGenI (g : BitVec 2) (c : BitVec 4) (p : BitVec 3) (a : BitVec 7) (i : BitVec 7)
  /-- ISET_LE_V: Signed less-or-equal of vectors. (R115) -/
  | isetLeV (g : BitVec 2) (c : BitVec 4) (p : BitVec 3) (a : BitVec 7) (b : BitVec 7)
  /-- ISET_LE_S: Signed less-or-equal of vector and scalar. (R115) -/
  | isetLeS (g : BitVec 2) (c : BitVec 4) (p : BitVec 3) (a : BitVec 7) (b : BitVec 7)
  /-- ISET_LE_I: Signed less-or-equal of vector and immediate. (R115) -/
  | isetLeI (g : BitVec 2) (c : BitVec 4) (p : BitVec 3) (a : BitVec 7) (i : BitVec 7)
  /-- ISET_GT_V: Signed greater-than of vectors. (R115) -/
  | isetGtV (g : BitVec 2) (c : BitVec 4) (p : BitVec 3) (a : BitVec 7) (b : BitVec 7)
  /-- ISET_GT_S: Signed greater-than of vector and scalar. (R115) -/
  | isetGtS (g : BitVec 2) (c : BitVec 4) (p : BitVec 3) (a : BitVec 7) (b : BitVec 7)
  /-- ISET_GT_I: Signed greater-than of vector and immediate. (R115) -/
  | isetGtI (g : BitVec 2) (c : BitVec 4) (p : BitVec 3) (a : BitVec 7) (i : BitVec 7)
  /-- USET_EQ: Compares two scalars for equality into a uniform predicate. (R115) -/
  | usetEq (c : BitVec 4) (p : BitVec 3) (a : BitVec 7) (b : BitVec 7)
  /-- USET_NE: Compares two scalars for inequality into a uniform predicate. (R115) -/
  | usetNe (c : BitVec 4) (p : BitVec 3) (a : BitVec 7) (b : BitVec 7)
  /-- USET_LT: Signed less-than of scalars into a uniform predicate. (R115) -/
  | usetLt (c : BitVec 4) (p : BitVec 3) (a : BitVec 7) (b : BitVec 7)
  /-- USET_GE: Signed greater-or-equal of scalars. (R115) -/
  | usetGe (c : BitVec 4) (p : BitVec 3) (a : BitVec 7) (b : BitVec 7)
  /-- USET_LTN: Unsigned less-than of scalars. (R115) -/
  | usetLtn (c : BitVec 4) (p : BitVec 3) (a : BitVec 7) (b : BitVec 7)
  /-- USET_GEN: Unsigned greater-or-equal of scalars. (R115) -/
  | usetGen (c : BitVec 4) (p : BitVec 3) (a : BitVec 7) (b : BitVec 7)
  /-- USET_LE: Signed less-or-equal of scalars. (R115) -/
  | usetLe (c : BitVec 4) (p : BitVec 3) (a : BitVec 7) (b : BitVec 7)
  /-- USET_GT: Signed greater-than of scalars. (R115) -/
  | usetGt (c : BitVec 4) (p : BitVec 3) (a : BitVec 7) (b : BitVec 7)
  /-- MOV: Copies vector a to d in each active lane. (R117) -/
  | mov (g : BitVec 2) (d : BitVec 7) (a : BitVec 7)
  /-- SEL: Selects a or b per lane by predicate c. (R117) -/
  | sel (g : BitVec 2) (d : BitVec 7) (a : BitVec 7) (b : BitVec 7)
  /-- BCAST: Broadcasts a scalar to every active lane. (R117) -/
  | bcast (g : BitVec 2) (d : BitVec 7) (b : BitVec 7)
  /-- EXTRACT: Copies one lane's vector value to a scalar. (R118) -/
  | extract (g : BitVec 2) (d : BitVec 7) (a : BitVec 7) (l : BitVec 5)
  /-- PMOV_TO_VECTOR: Packs p0-p7 of each lane into a vector register. (R117) -/
  | pmovToVector (g : BitVec 2) (d : BitVec 7)
  /-- PMOV_TO_PREDICATES: Unpacks bits 6:0 of a vector register into p0-p6. (R117) -/
  | pmovToPredicates (g : BitVec 2) (a : BitVec 7)
  /-- PSET: Combines a nonzero test of a into a predicate. (R117) -/
  | pset (g : BitVec 2) (c : BitVec 4) (p : BitVec 3) (a : BitVec 7)
  /-- PLOP: Combines two predicates through a 4-bit lookup table. (R117) -/
  | plop (g : BitVec 2) (l : BitVec 4) (p : BitVec 3) (a : BitVec 3) (b : BitVec 3)
  /-- VOTE: Writes a ballot, all, any or count of a predicate to a scalar. (R118) -/
  | vote (g : BitVec 2) (d : BitVec 7) (a : BitVec 3) (m : BitVec 2)
  /-- MOVI_VECTOR: Writes an extendable immediate to a vector register. (R119) -/
  | moviVector (g : BitVec 2) (d : BitVec 7) (i : BitVec 16)
  /-- MOVI_SCALAR: Writes an extendable immediate to a scalar register. (R119) -/
  | moviScalar (d : BitVec 7) (i : BitVec 16)
  /-- FADD_V: FP32 addition of vectors, rounded once. (R137) -/
  | faddV (g : BitVec 2) (d : BitVec 7) (a : BitVec 7) (b : BitVec 7)
  /-- FADD_S: FP32 addition of vector and scalar. (R137) -/
  | faddS (g : BitVec 2) (d : BitVec 7) (a : BitVec 7) (b : BitVec 7)
  /-- FSUB_V: FP32 subtraction of vectors. (R137) -/
  | fsubV (g : BitVec 2) (d : BitVec 7) (a : BitVec 7) (b : BitVec 7)
  /-- FSUB_S: FP32 subtraction of a scalar from a vector. (R137) -/
  | fsubS (g : BitVec 2) (d : BitVec 7) (a : BitVec 7) (b : BitVec 7)
  /-- FMUL_V: FP32 multiplication of vectors. (R137) -/
  | fmulV (g : BitVec 2) (d : BitVec 7) (a : BitVec 7) (b : BitVec 7)
  /-- FMUL_S: FP32 multiplication of vector by scalar. (R137) -/
  | fmulS (g : BitVec 2) (d : BitVec 7) (a : BitVec 7) (b : BitVec 7)
  /-- FFMA_V: FP32 fused multiply-add into c, one rounding. (R137) -/
  | ffmaV (g : BitVec 2) (d : BitVec 7) (a : BitVec 7) (b : BitVec 7)
  /-- FFMA_S: FP32 fused multiply-add with a scalar b. (R137) -/
  | ffmaS (g : BitVec 2) (d : BitVec 7) (a : BitVec 7) (b : BitVec 7)
  /-- FMIN_V: minimumNumber of vectors. (R137) -/
  | fminV (g : BitVec 2) (d : BitVec 7) (a : BitVec 7) (b : BitVec 7)
  /-- FMIN_S: minimumNumber of vector and scalar. (R137) -/
  | fminS (g : BitVec 2) (d : BitVec 7) (a : BitVec 7) (b : BitVec 7)
  /-- FMAX_V: maximumNumber of vectors. (R137) -/
  | fmaxV (g : BitVec 2) (d : BitVec 7) (a : BitVec 7) (b : BitVec 7)
  /-- FMAX_S: maximumNumber of vector and scalar. (R137) -/
  | fmaxS (g : BitVec 2) (d : BitVec 7) (a : BitVec 7) (b : BitVec 7)
  /-- FSCALE_V: Multiplies a by 2 to an integer power from b, rounded once. (R137) -/
  | fscaleV (g : BitVec 2) (d : BitVec 7) (a : BitVec 7) (b : BitVec 7)
  /-- FSCALE_S: Scales a by 2 to a scalar integer power. (R137) -/
  | fscaleS (g : BitVec 2) (d : BitVec 7) (a : BitVec 7) (b : BitVec 7)
  /-- FCOPYSIGN_V: Copies the sign bit of b onto a. (R137) -/
  | fcopysignV (g : BitVec 2) (d : BitVec 7) (a : BitVec 7) (b : BitVec 7)
  /-- FCOPYSIGN_S: Copies a scalar's sign bit onto a. (R137) -/
  | fcopysignS (g : BitVec 2) (d : BitVec 7) (a : BitVec 7) (b : BitVec 7)
  /-- FSET_EQ_V: FP32 equality of vectors into a predicate. (R138) -/
  | fsetEqV (g : BitVec 2) (c : BitVec 4) (p : BitVec 3) (a : BitVec 7) (b : BitVec 7)
  /-- FSET_EQ_S: FP32 equality of vector and scalar. (R138) -/
  | fsetEqS (g : BitVec 2) (c : BitVec 4) (p : BitVec 3) (a : BitVec 7) (b : BitVec 7)
  /-- FSET_NE_V: FP32 not-equal or unordered of vectors. (R138) -/
  | fsetNeV (g : BitVec 2) (c : BitVec 4) (p : BitVec 3) (a : BitVec 7) (b : BitVec 7)
  /-- FSET_NE_S: FP32 not-equal of vector and scalar. (R138) -/
  | fsetNeS (g : BitVec 2) (c : BitVec 4) (p : BitVec 3) (a : BitVec 7) (b : BitVec 7)
  /-- FSET_LT_V: FP32 less-than of vectors. (R138) -/
  | fsetLtV (g : BitVec 2) (c : BitVec 4) (p : BitVec 3) (a : BitVec 7) (b : BitVec 7)
  /-- FSET_LT_S: FP32 less-than of vector and scalar. (R138) -/
  | fsetLtS (g : BitVec 2) (c : BitVec 4) (p : BitVec 3) (a : BitVec 7) (b : BitVec 7)
  /-- FSET_LE_V: FP32 less-or-equal of vectors. (R138) -/
  | fsetLeV (g : BitVec 2) (c : BitVec 4) (p : BitVec 3) (a : BitVec 7) (b : BitVec 7)
  /-- FSET_LE_S: FP32 less-or-equal of vector and scalar. (R138) -/
  | fsetLeS (g : BitVec 2) (c : BitVec 4) (p : BitVec 3) (a : BitVec 7) (b : BitVec 7)
  /-- FSET_GT_V: FP32 greater-than of vectors. (R138) -/
  | fsetGtV (g : BitVec 2) (c : BitVec 4) (p : BitVec 3) (a : BitVec 7) (b : BitVec 7)
  /-- FSET_GT_S: FP32 greater-than of vector and scalar. (R138) -/
  | fsetGtS (g : BitVec 2) (c : BitVec 4) (p : BitVec 3) (a : BitVec 7) (b : BitVec 7)
  /-- FSET_GE_V: FP32 greater-or-equal of vectors. (R138) -/
  | fsetGeV (g : BitVec 2) (c : BitVec 4) (p : BitVec 3) (a : BitVec 7) (b : BitVec 7)
  /-- FSET_GE_S: FP32 greater-or-equal of vector and scalar. (R138) -/
  | fsetGeS (g : BitVec 2) (c : BitVec 4) (p : BitVec 3) (a : BitVec 7) (b : BitVec 7)
  /-- FSET_UNORDERED_V: True when either vector operand is a NaN. (R138) -/
  | fsetUnorderedV (g : BitVec 2) (c : BitVec 4) (p : BitVec 3) (a : BitVec 7) (b : BitVec 7)
  /-- FSET_UNORDERED_S: True when vector or scalar operand is a NaN. (R138) -/
  | fsetUnorderedS (g : BitVec 2) (c : BitVec 4) (p : BitVec 3) (a : BitVec 7) (b : BitVec 7)
  /-- FSET_ORDERED_V: True when neither vector operand is a NaN. (R138) -/
  | fsetOrderedV (g : BitVec 2) (c : BitVec 4) (p : BitVec 3) (a : BitVec 7) (b : BitVec 7)
  /-- FSET_ORDERED_S: True when neither vector nor scalar operand is a NaN. (R138) -/
  | fsetOrderedS (g : BitVec 2) (c : BitVec 4) (p : BitVec 3) (a : BitVec 7) (b : BitVec 7)
  /-- FRCP: Long-latency FP32 reciprocal within 1 ULP. (R139) -/
  | frcp (g : BitVec 2) (d : BitVec 7) (a : BitVec 7)
  /-- FRSQ: Long-latency FP32 reciprocal square root. (R139) -/
  | frsq (g : BitVec 2) (d : BitVec 7) (a : BitVec 7)
  /-- FSQRT: Long-latency correctly rounded FP32 square root. (R139) -/
  | fsqrt (g : BitVec 2) (d : BitVec 7) (a : BitVec 7)
  /-- FEXP2: Long-latency FP32 base-2 exponential. (R139) -/
  | fexp2 (g : BitVec 2) (d : BitVec 7) (a : BitVec 7)
  /-- FLOG2: Long-latency FP32 base-2 logarithm. (R139) -/
  | flog2 (g : BitVec 2) (d : BitVec 7) (a : BitVec 7)
  /-- FSIN: Long-latency FP32 sine in radians. (R139) -/
  | fsin (g : BitVec 2) (d : BitVec 7) (a : BitVec 7)
  /-- FCOS: Long-latency FP32 cosine in radians. (R139) -/
  | fcos (g : BitVec 2) (d : BitVec 7) (a : BitVec 7)
  /-- FTANH: Long-latency FP32 hyperbolic tangent. (R139) -/
  | ftanh (g : BitVec 2) (d : BitVec 7) (a : BitVec 7)
  /-- FDIV: Long-latency FP32 division, rounded once. (R140) -/
  | fdiv (g : BitVec 2) (d : BitVec 7) (a : BitVec 7) (b : BitVec 7)
  /-- FRND: Rounds a to an integer value in f32 by the ROUND mode. (R140) -/
  | frnd (g : BitVec 2) (d : BitVec 7) (a : BitVec 7)
  /-- FCLASS: Writes a one-hot class mask of an f32 or f64 source. (R141) -/
  | fclass (g : BitVec 2) (d : BitVec 7) (a : BitVec 7)
  /-- FABS: Clears the sign bit of a. (R140) -/
  | fabs (g : BitVec 2) (d : BitVec 7) (a : BitVec 7)
  /-- FNEG: Inverts the sign bit of a. (R140) -/
  | fneg (g : BitVec 2) (d : BitVec 7) (a : BitVec 7)
  /-- FSAT: Clamps a to the range 0 to 1. (R140) -/
  | fsat (g : BitVec 2) (d : BitVec 7) (a : BitVec 7)
  /-- FMED3: Writes the median of a, b and c. (R140) -/
  | fmed3 (g : BitVec 2) (d : BitVec 7) (a : BitVec 7) (b : BitVec 7)
  /-- DADD: FP64 addition of even pairs. (R142) -/
  | dadd (g : BitVec 2) (d : BitVec 7) (a : BitVec 7) (b : BitVec 7)
  /-- DSUB: FP64 subtraction of even pairs. (R142) -/
  | dsub (g : BitVec 2) (d : BitVec 7) (a : BitVec 7) (b : BitVec 7)
  /-- DMUL: FP64 multiplication of even pairs. (R142) -/
  | dmul (g : BitVec 2) (d : BitVec 7) (a : BitVec 7) (b : BitVec 7)
  /-- DFMA: FP64 fused multiply-add into d.x2. (R142) -/
  | dfma (g : BitVec 2) (d : BitVec 7) (a : BitVec 7) (b : BitVec 7)
  /-- DMIN: FP64 minimumNumber. (R142) -/
  | dmin (g : BitVec 2) (d : BitVec 7) (a : BitVec 7) (b : BitVec 7)
  /-- DMAX: FP64 maximumNumber. (R142) -/
  | dmax (g : BitVec 2) (d : BitVec 7) (a : BitVec 7) (b : BitVec 7)
  /-- DDIV: Long-latency FP64 division, correctly rounded. (R142) -/
  | ddiv (g : BitVec 2) (d : BitVec 7) (a : BitVec 7) (b : BitVec 7)
  /-- DSQRT: Long-latency FP64 square root, correctly rounded. (R142) -/
  | dsqrt (g : BitVec 2) (d : BitVec 7) (a : BitVec 7)
  /-- DSET_EQ: FP64 equality into a predicate. (R142) -/
  | dsetEq (g : BitVec 2) (c : BitVec 4) (p : BitVec 3) (a : BitVec 7) (b : BitVec 7)
  /-- DSET_NE: FP64 not-equal or unordered into a predicate. (R142) -/
  | dsetNe (g : BitVec 2) (c : BitVec 4) (p : BitVec 3) (a : BitVec 7) (b : BitVec 7)
  /-- DSET_LT: FP64 less-than into a predicate. (R142) -/
  | dsetLt (g : BitVec 2) (c : BitVec 4) (p : BitVec 3) (a : BitVec 7) (b : BitVec 7)
  /-- DSET_LE: FP64 less-or-equal into a predicate. (R142) -/
  | dsetLe (g : BitVec 2) (c : BitVec 4) (p : BitVec 3) (a : BitVec 7) (b : BitVec 7)
  /-- DSET_GT: FP64 greater-than into a predicate. (R142) -/
  | dsetGt (g : BitVec 2) (c : BitVec 4) (p : BitVec 3) (a : BitVec 7) (b : BitVec 7)
  /-- DSET_GE: FP64 greater-or-equal into a predicate. (R142) -/
  | dsetGe (g : BitVec 2) (c : BitVec 4) (p : BitVec 3) (a : BitVec 7) (b : BitVec 7)
  /-- DSET_UNORDERED: FP64 unordered test into a predicate. (R142) -/
  | dsetUnordered (g : BitVec 2) (c : BitVec 4) (p : BitVec 3) (a : BitVec 7) (b : BitVec 7)
  /-- DSET_ORDERED: FP64 ordered test into a predicate. (R142) -/
  | dsetOrdered (g : BitVec 2) (c : BitVec 4) (p : BitVec 3) (a : BitVec 7) (b : BitVec 7)
  /-- HADD2_V: Packed f16 addition of two elements. (R143) -/
  | hadd2V (g : BitVec 2) (d : BitVec 7) (a : BitVec 7) (b : BitVec 7)
  /-- HADD2_S: Packed f16 addition with a scalar b. (R143) -/
  | hadd2S (g : BitVec 2) (d : BitVec 7) (a : BitVec 7) (b : BitVec 7)
  /-- HMUL2_V: Packed f16 multiplication. (R143) -/
  | hmul2V (g : BitVec 2) (d : BitVec 7) (a : BitVec 7) (b : BitVec 7)
  /-- HMUL2_S: Packed f16 multiplication with a scalar b. (R143) -/
  | hmul2S (g : BitVec 2) (d : BitVec 7) (a : BitVec 7) (b : BitVec 7)
  /-- HFMA2_V: Packed f16 fused multiply-add. (R143) -/
  | hfma2V (g : BitVec 2) (d : BitVec 7) (a : BitVec 7) (b : BitVec 7)
  /-- HFMA2_S: Packed f16 fused multiply-add with a scalar b. (R143) -/
  | hfma2S (g : BitVec 2) (d : BitVec 7) (a : BitVec 7) (b : BitVec 7)
  /-- BADD2_V: Packed bf16 addition. (R143) -/
  | badd2V (g : BitVec 2) (d : BitVec 7) (a : BitVec 7) (b : BitVec 7)
  /-- BADD2_S: Packed bf16 addition with a scalar b. (R143) -/
  | badd2S (g : BitVec 2) (d : BitVec 7) (a : BitVec 7) (b : BitVec 7)
  /-- BMUL2_V: Packed bf16 multiplication. (R143) -/
  | bmul2V (g : BitVec 2) (d : BitVec 7) (a : BitVec 7) (b : BitVec 7)
  /-- BMUL2_S: Packed bf16 multiplication with a scalar b. (R143) -/
  | bmul2S (g : BitVec 2) (d : BitVec 7) (a : BitVec 7) (b : BitVec 7)
  /-- BFMA2_V: Packed bf16 fused multiply-add. (R143) -/
  | bfma2V (g : BitVec 2) (d : BitVec 7) (a : BitVec 7) (b : BitVec 7)
  /-- BFMA2_S: Packed bf16 fused multiply-add with a scalar b. (R143) -/
  | bfma2S (g : BitVec 2) (d : BitVec 7) (a : BitVec 7) (b : BitVec 7)
  /-- HMIN2_V: Packed minimumNumber in f16 or bf16. (R143) -/
  | hmin2V (g : BitVec 2) (d : BitVec 7) (a : BitVec 7) (b : BitVec 7)
  /-- HMIN2_S: Packed minimumNumber with a scalar b. (R143) -/
  | hmin2S (g : BitVec 2) (d : BitVec 7) (a : BitVec 7) (b : BitVec 7)
  /-- HMAX2_V: Packed maximumNumber in f16 or bf16. (R143) -/
  | hmax2V (g : BitVec 2) (d : BitVec 7) (a : BitVec 7) (b : BitVec 7)
  /-- HMAX2_S: Packed maximumNumber with a scalar b. (R143) -/
  | hmax2S (g : BitVec 2) (d : BitVec 7) (a : BitVec 7) (b : BitVec 7)
  /-- FCVT: Converts between floating formats, rounded once. (R144) -/
  | fcvt (g : BitVec 2) (d : BitVec 7) (a : BitVec 7) (s : BitVec 3) (x : BitVec 3) (t : BitVec 1)
  /-- F2I: Converts floating to integer, toward zero by default. (R144) -/
  | f2i (g : BitVec 2) (d : BitVec 7) (a : BitVec 7) (s : BitVec 3) (x : BitVec 3) (t : BitVec 1)
  /-- I2F: Converts integer to floating, nearest even by default. (R144) -/
  | i2f (g : BitVec 2) (d : BitVec 7) (a : BitVec 7) (s : BitVec 3) (x : BitVec 3) (t : BitVec 1)
  /-- FPACK: Converts a group of f32 registers into one packed register. (R145) -/
  | fpack (g : BitVec 2) (d : BitVec 7) (a : BitVec 7) (s : BitVec 3) (x : BitVec 3) (t : BitVec 1)
  /-- FUNPACK: Converts packed elements exactly to a group of f32 registers. (R145) -/
  | funpack (g : BitVec 2) (d : BitVec 7) (a : BitVec 7) (s : BitVec 3) (x : BitVec 3)
  /-- BPACK: Encodes one Palush or AL16 block from the warp's 32 lanes. (R146) -/
  | bpack (g : BitVec 2) (d : BitVec 7) (a : BitVec 7)
  /-- BUNPACK: Decodes a block held across lanes into f32 per lane. (R147) -/
  | bunpack (g : BitVec 2) (d : BitVec 7) (a : BitVec 7)
  /-- XGET: Reads a from an absolute source lane. (R148) -/
  | xget (g : BitVec 2) (d : BitVec 7) (a : BitVec 7) (b : BitVec 7)
  /-- XROT: Reads a from a lane rotated across the warp. (R148) -/
  | xrot (g : BitVec 2) (d : BitVec 7) (a : BitVec 7) (b : BitVec 7)
  /-- XSLIDE: Reads a from a lane at a signed distance. (R148) -/
  | xslide (g : BitVec 2) (d : BitVec 7) (a : BitVec 7) (b : BitVec 7)
  /-- XMIRR: Reads a from the lane L xor b. (R148) -/
  | xmirr (g : BitVec 2) (d : BitVec 7) (a : BitVec 7) (b : BitVec 7)
  /-- LRED: Reduces a over each segment of active lanes in fixed tree order. (R149) -/
  | lred (g : BitVec 2) (d : BitVec 7) (a : BitVec 7) (b : BitVec 7)
  /-- LSCAN: Inclusive scan of a over each segment in fixed block order. (R149) -/
  | lscan (g : BitVec 2) (d : BitVec 7) (a : BitVec 7) (b : BitVec 7)
  /-- COMPACT: Packs selected values of a into the lowest-ranked active lanes. (R150) -/
  | compact (g : BitVec 2) (d : BitVec 7) (a : BitVec 7) (b : BitVec 7)
  /-- MATCH: Writes the mask of active lanes with equal keys. (R150) -/
  | matchLanes (g : BitVec 2) (d : BitVec 7) (a : BitVec 7) (b : BitVec 7)
  /-- INTERSECT: Intersects two sorted lists held across lanes and reports advances. (R151) -/
  | intersect (g : BitVec 2) (d : BitVec 7) (a : BitVec 7) (b : BitVec 7)
  /-- LD: Long-latency load of 1 to 8 registers per lane from a vector address. (R159) -/
  | ld (w : BitVec 2) (g : BitVec 2) (d : BitVec 7) (a : BitVec 7) (o : BitVec 8)
  /-- ST: Stores 1 to 8 registers per lane to a vector address. (R159) -/
  | st (w : BitVec 2) (g : BitVec 2) (d : BitVec 7) (a : BitVec 7) (o : BitVec 8)
  /-- LDS: Long-latency load from a scalar base plus lane offset. (R159) -/
  | lds (w : BitVec 2) (g : BitVec 2) (d : BitVec 7) (a : BitVec 7) (o : BitVec 8)
  /-- STS: Store to a scalar base plus lane offset. (R159) -/
  | sts (w : BitVec 2) (g : BitVec 2) (d : BitVec 7) (a : BitVec 7) (o : BitVec 8)
  /-- LD8: Loads a byte, sign-extended. (R160) -/
  | ld8 (g : BitVec 2) (d : BitVec 7) (a : BitVec 7) (i : BitVec 7)
  /-- LD8N: Loads a byte, zero-extended. (R160) -/
  | ld8n (g : BitVec 2) (d : BitVec 7) (a : BitVec 7) (i : BitVec 7)
  /-- LD16: Loads a halfword, sign-extended. (R160) -/
  | ld16 (g : BitVec 2) (d : BitVec 7) (a : BitVec 7) (i : BitVec 7)
  /-- LD16N: Loads a halfword, zero-extended. (R160) -/
  | ld16n (g : BitVec 2) (d : BitVec 7) (a : BitVec 7) (i : BitVec 7)
  /-- ST8: Stores the low byte of d. (R160) -/
  | st8 (g : BitVec 2) (d : BitVec 7) (a : BitVec 7) (i : BitVec 7)
  /-- ST16: Stores the low halfword of d. (R160) -/
  | st16 (g : BitVec 2) (d : BitVec 7) (a : BitVec 7) (i : BitVec 7)
  /-- LDBC: Loads one word at the lowest active lane's address into every active lane. (R160) -/
  | ldbc (g : BitVec 2) (d : BitVec 7) (a : BitVec 7) (i : BitVec 7)
  /-- PREF: Prefetches the line of each active lane's address toward the carve-out. (R160) -/
  | pref (g : BitVec 2) (a : BitVec 7) (i : BitVec 7)
  /-- ATOM_ADD: Indivisible add returning the old value. (R162) -/
  | atomAdd (g : BitVec 2) (d : BitVec 7) (a : BitVec 7) (b : BitVec 7)
  /-- ATOM_MIN: Indivisible minimum returning the old value. (R162) -/
  | atomMin (g : BitVec 2) (d : BitVec 7) (a : BitVec 7) (b : BitVec 7)
  /-- ATOM_MAX: Indivisible maximum returning the old value. (R162) -/
  | atomMax (g : BitVec 2) (d : BitVec 7) (a : BitVec 7) (b : BitVec 7)
  /-- ATOM_AND: Indivisible and returning the old value. (R162) -/
  | atomAnd (g : BitVec 2) (d : BitVec 7) (a : BitVec 7) (b : BitVec 7)
  /-- ATOM_OR: Indivisible or returning the old value. (R162) -/
  | atomOr (g : BitVec 2) (d : BitVec 7) (a : BitVec 7) (b : BitVec 7)
  /-- ATOM_XOR: Indivisible xor returning the old value. (R162) -/
  | atomXor (g : BitVec 2) (d : BitVec 7) (a : BitVec 7) (b : BitVec 7)
  /-- ATOM_EXCH: Indivisible exchange returning the old value. (R162) -/
  | atomExch (g : BitVec 2) (d : BitVec 7) (a : BitVec 7) (b : BitVec 7)
  /-- ATOM_CAS: Indivisible compare-and-swap returning the old value. (R162) -/
  | atomCas (g : BitVec 2) (d : BitVec 7) (a : BitVec 7) (b : BitVec 7)
  /-- RED_ADD: Atomic add without a returned value. (R163) -/
  | redAdd (g : BitVec 2) (a : BitVec 7) (b : BitVec 7)
  /-- RED_MIN: Atomic minimum without a returned value. (R163) -/
  | redMin (g : BitVec 2) (a : BitVec 7) (b : BitVec 7)
  /-- RED_MAX: Atomic maximum without a returned value. (R163) -/
  | redMax (g : BitVec 2) (a : BitVec 7) (b : BitVec 7)
  /-- RED_AND: Atomic and without a returned value. (R163) -/
  | redAnd (g : BitVec 2) (a : BitVec 7) (b : BitVec 7)
  /-- RED_OR: Atomic or without a returned value. (R163) -/
  | redOr (g : BitVec 2) (a : BitVec 7) (b : BitVec 7)
  /-- RED_XOR: Atomic xor without a returned value. (R163) -/
  | redXor (g : BitVec 2) (a : BitVec 7) (b : BitVec 7)
  /-- ATOMQ_ADD: Ticket-ordered atomic add between a release and an acquire. (R164) -/
  | atomqAdd (g : BitVec 2) (d : BitVec 7) (a : BitVec 7) (b : BitVec 7)
  /-- ATOMQ_EXCH: Ticket-ordered atomic exchange. (R164) -/
  | atomqExch (g : BitVec 2) (d : BitVec 7) (a : BitVec 7) (b : BitVec 7)
  /-- ATOMQ_CAS: Ticket-ordered atomic compare-and-swap. (R164) -/
  | atomqCas (g : BitVec 2) (d : BitVec 7) (a : BitVec 7) (b : BitVec 7)
  /-- FENCE_ACQ: Waits for earlier loads and self-invalidates unowned carve-out words. (R165) -/
  | fenceAcq
  /-- FENCE_REL: Waits for earlier stores to register and writes back the carve-out. (R165) -/
  | fenceRel
  /-- FENCE_AR: Performs fence.rel and then fence.acq. (R165) -/
  | fenceAr
  /-- MEET: Releases, arrives at a barrier and waits for the phase, then acquires. (R167) -/
  | meet (l : BitVec 3) (b : BitVec 4)
  /-- MEET_ARR: Releases and arrives at a barrier without waiting. (R167) -/
  | meetArr (l : BitVec 3) (b : BitVec 4)
  /-- MEET_WAIT: Waits for the phase of the warp's last arrival, then acquires. (R167) -/
  | meetWait (l : BitVec 3) (b : BitVec 4)
  /-- MEET_RED: Barrier meet carrying a 32-bit payload combined across members. (R168) -/
  | meetRed (l : BitVec 3) (b : BitVec 4) (o : BitVec 3) (s : BitVec 1) (r : BitVec 7)
  /-- TFENCE: Waits for flag-setting instructions and traps if an enabled flag is set. (R100) -/
  | tfence
  /-- TCOPY: Fill command copying every row of a tile from strided memory. (R175) -/
  | tcopy (x : BitVec 7) (y : BitVec 7) (z : BitVec 7)
  /-- TSTORE: Drain command writing every row of a tile to strided memory. (R175) -/
  | tstore (x : BitVec 7) (y : BitVec 7) (z : BitVec 7)
  /-- TGATHER: Fill command gathering one memory row per active lane into a tile. (R176) -/
  | tgather (x : BitVec 7) (y : BitVec 7) (z : BitVec 7)
  /-- TSCATTER: Drain command scattering one tile row per active lane to memory. (R176) -/
  | tscatter (x : BitVec 7) (y : BitVec 7) (z : BitVec 7)
  /-- TREADY: Waits for the gang's stores and commands, then marks a tile ready. (R178) -/
  | tready (x : BitVec 7)
  /-- TRELEASE: Waits for readers and commands, then empties a tile and clears its fault. (R178) -/
  | trelease (x : BitVec 7)
  /-- TSTATE: Long-latency snapshot of a tile's state into a scalar. (R180) -/
  | tstate (x : BitVec 7) (y : BitVec 7)
  /-- TROWS: Waits for a landed-row count and makes landed rows visible to the gang. (R179) -/
  | trows (x : BitVec 7) (y : BitVec 7)
  /-- MLOADW: Collective: latches a weight tile into the quadrants of a mask. (R272) -/
  | mloadw (x : BitVec 7) (y : BitVec 7)
  /-- MMA: Collective: appends a matrix product into the shape's output banks. (R273) -/
  | mma (x : BitVec 7) (y : BitVec 7) (z : BitVec 7)
  /-- MMAVS: Collective: MMA with replacement exponents from lane bytes. (R274) -/
  | mmavs (x : BitVec 7) (y : BitVec 7) (z : BitVec 7)
  /-- MFENCE: Collective: closes appended array operations into a numbered batch. (R276) -/
  | mfence (x : BitVec 7)
  /-- MWAIT: Waits until covered batches complete, then acquires. (R276) -/
  | mwait (x : BitVec 7)
  /-- MSTORE_REGISTER: Long-latency read of accumulator bank elements into vector registers. (R278) -/
  | mstoreRegister (x : BitVec 7) (b : BitVec 3) (z : BitVec 7)
  /-- MSTORE_TILE: Fill command converting accumulator bank elements into a tile. (R279) -/
  | mstoreTile (x : BitVec 7) (b : BitVec 3) (z : BitVec 7)
  /-- MZERO: Collective: appends a zeroing of the output banks. (R275) -/
  | mzero (x : BitVec 7)
  /-- MEDGE: Collective: replaces one part of an edge set from lane bits. (R277) -/
  | medge (x : BitVec 7) (y : BitVec 7) (z : BitVec 7)
  /-- MPAIR_LEAVE: Collective: waits for retirement and releases the follower quadrants. (R271) -/
  | mpairLeave
  /-- MPAIR_ENTER: Collective: waits for retirement and claims the follower's quadrants. (R271) -/
  | mpairEnter
  /-- MSHAPE: Collective: retires the stream, releases and claims quadrants for a shape. (R270) -/
  | mshape (x : BitVec 7) (y : BitVec 7)
  /-- NODEREAD: Long-latency read of one word of a node record per lane. (R222) -/
  | noderead (x : BitVec 7) (y : BitVec 7) (z : BitVec 7)
  /-- INBOX: Long-latency read of a yielded or handed word per lane. (R223) -/
  | inbox (x : BitVec 7) (y : BitVec 7) (z : BitVec 7)
  /-- YIELD: Takes the block's yield grant, releases, and writes words to the parent's inbox. (R224) -/
  | yieldUp (x : BitVec 7) (y : BitVec 7)
  /-- HAND: Releases and writes words into the handed slots of children. (R225) -/
  | hand (x : BitVec 7) (y : BitVec 7) (z : BitVec 7)
  /-- NODEALLOC: Reserves node indices at the grove record's home slice or refuses. (R226) -/
  | nodealloc (x : BitVec 7) (y : BitVec 7) (z : BitVec 7)
  /-- TREEGROW: Checks and attaches reserved nodes as children of this node. (R227) -/
  | treegrow (x : BitVec 7) (y : BitVec 7)
  /-- GROVE: Releases and submits a grove record for the issuing context. (R228) -/
  | grove (x : BitVec 7)
  /-- FRAME: Writes the block's frame address to a scalar pair. (R229) -/
  | frame (x : BitVec 7)
  /-- SPAWN: Releases and accepts or refuses each active lane as a sapling. (R242) -/
  | spawn (x : BitVec 7) (y : BitVec 7) (j : BitVec 1) (w : BitVec 2) (p : BitVec 3)
  /-- SPAWNF: Makes a seedbed bin, or every bin, form warps at once. (R243) -/
  | spawnf (x : BitVec 7)
  /-- JOINWAIT: Parks the warp until a join counter reads zero, then acquires. (R244) -/
  | joinwait (x : BitVec 7)
  /-- JOINADD: Releases and adds to a join counter at its home slice. (R245) -/
  | joinadd (x : BitVec 7) (y : BitVec 7)
  /-- PAYLOAD: Long-latency recovery of a sapling's payload words. (R246) -/
  | payload (x : BitVec 7) (y : BitVec 7)
  /-- SPQUERY: Long-latency snapshot of quota, seedbed and ring counts into a scalar. (R247) -/
  | spquery (x : BitVec 7) (y : BitVec 7)
  /-- CAPBEGIN: Acquires, waits on or adopts each lane's capsule record, then acquires. (R252) -/
  | capbegin (x : BitVec 7) (y : BitVec 7)
  /-- CAPEND: Releases and commits the end of each lane's capsule. (R258) -/
  | capend
  /-- CAPRES: Long-latency read of the lane's last capsule result word. (R260) -/
  | capres (x : BitVec 7)
  /-- CAPABORT: Releases and ends each lane's capsule as aborted, detaching. (R258) -/
  | capabort
  /-- BRA: Conditional branch that diverges slices onto the mask stack under an armed join. (R122) -/
  | bra (n : BitVec 1) (c : BitVec 3) (o : BitVec 22)
  /-- CALL: Pushes the return address of every slice and continues at the target. (R126) -/
  | call (n : BitVec 1) (c : BitVec 2) (o : BitVec 22)
  /-- JOINAT: Sets the armed join of every slice of the gang. (R121) -/
  | joinat (o : BitVec 22)
  /-- NOP: Does nothing. (R129) -/
  | nop
  /-- EXIT: Exits every active-mask lane and resumes waiting lanes from the mask stack. (R124) -/
  | exit
  /-- RET: Pops each slice's return stack and continues there. (R127) -/
  | ret
  /-- BRX_VECTOR: Indirect branch per lane, grouping lanes by target on the mask stack. (R128) -/
  | brxVector (r : BitVec 7)
  /-- BRX_SCALAR: Uniform indirect branch to a scalar-pair target. (R128) -/
  | brxScalar (r : BitVec 7)
  /-- REGANG: Waits for named slices and merges them into one gang and one scalar view. (R18) -/
  | regang (m : BitVec 8) (i : BitVec 12)
  /-- TRAP: Takes a precise trap to the device trap handler with a code. (R129) -/
  | trap (c : BitVec 16)
  /-- BKPT: Takes a precise trap that resumes at the BKPT itself. (R129) -/
  | bkpt (c : BitVec 16)
  /-- SLEEP: Makes the gang not ready for a number of reference-clock cycles. (R129) -/
  | sleep (n : BitVec 20)
  /-- YIELDQ: Makes the warp youngest on its partition and clears promotion. (R130) -/
  | yieldq
  /-- TSTAMP: Writes the reference-clock cycle count to a scalar pair. (R131) -/
  | tstamp (d : BitVec 7)
  /-- SREAD: Reads a system register into a scalar, flagsclr also clearing flags. (R132) -/
  | sread (s : BitVec 13) (d : BitVec 7)
  /-- SWRITE: Privileged write of a scalar to a system register. (R132) -/
  | swrite (s : BitVec 13) (d : BitVec 7)
  /-- IRET: Returns from the device trap handler or marks a halted warp saved. (R286) -/
  | iret
  /-- PARK: Parks the whole warp once its outstanding writes land. (R133) -/
  | park
  /-- HINT_IMM: Supplies 22 high bits of the target's immediate. (R63) -/
  | hintImm (i : BitVec 22)
  /-- HINT_GUARD: Guards the target by any of p0-p6, optionally negated. (R52) -/
  | hintGuard (n : BitVec 1) (p : BitVec 3)
  /-- HINT_SRCX: Marks register operands of the target trap-on-empty. (R59) -/
  | hintSrcx (c : BitVec 1) (b : BitVec 1) (a : BitVec 1)
  /-- HINT_CREG: Names the c operand register of the target. (R59) -/
  | hintCreg (r : BitVec 7)
  /-- HINT_TYPE: Selects the operand type of the target. (R60) -/
  | hintType (t : BitVec 5)
  /-- HINT_ROUND: Selects rounding mode, saturate and flush-to-zero for the target. (R59) -/
  | hintRound (f : BitVec 1) (s : BitVec 1) (m : BitVec 3)
  /-- HINT_SCHED: Sets a stall and yield bit for the target's issue. (R65) -/
  | hintSched (y : BitVec 1) (s : BitVec 4)
  /-- HINT_CACHE: Selects the cache placement policy of a memory or copy target. (R59) -/
  | hintCache (p : BitVec 3)
  /-- REGISTER_WRITE: A host or master write to a register with no row of its own, freezing the master if owner-only state is written without ownership. (R343) -/
  | registerWrite (master fn bar off size : Nat) (val : BitVec 64)
  /-- PROMOTION: A candidate ready and unchosen for 64 cycles is promoted. (R26) -/
  | promotion (w g : Nat)
  /-- SCHED_STALL_EXPIRY: A SCHED stall count expires and the target becomes ready. (R65) -/
  | schedStallExpiry (w g : Nat)
  /-- SLEEP_DEADLINE: A SLEEP's reference-clock deadline passes and the gang becomes ready. (R129) -/
  | sleepDeadline (w g : Nat)
  /-- BARRIER_WAIT_PARKING: A warp whose gangs all wait, one at a barrier over 4096 cycles, is parked. (R31) -/
  | barrierWaitParking (w : Nat)
  /-- UNPARK: A ready parked warp is unparked in order, parking a non-ready warp for room. (R32) -/
  | unpark (w : Nat)
  /-- BLOCK_ADMISSION: A waiting block is admitted when entries, scratch and stack room fit, and its warps start. (R29) -/
  | blockAdmission (b : Nat)
  /-- REGISTER_BECOMES_FULL: A long-latency producer's result lands and its destination bits become full, setting any flags. (R55) -/
  | registerBecomesFull (id : Nat)
  /-- INSTRUCTION_CACHE_PARITY_ERROR: A parity error in an instruction cache causes an invisible re-fetch. (R43) -/
  | instructionCacheParityError (core : Nat)
  /-- REGISTRATION: A store's registration completes at its home slice, recording the core as owner of the bytes. (R195) -/
  | registration (id : Nat)
  /-- CARVE_OUT_EVICTION: A carve-out copy is evicted, dirty bytes written back to home. (R194) -/
  | carveOutEviction (core line : Nat)
  /-- TRANSLATION_LOOKUP: A page walk completes, installing a translation or faulting, or sending a PRI request for a host page. (R154) -/
  | translationLookup (ctx : Nat) (va : BitVec 64)
  /-- PAGE_REQUEST_RESPONSE: A host page-request response frees its tag entry and retries or faults the stalled lanes: the host frame of the page, or none where the host refuses it. (R289) -/
  | pageRequestResponse (index : Nat) (frame : Option Nat)
  /-- TILE_ROW_LANDING: A fill command's row lands in scratch, raising the landed count and perhaps making the tile ready. (R174) -/
  | tileRowLanding (cmd row : Nat)
  /-- DRAIN_ROW_COMPLETION: A drain command's row is written to memory; when none remain the tile returns to ready. (R175) -/
  | drainRowCompletion (cmd row : Nat)
  /-- TILE_COPY_FAULT: A copy command meets an unresolvable fault, ends and sets the tile's fault bit. (R181) -/
  | tileCopyFault (cmd : Nat)
  /-- ARRAY_OPERATION_START: An appended array operation begins streaming through its quadrants. (R273) -/
  | arrayOperationStart (op : Nat)
  /-- ARRAY_OPERATION_RETIREMENT: An array operation retires, completing a batch when it is the last and setting flags. (R265) -/
  | arrayOperationRetirement (op : Nat)
  /-- QUADRANT_CLAIM_GRANT: A waiting quadrant claim is granted in order when its quadrants are free. (R262) -/
  | quadrantClaimGrant (claim : Nat)
  /-- BARRIER_PACKET: A router receives a barrier packet and forwards one when every marked port has reported. (R38) -/
  | barrierPacket (bar w : Nat)
  /-- BARRIER_RELEASE: A barrier phase completes and its release reaches waiting members with the combined payload. (R166) -/
  | barrierRelease (bar : Nat)
  /-- GROVE_ACCEPTANCE: A submitted grove is checked in order and either refused or made live. (R212) -/
  | groveAcceptance (id : Nat)
  /-- PHASE_START: A phase begins, setting every reachable node pending with REMAIN equal to its child count. (R209) -/
  | phaseStart (grove : Nat)
  /-- TRAIL_BEGIN: A core begins a trail on its pending subtree nearest the root. (R218) -/
  | trailBegin (grove core : Nat)
  /-- TRAIL_DEEPEN: A trail deepens into the lowest-positioned pending child of its node. (R218) -/
  | trailDeepen (grove trail : Nat)
  /-- STEAL: A core with no trail takes a pending subtree from a core of its steal domain. (R219) -/
  | steal (grove core : Nat)
  /-- ALLOCATION_GRANT: A waiting clearing allocation is granted under the reserve line rule. (R217) -/
  | allocationGrant (grove trail : Nat)
  /-- NODE_START: A runnable node starts its block after its clearing units are allocated. (R216) -/
  | nodeStart (grove trail : Nat)
  /-- BLOCK_END: A block ends after its warps and accesses complete; frames are freed and the node may complete. (R208) -/
  | blockEnd (b : Nat)
  /-- COMPLETION_WORD_WRITE: The grove ends and its completion word is written with a release, then an MSI-X if requested. (R214) -/
  | completionWordWrite (grove : Nat)
  /-- BIN_TIMER_EXPIRY: 4096 cycles pass since a bin's oldest sapling was accepted. (R235) -/
  | binTimerExpiry (core bin grove : Nat)
  /-- SAPLING_WARP_FORMATION: A seedbed bin forms a sapling warp once an entry and room are available. (R235) -/
  | saplingWarpFormation (core bin grove : Nat)
  /-- SAPLING_EXIT: A sapling's warp accesses complete and its join counter is decremented at home. (R237) -/
  | saplingExit (id : Nat)
  /-- JOINWAIT_WAKE: The counter's home slice sees zero and wakes the parked joiner. (R244) -/
  | joinwaitWake (w : Nat)
  /-- CAPSULE_STEP_COMMIT: A capsule step reaches home and is applied with its checkpoint or refused. (R254) -/
  | capsuleStepCommit (w lane : Nat)
  /-- AWAY: An away message marks a lane's held or adopting record away. (R255) -/
  | away (w : Nat)
  /-- BACK: A back message returns an away record under the warp's token to held or adopting. (R255) -/
  | back (w : Nat)
  /-- DELIVERY: An adopted run's result reaches the holder lane's result slot and sets its adopted mark. (R257) -/
  | delivery (id : Nat)
  /-- TRAP_RING_DELIVERY: A host-bound trap record is copied to the trap ring when room exists and an MSI-X raised. (R287) -/
  | trapRingDelivery (ctx : Nat)
  /-- HOST_ACTION: A TRCONS advance makes the device read each passed entry's action and resume or end the warp: the value of TRCONS, and the bytes of its own memory that the host has written before it. (R287) -/
  | hostAction (ctx : Nat) (call : BitVec 32 × List (Nat × BitVec 8))
  /-- PREEMPT: A CXCTL PREEMPT write starts or joins the pre-emption ladder on named core pairs. (R290) -/
  | preempt (ctx : Nat) (pairs : BitVec 64) (d1 d2 : Nat)
  /-- DRAIN_DEADLINE: D1 expires and the halt stage begins. (R290) -/
  | drainDeadline (ctx : Nat)
  /-- HALT_ENTRY: A warp at a reconvergence point enters the save handler with halt entry set. (R291) -/
  | haltEntry (w : Nat)
  /-- DESIGNATED_HALT_ENTRY: The designated warp's halt entry is delivered once the rest of its block is saved. (R292) -/
  | designatedHaltEntry (w : Nat)
  /-- HALT_DEADLINE: D2 expires and hardware capture of unsaved warps begins. (R290) -/
  | haltDeadline (ctx : Nat)
  /-- CAPTURE_COMPLETION: Capture finishes and the context's core pairs are recorded saved. (R290) -/
  | captureCompletion (ctx : Nat)
  /-- CONTEXT_LOSS: An uncorrectable error during capture discards the context and writes status 0x0300. (R290) -/
  | contextLoss (ctx : Nat)
  /-- RESUME: A CXCTL RESUME write restores a saved context in order. (R295) -/
  | resume (ctx : Nat)
  /-- FREEZE_REQUEST: The freeze engine runs the ladder on every context and copies memory to the host. (R296) -/
  | freezeRequest (d1 d2 : Nat)
  /-- FREEZE_COMPLETION: The freeze copy ends, every save area is marked saved with reason 2, and an MSI-X is raised. (R296) -/
  | freezeCompletion
  /-- THAW: The buffer is copied back and every context resumed. (R296) -/
  | thaw
  /-- CORRECTED_ERROR: An ECC-corrected error is counted and an eighth retires the granule. (R297) -/
  | correctedError (addr : Nat)
  /-- UNCORRECTABLE_ERROR: An uncorrectable error poisons the word and retires its granule. (R297) -/
  | uncorrectableError (addr : Nat)
  /-- APPLY: An STDCTL APPLY write checks a stand block and begins applying it or writes ERR. (R300) -/
  | apply (master stand : Nat)
  /-- APPLY_COMPLETION: The stand's home-cache write-back and vault split finish and STATE becomes enabled. (R300) -/
  | applyCompletion (stand : Nat)
  /-- VF_READY: A VFCTL READY write makes a stopped, bound VF ready. (R301) -/
  | vfReady (vf : Nat)
  /-- VF_STOP: A VFCTL STOP write switches the VF out and leaves it stopped. (R303) -/
  | vfStop (vf : Nat)
  /-- SLICE_EXPIRY: A VF's world-switch time slice expires and a switch out begins. (R303) -/
  | sliceExpiry (stand : Nat)
  /-- SWITCH_OUT_COMPLETION: The switch out finishes and the next VF is resumed and running. (R303) -/
  | switchOutCompletion (stand : Nat)
  /-- FUNCTION_LEVEL_RESET: An FLR discards a VF's contexts, tagged lines and counters. (R305) -/
  | functionLevelReset (fn : Nat)
  /-- CTXSW: A CTXSW GO write saves one context of the VF and resumes another. (R307) -/
  | ctxsw (vf : Nat) (val : BitVec 64)
  /-- CTXSW_COMPLETION: The guest context switch ends with STATUS done or failed. (R307) -/
  | ctxswCompletion (vf : Nat)
  /-- DLCTL_EN: Setting DLCTL EN enables dirty logging and clears logged bits, DLPROD and OVF. (R309) -/
  | dlctlEn (vf : Nat) (val : BitVec 32)
  /-- DLCTL_REARM: A DLCTL REARM write begins clearing every logged bit of the VF. (R309) -/
  | dlctlRearm (vf : Nat)
  /-- REARM_COMPLETION: The REARM finishes and REARMED is set. (R309) -/
  | rearmCompletion (vf : Nat)
  /-- REMAP_GO: A REMAPCTL GO write holds accesses to a granule and starts its copy. (R311) -/
  | remapGo (vf : Nat)
  /-- REMAP_COMPLETION: The granule copy and invalidation finish, held accesses are released and DONE set. (R311) -/
  | remapCompletion (vf : Nat)
  /-- LAUNCH: A 64-bit LAUNCH write submits a grove record for the context: its address, and the bytes of its own memory that the host has written before it. (R315) -/
  | launch (ctx : Nat) (call : BitVec 64 × List (Nat × BitVec 8))
  /-- INVALIDATE: An INVCTL GO write drops translations of a page or the whole context. (R319) -/
  | invalidate (ctx : Nat) (val : BitVec 32)
  /-- INVALIDATION_DONE: Every cache has dropped the translation and its accesses have completed, so DONE is set. (R319) -/
  | invalidationDone (ctx : Nat)
  /-- ATS_INVALIDATION: An ATS invalidation from the host completes after accesses using the old translation. (R319) -/
  | atsInvalidation (fn : Nat) (page : Nat)
  /-- FLIT_RECEIPT: A Horxus flit is received, checked by CRC and sequence, and its messages delivered. (R320) -/
  | flitReceipt (link : Nat) (flit : List Byte)
  /-- NEGATIVE_ACKNOWLEDGEMENT: A negative acknowledgement makes the sender replay, retraining after eight failures. (R320) -/
  | negativeAcknowledgement (link : Nat) (seq : Nat)
  /-- RETRAIN_TIMEOUT: A retrain unfinished after 10 ms takes the link down. (R320) -/
  | retrainTimeout (link : Nat)
  /-- LINK_DOWN: A link goes down and its in-flight requests complete with poison or warp-less reports. (R323) -/
  | linkDown (link : Nat)
  /-- COLD_RESET: The boot ROM verifies firmware, trains memory and links, and starts or enters recovery. (R340) -/
  | coldReset
  /-- FWCTL_VERIFY: FWCTL bit 0 verifies the staged image and makes it the boot image or sets ERR. (R341) -/
  | fwctlVerify (master : Nat)
  /-- FWCTL_COLD_RESET: FWCTL bit 1 requests a cold reset. (R341) -/
  | fwctlColdReset (master : Nat)
  /-- MGCLAIM: A write of MGCLAIM claims, hands or releases window ownership. (R342) -/
  | mgclaim (master : Nat) (val : BitVec 32)
  /-- HOT_RESET: A hot reset of a port clears the owner state and unfreezes the master. (R343) -/
  | hotReset (port : Nat)
  /-- I3C_TARGET_RESET: An I3C target reset unfreezes the board controller. (R343) -/
  | i3cTargetReset
  /-- GET_VERSION: SPDM request returning supported versions. (R344) -/
  | getVersion (master : Nat)
  /-- GET_CAPABILITIES: SPDM request returning responder capabilities. (R344) -/
  | getCapabilities (master : Nat)
  /-- NEGOTIATE_ALGORITHMS: SPDM request negotiating SHA-256 and SLH-DSA-SHA2-192s. (R344) -/
  | negotiateAlgorithms (master : Nat)
  /-- GET_DIGESTS: SPDM request returning certificate digests. (R344) -/
  | getDigests (master : Nat)
  /-- GET_CERTIFICATE: SPDM request returning the certificate chain. (R344) -/
  | getCertificate (master slot off len : Nat)
  /-- CHALLENGE: SPDM request for a signed challenge response. (R344) -/
  | challenge (master : Nat) (nonce : List Byte)
  /-- GET_MEASUREMENTS: SPDM request returning the measurement blocks. (R344) -/
  | getMeasurements (master index : Nat) (nonce : List Byte)
  /-- DROOP_ALARM: A supply droop stretches the clock and opens a throttle window. (R345) -/
  | droopAlarm (core : Nat)
  /-- STRETCH_END: The count of stretched cycles expires and the nominal clock returns. (R345) -/
  | stretchEnd (core : Nat)
  /-- THROTTLE_WINDOW_EXPIRY: The throttle window ends, restoring dual issue and the 1024-cycle bound. (R345) -/
  | throttleWindowExpiry (core : Nat)
  /-- LIFETIME_RECORD_WRITE: Every 60 s the lifetime record is written to protected flash. (R346) -/
  | lifetimeRecordWrite
  /-- POWER_DOWN: An orderly power-down writes the lifetime record first. (R346) -/
  | powerDown
  /-- LINK_TRAINING_COMPLETION: A Horxus link finishes training or retraining, and HXSTAT moves from training to up, or to peer mismatch. (R321) -/
  | linkTrainingCompletion (link peer : Nat)
  /-- DELIVERY_ACKNOWLEDGEMENT: The acknowledgement of an adopted run's delivery reaches the home slice, which frees the lock word and wakes the contenders. (R256) -/
  | deliveryAcknowledgement (id : Nat)
  /-- BAR4_ACCESS: A host read or write of device memory through BAR4 is performed as a tagged access of the function at the home slice. (R313) -/
  | bar4Access (fn off size : Nat) (write : Bool) (data : List (BitVec 8))
  /-- ATS_TRANSLATION_COMPLETION: The host's ATS translation completion for a host page arrives and installs the translation, or reports it absent and leads to PRI: the host frame of the page, with its permissions. (R319) -/
  | atsTranslationCompletion (ctx page : Nat) (answer : Nat × BitVec 2)
  /-- LOSS_OF_POWER: Power is lost suddenly, and lifetime counts since the last record write are lost. (R346) -/
  | lossOfPower
  /-- CYCLE_COUNT_WRAP: A PMCNT counting main-clock cycles or array beats passes 2^48-1, wraps, sets its PMOVF bit and may raise the VF's MSI-X. (R306) -/
  | cycleCountWrap (fn i : Nat)
deriving DecidableEq, Repr

end Sys2Proof
end

