-- ==== Sys2Proof/Machine/State.lean ====
section
/-! DEFINITION. The whole state of the machine as plain data, every piece the manual names, and the state after reset.
What each field is for stands beside it, with the rule of spec/ that gives it. -/

namespace Sys2Proof.Machine

/-- Why the machine stops with a fault. Every trap of the manual is a next state and stands nowhere here. -/
inductive Fault where
  /-- Raised by the meaning of an encoded instruction when no gang is issuing: an instruction is always some gang's
  (R16, R26), so there is no machine step to take. Safe: the hardware never issues an instruction of no gang. -/
  | noIssuingGang
deriving DecidableEq, Repr

/-- Why a step has no meaning. -/
inductive Refusal where
  /-- Raised by an arm of exec whose instruction has no meaning yet. Safe: nothing can be proved of such a step. -/
  | notModelled (mnemonic : String)
deriving DecidableEq, Repr

/-! ### Warps, gangs, slices -/

/-- An entry of a slice's mask stack (R122). -/
structure MaskEntry where
  /-- Where the waiting lanes resume. -/
  resume : DWord
  /-- The waiting lanes of the slice. -/
  lanes : BitVec 4
  /-- The join PC; none for an entry whose branch condition armed nothing (never pushed by BRA or BRX). -/
  join : Option DWord
  /-- Phase 1. -/
  second : Bool
deriving DecidableEq, Repr

/-- A slice of four lanes: the smallest unit that owns a program counter (R13). -/
structure Slice where
  /-- Program counter, bits 1:0 zero (R43). -/
  pc : DWord
  /-- Active mask (R13). -/
  active : BitVec 4
  /-- Mask stack, top first, at most 8 entries (R13, R122). -/
  stack : List MaskEntry
  /-- Return stack, top first, at most 32 addresses, the spilled ones included (R14). -/
  rets : List DWord
  /-- Armed join (R120). -/
  armed : Option DWord
  /-- The slice is exited (R15). -/
  exited : Bool
  /-- Lanes that detached from a capsule and rejoin at the next CAPEND (R257). -/
  detached : BitVec 4
deriving DecidableEq, Repr

/-- A hint of a pending group (R59, R61). -/
structure Hint where
  /-- Hint kind, 0 to 7. -/
  kind : Nat
  /-- Payload. -/
  payload : BitVec 22
deriving DecidableEq, Repr

/-- What a waiting gang has already done of the instruction it waits at; its PC stays at that instruction. -/
inductive Pending where
  /-- Nothing. -/
  | none
  /-- It has arrived at a REGANG: identifier and named slices (R18). -/
  | regang (id : Nat) (mask : BitVec 8)
  /-- It has arrived at a barrier in the phase given and waits for its completion (R166, R167). -/
  | barrier (bar phase : Nat)
  /-- It has made its warp's arrival of the number given at a collective (R264). -/
  | team (k : Nat)
  /-- JOINWAIT found the counter at the address given nonzero; whether its home has seen it at zero since (R239, R244). -/
  | join (addr : DWord) (zero : Bool)
  /-- It is to arrive again at a barrier, once the phase it last arrived in is complete (R166). -/
  | again (bar phase : Nat)
  /-- It has issued, and waits for what its effect waits for. -/
  | issued
  /-- CAPBEGIN has acquired for the lanes given (R252). -/
  | capsule (acquired : BitVec 32)
  /-- A step, CAPEND or CAPABORT has dealt with the lanes given and waits for the others (R257). -/
  | delivery (finished : BitVec 32)
  /-- A collective that waits for a quadrant claim (R270, R271). -/
  | claim (id : Nat)
  /-- A SPAWN or an atomic has dealt with the lanes given (R242, R156). -/
  | lanes (finished : BitVec 32)
  /-- It waits for a host page (R154). -/
  | page
  /-- Its collective ended in the trap given while its warp could not take one: it takes it when it issues again (R264, R282). -/
  | caught (cls detail : Nat)
  /-- It is at its accesses to ordered pages, which are made one at a time (R155). -/
  | ordered
  /-- An ATOMQ takes its tickets; on an ordered page (R164, R155). -/
  | ticket (ordered : Bool)
deriving DecidableEq, Repr

/-- A gang: slices of a warp that issue together (R16), with its view of the scalar file (R21). -/
structure Gang where
  /-- The slices. -/
  slices : BitVec 8
  /-- The view of s0 to s95; unlisted registers hold 0. -/
  s : SMap Word
  /-- The view of q0 to q2. -/
  q : BitVec 3
  /-- The written set: bit i for si, bit 96 + i for qi (R21). -/
  written : BitVec 99
  /-- The pending hint group, oldest first (R61). -/
  hints : List Hint
  /-- The time its last hint issued (R65). -/
  hinted : Nat
  /-- It waits; it is tried again once the machine has moved on from the step count given. -/
  wait : Option Nat
  /-- What it has done of the instruction it waits at. -/
  pend : Pending
  /-- SCHED stall or yield: not ready until the time given (R65, R27). -/
  stall : Option Nat
  /-- SLEEP: not ready until the reference-clock time given, in model time units (R129). -/
  sleep : Option Nat
  /-- Promoted (R26). -/
  promoted : Bool
  /-- Consecutive cycles it was ready and not chosen (R26). -/
  unchosen : Nat
  /-- The time its wait at a barrier or a team arrival began (R31). -/
  since : Nat
  /-- Completed lanes that its re-execution of the instruction at the PC given leaves out (R286). -/
  redo : Option (DWord × BitVec 32)
  /-- The words fetched of its hint group, oldest first, and of the instruction that it issues or waits at (R282, R283). -/
  words : List Word
deriving DecidableEq, Repr

/-- The capsule state of a lane (R251 to R260). -/
structure CapLane where
  /-- The lane is in a capsule. -/
  inside : Bool
  /-- Address of its record. -/
  record : DWord
  /-- The k base, a multiple of 16. -/
  kbase : Nat
  /-- PC of the body's first instruction. -/
  entry : DWord
  /-- The STEP its next commit expects (R254). -/
  step : Nat
  /-- Steps this lane committed itself (R260). -/
  own : Nat
  /-- The sequence of its last take, 0 before the first (R251). -/
  seq : Nat
  /-- Adopted mark with the result slot: k0 to k15, p0 to p6, the CAPRES word (R257). -/
  result : Option (List Word × BitVec 7 × Word)
  /-- The CAPRES word of its last ended capsule (R260). -/
  last : Word
  /-- The token of the take it runs under (R251). -/
  token : Word
  /-- It runs an adopted body (R256). -/
  adopting : Bool
  /-- The reply to its last commit: accepted or refused (R254). -/
  reply : Option Bool
deriving DecidableEq, Repr

/-- The adoption buffer (R256). -/
structure AdoptBuffer where
  /-- The adopting lane. -/
  lane : Nat
  /-- The slices of the gang that issued the CAPBEGIN. -/
  slices : BitVec 8
  /-- The CAPBEGIN. -/
  pc : DWord
  /-- Active masks of the warp's slices. -/
  actives : List (BitVec 4)
  /-- p0 to p6 of the lane. -/
  preds : BitVec 7
  /-- v(h) to v(h + 15) of the lane. -/
  regs : List Word
  /-- h. -/
  base : Nat
  /-- Lanes of the CAPBEGIN that had acquired. -/
  acquired : BitVec 32
deriving DecidableEq, Repr

/-- What a warp was at its halt entry: what its save handler would write, and what it resumes with (R291, R294, R295). -/
structure Halt where
  /-- Its gang, with its view, what it had done of the instruction it waited at, and its SLEEP deadline (R129, R290). -/
  gang : Gang
  /-- Its slices; their PC is where it resumes. -/
  slices : List Slice
  /-- Vector registers. -/
  v : SMap Word
  /-- p0 to p6. -/
  p : SMap Word
  /-- FLAGS. -/
  flags : Word
deriving DecidableEq, Repr

/-- A warp's stay in handler mode (R285, R291). -/
structure Handler where
  /-- Slices of the gang in the handler. -/
  slices : BitVec 8
  /-- Address of the trap record, or of the warp image at a halt entry. -/
  record : DWord
  /-- Mask-stack depth of each slice at entry (R286). -/
  depths : List Nat
  /-- At a halt entry (R284): what the warp was. -/
  halt : Option Halt
deriving DecidableEq, Repr

/-- Where a warp stands with its storage (R30, R31, R294). -/
inductive Residency where
  /-- Resident. -/
  | resident
  /-- Parked; with whether it is ready, and its place in the order of becoming ready (R32). -/
  | parked (ready : Bool) (order : Nat)
  /-- Saved or captured: in the save area. -/
  | saved (captured : Bool)
deriving DecidableEq, Repr

/-- A warp (R13). -/
structure Warp where
  /-- Core (R28). -/
  core : Nat
  /-- Scheduling entry (R29). -/
  entry : Nat
  /-- Scheduler partition (R28). -/
  part : Nat
  /-- Its block, or none for a sapling warp. -/
  block : Option Nat
  /-- Its grove. -/
  grove : Nat
  /-- Its context. -/
  ctx : Nat
  /-- Index in the block; 0 in a sapling warp (R47). -/
  index : Nat
  /-- Kernel index it runs, or a sapling warp's entry (R47). -/
  kernel : Nat
  /-- Vector window n (R46). -/
  window : Nat
  /-- Scalar count (R206). -/
  scalars : Nat
  /-- The kernel permits capsules (R206). -/
  capsules : Bool
  /-- PC of the code segment base (R205). -/
  code : DWord
  /-- Vector registers: key 32 × register + lane; unlisted 0. -/
  v : SMap Word
  /-- p0 to p6, one mask of lanes each, by number; unlisted all false (R48). -/
  p : SMap Word
  /-- FLAGS (R97). -/
  flags : Word
  /-- Empty vector registers: by register, the slices for which it is empty (R13, R55). -/
  emptyV : SMap (BitVec 8)
  /-- Empty scalar registers (R13, R55). -/
  emptyS : BitVec 96
  /-- The eight slices. -/
  slices : List Slice
  /-- The gangs; every unexited slice is in exactly one (R16). -/
  gangs : List Gang
  /-- Age: lower is older (R26, R130). -/
  age : Nat
  /-- Storage. -/
  residency : Residency
  /-- Handler mode. -/
  handler : Option Handler
  /-- Stopped on a host-bound trap (R287). -/
  hostStop : Bool
  /-- The address after the word whose issue took that trap (R287). -/
  stopNext : DWord
  /-- Gangs of other warps that wait to access its registers, for which it is kept resident: warp, slice, and PC (R42). -/
  callers : List (Nat × Nat × DWord)
  /-- Saplings of a sapling warp, by lane (R236, R246). -/
  saplings : SMap (List Word × Option DWord)
  /-- Reason of the last refused SPAWN (R247). -/
  refusal : Nat
  /-- Capsule state by lane. -/
  caps : SMap CapLane
  /-- Adoption buffers, one for each gang that runs an adopted body (R256). -/
  adopts : List AdoptBuffer
  /-- The batches of its team that its MWAITs have covered, for MSTORE (R278). -/
  waited : List Nat
  /-- Collective arrivals made (R264). -/
  arrivals : Nat
  /-- The phases of the barriers this warp last arrived in: by barrier (R167). -/
  arrived : SMap Nat
  /-- Away messages: 0 none, 1 to be sent, 2 sent (R255). -/
  away : Nat
  /-- Its last wake was by a JOINWAIT completion or a window access of another warp (R33). -/
  urgent : Bool
  /-- It is resident in the last slot of the sapling reserve (R33). -/
  lastSlot : Bool
  /-- The warp has ended (R15). -/
  ended : Bool
deriving DecidableEq, Repr

/-! ### Memory traffic -/

/-- A copy in a core's cache carve-out of one byte (R189). -/
structure Carve where
  /-- The byte. -/
  val : Byte
  /-- The core owns it: its registration is the last (R189). -/
  owned : Bool
deriving DecidableEq, Repr

/-- A store on its way to its home slice (R195). -/
structure Reg where
  /-- Issuing core. -/
  core : Nat
  /-- Issuing warp and slices, for fences (R165). -/
  warp : Nat
  /-- Slices that issued it. -/
  slices : BitVec 8
  /-- Home slice (R53). -/
  home : Nat
  /-- Context. -/
  ctx : Nat
  /-- Tenant tag (R304). -/
  tag : Nat
  /-- Bytes: memory key and value. -/
  bytes : List (Nat × Byte)
deriving DecidableEq, Repr

/-- An operation of the hardware itself that reads another device's memory. -/
inductive EngineOp where
  /-- The acceptance of a submission (R212). -/
  | submission (id : Nat)
  /-- A trail's entry of a node (R228). -/
  | node (grove node : Nat)
  /-- A tree or capsule instruction of a gang. -/
  | gang (w : Nat) (slices : BitVec 8)
  /-- The write of a completion word (R214). -/
  | completion (grove : Nat)
  /-- Away and back of a warp's capsules (R255). -/
  | capsules (w : Nat)
deriving DecidableEq, Repr

/-- Who waits for a peer's answer to a remote access (R322). -/
inductive Asker where
  /-- A lane of a gang at an instruction: warp, slices, group PC and lane; the lanes the answer completes; where the answer
  is data, the register group it goes to, its registers, and its form: 0 words, 1 a signed and 2 an unsigned narrow value. -/
  | lane (w : Nat) (slices : BitVec 8) (pc : DWord) (lane : Nat) (give : Word) (dest : Option (Nat × Nat × Nat))
  /-- An access that an instruction makes once, or a SPAWN's lane to its counter: warp, slices, group PC and lane; the sapling
  whose counter it is (R232, R239, R245). -/
  | once (w : Nat) (slices : BitVec 8) (pc : DWord) (lane : Nat) (sapling : Option Nat)
  /-- A fetch of a gang: warp, slices and PC (R43). -/
  | fetch (w : Nat) (slices : BitVec 8) (pc : DWord)
  /-- The decrement of an exited sapling's counter (R237). -/
  | exit (id : Nat)
  /-- A part of a row of a copy command: command, row and the part's key. -/
  | row (cmd row key : Nat)
  /-- An aligned 32-byte part that the hardware itself reads: for what, and the part's key. -/
  | engine (op : EngineOp) (key : Nat)
  /-- A store of the hardware itself, which nothing waits for. -/
  | posted
deriving DecidableEq, Repr

/-- A request to another device, from its sending until its asker has taken the answer (R320, R322, R323). -/
structure Request where
  /-- Who waits. -/
  who : Asker
  /-- Link it travels on. -/
  link : Nat
  /-- Issuing context. -/
  ctx : Nat
  /-- Virtual address of its 4 KiB granule. -/
  page : DWord
  /-- Bytes. -/
  size : Nat
  /-- A store, a RED or a row of a drain (R323). -/
  quiet : Bool
  /-- It only reads. -/
  load : Bool
  /-- Its link went down: it completes once the entry that reports it is written (R323). -/
  lost : Bool
  /-- The model's own: its place among what the machine issued. -/
  order : Nat
  /-- The answer: fault class or 0, fault detail, data. -/
  answer : Option (Nat × Nat × Nat)
deriving DecidableEq, Repr

/-- A long-latency result that has not landed (R55). -/
structure Land where
  /-- Warp. -/
  warp : Nat
  /-- Slices of the issuing gang. -/
  slices : BitVec 8
  /-- Vector results: register, lanes written, value of each lane. -/
  vecs : List (Nat × Word × List Word)
  /-- Vector registers and the slices for which the issue marked them empty. -/
  marks : List (Nat × BitVec 8)
  /-- Scalar results. -/
  scals : List (Nat × Word)
  /-- Uniform predicate result (R226). -/
  quni : Option (Nat × Bool)
  /-- Flags it sets (R98). -/
  flags : Word
  /-- It is a load or an atomic, for FENCE.ACQ (R165). -/
  memory : Bool
  /-- It is an ATOMQ's: the gang acquires when it lands, and issues nothing before (R164). -/
  acquire : Bool
  /-- Its instruction can set a flag, for TFENCE (R100). -/
  mayFlag : Bool
deriving DecidableEq, Repr

/-- An installed translation (R154, R319). -/
structure Tlb where
  /-- Context. -/
  ctx : Nat
  /-- First virtual address of the page. -/
  va : Nat
  /-- Page bytes. -/
  size : Nat
  /-- TGT (R318). -/
  tgt : Nat
  /-- Page address in that target. -/
  base : Nat
  /-- DEV. -/
  dev : Nat
  /-- Attributes: ordered, execute, write, read, from bit 3 down. -/
  attr : BitVec 4
deriving DecidableEq, Repr

/-- An entry of the tag table (R289). -/
structure Tag where
  /-- Context. -/
  ctx : Nat
  /-- Core. -/
  core : Nat
  /-- Warp, or none for a copy command. -/
  warp : Option Nat
  /-- Host page. -/
  page : Nat
  /-- Lanes stalled. -/
  lanes : BitVec 32
  /-- Virtual address of the access. -/
  va : DWord
deriving DecidableEq, Repr

/-- The state of an entry of a tile table (R172). -/
inductive TileState where
  /-- 0 -/
  | empty
  /-- 1 -/
  | filling
  /-- 2 -/
  | ready
  /-- 3 -/
  | draining
deriving DecidableEq, Repr

/-- A present tile: geometry (R170) and state (R172). -/
structure Tile where
  /-- Scratch offset in bytes. -/
  off : Nat
  /-- Rows. -/
  rows : Nat
  /-- Elements per row. -/
  k : Nat
  /-- TYPE code of its format. -/
  fmt : Nat
  /-- Plane form. -/
  plane : Bool
  /-- State. -/
  state : TileState
  /-- Reader count. -/
  readers : Nat
  /-- Landed rows, saturating at 4095. -/
  landed : Nat
  /-- Commands in flight. -/
  cmds : Nat
  /-- Fault bit. -/
  fault : Bool
  /-- Address of the fault (R181). -/
  faultAddr : DWord
deriving DecidableEq, Repr

/-- A fill or drain command of a core's copy queue (R174). -/
structure CopyCmd where
  /-- Core. -/
  core : Nat
  /-- Block. -/
  block : Nat
  /-- Tile. -/
  tile : Nat
  /-- Issuing warp. -/
  warp : Nat
  /-- Issuing slices. -/
  slices : BitVec 8
  /-- A drain (TSTORE, TSCATTER). -/
  drain : Bool
  /-- Memory format, a TYPE code. -/
  fmt : Nat
  /-- Bytes of a memory row. -/
  size : Nat
  /-- Rows to do: tile row and memory address, or for MSTORE tile row and bank row. -/
  todo : List (Nat × DWord)
  /-- For MSTORE: first bank quadrant's key, bank and column; the values are read at issue (R278). -/
  values : List (Nat × List Word)
  /-- Memory bytes a fill read as its gang's loads at issue (R182): by tile row. -/
  source : List (Nat × List Byte)
  /-- Address that ended it. -/
  fault : Option DWord
deriving DecidableEq, Repr

/-! ### Matrix arrays -/

/-- What an array operation does (R265, R272 to R275). -/
inductive ArrayKind where
  /-- MLOADW: tile and quadrant mask. -/
  | loadw (tile mask : Nat)
  /-- MMA and MMAVS: bank, tile, row origin, masks, and replacement exponents with their target. -/
  | mma (bank tile row0 : Nat) (em : BitVec 256) (en ek : BitVec 128) (scales : Option (Bool × List Byte))
  /-- MZERO: bank. -/
  | zero (bank : Nat)
deriving DecidableEq, Repr

/-- An operation of a team's stream (R265). -/
structure ArrayOp where
  /-- Block. -/
  block : Nat
  /-- Team. -/
  team : Nat
  /-- What it does. -/
  kind : ArrayKind
  /-- The quadrants it acts on: key, N position, K position. -/
  quads : List (Nat × Nat × Nat)
  /-- The batch it is in, once closed (R266). -/
  batch : Option Nat
  /-- It has begun streaming. -/
  started : Bool
  /-- It has retired, with the flags it raises when its batch completes (R94). -/
  flags : Option Word
  /-- Its batch has completed. -/
  complete : Bool
deriving DecidableEq, Repr

/-- A latched weight tile of a quadrant (R272). -/
structure Latch where
  /-- Tile number. -/
  tile : Nat
  /-- Format. -/
  fmt : Nat
  /-- Plane form. -/
  plane : Bool
  /-- Elements per row of the tile. -/
  k : Nat
  /-- First weight column and first K element of the quadrant in the tile. -/
  col : Nat
  /-- First K element. -/
  elem : Nat
  /-- Number of the MLOADW that latched it (R267). -/
  load : Nat
  /-- The rows of the tile, one list of bytes each. -/
  rows : List (List Byte)
deriving DecidableEq, Repr

/-- A quadrant of a core's array (R261, R262). -/
structure Quadrant where
  /-- The team that owns it: block and team. -/
  owner : Option (Nat × Nat)
  /-- Bank 0 and bank 1: key 64 × row + column; unlisted 0. -/
  bank0 : SMap Word
  /-- Bank 1. -/
  bank1 : SMap Word
  /-- The current latch. -/
  latch : Option Latch
  /-- The MLOADW operations appended for it, the last one's format, for cause 4 (R269). -/
  appended : Option Nat
deriving DecidableEq, Repr

/-- A waiting quadrant claim (R262). -/
structure Claim where
  /-- Core the claim waits on. -/
  core : Nat
  /-- Team: block and team. -/
  owner : Nat × Nat
  /-- Quadrant keys claimed: 4 × core + quadrant. -/
  quads : List Nat
  /-- It has been granted. -/
  granted : Bool
deriving DecidableEq, Repr

/-- One arrival at a collective (R264). -/
structure Arrival where
  /-- Number of the arrival of its warp. -/
  k : Nat
  /-- Warp index within the block. -/
  index : Nat
  /-- Warp. -/
  warp : Nat
  /-- Slices of the gang. -/
  slices : BitVec 8
  /-- sub5, x, y, z and the IMM payloads. -/
  fields : List Nat
deriving DecidableEq, Repr

/-- A team of a block (R34, R262 to R268). -/
structure Team where
  /-- Shape code and base. -/
  shape : Option (Nat × Nat)
  /-- Pair mode entered. -/
  pair : Bool
  /-- em of e0 to e3. -/
  em : List (BitVec 256)
  /-- en. -/
  en : List (BitVec 128)
  /-- ek. -/
  ek : List (BitVec 128)
  /-- Number of the next batch, counted without wrapping (R266). -/
  nextBatch : Nat
  /-- Quadrants of a saved team, to be claimed again at resume: key and contents (R280). -/
  stash : List (Nat × Quadrant)
  /-- Arrivals recorded and not yet performed. -/
  arrivals : List Arrival
  /-- Collectives performed; the next is this plus one. -/
  performed : Nat
deriving DecidableEq, Repr

/-! ### Blocks, barriers, groves -/

/-- A kernel descriptor (R206) with its tile map (R170). -/
structure Kernel where
  /-- Entry offset in words. -/
  entry : Nat
  /-- Vector window. -/
  window : Nat
  /-- Scalar count. -/
  scalars : Nat
  /-- Team size. -/
  team : Nat
  /-- Pair mode. -/
  pair : Bool
  /-- Capsules permitted. -/
  capsules : Bool
  /-- Block scratch bytes. -/
  scratch : Nat
  /-- Arithmetic trap enable. -/
  enable : BitVec 9
  /-- Tile map. -/
  tiles : List (Nat × Tile)
  /-- Tile map entries. -/
  tileCount : Nat
deriving DecidableEq, Repr

/-- A block: one node's warps on one, two or four cores (R35). -/
structure Block where
  /-- Context. -/
  ctx : Nat
  /-- Grove. -/
  grove : Nat
  /-- Node. -/
  node : Nat
  /-- Trail that runs it. -/
  trail : Nat
  /-- Cores, ascending; the first is the leader. -/
  cores : List Nat
  /-- Warps. -/
  warps : Nat
  /-- Kernel index of this phase. -/
  kernel : Nat
  /-- Its descriptor. -/
  desc : Kernel
  /-- Scratch offset in the core store of each core. -/
  scratch : Nat
  /-- It is admitted (R29). -/
  admitted : Bool
  /-- Warps by index. -/
  members : List Nat
  /-- Warps ended, by index. -/
  ended : List Nat
  /-- Frame address (R229). -/
  frame : DWord
  /-- YIELD grant taken (R224). -/
  yielded : Bool
  /-- Ended by fault (R288). -/
  faulted : Bool
  /-- Tile table. -/
  tiles : SMap Tile
  /-- Teams. -/
  teams : SMap Team
  /-- Level instances: cluster parent and run, region domain (R211); none for a grown node. -/
  cluster : Option (Nat × Nat)
  /-- Region domain. -/
  region : Option Nat
  /-- The node was grown in this phase. -/
  grown : Bool
deriving DecidableEq, Repr

/-- A barrier of an instance of a level (R38, R166 to R168). -/
structure Barrier where
  /-- Level, 3 to 7. -/
  level : Nat
  /-- The instance: block and team, block, or grove with phase and run or domain. -/
  inst : List Nat
  /-- Number. -/
  num : Nat
  /-- Current phase, from 0. -/
  phase : Nat
  /-- Slices of each warp that have arrived in the current phase: by warp. -/
  arrived : SMap (BitVec 8)
  /-- Warps whose arrival packet has not reached the router (R38). -/
  packets : List Nat
  /-- Contributions of MEET.RED in the current phase: op, signed, value. -/
  parts : List (Nat × Bool × Word)
  /-- Result of the phase completed last. -/
  result : Word
  /-- A link on a member's path has gone down while the current phase waited: it completes no further (R324). -/
  broken : Bool
deriving DecidableEq, Repr

/-- A unit of a trail's storage: offset in the clearing and bytes (R215, R216). -/
structure Alloc where
  /-- Offset from the core's clearing. -/
  off : Nat
  /-- Bytes. -/
  size : Nat
deriving DecidableEq, Repr

/-- A node a trail has entered and not finished (R216). -/
structure TrailNode where
  /-- Node. -/
  node : Nat
  /-- Its inbox. -/
  inbox : Option Alloc
  /-- Its hand area. -/
  hand : Option Alloc
  /-- The units of the hand area still held: those that no completed child's slot has freed (R219). -/
  slots : List Alloc
  /-- Its frame. -/
  frame : Option Alloc
  /-- The block that runs it. -/
  block : Option Nat
  /-- Its block has ended, or it has none. -/
  done : Bool
deriving DecidableEq, Repr

/-- A trail (R216 to R218). -/
structure Trail where
  /-- Grove. -/
  grove : Nat
  /-- Core. -/
  core : Nat
  /-- Number on the core, 0 to 63 (R207). -/
  num : Nat
  /-- Order of beginning: lower is older. -/
  age : Nat
  /-- Nodes entered and not finished, the deepest first. -/
  path : List TrailNode
  /-- An allocation it waits for: what it is for, and bytes (R217). -/
  asking : Option (Nat × Nat)
deriving DecidableEq, Repr

/-- A pending subtree (R218). -/
structure Subtree where
  /-- Root of it. -/
  node : Nat
  /-- The core that holds it. -/
  core : Nat
  /-- The parent, or none for the whole tree. -/
  parent : Option Nat
  /-- Made by TREEGROW: queued behind (R218). -/
  grown : Bool
deriving DecidableEq, Repr

/-- How far a grove has come. -/
inductive GroveStatus where
  /-- Running its nodes. -/
  | running
  /-- Starting no further node: the status and the node it will report (R228). -/
  | halting (status node : Nat)
  /-- Its last phase has ended; saplings may remain (R238). -/
  | swept
deriving DecidableEq, Repr

/-- A live grove (R205, R212). -/
structure Grove where
  /-- Context. -/
  ctx : Nat
  /-- Slot among the context's live groves (R251). -/
  slot : Nat
  /-- Launch order. -/
  order : Nat
  /-- Address of the record. -/
  addr : DWord
  /-- Sweep mode. -/
  mode : Nat
  /-- Raise an MSI-X at completion. -/
  msix : Bool
  /-- Node array base. -/
  nodes : DWord
  /-- Node capacity. -/
  capacity : Nat
  /-- Root index. -/
  root : Nat
  /-- D. -/
  depth : Nat
  /-- Y. -/
  yieldBytes : Nat
  /-- H. -/
  handBytes : Nat
  /-- Code segment base. -/
  code : DWord
  /-- Kernels. -/
  kernels : SMap Kernel
  /-- Kernel count. -/
  kernelCount : Nat
  /-- Clearing base. -/
  clearing : DWord
  /-- B. -/
  clearBytes : Nat
  /-- Trails per core. -/
  trailsPerCore : Nat
  /-- Priority. -/
  priority : Nat
  /-- Level table: domain, tier, barriers, size of slots 3 to 7. -/
  levels : List (Nat × Nat × Nat × Nat)
  /-- Completion word address. -/
  completion : DWord
  /-- Spawn quota. -/
  quota : Nat
  /-- Saplings accepted (R231). -/
  accepted : Nat
  /-- F. -/
  maxChildren : Nat
  /-- Maximum frame in 64-byte units. -/
  maxFrame : Nat
  /-- Fault policy. -/
  policy : Nat
  /-- Cores of the core set. -/
  cores : List Nat
  /-- Spill ring base. -/
  ringBase : DWord
  /-- Spill ring entries N. -/
  ringSize : Nat
  /-- Phase, 0 or 1. -/
  phase : Nat
  /-- The current phase has been started (R209). -/
  begun : Bool
  /-- How far it has come. -/
  status : GroveStatus
  /-- Nodes completed in this phase. -/
  completed : Nat
  /-- Nodes in error (R228). -/
  errors : List Nat
  /-- Nodes completed in this phase, by number. -/
  doneNodes : List Nat
  /-- Nodes grown in this phase. -/
  grownNodes : List Nat
  /-- Nodes to complete in this phase (mode 5: all; else the root's completion ends it). -/
  total : Nat
  /-- Pending subtrees in queue order. -/
  subtrees : List Subtree
  /-- Clearing units held, by core. -/
  allocs : List (Nat × Alloc)
  /-- Hand areas by node: core, unit, and slots; kept past the node's block (R216). -/
  areas : SMap (Nat × Alloc × Nat)
  /-- Its context was lost (R290). -/
  lost : Bool
  /-- Phases that devices of its device group have ended: device + 16 × phase (R324). -/
  gone : List Nat
deriving DecidableEq, Repr

/-- A grove record submitted and not yet accepted (R212, R315). -/
structure Submission where
  /-- Context. -/
  ctx : Nat
  /-- Record address. -/
  addr : DWord
deriving DecidableEq, Repr

/-- A sapling in a seedbed or a spill ring (R232 to R234). -/
structure Sapling where
  /-- Core. -/
  core : Nat
  /-- Bin: its entry. -/
  bin : Nat
  /-- Grove. -/
  grove : Nat
  /-- Payload words 0 to 3. -/
  payload : List Word
  /-- Words. -/
  words : Nat
  /-- Join counter. -/
  join : Option DWord
  /-- Time of acceptance, moved on while the core does not run the context (R238). -/
  time : Nat
  /-- It stands in a spill ring, in the entry given. -/
  ring : Option Nat
  /-- It stands in the save area, with its context, and takes its slot of the seedbed again as one is free (R233, R238). -/
  away : Bool
  /-- Its counter has been incremented, or it has none; until then it only holds its place (R232). -/
  ready : Bool
  /-- A SPAWNF named its bin when it stood there (R243). -/
  named : Bool
deriving DecidableEq, Repr

/-- A sapling lane that has exited and whose decrement is still to be made (R237). -/
structure SaplingExit where
  /-- Warp it ran in. -/
  warp : Nat
  /-- Grove. -/
  grove : Nat
  /-- Context. -/
  ctx : Nat
  /-- Join counter. -/
  join : Option DWord
deriving DecidableEq, Repr

/-- The holder of a capsule record, which its identity names (R251). -/
structure Holder where
  /-- Warp. -/
  warp : Nat
  /-- Lane. -/
  lane : Nat
  /-- Sequence of its take (R251). -/
  seq : Nat
  /-- Steps it committed itself in this instance (R260). -/
  own : Nat
deriving DecidableEq, Repr

/-- A capsule delivery on its way (R257). -/
structure Delivery where
  /-- Record key in memory. -/
  record : Nat
  /-- Context of its record. -/
  ctx : Nat
  /-- The record's address there. -/
  va : DWord
  /-- The holder, where the record's identity names one. -/
  holder : Option Holder
  /-- k0 to k15. -/
  regs : List Word
  /-- p0 to p6. -/
  preds : BitVec 7
  /-- CAPRES word. -/
  status : Word
  /-- It has been delivered and its acknowledgement is on its way. -/
  acked : Bool
  /-- The lock word is freed by the acknowledgement. -/
  frees : Bool
deriving DecidableEq, Repr

/-- A capsule step sent and not yet decided (R254). -/
structure CapStep where
  /-- Warp. -/
  warp : Nat
  /-- Lane. -/
  lane : Nat
  /-- Record key. -/
  record : Nat
  /-- Token. -/
  token : Word
  /-- Expected STEP. -/
  expect : Nat
  /-- First byte of the access. -/
  key : Nat
  /-- Bytes a store writes; for an atomic, its width's worth of zeros. -/
  bytes : List Byte
  /-- An atomic: fn, TYPE code, operand, comparand's new value, and the k register that receives the old value. -/
  atom : Option (Nat × Nat × DWord × DWord × Option Nat)
  /-- k0 to k15 after the step, but for the value an atomic returns. -/
  regs : List Word
  /-- Resume word. -/
  resume : Word
deriving DecidableEq, Repr

/-! ### Contexts, functions, platform -/

/-- The stage of a context's pre-emption ladder (R290). -/
inductive Stage where
  /-- Stage 1. -/
  | drain
  /-- Stage 2. -/
  | halt
  /-- Stage 3. -/
  | capture
deriving DecidableEq, Repr

/-- Core pairs that climb a ladder together: from one request on (R290). -/
structure LadderPart where
  /-- Stage. -/
  stage : Stage
  /-- Core pairs. -/
  pairs : BitVec 64
  /-- End of the drain at the latest, in model time. -/
  d1 : Nat
  /-- Length of the halt at most, in model time; once the halt has begun, its end. -/
  d2 : Nat
deriving DecidableEq, Repr

/-- A running pre-emption ladder (R290). -/
structure Ladder where
  /-- Its parts. -/
  parts : List LadderPart
  /-- Core pairs it held that are saved. -/
  done : BitVec 64
  /-- Reason: 0 pre-emption, 1 world switch, 2 freeze. -/
  reason : Nat
deriving DecidableEq, Repr

/-- A consumed or waiting place of a context's trap ring (R287, R317). -/
structure RingEntry where
  /-- Entry count. -/
  count : Nat
  /-- The warp it names. -/
  warp : Option Nat
  /-- Slices of its trapping gang. -/
  slices : Nat
  /-- TRCONS has passed it, and its action byte is still to be read. -/
  passed : Bool
deriving DecidableEq, Repr

/-- A context and its register block (R314, R284). -/
structure Context where
  /-- CXNUM: valid and number. -/
  cxnum : Word
  /-- CXCTL.EN. -/
  en : Bool
  /-- CXPASID. -/
  pasid : Word
  /-- PTROOT. -/
  ptroot : DWord
  /-- SAVEBASE. -/
  savebase : DWord
  /-- TRBASE. -/
  trbase : DWord
  /-- TRCTL. -/
  trctl : Word
  /-- TRPROD. -/
  trprod : Word
  /-- TRCONS. -/
  trcons : Word
  /-- CXVEC. -/
  cxvec : Word
  /-- CXD1. -/
  cxd1 : Word
  /-- CXD2. -/
  cxd2 : Word
  /-- TVEC, system registers 0x1001 and 0x1002. -/
  tvec : DWord
  /-- HVEC, 0x1003 and 0x1004. -/
  hvec : DWord
  /-- TDELEG, 0x1005 and 0x1006. -/
  tdeleg : DWord
  /-- HXGROUP. -/
  hxgroup : Word
  /-- INVVA. -/
  invva : DWord
  /-- INVCTL: whole context, DONE; GO reads 0. -/
  invctl : Word
  /-- Trap records waiting for room in the ring: 128 bytes each, with the warp of each (R287). -/
  trapq : List (List Byte × Option Nat)
  /-- The unconsumed entries of the ring. -/
  ringWarps : List RingEntry
  /-- Running ladder. -/
  ladder : Option Ladder
  /-- Core pairs saved. -/
  savedPairs : BitVec 64
  /-- Core pairs that a world switch saved, or is saving, and that come back when the function runs again (R303). -/
  worldPairs : BitVec 64
  /-- The context is saved. -/
  saved : Bool
  /-- The context was lost (R290). -/
  lost : Bool
  /-- Core pairs on which the context waits to come back: for its ladder's end, for its function to run, or for its places (R290,
  R295). -/
  resumePairs : BitVec 64
  /-- Warps saved by handler, warps captured, blocks ended during drain (R294). -/
  counts : Nat × Nat × Nat
  /-- Host actions whose warps are saved, applied after resume: warp, action, resume PC, completed mask (R293, R295). -/
  actions : List (Nat × Nat × DWord × BitVec 32)
deriving DecidableEq, Repr

/-- A stand's configuration block and what is in force (R299, R300). -/
structure Stand where
  /-- STDPAIRS. -/
  pairs : DWord
  /-- STDHBM. -/
  hbm : Word
  /-- STDLINK. -/
  link : Word
  /-- STDCTL: ERR. -/
  err : Nat
  /-- STATE: 0 disabled, 1 applying, 2 enabled. -/
  state : Nat
  /-- VSPLIT. -/
  vsplit : Nat
  /-- STDSLICE. -/
  slice : Word
  /-- In force: core pairs. -/
  fpairs : DWord
  /-- In force: channel sets. -/
  fhbm : Word
  /-- In force: links and shares. -/
  flink : Word
  /-- In force: VSPLIT. -/
  fsplit : Nat
  /-- In force: slice in µs. -/
  fslice : Nat
  /-- The block as last applied (R344). -/
  applied : List Byte
  /-- The block of the APPLY in progress. -/
  applying : List Byte
  /-- The VF running on it (R303). -/
  running : Option Nat
  /-- End of its slice. -/
  sliceEnd : Nat
  /-- A switch out is in progress, or waits for a guest command (R308); whether it leaves the VF stopped. -/
  switching : Option Bool
deriving DecidableEq, Repr

/-- A VF control block (R301, R307, R309, R311). -/
structure VFn where
  /-- VFCTL.STAND. -/
  stand : Nat
  /-- VFSTATE. -/
  state : Nat
  /-- VFD1. -/
  d1 : Word
  /-- VFD2. -/
  d2 : Word
  /-- DLBASE. -/
  dlbase : DWord
  /-- DLCTL. -/
  dlctl : Word
  /-- DLPROD. -/
  dlprod : Word
  /-- DLCONS. -/
  dlcons : Word
  /-- Logged granules, by aperture granule. -/
  logged : SMap Bool
  /-- REMAPSRC. -/
  remapsrc : DWord
  /-- REMAPDST. -/
  remapdst : DWord
  /-- REMAPCTL. -/
  remapctl : Word
  /-- VFAPBASE. -/
  apbase : DWord
  /-- VFAPSIZE. -/
  apsize : Word
  /-- CTXSW. -/
  ctxsw : DWord
deriving DecidableEq, Repr

/-- The counters of a function (R306). -/
structure Counters where
  /-- PMCNT0 to 7. -/
  cnt : List (BitVec 48)
  /-- PMSEL0 to 7. -/
  sel : List Word
  /-- PMOVF. -/
  ovf : Word
  /-- PMINT. -/
  int : Word
  /-- Counters of cycles or beats that have wrapped and whose PMOVF bit is still to be set. -/
  pend : Word
deriving DecidableEq, Repr

/-- A Horxus link (R320, R321). -/
structure Link where
  /-- HXCTL. -/
  ctl : Word
  /-- HXSTAT. -/
  stat : Word
  /-- HXEXPBASE. -/
  expbase : DWord
  /-- HXEXPLIM. -/
  explim : DWord
  /-- HXTAG. -/
  tag : Word
  /-- Sequence of the next flit sent. -/
  sendSeq : BitVec 12
  /-- Sequence expected of the next flit received. -/
  recvSeq : BitVec 12
  /-- Replay buffer: sequence and flit. -/
  replay : List (BitVec 12 × List Byte)
  /-- Failed replays of the flit at the head. -/
  failed : Nat
  /-- Retrain deadline. -/
  retrain : Option Nat
  /-- Messages that wait for room in the replay buffer, 56 bytes each. -/
  waiting : List (List Byte)
deriving DecidableEq, Repr

/-- The droop detector of a core (R345). -/
structure Droop where
  /-- DRPCTL. -/
  ctl : Word
  /-- DRPCNT. -/
  cnt : Word
  /-- End of the stretched cycles. -/
  stretch : Option Nat
  /-- End of the throttle window. -/
  throttle : Option Nat
deriving DecidableEq, Repr

/-- What a part is made with and what its flash holds (R340, R344, R346). -/
structure Part where
  /-- Public key in fuses. -/
  key : List Byte
  /-- Identity key (R344). -/
  identity : List Byte
  /-- Fused rollback counter. -/
  svn : Nat
  /-- Boot image in flash. -/
  boot : List Byte
  /-- Serial number. -/
  serial : List Byte
  /-- SHA-256 of the boot ROM. -/
  rom : List Byte
  /-- Certificate chain. -/
  chain : List Byte
  /-- Lifetime record in flash. -/
  flash : SMap Word
deriving DecidableEq, Repr

/-- What the device sends to the world outside. -/
inductive Msg where
  /-- MSI-X: function and vector (R312). -/
  | msix (fn vector : Nat)
  /-- ATS translation request: function, PASID and host page (R312, R319). -/
  | ats (fn pasid page : Nat)
  /-- PRI page request: function, PASID, host page, page request group index (R289, R312). -/
  | pri (fn pasid page index : Nat)
  /-- An ATS invalidation is complete (R319). -/
  | atsDone (fn page : Nat)
  /-- A register or BAR4 read's answer. -/
  | data (fn : Nat) (bytes : List Byte)
  /-- A flit sent on a link (R320). -/
  | flit (link : Nat) (bytes : List Byte)
  /-- A negative acknowledgement sent on a link. -/
  | nak (link seq : Nat)
  /-- An SPDM response to a master (R344). -/
  | spdm (master : Nat) (bytes : List Byte)
  /-- A flit acknowledged. -/
  | ack (link seq : Nat)
deriving DecidableEq, Repr

/-- Who moves in a step. -/
inductive Turn where
  /-- A gang of a warp issues: the warp and the gang's lowest slice. -/
  | issue (warp slice : Nat)
  /-- A gang of another partition, or on the other port, issues in the same cycle as the turn before (R26). -/
  | also (warp slice : Nat)
  /-- One of the machine's other agents takes the step given. -/
  | event (i : Instr)
deriving DecidableEq, Repr

/-- What ATS has answered for a host page of a context (R319). -/
structure AtsEntry where
  /-- Context. -/
  ctx : Nat
  /-- Host virtual page, under the context's PASID. -/
  page : Nat
  /-- Host page it stands for. -/
  frame : Nat
  /-- Permission bits: write, read; none for a page reported absent. -/
  perm : BitVec 2
deriving DecidableEq, Repr

/-- A device group whose root is this device and goes on after this device's own grove has ended (R324). -/
structure GroupRoot where
  /-- The grove that ended. -/
  grove : Nat
  /-- Its context. -/
  ctx : Nat
  /-- The group: bits 23:0 of HXGROUP. -/
  group : Nat
  /-- Devices that have ended, as in `Grove.gone`. -/
  gone : List Nat
deriving DecidableEq, Repr

/-- The machine. -/
structure State where
  /-- Bytes of memory: key = space × 2^56 + address; space 0 device-physical (R319), 1 host, 2 + d device d,
  32 + c core store of core c. Unlisted bytes read 0. -/
  mem : SMap Byte
  /-- Memory words holding an uncorrectable error, by key of the 8-byte word (R156, R297). -/
  poison : SMap Bool
  /-- Carve-out copies: key = core × 2^64 + memory key (R189). -/
  carve : SMap Carve
  /-- Stores whose registration has not completed, oldest first by number (R195). -/
  regq : SMap Reg
  /-- Owner core and tenant tag of registered bytes (R189, R304). -/
  owners : SMap (Nat × Nat)
  /-- Bytes that a home-cache line may hold newer than its memory, with the tag of the line (R304, R305). -/
  dirty : SMap Nat
  /-- Translations. -/
  tlb : List Tlb
  /-- Remapped granules: granule to granule (R302, R311). -/
  remaps : SMap Nat
  /-- Granules whose accesses a remap holds (R311). -/
  held : List Nat
  /-- Corrected errors of granules since reset (R297). -/
  ecc : SMap Nat
  /-- Retired granules (R297, R344). -/
  retired : List Nat
  /-- Warps by number. -/
  warps : SMap Warp
  /-- Blocks by number. -/
  blocks : SMap Block
  /-- Groves by number. -/
  groves : SMap Grove
  /-- Trails by number. -/
  trails : SMap Trail
  /-- Barriers by number. -/
  barriers : SMap Barrier
  /-- Submissions by number. -/
  subs : SMap Submission
  /-- Long-latency results that have not landed, by number. -/
  inflight : SMap Land
  /-- Copy commands by number. -/
  cmds : SMap CopyCmd
  /-- Array operations by number, in the order appended. -/
  ops : SMap ArrayOp
  /-- Quadrants: key 4 × core + quadrant. -/
  quads : SMap Quadrant
  /-- Quadrant claims by number, in the order made. -/
  claims : SMap Claim
  /-- Saplings in seedbeds and rings, in order of acceptance. -/
  saplings : SMap Sapling
  /-- Exits still to be recorded. -/
  exits : SMap SaplingExit
  /-- Bins to be formed by their timer: core, bin and grove. -/
  flushes : List (Nat × Nat × Nat)
  /-- Capsule deliveries. -/
  deliveries : SMap Delivery
  /-- Holders of capsule records, by record key (R251, R260). -/
  holders : SMap Holder
  /-- Capsule steps on their way. -/
  steps : SMap CapStep
  /-- Contexts: key 16 × function + slot (R314). -/
  contexts : SMap Context
  /-- The tag table (R289). -/
  tags : SMap Tag
  /-- Requests the host has denied and whose accesses have not taken their faults yet: index and entry (R289). -/
  denials : List (Nat × Tag)
  /-- Host pages ATS has answered for (R319). -/
  ats : List AtsEntry
  /-- ATS requests outstanding: context and page. -/
  atsReq : List (Nat × Nat)
  /-- ATS invalidations that wait for accesses: function and host page (R319). -/
  atsInv : List (Nat × Nat)
  /-- Stands 0 to 11. -/
  stands : SMap Stand
  /-- VFs 1 to 192. -/
  vfs : SMap VFn
  /-- Counters by function. -/
  counters : SMap Counters
  /-- Links 0 to 11. -/
  links : SMap Link
  /-- Requests to other devices, by the tag they travel with (R320, R322). -/
  requests : SMap Request
  /-- Barrier packets that have come and cannot be taken yet: device and message (R324). -/
  early : List (Nat × List Byte)
  /-- Device groups this device still serves as root (R324). -/
  roots : List GroupRoot
  /-- HXDEV. -/
  hxdev : Word
  /-- MGCLAIM: HAND and OWNER. -/
  hand : Nat
  /-- OWNER. -/
  owner : Nat
  /-- MGFROZEN. -/
  frozen : Word
  /-- FWSTAT.ERR. -/
  fwErr : Nat
  /-- FWSTAT.STATE: 0 boot ROM, 1 running, 2 recovery. -/
  fwState : Nat
  /-- FWSTAGE. -/
  fwStage : DWord
  /-- Digest of the running firmware body and its security version (R344). -/
  fwBody : List Byte
  /-- Security version of the running firmware. -/
  fwVersion : Nat
  /-- LTSEL. -/
  ltsel : Word
  /-- Lifetime counts since the last record write (R346). -/
  life : SMap Word
  /-- Time of the next lifetime record write. -/
  lifeNext : Nat
  /-- Droop detectors by core. -/
  droop : SMap Droop
  /-- What the part is made with, and flash. -/
  part : Part
  /-- Powered. -/
  power : Bool
  /-- A freeze is running, with its D1 and D2; the memory it has copied out (R296). -/
  freeze : Option (Nat × Nat)
  /-- The host's freeze buffer: device memory as copied. -/
  frozenMem : Option (SMap Byte)
  /-- Messages to the world outside, newest first. -/
  outbox : List Msg
  /-- Time in thirds of a reference-clock cycle: one nominal main-clock cycle each (R1, R4). -/
  time : Nat
  /-- The model's own: who moves next (assumption 3). -/
  turns : List Turn
  /-- The model's own: the gang that issues: warp and lowest slice. -/
  cur : Option (Nat × Nat)
  /-- The model's own: free values drawn so far (assumption 4). -/
  fresh : Nat
  /-- The model's own: the next number of a warp, a block, a command. -/
  nextId : Nat
  /-- The model's own: steps that changed something a waiting gang may wait for. -/
  progress : Nat
deriving DecidableEq, Repr

/-- Counters after reset: all zero (assumption 1). -/
def Counters.reset : Counters :=
  { cnt := List.replicate 8 0, sel := List.replicate 8 0, ovf := 0, int := 0, pend := 0 }

/-- A stand's block after reset (R299): STDSLICE 2000, VSPLIT 0b01, disabled. -/
def Stand.reset : Stand :=
  { pairs := 0, hbm := 0, link := 0, err := 0, state := 0, vsplit := 1, slice := 2000, fpairs := 0, fhbm := 0,
    flink := 0, fsplit := 1, fslice := 2000, applied := [], applying := [], running := none, sliceEnd := 0, switching := none }

/-- A VF's block after reset (R301): VFD1 0, VFD2 200, stopped, CTXSW with no context named (R307). -/
def VFn.reset : VFn :=
  { stand := 0, state := 0, d1 := 0, d2 := 200, dlbase := 0, dlctl := 0, dlprod := 0, dlcons := 0, logged := [],
    remapsrc := 0, remapdst := 0, remapctl := 0, apbase := 0, apsize := 0, ctxsw := 0xFFFFFFFF00000000 }

/-- A context's block after reset (R314): CXD1 400, CXD2 200, the rest 0 (assumption 1). -/
def Context.reset : Context :=
  { cxnum := 0, en := false, pasid := 0, ptroot := 0, savebase := 0, trbase := 0, trctl := 0, trprod := 0, trcons := 0,
    cxvec := 0, cxd1 := 400, cxd2 := 200, tvec := 0, hvec := 0, tdeleg := 0, hxgroup := 0, invva := 0, invctl := 0,
    trapq := [], ringWarps := [], ladder := none, savedPairs := 0, worldPairs := 0, saved := false, lost := false, resumePairs := 0,
    counts := (0, 0, 0), actions := [] }

/-- A link after reset: down (assumption 1). -/
def Link.reset : Link :=
  { ctl := 0, stat := 0, expbase := 0, explim := 0, tag := 0, sendSeq := 0, recvSeq := 0, replay := [], failed := 0,
    retrain := none, waiting := [] }

/-- A droop detector after reset (R345): WINDOW 20, STRETCH 16, THRESH 40. -/
def Droop.reset : Droop := { ctl := 0x00141028, cnt := 0, stretch := none, throttle := none }

/-- A free quadrant. -/
def Quadrant.reset : Quadrant := { owner := none, bank0 := [], bank1 := [], latch := none, appended := none }

/-- The machine right after reset, in the boot ROM (R340, R341): nothing launched, memory listing nothing, every register
at the value the manual gives or assumption 1 names. A table that lists no entry for a context, stand, VF, link, counter
set or detector holds that entry's reset value. -/
def State.reset : State :=
  { mem := [], poison := [], carve := [], regq := [], owners := [], dirty := [], tlb := [], remaps := [], held := [], ecc := [],
    retired := [], warps := [], blocks := [], groves := [], trails := [], barriers := [], subs := [], inflight := [],
    cmds := [], ops := [], quads := [], claims := [], saplings := [], exits := [], flushes := [], deliveries := [], holders := [],
    steps := [], contexts := [], tags := [], denials := [], ats := [], atsReq := [], atsInv := [], stands := [], vfs := [], counters := [],
    links := [], requests := [], early := [], roots := [], hxdev := 0, hand := 0, owner := 0, frozen := 0, fwErr := 0, fwState := 0, fwStage := 0, fwBody := [],
    fwVersion := 0, ltsel := 0, life := [], lifeNext := 180000000000, droop := [],
    part := { key := [], identity := [], svn := 0, boot := [], serial := [], rom := [], chain := [], flash := [] },
    power := true, freeze := none, frozenMem := none, outbox := [], time := 0, turns := [], cur := none, fresh := 0,
    nextId := 0, progress := 0 }

end Sys2Proof.Machine
end

