-- ==== Sys2Proof/Machine/Ops.lean ====
section
/-! DEFINITION. The named operations over registers, memory and the machine's tables, address translation, home slices,
and taking an exception, from 01_machine, 03_encoding, 11_isa_memory, 13_memory_model, 23_traps and 27_links. -/

namespace Sys2Proof.Machine

/-- What a step answers. -/
abbrev Out := Host.Outcome State Fault Refusal

/-! ### Bits -/

/-- The numbers below `n` whose bit of `m` is set. -/
def onesBelow (n : Nat) (m : Nat) : List Nat := (List.range n).filter (fun i => m.testBit i)

/-- The lanes of a mask, ascending. -/
def lanesOf (m : Word) : List Nat := onesBelow 32 m.toNat

/-- The slices of a mask, ascending. -/
def slicesOf (m : BitVec 8) : List Nat := onesBelow 8 m.toNat

/-- A mask of one bit. -/
def bitW (i : Nat) : Word := BitVec.ofNat 32 (2 ^ i)

/-- The lowest lane of a mask. -/
def lowestLane (m : Word) : Option Nat := (lanesOf m).head?

/-- A 64-bit value from its low and its high word (R50). -/
def pair64 (lo hi : Word) : DWord := hi ++ lo

/-- The low word of a 64-bit value. -/
def loWord (x : DWord) : Word := x.extractLsb' 0 32

/-- The high word of a 64-bit value. -/
def hiWord (x : DWord) : Word := x.extractLsb' 32 32

/-- The little-endian bytes of a number (R5). -/
def bytesOf : Nat → Nat → List Byte
  | 0, _ => []
  | n + 1, x => BitVec.ofNat 8 x :: bytesOf n (x / 256)

/-- The number of little-endian bytes (R5). -/
def numOf : List Byte → Nat
  | [] => 0
  | b :: r => b.toNat + 256 * numOf r

/-- A number rounded up to a multiple of `m`. -/
def ceilTo (m x : Nat) : Nat := (x + m - 1) / m * m

/-- The part of a number from bit `lo`, `n` bits wide. -/
def field (x lo n : Nat) : Nat := x / 2 ^ lo % 2 ^ n

/-! ### Tables with reset values -/

/-- A context's register block (R314). -/
def State.context (s : State) (c : Nat) : Context := (sget s.contexts c).getD Context.reset

/-- Sets a context's block. -/
def State.setContext (s : State) (c : Nat) (x : Context) : State := { s with contexts := sput s.contexts c x }

/-- A stand's block (R299). -/
def State.stand (s : State) (n : Nat) : Stand := (sget s.stands n).getD Stand.reset

/-- Sets a stand's block. -/
def State.setStand (s : State) (n : Nat) (x : Stand) : State := { s with stands := sput s.stands n x }

/-- A VF's block (R301). -/
def State.vf (s : State) (v : Nat) : VFn := (sget s.vfs v).getD VFn.reset

/-- Sets a VF's block. -/
def State.setVf (s : State) (v : Nat) (x : VFn) : State := { s with vfs := sput s.vfs v x }

/-- A function's counters (R306). -/
def State.counter (s : State) (fn : Nat) : Counters := (sget s.counters fn).getD Counters.reset

/-- A link's block (R321). -/
def State.link (s : State) (k : Nat) : Link := (sget s.links k).getD Link.reset

/-- Sets a link's block. -/
def State.setLink (s : State) (k : Nat) (x : Link) : State := { s with links := sput s.links k x }

/-- Adds to a lifetime count, which saturates (R346). -/
def State.lifeAdd (s : State) (i n : Nat) : State :=
  { s with life := zput 0 s.life i (BitVec.ofNat 32 (min ((zget 0 s.life i).toNat + n) 0xFFFFFFFF)) }

/-- A core's droop detector (R345). -/
def State.detector (s : State) (c : Nat) : Droop := (sget s.droop c).getD Droop.reset

/-- A quadrant (R261). -/
def State.quad (s : State) (k : Nat) : Quadrant := (sget s.quads k).getD Quadrant.reset

/-- Sets a quadrant. -/
def State.setQuad (s : State) (k : Nat) (x : Quadrant) : State := { s with quads := sput s.quads k x }

/-- Sets a warp. -/
def State.setWarp (s : State) (w : Nat) (x : Warp) : State := { s with warps := sput s.warps w x }

/-- Changes a warp. -/
def State.modWarp (s : State) (w : Nat) (f : Warp → Warp) : State := { s with warps := smod s.warps w f }

/-- Changes a block. -/
def State.modBlock (s : State) (b : Nat) (f : Block → Block) : State := { s with blocks := smod s.blocks b f }

/-- Changes a grove. -/
def State.modGrove (s : State) (g : Nat) (f : Grove → Grove) : State := { s with groves := smod s.groves g f }

/-- Sends a message to the world outside. -/
def State.send (s : State) (m : Msg) : State := { s with outbox := m :: s.outbox }

/-- The next free number, taken. -/
def State.take (s : State) : Nat × State := (s.nextId, { s with nextId := s.nextId + 1 })

/-- The function a context belongs to: 0 the PF, v VF v (R314). -/
def ctxFn (c : Nat) : Nat := c / 16

/-- The stand of a function (R298, R301); the PF's contexts run on stand 0 (assumption 6). -/
def State.standOf (s : State) (fn : Nat) : Nat := if fn = 0 then 0 else (s.vf fn).stand

/-! ### Reference clock -/

/-- Reference-clock cycles since device reset (R131). -/
def State.refTime (s : State) : Nat := s.time / 3

/-- Model time of a reference-clock duration in microseconds. -/
def usTime (us : Nat) : Nat := 3000 * us

/-! ### Which register spaces answer (R340, R343) -/

/-- A master is frozen (R343). -/
def State.isFrozen (s : State) (master : Nat) : Bool := s.frozen.getLsbD master

/-- The register spaces of a function answer: the firmware runs, and of the PF's, the PF is not frozen (R340, R343). -/
def State.answers (s : State) (fn : Nat) : Bool := s.fwState == 1 && (fn != 0 || !s.isFrozen 1)

/-- What a register write does where the function's register space answers. -/
def State.asked (s : State) (fn : Nat) (f : State → State) : State := if s.answers fn then f s else s

/-! ### Stands, vaults and home slices -/

/-- The core pairs of a stand in force, as a list. -/
def Stand.pairList (st : Stand) : List Nat := onesBelow 64 st.fpairs.toNat

/-- The cores of a stand in force. -/
def Stand.cores (st : Stand) : List Nat := st.pairList.flatMap (fun i => [2 * i, 2 * i + 1])

/-- Bytes of vault memory per vault (R299). -/
def Stand.vaultBytes (st : Stand) : Nat := (st.fsplit + 1) * 0x400000

/-- First byte of the vault memory of a vault (R319). -/
def vaultBase (v : Nat) : Nat := 0x6000000000 + v * 0x1000000

/-- Bytes of a channel set: 12 GiB (R298). -/
def channelBytes : Nat := 0x300000000

/-- A device-physical address lies in a stand's HBM or vault memory (R298, R319); a disabled stand holds none (R300). -/
def Stand.holds (st : Stand) (p : Nat) : Bool :=
  if st.state = 0 then false
  else if p < 0x6000000000 then st.fhbm.toNat.testBit (p / channelBytes)
  else
    let v := (p - 0x6000000000) / 0x1000000
    decide (v < 128) && st.fpairs.toNat.testBit (v / 2) && decide ((p - 0x6000000000) % 0x1000000 < st.vaultBytes)

/-- The number of a 4 KiB granule of HBM among the stand's, in ascending address over its channel sets (R53). -/
def Stand.granule (st : Stand) (p : Nat) : Nat :=
  ((onesBelow 32 st.fhbm.toNat).filter (· < p / channelBytes)).length * (channelBytes / 4096) + p % channelBytes / 4096

/-- Spaces of memory keys. -/
def spaceOf (key : Nat) : Nat := key / 2 ^ 56

/-- Address within its space. -/
def addrOf (key : Nat) : Nat := key % 2 ^ 56

/-- Key of an address in a space. -/
def keyOf (space a : Nat) : Nat := space * 2 ^ 56 + a % 2 ^ 56

/-- Key of a byte of a core's store. -/
def coreKey (core off : Nat) : Nat := keyOf (32 + core) off

/-- home(a): the home slice of a memory key, by vault number (R53); a remote device's slices are numbered apart by
granule, since only that device tells which of its slices it is. -/
def homeOf (st : Stand) (key : Nat) : Nat :=
  let p := addrOf key
  let vs := st.cores
  let nth (g : Nat) : Nat := (vs[g % vs.length]?).getD 0
  match spaceOf key with
  | 0 => if 0x6000000000 ≤ p then (p - 0x6000000000) / 0x1000000 else nth (st.granule p)
  | 1 => nth (p / 4096)
  | n => 128 + n * 2 ^ 44 + p / 4096

/-! ### Bytes of memory -/

/-- What a byte of memory that nothing has written reads as (assumption 2). -/
abbrev unlisted : Byte := 0

/-- The canonical form of memory: keys strictly rising, no entry equal to what an unlisted byte reads as. -/
def Memory.wf (m : SMap Byte) : Bool := zwf unlisted m

/-- A byte of memory as its home holds it. -/
def State.byte (s : State) (key : Nat) : Byte := zget unlisted s.mem key

/-- Bytes of memory as their home holds them. -/
def State.bytes (s : State) (key n : Nat) : List Byte := (List.range n).map (fun i => s.byte (key + i))

/-- A little-endian number of memory. -/
def State.num (s : State) (key n : Nat) : Nat := numOf (s.bytes key n)

/-- Writes a byte in the home copy. -/
def memPut (m : SMap Byte) (key : Nat) (b : Byte) : SMap Byte := zput unlisted m key b

/-- Writes bytes in the home copy, later entries over earlier ones. -/
def memPuts (m : SMap Byte) (l : List (Nat × Byte)) : SMap Byte := l.foldl (fun m e => memPut m e.1 e.2) m

/-- Key of a core's carve-out copy of a byte. -/
def carveKey (core key : Nat) : Nat := core * 2 ^ 64 + key

/-- Revokes every core's claim on a byte: copies stay, as copies the core does not own (R189). -/
def revoke (m : SMap Carve) (key : Nat) : SMap Carve :=
  m.map (fun e => if e.1 % 2 ^ 64 = key ∧ e.2.owned then (e.1, { e.2 with owned := false }) else e)

/-- Drops a core's copy of a byte. -/
def dropCopy (m : SMap Carve) (core key : Nat) : SMap Carve := sdel m (carveKey core key)

/-- The 4-byte word of a key, by its number (R7, R156). -/
def poisonKey (key : Nat) : Nat := key / 4

/-- Some byte of a range lies in a poisoned word. -/
def State.poisoned (s : State) (key n : Nat) : Bool :=
  (List.range n).any (fun i => (sget s.poison (poisonKey (key + i))).isSome)

/-- A store of the range writes part of a poisoned word only (R156). -/
def State.poisonPart (s : State) (key n : Nat) : Bool :=
  (List.range n).any (fun i =>
    (sget s.poison (poisonKey (key + i))).isSome &&
      (decide (poisonKey (key + i) * 4 < key) || decide (key + n < poisonKey (key + i) * 4 + 4)))

/-- A store that writes every byte of a poisoned word clears the error (R156). -/
def clearPoison (m : SMap Bool) (key n : Nat) : SMap Bool :=
  m.filter (fun e => !(decide (key ≤ e.1 * 4) && decide (e.1 * 4 + 4 ≤ key + n)))

/-! ### Dirty logging (R309) -/

/-- The device-physical granule after the remap table (R302). -/
def State.remapped (s : State) (p : Nat) : Nat := (sget s.remaps (p / 4096)).getD (p / 4096) * 4096 + p % 4096

/-- The aperture granule that holds a device-physical granule, looked for among `n` entries of a VF's table (R302). -/
def apertureFind (s : State) (base g : Nat) : Nat → Option Nat
  | 0 => none
  | n + 1 =>
    let e := s.num (keyOf 0 (s.remapped (base + 8 * n))) 8
    if e % 2 = 1 ∧ e / 2 ^ 21 % 2 ^ 31 = g / 512 then some (n * 512 + g % 512) else apertureFind s base g n

/-- The granule a remap put at a place, or the place itself (R302, R311). -/
def unremap (m : SMap Nat) (g : Nat) : Nat := ((m.find? (fun e => e.2 == g)).map (·.1)).getD g

/-- Logs the first write to a granule of a VF's device memory, before the write is registered (R309). -/
def State.logDirty (s : State) (fn key : Nat) : State :=
  let v := s.vf fn
  if fn = 0 ∨ spaceOf key ≠ 0 ∨ v.dlctl.getLsbD 0 = false then s
  else
    match apertureFind s v.apbase.toNat (unremap s.remaps (addrOf key / 4096)) v.apsize.toNat with
    | none => s
    | some g =>
      if (sget v.logged g).isSome then s
      else
        let size := 2 ^ (field v.dlctl.toNat 12 4 + 6)
        let v1 := { v with logged := sput v.logged g true }
        if (v.dlprod - v.dlcons).toNat < size then
          let at_ := keyOf 1 (v.dlbase.toNat + 8 * (v.dlprod.toNat % size))
          let bs := (bytesOf 8 (g * 4096)).zipIdx.map (fun e => (at_ + e.2, e.1))
          { s with mem := memPuts s.mem bs }.setVf fn { v1 with dlprod := v.dlprod + 1 }
        else s.setVf fn { v1 with dlctl := v.dlctl ||| 2 }

/-- A byte whose home keeps it in a home-cache line: of HBM or host memory (R12, R319). -/
def isCached (key : Nat) : Bool := spaceOf key == 1 || (spaceOf key == 0 && decide (addrOf key < 0x6000000000))

/-- The bytes of a write may stand in lines of the writer's tag that memory has not got yet (R304). -/
def markDirty (m : SMap Nat) (tag : Nat) (l : List (Nat × Byte)) : SMap Nat :=
  l.foldl (fun m e => if isCached e.1 then sput m e.1 tag else m) m

/-- Writes at the home slice, by a party that keeps no copy: every claim on the bytes is revoked (R155, R162, R193). -/
def State.homeWrite (s : State) (tag : Nat) (l : List (Nat × Byte)) : State :=
  let s1 := l.foldl (fun s e => s.logDirty tag e.1) s
  { s1 with
    mem := memPuts s1.mem l
    owners := l.foldl (fun m e => sdel m e.1) s1.owners
    dirty := markDirty s1.dirty tag l
    carve := l.foldl (fun m e => revoke m e.1) s1.carve }

/-- Writes at the home slice for a core: its own copies of the bytes are dropped, so that its lanes read the new values
(R158, R189). -/
def State.homeWriteBy (s : State) (core tag : Nat) (l : List (Nat × Byte)) : State :=
  let s1 := s.homeWrite tag l
  { s1 with carve := l.foldl (fun m e => dropCopy m core e.1) s1.carve }

/-! ### Stores on their way (R189, R195) -/

/-- Whether a store on its way holds a byte. -/
def Reg.value (r : Reg) (key : Nat) : Option Byte := (r.bytes.reverse.find? (fun e => e.1 == key)).map (·.2)

/-- A core's newest store on its way that holds a byte. -/
def State.pendingByte (s : State) (core key : Nat) : Option Byte :=
  s.regq.reverse.findSome? (fun e => if e.2.core = core then e.2.value key else none)

/-- A store's registration at its home slice: the bytes are visible to every core, the issuing core owns them, and
every other claim is revoked (R189, R195). -/
def State.register (s : State) (id : Nat) : State :=
  match sget s.regq id with
  | none => s
  | some r =>
    let s1 := r.bytes.foldl (fun s e => s.logDirty r.tag e.1) s
    let own (m : SMap Carve) (e : Nat × Byte) : SMap Carve :=
      if spaceOf e.1 < 32 then sput (revoke m e.1) (carveKey r.core e.1) { val := e.2, owned := true } else m
    { s1 with
      mem := memPuts s1.mem r.bytes
      owners := r.bytes.foldl (fun m e => sput m e.1 (r.core, r.tag)) s1.owners
      dirty := markDirty s1.dirty r.tag r.bytes
      carve := r.bytes.foldl own s1.carve
      regq := sdel s1.regq id }

/-- Who makes an access at a home slice: a core, and the warp and slices whose earlier stores it comes after. -/
structure Party where
  /-- Core. -/
  core : Nat
  /-- Warp. -/
  w : Nat
  /-- Slices. -/
  slices : BitVec 8
deriving DecidableEq, Repr

/-- A core's engine, whose accesses come after no slice's stores. -/
def Party.engine (core : Nat) : Party := { core := core, w := 0, slices := 0 }

/-- A store on its way is one of the party's slices. -/
def Reg.ofParty (r : Reg) (p : Party) : Bool := r.warp == p.w && !(r.slices &&& p.slices == 0)

/-- The numbers, below `limit`, of a core's stores on their way to a home slice, up to the last that touches a range or that
the party's slices issued: they are registered in order before the party's access is performed there (R158, R195). -/
def State.before (s : State) (p : Party) (home key n limit : Nat) : List Nat :=
  let l := s.regq.filter (fun e => e.2.core == p.core && e.2.home == home && decide (e.1 < limit))
  let hit (e : Nat × Reg) : Bool := e.2.ofParty p || e.2.bytes.any (fun b => decide (key ≤ b.1) && decide (b.1 < key + n))
  match (l.filter hit).getLast? with
  | none => []
  | some e => (l.map (·.1)).filter (· ≤ e.1)

/-- Registers the stores that come before an access at home. -/
def State.drain (s : State) (p : Party) (home key n limit : Nat) : State :=
  (s.before p home key n limit).foldl State.register s

/-- Writes back every dirty word of a core's carve-out: each of its stores on its way is registered, the oldest first
(R165). -/
def State.writeBack (s : State) (core : Nat) : State :=
  ((s.regq.filter (fun e => e.2.core == core)).map (·.1)).foldl State.register s

/-- Stores of some slices of a warp still on their way (R165). -/
def State.storesOut (s : State) (w : Nat) (m : BitVec 8) : Bool :=
  s.regq.any (fun e => decide (e.2.warp = w) && !(e.2.slices &&& m == 0))

/-- Drain commands of some slices of a warp still running (R165, R182). -/
def State.drainsOut (s : State) (w : Nat) (m : BitVec 8) : Bool :=
  s.cmds.any (fun e => decide (e.2.warp = w) && e.2.drain && !(e.2.slices &&& m == 0))

/-- A row of a command is still to be read or written in memory: every row of a drain, and the rows of a fill that were not
read at issue. -/
def CopyCmd.open_ (k : CopyCmd) (row : Nat) : Bool :=
  k.drain || ((sget k.values row).isNone && (k.source.find? (fun x => x.1 == row)).isNone)

/-- Fill commands of some slices of a warp, below `limit`, that have rows of memory still to read (R182). -/
def State.fillsOut (s : State) (w : Nat) (m : BitVec 8) (limit : Nat) : Bool :=
  s.cmds.any (fun e => decide (e.1 < limit) && decide (e.2.warp = w) && !e.2.drain && !(e.2.slices &&& m == 0) &&
    e.2.todo.any (fun r => e.2.open_ r.1))

/-- Loads and atomics of some slices of a warp that have not returned; the reads of their fills are such loads (R165, R182). -/
def State.loadsOut (s : State) (w : Nat) (m : BitVec 8) : Bool :=
  s.inflight.any (fun e => decide (e.2.warp = w) && e.2.memory && !(e.2.slices &&& m == 0)) || s.fillsOut w m s.nextId

/-- The acquire: every copy the core does not own is dropped (R165). -/
def State.acquire (s : State) (core : Nat) : State :=
  { s with carve := s.carve.filter (fun e => !(decide (e.1 / 2 ^ 64 = core) && !e.2.owned)) }

/-- A byte as a core's loads see it: its own newest store, then its carve-out copy, then the home copy. -/
def State.coreByte (s : State) (core key : Nat) : Byte :=
  match s.pendingByte core key with
  | some b => b
  | none =>
    match sget s.carve (carveKey core key) with
    | some c => c.val
    | none => s.byte key

/-- The core's copies of an aligned 8-byte unit are fetched from home together; bytes the core owns are current (R192). -/
def fillUnit (s : State) (core unit : Nat) (m : SMap Carve) : SMap Carve :=
  (List.range 8).foldl (fun m i =>
    let k := carveKey core (8 * unit + i)
    if ((sget m k).map (·.owned)).getD false then m
    else sput m k { val := s.byte (8 * unit + i), owned := false }) m

/-- A plain load's fill: the core keeps copies of the aligned 8-byte units of which it lacks a byte it reads (R189, R192);
core stores are not cached. -/
def State.fill (s : State) (core key n : Nat) : State :=
  { s with carve := (List.range n).foldl (fun m i =>
      if spaceOf (key + i) < 32 ∧ (sget m (carveKey core (key + i))).isNone then fillUnit s core ((key + i) / 8) m
      else m) s.carve }

/-- The core's copies of a range that it does not own are dropped: what it reads there next is fetched from home, no older
than what its access at home has read (R189). -/
def State.refresh (s : State) (core key n : Nat) : State :=
  { s with carve := (List.range n).foldl (fun m i =>
      if ((sget m (carveKey core (key + i))).map (·.owned)).getD false then m else dropCopy m core (key + i)) s.carve }

/-! ### Translation (R153, R154, R302, R318, R319, R322) -/

/-- An access kind. -/
inductive Acc where
  /-- Load. -/
  | read
  /-- Store. -/
  | write
  /-- Atomic: read and write. -/
  | both
  /-- Fetch. -/
  | exec
  /-- The hardware's own, which asks for no permission. -/
  | hard
deriving DecidableEq, Repr

/-- What a translation answers. -/
inductive Xlat where
  /-- The memory key, and whether the page is ordered (R155). -/
  | go (key : Nat) (ordered : Bool)
  /-- A fault: class and detail (R281). -/
  | trap (cls detail : Nat)
  /-- A host page whose translation the host has not supplied (R154). -/
  | stall (page : Nat)
deriving DecidableEq, Repr

/-- An entry of a VF's aperture table, read where the remap table has put it (R302). -/
def State.apertureEntry (s : State) (fn i : Nat) : Nat := s.num (keyOf 0 (s.remapped ((s.vf fn).apbase.toNat + 8 * i))) 8

/-- A function's device memory: the device-physical address of an offset, through a VF's aperture, limited to the
stand (R302, R318); none where it faults. -/
def State.devAddr (s : State) (fn off : Nat) : Option Nat :=
  let st := s.stand (s.standOf fn)
  if fn = 0 then
    if st.holds off then some (s.remapped off) else none
  else
    let v := s.vf fn
    let i := off / 0x200000
    let at_ := v.apbase.toNat + 8 * i
    if i < v.apsize.toNat ∧ st.holds at_ = true then
      let e := s.apertureEntry fn i
      let c := e / 2 ^ 21 % 2 ^ 31 * 0x200000
      if e % 2 = 1 ∧ e / 2 ^ 52 = 0 ∧ e / 2 % 2 ^ 20 = 0 ∧ st.holds c = true ∧ st.holds (c + 0x1FFFFF) = true then
        some (s.remapped (c + off % 0x200000))
      else none
    else none

/-- A leaf of the page tables. -/
structure Leaf where
  /-- Page bytes. -/
  size : Nat
  /-- Entry bits. -/
  entry : Nat
deriving DecidableEq, Repr

/-- The walk of a context's tables from level `n - 1` down (R318); none gives a translation fault, detail 1. -/
def State.walk (s : State) (fn va : Nat) : Nat → Nat → Option Leaf
  | 0, _ => none
  | n + 1, table =>
    match s.devAddr fn (table + 8 * (va / 2 ^ (12 + 9 * n) % 512)) with
    | none => none
    | some p =>
      let e := s.num (keyOf 0 p) 8
      if e % 2 = 0 ∨ e / 2 ^ 56 ≠ 0 ∨ field e 9 3 ≠ 0 ∨ field e 2 2 = 3 then none
      else if field e 1 1 = 1 then
        if n = 0 then some { size := if field e 8 1 = 1 then 0x10000 else 0x1000, entry := e }
        else if n ≤ 2 then some { size := 2 ^ (12 + 9 * n), entry := e }
        else none
      else s.walk fn va n (field e 12 40 * 4096)

/-- The installed translation that covers an address. -/
def State.cached (s : State) (ctx va : Nat) : Option Tlb :=
  s.tlb.find? (fun t => decide (t.ctx = ctx) && decide (t.va ≤ va) && decide (va < t.va + t.size))

/-- The translation of a page, from a cache or from the tables (R154). -/
def State.lookup (s : State) (ctx va : Nat) : Option Tlb :=
  match s.cached ctx va with
  | some t => some t
  | none =>
    match s.walk (ctxFn ctx) va 5 (s.context ctx).ptroot.toNat with
    | none => none
    | some l =>
      some { ctx := ctx, va := va / l.size * l.size, size := l.size, tgt := field l.entry 2 2,
             base := field l.entry 12 40 * 4096 / l.size * l.size, dev := field l.entry 52 4,
             attr := BitVec.ofNat 4 (field l.entry 4 4) }

/-- Installs the translation of a page. -/
def State.install (s : State) (ctx va : Nat) : State :=
  match s.cached ctx va, s.lookup ctx va with
  | none, some t => { s with tlb := t :: s.tlb }
  | _, _ => s

/-- A page of device memory larger than 2 MiB lies in consecutive chunks (R302). -/
def State.contiguous (s : State) (fn : Nat) (t : Tlb) : Bool :=
  decide (fn = 0) || decide (t.size ≤ 0x200000) ||
    (List.range (t.size / 0x200000)).all (fun i =>
      (s.devAddr fn (t.base + i * 0x200000)).isSome &&
        decide (s.apertureEntry fn (t.base / 0x200000 + i) / 2 ^ 21 = s.apertureEntry fn (t.base / 0x200000) / 2 ^ 21 + i))

/-- The links of the function's stand that are up and whose peer is the device (R322). -/
def State.linksTo (s : State) (fn dev : Nat) : List Nat :=
  (onesBelow 12 (field (s.stand (s.standOf fn)).flink.toNat 16 12)).filter (fun k =>
    decide (field (s.link k).stat.toNat 0 2 = 2) && decide (field (s.link k).stat.toNat 8 4 = dev))

/-- The link on which a function's requests to an address of a device travel: one for each 4 KiB granule (R322). -/
def State.linkTo (s : State) (fn dev a : Nat) : Option Nat :=
  let l := s.linksTo fn dev
  l[a / 4096 % l.length]?

/-- The permission an access lacks, as the detail of class 0x07 (R153, R281). -/
def lacking (attr : BitVec 4) : Acc → Option Nat
  | .read => if attr.getLsbD 0 then none else some 0
  | .write => if attr.getLsbD 1 then none else some 1
  | .both => if attr.getLsbD 0 then (if attr.getLsbD 1 then none else some 1) else some 0
  | .exec => if attr.getLsbD 2 then none else some 2
  | .hard => none

/-- What ATS has answered for a host page of a context (R319). -/
def State.atsEntry (s : State) (ctx page : Nat) : Option AtsEntry :=
  s.ats.find? (fun e => decide (e.ctx = ctx) && decide (e.page = page))

/-- The memory key of a host virtual address in the page of an entry. -/
def AtsEntry.key (e : AtsEntry) (a : Nat) : Nat := keyOf 1 (e.frame * 4096 + a % 4096)

/-- The translation of a canonical address outside the window, for an access of a context (R153, R154, R318, R322). -/
def State.xlate (s : State) (ctx va : Nat) (acc : Acc) : Xlat :=
  match s.lookup ctx va with
  | none => .trap 6 1
  | some t =>
    match lacking t.attr acc with
    | some d => .trap 7 d
    | none =>
      let a := t.base + (va - t.va)
      let fn := ctxFn ctx
      match t.tgt with
      | 0 =>
        match s.devAddr fn a with
        | some p => if s.contiguous fn t then .go (keyOf 0 p) (t.attr.getLsbD 3) else .trap 6 1
        | none => .trap 6 1
      | 1 =>
        match s.atsEntry ctx (a / 4096) with
        | none => .stall (a / 4096)
        | some e =>
          if e.perm = 0 then .stall (a / 4096) else
          match lacking ((0#1 : BitVec 1) ++ 1#1 ++ e.perm) acc with
          | some d => .trap 7 d
          | none => .go (e.key a) (t.attr.getLsbD 3)
      | _ =>
        match s.linkTo fn t.dev a with
        | some _ => .go (keyOf (2 + t.dev) a) (t.attr.getLsbD 3)
        | none => .trap 6 1

/-- Canonical form: bits 63:57 all equal bit 56 (R152). -/
def canonical (a : DWord) : Bool := field a.toNat 56 8 == 0 || field a.toNat 56 8 == 255

/-- The core-store window (R153). -/
def inWindow (a : DWord) : Bool := a.toNat / 2 ^ 48 == 0xFFFE

/-- The address within the translated space: bits 56:0. -/
def vaOf (a : DWord) : Nat := a.toNat % 2 ^ 57

/-- The PASID of a context (R314). -/
def State.pasidOf (s : State) (ctx : Nat) : Nat := field (s.context ctx).pasid.toNat 0 20

/-- Asks the host for a page's translation, once, under the function's requester ID and the context's PASID (R154, R312,
R319). -/
def State.askAts (s : State) (ctx page : Nat) : State :=
  if s.atsReq.contains (ctx, page) then s
  else { s with atsReq := (ctx, page) :: s.atsReq, outbox := .ats (ctxFn ctx) (s.pasidOf ctx) page :: s.outbox }

/-- ATS has reported a host page absent (R319). -/
def State.atsAbsent (s : State) (ctx page : Nat) : Bool := ((s.atsEntry ctx page).map (fun e => e.perm == 0)).getD false

/-- The least free index of the tag table, below 256 (R289). -/
def State.freeTag (s : State) : Option Nat := (List.range 256).find? (fun i => (sget s.tags i).isNone)

/-- A stalled access asks for its host page: first through ATS, then, where ATS reports it absent, through PRI with an
entry of the tag table, one for a warp and a page; while every entry is in use the access only waits (R154, R289). -/
def State.askHost (s : State) (t : Tag) : State :=
  if s.atsAbsent t.ctx t.page then
    if s.tags.any (fun e => e.2.ctx == t.ctx && e.2.core == t.core && e.2.warp == t.warp && e.2.page == t.page) then s
    else
      match s.freeTag with
      | none => s
      | some i => { s with tags := sput s.tags i t, outbox := .pri (ctxFn t.ctx) (s.pasidOf t.ctx) t.page i :: s.outbox }
  else s.askAts t.ctx t.page

/-- The core number of a request that no core makes: the launch engine's. -/
def noCore : Nat := 128

/-- The entry of a request for a page by hardware on a core (R289). -/
def Tag.of (ctx core page : Nat) : Tag :=
  { ctx := ctx, core := core, warp := none, page := page, lanes := 0, va := 0 }

/-- The index of the denied request of a warp, or of a core's own, for a page. -/
def State.denied (s : State) (ctx core : Nat) (w : Option Nat) (page : Nat) : Option Nat :=
  (s.denials.find? (fun e => e.2.ctx == ctx && e.2.core == core && e.2.warp == w && e.2.page == page)).map (·.1)

/-- A translation for an access of a warp or of a core's engine: a denied request is a translation fault, detail 2
(R154, R289). -/
def State.xlateFor (s : State) (ctx core : Nat) (w : Option Nat) (va : Nat) (acc : Acc) : Xlat :=
  match s.xlate ctx va acc with
  | .stall p => if (s.denied ctx core w p).isSome then .trap 6 2 else .stall p
  | x => x

/-! ### Accesses the hardware itself makes: records, node words, clearings, rings -/

/-- The key of a byte the hardware accesses in a context's space; none where it faults. -/
def State.hwKey (s : State) (ctx : Nat) (a : DWord) (acc : Acc) : Option Nat :=
  if canonical a = false ∨ inWindow a = true then none
  else
    match s.xlate ctx (vaOf a) acc with
    | .go key _ => some key
    | _ => none

/-- Reads `n` bytes of a context's space at home. -/
def State.hwRead (s : State) (ctx : Nat) (a : DWord) : Nat → Option (List Byte)
  | 0 => some []
  | n + 1 =>
    match s.hwKey ctx a .hard, s.hwRead ctx (a + 1) n with
    | some k, some r => some (s.byte k :: r)
    | _, _ => none

/-- Reads a little-endian number of a context's space at home; 0 where it faults. -/
def State.hwNum (s : State) (ctx : Nat) (a : DWord) (n : Nat) : Nat := numOf ((s.hwRead ctx a n).getD [])

/-- The keys and values of a hardware write; none where some byte faults. -/
def State.hwCells (s : State) (ctx : Nat) (a : DWord) : List Byte → Option (List (Nat × Byte))
  | [] => some []
  | b :: r =>
    match s.hwKey ctx a .hard, s.hwCells ctx (a + 1) r with
    | some k, some l => some ((k, b) :: l)
    | _, _ => none

/-- Writes bytes of a context's space at home; nothing where a byte faults. -/
def State.hwWrite (s : State) (ctx : Nat) (a : DWord) (l : List Byte) : State :=
  match s.hwCells ctx a l with
  | some c => s.homeWrite (ctxFn ctx) c
  | none => s

/-- Writes a little-endian number of a context's space at home. -/
def State.hwPut (s : State) (ctx : Nat) (a : DWord) (n x : Nat) : State := s.hwWrite ctx a (bytesOf n x)

/-- Reads device memory of a function by device address: save areas and trap areas (R283, R294). -/
def State.devNum (s : State) (fn a n : Nat) : Nat :=
  numOf ((List.range n).map (fun i => match s.devAddr fn (a + i) with
    | some p => s.byte (keyOf 0 p)
    | none => 0))

/-- Writes device memory of a function by device address; bytes outside it are dropped. -/
def State.devWrite (s : State) (fn a : Nat) (l : List Byte) : State :=
  s.homeWrite fn (l.zipIdx.filterMap (fun e => (s.devAddr fn (a + e.2)).map (fun p => (keyOf 0 p, e.1))))

/-- Writes a little-endian number of device memory. -/
def State.devPut (s : State) (fn a n x : Nat) : State := s.devWrite fn a (bytesOf n x)

/-- Writes `n` bytes of device memory that only the part itself reads, in a form of its own: free values (R294; assumption 38). -/
def State.devOwn (s : State) (fn a n : Nat) : State :=
  { s.devWrite fn a ((List.range n).map (fun i => Config.freeByte (s.fresh + i))) with fresh := s.fresh + n }

/-- Writes in memory past the home cache. As after any other write, no core's claim on the bytes stands: what a core holds of them
it drops at its next acquire (R189, R194). -/
def State.pastWrite (s : State) (cells : List (Nat × Byte)) : State :=
  { s with
    mem := memPuts s.mem cells
    owners := cells.foldl (fun m e => sdel m e.1) s.owners
    carve := cells.foldl (fun m e => revoke m e.1) s.carve }

/-- Writes bytes in memory by key: what the device writes in host memory past its caches. -/
def State.rawWrite (s : State) (key : Nat) (l : List Byte) : State := s.pastWrite (l.zipIdx.map (fun e => (key + e.2, e.1)))

/-- Writes of the host's processors in their own memory, by host address (R316). -/
def State.hostWrites (s : State) (l : List (Nat × Byte)) : State := s.pastWrite (l.map (fun e => (keyOf 1 e.1, e.2)))

/-! ### Registers of a warp -/

/-- Key of a vector register's lane. -/
def vkey (r lane : Nat) : Nat := 32 * r + lane

/-- Vector register `r` of a lane (R46). -/
def Warp.vget (W : Warp) (r lane : Nat) : Word := zget 0 W.v (vkey r lane)

/-- Writes a vector register of a lane. -/
def Warp.vput (W : Warp) (r lane : Nat) (x : Word) : Warp := { W with v := zput 0 W.v (vkey r lane) x }

/-- An even pair of a lane (R50). -/
def Warp.vget2 (W : Warp) (r lane : Nat) : DWord := pair64 (W.vget r lane) (W.vget (r + 1) lane)

/-- Writes a vector register in the lanes of a mask. -/
def Warp.vputs (W : Warp) (m : Word) (r : Nat) (f : Nat → Word) : Warp :=
  { W with v := (lanesOf m).foldl (fun v lane => zput 0 v (vkey r lane) (f lane)) W.v }

/-- A predicate register as a mask of lanes; p7 reads true (R48). -/
def Warp.pmask (W : Warp) (i : Nat) : Word := if i = 7 then BitVec.allOnes 32 else zget 0 W.p i

/-- Writes a predicate register in the lanes of a mask; p7 discards writes (R48). -/
def Warp.pputs (W : Warp) (m : Word) (i : Nat) (x : Word) : Warp :=
  if i = 7 then W else { W with p := zput 0 W.p i ((W.pmask i &&& ~~~m) ||| (x &&& m)) }

/-- A slice of a warp. -/
def Warp.slice (W : Warp) (j : Nat) : Slice :=
  (W.slices[j]?).getD { pc := 0, active := 0, stack := [], rets := [], armed := none, exited := true, detached := 0 }

/-- Changes a slice. -/
def Warp.modSlice (W : Warp) (j : Nat) (f : Slice → Slice) : Warp := { W with slices := W.slices.modify j f }

/-- Changes the slices of a mask. -/
def Warp.modSlices (W : Warp) (m : BitVec 8) (f : Nat → Slice → Slice) : Warp :=
  { W with slices := W.slices.mapIdx (fun j x => if m.getLsbD j then f j x else x) }

/-- The active masks of the slices of a mask, as a mask of lanes. -/
def Warp.lanes (W : Warp) (m : BitVec 8) : Word :=
  (slicesOf m).foldl (fun a j => a ||| (((W.slice j).active.setWidth 32) <<< (4 * j))) 0

/-- The slices of a mask of lanes. -/
def sliceMask (m : Word) : BitVec 8 :=
  (List.range 8).foldl (fun a j => if m &&& (15#32 <<< (4 * j)) = 0 then a else a ||| (1#8 <<< j)) 0

/-- The unexited slices (R47). -/
def Warp.live (W : Warp) : BitVec 8 :=
  (List.range 8).foldl (fun a j => if (W.slice j).exited then a else a ||| (1#8 <<< j)) 0

/-- The bits of FLAGS that are not reserved (R97). -/
abbrev flagBits : Word := 0x01FF01FF

/-- Sets flags, which stay set (R98). -/
def Warp.raise (W : Warp) (f : Word) : Warp := { W with flags := W.flags ||| f }

/-- The gang that holds a slice. -/
def Warp.gangAt (W : Warp) (j : Nat) : Option Gang := W.gangs.find? (fun g => g.slices.getLsbD j)

/-- The lowest slice of a mask. -/
def lowSlice (m : BitVec 8) : Nat := ((slicesOf m).head?).getD 0

/-- Changes the gang that holds a slice. -/
def Warp.modGang (W : Warp) (j : Nat) (f : Gang → Gang) : Warp :=
  { W with gangs := W.gangs.map (fun g => if g.slices.getLsbD j then f g else g) }

/-- The PC of a gang: that of its slices. -/
def Warp.pcOf (W : Warp) (g : Gang) : DWord := (W.slice (lowSlice g.slices)).pc

/-- The first hint of the group a gang's next instruction carries, or that instruction (R64, R65). -/
def Warp.groupPc (W : Warp) (g : Gang) : DWord := W.pcOf g - 4 * BitVec.ofNat 64 g.hints.length

/-- A scalar register of a gang's view. -/
def Gang.sget (g : Gang) (i : Nat) : Word := zget 0 g.s i

/-- s92 to s95 of a gang's view. -/
def Gang.ss (g : Gang) : List Word := [g.sget 92, g.sget 93, g.sget 94, g.sget 95]

/-- Writes a scalar register of a view: s96 discards (R47), the written set records it (R21). -/
def Gang.sput (g : Gang) (only : Bool) (i : Nat) (x : Word) : Gang :=
  if i < 96 then
    { g with s := zput 0 g.s i x, written := if only then g.written else g.written ||| (1#99 <<< i) }
  else g

/-- Writes a uniform predicate of a view. -/
def Gang.qput (g : Gang) (only : Bool) (i : Nat) (x : Bool) : Gang :=
  if i < 3 then
    { g with q := if x then g.q ||| (1#3 <<< i) else g.q &&& ~~~(1#3 <<< i)
             written := if only then g.written else g.written ||| (1#99 <<< (96 + i)) }
  else g

/-- A PC with bits 1:0 zero, as every slice's is (R43). -/
def alignPc (a : DWord) : DWord := a &&& ~~~3

/-- A slice at the start of a warp (R15). -/
def Slice.start (pc : DWord) (live : BitVec 4) : Slice :=
  { pc := alignPc pc, active := live, stack := [], rets := [], armed := none, exited := live == 0, detached := 0 }

/-- A gang at the start of a warp: its slices, every scalar 0 (R15, R236; assumption 1). -/
def Gang.start (m : BitVec 8) : Gang :=
  { slices := m, s := [], q := 0, written := 0, hints := [], hinted := 0, wait := none, pend := .none, stall := none, sleep := none,
    promoted := false, unchosen := 0, since := 0, redo := none, words := [] }

/-- A warp at its start (R15, R97): all registers 0 (assumption 1), parked and ready to take its storage. -/
def Warp.start (core entry ctx grove index kernel : Nat) (block : Option Nat) (d : Kernel) (code : DWord)
    (live : Nat → BitVec 4) (age : Nat) : Warp :=
  { core := core, entry := entry, part := 0, block := block, grove := grove, ctx := ctx, index := index, kernel := kernel,
    window := d.window, scalars := d.scalars, capsules := d.capsules, code := code, v := [], p := [],
    flags := d.enable.setWidth 32 <<< 16, emptyV := [], emptyS := 0,
    slices := (List.range 8).map (fun j => Slice.start (code + BitVec.ofNat 64 (4 * d.entry)) (live j)),
    gangs := [Gang.start ((List.range 8).foldl (fun m j => if live j = 0 then m else m ||| (1#8 <<< j)) 0)],
    age := age, residency := .parked true age, handler := none, hostStop := false, stopNext := 0,
    callers := [], saplings := [], refusal := 0, caps := [], adopts := [], waited := [], arrivals := 0, arrived := [], away := 0,
    urgent := false, lastSlot := false, ended := false }

/-- The warp's only gang (R22). -/
def Warp.only (W : Warp) : Bool := W.gangs.length == 1

/-- Writes a scalar register in the view of the gang that holds a slice. -/
def Warp.sput (W : Warp) (j i : Nat) (x : Word) : Warp := W.modGang j (fun g => g.sput W.only i x)

/-- Writes a uniform predicate in the view of the gang that holds a slice. -/
def Warp.qput (W : Warp) (j i : Nat) (x : Bool) : Warp := W.modGang j (fun g => g.qput W.only i x)

/-- A warp whose only gang is left has no written set (R22). -/
def Warp.lone (W : Warp) : Warp :=
  match W.gangs with
  | [g] => { W with gangs := [{ g with written := 0 }] }
  | _ => W

/-- The warp executes in handler mode for the gang that holds a slice (R285). -/
def Warp.inHandler (W : Warp) (j : Nat) : Bool :=
  match W.handler with
  | some h => h.slices.getLsbD j
  | none => false

/-- A gang is held back while its warp is stopped, or runs a handler for another gang (R282, R287). -/
def Warp.heldBack (W : Warp) (g : Gang) : Bool :=
  W.hostStop || (match W.handler with
    | some h => h.slices &&& g.slices != g.slices
    | none => false)

/-! ### Gangs: next PCs, joins and parting (R16, R21, R123) -/

/-- Repeats the check of R123 until the slice no longer reaches its join. -/
def Slice.settle : Nat → Slice → Slice
  | 0, sl => sl
  | n + 1, sl =>
    match sl.stack with
    | [] => sl
    | e :: r =>
      if e.join = some sl.pc then
        if e.second then
          Slice.settle n { sl with active := sl.active ||| e.lanes, stack := r }
        else
          Slice.settle n { sl with active := e.lanes, stack := { e with lanes := sl.active, second := true } :: r,
                                   pc := e.resume }
      else sl

/-- EXIT's rule for a slice whose active lanes have all exited, then R123, repeated while the mask is empty (R124). -/
def Slice.afterExit : Nat → Slice → Slice
  | 0, sl => sl
  | n + 1, sl =>
    if sl.active = 0 then
      match sl.stack with
      | [] => { sl with exited := true }
      | e :: r =>
        if e.second then
          Slice.afterExit n (Slice.settle 20 { sl with active := e.lanes, stack := r, pc := e.join.getD sl.pc })
        else
          Slice.afterExit n (Slice.settle 20
            { sl with active := e.lanes, stack := { e with lanes := 0, second := true } :: r, pc := e.resume })
    else sl

/-- The slices of a mask grouped by PC, each group with its lowest slice first. -/
def groupByPc (W : Warp) (m : BitVec 8) : List (BitVec 8) :=
  (slicesOf m).foldl (fun gs j =>
    match gs.find? (fun x => (W.slice (lowSlice x)).pc == (W.slice j).pc) with
    | some x => gs.map (fun y => if y = x then y ||| (1#8 <<< j) else y)
    | none => gs ++ [1#8 <<< j]) []

/-- Parts the gang that holds a slice by its slices' PCs; exited slices leave it (R16, R21). A group that is not at
`keep` loses its hints (R61). -/
def Warp.sunder (W : Warp) (m : BitVec 8) (keep : Option DWord) : Warp :=
  let live := m &&& W.live
  let split (g : Gang) : List Gang :=
    if g.slices = m then
      (groupByPc W live).map (fun x =>
        { g with slices := x, hints := if some (W.slice (lowSlice x)).pc = keep then g.hints else [] })
    else [g]
  { W with gangs := W.gangs.flatMap split }.lone

/-- The gang of the slices given continues: each slice's next PC is as `f` gives, R123 is applied, and the gang parts
where its slices disagree. Hints stay with the slices that fall through to `keep`. -/
def Warp.go (W : Warp) (m : BitVec 8) (keep : Option DWord) (f : Nat → Slice → Slice) : Warp :=
  (W.modSlices m (fun j x => Slice.settle 20 (f j x))).sunder m keep

/-! ### Taking a trap (R282 to R288) -/

/-- What a trap is taken with (R281, R283). -/
structure Trap where
  /-- Class. -/
  cls : Nat
  /-- Detail. -/
  detail : Nat
  /-- Completed lanes; restartable classes only. -/
  completed : Word
  /-- Faulting lanes. -/
  faulting : Word
  /-- Faulting address. -/
  addr : DWord
  /-- PRI tag. -/
  tag : Option Nat
  /-- An address in the page whose denied request the trap may report (R289). -/
  page : DWord
  /-- Resume at the word after the trapping one (TRAP, R129). -/
  after : Bool
deriving DecidableEq, Repr

/-- A trap of a class and detail alone. -/
def Trap.of (cls detail : Nat) : Trap :=
  { cls := cls, detail := detail, completed := 0, faulting := 0, addr := 0, tag := none, page := 0, after := false }

/-- The rank of a core in its context's stand (R283). -/
def State.rank (s : State) (ctx core : Nat) : Nat :=
  ((s.stand (s.standOf (ctxFn ctx))).cores.filter (· < core)).length

/-- Device address of a warp's trap record (R283). -/
def State.recordAddr (s : State) (ctx core entry : Nat) : Nat :=
  s.devNum (ctxFn ctx) ((s.context ctx).savebase.toNat + 0x30) 8 + 128 * (s.rank ctx core * 2048 + entry)

/-- The word a context fetches at a PC; 0 where it cannot be fetched. -/
def State.wordAt (s : State) (ctx : Nat) (pc : DWord) : Nat :=
  if canonical pc = false ∨ inWindow pc = true then 0
  else
    match s.xlate ctx (vaOf pc) .exec with
    | .go key _ => s.num key 4
    | _ => 0

/-- A class the handler never gets, or that the context sends to the host (R284). -/
def State.toHost (s : State) (ctx cls : Nat) : Bool :=
  decide ((s.context ctx).tvec = 0) || (s.context ctx).tdeleg.toNat.testBit cls || cls == 0x30 || cls == 0x31

/-- The 128 bytes of a trap record (R283), from the fields in the order of the map. -/
def recordBytes (cls detail slices flags : Nat) (pc resume : DWord) (completed faulting : Word) (addr : DWord)
    (word locator node ctxnum slot tag : Nat) (wflags : Word) (ss : List Word) (time action : Nat) : List Byte :=
  bytesOf 2 cls ++ bytesOf 2 detail ++ bytesOf 1 slices ++ bytesOf 1 flags ++ bytesOf 2 0 ++ bytesOf 8 pc.toNat ++
    bytesOf 8 resume.toNat ++ bytesOf 4 completed.toNat ++ bytesOf 4 faulting.toNat ++ bytesOf 8 addr.toNat ++
    bytesOf 4 word ++ bytesOf 4 locator ++ bytesOf 4 node ++ bytesOf 2 ctxnum ++ bytesOf 1 slot ++ bytesOf 1 tag ++
    bytesOf 4 wflags.toNat ++ bytesOf 4 0 ++ (ss.flatMap (fun x => bytesOf 4 x.toNat)) ++ bytesOf 8 time ++
    bytesOf 36 0 ++ bytesOf 1 action ++ bytesOf 3 0

/-- The node index a warp's block runs; 0xFFFF_FFFF in a sapling warp (R283). -/
def State.nodeOf (s : State) (W : Warp) : Nat :=
  match W.block.bind (sget s.blocks) with
  | some b => b.node
  | none => 0xFFFFFFFF

/-- The context number (R314). -/
def State.ctxNum (s : State) (ctx : Nat) : Nat := field (s.context ctx).cxnum.toNat 0 16

/-- The instruction word at the trap PC of a gang, as it was fetched (R283). -/
def State.trapWord (s : State) (W : Warp) (g : Gang) : Nat :=
  match g.words with
  | x :: _ => x.toNat
  | [] => s.wordAt W.ctx (W.groupPc g)

/-- The trap record of a gang of a warp (R283). -/
def State.record (s : State) (W : Warp) (g : Gang) (t : Trap) (host : Bool) : List Byte :=
  let pc := W.groupPc g
  let resume := if t.after then W.pcOf g + 4 else pc
  let flags := (if t.cls = 6 ∨ t.cls = 7 ∨ t.cls = 8 then 1 else 0) + (if host then 2 else 0) + (if t.tag.isSome then 4 else 0)
  recordBytes t.cls t.detail g.slices.toNat flags pc resume t.completed t.faulting t.addr (s.trapWord W g)
    (W.core * 2 ^ 25 + W.entry * 2 ^ 14) (s.nodeOf W) (s.ctxNum W.ctx)
    (((sget s.groves W.grove).map (·.slot)).getD 0) (t.tag.getD 0) W.flags g.ss
    s.refTime 0

/-- Queues a record for a context's trap ring, with the warp it stops (R287). -/
def State.queueTrap (s : State) (ctx : Nat) (bytes : List Byte) (w : Option Nat) : State :=
  let c := s.context ctx
  s.setContext ctx { c with trapq := c.trapq ++ [(bytes, w)] }

/-- A warp-less record (R283). -/
def State.warplessRecord (s : State) (ctx cls detail slot : Nat) (addr : DWord) : List Byte :=
  recordBytes cls detail 0 2 0 0 0 0 addr 0 0xFFFFFFFF 0xFFFFFFFF (s.ctxNum ctx) slot 0 0 [0, 0, 0, 0] s.refTime 0

/-- A gang that stops waiting. -/
def Gang.idle (g : Gang) : Gang := { g with wait := none, pend := .none }

/-- The completed lanes that a gang's re-execution of the instruction at a PC leaves out (R286). -/
def Gang.redone (g : Gang) (pc : DWord) : Word :=
  match g.redo with
  | some (at_, m) => if at_ = pc then m else 0
  | none => 0

/-- A trap of a gang as it is recorded: in a restartable class the lanes that an earlier execution completed stay named (R281,
R286). -/
def Trap.named (t : Trap) (W : Warp) (g : Gang) : Trap :=
  if t.cls = 6 ∨ t.cls = 7 ∨ t.cls = 8 then { t with completed := t.completed ||| g.redone (W.groupPc g) } else t

/-- The hardware fields of a warp image and its reserved bytes after them, which are zero (R8, R294): 0x100 bytes. -/
def Warp.imageHead (W : Warp) (kind : Nat) (pc : DWord) (q : BitVec 3) (ss : List Word) : List Byte :=
  bytesOf 4 kind ++ bytesOf 1 W.window ++ bytesOf 1 W.scalars ++ bytesOf 1 W.live.toNat ++ bytesOf 1 0 ++
    bytesOf 8 pc.toNat ++ bytesOf 4 W.flags.toNat ++ bytesOf 4 (W.lanes W.live).toNat ++ bytesOf 4 q.toNat ++ bytesOf 4 0 ++
    (List.range 32).flatMap (fun l => bytesOf 1 ((List.range 7).foldl (fun a i =>
      if (W.pmask i).getLsbD l then a + 2 ^ i else a) 0)) ++
    ss.flatMap (fun x => bytesOf 4 x.toNat) ++ bytesOf 176 0

/-- Device address of a warp's image (R294). -/
def State.imageAddr (s : State) (W : Warp) : Nat :=
  s.devNum (ctxFn W.ctx) ((s.context W.ctx).savebase.toNat + 0x38) 8 + 32768 * (s.rank W.ctx W.core * 2048 + W.entry)

/-- The warp as its image shows it: one halted in its save handler is what it was at its halt entry (R291, R294). -/
def Warp.imaged (W : Warp) : Warp :=
  match W.handler.bind (·.halt) with
  | some h => { W with handler := none, gangs := [h.gang], slices := h.slices, v := h.v, p := h.p, flags := h.flags }
  | none => W

/-- Where a warp resumes once saved: at the first hint of its group, or where it was when it was halted (R65, R291). -/
def Warp.resumePc (W : Warp) : DWord :=
  match W.imaged.gangs with
  | g :: _ => W.imaged.groupPc g
  | [] => 0

/-- Some lane of the warp is in a capsule. -/
def Warp.holds (W : Warp) : Bool := W.caps.any (fun e => e.2.inside)

/-- A warp that holds a capsule becomes away: its away messages are to be sent, unless they are or have been (R255). -/
def Warp.leave (W : Warp) : Nat := if W.holds && W.away == 0 then 1 else W.away

/-- A warp is in the save area. -/
def Warp.saved (W : Warp) : Bool :=
  match W.residency with
  | .saved _ => true
  | _ => false

/-- The warp's FLAGS and, where it is halted, those of its image. -/
def Warp.raiseBoth (W : Warp) (f : Word) : Warp :=
  { W.raise f with handler := W.handler.map (fun h => { h with halt := h.halt.map (fun x => { x with flags := x.flags ||| f }) }) }

/-- An engine raises flags of a warp (R94, R98): where its image has been written they are set there too (R291, R294). -/
def State.raiseIn (s : State) (w : Nat) (f : Word) : State :=
  match sget s.warps w with
  | none => s
  | some W =>
    let s1 := s.setWarp w (W.raiseBoth f)
    if f = 0 ∨ (W.saved = false ∧ (W.handler.bind (·.halt)).isNone) then s1
    else
      let a := s.imageAddr W + 0x10
      s1.devPut (ctxFn W.ctx) a 4 (s.devNum (ctxFn W.ctx) a 4 ||| f.toNat)

/-- Writes the capture state of a warp's image, 15 744 bytes whose form is the part's own (R294; assumption 38). -/
def State.captureState (s : State) (W : Warp) : State := s.devOwn (ctxFn W.ctx) (s.imageAddr W + 0x4280) 15744

/-- The image a capture writes of a warp (R294). -/
def State.captureImage (s : State) (W : Warp) : State :=
  let I := W.imaged
  let g := (I.gangs.head?).getD (Gang.start 0)
  let a := s.imageAddr W
  let fn := ctxFn W.ctx
  (((s.devWrite fn a (I.imageHead 2 W.resumePc g.q g.ss)).devWrite fn (a + 0x100)
    ((List.range 92).flatMap (fun i => bytesOf 4 (g.sget i).toNat))).devWrite fn (a + 0x280)
    ((List.range W.window).flatMap (fun r => (List.range 32).flatMap (fun l => bytesOf 4 (I.vget r l).toNat)))).captureState W

/-- Saves a warp: captured whole by the hardware, its image written, or by its save handler (R290, R291, R294). What no
field of the image names, the capture state, stays in the warp. -/
def State.saveWarp (s : State) (w : Nat) (captured : Bool) : State :=
  match sget s.warps w with
  | none => s
  | some W =>
    let c := s.context W.ctx
    let s1 := if captured then s.captureImage W else s
    let k := c.counts
    (s1.setWarp w { W with residency := .saved captured, away := W.leave }).setContext W.ctx
      { c with counts := if captured then (k.1, k.2.1 + 1, k.2.2) else (k.1 + 1, k.2.1, k.2.2) }

/-- The denied request a translation fault of detail 2 records, which is done with: that of the page of its address, where
the warp has one (R289). -/
def State.takeDenial (s : State) (w : Nat) (t : Trap) : Trap × State :=
  if t.cls = 6 ∧ t.detail = 2 then
    let mine := s.denials.filter (fun e => e.2.warp == some w)
    match (mine.find? (fun e => decide (e.2.va.toNat / 4096 = t.page.toNat / 4096))).orElse (fun _ => mine.head?) with
    | some e => ({ t with tag := some e.1 }, { s with denials := s.denials.filter (fun x => !(x.1 == e.1)) })
    | none => (t, s)
  else (t, s)

/-- A double trap: class 0x31, whose detail is the class taken in handler mode; the lanes that faulted stay named (R281,
R283, R285). -/
def Trap.double (t : Trap) : Trap := { t with cls := 0x31, detail := t.cls, completed := 0, tag := none, after := false }

/-- Takes a precise trap of the gang of a warp that holds a slice (R282, R285, R287). In handler mode it is a double
trap, sent to the host; in a save handler it leads to the warp's capture (R285, R291). -/
def State.trap (s0 : State) (w j : Nat) (t0 : Trap) : State :=
  let t := (s0.takeDenial w t0).1
  let s := (s0.takeDenial w t0).2
  match sget s.warps w with
  | none => s
  | some W =>
    match W.gangAt j with
    | none => s
    | some g =>
      let dbl := W.inHandler j
      if dbl && (W.handler.bind (·.halt)).isSome then s.saveWarp w true
      else
        let t1 := if dbl then t.double else t.named W g
        let host := dbl || s.toHost W.ctx t1.cls
        let addr := s.recordAddr W.ctx W.core W.entry
        let bytes := s.record W g t1 host
        let W1 := W.modGang j Gang.idle
        if host then
          let s1 := (s.devWrite (ctxFn W.ctx) addr bytes).setWarp w { W1 with hostStop := true, stopNext := W.pcOf g + 4 }
          s1.queueTrap W.ctx bytes (some w)
        else
          let put (g : Gang) : Gang :=
            (((g.sput W.only 92 (loWord (BitVec.ofNat 64 addr))).sput W.only 93 (hiWord (BitVec.ofNat 64 addr))).sput W.only 94
              (BitVec.ofNat 32 (t1.cls * 2 ^ 16 + t1.detail))).sput W.only 95 0
          let W2 := (W1.modGang j (fun g => { put g with hints := [] })).modSlices g.slices
            (fun _ x => { x with pc := alignPc (s.context W.ctx).tvec })
          (s.devWrite (ctxFn W.ctx) addr bytes).setWarp w
            { W2 with handler := some { slices := g.slices, record := BitVec.ofNat 64 addr,
                                        depths := W.slices.map (fun x => x.stack.length), halt := none } }

/-- Ends a block by fault: every warp of it ends at once (R288). Its saplings, stores and commands go on. -/
def State.killBlock (s : State) (b : Nat) : State :=
  match sget s.blocks b with
  | none => s
  | some B =>
    let s1 := B.members.foldl (fun s w => s.modWarp w (fun W =>
      { W with ended := true, gangs := [], hostStop := false, handler := none, away := if W.ended then W.away else W.leave,
               slices := W.slices.map (fun x => { x with exited := true, active := 0 }) })) s
    { s1 with blocks := smod s1.blocks b (fun B => { B with faulted := true, ended := List.range B.warps }) }

/-- Records the exits of a sapling warp's lanes: their joins are decremented once its accesses complete (R237). -/
def State.recordExits (s : State) (w : Nat) (W : Warp) (m : Word) : State :=
  (lanesOf m).foldl (fun s lane =>
    match sget W.saplings lane with
    | none => s
    | some x =>
      { s with exits := sput s.exits s.nextId { warp := w, grove := W.grove, ctx := W.ctx, join := x.2 }
               nextId := s.nextId + 1 }) s

/-- The lanes of a slice that have not exited: its active ones, those on its mask stack, the detached ones, and, while one of its
lanes runs an adopted body, those the adoption buffer holds (R122, R256, R257). -/
def Warp.unexited (W : Warp) (j : Nat) : BitVec 4 :=
  let x := W.slice j
  if x.exited then 0
  else
    let waiting := x.stack.foldl (fun a e => a ||| e.lanes) (x.active ||| x.detached)
    W.adopts.foldl (fun a b => if b.slices.getLsbD j then a ||| (b.actives[j]?).getD 0 else a) waiting

/-- Ends a warp's block by fault; a sapling warp ends alone, its unexited saplings as if they had exited (R237, R288). -/
def State.endByFault (s : State) (w : Nat) : State :=
  match sget s.warps w with
  | none => s
  | some W =>
    match W.block with
    | some b => s.killBlock b
    | none =>
      let live := (List.range 8).foldl (fun a j => a ||| ((W.unexited j).setWidth 32 <<< (4 * j))) 0
      (s.recordExits w W live).setWarp w
        { W with ended := true, gangs := [], hostStop := false, handler := none, away := W.leave,
                 slices := W.slices.map (fun x => { x with exited := true, active := 0 }) }

/-- A slice stands at the join of its top entry, so that R123 moves it before it fetches. -/
def Slice.atJoin (x : Slice) : Bool :=
  match x.stack with
  | [] => false
  | e :: _ => decide (e.join = some x.pc)

/-- Resumes a warp from its trap record: the rule IRET and host action 0 share (R286, R287). A slice that the resume PC puts
at its join is moved by R123. -/
def State.resumeFrom (s : State) (w : Nat) (slices : BitVec 8) (trapPc resume : DWord) (completed : Word) : State :=
  s.modWarp w (fun W =>
    let put (g : Gang) : Gang :=
      { g with hints := [], redo := if resume = trapPc ∧ completed ≠ 0 then some (trapPc, completed) else none }
    let W1 := (W.modGang (lowSlice slices) (fun g => (put g).idle)).modSlices slices (fun _ x => { x with pc := alignPc resume })
    let W2 := { W1 with handler := none, hostStop := false }
    if (slicesOf slices).any (fun j => (W2.slice j).atJoin) then W2.go slices none (fun _ x => x) else W2)

end Sys2Proof.Machine
end

