-- ==== Sys2Proof/Machine/Flags.lean ====
section
/-! DEFINITION. The bits of FLAGS (R97) and the carries, clamps and comparisons that the integer instructions compute
their flags and results from (R77, R106 to R116). -/

namespace Sys2Proof.Machine

/-- Invalid. -/
def fNV : Word := 1
/-- Floating division by zero. -/
def fDZ : Word := 2
/-- Overflow. -/
def fOF : Word := 4
/-- Underflow. -/
def fUF : Word := 8
/-- Inexact. -/
def fNX : Word := 16
/-- Integer division or remainder by zero. -/
def fIZ : Word := 32
/-- INT32 accumulator overflow. -/
def fIO : Word := 64
/-- A conversion or encoding saturated. -/
def fSAT : Word := 128
/-- Scalar merge conflict (R22). -/
def fMC : Word := 256

/-- A flag, where a condition holds. -/
def flagIf (b : Bool) (f : Word) : Word := if b then f else 0

/-- A number clamped to a range. -/
def clampInt (lo hi x : Int) : Int := if x < lo then lo else if hi < x then hi else x

/-- The least value of an integer type of `n` bits. -/
def typeMin (signed : Bool) (n : Nat) : Int := if signed then -(2 ^ (n - 1)) else 0

/-- The greatest value of an integer type of `n` bits. -/
def typeMax (signed : Bool) (n : Nat) : Int := if signed then 2 ^ (n - 1) - 1 else 2 ^ n - 1

/-- The low `n` bits of a number read as a signed or an unsigned value (R77). -/
def readInt (signed : Bool) (n x : Nat) : Int :=
  let y := x % 2 ^ n
  if signed ∧ 2 ^ (n - 1) ≤ y then (y : Int) - 2 ^ n else (y : Int)

/-- A number wrapped to `n` bits (R77). -/
def wrapInt (n : Nat) (x : Int) : Nat := (x % (2 ^ n : Int)).toNat

/-- A TYPE code names a signed type: .i32, .i64, .i16, .i8 (R60). -/
def typeSigned (t : Nat) : Bool := t % 2 == 0

/-- A TYPE code names a 64-bit integer type. -/
def typeWide (t : Nat) : Bool := t == 2 || t == 3

end Sys2Proof.Machine
end

