-- ==== Sys2Proof/Machine/Messages.lean ====
section
/-! DEFINITION. The counters, the flits of a Horxus link, and the requests this device makes of its peers, those of its own hardware
among them (25_tenancy R306, 27_links R320, R322, R323). -/

namespace Sys2Proof.Machine

/-! ### Counters (R306) -/

/-- A set of counters after each enabled counter has added what `f` gives for its event, and the counters that wrapped
(R306). -/
def Counters.add (c : Counters) (f : Nat → Nat) : Counters × Word :=
  let n (i : Nat) : Nat :=
    let x := ((c.sel[i]?).getD 0).toNat
    if x.testBit 8 then f (x % 32) else 0
  ({ c with cnt := c.cnt.mapIdx (fun i x => x + BitVec.ofNat 48 (n i)) },
    ((List.range 8).filter (fun i => decide (2 ^ 48 ≤ ((c.cnt[i]?).getD 0).toNat + n i))).foldl (fun a i => a ||| bitW i) 0)

/-- A function is running: the PF always, a VF in state 2 (R306). -/
def State.fnCounts (s : State) (fn : Nat) : Bool := fn == 0 || (s.vf fn).state == 2

/-- Vectors of a function's MSI-X table (R312). -/
def vectors (fn : Nat) : Nat := if fn = 0 then 2048 else 64

/-- Raises an MSI-X; a vector the table does not hold raises none (R312, R314). -/
def State.interrupt (s : State) (fn vector : Nat) : State :=
  if vector < vectors fn then s.send (.msix fn vector) else s

/-- Sets the PMOVF bits of counters that wrapped, and raises the interrupt of PMINT (R306). -/
def State.overflow (s : State) (fn : Nat) (m : Word) : State :=
  let c := s.counter fn
  let s1 := { s with counters := sput s.counters fn { c with ovf := c.ovf ||| m, pend := c.pend &&& ~~~m } }
  if c.int.getLsbD 15 then s1.interrupt fn (field c.int.toNat 0 11) else s1

/-- Adds to the counters of a function that count an event (R306). The wrap of a counter of array beats is a step of its
own. -/
def State.count (s : State) (fn ev n : Nat) : State :=
  if s.fnCounts fn ∧ (sget s.counters fn).isSome then
    let (c1, wraps) := (s.counter fn).add (fun e => if e = ev then n else 0)
    if ev = 5 then { s with counters := sput s.counters fn { c1 with pend := c1.pend ||| wraps } }
    else
      let s1 := { s with counters := sput s.counters fn c1 }
      if wraps = 0 then s1 else s1.overflow fn wraps
  else s

/-! ### Flits (R320) -/

/-- State of a link: 0 down, 1 training, 2 up, 3 peer mismatch (R321). -/
def Link.phase (x : Link) : Nat := field x.stat.toNat 0 2

/-- The peer's index. -/
def Link.peer (x : Link) : Nat := field x.stat.toNat 8 4

/-- HXSTAT with a state and a peer. -/
def Link.withStat (x : Link) (st peer : Nat) : Link :=
  { x with stat := BitVec.ofNat 32 (field x.stat.toNat 16 16 * 2 ^ 16 + peer * 2 ^ 8 + st) }

/-- A message of a flit: the manual names the kinds and gives no layout; assumption 30 does. -/
structure Packet where
  /-- 0 none, 1 load, 2 store, 3 atomic, 4 reply, 5 barrier packet, 6 copy row. -/
  kind : Nat
  /-- Bytes; a barrier packet's group. -/
  size : Nat
  /-- The fn of an atomic, or the op of a barrier packet; a reply's fault class. -/
  fn : Nat
  /-- The TYPE code of an atomic; the role of a barrier packet (see barrierMessage); a reply's fault detail. -/
  type : Nat
  /-- The requester's tag; a barrier's number. -/
  tag : Nat
  /-- Address at the receiving device. -/
  addr : Nat
  /-- Data. -/
  data : Nat
  /-- The new value of a compare and swap. -/
  other : Nat
deriving DecidableEq, Repr

/-- A message of 56 bytes. -/
def Packet.read (l : List Byte) : Packet :=
  let f (off n : Nat) : Nat := numOf ((l.drop off).take n)
  { kind := f 0 1, size := f 1 1, fn := f 2 1, type := f 3 1, tag := f 4 4, addr := f 8 8, data := f 16 32, other := f 48 8 }

/-- The bytes of a message. -/
def Packet.bytes (p : Packet) : List Byte :=
  bytesOf 1 p.kind ++ bytesOf 1 p.size ++ bytesOf 1 p.fn ++ bytesOf 1 p.type ++ bytesOf 4 p.tag ++ bytesOf 8 p.addr ++
    bytesOf 32 p.data ++ bytesOf 8 p.other

/-- The messages of a flit. -/
def flitPackets (flit : List Byte) : List Packet :=
  ((List.range 4).map (fun i => Packet.read ((flit.drop (8 + 56 * i)).take 56))).filter (fun p => p.kind != 0)

/-- A flit with a sequence, an acknowledged sequence, the credits returned and the kind, and messages (R320). The values of
credits and kind, which R320 does not give, are free. -/
def flitOf (seq ack : Nat) (head : BitVec 12) (l : List Packet) : List Byte :=
  let body := bytesOf 8 (head.toNat * 2 ^ 24 + ack * 2 ^ 12 + seq) ++
    (((l.take 4).flatMap Packet.bytes) ++ List.replicate 240 (0 : Byte)).take 240
  body ++ bytesOf 8 (Config.crc64 body).toNat

/-- A flit is whole: 256 bytes and the CRC agrees. -/
def flitGood (flit : List Byte) : Bool :=
  flit.length == 256 && numOf (flit.drop 248) == (Config.crc64 (flit.take 248)).toNat

/-- The replay buffer of a link has room for a flit (R320). -/
def Link.room (x : Link) : Bool := decide (x.replay.length < 512)

/-- Sends up to four messages in one flit, which the replay buffer keeps (R320, R306 event 16). -/
def State.emitFlit (s : State) (k : Nat) (l : List Packet) : State :=
  let x := s.link k
  let f := flitOf x.sendSeq.toNat (x.recvSeq - 1).toNat (Config.flitHead s.fresh) l
  (({ s with fresh := s.fresh + 1 }.setLink k { x with sendSeq := x.sendSeq + 1, replay := x.replay ++ [(x.sendSeq, f)] }).send
    (.flit k f)).count 0 16 1

/-- Sends messages on a link, up to four; where it retrains, its replay buffer is full, or others wait already, they wait in order. -/
def State.sendFlit (s : State) (k : Nat) (l : List Packet) : State :=
  let x := s.link k
  if l.isEmpty then s
  else if x.phase = 2 ∧ x.room ∧ x.waiting = [] then s.emitFlit k l
  else s.setLink k { x with waiting := x.waiting ++ l.map Packet.bytes }

/-- Sends what waits for room in a link's replay buffer, in up to `n` flits. -/
def State.flushLink (s : State) (k : Nat) : Nat → State
  | 0 => s
  | n + 1 =>
    let x := s.link k
    if x.phase ≠ 2 ∨ x.room = false ∨ x.waiting = [] then s
    else
      ((s.setLink k { x with waiting := x.waiting.drop 4 }).emitFlit k ((x.waiting.take 4).map Packet.read)).flushLink k n

/-- Sends messages in as many flits as they need, up to `n`. -/
def State.sendPackets (s : State) (k : Nat) : Nat → List Packet → State
  | 0, _ => s
  | n + 1, l => if l.isEmpty then s else (s.sendFlit k (l.take 4)).sendPackets k n (l.drop 4)

/-! ### Requests of this device (R322, R323) -/

/-- The key lies in another device's memory. -/
def isRemote (key : Nat) : Bool := decide (2 ≤ spaceOf key) && decide (spaceOf key < 32)

/-- The device that holds a remote key. -/
def deviceOf (key : Nat) : Nat := spaceOf key - 2

/-- The least tag no request travels with. -/
def State.freeRequest (s : State) : Nat :=
  ((List.range (s.requests.length + 1)).find? (fun i => (sget s.requests i).isNone)).getD s.requests.length

/-- Makes a request for a remote key and the message that carries it, where its link has room in its replay buffer (R320,
R322). `page` is the virtual address of the granule. -/
def State.request (s : State) (who : Asker) (ctx key : Nat) (page : DWord) (quiet : Bool) (p : Packet) :
    State × List (Nat × Packet) :=
  match s.linkTo (ctxFn ctx) (deviceOf key) (addrOf key) with
  | none => (s, [])
  | some k =>
    if (s.link k).room = false ∨ (s.link k).waiting ≠ [] then (s, [])
    else
      let i := s.freeRequest
      let r : Request := { who := who, link := k, ctx := ctx, page := page, size := p.size, quiet := quiet, load := p.kind == 1, lost := false,
                           order := s.nextId, answer := none }
      ({ s with requests := sput s.requests i r, nextId := s.nextId + 1 }, [(k, { p with tag := i, addr := addrOf key })])

/-- Sends the messages made, link by link, in order. -/
def State.sendAll (s : State) (l : List (Nat × Packet)) : State :=
  ((l.map (·.1)).eraseDups).foldl (fun s k =>
    let mine := (l.filter (fun e => e.1 == k)).map (·.2)
    s.sendPackets k mine.length mine) s

/-- Sends one request of a core (R322). -/
def State.askOne (s : State) (who : Asker) (ctx key : Nat) (page : DWord) (p : Packet) : State :=
  let x := s.request who ctx key page false p
  x.1.sendAll x.2

/-- A load of `n` bytes. -/
def loadPacket (n : Nat) : Packet := { kind := 1, size := n, fn := 0, type := 0, tag := 0, addr := 0, data := 0, other := 0 }

/-- An atomic addition to a 64-bit counter. -/
def addPacket (k : Nat) : Packet := { kind := 3, size := 8, fn := 0, type := 3, tag := 0, addr := 0, data := k, other := 0 }

/-! ### Accesses of the hardware itself to another device's memory (R322; assumption 52) -/

/-- Sends a store of the hardware: it waits in the link's order where the replay buffer has no room (R320, R323). -/
def State.post (s : State) (ctx key : Nat) (page : DWord) (p : Packet) : State :=
  match s.linkTo (ctxFn ctx) (deviceOf key) (addrOf key) with
  | none => s
  | some k =>
    let i := s.freeRequest
    let r : Request := { who := .posted, link := k, ctx := ctx, page := page, size := p.size, quiet := true, load := false, lost := false,
                         order := s.nextId, answer := none }
    ({ s with requests := sput s.requests i r, nextId := s.nextId + 1 }).sendFlit k [{ p with tag := i, addr := addrOf key }]

/-- Sends what the hardware has written to another device's memory, of bytes that stand together from an address on: a store for each
aligned 32-byte part. -/
def State.ship (s : State) (ctx : Nat) (a : DWord) (l : List (Nat × Byte)) : State :=
  let away := l.filter (fun e => isRemote e.1)
  ((away.map (fun e => e.1 / 32)).eraseDups).foldl (fun s part =>
    let mine := away.filter (fun e => e.1 / 32 == part)
    s.post ctx ((mine.head?.map (·.1)).getD 0) (a &&& ~~~0xFFF)
      { kind := 2, size := mine.length, fn := 0, type := 0, tag := 0, addr := 0, data := numOf (mine.map (·.2)), other := 0 }) s

/-- Writes bytes of a context's space for the hardware: at home here, or by stores to the device that holds them. -/
def State.putAway (s : State) (ctx : Nat) (a : DWord) (l : List Byte) : State :=
  (s.hwWrite ctx a l).ship ctx a ((s.hwCells ctx a l).getD [])

/-- Writes a little-endian number so. -/
def State.putNum (s : State) (ctx : Nat) (a : DWord) (n x : Nat) : State := s.putAway ctx a (bytesOf n x)

/-- What an operation of the hardware has of some bytes it is to read. -/
inductive Far where
  /-- They are here, or it has read them. -/
  | here
  /-- The aligned 32-byte part at a key is still to be asked for. -/
  | ask (part : Nat)
  /-- A part is on its way. -/
  | coming
  /-- A part was refused, or lost with its link. -/
  | refused (cls detail : Nat)
deriving DecidableEq, Repr

/-- How far an operation of the hardware has read the bytes from a key on: those of another device part by part. -/
def State.far (s : State) (op : EngineOp) (key n : Nat) : Far :=
  if isRemote key then
    (List.range' (key / 32) ((key + n + 31) / 32 - key / 32)).foldl (fun r i =>
      if r ≠ .here then r
      else
        match s.requests.find? (fun e => e.2.who == .engine op (32 * i)) with
        | none => .ask (32 * i)
        | some (_, q) => (match q.answer with
          | none => .coming
          | some (cls, d, _) => if cls = 0 then .here else .refused cls d)) .here
  else .here

/-- Asks for a part that an operation of the hardware reads. -/
def State.askFar (s : State) (op : EngineOp) (ctx : Nat) (page : DWord) (part : Nat) : State :=
  s.askOne (.engine op part) ctx part (page &&& ~~~0xFFF) (loadPacket 32)

/-- An operation of the hardware is done with what it has read. -/
def State.endFar (s : State) (op : EngineOp) : State :=
  { s with requests := s.requests.filter (fun e => match e.2.who with
      | .engine o _ => !(o == op)
      | _ => true) }

end Sys2Proof.Machine
end

