-- ==== Sys2Proof/Machine/Operands.lean ====
section
/-! DEFINITION. Operand forms, hint groups, guards, the checks every issue makes in the order of R71, the full and empty
waits of R56, and how an issue ends (03_encoding, 19_capsule R253). -/

namespace Sys2Proof.Machine

/-! ### Hint groups (R59 to R65) -/

/-- What the hints of a group say. -/
structure HintSet where
  /-- IMM payloads, oldest first. -/
  imms : List (BitVec 22)
  /-- GUARD: negate and predicate. -/
  guard : Option (Bool × Nat)
  /-- SRCX: bit 0 a, bit 1 b, bit 2 c. -/
  srcx : Option (BitVec 3)
  /-- CREG. -/
  creg : Option Nat
  /-- TYPE code. -/
  type : Option Nat
  /-- ROUND: flush, saturate, mode. -/
  round : Option (Bool × Bool × Nat)
  /-- SCHED: yield and stall. -/
  sched : Option (Bool × Nat)
  /-- CACHE. -/
  cache : Option Nat
deriving DecidableEq, Repr

/-- The payload of the first hint of a kind. -/
def hintOf (l : List Hint) (k : Nat) : Option Nat := (l.find? (fun h => h.kind == k)).map (fun h => h.payload.toNat)

/-- Reads a group. -/
def HintSet.read (l : List Hint) : HintSet :=
  { imms := (l.filter (fun h => h.kind == 0)).map (·.payload)
    guard := (hintOf l 1).map (fun p => (p.testBit 3, p % 8))
    srcx := (hintOf l 2).map (BitVec.ofNat 3)
    creg := (hintOf l 3).map (· % 128)
    type := (hintOf l 4).map (· % 32)
    round := (hintOf l 5).map (fun p => (p.testBit 4, p.testBit 3, p % 8))
    sched := (hintOf l 6).map (fun p => (p.testBit 4, p % 16))
    cache := (hintOf l 7).map (· % 8) }

/-- The bits of an immediate field of `w` bits after IMM extension, with its width (R63). -/
def immBits (w f : Nat) (imms : List (BitVec 22)) : Nat × Nat :=
  imms.reverse.foldl (fun a p => (a.1 + p.toNat * 2 ^ a.2, a.2 + 22)) (f, w)

/-- A signed immediate (R45, R63). -/
def immInt {w : Nat} (f : BitVec w) (imms : List (BitVec 22)) : Int :=
  let x := immBits w f.toNat imms
  if x.1 < 2 ^ (x.2 - 1) then (x.1 : Int) else (x.1 : Int) - 2 ^ x.2

/-- An unsigned immediate (R63). -/
def immNat {w : Nat} (f : BitVec w) (imms : List (BitVec 22)) : Nat := (immBits w f.toNat imms).1

/-! ### Signatures -/

/-- A register operand: a group of `n` registers from `r` (R46, R47, R50). -/
inductive Opnd where
  /-- Vector. -/
  | v (r n : Nat)
  /-- Scalar. -/
  | s (r n : Nat)
deriving DecidableEq, Repr

/-- Where an instruction may stand in a capsule body (R253). -/
inductive BodyRule where
  /-- Nowhere. -/
  | no
  /-- Nowhere, as a backward or zero-offset branch (R259, cause 4). -/
  | back
  /-- With every vector register named in the k window. -/
  | vec
  /-- Anywhere; its own meaning makes the other checks. -/
  | free
  /-- CAPBEGIN: its own meaning makes every check. -/
  | own
deriving DecidableEq, Repr

/-- What an issue checks before the meaning acts: operands, guards, and the hints that suit (R52, R56, R59, R64, R69). -/
structure Sig where
  /-- The g field; none where the format has none. -/
  g : Option (BitVec 2)
  /-- A GUARD hint suits. -/
  guard : Bool
  /-- Sources, each with the SRCX bit that may mark it. -/
  srcs : List (Opnd × Option Nat)
  /-- Destinations. -/
  dsts : List Opnd
  /-- Vector registers named that are read whatever the slices (EXTRACT, MEDGE, MMAVS): register and slices. -/
  extra : List (Nat × BitVec 8)
  /-- TYPE codes that suit. -/
  types : List Nat
  /-- Rounding modes suit. -/
  modes : Bool
  /-- The saturate bit suits. -/
  sat : Bool
  /-- The flush bit suits. -/
  ftz : Bool
  /-- IMM hints that suit, at most. -/
  imms : Nat
  /-- A CREG hint suits. -/
  creg : Bool
  /-- A CACHE hint suits. -/
  cache : Bool
  /-- Privileged (R70). -/
  priv : Bool
  /-- No reserved code and no value out of range in its fields (R69). -/
  legal : Bool
  /-- Where it may stand in a capsule body. -/
  body : BodyRule
deriving DecidableEq, Repr

/-- A signature that names nothing. -/
def Sig.plain : Sig :=
  { g := none, guard := false, srcs := [], dsts := [], extra := [], types := [], modes := false, sat := false, ftz := false,
    imms := 0, creg := false, cache := false, priv := false, legal := true, body := .no }

/-- A group is aligned to its size and, where scalar, lies where R47 and R50 let it. -/
def Opnd.legalSrc : Opnd → Bool
  | .v r n => r % n == 0
  | .s r n =>
    if n = 1 then decide (r < 122)
    else r % n == 0 && (decide (r + n ≤ 96) || r == 96 || (r == 110 && n == 2))

/-- A destination: no special but s96, which discards (R47, R50). -/
def Opnd.legalDst : Opnd → Bool
  | .v r n => r % n == 0
  | .s r n => r % n == 0 && (decide (r + n ≤ 96) || r == 96)

/-- A group lies below the warp's window or scalar count (R46, R206). -/
def Opnd.within (W : Warp) (j : Nat) : Opnd → Bool
  | .v r n => decide (r + n ≤ W.window)
  | .s r n => decide (96 ≤ r) || decide (r + n ≤ W.scalars) || W.inHandler j

/-- A group is full for some slices (R53, R56). -/
def Opnd.full (W : Warp) (m : BitVec 8) : Opnd → Bool
  | .v r n => (List.range n).all (fun i => zget 0 W.emptyV (r + i) &&& m == 0)
  | .s r n => (List.range n).all (fun i => !(decide (r + i < 96) && W.emptyS.getLsbD (r + i)))

/-- The register field value of an operand (R281, class 0x04). -/
def Opnd.field : Opnd → Nat
  | .v r _ => r
  | .s r _ => r

/-- The vector registers a signature names. -/
def Sig.vectors (g : Sig) : List (Nat × Nat) :=
  (g.srcs.map (·.1) ++ g.dsts).filterMap (fun o => match o with
    | .v r n => some (r, n)
    | .s _ _ => none)

/-- The hint group suits the target (R59, R64). -/
def suits (g : Sig) (l : List Hint) : Bool :=
  let h := HintSet.read l
  let once (k : Nat) : Bool := decide ((l.filter (fun x => x.kind == k)).length ≤ 1)
  decide (l.length ≤ 3) && (List.range' 1 7).all once && decide (h.imms.length < 3) && decide (h.imms.length ≤ g.imms) &&
  (match h.guard with
    | none => true
    | some _ => g.guard && (g.g == none || g.g == some 0)) &&
  (match h.srcx with
    | none => true
    | some m => (List.range 3).all (fun i => !m.getLsbD i || g.srcs.any (fun o => o.2 == some i))) &&
  (h.creg == none || g.creg) &&
  (match h.type with
    | none => true
    | some t => g.types.contains t) &&
  (match h.round with
    | none => true
    | some (f, t, m) => (g.modes || g.sat || g.ftz) && (m == 0 || g.modes) && (!t || g.sat) && (!f || g.ftz)) &&
  (h.cache == none || g.cache)

/-- Nothing illegal (item 1 of R71). -/
def Sig.lawful (g : Sig) (l : List Hint) : Bool :=
  suits g l && g.legal && g.srcs.all (fun o => o.1.legalSrc) && g.dsts.all Opnd.legalDst

/-! ### The issuing gang -/

/-- What a meaning acts on: the issuing gang and its lanes. -/
structure Ctx where
  /-- Warp number. -/
  w : Nat
  /-- The gang's lowest slice. -/
  j : Nat
  /-- The warp. -/
  W : Warp
  /-- The gang. -/
  G : Gang
  /-- Its hints. -/
  h : HintSet
  /-- Lanes of the active masks. -/
  base : Word
  /-- active(L): the active masks under the guard (R53). -/
  act : Word

/-- The gang that issues. -/
def State.issuing (s : State) : Option Ctx :=
  match s.cur with
  | none => none
  | some (w, j) =>
    match sget s.warps w with
    | none => none
    | some W =>
      match W.gangAt j with
      | none => none
      | some G =>
        let base := W.lanes G.slices
        some { w := w, j := j, W := W, G := G, h := HintSet.read G.hints, base := base, act := base }

/-- The lanes in which a guard is true (R52). -/
def guardMask (W : Warp) (g : Option (BitVec 2)) (h : Option (Bool × Nat)) : Word :=
  match h with
  | some (neg, p) => if neg then ~~~(W.pmask p) else W.pmask p
  | none =>
    match g with
    | none => BitVec.allOnes 32
    | some 0#2 => BitVec.allOnes 32
    | some 1#2 => W.pmask 0
    | some 2#2 => ~~~(W.pmask 0)
    | some _ => W.pmask 1

/-- The lanes left out because they completed before a trap (R286). -/
def Ctx.redone (c : Ctx) : Word := c.G.redone (c.W.groupPc c.G)

/-- The context under an instruction's guard. -/
def Ctx.guarded (c : Ctx) (g : Sig) : Ctx :=
  { c with act := c.base &&& guardMask c.W g.g c.h.guard &&& ~~~c.redone }

/-! ### Scalars and specials -/

/-- Address of a block's node record (R207). -/
def State.nodeAddr (s : State) (G : Grove) (i : Nat) : DWord := G.nodes + 64 * BitVec.ofNat 64 i

/-- A field of the node record of a warp's block (R207); 0 in a sapling warp. -/
def State.nodeField (s : State) (W : Warp) (off n : Nat) : Nat :=
  match W.block.bind (sget s.blocks), sget s.groves W.grove with
  | some b, some G => s.hwNum W.ctx (s.nodeAddr G b.node + BitVec.ofNat 64 off) n
  | _, _ => 0

/-- Domain code of a level slot of a grove, 3 to 7 (R36). -/
def Grove.domain (G : Grove) (slot : Nat) : Nat := ((G.levels[slot - 3]?).getD (0, 0, 0, 0)).1

/-- Size of a level slot. -/
def Grove.levelSize (G : Grove) (slot : Nat) : Nat := ((G.levels[slot - 3]?).getD (0, 0, 0, 0)).2.2.2

/-- Barrier count of a level slot. -/
def Grove.barrierCount (G : Grove) (slot : Nat) : Nat := ((G.levels[slot - 3]?).getD (0, 0, 0, 0)).2.2.1

/-- The device index within the device domain (R47, R324). -/
def State.devid (s : State) (W : Warp) : Nat :=
  match sget s.groves W.grove with
  | some G =>
    if G.domain 7 = 7 then
      ((onesBelow 16 (s.context W.ctx).hxgroup.toNat).filter (· < field s.hxdev.toNat 0 4)).length
    else 0
  | none => 0

/-- The value of a read-only scalar special, 96 to 121 (R47). A node that TREEGROW attached belongs to no cluster and reads 0 as its
clusterid (R211; assumption 80). -/
def State.special (s : State) (W : Warp) (g : Gang) (n : Nat) : Nat :=
  let B := W.block.bind (sget s.blocks)
  let t := match B with
    | some b => b.desc.team
    | none => 1
  match n with
  | 97 => W.index
  | 98 => W.index / t
  | 99 => W.index % t
  | 100 => W.core
  | 101 => W.part
  | 102 => match B with
    | some b => b.warps
    | none => 1
  | 103 => t
  | 104 => match B with
    | some b => b.node
    | none => 0
  | 105 => s.nodeField W 0x10 4
  | 106 => s.nodeField W 0x0C 2
  | 107 => s.nodeField W 0x08 4
  | 108 => s.nodeField W 0x0E 2
  | 109 => s.nodeField W 0x02 2
  | 110 => s.nodeField W 0x18 4
  | 111 => s.nodeField W 0x1C 4
  | 112 => s.nodeField W 0x20 4
  | 113 => s.nodeField W 0x24 4
  | 114 => match B, sget s.groves W.grove with
    | some _, some G => s.hwNum W.ctx (G.addr + 0x14) 4
    | _, _ => 0
  | 115 => W.kernel
  | 116 => match B, sget s.groves W.grove with
    | some b, some G =>
      match b.cluster with
      | some (parent, _) =>
        if G.domain 5 = 0 ∨ b.node = G.root then 0
        else (b.node - s.hwNum W.ctx (s.nodeAddr G parent + 8) 4) % G.levelSize 5
      | none => 0
    | _, _ => 0
  | 117 => match sget s.groves W.grove with
    | some G => if G.domain 6 = 5 then W.core / 32 % 2 else 0
    | none => 0
  | 118 => s.devid W
  | 119 => s.ctxNum W.ctx
  | 120 => g.slices.toNat
  | 121 => W.live.toNat
  | _ => 0

/-- Scalar register `n` as the issuing gang reads it (R47, R53). -/
def Ctx.sread (c : Ctx) (s : State) (n : Nat) : Word :=
  if n < 96 then c.G.sget n else BitVec.ofNat 32 (s.special c.W c.G n)

/-- A scalar pair; every word of an s96 group reads zero (R50). -/
def Ctx.sread2 (c : Ctx) (s : State) (n : Nat) : DWord :=
  if n = 96 then 0 else pair64 (c.sread s n) (c.sread s (n + 1))

/-! ### How an issue ends -/

/-- What a meaning answers. -/
inductive Res where
  /-- The instruction has had its effect; the gang goes on at the next word. -/
  | done (s : State)
  /-- The instruction has had its effect and has itself set where the slices go. -/
  | jump (s : State)
  /-- The gang waits at the instruction. -/
  | wait (s : State)
  /-- A precise trap; the state is that left by the lanes named complete. -/
  | trap (s : State) (t : Trap)

/-- A step that others may wait for. -/
def State.tick (s : State) : State := { s with progress := s.progress + 1 }

/-- The gang after an issue at the group PC given: not promoted, not waiting, its hints used up, held back by a yield hint
(R26, R27, R61); what a re-execution there left out is done with (R286). -/
def Gang.issued (g : Gang) (now : Nat) (h : HintSet) (pc : DWord) : Gang :=
  { g with hints := [], wait := none, pend := .none, promoted := false, unchosen := 0,
           stall := match h.sched with
             | some (true, _) => some (now + 2)
             | _ => none
           redo := match g.redo with
             | some (at_, m) => if at_ = pc then none else some (at_, m)
             | none => none }

/-- Changes every gang that holds some slice of a mask. -/
def Warp.modGangs (W : Warp) (m : BitVec 8) (f : Gang → Gang) : Warp :=
  { W with gangs := W.gangs.map (fun g => if g.slices &&& m = 0 then g else f g) }

/-- Ends an issue that had its effect (R61, R306). -/
def State.finish (s : State) (c : Ctx) : State :=
  ((s.modWarp c.w (fun W => W.modGangs c.G.slices (fun g => g.issued s.time c.h (c.W.groupPc c.G)))).count
    (ctxFn c.W.ctx) 1 1).tick

/-- Every slice of the gang goes on at the next word; slices that reach their join part from it (R16, R123). -/
def State.advance (s : State) (c : Ctx) : State :=
  s.modWarp c.w (fun W => W.go c.G.slices (some (c.W.pcOf c.G + 4)) (fun _ x => { x with pc := x.pc + 4 }))

/-- The gang waits. -/
def State.waitAt (s : State) (c : Ctx) : State :=
  s.modWarp c.w (fun W => W.modGang c.j (fun g => { g with wait := some s.progress }))

/-- The gang waits, with what it has done so far; others may wait for that. -/
def State.waitWith (s : State) (c : Ctx) (p : Pending) : State :=
  if c.G.pend = p then s.waitAt c
  else
    let s1 := s.tick
    s1.modWarp c.w (fun W => W.modGang c.j (fun g =>
      { g with wait := some s1.progress, pend := p, since := s.time }))

/-! ### Capsule bodies (R253, R259) -/

/-- Where a capsule record lies: its context, its address there, and its key. -/
structure RecPlace where
  /-- Context. -/
  ctx : Nat
  /-- Address. -/
  va : DWord
  /-- Key. -/
  key : Nat

/-- Writes bytes at a key of a record's page, at home (R248, R254). -/
def State.pagePut (s : State) (p : RecPlace) (key : Nat) (l : List Byte) : State :=
  let cells := l.zipIdx.map (fun (e : Byte × Nat) => (key + e.2, e.1))
  (s.homeWrite (ctxFn p.ctx) cells).ship p.ctx p.va cells

/-- Writes a number at an offset of a record, at home. -/
def State.recPut (s : State) (p : RecPlace) (off n x : Nat) : State := s.pagePut p (p.key + off) (bytesOf n x)

/-- The lanes of the issuing gang's active masks that are in a capsule, and whose body runs: a gang in handler mode runs its
handler, no body (R253, R285; assumption 69). -/
def Ctx.capLanes (c : Ctx) : List Nat :=
  if c.W.inHandler c.j then []
  else
    (lanesOf c.base).filter (fun l => match sget c.W.caps l with
      | some x => x.inside
      | none => false)

/-- The record key of a lane's capsule; none where its page is no longer mapped. -/
def State.recordKey (s : State) (ctx : Nat) (a : DWord) : Option Nat := s.hwKey ctx a .both

/-- Every register of a lane's k window is full (R55, R256). -/
def Warp.kFull (W : Warp) (base lane : Nat) : Bool :=
  (List.range 16).all (fun i => !(zget 0 W.emptyV (base + i)).getLsbD (lane / 4))

/-- The adoption buffer of a gang that runs an adopted body (R256). -/
def Warp.adoption (W : Warp) (m : BitVec 8) : Option AdoptBuffer := W.adopts.find? (fun b => m.getLsbD (b.lane / 4))

/-- The warp after a lane's adoption ends: the gang, its masks and the lane's registers are those of the buffer (R256). -/
def Warp.restoreAdopt (W : Warp) (b : AdoptBuffer) : Warp :=
  let regs := b.regs.zipIdx.foldl (fun (W : Warp) e => W.vput (b.base + e.2) b.lane e.1) W
  let preds := (List.range 7).foldl (fun (W : Warp) i =>
    W.pputs (bitW b.lane) i (if b.preds.getLsbD i then BitVec.allOnes 32 else 0)) regs
  let W1 := preds.modSlices b.slices (fun j x => { x with pc := b.pc, active := (b.actives[j]?).getD 0 })
  let W2 := { W1 with adopts := W1.adopts.filter (fun x => x.lane != b.lane) }
  match W2.gangs.find? (fun g => !(g.slices &&& b.slices == 0)) with
  | none => W2
  | some g =>
    { W2 with gangs := (W2.gangs.filter (fun g => g.slices &&& b.slices == 0)) ++
                [{ g with slices := b.slices, pend := .capsule b.acquired, wait := none, hints := [] }]
              caps := smod W2.caps b.lane (fun x => { x with inside := false, adopting := false }) }

/-- A gang of the warp waits on a JOINWAIT whose counter has not been seen at zero. -/
def Warp.joining (W : Warp) : Bool := W.gangs.any (fun g => match g.pend with
  | .join _ false => true
  | _ => false)

/-- A warp made ready to be unparked, behind those that became ready earlier (R32); a JOINWAIT completion or a window access of
another warp makes it urgent (R33), and nothing else wakes a warp that waits on a JOINWAIT, whose other gangs wait with it
(R244). -/
def State.wake (s : State) (w : Nat) (urgent : Bool) : State :=
  match sget s.warps w with
  | none => s
  | some W =>
    if W.joining = true ∧ urgent = false then s
    else
    match W.residency with
    | .parked false _ =>
      { s with warps := sput s.warps w { W with residency := .parked true s.nextId, urgent := urgent }, nextId := s.nextId + 1 }
    | _ => s

/-- A lane that has never taken a capsule. -/
def CapLane.none : CapLane :=
  { inside := false, record := 0, kbase := 0, entry := 0, step := 0, own := 0, seq := 0, result := .none, last := 0,
    token := 0, adopting := false, reply := .none }

/-- A lane's capsule state. -/
def Warp.cap (W : Warp) (lane : Nat) : CapLane := (Sys2Proof.Machine.sget W.caps lane).getD CapLane.none

/-- Wakes the warps that wait on a capsule, as the home slice does whenever a STATE changes (R252). -/
def State.wakeCapsules (s : State) : State :=
  s.warps.foldl (fun s e =>
    if e.2.gangs.any (fun g => match g.pend with
        | .capsule _ => true
        | .delivery _ => true
        | _ => false) then s.wake e.1 false else s) s

/-- The steps the holder of a record committed itself (R260). -/
def State.holderSteps (s : State) (k : Nat) : Nat := ((sget s.holders k).map (·.own)).getD 0

/-- A capsule violation (R259): in a lane's own body a precise trap; in an adopted run, once what it loads has landed, the
record is broken, a delivery with status broken is sent, and the adopter's buffer is restored; an absent host page of the record is
waited for, and a fault there is the adopter's own (R154). -/
def violation (c : Ctx) (s : State) (cause : Nat) : Res :=
  match c.W.adoption c.G.slices with
  | none => .trap s (Trap.of 0x15 cause)
  | some b =>
    match sget c.W.caps b.lane with
    | none => .trap s (Trap.of 0x15 cause)
    | some x =>
      match s.xlateFor c.W.ctx c.W.core (some c.w) (vaOf x.record) .both with
      | .stall p =>
        .wait (s.askHost { ctx := c.W.ctx, core := c.W.core, warp := some c.w, page := p, lanes := bitW b.lane, va := x.record })
      | .trap k d => .trap s { Trap.of k d with faulting := bitW b.lane, addr := x.record, page := x.record }
      | .go k _ =>
        if c.W.kFull b.base b.lane = false then .wait s
        else
        let word := field (s.num k 8) 0 16 * 2 ^ 16 + s.holderSteps k * 2 ^ 8 + 5
        let r : RecPlace := { ctx := c.W.ctx, va := x.record, key := k }
        let s1 := ((s.recPut r 3 1 5).recPut r 0x58 4 word).wakeCapsules
        let d : Delivery := { record := k, ctx := c.W.ctx, va := x.record, holder := sget s.holders k,
                              regs := (List.range 16).map (fun i => BitVec.ofNat 32 (s.num (k + 0x10 + 4 * i) 4)),
                              preds := BitVec.ofNat 7 (s.num (k + 0x0C) 4 / 2 ^ 16), status := BitVec.ofNat 32 word,
                              acked := false, frees := false }
        let s2 := { s1 with deliveries := sput s1.deliveries s1.nextId d, nextId := s1.nextId + 1 }
        .jump (s2.modWarp c.w (fun W => W.restoreAdopt b))

/-- The violation an instruction of a body makes for one lane in a capsule (R253, R259). -/
def bodyLane (c : Ctx) (g : Sig) (x : CapLane) : Option Nat :=
  let off := (c.W.pcOf c.G - x.entry).toNat / 4
  if g.body = .own then none
  else if 63 < off then some 4
  else
    match g.body with
    | .no => some 3
    | .back => some 4
    | .own => none
    | .free => none
    | .vec =>
      if g.vectors.all (fun e => decide (x.kbase ≤ e.1) && decide (e.1 + e.2 ≤ x.kbase + 16)) ∧
          (g.srcs.map (·.1) ++ g.dsts).all (fun o => match o with
            | .v _ _ => true
            | .s _ _ => false) then none
      else some 3

/-- The check of R253 that every issue of a gang with a lane in a capsule makes, for each such lane. -/
def bodyCheck (c : Ctx) (g : Sig) : Option Nat := c.capLanes.findSome? (fun l => bodyLane c g (c.W.cap l))

/-! ### Issue -/

/-- The trap an issue meets before its own faults, in the order of R71. A gang that waits with something of its instruction
done has issued it, and its operands are not checked for trap-on-empty again (R56). -/
def front (c : Ctx) (g : Sig) : Option Trap :=
  if g.lawful c.G.hints = false then some (Trap.of 1 0)
  else if g.priv ∧ c.W.inHandler c.j = false then some (Trap.of 2 0)
  else if (g.srcs.map (·.1) ++ g.dsts).all (Opnd.within c.W c.j) = false then some (Trap.of 3 0)
  else if c.G.pend ≠ .none then none
  else
    match g.srcs.find? (fun o => match c.h.srcx, o.2 with
      | some m, some i => m.getLsbD i && !(o.1.full c.W c.G.slices)
      | _, _ => false) with
    | some o => some (Trap.of 4 o.1.field)
    | none => none

/-- Every source and destination is full in every slice of the gang (R56). -/
def ready (c : Ctx) (g : Sig) : Bool :=
  g.srcs.all (fun o => o.1.full c.W c.G.slices) && g.dsts.all (fun o => o.full c.W c.G.slices) &&
    g.extra.all (fun e => (Opnd.v e.1 1).full c.W e.2)

/-- An issue takes a trap: the instruction has issued, and is counted (R281, R306). -/
def State.trapped (s : State) (c : Ctx) (t : Trap) : State := ((s.trap c.w c.j t).count (ctxFn c.W.ctx) 1 1).tick

/-- The state after an answer of a meaning. -/
def State.settle (s : State) (c : Ctx) : Res → State
  | .done t => (t.advance c).finish c
  | .jump t => t.finish c
  | .wait t => t.waitAt c
  | .trap t x => t.trapped c x

/-- An ATOMQ of the gang's slices has not made its acquire: the gang's later instructions wait (R164, R165). -/
def State.acquiring (s : State) (c : Ctx) : Bool :=
  s.inflight.any (fun e => decide (e.2.warp = c.w) && e.2.acquire && !(e.2.slices &&& c.G.slices == 0))

/-- The time at which the target of a gang's hint group becomes ready, where its SCHED stall holds it back (R65). -/
def stallEnd (c : Ctx) (now : Nat) : Option Nat :=
  match c.h.sched with
  | some (_, n) => if now < c.G.hinted + n then some (c.G.hinted + n) else none
  | none => none

/-- Runs a meaning for the issuing gang: a SCHED stall of its group, the checks of R71, the waits of R56, the body's rule, then
the meaning. -/
def issueAs (c : Ctx) (g : Sig) (body : Ctx → State → Res) (s : State) : State :=
  let c := c.guarded g
  match stallEnd c s.time with
  | some t => s.modWarp c.w (fun W => W.modGang c.j (fun g => { g with stall := some t }))
  | none =>
  match front c g with
  | some t => s.trapped c t
  | none =>
    if ready c g ∧ s.acquiring c = false then
      match bodyCheck c g with
      | some cause => s.settle c (violation c s cause)
      | none => s.settle c (body c s)
    else s.waitAt c

/-- The meaning of an encoded instruction: its signature under the gang's hints, and what it does. -/
def issue (sig : HintSet → Sig) (body : Ctx → State → Res) (s : State) : Out :=
  match s.issuing with
  | none => .fault .noIssuingGang
  | some c => .next (issueAs c (sig c.h) body s)

/-- The meaning of an encoded instruction whose signature depends on the state: what its block or team holds. -/
def issueWith (sig : Ctx → State → Sig) (body : Ctx → State → Res) (s : State) : Out :=
  match s.issuing with
  | none => .fault .noIssuingGang
  | some c => .next (issueAs c (sig c s) body s)

/-- The meaning of an event: a next state, whatever the state. -/
def event (f : State → State) (s : State) : Out := .next (f s).tick

end Sys2Proof.Machine
end

