-- ==== Sys2Proof/Machine/Flits.lean ====
section
/-! DEFINITION. What the answers to this device's requests of its peers do, and what is still awaited (27_links R322, R323). -/

namespace Sys2Proof.Machine

/-! ### Answers to requests of this device (R322, R323) -/

/-- A value in register `i` of an answer, in one of the three forms of `Asker`. -/
def answerWord (form size data i : Nat) : Word :=
  match form with
  | 0 => BitVec.ofNat 32 (data / 2 ^ (32 * i))
  | 1 => BitVec.ofInt 32 (readInt true (8 * size) (data % 2 ^ (8 * size)))
  | _ => BitVec.ofNat 32 (data % 2 ^ (8 * size))

/-- The gang holds lanes of its instruction completed: they are left out when it goes on (R286, R323). -/
def Gang.completeLanes (g : Gang) (pc : DWord) (m : Word) : Gang :=
  { g with redo := match g.redo with
      | some (at_, old) => some (pc, if at_ = pc then old ||| m else m)
      | none => some (pc, m) }

/-- Lanes of a warp's gang take a good answer: their registers, and their place among the completed. -/
def Warp.takeAnswer (W : Warp) (j : Nat) (pc : DWord) (give : Word) (dest : Option (Nat × Nat × Nat)) (size data : Nat) :
    Warp :=
  let W1 := match dest with
    | none => W
    | some (d, n, form) => (List.range n).foldl (fun (W : Warp) i => W.vputs give (d + i) (fun _ => answerWord form size data i)) W
  W1.modGang j (fun g => g.completeLanes pc give)

/-- A sapling's counter has been incremented, or its increment has met a fault: the sapling is then not accepted and its quota
not charged (R232). -/
def State.counted (s : State) (id cls : Nat) : State :=
  match sget s.saplings id with
  | none => s
  | some x =>
    if cls = 0 then { s with saplings := sput s.saplings id { x with ready := true } }
    else
      { s with saplings := sdel s.saplings id }.modGrove x.grove (fun G => { G with accepted := G.accepted - 1 })

/-- A request has its answer: a good one completes the lanes that wait for it at once; a fault, the answer of a row's part and
that of an access made once wait for their asker. An asker that is gone takes nothing (R322, R323). -/
def State.answer (s : State) (i : Nat) (r : Request) (cls detail data : Nat) : State :=
  let gone := { s with requests := sdel s.requests i }
  let kept := { s with requests := sput s.requests i { r with answer := some (cls, detail, data) } }
  match r.who with
  | .row cmd _ _ => if (sget s.cmds cmd).isSome then kept else gone
  | .exit id => if (sget s.exits id).isSome then kept else gone
  | .engine _ key => if cls = 0 then kept.rawWrite key (bytesOf 32 data) else kept
  | .posted => gone
  | .fetch w slices pc =>
    match (sget s.warps w).bind (fun W => (W.gangAt (lowSlice slices)).map (fun g => (W, g))) with
    | some (W, g) => if g.slices = slices ∧ W.pcOf g = pc then kept else gone
    | none => gone
  | .once w slices pc _ sapling =>
    let settle (t : State) : State := match sapling with
      | some id => t.counted id cls
      | none => t
    match (sget s.warps w).bind (fun W => (W.gangAt (lowSlice slices)).map (fun g => (W, g))) with
    | some (W, g) => if g.slices = slices ∧ W.groupPc g = pc then settle kept else settle gone
    | none => settle gone
  | .lane w slices pc _ give dest =>
    match sget s.warps w with
    | none => gone
    | some W =>
      match W.gangAt (lowSlice slices) with
      | none => gone
      | some g =>
        if g.slices ≠ slices ∨ W.groupPc g ≠ pc then gone
        else if cls ≠ 0 then kept
        else gone.setWarp w (W.takeAnswer (lowSlice slices) pc give dest r.size data)

/-- Lanes of a gang whose answers are awaited (R322). -/
def State.awaited (s : State) (w : Nat) (slices : BitVec 8) : List Nat :=
  s.requests.filterMap (fun e => match e.2.who, e.2.answer with
    | .lane v m _ lane _ _, none => if v = w ∧ m &&& slices ≠ 0 then some lane else none
    | _, _ => none)

/-- The fault that answered the request of a gang's lane at its instruction. -/
def State.refusal (s : State) (w : Nat) (pc : DWord) (lane : Nat) : Option (Nat × Nat) :=
  s.requests.findSome? (fun e => match e.2.who, e.2.answer with
    | .lane v _ q l _ _, some (k, d, _) => if v = w ∧ q = pc ∧ l = lane then some (k, d) else none
    | _, _ => none)

/-- The gang's answered requests are done with. -/
def State.forget (s : State) (w : Nat) (slices : BitVec 8) : State :=
  { s with requests := s.requests.filter (fun e => match e.2.who with
      | .lane v m _ _ _ _ => !(v == w && !(m &&& slices == 0))
      | _ => true) }

/-- The request of an access that a gang's instruction makes once: its number and its answer. -/
def State.onceOf (s : State) (w : Nat) (pc : DWord) (lane : Nat) : Option (Nat × Option (Nat × Nat × Nat)) :=
  s.requests.findSome? (fun e => match e.2.who with
    | .once v _ q l _ => if v = w ∧ q = pc ∧ l = lane then some (e.1, e.2.answer) else none
    | _ => none)

/-- A request is done with. -/
def State.dropRequest (s : State) (i : Nat) : State := { s with requests := sdel s.requests i }

/-- A warp of the predicate awaits the answer of a peer. -/
def State.awaits (s : State) (mine : Nat → Bool) : Bool :=
  s.requests.any (fun e => match e.2.who, e.2.answer with
    | .lane w _ _ _ _ _, none => mine w
    | .once w _ _ _ _, none => mine w
    | .fetch w _ _, none => mine w
    | _, _ => false)

end Sys2Proof.Machine
end

