-- ==== Sys2Proof/Machine/Access.lean ====
section
/-! DEFINITION. What the memory instructions share: addresses of lanes, the checks of R156, where the bytes of an access
lie (R39 to R42, R153), reading and writing them, and long-latency results (R54 to R58). -/

namespace Sys2Proof.Machine

/-! ### Long-latency producers -/

/-- What makes a long-latency result. -/
inductive Made where
  /-- A load or an atomic (R165). -/
  | memory
  /-- An ATOMQ (R164). -/
  | ticket
  /-- An arithmetic instruction that can set a flag (R100). -/
  | arith
  /-- An instruction that does neither. -/
  | other
deriving DecidableEq, Repr

/-- Starts a long-latency result: its destinations are marked empty and it lands later (R55, R57). -/
def State.produce (s : State) (c : Ctx) (vecs : List (Nat × Word × List Word)) (scals : List (Nat × Word))
    (quni : Option (Nat × Bool)) (flags : Word) (kind : Made) : State :=
  let marks := vecs.map (fun e => (e.1, sliceMask e.2.1))
  let l : Land :=
    { warp := c.w, slices := c.G.slices, vecs := vecs, marks := marks, scals := scals, quni := quni, flags := flags,
      memory := kind == .memory || kind == .ticket, acquire := kind == .ticket, mayFlag := kind == .arith }
  let s1 := s.modWarp c.w (fun W =>
    { W with
      emptyV := marks.foldl (fun m e => zput 0 m e.1 (zget 0 m e.1 ||| e.2)) W.emptyV
      emptyS := scals.foldl (fun m e => m ||| (1#96 <<< e.1)) W.emptyS })
  { s1 with inflight := sput s1.inflight s1.nextId l, nextId := s1.nextId + 1 }

/-- The values of a register in 32 lanes. -/
def laneWords (f : Nat → Word) : List Word := (List.range 32).map f

/-- A vector result of `n` registers from `d` in the active lanes: register `d + i` of lane L gets `f i L`. -/
def groupResult (act : Word) (d n : Nat) (f : Nat → Nat → Word) : List (Nat × Word × List Word) :=
  (List.range n).map (fun i => (d + i, act, laneWords (f i)))

/-- A long-latency instruction with a vector destination group: nothing is marked where no lane is active (R55). -/
def longVec (c : Ctx) (s : State) (d n : Nat) (flags : Word) (kind : Made) (f : Nat → Nat → Word) : Res :=
  if c.act = 0 then .done s else .done (s.produce c (groupResult c.act d n f) [] none flags kind)

/-- Writes a long-latency result and sets its destinations full (R55, R57, R98). -/
def Warp.land (W : Warp) (l : Land) : Warp :=
  let W1 := l.vecs.foldl (fun (W : Warp) e => W.vputs e.2.1 e.1 (fun lane => (e.2.2[lane]?).getD 0)) W
  let upd (g : Gang) : Gang :=
    let g1 := l.scals.foldl (fun (g : Gang) e => g.sput W.only e.1 e.2) g
    match l.quni with
    | some (i, x) => g1.qput W.only i x
    | none => g1
  { (W1.modGangs l.slices upd).raise l.flags with
    emptyV := l.marks.foldl (fun m e => zput 0 m e.1 (zget 0 m e.1 &&& ~~~e.2)) W.emptyV
    emptyS := l.scals.foldl (fun m e => m &&& ~~~(1#96 <<< e.1)) W.emptyS }

/-- A result that acquires waits for the loads and atomics its gang issued earlier (R164, R165). -/
def State.mayLand (s : State) (id : Nat) (l : Land) : Bool :=
  !l.acquire || (s.inflight.all (fun e =>
    decide (id ≤ e.1) || e.2.warp != l.warp || !e.2.memory || e.2.slices &&& l.slices == 0) && !s.fillsOut l.warp l.slices id)

/-- REGISTER_BECOMES_FULL: a long-latency result lands (R55). -/
def landResult (id : Nat) (s : State) : State :=
  match sget s.inflight id with
  | none => s
  | some l =>
    if s.mayLand id l = false then s
    else
    let s1 := { s with inflight := sdel s.inflight id }
    let s2 := s1.modWarp l.warp (fun W => W.land l)
    if l.acquire then
      match sget s.warps l.warp with
      | some W => s2.acquire W.core
      | none => s2
    else s2

/-! ### Where bytes lie -/

/-- Where a byte of an access lies. -/
inductive Loc where
  /-- Memory, by key; on an ordered page. -/
  | mem (key : Nat) (ordered : Bool)
  /-- A byte of a vector register of a lane of a warp, through the window (R39). -/
  | reg (w r lane byte : Nat)
deriving DecidableEq, Repr

/-- Bytes of a block's scratch, rounded up (R11). -/
def Block.scratchSize (B : Block) : Nat := ceilTo 256 B.desc.scratch

/-- The core whose store holds a block's scratch (assumption 8). -/
def Block.leader (B : Block) : Nat := (B.cores.head?).getD 0

/-- Key of a byte of a block's scratch. -/
def Block.scratchKey (B : Block) (off : Nat) : Nat := coreKey B.leader (B.scratch + off)

/-- Where a byte of the core-store window lies; none at or above the limit (R39). -/
def State.windowByte (s : State) (w : Nat) (W : Warp) (a : DWord) : Option Loc :=
  let off := a.toNat % 2 ^ 48
  let S := match W.block.bind (sget s.blocks) with
    | some B => B.scratchSize
    | none => 0
  if off < S then
    match W.block.bind (sget s.blocks) with
    | some B => some (.mem (B.scratchKey off) false)
    | none => none
  else
    let r := (off - S) % (W.window * 128)
    let idx := (off - S) / (W.window * 128)
    let target := match W.block.bind (sget s.blocks) with
      | some B => B.members[idx]?
      | none => if idx = 0 then some w else none
    target.map (fun t => .reg t (r / 128) (r % 128 / 4) (r % 4))

/-- An address of a lane. -/
abbrev LaneAddr := Nat × DWord

/-- The mask of some lanes. -/
def maskOf (l : List Nat) : Word := l.foldl (fun a i => a ||| bitW i) 0

/-- A trap of lanes: the faulting mask and the lowest faulting lane's address (R283). -/
def laneTrap (cls detail : Nat) (completed : Word) (bad : List LaneAddr) : Trap :=
  { Trap.of cls detail with
    completed := completed, faulting := maskOf (bad.map (·.1)), addr := ((bad.head?).map (·.2)).getD 0
    page := ((bad.head?).map (·.2)).getD 0 }

/-- The window fault of an address: beyond the limit, or any window address where the window may not be used (R39, R40). -/
def badWindow (s : State) (c : Ctx) (win : Bool) (size : Nat) (a : DWord) : Bool :=
  inWindow a && (!win || !(List.range size).all (fun i => (s.windowByte c.w c.W (a + BitVec.ofNat 64 i)).isSome))

/-- The faults found at issue, over every active lane: misaligned, then non-canonical, then window (R156). -/
def issueFault (s : State) (c : Ctx) (win : Bool) (size align : Nat) (l : List LaneAddr) : Option Trap :=
  match l.filter (fun e => !(e.2.toNat % align == 0)) with
  | e :: r => some (laneTrap 5 0 0 (e :: r))
  | [] =>
    match l.filter (fun e => !canonical e.2) with
    | e :: r => some (laneTrap 6 0 0 (e :: r))
    | [] =>
      match l.filter (fun e => badWindow s c win size e.2) with
      | e :: r => some (laneTrap 3 0 0 (e :: r))
      | [] => none

/-- What a lane's access meets. -/
inductive LaneRes where
  /-- It can be performed at these places. -/
  | go (locs : List Loc)
  /-- It faults (R156). -/
  | fault (cls detail : Nat)
  /-- It waits for a host page (R154). -/
  | stall (page : Nat)
  /-- It waits: its granule is being remapped (R311), or its target register is empty or not resident (R41, R42). -/
  | hold (wake : Option Nat)
  /-- It is a request to the device that holds the key; on an ordered page (R322). -/
  | remote (key : Nat) (ordered : Bool)
deriving DecidableEq, Repr

/-- A window access to a register can be made now; else the warp to wake (R41, R42, R292). R42 makes a store to another
warp's empty register wait; that a load of one waits too is the model's choice (assumption 68). -/
def State.regReady (s : State) : Loc → Option (Option Nat)
  | .mem _ _ => none
  | .reg w r lane _ =>
    match sget s.warps w with
    | none => none
    | some T =>
      match T.residency with
      | .resident => if (zget 0 T.emptyV r).getLsbD (lane / 4) then some none else none
      | .parked _ _ => some (some w)
      | .saved _ => some none

/-! ### Rows of copy commands (R181, R182) -/

/-- The aligned 16-byte parts of a row at an address: offset and bytes. -/
def rowChunks (n : Nat) : List (Nat × Nat) := (List.range ((n + 15) / 16)).map (fun i => (16 * i, min 16 (n - 16 * i)))

/-- What a row's access meets. -/
inductive RowRes where
  /-- Keys of its parts, whether ordered, and their bytes. -/
  | go (parts : List (Nat × Bool × Nat))
  /-- A fault, and the address of the part that meets it (R181). -/
  | fault (a : DWord)
  /-- A part, at the address given, waits for a host page. -/
  | stall (page : Nat) (a : DWord)
  /-- It waits for a remap. -/
  | hold
deriving DecidableEq, Repr

/-- The access of one part. -/
def State.chunkAccess (s : State) (ctx core : Nat) (write : Bool) (a : DWord) (n : Nat) : RowRes :=
  if canonical a = false ∨ inWindow a = true then .fault a
  else
    match s.xlateFor ctx core none (vaOf a) (if write then .write else .read) with
    | .trap _ _ => .fault a
    | .stall p => .stall p a
    | .go key o =>
      if spaceOf key = 0 ∧ s.held.contains (addrOf key / 4096) then .hold
      else if (if write then s.poisonPart key n else s.poisoned key n) then .fault a
      else .go [(key, o, n)]

/-- The access of a row: the parts in order, the first trouble first. -/
def State.rowAccess (s : State) (ctx core : Nat) (write : Bool) (a : DWord) (n : Nat) : RowRes :=
  (rowChunks n).foldl (fun acc c =>
    match acc with
    | .go l =>
      match s.chunkAccess ctx core write (a + BitVec.ofNat 64 c.1) c.2 with
      | .go m => .go (l ++ m)
      | r => r
    | r => r) (.go [])

/-- A command of the party's slices. -/
def CopyCmd.ofParty (k : CopyCmd) (p : Party) : Bool := k.warp == p.w && !(k.slices &&& p.slices == 0)

/-- The parts of rows of a command that are still to be read or written, each as its access is met now. -/
def State.openParts (s : State) (ctx : Nat) (k : CopyCmd) : List RowRes :=
  (k.todo.filter (fun r => k.open_ r.1)).flatMap (fun r =>
    (rowChunks k.size).map (fun p => s.chunkAccess ctx k.core k.drain (r.2 + BitVec.ofNat 64 p.1) p.2))

/-- The context of a copy command. -/
def State.cmdCtx (s : State) (c : CopyCmd) : Nat := ((sget s.blocks c.block).map (·.ctx)).getD 0

/-- Some part of a row is on an ordered page. -/
def partsOrdered (l : List (Nat × Bool × Nat)) : Bool := l.any (fun p => p.2.1)

/-- Some part of a row touches a range. -/
def partsTouch (l : List (Nat × Bool × Nat)) (key n : Nat) : Bool :=
  l.any (fun p => decide (p.1 < key + n) && decide (key < p.1 + p.2.2))

/-- Some part of a row lies at a home slice. -/
def partsHome (st : Stand) (l : List (Nat × Bool × Nat)) (home : Nat) : Bool := l.any (fun p => homeOf st p.1 == home)

/-- A row of a drain, a store its gang issued earlier (R182), comes before what is written at a home slice: it goes there,
or its place is not known yet (R195). -/
def State.rowsBefore (s : State) (p : Party) (ctx home limit : Nat) : Bool :=
  s.cmds.any (fun e => e.2.drain && e.2.ofParty p && decide (e.1 < limit) && (s.openParts ctx e.2).any (fun r => match r with
    | .go l => partsHome (s.stand (s.standOf (ctxFn ctx))) l home
    | .fault _ => false
    | _ => true))

/-- The stores that an access at home drains may all register now: no drain row comes before one of them (R182, R195). -/
def State.mayDrain (s : State) (p : Party) (home key n limit : Nat) : Bool :=
  (s.before p home key n limit).all (fun i => match sget s.regq i with
    | some r => !s.rowsBefore { core := r.core, w := r.warp, slices := r.slices } r.ctx home i
    | none => true)

/-- An access waits for rows of copy commands its gang issued earlier, below `limit`: drain rows whose bytes it touches, or that go to the
home slice where it writes, and fill rows not read yet that it would write (R158, R182, R195). A plain store waits for no
drain row: its registration does. -/
def State.rowsHold (s : State) (p : Party) (ctx : Nat) (ordered : Bool) (acc : Acc) (key n limit : Nat) : Bool :=
  let home := homeOf (s.stand (s.standOf (ctxFn ctx))) key
  let writes := acc == .write || acc == .both
  let direct := ordered || acc == .both || isRemote key
  (writes && direct && s.rowsBefore p ctx home limit) || (direct && !s.mayDrain p home key n limit) ||
    s.cmds.any (fun e => decide (e.1 < limit) && e.2.ofParty p && (s.openParts ctx e.2).any (fun r => match r with
      | .go l => partsTouch l key n && (if e.2.drain then !writes || direct else writes)
      | _ => false))

/-- The gang as the party of an access. -/
def Ctx.party (c : Ctx) : Party := { core := c.W.core, w := c.w, slices := c.G.slices }

/-- An access meets an uncorrectable error: it reads a poisoned word, or stores to part of one (R156). -/
def State.meetsPoison (s : State) (acc : Acc) (key n : Nat) : Bool :=
  match acc with
  | .write => s.poisonPart key n
  | _ => s.poisoned key n

/-- The access of one lane. -/
def laneAccess (s : State) (c : Ctx) (acc : Acc) (size : Nat) (a : DWord) : LaneRes :=
  if inWindow a then
    let locs := (List.range size).filterMap (fun i => s.windowByte c.w c.W (a + BitVec.ofNat 64 i))
    match locs.findSome? s.regReady with
    | some w => .hold w
    | none =>
      match locs with
      | .mem key _ :: _ => if s.meetsPoison acc key size then .fault 8 0 else .go locs
      | _ => .go locs
  else
    match s.xlateFor c.W.ctx c.W.core (some c.w) (vaOf a) acc with
    | .trap k d => .fault k d
    | .stall p => .stall p
    | .go key o =>
      if s.rowsHold c.party c.W.ctx o acc key size s.nextId then .hold none
      else if isRemote key then .remote key o
      else if spaceOf key = 0 ∧ s.held.contains (addrOf key / 4096) then .hold none
      else if s.meetsPoison acc key size then .fault 8 0
      else .go ((List.range size).map (fun i => .mem (key + i) o))

/-- A lane's place is on an ordered page. -/
def orderedLocs (l : List Loc) : Bool :=
  l.any (fun x => match x with
    | .mem _ o => o
    | .reg _ _ _ _ => false)

/-- The entry of the request of a warp's lanes for a page (R289). -/
def Ctx.tag (c : Ctx) (page : Nat) (lanes : Word) (va : DWord) : Tag :=
  { ctx := c.W.ctx, core := c.W.core, warp := some c.w, page := page, lanes := lanes, va := va }

/-- The gang waits to access the registers of a parked warp, which is woken, and stays resident until the access is made (R42). -/
def State.call (s : State) (c : Ctx) (w : Nat) : State :=
  let x := (c.w, c.j, c.W.groupPc c.G)
  (s.modWarp w (fun W => if W.callers.contains x then W else { W with callers := W.callers ++ [x] })).wake w true

/-- Asks for what some lanes' accesses wait for. -/
def State.askFor (s : State) (c : Ctx) (l : List (LaneAddr × LaneRes)) : State :=
  l.foldl (fun s r => match r.2 with
    | .stall p =>
      let same := l.filter (fun e => e.2 == .stall p)
      s.askHost (c.tag p (maskOf (same.map (·.1.1))) r.1.2)
    | .hold (some w) => s.call c w
    | _ => s) s

/-- What a lane's access asks of the device that holds its bytes (R320, R322). -/
structure Ask where
  /-- 1 load, 2 store, 3 atomic. -/
  kind : Nat
  /-- Bytes. -/
  size : Nat
  /-- The fn of an atomic. -/
  fn : Nat
  /-- The TYPE code of an atomic. -/
  type : Nat
  /-- A store's bytes, or an atomic's operand. -/
  data : Nat
  /-- The new value of a compare and swap. -/
  other : Nat
  /-- The lanes that the answer completes. -/
  give : Word
  /-- Where the answer goes, as in `Asker`. -/
  dest : Option (Nat × Nat × Nat)
deriving DecidableEq, Repr

/-- What a load of a lane asks: its register group, its registers and their form. -/
def askLoad (size d n form lane : Nat) : Ask :=
  { kind := 1, size := size, fn := 0, type := 0, data := 0, other := 0, give := bitW lane, dest := some (d, n, form) }

/-- What a store of a lane asks. -/
def askStore (bytes : Nat → List Byte) (lane : Nat) : Ask :=
  let l := bytes lane
  { kind := 2, size := l.length, fn := 0, type := 0, data := numOf l, other := 0, give := bitW lane, dest := none }

/-- What a lane's access meets, after the answers of the peers: a request a peer refused, or that its link lost, is the
lane's fault (R322, R323). -/
def laneResult (s : State) (c : Ctx) (acc : Acc) (size : Nat) (e : LaneAddr) : LaneRes :=
  match laneAccess s c acc size e.2 with
  | .fault k d => match s.refusal c.w (c.W.groupPc c.G) e.1 with
    | some (k, d) => .fault k d
    | none => .fault k d
  | .remote key o => match s.refusal c.w (c.W.groupPc c.G) e.1 with
    | some (k, d) => .fault k d
    | none => .remote key o
  | r => r

/-- A lane's access is one of an ordered page (R155). -/
def LaneRes.ordered : LaneRes → Bool
  | .go l => orderedLocs l
  | .remote _ o => o
  | _ => false

/-- A lane's access as one that is made in its turn: an ATOMQ's, by its ticket (R164). -/
def LaneRes.turned : LaneRes → LaneRes
  | .go l => .go (l.map (fun x => match x with
    | .mem key _ => .mem key true
    | y => y))
  | .remote key _ => .remote key true
  | r => r

/-- A lane's access is a request to another device. -/
def LaneRes.far : LaneRes → Bool
  | .remote _ _ => true
  | _ => false

/-- An address outside the window lies on an ordered page of a context (R155). -/
def State.onOrdered (s : State) (ctx : Nat) (a : DWord) : Bool :=
  !inWindow a && ((s.lookup ctx (vaOf a)).map (fun t => t.attr.getLsbD 3)).getD false

/-- A row of a command of a core, below `limit`, still is to be read or written on an ordered page (R155, R182). -/
def State.orderedRows (s : State) (core limit : Nat) : Bool :=
  s.cmds.any (fun e => decide (e.1 < limit) && e.2.core == core && (e.2.todo.filter (fun r => e.2.open_ r.1)).any (fun r =>
    (rowChunks e.2.size).any (fun p => s.onOrdered (s.cmdCtx e.2) (r.2 + BitVec.ofNat 64 p.1))))

/-- A gang is at accesses to ordered pages. -/
def Pending.atOrdered : Pending → Bool
  | .ordered => true
  | .ticket o => o
  | _ => false

/-- A gang takes tickets. -/
def Pending.atTicket : Pending → Bool
  | .ticket _ => true
  | _ => false

/-- A gang, other than the one of the slices given, of the warps of a predicate is in the middle of accesses made one at a time, and
goes on with them or has one on its way: a gang that a handler holds back lets others pass (R282). -/
def State.inTurn (s : State) (of : Warp → Bool) (at_ : Pending → Bool) (w : Nat) (slices : BitVec 8) : Bool :=
  s.warps.any (fun e => of e.2 && !e.2.saved && !e.2.ended && e.2.gangs.any (fun g =>
    at_ g.pend && !(e.1 == w && g.slices == slices) &&
      (!e.2.heldBack g || !(s.awaited e.1 g.slices).isEmpty)))

/-- A gang of the core, other than the one of the slices given, is at its accesses to ordered pages (R155). -/
def State.orderedGang (s : State) (core w : Nat) (slices : BitVec 8) : Bool :=
  s.inTurn (fun W => W.core == core) Pending.atOrdered w slices

/-- The core that makes a request. -/
def State.askerCore (s : State) : Asker → Option Nat
  | .lane w _ _ _ _ _ => (sget s.warps w).map (·.core)
  | .once w _ _ _ _ => (sget s.warps w).map (·.core)
  | .fetch w _ _ => (sget s.warps w).map (·.core)
  | .row cmd _ _ => (sget s.cmds cmd).map (·.core)
  | .exit id => ((sget s.exits id).bind (fun x => sget s.warps x.warp)).map (·.core)
  | .engine _ _ => none
  | .posted => none

/-- An access of the core to an ordered page is on its way: a request to another device, or a capsule step (R155, R254). -/
def State.orderedAway (s : State) (core : Nat) : Bool :=
  s.requests.any (fun e => e.2.answer.isNone && s.askerCore e.2.who == some core && s.onOrdered e.2.ctx e.2.page) ||
    s.steps.any (fun e => match sget s.warps e.2.warp with
      | some W => W.core == core && s.onOrdered W.ctx (((sget W.caps e.2.lane).map (·.record)).getD 0)
      | none => false)

/-- The accesses of the core to ordered pages that were issued earlier are not all performed (R155). -/
def State.orderedBusy (s : State) (c : Ctx) : Bool :=
  !c.G.pend.atOrdered && (s.orderedGang c.W.core c.w c.G.slices || s.orderedRows c.W.core s.nextId || s.orderedAway c.W.core)

/-- Another ATOMQ of the device has taken tickets and not had all its results (R164). -/
def State.ticketBusy (s : State) (c : Ctx) : Bool :=
  !c.G.pend.atTicket && s.inTurn (fun _ => true) Pending.atTicket c.w c.G.slices

/-- The first lane on an ordered page that another device holds. -/
def nextFar (l : List (LaneAddr × LaneRes)) : Option Nat := (l.find? (fun e => e.2.far && e.2.ordered)).map (·.1.1)

/-- Sends the requests of the lanes that have none on its way, in ascending order; of those on ordered pages only the first
(R155, R157, R322). -/
def State.askPeers (s : State) (c : Ctx) (ask : Nat → Ask) (l : List (LaneAddr × LaneRes)) : State :=
  let busy := s.awaited c.w c.G.slices
  let now := l.filterMap (fun e => match e.2 with
    | .remote key o => if busy.contains e.1.1 || (o && nextFar l != some e.1.1) then none else some (e.1, key)
    | _ => none)
  let r := now.foldl (fun (a : State × List (Nat × Packet)) (e : LaneAddr × Nat) =>
    let q := ask e.1.1
    let p : Packet := { kind := q.kind, size := q.size, fn := q.fn, type := q.type, tag := 0, addr := 0, data := q.data, other := q.other }
    let x := a.1.request (.lane c.w c.G.slices (c.W.groupPc c.G) e.1.1 q.give q.dest) c.W.ctx e.2 (e.1.2 &&& ~~~0xFFF)
      q.dest.isNone p
    (x.1, a.2 ++ x.2)) (s, [])
  r.1.sendAll r.2

/-- The first key of what a lane's access can be performed at. -/
def LaneRes.key : LaneRes → Nat
  | .go (.mem k _ :: _) => k
  | .remote k _ => k
  | _ => 0

/-- The lanes that can be performed now, with their places. -/
def goLanes (l : List (LaneAddr × LaneRes)) : List (Nat × List Loc) :=
  l.filterMap (fun e => match e.2 with
    | .go locs => some (e.1.1, locs)
    | _ => none)

/-- Goes on with lanes that other devices hold: the lanes on ordered pages below the next such lane are performed and are
complete, and what may be asked now is asked (R155, R322). -/
def farLanes (c : Ctx) (s : State) (mine : Pending) (rs : List (LaneAddr × LaneRes)) (ask : Nat → Ask)
    (act : State → List (Nat × List Loc) → State) : Res :=
  let first := (goLanes rs).filter (fun e => orderedLocs e.2 && (match nextFar rs with
    | some n => decide (e.1 < n)
    | none => false))
  let s1 := if first.isEmpty then s
    else (act s first).modWarp c.w (fun W => W.modGang c.j (fun g => g.completeLanes (c.W.groupPc c.G) (maskOf (first.map (·.1)))))
  .wait ((s1.askPeers c ask rs).waitWith c mine)

/-- Memory requests of a core that are outstanding: lanes of loads and atomics that have not returned, stores on their way, and
requests to other devices (R157). -/
def State.requestsOut (s : State) (core : Nat) : Nat :=
  let mine (w : Nat) : Bool := ((sget s.warps w).map (·.core)) == some core
  (s.inflight.filter (fun e => e.2.memory && mine e.2.warp)).foldl (fun n e =>
      n + (match e.2.vecs with
        | v :: _ => (lanesOf v.2.1).length
        | [] => 0)) 0 +
    (s.regq.filter (fun e => e.2.core == core)).length +
    (s.requests.filter (fun e => match e.2.who, e.2.answer with
      | .lane w _ _ _ _ _, none => mine w
      | .once w _ _ _ _, none => mine w
      | _, _ => false)).length

/-- Performs an instruction's lane accesses: the faults of R156 at issue, the waits, the requests to other devices (R322),
and the faults lane by lane. `ask` is what a lane asks of another device; `act` performs lanes and answers the state; `fin`
ends an instruction none of whose lanes faulted. A lane that another device has answered well, or that is performed before one
that another device holds, is complete, and is not among the lanes again. On ordered pages the lanes below the lowest faulting
one are performed before its trap is taken (R156). Accesses to ordered pages wait for those issued earlier, also while a host page
is awaited (R155). An ATOMQ (`tick`) makes its accesses one at a time, and no other ATOMQ makes any meanwhile (R164). -/
def accessLanes (tick : Bool) (c : Ctx) (s : State) (acc : Acc) (win : Bool) (size align : Nat) (l : List LaneAddr) (ask : Nat → Ask)
    (act : State → List (Nat × List Loc) → State) (fin : State → List (Nat × List Loc) → Res) : Res :=
  match issueFault s c win size align l with
  | some t => .trap s t
  | none =>
    let ord := l.any (fun e => s.onOrdered c.W.ctx e.2)
    let mine : Pending := if tick then .ticket ord else if ord then .ordered else .page
    if (ord ∧ s.orderedBusy c = true) ∨ (tick ∧ s.ticketBusy c = true) ∨
        (c.G.pend = .none ∧ 3072 < s.requestsOut c.W.core + l.length) then .wait (s.waitAt c)
    else
    let rs := l.map (fun e => (e, if tick then (laneResult s c acc size e).turned else laneResult s c acc size e))
    if rs.any (fun e => match e.2 with
        | .stall _ => true
        | .hold _ => true
        | _ => false) then
      .wait ((s.askFor c rs).waitWith c mine)
    else
      let bad := rs.filter (fun e => match e.2 with
        | .fault _ _ => true
        | _ => false)
      match bad with
      | [] => if rs.any (fun e => e.2.far) then farLanes c s mine rs ask act else fin s (goLanes rs)
      | b :: r =>
        let low := b.1.1
        if (match nextFar rs with
            | some n => decide (n < low)
            | none => false) then farLanes c s mine rs ask act
        else if (s.awaited c.w c.G.slices).isEmpty = false then .wait (s.waitWith c c.G.pend)
        else
        let free := Config.freeLanes s.fresh
        let perf := (goLanes rs).filter (fun e =>
          if orderedLocs e.2 then decide (e.1 < low) else free.getLsbD e.1)
        let (k, d) := match b.2 with
          | .fault k d => (k, d)
          | _ => (6, 1)
        let done := maskOf (perf.map (·.1)) ||| c.redone
        .trap (act { s.forget c.w c.G.slices with fresh := s.fresh + 1 } perf) (laneTrap k d done ((b :: r).map (·.1)))

/-! ### Bytes read and written -/

/-- The core-store part of a key. -/
def isScratch (key : Nat) : Bool := decide (32 ≤ spaceOf key)

/-- Reads a byte of an access as the core's lanes see it. -/
def State.locByte (s : State) (core : Nat) : Loc → Byte
  | .mem key o => if o || isScratch key then s.byte key else s.coreByte core key
  | .reg w r lane b =>
    match sget s.warps w with
    | some T => (T.vget r lane).extractLsb' (8 * b) 8
    | none => 0

/-- The stand that a context runs on. -/
def State.ctxStand (s : State) (ctx : Nat) : Stand := s.stand (s.standOf (ctxFn ctx))

/-- An access is about to read at home: the stores that come before it are registered first, and the core keeps no copy older
than what it reads (R158, R162, R189). -/
def State.atHome (s : State) (p : Party) (st : Stand) (key n : Nat) : State :=
  (s.drain p (homeOf st key) key n s.nextId).refresh p.core key n

/-- Writes bytes of the context's space at home for a gang, after its own stores and the core's to the bytes; the core keeps no older
copy (R158, R189, R195). -/
def State.gangWrite (s : State) (c : Ctx) (a : DWord) (l : List Byte) : State :=
  match s.hwCells c.W.ctx a l with
  | some cells =>
    ((cells.foldl (fun s e => s.drain c.party (homeOf (s.ctxStand c.W.ctx) e.1) e.1 1 s.nextId) s).homeWriteBy c.W.core (ctxFn c.W.ctx)
      cells).ship c.W.ctx a cells
  | none => s

/-- Writes a little-endian number of the context's space at home for a gang. -/
def State.gangPut (s : State) (c : Ctx) (a : DWord) (n x : Nat) : State := s.gangWrite c a (bytesOf n x)

/-- The stores that come before the gang's access at home can all be registered first (R182, R195). -/
def State.homeFree (s : State) (c : Ctx) (key n : Nat) : Bool :=
  s.mayDrain c.party (homeOf (s.ctxStand c.W.ctx) key) key n s.nextId

/-- Reads the bytes of an access: on an ordered page at home after the core's stores to the bytes; elsewhere from the
core's copies, which are filled (R155, R189). -/
def readLocs (c : Ctx) (s : State) (l : List Loc) : List Byte × State :=
  let s1 := l.foldl (fun s x => match x with
    | .mem key o =>
      if isScratch key then s
      else if o then s.atHome c.party (s.ctxStand c.W.ctx) key 1
      else if (s.pendingByte c.W.core key).isSome then s else s.fill c.W.core key 1
    | .reg _ _ _ _ => s) s
  (l.map (s1.locByte c.W.core), s1)

/-- Splits a list in runs of eight: the aligned 8-byte parts of an access (R157). -/
def parts8 {α : Type} : Nat → List α → List (List α)
  | 0, _ => []
  | n + 1, l => if l.isEmpty then [] else l.take 8 :: parts8 n (l.drop 8)

/-- Writes one byte of a register through the window (R41). -/
def State.regByte (s : State) (w r lane b : Nat) (x : Byte) : State :=
  s.modWarp w (fun T =>
    let old := T.vget r lane
    T.vput r lane ((old &&& ~~~(255#32 <<< (8 * b))) ||| ((x.setWidth 32) <<< (8 * b))))

/-- The first key of an access in memory. -/
def keyOfLocs : List Loc → Option Nat
  | .mem key _ :: _ => some key
  | _ => none

/-- Performs one lane's store (R155, R156, R157, R189). -/
def writeLocs (c : Ctx) (s : State) (l : List (Loc × Byte)) : State :=
  let s0 := match keyOfLocs (l.map (·.1)) with
    | some key => if isScratch key then { s with poison := clearPoison s.poison key l.length } else s
    | none => s
  let s1 := l.foldl (fun s e => match e.1 with
    | .reg w r lane b => s.regByte w r lane b e.2
    | .mem key _ => if isScratch key then { s with mem := memPut s.mem key e.2 } else s) s0
  let cells := l.filterMap (fun e => match e.1 with
    | .mem key o => if isScratch key then none else some (key, o, e.2)
    | .reg _ _ _ _ => none)
  match cells with
  | [] => s1
  | (key, o, _) :: _ =>
    let bytes := cells.map (fun x => (x.1, x.2.2))
    let tag := ctxFn c.W.ctx
    let st := s1.ctxStand c.W.ctx
    let s2 := { s1 with poison := clearPoison s1.poison key bytes.length }
    if o then (s2.drain c.party (homeOf st key) key bytes.length s2.nextId).homeWriteBy c.W.core tag bytes
    else
      (parts8 4 bytes).foldl (fun s p =>
        let r : Reg := { core := c.W.core, warp := c.w, slices := c.G.slices, home := homeOf st ((p.head?.map (·.1)).getD 0),
                         ctx := c.W.ctx, tag := tag, bytes := p }
        { s with regq := sput s.regq s.nextId r, nextId := s.nextId + 1 }) s2

/-! ### Releases (R165) -/

/-- Every dirty word of a core can be written back now: none of its stores comes after a drain row that is still to be written
(R165, R182). -/
def State.writable (s : State) (core : Nat) : Bool :=
  s.regq.all (fun e => e.2.core != core ||
    !s.rowsBefore { core := core, w := e.2.warp, slices := e.2.slices } e.2.ctx e.2.home e.1)

/-- The release of FENCE.REL may complete for the gang: its stores are registered, its drains have ended, and the core's dirty words
can be written back. -/
def released (c : Ctx) (s : State) : Bool :=
  !s.storesOut c.w c.G.slices && !s.drainsOut c.w c.G.slices && s.writable c.W.core

/-- The gang's loads and atomics have returned. -/
def returned (c : Ctx) (s : State) : Bool := !s.loadsOut c.w c.G.slices

/-- Acts once the release is complete, which writes back every dirty word of the core's carve-out; until then the gang waits
(R165). -/
def afterRelease (c : Ctx) (s : State) (k : State → Res) : Res :=
  if released c s then k (s.writeBack c.W.core) else .wait s

/-- Acts once the acquire is made; until the gang's loads have returned it waits. -/
def afterAcquire (c : Ctx) (s : State) (k : State → Res) : Res :=
  if returned c s then k (s.acquire c.W.core) else .wait s

end Sys2Proof.Machine
end

