-- ==== Sys2Proof/Machine/Float.lean ====
section
/-! DEFINITION. Floating-point formats, exact values and the one rounding (05_numbers R73 to R84). -/

namespace Sys2Proof.Machine

/-- Whether a format has infinities and NaNs (R74). -/
inductive FKind where
  /-- f64, f32, f16, bf16, e5m2: infinities and NaNs. -/
  | ieee
  /-- e4m3: one NaN code, no infinity. -/
  | e4m3
  /-- e2m1: neither. -/
  | e2m1
deriving DecidableEq, Repr

/-- A floating-point element format (R73). -/
structure Fmt where
  /-- Exponent bits. -/
  ebits : Nat
  /-- Fraction bits. -/
  fbits : Nat
  /-- Special codes. -/
  kind : FKind
deriving DecidableEq, Repr

/-- binary32. -/
def f32 : Fmt := { ebits := 8, fbits := 23, kind := .ieee }
/-- binary64. -/
def f64 : Fmt := { ebits := 11, fbits := 52, kind := .ieee }
/-- binary16. -/
def f16 : Fmt := { ebits := 5, fbits := 10, kind := .ieee }
/-- bf16. -/
def bf16 : Fmt := { ebits := 8, fbits := 7, kind := .ieee }
/-- e4m3. -/
def e4m3 : Fmt := { ebits := 4, fbits := 3, kind := .e4m3 }
/-- e5m2. -/
def e5m2 : Fmt := { ebits := 5, fbits := 2, kind := .ieee }
/-- e2m1. -/
def e2m1 : Fmt := { ebits := 2, fbits := 1, kind := .e2m1 }

/-- Bias. -/
def Fmt.bias (f : Fmt) : Nat := 2 ^ (f.ebits - 1) - 1

/-- Width. -/
def Fmt.width (f : Fmt) : Nat := 1 + f.ebits + f.fbits

/-- Exponent of the unit in the last place of subnormals. -/
def Fmt.qmin (f : Fmt) : Int := 1 - (f.bias : Int) - f.fbits

/-- Bits of the largest finite magnitude (R73, R74). -/
def Fmt.maxBits (f : Fmt) : Nat :=
  match f.kind with
  | .ieee => (2 ^ f.ebits - 1) * 2 ^ f.fbits - 1
  | .e4m3 => 2 ^ (f.ebits + f.fbits) - 2
  | .e2m1 => 2 ^ (f.ebits + f.fbits) - 1

/-- The canonical NaN; +0 where the format has none (R74, R82). -/
def Fmt.nan (f : Fmt) : Nat :=
  match f.kind with
  | .ieee => (2 ^ f.ebits - 1) * 2 ^ f.fbits + 2 ^ (f.fbits - 1)
  | .e4m3 => 2 ^ (f.ebits + f.fbits) - 1
  | .e2m1 => 0

/-- The sign bit's weight. -/
def Fmt.signBit (f : Fmt) : Nat := 2 ^ (f.ebits + f.fbits)

/-- Bits of an infinity. -/
def Fmt.inf (f : Fmt) (neg : Bool) : Nat := (2 ^ f.ebits - 1) * 2 ^ f.fbits + (if neg then f.signBit else 0)

/-- An exact floating value. -/
inductive FVal where
  /-- A NaN; signalling or quiet. -/
  | nan (signalling : Bool)
  /-- An infinity. -/
  | inf (neg : Bool)
  /-- The value (-1)^neg × m × 2^e. -/
  | fin (neg : Bool) (m : Nat) (e : Int)
deriving DecidableEq, Repr

/-- Reads the bits of a format (R73, R74). -/
def Fmt.read (f : Fmt) (x : Nat) : FVal :=
  let neg := decide (x / f.signBit % 2 = 1)
  let ex := x / 2 ^ f.fbits % 2 ^ f.ebits
  let fr := x % 2 ^ f.fbits
  let fin := if ex = 0 then FVal.fin neg fr f.qmin else FVal.fin neg (fr + 2 ^ f.fbits) (f.qmin + (ex - 1))
  match f.kind with
  | .ieee =>
    if ex = 2 ^ f.ebits - 1 then
      if fr = 0 then .inf neg else .nan (decide (fr < 2 ^ (f.fbits - 1)))
    else fin
  | .e4m3 => if ex = 2 ^ f.ebits - 1 ∧ fr = 2 ^ f.fbits - 1 then .nan false else fin
  | .e2m1 => fin

/-- A subnormal of a format: exponent field zero, fraction not. -/
def Fmt.subnormal (f : Fmt) (x : Nat) : Bool :=
  x / 2 ^ f.fbits % 2 ^ f.ebits == 0 && !(x % 2 ^ f.fbits == 0)

/-- A subnormal source replaced by zero of its sign (R76). -/
def Fmt.flush (f : Fmt) (ftz : Bool) (x : Nat) : Nat :=
  if ftz && f.subnormal x then x / f.signBit % 2 * f.signBit else x

/-- Bits in a number. -/
def bitLen (m : Nat) : Nat := if m = 0 then 0 else Nat.log2 m + 1

/-- How a result is rounded and delivered: a ROUND hint's mode, saturate and flush bits, and whether the instruction is
a conversion whose saturation sets SAT (R59, R76, R79). -/
structure Rnd where
  /-- Mode 0 to 4. -/
  mode : Nat
  /-- Saturate. -/
  sat : Bool
  /-- Flush. -/
  ftz : Bool
  /-- Saturating conversion: SAT and NX in place of OF (R81, R82, R84). -/
  conv : Bool
deriving DecidableEq, Repr

/-- Nearest even, nothing else: round_rne (R53). -/
def Rnd.rne : Rnd := { mode := 0, sat := false, ftz := false, conv := false }

/-- Whether a magnitude rounds up, from its last kept bit and its remainder against the half unit (R59). -/
def roundsUp (mode : Nat) (neg : Bool) (odd : Bool) (rem2 unit : Nat) (sticky : Bool) : Bool :=
  let inexact := decide (0 < rem2) || sticky
  match mode with
  | 0 => decide (unit < rem2) || (rem2 == unit && (sticky || odd))
  | 1 => false
  | 2 => inexact && !neg
  | 3 => inexact && neg
  | _ => decide (unit ≤ rem2)

/-- Rounds the magnitude m × 2^e (and a little more, where sticky) to a multiple of 2^q: the multiple and inexactness. -/
def roundAt (mode : Nat) (neg : Bool) (m : Nat) (e : Int) (sticky : Bool) (q : Int) : Nat × Bool :=
  if q ≤ e then
    let k := m * 2 ^ (e - q).toNat
    (if roundsUp mode neg (k % 2 == 1) 0 1 sticky then k + 1 else k, sticky)
  else
    let sh := (q - e).toNat
    let k := m / 2 ^ sh
    let r := m % 2 ^ sh
    (if roundsUp mode neg (k % 2 == 1) (2 * r) (2 ^ sh) sticky then k + 1 else k, decide (r ≠ 0) || sticky)

/-- m × 2^e compared with n × 2^g: at least it. -/
def magGe (m : Nat) (e : Int) (n : Nat) (g : Int) : Bool :=
  if g ≤ e then decide (n ≤ m * 2 ^ (e - g).toNat) else decide (n * 2 ^ (g - e).toNat ≤ m)

/-- The sign as bits. -/
def Fmt.sign (f : Fmt) (neg : Bool) : Nat := if neg then f.signBit else 0

/-- The overflow result of a format with its flags (R79, R82). -/
def Fmt.overflow (f : Fmt) (r : Rnd) (neg : Bool) : Nat × Word :=
  let big := f.maxBits + f.sign neg
  if f.kind ≠ .ieee ∨ (r.conv ∧ r.sat) then (big, fSAT ||| fNX)
  else
    let finite := r.sat || r.mode == 1 || (r.mode == 2 && neg) || (r.mode == 3 && !neg)
    (if finite then big else f.inf neg, fOF ||| fNX)

/-- Rounds an exact magnitude once to a format (R76, R79): the bits and the flags. -/
def Fmt.round (f : Fmt) (r : Rnd) (neg : Bool) (m : Nat) (e : Int) (sticky : Bool) : Nat × Word :=
  if m = 0 ∧ sticky = false then (f.sign neg, 0)
  else
    let top : Int := e + bitLen m - 1
    let q := max (top - f.fbits) f.qmin
    let (k, inexact) := roundAt r.mode neg m e sticky q
    let maxSig := f.maxBits % 2 ^ f.fbits + 2 ^ f.fbits
    let maxQ := f.qmin + (f.maxBits / 2 ^ f.fbits : Nat) - 1
    let past :=
      if r.mode = 0 ∨ r.mode = 4 then magGe m e (2 * maxSig + 1) (maxQ - 1)
      else magGe k q maxSig maxQ && !(magGe maxSig maxQ k q)
    if past then f.overflow r neg
    else
      let x := if 2 ^ (f.fbits + 1) ≤ k then (q - f.qmin + 1).toNat * 2 ^ f.fbits + k / 2
        else if k < 2 ^ f.fbits then k
        else (q - f.qmin).toNat * 2 ^ f.fbits + k
      let tiny := decide (top < 1 - (f.bias : Int))
      let flags := flagIf inexact fNX ||| flagIf (inexact && tiny) fUF
      if r.ftz && f.subnormal x then (f.sign neg, flags ||| fUF ||| fNX) else (x + f.sign neg, flags)

/-- The NaN a format delivers. -/
def Fmt.nanResult (f : Fmt) (flags : Word) : Nat × Word :=
  (f.nan, flags ||| (match f.kind with
    | .e2m1 => fNV
    | _ => 0))

/-- A signalling NaN. -/
def FVal.snan : FVal → Bool
  | .nan b => b
  | _ => false

/-- A NaN. -/
def FVal.isNan : FVal → Bool
  | .nan _ => true
  | _ => false

/-- Zero. -/
def FVal.isZero : FVal → Bool
  | .fin _ m _ => m == 0
  | _ => false

/-- The sign of a value that is no NaN. -/
def FVal.neg : FVal → Bool
  | .nan _ => false
  | .inf n => n
  | .fin n _ _ => n

/-- NV for signalling sources (R75). -/
def nvOf (l : List FVal) : Word := flagIf (l.any FVal.snan) fNV

/-- The signed integer a finite value is in units of 2^q, where q is at most its exponent. -/
def scaled (neg : Bool) (m : Nat) (e q : Int) : Int :=
  let x : Int := (m * 2 ^ (e - q).toNat : Nat)
  if neg then -x else x

/-- The exact sum of two finite values, rounded once; an exact zero has the sign IEEE 754 gives it. -/
def Fmt.sumFin (f : Fmt) (r : Rnd) (n1 : Bool) (m1 : Nat) (e1 : Int) (n2 : Bool) (m2 : Nat) (e2 : Int) : Nat × Word :=
  let q := min e1 e2
  let x := scaled n1 m1 e1 q + scaled n2 m2 e2 q
  if x = 0 then
    (f.sign (if m1 = 0 ∧ m2 = 0 ∧ n1 = n2 then n1 else r.mode == 3), 0)
  else f.round r (decide (x < 0)) x.natAbs q false

/-- The exact sum of two values, rounded once (R79). -/
def Fmt.addV (f : Fmt) (r : Rnd) (a b : FVal) : Nat × Word :=
  let nv := nvOf [a, b]
  match a, b with
  | .nan _, _ => f.nanResult nv
  | _, .nan _ => f.nanResult nv
  | .inf x, .inf y => if x = y then (f.inf x, nv) else f.nanResult (nv ||| fNV)
  | .inf x, .fin _ _ _ => (f.inf x, nv)
  | .fin _ _ _, .inf y => (f.inf y, nv)
  | .fin n1 m1 e1, .fin n2 m2 e2 => f.sumFin r n1 m1 e1 n2 m2 e2

/-- The negated value. -/
def FVal.negate : FVal → FVal
  | .nan s => .nan s
  | .inf n => .inf (!n)
  | .fin n m e => .fin (!n) m e

/-- The exact product of two values; none where it is invalid. -/
def FVal.times : FVal → FVal → Option FVal
  | .nan s, b => some (.nan (s || b.snan))
  | a, .nan s => some (.nan (s || a.snan))
  | .inf x, .inf y => some (.inf (x != y))
  | .inf x, .fin y m _ => if m = 0 then none else some (.inf (x != y))
  | .fin x m _, .inf y => if m = 0 then none else some (.inf (x != y))
  | .fin x m e, .fin y n g => some (.fin (x != y) (m * n) (e + g))

/-- The product, rounded once (R79). -/
def Fmt.mulV (f : Fmt) (r : Rnd) (a b : FVal) : Nat × Word :=
  match a.times b with
  | none => f.nanResult fNV
  | some (.nan s) => f.nanResult (flagIf s fNV)
  | some (.inf n) => (f.inf n, 0)
  | some (.fin n m e) => f.round r n m e false

/-- a × b + c, rounded once (R79). -/
def Fmt.fmaV (f : Fmt) (r : Rnd) (a b c : FVal) : Nat × Word :=
  let nv := nvOf [a, b, c]
  match a.times b with
  | none => f.nanResult fNV
  | some p =>
    let (x, w) := f.addV r p c
    (x, w ||| nv)

/-- The quotient, rounded once (R140, R142). -/
def Fmt.divV (f : Fmt) (r : Rnd) (a b : FVal) : Nat × Word :=
  let nv := nvOf [a, b]
  match a, b with
  | .nan _, _ => f.nanResult nv
  | _, .nan _ => f.nanResult nv
  | .inf _, .inf _ => f.nanResult fNV
  | .inf x, .fin y _ _ => (f.inf (x != y), 0)
  | .fin x _ _, .inf y => (f.sign (x != y), 0)
  | .fin x m e, .fin y n g =>
    if n = 0 then
      if m = 0 then f.nanResult fNV else (f.inf (x != y), fDZ)
    else if m = 0 then (f.sign (x != y), 0)
    else
      let k := f.fbits + 4 + bitLen n
      f.round r (x != y) (m * 2 ^ k / n) (e - g - k) (decide (m * 2 ^ k % n ≠ 0))

/-- The integer square root, bit by bit from bit `b - 1` down. -/
def isqrt (n : Nat) : Nat → Nat → Nat
  | 0, acc => acc
  | b + 1, acc => if (acc + 2 ^ b) * (acc + 2 ^ b) ≤ n then isqrt n b (acc + 2 ^ b) else isqrt n b acc

/-- The square root, rounded once (R139, R142). -/
def Fmt.sqrtV (f : Fmt) (r : Rnd) (a : FVal) : Nat × Word :=
  match a with
  | .nan s => f.nanResult (flagIf s fNV)
  | .inf n => if n then f.nanResult fNV else (f.inf false, 0)
  | .fin n m e =>
    if m = 0 then (f.sign n, 0)
    else if n then f.nanResult fNV
    else
      let sh := 2 * (f.fbits + 4)
      let odd := (e - sh) % 2 ≠ 0
      let x := m * 2 ^ (if odd then sh + 1 else sh)
      let g := if odd then e - sh - 1 else e - sh
      let y := isqrt x ((bitLen x + 1) / 2) 0
      f.round r false y (g / 2) (decide (y * y ≠ x))

/-- One finite or infinite value lies below another; -0 lies below +0 where `zeros`. -/
def FVal.below (zeros : Bool) : FVal → FVal → Bool
  | .nan _, _ => false
  | _, .nan _ => false
  | .inf x, .inf y => x && !y
  | .inf x, .fin _ _ _ => x
  | .fin _ _ _, .inf y => !y
  | .fin x m e, .fin y n g =>
    let q := min e g
    let a := scaled x m e q
    let b := scaled y n g q
    decide (a < b) || (zeros && decide (a = b) && m == 0 && x && !y)

/-- Two values are equal; NaNs never are, zeros of either sign are. -/
def FVal.same (a b : FVal) : Bool := !a.isNan && !b.isNan && !a.below false b && !b.below false a

/-- minimumNumber and maximumNumber of IEEE 754-2019: a NaN loses to a number, -0 lies below +0 (R137, R162). -/
def Fmt.pick (f : Fmt) (largest : Bool) (x y : Nat) : Nat × Word :=
  let a := f.read x
  let b := f.read y
  let nv := nvOf [a, b]
  if a.isNan then (if b.isNan then (f.nan, nv) else (y, nv))
  else if b.isNan then (x, nv)
  else if (if largest then a.below true b else b.below true a) then (y, nv)
  else (x, nv)

/-- A value rounded to a format: the conversions of R81 and R82. -/
def Fmt.convert (f : Fmt) (r : Rnd) (v : FVal) : Nat × Word :=
  let narrow := f = e4m3 ∨ f = e5m2 ∨ f = e2m1
  let r1 := { r with conv := true, sat := r.sat || decide narrow }
  match v with
  | .nan s => f.nanResult (flagIf s fNV)
  | .inf n =>
    match f.kind with
    | .ieee => (f.inf n, 0)
    | _ => (f.maxBits + f.sign n, fSAT ||| fNX)
  | .fin n m e => f.round r1 n m e false

/-- The exact value rounded to an integer: value and inexactness. -/
def roundInt (mode : Nat) (neg : Bool) (m : Nat) (e : Int) : Int × Bool :=
  let (k, x) := roundAt mode neg m e false 0
  (if neg then -(k : Int) else (k : Int), x)

/-- f2i (R83): the integer wrapped to the type's width, and the flags. -/
def f2iV (mode : Nat) (sat signed : Bool) (n : Nat) (v : FVal) : Nat × Word :=
  let bad := if signed then wrapInt n (typeMin true n) else wrapInt n (-1)
  match v with
  | .nan _ => (if sat then 0 else bad, fNV)
  | .inf neg =>
    (if sat then wrapInt n (if neg then typeMin signed n else typeMax signed n) else bad, fNV)
  | .fin neg m e =>
    let (k, x) := roundInt mode neg m e
    if k < typeMin signed n then (if sat then wrapInt n (typeMin signed n) else bad, fNV)
    else if typeMax signed n < k then (if sat then wrapInt n (typeMax signed n) else bad, fNV)
    else (wrapInt n k, flagIf x fNX)

/-- i2f (R84). -/
def i2fV (f : Fmt) (r : Rnd) (x : Int) : Nat × Word :=
  let narrow := f = e4m3 ∨ f = e5m2 ∨ f = e2m1
  f.round { r with conv := true, sat := r.sat || decide narrow } (decide (x < 0)) x.natAbs 0 false

end Sys2Proof.Machine
end

