-- ==== Sys2Proof/Machine/Atomic.lean ====
section
/-! DEFINITION. What an atomic makes of a location: types, widths and the new value (11_isa_memory R161, R162). -/

namespace Sys2Proof.Machine

/-- Bytes of a TYPE code's location (R161). -/
def atomWidth (t : Nat) : Nat :=
  match t with
  | 2 => 8
  | 3 => 8
  | 5 => 2
  | 7 => 1
  | _ => 4

/-- The TYPE codes that suit an atomic fn: 0 add, 1 min, 2 max, 3 and, 4 or, 5 xor, 6 exch, 7 cas (R161). -/
def atomTypes (fn : Nat) : List Nat :=
  match fn with
  | 0 => [0, 1, 2, 3, 8]
  | 1 => [0, 1, 2, 3, 8]
  | 2 => [0, 1, 2, 3, 8]
  | _ => [0, 1, 2, 3, 5, 7]

/-- The new value of a location that holds `old`, for operand `b` and the new value `c` of a cas (R162). -/
def atomNew (fn t old b c : Nat) : Nat :=
  let n := 8 * atomWidth t
  let o := old % 2 ^ n
  let x := b % 2 ^ n
  let lt (p q : Nat) : Bool := decide (readInt (typeSigned t) n p < readInt (typeSigned t) n q)
  match fn with
  | 0 => if t = 8 then (f32.addV .rne (f32.read o) (f32.read x)).1 else (o + x) % 2 ^ n
  | 1 => if t = 8 then (f32.pick false o x).1 else if lt x o then x else o
  | 2 => if t = 8 then (f32.pick true o x).1 else if lt o x then x else o
  | 3 => o &&& x
  | 4 => o ||| x
  | 5 => o ^^^ x
  | 6 => x
  | _ => if o = x then c % 2 ^ n else o

/-- Reads and writes a location at home as one operation (R162, R193): the old value and the state. -/
def State.rmw (s : State) (p : Party) (st : Stand) (tag key n : Nat) (f : Nat → Nat) : Nat × State :=
  let s1 := s.atHome p st key n
  let old := s1.num key n
  (old, s1.homeWriteBy p.core tag ((bytesOf n (f old)).zipIdx.map (fun e => (key + e.2, e.1))))

end Sys2Proof.Machine
end

