-- ==== Sys2Proof/Machine/Park.lean ====
section
/-! DEFINITION. Parking and becoming ready again (01_machine R28, R30 to R33). -/

namespace Sys2Proof.Machine

/-- Register writes a warp has outstanding: long-latency results, capsule steps and answers of other devices (R30, R254,
R322). -/
def State.outstanding (s : State) (w : Nat) : Bool :=
  s.inflight.any (fun e => e.2.warp == w) || s.steps.any (fun e => e.2.warp == w) || s.awaits (fun v => v == w)

/-- A gang of another warp still waits to access the warp's registers, which it was made resident for (R42). -/
def State.called (s : State) (W : Warp) : Bool :=
  W.callers.any (fun x => match sget s.warps x.1 with
    | some V => V.residency == .resident && !V.ended && (match V.gangAt x.2.1 with
      | some g => V.groupPc g == x.2.2 && g.pend != .none
      | none => false)
    | none => false)

/-- Parks a warp once its register writes have landed (R30); a warp that holds a capsule is to be marked away (R255). One that
another warp's access waits for stays until that access is made (R42). -/
def State.park (s : State) (w : Nat) (ready : Bool) : State :=
  match sget s.warps w with
  | none => s
  | some W =>
    if s.outstanding w ∨ W.residency ≠ .resident ∨ s.called W = true then s
    else
      { s with
        warps := sput s.warps w
          { W with residency := .parked ready s.nextId, away := if W.holds then 1 else W.away, lastSlot := false, callers := [] }
        nextId := s.nextId + 1 }

/-- Resident warps of a core's partition. -/
def State.residentIn (s : State) (core part : Nat) : Nat :=
  (s.warps.filter (fun e => e.2.core == core && e.2.part == part && e.2.residency == .resident && !e.2.ended)).length

/-- The partition with the fewest resident warps, the lowest on a tie (R28). -/
def State.partition (s : State) (core : Nat) : Nat :=
  ((List.range 12).foldl (fun (b : Nat × Nat) p =>
    let n := s.residentIn core p
    if n < b.2 then (p, n) else b) (0, s.residentIn core 0)).1

/-- Makes a parked warp resident, in the reserve's last slot or elsewhere (R28, R32, R33). -/
def State.unparkNow (s : State) (w : Nat) (last : Bool) : State :=
  match sget s.warps w with
  | none => s
  | some W =>
    s.setWarp w { W with residency := .resident, part := s.partition W.core, urgent := false, lastSlot := last }

/-! ### Room in a core's store (R1, R11, R29, R33) -/

/-- Bytes of a core store that blocks and warps can take: 6144 KiB less the least carve-out. -/
def storeBytes : Nat := 5888 * 1024

/-- Bytes of a resident warp: its window and its stack area (R11). -/
def warpBytes (window : Nat) : Nat := window * 128 + 1024

/-- The ordinary scheduling entries, 0 to 2031; the sapling reserve is entries 2032 to 2047 (R29; assumption 10). -/
def ordinaryEntries : Nat := 2032

/-- A block is in the save area: a warp of it is, and none is outside. -/
def State.blockSaved (s : State) (B : Block) : Bool :=
  let l := (B.members.filterMap (sget s.warps)).filter (fun W => !W.ended)
  !l.isEmpty && l.all Warp.saved

/-- The admitted blocks with a share on a core. -/
def State.blocksOn (s : State) (core : Nat) : List Block :=
  (s.blocks.filter (fun e => e.2.admitted && e.2.cores.contains core && !s.blockSaved e.2)).map (·.2)

/-- Scratch of the admitted blocks of a core. -/
def State.scratchUsed (s : State) (core : Nat) : Nat :=
  ((s.blocksOn core).map (fun B => ceilTo 256 B.desc.scratch)).foldl (· + ·) 0

/-- The warps of a core that have not ended and are not in the save area. -/
def State.warpsOn (s : State) (core : Nat) : List Warp :=
  (s.warps.filter (fun e => decide (e.2.core = core) && !e.2.ended && !e.2.saved)).map (·.2)

/-- The free scheduling entries of a core from `lo`, below `hi`. -/
def State.freeEntries (s : State) (core lo hi : Nat) : List Nat :=
  let used := (s.warpsOn core).map (·.entry)
  (List.range' lo (hi - lo)).filter (fun i => !used.contains i)

/-- Resident warps of a core whose storage is not the sapling reserve's (R33). -/
def State.residents (s : State) (core : Nat) : List Warp :=
  (s.warpsOn core).filter (fun W => W.residency == .resident && decide (W.entry < ordinaryEntries) && !W.lastSlot)

/-- Bytes of the windows of the warps that hold ordinary room on a core. -/
def State.windowBytes (s : State) (core : Nat) : Nat := ((s.residents core).map (fun W => W.window * 128)).foldl (· + ·) 0

/-- The windows of the residents of a core whose storage is the sapling reserve's (R33). -/
def State.reserveHeld (s : State) (core : Nat) : List Nat :=
  ((s.warpsOn core).filter (fun W => W.residency == .resident && (decide (ordinaryEntries ≤ W.entry) || W.lastSlot))).map
    (fun W => W.window)

/-- The windows of the 16 slots of the reserve: of each that is held, by the windows given, the larger of its own and the one the
reserve keeps, `reserve`; no other slot is kept where no block is admitted (R33). -/
def reserveSlots (held : List Nat) (reserve : Nat) : List Nat :=
  held.map (max reserve) ++ (if reserve = 0 then [] else List.replicate (16 - held.length) reserve)

/-- The ordinary residents of a core, `n` more windows of `bytes` in all, the sapling reserve with the windows of `more` in slots
of it, and the scratch fit in the core store and under the limits of R1, R11 and R33. `reserve` is the largest window among the
kernels admitted. -/
def State.storeFits (s : State) (core n bytes scratch reserve : Nat) (more : List Nat) : Bool :=
  let l := (s.residents core).length + n
  let slots := reserveSlots (s.reserveHeld core ++ more) reserve
  let windows := s.windowBytes core + bytes + (slots.map (· * 128)).foldl (· + ·) 0
  decide (l ≤ 496) && decide (windows ≤ 4608 * 1024) && decide (windows + 1024 * (l + slots.length) + scratch ≤ storeBytes)

/-- The largest vector window among the kernels admitted to a core (R33). -/
def State.largestWindow (s : State) (core : Nat) : Nat := ((s.blocksOn core).map (fun B => B.desc.window)).foldl max 0

/-- A window fits beside the resident ordinary warps (R11, R33). -/
def State.roomFor (s : State) (core window : Nat) : Bool :=
  s.storeFits core 1 (window * 128) (s.scratchUsed core) (s.largestWindow core) []

/-- A window fits in a free slot of the reserve: one that is not above the reserve's always, a larger one where the store has room
for it (R33, R241). -/
def State.slotFits (s : State) (core window : Nat) : Bool :=
  decide (window ≤ s.largestWindow core) || s.storeFits core 0 0 (s.scratchUsed core) (s.largestWindow core) [window]

/-- The last slot of a core's reserve is free (R33). -/
def State.lastSlotFree (s : State) (core : Nat) : Bool := (s.warpsOn core).all (fun W => !W.lastSlot)

/-! ### Where a context runs (R290, R298, R303) -/

/-- The core pairs a ladder holds and has not saved. -/
def Ladder.pairs (l : Ladder) : BitVec 64 := l.parts.foldl (fun m p => m ||| p.pairs) l.done

/-- The core pairs of a ladder whose drain has ended: no warp that is not resident comes back there. -/
def Ladder.halted (l : Ladder) : BitVec 64 :=
  l.parts.foldl (fun m p => if p.stage = .drain then m else m ||| p.pairs) l.done

/-- The function of a context runs: the PF always, a VF while its stand runs it (R303). -/
def State.fnRuns (s : State) (fn : Nat) : Bool := fn == 0 || (s.stand (s.standOf fn)).running == some fn

/-- The engines of the machine act for a context: its function runs and no freeze has stopped the machine. A function that does
not run writes nothing (R296, R310). -/
def State.engineRuns (s : State) (ctx : Nat) : Bool := s.fnRuns (ctxFn ctx) && s.frozenMem.isNone

/-- A core runs a context: its function is running, the context is enabled, and no ladder, save or freeze has taken the
core from it (R290, R296, R303). -/
def State.runsOn (s : State) (ctx core : Nat) : Bool :=
  let c := s.context ctx
  let held : BitVec 64 := c.savedPairs ||| (match c.ladder with
    | some l => l.pairs
    | none => 0)
  c.en && !c.lost && s.freeze.isNone && s.frozenMem.isNone && !held.getLsbD (core / 2) && s.fnRuns (ctxFn ctx)

/-- A parked warp of a context may come back on a core: as `runsOn`, and during a drain as well (R290). -/
def State.mayReturn (s : State) (ctx core : Nat) : Bool :=
  let c := s.context ctx
  let held : BitVec 64 := c.savedPairs ||| (match c.ladder with
    | some l => l.halted
    | none => 0)
  s.frozenMem.isNone && !held.getLsbD (core / 2) && s.fnRuns (ctxFn ctx)

/-- A main-clock cycle of a core ends in this nominal period: each period, or, in a stretch, each second one (R345). -/
def State.coreTicks (s : State) (core : Nat) : Bool :=
  match (s.detector core).stretch with
  | some t => decide (t ≤ s.time) || (t - s.time) % 2 == 1
  | none => true

/-- Accesses of the functions of a predicate may be made in a cycle: a warp is resident, a store is on its way, or a copy command
runs. -/
def State.busy (s : State) (p : Nat → Bool) : Bool :=
  s.warps.any (fun e => p (ctxFn e.2.ctx) && !e.2.ended && e.2.residency == .resident) || s.regq.any (fun e => p (ctxFn e.2.ctx)) ||
    s.cmds.any (fun e => p (((sget s.blocks e.2.block).map (fun B => ctxFn B.ctx)).getD 0))

/-- What a counter of a function adds in one main-clock cycle, by event: event 2 the cores of the stand whose cycle ends; the hits
and misses of the home cache, and the packets and flits of the fabric, whose number no rule fixes, a free number where there may be
any (R306). -/
def State.cycleCount (s : State) (fn e : Nat) : Nat :=
  let free := (Config.freeWord (s.fresh + e)).toNat
  match e with
  | 2 => ((s.stand (s.standOf fn)).cores.filter s.coreTicks).length
  | 3 => if s.busy (· == fn) then free else 0
  | 4 => if s.busy (· == fn) then free else 0
  | 20 => if fn = 0 ∧ s.barriers ≠ [] then free else 0
  | 21 => if fn = 0 ∧ s.barriers ≠ [] then free else 0
  | 22 => if fn = 0 ∧ s.busy (fun _ => true) then free else 0
  | 23 => if fn = 0 ∧ s.busy (fun _ => true) then free else 0
  | _ => 0

/-- The counters of the running functions count a cycle (R306). -/
def State.countCycle (s : State) : State :=
  if s.counters = [] then s
  else
    { s with
      counters := s.counters.map (fun (e : Nat × Counters) =>
        if s.fnCounts e.1 then
          let (c1, wraps) := e.2.add (s.cycleCount e.1)
          (e.1, { c1 with pend := c1.pend ||| wraps })
        else e)
      fresh := s.fresh + 32 }

/-- A main-clock cycle passes. A bin's count of cycles since its oldest sapling stands still while its core does not run
the context (R238). -/
def State.pass (s : State) : State :=
  { s.countCycle with
    time := s.time + 1
    saplings := s.saplings.map (fun e =>
      let ctx := ((sget s.groves e.2.grove).map (·.ctx)).getD 0
      if s.mayReturn ctx e.2.core then e else (e.1, { e.2 with time := e.2.time + 1 })) }

/-! ### Which gangs may issue (R26, R256, R282, R290) -/

/-- The stage of the part of its context's ladder that holds a warp's core. -/
def State.stageOf (s : State) (W : Warp) : Option Stage :=
  (s.context W.ctx).ladder.bind (fun l => (l.parts.find? (fun p => p.pairs.getLsbD (W.core / 2))).map (·.stage))

/-- A warp is at a reconvergence point: its unexited slices form one gang, every mask stack is empty, and no hint group
is pending (R20, R65, R125). -/
def Warp.reconverged (W : Warp) : Bool :=
  match W.gangs with
  | [g] => g.slices == W.live && g.hints.isEmpty && W.slices.all (fun x => x.stack.isEmpty)
  | _ => false

/-- A gang may issue: its warp is resident and not stopped, it is not held by a handler, an adopted run, a stall or a
sleep, and it is not waiting for something that has not moved since it was last tried (R26, R256, R282). -/
def Warp.mayIssue (W : Warp) (g : Gang) (progress : Nat) : Bool :=
  W.residency == .resident && !W.ended && !W.heldBack g &&
  W.adopts.all (fun b => (g.slices &&& b.slices == 0) || g.slices.getLsbD (b.lane / 4)) &&
  W.away == 0 && g.stall.isNone && g.sleep.isNone && g.wait != some progress

/-- A warp's context lets it issue: its function runs; in the halt stage of its ladder it stops at its next reconvergence
point, where its halt entry comes, and once the capture has begun it issues nothing (R290, R292, R303). -/
def State.mayRun (s : State) (W : Warp) : Bool :=
  s.fnRuns (ctxFn W.ctx) && s.frozenMem.isNone &&
    (match s.stageOf W with
      | some .halt => W.handler.isSome || !W.reconverged
      | some .capture => false
      | _ => true)

/-- A gang may issue in its machine (R26). -/
def State.gangMayIssue (s : State) (W : Warp) (g : Gang) : Bool := W.mayIssue g s.progress && s.mayRun W

/-! ### Unparking (R31 to R33) -/

/-- The place of a parked warp in the order of becoming ready; none where it is not ready (R32). -/
def Warp.readyOrder (W : Warp) : Option Nat :=
  match W.residency with
  | .parked true o => some o
  | _ => none

/-- No gang of a resident warp is ready. -/
def State.unready (s : State) (W : Warp) : Bool := W.gangs.all (fun g => !s.gangMayIssue W g)

/-- A core has no ready warp (R235): no gang of a resident warp could issue, and no parked warp is ready. -/
def State.coreIdle (s : State) (core : Nat) : Bool :=
  (s.warpsOn core).all (fun W =>
    match W.residency with
    | .resident => s.unready W
    | _ => W.readyOrder.isNone)

/-- The ready parked warp of a core that is next in order (R32). -/
def State.nextUnpark (s : State) (core : Nat) : Option Nat :=
  (s.warps.foldl (fun (b : Option (Nat × Nat)) e =>
    if e.2.core = core ∧ e.2.ended = false ∧ s.mayReturn e.2.ctx core then
      match e.2.readyOrder, b with
      | none, _ => b
      | some o, some y => if o < y.1 then some (o, e.1) else b
      | some o, none => some (o, e.1)
    else b) none).map (·.2)

/-- A resident warp that is not ready, to be parked to make room (R31, R32). Which of several is the model's choice (assumption 26):
the one of least number that holds ordinary room, else the one of least number that holds the reserve's. -/
def State.victim (s : State) (core : Nat) : Option Nat :=
  let l := s.warps.filter (fun e =>
    decide (e.2.core = core) && e.2.residency == .resident && !e.2.ended && !s.outstanding e.1 && s.unready e.2 && !s.called e.2)
  ((l.find? (fun e => decide (e.2.entry < ordinaryEntries) && !e.2.lastSlot)).orElse (fun _ => l.head?)).map (·.1)

/-- Every gang of a core's residents that waits has been tried since something last moved, so that it is known which of them are not
ready. -/
def State.known (s : State) (core : Nat) : Bool :=
  (s.warpsOn core).all (fun W => W.residency != .resident ||
    W.gangs.all (fun g => g.wait.isNone || !s.gangMayIssue W g))

/-- UNPARK: the ready parked warp next in order takes a window and a partition; where there is no room a warp that is not
ready is parked, and where every resident is ready an urgent one takes the last reserved slot (R28, R32, R33). -/
def unpark (w : Nat) (s : State) : State :=
  match sget s.warps w with
  | none => s
  | some W =>
    if s.nextUnpark W.core = some w then
      if (if ordinaryEntries ≤ W.entry then s.slotFits W.core W.window else s.roomFor W.core W.window) then s.unparkNow w false
      else
        match s.victim W.core with
        | some v => s.park v false
        | none => if W.urgent ∧ s.lastSlotFree W.core ∧ s.known W.core = true then s.unparkNow w true else s
    else s

end Sys2Proof.Machine
end

