-- ==== Sys2Proof/Machine/Capsule.lean ====
section
/-! DEFINITION. Capsules: records, entering, steps, adoption, delivery and ending (19_capsule R248 to R260). -/

namespace Sys2Proof.Machine

/-- Changes a lane's capsule state. -/
def Warp.modCap (W : Warp) (lane : Nat) (f : CapLane → CapLane) : Warp := { W with caps := Sys2Proof.Machine.sput W.caps lane (f (W.cap lane)) }

/-- A lane's capsule state as the machine holds it now. -/
def State.capOf (s : State) (w lane : Nat) : CapLane :=
  match sget s.warps w with
  | some W => W.cap lane
  | none => CapLane.none

/-- The next sequence: 1 to 511, never 0 (R251). -/
def nextSeq (n : Nat) : Nat := if n = 511 then 1 else n + 1

/-- A token (R251). -/
def tokenOf (W : Warp) (lane seq : Nat) : Word :=
  BitVec.ofNat 32 (W.core * 2 ^ 25 + W.entry * 2 ^ 14 + lane * 2 ^ 9 + seq)

/-- An identity (R251). -/
def State.identity (s : State) (W : Warp) (token : Word) : Nat :=
  ((sget s.groves W.grove).map (·.slot)).getD 0 * 2 ^ 56 + s.ctxNum W.ctx * 2 ^ 32 + token.toNat

/-- STATE of the lock word of a record (R249). -/
def State.capState (s : State) (k : Nat) : Nat := s.num (k + 3) 1

/-- Writes the lock word, ADOPTIONS as given (R249). -/
def State.setLock (s : State) (p : RecPlace) (owner state step adoptions : Nat) : State :=
  (s.recPut p 0 8 (owner * 2 ^ 32 + state * 2 ^ 24 + step * 2 ^ 16 + adoptions % 2 ^ 16)).wakeCapsules

/-- k0 to k15 of a lane. -/
def Warp.kregs (W : Warp) (base lane : Nat) : List Word := (List.range 16).map (fun j => W.vget (base + j) lane)

/-- p0 to p6 of a lane. -/
def Warp.preds (W : Warp) (lane : Nat) : BitVec 7 :=
  (List.range 7).foldl (fun a i => if (W.pmask i).getLsbD lane then a ||| (1#7 <<< i) else a) 0

/-- Sets p0 to p6 of a lane. -/
def Warp.putPreds (W : Warp) (lane : Nat) (p : BitVec 7) : Warp :=
  (List.range 7).foldl (fun (W : Warp) i => W.pputs (bitW lane) i (if p.getLsbD i then BitVec.allOnes 32 else 0)) W

/-- Sets 16 registers of a lane. -/
def Warp.putRegs (W : Warp) (base lane : Nat) (l : List Word) : Warp :=
  l.zipIdx.foldl (fun (W : Warp) e => W.vput (base + e.2) lane e.1) W

/-- Writes a checkpoint (R248). -/
def State.putCheckpoint (s : State) (p : RecPlace) (regs : List Word) : State :=
  s.pagePut p (p.key + 0x10) (regs.flatMap (fun x => bytesOf 4 x.toNat))

/-- The resume word (R250). -/
def resumeWord (resume kbase : Nat) (preds : BitVec 7) : Nat :=
  resume % 64 * 2 ^ 26 + kbase / 16 % 8 * 2 ^ 23 + preds.toNat * 2 ^ 16

/-- Words from the code segment base to an address (R248). -/
def Warp.codeOffset (W : Warp) (pc : DWord) : Nat := ((pc - W.code).toNat / 4) % 2 ^ 32

/-- Frees a record's lock word, ADOPTIONS kept, and forgets its holder (R256, R258). -/
def State.freeRecord (s : State) (p : RecPlace) : State :=
  let s1 := s.setLock p 0 0 0 (s.num p.key 2)
  { s1 with holders := sdel s1.holders p.key }

/-- A lane acquires a free record (R252). -/
def State.acquireCap (s : State) (c : Ctx) (lane base : Nat) (a : DWord) (k : Nat) : State :=
  match sget s.warps c.w with
  | none => s
  | some W =>
    let p : RecPlace := { ctx := W.ctx, va := a, key := k }
    let seq := nextSeq (W.cap lane).seq
    let tok := tokenOf W lane seq
    let body := W.pcOf c.G + 4
    let s1 := s.setLock p tok.toNat 1 0 (s.num k 2)
    let s2 := (s1.recPut p 8 4 (W.codeOffset body)).recPut p 0x0C 4 (resumeWord 0 base (W.preds lane))
    let s3 := s2.putCheckpoint p (W.kregs base lane)
    let s4 := ((s3.recPut p 0x50 8 (s.identity W tok)).recPut p 0x60 8 0).recPut p 0x58 4 0
    let s5 := { s4 with holders := sput s4.holders k { warp := c.w, lane := lane, seq := seq, own := 0 } }
    s5.modWarp c.w (fun W => W.modCap lane (fun x =>
      { x with inside := true, record := a, kbase := base, entry := body, step := 0, own := 0, seq := seq, token := tok,
               adopting := false, result := .none, reply := .none }))

/-- The holder's k base in a record (R250). -/
def State.holderBase (s : State) (k : Nat) : Nat := field (s.num (k + 0x0C) 4) 23 3 * 16

/-- adoptable(r, L) (R252). -/
def State.adoptable (s : State) (W : Warp) (k : Nat) : Bool :=
  let id := s.num (k + 0x50) 8
  let me := s.identity W 0
  decide (id / 2 ^ 32 = me / 2 ^ 32) && decide (s.holderBase k + 15 < W.window)

/-- A lane adopts an away record: steps 1 to 3 of R256. -/
def State.adoptCap (s : State) (c : Ctx) (lane : Nat) (a : DWord) (k : Nat) (acquired : Word) : State :=
  match sget s.warps c.w with
  | none => s
  | some W =>
    let p : RecPlace := { ctx := W.ctx, va := a, key := k }
    let seq := nextSeq (W.cap lane).seq
    let tok := tokenOf W lane seq
    let word := s.num (k + 0x0C) 4
    let h := s.holderBase k
    let s1 := (s.setLock p (s.num (k + 4) 4) 3 (s.num (k + 2) 1) (s.num k 2 + 1)).recPut p 0x60 8 (s.identity W tok)
    let entry := W.code + 4 * BitVec.ofNat 64 (s.num (k + 8) 4)
    let buf : AdoptBuffer :=
      { lane := lane, slices := c.G.slices, pc := W.pcOf c.G, actives := W.slices.map (·.active), preds := W.preds lane,
        regs := W.kregs h lane, base := h, acquired := acquired }
    let regs := (List.range 16).map (fun i => BitVec.ofNat 32 (s.num (k + 0x10 + 4 * i) 4))
    let sl := lane / 4
    let W1 := ((W.putRegs h lane regs).putPreds lane (BitVec.ofNat 7 (field word 16 7))).modSlice sl (fun x =>
      { x with active := 1#4 <<< (lane % 4), pc := entry + 4 * BitVec.ofNat 64 (field word 26 6) })
    let W2 := W1.modCap lane (fun x =>
      { x with inside := true, record := a, kbase := h, entry := entry, step := s.num (k + 2) 1, own := 0, seq := seq,
               token := tok, adopting := true, result := .none, reply := .none })
    let rest := c.G.slices &&& ~~~(1#8 <<< sl)
    let split (g : Gang) : List Gang :=
      if g.slices = c.G.slices then
        [{ g with slices := 1#8 <<< sl, hints := [], pend := .none, wait := none }] ++
          (if rest = 0 then [] else [{ g with slices := rest, hints := [], pend := .none, wait := none }])
      else [g]
    (s1.setWarp c.w { W2 with adopts := buf :: W2.adopts, gangs := W2.gangs.flatMap split }).count (ctxFn W.ctx) 9 1

/-- The lanes of this CAPBEGIN that have acquired: in a capsule entered here on their record (R252). -/
def acquiredHere (c : Ctx) (s : State) (y lane : Nat) : Bool :=
  let x := s.capOf c.w lane
  x.inside && !x.adopting && decide (x.entry = c.W.pcOf c.G + 4) && decide (x.record = c.W.vget2 y lane)

/-- CAPBEGIN's lanes in ascending order, each as one operation at the record's home, after the gang's earlier stores (R158, R252). A
lane adopts once what its gang
has in flight for the registers it saves in the buffer has landed (R256). A record that another device holds is read first, and written
by stores after (R322; assumption 52). -/
def capLoop (c : Ctx) (base y : Nat) : List Nat → Word → State → Res
  | [], _, s => afterAcquire c s .done
  | lane :: r, got, s =>
    if acquiredHere c s y lane then capLoop c base y r (got ||| bitW lane) s
    else
      let a := c.W.vget2 y lane
      if s.onOrdered c.W.ctx a ∧ s.orderedBusy c = true then .wait (s.waitWith c (.capsule got))
      else
      match laneAccess s c .both 128 a with
      | .fault k d => .trap s (laneTrap k d got [(lane, a)])
      | .stall p => .wait ((s.askHost (c.tag p (bitW lane) a)).waitWith c (.capsule got))
      | .hold _ => .wait (s.waitWith c (.capsule got))
      | res =>
          let k := res.key
          let op := EngineOp.gang c.w c.G.slices
          match s.far op k 128 with
          | .ask part => .wait ((s.askFar op c.W.ctx a part).waitWith c (.capsule got))
          | .coming => .wait (s.waitWith c (.capsule got))
          | .refused cls d => .trap (s.endFar op) (laneTrap cls d got [(lane, a)])
          | .here =>
          let s := s.endFar op
          let s := s.atHome c.party (s.ctxStand c.W.ctx) k 128
          let st := s.capState k
          if st = 0 then capLoop c base y r (got ||| bitW lane) (s.acquireCap c lane base a k)
          else if st = 5 then .trap s (Trap.of 0x15 8)
          else if (st = 2 ∨ st = 4) ∧ s.adoptable c.W k = true then
            if c.W.kFull (s.holderBase k) lane then .jump (s.adoptCap c lane a k got) else .wait (s.waitWith c (.capsule got))
          else .wait ((s.waitWith c (.capsule got)).park c.w false)

/-- Some value occurs twice. -/
def repeats {α : Type} [DecidableEq α] : List α → Bool
  | [] => false
  | x :: r => r.contains x || repeats r

/-- CAPBEGIN (R252). -/
def capBegin (x y : Nat) (c : Ctx) (s : State) : Res :=
  let lanes := lanesOf c.base
  let todo := lanes.filter (fun l => !acquiredHere c s y l)
  match issueFault s c false 128 128 (todo.map (fun l => (l, c.W.vget2 y l))) with
  | some t => .trap s t
  | none =>
    if c.W.capsules = false then violation c s 1
    else if todo.any (fun l => (c.W.cap l).inside) ∨ repeats (lanes.map (fun l => c.W.vget2 y l)) = true then violation c s 2
    else capLoop c x y lanes 0 s

/-- CAPBEGIN. -/
def execCapbegin (x y : BitVec 7) (s : State) : Out :=
  issue (fun _ =>
    { Sig.plain with
      srcs := [(.v x.toNat 16, some 0), (.v y.toNat 2, some 1)], body := .own })
    (capBegin x.toNat y.toNat) s

/-! ### Steps (R253, R254) -/

/-- The violations of a body access: a 17th step, or bytes off the page or in the record (R253, R259). -/
def bodyAccess (c : Ctx) (s : State) (step : Bool) (size : Nat) (l : List LaneAddr) : Option Nat :=
  let bad (e : LaneAddr) : Option Nat :=
    let x := s.capOf c.w e.1
    if x.inside = false ∨ c.W.inHandler c.j = true then none
    else if step ∧ 16 ≤ x.step then some 5
    else
      let r := x.record.toNat
      let a := e.2.toNat
      if a / 4096 ≠ r / 4096 ∨ (a + size - 1) / 4096 ≠ r / 4096 ∨ (a < r + 128 ∧ r < a + size) then some 6 else none
  l.findSome? bad

/-- A lane takes its result slot and leaves its capsule and its slice's active mask (R257). -/
def Warp.detach (W : Warp) (lane : Nat) (slot : Bool) (word : Word) : Warp :=
  let x := W.cap lane
  let W1 := match x.result, slot with
    | some (regs, preds, _), true => (W.putRegs x.kbase lane regs).putPreds lane preds
    | _, _ => W
  let bit := 1#4 <<< (lane % 4)
  (W1.modSlice (lane / 4) (fun sl => { sl with active := sl.active &&& ~~~bit, detached := sl.detached ||| bit })).modCap lane
    (fun y => { y with inside := false, result := .none, reply := .none, last := word })

/-- The CAPRES word of a lane whose result was delivered (R257, R260). -/
def deliveredWord (x : CapLane) : Word :=
  match x.result with
  | some (_, _, w) => BitVec.ofNat 32 (w.toNat / 2 ^ 16 * 2 ^ 16 + x.own * 2 ^ 8 + w.toNat % 8)
  | none => 0

/-- An adopter abandons its run: its gang's buffer is restored and the gang retries its CAPBEGIN (R256). -/
def State.abandon (s : State) (c : Ctx) : State :=
  match c.W.adoption c.G.slices with
  | some b => s.modWarp c.w (fun W => W.restoreAdopt b)
  | none => s

/-- A lane detaches, and its gang acquires (R257). -/
def State.detachLane (s : State) (c : Ctx) (lane : Nat) (slot : Bool) (word : Word) : State :=
  (s.modWarp c.w (fun W => W.detach lane slot word)).acquire c.W.core

/-- Nothing of the lane's k registers, and no load of its gang, is in flight: its checkpoint is what they hold, and a detach, or
the end of an adopted run, may write them and acquire (R254 to R257). -/
def Ctx.settled (c : Ctx) (s : State) (lane : Nat) : Bool := c.W.kFull (c.W.cap lane).kbase lane && returned c s

/-- What a lane's commit comes to. -/
inductive Commit where
  /-- The lane has its reply, or has detached. -/
  | past (s : State)
  /-- It waits for its reply. -/
  | waiting (s : State)
  /-- It was refused and waits for a delivery (R257). -/
  | delivery (s : State)
  /-- An adopter's commit was refused. -/
  | abandoned (s : State)
  /-- Its record cannot be reached: class and detail (R156). -/
  | fault (cls detail : Nat)

/-- A step of a lane is on its way. -/
def State.stepOut (s : State) (w lane : Nat) : Bool := s.steps.any (fun e => e.2.warp == w && e.2.lane == lane)

/-- One lane of a step: sent, answered, refused or adopted (R254, R257). What another device holds of its record and of the bytes it
accesses has been read before it is sent (R322). -/
def stepLane (c : Ctx) (mk : Nat → CapStep) (lane : Nat) (s : State) : Commit :=
  let x := s.capOf c.w lane
  if s.stepOut c.w lane ∨ c.settled s lane = false then .waiting s
  else
    match x.reply with
    | some true => .past (s.modWarp c.w (fun W => W.modCap lane (fun y => { y with reply := none })))
    | some false =>
      if x.adopting then .abandoned (s.abandon c)
      else if x.result.isSome then .past (s.detachLane c lane true (deliveredWord x))
      else .delivery s
    | none =>
      if x.adopting = false ∧ x.result.isSome then .past (s.detachLane c lane true (deliveredWord x))
      else
        let p := mk lane
        let op := EngineOp.gang c.w c.G.slices
        match (match s.far op p.record 128 with
          | .here => s.far op p.key p.bytes.length
          | f => f) with
        | .ask part => .waiting (s.askFar op c.W.ctx x.record part)
        | .coming => .waiting s
        | .refused k d => .fault k d
        | .here =>
          let s1 := s.endFar op
          .waiting { s1 with steps := sput s1.steps s1.nextId p, nextId := s1.nextId + 1 }

/-- What the lanes of a step have come to so far. -/
structure StepSum where
  /-- State. -/
  s : State
  /-- Lanes over. -/
  finished : Word
  /-- Some lane waits for its reply. -/
  waiting : Bool
  /-- Some lane waits for a delivery. -/
  refused : Bool
  /-- The run was abandoned. -/
  abandoned : Bool
  /-- The lowest lane that faults: lane, class and detail. -/
  fault : Option (Nat × Nat × Nat)

/-- The lanes of a step, ascending (R254). -/
def stepLanes (c : Ctx) (mk : Nat → CapStep) (lanes : List Nat) (done : Word) (s : State) : StepSum :=
  lanes.foldl (fun a lane =>
    if a.abandoned ∨ a.finished.getLsbD lane = true then a
    else
      match stepLane c mk lane a.s with
      | .past s => { a with s := s, finished := a.finished ||| bitW lane }
      | .waiting s => { a with s := s, waiting := true }
      | .delivery s => { a with s := s, refused := true }
      | .abandoned s => { a with s := s, abandoned := true }
      | .fault k d => { a with fault := a.fault.orElse (fun _ => some (lane, k, d)) })
    { s := s, finished := done, waiting := false, refused := false, abandoned := false, fault := none }

/-- Lanes a gang's step has dealt with. -/
def Ctx.doneLanes (c : Ctx) : Word :=
  match c.G.pend with
  | .delivery m => m
  | _ => 0

/-- The lanes of a step that have neither finished nor been sent. -/
def freshLanes (c : Ctx) (s : State) (l : List LaneAddr) : List LaneAddr :=
  l.filter (fun e => !c.doneLanes.getLsbD e.1 && !s.stepOut c.w e.1 && (s.capOf c.w e.1).reply.isNone)

/-- How the lanes of a step go on: `more` where others of the instruction are still to be dealt with. -/
def goSteps (c : Ctx) (mk : Nat → CapStep) (l : List LaneAddr) (more : Bool) (s : State) : Res :=
  let a := stepLanes c mk (l.map (·.1)) c.doneLanes s
  if a.abandoned then .jump a.s
  else if a.waiting ∨ (more = true ∧ a.fault.isNone) then .wait (a.s.waitWith c (.delivery a.finished))
  else
  match a.fault with
  | some (lane, k, d) =>
    .trap (a.s.endFar (.gang c.w c.G.slices)) (laneTrap k d (a.finished ||| c.redone) (l.filter (fun e => e.1 == lane)))
  | none =>
  if a.refused then .wait ((a.s.waitWith c (.delivery a.finished)).park c.w false)
  else .done a.s

/-- A step of a body: an access of the lanes in a capsule, committed at the page's home, after a release of the gang (R185, R254,
R257). A fault at issue is taken before any lane's step is sent; of lanes on an ordered page those below the lowest faulting one
are dealt with first, and the trap names as completed the lanes whose steps were accepted (R156). Steps on an ordered page wait for
the core's earlier accesses to ordered pages (R155). -/
def capStep (c : Ctx) (s : State) (acc : Acc) (size : Nat) (l : List LaneAddr) (mk : Nat → CapStep) : Res :=
  let fresh := freshLanes c s l
  let begun := c.doneLanes ≠ 0 ∨ fresh.length < l.length
  match (if begun then none else bodyAccess c s true size l) with
  | some cause => violation c s cause
  | none =>
    match issueFault s c false size size fresh with
    | some t => .trap s t
    | none =>
      let rs := fresh.map (fun e => (e, laneAccess s c acc size e.2))
      if begun = false ∧ fresh.any (fun e => s.onOrdered c.W.ctx e.2) = true ∧ s.orderedBusy c = true then .wait (s.waitAt c)
      else if rs.any (fun e => match e.2 with
          | .stall _ => true
          | .hold _ => true
          | _ => false) then
        .wait ((s.askFor c rs).waitWith c (if begun then .delivery c.doneLanes else .page))
      else
        match rs.filter (fun e => match e.2 with
          | .fault _ _ => true
          | _ => false) with
        | [] => afterRelease c s (goSteps c mk l false)
        | b :: r =>
          let first := l.filter (fun e => !c.doneLanes.getLsbD e.1 && (match rs.find? (fun x => x.1.1 == e.1) with
            | some x => x.2.ordered && decide (e.1 < b.1.1)
            | none => true))
          if first.isEmpty then
            let (k, d) := match b.2 with
              | .fault k d => (k, d)
              | _ => (6, 1)
            .trap s (laneTrap k d (c.doneLanes ||| c.redone) ((b :: r).map (·.1)))
          else afterRelease c s (goSteps c mk first true)

/-- The step a lane sends (R254). -/
def mkStep (c : Ctx) (s : State) (key : Nat → Nat) (bytes : Nat → List Byte)
    (atom : Nat → Option (Nat × Nat × DWord × DWord × Option Nat)) (lane : Nat) : CapStep :=
  let x := c.W.cap lane
  { warp := c.w, lane := lane, record := (s.recordKey c.W.ctx x.record).getD 0, token := x.token, expect := x.step,
    key := key lane, bytes := bytes lane, atom := atom lane, regs := c.W.kregs x.kbase lane,
    resume := BitVec.ofNat 32 (resumeWord ((c.W.pcOf c.G + 4 - x.entry).toNat / 4) x.kbase (c.W.preds lane)) }

/-- A step may reach its home: those of the gang's lower lanes have, the stores that come before it can be registered first, and its
granule is not being moved (R157, R182, R254, R311). -/
def State.mayCommit (s : State) (W : Warp) (p : CapStep) : Bool :=
  let party : Party := { core := W.core, w := p.warp, slices := 1#8 <<< (p.lane / 4) }
  let mine (l : Nat) : Bool := match W.gangAt (p.lane / 4) with
    | some g => g.slices.getLsbD (l / 4)
    | none => false
  !s.steps.any (fun e => e.2.warp == p.warp && decide (e.2.lane < p.lane) && mine e.2.lane) &&
    s.mayDrain party (homeOf (s.ctxStand W.ctx) p.key) p.key p.bytes.length s.nextId &&
    !(spaceOf p.key == 0 && s.held.contains (addrOf p.key / 4096))

/-- CAPSULE_STEP_COMMIT: a step reaches its record's home and is applied with its checkpoint, or refused (R254). -/
def commitStep (w lane : Nat) (s : State) : State :=
  match s.steps.find? (fun e => e.2.warp == w && e.2.lane == lane) with
  | none => s
  | some (id, p) =>
    let s0 := { s with steps := sdel s.steps id }
    match sget s.warps w with
    | none => s0
    | some W =>
      let k := p.record
      let r : RecPlace := { ctx := W.ctx, va := (W.cap lane).record, key := k }
      if s.mayCommit W p = false then s
      else
      let st := s.capState k
      let owner := s.num (k + 4) 4
      let adopter := s.num (k + 0x60) 4
      let mine := (decide (st = 1) && decide (owner = p.token.toNat)) || (decide (st = 3) && decide (adopter = p.token.toNat))
      if mine ∧ s.num (k + 2) 1 = p.expect then
        let s1 := s0.atHome { core := W.core, w := w, slices := 1#8 <<< (lane / 4) } (s0.ctxStand W.ctx) p.key p.bytes.length
        let old := s1.num p.key p.bytes.length
        let (bytes, regs, dest) := match p.atom with
          | none => (p.bytes, p.regs, none)
          | some (fn, t, b, n, d) =>
            (bytesOf p.bytes.length (atomNew fn t old b.toNat n.toNat),
             match d with
             | some r => if p.bytes.length = 8 then (p.regs.set r (BitVec.ofNat 32 old)).set (r + 1) (BitVec.ofNat 32 (old / 2 ^ 32))
               else p.regs.set r (BitVec.ofNat 32 old)
             | none => p.regs, d)
        let cells := bytes.zipIdx.map (fun (e : Byte × Nat) => (p.key + e.2, e.1))
        let s2 := (({ s1 with poison := clearPoison s1.poison p.key bytes.length } : State).homeWriteBy W.core (ctxFn W.ctx) cells).ship
          W.ctx r.va cells
        let s3 := ((s2.putCheckpoint r regs).recPut r 0x0C 4 p.resume.toNat).recPut r 2 1 (p.expect + 1)
        let s4 := if st = 1 then { s3 with holders := smod s3.holders k (fun h => { h with own := h.own + 1 }) } else s3
        s4.modWarp w (fun W =>
          let W1 := W.modCap lane (fun y => { y with step := y.step + 1, own := y.own + 1, reply := some true })
          match dest with
          | some _ => W1.putRegs (W.cap lane).kbase lane regs
          | none => W1)
      else s0.modWarp w (fun W => W.modCap lane (fun y => { y with reply := some false }))

/-- CAPSULE_STEP_COMMIT. -/
def execCapsuleStepCommit (w lane : Nat) (s : State) : Out := event (commitStep w lane) s

/-! ### Ending (R258), adopted ends (R256) -/

/-- Step 5 of R256: an adopted run's end writes the checkpoint and the status and sends the delivery. -/
def State.adoptedEnd (s : State) (c : Ctx) (lane k : Nat) (abort : Bool) : State :=
  let x := s.capOf c.w lane
  let p : RecPlace := { ctx := c.W.ctx, va := x.record, key := k }
  let regs := c.W.kregs x.kbase lane
  let word := s.num k 2 * 2 ^ 16 + s.holderSteps k * 2 ^ 8 + (if abort then 4 else 2)
  let off := (c.W.pcOf c.G - x.entry).toNat / 4 + 1
  let s1 := (s.putCheckpoint p regs).recPut p 0x0C 4 (resumeWord off x.kbase (c.W.preds lane))
  let s2 := s1.recPut p 0x58 4 word
  let d : Delivery := { record := k, ctx := c.W.ctx, va := x.record, holder := sget s.holders k, regs := regs, preds := c.W.preds lane,
                        status := BitVec.ofNat 32 word, acked := false, frees := true }
  { s2 with deliveries := sput s2.deliveries s2.nextId d, nextId := s2.nextId + 1 }

/-- One lane of CAPEND or CAPABORT (R258): one whose adopted mark is set sends nothing; the others reach the record's home, for whose
absent host page they wait (R154, R257). -/
def endLane (c : Ctx) (abort : Bool) (lane : Nat) (s : State) : Commit :=
  let x := s.capOf c.w lane
  if (x.adopting ∨ x.result.isSome) ∧ c.settled s lane = false then .waiting s
  else if x.adopting = false ∧ x.result.isSome then .past (s.detachLane c lane true (deliveredWord x))
  else
  match s.xlateFor c.W.ctx c.W.core (some c.w) (vaOf x.record) .both with
  | .stall p => .waiting (s.askHost (c.tag p (bitW lane) x.record))
  | .trap k d => .fault k d
  | .go k _ =>
    let op := EngineOp.gang c.w c.G.slices
    match s.far op k 128 with
    | .ask part => .waiting (s.askFar op c.W.ctx x.record part)
    | .coming => .waiting s
    | .refused cls d => .fault cls d
    | .here =>
    let s := s.endFar op
    let p : RecPlace := { ctx := c.W.ctx, va := x.record, key := k }
    if x.adopting then
      if s.capState k = 3 ∧ s.num (k + 0x60) 4 = x.token.toNat then
        .abandoned ((s.adoptedEnd c lane k abort).abandon c)
      else .abandoned (s.abandon c)
    else if s.capState k = 1 ∧ s.num (k + 4) 4 = x.token.toNat then
      let word := s.num k 2 * 2 ^ 16 + x.own * 2 ^ 8 + (if abort then 3 else 1)
      let s1 := (s.recPut p 0x58 4 word).freeRecord p
      if abort then
        if c.settled s lane then .past (s1.detachLane c lane false (BitVec.ofNat 32 word)) else .waiting s
      else
        .past (s1.modWarp c.w (fun W => W.modCap lane (fun y =>
          { y with inside := false, last := BitVec.ofNat 32 word, reply := none })))
    else .delivery s

/-- The lanes of an end, ascending. -/
def endLanes (c : Ctx) (abort : Bool) (lanes : List Nat) (done : Word) (s : State) : StepSum :=
  lanes.foldl (fun a lane =>
    if a.abandoned ∨ a.finished.getLsbD lane = true then a
    else
      match endLane c abort lane a.s with
      | .past s => { a with s := s, finished := a.finished ||| bitW lane }
      | .waiting s => { a with s := s, waiting := true }
      | .delivery s => { a with s := s, refused := true }
      | .abandoned s => { a with s := s, abandoned := true }
      | .fault k d => { a with fault := a.fault.orElse (fun _ => some (lane, k, d)) })
    { s := s, finished := done, waiting := false, refused := false, abandoned := false, fault := none }

/-- After CAPEND the slices' detached lanes rejoin (R258). -/
def State.rejoin (s : State) (c : Ctx) : State :=
  s.modWarp c.w (fun W => W.modSlices c.G.slices (fun _ x => { x with active := x.active ||| x.detached, detached := 0 }))

/-- CAPEND and CAPABORT (R258). -/
def capEnd (abort : Bool) (c : Ctx) (s : State) : Res :=
  let lanes := c.capLanes
  let out := (slicesOf c.G.slices).any (fun j => !((c.W.slice j).detached == 0))
  if lanes.isEmpty ∧ out = false ∧ c.doneLanes = 0 then .trap s (Trap.of 0x15 7)
  else
    afterRelease c s (fun s =>
      let a := endLanes c abort lanes c.doneLanes s
      if a.abandoned then .jump a.s
      else if a.waiting then .wait (a.s.waitWith c (.delivery a.finished))
      else
      match a.fault with
      | some (lane, k, d) => .trap (a.s.endFar (.gang c.w c.G.slices)) (laneTrap k d a.finished [(lane, (s.capOf c.w lane).record)])
      | none =>
      if a.refused then .wait ((a.s.waitWith c (.delivery a.finished)).park c.w false)
      else .done (if abort then a.s else a.s.rejoin c))

/-- CAPEND. -/
def execCapend (s : State) : Out := issue (fun _ => { Sig.plain with body := .free }) (capEnd false) s

/-- CAPABORT. -/
def execCapabort (s : State) : Out := issue (fun _ => { Sig.plain with body := .free }) (capEnd true) s

/-- CAPRES (R260). -/
def execCapres (x : BitVec 7) (s : State) : Out :=
  issue (fun _ => { Sig.plain with dsts := [.v x.toNat 1] })
    (fun c s => longVec c s x.toNat 1 0 .other (fun _ lane => (c.W.cap lane).last)) s

/-! ### Away, back, delivery (R255, R257) -/

/-- Marks a lane's record between two STATEs where its token matches (R255). -/
def State.markCap (s : State) (W : Warp) (lane held away : Nat) (toAway : Bool) : State :=
  let x := W.cap lane
  if x.inside = false then s
  else
    match s.recordKey W.ctx x.record with
    | none => s
    | some k =>
      let tok := if x.adopting then s.num (k + 0x60) 4 else s.num (k + 4) 4
      let (src, dst) := if toAway then (held, away) else (away, held)
      if s.capState k = src ∧ tok = x.token.toNat then
        (s.recPut { ctx := W.ctx, va := x.record, key := k } 3 1 dst).wakeCapsules
      else s

/-- Marks every record of a warp's lanes. -/
def State.markCaps (s : State) (W : Warp) (toAway : Bool) : State :=
  (List.range 32).foldl (fun s lane =>
    if (W.cap lane).adopting then s.markCap W lane 3 4 toAway else s.markCap W lane 1 2 toAway) s

/-- What a warp's away and back messages still wait for: the first of its lanes' records whose host page is absent is asked for, and one
that another device holds is read; none where all can be marked (R154, R255, R322). -/
def State.capWait (s : State) (w : Nat) (W : Warp) : Option State :=
  (List.range 32).findSome? (fun lane =>
    let x := W.cap lane
    if x.inside = false then none
    else
      match s.xlateFor W.ctx W.core (some w) (vaOf x.record) .both with
      | .stall p =>
        some (s.askHost { ctx := W.ctx, core := W.core, warp := some w, page := p, lanes := bitW lane, va := x.record })
      | .go k _ => (match s.far (.capsules w) k 128 with
        | .ask part => some (s.askFar (.capsules w) W.ctx x.record part)
        | .coming => some s
        | _ => none)
      | .trap _ _ => none)

/-- AWAY: a parked, saved or fault-ended warp's away messages reach the home slices, once every step its lanes have sent
has its reply, and every host page of their records is there (R154, R255). -/
def sendAway (w : Nat) (s : State) : State :=
  match sget s.warps w with
  | none => s
  | some W =>
    if W.away = 1 ∧ s.engineRuns W.ctx ∧ s.steps.any (fun e => decide (e.2.warp = w)) = false then
      match s.capWait w W with
      | some t => t
      | none => ((s.markCaps W true).endFar (.capsules w)).modWarp w (fun W => { W with away := 2 })
    else s

/-- AWAY. -/
def execAway (w : Nat) (s : State) : Out := event (sendAway w) s

/-- BACK: a resident warp's back messages return the records still away under its token (R255). -/
def sendBack (w : Nat) (s : State) : State :=
  match sget s.warps w with
  | none => s
  | some W =>
    if W.residency = .resident ∧ W.ended = false ∧ W.away = 2 then
      match s.capWait w W with
      | some t => t
      | none => ((s.markCaps W false).endFar (.capsules w)).modWarp w (fun W => { W with away := 0 })
    else s

/-- BACK. -/
def execBack (w : Nat) (s : State) : Out := event (sendBack w) s

/-- The lane of a live warp that holds a record in the take given (R251, R257). -/
def State.holderLane (s : State) (h : Holder) : Option (Nat × Nat) :=
  match sget s.warps h.warp with
  | some W => if W.ended = false ∧ (W.cap h.lane).seq = h.seq then some (h.warp, h.lane) else none
  | none => none

/-- DELIVERY: an adopted run's result reaches the holder's slot; to an ended warp it is discarded (R257). -/
def deliver (id : Nat) (s : State) : State :=
  match sget s.deliveries id with
  | none => s
  | some d =>
    let s1 := { s with deliveries := sput s.deliveries id { d with acked := true } }
    match d.holder.bind s.holderLane with
    | none => s1
    | some (w, lane) =>
      (s1.modWarp w (fun W => W.modCap lane (fun x => { x with result := some (d.regs, d.preds, d.status) }))).wakeCapsules

/-- DELIVERY. -/
def execDelivery (id : Nat) (s : State) : Out := event (deliver id) s

/-- DELIVERY_ACKNOWLEDGEMENT: the lock word is freed and contenders are woken (R256). -/
def acknowledge (id : Nat) (s : State) : State :=
  match sget s.deliveries id with
  | none => s
  | some d =>
    if d.acked = false ∨ s.engineRuns d.ctx = false then s
    else
      let s1 := { s with deliveries := sdel s.deliveries id }
      if d.frees then s1.freeRecord { ctx := d.ctx, va := d.va, key := d.record } else s1

/-- DELIVERY_ACKNOWLEDGEMENT. -/
def execDeliveryAcknowledgement (id : Nat) (s : State) : Out := event (acknowledge id) s

end Sys2Proof.Machine
end

