-- ==== Sys2Proof/Machine/Block.lean ====
section
/-! DEFINITION. The block formats: Palush PL3, PL5, PL8, AL16 and sign-magnitude INT8, their packed and plane layouts, and
encoding into them (05_numbers R85 to R90, 11_isa_memory R171, R177, 09_isa_vector R146, R147). Formats are named by their
TYPE codes: 16 .pl3, 17 .pl5, 18 .pl8, 19 .al16, 6 .i8. -/

namespace Sys2Proof.Machine

/-- Magnitude bits of a block format (R85, R90, R171). -/
def magBits (fmt : Nat) : Nat :=
  match fmt with
  | 16 => 2
  | 17 => 4
  | 18 => 7
  | 19 => 15
  | _ => 8

/-- A Palush format. -/
def isPalush (fmt : Nat) : Bool := fmt == 16 || fmt == 17 || fmt == 18

/-- Bytes of a Palush block (R85). -/
def palushBytes (fmt : Nat) : Nat := 4 + 4 * (1 + magBits fmt)

/-- A row of elements as fields: sign and magnitude of each, and micro bits and exponent of each group of 16. -/
structure RawRow where
  /-- Sign and magnitude. -/
  fields : List (Bool × Nat)
  /-- Micro bits and exponent. -/
  groups : List (Nat × Nat)
deriving DecidableEq, Repr

/-- A bit of a list of bytes. -/
def bitOf (l : List Byte) (i : Nat) : Bool := ((l[i / 8]?).getD 0).getLsbD (i % 8)

/-- `n` bits of a list of bytes from bit `i` up. -/
def bitsOf (l : List Byte) (i n : Nat) : Nat := (List.range n).foldl (fun a j => if bitOf l (i + j) then a + 2 ^ j else a) 0

/-- A little-endian number of `n` bytes at an offset. -/
def numAt (l : List Byte) (off n : Nat) : Nat := numOf ((l.drop off).take n)

/-- Bytes from bits, the first lowest. -/
def packBits : Nat → List Bool → List Byte
  | 0, _ => []
  | n + 1, l =>
    BitVec.ofNat 8 (((l.take 8).zipIdx).foldl (fun a e => if e.1 then a + 2 ^ e.2 else a) 0) :: packBits n (l.drop 8)

/-- The bits of a field, magnitude low, sign on top (R85). -/
def fieldBits (m : Nat) (x : Bool × Nat) : List Bool := (List.range m).map x.2.testBit ++ [x.1]

/-- Reads the packed memory layout of `k` elements (R85, R88, R90). -/
def RawRow.ofPacked (fmt k : Nat) (l : List Byte) : RawRow :=
  let m := magBits fmt
  if isPalush fmt then
    let bb := palushBytes fmt
    { fields := (List.range k).map (fun i =>
        let p := 8 * (i / 32 * bb) + i % 32 * (1 + m)
        (bitOf l (p + m), bitsOf l p m))
      groups := (List.range (k / 16)).map (fun g =>
        let t := g / 2 * bb + bb - 4
        (numAt l (t + g % 2) 1, numAt l (t + 2 + g % 2) 1)) }
  else if fmt = 19 then
    { fields := (List.range k).map (fun i =>
        let h := numAt l (i / 16 * 34 + 2 * (i % 16)) 2
        (h.testBit 15, h % 2 ^ 15))
      groups := (List.range (k / 16)).map (fun g => (0, numAt l (g * 34 + 32) 1)) }
  else
    { fields := (List.range k).map (fun i =>
        let b := ((l[i]?).getD 0).toInt
        (decide (b < 0), b.natAbs))
      groups := [] }

/-- Writes the packed memory layout (R85, R88, R90). -/
def RawRow.toPacked (fmt : Nat) (r : RawRow) : List Byte :=
  let m := magBits fmt
  let k := r.fields.length
  let grp (g : Nat) : Nat × Nat := (r.groups[g]?).getD (0, 0)
  if isPalush fmt then
    (List.range (k / 32)).flatMap (fun b =>
      packBits (4 * (1 + m)) (((r.fields.drop (32 * b)).take 32).flatMap (fieldBits m)) ++
        [BitVec.ofNat 8 (grp (2 * b)).1, BitVec.ofNat 8 (grp (2 * b + 1)).1, BitVec.ofNat 8 (grp (2 * b)).2,
          BitVec.ofNat 8 (grp (2 * b + 1)).2])
  else if fmt = 19 then
    (List.range (k / 16)).flatMap (fun g =>
      ((r.fields.drop (16 * g)).take 16).flatMap (fun x => bytesOf 2 (x.2 + if x.1 then 2 ^ 15 else 0)) ++
        [BitVec.ofNat 8 (grp g).2, 0])
  else r.fields.map (fun x => BitVec.ofInt 8 (if x.1 then -(x.2 : Int) else x.2))

/-- Reads a plane-form row (R171). -/
def RawRow.ofPlanes (fmt k : Nat) (l : List Byte) : RawRow :=
  let m := magBits fmt
  { fields := (List.range k).map (fun i =>
      (bitOf l i, (List.range m).foldl (fun a j => if bitOf l ((m - j) * k + i) then a + 2 ^ j else a) 0))
    groups := if fmt = 6 then [] else (List.range (k / 16)).map (fun g =>
      let t := (1 + m) * k / 8 + 2 * g
      (numAt l t 1, numAt l (t + 1) 1)) }

/-- A number of bytes rounded up to 16. -/
def ceil16 (x : Nat) : Nat := ceilTo 16 x

/-- Bits of an element of an IEEE or integer format, by TYPE code (R60, R73). -/
def elementBits (fmt : Nat) : Nat :=
  match fmt with
  | 2 => 64
  | 3 => 64
  | 4 => 16
  | 5 => 16
  | 6 => 8
  | 7 => 8
  | 9 => 16
  | 10 => 16
  | 11 => 8
  | 12 => 8
  | 13 => 4
  | 14 => 64
  | _ => 32

/-- Bytes of a memory row of `k` elements (R176, R177). -/
def memRowBytes (fmt k : Nat) : Nat :=
  if isPalush fmt then k / 32 * palushBytes fmt
  else if fmt = 19 then k / 16 * 34
  else k * elementBits fmt / 8

/-- Row bytes of a tile (R171). -/
def rowBytes (fmt : Nat) (plane : Bool) (k : Nat) : Nat :=
  if plane then
    if fmt = 6 then ceil16 (9 * k / 8) else ceil16 ((1 + magBits fmt) * k / 8 + 2 * k / 16)
  else ceil16 (memRowBytes fmt k)

/-- Writes a plane-form row, its padding zero (R171). -/
def RawRow.toPlanes (fmt : Nat) (r : RawRow) : List Byte :=
  let m := magBits fmt
  let k := r.fields.length
  let planes := packBits (k / 8) (r.fields.map (·.1)) ++
    (List.range m).flatMap (fun p => packBits (k / 8) (r.fields.map (fun x => x.2.testBit (m - 1 - p))))
  let all := planes ++ r.groups.flatMap (fun g => [BitVec.ofNat 8 g.1, BitVec.ofNat 8 g.2])
  all ++ List.replicate (rowBytes fmt true k - all.length) 0

/-! ### Encoding a group (R87, R89, R146) -/

/-- The magnitude of a finite value scaled by 2^k and rounded as a signed value: magnitude and inexactness (R87). -/
def roundScaled (mode : Nat) (v : FVal) (k : Int) : Nat × Bool :=
  match v with
  | .fin n m e => roundAt mode n m (e + k) false 0
  | _ => (0, false)

/-- The value of larger magnitude; the first on a tie. -/
def larger (a b : FVal) : FVal :=
  match a, b with
  | .fin _ m e, .fin _ n g => if magGe m e n g then a else b
  | _, _ => a

/-- The group exponent of R87 step 3, before its limits, from the value of largest magnitude. -/
def groupExp (m mode : Nat) (a : FVal) : Int :=
  match a with
  | .fin _ n e =>
    let top : Int := e + bitLen n - 1
    let r := (roundScaled mode a ((m : Int) - 1 - top)).1
    top + 127 + (if r = 2 ^ m then 1 else 0)
  | _ => 0

/-- A group in which some value is a NaN or an infinity (R87 step 1). -/
def groupBad (l : List FVal) : Bool := l.any (fun v => match v with
  | .fin _ _ _ => false
  | _ => true)

/-- Encodes 16 values: fields, micro bits, exponent, flags. `micro` is false for AL16, whose elements share one exponent
(R87, R89, R146). A field that rounds to 2^m is written as 2^m - 1 with SAT and NX (assumption 81), and the halfwords of an AL16
NaN group are 0 (assumption 82). -/
def encodeGroup (m : Nat) (micro : Bool) (mode : Nat) (l : List FVal) : List (Bool × Nat) × (Nat × Nat) × Word :=
  if groupBad l then
    let inv := l.any (fun v => match v with
      | .inf _ => true
      | .nan s => s
      | .fin _ _ _ => false)
    (l.map (fun _ => (false, 0)), (0, 0xFF), flagIf inv fNV)
  else if l.all FVal.isZero then (l.map (fun _ => (false, 0)), (0, 0), 0)
  else
    let a := l.foldl larger (.fin false 0 0)
    let e0 := groupExp m mode a
    let e : Int := if 0xFE < e0 then 0xFE else if e0 < 0 then 0 else e0
    let pair (j : Nat) : FVal := larger ((l[2 * j]?).getD (.fin false 0 0)) ((l[2 * j + 1]?).getD (.fin false 0 0))
    let u (j : Nat) : Nat := if micro && decide ((roundScaled mode (pair j) ((m : Int) - (e - 127))).1 ≤ 2 ^ m - 1) then 1 else 0
    let els := l.zipIdx.map (fun x =>
      let r := roundScaled mode x.1 ((m : Int) - 1 + u (x.2 / 2) - (e - 127))
      (x.1.neg, r.1, r.2))
    let big := els.any (fun x => decide (2 ^ m - 1 < x.2.1))
    let flags := flagIf (els.any (fun x => x.2.2)) fNX ||| flagIf big (fSAT ||| fNX)
    (els.map (fun x => let k := min x.2.1 (2 ^ m - 1); (x.1 && decide (k ≠ 0), k)),
     ((List.range 8).foldl (fun acc j => acc + u j * 2 ^ j) 0, e.toNat), flags)

/-- Encodes a row of values, group by group, `n` groups. -/
def encodeRow (fmt mode : Nat) : Nat → List FVal → RawRow × Word
  | 0, _ => ({ fields := [], groups := [] }, 0)
  | n + 1, l =>
    let (f, g, w) := encodeGroup (magBits fmt) (isPalush fmt) mode (l.take 16)
    let (r, w2) := encodeRow fmt mode n (l.drop 16)
    ({ fields := f ++ r.fields, groups := g :: r.groups }, w ||| w2)

/-- The value of element `i` of a row (R86, R88). -/
def RawRow.value (fmt : Nat) (r : RawRow) (i : Nat) : FVal :=
  let (n, k) := (r.fields[i]?).getD (false, 0)
  let (micro, e) := (r.groups[i / 16]?).getD (0, 0)
  if e = 0xFF then .nan false
  else if k = 0 then .fin false 0 0
  else
    let u := if isPalush fmt ∧ micro.testBit (i % 16 / 2) then 1 else 0
    .fin n k ((e : Int) - 127 - (u : Nat) - (magBits fmt - 1 : Nat))

/-- Words of a block of 32 elements (R146). -/
def blockWords (fmt : Nat) : Nat :=
  match fmt with
  | 16 => 4
  | 17 => 6
  | 18 => 9
  | _ => 17

/-! ### Copy conversions (R177) -/

/-- The floating format of a TYPE code. -/
def fmtOf (t : Nat) : Fmt :=
  match t with
  | 9 => f16
  | 10 => bf16
  | 11 => e4m3
  | 12 => e5m2
  | 13 => e2m1
  | 14 => f64
  | _ => f32

/-- A pair of formats a fill may convert (R177). -/
def fillLegal (mem fmt : Nat) (plane : Bool) : Bool :=
  (mem == fmt && !plane) || (mem == fmt && plane && (isPalush fmt || fmt == 19 || fmt == 6)) ||
    (fmt == 19 && [9, 10, 11, 12].contains mem) || (isPalush fmt && [8, 9, 10, 11, 12].contains mem)

/-- A pair of formats a drain may convert (R177). -/
def drainLegal (mem fmt : Nat) (plane : Bool) : Bool :=
  (mem == fmt && !plane) || (mem == fmt && plane && (isPalush fmt || fmt == 19 || fmt == 6)) ||
    (fmt == 8 && !plane && (mem == 9 || mem == 10))

/-- The values of a memory row of an IEEE format. -/
def rowValues (fmt k : Nat) (l : List Byte) : List FVal :=
  let n := elementBits fmt
  (List.range k).map (fun i => (fmtOf fmt).read (bitsOf l (n * i) n))

/-- Lays out a row of a block format in a tile's form. -/
def RawRow.layout (fmt : Nat) (plane : Bool) (r : RawRow) : List Byte := if plane then r.toPlanes fmt else r.toPacked fmt

/-- The tile row a memory row becomes, and its flags (R177). -/
def fillRow (mem fmt : Nat) (plane : Bool) (k : Nat) (l : List Byte) : List Byte × Word :=
  if mem = fmt then
    if plane then ((RawRow.ofPacked fmt k l).toPlanes fmt, 0) else (l, 0)
  else
    let (r, w) := encodeRow fmt 0 (k / 16) (rowValues mem k l)
    (r.layout fmt plane, w)

/-- The memory row a tile row becomes, and its flags (R177). -/
def drainRow (mem fmt : Nat) (plane : Bool) (k : Nat) (l : List Byte) : List Byte × Word :=
  if mem = fmt then
    if plane then ((RawRow.ofPlanes fmt k l).toPacked fmt, 0) else (l.take (memRowBytes fmt k), 0)
  else
    (rowValues 8 k l).foldl (fun a v =>
      let (x, w) := match v with
        | .nan s => ((fmtOf mem).nan, flagIf s fNV)
        | .inf n => ((fmtOf mem).inf n, 0)
        | .fin n m e => (fmtOf mem).round .rne n m e false
      (a.1 ++ bytesOf 2 x, a.2 ||| w)) ([], 0)

end Sys2Proof.Machine
end

