-- ==== Sys2Proof/Machine/LoadStore.lean ====
section
/-! DEFINITION. Loads, stores and atomics: LD, ST, LDS, STS, LDX, ATOM, RED, ATOMQ (11_isa_memory R152 to R164), and
their form in a capsule body (19_capsule R253, R254). -/

namespace Sys2Proof.Machine

/-! ### Addresses and operands -/

/-- Address of a lane from a vector pair and an offset (R152). -/
def addrV (c : Ctx) (a : Nat) (off : Int) (lane : Nat) : DWord := c.W.vget2 a lane + BitVec.ofInt 64 off

/-- Address of a lane from a scalar pair, an offset and the lane's place (R152). -/
def addrS (c : Ctx) (s : State) (a : Nat) (off : Int) (size lane : Nat) : DWord :=
  c.sread2 s a + BitVec.ofInt 64 off + BitVec.ofNat 64 (lane * size)

/-- The active lanes with their addresses, ascending. -/
def laneAddrs (c : Ctx) (f : Nat → DWord) : List LaneAddr := (lanesOf c.act).map (fun l => (l, f l))

/-- Registers of a width code (R45). -/
def widthOf (w : BitVec 2) : Nat := 2 ^ w.toNat

/-- A lane is in a capsule whose body its gang runs. -/
def Ctx.inCapsule (c : Ctx) (lane : Nat) : Bool := (c.W.cap lane).inside && !c.W.inHandler c.j

/-! ### Loads -/

/-- Reads one lane's bytes; a lane in a capsule reads at the page's home (R254). -/
def readLane (c : Ctx) (s : State) (lane : Nat) (l : List Loc) : List Byte × State :=
  if c.inCapsule lane then
    match keyOfLocs l with
    | some key =>
      let s1 := s.atHome c.party (s.ctxStand c.W.ctx) key l.length
      (s1.bytes key l.length, s1)
    | none => ([], s)
  else readLocs c s l

/-- Reads the bytes of some lanes. -/
def readLanes (c : Ctx) (s : State) (l : List (Nat × List Loc)) : List (Nat × List Byte) × State :=
  l.foldl (fun a e => let r := readLane c a.2 e.1 e.2; (a.1 ++ [(e.1, r.1)], r.2)) ([], s)

/-- The bytes of a lane among those read. -/
def laneBytes (vs : List (Nat × List Byte)) (lane : Nat) : List Byte := (sget vs lane).getD []

/-- A load of the active lanes: `val` makes register `i` of the destination from the bytes, as the form of `Asker` says
(R58, R159, R160). -/
def loadLanes (c : Ctx) (s : State) (size align d n form : Nat) (l : List LaneAddr) (val : List Byte → Nat → Word) : Res :=
  match bodyAccess c s false size l with
  | some cause => violation c s cause
  | none =>
    if (l.filter (fun e => c.inCapsule e.1)).any (fun e => match s.hwKey c.W.ctx e.2 .hard with
        | some k => !s.homeFree c k size
        | none => false) then .wait s
    else
    accessLanes false c s .read true size align l (askLoad size d n form)
      (fun s good =>
        let r := readLanes c s good
        r.2.modWarp c.w (fun W => r.1.foldl (fun (W : Warp) e =>
          (List.range n).foldl (fun (W : Warp) i => W.vput (d + i) e.1 (val e.2 i)) W) W))
      (fun s good =>
        let r := readLanes c s good
        longVec c r.2 d n 0 .memory (fun i lane => val (laneBytes r.1 lane) i))

/-- Word `i` of some bytes (R159). -/
def wordAtIndex (b : List Byte) (i : Nat) : Word := BitVec.ofNat 32 (numOf ((b.drop (4 * i)).take 4))

/-- A narrow value in a register (R160). -/
def narrow (signed : Bool) (b : List Byte) (_ : Nat) : Word := BitVec.ofInt 32 (readInt signed (8 * b.length) (numOf b))

/-- LD (R159). -/
def ldBody (n d a : Nat) (o : BitVec 8) (c : Ctx) (s : State) : Res :=
  loadLanes c s (4 * n) (4 * n) d n 0 (laneAddrs c (addrV c a (immInt o c.h.imms * (4 * n : Nat)))) wordAtIndex

/-- LDS (R159). -/
def ldsBody (n d a : Nat) (o : BitVec 8) (c : Ctx) (s : State) : Res :=
  loadLanes c s (4 * n) (4 * n) d n 0 (laneAddrs c (addrS c s a (immInt o c.h.imms * (4 * n : Nat)) (4 * n))) wordAtIndex

/-- The LDX ld forms (R160). -/
def ldxBody (size : Nat) (signed : Bool) (d a : Nat) (i : BitVec 7) (c : Ctx) (s : State) : Res :=
  loadLanes c s size size d 1 (if signed then 1 else 2) (laneAddrs c (addrV c a (immInt i c.h.imms * (size : Nat)))) (narrow signed)

/-- ldbc: one access, by the lowest active lane, for every active lane (R160). -/
def ldbcBody (d a : Nat) (i : BitVec 7) (c : Ctx) (s : State) : Res :=
  match lowestLane c.act with
  | none => .done s
  | some lane =>
    let l := [(lane, addrV c a (immInt i c.h.imms * 4) lane)]
    match bodyAccess c s false 4 l with
    | some cause => violation c s cause
    | none =>
      accessLanes false c s .read true 4 4 l (fun lane => { askLoad 4 d 1 0 lane with give := c.act }) (fun s _ => s)
        (fun s good =>
          let r := readLanes c s good
          longVec c r.2 d 1 0 .memory (fun _ _ => wordAtIndex (laneBytes r.1 lane) 0))

/-- Signature of a load from a vector pair. -/
def loadSig (g : BitVec 2) (d n a : Nat) (_ : HintSet) : Sig :=
  { Sig.plain with
    g := some g, guard := true, srcs := [(.v a 2, some 0)], dsts := [.v d n], imms := 2, cache := true, body := .vec }

/-- Signature of a store to a vector pair's address. -/
def storeSig (g : BitVec 2) (d n a : Nat) (_ : HintSet) : Sig :=
  { Sig.plain with
    g := some g, guard := true, srcs := [(.v a 2, some 0), (.v d n, some 2)], imms := 2, cache := true, body := .vec }

/-- LD. -/
def execLd (w g : BitVec 2) (d a : BitVec 7) (o : BitVec 8) (s : State) : Out :=
  issue (loadSig g d.toNat (widthOf w) a.toNat) (ldBody (widthOf w) d.toNat a.toNat o) s

/-- LDS. -/
def execLds (w g : BitVec 2) (d a : BitVec 7) (o : BitVec 8) (s : State) : Out :=
  issue (fun _ =>
    { Sig.plain with
      g := some g, guard := true, srcs := [(.s a.toNat 2, some 0)], dsts := [.v d.toNat (widthOf w)], imms := 2, cache := true })
    (ldsBody (widthOf w) d.toNat a.toNat o) s

/-- LDX ld8. -/
def execLd8 (g : BitVec 2) (d a i : BitVec 7) (s : State) : Out :=
  issue (loadSig g d.toNat 1 a.toNat) (ldxBody 1 true d.toNat a.toNat i) s

/-- LDX ld8n. -/
def execLd8n (g : BitVec 2) (d a i : BitVec 7) (s : State) : Out :=
  issue (loadSig g d.toNat 1 a.toNat) (ldxBody 1 false d.toNat a.toNat i) s

/-- LDX ld16. -/
def execLd16 (g : BitVec 2) (d a i : BitVec 7) (s : State) : Out :=
  issue (loadSig g d.toNat 1 a.toNat) (ldxBody 2 true d.toNat a.toNat i) s

/-- LDX ld16n. -/
def execLd16n (g : BitVec 2) (d a i : BitVec 7) (s : State) : Out :=
  issue (loadSig g d.toNat 1 a.toNat) (ldxBody 2 false d.toNat a.toNat i) s

/-- LDX ldbc. -/
def execLdbc (g : BitVec 2) (d a i : BitVec 7) (s : State) : Out :=
  issue (loadSig g d.toNat 1 a.toNat) (ldbcBody d.toNat a.toNat i) s

/-! ### Prefetch -/

/-- The key an address resolves to whatever its page permits (R153: pref needs nothing). -/
def State.prefKey (s : State) (ctx : Nat) (a : DWord) : Option Nat :=
  if canonical a = false ∨ inWindow a = true then none
  else
    match s.lookup ctx (vaOf a) with
    | none => none
    | some t =>
      match ({ s with tlb := { t with attr := t.attr ||| 1 } :: s.tlb } : State).xlate ctx (vaOf a) .read with
      | .go k false => some k
      | _ => none

/-- pref: the line is filled into the carve-out; what would fault drops the lane's prefetch (R160). -/
def prefBody (a : Nat) (i : BitVec 7) (c : Ctx) (s : State) : Res :=
  .done ((laneAddrs c (addrV c a (immInt i c.h.imms * 4))).foldl (fun s e =>
    match s.prefKey c.W.ctx e.2 with
    | some k => if s.poisoned (k / 128 * 128) 128 then s else s.fill c.W.core (k / 128 * 128) 128
    | none => s) s)

/-- LDX pref. -/
def execPref (g : BitVec 2) (a i : BitVec 7) (s : State) : Out :=
  issue (fun _ =>
    { Sig.plain with
      g := some g, guard := true, srcs := [(.v a.toNat 2, some 0)], imms := 2, cache := true, body := .vec })
    (prefBody a.toNat i) s

/-! ### Stores -/

/-- Lanes in a capsule make steps; the other lanes of the gang act plainly, first and once (R254). -/
def withBody (c : Ctx) (s : State) (size : Nat) (l : List LaneAddr) (plain : Ctx → State → List LaneAddr → Res)
    (step : Ctx → State → List LaneAddr → Res) : Res :=
  let inside := l.filter (fun e => c.inCapsule e.1)
  let out := l.filter (fun e => !c.inCapsule e.1)
  if inside.isEmpty then plain c s l
  else if out.isEmpty ∨ c.doneLanes ≠ 0 then step c s inside
  else
    match bodyAccess c s true size inside with
    | some cause => violation c s cause
    | none =>
      match plain { c with act := maskOf (out.map (·.1)) } s out with
      | .done t =>
        let m := maskOf (out.map (·.1)) ||| c.redone
        let pc := c.W.groupPc c.G
        step { c with G := { c.G with redo := some (pc, m) } }
          (t.modWarp c.w (fun W => W.modGang c.j (fun g => g.completeLanes pc m))) inside
      | r => r

/-- Stores of some lanes, in ascending order (R157). -/
def writeLanes (c : Ctx) (data : Nat → List Byte) (s : State) (l : List (Nat × List Loc)) : State :=
  l.foldl (fun s e => writeLocs c s (e.2.zip (data e.1))) s

/-- The key of a lane's access, in the capsule page. -/
def stepKey (c : Ctx) (s : State) (l : List LaneAddr) (lane : Nat) : Nat :=
  match l.find? (fun e => e.1 == lane) with
  | some e => (s.hwKey c.W.ctx e.2 .hard).getD 0
  | none => 0

/-- A store of the active lanes (R159, R160). -/
def storeLanes (c : Ctx) (s : State) (size : Nat) (l : List LaneAddr) (data : Nat → List Byte) : Res :=
  withBody c s size l
    (fun c s l => accessLanes false c s .write true size size l (askStore data) (writeLanes c data)
      (fun s good => .done (writeLanes c data s good)))
    (fun c s l => capStep c s Acc.write size l (mkStep c s (stepKey c s l) data (fun _ => none)))

/-- The bytes of a group's registers in a lane, the lowest register first (R159). -/
def groupBytes (c : Ctx) (d n lane : Nat) : List Byte := (List.range n).flatMap (fun i => bytesOf 4 (c.W.vget (d + i) lane).toNat)

/-- ST (R159). -/
def stBody (n d a : Nat) (o : BitVec 8) (c : Ctx) (s : State) : Res :=
  storeLanes c s (4 * n) (laneAddrs c (addrV c a (immInt o c.h.imms * (4 * n : Nat)))) (groupBytes c d n)

/-- STS (R159). -/
def stsBody (n d a : Nat) (o : BitVec 8) (c : Ctx) (s : State) : Res :=
  storeLanes c s (4 * n) (laneAddrs c (addrS c s a (immInt o c.h.imms * (4 * n : Nat)) (4 * n))) (groupBytes c d n)

/-- The LDX st forms (R160). -/
def stxBody (size d a : Nat) (i : BitVec 7) (c : Ctx) (s : State) : Res :=
  storeLanes c s size (laneAddrs c (addrV c a (immInt i c.h.imms * (size : Nat))))
    (fun lane => bytesOf size (c.W.vget d lane).toNat)

/-- ST. -/
def execSt (w g : BitVec 2) (d a : BitVec 7) (o : BitVec 8) (s : State) : Out :=
  issue (storeSig g d.toNat (widthOf w) a.toNat) (stBody (widthOf w) d.toNat a.toNat o) s

/-- STS. -/
def execSts (w g : BitVec 2) (d a : BitVec 7) (o : BitVec 8) (s : State) : Out :=
  issue (fun _ =>
    { Sig.plain with
      g := some g, guard := true, srcs := [(.s a.toNat 2, some 0), (.v d.toNat (widthOf w), some 2)], imms := 2,
      cache := true })
    (stsBody (widthOf w) d.toNat a.toNat o) s

/-- LDX st8. -/
def execSt8 (g : BitVec 2) (d a i : BitVec 7) (s : State) : Out :=
  issue (storeSig g d.toNat 1 a.toNat) (stxBody 1 d.toNat a.toNat i) s

/-- LDX st16. -/
def execSt16 (g : BitVec 2) (d a i : BitVec 7) (s : State) : Out :=
  issue (storeSig g d.toNat 1 a.toNat) (stxBody 2 d.toNat a.toNat i) s

/-! ### Atomics -/

/-- The TYPE code of a hint group, or a default. -/
def HintSet.typeOr (h : HintSet) (d : Nat) : Nat := h.type.getD d

/-- Registers of an atomic's operand. -/
def atomRegs (h : HintSet) : Nat := if typeWide (h.typeOr 0) then 2 else 1

/-- The new value a cas stores: c, or d unless a CREG hint supplies it (R62). -/
def casReg (h : HintSet) (d : Nat) : Nat := h.creg.getD d

/-- Signature of an atomic: fn, TYPE codes, d or none. -/
def atomSig (fn : Nat) (types : List Nat) (body : BodyRule) (g : BitVec 2) (d : Option Nat) (a b : Nat) (h : HintSet) : Sig :=
  let n := atomRegs h
  { Sig.plain with
    g := some g, guard := true
    srcs := [(.v a 2, some 0), (.v b n, some 1)] ++ (if fn = 7 then [(.v (casReg h (d.getD 0)) n, some 2)] else [])
    dsts := d.toList.map (fun r => .v r n), types := types, creg := fn == 7, body := body }

/-- A register group of a lane as a number. -/
def Warp.group (W : Warp) (r n lane : Nat) : DWord := if n = 2 then W.vget2 r lane else (W.vget r lane).setWidth 64

/-- Atomics of some lanes, ascending: the old values and the state (R157, R162). -/
def atomLanes (c : Ctx) (fn d b : Nat) (s : State) (l : List (Nat × List Loc)) : List (Nat × Nat) × State :=
  let t := c.h.typeOr 0
  let n := atomRegs c.h
  l.foldl (fun a e =>
    match keyOfLocs e.2 with
    | none => a
    | some key =>
      let r := a.2.rmw c.party (s.ctxStand c.W.ctx) (ctxFn c.W.ctx) key (atomWidth t)
        (fun old => atomNew fn t old (c.W.group b n e.1).toNat (c.W.group (casReg c.h d) n e.1).toNat)
      (a.1 ++ [(e.1, r.1)], r.2)) ([], s)

/-- What an atomic of a lane asks of another device (R320). -/
def askAtom (c : Ctx) (fn : Nat) (d : Option Nat) (b lane : Nat) : Ask :=
  let t := c.h.typeOr 0
  let n := atomRegs c.h
  { kind := 3, size := atomWidth t, fn := fn, type := t, data := (c.W.group b n lane).toNat
    other := (c.W.group (casReg c.h (d.getD 0)) n lane).toNat, give := bitW lane, dest := d.map (fun x => (x, n, 0)) }

/-- Register `i` of an old value. -/
def oldWord (vs : List (Nat × Nat)) (lane i : Nat) : Word := BitVec.ofNat 32 ((sget vs lane).getD 0 / 2 ^ (32 * i))

/-- The atomics of lanes outside capsules; the old values go to `d` where there is one (R162, R163). -/
def atomPlain (fn : Nat) (d : Option Nat) (b : Nat) (kind : Made) (c : Ctx) (s : State) (l : List LaneAddr) : Res :=
  let w := atomWidth (c.h.typeOr 0)
  let n := atomRegs c.h
  accessLanes (kind == .ticket) c s .both false w w l (askAtom c fn d b)
    (fun s good =>
      let r := atomLanes c fn (d.getD 0) b s good
      match d with
      | none => r.2
      | some x => r.2.modWarp c.w (fun W => r.1.foldl (fun (W : Warp) e =>
          (List.range n).foldl (fun (W : Warp) i => W.vput (x + i) e.1 (BitVec.ofNat 32 (e.2 / 2 ^ (32 * i)))) W) W))
    (fun s good =>
      let r := atomLanes c fn (d.getD 0) b s good
      match d with
      | none => .done r.2
      | some x => longVec c r.2 x n 0 kind (fun i lane => oldWord r.1 lane i))

/-- ATOM and RED (R162, R163), a capsule step in a body (R254). -/
def atomBody (fn : Nat) (d : Option Nat) (a b : Nat) (c : Ctx) (s : State) : Res :=
  let t := c.h.typeOr 0
  let n := atomRegs c.h
  withBody c s (atomWidth t) (laneAddrs c (addrV c a 0)) (atomPlain fn d b .memory)
    (fun c s l => capStep c s Acc.both (atomWidth t) l (mkStep c s (stepKey c s l) (fun _ => List.replicate (atomWidth t) 0)
      (fun lane => some (fn, t, c.W.group b n lane, c.W.group (casReg c.h (d.getD 0)) n lane,
        d.map (fun r => r - (c.W.cap lane).kbase)))))

/-- ATOMQ: the release, the operations in ticket order, and the acquire when the results have returned, before which the gang
issues nothing more (R164). -/
def atomqBody (fn d a b : Nat) (c : Ctx) (s : State) : Res :=
  let l := laneAddrs c (addrV c a 0)
  let w := atomWidth (c.h.typeOr 0)
  match issueFault s c false w w l with
  | some t => .trap s t
  | none =>
    afterRelease c s (fun s =>
      if c.act = 0 then afterAcquire c s .done else atomPlain fn (some d) b .ticket c s l)

/-- ATOM add. -/
def execAtomAdd (g : BitVec 2) (d a b : BitVec 7) (s : State) : Out :=
  issue (atomSig 0 (atomTypes 0) .vec g (some d.toNat) a.toNat b.toNat) (atomBody 0 (some d.toNat) a.toNat b.toNat) s

/-- ATOM min. -/
def execAtomMin (g : BitVec 2) (d a b : BitVec 7) (s : State) : Out :=
  issue (atomSig 1 (atomTypes 1) .vec g (some d.toNat) a.toNat b.toNat) (atomBody 1 (some d.toNat) a.toNat b.toNat) s

/-- ATOM max. -/
def execAtomMax (g : BitVec 2) (d a b : BitVec 7) (s : State) : Out :=
  issue (atomSig 2 (atomTypes 2) .vec g (some d.toNat) a.toNat b.toNat) (atomBody 2 (some d.toNat) a.toNat b.toNat) s

/-- ATOM and. -/
def execAtomAnd (g : BitVec 2) (d a b : BitVec 7) (s : State) : Out :=
  issue (atomSig 3 (atomTypes 3) .vec g (some d.toNat) a.toNat b.toNat) (atomBody 3 (some d.toNat) a.toNat b.toNat) s

/-- ATOM or. -/
def execAtomOr (g : BitVec 2) (d a b : BitVec 7) (s : State) : Out :=
  issue (atomSig 4 (atomTypes 4) .vec g (some d.toNat) a.toNat b.toNat) (atomBody 4 (some d.toNat) a.toNat b.toNat) s

/-- ATOM xor. -/
def execAtomXor (g : BitVec 2) (d a b : BitVec 7) (s : State) : Out :=
  issue (atomSig 5 (atomTypes 5) .vec g (some d.toNat) a.toNat b.toNat) (atomBody 5 (some d.toNat) a.toNat b.toNat) s

/-- ATOM exch. -/
def execAtomExch (g : BitVec 2) (d a b : BitVec 7) (s : State) : Out :=
  issue (atomSig 6 (atomTypes 6) .vec g (some d.toNat) a.toNat b.toNat) (atomBody 6 (some d.toNat) a.toNat b.toNat) s

/-- ATOM cas. -/
def execAtomCas (g : BitVec 2) (d a b : BitVec 7) (s : State) : Out :=
  issue (atomSig 7 (atomTypes 7) .vec g (some d.toNat) a.toNat b.toNat) (atomBody 7 (some d.toNat) a.toNat b.toNat) s

/-- RED add. -/
def execRedAdd (g : BitVec 2) (a b : BitVec 7) (s : State) : Out :=
  issue (atomSig 0 (atomTypes 0) .vec g none a.toNat b.toNat) (atomBody 0 none a.toNat b.toNat) s

/-- RED min. -/
def execRedMin (g : BitVec 2) (a b : BitVec 7) (s : State) : Out :=
  issue (atomSig 1 (atomTypes 1) .vec g none a.toNat b.toNat) (atomBody 1 none a.toNat b.toNat) s

/-- RED max. -/
def execRedMax (g : BitVec 2) (a b : BitVec 7) (s : State) : Out :=
  issue (atomSig 2 (atomTypes 2) .vec g none a.toNat b.toNat) (atomBody 2 none a.toNat b.toNat) s

/-- RED and. -/
def execRedAnd (g : BitVec 2) (a b : BitVec 7) (s : State) : Out :=
  issue (atomSig 3 (atomTypes 3) .vec g none a.toNat b.toNat) (atomBody 3 none a.toNat b.toNat) s

/-- RED or. -/
def execRedOr (g : BitVec 2) (a b : BitVec 7) (s : State) : Out :=
  issue (atomSig 4 (atomTypes 4) .vec g none a.toNat b.toNat) (atomBody 4 none a.toNat b.toNat) s

/-- RED xor. -/
def execRedXor (g : BitVec 2) (a b : BitVec 7) (s : State) : Out :=
  issue (atomSig 5 (atomTypes 5) .vec g none a.toNat b.toNat) (atomBody 5 none a.toNat b.toNat) s

/-- ATOMQ add. -/
def execAtomqAdd (g : BitVec 2) (d a b : BitVec 7) (s : State) : Out :=
  issue (atomSig 0 [0, 1, 2, 3] .no g (some d.toNat) a.toNat b.toNat) (atomqBody 0 d.toNat a.toNat b.toNat) s

/-- ATOMQ exch. -/
def execAtomqExch (g : BitVec 2) (d a b : BitVec 7) (s : State) : Out :=
  issue (atomSig 6 [0, 1, 2, 3] .no g (some d.toNat) a.toNat b.toNat) (atomqBody 6 d.toNat a.toNat b.toNat) s

/-- ATOMQ cas. -/
def execAtomqCas (g : BitVec 2) (d a b : BitVec 7) (s : State) : Out :=
  issue (atomSig 7 [0, 1, 2, 3] .no g (some d.toNat) a.toNat b.toNat) (atomqBody 7 d.toNat a.toNat b.toNat) s

end Sys2Proof.Machine
end

