-- ==== Sys2Proof/Machine/Tile.lean ====
section
/-! DEFINITION. The tile table and the copy engine: TILE instructions, landing, draining and faults of rows
(11_isa_memory R170 to R182). -/

namespace Sys2Proof.Machine

/-! ### Tiles -/

/-- The block of a warp with its number. -/
def State.blockOf (s : State) (W : Warp) : Option (Nat × Block) :=
  match W.block with
  | none => none
  | some b => (sget s.blocks b).map (fun B => (b, B))

/-- Tile `t` of a warp's block; none where absent, out of range, or in a sapling warp (R170). -/
def State.tileOf (s : State) (W : Warp) (t : Nat) : Option Tile :=
  if 64 ≤ t then none else (s.blockOf W).bind (fun e => sget e.2.tiles t)

/-- A tile of a block. -/
def State.tile (s : State) (b t : Nat) : Option Tile := (sget s.blocks b).bind (fun B => sget B.tiles t)

/-- Changes a tile of a block. -/
def State.modTile (s : State) (b t : Nat) (f : Tile → Tile) : State :=
  s.modBlock b (fun B => { B with tiles := smod B.tiles t f })

/-- Row bytes of a tile (R171). -/
def Tile.rowBytes (t : Tile) : Nat := Sys2Proof.Machine.rowBytes t.fmt t.plane t.k

/-- First key of a row of a tile in block scratch (R171). -/
def Block.rowKey (B : Block) (t : Tile) (row : Nat) : Nat := B.scratchKey (t.off + row * t.rowBytes)

/-- The automatic transitions of R173. -/
def Tile.settle (t : Tile) : Tile :=
  if t.cmds = 0 ∧ t.state = .draining then { t with state := .ready }
  else if t.cmds = 0 ∧ t.state = .filling ∧ t.rows ≤ t.landed then { t with state := .ready }
  else t

/-- The tile-copy fault a tile's fault bit gives the next instruction that names it (R181). -/
def tileFault (x : Nat) (t : Tile) : Option Trap :=
  if t.fault then some { Trap.of 0x12 x with addr := t.faultAddr } else none

/-- A fill is accepted (R173). -/
def Tile.takesFill (t : Tile) (gather : Bool) : Bool :=
  match t.state with
  | .empty => true
  | .filling => gather
  | .ready => t.readers == 0
  | .draining => false

/-- A drain is accepted (R173). -/
def Tile.takesDrain (t : Tile) : Bool := t.state == .ready || t.state == .draining

/-- A reader issues (R173). -/
def Tile.readable (t : Tile) : Bool := t.state == .ready || t.state == .draining

/-- The tile after a command of it is accepted (R173). -/
def Tile.accept (t : Tile) (drain gather : Bool) : Tile :=
  if drain then { t with state := .draining, cmds := t.cmds + 1 }
  else { t with state := .filling, cmds := t.cmds + 1,
                landed := if gather && t.state == .filling then t.landed else 0 }

/-- Commands in a core's copy queue (R174). -/
def State.copyQueue (s : State) (core : Nat) : Nat := (s.cmds.filter (fun e => e.2.core == core)).length

/-! ### Rows in memory -/

/-- The party of a command: the slices that issued it, on its core. -/
def CopyCmd.party (k : CopyCmd) : Party := { core := k.core, w := k.warp, slices := k.slices }

/-- Reads a row as the gang's loads see it: at home on ordered pages, elsewhere through the core's copies, which are filled by whole
aligned 8-byte units (R182, R192). -/
def State.rowRead (s : State) (p : Party) (st : Stand) (parts : List (Nat × Bool × Nat)) : List Byte × State :=
  parts.foldl (fun a x =>
    if x.2.1 then
      let s1 := a.2.atHome p st x.1 x.2.2
      (a.1 ++ s1.bytes x.1 x.2.2, s1)
    else
      let s1 := a.2.fill p.core x.1 x.2.2
      (a.1 ++ (List.range x.2.2).map (fun i => s1.coreByte p.core (x.1 + i)), s1)) ([], s)

/-- Writes a row at home, after the stores that its gang issued before the command and the core's stores to its bytes (R182,
R195). -/
def State.rowWrite (s : State) (p : Party) (tag limit : Nat) (st : Stand) (parts : List (Nat × Bool × Nat)) (l : List Byte) :
    State :=
  (parts.foldl (fun (a : State × List Byte) x =>
    if isRemote x.1 then (a.1, a.2.drop x.2.2) else
    let s1 := (a.1.drain p (homeOf st x.1) x.1 x.2.2 limit).refresh p.core x.1 x.2.2
    let s2 := s1.homeWriteBy p.core tag (((a.2.take x.2.2).zipIdx).map (fun e => (x.1 + e.2, e.1)))
    ({ s2 with poison := clearPoison s2.poison x.1 x.2.2 }, a.2.drop x.2.2)) (s, l)).1

/-- The parts of a row wait for what was issued before their command: rows of earlier commands of the gang, and other accesses
to ordered pages (R155, R182, R195). -/
def State.partsWait (s : State) (p : Party) (ctx : Nat) (write : Bool) (limit : Nat) (parts : List (Nat × Bool × Nat)) : Bool :=
  parts.any (fun x => s.rowsHold p ctx (x.2.1 || write) (if write then .write else .read) x.1 x.2.2 limit) ||
    (partsOrdered parts && (s.orderedGang p.core p.w 0 || s.orderedRows p.core limit || s.orderedAway p.core))

/-! ### Rows in another device's memory (R320, R322, R323) -/

/-- The request of a part of a command's row. -/
def State.partRequest (s : State) (cmd row key : Nat) : Option (Nat × Request) :=
  s.requests.find? (fun e => e.2.who == .row cmd row key)

/-- A part of a row needs nothing more of another device. -/
def State.partReady (s : State) (cmd row : Nat) (p : Nat × Bool × Nat) : Bool :=
  !isRemote p.1 || (match s.partRequest cmd row p.1 with
    | some (_, r) => (match r.answer with
      | some (cls, _, _) => cls == 0
      | none => false)
    | none => false)

/-- The request of the part of a command's row at an address. -/
def State.partAsked (s : State) (cmd row : Nat) (a : DWord) : Option Nat :=
  s.requests.findSome? (fun e => match e.2.who with
    | .row c r k => if c = cmd ∧ r = row ∧ e.2.page + BitVec.ofNat 64 (k % 4096) = a then some k else none
    | _ => none)

/-- What the parts of a command's row meet now; a part that has been asked for stays with its request, whatever has become of its
link or its page since (R322, R323). -/
def State.rowNow (s : State) (id : Nat) (c : CopyCmd) (row : Nat) (a : DWord) : RowRes :=
  (rowChunks c.size).foldl (fun acc p =>
    match acc with
    | .go l =>
      let at_ := a + BitVec.ofNat 64 p.1
      match s.partAsked id row at_ with
      | some k => .go (l ++ [(k, false, p.2)])
      | none =>
        match s.chunkAccess (s.cmdCtx c) c.core c.drain at_ p.2 with
        | .go m => .go (l ++ m)
        | r => r
    | r => r) (.go [])

/-- Asks for the remote parts of a row that have no request, of those on ordered pages only for the first (R155); `data` gives what a
drain writes there. -/
def State.askRow (s : State) (ctx cmd row : Nat) (va : DWord) (parts : List (Nat × Bool × Nat)) (data : Option (Nat → List Byte)) :
    State :=
  let left := parts.zipIdx.filter (fun e => isRemote e.1.1 && (s.partRequest cmd row e.1.1).isNone)
  let turn := (left.find? (fun e => e.1.2.1)).map (·.2)
  let r := (left.filter (fun e => !e.1.2.1 || turn == some e.2)).foldl
    (fun (a : State × List (Nat × Packet)) e =>
      let b := (data.map (fun f => f e.2)).getD []
      let p : Packet :=
        { kind := if data.isSome then 6 else 1, size := e.1.2.2, fn := 0, type := 0, tag := 0, addr := 0, data := numOf b,
          other := 0 }
      let x := a.1.request (.row cmd row e.1.1) ctx e.1.1 ((va + BitVec.ofNat 64 (16 * e.2)) &&& ~~~0xFFF) data.isSome p
      (x.1, a.2 ++ x.2)) (s, [])
  r.1.sendAll r.2

/-- The bytes of a row whose parts are all ready. -/
def State.rowBytes (s : State) (p : Party) (st : Stand) (cmd row : Nat) (parts : List (Nat × Bool × Nat)) : List Byte × State :=
  parts.foldl (fun a x => match a.2.partRequest cmd row x.1 with
    | some (_, r) => (a.1 ++ bytesOf x.2.2 ((r.answer.map (·.2.2)).getD 0), a.2)
    | none => let r := a.2.rowRead p st [x]; (a.1 ++ r.1, r.2)) ([], s)

/-- The requests of a command's row are done with. -/
def State.forgetRow (s : State) (cmd row : Nat) : State :=
  { s with requests := s.requests.filter (fun e => match e.2.who with
      | .row c r _ => !(c == cmd && r == row)
      | _ => true) }

/-- The address of a part of a command's row that a peer refused or whose link lost it (R181, R323). -/
def State.rowRefused (s : State) (cmd : Nat) : Option DWord :=
  s.requests.findSome? (fun e => match e.2.who, e.2.answer with
    | .row c _ k, some (cls, _, _) => if c = cmd ∧ cls ≠ 0 then some (e.2.page + BitVec.ofNat 64 (k % 4096)) else none
    | _, _ => none)

/-! ### Commands -/

/-- The fault R174 and R156 give row addresses, over lanes where the command has them. -/
def rowFault (l : List (Option Nat × DWord)) : Option Trap :=
  let mk (cls : Nat) (bad : List (Option Nat × DWord)) : Option Trap :=
    match bad with
    | [] => none
    | b :: _ => some { Trap.of cls 0 with faulting := maskOf (bad.filterMap (·.1)), addr := b.2 }
  (mk 5 (l.filter (fun e => !(e.2.toNat % 16 == 0)))).orElse (fun _ =>
    (mk 6 (l.filter (fun e => !canonical e.2))).orElse (fun _ => mk 3 (l.filter (fun e => inWindow e.2))))

/-- The memory rows a fill reads at issue, where they can be read (R182). -/
def State.readRows (s : State) (p : Party) (ctx n : Nat) (rows : List (Nat × DWord)) : List (Nat × List Byte) × State :=
  rows.foldl (fun a e => match a.2.rowAccess ctx p.core false e.2 n with
    | .go parts =>
      if parts.any (fun x => isRemote x.1) then a
      else let r := a.2.rowRead p (a.2.ctxStand ctx) parts; (a.1 ++ [(e.1, r.1)], r.2)
    | _ => a) ([], s)

/-- A row that a fill would read at issue waits for the rows of the gang's earlier commands (R155, R182). -/
def State.fillWaits (s : State) (p : Party) (ctx n : Nat) (rows : List (Nat × DWord)) : Bool :=
  rows.any (fun e => match s.rowAccess ctx p.core false e.2 n with
    | .go parts => !parts.any (fun x => isRemote x.1) && s.partsWait p ctx false s.nextId parts
    | _ => false)

/-- Accepts a command of tile `x` once the table and the queue allow (R173, R174); a fill's rows are read now, as the gang's loads,
where they can be (R182). -/
def accept (c : Ctx) (s : State) (x : Nat) (t : Tile) (drain gather : Bool) (mem : Nat) (rows : List (Nat × DWord))
    (values : List (Nat × List Word)) : Res :=
  match s.blockOf c.W with
  | none => .wait s
  | some (b, _) =>
    let n := memRowBytes mem t.k
    let reads := drain = false ∧ values = []
    if (if drain then t.takesDrain else t.takesFill gather) = false ∨ 64 ≤ s.copyQueue c.W.core ∨
        (reads ∧ s.fillWaits c.party c.W.ctx n rows = true) then .wait s
    else
      let (source, s0) := if reads then s.readRows c.party c.W.ctx n rows else ([], s)
      let cmd : CopyCmd :=
        { core := c.W.core, block := b, tile := x, warp := c.w, slices := c.G.slices, drain := drain, fmt := mem, size := n,
          todo := rows, values := values, source := source, fault := none }
      let s1 := { s0 with cmds := sput s0.cmds s0.nextId cmd, nextId := s0.nextId + 1 }
      .done (s1.modTile b x (fun t => t.accept drain gather))

/-- The conversion pair is legal (R177); a plane tile of an odd number of groups has no memory rows of whole Palush blocks. -/
def pairLegal (drain : Bool) (mem : Nat) (t : Tile) : Bool :=
  (if drain then drainLegal mem t.fmt t.plane else fillLegal mem t.fmt t.plane) &&
    !(isPalush mem && t.k % 32 != 0)

/-- Signature of a copy command: illegal where the tile is absent or the formats do not pair (R170, R177). -/
def copySig (drain gather : Bool) (x y : Nat) (z : Opnd) (c : Ctx) (s : State) : Sig :=
  { Sig.plain with
    srcs := [(.s y 2, some 1), (z, some 2)], types := List.range 20, imms := if gather then 2 else 0, cache := true
    legal := match s.tileOf c.W x with
      | none => false
      | some t => pairLegal drain (c.h.typeOr t.fmt) t }

/-- TCOPY and TSTORE: every row of the tile, at a stride (R175). A stride that is no multiple of 16 shows in the rows' addresses alone,
so that a tile of one row takes any (assumption 98). -/
def copyBody (drain : Bool) (x y z : Nat) (c : Ctx) (s : State) : Res :=
  match s.tileOf c.W x with
  | none => .wait s
  | some t =>
    let base := c.sread2 s y
    let stride := (c.sread s z).toNat
    let rows := (List.range t.rows).map (fun i => (i, base + BitVec.ofNat 64 (i * stride)))
    match rowFault (rows.map (fun r => (none, r.2))) with
    | some f => .trap s f
    | none =>
      match tileFault x t with
      | some f => .trap s f
      | none => accept c s x t drain false (c.h.typeOr t.fmt) rows []

/-- TGATHER and TSCATTER: one row per active lane (R176). -/
def gatherBody (drain : Bool) (x y z : Nat) (c : Ctx) (s : State) : Res :=
  match s.tileOf c.W x with
  | none => .wait s
  | some t =>
    if c.act = 0 then .done s
    else
      let mem := c.h.typeOr t.fmt
      let base := c.sread2 s y
      let row0 := immNat (0#0 : BitVec 0) c.h.imms
      let lanes := lanesOf c.act
      let addr (l : Nat) : DWord := base + BitVec.ofNat 64 ((c.W.vget z l).toNat * memRowBytes mem t.k)
      match rowFault (lanes.map (fun l => (some l, addr l))) with
      | some f => .trap s f
      | none =>
        let far := lanes.filter (fun l => decide (t.rows ≤ row0 + l))
        if far.isEmpty = false then .trap s { Trap.of 0x11 x with faulting := maskOf far }
        else
          match tileFault x t with
          | some f => .trap s f
          | none => accept c s x t drain (!drain) mem (lanes.map (fun l => (row0 + l, addr l))) []

/-- TCOPY. -/
def execTcopy (x y z : BitVec 7) (s : State) : Out :=
  issueWith (copySig false false x.toNat y.toNat (.s z.toNat 1)) (copyBody false x.toNat y.toNat z.toNat) s

/-- TSTORE. -/
def execTstore (x y z : BitVec 7) (s : State) : Out :=
  issueWith (copySig true false x.toNat y.toNat (.s z.toNat 1)) (copyBody true x.toNat y.toNat z.toNat) s

/-- TGATHER. -/
def execTgather (x y z : BitVec 7) (s : State) : Out :=
  issueWith (copySig false true x.toNat y.toNat (.v z.toNat 1)) (gatherBody false x.toNat y.toNat z.toNat) s

/-- TSCATTER. -/
def execTscatter (x y z : BitVec 7) (s : State) : Out :=
  issueWith (copySig true true x.toNat y.toNat (.v z.toNat 1)) (gatherBody true x.toNat y.toNat z.toNat) s

/-! ### Managing tiles (R178 to R180) -/

/-- Signature of an instruction that names tile `x` alone. -/
def tileSig (x : Nat) (c : Ctx) (s : State) : Sig := { Sig.plain with legal := (s.tileOf c.W x).isSome }

/-- TREADY (R178). -/
def treadyBody (x : Nat) (c : Ctx) (s : State) : Res :=
  match s.blockOf c.W, s.tileOf c.W x with
  | some (b, _), some t =>
    match tileFault x t with
    | some f => .trap s f
    | none =>
      if t.cmds ≠ 0 then .wait s
      else .done (s.modTile b x (fun t => { t with state := .ready, landed := t.rows }))
  | _, _ => .wait s

/-- TREADY. -/
def execTready (x : BitVec 7) (s : State) : Out := issueWith (tileSig x.toNat) (treadyBody x.toNat) s

/-- TRELEASE (R178). -/
def treleaseBody (x : Nat) (c : Ctx) (s : State) : Res :=
  match s.blockOf c.W, s.tileOf c.W x with
  | some (b, _), some t =>
    if t.cmds ≠ 0 ∨ t.readers ≠ 0 then .wait s
    else .done (s.modTile b x (fun t => { t with state := .empty, landed := 0, fault := false, faultAddr := 0 }))
  | _, _ => .wait s

/-- TRELEASE. -/
def execTrelease (x : BitVec 7) (s : State) : Out := issueWith (tileSig x.toNat) (treleaseBody x.toNat) s

/-- The code of a tile's state (R180). -/
def TileState.code : TileState → Nat
  | .empty => 0
  | .filling => 1
  | .ready => 2
  | .draining => 3

/-- The snapshot TSTATE writes (R180). -/
def Tile.word (t : Tile) : Word :=
  BitVec.ofNat 32 (min t.landed 4095 * 2 ^ 20 + min t.readers 4095 * 2 ^ 8 + (if t.fault then 32 else 0) +
    (if t.cmds ≠ 0 then 16 else 0) + t.state.code)

/-- TSTATE. -/
def execTstate (x y : BitVec 7) (s : State) : Out :=
  issueWith (fun c s => { tileSig y.toNat c s with dsts := [.s x.toNat 1] })
    (fun c s => match s.tileOf c.W y.toNat with
      | some t => .done (s.produce c [] [(x.toNat, t.word)] none 0 .other)
      | none => .wait s) s

/-- TROWS (R179). -/
def trowsBody (x y : Nat) (c : Ctx) (s : State) : Res :=
  match s.tileOf c.W x with
  | none => .wait s
  | some t =>
    match tileFault x t with
    | some f => .trap s f
    | none =>
      let n := (c.sread s y).toNat
      if n ≤ t.landed ∨ t.readable = true ∨ n = 0 then .done s else .wait s

/-- TROWS. -/
def execTrows (x y : BitVec 7) (s : State) : Out :=
  issueWith (fun c s => { tileSig x.toNat c s with srcs := [(.s y.toNat 1, some 1)] }) (trowsBody x.toNat y.toNat) s

/-! ### The engine -/

/-- Ends a command: its queue entry and its place in the tile's count are free (R173, R174). -/
def State.endCmd (s : State) (id : Nat) (c : CopyCmd) : State :=
  let s1 := { s with cmds := sdel s.cmds id }
  s1.modTile c.block c.tile (fun t => ({ t with cmds := t.cmds - 1 } : Tile).settle)

/-- Takes a row off a command; the last one ends it. -/
def State.rowDone (s : State) (id : Nat) (c : CopyCmd) (row : Nat) : State :=
  let rest := c.todo.filter (fun e => !(e.1 == row))
  if rest.isEmpty then s.endCmd id c else { s with cmds := sput s.cmds id { c with todo := rest } }

/-- Writes bytes in block scratch; words written whole hold no error any more (R156). -/
def State.scratchWrite (s : State) (key : Nat) (l : List Byte) : State :=
  { s with mem := memPuts s.mem (l.zipIdx.map (fun e => (key + e.2, e.1))), poison := clearPoison s.poison key l.length }

/-- A bank value in the format of a tile that MSTORE fills (R279). -/
def bankRow (t : Tile) (l : List Word) : List Byte × Word :=
  if t.fmt = 19 ∨ isPalush t.fmt = true then
    let (r, w) := encodeRow t.fmt 0 (t.k / 16) (l.map (fun x => f32.read x.toNat))
    (r.layout t.fmt t.plane, w)
  else if t.fmt = 9 ∨ t.fmt = 10 then
    l.foldl (fun a x =>
      let (y, w) := match f32.read x.toNat with
        | .nan s => ((fmtOf t.fmt).nan, flagIf s fNV)
        | .inf n => ((fmtOf t.fmt).inf n, 0)
        | .fin n m e => (fmtOf t.fmt).round .rne n m e false
      (a.1 ++ bytesOf 2 y, a.2 ||| w)) ([], 0)
  else (l.flatMap (fun x => bytesOf 4 x.toNat), 0)

/-- A row of a fill lands (R174, R177): scratch bytes, the landed count, the flags of the issuing warp. -/
def State.landRow (s : State) (id : Nat) (c : CopyCmd) (row : Nat) (bytes : List Byte) (flags : Word) : State :=
  match sget s.blocks c.block with
  | none => s
  | some B =>
    match sget B.tiles c.tile with
    | none => s
    | some t =>
      let s1 := s.scratchWrite (B.rowKey t row) bytes
      let s2 := s1.modTile c.block c.tile (fun t => { t with landed := min (t.landed + 1) 4095 })
      ((s2.raiseIn c.warp flags).rowDone id c row).count (ctxFn (s.cmdCtx c)) 6 1

/-- A command's cores are in the save area: a command cut at pre-emption goes on at resume (R293). -/
def State.cmdSaved (s : State) (c : CopyCmd) : Bool :=
  let x := s.context (s.cmdCtx c)
  x.savedPairs.getLsbD (c.core / 2) || (match x.ladder with
    | some l => l.done.getLsbD (c.core / 2)
    | none => false)

/-- TILE_ROW_LANDING: a fill's row lands, in any order (R174, R182). A row whose host page was absent at issue is read now. -/
def rowLanding (id row : Nat) (s : State) : State :=
  match sget s.cmds id with
  | none => s
  | some c =>
    match c.todo.find? (fun e => e.1 == row), s.tile c.block c.tile with
    | some (_, a), some t =>
      if c.drain ∨ s.cmdSaved c = true then s
      else
        match sget c.values row with
        | some l => let r := bankRow t l; s.landRow id c row r.1 r.2
        | none =>
          match c.source.find? (fun e => e.1 == row) with
          | some (_, l) => let r := fillRow c.fmt t.fmt t.plane t.k l; s.landRow id c row r.1 r.2
          | none =>
            let ctx := s.cmdCtx c
            match s.rowNow id c row a with
            | .go parts =>
              if s.partsWait c.party ctx false id parts then s
              else if parts.all (s.partReady id row) then
                let b := s.rowBytes c.party (s.ctxStand ctx) id row parts
                let r := fillRow c.fmt t.fmt t.plane t.k b.1
                (b.2.forgetRow id row).landRow id c row r.1 r.2
              else s.askRow ctx id row a parts none
            | .stall p at_ => s.askHost { Tag.of ctx c.core p with va := at_ }
            | _ => s
    | _, _ => s

/-- TILE_ROW_LANDING. -/
def execTileRowLanding (cmd row : Nat) (s : State) : Out := event (rowLanding cmd row) s

/-- DRAIN_ROW_COMPLETION: a drain's row is written to memory (R175, R182): its parts in other devices' memory have been written there,
or reported with their link (R323), and the others are written now. -/
def drainRowDone (id row : Nat) (s : State) : State :=
  match sget s.cmds id with
  | none => s
  | some c =>
    match c.todo.find? (fun e => e.1 == row), s.tile c.block c.tile, sget s.blocks c.block with
    | some (_, a), some t, some B =>
      if c.drain = false ∨ s.cmdSaved c = true then s
      else
        let ctx := s.cmdCtx c
        if s.poisoned (B.rowKey t row) t.rowBytes then s
        else
        match s.rowNow id c row a with
        | .go parts =>
          let r := drainRow c.fmt t.fmt t.plane t.k (s.bytes (B.rowKey t row) t.rowBytes)
          if s.partsWait c.party ctx true id parts then s
          else if parts.all (s.partReady id row) then
            let s1 := (s.forgetRow id row).rowWrite c.party (ctxFn ctx) id (s.ctxStand ctx) parts r.1
            (s1.raiseIn c.warp r.2).rowDone id c row
          else s.askRow ctx id row a parts (some (fun i => (r.1.drop (16 * i)).take 16))
        | .stall p at_ => s.askHost { Tag.of ctx c.core p with va := at_ }
        | _ => s
    | _, _, _ => s

/-- DRAIN_ROW_COMPLETION. -/
def execDrainRowCompletion (cmd row : Nat) (s : State) : Out := event (drainRowDone cmd row) s

/-- A row of a drain reads a scratch word that holds an uncorrectable error (R156, R181). -/
def State.drainPoison (s : State) (c : CopyCmd) (row : Nat) : Bool :=
  c.drain && (match sget s.blocks c.block, s.tile c.block c.tile with
    | some B, some t => s.poisoned (B.rowKey t row) t.rowBytes
    | _, _ => false)

/-- The address at which a command cannot go on: a denied page, a part of a row not read that faults, one another device refused or a
link lost, or, of a drain's row whose scratch is poisoned, the address it was to be written at (R181, R322, R323; assumption 16). -/
def State.cmdFault (s : State) (id : Nat) (c : CopyCmd) : Option DWord :=
  (c.fault.orElse (fun _ => s.rowRefused id)).orElse (fun _ =>
    c.todo.findSome? (fun e =>
      if c.open_ e.1 then
        match s.rowNow id c e.1 e.2 with
        | .fault a => some a
        | _ => if s.drainPoison c e.1 then some e.2 else none
      else none))

/-- TILE_COPY_FAULT: the command ends and the tile's fault bit is set; a fill leaves the tile empty, a drain ready
(R181). -/
def copyFault (id : Nat) (s : State) : State :=
  match sget s.cmds id with
  | none => s
  | some c =>
    if s.cmdSaved c then s else
    match s.cmdFault id c with
    | none => s
    | some a =>
      let s1 := { s with cmds := sdel s.cmds id }
      s1.modTile c.block c.tile (fun t =>
        { t with cmds := t.cmds - 1, fault := true, faultAddr := a, state := if c.drain then .ready else .empty })

/-- TILE_COPY_FAULT. -/
def execTileCopyFault (cmd : Nat) (s : State) : Out := event (copyFault cmd) s

end Sys2Proof.Machine
end

