-- ==== Sys2Proof/Machine/Matrix.lean ====
section
/-! DEFINITION. The matrix arrays: collectives, streams, batches, latches, edge sets, and the arithmetic of MMA
(21_matrix R261 to R280, 05_numbers R91 to R94). -/

namespace Sys2Proof.Machine

/-! ### Shapes and quadrants (R261, R262) -/

/-- Key of a quadrant of a core. -/
def quadKey (core q : Nat) : Nat := 4 * core + q

/-- The quadrants of a shape on a leader core: key, N position, K position; none for a code and base R262 does not list. -/
def shapeQuads (core code base : Nat) : Option (List (Nat × Nat × Nat)) :=
  match code with
  | 0 => if base ≤ 3 then some [(quadKey core base, 0, 0)] else none
  | 1 => if base = 0 ∨ base = 2 then some [(quadKey core base, 0, 0), (quadKey core (base + 1), 1, 0)] else none
  | 2 => if base ≤ 1 then some [(quadKey core base, 0, 0), (quadKey core (base + 2), 0, 1)] else none
  | 3 => if base = 0 then some ((List.range 4).map (fun q => (quadKey core q, q % 2, q / 2))) else none
  | 4 =>
    if base = 0 then
      some ((List.range 4).map (fun q => (quadKey core q, q % 2, q / 2)) ++
        (List.range 4).map (fun q => (quadKey (core + 1) q, 2 + q % 2, q / 2)))
    else none
  | _ => none

/-- A team at block start (R262, R266, R268). -/
def Team.start : Team :=
  { shape := none, pair := false, em := List.replicate 4 (BitVec.allOnes 256), en := List.replicate 4 (BitVec.allOnes 128),
    ek := List.replicate 4 (BitVec.allOnes 128), nextBatch := 1, stash := [], arrivals := [], performed := 0 }

/-- Number of the team of a warp of a block (R34). -/
def teamNum (W : Warp) (B : Block) : Nat := W.index / B.desc.team

/-- A team of a block. -/
def State.team (s : State) (b t : Nat) : Team := ((sget s.blocks b).bind (fun B => sget B.teams t)).getD Team.start

/-- Sets a team. -/
def State.setTeam (s : State) (b t : Nat) (x : Team) : State := s.modBlock b (fun B => { B with teams := sput B.teams t x })

/-- The member warps of a team, ascending. -/
def Block.team (B : Block) (t : Nat) : List Nat := (B.members.drop (t * B.desc.team)).take B.desc.team

/-- What a collective acts for: block, team number and core. -/
structure TeamCtx where
  /-- Block. -/
  b : Nat
  /-- Team. -/
  t : Nat
  /-- Core. -/
  core : Nat
  /-- Member warps. -/
  members : List Nat
deriving DecidableEq, Repr

/-- The team of an issuing gang. -/
def teamCtx (c : Ctx) (s : State) : Option TeamCtx :=
  match s.blockOf c.W with
  | none => none
  | some (b, B) => some { b := b, t := teamNum c.W B, core := c.W.core, members := B.team (teamNum c.W B) }

/-- The shape's quadrants of a team. -/
def State.shapeOf (s : State) (x : TeamCtx) : Option (List (Nat × Nat × Nat)) :=
  match (s.team x.b x.t).shape with
  | none => none
  | some (code, base) => shapeQuads x.core code base

/-- N of some quadrants, in columns. -/
def extentN (l : List (Nat × Nat × Nat)) : Nat := 64 * l.foldl (fun a e => max a (e.2.1 + 1)) 0

/-- K of some quadrants, in elements. -/
def extentK (l : List (Nat × Nat × Nat)) : Nat := 64 * l.foldl (fun a e => max a (e.2.2 + 1)) 0

/-- Operations of a team, in stream order. -/
def State.stream (s : State) (b t : Nat) : List (Nat × ArrayOp) := s.ops.filter (fun e => e.2.block == b && e.2.team == t)

/-- Every operation of a team has retired. -/
def State.opsRetired (s : State) (b t : Nat) : Bool := (s.stream b t).all (fun e => e.2.flags.isSome)

/-! ### Collective issue (R264) -/

/-- What performing a collective answers. -/
inductive Coll where
  /-- Performed; each member's gang then does its own part. -/
  | done (s : State)
  /-- It cannot proceed yet. -/
  | wait (s : State)
  /-- A trap of every member (R264, R269). -/
  | trap (s : State) (t : Trap)

/-- Takes one arrival away: a warp's later arrivals move down by one (R264). -/
def State.withdraw (s : State) (x : TeamCtx) (w k : Nat) : State :=
  let t := s.team x.b x.t
  let move (a : Arrival) : Option Arrival :=
    if a.warp = w then (if a.k = k then none else if k < a.k then some { a with k := a.k - 1 } else some a) else some a
  let s1 := s.setTeam x.b x.t { t with arrivals := t.arrivals.filterMap move }
  s1.modWarp w (fun W =>
    { W with arrivals := W.arrivals - 1
             gangs := W.gangs.map (fun g => match g.pend with
               | .team j => if k < j then { g with pend := .team (j - 1) } else g
               | _ => g) })

/-- A member's waiting gang takes a trap: now, or, while another gang of its warp is in a handler or has its warp stopped, when it
issues again (R264, R282). -/
def State.trapMember (s : State) (w j : Nat) (t : Trap) : State :=
  match sget s.warps w with
  | none => s
  | some W =>
    if W.handler.isNone ∧ W.hostStop = false ∨ W.inHandler j = true then s.trap w j t
    else s.modWarp w (fun W => W.modGang j (fun g => { g with wait := none, pend := .caught t.cls t.detail }))

/-- Traps every member but the issuing one, their arrivals withdrawn; the issuing gang's trap is the answer. -/
def trapAll (c : Ctx) (x : TeamCtx) (k : Nat) (t : Trap) (s : State) : Res :=
  let l := (s.team x.b x.t).arrivals.filter (fun a => a.k == k)
  let s1 := l.foldl (fun s a =>
    let s2 := s.withdraw x a.warp k
    if a.warp = c.w then s2 else s2.trapMember a.warp (lowSlice a.slices) t) s
  .trap s1 t

/-- The other members' gangs continue after the collective, each having done its own part. -/
def finishOthers (c : Ctx) (x : TeamCtx) (k : Nat) (part : Ctx → State → State) (s : State) : State :=
  ((s.team x.b x.t).arrivals.filter (fun a => a.k == k && a.warp != c.w)).foldl (fun s a =>
    match ({ s with cur := some (a.warp, lowSlice a.slices) } : State).issuing with
    | none => s
    | some d => ((part d s).settle d (.done (part d s))).wake a.warp false) s

/-- Another member that arrived is saved, or halted with its arrival outside the save handler: the operation proceeds once it is
back (R264, R291). -/
def State.away (s : State) (w : Nat) (a : Arrival) : Bool :=
  a.warp != w && (match sget s.warps a.warp with
    | some W => W.saved || ((W.handler.bind (·.halt)).isSome && !W.gangs.any (fun g => g.pend == .team a.k))
    | none => false)

/-- A collective: the gang arrives, and the last arrival lets the operation proceed, once, for the team (R264). -/
def collective (fields : Ctx → List Nat) (perform : TeamCtx → Ctx → State → Coll) (part : Ctx → State → State)
    (c : Ctx) (s : State) : Res :=
  match c.G.pend, teamCtx c s with
  | .caught cls detail, _ => .trap s (Trap.of cls detail)
  | _, none => .wait s
  | _, some x =>
    let (k, s1) := match c.G.pend with
      | .team k => (k, s)
      | _ =>
        let k := c.W.arrivals + 1
        let t := s.team x.b x.t
        let a : Arrival :=
          { k := k, index := c.W.index, warp := c.w, slices := c.G.slices, fields := fields c }
        (k, (s.setTeam x.b x.t { t with arrivals := t.arrivals ++ [a] }).modWarp c.w (fun W => { W with arrivals := k }))
    let t := s1.team x.b x.t
    let here := t.arrivals.filter (fun a => a.k == k)
    let missing := x.members.filter (fun w => !here.any (fun a => a.warp == w))
    if missing.isEmpty ∧ t.performed + 1 = k ∧ here.any (s1.away c.w) = false then
      if here.all (fun a => a.fields == fields c) then
        match perform x c s1 with
        | .wait s2 => .wait (s2.waitWith c (.team k))
        | .trap s2 f => trapAll c x k f s2
        | .done s2 =>
          let s3 := finishOthers c x k part s2
          let t3 := s3.team x.b x.t
          .done (part c (s3.setTeam x.b x.t { t3 with performed := k, arrivals := t3.arrivals.filter (fun a => !(a.k == k)) }))
      else trapAll c x k (Trap.of 0x10 0) s1
    else if missing.any (fun w => match sget s1.warps w with
        | some W => W.ended
        | none => true) then .trap (s1.withdraw x c.w k) (Trap.of 0x10 0)
    else .wait (s1.waitWith c (.team k))

/-- The fields of a collective that every member must give alike (R264). -/
def collFields (sub x y z : Nat) (c : Ctx) : List Nat := [sub, x, y, z] ++ c.h.imms.map (·.toNat)

/-- Nothing of a gang's own. -/
def noPart (_ : Ctx) (s : State) : State := s

/-- A matrix-usage trap (R269). -/
def matrixTrap (s : State) (cause : Nat) : Coll := .trap s (Trap.of 0x16 cause)

/-- Signature of an MTX instruction: illegal in a sapling warp (R269). -/
def mtxSig (imms : Nat) (legal : Bool) (c : Ctx) : Sig := { Sig.plain with imms := imms, legal := legal && c.W.block.isSome }

/-! ### Appending (R265, R267, R272 to R275) -/

/-- Appends an operation to the team's stream. -/
def State.append (s : State) (x : TeamCtx) (kind : ArrayKind) (quads : List (Nat × Nat × Nat)) : State :=
  { s with
    ops := sput s.ops s.nextId { block := x.b, team := x.t, kind := kind, quads := quads, batch := none, started := false,
                                 flags := none, complete := false }
    nextId := s.nextId + 1 }

/-- A team's tile as a reader meets it: a fault, a wait, or the tile (R173, R181). -/
def readerTile (x : TeamCtx) (tile : Nat) (s : State) (k : Tile → Coll) : Coll :=
  match s.tile x.b tile with
  | none => .wait s
  | some t =>
    match tileFault tile t with
    | some f => .trap s f
    | none => if t.readable then k t else .wait s

/-- The masks of quadrants that are fusable sets (R261). -/
def fusable (m : Nat) : Bool := [1, 2, 4, 8, 3, 12, 5, 10, 15].contains m

/-- The quadrants of an MLOADW's mask, at their positions within it (R272). -/
def maskQuads (x : TeamCtx) (shape : List (Nat × Nat × Nat)) (all : Bool) (m : Nat) : List (Nat × Nat × Nat) :=
  let l := if all then shape
    else shape.filter (fun e => decide (e.1 / 4 = x.core) && m.testBit (e.1 % 4))
  let n0 := l.foldl (fun a e => min a e.2.1) 9
  let k0 := l.foldl (fun a e => min a e.2.2) 9
  l.map (fun e => (e.1, e.2.1 - n0, e.2.2 - k0))

/-- A latched format pairs with an activation format (R91). -/
def pairsWith (w a : Nat) : Bool := (isPalush w && isPalush a) || (w == a && (a == 19 || a == 6))

/-- MLOADW (R272): in pair mode the mask 0xF names all eight quadrants. -/
def mloadw (tile m : Nat) (x : TeamCtx) (_ : Ctx) (s : State) : Coll :=
  match s.shapeOf x with
  | none => matrixTrap s 1
  | some sh =>
    let wide := (s.team x.b x.t).pair && m == 15
    let qs := maskQuads x sh wide m
    let all := if wide then decide (sh.length = 8)
      else (List.range 4).all (fun q => !m.testBit q || sh.any (fun e => decide (e.1 = quadKey x.core q)))
    match s.tile x.b tile with
    | none => .wait s
    | some t =>
      if fusable m = false ∨ all = false ∨ extentN qs < t.rows ∨ extentK qs < t.k ∨ [16, 17, 18, 19, 6].contains t.fmt = false then
        matrixTrap s 3
      else
        readerTile x tile s (fun t =>
          let s1 := (s.modTile x.b tile (fun t => { t with readers := t.readers + 1 })).append x (.loadw tile m) qs
          .done { s1 with quads := qs.foldl (fun q e =>
            sput q e.1 { (sget q e.1).getD Quadrant.reset with appended := some t.fmt }) s1.quads })

/-- MLOADW. -/
def execMloadw (x y : BitVec 7) (s : State) : Out :=
  issueWith (fun c s => mtxSig 0 ((s.tileOf c.W x.toNat).isSome && decide (1 ≤ y.toNat) && decide (y.toNat ≤ 15)) c)
    (collective (collFields 0 x.toNat y.toNat 0) (mloadw x.toNat y.toNat) noPart) s

/-- The checks MMA and MMAVS share: causes 1, 2 and 4 (R269). -/
def mmaChecks (bank tile : Nat) (x : TeamCtx) (s : State) (k : List (Nat × Nat × Nat) → Tile → Coll) : Coll :=
  match (s.team x.b x.t).shape, s.shapeOf x, s.tile x.b tile with
  | some (_, base), some sh, some t =>
    if bank / 2 ≠ base then matrixTrap s 2
    else if t.plane = false ∨ extentK sh / 16 < t.k / 16 ∨
        sh.any (fun e => match (s.quad e.1).appended with
          | some f => !pairsWith f t.fmt
          | none => true) = true then matrixTrap s 4
    else k sh t
  | none, _, _ => matrixTrap s 1
  | _, none, _ => matrixTrap s 1
  | _, _, none => .wait s

/-- Counts a reader and appends an MMA (R273). -/
def appendMma (x : TeamCtx) (s : State) (bank tile row0 e : Nat) (sh : List (Nat × Nat × Nat))
    (scales : Option (Bool × List Byte)) : Coll :=
  readerTile x tile s (fun _ =>
    let t := s.team x.b x.t
    .done ((s.modTile x.b tile (fun t => { t with readers := t.readers + 1 })).append x
      (.mma (bank % 2) tile row0 ((t.em[e]?).getD 0) ((t.en[e]?).getD 0) ((t.ek[e]?).getD 0) scales) sh))

/-- MMA (R273). -/
def mma (bank tile e : Nat) (x : TeamCtx) (c : Ctx) (s : State) : Coll :=
  mmaChecks bank tile x s (fun sh _ =>
    let row0 := immNat (0#0 : BitVec 0) c.h.imms
    if 1 < c.h.imms.length ∨ 1023 < row0 then matrixTrap s 9 else appendMma x s bank tile row0 e sh none)

/-- MMA. -/
def execMma (x y z : BitVec 7) (s : State) : Out :=
  issueWith (fun c s => mtxSig 2 ((s.tileOf c.W y.toNat).isSome && decide (x.toNat ≤ 7) && decide (z.toNat ≤ 3)) c)
    (collective (collFields 1 x.toNat y.toNat z.toNat) (mma x.toNat y.toNat z.toNat) noPart) s

/-- The registers of a team's lowest-numbered warp, once full in the slices read (R274, R277). -/
def leadVector (x : TeamCtx) (s : State) (z : Nat) (slices : BitVec 8) : Option (Nat → Word) :=
  match (x.members.head?).bind (sget s.warps) with
  | none => none
  | some W => if zget 0 W.emptyV z &&& slices = 0 then some (fun lane => W.vget z lane) else none

/-- The scale bytes of an MMAVS by K-group (R274). -/
def scaleBytes (sel : Nat) (v : Nat → Word) (n : Nat) : List Byte :=
  (List.range n).map (fun g => (v ((sel % 32 + g) % 32)).extractLsb' (8 * (sel / 32 % 4)) 8)

/-- MMAVS (R274). -/
def mmavs (bank tile z : Nat) (x : TeamCtx) (c : Ctx) (s : State) : Coll :=
  mmaChecks bank tile x s (fun sh t =>
    if t.fmt = 6 ∨ c.h.imms.length ≠ 1 then matrixTrap s 8
    else
      let sel := immNat (0#0 : BitVec 0) c.h.imms
      let groups := t.k / 16
      let lanes := (List.range groups).map (fun g => (sel % 32 + g) % 32)
      match leadVector x s z (sliceMask (maskOf lanes)) with
      | none => .wait s
      | some v => appendMma x s bank tile 0 0 sh (some (sel.testBit 7, scaleBytes sel v groups)))

/-- MMAVS. -/
def execMmavs (x y z : BitVec 7) (s : State) : Out :=
  issueWith (fun c s =>
      { mtxSig 2 ((s.tileOf c.W y.toNat).isSome && decide (x.toNat ≤ 7) &&
          c.h.imms.all (fun p => p.toNat / 256 == 0)) c with srcs := [(.v z.toNat 1, some 2)] })
    (collective (collFields 2 x.toNat y.toNat z.toNat) (mmavs x.toNat y.toNat z.toNat) noPart) s

/-- MZERO (R275). -/
def mzero (bank : Nat) (x : TeamCtx) (_ : Ctx) (s : State) : Coll :=
  match (s.team x.b x.t).shape, s.shapeOf x with
  | some (_, base), some sh => if bank / 2 ≠ base then matrixTrap s 2 else .done (s.append x (.zero (bank % 2)) sh)
  | _, _ => matrixTrap s 1

/-- MZERO. -/
def execMzero (x : BitVec 7) (s : State) : Out :=
  issueWith (fun c _ => mtxSig 0 (decide (x.toNat ≤ 7)) c) (collective (collFields 6 x.toNat 0 0) (mzero x.toNat) noPart) s

/-! ### Edge sets (R268, R277) -/

/-- Words 0 to `n - 1` of a vector as one number. -/
def laneNumber (v : Nat → Word) : Nat → Nat
  | 0 => 0
  | n + 1 => laneNumber v n + (v n).toNat * 2 ^ (32 * n)

/-- MEDGE (R277). -/
def medge (j part z : Nat) (x : TeamCtx) (_ : Ctx) (s : State) : Coll :=
  match leadVector x s z (if part = 0 then 3 else 1) with
  | none => .wait s
  | some v =>
    let t := s.team x.b x.t
    .done (s.setTeam x.b x.t (match part with
      | 0 => { t with em := t.em.set j (BitVec.ofNat 256 (laneNumber v 8)) }
      | 1 => { t with en := t.en.set j (BitVec.ofNat 128 (laneNumber v 4)) }
      | _ => { t with ek := t.ek.set j (BitVec.ofNat 128 (laneNumber v 4)) }))

/-- MEDGE. -/
def execMedge (x y z : BitVec 7) (s : State) : Out :=
  issueWith (fun c _ => { mtxSig 0 (decide (x.toNat ≤ 3) && decide (y.toNat ≤ 2)) c with srcs := [(.v z.toNat 1, some 2)] })
    (collective (collFields 7 x.toNat y.toNat z.toNat) (medge x.toNat y.toNat z.toNat) noPart) s

/-! ### Batches (R266, R276) -/

/-- Completes a batch whose operations have all retired: its flags are set in every warp of the team (R94, R266). -/
def State.settleBatch (s : State) (b t n : Nat) : State :=
  let l := (s.stream b t).filter (fun e => e.2.batch == some n)
  if l.all (fun e => e.2.flags.isSome) ∧ l.any (fun e => !e.2.complete) = true then
    let flags := l.foldl (fun a e => a ||| e.2.flags.getD 0) 0
    let s1 := { s with ops := l.foldl (fun m e => sput m e.1 { e.2 with complete := true }) s.ops }
    match sget s.blocks b with
    | none => s1
    | some B => (B.team t).foldl (fun s w => s.raiseIn w flags) s1
  else s

/-- The batches of a team that are open (R266). -/
def State.openBatches (s : State) (b t : Nat) : List Nat :=
  ((s.stream b t).filterMap (fun e => if e.2.complete then none else e.2.batch)).eraseDups

/-- MFENCE closes a batch (R266). -/
def mfence (x : TeamCtx) (_ : Ctx) (s : State) : Coll :=
  if 32 ≤ (s.openBatches x.b x.t).length then .wait s
  else
    let t := s.team x.b x.t
    let n := t.nextBatch
    let s1 : State := { s with ops := s.ops.map (fun (e : Nat × ArrayOp) =>
      if e.2.block = x.b ∧ e.2.team = x.t ∧ e.2.batch = none then (e.1, { e.2 with batch := some n }) else e) }
    .done ((s1.setTeam x.b x.t { t with nextBatch := n + 1 }).settleBatch x.b x.t n)

/-- Every member receives the number of the batch closed (R276). -/
def mfencePart (x : Nat) (c : Ctx) (s : State) : State :=
  match teamCtx c s with
  | none => s
  | some y => s.modWarp c.w (fun W => W.sput c.j x (BitVec.ofNat 32 (((s.team y.b y.t).nextBatch - 1) % 65536)))

/-- MFENCE. -/
def execMfence (x : BitVec 7) (s : State) : Out :=
  issueWith (fun c _ => { mtxSig 0 true c with dsts := [.s x.toNat 1] })
    (collective (collFields 3 x.toNat 0 0) mfence (mfencePart x.toNat)) s

/-- MWAIT n covers a closed batch (R266). -/
def covers (n b : Nat) : Bool := decide ((n % 65536 + 65536 - b % 65536) % 65536 ≤ 32767)

/-- The batches of a team that an MWAIT n covers. -/
def State.coveredBatches (s : State) (b t n : Nat) : List Nat :=
  ((s.stream b t).filterMap (fun e => e.2.batch.bind (fun k => if covers n k then some k else none))).eraseDups

/-- MWAIT (R276). -/
def mwaitBody (x : Nat) (c : Ctx) (s : State) : Res :=
  match teamCtx c s with
  | none => .wait s
  | some y =>
    let n := (c.sread s x).toNat % 65536
    if (s.openBatches y.b y.t).any (covers n) ∨ returned c s = false then .wait (s.waitWith c .issued)
    else
      afterAcquire c s (fun s => .done (s.modWarp c.w (fun W =>
        { W with waited := (W.waited ++ s.coveredBatches y.b y.t n).eraseDups })))

/-- MWAIT. -/
def execMwait (x : BitVec 7) (s : State) : Out :=
  issueWith (fun c _ => { mtxSig 0 true c with srcs := [(.s x.toNat 1, some 0)] }) (mwaitBody x.toNat) s

/-! ### Claims (R262, R263, R270, R271) -/

/-- Removes a latch: the MLOADW that made it stops counting once no quadrant holds it (R267). -/
def State.unlatch (s : State) (b key : Nat) : State :=
  match (s.quad key).latch with
  | none => s
  | some l =>
    let s1 := s.setQuad key { s.quad key with latch := none }
    if s1.quads.any (fun e => match e.2.latch with
        | some m => m.load == l.load
        | none => false) then s1
    else s1.modTile b l.tile (fun t => { t with readers := t.readers - 1 })

/-- Releases quadrants: latches end, banks are discarded (R262, R270). -/
def State.release (s : State) (b t : Nat) (keys : List Nat) : State :=
  let s1 := keys.foldl (fun s k => let s2 := s.unlatch b k; { s2 with quads := sdel s2.quads k }) s
  { s1 with ops := s1.ops.map (fun e =>
      if e.2.block = b ∧ e.2.team = t then (e.1, { e.2 with quads := e.2.quads.filter (fun q => !keys.contains q.1) }) else e) }

/-- Gives free quadrants to a team, banks zero, no latch (R270). -/
def State.own (s : State) (b t : Nat) (keys : List Nat) : State :=
  { s with quads := keys.foldl (fun q k => sput q k { Quadrant.reset with owner := some (b, t) }) s.quads }

/-- All of some quadrants are free. -/
def State.quadsFree (s : State) (keys : List Nat) : Bool := keys.all (fun k => (s.quad k).owner == none)

/-- The claim of a team. -/
def State.claimOf (s : State) (b t : Nat) : Option (Nat × Claim) := s.claims.find? (fun e => e.2.owner == (b, t))

/-- Claims quadrants, all or nothing, behind the claims waiting on the core (R262). -/
def claim (x : TeamCtx) (s : State) (core : Nat) (keys : List Nat) (k : State → Coll) : Coll :=
  match s.claimOf x.b x.t with
  | some (id, q) => if q.granted then k { s with claims := sdel s.claims id } else .wait s
  | none =>
    if keys.isEmpty then k s
    else if s.quadsFree keys ∧ s.claims.any (fun e => e.2.core == core && !e.2.granted) = false then k (s.own x.b x.t keys)
    else
      .wait { s with claims := sput s.claims s.nextId { core := core, owner := (x.b, x.t), quads := keys, granted := false }
                     nextId := s.nextId + 1 }

/-- QUADRANT_CLAIM_GRANT: the first claim waiting on a core is granted when all its quadrants are free (R262). -/
def grantClaim (id : Nat) (s : State) : State :=
  match sget s.claims id with
  | none => s
  | some q =>
    if q.granted = false ∧ s.quadsFree q.quads = true ∧
        s.claims.any (fun e => decide (e.1 < id) && e.2.core == q.core && !e.2.granted) = false then
      { s.own q.owner.1 q.owner.2 q.quads with claims := sput s.claims id { q with granted := true } }
    else s

/-- QUADRANT_CLAIM_GRANT. -/
def execQuadrantClaimGrant (claim : Nat) (s : State) : Out := event (grantClaim claim) s

/-- The quadrants a team owns. -/
def State.owned (s : State) (b t : Nat) : List Nat := (s.quads.filter (fun e => e.2.owner == some (b, t))).map (·.1)

/-- MSHAPE (R270). -/
def mshape (code base : Nat) (x : TeamCtx) (_ : Ctx) (s : State) : Coll :=
  let t := s.team x.b x.t
  match shapeQuads x.core code base with
  | none => matrixTrap s 5
  | some sh =>
    if code = 4 ∧ t.pair = false then matrixTrap s 5
    else if t.shape = some (code, base) then .done s
    else if s.opsRetired x.b x.t = false then .wait s
    else
      let keep := sh.map (·.1)
      let pairQuads := if t.pair then (List.range 4).map (quadKey (x.core + 1)) else []
      let old := (s.owned x.b x.t).filter (fun k => !keep.contains k && !pairQuads.contains k)
      let s1 := s.release x.b x.t old
      let need := keep.filter (fun k => !(s1.owned x.b x.t).contains k)
      claim x s1 x.core need (fun s => .done (s.setTeam x.b x.t { s.team x.b x.t with shape := some (code, base) }))

/-- MSHAPE. -/
def execMshape (x y : BitVec 7) (s : State) : Out :=
  issueWith (fun c _ => mtxSig 0 (decide (x.toNat ≤ 4) && decide (y.toNat ≤ 3)) c)
    (collective (collFields 9 x.toNat y.toNat 0) (mshape x.toNat y.toNat) noPart) s

/-- MPAIR enter (R263, R271). -/
def mpairEnter (x : TeamCtx) (_ : Ctx) (s : State) : Coll :=
  let t := s.team x.b x.t
  let bit := match sget s.blocks x.b with
    | some B => B.desc.pair
    | none => false
  if x.core % 2 = 1 ∨ bit = false then matrixTrap s 6
  else if t.pair then .done s
  else if s.opsRetired x.b x.t = false then .wait s
  else
    claim x s (x.core + 1)
      (((List.range 4).map (quadKey (x.core + 1))).filter (fun k => !(s.owned x.b x.t).contains k))
      (fun s => .done (s.setTeam x.b x.t { s.team x.b x.t with pair := true }))

/-- MPAIR enter. -/
def execMpairEnter (s : State) : Out :=
  issueWith (fun c _ => mtxSig 0 true c) (collective (collFields 8 1 0 0) mpairEnter noPart) s

/-- MPAIR leave (R271). -/
def mpairLeave (x : TeamCtx) (_ : Ctx) (s : State) : Coll :=
  let t := s.team x.b x.t
  if t.pair = false then .done s
  else if s.opsRetired x.b x.t = false then .wait s
  else
    .done ((s.release x.b x.t ((List.range 4).map (quadKey (x.core + 1)))).setTeam x.b x.t
      { t with pair := false, shape := if t.shape = some (4, 0) then some (3, 0) else t.shape })

/-- MPAIR leave. -/
def execMpairLeave (s : State) : Out :=
  issueWith (fun c _ => mtxSig 0 true c) (collective (collFields 8 0 0 0) mpairLeave noPart) s

/-! ### MSTORE (R278, R279) -/

/-- A bank of a quadrant. -/
def Quadrant.bank (q : Quadrant) (b : Nat) : SMap Word := if b = 0 then q.bank0 else q.bank1

/-- Sets a bank. -/
def Quadrant.setBank (q : Quadrant) (b : Nat) (x : SMap Word) : Quadrant :=
  if b = 0 then { q with bank0 := x } else { q with bank1 := x }

/-- An operation writes an element of a bank (R273, R275). -/
def ArrayOp.writes (o : ArrayOp) (rows : Nat) (quad bank m col : Nat) : Bool :=
  o.quads.any (fun e => e.1 == quad && e.2.2 == 0 &&
    (match o.kind with
      | .loadw _ _ => false
      | .zero b => b == bank
      | .mma b _ row0 em en _ _ => b == bank && em.getLsbD m && en.getLsbD ((64 * e.2.1 + col) % 128) && decide (row0 + m < rows)))

/-- Rows of the activation tile of an operation. -/
def State.opRows (s : State) (o : ArrayOp) : Nat :=
  match o.kind with
  | .mma _ tile _ _ _ _ _ => ((s.tile o.block tile).map (·.rows)).getD 0
  | _ => 256

/-- An element is defined for a warp: the team holds its quadrant, and every operation of the team that writes it lies in a batch
that an MWAIT of the warp has covered (R262, R278). -/
def State.defined (s : State) (x : TeamCtx) (waited : List Nat) (quad bank m col : Nat) : Bool :=
  (s.quad quad).owner == some (x.b, x.t) &&
  (s.stream x.b x.t).all (fun e =>
    !e.2.writes (s.opRows e.2) quad bank m col ||
      (match e.2.batch with
        | some b => waited.contains b
        | none => false))

/-- The quadrant that holds a column. -/
def columnQuad (sh : List (Nat × Nat × Nat)) (n : Nat) : Nat :=
  ((sh.find? (fun e => e.2.1 == n / 64 && e.2.2 == 0)).map (·.1)).getD 0

/-- The value MSTORE reads: the element, or a free value where it is undefined (R9, R278). -/
def State.element (s : State) (x : TeamCtx) (sh : List (Nat × Nat × Nat)) (waited : List Nat) (bank m n at_ : Nat) : Word :=
  let q := columnQuad sh n
  if s.defined x waited q bank m (n % 64) then zget 0 ((s.quad q).bank bank) (64 * m + n % 64)
  else Config.freeWord (s.fresh + at_)

/-- The checks of R269 for MSTORE: causes 1, 2. -/
def mstoreChecks (bank : Nat) (x : TeamCtx) (s : State) (k : List (Nat × Nat × Nat) → Res) : Res :=
  match s.shapeOf x with
  | none => .trap s (Trap.of 0x16 1)
  | some sh =>
    if sh.any (fun e => e.2.2 == 0 && e.1 == quadKey x.core (bank / 2)) then k sh else .trap s (Trap.of 0x16 2)

/-- MSTORE to registers (R278). -/
def mstoreReg (d bank z : Nat) (c : Ctx) (s : State) : Res :=
  match teamCtx c s with
  | none => .wait s
  | some x =>
    let sel := (c.sread s z).toNat
    let row := field sel 0 8
    let col := field sel 8 8
    let n := field sel 16 4 + 1
    if c.W.window < d + n then .trap s (Trap.of 3 0)
    else
      mstoreChecks bank x s (fun sh =>
        if field sel 20 12 ≠ 0 ∨ 255 < row + 31 ∨ extentN sh < col + n then .trap s (Trap.of 0x16 7)
        else if (List.range n).all (fun i => (Opnd.v (d + i) 1).full c.W c.G.slices) = false then .wait s
        else
          longVec c { s with fresh := s.fresh + 32 * n } d n 0 .other
            (fun i lane => s.element x sh c.W.waited (bank % 2) (row + lane) (col + i) (32 * i + lane)))

/-- MSTORE to a register. -/
def execMstoreRegister (x : BitVec 7) (b : BitVec 3) (z : BitVec 7) (s : State) : Out :=
  issueWith (fun c _ =>
      { mtxSig 0 true c with guard := true, srcs := [(.s z.toNat 1, some 2)], dsts := [.v x.toNat 1] })
    (mstoreReg x.toNat b.toNat z.toNat) s

/-- A tile MSTORE can fill (R279). -/
def mstoreFormat (t : Tile) : Bool :=
  (!t.plane && [8, 0, 9, 10].contains t.fmt) || isPalush t.fmt || t.fmt == 19

/-- MSTORE to a tile (R279). -/
def mstoreTileBody (tile bank z : Nat) (c : Ctx) (s : State) : Res :=
  if c.act = 0 then .done s
  else
    match teamCtx c s, s.tileOf c.W tile with
    | some x, some t =>
      let sel := (c.sread s z).toNat
      let row := field sel 0 8
      let col := field sel 8 8
      mstoreChecks bank x s (fun sh =>
        if field sel 16 16 ≠ 0 ∨ 256 < row + t.rows ∨ extentN sh < col + t.k ∨ mstoreFormat t = false then
          .trap s (Trap.of 0x16 7)
        else
          match tileFault tile t with
          | some f => .trap s f
          | none =>
            let values := (List.range t.rows).map (fun i =>
              (i, (List.range t.k).map (fun k => s.element x sh c.W.waited (bank % 2) (row + i) (col + k) (256 * i + k))))
            accept c { s with fresh := s.fresh + 65536 } tile t false false t.fmt
              ((List.range t.rows).map (fun i => (i, 0))) values)
    | _, _ => .wait s

/-- MSTORE to a tile. -/
def execMstoreTile (x : BitVec 7) (b : BitVec 3) (z : BitVec 7) (s : State) : Out :=
  issueWith (fun c s =>
      { mtxSig 0 (s.tileOf c.W x.toNat).isSome c with guard := true, srcs := [(.s z.toNat 1, some 2)] })
    (mstoreTileBody x.toNat b.toNat z.toNat) s

/-! ### The array (R265, R273, R92, R93) -/

/-- The K-group a latch holds at a column and a group of the shape: fields of its 16 elements, micro bits, exponent; zeros
beyond the tile (R272). -/
def Latch.group (l : Latch) (col g : Nat) : List (Bool × Nat) × Nat × Nat :=
  match l.rows[l.col + col]? with
  | none => (List.replicate 16 (false, 0), 0, 0)
  | some bytes =>
    let r := if l.plane then RawRow.ofPlanes l.fmt l.k bytes else RawRow.ofPacked l.fmt l.k bytes
    let k0 := l.elem + 16 * g
    let (micro, e) := (r.groups[k0 / 16]?).getD (0, 0)
    ((List.range 16).map (fun i => (r.fields[k0 + i]?).getD (false, 0)), micro, e)

/-- A signed field. -/
def fieldInt (x : Bool × Nat) : Int := if x.1 then -(x.2 : Int) else x.2

/-- The exact sum of a K-group (R92, R93). -/
def groupSum (palush : Bool) (ek : Nat → Bool) (a w : List (Bool × Nat)) (ua uw : Nat) : Int :=
  (List.range 16).foldl (fun sum i =>
    if ek i then
      let p := fieldInt ((a[i]?).getD (false, 0)) * fieldInt ((w[i]?).getD (false, 0))
      let sh := if palush then 2 - (if ua.testBit (i / 2) then 1 else 0) - (if uw.testBit (i / 2) then 1 else 0) else 0
      sum + p * 2 ^ sh
    else sum) 0

/-- One step of the accumulation of a floating K-group: two roundings (R92, R94). -/
def accFloat (acc : Word) (sum sc : Int) : Word × Word :=
  let (g, f1) := f32.round .rne (decide (sum < 0)) sum.natAbs sc false
  let (x, f2) := f32.addV .rne (f32.read acc.toNat) (f32.read g)
  (BitVec.ofNat 32 x, (f1 ||| f2) &&& (fNV ||| fOF))

/-- One step of the accumulation of an integer K-group (R93). -/
def accInt (acc : Word) (sum : Int) : Word × Word :=
  let x := acc.toInt + sum
  (BitVec.ofInt 32 x, flagIf (decide (x < typeMin true 32 ∨ typeMax true 32 < x)) fIO)

/-- One output element of an MMA (R92, R93). -/
def mmaElement (t : Tile) (row : RawRow) (latch : Nat → Option Latch) (col : Nat) (ek : BitVec 128)
    (scales : Option (Bool × List Byte)) (acc : Word) : Word × Word :=
  (List.range (t.k / 16)).foldl (fun a g =>
    let on (i : Nat) : Bool := ek.getLsbD (16 * g + i)
    if (List.range 16).all (fun i => !on i) then a
    else
      match latch (g / 4) with
      | none => a
      | some l =>
        let (w, uw, ew0) := l.group col (g % 4)
        let (ua, ea0) := (row.groups[g]?).getD (0, 0)
        let sc := (scales.bind (fun x => (x.2[g]?).map (fun b => (x.1, b.toNat))))
        let ea := match sc with
          | some (false, b) => b
          | _ => ea0
        let ew := match sc with
          | some (true, b) => b
          | _ => ew0
        let av := (List.range 16).map (fun i => (row.fields[16 * g + i]?).getD (false, 0))
        if t.fmt = 6 then
          let (x, f) := accInt a.1 (groupSum false on av w 0 0)
          (x, a.2 ||| f)
        else if ea = 0xFF ∨ ew = 0xFF then (0x7FC00000, a.2)
        else
          let pal := isPalush t.fmt
          let sum := groupSum pal on av w ua uw
          let scale : Int := (ea : Int) + ew - 254 - (if pal then magBits t.fmt + magBits l.fmt else 28 : Nat)
          let (x, f) := accFloat a.1 sum scale
          (x, a.2 ||| f)) (acc, 0)

/-- Performs an MMA: every unmasked element of the output banks, and the flags (R273). -/
def State.performMma (s : State) (o : ArrayOp) (bank tile row0 : Nat) (em : BitVec 256) (en ek : BitVec 128)
    (scales : Option (Bool × List Byte)) : State × Word :=
  match sget s.blocks o.block, s.tile o.block tile with
  | some B, some t =>
    let latchAt (n k : Nat) : Option Latch :=
      (o.quads.find? (fun e => e.2.1 == n && e.2.2 == k)).bind (fun e => (s.quad e.1).latch)
    (o.quads.filter (fun e => e.2.2 == 0)).foldl (fun (a : State × Word) e =>
      let rows := (List.range 256).filter (fun m => em.getLsbD m && decide (row0 + m < t.rows))
      let q := a.1.quad e.1
      let cols := (List.range 64).filter (fun i => en.getLsbD ((64 * e.2.1 + i) % 128))
      let (bk, f) := rows.foldl (fun (x : SMap Word × Word) m =>
        let row := RawRow.ofPlanes t.fmt t.k (s.bytes (B.rowKey t (row0 + m)) t.rowBytes)
        cols.foldl (fun (x : SMap Word × Word) i =>
          let (v, f) := mmaElement t row (latchAt e.2.1) i ek scales (zget 0 x.1 (64 * m + i))
          (zput 0 x.1 (64 * m + i) v, x.2 ||| f)) x) (q.bank bank, 0)
      (a.1.setQuad e.1 (q.setBank bank bk), a.2 ||| f)) (s, 0)
  | _, _ => (s, 0)

/-- Two operations of a stream must keep their order: one of them is an MLOADW, or they write the same bank (R265). -/
def ArrayOp.ordered (a b : ArrayOp) : Bool :=
  match a.kind, b.kind with
  | .loadw _ _, _ => true
  | _, .loadw _ _ => true
  | .mma x _ _ _ _ _ _, .mma y _ _ _ _ _ _ => x == y
  | .mma x _ _ _ _ _ _, .zero y => x == y
  | .zero x, .mma y _ _ _ _ _ _ => x == y
  | .zero x, .zero y => x == y

/-- ARRAY_OPERATION_START: an operation begins streaming, in stream order (R265). -/
def startOp (id : Nat) (s : State) : State :=
  match sget s.ops id with
  | none => s
  | some o =>
    if (s.stream o.block o.team).any (fun e => decide (e.1 < id) && !e.2.started) then s
    else { s with ops := sput s.ops id { o with started := true } }

/-- ARRAY_OPERATION_START. -/
def execArrayOperationStart (op : Nat) (s : State) : Out := event (startOp op) s

/-- The rows of a tile of a block, as scratch holds them. -/
def State.tileRows (s : State) (B : Block) (t : Tile) : List (List Byte) :=
  (List.range t.rows).map (fun i => s.bytes (B.rowKey t i) t.rowBytes)

/-- Latches a weight tile in the quadrants of an MLOADW (R272). -/
def State.latchAll (s : State) (id : Nat) (o : ArrayOp) (tile : Nat) : State :=
  match sget s.blocks o.block, s.tile o.block tile with
  | some B, some t =>
    let rows := s.tileRows B t
    o.quads.foldl (fun s e =>
      let s1 := s.unlatch o.block e.1
      s1.setQuad e.1 { s1.quad e.1 with
        latch := some { tile := tile, fmt := t.fmt, plane := t.plane, k := t.k, col := 64 * e.2.1, elem := 64 * e.2.2,
                        load := id, rows := rows } }) s
  | _, _ => s

/-- Beats of one element row of an activation format (R90). -/
def rowBeats (fmt : Nat) : Nat :=
  match fmt with
  | 16 => 1
  | 17 => 2
  | 18 => 4
  | 6 => 4
  | _ => 8

/-- Array beats of an operation: a row slot for each unmasked row, times the beats of R90. -/
def State.opBeats (s : State) (o : ArrayOp) : Nat :=
  match o.kind with
  | .mma _ tile row0 em _ _ _ =>
    match s.tile o.block tile with
    | some t => ((List.range 256).filter (fun m => em.getLsbD m && decide (row0 + m < t.rows))).length * rowBeats t.fmt
    | none => 0
  | _ => 0

/-- ARRAY_OPERATION_RETIREMENT: an operation's effect is whole; a batch whose last operation this is completes (R265,
R266). -/
def retireOp (id : Nat) (s : State) : State :=
  match sget s.ops id with
  | none => s
  | some o =>
    if o.started = false ∨ o.flags.isSome = true ∨
        (s.stream o.block o.team).any (fun e => decide (e.1 < id) && e.2.flags.isNone && e.2.ordered o) = true then s
    else
      let (s1, f) : State × Word := match o.kind with
        | .loadw tile _ => (s.latchAll id o tile, 0)
        | .zero b =>
          ((o.quads.filter (fun e => e.2.2 == 0)).foldl (fun s e => s.setQuad e.1 ((s.quad e.1).setBank b [])) s, 0)
        | .mma b tile row0 em en ek sc =>
          let (s1, f) := s.performMma o b tile row0 em en ek sc
          (s1.modTile o.block tile (fun t => { t with readers := t.readers - 1 }), f)
      let s2 := { s1 with ops := smod s1.ops id (fun o => { o with flags := some f }) }.count
        (((sget s.blocks o.block).map (fun (B : Block) => ctxFn B.ctx)).getD 0) 5 (s.opBeats o)
      match o.batch with
      | some n => s2.settleBatch o.block o.team n
      | none => s2

/-- ARRAY_OPERATION_RETIREMENT. -/
def execArrayOperationRetirement (op : Nat) (s : State) : Out := event (retireOp op) s

/-- A saved quadrant as it comes back: its latch is loaded again from its recorded tile (R267, R280). -/
def State.relatch (s : State) (b : Nat) (q : Quadrant) : Quadrant :=
  { q with latch := q.latch.map (fun l =>
      match sget s.blocks b, s.tile b l.tile with
      | some B, some t => { l with rows := s.tileRows B t }
      | _, _ => l) }

/-- Releases everything a block's teams own, when the block ends (R262). -/
def State.releaseTeams (s : State) (b : Nat) : State :=
  let keys := (s.quads.filter (fun e => match e.2.owner with
    | some (x, _) => x == b
    | none => false)).map (·.1)
  { s with quads := keys.foldl sdel s.quads
           ops := s.ops.filter (fun e => !(e.2.block == b))
           claims := s.claims.filter (fun e => !(e.2.owner.1 == b)) }

end Sys2Proof.Machine
end

