-- ==== Sys2Proof/Machine/Sync.lean ====
section
/-! DEFINITION. Fences, barriers and TFENCE (11_isa_memory R165 to R168, 05_numbers R100, 01_machine R38, 15_tree R211,
27_links R324). -/

namespace Sys2Proof.Machine

/-! ### Fences (R165) -/

/-- Signature of an instruction that names nothing. -/
def bareSig (_ : HintSet) : Sig := Sig.plain

/-- FENCE.ACQ. -/
def execFenceAcq (s : State) : Out := issue bareSig (fun c s => afterAcquire c s .done) s

/-- FENCE.REL. -/
def execFenceRel (s : State) : Out := issue bareSig (fun c s => afterRelease c s .done) s

/-- FENCE.AR. -/
def execFenceAr (s : State) : Out := issue bareSig (fun c s => afterRelease c s (fun s => afterAcquire c s .done)) s

/-- Some instruction of the warp that can set a flag has not written its result (R100). -/
def flagsOut (c : Ctx) (s : State) : Bool := s.inflight.any (fun e => decide (e.2.warp = c.w) && e.2.mayFlag)

/-- TFENCE (R100). -/
def tfenceBody (c : Ctx) (s : State) : Res :=
  if flagsOut c s then .wait s
  else
    let f := field c.W.flags.toNat 0 9 &&& field c.W.flags.toNat 16 9
    if f ≠ 0 then .trap s (Trap.of 0x20 f) else .done s

/-- TFENCE. -/
def execTfence (s : State) : Out := issue bareSig tfenceBody s

/-! ### Trees as they stand (R211) -/

/-- A field of a node record of a grove. -/
def State.nodeNum (s : State) (G : Grove) (node off n : Nat) : Nat :=
  s.hwNum G.ctx (s.nodeAddr G node + BitVec.ofNat 64 off) n

/-- A node runs a block in this phase: it has a kernel and is not in error (R210, R228). -/
def State.hasBlock (s : State) (G : Grove) (node : Nat) : Bool :=
  s.nodeNum G node 0 2 != 0xFFFF && !G.errors.contains node

/-- The children of a node, ascending; none below a node in error. -/
def State.children (s : State) (G : Grove) (node : Nat) : List Nat :=
  if G.errors.contains node then []
  else List.range' (s.nodeNum G node 8 4) (s.nodeNum G node 0x0C 2)

/-- The nodes of the tree level by level from some nodes down, `fuel` levels. -/
def State.subtree (s : State) (G : Grove) : Nat → List Nat → List Nat
  | 0, _ => []
  | n + 1, l => if l.isEmpty then [] else l ++ s.subtree G n (l.flatMap (s.children G))

/-- The nodes of the phase: reachable from the root and not grown in it. -/
def State.phaseNodes (s : State) (G : Grove) : List Nat :=
  (s.subtree G (G.depth + 1) [G.root]).filter (fun n => !G.grownNodes.contains n)

/-- The die or die pair of a core, by the region's domain (R211). -/
def Grove.dieOf (G : Grove) (core : Nat) : Nat := if G.domain 6 = 5 then core / 64 else core / 32

/-- The region domains that hold cores of the core set, ascending. -/
def Grove.domains (G : Grove) : List Nat := (List.range 4).filter (fun d => G.cores.any (fun c => G.dieOf c == d))

/-- The region domain of the node at a place of the tree: the root in the first, the subtree of the root's child at
position c in the (c mod G)-th (R211). -/
def Grove.region (G : Grove) (top : Option Nat) : Nat :=
  match top with
  | none => (G.domains.head?).getD 0
  | some c => (G.domains[c % G.domains.length]?).getD 0

/-- The position of the root's child above a node; none for the root, and below children that the root grew in this phase, which
run on the root's domain (R211). Found by walking up, `fuel` levels. -/
def State.topChild (s : State) (G : Grove) : Nat → Nat → Option Nat
  | 0, _ => none
  | n + 1, node =>
    if node = G.root then none
    else
      let p := s.nodeNum G node 0x10 4
      if p = G.root ∧ G.grownNodes.contains node = true then none
      else if p = G.root then some (node - s.nodeNum G G.root 8 4) else s.topChild G n p

/-- The region domain of a node (R211). -/
def State.regionOf (s : State) (G : Grove) (node : Nat) : Nat := G.region (s.topChild G (G.depth + 1) node)

/-! ### Barriers (R38, R166 to R168) -/

/-- The instance of a level that a warp's block belongs to; none where it belongs to none (R166, R211). -/
def instanceOf (W : Warp) (B : Block) (G : Grove) (level : Nat) : Option (List Nat) :=
  match W.block with
  | none => none
  | some b =>
    match level with
    | 3 => some [b, W.index / B.desc.team]
    | 4 => some [b]
    | 5 => if B.grown then none else B.cluster.map (fun x => [W.grove, G.phase, x.1, x.2])
    | 6 => if B.grown then none else B.region.map (fun x => [W.grove, G.phase, x])
    | 7 => if B.grown then none else some [W.grove, G.phase]
    | _ => none

/-- The barrier a warp's instruction names; none where the instruction is illegal (R67, R166, R211). -/
def State.barrierKey (s : State) (W : Warp) (level num : Nat) : Option (List Nat) :=
  match W.block.bind (sget s.blocks), sget s.groves W.grove with
  | some B, some G =>
    if 3 ≤ level ∧ level ≤ 7 ∧ G.domain level ≠ 0 ∧ num < G.barrierCount level then instanceOf W B G level else none
  | _, _ => none

/-- A barrier in which no one has arrived. -/
def Barrier.unused (level : Nat) (inst : List Nat) (num : Nat) : Barrier :=
  { level := level, inst := inst, num := num, phase := 0, arrived := [], packets := [], parts := [], result := 0, broken := false }

/-- The number of the barrier, where it has been used. -/
def State.findBarrier (s : State) (level : Nat) (inst : List Nat) (num : Nat) : Option (Nat × Barrier) :=
  s.barriers.find? (fun e => e.2.level == level && e.2.inst == inst && e.2.num == num)

/-- A warp has arrived: every unexited slice has, or it has ended (R166). Exited slices and an ended warp count once their stores
are registered, so that what they wrote is read after the barrier (R204). -/
def State.warpArrived (s : State) (b : Barrier) (w : Nat) : Bool :=
  let live := match sget s.warps w with
    | some W => if W.ended then 0 else W.live
    | none => 0
  live &&& ~~~(zget 0 b.arrived w) == 0 && !s.storesOut w (~~~live) && !s.drainsOut w (~~~live) &&
    (live != 0 || !s.steps.any (fun e => e.2.warp == w))

/-- A member warp counts: over more than one core its packet has reached the router (R38). -/
def State.memberDone (s : State) (b : Barrier) (wide : Bool) (w : Nat) : Bool :=
  s.warpArrived b w && (!wide || b.packets.contains w || (match sget s.warps w with
    | none => true
    | some W => W.ended))

/-- The block of a node has ended. -/
def State.nodeEnded (s : State) (g : Nat) (G : Grove) (node : Nat) : Bool :=
  G.doneNodes.contains node ||
    s.trails.any (fun t => t.2.grove == g && t.2.path.any (fun p => p.node == node && p.done))

/-- Every warp of a node's block has arrived (R166). -/
def State.nodeArrived (s : State) (g : Nat) (G : Grove) (b : Barrier) (node : Nat) : Bool :=
  !s.hasBlock G node || s.nodeEnded g G node ||
    s.blocks.any (fun e => e.2.grove == g && e.2.node == node && e.2.admitted && e.2.members.all (s.memberDone b true))

/-- The nodes of a run of a node's children (R211). -/
def State.runNodes (s : State) (G : Grove) (parent run : Nat) : List Nat :=
  if parent = 0xFFFFFFFF then [G.root]
  else ((s.children G parent).drop (run * G.levelSize 5)).take (G.levelSize 5)

/-- The number that stands among a barrier's packets for the report of another device (R324). -/
def remoteMember (dev : Nat) : Nat := 2 ^ 64 + dev

/-- The devices of a context's device group, ascending. -/
def State.groupDevices (s : State) (ctx : Nat) : List Nat := onesBelow 16 (s.context ctx).hxgroup.toNat

/-- The device group's name. -/
def State.groupOf (s : State) (ctx : Nat) : Nat := field (s.context ctx).hxgroup.toNat 0 24

/-- This device's index. -/
def State.ownDevice (s : State) : Nat := field s.hxdev.toNat 0 4

/-- The root of a context's device group: its lowest device index (R324). -/
def State.rootDevice (s : State) (ctx : Nat) : Nat := ((s.groupDevices ctx).head?).getD 0

/-- The devices whose barrier packets this device waits for: the root waits for every other member, a member for the root's
release (R324). -/
def State.awaitedDevices (s : State) (ctx : Nat) : List Nat :=
  if s.rootDevice ctx = s.ownDevice then (s.groupDevices ctx).filter (· != s.ownDevice) else [s.rootDevice ctx]

/-- The live groves of a device group that run in it. -/
def State.groupGroves (s : State) (group : Nat) : List (Nat × Grove) :=
  s.groves.filter (fun e => e.2.domain 7 == 7 && decide (s.groupOf e.2.ctx = group))

/-- The groves of this device that share a grove's device-level barriers: those of its device group, itself among them (R324). -/
def State.mates (s : State) (g : Nat) : List (Nat × Grove) :=
  match sget s.groves g with
  | some G => if G.domain 7 = 7 then s.groupGroves (s.groupOf G.ctx) else [(g, G)]
  | none => []

/-- What a device-domain barrier of this device waits for: the context of its grove and the phases other devices have ended. It
outlives the grove of the root (R324). -/
def State.groupState (s : State) (g : Nat) : Option (Nat × List Nat) :=
  match sget s.groves g with
  | some G => if G.domain 7 = 7 then some (G.ctx, (s.mates g).flatMap (fun e => e.2.gone)) else none
  | none => (s.roots.find? (fun r => r.grove == g)).map (fun r => (r.ctx, r.gone))

/-- Every warp of the grove has arrived in a barrier of its phase `ph`, or the grove is past that phase (R324). -/
def State.ownArrived (s : State) (g : Nat) (G : Grove) (ph : Nat) (b : Barrier) : Bool :=
  decide (ph < G.phase) || (decide (G.phase = ph) && (s.phaseNodes G).all (s.nodeArrived g G b))

/-- The barriers of the other groves of this device that a barrier of a device group is one with (R324). -/
def State.others (s : State) (b : Barrier) : List (Nat × Barrier) :=
  match b.level, b.inst with
  | 7, [g, ph] => ((s.mates g).filter (fun e => e.1 != g)).filterMap (fun e => s.findBarrier 7 [e.1, ph] b.num)
  | _, _ => []

/-- Every warp of the groves of this device has arrived in a barrier of a device group, or of its grove in any other device-level
barrier (R166, R324). -/
def State.matesArrived (s : State) (g ph : Nat) (b : Barrier) : Bool :=
  (s.mates g).all (fun e => s.ownArrived e.1 e.2 ph
    (if e.1 = g then b
      else match s.findBarrier 7 [e.1, ph] b.num with
        | some (_, x) => x
        | none => Barrier.unused 7 [e.1, ph] b.num))

/-- The packets that have come for a barrier and those it is one with. -/
def State.packetsOf (s : State) (b : Barrier) : List Nat := b.packets ++ (s.others b).flatMap (fun e => e.2.packets)

/-- The contributions to a barrier and those it is one with. -/
def State.partsOf (s : State) (b : Barrier) : List (Nat × Bool × Word) := b.parts ++ (s.others b).flatMap (fun e => e.2.parts)

/-- The other devices have arrived in a barrier of a phase of a grove: a packet of each has come, or, at the root, it has ended
that phase (R324). -/
def State.devicesArrived (s : State) (ctx ph : Nat) (gone : List Nat) (b : Barrier) : Bool :=
  (s.awaitedDevices ctx).all (fun d =>
    (s.packetsOf b).contains (remoteMember d) || (gone.contains (d + 16 * ph) && decide (s.rootDevice ctx = s.ownDevice)))

/-- Every member of the current phase has arrived (R166, R324). -/
def State.phaseFull (s : State) (b : Barrier) : Bool :=
  match b.level, b.inst with
  | 3, [blk, team] =>
    match sget s.blocks blk with
    | some B => ((B.members.drop (team * B.desc.team)).take B.desc.team).all (s.memberDone b false)
    | none => true
  | 4, [blk] =>
    match sget s.blocks blk with
    | some B => B.members.all (s.memberDone b (B.cores.length != 1))
    | none => true
  | 5, [g, _, parent, run] =>
    match sget s.groves g with
    | some G => (s.runNodes G parent run).all (s.nodeArrived g G b)
    | none => true
  | 6, [g, _, dom] =>
    match sget s.groves g with
    | some G => ((s.phaseNodes G).filter (fun n => s.regionOf G n == dom)).all (s.nodeArrived g G b)
    | none => true
  | 7, [g, ph] =>
    s.matesArrived g ph b &&
    (match s.groupState g with
      | some (ctx, gone) => s.devicesArrived ctx ph gone b
      | none => true)
  | _, _ => true

/-- The level's instance spans more than one core, so that arrivals travel as packets (R38). -/
def State.isWide (s : State) (b : Barrier) : Bool :=
  match b.level, b.inst with
  | 3, _ => false
  | 4, [blk] =>
    match sget s.blocks blk with
    | some B => B.cores.length != 1
    | none => false
  | _, _ => true

/-- The combination of MEET.RED's contributions, all of one op and sign (R168). -/
def combine (op : Nat) (signed : Bool) (l : List Word) : Word :=
  let v (x : Word) : Int := if signed then x.toInt else x.toNat
  match op with
  | 0 => l.foldl (fun a x => if v a < v x then x else a) (if signed then 0x80000000 else 0)
  | 1 => l.foldl (fun a x => if v x < v a then x else a) (if signed then 0x7FFFFFFF else 0xFFFFFFFF)
  | 2 => l.foldl (· + ·) 0
  | 3 => l.foldl (· &&& ·) 0xFFFFFFFF
  | _ => l.foldl (· ||| ·) 0

/-- The combination of a phase's contributions; those of unlike ops, or unlike in bit 9, give a free value (R168). -/
def combineParts (fresh : Nat) (l : List (Nat × Bool × Word)) : Word :=
  match l with
  | [] => 0
  | x :: r =>
    if r.all (fun y => y.1 == x.1 && y.2.1 == x.2.1) then combine x.1 x.2.1 (l.map (·.2.2)) else Config.freeWord fresh

/-- A barrier packet of this device (R168, R324; assumption 30), with its group, barrier number and grove phase: type 0 a report
with nothing to combine, 1 and 2 one with an unsigned and a signed part, 3 and 4 the root's release without and with the
combination, 5 the end of the phase, or, with phase 2, of the grove. -/
def barrierMessage (group num phase type : Nat) (fn : Nat) (data : Word) : Packet :=
  { kind := 5, size := field group 16 8, fn := fn, type := type, tag := num, addr := field group 0 16, data := data.toNat,
    other := phase }

/-- The group a barrier packet names. -/
def Packet.group (p : Packet) : Nat := p.size * 2 ^ 16 + p.addr % 2 ^ 16

/-- The link to a device of a function's stand that barrier packets travel on: the lowest that is up, or retrains (R320, R324). -/
def State.groupLink (s : State) (ctx dev : Nat) : Option Nat :=
  (onesBelow 12 (field (s.stand (s.standOf (ctxFn ctx))).flink.toNat 16 12)).find? (fun k =>
    let x := s.link k
    x.peer == dev && (x.phase == 2 || (x.phase == 1 && x.retrain.isSome)))

/-- The grove, the grove phase, the context and the ended phases of a barrier that spans a device group (R324). -/
def State.groupBarrier (s : State) (b : Barrier) : Option (Nat × Nat × Nat × List Nat) :=
  match b.level, b.inst with
  | 7, [g, ph] => (s.groupState g).map (fun x => (g, ph, x.1, x.2))
  | _, _ => none

/-- What a member other than the root has still to report of a phase: its link and packet, once every warp of its own grove
has arrived (R324). -/
def State.report (s : State) (b : Barrier) : Option (Nat × Packet) :=
  match s.groupBarrier b with
  | none => none
  | some (g, ph, ctx, _) =>
    match sget s.groves g with
    | none => none
    | some G =>
      if s.rootDevice ctx = s.ownDevice ∨ b.arrived = [] ∨ (s.packetsOf b).contains (remoteMember s.ownDevice) = true ∨ G.phase ≠ ph ∨
          s.matesArrived g ph b = false then none
      else
        let group := s.groupOf ctx
        (s.groupLink ctx (s.rootDevice ctx)).map (fun k => (k, match s.partsOf b with
          | [] => barrierMessage group b.num ph 0 0 0
          | x :: l => barrierMessage group b.num ph (if x.2.1 then 2 else 1) x.1 (combineParts s.fresh (x :: l))))

/-- The links and the packet of the root's release to the other members; none where one has no link up (R324). -/
def State.releases (s : State) (b : Barrier) : Option (List (Nat × Packet)) :=
  match s.groupBarrier b with
  | none => some []
  | some (_, ph, ctx, gone) =>
    if s.rootDevice ctx ≠ s.ownDevice then some []
    else
      let p := barrierMessage (s.groupOf ctx) b.num ph (if (s.partsOf b).isEmpty then 3 else 4) 4 (combineParts s.fresh (s.partsOf b))
      ((s.groupDevices ctx).filter (fun d => d != s.ownDevice && !gone.contains (d + 16 * ph))).foldl (fun a d =>
        match a, s.groupLink ctx d with
        | some l, some k => some (l ++ [(k, p)])
        | _, _ => none) (some [])

/-! ### Barrier packets of other devices (R324) -/

/-- A barrier of the device domain, made where it has not been used. -/
def State.deviceBarrier (s : State) (g phase num : Nat) : Nat × Barrier × State :=
  match s.findBarrier 7 [g, phase] num with
  | some (id, b) => (id, b, s)
  | none =>
    let b := Barrier.unused 7 [g, phase] num
    (s.nextId, b, { s with barriers := sput s.barriers s.nextId b, nextId := s.nextId + 1 })

/-- The phases that a packet of type 5 ends at a device. -/
def endedPhases (dev : Nat) (p : Packet) : List Nat := if p.other = 2 then [dev, dev + 16] else [dev + 16 * p.other]

/-- A packet of another device cannot be taken yet by a barrier of grove `g`, whose current phase is `now` where it is live: its
phase has not begun here, the device's earlier report has not been released, or its device has ended that phase, so that it
belongs to a later grove of the group. -/
def State.tooEarly (s : State) (g : Nat) (now : Option Nat) (gone : List Nat) (dev : Nat) (p : Packet) : Bool :=
  let ph := if p.other = 2 then 1 else p.other
  gone.contains (dev + 16 * ph) ||
    (p.type != 5 && ((now.map (fun n => decide (n < ph))).getD false || (match s.findBarrier 7 [g, ph] p.tag with
      | some (_, b) => b.packets.contains (remoteMember dev)
      | none => false)))

/-- A report or a release joins the barrier it names of a grove; what it contributes goes to one of the barriers that are one (R168,
R324). -/
def State.joinBarrier (s : State) (g : Nat) (first : Bool) (dev : Nat) (p : Packet) : State :=
  let (id, b, s1) := s.deviceBarrier g p.other p.tag
  let part : List (Nat × Bool × Word) := if first = false ∨ p.type = 0 ∨ p.type = 3 then [] else [(p.fn, p.type == 2, BitVec.ofNat 32 p.data)]
  let b1 : Barrier :=
    { b with packets := b.packets ++ [remoteMember dev], parts := if 3 ≤ p.type then part else b.parts ++ part }
  { s1 with barriers := sput s1.barriers id b1 }

/-- Every other device of a root's group has ended its grove. -/
def State.rootDone (s : State) (r : GroupRoot) : Bool :=
  (onesBelow 16 r.group).all (fun d => d == s.ownDevice || (r.gone.contains d && r.gone.contains (d + 16)))

/-- A root whose members have all ended serves no more. -/
def State.dropRoots (s : State) : State :=
  let out := (s.roots.filter s.rootDone).map (·.grove)
  { s with roots := s.roots.filter (fun r => !out.contains r.grove)
           barriers := s.barriers.filter (fun e => !(e.2.level == 7 && out.any (fun g => e.2.inst.head? == some g))) }

/-- Takes a barrier packet of another device: the root of a group that goes on without its own grove first, else the live groves
of the group; none while it cannot be taken (R324). -/
def State.takeBarrier (s : State) (dev : Nat) (p : Packet) : Option State :=
  match s.roots.find? (fun r => decide (r.group = p.group) && !s.tooEarly r.grove none r.gone dev p) with
  | some r =>
    if p.type = 5 then
      let roots := s.roots.map (fun (x : GroupRoot) => if x.grove = r.grove then { x with gone := x.gone ++ endedPhases dev p } else x)
      some { s with roots := roots }.dropRoots
    else some (s.joinBarrier r.grove true dev p)
  | none =>
    let l := s.groupGroves p.group
    if l.isEmpty ∨ l.any (fun e => s.tooEarly e.1 (some e.2.phase) e.2.gone dev p) then none
    else
      some (l.foldl (fun s e =>
        if p.type = 5 then s.modGrove e.1 (fun G => { G with gone := G.gone ++ endedPhases dev p })
        else s.joinBarrier e.1 (l.head?.map (·.1) == some e.1) dev p) s)

/-- Takes the barrier packets that have come and can be taken, those of one device and group in the order they came (R320,
R324). -/
def State.takeEarly (s : State) : State :=
  s.early.foldl (fun s e =>
    let p := Packet.read e.2
    if s.early.any (fun x => x.1 == e.1 && (Packet.read x.2).group == p.group) then { s with early := s.early ++ [e] }
    else
      match s.takeBarrier e.1 p with
      | some t => t
      | none => { s with early := s.early ++ [e] }) { s with early := [] }

/-- A barrier packet of another device comes (R324; assumption 30 gives the forms). -/
def State.remoteArrive (s : State) (dev : Nat) (p : Packet) : State := { s with early := s.early ++ [(dev, p.bytes)] }.takeEarly

/-! ### The end of a phase -/

/-- The phase of a barrier ends with a result and a new one begins; gangs that wait for it may go on (R166, R168). -/
def State.turnOne (s : State) (result : Word) (e : Nat × Barrier) : State :=
  let b := { e.2 with phase := e.2.phase + 1, arrived := [], packets := [], parts := [], result := result }
  let waits (g : Gang) : Bool := match g.pend with
    | .barrier i p => i == e.1 && p == e.2.phase
    | .again i p => i == e.1 && p == e.2.phase
    | _ => false
  s.warps.foldl (fun s x => if x.2.gangs.any waits then s.wake x.1 false else s) { s with barriers := sput s.barriers e.1 b }

/-- The phase of a barrier ends, and with it that of those it is one with. -/
def State.turnPhase (s : State) (id : Nat) (b : Barrier) : State :=
  (((id, b) :: s.others b).foldl (fun (t : State) e => t.turnOne (combineParts s.fresh (s.partsOf b)) e) { s with fresh := s.fresh + 1 }).takeEarly

/-- BARRIER_RELEASE: the phase completes when every member has arrived, and a new one begins (R166, R168). In a device group
a member reports to the root first, and the root multicasts the release over the links. A phase in which a link on a member's path
went down completes no further (R324). -/
def releaseBarrier (id : Nat) (s : State) : State :=
  match sget s.barriers id with
  | none => s
  | some b =>
    if b.broken ∨ (s.others b).any (fun e => e.2.broken) = true then s
    else
    match s.report b with
    | some (k, p) =>
      let told (e : Nat × Barrier) : Barrier := { e.2 with packets := e.2.packets ++ [remoteMember s.ownDevice] }
      { s with
        barriers := ((id, b) :: s.others b).foldl (fun (m : SMap Barrier) (e : Nat × Barrier) => sput m e.1 (told e)) s.barriers
        fresh := s.fresh + 1 }.sendFlit k [p]
    | none =>
      if (b.arrived ≠ [] ∨ b.packets ≠ []) ∧ s.phaseFull b = true then
        match s.releases b with
        | some l => l.foldl (fun s e => s.sendFlit e.1 [e.2]) (s.turnPhase id b)
        | none => s
      else s

/-- BARRIER_RELEASE. -/
def execBarrierRelease (bar : Nat) (s : State) : Out := event (releaseBarrier bar) s

/-- BARRIER_PACKET: a warp's arrival reaches the router (R38, R204). -/
def barrierPacket (id w : Nat) (s : State) : State :=
  match sget s.barriers id with
  | none => s
  | some b =>
    if s.isWide b ∧ (sget b.arrived w).isSome ∧ s.warpArrived b w = true ∧ b.packets.contains w = false then
      { s with barriers := sput s.barriers id { b with packets := b.packets ++ [w] } }
    else s

/-- BARRIER_PACKET. -/
def execBarrierPacket (bar w : Nat) (s : State) : Out := event (barrierPacket bar w) s

/-! ### Barrier instructions -/

/-- Signature of a barrier instruction: illegal where its barrier does not exist for the warp (R67, R166). -/
def meetSig (l : BitVec 3) (b : BitVec 4) (c : Ctx) (s : State) : Sig :=
  { Sig.plain with legal := (s.barrierKey c.W l.toNat b.toNat).isSome }

/-- The gang arrives for its slices, once the phase it last arrived in is complete (R166). -/
def arrive (c : Ctx) (s : State) (level num : Nat) (part : Option (Nat × Bool × Word)) (k : Nat → Nat → State → Res) : Res :=
  match s.barrierKey c.W level num with
  | none => .wait s
  | some inst =>
    let (id, b, s1) := match s.findBarrier level inst num with
      | some (id, b) => (id, b, s)
      | none =>
        let b := Barrier.unused level inst num
        (s.nextId, b, { s with barriers := sput s.barriers s.nextId b, nextId := s.nextId + 1 })
    let mine := zget 0 b.arrived c.w
    if mine &&& c.G.slices ≠ 0 then .wait (s.waitWith c (.again id b.phase))
    else
      let b1 := { b with arrived := sput b.arrived c.w (mine ||| c.G.slices), parts := b.parts ++ part.toList }
      let s2 := { s1 with barriers := sput s1.barriers id b1 }
      k id b.phase (s2.modWarp c.w (fun W => { W with arrived := Sys2Proof.Machine.sput W.arrived id b.phase }))

/-- Waits for a phase, then acquires (R167). -/
def waitPhase (c : Ctx) (s : State) (id phase : Nat) (k : Barrier → State → Res) : Res :=
  match sget s.barriers id with
  | none => afterAcquire c s .done
  | some b =>
    if phase < b.phase then afterAcquire c s (k b) else .wait (s.waitWith c (.barrier id phase))

/-- meet and meet.red: arrive, then wait (R167, R168). -/
def meetBody (level num : Nat) (part : Ctx → Option (Nat × Bool × Word)) (k : Ctx → Barrier → State → Res)
    (c : Ctx) (s : State) : Res :=
  match c.G.pend with
  | .barrier id phase => waitPhase c s id phase (k c)
  | _ =>
    afterRelease c s (fun s =>
      arrive c s level num (part c) (fun id phase s => .wait (s.waitWith c (.barrier id phase))))

/-- MEET. -/
def execMeet (l : BitVec 3) (b : BitVec 4) (s : State) : Out :=
  issueWith (meetSig l b) (meetBody l.toNat b.toNat (fun _ => none) (fun _ _ s => .done s)) s

/-- MEET.ARR. -/
def execMeetArr (l : BitVec 3) (b : BitVec 4) (s : State) : Out :=
  issueWith (meetSig l b)
    (fun c s => afterRelease c s (fun s => arrive c s l.toNat b.toNat none (fun _ _ s => .done s))) s

/-- The barrier and the phase that a meet.wait waits for: those it waits for already, else the phase the warp last arrived in; none
where the warp has never arrived (R167). -/
def State.waitedPhase (s : State) (c : Ctx) (level num : Nat) : Option (Nat × Nat) :=
  match c.G.pend with
  | .barrier id phase => some (id, phase)
  | _ =>
    (s.barrierKey c.W level num).bind (fun inst =>
      (s.findBarrier level inst num).bind (fun e => (sget c.W.arrived e.1).map (fun phase => (e.1, phase))))

/-- meet.wait (R167). -/
def meetWaitBody (level num : Nat) (c : Ctx) (s : State) : Res :=
  match s.waitedPhase c level num with
  | none => afterAcquire c s .done
  | some (id, phase) => waitPhase c s id phase (fun _ s => .done s)

/-- MEET.WAIT. -/
def execMeetWait (l : BitVec 3) (b : BitVec 4) (s : State) : Out :=
  issueWith (meetSig l b) (meetWaitBody l.toNat b.toNat) s

/-- MEET.RED (R168): the register is read at issue and written at the phase's completion. -/
def execMeetRed (l : BitVec 3) (b : BitVec 4) (o : BitVec 3) (sr : BitVec 1) (r : BitVec 7) (s : State) : Out :=
  issueWith (fun c s =>
      { meetSig l b c s with
        srcs := [(.s r.toNat 1, some 0)], dsts := [.s r.toNat 1]
        legal := (s.barrierKey c.W l.toNat b.toNat).isSome && decide (o.toNat ≤ 4) && (sr == 0 || decide (o.toNat < 2)) })
    (meetBody l.toNat b.toNat (fun c => some (o.toNat, sr == 1, c.sread s r.toNat))
      (fun c b s => .done (s.modWarp c.w (fun W => W.sput c.j r.toNat b.result)))) s

end Sys2Proof.Machine
end

