-- ==== Sys2Proof/Machine/Tree.lean ====
section
/-! DEFINITION. The TREE instructions (15_tree R221 to R229) and the checks of node records they share with acceptance. -/

namespace Sys2Proof.Machine

/-! ### Phases, areas and checks -/

/-- The current phase is an upward one (R208). -/
def Grove.upward (G : Grove) : Bool :=
  G.mode == 1 || (G.mode == 3 && G.phase == 1) || (G.mode == 4 && G.phase == 0)

/-- The current phase is a downward one (R208). -/
def Grove.downward (G : Grove) : Bool :=
  G.mode == 2 || (G.mode == 3 && G.phase == 0) || (G.mode == 4 && G.phase == 1)

/-- First address of a core's clearing (R213). -/
def Grove.clearingOf (G : Grove) (core : Nat) : DWord := G.clearing + BitVec.ofNat 64 (core * G.clearBytes)

/-- A number of bytes rounded up to 64 (R213). -/
def ceil64 (x : Nat) : Nat := ceilTo 64 x

/-- Cores of a block domain (R35). -/
def Grove.blockCores (G : Grove) : Nat :=
  match G.domain 4 with
  | 2 => 2
  | 3 => 4
  | _ => 1

/-- Kernel descriptor of a node in a phase: index k, or k + 1 in the second phase (R208). -/
def Grove.kernelOf (G : Grove) (k : Nat) : Nat := if G.phase = 1 then k + 1 else k

/-- The team size of a kernel is the team entry's (R37). -/
def Grove.teamFits (G : Grove) (k : Nat) : Bool :=
  match sget G.kernels k with
  | some d => d.team == G.levelSize 3
  | none => false

/-- Block warps meet R34, R35 and R37. -/
def Grove.warpsFit (G : Grove) (w : Nat) : Bool :=
  decide (1 ≤ w) && decide (w ≤ G.levelSize 4) && w % G.levelSize 3 == 0 && w % G.blockCores == 0 &&
    w / G.blockCores % G.levelSize 3 == 0

/-- The per-node checks of R212 that do not involve children. -/
def State.nodeOk (s : State) (G : Grove) (node : Nat) : Bool :=
  let k := s.nodeNum G node 0 2
  (k == 0xFFFF ||
    (G.teamFits k && (!(G.mode == 3 || G.mode == 4) || G.teamFits (k + 1)) && G.warpsFit (s.nodeNum G node 4 2))) &&
    decide (s.nodeNum G node 6 2 ≤ G.maxFrame)

/-- The entry of a node on some trail of a grove. -/
def State.pathNode (s : State) (g node : Nat) : Option (Trail × TrailNode) :=
  s.trails.findSome? (fun t =>
    if t.2.grove = g then (t.2.path.find? (fun p => p.node == node)).map (fun p => (t.2, p)) else none)

/-- Address of a child's slot in a node's inbox (R213); slots stand in ascending position (assumption 9). -/
def State.inboxSlot (s : State) (g : Nat) (G : Grove) (node pos : Nat) : Option DWord :=
  match s.pathNode g node with
  | some (t, p) => p.inbox.map (fun a => G.clearingOf t.core + BitVec.ofNat 64 (a.off + pos * G.yieldBytes))
  | none => none

/-- Address of a child's slot in a node's hand area, slots in descending position (R216). -/
def Grove.handSlot (G : Grove) (node pos : Nat) : Option DWord :=
  match sget G.areas node with
  | some (core, a, slots) =>
    if pos < slots then some (G.clearingOf core + BitVec.ofNat 64 (a.off + (slots - 1 - pos) * G.handBytes)) else none
  | none => none

/-- The block, node and grove of a warp; none in a sapling warp. -/
def State.place (s : State) (W : Warp) : Option (Block × Grove) :=
  match s.blockOf W, sget s.groves W.grove with
  | some (_, B), some G => some (B, G)
  | _, _ => none

/-- A tree-usage trap. -/
def treeTrap (s : State) (cause : Nat) : Res := .trap s (Trap.of 0x13 cause)

/-! ### Reading (R222, R223) -/

/-- Reads a word of the gang's context's space at home, after the gang's own stores (R158). -/
def State.homeWord (s : State) (c : Ctx) (a : DWord) : Word × State :=
  match s.hwKey c.W.ctx a .hard with
  | some k =>
    let s1 := s.atHome c.party (s.ctxStand c.W.ctx) k 4
    (BitVec.ofNat 32 (s1.num k 4), s1)
  | none => (0, s)

/-- Goes on once the words that a tree instruction reaches through the hardware can be reached: an absent host page is asked
for, and a fault is its lanes' (R154, R156); the stores that come before its access at home can be registered (R158, R195). A record
that another device holds is read from it (R322). -/
def reachFirst (c : Ctx) (s : State) (l : List LaneAddr) (k : State → Res) : Res :=
  let rs := l.map (fun e => (e, s.xlateFor c.W.ctx c.W.core (some c.w) (vaOf e.2) .hard))
  if rs.any (fun e => match e.2 with
      | .go key _ => !s.homeFree c (key / 64 * 64) 64
      | _ => false) then .wait s
  else
  match rs.findSome? (fun e => match e.2 with
      | .stall p => some (p, e.1)
      | _ => none) with
  | some (p, e) => .wait ((s.askHost (c.tag p (bitW e.1) e.2)).waitWith c (if c.G.pend = .none then .page else c.G.pend))
  | none =>
    match rs.filterMap (fun e => match e.2 with
        | .trap k d => some (k, d, e.1)
        | _ => none) with
    | (x, d, e) :: r => .trap (s.endFar (.gang c.w c.G.slices)) (laneTrap x d 0 (e :: r.map (·.2.2)))
    | [] =>
      let op := EngineOp.gang c.w c.G.slices
      let stay (s : State) : Res := .wait (s.waitWith c (if c.G.pend = .none then .page else c.G.pend))
      match (rs.map (fun e => (e.1, match e.2 with
          | .go key _ => s.far op (key / 64 * 64) 64
          | _ => Far.here))).find? (fun e => e.2 != .here) with
      | some (e, Far.ask part) => stay (s.askFar op c.W.ctx e.2 part)
      | some (e, Far.refused x d) => .trap (s.endFar op) (laneTrap x d 0 [e])
      | some _ => stay s
      | none => k s

/-- The last words that an instruction reaches. -/
def reach (c : Ctx) (s : State) (l : List LaneAddr) (k : State → Res) : Res :=
  reachFirst c s l (fun s => k (s.endFar (.gang c.w c.G.slices)))

/-- NODEREAD (R222). -/
def nodereadBody (x y z : Nat) (c : Ctx) (s : State) : Res :=
  match sget s.groves c.W.grove with
  | none => .wait s
  | some G =>
    if (lanesOf c.act).any (fun l => decide (G.capacity ≤ (c.W.vget y l).toNat)) then treeTrap s 6
    else
      let at_ := laneAddrs c (fun l => s.nodeAddr G (c.W.vget y l).toNat + BitVec.ofNat 64 (4 * z))
      if at_.any (fun e => match s.hwKey c.W.ctx e.2 .hard with
          | some key => !s.homeFree c key 4
          | none => false) then .wait s
      else
      accessLanes false c s .read false 4 4 at_ (askLoad 4 x 1 0)
        (fun s good => good.foldl (fun s e =>
          match keyOfLocs e.2 with
          | some k =>
            let s1 := s.atHome c.party (s.ctxStand c.W.ctx) k 4
            s1.modWarp c.w (fun W => W.vput x e.1 (BitVec.ofNat 32 (s1.num k 4)))
          | none => s) s)
        (fun s good =>
          let r := good.foldl (fun (a : List (Nat × Word) × State) e =>
            match keyOfLocs e.2 with
            | some k =>
              let s1 := a.2.atHome c.party (a.2.ctxStand c.W.ctx) k 4
              (a.1 ++ [(e.1, BitVec.ofNat 32 (s1.num k 4))], s1)
            | none => a) ([], s)
          longVec c r.2 x 1 0 .memory (fun _ lane => (sget r.1 lane).getD 0))

/-- NODEREAD. -/
def execNoderead (x y z : BitVec 7) (s : State) : Out :=
  issue (fun _ =>
    { Sig.plain with
      guard := true, srcs := [(.v y.toNat 1, some 1)], dsts := [.v x.toNat 1], legal := decide (z.toNat ≤ 15) })
    (nodereadBody x.toNat y.toNat z.toNat) s

/-- Address of the word INBOX reads in a lane; none where it reads 0 (R223). -/
def inboxAddr (s : State) (g : Nat) (B : Block) (G : Grove) (z pos : Nat) : Option DWord :=
  if G.upward then
    if G.yieldBytes ≤ 4 * z then none
    else (s.inboxSlot g G B.node pos).map (fun a => a + BitVec.ofNat 64 (4 * z))
  else
    let w := z + pos
    if B.node = G.root then some (G.addr + BitVec.ofNat 64 (0xC0 + 4 * w))
    else if G.handBytes ≤ 4 * w then none
    else
      let parent := s.nodeNum G B.node 0x10 4
      (G.handSlot parent (B.node - s.nodeNum G parent 8 4)).map (fun a => a + BitVec.ofNat 64 (4 * w))

/-- INBOX (R223). Its checks are made for active lanes: with none, INBOX, and HAND and TREEGROW alike, does nothing, also in a sapling
warp and in a phase that does not allow it (assumption 92). -/
def inboxBody (x y z : Nat) (c : Ctx) (s : State) : Res :=
  if c.act = 0 then .done s
  else
    match s.place c.W with
    | none => treeTrap s 7
    | some (B, G) =>
      let lanes := lanesOf c.act
      let pos (l : Nat) : Nat := (c.W.vget y l).toNat
      if G.mode = 5 then treeTrap s 2
      else if G.upward ∧ lanes.any (fun l => decide (s.nodeNum G B.node 0x0C 2 ≤ pos l)) = true then treeTrap s 4
      else if G.upward = false ∧ lanes.any (fun l => decide (15 < z + pos l)) = true then treeTrap s 8
      else
        let at_ := lanes.map (fun l => (l, inboxAddr s c.W.grove B G z (pos l)))
        reach c s (at_.filterMap (fun e => e.2.map (fun a => (e.1, a)))) (fun s =>
        let r := at_.foldl (fun (a : List (Nat × Word) × State) e =>
          match e.2 with
          | some addr => let v := a.2.homeWord c addr; (a.1 ++ [(e.1, v.1)], v.2)
          | none => (a.1 ++ [(e.1, 0)], a.2)) ([], s)
        longVec c r.2 x 1 0 .memory (fun _ lane => (sget r.1 lane).getD 0))

/-- INBOX. -/
def execInbox (x y z : BitVec 7) (s : State) : Out :=
  issue (fun _ =>
    { Sig.plain with
      guard := true, srcs := [(.v y.toNat 1, some 1)], dsts := [.v x.toNat 1], legal := decide (z.toNat ≤ 15) })
    (inboxBody x.toNat y.toNat z.toNat) s

/-! ### YIELD and HAND (R224, R225) -/

/-- Registers x to x + n - 1 as sources that SRCX bit a marks. -/
def wordSrcs (x n : Nat) : List (Opnd × Option Nat) := (List.range n).map (fun i => (.v (x + i) 1, some 0))

/-- Words of a lane's registers as bytes. -/
def laneBlock (c : Ctx) (x n lane : Nat) : List Byte := (List.range n).flatMap (fun i => bytesOf 4 (c.W.vget (x + i) lane).toNat)

/-- The words of a slot that a lane writes, for `reach`. -/
def slotWords (lane n : Nat) (a : DWord) : List LaneAddr := (List.range n).map (fun i => (lane, a + BitVec.ofNat 64 (4 * i)))

/-- YIELD (R224). Where its write takes a fault, the instruction has changed no state, so that its grant is given back and its
re-execution takes it again (R282; assumption 91). -/
def yieldBody (x n : Nat) (c : Ctx) (s : State) : Res :=
  match lowestLane c.act with
  | none => .done s
  | some lane =>
    match s.place c.W, c.W.block with
    | some (B, G), some b =>
      let held := match c.G.pend with
        | .lanes _ => true
        | _ => false
      if G.upward = false then treeTrap s 2
      else if G.yieldBytes / 4 < n then treeTrap s 3
      else if B.yielded ∧ held = false then treeTrap s 1
      else
        let s1 := s.modBlock b (fun B => { B with yielded := true })
        if released c s1 = false then .wait (s1.waitWith c (.lanes c.act))
        else
          let slot :=
            if B.node = G.root then some (G.addr + 0xC0)
            else
              let parent := s1.nodeNum G B.node 0x10 4
              s1.inboxSlot c.W.grove G parent (B.node - s1.nodeNum G parent 8 4)
          match slot with
          | some a =>
            match reach { c with G := { c.G with pend := .lanes c.act } } (s1.writeBack c.W.core) (slotWords lane n a) (fun s =>
              .done (s.gangWrite c a (laneBlock c x n lane))) with
            | .trap s t => .trap (s.modBlock b (fun B => { B with yielded := false })) t
            | r => r
          | none => .done (s1.writeBack c.W.core)
    | _, _ => treeTrap s 7

/-- YIELD. -/
def execYieldUp (x y : BitVec 7) (s : State) : Out :=
  issue (fun _ =>
    { Sig.plain with
      guard := true, srcs := wordSrcs x.toNat y.toNat, legal := decide (1 ≤ y.toNat) && decide (y.toNat ≤ 16) })
    (yieldBody x.toNat y.toNat) s

/-- HAND (R225); with no active lane nothing is checked (assumption 92). -/
def handBody (x y n : Nat) (c : Ctx) (s : State) : Res :=
  if c.act = 0 then .done s
  else
    match s.place c.W with
    | none => treeTrap s 7
    | some (B, G) =>
      let lanes := lanesOf c.act
      if G.downward = false then treeTrap s 2
      else if G.handBytes / 4 < n then treeTrap s 3
      else if lanes.any (fun l => decide (s.nodeNum G B.node 0x0C 2 ≤ (c.W.vget y l).toNat)) then treeTrap s 4
      else
        let at_ := lanes.filterMap (fun l => (G.handSlot B.node (c.W.vget y l).toNat).map (fun a => (l, a)))
        afterRelease c s (fun s => reach c s (at_.flatMap (fun e => slotWords e.1 n e.2)) (fun s =>
          .done (at_.foldl (fun s e => s.gangWrite c e.2 (laneBlock c x n e.1)) s)))

/-- HAND. -/
def execHand (x y z : BitVec 7) (s : State) : Out :=
  issue (fun _ =>
    { Sig.plain with
      guard := true, srcs := wordSrcs x.toNat z.toNat ++ [(.v y.toNat 1, some 1)]
      legal := decide (1 ≤ z.toNat) && decide (z.toNat ≤ 16) })
    (handBody x.toNat y.toNat z.toNat) s

/-! ### Growth (R226, R227) -/

/-- NODEALLOC (R226): the count word and the STATE words of the records it reserves are reached before anything is written. -/
def nodeallocBody (x y z : Nat) (c : Ctx) (s : State) : Res :=
  if c.act = 0 then .done s
  else
    match sget s.groves c.W.grove with
    | none => .wait s
    | some G =>
      let k := (c.sread s y).toNat
      let lane := (lowestLane c.act).getD 0
      reachFirst c s [(lane, G.addr + 0x14)] (fun s =>
      let n := s.hwNum G.ctx (G.addr + 0x14) 4
      if n + k ≤ G.capacity then
        reach c s ((List.range' n k).map (fun i => (lane, s.nodeAddr G i + 0x14))) (fun s =>
        let s1 := s.gangPut c (G.addr + 0x14) 4 (n + k)
        let s2 := (List.range' n k).foldl (fun s i => s.gangPut c (s.nodeAddr G i + 0x14) 4 0) s1
        .done (s2.produce c [] [(x, BitVec.ofNat 32 n)] (some (z, true)) 0 .other))
      else .done ((s.endFar (.gang c.w c.G.slices)).produce c [] [(x, 0xFFFFFFFF)] (some (z, false)) 0 .other))

/-- NODEALLOC. -/
def execNodealloc (x y z : BitVec 7) (s : State) : Out :=
  issue (fun _ =>
    { Sig.plain with
      guard := true, srcs := [(.s y.toNat 1, some 1)], dsts := [.s x.toNat 1], legal := decide (z.toNat ≤ 2) })
    (nodeallocBody x.toNat y.toNat z.toNat) s

/-- A state word: STATE, PHASE and REMAIN (R207). -/
def stateWord (st phase remain : Nat) : Nat := st * 2 ^ 20 + phase * 2 ^ 16 + remain

/-- Sets a node's state word at its home slice. -/
def State.putState (s : State) (G : Grove) (node st remain : Nat) : State :=
  s.putNum G.ctx (s.nodeAddr G node + 0x14) 4 (stateWord st G.phase remain)

/-- REMAIN of a node. -/
def State.remain (s : State) (G : Grove) (node : Nat) : Nat := s.nodeNum G node 0x14 2

/-- STATE of a node. -/
def State.nodeState (s : State) (G : Grove) (node : Nat) : Nat := field (s.nodeNum G node 0x14 4) 20 4

/-- The conditions of R227 that look at no record but the node's own. -/
def growFits (s : State) (B : Block) (G : Grove) (f k : Nat) : Bool :=
  s.nodeNum G B.node 0x0C 2 == 0 && decide (1 ≤ k) && decide (k ≤ G.maxChildren) &&
    decide (f + k ≤ s.hwNum G.ctx (G.addr + 0x14) 4) && decide (s.nodeNum G B.node 0x0E 2 + 1 < G.depth)

/-- The conditions of R227 on the records that are to be attached. -/
def growNodes (s : State) (G : Grove) (f k : Nat) : Bool :=
  (List.range' f k).all (fun i => s.nodeState G i == 0 && s.nodeOk G i)

/-- Attaches reserved nodes as the children of a running node (R227). -/
def State.attach (s : State) (c : Ctx) (B : Block) (G : Grove) (f k : Nat) : State :=
  let g := c.W.grove
  let depth := s.nodeNum G B.node 0x0E 2
  let s1 := (List.range' f k).foldl (fun s i =>
    let a := s.nodeAddr G i
    let s1 := ((s.gangPut c (a + 0x10) 4 B.node).gangPut c (a + 0x0E) 2 (depth + 1)).gangPut c (a + 0x0C) 2 0
    (s1.gangPut c (a + 8) 4 0).gangPut c (a + 0x14) 4 (stateWord 1 G.phase 0)) s
  let n := s1.nodeAddr G B.node
  let s2 := ((s1.gangPut c (n + 8) 4 f).gangPut c (n + 0x0C) 2 k).gangPut c (n + 0x14) 2 k
  let core := ((s.pathNode g B.node).map (fun e => e.1.core)).getD ((B.cores.head?).getD 0)
  s2.modGrove g (fun G =>
    { G with grownNodes := G.grownNodes ++ List.range' f k
             subtrees := G.subtrees ++ (List.range' f k).map (fun i =>
               { node := i, core := core, parent := some B.node, grown := true }) })

/-- TREEGROW (R227). In a phase that is not downward it takes cause 5, as R227 lists that among its conditions, and not cause 2 of
R221 (assumption 74); with no active lane nothing is checked (R227; assumption 92). The node records are reached and checked once the release has made the gang's own stores to them visible at
home. -/
def treegrowBody (x y : Nat) (c : Ctx) (s : State) : Res :=
  if c.act = 0 then .done s
  else
    match s.place c.W with
    | none => treeTrap s 7
    | some (B, G) =>
      let f := (c.sread s x).toNat
      let k := (c.sread s y).toNat
      let lane := (lowestLane c.act).getD 0
      if G.downward = false then treeTrap s 5
      else
        afterRelease c s (fun s =>
          reachFirst c s [(lane, G.addr + 0x14), (lane, s.nodeAddr G B.node)] (fun s =>
            if growFits s B G f k then
              reach c s ((List.range' f k).map (fun i => (lane, s.nodeAddr G i))) (fun s =>
                if growNodes s G f k then .done (s.attach c B G f k) else treeTrap s 5)
            else treeTrap (s.endFar (.gang c.w c.G.slices)) 5))

/-- TREEGROW. -/
def execTreegrow (x y : BitVec 7) (s : State) : Out :=
  issue (fun _ =>
    { Sig.plain with guard := true, srcs := [(.s x.toNat 1, some 0), (.s y.toNat 1, some 1)] })
    (treegrowBody x.toNat y.toNat) s

/-! ### GROVE and FRAME (R228, R229) -/

/-- Submits a grove record for a context (R212). -/
def State.submit (s : State) (ctx : Nat) (a : DWord) : State :=
  { s with subs := sput s.subs s.nextId { ctx := ctx, addr := a }, nextId := s.nextId + 1 }

/-- GROVE (R228). -/
def groveBody (x : Nat) (c : Ctx) (s : State) : Res :=
  if c.act = 0 then .done s
  else
    let a := c.sread2 s x
    if a.toNat % 256 ≠ 0 then .trap s { Trap.of 5 0 with addr := a }
    else if inWindow a then .trap s { Trap.of 3 0 with addr := a }
    else afterRelease c s (fun s => .done (s.submit c.W.ctx a))

/-- GROVE. -/
def execGrove (x : BitVec 7) (s : State) : Out :=
  issue (fun _ => { Sig.plain with srcs := [(.s x.toNat 2, some 0)] }) (groveBody x.toNat) s

/-- FRAME (R229). -/
def frameBody (x : Nat) (c : Ctx) (s : State) : Res :=
  match s.blockOf c.W with
  | none => treeTrap s 7
  | some (_, B) =>
    .done (s.modWarp c.w (fun W => (W.sput c.j x (loWord B.frame)).sput c.j (x + 1) (hiWord B.frame)))

/-- FRAME. -/
def execFrame (x : BitVec 7) (s : State) : Out :=
  issue (fun _ => { Sig.plain with dsts := [.s x.toNat 2] }) (frameBody x.toNat) s

end Sys2Proof.Machine
end

