-- ==== Sys2Proof/Machine/Groves.lean ====
section
/-! DEFINITION. Groves: acceptance, phases, trails and their storage in the clearing, the start and end of blocks, and the
completion word (15_tree R205 to R220, R228, R348; 01_machine R29, R35; 17_spawn R238). -/

namespace Sys2Proof.Machine

/-! ### Reaching the pages of a submission -/

/-- What the hardware meets at an address of a submission. -/
inductive Probe where
  /-- It can be accessed. -/
  | ok
  /-- It faults, or is not canonical, or lies in the window. -/
  | bad
  /-- The host has not supplied the page. -/
  | page (p : Nat)
  /-- Another device holds it, and the part at a key is still to be asked for. -/
  | away (part : Nat)
  /-- A part of it is on its way. -/
  | coming
deriving DecidableEq, Repr

/-- Tries an access of an operation of the hardware to an aligned record of `n` bytes, which lies in one page. What another device holds
is read before it counts as reached; a peer that refuses it, or a link that goes down, makes it unreachable (R322, R323). -/
def State.probe (s : State) (op : EngineOp) (ctx : Nat) (a : DWord) (n : Nat) (acc : Acc) : Probe :=
  if canonical a = false ∨ inWindow a = true then .bad
  else
    match s.xlateFor ctx noCore none (vaOf a) acc with
    | .go key _ => (match s.far op key n with
      | .here => .ok
      | .ask part => .away part
      | .coming => .coming
      | .refused _ _ => .bad)
    | .trap _ _ => .bad
    | .stall p => .page p

/-- Asks for what an access at an address waits for. -/
def State.supply (s : State) (op : EngineOp) (ctx : Nat) (a : DWord) : Probe → State
  | .page p => s.askHost (Tag.of ctx noCore p)
  | .away part => s.askFar op ctx a part
  | _ => s

/-- The access waits. -/
def Probe.waits : Probe → Bool
  | .page _ => true
  | .away _ => true
  | .coming => true
  | _ => false

/-- The denials of a context's requests that no core made are used up. -/
def State.forgetDenials (s : State) (ctx : Nat) : State :=
  { s with denials := s.denials.filter (fun e => !(e.2.ctx == ctx && e.2.core == noCore)) }

/-- What acceptance decides (R212). -/
inductive Verdict where
  /-- Refused: status and node. -/
  | refuse (status node : Nat)
  /-- A record is still to come: its address and what it waits for. -/
  | wait (a : DWord) (p : Probe)
  /-- Live. -/
  | live (g : Grove)

/-- The first of some accesses that waits. -/
def firstWait (l : List (DWord × Probe)) : Option (DWord × Probe) := l.find? (fun e => e.2.waits)

/-! ### Reading the record (R205, R206, R170) -/

/-- A tile of a tile map entry (R170). -/
def tileOfEntry (e : Nat) : Tile :=
  { off := 64 * field e 0 16, rows := field e 16 16, k := field e 32 16, fmt := field e 48 8, plane := e.testBit 56,
    state := .empty, readers := 0, landed := 0, cmds := 0, fault := false, faultAddr := 0 }

/-- A tile map entry that names a present tile meets R170; a TYPE code must be one R60 gives. -/
def tileOk (scratch e : Nat) : Bool :=
  let t := tileOfEntry e
  field e 57 7 == 0 &&
  (t.rows == 0 ||
    (decide (t.rows ≤ 1024) && decide (1 ≤ t.k) && decide (t.k ≤ 4096) && (t.fmt < 15 || (16 ≤ t.fmt && t.fmt ≤ 19)) &&
      decide (t.off + t.rows * t.rowBytes ≤ ceilTo 256 scratch) &&
      (if t.plane then
        (isPalush t.fmt || t.fmt == 19 || t.fmt == 6) && t.k % 16 == 0 && decide (16 ≤ t.k) && decide (t.k ≤ 128)
      else
        (!isPalush t.fmt || t.k % 32 == 0) && (t.fmt != 19 || t.k % 16 == 0) && (t.fmt != 13 || t.k % 2 == 0))))

/-- Two tiles share a byte of scratch. -/
def Tile.meets (a b : Tile) : Bool :=
  decide (a.off < b.off + b.rows * b.rowBytes) && decide (b.off < a.off + a.rows * a.rowBytes)

/-- No two of some tiles overlap (R170). -/
def apart : List Tile → Bool
  | [] => true
  | t :: r => r.all (fun u => !t.meets u) && apart r

/-- The entries of a tile map. -/
def State.tileEntries (s : State) (ctx : Nat) (a : DWord) (n : Nat) : List Nat :=
  (List.range n).map (fun i => s.hwNum ctx (a + BitVec.ofNat 64 (8 * i)) 8)

/-- A kernel descriptor as read (R206). -/
def State.kernelAt (s : State) (ctx : Nat) (a : DWord) : Kernel :=
  let f (off n : Nat) : Nat := s.hwNum ctx (a + BitVec.ofNat 64 off) n
  let n := f 0x0E 1
  let entries := s.tileEntries ctx (BitVec.ofNat 64 (f 0x10 8)) n
  { entry := f 0 4, window := f 4 1, scalars := f 5 1, team := f 6 1, pair := (f 7 1).testBit 0,
    capsules := (f 7 1).testBit 1, scratch := f 8 4, enable := BitVec.ofNat 9 (f 0x0C 2),
    tiles := (entries.zipIdx.map (fun e => (e.2, tileOfEntry e.1))).filter (fun e => decide (0 < e.2.rows)),
    tileCount := n }

/-- A descriptor's fields lie in their ranges (R206). -/
def State.kernelOk (s : State) (ctx : Nat) (a : DWord) : Bool :=
  let f (off n : Nat) : Nat := s.hwNum ctx (a + BitVec.ofNat 64 off) n
  let n := f 4 1
  decide (8 ≤ n) && decide (n ≤ 128) && n % 8 == 0 && decide (f 5 1 ≤ 96) && decide (1 ≤ f 6 1) && decide (f 6 1 ≤ 8) &&
    decide (f 7 1 < 4) && decide (f 8 4 ≤ 1536 * 1024) && decide (f 0x0C 2 < 512) && decide (f 0x0E 1 ≤ 64) &&
    f 0x0F 1 == 0 && f 0x18 8 == 0 && f 0x10 8 % 8 == 0

/-- A grove as its record gives it (R205), before it is checked. -/
def State.groveAt (s : State) (ctx : Nat) (a : DWord) : Grove :=
  let f (off n : Nat) : Nat := s.hwNum ctx (a + BitVec.ofNat 64 off) n
  let set := f 0x98 8
  let ktab := f 0x28 8
  let n := f 0x3E 2
  { ctx := ctx, slot := 0, order := s.nextId, addr := a, mode := f 4 1, msix := (f 5 1).testBit 0,
    nodes := BitVec.ofNat 64 (f 8 8), capacity := f 0x10 4, root := f 0x18 4, depth := f 0x1C 2, yieldBytes := f 0x1E 1,
    handBytes := f 0x1F 1, code := BitVec.ofNat 64 (f 0x20 8),
    kernels := (List.range n).map (fun j => (j, s.kernelAt ctx (BitVec.ofNat 64 (ktab + 32 * j)))),
    kernelCount := n, clearing := BitVec.ofNat 64 (f 0x30 8), clearBytes := f 0x38 4, trailsPerCore := f 0x3C 1,
    priority := f 0x3D 1,
    levels := (List.range 5).map (fun i =>
      let o := 0x58 + 8 * i
      (f o 1, f (o + 1) 1, f (o + 2) 1, f (o + 4) 4)),
    completion := BitVec.ofNat 64 (f 0x80 8), quota := f 0x88 4, accepted := 0, maxChildren := f 0x8C 2,
    maxFrame := f 0x8E 2, policy := f 0x90 1,
    cores := (s.ctxStand ctx).cores.filter (fun c => set == 0 || set.testBit (c / 2)),
    ringBase := BitVec.ofNat 64 (f 0xA0 8), ringSize := (let r := f 0xA8 4; if r = 0 then 65536 else r), phase := 0,
    begun := false, status := .running, completed := 0, errors := [], doneNodes := [], grownNodes := [], total := 0,
    subtrees := [], allocs := [], areas := [], lost := false, gone := [] }

/-! ### The checks of R212 -/

/-- A level entry's legal domains, tiers, most barriers and greatest size (R37). -/
def levelRow (slot dom : Nat) : List Nat × List Nat × Nat × Nat :=
  match slot with
  | 3 => ([1], [0, 1], 4, 8)
  | 4 => ([1, 2, 3], if dom = 1 then [1] else [2, 3], 16, if dom = 1 then 512 else if dom = 2 then 1024 else 2048)
  | 5 => ([0, 3, 4], [0, 2, 3], 8, 16)
  | 6 => ([0, 4, 5], [0, 2, 3], 4, 2)
  | _ => ([0, 6, 7], [0, 3], 4, 16)

/-- The level table is legal (R36, R37). -/
def State.levelsOk (s : State) (G : Grove) : Bool :=
  let f (off n : Nat) : Nat := s.hwNum G.ctx (G.addr + BitVec.ofNat 64 off) n
  f 0x40 24 == 0 &&
  (List.range' 3 5).all (fun j =>
    let e := (G.levels[j - 3]?).getD (0, 0, 0, 0)
    let r := levelRow j e.1
    f (0x43 + 8 * j) 1 == 0 && r.1.contains e.1 && r.2.1.contains e.2.1 && decide (e.2.2.1 ≤ r.2.2.1) &&
      decide (1 ≤ e.2.2.2) && decide (e.2.2.2 ≤ r.2.2.2))

/-- The device group of a domain-7 grove is legal (R324). -/
def State.groupOk (s : State) (G : Grove) : Bool :=
  G.domain 7 != 7 ||
    (let m := field (s.context G.ctx).hxgroup.toNat 0 16
     decide ((onesBelow 16 m).length = G.levelSize 7) && m.testBit (field s.hxdev.toNat 0 4) &&
       !s.groves.any (fun e => decide (e.2.ctx = G.ctx) && e.2.domain 7 == 7))

/-- The record's own fields lie in their ranges (status 0x010B). -/
def State.recordOk (s : State) (G : Grove) : Bool :=
  let f (off n : Nat) : Nat := s.hwNum G.ctx (G.addr + BitVec.ofNat 64 off) n
  G.nodes.toNat % 64 == 0 && G.code.toNat % 4 == 0 && f 0x28 8 % 32 == 0 && G.clearing.toNat % 65536 == 0 &&
    G.clearBytes != 0 && G.clearBytes % 65536 == 0 && decide (1 ≤ G.capacity) && decide (G.capacity ≤ 0xFFFFFFFE) &&
    decide (f 0x14 4 ≤ G.capacity) && decide (G.depth ≤ 4096) && G.kernelCount != 0 && decide (G.trailsPerCore ≤ 64) &&
    decide (G.priority ≤ 7) && decide (f 5 1 < 2) && f 6 2 == 0 && f 0x91 7 == 0 && f 0xAC 20 == 0

/-- P: the path reserve (R215). -/
def Grove.reserve (G : Grove) : Nat :=
  G.depth * (ceil64 (G.maxChildren * max G.yieldBytes G.handBytes) + 64 * G.maxFrame)

/-- A node's checks of R212, those of its children included. A record that cannot be read fails them: a child's, those of the node
that lists it (assumption 94). -/
def State.nodeSound (s : State) (op : EngineOp) (G : Grove) (i : Nat) : Bool :=
  let kids := s.nodeNum G i 0x0C 2
  let first := s.nodeNum G i 8 4
  let depth := s.nodeNum G i 0x0E 2
  let count := s.hwNum G.ctx (G.addr + 0x14) 4
  s.probe op G.ctx (s.nodeAddr G i) 64 .read == .ok && s.nodeOk G i && decide (kids ≤ G.maxChildren) &&
    (kids == 0 || decide (first + kids ≤ count)) && decide (depth < G.depth) &&
    (i != G.root || (decide (i < count) && s.nodeNum G i 0x10 4 == 0xFFFFFFFF && depth == 0)) &&
    (List.range' first kids).all (fun c =>
      s.probe op G.ctx (s.nodeAddr G c) 64 .read == .ok && s.nodeNum G c 0x10 4 == i && s.nodeNum G c 0x0E 2 == depth + 1)

/-- The node array check: the nodes visited, depth first, up to and with the first whose checks fail, and that one. -/
def State.walkNodes (s : State) (op : EngineOp) (G : Grove) : Nat → List Nat → List Nat → List Nat × Option Nat
  | 0, _, seen => (seen, none)
  | _ + 1, [], seen => (seen, none)
  | n + 1, i :: todo, seen =>
    if s.nodeSound op G i then
      s.walkNodes op G n (List.range' (s.nodeNum G i 8 4) (s.nodeNum G i 0x0C 2) ++ todo) (i :: seen)
    else (i :: seen, some i)

/-- The nodes below the count that the tree reaches, level by level, each once: the nodes already found and a level of them
given. -/
def State.reached (s : State) (op : EngineOp) (G : Grove) (count : Nat) : Nat → List Nat → List Nat → List Nat
  | 0, _, seen => seen
  | n + 1, level, seen =>
    let next := (level.flatMap (fun i =>
      (List.range' (s.nodeNum G i 8 4) (s.nodeNum G i 0x0C 2)).filter (fun c =>
        decide (c < count) && !seen.contains c && s.probe op G.ctx (s.nodeAddr G c) 64 .read != .bad))).eraseDups
    if next.isEmpty then seen else s.reached op G count n next (seen ++ next)

/-- Every node a grove's record reaches, sound or not. -/
def State.reachable (s : State) (op : EngineOp) (G : Grove) : List Nat :=
  let count := s.hwNum G.ctx (G.addr + 0x14) 4
  if G.root < count ∧ s.probe op G.ctx (s.nodeAddr G G.root) 64 .read ≠ .bad then s.reached op G count count [G.root] [G.root] else []

/-- The cores a record's core set names, whether or not the stand has them; 0 names those of the stand (R205). -/
def State.setCores (s : State) (G : Grove) : List Nat :=
  let set := s.hwNum G.ctx (G.addr + 0x98) 8
  if set = 0 then (s.ctxStand G.ctx).cores else (onesBelow 64 set).flatMap (fun i => [2 * i, 2 * i + 1])

/-- Every page of the clearing of every core of the core set is a vault page homed at that core's vault (status 0x0107). -/
def State.clearingOk (s : State) (G : Grove) : Bool :=
  (s.setCores G).all (fun c => (List.range (G.clearBytes / 4096)).all (fun i =>
    match s.hwKey G.ctx (G.clearingOf c + BitVec.ofNat 64 (4096 * i)) .hard with
    | some key => spaceOf key == 0 && decide (0x6000000000 ≤ addrOf key) && (addrOf key - 0x6000000000) / 0x1000000 == c
    | none => false))

/-- The slots of a context's live groves. -/
def State.slotsOf (s : State) (ctx : Nat) : List Nat :=
  (s.groves.filter (fun e => decide (e.2.ctx = ctx))).map (fun e => e.2.slot)

/-- What a submission's checks touch after its record. -/
def State.pagesOf (s : State) (op : EngineOp) (G : Grove) (visited : List Nat) : List (DWord × Probe) :=
  let ktab := s.hwNum G.ctx (G.addr + 0x28) 8
  let at_ (n : Nat) (a : DWord) : DWord × Probe := (a, s.probe op G.ctx a n .read)
  (List.range G.kernelCount).map (fun j => at_ 32 (BitVec.ofNat 64 (ktab + 32 * j))) ++
  (List.range G.kernelCount).flatMap (fun j =>
    let d := BitVec.ofNat 64 (ktab + 32 * j)
    (List.range (s.hwNum G.ctx (d + 0x0E) 1)).map (fun i => at_ 8 (BitVec.ofNat 64 (s.hwNum G.ctx (d + 0x10) 8 + 8 * i)))) ++
  visited.flatMap (fun i =>
    at_ 64 (s.nodeAddr G i) ::
      (List.range' (s.nodeNum G i 8 4) (s.nodeNum G i 0x0C 2)).map (fun c => at_ 64 (s.nodeAddr G c)))

/-- The checks of R212 in their order. -/
def State.verdict (s : State) (op : EngineOp) (ctx : Nat) (a : DWord) : Verdict :=
  let cw := BitVec.ofNat 64 (s.hwNum ctx (a + 0x80) 8)
  let rp := s.probe op ctx a 256 .read
  let cp := s.probe op ctx cw 8 .write
  if a.toNat % 256 ≠ 0 then .refuse 0x010C 0
  else if rp.waits then .wait a rp
  else
    if rp = .bad then .refuse 0x010C 0
    else
      if cp.waits ∧ cw.toNat % 8 = 0 then .wait cw cp
      else
        if cw.toNat % 8 ≠ 0 ∨ cp = .bad then .refuse 0x010D 0
        else
          let G := s.groveAt ctx a
          let ktab := s.hwNum ctx (a + 0x28) 8
          let desc (j : Nat) : DWord := BitVec.ofNat 64 (ktab + 32 * j)
          let w := s.walkNodes op G (s.hwNum ctx (a + 0x14) 4 + 1) [G.root] []
          if s.hwNum ctx a 4 ≠ 0x4B470001 then .refuse 0x0100 0
          else if G.mode < 1 ∨ 5 < G.mode ∨ 1 < G.policy then .refuse 0x0101 0
          else if s.recordOk G = false then .refuse 0x010B 0
          else if s.levelsOk G = false ∨ s.groupOk G = false then .refuse 0x0102 0
          else
            match firstWait (s.pagesOf op G (w.1 ++ s.reachable op G)) with
            | some e => .wait e.1 e.2
            | none =>
              if (List.range G.kernelCount).any (fun j =>
                  s.probe op ctx (desc j) 32 .read != .ok || !s.kernelOk ctx (desc j)) ∨
                  G.kernels.any (fun e => e.2.pair && G.domain 4 == 1) = true ∨
                  ((G.mode = 3 ∨ G.mode = 4) ∧ (s.reachable op G).any (fun i =>
                    let k := s.nodeNum G i 0 2
                    decide (k < G.kernelCount) && decide (G.kernelCount ≤ k + 1)) = true) then .refuse 0x0103 0
              else if G.kernels.any (fun e =>
                  let map := BitVec.ofNat 64 (s.hwNum ctx (desc e.1 + 0x10) 8)
                  let entries := s.tileEntries ctx map e.2.tileCount
                  (List.range e.2.tileCount).any (fun i => s.probe op ctx (map + BitVec.ofNat 64 (8 * i)) 8 .read != .ok) ||
                    entries.any (fun x => !tileOk e.2.scratch x) || !apart (e.2.tiles.map (·.2))) then .refuse 0x0104 0
              else if 64 < G.yieldBytes ∨ G.yieldBytes % 4 ≠ 0 ∨ 64 < G.handBytes ∨ G.handBytes % 4 ≠ 0 ∨ G.depth = 0 ∨
                  G.maxChildren = 0 ∨ G.trailsPerCore = 0 then .refuse 0x0105 0
              else if G.clearBytes < 2 * G.reserve then .refuse 0x0106 0
              else if s.clearingOk G = false then .refuse 0x0107 0
              else if (onesBelow 64 (s.hwNum ctx (a + 0x98) 8)).any (fun i => !(s.ctxStand ctx).fpairs.getLsbD i) then
                .refuse 0x0108 0
              else
                match w.2 with
                | some i => .refuse 0x0109 i
                | none => if 256 ≤ (s.slotsOf ctx).length then .refuse 0x010A 0 else .live G

/-! ### The completion word (R214) -/

/-- Writes a completion word with its MSI-X; where it cannot be written, a warp-less record reports the status. -/
def State.complete (s : State) (op : EngineOp) (ctx : Nat) (a : DWord) (msix : Bool) (status node : Nat) : State :=
  if s.probe op ctx a 8 .write = .ok ∧ a.toNat % 8 = 0 then
    let s1 := s.putNum ctx a 8 (node * 2 ^ 32 + status)
    if msix then s1.interrupt (ctxFn ctx) (field (s.context ctx).cxvec.toNat 16 11) else s1
  else s.queueTrap ctx (s.warplessRecord ctx 0x32 status 255 a) none

/-- The least free slot. -/
def State.freeSlot (s : State) (ctx : Nat) : Nat :=
  (((List.range 256).filter (fun i => !(s.slotsOf ctx).contains i)).head?).getD 0

/-- GROVE_ACCEPTANCE (R212): a submission is refused, or its grove becomes live and its nodes' locators read none. The submissions
of a context are dealt with in the order they were made, which is the order of their launch (R218, R315). -/
def acceptGrove (id : Nat) (s : State) : State :=
  match sget s.subs id with
  | none => s
  | some b =>
    let c := s.context b.ctx
    if s.subs.any (fun e => decide (e.1 < id) && e.2.ctx == b.ctx) ∨ c.saved ∨ c.lost ∨ c.ladder.isSome ∨ s.freeze.isSome ∨ s.frozenMem.isSome ∨ s.fnRuns (ctxFn b.ctx) = false then s
    else
      let op := EngineOp.submission id
      match s.verdict op b.ctx b.addr with
      | .wait a p => s.supply op b.ctx a p
      | .refuse st node =>
        let s1 := { s.forgetDenials b.ctx with subs := sdel s.subs id }
        (if st = 0x010C ∨ st = 0x010D then s1.queueTrap b.ctx (s1.warplessRecord b.ctx 0x32 st 255 b.addr) none
        else
          s1.complete op b.ctx (BitVec.ofNat 64 (s.hwNum b.ctx (b.addr + 0x80) 8))
            ((s.hwNum b.ctx (b.addr + 5) 1).testBit 0) st node).endFar op
      | .live G =>
        let w := s.walkNodes op G (s.hwNum b.ctx (b.addr + 0x14) 4 + 1) [G.root] []
        let s1 := (w.1.foldl (fun s i => s.putNum b.ctx (s.nodeAddr G i + 0x38) 8 0xFFFF) s).endFar op
        { s1 with subs := sdel s1.subs id, groves := sput s1.groves s1.nextId { G with slot := s.freeSlot b.ctx, order := id }
                  nextId := s1.nextId + 1 }.takeEarly

/-- GROVE_ACCEPTANCE. -/
def execGroveAcceptance (id : Nat) (s : State) : Out := event (acceptGrove id) s

/-! ### Phases (R208, R209) -/

/-- The two-phase modes (R208). -/
def Grove.twoPhase (G : Grove) : Bool := G.mode == 3 || G.mode == 4

/-- PHASE_START (R209): every node of the tree as it stands is pending, then those that are runnable at once are. -/
def startPhase (g : Nat) (s : State) : State :=
  match sget s.groves g with
  | none => s
  | some G =>
    if G.begun ∨ G.status ≠ .running ∨ s.engineRuns G.ctx = false then s
    else
      let G1 := { G with grownNodes := [] }
      let nodes := s.subtree G1 (G1.depth + 1) [G1.root]
      let atOnce (i : Nat) : Bool :=
        G1.mode == 5 || (G1.upward && (s.children G1 i).isEmpty) || (G1.downward && i == G1.root)
      let s1 := nodes.foldl (fun s i => s.putState G1 i 1 (s.children G1 i).length) s
      let s2 := nodes.foldl (fun s i => if atOnce i then s.putState G1 i 2 (s.children G1 i).length else s) s1
      s2.modGrove g (fun G =>
        { G with begun := true, completed := 0, doneNodes := [], grownNodes := [], areas := [], allocs := [],
                 total := nodes.length
                 subtrees := [{ node := G.root, core := (G.cores.head?).getD 0, parent := none, grown := false }] })

/-- PHASE_START. -/
def execPhaseStart (grove : Nat) (s : State) : Out := event (startPhase grove) s

/-- A member device of a device group tells the root that its groves have ended a phase, or, with 2, that they have ended: it is arrived
from then on (R324). -/
def State.tellRoot (s : State) (G : Grove) (phase : Nat) : State :=
  let past (e : Nat × Grove) : Bool := phase != 2 && (decide (phase < e.2.phase) || e.2.status != .running)
  if G.domain 7 = 7 ∧ s.rootDevice G.ctx ≠ s.ownDevice ∧ (s.groupGroves (s.groupOf G.ctx)).all past = true then
    match s.groupLink G.ctx (s.rootDevice G.ctx) with
    | some k => s.sendFlit k [barrierMessage (s.groupOf G.ctx) 0 phase 5 0 0]
    | none => s
  else s

/-- The phase ends: the second one of a two-phase mode begins, or the grove has been swept (R208). -/
def State.endPhase (s : State) (g : Nat) : State :=
  match sget s.groves g with
  | none => s
  | some G =>
    match G.status with
    | .running =>
      let G1 : Grove := if G.twoPhase ∧ G.phase = 0 then { G with phase := 1, begun := false, subtrees := [] }
        else { G with status := .swept, subtrees := [] }
      ({ s with groves := sput s.groves g G1 }.tellRoot G G.phase).takeEarly
    | _ => s

/-! ### Where a node may be entered (R211) -/

/-- The group of cores of a cluster's domain: a quad or a die (R37). -/
def Grove.clusterGroup (G : Grove) (core : Nat) : Nat := if G.domain 5 = 4 then core / 32 else core / 4

/-- The run a node belongs to: its parent and number; the root stands alone (R211). -/
def State.runOf (s : State) (G : Grove) (node : Nat) : Nat × Nat :=
  if node = G.root then (0xFFFFFFFF, 0)
  else
    let p := s.nodeNum G node 0x10 4
    (p, (node - s.nodeNum G p 8 4) / max 1 (G.levelSize 5))

/-- A node may be entered on a core: its region's domain holds the core, and the nodes of its run already entered are in
the core's cluster domain (R211). -/
def State.mayEnter (s : State) (g : Nat) (G : Grove) (core node : Nat) : Bool :=
  (G.domain 6 == 0 || G.dieOf core == s.regionOf G node) &&
  (G.domain 5 == 0 || G.grownNodes.contains node ||
    (let r := s.runOf G node
     (s.runNodes G r.1 r.2).all (fun i => match s.pathNode g i with
       | some (t, _) => G.clusterGroup t.core == G.clusterGroup core
       | none => true)))

/-! ### Storage in the clearing (R213 to R217) -/

/-- Units of a trail's node. -/
def TrailNode.units (p : TrailNode) : List Alloc := p.frame.toList ++ p.slots ++ p.inbox.toList

/-- Bytes a trail holds. -/
def Trail.held (t : Trail) : Nat := (t.path.flatMap TrailNode.units).foldl (fun n a => n + a.size) 0

/-- The units held on a core. -/
def Grove.unitsOn (G : Grove) (core : Nat) : List Alloc := (G.allocs.filter (fun e => e.1 == core)).map (·.2)

/-- Unallocated bytes of a core's clearing. -/
def Grove.free (G : Grove) (core : Nat) : Nat := G.clearBytes - (G.unitsOn core).foldl (fun n a => n + a.size) 0

/-- Two units share a byte. -/
def Alloc.meets (a b : Alloc) : Bool := decide (a.off < b.off + b.size) && decide (b.off < a.off + a.size)

/-- The lowest place from `from_` on where a unit fits beside others, if it ends by `limit`. -/
def firstFit (units : List Alloc) (from_ limit size : Nat) : Option Alloc :=
  let places := (from_ :: units.map (fun a => a.off + a.size)).filter (fun o =>
    decide (from_ ≤ o) && decide (o + size ≤ limit) && units.all (fun u => !u.meets { off := o, size := size }))
  match places with
  | [] => none
  | p :: r => some { off := r.foldl min p, size := size }

/-- The trails of a grove on a core, oldest first. -/
def State.trailsOn (s : State) (g core : Nat) : List (Nat × Trail) :=
  (s.trails.filter (fun e => e.2.grove == g && e.2.core == core)).foldl
    (fun l e => l.filter (fun x => decide (x.2.age < e.2.age)) ++ [e] ++ l.filter (fun x => decide (e.2.age ≤ x.2.age))) []

/-- The children of a node that a core can enter: pending, and free to be entered there (R211, R218). -/
def State.enterable (s : State) (g : Nat) (G : Grove) (core node : Nat) : List Nat :=
  (s.children G node).filter (fun c => G.subtrees.any (fun x => x.node == c) && s.mayEnter g G core c)

/-- A trail waits at the node it stands at: for the node's children alone, none of which it can enter (R217, R220). It asks for no
storage, and the node's block is still to start in an upward phase, and has ended in any other. -/
def State.waitsForChildren (s : State) (g : Nat) (G : Grove) (t : Trail) : Bool :=
  match t.path with
  | [] => false
  | p :: _ =>
    t.asking.isNone && p.block.isNone && (if G.upward then !p.done && p.inbox.isSome else p.done) &&
      (s.enterable g G t.core p.node).isEmpty

/-- The reserve line (R217) from its last trail on, among the trails given: it goes on while that trail waits for a child that
another of them holds. -/
def State.lineFrom (s : State) (g : Nat) (G : Grove) (all : List (Nat × Trail)) : Nat → Nat × Trail → List (Nat × Trail)
  | 0, t => [t]
  | n + 1, t =>
    match (if s.waitsForChildren g G t.2 then t.2.path.head? else none).bind (fun p =>
        ((s.children G p.node).find? (fun c => !G.doneNodes.contains c)).bind (fun c =>
          all.find? (fun u => u.1 != t.1 && u.2.path.any (fun q => q.node == c)))) with
    | none => [t]
    | some u => t :: s.lineFrom g G all n u

/-- The reserve line of a core (R217). -/
def State.line (s : State) (g : Nat) (G : Grove) (core : Nat) : List (Nat × Trail) :=
  match s.trailsOn g core with
  | [] => []
  | t :: r => s.lineFrom g G (t :: r) r.length t

/-- The place an allocation of a trail is granted, if it is (R217). The line's last trail takes the lowest place that fits; every
other trail stays above the first P bytes, so that those hold the units of the line alone, which lie along one path and come and
go as a stack (R220): the last trail finds its place among them. A unit of no bytes stands at the clearing's base, which FRAME then
gives (R229; assumption 66). -/
def State.grant (s : State) (g : Nat) (G : Grove) (t : Nat × Trail) (size : Nat) : Option Alloc :=
  if size = 0 then some { off := 0, size := 0 }
  else
    let line := s.line g G t.2.core
    let held := (line.map (fun x => x.2.held)).foldl (· + ·) 0
    let free := G.free t.2.core
    let units := G.unitsOn t.2.core
    if (line.getLast?).map (·.1) = some t.1 then firstFit units 0 G.clearBytes size
    else if size ≤ free ∧ G.reserve ≤ free - size + held then firstFit units G.reserve G.clearBytes size
    else none

/-- Changes a trail. -/
def State.modTrail (s : State) (t : Nat) (f : Trail → Trail) : State := { s with trails := smod s.trails t f }

/-- Changes the entry of a node on the trails of a grove. -/
def State.modEntry (s : State) (g node : Nat) (f : TrailNode → TrailNode) : State :=
  { s with trails := s.trails.map (fun e =>
      if e.2.grove = g then
        (e.1, { e.2 with path := e.2.path.map (fun p => if p.node = node then f p else p) })
      else e) }

/-- Frees units of a core. -/
def Grove.release (G : Grove) (core : Nat) (l : List Alloc) : Grove :=
  { G with allocs := G.allocs.filter (fun e => !(e.1 == core && l.contains e.2)) }

/-- Writes a node's locator (R207). -/
def State.putLocator (s : State) (g : Nat) (G : Grove) (node : Nat) : State :=
  match s.pathNode g node with
  | none => s
  | some (t, p) =>
    let area := match (if G.downward then p.hand else p.inbox) with
      | some a => a.off / 64
      | none => 0
    s.putNum G.ctx (s.nodeAddr G node + 0x38) 8 (area * 2 ^ 16 + t.num * 2 ^ 8 + t.core)

/-- What an allocation is for. -/
inductive Want where
  /-- The inbox of a node (R216). -/
  | inbox
  /-- The hand area of a node. -/
  | hand
  /-- The frame of a node. -/
  | frame
deriving DecidableEq, Repr

/-- The number of a want in a trail's `asking`. -/
def Want.code : Want → Nat
  | .inbox => 0
  | .hand => 1
  | .frame => 2

/-- The want of a number. -/
def wantOf : Nat → Want
  | 0 => .inbox
  | 1 => .hand
  | _ => .frame

/-- The core that holds the pending subtree of a child: its parent's owning core; with the region level bound, a subtree
of another domain is held by the lowest core of its own (R211, R218). -/
def State.holder (s : State) (G : Grove) (core node : Nat) : Nat :=
  if G.domain 6 = 0 then core
  else
    let d := s.regionOf G node
    if G.dieOf core = d then core else ((G.cores.filter (fun c => G.dieOf c == d)).head?).getD core

/-- Bytes of a node's unit (R213, R216). -/
def State.wantBytes (s : State) (G : Grove) (node : Nat) : Want → Nat
  | .inbox => ceil64 ((s.children G node).length * G.yieldBytes)
  | .hand => ceil64 ((match (s.children G node).length with
      | 0 => G.maxChildren
      | n => n) * G.handBytes)
  | .frame => 64 * s.nodeNum G node 6 2

/-- Free bytes, from the counter on. -/
def freeBytes (n fresh : Nat) : List Byte := (List.range n).map (fun i => Config.freeByte (fresh + i))

/-- Places a unit: inboxes and hand areas are filled with zeros, a frame's bytes are undefined (R213); with an inbox or a
hand area a node's children become pending subtrees (R218). -/
def State.placeUnit (s : State) (g : Nat) (G : Grove) (core node : Nat) (w : Want) (a : Alloc) : State :=
  let at_ := G.clearingOf core + BitVec.ofNat 64 a.off
  let bytes := match w with
    | .frame => freeBytes a.size s.fresh
    | _ => List.replicate a.size 0
  let s1 := { s.hwWrite G.ctx at_ bytes with fresh := if w = Want.frame then s.fresh + a.size else s.fresh }
  let s2 := s1.modEntry g node (fun p => match w with
    | .inbox => { p with inbox := some a }
    | .hand => { p with hand := some a, slots := if a.size = 0 then [] else [a] }
    | .frame => { p with frame := some a })
  let kids := s.children G node
  let slots := if kids.isEmpty then G.maxChildren else kids.length
  s2.modGrove g (fun G =>
    let G1 := if a.size = 0 then G else { G with allocs := G.allocs ++ [(core, a)] }
    let G2 := if w = Want.frame then G1
      else { G1 with subtrees := G1.subtrees ++ kids.map (fun c =>
               { node := c, core := s.holder G core c, parent := some node, grown := false }) }
    if w = Want.hand then { G2 with areas := sput G2.areas node (core, a, slots) } else G2)

/-- Allocates a unit for the node a trail stands at, or leaves the trail asking for it. -/
def State.allocate (s : State) (g : Nat) (G : Grove) (t : Nat × Trail) (node : Nat) (w : Want) : State × Bool :=
  let size := s.wantBytes G node w
  match s.grant g G t size with
  | some a =>
    let s1 := (s.placeUnit g G t.2.core node w a).modTrail t.1 (fun x => { x with asking := none })
    (if w = Want.frame then s1 else s1.putLocator g G node, true)
  | none => (s.modTrail t.1 (fun x => { x with asking := some (w.code, size) }), false)

/-- ALLOCATION_GRANT (R217): the allocation a trail waits for is granted. -/
def grantAllocation (g t : Nat) (s : State) : State :=
  match sget s.groves g, sget s.trails t with
  | some G, some T =>
    match T.asking, T.path with
    | some (k, size), p :: _ =>
      if T.grove = g ∧ (s.grant g G (t, T) size).isSome ∧ s.engineRuns G.ctx = true then (s.allocate g G (t, T) p.node (wantOf k)).1 else s
    | _, _ => s
  | _, _ => s

/-- ALLOCATION_GRANT. -/
def execAllocationGrant (grove trail : Nat) (s : State) : Out := event (grantAllocation grove trail) s

/-! ### Completion of nodes (R208 to R210, R216) -/

/-- Frees what a node still holds and takes it off its trail; in mode 5 it stays until its children are entered. -/
def State.leave (s : State) (g node : Nat) (keep : Bool) : State :=
  match s.pathNode g node with
  | none => s
  | some (t, p) =>
    let s1 := s.modGrove g (fun G =>
      let G1 := G.release t.core p.units
      { G1 with areas := sdel G1.areas node })
    let clear (e : Nat × Trail) : Nat × Trail :=
      if e.2.grove = g then
        (e.1, { e.2 with path :=
          if keep then e.2.path.map (fun q =>
            if q.node = node then { q with frame := none, hand := none, slots := [], inbox := none, done := true } else q)
          else e.2.path.filter (fun q => !(q.node == node)) })
      else e
    { s1 with trails := (s1.trails.map clear).filter (fun e => !(e.2.grove == g && e.2.path.isEmpty)) }

/-- Every node of a flat phase is done (R209). A block that still runs below a node that failed is waited for (assumption 93). -/
def State.flatDone (s : State) (g : Nat) (G : Grove) : Bool :=
  (s.subtree G (G.depth + 1) [G.root]).all (fun i => G.doneNodes.contains i) &&
    !s.trails.any (fun e => e.2.grove == g && e.2.path.any (fun p => p.block.isSome))

/-- The units of a hand area that still hold a slot of a child that has not completed: 64 bytes are free once every slot that
reaches into them is (R213, R216, R219). The child at a position has the slot that many places from the top. -/
def slotUnits (a : Alloc) (slots bytes : Nat) (gone : Nat → Bool) : List Alloc :=
  let live (i : Nat) : Bool := (List.range slots).any (fun c =>
    !gone c && decide ((slots - 1 - c) * bytes < 64 * i + 64) && decide (64 * i < (slots - c) * bytes))
  ((List.range (a.size / 64)).filter live).foldr (fun i l => match l with
    | u :: r =>
      if u.off = a.off + 64 * i + 64 then { off := a.off + 64 * i, size := u.size + 64 } :: r
      else { off := a.off + 64 * i, size := 64 } :: l
    | [] => [{ off := a.off + 64 * i, size := 64 }]) []

/-- The handed slots of a node's children that have completed are freed, in whatever order they completed (R216, R219). -/
def State.freeSlots (s : State) (g node : Nat) : State :=
  match sget s.groves g, s.pathNode g node with
  | some G, some (t, p) =>
    match sget G.areas node with
    | none => s
    | some (_, a, slots) =>
      let kids := s.children G node
      let left := slotUnits a slots G.handBytes (fun c => match kids[c]? with
        | some k => G.doneNodes.contains k
        | none => false)
      (s.modGrove g (fun G =>
        let G1 := G.release t.core p.slots
        { G1 with allocs := G1.allocs ++ left.map (fun u => (t.core, u)) })).modEntry g node (fun p => { p with slots := left })
  | _, _ => s

/-- A node completes: its STATE is complete or error, its units are freed, and it is counted (R209, R214, R216). -/
def State.nodeDone (s : State) (g : Nat) (G : Grove) (node : Nat) : State :=
  ((s.putState G node (if G.errors.contains node then 5 else 4) (s.remain G node)).leave g node (G.mode == 5)).modGrove g (fun G =>
    { G with completed := G.completed + 1, doneNodes := G.doneNodes ++ [node] })

/-- A child of node `p` has completed: REMAIN falls by one at the node's home slice; the answer is whether the node only waited
for it (R209, R210). -/
def State.childDone (s : State) (g : Nat) (G : Grove) (p : Nat) : Bool × State :=
  let s1 := if G.downward then s.freeSlots g p else s
  let r := s1.remain G p - 1
  let s2 := s1.putState G p (if G.upward ∧ r = 0 then 2 else s1.nodeState G p) r
  (G.downward && r == 0 && (match s2.pathNode g p with
    | some (_, e) => e.done
    | none => false), s2)

/-- The phase ends where the completion of a node ends it (R211, R228). -/
def State.mayEndPhase (s : State) (g : Nat) (G : Grove) (node : Nat) : State :=
  if G.mode = 5 then
    match sget s.groves g with
    | some G1 => if s.flatDone g G1 then s.endPhase g else s
    | none => s
  else if node = G.root then s.endPhase g
  else s

/-- A node completes, and its parent becomes runnable, or, where it only waited for the node, completes in turn, at most `fuel`
levels up. -/
def State.completeNode (g : Nat) : Nat → Nat → State → State
  | 0, _, s => s
  | n + 1, node, s =>
    match sget s.groves g with
    | none => s
    | some G =>
      let s1 := s.nodeDone g G node
      let p := s1.nodeNum G node 0x10 4
      let up := s1.childDone g G p
      (if node = G.root then s1 else if up.1 then State.completeNode g n p up.2 else up.2).mayEndPhase g G node

/-- A node's block has ended, or it has none (R210, R216). A child that failed when it was entered has completed and stays in error
(R228). In a downward phase a node whose children still run keeps STATE running,
for which the rules name no other (assumption 75). -/
def State.nodeBlockEnded (s : State) (g node : Nat) : State :=
  match sget s.groves g with
  | none => s
  | some G =>
    let s1 := match s.pathNode g node with
      | some (t, p) =>
        (s.modGrove g (fun G => G.release t.core p.frame.toList)).modEntry g node (fun p =>
          { p with frame := none, done := true, block := none })
      | none => s
    let kids := s1.children G node
    let s2 :=
      if G.downward then
        (kids.filter (fun c => s1.nodeState G c != 5)).foldl (fun s c => s.putState G c 2 (s.remain G c)) s1
      else s1
    if G.downward = true ∧ kids ≠ [] ∧ s2.remain G node ≠ 0 then s2 else State.completeNode g (G.depth + 1) node s2

/-! ### Node faults (R228) -/

/-- A node fails: policy 0 halts the grove, policy 1 makes it a node without a block and without children, whose subtree
is skipped. -/
def State.failNode (s : State) (g node status : Nat) : State :=
  match sget s.groves g with
  | none => s
  | some G =>
    if G.policy = 0 then
      s.modGrove g (fun G => match G.status with
        | .running => { G with status := .halting status node }
        | _ => G)
    else
      let below := (s.subtree G (G.depth + 1) [node]).filter (fun i => !(i == node))
      let waiting (b : Nat) : Bool := match sget s.blocks b with
        | some B => !B.admitted
        | none => true
      let idle (p : TrailNode) : Bool := below.contains p.node && p.block.all waiting && !p.done
      let gone := s.trails.flatMap (fun e =>
        if e.2.grove = g then (e.2.path.filter idle).flatMap (fun p => p.units.map (fun a => (e.2.core, a))) else [])
      let s1 := s.modGrove g (fun G =>
        { G with errors := G.errors ++ [node], subtrees := G.subtrees.filter (fun t => !below.contains t.node)
                 allocs := G.allocs.filter (fun e => !gone.contains e) })
      let ts : SMap Trail := s1.trails.map (fun e =>
        if e.2.grove = g then (e.1, { e.2 with path := e.2.path.filter (fun p => !idle p) }) else e)
      let s2 : State := { s1 with
        trails := ts.filter (fun e => !(e.2.grove == g && e.2.path.isEmpty))
        blocks := s1.blocks.filter (fun e => !(e.2.grove == g && below.contains e.2.node && !e.2.admitted)) }
      s2.putState G node 5 0

/-! ### What a core starts (R211, R218, R219) -/

/-- Work a core can start for a grove. -/
inductive Work where
  /-- Start the runnable node of a trail. -/
  | start (t : Nat)
  /-- Deepen a trail into a child. -/
  | deepen (t child : Nat)
  /-- Begin a trail on the core's own pending subtree. -/
  | own (node : Nat)
  /-- Steal a pending subtree. -/
  | steal (node : Nat)
deriving DecidableEq, Repr

/-- The entered node of a trail has not started and is runnable (R209). -/
def State.canStart (s : State) (g : Nat) (G : Grove) (t : Trail) : Bool :=
  match t.path with
  | [] => false
  | p :: _ =>
    p.block.isNone && !p.done &&
      (s.nodeState G p.node == 2 || (G.errors.contains p.node && s.nodeState G p.node == 5))

/-- The units a start still needs, in order (R216, R348). -/
def State.startWants (s : State) (G : Grove) (p : TrailNode) : List Want :=
  if G.errors.contains p.node then []
  else
    (if G.downward ∧ p.hand.isNone then [Want.hand] else []) ++
      (if s.hasBlock G p.node ∧ p.frame.isNone then [Want.frame] else [])

/-- The first unit a trail's start needs would be granted. -/
def State.startReady (s : State) (g : Nat) (G : Grove) (t : Nat × Trail) : Bool :=
  s.canStart g G t.2 &&
  match t.2.path with
  | [] => false
  | p :: _ =>
    match s.startWants G p with
    | [] => true
    | w :: _ => (s.grant g G t (s.wantBytes G p.node w)).isSome || t.2.asking.isNone

/-- The child a trail can deepen into (R216, R218, R348). -/
def State.deepenTo (s : State) (g : Nat) (G : Grove) (t : Nat × Trail) : Option Nat :=
  match t.2.path with
  | [] => none
  | p :: _ =>
    let kids := s.children G p.node
    if G.upward then
      if p.block.isSome ∨ p.done ∨ kids = [] then none
      else if p.inbox.isNone then
        if (s.grant g G t (s.wantBytes G p.node .inbox)).isSome ∨ t.2.asking.isNone then kids.head? else none
      else (s.enterable g G t.2.core p.node).head?
    else if G.downward ∧ p.done = false then none
    else if G.mode = 5 ∧ p.block.isNone ∧ p.done = false then none
    else (s.enterable g G t.2.core p.node).head?

/-- Of the pending subtrees a core holds, the one nearest the root: least depth, then least index; those that TREEGROW
made stand behind the others (R218). -/
def State.nearest (s : State) (G : Grove) (l : List Subtree) : Option Nat :=
  let key (x : Subtree) : Nat := s.nodeNum G x.node 0x0E 2 * 2 ^ 32 + x.node
  let least (l : List Subtree) : Option Nat :=
    (l.foldl (fun (b : Option Subtree) x => match b with
      | none => some x
      | some y => if key x < key y then some x else b) none).map (·.node)
  match least (l.filter (fun x => !x.grown)) with
  | some n => some n
  | none => (l.head?).map (·.node)

/-- The pending subtrees a core holds that may be entered on another. -/
def State.offers (s : State) (g : Nat) (G : Grove) (holder thief : Nat) : List Subtree :=
  G.subtrees.filter (fun x => x.core == holder && s.mayEnter g G thief x.node)

/-- The subtree a core would steal from the cores of a group: of those that offer it one, the core that holds the most pending
subtrees, those counted that the thief may not enter (R219). -/
def State.stealFrom (s : State) (g : Nat) (G : Grove) (core : Nat) (group : List Nat) : Option Nat :=
  let best := (group.filter (fun h => !(s.offers g G h core).isEmpty)).foldl (fun (b : Nat × Nat) h =>
    let n := (G.subtrees.filter (fun x => x.core == h)).length
    if b.2 < n then (h, n) else b) (0, 0)
  if best.2 = 0 then none else s.nearest G (s.offers g G best.1 core)

/-- The cores a thief looks to, nearest group first (R219). -/
def Grove.stealGroups (G : Grove) (core : Nat) : List (List Nat) :=
  let near := if G.domain 5 = 0 then G.cores.filter (fun c => c / 4 == core / 4)
    else G.cores.filter (fun c => G.clusterGroup c == G.clusterGroup core)
  let die := G.cores.filter (fun c => c / 32 == core / 32)
  let whole := if G.domain 6 = 0 then G.cores else G.cores.filter (fun c => G.dieOf c == G.dieOf core)
  [near, die, whole]

/-- A block of the grove was ended by a fault and the policy is to halt (R228). -/
def State.faultHalts (s : State) (g : Nat) (G : Grove) : Bool :=
  G.policy == 0 && s.blocks.any (fun e => e.2.grove == g && e.2.faulted)

/-- The work a core starts next for a grove, by the priorities of R218. -/
def State.nextWork (s : State) (g : Nat) (G : Grove) (core : Nat) : Option Work :=
  if G.begun = false ∨ G.status ≠ .running ∨ G.lost ∨ G.cores.contains core = false ∨ s.runsOn G.ctx core = false ∨
      s.faultHalts g G then none
  else
    let all := s.trailsOn g core
    let line := s.line g G core
    let order := line ++ all.filter (fun t => !line.any (fun u => u.1 == t.1))
    match order.find? (fun t => s.startReady g G t) with
    | some t => some (.start t.1)
    | none =>
      match order.findSome? (fun t => (s.deepenTo g G t).map (fun c => (t.1, c))) with
      | some (t, c) => some (.deepen t c)
      | none =>
        match (if all.length < G.trailsPerCore then s.nearest G (s.offers g G core core) else none) with
        | some n => some (.own n)
        | none =>
          if all.isEmpty then ((G.stealGroups core).findSome? (s.stealFrom g G core)).map .steal else none

/-- A grove comes before another on a core: higher priority, then launch order (R218). -/
def Grove.ahead (a b : Grove) : Bool := decide (b.priority < a.priority) || (a.priority == b.priority && decide (a.order < b.order))

/-- The core serves the grove: no grove ahead of it has work to start there (R218). -/
def State.serves (s : State) (g : Nat) (G : Grove) (core : Nat) : Bool :=
  s.groves.all (fun e => e.1 == g || !e.2.ahead G || (s.nextWork e.1 e.2 core).isNone)

/-- The work a core starts for a grove in the next step of its kind. -/
def State.workFor (s : State) (g core : Nat) : Option (Grove × Work) :=
  match sget s.groves g with
  | none => none
  | some G => if s.serves g G core then (s.nextWork g G core).map (fun w => (G, w)) else none

/-! ### Trails (R216, R218, R219, R348) -/

/-- In mode 5 a trail leaves the nodes at its end that are done and have no pending child, and ends with the last. -/
def State.tidy (s : State) (g : Nat) : State :=
  match sget s.groves g with
  | none => s
  | some G =>
    if G.mode ≠ 5 then s
    else
      let stale (p : TrailNode) : Bool := p.done && !G.subtrees.any (fun x => x.parent == some p.node)
      let ts : SMap Trail := s.trails.map (fun e =>
        if e.2.grove = g then (e.1, { e.2 with path := e.2.path.dropWhile stale }) else e)
      { s with trails := ts.filter (fun e => !(e.2.grove == g && e.2.path.isEmpty)) }

/-- A trail enters a node: it owns it, and the node's record is checked (R216, R228). -/
def State.enter (s : State) (g t node : Nat) : State :=
  match sget s.groves g with
  | none => s
  | some G =>
    let s1 := (s.modTrail t (fun T =>
      { T with path := { node := node, inbox := none, hand := none, slots := [], frame := none, block := none, done := false } :: T.path
               asking := none })).modGrove g (fun G => { G with subtrees := G.subtrees.filter (fun x => x.node != node) })
    let s2 := s1.putLocator g G node
    if G.errors.contains node ∨ s2.nodeSound (.node g node) G node then
      if G.mode = 5 ∧ G.errors.contains node = false then
        s2.modGrove g (fun G =>
          let core := ((s2.pathNode g node).map (fun e => e.1.core)).getD 0
          { G with subtrees := G.subtrees ++ (s2.children G node).map (fun c =>
              { node := c, core := s2.holder G core c, parent := some node, grown := false }) })
      else s2
    else s2.failNode g node 0x0200

/-- What a trail entering a node still waits for: the node's record, or a child's (R154, R322). -/
def State.nodeWait (s : State) (g : Nat) (G : Grove) (node : Nat) : Option (DWord × Probe) :=
  let at_ (i : Nat) : DWord × Probe := (s.nodeAddr G i, s.probe (.node g node) G.ctx (s.nodeAddr G i) 64 .read)
  firstWait (at_ node :: (List.range' (s.nodeNum G node 8 4) (s.nodeNum G node 0x0C 2)).map at_)

/-- A trail enters a node once its record, and its children's, can be read. -/
def State.enterWhen (s : State) (g : Nat) (G : Grove) (node : Nat) (k : State → State) : State :=
  match s.nodeWait g G node with
  | some e => s.supply (.node g node) G.ctx e.1 e.2
  | none => ((k s).endFar (.node g node)).tidy g

/-- Begins a trail of a core at a node. Its number is the least that no trail of the grove on the core has, where R207 names
none (assumption 76). -/
def State.beginTrail (s : State) (g core node : Nat) : State :=
  let used := (s.trailsOn g core).map (fun t => t.2.num)
  let num := (((List.range 64).filter (fun i => !used.contains i)).head?).getD 0
  let t := s.nextId
  let s1 := { s with
    trails := sput s.trails t { grove := g, core := core, num := num, age := t, path := [], asking := none }
    nextId := t + 1 }
  s1.enter g t node

/-- TRAIL_BEGIN (R218): a core begins a trail on its own pending subtree nearest the root. -/
def beginOwn (g core : Nat) (s : State) : State :=
  match s.workFor g core with
  | some (G, .own n) => s.enterWhen g G n (fun s => s.beginTrail g core n)
  | _ => s

/-- TRAIL_BEGIN. -/
def execTrailBegin (grove core : Nat) (s : State) : Out := event (beginOwn grove core) s

/-- STEAL (R219): a core that holds no trail of the grove takes a pending subtree. -/
def stealSubtree (g core : Nat) (s : State) : State :=
  match s.workFor g core with
  | some (G, .steal n) => s.enterWhen g G n (fun s => s.beginTrail g core n)
  | _ => s

/-- STEAL. -/
def execSteal (grove core : Nat) (s : State) : Out := event (stealSubtree grove core) s

/-- TRAIL_DEEPEN (R218): a trail enters a child of its node, once the node's inbox is allocated in an upward phase. -/
def deepenTrail (g t : Nat) (s : State) : State :=
  match sget s.trails t with
  | none => s
  | some T =>
    match s.workFor g T.core with
    | some (G, .deepen u c) =>
      if u = t then
        match T.path with
        | [] => s
        | p :: _ =>
          if G.upward ∧ p.inbox.isNone then
            match s.allocate g G (t, T) p.node .inbox with
            | (s1, true) =>
              match sget s1.groves g, sget s1.trails t with
              | some G1, some T1 =>
                match s1.deepenTo g G1 (t, T1) with
                | some c1 => s1.enterWhen g G1 c1 (fun s => s.enter g t c1)
                | none => s1
              | _, _ => s1
            | (s1, false) => s1
          else s.enterWhen g G c (fun s => s.enter g t c)
      else s
    | _ => s

/-- TRAIL_DEEPEN. -/
def execTrailDeepen (grove trail : Nat) (s : State) : Out := event (deepenTrail grove trail) s

/-- The cores of a node's block: those of the group of the block's domain that holds the owning core (R35, R216). -/
def Grove.coresOf (G : Grove) (core : Nat) : List Nat :=
  List.range' (core / G.blockCores * G.blockCores) G.blockCores

/-- The block of a node, waiting for admission (R29, R35, R211, R229). -/
def State.blockFor (s : State) (g : Nat) (G : Grove) (t : Nat) (core node : Nat) (frame : Option Alloc) : Option Block :=
  let k := G.kernelOf (s.nodeNum G node 0 2)
  (sget G.kernels k).map (fun d =>
    let grown := G.grownNodes.contains node
    { ctx := G.ctx, grove := g, node := node, trail := t, cores := G.coresOf core, warps := s.nodeNum G node 4 2,
      kernel := k, desc := d, scratch := 0, admitted := false, members := [], ended := [],
      frame := G.clearingOf core + BitVec.ofNat 64 ((frame.map (·.off)).getD 0), yielded := false, faulted := false,
      tiles := d.tiles, teams := [], cluster := if grown then none else some (s.runOf G node),
      region := if grown then none else some (s.regionOf G node), grown := grown })

/-- Allocates the units a start needs, in order; the flag says whether it has them all. -/
def State.allocateAll (s : State) (g t node : Nat) : List Want → State × Bool
  | [] => (s, true)
  | w :: r =>
    match sget s.groves g, sget s.trails t with
    | some G, some T =>
      match s.allocate g G (t, T) node w with
      | (s1, true) => s1.allocateAll g t node r
      | (s1, false) => (s1, false)
    | _, _ => (s, false)

/-- NODE_START (R209, R210, R216): the runnable node a trail stands at takes its units and its block awaits admission; a
node without a block starts and ends at once. -/
def startNode (g t : Nat) (s : State) : State :=
  match sget s.trails t with
  | none => s
  | some T =>
    match s.workFor g T.core with
    | some (G, .start u) =>
      if u = t then
        match T.path with
        | [] => s
        | p :: _ =>
          match s.allocateAll g t p.node (s.startWants G p) with
          | (s1, false) => s1
          | (s1, true) =>
            if s1.hasBlock G p.node then
              match s1.blockFor g G t T.core p.node ((s1.pathNode g p.node).bind (fun e => e.2.frame)) with
              | some B =>
                ({ s1 with blocks := sput s1.blocks s1.nextId B, nextId := s1.nextId + 1 }).modEntry g p.node
                  (fun p => { p with block := some s1.nextId })
              | none => s1
            else (s1.nodeBlockEnded g p.node).tidy g
      else s
    | _ => s

/-- NODE_START. -/
def execNodeStart (grove trail : Nat) (s : State) : Out := event (startNode grove trail) s

/-! ### Blocks (R29, R35, R211) -/

/-- Warps of a block on each of its cores. -/
def Block.share (B : Block) : Nat := B.warps / B.cores.length

/-- The units of scratch that the admitted blocks of some cores hold; a saved block holds none. -/
def State.scratchUnits (s : State) (cores : List Nat) : List Alloc :=
  (s.blocks.filter (fun e => e.2.admitted && e.2.cores.any cores.contains && !s.blockSaved e.2)).map (fun e =>
    { off := e.2.scratch, size := ceilTo 256 e.2.desc.scratch })

/-- Where a block's scratch is to lie in the core store, the same on each of its cores: the lowest place that is free beside the
scratch of the blocks there. No rule gives the place; none is free where the store has no hole of the size (assumption 90). -/
def State.scratchPlace (s : State) (B : Block) : Option Nat :=
  (firstFit (s.scratchUnits B.cores) 0 storeBytes (ceilTo 256 B.desc.scratch)).map (·.off)

/-- A core can take in a share of a block (R11, R29): its entries, its scratch, and the stack areas that its warps would add to
those of the residents, of which there are at most 496, beside the sapling reserve. -/
def State.fitsOn (s : State) (B : Block) (core : Nat) : Bool :=
  let stackRoom := 1024 * min 496 ((s.residents core).length + B.share)
  let window := max (s.largestWindow core) B.desc.window
  s.runsOn B.ctx core && decide (B.share ≤ (s.freeEntries core 0 ordinaryEntries).length) &&
    decide (s.scratchUsed core + ceilTo 256 B.desc.scratch + stackRoom + 16 * warpBytes window ≤ storeBytes)

/-- The residents of a core leave room for a share of a block: its scratch, and the reserve its kernel asks for (R11, R33). -/
def State.roomOn (s : State) (B : Block) (core : Nat) : Bool :=
  s.storeFits core 0 0 (s.scratchUsed core + ceilTo 256 B.desc.scratch) (max (s.largestWindow core) B.desc.window) []

/-- Makes a parked warp resident where there is room and no warp of its core became ready before it (R32). -/
def State.takeRoom (s : State) (w : Nat) : State :=
  match sget s.warps w with
  | none => s
  | some W => if s.roomFor W.core W.window ∧ s.nextUnpark W.core = some w then s.unparkNow w false else s

/-- Admits a block whose cores have room: its warps start in index order, its node is running (R15, R209), and its cores
acquire (R185). -/
def State.admitBlock (s : State) (b : Nat) (B : Block) : State :=
  match sget s.groves B.grove with
  | none => s
  | some G =>
    let per := B.share
    let off := (s.scratchPlace B).getD 0
    let n := s.nextId
    let entry (core i : Nat) : Nat := ((s.freeEntries core 0 ordinaryEntries)[i]?).getD 0
    let mk (i : Nat) : Nat × Warp :=
      let core := (B.cores[i / per]?).getD 0
      (n + i, Warp.start core (entry core (i % per)) B.ctx B.grove i B.kernel (some b) B.desc G.code (fun _ => 15) (n + i))
    let s1 := { s with
      warps := (List.range B.warps).foldl (fun m i => sput m (mk i).1 (mk i).2) s.warps
      blocks := sput s.blocks b { B with admitted := true, scratch := off, members := List.range' n B.warps }
      nextId := n + B.warps }
    let s2 := B.cores.foldl State.acquire s1
    let s3 := (List.range' n B.warps).foldl State.takeRoom s2
    s3.putState G B.node 3 (s3.remain G B.node)

/-- The blocks that must be admitted with a block: those of its cluster instance (R211); none while some node of the run
has not come so far, or stands on another domain. -/
def State.together (s : State) (b : Nat) (B : Block) : Option (List (Nat × Block)) :=
  match sget s.groves B.grove with
  | none => none
  | some G =>
    match B.cluster with
    | none => some [(b, B)]
    | some (parent, run) =>
      if G.domain 5 = 0 then some [(b, B)]
      else
        let run_ := s.runNodes G parent run
        let nodes := run_.filter (s.hasBlock G)
        let idle := run_.filter (fun i => !s.hasBlock G i)
        let found := s.blocks.filter (fun e => e.2.grove == B.grove && nodes.contains e.2.node && !e.2.admitted)
        if found.length = nodes.length ∧ idle.all (fun i => decide (2 ≤ s.nodeState G i)) = true ∧
            found.all (fun e => G.clusterGroup e.2.leader == G.clusterGroup B.leader) then some found else none

/-- What admission comes to. -/
inductive Admission where
  /-- The blocks are admitted. -/
  | done (s : State)
  /-- A core has no room until a resident warp is parked. -/
  | crowded (core : Nat)
  /-- A block waits. -/
  | wait

/-- Admits some blocks one after the other, if all of them fit. -/
def State.admitAll : List (Nat × Block) → State → Admission
  | [], s => .done s
  | (b, B) :: r, s =>
    if B.cores.all (s.fitsOn B) = true ∧ (s.scratchPlace B).isSome = true then
      match B.cores.find? (fun c => !s.roomOn B c) with
      | some core => .crowded core
      | none => State.admitAll r (s.admitBlock b B)
    else .wait

/-- BLOCK_ADMISSION (R29, R35, R211): a waiting block is admitted, with its cluster instance; where the resident warps of a core
leave no room for its scratch and the reserve, one that is not ready is parked first (R11, R31, R33). -/
def admitWarps (b : Nat) (s : State) : State :=
  match sget s.blocks b with
  | none => s
  | some B =>
    let halted := match sget s.groves B.grove with
      | some G => G.status != .running || G.lost || s.faultHalts B.grove G
      | none => true
    if B.admitted ∨ halted = true then s
    else
      match s.together b B with
      | none => s
      | some l =>
        match State.admitAll l s with
        | .done t => t
        | .crowded core => (match s.victim core with
          | some v => s.park v false
          | none => s)
        | .wait => s

/-- BLOCK_ADMISSION. -/
def execBlockAdmission (b : Nat) (s : State) : Out := event (admitWarps b) s

/-- A block's warps have ended and everything they issued has completed (R208). -/
def State.blockQuiet (s : State) (b : Nat) (B : Block) : Bool :=
  B.admitted &&
  B.members.all (fun w =>
    (match sget s.warps w with
      | some W => W.ended && W.away != 1
      | none => true) && !s.storesOut w 255 && !s.outstanding w) &&
  !s.cmds.any (fun e => e.2.block == b) && s.ops.all (fun e => !(e.2.block == b) || e.2.flags.isSome)

/-- A block that ends during a drain of its cores is counted (R294). -/
def State.countDrained (s : State) (B : Block) : State :=
  let c := s.context B.ctx
  match c.ladder with
  | some l =>
    if l.parts.any (fun p => p.stage == .drain && B.cores.any (fun k => p.pairs.getLsbD (k / 2))) then
      s.setContext B.ctx { c with counts := (c.counts.1, c.counts.2.1, c.counts.2.2 + 1) }
    else s
  | none => s

/-- BLOCK_END (R208, R216, R228): the block gives back its entries, its storage and its quadrants, and its node's block has
ended; a block ended by fault fails its node. -/
def endBlock (b : Nat) (s : State) : State :=
  match sget s.blocks b with
  | none => s
  | some B =>
    if s.blockQuiet b B ∧ s.engineRuns B.ctx then
      let s1 := s.releaseTeams b
      let s2 := { s1 with
        blocks := sdel s1.blocks b
        warps := s1.warps.filter (fun e => !B.members.contains e.1)
        barriers := s1.barriers.filter (fun e => !(decide (e.2.level < 5) && e.2.inst.head? == some b)) }
      let s3 := if B.faulted then (s2.countDrained B).failNode B.grove B.node 0x0201 else s2.countDrained B
      (s3.nodeBlockEnded B.grove B.node).tidy B.grove
    else s

/-- BLOCK_END. -/
def execBlockEnd (b : Nat) (s : State) : Out := event (endBlock b) s

/-! ### The end of a grove (R214, R228, R238) -/

/-- The grove has saplings in a seedbed or ring, running, or exited and not recorded (R238). -/
def State.hasSaplings (s : State) (g : Nat) : Bool :=
  s.saplings.any (fun e => e.2.grove == g) || s.exits.any (fun e => e.2.grove == g) ||
    s.warps.any (fun e => e.2.grove == g && e.2.block.isNone && !e.2.ended)

/-- Blocks of a grove are running. -/
def State.hasBlocks (s : State) (g : Nat) : Bool := s.blocks.any (fun e => e.2.grove == g && e.2.admitted)

/-- The root of a device group goes on for the other devices after its own grove has ended (R324). -/
def State.keepRoot (s : State) (g : Nat) (G : Grove) : State :=
  if G.domain 7 = 7 ∧ s.rootDevice G.ctx = s.ownDevice ∧ (s.mates g).length ≤ 1 then
    let r : GroupRoot := { grove := g, ctx := G.ctx, group := s.groupOf G.ctx, gone := G.gone }
    if s.rootDone r then s else { s with roots := s.roots ++ [r] }
  else s

/-- Forgets a grove; the barriers of a group this device still serves as root stay. -/
def State.dropGrove (s : State) (g : Nat) : State :=
  let root := s.roots.any (fun r => r.grove == g)
  { s with
    groves := sdel s.groves g
    trails := s.trails.filter (fun e => !(e.2.grove == g))
    blocks := s.blocks.filter (fun e => !(e.2.grove == g))
    warps := s.warps.filter (fun e => !(e.2.grove == g))
    barriers := s.barriers.filter (fun e => !(decide (5 ≤ e.2.level) && e.2.inst.head? == some g) || (root && e.2.level == 7)) }

/-- The status and node a grove that has ended reports; none while it goes on, and, where its context was lost, while a store it made
is on its way (R214, R228, R238, R316). -/
def State.outcome (s : State) (g : Nat) (G : Grove) : Option (Nat × Nat) :=
  if G.lost then
    if s.regq.any (fun e => e.2.ctx == G.ctx) then none else some (0x0300, G.completed)
  else
    match G.status with
    | .running => none
    | .halting st node => if s.hasBlocks g ∨ s.hasSaplings g then none else some (st, node)
    | .swept => if s.hasSaplings g then none else some (if G.errors.isEmpty then 1 else 2, G.completed)

/-- COMPLETION_WORD_WRITE (R214): the grove has ended; its completion word is written and the grove is no longer live. -/
def writeCompletion (g : Nat) (s : State) : State :=
  match sget s.groves g with
  | none => s
  | some G =>
    match (if s.engineRuns G.ctx ∧ s.requests.any (fun e => e.2.who == .posted && decide (e.2.ctx = G.ctx)) = false then s.outcome g G
      else none) with
    | none => s
    | some (st, node) =>
      let op := EngineOp.completion g
      let p := s.probe op G.ctx G.completion 8 .write
      if p.waits then s.supply op G.ctx G.completion p
      else
        (((((s.complete op G.ctx G.completion G.msix st node).endFar op).forgetDenials G.ctx).keepRoot g G).dropGrove g).tellRoot G 2

/-- COMPLETION_WORD_WRITE. -/
def execCompletionWordWrite (grove : Nat) (s : State) : Out := event (writeCompletion grove) s

end Sys2Proof.Machine
end

