-- ==== Sys2Proof/Machine/Spawn.lean ====
section
/-! DEFINITION. Spawn, saplings and joins (17_spawn R230 to R247): the SPAWN instructions and the steps of the seedbed. -/

namespace Sys2Proof.Machine

/-! ### The seedbed and the spill rings (R232 to R234) -/

/-- Places of a core's seedbed. -/
def seedbedSize : Nat := 4096

/-- The saplings of a core whose context is not saved from it: those of a saved context are part of what is saved (R238). -/
def State.saplingsOn (s : State) (core : Nat) : SMap Sapling :=
  s.saplings.filter (fun e => e.2.core == core &&
    !((sget s.groves e.2.grove).map (fun G => (s.context G.ctx).savedPairs.getLsbD (core / 2))).getD false)

/-- Saplings in a core's seedbed, of every grove. -/
def State.seedbed (s : State) (core : Nat) : SMap Sapling :=
  (s.saplingsOn core).filter (fun e => e.2.ring.isNone && !e.2.away)

/-- Saplings in the rings of a core, in order of acceptance. -/
def State.spilled (s : State) (core : Nat) : SMap Sapling := (s.saplingsOn core).filter (fun e => e.2.ring.isSome)

/-- Moves into free seedbed slots the entries accepted earliest of a core's rings, and of the saplings that a resumed context
brings back (R233, R238; assumption 77). -/
def State.refill (s : State) (core : Nat) : State :=
  let free := seedbedSize - (s.seedbed core).length
  let move := (((s.saplingsOn core).filter (fun e => e.2.ring.isSome || e.2.away)).take free).map (·.1)
  if move.isEmpty then s
  else
    { s with saplings := s.saplings.map (fun e =>
        if move.contains e.1 then (e.1, { e.2 with ring := none, away := false }) else e) }

/-- The saplings of a context on some core pairs go to the save area with it (R238). -/
def State.stashSaplings (s : State) (ctx : Nat) (pairs : BitVec 64) : State :=
  { s with saplings := s.saplings.map (fun e =>
      if pairs.getLsbD (e.2.core / 2) ∧ e.2.ring = none ∧ ((sget s.groves e.2.grove).map (·.ctx)) = some ctx then
        (e.1, { e.2 with away := true })
      else e) }

/-- Address of an entry of a grove's ring of a core; none where the ring lies in memory the driver reserves (R234). -/
def Grove.ringEntry (G : Grove) (core i : Nat) : Option DWord :=
  let base := G.ringBase &&& ~~~63
  if G.ringBase = 0 then none else some (base + BitVec.ofNat 64 (core * G.ringSize * 32 + 32 * i))

/-- The bytes of a ring entry (R234). -/
def ringBytes (payload : List Word) (join : Option DWord) (entry words : Nat) : List Byte :=
  payload.flatMap (fun x => bytesOf 4 x.toNat) ++ bytesOf 8 (join.getD 0).toNat ++ bytesOf 2 entry ++ bytesOf 1 words ++
    bytesOf 1 (if join.isSome then 1 else 0) ++ bytesOf 4 0

/-- A place for a sapling (R232). -/
inductive Spot where
  /-- A slot of the seedbed. -/
  | bed
  /-- The entry given of the grove's ring of the core. -/
  | ring (i : Nat)
  /-- Seedbed and ring are full, or the ring cannot be accessed (R234). -/
  | full
  /-- The host has not supplied a page of the ring. -/
  | page (p : Nat)
deriving DecidableEq, Repr

/-- The pages of a ring entry. -/
def State.ringPages (s : State) (ctx core : Nat) (a : DWord) : List Xlat :=
  [a, a + 31].map (fun b =>
    if canonical b = false ∨ inWindow b = true then .trap 6 0 else s.xlateFor ctx core none (vaOf b) .both)

/-- The place for a sapling of a grove on a core (R232, R234). -/
def State.spot (s : State) (g : Nat) (G : Grove) (core : Nat) : Spot :=
  if (s.seedbed core).length < seedbedSize then .bed
  else
    let used := ((s.spilled core).filter (fun e => e.2.grove == g)).filterMap (fun e => e.2.ring)
    match (List.range G.ringSize).find? (fun i => !used.contains i) with
    | none => .full
    | some i =>
      match G.ringEntry core i with
      | none => .ring i
      | some a =>
        let l := s.ringPages G.ctx core a
        match l.findSome? (fun x => match x with
            | .stall p => some p
            | _ => none) with
        | some p => .page p
        | none =>
          if l.all (fun x => match x with
              | .go _ _ => true
              | _ => false) then .ring i else .full

/-- What deciding a lane answers (R242). -/
inductive Offer where
  /-- Accepted. -/
  | yes (s : State)
  /-- Refused, with the reason. -/
  | no (reason : Nat)
  /-- It waits for a host page, for a remap, or for the device that holds its counter. -/
  | wait (s : State)
  /-- The counter access faults: class and detail. -/
  | fault (cls detail : Nat)

/-- A sapling of the grove, or one that holds a place on the core, waits for the device that holds its counter: it may yet give
its place back (R232). -/
def State.undecided (s : State) (g core : Nat) : Bool :=
  s.saplings.any (fun e => !e.2.ready && (e.2.grove == g || e.2.core == core))

/-- A sapling takes its place and is charged to the quota (R231, R232). -/
def place (c : Ctx) (s : State) (G : Grove) (e words : Nat) (payload : List Word) (join : Option DWord) (ring : Option Nat)
    (ready : Bool) : State :=
  let s1 := { s with
    saplings := sput s.saplings s.nextId
      { core := c.W.core, bin := e, grove := c.W.grove, payload := payload, words := words, join := join,
        time := s.time, ring := ring, away := false, ready := ready, named := false }
    nextId := s.nextId + 1 }
  let s2 := s1.modGrove c.W.grove (fun G => { G with accepted := G.accepted + 1 })
  match ring.bind (G.ringEntry c.W.core) with
  | some a => s2.putAway G.ctx a (ringBytes payload join e words)
  | none => s2

/-- Decides a lane: quota, place and join counter in one step (R231, R232). A counter that another device holds is incremented
there; until its answer has come the sapling only holds its place, and it does not run (R242, R322). -/
def offer (c : Ctx) (s : State) (G : Grove) (e words : Nat) (payload : List Word) (join : Option DWord) (lane : Nat) :
    Offer :=
  let no (r : Nat) : Offer := if s.undecided c.W.grove c.W.core then .wait s else .no r
  if G.quota ≤ G.accepted then no 1
  else
    let s := s.refill c.W.core
    let go (ring : Option Nat) : Offer :=
      let yes (s : State) : Offer := .yes ((place c s G e words payload join ring true).count (ctxFn c.W.ctx) 7 1)
      match join with
      | none => yes s
      | some a =>
        if s.onOrdered c.W.ctx a ∧ s.orderedBusy c = true then .wait s
        else
        match laneAccess s c .both 8 a with
        | .fault k d => .fault k d
        | .stall p => .wait (s.askHost (c.tag p (bitW lane) a))
        | .hold _ => .wait s
        | .remote key _ =>
          let s1 := place c s G e words payload join ring false
          let x := s1.request (.once c.w c.G.slices (c.W.groupPc c.G) lane (some s.nextId)) c.W.ctx key (a &&& ~~~0xFFF) false
            (addPacket 1)
          if x.2.isEmpty then .wait s else .wait (x.1.sendAll x.2)
        | .go locs =>
          match keyOfLocs locs with
          | none => yes s
          | some key => yes (s.rmw c.party (s.ctxStand c.W.ctx) (ctxFn c.W.ctx) key 8 (· + 1)).2
    match s.spot c.W.grove G c.W.core with
    | .full => no 2
    | .page p => .wait (s.askHost (Tag.of c.W.ctx c.W.core p))
    | .bed => go none
    | .ring i => go (some i)

/-! ### SPAWN (R242) -/

/-- Payload words of a lane, those beyond the count 0. -/
def payloadOf (c : Ctx) (x n lane : Nat) : List Word :=
  (List.range 4).map (fun i => if i < n then c.W.vget (x + i) lane else 0)

/-- Decides the lanes in ascending order. A lane whose counter another device holds goes on with that device's answer. -/
def spawnLoop (c : Ctx) (x e n p : Nat) (join : Bool) : List Nat → Word → State → Res
  | [], _, s => .done s
  | l :: r, done, s =>
    match sget s.groves c.W.grove with
    | none => .wait s
    | some G =>
      let report (s : State) (ok : Bool) : State :=
        s.modWarp c.w (fun W => W.pputs (bitW l) p (if ok then BitVec.allOnes 32 else 0))
      let addr := c.W.vget2 (x + 4) l
      let fault (s : State) (k d : Nat) : Res := .trap s (laneTrap k d (done ||| c.redone) [(l, addr)])
      match s.onceOf c.w (c.W.groupPc c.G) l with
      | some (_, none) => .wait (s.waitWith c (.lanes done))
      | some (i, some (k, d, _)) =>
        if k = 0 then spawnLoop c x e n p join r (done ||| bitW l) (report (s.dropRequest i) true)
        else fault (s.dropRequest i) k d
      | none =>
        match offer c s G e n (payloadOf c x n l) (if join then some addr else none) l with
        | .yes s1 => spawnLoop c x e n p join r (done ||| bitW l) (report s1 true)
        | .no reason =>
          spawnLoop c x e n p join r (done ||| bitW l)
            (report (s.modWarp c.w (fun W => { W with refusal := reason })) false)
        | .wait s1 => .wait (s1.waitWith c (.lanes done))
        | .fault k d => fault s k d

/-- A descriptor meets R230. -/
def Kernel.spawnable (d : Kernel) : Bool := d.team == 1 && !d.pair && d.scratch == 0 && d.tileCount == 0

/-- A spawn-usage trap. -/
def spawnTrap (s : State) (cause : Nat) : Res := .trap s (Trap.of 0x14 cause)

/-- SPAWN (R242). -/
def spawnBody (x y : Nat) (join : Bool) (n p : Nat) (c : Ctx) (s : State) : Res :=
  match sget s.groves c.W.grove with
  | none => .wait s
  | some G =>
    let e := (c.sread s y).toNat
    if 64 ≤ e ∨ G.kernelCount ≤ e then spawnTrap s 1
    else if ((sget G.kernels e).map Kernel.spawnable).getD false = false then spawnTrap s 2
    else
      let done : Word := match c.G.pend with
        | .lanes m => m
        | _ => 0
      let lanes := (lanesOf c.act).filter (fun l => !done.getLsbD l)
      match (if join then issueFault s c false 8 8 (laneAddrs c (fun l => c.W.vget2 (x + 4) l)) else none) with
      | some t => .trap s t
      | none => afterRelease c s (spawnLoop c x e n p join lanes done)

/-- SPAWN. -/
def execSpawn (x y : BitVec 7) (j : BitVec 1) (w : BitVec 2) (p : BitVec 3) (s : State) : Out :=
  issue (fun _ =>
    let join := j == 1
    { Sig.plain with
      guard := true
      srcs := wordSrcs x.toNat (w.toNat + 1) ++ (if join then [(.v (x.toNat + 4) 2, some 0)] else []) ++
        [(.s y.toNat 1, some 1)]
      legal := x.toNat % 2 == 0 })
    (spawnBody x.toNat y.toNat (j == 1) (w.toNat + 1) p.toNat) s

/-! ### SPAWNF, JOINWAIT, JOINADD, PAYLOAD, SPQUERY (R243 to R247) -/

/-- A sapling that stands in its bin, its acceptance decided. -/
def Sapling.inBin (x : Sapling) : Bool := x.ring.isNone && !x.away && x.ready

/-- SPAWNF (R243): the saplings that stand in the bins named are to form at once. -/
def spawnfBody (x : Nat) (c : Ctx) (s : State) : Res :=
  let s1 := s.refill c.W.core
  let here := (s1.saplingsOn c.W.core).map (·.1)
  .done { s1 with saplings := s1.saplings.map (fun e =>
      if here.contains e.1 ∧ e.2.inBin = true ∧ (x = 64 ∨ e.2.bin = x) then (e.1, { e.2 with named := true }) else e) }

/-- SPAWNF. -/
def execSpawnf (x : BitVec 7) (s : State) : Out :=
  issue (fun _ => { Sig.plain with legal := decide (x.toNat ≤ 64) }) (spawnfBody x.toNat) s

/-- The fault that a counter address meets at issue (R156). -/
def counterIssue (a : DWord) : Option Trap :=
  if a.toNat % 8 ≠ 0 then some { Trap.of 5 0 with addr := a }
  else if canonical a = false then some { Trap.of 6 0 with addr := a }
  else if inWindow a then some { Trap.of 3 0 with addr := a }
  else none

/-- Performs the access of an instruction that acts once per issue: at home, where `near` gets the counter's key; or, where
another device holds the counter, by a request `p` whose answer `far` gets (R239, R245, R322). -/
def counterAccess (c : Ctx) (s : State) (acc : Acc) (a : DWord) (p : Packet) (near : Nat → State → Res)
    (far : Nat → State → Res) : Res :=
  let pc := c.W.groupPc c.G
  match s.onceOf c.w pc 0 with
  | some (_, none) => .wait (s.waitWith c .page)
  | some (i, some (k, d, v)) =>
    if k = 0 then far v (s.dropRequest i) else .trap (s.dropRequest i) { Trap.of k d with addr := a, page := a }
  | none =>
    if s.onOrdered c.W.ctx a ∧ s.orderedBusy c = true then .wait s
    else
    match laneAccess s c acc 8 a with
    | .fault cls d => .trap s { Trap.of cls d with addr := a, page := a }
    | .stall p => .wait ((s.askHost (c.tag p 0 a)).waitWith c .page)
    | .hold _ => .wait (s.waitWith c .page)
    | .remote key _ => .wait ((s.askOne (.once c.w c.G.slices pc 0 none) c.W.ctx key (a &&& ~~~0xFFF) p).waitWith c .page)
    | .go locs =>
      match keyOfLocs locs with
      | some key => if s.homeFree c key 8 then near key (s.atHome c.party (s.ctxStand c.W.ctx) key 8) else .wait s
      | none => .done s

/-- JOINWAIT (R239, R244): parks the warp while the counter is not zero. -/
def joinwaitBody (x : Nat) (c : Ctx) (s : State) : Res :=
  let a := c.sread2 s x
  if c.G.pend = .join a true then afterAcquire c s .done
  else
    let read (v : Nat) (s : State) : Res :=
      if v = 0 then afterAcquire c s .done
      else if s.outstanding c.w then .wait (s.waitWith c .issued)
      else .wait ((s.waitWith c (.join a false)).park c.w false)
    match counterIssue a with
    | some t => .trap s t
    | none => counterAccess c s .read a (loadPacket 8) (fun key s => read (s.num key 8) s) read

/-- JOINWAIT. -/
def execJoinwait (x : BitVec 7) (s : State) : Out :=
  issue (fun _ => { Sig.plain with srcs := [(.s x.toNat 2, some 0)] }) (joinwaitBody x.toNat) s

/-- JOINADD (R245). -/
def joinaddBody (x y : Nat) (c : Ctx) (s : State) : Res :=
  let a := c.sread2 s x
  let k := ((c.sread s y).signExtend 64).toNat
  if c.act = 0 then .done s
  else
    match counterIssue a with
    | some t => .trap s t
    | none =>
      afterRelease c s (fun s =>
        counterAccess c s .both a (addPacket k)
          (fun key s => .done (s.rmw c.party (s.ctxStand c.W.ctx) (ctxFn c.W.ctx) key 8 (· + k)).2)
          (fun _ s => .done s))

/-- JOINADD. -/
def execJoinadd (x y : BitVec 7) (s : State) : Out :=
  issue (fun _ => { Sig.plain with srcs := [(.s x.toNat 2, some 0), (.s y.toNat 1, some 1)] }) (joinaddBody x.toNat y.toNat) s

/-- PAYLOAD (R246). -/
def payloadBody (x n : Nat) (c : Ctx) (s : State) : Res :=
  if c.W.block.isSome then spawnTrap s 3
  else
    longVec c s x n 0 .other (fun i lane =>
      match sget c.W.saplings lane with
      | some e => (e.1[i]?).getD 0
      | none => c.W.vget (x + i) lane)

/-- PAYLOAD. -/
def execPayload (x y : BitVec 7) (s : State) : Out :=
  issue (fun _ =>
    { Sig.plain with
      guard := true, dsts := (List.range y.toNat).map (fun i => .v (x.toNat + i) 1)
      legal := decide (1 ≤ y.toNat) && decide (y.toNat ≤ 4) })
    (payloadBody x.toNat y.toNat) s

/-- What SPQUERY reads (R247). -/
def queryValue (s : State) (W : Warp) (G : Grove) (sel : Nat) : Nat :=
  let mine (l : SMap Sapling) : SMap Sapling := l.filter (fun e => e.2.grove == W.grove && e.2.ready)
  let bed := mine (s.seedbed W.core)
  if sel = 0 then min (G.quota - G.accepted) 0xFFFFFFFF
  else if sel = 1 then bed.length
  else if sel = 2 then (mine (s.spilled W.core)).length
  else if sel = 3 then G.ringSize
  else if sel = 4 then W.refusal
  else (bed.filter (fun e => e.2.bin + 64 == sel)).length

/-- SPQUERY (R247). -/
def spqueryBody (x sel : Nat) (c : Ctx) (s : State) : Res :=
  match sget s.groves c.W.grove with
  | none => .wait s
  | some G =>
    let s := s.refill c.W.core
    let v := BitVec.ofNat 32 (queryValue s c.W G sel)
    let s1 := if sel = 4 then s.modWarp c.w (fun W => { W with refusal := 0 }) else s
    .done (s1.produce c [] [(x, v)] none 0 .other)

/-- SPQUERY. -/
def execSpquery (x y : BitVec 7) (s : State) : Out :=
  issue (fun _ =>
    { Sig.plain with dsts := [.s x.toNat 1], legal := decide (y.toNat ≤ 4) || decide (64 ≤ y.toNat) })
    (spqueryBody x.toNat y.toNat) s

/-! ### The seedbed's own steps (R235 to R239) -/

/-- The saplings of one grove in a bin of a core, oldest first. -/
def State.bin (s : State) (core bin g : Nat) : SMap Sapling :=
  (s.saplingsOn core).filter (fun e => e.2.bin == bin && e.2.grove == g && e.2.inBin)

/-- BIN_TIMER_EXPIRY (R235): 4096 cycles have passed since the bin's oldest sapling was accepted. -/
def binTimer (core bin g : Nat) (s0 : State) : State :=
  let s := s0.refill core
  match s.bin core bin g with
  | [] => s
  | (_, x) :: _ =>
    if x.time + 4096 ≤ s.time ∧ s.flushes.contains (core, bin, g) = false then
      { s with flushes := s.flushes ++ [(core, bin, g)] }
    else s

/-- BIN_TIMER_EXPIRY. -/
def execBinTimerExpiry (core bin grove : Nat) (s : State) : Out := event (binTimer core bin grove) s

/-- An entry of the sapling reserve, of which saplings hold 15 at most (R33). -/
def State.reserved (s : State) (core window : Nat) : Option Nat :=
  match s.freeEntries core ordinaryEntries 2048 with
  | i :: _ :: _ => if s.slotFits core window then some i else none
  | _ => none

/-- The scheduling entry a sapling warp takes: an ordinary one with ordinary room if it can, else one of the reserve
(R33). -/
def State.saplingEntry (s : State) (core window : Nat) : Option Nat :=
  match s.freeEntries core 0 ordinaryEntries with
  | i :: _ => if s.roomFor core window then some i else s.reserved core window
  | [] => s.reserved core window

/-- SAPLING_WARP_FORMATION (R235, R236): a bin forms a warp of its 32 oldest saplings, or of all of them; its start
acquires (R185). The timer's mark is used up: the saplings that remain have their own. -/
def formWarp (core bin g : Nat) (s0 : State) : State :=
  let s := s0.refill core
  let l := s.bin core bin g
  match sget s.groves g with
  | none => s
  | some G =>
    if l = [] ∨ s.runsOn G.ctx core = false ∨
        (l.length < 32 ∧ l.any (fun e => e.2.named) = false ∧ s.flushes.contains (core, bin, g) = false ∧
          s.coreIdle core = false) then s
    else
      match sget G.kernels bin with
      | none => s
      | some d =>
        match s.saplingEntry core d.window with
        | none => s
        | some entry =>
          let taken := l.take 32
          let live (j : Nat) : BitVec 4 := BitVec.ofNat 4 ((2 ^ taken.length - 1) / 2 ^ (4 * j))
          let n := s.nextId
          let W0 := Warp.start core entry G.ctx g 0 bin none d G.code live n
          let W1 := taken.zipIdx.foldl (fun (W : Warp) e =>
            let W1 := (List.range 4).foldl (fun (W : Warp) i => W.vput i e.2 ((e.1.2.payload[i]?).getD 0)) W
            { W1 with saplings := sput W1.saplings e.2 (e.1.2.payload, e.1.2.join) }) W0
          let gone := taken.map (·.1)
          let s1 := { s with
            warps := sput s.warps n W1
            saplings := s.saplings.filter (fun e => !gone.contains e.1)
            flushes := s.flushes.filter (fun f => f != (core, bin, g))
            nextId := n + 1 }
          ((s1.refill core).unparkNow n false).acquire core

/-- SAPLING_WARP_FORMATION. -/
def execSaplingWarpFormation (core bin grove : Nat) (s : State) : Out := event (formWarp core bin grove) s

/-- Every store, atomic, capsule step and copy command that a warp issued before an exit of the number given has completed, and
its away messages are sent (R237, R255). -/
def State.exitQuiet (s : State) (w id : Nat) : Bool :=
  (match sget s.warps w with
    | some W => W.away != 1
    | none => true) &&
  !s.regq.any (fun e => e.2.warp == w && decide (e.1 < id)) && !s.steps.any (fun e => e.2.warp == w && decide (e.1 < id)) &&
  !s.cmds.any (fun e => e.2.warp == w && decide (e.1 < id)) &&
  !s.requests.any (fun e => e.2.answer.isNone && !e.2.load && decide (e.2.order < id) && (match e.2.who with
    | .lane v _ _ _ _ _ => v == w
    | .once v _ _ _ _ => v == w
    | _ => false))

/-- Forgets a sapling warp that has ended and whose exits are recorded. -/
def State.forgetSapling (s : State) (w : Nat) : State :=
  match sget s.warps w with
  | none => s
  | some W =>
    if W.block = none ∧ W.ended = true ∧ s.exits.any (fun e => e.2.warp == w) = false ∧ s.outstanding w = false then
      { s with warps := sdel s.warps w }
    else s

/-- An exit is recorded, its counter decremented or with none to decrement. -/
def State.exited (s : State) (id w : Nat) : State := { s with exits := sdel s.exits id }.forgetSapling w

/-- The request that carries the decrement of an exit. -/
def State.exitRequest (s : State) (id : Nat) : Option (Nat × Request) := s.requests.find? (fun e => e.2.who == .exit id)

/-- SAPLING_EXIT (R237): the exit is recorded once the warp's earlier accesses have completed; its join counter is decremented at
its home slice, or by the device that holds it. A counter that can no longer be reached is not decremented. -/
def recordExit (id : Nat) (s : State) : State :=
  match sget s.exits id with
  | none => s
  | some x =>
    match s.exitRequest id with
    | some (i, r) => if r.answer.isNone then s else (s.dropRequest i).exited id x.warp
    | none =>
      if s.exitQuiet x.warp id = false ∨ s.engineRuns x.ctx = false then s
      else
        let core := ((sget s.warps x.warp).map (fun W : Warp => W.core)).getD 0
        match x.join with
        | none => s.exited id x.warp
        | some a =>
          match s.xlateFor x.ctx core none (vaOf a) .hard with
          | .trap _ _ => s.exited id x.warp
          | .stall p => s.askHost (Tag.of x.ctx core p)
          | .go key _ =>
            if isRemote key then s.askOne (.exit id) x.ctx key (a &&& ~~~0xFFF) (addPacket (2 ^ 64 - 1))
            else if s.held.contains (addrOf key / 4096) ∧ spaceOf key = 0 then s
            else if s.onOrdered x.ctx a ∧ (s.orderedGang core x.warp 0 || s.orderedRows core id || s.orderedAway core) = true then s
            else if s.mayDrain (Party.engine core) (homeOf (s.ctxStand x.ctx) key) key 8 s.nextId = false then s
            else
              (s.rmw (Party.engine core) (s.ctxStand x.ctx) (ctxFn x.ctx) key 8 (· + (2 ^ 64 - 1))).2.exited id x.warp

/-- SAPLING_EXIT. -/
def execSaplingExit (id : Nat) (s : State) : Out := event (recordExit id) s

/-- The home slice has seen the counter of a gang's JOINWAIT at zero; or the counter cannot be read, and the gang is to meet the
fault. Once no gang of the warp waits on a counter still, the warp is ready (R244). -/
def State.joinReady (s : State) (w j : Nat) (a : DWord) (zero : Bool) : State :=
  let s1 := s.modWarp w (fun W => W.modGang j (fun g => if zero then { g with pend := .join a true } else g.idle))
  match sget s1.warps w with
  | some W => if W.joining then s1 else s1.wake w zero
  | none => s1

/-- The home slice looks at the counter that a gang's JOINWAIT waits on. Where another device holds it, it is asked for, again and
again. -/
def State.joinLook (s : State) (w : Nat) (W : Warp) (g : Gang) (a : DWord) : State :=
  let j := lowSlice g.slices
  match s.onceOf w (W.groupPc g) 0 with
  | some (_, none) => s
  | some (i, some (k, _, v)) =>
    let s1 := s.dropRequest i
    if k ≠ 0 then s1.joinReady w j a false else if v = 0 then s1.joinReady w j a true else s1
  | none =>
    match s.xlateFor W.ctx W.core (some w) (vaOf a) .read with
    | .trap _ _ => s.joinReady w j a false
    | .stall p => s.askHost { ctx := W.ctx, core := W.core, warp := some w, page := p, lanes := 0, va := a }
    | .go key _ =>
      if isRemote key then s.askOne (.once w g.slices (W.groupPc g) 0 none) W.ctx key (a &&& ~~~0xFFF) (loadPacket 8)
      else if s.poisoned key 8 then s.joinReady w j a false
      else if s.num key 8 = 0 then s.joinReady w j a true
      else s

/-- JOINWAIT_WAKE (R239, R244): the home slices look at the counters a parked warp waits on. -/
def joinWake (w : Nat) (s : State) : State :=
  match sget s.warps w with
  | none => s
  | some W =>
    match W.residency with
    | .parked false _ =>
      W.gangs.foldl (fun s g => match g.pend with
        | .join a false => s.joinLook w W g a
        | _ => s) s
    | _ => s

/-- JOINWAIT_WAKE. -/
def execJoinwaitWake (w : Nat) (s : State) : Out := event (joinWake w) s

end Sys2Proof.Machine
end

