-- ==== Sys2Proof/Machine/Control.lean ====
section
/-! DEFINITION. Branches, joins, calls, CTL operations and hints (07_isa_scalar R120 to R133, 03_encoding R59 to R65,
01_machine R18 to R22), and the scheduler's and the memory system's own steps (R26, R31, R32, R55, R189). -/

namespace Sys2Proof.Machine

/-! ### Branches (R120 to R123) -/

/-- A branch target: the instruction's own address plus four times the offset (R45, R63). -/
def Ctx.target (c : Ctx) (o : BitVec 22) : DWord := c.W.pcOf c.G + BitVec.ofInt 64 (4 * immInt o c.h.imms)

/-- A signature of a branch: up to two IMM hints suit it (R59). -/
def branchSig (legal : Bool) (body : BodyRule) : Sig := { Sig.plain with imms := 2, legal := legal, body := body }

/-- JOINAT (R121). -/
def joinatBody (o : BitVec 22) (c : Ctx) (s : State) : Res :=
  .done (s.modWarp c.w (fun W => W.modSlices c.G.slices (fun _ x => { x with armed := some (c.target o) })))

/-- JOINAT. -/
def execJoinat (o : BitVec 22) (s : State) : Out := issue (fun _ => branchSig true .free) (joinatBody o) s

/-- The lanes for which a branch condition holds: 0 to 3 predicates, 4 to 6 uniform predicates, 7 always (R122). -/
def Ctx.condition (c : Ctx) (cond : Nat) (neg : Bool) : Word :=
  let t : Word :=
    if cond < 4 then c.W.pmask cond
    else if cond < 7 then (if c.G.q.getLsbD (cond - 4) then BitVec.allOnes 32 else 0)
    else BitVec.allOnes 32
  if neg then ~~~t else t

/-- The four lanes of a slice in a mask of lanes. -/
def sliceBits (m : Word) (j : Nat) : BitVec 4 := m.extractLsb' (4 * j) 4

/-- The top entry of a slice takes further waiting lanes (R122). -/
def Slice.mergeable (x : Slice) (next : DWord) : Bool :=
  match x.stack with
  | e :: _ => !e.second && e.join == x.armed && e.resume == next
  | [] => false

/-- The trap of BRA's first pass in one slice (R122). -/
def Slice.braTrap (x : Slice) (j : Nat) (t : BitVec 4) (next : DWord) : Option Trap :=
  if t = x.active ∨ t = 0 then none
  else if x.armed = none then some (Trap.of 0x0B j)
  else if x.mergeable next = false ∧ 8 ≤ x.stack.length then some (Trap.of 0x0A j)
  else none

/-- BRA's effect on one slice (R122). -/
def Slice.bra (x : Slice) (cond : Nat) (t : BitVec 4) (target next : DWord) : Slice :=
  let x1 := if cond = 7 then x else { x with armed := none }
  if t = x.active then { x1 with pc := target }
  else if t = 0 then { x1 with pc := next }
  else
    let rest := x.active &&& ~~~t
    let st := if x.mergeable next then
        match x.stack with
        | e :: r => { e with lanes := e.lanes ||| rest } :: r
        | [] => []
      else { resume := next, lanes := rest, join := x.armed, second := false } :: x.stack
    { x1 with active := t, stack := st, pc := target }

/-- BRA (R122). -/
def braBody (cond : Nat) (neg : Bool) (o : BitVec 22) (c : Ctx) (s : State) : Res :=
  let m := c.condition cond neg
  let next := c.W.pcOf c.G + 4
  let taken (j : Nat) (x : Slice) : BitVec 4 := x.active &&& sliceBits m j
  match (slicesOf c.G.slices).findSome? (fun j =>
      let x := c.W.slice j
      x.braTrap j (taken j x) next) with
  | some t => .trap s t
  | none =>
    .jump (s.modWarp c.w (fun W => W.go c.G.slices none (fun j x => x.bra cond (taken j x) (c.target o) next)))

/-- BRA. -/
def execBra (n : BitVec 1) (cond : BitVec 3) (o : BitVec 22) (s : State) : Out :=
  issue (fun h =>
    let forward := decide (1 ≤ immInt o h.imms)
    branchSig (!(n == 1 && cond == 7)) (if cond.toNat < 4 || cond == 7 then (if forward then .free else .back) else .no))
    (braBody cond.toNat (n == 1) o) s

/-! ### Calls, returns, indirect branches (R14, R126 to R128) -/

/-- CALL (R126). -/
def callBody (cond : Nat) (neg : Bool) (o : BitVec 22) (c : Ctx) (s : State) : Res :=
  let next := c.W.pcOf c.G + 4
  if c.condition cond neg = 0 then .done s
  else if (slicesOf c.G.slices).any (fun j => decide (32 ≤ (c.W.slice j).rets.length)) then .trap s (Trap.of 0x0C 0)
  else
    .jump (s.modWarp c.w (fun W => W.go c.G.slices none (fun _ x =>
      { x with rets := next :: x.rets, pc := c.target o })))

/-- CALL. -/
def execCall (n : BitVec 1) (cond : BitVec 2) (o : BitVec 22) (s : State) : Out :=
  issue (fun _ => branchSig (!(n == 1 && cond == 3)) .no) (callBody (4 + cond.toNat) (n == 1) o) s

/-- An address that is no instruction address (R43). -/
def misaligned (a : DWord) : Bool := a.toNat % 4 != 0

/-- RET (R127). -/
def retBody (c : Ctx) (s : State) : Res :=
  let l := (slicesOf c.G.slices).map (fun j => (c.W.slice j).rets)
  if l.any (fun r => r.isEmpty) then .trap s (Trap.of 0x0D 0)
  else if l.any (fun r => misaligned ((r.head?).getD 0)) then .trap s (Trap.of 9 0)
  else
    .jump (s.modWarp c.w (fun W => W.go c.G.slices none (fun _ x =>
      { x with rets := x.rets.tail, pc := (x.rets.head?).getD x.pc })))

/-- RET. -/
def execRet (s : State) : Out := issue bareSig retBody s

/-- BRX with a scalar pair (R128). -/
def brxScalarBody (r : Nat) (c : Ctx) (s : State) : Res :=
  let t := c.sread2 s r
  if misaligned t then .trap s (Trap.of 9 0)
  else .jump (s.modWarp c.w (fun W => W.go c.G.slices none (fun _ x => { x with armed := none, pc := t })))

/-- BRX with a scalar pair. -/
def execBrxScalar (r : BitVec 7) (s : State) : Out :=
  issue (fun _ => { Sig.plain with srcs := [(.s r.toNat 2, some 0)] }) (brxScalarBody r.toNat) s

/-- The lanes of a slice grouped by target, the group of the lowest lane first (R128). -/
def targetGroups (active : BitVec 4) (f : Nat → DWord) : List (DWord × BitVec 4) :=
  (onesBelow 4 active.toNat).foldl (fun gs i =>
    if gs.any (fun g => g.1 == f i) then gs.map (fun g => if g.1 = f i then (g.1, g.2 ||| (1#4 <<< i)) else g)
    else gs ++ [(f i, 1#4 <<< i)]) []

/-- BRX's effect on one slice (R128). -/
def Slice.brx (x : Slice) (next : DWord) (gs : List (DWord × BitVec 4)) : Slice :=
  match gs with
  | [] => { x with armed := none, pc := next }
  | (t, m) :: r =>
    { x with armed := none, active := m, pc := t
             stack := r.map (fun g => { resume := g.1, lanes := g.2, join := x.armed, second := false }) ++ x.stack }

/-- The trap of BRX in one slice (R128). -/
def Slice.brxTrap (x : Slice) (j : Nat) (gs : List (DWord × BitVec 4)) : Option Trap :=
  if gs.length ≤ 1 then none
  else if x.armed = none then some (Trap.of 0x0B j)
  else if 8 < x.stack.length + (gs.length - 1) then some (Trap.of 0x0A j)
  else none

/-- BRX with a vector pair (R128). Where a slice meets a join or mask-stack trap and a lane's target is misaligned, the first is
taken: R128 gives no order between them (assumption 70). -/
def brxVectorBody (r : Nat) (c : Ctx) (s : State) : Res :=
  let groups (j : Nat) : List (DWord × BitVec 4) := targetGroups (c.W.slice j).active (fun i => c.W.vget2 r (4 * j + i))
  let js := slicesOf c.G.slices
  match js.findSome? (fun j => (c.W.slice j).brxTrap j (groups j)) with
  | some t => .trap s t
  | none =>
    match (lanesOf c.base).filter (fun l => misaligned (c.W.vget2 r l)) with
    | l :: ls => .trap s { Trap.of 9 0 with faulting := maskOf (l :: ls), addr := c.W.vget2 r l }
    | [] =>
      .jump (s.modWarp c.w (fun W => W.go c.G.slices none (fun j x => x.brx (c.W.pcOf c.G + 4) (groups j))))

/-- BRX with a vector pair. -/
def execBrxVector (r : BitVec 7) (s : State) : Out :=
  issue (fun _ => { Sig.plain with srcs := [(.v r.toNat 2, some 0)] }) (brxVectorBody r.toNat) s

/-! ### CTL (R124, R129 to R133) -/

/-- NOP (R129). -/
def execNop (s : State) : Out := issue (fun _ => { Sig.plain with body := .free }) (fun _ s => .done s) s

/-- The warp after the active lanes of a gang's slices have exited (R15, R124). -/
def Warp.exitLanes (W : Warp) (m : BitVec 8) : Warp :=
  let W1 := (W.modSlices m (fun _ x => Slice.afterExit 20 { x with active := 0 })).sunder m none
  { W1 with ended := W1.live == 0 }

/-- EXIT (R124): the lanes of a sapling warp are to be recorded (R237). -/
def exitBody (c : Ctx) (s : State) : Res :=
  let s1 := s.recordExits c.w c.W c.base
  let s2 := s1.modWarp c.w (fun W => W.exitLanes c.G.slices)
  let past := match sget s2.warps c.w with
    | some W => W.ended
    | none => false
  match c.W.block with
  | some b => .jump (if past then s2.modBlock b (fun B => { B with ended := B.ended ++ [c.W.index] }) else s2)
  | none => .jump s2

/-- EXIT. -/
def execExit (s : State) : Out := issue bareSig exitBody s

/-- TRAP (R129): the resume PC is the word after it. -/
def execTrap (code : BitVec 16) (s : State) : Out :=
  issue bareSig (fun _ s => .trap s { Trap.of 0x21 code.toNat with after := true }) s

/-- BKPT (R129). -/
def execBkpt (code : BitVec 16) (s : State) : Out := issue bareSig (fun _ s => .trap s (Trap.of 0x22 code.toNat)) s

/-- SLEEP (R129): the deadline is fixed at issue. -/
def sleepBody (n : Nat) (c : Ctx) (s : State) : Res :=
  if n = 0 then .done s
  else .done (s.modWarp c.w (fun W => W.modGang c.j (fun g => { g with sleep := some (3 * (s.refTime + n)) })))

/-- SLEEP. -/
def execSleep (n : BitVec 20) (s : State) : Out := issue bareSig (sleepBody n.toNat) s

/-- YIELDQ (R130): the warp becomes the youngest, and its gangs lose promotion. -/
def yieldqBody (c : Ctx) (s : State) : Res :=
  let s1 := s.modWarp c.w (fun W =>
    { W with age := s.nextId, gangs := W.gangs.map (fun g => { g with promoted := false, unchosen := 0 }) })
  .done { s1 with nextId := s.nextId + 1 }

/-- YIELDQ. -/
def execYieldq (s : State) : Out := issue bareSig yieldqBody s

/-- Writes a 64-bit value to a scalar pair. -/
def Warp.sput2 (W : Warp) (j d : Nat) (x : DWord) : Warp :=
  (Warp.sput W j d (loWord x)).modGang j (fun g => if d = 96 then g else g.sput W.only (d + 1) (hiWord x))

/-- TSTAMP (R131). -/
def tstampBody (d : Nat) (c : Ctx) (s : State) : Res :=
  .done (s.modWarp c.w (fun W => W.sput2 c.j d (BitVec.ofNat 64 s.refTime)))

/-- TSTAMP. -/
def execTstamp (d : BitVec 7) (s : State) : Out := issue (fun _ => { Sig.plain with dsts := [.s d.toNat 2] }) (tstampBody d.toNat) s

/-- A number packed from a bit of each slice. -/
def slicePack (W : Warp) (w : Nat) (f : Slice → Nat) : Nat :=
  (List.range 8).foldl (fun a j => a + f (W.slice j) * 2 ^ (w * j)) 0

/-- The value of a system register (R99, R132, R284). -/
def sysRead (s : State) (c : Ctx) (n : Nat) : Word :=
  let x := s.context c.W.ctx
  match n with
  | 1 => c.W.flags
  | 2 => c.W.flags
  | 3 => BitVec.ofNat 32 (slicePack c.W 4 (fun x => if x.exited then 0 else x.stack.length))
  | 4 => BitVec.ofNat 32 (c.W.slice c.j).rets.length
  | 5 => c.base
  | 6 => BitVec.ofNat 32 (slicePack c.W 1 (fun x => if x.armed.isSome then 1 else 0))
  | 0x1000 => BitVec.ofNat 32 ((if c.W.inHandler c.j then 1 else 0) +
      (if c.W.inHandler c.j && (c.W.handler.bind (·.halt)).isSome then 2 else 0))
  | 0x1001 => loWord x.tvec
  | 0x1002 => hiWord x.tvec
  | 0x1003 => loWord x.hvec
  | 0x1004 => hiWord x.hvec
  | 0x1005 => loWord x.tdeleg
  | 0x1006 => hiWord x.tdeleg
  | _ => 0

/-- SREAD (R99, R132). -/
def sreadBody (n d : Nat) (c : Ctx) (s : State) : Res :=
  let v := sysRead s c n
  .done (s.modWarp c.w (fun W =>
    let W1 := Warp.sput W c.j d v
    if n = 2 then { W1 with flags := W1.flags &&& ~~~(v &&& 0x1FF) } else W1))

/-- SREAD. -/
def execSread (n : BitVec 13) (d : BitVec 7) (s : State) : Out :=
  issue (fun _ =>
    { Sig.plain with
      dsts := [.s d.toNat 1], priv := decide (0x1000 ≤ n.toNat)
      legal := (decide (1 ≤ n.toNat) && decide (n.toNat ≤ 6)) || (decide (0x1000 ≤ n.toNat) && decide (n.toNat ≤ 0x1006)) })
    (sreadBody n.toNat d.toNat) s

/-- SWRITE (R99, R132, R284). -/
def swriteBody (n d : Nat) (c : Ctx) (s : State) : Res :=
  let v := c.sread s d
  let x := s.context c.W.ctx
  let put (y : Context) : State := s.setContext c.W.ctx y
  .done (match n with
    | 1 => s.modWarp c.w (fun W => { W with flags := v &&& flagBits })
    | 0x1001 => put { x with tvec := pair64 v (hiWord x.tvec) }
    | 0x1002 => put { x with tvec := pair64 (loWord x.tvec) v }
    | 0x1003 => put { x with hvec := pair64 v (hiWord x.hvec) }
    | 0x1004 => put { x with hvec := pair64 (loWord x.hvec) v }
    | 0x1005 => put { x with tdeleg := pair64 v (hiWord x.tdeleg) }
    | _ => put { x with tdeleg := pair64 (loWord x.tdeleg) v })

/-- SWRITE. -/
def execSwrite (n : BitVec 13) (d : BitVec 7) (s : State) : Out :=
  issue (fun _ =>
    { Sig.plain with
      srcs := [(.s d.toNat 1, some 0)], priv := true
      legal := n.toNat == 1 || (decide (0x1001 ≤ n.toNat) && decide (n.toNat ≤ 0x1006)) })
    (swriteBody n.toNat d.toNat) s

/-- PARK (R133): the warp parks once its register writes have landed, and another warp's access to its registers that it was made
resident for has been made (R42), and is ready again at once. While it waits for them the warp's other gangs go on: R133 does not say
whether they may (assumption 71). -/
def parkBody (c : Ctx) (s : State) : Res := if s.outstanding c.w ∨ s.called c.W = true then .wait s else .done (s.park c.w true)

/-- PARK. -/
def execPark (s : State) : Out := issue bareSig parkBody s

/-! ### REGANG (R18, R19, R22, R57) -/

/-- The gangs of a warp that have arrived at the REGANG a gang stands at, that gang among them. -/
def Warp.arrivers (W : Warp) (g : Gang) (id : Nat) : List Gang :=
  W.gangs.filter (fun x => x.slices == g.slices || (match x.pend with
    | .regang i _ => i == id && W.pcOf x == W.pcOf g
    | _ => false))

/-- Slices of some gangs. -/
def slicesOfGangs (l : List Gang) : BitVec 8 := l.foldl (fun m g => m ||| g.slices) 0

/-- Every named unexited slice has arrived (R18). -/
def Warp.regangFull (W : Warp) (l : List Gang) (mask : BitVec 8) : Bool :=
  (mask &&& W.live) &&& ~~~(slicesOfGangs l) == 0

/-- A wait of the warp can complete (R19). -/
def Warp.someRegang (W : Warp) : Bool :=
  W.gangs.any (fun g => match g.pend with
    | .regang id mask => W.regangFull (W.arrivers g id) mask
    | _ => false)

/-- Every unexited slice of the warp waits at a REGANG. -/
def Warp.allRegang (W : Warp) : Bool :=
  W.gangs.all (fun g => match g.pend with
    | .regang _ _ => true
    | _ => false)

/-- The value a register takes when gangs merge (R22), from the arrivers, lowest slice first, of which `low` is the value of
the lowest: the value and whether it conflicts. -/
def mergeValue {α : Type} [DecidableEq α] (low : α) (l : List (Bool × α)) : α × Bool :=
  match l.filter (·.1) with
  | [] => (low, false)
  | (_, x) :: r => if r.all (fun e => e.2 == x) then (x, false) else (low, true)

/-- Merges gangs (R18, R22): one gang with the merged view; the flag says whether a register conflicted. -/
def mergeGangs (l : List Gang) (only : Bool) : Gang × Bool :=
  let sorted := l.foldl (fun a g =>
    a.filter (fun x => decide (lowSlice x.slices < lowSlice g.slices)) ++ [g] ++
      a.filter (fun x => decide (lowSlice g.slices < lowSlice x.slices))) []
  let base := (sorted.head?).getD (Gang.start 0)
  let written := l.foldl (fun m g => m ||| g.written) 0
  let r := (List.range 96).foldl (fun (a : SMap Word × Bool) i =>
    let v := mergeValue (base.sget i) (sorted.map (fun g => (g.written.getLsbD i, g.sget i)))
    (zput 0 a.1 i v.1, a.2 || v.2)) ([], false)
  let q := (List.range 3).foldl (fun (a : BitVec 3 × Bool) i =>
    let v := mergeValue (base.q.getLsbD i) (sorted.map (fun g => (g.written.getLsbD (96 + i), g.q.getLsbD i)))
    (if v.1 then a.1 ||| (1#3 <<< i) else a.1, a.2 || v.2)) (0, r.2)
  ({ Gang.start (slicesOfGangs l) with s := r.1, q := q.1, written := if only then 0 else written, promoted := base.promoted },
    q.2)

/-- The warp after the arrivers of a REGANG have merged and gone on. -/
def Warp.regather (W : Warp) (l : List Gang) : Warp :=
  let m := slicesOfGangs l
  let rest := W.gangs.filter (fun g => g.slices &&& m == 0)
  let r := mergeGangs l rest.isEmpty
  let W1 := { W with gangs := rest ++ [r.1] }
  (W1.raise (flagIf r.2 fMC)).go m none (fun _ x => { x with pc := x.pc + 4 })

/-- Scalar results of some slices that have not landed (R57). -/
def State.scalarsOut (s : State) (w : Nat) (m : BitVec 8) : Bool :=
  s.inflight.any (fun e => decide (e.2.warp = w) && !(e.2.slices &&& m == 0) && (!e.2.scals.isEmpty || e.2.quni.isSome))

/-- REGANG (R18, R19). -/
def regangBody (mask : BitVec 8) (id : Nat) (c : Ctx) (s : State) : Res :=
  let waiting := match c.G.pend with
    | .regang _ _ => true
    | _ => false
  let clash := c.W.gangs.any (fun x => x.slices != c.G.slices && (match x.pend with
    | .regang i m => i == id && (m != mask || c.W.pcOf x != c.W.pcOf c.G)
    | _ => false))
  if waiting = false ∧ clash = true then .trap s (Trap.of 0x0E id)
  else
    let s1 := s.waitWith c (.regang id mask)
    match sget s1.warps c.w with
    | none => .wait s1
    | some W =>
      let l := W.arrivers c.G id
      if W.regangFull l mask then
        if s.scalarsOut c.w (slicesOfGangs l) then .wait s1
        else
          .jump (s1.modWarp c.w (fun W => W.regather l))
      else if W.allRegang ∧ W.someRegang = false then
        let low := lowSlice (slicesOfGangs W.gangs)
        let code := match (W.gangAt low).map (·.pend) with
          | some (.regang i _) => i
          | _ => id
        if low = c.j then .trap s (Trap.of 0x0F code)
        else .wait (s1.trap c.w low (Trap.of 0x0F code)).tick
      else .wait s1

/-- REGANG. -/
def execRegang (m : BitVec 8) (i : BitVec 12) (s : State) : Out := issue bareSig (regangBody m i.toNat) s

/-! ### Hints (R59 to R65) -/

/-- A hint issues: it joins its gang's group and the gang falls through. An illegal one traps at the group's first hint
(R64). What a captured gang had done of the target it waited at stays with it (R65, R264). -/
def hintAs (kind : Nat) (payload : Nat) (legal : Bool) (s : State) : Out :=
  match s.issuing with
  | none => .fault .noIssuingGang
  | some c =>
    if legal = false then .next (s.trapped c (Trap.of 1 0))
    else
      match bodyCheck c { Sig.plain with body := .free } with
      | some cause => .next (s.settle c (violation c s cause))
      | none =>
        let hints := c.G.hints ++ [{ kind := kind, payload := BitVec.ofNat 22 payload }]
        let s1 := s.modWarp c.w (fun W => W.modGang c.j (fun g =>
          { g with hints := hints, hinted := s.time, promoted := false, unchosen := 0, wait := none }))
        .next ((s1.advance c).count (ctxFn c.W.ctx) 1 1).tick

/-- HINT IMM. -/
def execHintImm (i : BitVec 22) (s : State) : Out := hintAs 0 i.toNat true s

/-- HINT GUARD: predicates 0 to 6. -/
def execHintGuard (n : BitVec 1) (p : BitVec 3) (s : State) : Out := hintAs 1 (8 * n.toNat + p.toNat) (p != 7) s

/-- HINT SRCX. -/
def execHintSrcx (c b a : BitVec 1) (s : State) : Out := hintAs 2 (4 * c.toNat + 2 * b.toNat + a.toNat) true s

/-- HINT CREG. -/
def execHintCreg (r : BitVec 7) (s : State) : Out := hintAs 3 r.toNat true s

/-- HINT TYPE: the codes of R60. -/
def execHintType (t : BitVec 5) (s : State) : Out := hintAs 4 t.toNat (t != 15 && decide (t.toNat < 20)) s

/-- HINT ROUND: modes 0 to 4. -/
def execHintRound (f t : BitVec 1) (m : BitVec 3) (s : State) : Out :=
  hintAs 5 (16 * f.toNat + 8 * t.toNat + m.toNat) (decide (m.toNat ≤ 4)) s

/-- HINT SCHED. -/
def execHintSched (y : BitVec 1) (st : BitVec 4) (s : State) : Out := hintAs 6 (16 * y.toNat + st.toNat) true s

/-- HINT CACHE: policies 0 to 4. -/
def execHintCache (p : BitVec 3) (s : State) : Out := hintAs 7 p.toNat (decide (p.toNat ≤ 4)) s

/-! ### The scheduler's own steps (R26, R30 to R32, R65, R129) -/

/-- Changes the gang of a warp that holds a slice, where a condition holds. -/
def State.gangIf (s : State) (w j : Nat) (p : Warp → Gang → Bool) (f : Gang → Gang) : State :=
  match sget s.warps w with
  | none => s
  | some W =>
    match W.gangAt j with
    | none => s
    | some g => if p W g then s.setWarp w (W.modGang j f) else s

/-- A gang ready and unchosen for 64 consecutive cycles is promoted (R26). -/
def promote (w g : Nat) (s : State) : State :=
  s.gangIf w g (fun _ g => decide (64 ≤ g.unchosen) && !g.promoted) (fun g => { g with promoted := true })

/-- PROMOTION. -/
def execPromotion (w g : Nat) (s : State) : Out := event (promote w g) s

/-- A SCHED stall is over (R65). -/
def stallOver (w g : Nat) (s : State) : State :=
  s.gangIf w g (fun _ g => match g.stall with
    | some t => decide (t ≤ s.time)
    | none => false) (fun g => { g with stall := none })

/-- SCHED_STALL_EXPIRY. -/
def execSchedStallExpiry (w g : Nat) (s : State) : Out := event (stallOver w g) s

/-- A SLEEP's deadline has passed (R129). -/
def sleepOver (w g : Nat) (s : State) : State :=
  s.gangIf w g (fun _ g => match g.sleep with
    | some t => decide (t ≤ s.time)
    | none => false) (fun g => { g with sleep := none })

/-- SLEEP_DEADLINE. -/
def execSleepDeadline (w g : Nat) (s : State) : Out := event (sleepOver w g) s

/-- BARRIER_WAIT_PARKING (R31): every unexited gang waits at a barrier, a REGANG or a team arrival, and one has waited at a
barrier or a team arrival for more than 4096 cycles. -/
def parkWaiting (w : Nat) (s : State) : State :=
  match sget s.warps w with
  | none => s
  | some W =>
    let waits := W.gangs.all (fun g => g.wait == some s.progress && (match g.pend with
      | .barrier _ _ => true
      | .again _ _ => true
      | .team _ => true
      | .regang _ _ => true
      | _ => false))
    let long := W.gangs.any (fun g => decide (g.since + 4096 < s.time) && (match g.pend with
      | .barrier _ _ => true
      | .again _ _ => true
      | .team _ => true
      | _ => false))
    if waits ∧ long ∧ W.gangs ≠ [] then s.park w false else s

/-- BARRIER_WAIT_PARKING. -/
def execBarrierWaitParking (w : Nat) (s : State) : Out := event (parkWaiting w) s

/-- UNPARK (R28, R32, R33). -/
def execUnpark (w : Nat) (s : State) : Out := event (unpark w) s

/-- REGISTER_BECOMES_FULL (R55). -/
def execRegisterBecomesFull (id : Nat) (s : State) : Out := event (landResult id) s

/-! ### The memory system's own steps (R43, R189, R195) -/

/-- A store may register next: no older store of its slices, nor a row of an older drain of theirs, goes to the same home
slice, and no older store of its core holds a byte of it (R182, R189, R195). -/
def State.mayRegister (s : State) (id : Nat) (r : Reg) : Bool :=
  s.regq.all (fun e => decide (id ≤ e.1) || e.2.core != r.core ||
    !((e.2.warp == r.warp && !(e.2.slices &&& r.slices == 0) && e.2.home == r.home) ||
      e.2.bytes.any (fun b => r.bytes.any (fun x => x.1 == b.1)))) &&
    !s.rowsBefore { core := r.core, w := r.warp, slices := r.slices } r.ctx r.home id

/-- REGISTRATION (R189, R195). -/
def registration (id : Nat) (s : State) : State :=
  match sget s.regq id with
  | none => s
  | some r => if s.mayRegister id r then s.register id else s

/-- REGISTRATION. -/
def execRegistration (id : Nat) (s : State) : Out := event (registration id) s

/-- CARVE_OUT_EVICTION: a 128-byte line leaves a core's carve-out; what the core owned of it is written back (R189). -/
def evict (core line : Nat) (s : State) : State :=
  let inLine (key : Nat) : Bool := key / 128 == line
  { s with
    carve := s.carve.filter (fun e => !(e.1 / 2 ^ 64 == core && inLine (e.1 % 2 ^ 64)))
    owners := s.owners.filter (fun e => !(e.2.1 == core && inLine e.1)) }

/-- CARVE_OUT_EVICTION. -/
def execCarveOutEviction (core line : Nat) (s : State) : Out := event (evict core line) s

/-- INSTRUCTION_CACHE_PARITY_ERROR (R43, R346): a re-fetch, invisible to the program, and a corrected error of the lifetime record. -/
def execInstructionCacheParityError (_ : Nat) (s : State) : Out := event (fun s => s.lifeAdd 3 1) s

end Sys2Proof.Machine
end

