-- ==== Sys2Proof/Machine/Alu.lean ====
section
/-! DEFINITION. What the data instructions share: operand forms, vector-major and scalar-major results, predicate results
(07_isa_scalar R101 to R104, R115). -/

namespace Sys2Proof.Machine

/-- The form of a data instruction's second operand: vector, scalar or immediate (R105). -/
inductive Src where
  /-- Vector register. -/
  | v (r : BitVec 7)
  /-- Scalar register. -/
  | s (r : BitVec 7)
  /-- Immediate. -/
  | i (x : BitVec 7)
deriving DecidableEq, Repr

/-- The register a form names, a group of `n`, which SRCX bit b marks. -/
def Src.opnds (n : Nat) : Src → List (Opnd × Option Nat)
  | .v r => [(.v r.toNat n, some 1)]
  | .s r => [(.s r.toNat n, some 1)]
  | .i _ => []

/-- IMM hints that suit the form (R59). -/
def Src.imms : Src → Nat
  | .i _ => 2
  | _ => 0

/-- Where an instruction of the form may stand in a capsule body (R253). -/
def Src.body : Src → BodyRule
  | .s _ => .no
  | _ => .vec

/-- The value of a form in a lane: 64 bits from a pair where wide, else 32 bits zero-extended; an immediate
sign-extended (R104). -/
def Src.value (c : Ctx) (s : State) (n lane : Nat) : Src → DWord
  | .v r => c.W.group r.toNat n lane
  | .s r => if n = 2 then c.sread2 s r.toNat else (c.sread s r.toNat).setWidth 64
  | .i x => BitVec.ofInt 64 (immInt x c.h.imms)

/-- Registers of an operand of a type: two where it is wide (R104). -/
def typeRegs (t : Nat) : Nat := if typeWide t then 2 else 1

/-- Bits of an operand of a type. -/
def typeBits (t : Nat) : Nat := if typeWide t then 64 else 32

/-- The types INT, ISET, USET and MOVI accept (R104). -/
def intTypes : List Nat := [0, 1, 2, 3]

/-- A vector result of `n` registers: the value and the flags of each active lane (R98, R101). -/
def putLanes (c : Ctx) (s : State) (d n : Nat) (f : Nat → DWord × Word) : State :=
  s.modWarp c.w (fun W =>
    let W1 := W.vputs c.act d (fun lane => loWord (f lane).1)
    let W2 := if n = 2 then W1.vputs c.act (d + 1) (fun lane => hiWord (f lane).1) else W1
    W2.raise ((lanesOf c.act).foldl (fun a lane => a ||| (f lane).2) 0))

/-- A vector-major instruction whose result is ready at once. -/
def vecDone (d n : Nat) (f : Ctx → State → Nat → DWord × Word) (c : Ctx) (s : State) : Res :=
  .done (putLanes c s d n (f c s))

/-- A long-latency vector-major instruction: its flags are set when its result is written (R54, R98). -/
def vecLong (d n : Nat) (f : Ctx → State → Nat → DWord × Word) (c : Ctx) (s : State) : Res :=
  let flags := (lanesOf c.act).foldl (fun a lane => a ||| (f c s lane).2) 0
  longVec c s d n flags .arith (fun i lane => if i = 0 then loWord (f c s lane).1 else hiWord (f c s lane).1)

/-- A value without flags. -/
def plain (x : DWord) : DWord × Word := (x, 0)

/-- A combine code applied (R115): 0 set, 1 and, 2 or, 3 xor. -/
def combinePred (code : Nat) (old t : Bool) : Bool :=
  match code with
  | 0 => t
  | 1 => old && t
  | 2 => old || t
  | _ => old != t

/-- The lanes where a condition holds. -/
def lanesWhere (f : Nat → Bool) : Word := maskOf ((List.range 32).filter f)

/-- A predicate result in the active lanes, combined with what the predicate held, with the flags of each (R115). -/
def predDone (p code : Nat) (f : Ctx → State → Nat → Bool × Word) (c : Ctx) (s : State) : Res :=
  .done (s.modWarp c.w (fun W =>
    let old := c.W.pmask p
    (W.pputs c.act p (lanesWhere (fun lane => combinePred code (old.getLsbD lane) (f c s lane).1))).raise
      ((lanesOf c.act).foldl (fun a lane => a ||| (f c s lane).2) 0)))

/-- A scalar-major result of `n` registers in the issuing gang's view (R102); s96 discards (R47). -/
def Warp.sgroup (W : Warp) (j d n : Nat) (x : DWord) : Warp :=
  if n = 2 then W.sput2 j d x else Warp.sput W j d (loWord x)

end Sys2Proof.Machine
end

