-- ==== Sys2Proof/Machine/Integer.lean ====
section
/-! DEFINITION. Integer, logic, bit-field, dot-product, comparison, move and immediate instructions (07_isa_scalar R104 to
R119; 05_numbers R77, R78, R84). -/

namespace Sys2Proof.Machine

/-! ### INT and UINT (R106) -/

/-- The result of INT fn 0 to 5 on operands of `w` bits (R106). -/
def intOp (fn : Nat) (signed : Bool) (w : Nat) (a b : DWord) : DWord :=
  let x := readInt signed w a.toNat
  let y := readInt signed w b.toNat
  BitVec.ofNat 64 (wrapInt w (match fn with
    | 0 => x + y
    | 1 => x - y
    | 2 => x * y
    | 3 => x * y / 2 ^ w
    | 4 => min x y
    | _ => max x y))

/-- iaddc (fn 6) and isubc (fn 7): the result and the carry or borrow out (R106). -/
def carryOp (fn : Nat) (a b : DWord) (cin : Bool) : Word × Bool :=
  let x := a.toNat % 2 ^ 32
  let y := b.toNat % 2 ^ 32
  let k := if cin then 1 else 0
  if fn = 6 then (BitVec.ofNat 32 (x + y + k), decide (2 ^ 32 ≤ x + y + k))
  else (BitVec.ofInt 32 ((x : Int) - y - k), decide (x < y + k))

/-- The types of an INT fn (R104). -/
def intFnTypes (fn : Nat) : List Nat := if 6 ≤ fn then [0, 1] else intTypes

/-- INT's signature. -/
def intSig (fn : Nat) (g : BitVec 2) (d a : BitVec 7) (b : Src) (h : HintSet) : Sig :=
  let n := typeRegs (h.typeOr 0)
  { Sig.plain with
    g := some g, guard := true, srcs := (.v a.toNat n, some 0) :: b.opnds n, dsts := [.v d.toNat n]
    types := intFnTypes fn, imms := b.imms, body := b.body }

/-- INT (R106): vector-major; the carry predicate is p6. -/
def intBody (fn : Nat) (d a : BitVec 7) (b : Src) (c : Ctx) (s : State) : Res :=
  let t := c.h.typeOr 0
  let n := typeRegs t
  let x (lane : Nat) : DWord := c.W.group a.toNat n lane
  let y (lane : Nat) : DWord := b.value c s n lane
  if fn < 6 then vecDone d.toNat n (fun _ _ lane => plain (intOp fn (typeSigned t) (typeBits t) (x lane) (y lane))) c s
  else
    let carry := c.W.pmask 6
    let r (lane : Nat) : Word × Bool := carryOp fn (x lane) (y lane) (carry.getLsbD lane)
    .done (s.modWarp c.w (fun W =>
      (W.vputs c.act d.toNat (fun lane => (r lane).1)).pputs c.act 6 (lanesWhere (fun lane => (r lane).2))))

/-- UINT's signature. -/
def uintSig (fn : Nat) (d a : BitVec 7) (b : Src) (h : HintSet) : Sig :=
  let n := typeRegs (h.typeOr 0)
  { Sig.plain with
    srcs := (.s a.toNat n, some 0) :: b.opnds n, dsts := [.s d.toNat n], types := intFnTypes fn, imms := b.imms }

/-- UINT (R102, R106): scalar-major; the carry predicate is q2. -/
def uintBody (fn : Nat) (d a : BitVec 7) (b : Src) (c : Ctx) (s : State) : Res :=
  let t := c.h.typeOr 0
  let n := typeRegs t
  let x := (Src.s a).value c s n 0
  let y := b.value c s n 0
  if fn < 6 then
    .done (s.modWarp c.w (fun W => W.sgroup c.j d.toNat n (intOp fn (typeSigned t) (typeBits t) x y)))
  else
    let r := carryOp fn x y (c.G.q.getLsbD 2)
    .done (s.modWarp c.w (fun W => (Warp.sput W c.j d.toNat r.1).qput c.j 2 r.2))

/-! ### LOG and ULOG (R107) -/

/-- The result of a LOG fn (R107). -/
def logOp (fn : Nat) (x y : Word) : Word :=
  let k := y.toNat % 32
  match fn with
  | 0 => x &&& y
  | 1 => x ||| y
  | 2 => x ^^^ y
  | 3 => x &&& ~~~y
  | 4 => x <<< k
  | 5 => x >>> k
  | 6 => x.sshiftRight k
  | _ => (x <<< k) ||| (x >>> ((32 - k) % 32))

/-- LOG's signature. -/
def logSig (g : BitVec 2) (d a : BitVec 7) (b : Src) (_ : HintSet) : Sig :=
  { Sig.plain with
    g := some g, guard := true, srcs := (.v a.toNat 1, some 0) :: b.opnds 1, dsts := [.v d.toNat 1], imms := b.imms
    body := b.body }

/-- LOG (R107). -/
def logBody (fn : Nat) (d a : BitVec 7) (b : Src) : Ctx → State → Res :=
  vecDone d.toNat 1 (fun c s lane => plain ((logOp fn (c.W.vget a.toNat lane) (loWord (b.value c s 1 lane))).setWidth 64))

/-- ULOG's signature. -/
def ulogSig (d a : BitVec 7) (b : Src) (_ : HintSet) : Sig :=
  { Sig.plain with srcs := (.s a.toNat 1, some 0) :: b.opnds 1, dsts := [.s d.toNat 1], imms := b.imms }

/-- ULOG (R102, R107). -/
def ulogBody (fn : Nat) (d a : BitVec 7) (b : Src) (c : Ctx) (s : State) : Res :=
  .done (s.modWarp c.w (fun W => Warp.sput W c.j d.toNat (logOp fn (c.sread s a.toNat) (loWord (b.value c s 1 0)))))

/-! ### IEXT (R108 to R111) -/

/-- idiv: the quotient truncated toward zero, with its cases (R108). -/
def idivOp (signed : Bool) (a b : Word) : Word × Word :=
  if b = 0 then (0xFFFFFFFF, fIZ)
  else (BitVec.ofInt 32 ((readInt signed 32 a.toNat).tdiv (readInt signed 32 b.toNat)), 0)

/-- irem: the remainder with the dividend's sign, with its cases (R108). -/
def iremOp (signed : Bool) (a b : Word) : Word × Word :=
  if b = 0 then (a, fIZ)
  else (BitVec.ofInt 32 ((readInt signed 32 a.toNat).tmod (readInt signed 32 b.toNat)), 0)

/-- iabsd (R109). -/
def iabsdOp (signed : Bool) (a b : Word) : Word :=
  BitVec.ofNat 32 (readInt signed 32 a.toNat - readInt signed 32 b.toNat).natAbs

/-- iaddsat and isubsat: computed exactly and clamped (R109). -/
def isatOp (sub signed : Bool) (a b : Word) : Word :=
  let x := readInt signed 32 a.toNat
  let y := readInt signed 32 b.toNat
  BitVec.ofInt 32 (clampInt (typeMin signed 32) (typeMax signed 32) (if sub then x - y else x + y))

/-- Bytes of a TYPE (R110). -/
def typeBytes (t : Nat) : Nat :=
  match t with
  | 2 | 3 | 14 => 8
  | 4 | 5 | 9 | 10 => 2
  | 6 | 7 | 11 | 12 => 1
  | _ => 4

/-- lea (R110): the index is zero-extended under the unsigned integer types, else sign-extended. -/
def leaOp (t : Nat) (a : DWord) (b : Word) : DWord :=
  let ix : DWord := if t < 8 ∧ t % 2 = 1 then b.setWidth 64 else b.signExtend 64
  a + ix * BitVec.ofNat 64 (typeBytes t)

/-- One byte of bperm (R111). -/
def bpermByte (a : Word) (n : Nat) : Nat :=
  let x := field a.toNat (8 * (n % 4)) 8
  if n.testBit 2 then 0 else if n.testBit 3 then (if 128 ≤ x then 255 else 0) else x

/-- bperm (R111). -/
def bpermOp (a b : Word) : Word :=
  BitVec.ofNat 32 ((List.range 4).foldl (fun r j => r + bpermByte a (field b.toNat (4 * j) 4) * 2 ^ (8 * j)) 0)

/-- IEXT's signature for fns with 32-bit operands. -/
def iextSig (types : List Nat) (creg : Bool) (g : BitVec 2) (d a : BitVec 7) (b : Src) (h : HintSet) : Sig :=
  { Sig.plain with
    g := some g, guard := true
    srcs := (.v a.toNat 1, some 0) :: b.opnds 1 ++ (if creg then [(.v (casReg h d.toNat) 1, some 2)] else [])
    dsts := [.v d.toNat 1], types := types, creg := creg, body := b.body }

/-- The 32-bit operands of an IEXT instruction in a lane. -/
def iextArgs (a : BitVec 7) (b : Src) (c : Ctx) (s : State) (lane : Nat) : Word × Word :=
  (c.W.vget a.toNat lane, loWord (b.value c s 1 lane))

/-- A word as a result without flags. -/
def wordOut (x : Word) : DWord × Word := (x.setWidth 64, 0)

/-- The type is signed. -/
def Ctx.signed (c : Ctx) : Bool := typeSigned (c.h.typeOr 0)

/-- idiv. -/
def idivBody (d a : BitVec 7) (b : Src) : Ctx → State → Res :=
  vecLong d.toNat 1 (fun c s lane => let x := iextArgs a b c s lane; let r := idivOp c.signed x.1 x.2; (r.1.setWidth 64, r.2))

/-- irem. -/
def iremBody (d a : BitVec 7) (b : Src) : Ctx → State → Res :=
  vecLong d.toNat 1 (fun c s lane => let x := iextArgs a b c s lane; let r := iremOp c.signed x.1 x.2; (r.1.setWidth 64, r.2))

/-- iabsd. -/
def iabsdBody (d a : BitVec 7) (b : Src) : Ctx → State → Res :=
  vecDone d.toNat 1 (fun c s lane => let x := iextArgs a b c s lane; wordOut (iabsdOp c.signed x.1 x.2))

/-- iaddsat and isubsat. -/
def isatBody (sub : Bool) (d a : BitVec 7) (b : Src) : Ctx → State → Res :=
  vecDone d.toNat 1 (fun c s lane => let x := iextArgs a b c s lane; wordOut (isatOp sub c.signed x.1 x.2))

/-- bperm. -/
def bpermBody (d a : BitVec 7) (b : Src) : Ctx → State → Res :=
  vecDone d.toNat 1 (fun c s lane => let x := iextArgs a b c s lane; wordOut (bpermOp x.1 x.2))

/-- imad (R111). -/
def imadBody (d a : BitVec 7) (b : Src) : Ctx → State → Res :=
  vecDone d.toNat 1 (fun c s lane =>
    let x := iextArgs a b c s lane
    wordOut (x.1 * x.2 + c.W.vget (casReg c.h d.toNat) lane))

/-- lea's signature (R110). -/
def leaSig (g : BitVec 2) (d a : BitVec 7) (b : Src) (_ : HintSet) : Sig :=
  { Sig.plain with
    g := some g, guard := true, srcs := (.v a.toNat 2, some 0) :: b.opnds 1, dsts := [.v d.toNat 2]
    types := List.range 13 ++ [14], body := b.body }

/-- lea. -/
def leaBody (d a : BitVec 7) (b : Src) : Ctx → State → Res :=
  vecDone d.toNat 2 (fun c s lane => plain (leaOp (c.h.typeOr 0) (c.W.vget2 a.toNat lane) (loWord (b.value c s 1 lane))))

/-! ### IUN (R84, R112) -/

/-- Leading zeros of a number of `w` bits. -/
def clzOp (w x : Nat) : Nat := w - bitLen x

/-- Trailing zeros of a number of `w` bits. -/
def ctzOp (w x : Nat) : Nat := ((List.range w).find? (fun i => x.testBit i)).getD w

/-- Set bits. -/
def popcOp (w x : Nat) : Nat := (onesBelow w x).length

/-- brev. -/
def brevOp (x : Word) : Word := (List.range 32).foldl (fun r i => if x.getLsbD i then r ||| bitW (31 - i) else r) 0

/-- Bits of an integer code of R80. -/
def icBits (code : Nat) : Nat :=
  match code with
  | 0 | 1 => 32
  | 2 | 3 => 64
  | 4 | 5 => 16
  | _ => 8

/-- icvt (R84): truncated, or clamped with SAT. -/
def icvtOp (src dst : Nat) (sat : Bool) (a : DWord) : DWord × Word :=
  let x := readInt (src % 2 == 0) (icBits src) a.toNat
  let n := icBits dst
  let y := clampInt (typeMin (dst % 2 == 0) n) (typeMax (dst % 2 == 0) n) x
  if sat then (BitVec.ofNat 64 (wrapInt n y), flagIf (x != y) fSAT) else (BitVec.ofNat 64 (wrapInt n x), 0)

/-- IUN's signature: registers of a and of d, and the types. -/
def iunSig (na nd : Nat) (types : List Nat) (g : BitVec 2) (d a : BitVec 7) : Sig :=
  { Sig.plain with
    g := some g, guard := true, srcs := [(.v a.toNat na, some 0)], dsts := [.v d.toNat nd], types := types, body := .vec }

/-- clz, ctz and popc: the type gives the width of a. -/
def countSig (g : BitVec 2) (d a : BitVec 7) (h : HintSet) : Sig := iunSig (typeRegs (h.typeOr 0)) 1 intTypes g d a

/-- A counting IUN. -/
def countBody (f : Nat → Nat → Nat) (d a : BitVec 7) : Ctx → State → Res :=
  vecDone d.toNat 1 (fun c _ lane =>
    let t := c.h.typeOr 0
    plain (BitVec.ofNat 64 (f (typeBits t) (c.W.group a.toNat (typeRegs t) lane).toNat)))

/-- A 32-bit IUN. -/
def unaryBody (f : Word → Word) (d a : BitVec 7) : Ctx → State → Res :=
  vecDone d.toNat 1 (fun c _ lane => wordOut (f (c.W.vget a.toNat lane)))

/-- Registers of an integer code. -/
def icRegs (code : Nat) : Nat := if code = 2 ∨ code = 3 then 2 else 1

/-- icvt. -/
def icvtBody (d a : BitVec 7) (src dst : Nat) (sat : Bool) : Ctx → State → Res :=
  vecDone d.toNat (icRegs dst) (fun c _ lane => icvtOp src dst sat (c.W.group a.toNat (icRegs src) lane))

/-! ### BITF (R113) -/

/-- Position and length of a field (R113). -/
def fieldSpec (b : Word) : Nat × Nat :=
  let pos := field b.toNat 0 8
  let len := min (field b.toNat 8 8) 32
  if 32 ≤ pos then (pos, 0) else (pos, min len (32 - pos))

/-- bfx and bfxn. -/
def bfxOp (signed : Bool) (a b : Word) : Word :=
  let (pos, len) := fieldSpec b
  if len = 0 then 0 else BitVec.ofInt 32 (readInt signed len (field a.toNat pos len))

/-- bfi. -/
def bfiOp (a b old : Word) : Word :=
  let (pos, len) := fieldSpec b
  let m : Word := BitVec.ofNat 32 ((2 ^ len - 1) * 2 ^ pos)
  if len = 0 then old else (old &&& ~~~m) ||| ((a <<< pos) &&& m)

/-- fshl and fshr: a is a pair (R113). -/
def funnelOp (right : Bool) (a : DWord) (b : Word) : Word :=
  let k := b.toNat % 32
  if right then loWord (a >>> k) else hiWord (a <<< k)

/-- BITF's signature: registers of a, and whether a CREG hint may supply c. Where it may and none does, c is d, and bit c of an SRCX
hint marks it as it does in R62's list, which leaves these instructions out (assumption 97). -/
def bitfSig (na : Nat) (creg : Bool) (g : BitVec 2) (d a b : BitVec 7) (h : HintSet) : Sig :=
  { Sig.plain with
    g := some g, guard := true
    srcs := [(.v a.toNat na, some 0), (.v b.toNat 1, some 1)] ++ (if creg then [(.v (casReg h d.toNat) 1, some 2)] else [])
    dsts := [.v d.toNat 1], creg := creg, body := .vec }

/-- bfx and bfxn. -/
def bfxBody (signed : Bool) (d a b : BitVec 7) : Ctx → State → Res :=
  vecDone d.toNat 1 (fun c _ lane => wordOut (bfxOp signed (c.W.vget a.toNat lane) (c.W.vget b.toNat lane)))

/-- bfi. -/
def bfiBody (d a b : BitVec 7) : Ctx → State → Res :=
  vecDone d.toNat 1 (fun c _ lane =>
    wordOut (bfiOp (c.W.vget a.toNat lane) (c.W.vget b.toNat lane) (c.W.vget (casReg c.h d.toNat) lane)))

/-- fshl and fshr. -/
def funnelBody (right : Bool) (d a b : BitVec 7) : Ctx → State → Res :=
  vecDone d.toNat 1 (fun c _ lane => wordOut (funnelOp right (c.W.vget2 a.toNat lane) (c.W.vget b.toNat lane)))

/-! ### IDOT (R114) -/

/-- The sum of products of packed elements of `n` bits (R114). -/
def dotSum (n : Nat) (sa sb : Bool) (a b : Word) : Int :=
  (List.range (32 / n)).foldl (fun (r : Int) j =>
    r + readInt sa n (field a.toNat (n * j) n) * readInt sb n (field b.toNat (n * j) n)) 0

/-- IDOT: element bits and signedness by fn. -/
def idotOp (fn : Nat) (a b : Word) : Int :=
  match fn with
  | 0 => dotSum 8 true true a b
  | 1 => dotSum 8 false false a b
  | 2 => dotSum 8 true false a b
  | _ => dotSum 16 true true a b

/-- IDOT's signature. -/
def idotSig (g : BitVec 2) (d a b : BitVec 7) (h : HintSet) : Sig := { bitfSig 1 true g d a b h with sat := true }

/-- IDOT (R114). -/
def idotBody (fn : Nat) (d a b : BitVec 7) : Ctx → State → Res :=
  vecDone d.toNat 1 (fun c _ lane =>
    let r := readInt true 32 (c.W.vget (casReg c.h d.toNat) lane).toNat +
      idotOp fn (c.W.vget a.toNat lane) (c.W.vget b.toNat lane)
    let sat := match c.h.round with
      | some (_, t, _) => t
      | none => false
    wordOut (BitVec.ofInt 32 (if sat then clampInt (typeMin true 32) (typeMax true 32) r else r)))

/-! ### ISET and USET (R115) -/

/-- The comparison of an ISET fn on operands of `w` bits (R115). -/
def compareOp (fn w : Nat) (a b : DWord) : Bool :=
  let xs := readInt true w a.toNat
  let ys := readInt true w b.toNat
  let xu := readInt false w a.toNat
  let yu := readInt false w b.toNat
  match fn with
  | 0 => decide (xu = yu)
  | 1 => decide (xu ≠ yu)
  | 2 => decide (xs < ys)
  | 3 => decide (ys ≤ xs)
  | 4 => decide (xu < yu)
  | 5 => decide (yu ≤ xu)
  | 6 => decide (xs ≤ ys)
  | _ => decide (ys < xs)

/-- ISET's signature: combine codes 4 to 15 are reserved (R48). -/
def isetSig (g : BitVec 2) (code : BitVec 4) (a : BitVec 7) (b : Src) (h : HintSet) : Sig :=
  let n := typeRegs (h.typeOr 0)
  { Sig.plain with
    g := some g, guard := true, srcs := (.v a.toNat n, some 0) :: b.opnds n, types := intTypes, imms := b.imms
    legal := decide (code.toNat < 4), body := b.body }

/-- ISET (R115). -/
def isetBody (fn : Nat) (code : BitVec 4) (p : BitVec 3) (a : BitVec 7) (b : Src) : Ctx → State → Res :=
  predDone p.toNat code.toNat (fun c s lane =>
    let t := c.h.typeOr 0
    (compareOp fn (typeBits t) (c.W.group a.toNat (typeRegs t) lane) (b.value c s (typeRegs t) lane), 0))

/-- USET's signature: it names q0 to q2 (R48). -/
def usetSig (code : BitVec 4) (p : BitVec 3) (a b : BitVec 7) (h : HintSet) : Sig :=
  let n := typeRegs (h.typeOr 0)
  { Sig.plain with
    srcs := [(.s a.toNat n, some 0), (.s b.toNat n, some 1)], types := intTypes
    legal := decide (code.toNat < 4) && decide (p.toNat < 3) }

/-- USET (R115). -/
def usetBody (fn : Nat) (code : BitVec 4) (p : BitVec 3) (a b : BitVec 7) (c : Ctx) (s : State) : Res :=
  let t := c.h.typeOr 0
  let n := typeRegs t
  let r := compareOp fn (typeBits t) ((Src.s a).value c s n 0) ((Src.s b).value c s n 0)
  .done (s.modWarp c.w (fun W => W.qput c.j p.toNat (combinePred code.toNat (c.G.q.getLsbD p.toNat) r)))

/-! ### MOVE (R116 to R118) -/

/-- A MOVE signature. -/
def moveSig (g : BitVec 2) (srcs : List (Opnd × Option Nat)) (dsts : List Opnd) (body : BodyRule) : Sig :=
  { Sig.plain with g := some g, guard := true, srcs := srcs, dsts := dsts, body := body }

/-- mov. -/
def execMov (g : BitVec 2) (d a : BitVec 7) (s : State) : Out :=
  issue (fun _ => moveSig g [(.v a.toNat 1, some 0)] [.v d.toNat 1] .vec)
    (vecDone d.toNat 1 (fun c _ lane => wordOut (c.W.vget a.toNat lane))) s

/-- sel: a CREG hint names the predicate, 0 to 7; p0 without one. -/
def execSel (g : BitVec 2) (d a b : BitVec 7) (s : State) : Out :=
  issue (fun h =>
    { moveSig g [(.v a.toNat 1, some 0), (.v b.toNat 1, some 1)] [.v d.toNat 1] .vec with
      creg := true, legal := decide (h.creg.getD 0 < 8) })
    (vecDone d.toNat 1 (fun c _ lane =>
      wordOut (if (c.W.pmask (c.h.creg.getD 0)).getLsbD lane then c.W.vget a.toNat lane else c.W.vget b.toNat lane))) s

/-- bcast. -/
def execBcast (g : BitVec 2) (d b : BitVec 7) (s : State) : Out :=
  issue (fun _ => moveSig g [(.s b.toNat 1, some 1)] [.v d.toNat 1] .no)
    (vecDone d.toNat 1 (fun c s _ => wordOut (c.sread s b.toNat))) s

/-- extract (R103, R118). -/
def extractBody (d a l : Nat) (c : Ctx) (s : State) : Res :=
  if c.act = 0 then .done s else .done (s.modWarp c.w (fun W => Warp.sput W c.j d (c.W.vget a l)))

/-- extract. -/
def execExtract (g : BitVec 2) (d a : BitVec 7) (l : BitVec 5) (s : State) : Out :=
  issue (fun _ => { moveSig g [(.v a.toNat 1, some 0)] [.s d.toNat 1] .no with extra := [(a.toNat, 1#8 <<< (l.toNat / 4))] })
    (extractBody d.toNat a.toNat l.toNat) s

/-- pmov from the predicates: bit i is predicate i, bit 7 reads 1 (R117). -/
def execPmovToVector (g : BitVec 2) (d : BitVec 7) (s : State) : Out :=
  issue (fun _ => moveSig g [] [.v d.toNat 1] .vec)
    (vecDone d.toNat 1 (fun c _ lane =>
      plain (BitVec.ofNat 64 ((List.range 8).foldl (fun r i => if (c.W.pmask i).getLsbD lane then r + 2 ^ i else r) 0)))) s

/-- pmov to the predicates p0 to p6 (R117). -/
def pmovBody (a : Nat) (c : Ctx) (s : State) : Res :=
  .done (s.modWarp c.w (fun W => (List.range 7).foldl (fun (W : Warp) i =>
    W.pputs c.act i (lanesWhere (fun lane => (c.W.vget a lane).getLsbD i))) W))

/-- pmov to the predicates. -/
def execPmovToPredicates (g : BitVec 2) (a : BitVec 7) (s : State) : Out :=
  issue (fun _ => moveSig g [(.v a.toNat 1, some 0)] [] .vec) (pmovBody a.toNat) s

/-- pset (R117). -/
def execPset (g : BitVec 2) (code : BitVec 4) (p : BitVec 3) (a : BitVec 7) (s : State) : Out :=
  issue (fun _ => { moveSig g [(.v a.toNat 1, some 0)] [] .vec with legal := decide (code.toNat < 4) })
    (predDone p.toNat code.toNat (fun c _ lane => (c.W.vget a.toNat lane != 0, 0))) s

/-- plop (R117): table bit 2 × P[a] + P[b]. -/
def execPlop (g : BitVec 2) (l : BitVec 4) (p a b : BitVec 3) (s : State) : Out :=
  issue (fun _ => moveSig g [] [] .vec)
    (predDone p.toNat 0 (fun c _ lane =>
      let x := if (c.W.pmask a.toNat).getLsbD lane then 2 else 0
      let y := if (c.W.pmask b.toNat).getLsbD lane then 1 else 0
      (l.getLsbD (x + y), 0))) s

/-- vote (R103, R118). -/
def voteBody (d a mode : Nat) (c : Ctx) (s : State) : Res :=
  if c.act = 0 then .done s
  else
    let m := c.act &&& c.W.pmask a
    let r : Word := match mode with
      | 0 => m
      | 1 => if m = c.act then 1 else 0
      | 2 => if m = 0 then 0 else 1
      | _ => BitVec.ofNat 32 (lanesOf m).length
    .done (s.modWarp c.w (fun W => Warp.sput W c.j d r))

/-- vote. -/
def execVote (g : BitVec 2) (d : BitVec 7) (a : BitVec 3) (m : BitVec 2) (s : State) : Out :=
  issue (fun _ => moveSig g [] [.s d.toNat 1] .no) (voteBody d.toNat a.toNat m.toNat) s

/-! ### MOVI (R119) -/

/-- The value MOVI writes (R119). -/
def moviValue (i : BitVec 16) (h : HintSet) : DWord :=
  if typeSigned (h.typeOr 0) then BitVec.ofInt 64 (immInt i h.imms) else BitVec.ofNat 64 (immNat i h.imms)

/-- MOVI with a vector destination. -/
def execMoviVector (g : BitVec 2) (d : BitVec 7) (i : BitVec 16) (s : State) : Out :=
  issue (fun h => { moveSig g [] [.v d.toNat (typeRegs (h.typeOr 0))] .vec with types := intTypes, imms := 2 })
    (fun c s => vecDone d.toNat (typeRegs (c.h.typeOr 0)) (fun c _ _ => plain (moviValue i c.h)) c s) s

/-- MOVI with a scalar destination. -/
def execMoviScalar (d : BitVec 7) (i : BitVec 16) (s : State) : Out :=
  issue (fun h => { Sig.plain with dsts := [.s d.toNat (typeRegs (h.typeOr 0))], types := intTypes, imms := 2 })
    (fun c s => .done (s.modWarp c.w (fun W => W.sgroup c.j d.toNat (typeRegs (c.h.typeOr 0)) (moviValue i c.h)))) s

/-! ### The instructions of each family -/

/-- iadd, vector form. -/
def execIaddV (g : BitVec 2) (d a b : BitVec 7) (s : State) : Out :=
  issue (intSig 0 g d a (.v b)) (intBody 0 d a (.v b)) s

/-- iadd, scalar form. -/
def execIaddS (g : BitVec 2) (d a b : BitVec 7) (s : State) : Out :=
  issue (intSig 0 g d a (.s b)) (intBody 0 d a (.s b)) s

/-- iadd, immediate form. -/
def execIaddI (g : BitVec 2) (d a i : BitVec 7) (s : State) : Out :=
  issue (intSig 0 g d a (.i i)) (intBody 0 d a (.i i)) s

/-- iadd, scalar-major. -/
def execIaddUint (d a b : BitVec 7) (s : State) : Out :=
  issue (uintSig 0 d a (.s b)) (uintBody 0 d a (.s b)) s

/-- iadd, scalar-major with an immediate. -/
def execIaddUintI (d a i : BitVec 7) (s : State) : Out :=
  issue (uintSig 0 d a (.i i)) (uintBody 0 d a (.i i)) s

/-- isub, vector form. -/
def execIsubV (g : BitVec 2) (d a b : BitVec 7) (s : State) : Out :=
  issue (intSig 1 g d a (.v b)) (intBody 1 d a (.v b)) s

/-- isub, scalar form. -/
def execIsubS (g : BitVec 2) (d a b : BitVec 7) (s : State) : Out :=
  issue (intSig 1 g d a (.s b)) (intBody 1 d a (.s b)) s

/-- isub, immediate form. -/
def execIsubI (g : BitVec 2) (d a i : BitVec 7) (s : State) : Out :=
  issue (intSig 1 g d a (.i i)) (intBody 1 d a (.i i)) s

/-- isub, scalar-major. -/
def execIsubUint (d a b : BitVec 7) (s : State) : Out :=
  issue (uintSig 1 d a (.s b)) (uintBody 1 d a (.s b)) s

/-- isub, scalar-major with an immediate. -/
def execIsubUintI (d a i : BitVec 7) (s : State) : Out :=
  issue (uintSig 1 d a (.i i)) (uintBody 1 d a (.i i)) s

/-- imul, vector form. -/
def execImulV (g : BitVec 2) (d a b : BitVec 7) (s : State) : Out :=
  issue (intSig 2 g d a (.v b)) (intBody 2 d a (.v b)) s

/-- imul, scalar form. -/
def execImulS (g : BitVec 2) (d a b : BitVec 7) (s : State) : Out :=
  issue (intSig 2 g d a (.s b)) (intBody 2 d a (.s b)) s

/-- imul, immediate form. -/
def execImulI (g : BitVec 2) (d a i : BitVec 7) (s : State) : Out :=
  issue (intSig 2 g d a (.i i)) (intBody 2 d a (.i i)) s

/-- imul, scalar-major. -/
def execImulUint (d a b : BitVec 7) (s : State) : Out :=
  issue (uintSig 2 d a (.s b)) (uintBody 2 d a (.s b)) s

/-- imul, scalar-major with an immediate. -/
def execImulUintI (d a i : BitVec 7) (s : State) : Out :=
  issue (uintSig 2 d a (.i i)) (uintBody 2 d a (.i i)) s

/-- imulh, vector form. -/
def execImulhV (g : BitVec 2) (d a b : BitVec 7) (s : State) : Out :=
  issue (intSig 3 g d a (.v b)) (intBody 3 d a (.v b)) s

/-- imulh, scalar form. -/
def execImulhS (g : BitVec 2) (d a b : BitVec 7) (s : State) : Out :=
  issue (intSig 3 g d a (.s b)) (intBody 3 d a (.s b)) s

/-- imulh, immediate form. -/
def execImulhI (g : BitVec 2) (d a i : BitVec 7) (s : State) : Out :=
  issue (intSig 3 g d a (.i i)) (intBody 3 d a (.i i)) s

/-- imulh, scalar-major. -/
def execImulhUint (d a b : BitVec 7) (s : State) : Out :=
  issue (uintSig 3 d a (.s b)) (uintBody 3 d a (.s b)) s

/-- imulh, scalar-major with an immediate. -/
def execImulhUintI (d a i : BitVec 7) (s : State) : Out :=
  issue (uintSig 3 d a (.i i)) (uintBody 3 d a (.i i)) s

/-- imin, vector form. -/
def execIminV (g : BitVec 2) (d a b : BitVec 7) (s : State) : Out :=
  issue (intSig 4 g d a (.v b)) (intBody 4 d a (.v b)) s

/-- imin, scalar form. -/
def execIminS (g : BitVec 2) (d a b : BitVec 7) (s : State) : Out :=
  issue (intSig 4 g d a (.s b)) (intBody 4 d a (.s b)) s

/-- imin, immediate form. -/
def execIminI (g : BitVec 2) (d a i : BitVec 7) (s : State) : Out :=
  issue (intSig 4 g d a (.i i)) (intBody 4 d a (.i i)) s

/-- imin, scalar-major. -/
def execIminUint (d a b : BitVec 7) (s : State) : Out :=
  issue (uintSig 4 d a (.s b)) (uintBody 4 d a (.s b)) s

/-- imin, scalar-major with an immediate. -/
def execIminUintI (d a i : BitVec 7) (s : State) : Out :=
  issue (uintSig 4 d a (.i i)) (uintBody 4 d a (.i i)) s

/-- imax, vector form. -/
def execImaxV (g : BitVec 2) (d a b : BitVec 7) (s : State) : Out :=
  issue (intSig 5 g d a (.v b)) (intBody 5 d a (.v b)) s

/-- imax, scalar form. -/
def execImaxS (g : BitVec 2) (d a b : BitVec 7) (s : State) : Out :=
  issue (intSig 5 g d a (.s b)) (intBody 5 d a (.s b)) s

/-- imax, immediate form. -/
def execImaxI (g : BitVec 2) (d a i : BitVec 7) (s : State) : Out :=
  issue (intSig 5 g d a (.i i)) (intBody 5 d a (.i i)) s

/-- imax, scalar-major. -/
def execImaxUint (d a b : BitVec 7) (s : State) : Out :=
  issue (uintSig 5 d a (.s b)) (uintBody 5 d a (.s b)) s

/-- imax, scalar-major with an immediate. -/
def execImaxUintI (d a i : BitVec 7) (s : State) : Out :=
  issue (uintSig 5 d a (.i i)) (uintBody 5 d a (.i i)) s

/-- iaddc, vector form. -/
def execIaddcV (g : BitVec 2) (d a b : BitVec 7) (s : State) : Out :=
  issue (intSig 6 g d a (.v b)) (intBody 6 d a (.v b)) s

/-- iaddc, scalar form. -/
def execIaddcS (g : BitVec 2) (d a b : BitVec 7) (s : State) : Out :=
  issue (intSig 6 g d a (.s b)) (intBody 6 d a (.s b)) s

/-- iaddc, immediate form. -/
def execIaddcI (g : BitVec 2) (d a i : BitVec 7) (s : State) : Out :=
  issue (intSig 6 g d a (.i i)) (intBody 6 d a (.i i)) s

/-- iaddc, scalar-major. -/
def execIaddcUint (d a b : BitVec 7) (s : State) : Out :=
  issue (uintSig 6 d a (.s b)) (uintBody 6 d a (.s b)) s

/-- iaddc, scalar-major with an immediate. -/
def execIaddcUintI (d a i : BitVec 7) (s : State) : Out :=
  issue (uintSig 6 d a (.i i)) (uintBody 6 d a (.i i)) s

/-- isubc, vector form. -/
def execIsubcV (g : BitVec 2) (d a b : BitVec 7) (s : State) : Out :=
  issue (intSig 7 g d a (.v b)) (intBody 7 d a (.v b)) s

/-- isubc, scalar form. -/
def execIsubcS (g : BitVec 2) (d a b : BitVec 7) (s : State) : Out :=
  issue (intSig 7 g d a (.s b)) (intBody 7 d a (.s b)) s

/-- isubc, immediate form. -/
def execIsubcI (g : BitVec 2) (d a i : BitVec 7) (s : State) : Out :=
  issue (intSig 7 g d a (.i i)) (intBody 7 d a (.i i)) s

/-- isubc, scalar-major. -/
def execIsubcUint (d a b : BitVec 7) (s : State) : Out :=
  issue (uintSig 7 d a (.s b)) (uintBody 7 d a (.s b)) s

/-- isubc, scalar-major with an immediate. -/
def execIsubcUintI (d a i : BitVec 7) (s : State) : Out :=
  issue (uintSig 7 d a (.i i)) (uintBody 7 d a (.i i)) s

/-- and, vector form. -/
def execAndV (g : BitVec 2) (d a b : BitVec 7) (s : State) : Out :=
  issue (logSig g d a (.v b)) (logBody 0 d a (.v b)) s

/-- and, scalar form. -/
def execAndS (g : BitVec 2) (d a b : BitVec 7) (s : State) : Out :=
  issue (logSig g d a (.s b)) (logBody 0 d a (.s b)) s

/-- and, immediate form. -/
def execAndI (g : BitVec 2) (d a i : BitVec 7) (s : State) : Out :=
  issue (logSig g d a (.i i)) (logBody 0 d a (.i i)) s

/-- and, scalar-major. -/
def execAndUlog (d a b : BitVec 7) (s : State) : Out :=
  issue (ulogSig d a (.s b)) (ulogBody 0 d a (.s b)) s

/-- and, scalar-major with an immediate. -/
def execAndUlogI (d a i : BitVec 7) (s : State) : Out :=
  issue (ulogSig d a (.i i)) (ulogBody 0 d a (.i i)) s

/-- or, vector form. -/
def execOrV (g : BitVec 2) (d a b : BitVec 7) (s : State) : Out :=
  issue (logSig g d a (.v b)) (logBody 1 d a (.v b)) s

/-- or, scalar form. -/
def execOrS (g : BitVec 2) (d a b : BitVec 7) (s : State) : Out :=
  issue (logSig g d a (.s b)) (logBody 1 d a (.s b)) s

/-- or, immediate form. -/
def execOrI (g : BitVec 2) (d a i : BitVec 7) (s : State) : Out :=
  issue (logSig g d a (.i i)) (logBody 1 d a (.i i)) s

/-- or, scalar-major. -/
def execOrUlog (d a b : BitVec 7) (s : State) : Out :=
  issue (ulogSig d a (.s b)) (ulogBody 1 d a (.s b)) s

/-- or, scalar-major with an immediate. -/
def execOrUlogI (d a i : BitVec 7) (s : State) : Out :=
  issue (ulogSig d a (.i i)) (ulogBody 1 d a (.i i)) s

/-- xor, vector form. -/
def execXorV (g : BitVec 2) (d a b : BitVec 7) (s : State) : Out :=
  issue (logSig g d a (.v b)) (logBody 2 d a (.v b)) s

/-- xor, scalar form. -/
def execXorS (g : BitVec 2) (d a b : BitVec 7) (s : State) : Out :=
  issue (logSig g d a (.s b)) (logBody 2 d a (.s b)) s

/-- xor, immediate form. -/
def execXorI (g : BitVec 2) (d a i : BitVec 7) (s : State) : Out :=
  issue (logSig g d a (.i i)) (logBody 2 d a (.i i)) s

/-- xor, scalar-major. -/
def execXorUlog (d a b : BitVec 7) (s : State) : Out :=
  issue (ulogSig d a (.s b)) (ulogBody 2 d a (.s b)) s

/-- xor, scalar-major with an immediate. -/
def execXorUlogI (d a i : BitVec 7) (s : State) : Out :=
  issue (ulogSig d a (.i i)) (ulogBody 2 d a (.i i)) s

/-- andn, vector form. -/
def execAndnV (g : BitVec 2) (d a b : BitVec 7) (s : State) : Out :=
  issue (logSig g d a (.v b)) (logBody 3 d a (.v b)) s

/-- andn, scalar form. -/
def execAndnS (g : BitVec 2) (d a b : BitVec 7) (s : State) : Out :=
  issue (logSig g d a (.s b)) (logBody 3 d a (.s b)) s

/-- andn, immediate form. -/
def execAndnI (g : BitVec 2) (d a i : BitVec 7) (s : State) : Out :=
  issue (logSig g d a (.i i)) (logBody 3 d a (.i i)) s

/-- andn, scalar-major. -/
def execAndnUlog (d a b : BitVec 7) (s : State) : Out :=
  issue (ulogSig d a (.s b)) (ulogBody 3 d a (.s b)) s

/-- andn, scalar-major with an immediate. -/
def execAndnUlogI (d a i : BitVec 7) (s : State) : Out :=
  issue (ulogSig d a (.i i)) (ulogBody 3 d a (.i i)) s

/-- shl, vector form. -/
def execShlV (g : BitVec 2) (d a b : BitVec 7) (s : State) : Out :=
  issue (logSig g d a (.v b)) (logBody 4 d a (.v b)) s

/-- shl, scalar form. -/
def execShlS (g : BitVec 2) (d a b : BitVec 7) (s : State) : Out :=
  issue (logSig g d a (.s b)) (logBody 4 d a (.s b)) s

/-- shl, immediate form. -/
def execShlI (g : BitVec 2) (d a i : BitVec 7) (s : State) : Out :=
  issue (logSig g d a (.i i)) (logBody 4 d a (.i i)) s

/-- shl, scalar-major. -/
def execShlUlog (d a b : BitVec 7) (s : State) : Out :=
  issue (ulogSig d a (.s b)) (ulogBody 4 d a (.s b)) s

/-- shl, scalar-major with an immediate. -/
def execShlUlogI (d a i : BitVec 7) (s : State) : Out :=
  issue (ulogSig d a (.i i)) (ulogBody 4 d a (.i i)) s

/-- shr, vector form. -/
def execShrV (g : BitVec 2) (d a b : BitVec 7) (s : State) : Out :=
  issue (logSig g d a (.v b)) (logBody 5 d a (.v b)) s

/-- shr, scalar form. -/
def execShrS (g : BitVec 2) (d a b : BitVec 7) (s : State) : Out :=
  issue (logSig g d a (.s b)) (logBody 5 d a (.s b)) s

/-- shr, immediate form. -/
def execShrI (g : BitVec 2) (d a i : BitVec 7) (s : State) : Out :=
  issue (logSig g d a (.i i)) (logBody 5 d a (.i i)) s

/-- shr, scalar-major. -/
def execShrUlog (d a b : BitVec 7) (s : State) : Out :=
  issue (ulogSig d a (.s b)) (ulogBody 5 d a (.s b)) s

/-- shr, scalar-major with an immediate. -/
def execShrUlogI (d a i : BitVec 7) (s : State) : Out :=
  issue (ulogSig d a (.i i)) (ulogBody 5 d a (.i i)) s

/-- sar, vector form. -/
def execSarV (g : BitVec 2) (d a b : BitVec 7) (s : State) : Out :=
  issue (logSig g d a (.v b)) (logBody 6 d a (.v b)) s

/-- sar, scalar form. -/
def execSarS (g : BitVec 2) (d a b : BitVec 7) (s : State) : Out :=
  issue (logSig g d a (.s b)) (logBody 6 d a (.s b)) s

/-- sar, immediate form. -/
def execSarI (g : BitVec 2) (d a i : BitVec 7) (s : State) : Out :=
  issue (logSig g d a (.i i)) (logBody 6 d a (.i i)) s

/-- sar, scalar-major. -/
def execSarUlog (d a b : BitVec 7) (s : State) : Out :=
  issue (ulogSig d a (.s b)) (ulogBody 6 d a (.s b)) s

/-- sar, scalar-major with an immediate. -/
def execSarUlogI (d a i : BitVec 7) (s : State) : Out :=
  issue (ulogSig d a (.i i)) (ulogBody 6 d a (.i i)) s

/-- rotl, vector form. -/
def execRotlV (g : BitVec 2) (d a b : BitVec 7) (s : State) : Out :=
  issue (logSig g d a (.v b)) (logBody 7 d a (.v b)) s

/-- rotl, scalar form. -/
def execRotlS (g : BitVec 2) (d a b : BitVec 7) (s : State) : Out :=
  issue (logSig g d a (.s b)) (logBody 7 d a (.s b)) s

/-- rotl, immediate form. -/
def execRotlI (g : BitVec 2) (d a i : BitVec 7) (s : State) : Out :=
  issue (logSig g d a (.i i)) (logBody 7 d a (.i i)) s

/-- rotl, scalar-major. -/
def execRotlUlog (d a b : BitVec 7) (s : State) : Out :=
  issue (ulogSig d a (.s b)) (ulogBody 7 d a (.s b)) s

/-- rotl, scalar-major with an immediate. -/
def execRotlUlogI (d a i : BitVec 7) (s : State) : Out :=
  issue (ulogSig d a (.i i)) (ulogBody 7 d a (.i i)) s

/-- idiv, vector form. -/
def execIdivV (g : BitVec 2) (d a b : BitVec 7) (s : State) : Out :=
  issue (iextSig [0, 1] false g d a (.v b)) (idivBody d a (.v b)) s

/-- idiv, scalar form. -/
def execIdivS (g : BitVec 2) (d a b : BitVec 7) (s : State) : Out :=
  issue (iextSig [0, 1] false g d a (.s b)) (idivBody d a (.s b)) s

/-- irem, vector form. -/
def execIremV (g : BitVec 2) (d a b : BitVec 7) (s : State) : Out :=
  issue (iextSig [0, 1] false g d a (.v b)) (iremBody d a (.v b)) s

/-- irem, scalar form. -/
def execIremS (g : BitVec 2) (d a b : BitVec 7) (s : State) : Out :=
  issue (iextSig [0, 1] false g d a (.s b)) (iremBody d a (.s b)) s

/-- iabsd, vector form. -/
def execIabsdV (g : BitVec 2) (d a b : BitVec 7) (s : State) : Out :=
  issue (iextSig [0, 1] false g d a (.v b)) (iabsdBody d a (.v b)) s

/-- iabsd, scalar form. -/
def execIabsdS (g : BitVec 2) (d a b : BitVec 7) (s : State) : Out :=
  issue (iextSig [0, 1] false g d a (.s b)) (iabsdBody d a (.s b)) s

/-- iaddsat, vector form. -/
def execIaddsatV (g : BitVec 2) (d a b : BitVec 7) (s : State) : Out :=
  issue (iextSig [0, 1] false g d a (.v b)) (isatBody false d a (.v b)) s

/-- iaddsat, scalar form. -/
def execIaddsatS (g : BitVec 2) (d a b : BitVec 7) (s : State) : Out :=
  issue (iextSig [0, 1] false g d a (.s b)) (isatBody false d a (.s b)) s

/-- isubsat, vector form. -/
def execIsubsatV (g : BitVec 2) (d a b : BitVec 7) (s : State) : Out :=
  issue (iextSig [0, 1] false g d a (.v b)) (isatBody true d a (.v b)) s

/-- isubsat, scalar form. -/
def execIsubsatS (g : BitVec 2) (d a b : BitVec 7) (s : State) : Out :=
  issue (iextSig [0, 1] false g d a (.s b)) (isatBody true d a (.s b)) s

/-- bperm, vector form. -/
def execBpermV (g : BitVec 2) (d a b : BitVec 7) (s : State) : Out :=
  issue (iextSig [] false g d a (.v b)) (bpermBody d a (.v b)) s

/-- bperm, scalar form. -/
def execBpermS (g : BitVec 2) (d a b : BitVec 7) (s : State) : Out :=
  issue (iextSig [] false g d a (.s b)) (bpermBody d a (.s b)) s

/-- imad, vector form. -/
def execImadV (g : BitVec 2) (d a b : BitVec 7) (s : State) : Out :=
  issue (iextSig [] true g d a (.v b)) (imadBody d a (.v b)) s

/-- imad, scalar form. -/
def execImadS (g : BitVec 2) (d a b : BitVec 7) (s : State) : Out :=
  issue (iextSig [] true g d a (.s b)) (imadBody d a (.s b)) s

/-- lea, vector form. -/
def execLeaV (g : BitVec 2) (d a b : BitVec 7) (s : State) : Out :=
  issue (leaSig g d a (.v b)) (leaBody d a (.v b)) s

/-- lea, scalar form. -/
def execLeaS (g : BitVec 2) (d a b : BitVec 7) (s : State) : Out :=
  issue (leaSig g d a (.s b)) (leaBody d a (.s b)) s

/-- clz. -/
def execClz (g : BitVec 2) (d a : BitVec 7) (s : State) : Out :=
  issue (countSig g d a) (countBody clzOp d a) s

/-- ctz. -/
def execCtz (g : BitVec 2) (d a : BitVec 7) (s : State) : Out :=
  issue (countSig g d a) (countBody ctzOp d a) s

/-- popc. -/
def execPopc (g : BitVec 2) (d a : BitVec 7) (s : State) : Out :=
  issue (countSig g d a) (countBody popcOp d a) s

/-- brev. -/
def execBrev (g : BitVec 2) (d a : BitVec 7) (s : State) : Out :=
  issue (fun _ => iunSig 1 1 [] g d a) (unaryBody brevOp d a) s

/-- iabs. -/
def execIabs (g : BitVec 2) (d a : BitVec 7) (s : State) : Out :=
  issue (fun _ => iunSig 1 1 [] g d a) (unaryBody (fun x => if x.getLsbD 31 then -x else x) d a) s

/-- ineg. -/
def execIneg (g : BitVec 2) (d a : BitVec 7) (s : State) : Out :=
  issue (fun _ => iunSig 1 1 [] g d a) (unaryBody (fun x => -x) d a) s

/-- notV. -/
def execNotV (g : BitVec 2) (d a : BitVec 7) (s : State) : Out :=
  issue (fun _ => iunSig 1 1 [] g d a) (unaryBody (fun x => ~~~x) d a) s

/-- icvt (R84, R112). -/
def execIcvt (g : BitVec 2) (d a : BitVec 7) (src dst : BitVec 3) (t : BitVec 1) (s : State) : Out :=
  issue (fun _ => iunSig (icRegs src.toNat) (icRegs dst.toNat) [] g d a) (icvtBody d a src.toNat dst.toNat (t == 1)) s

/-- bfx. -/
def execBfx (g : BitVec 2) (d a b : BitVec 7) (s : State) : Out :=
  issue (bitfSig 1 false g d a b) (bfxBody true d a b) s

/-- bfxn. -/
def execBfxn (g : BitVec 2) (d a b : BitVec 7) (s : State) : Out :=
  issue (bitfSig 1 false g d a b) (bfxBody false d a b) s

/-- bfi. -/
def execBfi (g : BitVec 2) (d a b : BitVec 7) (s : State) : Out :=
  issue (bitfSig 1 true g d a b) (bfiBody d a b) s

/-- fshl. -/
def execFshl (g : BitVec 2) (d a b : BitVec 7) (s : State) : Out :=
  issue (bitfSig 2 false g d a b) (funnelBody false d a b) s

/-- fshr. -/
def execFshr (g : BitVec 2) (d a b : BitVec 7) (s : State) : Out :=
  issue (bitfSig 2 false g d a b) (funnelBody true d a b) s

/-- idot4. -/
def execIdot4 (g : BitVec 2) (d a b : BitVec 7) (s : State) : Out :=
  issue (idotSig g d a b) (idotBody 0 d a b) s

/-- idot4n. -/
def execIdot4n (g : BitVec 2) (d a b : BitVec 7) (s : State) : Out :=
  issue (idotSig g d a b) (idotBody 1 d a b) s

/-- idot4m. -/
def execIdot4m (g : BitVec 2) (d a b : BitVec 7) (s : State) : Out :=
  issue (idotSig g d a b) (idotBody 2 d a b) s

/-- idot2. -/
def execIdot2 (g : BitVec 2) (d a b : BitVec 7) (s : State) : Out :=
  issue (idotSig g d a b) (idotBody 3 d a b) s

/-- iset.eq, vector form. -/
def execIsetEqV (g : BitVec 2) (code : BitVec 4) (p : BitVec 3) (a b : BitVec 7) (s : State) : Out :=
  issue (isetSig g code a (.v b)) (isetBody 0 code p a (.v b)) s

/-- iset.eq, scalar form. -/
def execIsetEqS (g : BitVec 2) (code : BitVec 4) (p : BitVec 3) (a b : BitVec 7) (s : State) : Out :=
  issue (isetSig g code a (.s b)) (isetBody 0 code p a (.s b)) s

/-- iset.eq, immediate form. -/
def execIsetEqI (g : BitVec 2) (code : BitVec 4) (p : BitVec 3) (a i : BitVec 7) (s : State) : Out :=
  issue (isetSig g code a (.i i)) (isetBody 0 code p a (.i i)) s

/-- uset.eq. -/
def execUsetEq (code : BitVec 4) (p : BitVec 3) (a b : BitVec 7) (s : State) : Out :=
  issue (usetSig code p a b) (usetBody 0 code p a b) s

/-- iset.ne, vector form. -/
def execIsetNeV (g : BitVec 2) (code : BitVec 4) (p : BitVec 3) (a b : BitVec 7) (s : State) : Out :=
  issue (isetSig g code a (.v b)) (isetBody 1 code p a (.v b)) s

/-- iset.ne, scalar form. -/
def execIsetNeS (g : BitVec 2) (code : BitVec 4) (p : BitVec 3) (a b : BitVec 7) (s : State) : Out :=
  issue (isetSig g code a (.s b)) (isetBody 1 code p a (.s b)) s

/-- iset.ne, immediate form. -/
def execIsetNeI (g : BitVec 2) (code : BitVec 4) (p : BitVec 3) (a i : BitVec 7) (s : State) : Out :=
  issue (isetSig g code a (.i i)) (isetBody 1 code p a (.i i)) s

/-- uset.ne. -/
def execUsetNe (code : BitVec 4) (p : BitVec 3) (a b : BitVec 7) (s : State) : Out :=
  issue (usetSig code p a b) (usetBody 1 code p a b) s

/-- iset.lt, vector form. -/
def execIsetLtV (g : BitVec 2) (code : BitVec 4) (p : BitVec 3) (a b : BitVec 7) (s : State) : Out :=
  issue (isetSig g code a (.v b)) (isetBody 2 code p a (.v b)) s

/-- iset.lt, scalar form. -/
def execIsetLtS (g : BitVec 2) (code : BitVec 4) (p : BitVec 3) (a b : BitVec 7) (s : State) : Out :=
  issue (isetSig g code a (.s b)) (isetBody 2 code p a (.s b)) s

/-- iset.lt, immediate form. -/
def execIsetLtI (g : BitVec 2) (code : BitVec 4) (p : BitVec 3) (a i : BitVec 7) (s : State) : Out :=
  issue (isetSig g code a (.i i)) (isetBody 2 code p a (.i i)) s

/-- uset.lt. -/
def execUsetLt (code : BitVec 4) (p : BitVec 3) (a b : BitVec 7) (s : State) : Out :=
  issue (usetSig code p a b) (usetBody 2 code p a b) s

/-- iset.ge, vector form. -/
def execIsetGeV (g : BitVec 2) (code : BitVec 4) (p : BitVec 3) (a b : BitVec 7) (s : State) : Out :=
  issue (isetSig g code a (.v b)) (isetBody 3 code p a (.v b)) s

/-- iset.ge, scalar form. -/
def execIsetGeS (g : BitVec 2) (code : BitVec 4) (p : BitVec 3) (a b : BitVec 7) (s : State) : Out :=
  issue (isetSig g code a (.s b)) (isetBody 3 code p a (.s b)) s

/-- iset.ge, immediate form. -/
def execIsetGeI (g : BitVec 2) (code : BitVec 4) (p : BitVec 3) (a i : BitVec 7) (s : State) : Out :=
  issue (isetSig g code a (.i i)) (isetBody 3 code p a (.i i)) s

/-- uset.ge. -/
def execUsetGe (code : BitVec 4) (p : BitVec 3) (a b : BitVec 7) (s : State) : Out :=
  issue (usetSig code p a b) (usetBody 3 code p a b) s

/-- iset.ltn, vector form. -/
def execIsetLtnV (g : BitVec 2) (code : BitVec 4) (p : BitVec 3) (a b : BitVec 7) (s : State) : Out :=
  issue (isetSig g code a (.v b)) (isetBody 4 code p a (.v b)) s

/-- iset.ltn, scalar form. -/
def execIsetLtnS (g : BitVec 2) (code : BitVec 4) (p : BitVec 3) (a b : BitVec 7) (s : State) : Out :=
  issue (isetSig g code a (.s b)) (isetBody 4 code p a (.s b)) s

/-- iset.ltn, immediate form. -/
def execIsetLtnI (g : BitVec 2) (code : BitVec 4) (p : BitVec 3) (a i : BitVec 7) (s : State) : Out :=
  issue (isetSig g code a (.i i)) (isetBody 4 code p a (.i i)) s

/-- uset.ltn. -/
def execUsetLtn (code : BitVec 4) (p : BitVec 3) (a b : BitVec 7) (s : State) : Out :=
  issue (usetSig code p a b) (usetBody 4 code p a b) s

/-- iset.gen, vector form. -/
def execIsetGenV (g : BitVec 2) (code : BitVec 4) (p : BitVec 3) (a b : BitVec 7) (s : State) : Out :=
  issue (isetSig g code a (.v b)) (isetBody 5 code p a (.v b)) s

/-- iset.gen, scalar form. -/
def execIsetGenS (g : BitVec 2) (code : BitVec 4) (p : BitVec 3) (a b : BitVec 7) (s : State) : Out :=
  issue (isetSig g code a (.s b)) (isetBody 5 code p a (.s b)) s

/-- iset.gen, immediate form. -/
def execIsetGenI (g : BitVec 2) (code : BitVec 4) (p : BitVec 3) (a i : BitVec 7) (s : State) : Out :=
  issue (isetSig g code a (.i i)) (isetBody 5 code p a (.i i)) s

/-- uset.gen. -/
def execUsetGen (code : BitVec 4) (p : BitVec 3) (a b : BitVec 7) (s : State) : Out :=
  issue (usetSig code p a b) (usetBody 5 code p a b) s

/-- iset.le, vector form. -/
def execIsetLeV (g : BitVec 2) (code : BitVec 4) (p : BitVec 3) (a b : BitVec 7) (s : State) : Out :=
  issue (isetSig g code a (.v b)) (isetBody 6 code p a (.v b)) s

/-- iset.le, scalar form. -/
def execIsetLeS (g : BitVec 2) (code : BitVec 4) (p : BitVec 3) (a b : BitVec 7) (s : State) : Out :=
  issue (isetSig g code a (.s b)) (isetBody 6 code p a (.s b)) s

/-- iset.le, immediate form. -/
def execIsetLeI (g : BitVec 2) (code : BitVec 4) (p : BitVec 3) (a i : BitVec 7) (s : State) : Out :=
  issue (isetSig g code a (.i i)) (isetBody 6 code p a (.i i)) s

/-- uset.le. -/
def execUsetLe (code : BitVec 4) (p : BitVec 3) (a b : BitVec 7) (s : State) : Out :=
  issue (usetSig code p a b) (usetBody 6 code p a b) s

/-- iset.gt, vector form. -/
def execIsetGtV (g : BitVec 2) (code : BitVec 4) (p : BitVec 3) (a b : BitVec 7) (s : State) : Out :=
  issue (isetSig g code a (.v b)) (isetBody 7 code p a (.v b)) s

/-- iset.gt, scalar form. -/
def execIsetGtS (g : BitVec 2) (code : BitVec 4) (p : BitVec 3) (a b : BitVec 7) (s : State) : Out :=
  issue (isetSig g code a (.s b)) (isetBody 7 code p a (.s b)) s

/-- iset.gt, immediate form. -/
def execIsetGtI (g : BitVec 2) (code : BitVec 4) (p : BitVec 3) (a i : BitVec 7) (s : State) : Out :=
  issue (isetSig g code a (.i i)) (isetBody 7 code p a (.i i)) s

/-- uset.gt. -/
def execUsetGt (code : BitVec 4) (p : BitVec 3) (a b : BitVec 7) (s : State) : Out :=
  issue (usetSig code p a b) (usetBody 7 code p a b) s

end Sys2Proof.Machine
end

