-- ==== Sys2Proof/Machine/Traps.lean ====
section
/-! DEFINITION. Return from traps, host-bound traps, the tag table, pre-emption, freeze and page retirement
(23_traps R284 to R297; 27_links R317, R319). -/

namespace Sys2Proof.Machine

/-! ### IRET (R286, R291) -/

/-- s92 to s95 of the gang that holds slice `j` take the four words a trap record saved (R286). -/
def State.restoreSs (s : State) (w j : Nat) (ss : List Word) : State :=
  s.modWarp w (fun W => W.modGang j (fun g =>
    { g with s := (List.range 4).foldl (fun m i => zput 0 m (92 + i) ((ss[i]?).getD 0)) g.s }))

/-- IRET in the trap handler: s92 to s95 of the issuing gang are restored, then it goes back to the resume PC, unless a mask
stack is deeper than at entry (R286). -/
def iretHandler (h : Handler) (c : Ctx) (s : State) : Res :=
  let fn := ctxFn c.W.ctx
  let a := h.record.toNat
  let deeper := c.W.slices.zipIdx.any (fun e => decide ((h.depths[e.2]?).getD 0 < e.1.stack.length))
  let s1 := s.restoreSs c.w c.j ((List.range 4).map (fun i => BitVec.ofNat 32 (s.devNum fn (a + 0x40 + 4 * i) 4)))
  if deeper then .trap s1 (Trap.of (s.devNum fn a 2) 0)
  else
    .jump (s1.resumeFrom c.w c.G.slices (BitVec.ofNat 64 (s.devNum fn (a + 0x08) 8)) (BitVec.ofNat 64 (s.devNum fn (a + 0x10) 8))
      (BitVec.ofNat 32 (s.devNum fn (a + 0x18) 4)))

/-- IRET: outside handler mode it takes class 0x02; at a halt entry it marks the warp saved (R286). -/
def iretBody (c : Ctx) (s : State) : Res :=
  match c.W.handler with
  | none => .trap s (Trap.of 2 0)
  | some h => if h.halt.isSome then .jump (s.saveWarp c.w false) else iretHandler h c s

/-- IRET. -/
def execIret (s : State) : Out := issue (fun _ => { Sig.plain with priv := true }) iretBody s

/-! ### The trap ring (R287, R317) -/

/-- Entries of a context's ring. -/
def Context.ringSize (c : Context) : Nat := 2 ^ (field c.trctl.toNat 0 4 + 4)

/-- Host address of an entry of the ring, by entry count. -/
def Context.ringAt (c : Context) (i : Nat) : Nat := c.trbase.toNat + 128 * (i % c.ringSize)

/-- Memory key of an entry of the ring as it lies now: in the host page that ATS gives under the context's PASID, where it may be read
or, with `write`, written (R314, R317, R319). -/
def State.ringKey (s : State) (ctx i : Nat) (write : Bool) : Option Nat :=
  let a := (s.context ctx).ringAt i
  (s.atsEntry ctx (a / 4096)).bind (fun e => if e.perm.getLsbD (if write then 1 else 0) then some (e.key a) else none)

/-- The stores that a link took down complete once the entry that reports their granule is written (R323). -/
def State.reported (s : State) (ctx : Nat) (bytes : List Byte) : State :=
  if numOf (bytes.take 2) = 8 then
    let page : DWord := BitVec.ofNat 64 (numOf ((bytes.drop 0x20).take 8))
    (s.requests.filter (fun e => e.2.lost && e.2.ctx == ctx && e.2.page == page)).foldl (fun s e => s.answer e.1 e.2 0 1 0) s
  else s

/-- TRAP_RING_DELIVERY: the first waiting record is copied to the ring where it has room; then TRPROD advances, then the
MSI-X is raised (R287, R316, R317). It waits for the host page of its entry. -/
def deliverTrap (ctx : Nat) (s : State) : State :=
  let c := s.context ctx
  match c.trapq with
  | [] => s
  | (bytes, w) :: r =>
    if (c.trprod - c.trcons).toNat < c.ringSize ∧ s.engineRuns ctx then
      let i := c.trprod.toNat
      match s.ringKey ctx i true with
      | none => s.askHost (Tag.of ctx noCore (c.ringAt i / 4096))
      | some k =>
        let c1 := { c with trapq := r, trprod := c.trprod + 1
                           ringWarps := c.ringWarps ++ [{ count := i, warp := w, slices := ((bytes[4]?).getD 0).toNat, passed := false }] }
        let s1 := (s.rawWrite k bytes).setContext ctx c1
        (if w.isNone then s1.reported ctx bytes else s1).interrupt (ctxFn ctx) (field c.cxvec.toNat 0 11)
    else s

/-- TRAP_RING_DELIVERY. -/
def execTrapRingDelivery (ctx : Nat) (s : State) : Out := event (deliverTrap ctx) s

/-- A host action on a warp stopped on a host trap (R287). -/
def State.hostAction (s : State) (w slices action : Nat) (resume : DWord) (completed : Word) : State :=
  match sget s.warps w with
  | none => s
  | some W =>
    let m := BitVec.ofNat 8 slices
    if W.hostStop = false ∨ W.ended then s
    else
      match W.gangAt (lowSlice m) with
      | none => s
      | some g =>
        match action with
        | 0 => s.resumeFrom w g.slices (W.groupPc g) resume completed
        | 1 =>
          let W1 := (W.modGang (lowSlice m) (fun g => { g.idle with hints := [], redo := none })).go g.slices none
            (fun _ x => { x with pc := W.stopNext })
          s.setWarp w { W1 with hostStop := false }
        | _ => s.endByFault w

/-- The action the host has left in an entry that stands at a key takes effect on the warp it names; that of a saved warp waits for its
resume (R287, R293). Every action on class 0x31 is treated as 2. -/
def State.consume (s : State) (ctx w slices key : Nat) : State :=
  let c := s.context ctx
  let action := if s.num key 2 = 0x31 then 2 else s.num (key + 0x7C) 1
  let resume : DWord := BitVec.ofNat 64 (s.num (key + 0x10) 8)
  let completed : Word := BitVec.ofNat 32 (s.num (key + 0x18) 4)
  match sget s.warps w with
  | none => s
  | some W =>
    if W.saved then s.setContext ctx { c with actions := c.actions ++ [(w, slices + 256 * action, resume, completed)] }
    else s.hostAction w slices action resume completed

/-- Reads the entries that TRCONS has passed, in order, up to `n`: each where it lies now, once its host page is there (R317, R319). -/
def State.readRing (s : State) (ctx : Nat) : Nat → State
  | 0 => s
  | n + 1 =>
    match (s.context ctx).ringWarps.find? (fun e => e.passed) with
    | none => s
    | some e =>
      let c := s.context ctx
      let s1 := s.setContext ctx { c with ringWarps := c.ringWarps.filter (fun x => !(x.count == e.count)) }
      match e.warp with
      | none => s1.readRing ctx n
      | some w =>
        match s.ringKey ctx e.count false with
        | some key => (s1.consume ctx w e.slices key).readRing ctx n
        | none => s.askHost (Tag.of ctx noCore (c.ringAt e.count / 4096))

/-- TRCONS advances, and the device reads the entries it passes; an advance past TRPROD is ignored (R287, R317). -/
def consumeTraps (ctx : Nat) (cons : BitVec 32) (s : State) : State :=
  let c := s.context ctx
  let n := (cons - c.trcons).toNat
  if (c.trprod - c.trcons).toNat < n then s
  else
    let passed := (List.range n).map (fun i => (c.trcons + BitVec.ofNat 32 i).toNat)
    (s.setContext ctx { c with
      trcons := cons
      ringWarps := c.ringWarps.map (fun e => { e with passed := e.passed || passed.contains e.count }) }).readRing ctx c.ringWarps.length

/-- HOST_ACTION: what the host has written in its memory before it, such as action bytes in the ring, is there (R287, R316); then
the write of TRCONS. -/
def execHostAction (ctx : Nat) (call : BitVec 32 × List (Nat × BitVec 8)) (s : State) : Out :=
  event (fun s => (s.hostWrites call.2).asked (ctxFn ctx) (consumeTraps ctx call.1)) s

/-! ### Translations of host pages (R154, R289, R319) -/

/-- TRANSLATION_LOOKUP: a page walk completes; a host page that ATS has not translated is asked for. -/
def lookupPage (ctx : Nat) (va : BitVec 64) (s : State) : State :=
  if canonical va = false ∨ inWindow va = true then s
  else
    match s.lookup ctx (vaOf va) with
    | none => s
    | some t =>
      let page := (t.base + (vaOf va - t.va)) / 4096
      let s1 := s.install ctx (vaOf va)
      if t.tgt = 1 ∧ (s.atsEntry ctx page).isNone then s1.askAts ctx page else s1

/-- TRANSLATION_LOOKUP. -/
def execTranslationLookup (ctx : Nat) (va : BitVec 64) (s : State) : Out := event (lookupPage ctx va) s

/-- The ATS translations with a page's entry replaced. -/
def setAts (l : List AtsEntry) (e : AtsEntry) : List AtsEntry :=
  e :: l.filter (fun x => !(x.ctx == e.ctx && x.page == e.page))

/-- ATS_TRANSLATION_COMPLETION: the translation of a page asked for is installed, or reported absent, which leads to PRI
(R319). -/
def atsCompletion (ctx page frame : Nat) (perm : BitVec 2) (s : State) : State :=
  if s.atsReq.contains (ctx, page) then
    { s with atsReq := s.atsReq.filter (fun e => !(e == (ctx, page)))
             ats := setAts s.ats { ctx := ctx, page := page, frame := frame, perm := perm } }.readRing ctx
      (s.context ctx).ringWarps.length
  else s

/-- ATS_TRANSLATION_COMPLETION. -/
def execAtsTranslationCompletion (ctx page : Nat) (answer : Nat × BitVec 2) (s : State) : Out :=
  event (atsCompletion ctx page answer.1 answer.2) s

/-- A host page denied to a core's engines: every copy command of it that waits for the page has met its fault (R181, R289). -/
def State.denyCommands (s : State) (t : Tag) : SMap CopyCmd :=
  s.cmds.map (fun e =>
    let hit := (e.2.todo.filter (fun r => e.2.open_ r.1)).findSome? (fun r => (rowChunks e.2.size).findSome? (fun p =>
      match s.chunkAccess t.ctx t.core e.2.drain (r.2 + BitVec.ofNat 64 p.1) p.2 with
      | .stall page a => if page = t.page then some a else none
      | _ => none))
    if s.cmdCtx e.2 = t.ctx ∧ e.2.core = t.core ∧ t.warp = none then (e.1, { e.2 with fault := e.2.fault.orElse (fun _ => hit) }) else e)

/-- PAGE_REQUEST_RESPONSE: the response frees the entry of its index; success installs the translation and the stalled
lanes are tried again; failure is a fault of the stalled instruction, or of the copy commands that wait for the page, unless the warp has been captured (R181, R289). -/
def pageResponse (index : Nat) (frame : Option Nat) (s : State) : State :=
  match sget s.tags index with
  | none => s
  | some t =>
    let s1 := { s with tags := sdel s.tags index }
    match frame with
    | some f => { s1 with ats := setAts s1.ats { ctx := t.ctx, page := t.page, frame := f, perm := 3 } }.readRing t.ctx
        (s1.context t.ctx).ringWarps.length
    | none =>
      let gone := match t.warp with
        | some w =>
          (match sget s.warps w with
          | some W => W.saved || W.ended
          | none => true)
        | none => false
      let cmds := s1.denyCommands t
      if gone then s1
      else if cmds ≠ s1.cmds then { s1 with cmds := cmds }
      else { s1 with denials := s1.denials ++ [(index, t)] }

/-- PAGE_REQUEST_RESPONSE. -/
def execPageRequestResponse (index : Nat) (frame : Option Nat) (s : State) : Out := event (pageResponse index frame) s

/-- Accesses of the contexts of a predicate that may use an old translation are still on their way. -/
def State.flyingOf (s : State) (p : Nat → Bool) : Bool :=
  let mine (w : Nat) : Bool := ((sget s.warps w).map (fun W => p W.ctx)).getD false
  s.regq.any (fun e => p e.2.ctx) || s.inflight.any (fun e => e.2.memory && mine e.2.warp) ||
    s.steps.any (fun e => mine e.2.warp) || s.requests.any (fun e => p e.2.ctx && e.2.answer.isNone)

/-- Accesses of a context that may use an old translation are still on their way. -/
def State.flying (s : State) (ctx : Nat) : Bool := s.flyingOf (fun c => c == ctx)

/-- The ATS invalidations of a function complete once no access that used an old translation is on its way (R319). -/
def State.atsSettle (s : State) (fn : Nat) : State :=
  if s.flyingOf (fun c => ctxFn c == fn) then s
  else
    let l := s.atsInv.filter (fun e => e.1 == fn)
    l.foldl (fun s e => s.send (.atsDone e.1 e.2)) { s with atsInv := s.atsInv.filter (fun e => !(e.1 == fn)) }

/-- INVALIDATE: a write of INVCTL with GO drops the page of INVVA, or every translation of the context, and with it what ATS has given
for its host pages (R319). Bit 0 of the
stored register marks an invalidation that is not done. -/
def invalidate (ctx : Nat) (val : BitVec 32) (s : State) : State :=
  let c := s.context ctx
  let whole := val.getLsbD 1
  if val.getLsbD 0 then
    let va := vaOf c.invva
    let hit (t : Tlb) : Bool := t.ctx == ctx && (whole || (decide (t.va ≤ va) && decide (va < t.va + t.size)))
    let old := s.tlb.filter hit
    { s with
      tlb := s.tlb.filter (fun t => !hit t)
      ats := s.ats.filter (fun e => !(e.ctx == ctx && (whole || old.any (fun t =>
        t.tgt == 1 && decide (t.base ≤ e.page * 4096) && decide (e.page * 4096 < t.base + t.size))))) }.setContext ctx { c with invctl := if whole then 3 else 1 }
  else s.setContext ctx { c with invctl := (c.invctl &&& ~~~2) ||| (if whole then 2 else 0) }

/-- INVALIDATE. -/
def execInvalidate (ctx : Nat) (val : BitVec 32) (s : State) : Out := event (fun s => s.asked (ctxFn ctx) (invalidate ctx val)) s

/-- INVALIDATION_DONE: every access that used a dropped translation has completed; so have, for want of accesses, the ATS
invalidations of the function (R319). -/
def invalidated (ctx : Nat) (s0 : State) : State :=
  let s := s0.atsSettle (ctxFn ctx)
  let c := s.context ctx
  if c.invctl.getLsbD 0 ∧ s.flying ctx = false then
    s.setContext ctx { c with invctl := (c.invctl &&& 2) ||| 0x80000000 }
  else s

/-- INVALIDATION_DONE. -/
def execInvalidationDone (ctx : Nat) (s : State) : Out := event (invalidated ctx) s

/-- ATS_INVALIDATION: the translations of a host page drop; it completes once no access that used them is on its way: at once,
at a later INVALIDATION_DONE of the function, or at the next such event (R319). -/
def atsInvalidation (fn page : Nat) (s : State) : State :=
  let inv := if s.atsInv.contains (fn, page) then s.atsInv else s.atsInv ++ [(fn, page)]
  { s with ats := s.ats.filter (fun e => !(ctxFn e.ctx == fn && e.page == page)), atsInv := inv }.atsSettle fn

/-- ATS_INVALIDATION; the host ports take no request before the firmware runs (R340). -/
def execAtsInvalidation (fn page : Nat) (s : State) : Out := event (fun s => if s.fwState = 1 then atsInvalidation fn page s else s) s

/-! ### The pre-emption ladder (R290 to R294) -/

/-- Writes a field of a context's save-area header (R294). -/
def State.header (s : State) (ctx off n x : Nat) : State :=
  s.devPut (ctxFn ctx) ((s.context ctx).savebase.toNat + off) n x

/-- The pairs of the cores of a block. -/
def Block.pairMask (B : Block) : BitVec 64 := B.cores.foldl (fun m c => m ||| (1#64 <<< (c / 2))) 0

/-- Extends core pairs to every core of any block of a context that spans one of them (R292). -/
def State.spanPairs (s : State) (ctx : Nat) (m : BitVec 64) : Nat → BitVec 64
  | 0 => m
  | n + 1 =>
    let m1 := s.blocks.foldl (fun m e =>
      if e.2.ctx = ctx ∧ e.2.admitted ∧ (m &&& e.2.pairMask ≠ 0) then m ||| e.2.pairMask else m) m
    s.spanPairs ctx m1 n

/-- A pre-emption request: it starts a ladder or joins the running one, where its deadlines bind the pairs it names (R290,
R292). -/
def State.preempt (s : State) (ctx : Nat) (pairs : BitVec 64) (d1 d2 reason : Nat) : State :=
  let c := s.context ctx
  let st := s.stand (s.standOf (ctxFn ctx))
  let named := s.spanPairs ctx (pairs &&& st.fpairs &&& ~~~c.savedPairs) 64 &&& ~~~c.savedPairs
  let e1 := s.time + usTime d1
  let e2 := s.time + usTime d2
  let old := match c.ladder with
    | some l => l
    | none => { parts := [], done := 0, reason := reason }
  let tighten (p : LadderPart) : LadderPart :=
    match p.stage with
    | .drain => { p with d1 := min p.d1 e1, d2 := min p.d2 (usTime d2) }
    | .halt => { p with d2 := min p.d2 e2 }
    | .capture => p
  let held := old.pairs
  let fresh := named &&& ~~~held
  let share (p : LadderPart) : List LadderPart :=
    [{ p with pairs := p.pairs &&& ~~~named }, tighten { p with pairs := p.pairs &&& named }].filter (fun q => q.pairs != 0)
  let parts := old.parts.flatMap share
  let parts1 := if fresh = 0 then parts else parts ++ [{ stage := .drain, pairs := fresh, d1 := e1, d2 := usTime d2 }]
  if parts1.isEmpty then s
  else
    let first := c.ladder.isNone
    let c1 := { c with ladder := some { old with parts := parts1 }, counts := if first then (0, 0, 0) else c.counts }
    let s1 := s.setContext ctx c1
    if first then ((((s1.header ctx 4 1 1).header ctx 5 1 reason).header ctx 6 2 0).header ctx 0x1C 4 0).header ctx 0x20 8 s.refTime
    else s1

/-- PREEMPT. -/
def execPreempt (ctx : Nat) (pairs : BitVec 64) (d1 d2 : Nat) (s : State) : Out :=
  event (fun s => s.asked (ctxFn ctx) (fun s => s.preempt ctx pairs d1 d2 0)) s

/-- A core is one of some pairs. -/
def inPairs (m : BitVec 64) (core : Nat) : Bool := m.getLsbD (core / 2)

/-- Changes the first part of a context's ladder that meets a condition. -/
def Ladder.modFirst (f : LadderPart → Bool) (g : LadderPart → LadderPart) : List LadderPart → List LadderPart
  | [] => []
  | p :: r => if f p then g p :: r else p :: Ladder.modFirst f g r

/-- A block of a context still runs on some pairs. -/
def State.blocksIn (s : State) (ctx : Nat) (m : BitVec 64) : Bool :=
  s.blocks.any (fun e => e.2.ctx == ctx && e.2.admitted && e.2.cores.any (inPairs m))

/-- Warps of a context on some pairs that are not in the save area. -/
def State.unsaved (s : State) (ctx : Nat) (m : BitVec 64) : List (Nat × Warp) :=
  s.warps.filter (fun e => e.2.ctx == ctx && inPairs m e.2.core && !e.2.ended && !e.2.saved)

/-- DRAIN_DEADLINE: the drain of a part ends, because every block has ended or D1 has passed; the halt begins, or the
capture where the context has no save handler (R284, R290). -/
def drainEnds (ctx : Nat) (s : State) : State :=
  let c := s.context ctx
  match c.ladder with
  | none => s
  | some l =>
    let past (p : LadderPart) : Bool :=
      p.stage == .drain && (decide (p.d1 ≤ s.time) || !s.blocksIn ctx p.pairs)
    if l.parts.any past then
      let next (p : LadderPart) : LadderPart :=
        if c.hvec = 0 then { p with stage := .capture } else { p with stage := .halt, d2 := s.time + p.d2 }
      (s.setContext ctx { c with ladder := some { l with parts := Ladder.modFirst past next l.parts } }).header ctx 4 1
        (if c.hvec = 0 then 3 else 2)
    else s

/-- DRAIN_DEADLINE. -/
def execDrainDeadline (ctx : Nat) (s : State) : Out := event (drainEnds ctx) s

/-- The designated warp of a block on a core: its lowest-numbered unexited warp there (R291). -/
def State.designated (s : State) (B : Block) (core : Nat) : Option Nat :=
  B.members.find? (fun w => match sget s.warps w with
    | some W => W.core == core && !W.ended
    | none => false)

/-- A warp is its block's designated warp on its core. -/
def State.isDesignated (s : State) (w : Nat) (W : Warp) : Bool :=
  match W.block.bind (sget s.blocks) with
  | some B => s.designated B W.core == some w
  | none => false

/-- Device address of the scratch image of a core (R291, R294). -/
def State.scratchBase (s : State) (ctx core : Nat) : Nat :=
  s.devNum (ctxFn ctx) ((s.context ctx).savebase.toNat + 0x40) 8 + s.rank ctx core * 0xA00000

/-- Device address of a block's place in the scratch image of a core: at the offset its scratch has in the core store (R294). -/
def State.scratchImage (s : State) (B : Block) (core : Nat) : Nat := s.scratchBase B.ctx core + B.scratch

/-- Delivers a warp's halt entry (R291): the image's hardware fields are written, and its gang enters the save handler. -/
def State.haltWarp (s : State) (w : Nat) (scratch : Nat) : State :=
  match sget s.warps w with
  | none => s
  | some W =>
    match W.gangs with
    | [g] =>
      let a := s.imageAddr W
      let x : DWord := BitVec.ofNat 64 a
      let y : DWord := BitVec.ofNat 64 scratch
      let g1 : Gang :=
        { (((g.sput true 92 (loWord x)).sput true 93 (hiWord x)).sput true 94 (loWord y)).sput true 95 (hiWord y) with
          hints := [], wait := none, pend := .none, stall := none, sleep := none, redo := none }
      let W1 := { W with gangs := [g1] }.modSlices g.slices (fun _ x => { x with pc := alignPc (s.context W.ctx).hvec })
      ((s.devWrite (ctxFn W.ctx) a (W.imageHead 1 (W.pcOf g) g.q g.ss)).captureState W).setWarp w
        { W1 with handler := some { slices := g.slices, record := x, depths := W.slices.map (fun x => x.stack.length),
                                    halt := some { gang := g, slices := W.slices, v := W.v, p := W.p, flags := W.flags } } }
    | _ => s

/-- Every array operation of a warp's block has retired: what its halt entry and its save wait for (R280). -/
def State.arraysQuiet (s : State) (W : Warp) : Bool := s.ops.all (fun e => W.block != some e.2.block || e.2.flags.isSome)

/-- A resident warp can take its halt entry now (R290, R291): it waits for the replies of its steps, for its outstanding register
writes, and for its team's array operations (R30, R255, R280). -/
def State.haltable (s : State) (w : Nat) (W : Warp) : Bool :=
  s.stageOf W == some .halt && W.residency == .resident && !W.ended && W.handler.isNone && !W.hostStop && W.reconverged &&
    !s.outstanding w && s.arraysQuiet W

/-- HALT_ENTRY: a warp of the halt stage that is not designated takes its halt entry at a reconvergence point; a parked
warp is moved to the save area (R290, R291), once its team's operations have retired (R280). -/
def haltEntry (w : Nat) (s : State) : State :=
  match sget s.warps w with
  | none => s
  | some W =>
    match W.residency with
    | .parked _ _ => if s.stageOf W = some .halt ∧ W.ended = false ∧ s.arraysQuiet W = true then s.saveWarp w true else s
    | _ => if s.haltable w W ∧ s.isDesignated w W = false then s.haltWarp w 0 else s

/-- HALT_ENTRY. -/
def execHaltEntry (w : Nat) (s : State) : Out := event (haltEntry w) s

/-- Every other warp of a block, on every core it spans, is in the save area, and no copy command of the block runs (R292). -/
def State.designatedReady (s : State) (b : Nat) (B : Block) (w : Nat) : Bool :=
  B.members.all (fun v => v == w || (match sget s.warps v with
    | some V => V.saved || V.ended
    | none => true)) && !s.cmds.any (fun e => e.2.block == b)

/-- DESIGNATED_HALT_ENTRY: the designated warp takes its entry, with the address of its core's scratch image, once the rest of
its block is saved (R291, R292). -/
def designatedEntry (w : Nat) (s : State) : State :=
  match sget s.warps w with
  | none => s
  | some W =>
    match W.block with
    | none => s
    | some b =>
      match sget s.blocks b with
      | none => s
      | some B =>
        if s.haltable w W ∧ s.isDesignated w W ∧ s.designatedReady b B w then s.haltWarp w (s.scratchBase B.ctx W.core) else s

/-- DESIGNATED_HALT_ENTRY. -/
def execDesignatedHaltEntry (w : Nat) (s : State) : Out := event (designatedEntry w) s

/-- HALT_DEADLINE: the halt of a part ends, because every warp is saved or D2 has passed; the capture begins (R290). -/
def haltEnds (ctx : Nat) (s : State) : State :=
  let c := s.context ctx
  match c.ladder with
  | none => s
  | some l =>
    let past (p : LadderPart) : Bool :=
      p.stage == .halt && (decide (p.d2 ≤ s.time) || (s.unsaved ctx p.pairs).isEmpty)
    if l.parts.any past then
      let ps := Ladder.modFirst past (fun p => { p with stage := .capture }) l.parts
      (s.setContext ctx { c with ladder := some { l with parts := ps } }).header ctx 4 1 3
    else s

/-- HALT_DEADLINE. -/
def execHaltDeadline (ctx : Nat) (s : State) : Out := event (haltEnds ctx) s

/-- A copy command is stalled on PRI: each row it has still to do waits for an absent host page. It is cut (R293). -/
def State.cut (s : State) (c : CopyCmd) : Bool :=
  !c.todo.isEmpty && c.todo.all (fun e => c.open_ e.1 &&
    (match s.rowAccess (s.cmdCtx c) c.core c.drain e.2 c.size with
      | .stall p _ => s.atsAbsent (s.cmdCtx c) p
      | _ => false))

/-- What a capture waits for (R255, R280, R293): outstanding writes and replies, but not those of a link that went down, stores,
copy commands, and the teams' operations. -/
def State.captureReady (s : State) (ctx : Nat) (m : BitVec 64) : Bool :=
  let mine (w : Nat) : Bool := match sget s.warps w with
    | some W => W.ctx == ctx && inPairs m W.core
    | none => false
  let block (b : Nat) : Bool := match sget s.blocks b with
    | some B => B.ctx == ctx && B.cores.any (inPairs m)
    | none => false
  !s.inflight.any (fun e => mine e.2.warp) && !{ s with requests := s.requests.filter (fun e => !e.2.lost) }.awaits mine && !s.steps.any (fun e => mine e.2.warp) && !s.regq.any (fun e => mine e.2.warp) &&
    s.cmds.all (fun e => !block e.2.block || s.cut e.2) && s.ops.all (fun e => !block e.2.block || e.2.flags.isSome)

/-- Saves the quadrants of a block's teams; a claim a team waits with is made again when it comes back (R262, R280). -/
def State.stashTeams (s : State) (b : Nat) : State :=
  let owned (t : Nat) : List (Nat × Quadrant) := s.quads.filter (fun e => e.2.owner == some (b, t))
  let s1 := s.modBlock b (fun B => { B with teams := B.teams.map (fun e => (e.1, { e.2 with stash := e.2.stash ++ owned e.1 })) })
  { s1 with quads := s1.quads.filter (fun e => !(e.2.owner.map (·.1) == some b))
            claims := s1.claims.filter (fun e => !(e.2.owner.1 == b)) }

/-- Writes a block's scratch into its image (R292). -/
def State.saveScratch (s : State) (B : Block) : State :=
  s.devWrite (ctxFn B.ctx) (s.scratchImage B B.leader) (s.bytes (B.scratchKey 0) B.scratchSize)

/-- A block's slot on a core: the lowest scheduling entry of its warps there (R294). -/
def State.blockSlot (s : State) (B : Block) (core : Nat) : Option Nat :=
  ((B.members.filterMap (sget s.warps)).filter (fun W => W.core == core)).foldl (fun m W =>
    some (match m with
      | none => W.entry
      | some e => min e W.entry)) none

/-- Writes a block's records, one on each of its cores, 2 KiB in the part's own form (R294; assumption 38). -/
def State.saveRecords (s : State) (B : Block) : State :=
  B.cores.foldl (fun s core => match s.blockSlot B core with
    | some e => s.devOwn (ctxFn B.ctx) (s.scratchBase B.ctx core + 0x600000 + 2048 * e) 2048
    | none => s) s

/-- Writes the engine images of the cores of some pairs, 1 MiB each in the part's own form (R294; assumption 38). -/
def State.saveEngines (s : State) (ctx : Nat) (m : BitVec 64) : State :=
  let base := s.devNum (ctxFn ctx) ((s.context ctx).savebase.toNat + 0x48) 8
  (onesBelow 64 m.toNat).foldl (fun s p => [2 * p, 2 * p + 1].foldl (fun s core =>
    s.devOwn (ctxFn ctx) (base + s.rank ctx core * 0x100000) 0x100000) s) s

/-- The blocks of a context on some pairs. -/
def State.blocksOf (s : State) (ctx : Nat) (m : BitVec 64) : List (Nat × Block) :=
  s.blocks.filter (fun e => e.2.ctx == ctx && e.2.admitted && e.2.cores.any (inPairs m))

/-- The designated warp on the core that holds a block's scratch was captured. -/
def State.scratchCaptured (s : State) (B : Block) : Bool :=
  match (s.designated B B.leader).bind (sget s.warps) with
  | some W => W.residency == .saved true
  | none => true

/-- A ladder whose parts are all saved ends: its core pairs are recorded saved (R290, R294). -/
def State.ladderEnds (s : State) (ctx : Nat) : State :=
  let c := s.context ctx
  match c.ladder with
  | none => s
  | some l =>
    if l.parts.isEmpty then
      let sp := c.savedPairs ||| l.done
      let all := (s.stand (s.standOf (ctxFn ctx))).fpairs
      let s1 := (s.setContext ctx { c with ladder := none, savedPairs := sp, saved := all &&& ~~~sp == 0 }).stashSaplings ctx l.done
      ((((((s1.header ctx 4 1 4).header ctx 8 8 sp.toNat).header ctx 0x10 4 c.counts.1).header ctx 0x14 4 c.counts.2.1).header
        ctx 0x18 4 c.counts.2.2).header ctx 0x28 8 s.refTime)
    else s

/-- CAPTURE_COMPLETION: every warp of a part that is not saved is captured whole, its blocks' scratch, teams and arrays
are saved, and the part is done (R280, R290, R292, R293). -/
def captureDone (ctx : Nat) (s : State) : State :=
  match (s.context ctx).ladder with
  | none => s
  | some l =>
    match l.parts.find? (fun p => p.stage == .capture) with
    | none => s
    | some p =>
      if s.captureReady ctx p.pairs then
        let s1 := (s.unsaved ctx p.pairs).foldl (fun s e => s.saveWarp e.1 true) s
        let bs := s1.blocksOf ctx p.pairs
        let s2 := (bs.foldl (fun s e => (if s.scratchCaptured e.2 then s.saveScratch e.2 else s).saveRecords e.2) s1).saveEngines ctx
          p.pairs
        let s3 := bs.foldl (fun s e => s.stashTeams e.1) s2
        let c := s3.context ctx
        let l1 : Ladder := { l with parts := l.parts.filter (fun q => !(q == p)), done := l.done ||| p.pairs }
        (s3.setContext ctx { c with ladder := some l1 }).ladderEnds ctx
      else s

/-- CAPTURE_COMPLETION. -/
def execCaptureCompletion (ctx : Nat) (s : State) : Out := event (captureDone ctx) s

/-- Discards what a grove's blocks and warps have under way; the rings move saplings into the slots it leaves (R233). -/
def State.discardGrove (s : State) (g : Nat) : State :=
  let w (n : Nat) : Bool := ((sget s.warps n).map (·.grove)) == some g
  let b (n : Nat) : Bool := ((sget s.blocks n).map (·.grove)) == some g
  let cores := ((sget s.groves g).map (·.cores)).getD []
  let s1 := { s with
    inflight := s.inflight.filter (fun e => !w e.2.warp)
    steps := s.steps.filter (fun e => !w e.2.warp)
    holders := s.holders.filter (fun e => !w e.2.warp)
    cmds := s.cmds.filter (fun e => !b e.2.block)
    ops := s.ops.filter (fun e => !b e.2.block)
    claims := s.claims.filter (fun e => !b e.2.owner.1)
    quads := s.quads.filter (fun e => match e.2.owner with
      | some o => !b o.1
      | none => true)
    saplings := s.saplings.filter (fun e => !(e.2.grove == g))
    exits := s.exits.filter (fun e => !(e.2.grove == g))
    flushes := s.flushes.filter (fun e => !(e.2.2 == g)) }
  cores.foldl State.refill s1

/-- The stores of a context on their way are registered, the oldest first: what a completion word's release waits for (R316). -/
def State.registerOf (s : State) (ctx : Nat) : State :=
  ((s.regq.filter (fun e => e.2.ctx == ctx)).map (·.1)).foldl State.register s

/-- A context is lost: its state is discarded, its tag entries freed, and its groves' completion words are written with
status 0x0300, with a release (R289, R290, R316). -/
def State.loseContext (s0 : State) (ctx : Nat) : State :=
  let s := s0.registerOf ctx
  let gs := (s.groves.filter (fun e => e.2.ctx == ctx)).map (·.1)
  let s1 := gs.foldl (fun s g => (s.discardGrove g).modGrove g (fun G => { G with lost := true })) s
  let s2 := { s1 with
    warps := s1.warps.filter (fun e => !(e.2.ctx == ctx))
    blocks := s1.blocks.filter (fun e => !(e.2.ctx == ctx))
    tags := s1.tags.filter (fun e => !(e.2.ctx == ctx))
    deliveries := s1.deliveries.filter (fun e => !(e.2.ctx == ctx))
    denials := s1.denials.filter (fun e => !(e.2.ctx == ctx)) }
  let c := s2.context ctx
  let s3 := (s2.setContext ctx { c with ladder := none, savedPairs := 0, worldPairs := 0, saved := false, lost := true, actions := [],
                                        resumePairs := 0 }).header ctx 4 1 5
  gs.foldl (fun s g => writeCompletion g s) s3

/-- CONTEXT_LOSS: an uncorrectable error during capture (R290). -/
def contextLoss (ctx : Nat) (s : State) : State :=
  match (s.context ctx).ladder with
  | none => s
  | some l => if l.parts.any (fun p => p.stage == .capture) then s.loseContext ctx else s

/-- CONTEXT_LOSS. -/
def execContextLoss (ctx : Nat) (s : State) : Out := event (contextLoss ctx) s

/-! ### Resumption (R295) -/

/-- A warp that comes back: what it was, each gang at the first hint of its group, with an empty group (R61, R65, R291). A
JOINWAIT reads its counter again (R244). -/
def Warp.comeBack (W : Warp) : Warp :=
  let I := W.imaged
  let W1 := I.gangs.foldl (fun (V : Warp) g => V.modSlices g.slices (fun _ x => { x with pc := I.groupPc g })) I
  { W1 with
    callers := []
    gangs := W1.gangs.map (fun g => { g with
      wait := none, stall := none, hints := []
      pend := match g.pend with
        | .join _ _ => .none
        | .ordered => .none
        | .ticket _ => .none
        | p => p }) }

/-- Reads the fields of a warp's image back: p0 to p6, v registers, FLAGS and active masks, and, for the image's gang, its PC,
q0 to q2 and s registers (R291, R294). -/
def State.loadImage (s : State) (W : Warp) : Warp :=
  let a := s.imageAddr W
  let num (off n : Nat) : Nat := s.devNum (ctxFn W.ctx) (a + off) n
  let word (off : Nat) : Word := BitVec.ofNat 32 (num off 4)
  let W1 := (List.range W.window).foldl (fun (W : Warp) r =>
    W.vputs (BitVec.allOnes 32) r (fun l => word (0x280 + 128 * r + 4 * l))) W
  let preds (i : Nat) : Word := (List.range 32).foldl (fun m l => if (num (0x20 + l) 1).testBit i then m ||| bitW l else m) 0
  let W2 := (List.range 7).foldl (fun (W : Warp) i => W.pputs (BitVec.allOnes 32) i (preds i)) W1
  let W3 := { W2 with flags := word 0x10 &&& flagBits }.modSlices W.live (fun j x => { x with active := BitVec.ofNat 4 (num 0x14 4 / 16 ^ j) })
  match W3.gangs with
  | [] => W3
  | g :: r =>
    let regs := (List.range 92).map (fun i => (i, word (0x100 + 4 * i))) ++ (List.range 4).map (fun i => (92 + i, word (0x40 + 4 * i)))
    let g1 := { g with
      q := BitVec.ofNat 3 (num 0x18 4)
      s := regs.foldl (fun (m : SMap Word) (e : Nat × Word) => zput 0 m e.1 e.2) g.s }
    { W3 with gangs := g1 :: r }.modSlices g.slices (fun _ x => { x with pc := alignPc (BitVec.ofNat 64 (num 8 8)) })

/-- Restores a warp: parked and ready (R295). -/
def State.resumeWarp (s : State) (w : Nat) : State :=
  match sget s.warps w with
  | none => s
  | some W =>
    if W.saved then
      { s with warps := sput s.warps w { s.loadImage W.comeBack with residency := .parked true s.nextId }, nextId := s.nextId + 1 }
    else s

/-- The quadrants a block's teams had, with the team of each (R280). -/
def Block.stashed (B : Block) : List (Nat × Nat × Quadrant) := B.teams.flatMap (fun t => t.2.stash.map (fun q => (t.1, q)))

/-- Restores a block: its scratch, and the contents of its teams' quadrants, whose latches are loaded again from their tiles
(R280, R293 to R295). -/
def State.resumeBlock (s : State) (b : Nat) (B : Block) : State :=
  let n := B.scratchSize
  let bytes := (List.range n).map (fun i => BitVec.ofNat 8 (s.devNum (ctxFn B.ctx) (s.scratchImage B B.leader + i) 1))
  let s1 := s.scratchWrite (B.scratchKey 0) bytes
  let s2 := B.stashed.foldl (fun s q => s.setQuad q.2.1 (s.relatch b q.2.2)) s1
  { s2.modBlock b (fun B => { B with teams := B.teams.map (fun t => (t.1, { t.2 with stash := [] })) }) with
    claims := s2.claims.filter (fun e => !(e.2.owner.1 == b)) }

/-- The claims of a saved block that comes back, one for each team and core, made once (R262, R280). -/
def State.reclaim (s : State) (b : Nat) (B : Block) : State :=
  B.teams.foldl (fun s t =>
    ((t.2.stash.map (fun q => q.1 / 4)).eraseDups).foldl (fun s core =>
      let keys := (t.2.stash.map (·.1)).filter (fun k => k / 4 == core)
      if s.claims.any (fun e => e.2.owner == (b, t.1) && e.2.core == core) then s
      else
        { s with claims := sput s.claims s.nextId { core := core, owner := (b, t.1), quads := keys, granted := false }
                 nextId := s.nextId + 1 }) s) s

/-- The claims and the quadrants of the saved blocks of a context that was to come back are given up. -/
def State.unclaim (s : State) (ctx : Nat) : State :=
  let mine (b : Nat) : Bool := match sget s.blocks b with
    | some B => B.ctx == ctx && s.blockSaved B
    | none => false
  { s with claims := s.claims.filter (fun e => !mine e.2.owner.1)
           quads := s.quads.filter (fun e => match e.2.owner with
             | some o => !mine o.1
             | none => true) }

/-- A core whose store has no room for the scratch of the blocks that come back to it, beside its residents and the reserve (R11,
R33). -/
def State.crowded (s : State) (ctx : Nat) (m : BitVec 64) : Option Nat :=
  let bs := ((s.blocksOf ctx m).map (·.2)).filter s.blockSaved
  (bs.flatMap (·.cores)).find? (fun core =>
    let mine := bs.filter (fun B => B.cores.contains core)
    !s.storeFits core 0 0 ((mine.map (fun B => ceilTo 256 B.desc.scratch)).foldl (· + ·) (s.scratchUsed core))
      ((mine.map (fun B => B.desc.window)).foldl max (s.largestWindow core)) [])

/-- Where a core's store is too full for what comes back, a resident warp that is not ready is parked (R32). -/
def State.makeRoom (s : State) (ctx : Nat) (m : BitVec 64) : State :=
  match (s.crowded ctx m).bind s.victim with
  | some v => s.park v false
  | none => s

/-- The places a saved context needs are free: entries, scratch, and room in the core stores; and its teams have their quadrants
(R11, R280, R295). -/
def State.resumable (s : State) (ctx : Nat) (m : BitVec 64) : Bool :=
  let mine := s.warps.filter (fun e => e.2.ctx == ctx && e.2.saved && inPairs m e.2.core && !e.2.ended)
  let bs := s.blocksOf ctx m
  (s.crowded ctx m).isNone && mine.all (fun e => !s.warps.any (fun x => x.1 != e.1 && x.2.core == e.2.core && x.2.entry == e.2.entry && !x.2.ended &&
    !x.2.saved)) &&
  bs.all (fun e => e.2.cores.all (fun core => (s.blocksOn core).all (fun O =>
    O == e.2 || decide (O.scratch + O.scratchSize ≤ e.2.scratch) || decide (e.2.scratch + e.2.scratchSize ≤ O.scratch)))) &&
  bs.all (fun e => e.2.stashed.all (fun q => (s.quad q.2.1).owner == some (e.1, q.1)))

/-- A context comes back on some of its saved pairs, in the order of R295. While its ladder runs or its function is off the
stand, it waits; while its places are taken, it waits with the claims of its teams made, and its save area says so (R294). -/
def State.resumeOn (s : State) (ctx : Nat) (m0 : BitVec 64) : State :=
  let c := s.context ctx
  let m := m0 &&& c.savedPairs
  if m = 0 ∧ c.ladder.isNone then s
  else if c.ladder.isSome ∨ s.freeze.isSome ∨ s.frozenMem.isSome ∨ s.fnRuns (ctxFn ctx) = false then
    s.setContext ctx { c with resumePairs := c.resumePairs ||| m0 }
  else
    let bs := s.blocksOf ctx m
    let s0 := bs.foldl (fun s e => s.reclaim e.1 e.2) s
    if s0.resumable ctx m = false then
      let s1 := s0.makeRoom ctx m
      if c.resumePairs &&& m0 = m0 then s1 else (s1.setContext ctx { c with resumePairs := c.resumePairs ||| m0 }).header ctx 4 1 6
    else
    let s1 := bs.foldl (fun s e => s.resumeBlock e.1 e.2) s0
    let ws := (s1.warps.filter (fun e => e.2.ctx == ctx && e.2.saved && inPairs m e.2.core)).map (·.1)
    let s2 := ws.foldl (fun s w => s.resumeWarp w) s1
    let back (a : Nat × Nat × DWord × BitVec 32) : Bool := ws.contains a.1
    let s3 := s2.setContext ctx
      { s2.context ctx with savedPairs := c.savedPairs &&& ~~~m, worldPairs := c.worldPairs &&& ~~~m, saved := false,
                            resumePairs := c.resumePairs &&& ~~~m0, actions := c.actions.filter (fun a => !back a) }
    let s4 := (c.actions.filter back).foldl (fun s a => s.hostAction a.1 (a.2.1 % 256) (a.2.1 / 256) a.2.2.1 a.2.2.2) s3
    (onesBelow 64 m.toNat).foldl (fun s p => (s.refill (2 * p)).refill (2 * p + 1)) (s4.header ctx 4 1 0)

/-- A context comes back on all its saved pairs. -/
def State.resume (s : State) (ctx : Nat) : State := s.resumeOn ctx (BitVec.allOnes 64)

/-- RESUME. -/
def execResume (ctx : Nat) (s : State) : Out := event (fun s => s.asked (ctxFn ctx) (fun s => s.resume ctx)) s

/-! ### Freeze (R296) -/

/-- The contexts that a freeze saves and a thaw brings back: every one that is enabled or has a grove, and is not lost (R296). -/
def State.liveContexts (s : State) : List Nat :=
  (s.contexts.filter (fun e => (e.2.en || s.groves.any (fun g => g.2.ctx == e.1)) && !e.2.lost)).map (·.1)

/-- FREEZE_REQUEST: the ladder runs on every context and every core (R296). -/
def freezeRequest (d1 d2 : Nat) (s : State) : State :=
  if s.freeze.isSome ∨ s.frozenMem.isSome then s
  else
    let s1 := s.liveContexts.foldl (fun s ctx => (s.unclaim ctx).preempt ctx (BitVec.allOnes 64) d1 d2 2) s
    { s1 with freeze := some (d1, d2) }

/-- FREEZE_REQUEST; before the firmware runs the management window alone answers (R340). -/
def execFreezeRequest (d1 d2 : Nat) (s : State) : Out := event (fun s => if s.fwState = 1 then freezeRequest d1 d2 s else s) s

/-- FREEZE_COMPLETION: no ladder runs and every store has reached its home; device memory has been copied to the host's
buffer, every save area is marked saved with reason 2, and an MSI-X is raised, whose vector no rule gives (R296). -/
def freezeDone (s : State) : State :=
  match s.freeze with
  | none => s
  | some _ =>
    if s.contexts.any (fun e => e.2.ladder.isSome) ∨ s.regq ≠ [] then s
    else
      let s1 := s.liveContexts.foldl (fun s ctx => (s.header ctx 4 1 4).header ctx 5 1 2) s
      { s1 with freeze := none, dirty := [], frozenMem := some (s1.mem.filter (fun e => decide (spaceOf e.1 = 0))), fresh := s1.fresh + 1
      }.interrupt 0 ((Config.freeWord s1.fresh).toNat % 2048)

/-- FREEZE_COMPLETION. -/
def execFreezeCompletion (s : State) : Out := event freezeDone s

/-- THAW: the buffer is copied back and every context comes back (R296). -/
def thaw (s : State) : State :=
  match s.frozenMem with
  | none => s
  | some m =>
    let other : SMap Byte := s.mem.filter (fun e => decide (spaceOf e.1 ≠ 0))
    let s1 : State := { s with frozenMem := none, mem := memPuts other m }
    s1.liveContexts.foldl (fun s ctx => s.resume ctx) s1

/-- THAW; before the firmware runs the management window alone answers (R340). -/
def execThaw (s : State) : Out := event (fun s => if s.fwState = 1 then thaw s else s) s

/-! ### Page retirement and remapping (R297, R302, R311) -/

/-- The key of a byte of granule `g` after the granule has moved to `d`. -/
def movedKey (g d key : Nat) : Nat := if key / 4096 = g then d * 4096 + key % 4096 else key

/-- A store on its way after the move of a granule: to the new place, by the home slice of that (R53). -/
def State.movedReg (s : State) (g d : Nat) (r : Reg) : Reg :=
  let bytes := r.bytes.map (fun b => (movedKey g d b.1, b.2))
  { r with
    bytes := bytes
    home := match bytes with
      | b :: _ => if b.1 / 4096 = d then homeOf (s.stand (s.standOf (ctxFn r.ctx))) b.1 else r.home
      | [] => r.home }

/-- Moves the bytes of a granule, with every copy, claim, store, capsule step and delivery on its way; poisoned words stay
poisoned. What cores and home-cache lines still had of the destination's own bytes is gone (R297, R311). -/
def State.moveGranule (s : State) (g d : Nat) : State :=
  let here (k : Nat) : Bool := k / 4096 == g
  let other (k : Nat) : Bool := !here k && !(k / 4096 == d)
  let cells := s.mem.filter (fun e => here e.1)
  let clear : List (Nat × Byte) := (s.mem.filter (fun e => e.1 / 4096 == d)).map (fun e => (e.1, 0))
  let mem1 := memPuts (memPuts s.mem clear) (cells.map (fun e => (movedKey g d e.1, e.2)))
  let wordHere (e : Nat × Bool) : Bool := e.1 / 1024 == g
  let moveKey (k : Nat) : Nat := carveKey (k / 2 ^ 64) (movedKey g d (k % 2 ^ 64))
  { s with
    mem := mem1
    poison := (s.poison.filter wordHere).foldl (fun (m : SMap Bool) (e : Nat × Bool) => sput m (d * 1024 + e.1 % 1024) e.2)
      (s.poison.filter (fun e => !wordHere e && !(e.1 / 1024 == d)))
    carve := (s.carve.filter (fun e => here (e.1 % 2 ^ 64))).foldl (fun (m : SMap Carve) (e : Nat × Carve) => sput m (moveKey e.1) e.2)
      (s.carve.filter (fun e => other (e.1 % 2 ^ 64)))
    owners := (s.owners.filter (fun e => here e.1)).foldl (fun (m : SMap (Nat × Nat)) (e : Nat × Nat × Nat) => sput m (movedKey g d e.1) e.2)
      (s.owners.filter (fun e => other e.1))
    dirty := (s.dirty.filter (fun e => here e.1)).foldl (fun (m : SMap Nat) (e : Nat × Nat) => sput m (movedKey g d e.1) e.2)
      (s.dirty.filter (fun e => other e.1))
    regq := s.regq.map (fun e => (e.1, s.movedReg g d e.2))
    steps := s.steps.map (fun e => (e.1, { e.2 with record := movedKey g d e.2.record, key := movedKey g d e.2.key }))
    deliveries := s.deliveries.map (fun e => (e.1, { e.2 with record := movedKey g d e.2.record }))
    holders := (s.holders.filter (fun e => here e.1)).foldl (fun (m : SMap Holder) (e : Nat × Holder) =>
      sput m (movedKey g d e.1) e.2) (s.holders.filter (fun e => !here e.1)) }

/-- The remap table has room (R302). -/
def State.remapRoom (s : State) : Bool := decide (s.remaps.length < 65536)

/-- The lowest virtual address whose page a function's tables place over an offset of its device memory: the tables from level
`n - 1` down, of which `table` covers the addresses from `va` on (R318). -/
def State.tableFind (s : State) (fn off : Nat) : Nat → Nat → Nat → Option Nat
  | 0, _, _ => none
  | n + 1, table, va =>
    (List.range 512).findSome? (fun i =>
      match s.devAddr fn (table + 8 * i) with
      | none => none
      | some p =>
        let e := s.num (keyOf 0 p) 8
        let at_ := va + i * 2 ^ (12 + 9 * n)
        if e % 2 = 0 ∨ e / 2 ^ 56 ≠ 0 ∨ field e 9 3 ≠ 0 ∨ field e 2 2 = 3 then none
        else if field e 1 1 = 1 then
          let size := 2 ^ (12 + 9 * n)
          let base := field e 12 40 * 4096 / size * size
          if n ≤ 2 ∧ field e 2 2 = 0 ∧ base ≤ off ∧ off < base + size then some (at_ + (off - base)) else none
        else s.tableFind fn off n (field e 12 40 * 4096) at_)

/-- The context whose page tables place a page over a granule, and its virtual address there (R297, R318). -/
def State.ownerOf (s : State) (g : Nat) : Option (Nat × DWord) :=
  s.contexts.findSome? (fun e =>
    let fn := ctxFn e.1
    let v := s.vf fn
    let off := if fn = 0 then some (g * 4096) else (apertureFind s v.apbase.toNat g v.apsize.toNat).map (· * 4096)
    if e.2.en = false then none
    else off.bind (fun o => (s.tableFind fn o 5 e.2.ptroot.toNat 0).map (fun va => (e.1, (BitVec.ofNat 57 va).signExtend 64))))

/-- The granule a spare takes the place of, by how many have been retired: spares lie above every address of R319. -/
def spareGranule (n : Nat) : Nat := 0x8000000 + n

/-- Retires a granule (R297): what it holds moves to a spare, and the context that owns it gets a record in its trap ring; no
warp stops. A granule whose bytes have been moved away already is only recorded. -/
def State.retire (s : State) (g : Nat) (bytesLost : Bool) : State :=
  let src := unremap s.remaps g
  if s.retired.contains g ∨ s.remapRoom = false then s
  else if src = g ∧ ((sget s.remaps g).getD g) ≠ g then { s.lifeAdd 0x30 1 with retired := g :: s.retired }
  else
    let d := spareGranule s.retired.length
    let s1 := (s.moveGranule g d).lifeAdd 0x30 1
    let s2 := { s1 with remaps := sput s1.remaps src d, retired := g :: s1.retired }
    match s2.ownerOf src with
    | none => s2
    | some (ctx, va) => s2.queueTrap ctx (s2.warplessRecord ctx 0x30 (if bytesLost then 1 else 0) 0 va) none

/-- The lifetime index of an error by where it lies: core stores, vaults or HBM (R346). -/
def errorIndex (base key : Nat) : Nat :=
  if isScratch key then base else if 0x6000000000 ≤ addrOf key then base + 1 else base + 2

/-- CORRECTED_ERROR (R297): the eighth of a granule retires it. -/
def correctedError (addr : Nat) (s : State) : State :=
  let s1 := s.lifeAdd (errorIndex 0 addr) 1
  if spaceOf addr = 0 then
    let g := addr / 4096
    let n := zget 0 s1.ecc g + 1
    let s2 := { s1 with ecc := zput 0 s1.ecc g n }
    if 8 ≤ n then s2.retire g false else s2
  else s1

/-- CORRECTED_ERROR. -/
def execCorrectedError (addr : Nat) (s : State) : Out := event (correctedError addr) s

/-- UNCORRECTABLE_ERROR (R156, R297): the word is poisoned and its granule is retired. -/
def uncorrectable (addr : Nat) (s : State) : State :=
  let s1 := { s with poison := sput s.poison (poisonKey addr) true }.lifeAdd (errorIndex 4 addr) 1
  if spaceOf addr = 0 then s1.retire (addr / 4096) true else s1

/-- UNCORRECTABLE_ERROR. -/
def execUncorrectableError (addr : Nat) (s : State) : Out := event (uncorrectable addr) s

end Sys2Proof.Machine
end

