-- ==== Sys2Proof/Machine/Tenancy.lean ====
section
/-! DEFINITION. Stands, virtual functions, world switches, counters, the guest's context switch, dirty logging and live
remaps (25_tenancy R298 to R311), and the freeze of a master (31_platform R343). -/

namespace Sys2Proof.Machine

/-! ### Owner-only state (R343) -/

/-- Freezes a master (R343). -/
def State.freezeMaster (s : State) (master : Nat) : State := { s with frozen := s.frozen ||| bitW master }

/-- Unfreezes a master, at its own reset (R343). -/
def State.unfreeze (s : State) (master : Nat) : State := { s with frozen := s.frozen &&& ~~~(bitW master) }

/-- A write to owner-only state: a frozen master's is dropped; a master that is not the owner is frozen and its write
dropped (R343). -/
def State.asOwner (s : State) (master : Nat) (f : State → State) : State :=
  if s.isFrozen master then s
  else if s.owner = master ∧ master ≠ 0 then f s
  else s.freezeMaster master

/-! ### Stand configuration (R298 to R300) -/

/-- The STDCTL word of a stand as it reads (R299). -/
def Stand.ctlWord (st : Stand) : Nat := st.err * 2 ^ 12 + st.state * 2 ^ 8 + st.vsplit * 2

/-- The 256 bytes of a stand's block. -/
def Stand.block (st : Stand) : List Byte :=
  bytesOf 8 st.pairs.toNat ++ bytesOf 4 st.hbm.toNat ++ bytesOf 4 st.link.toNat ++ bytesOf 4 st.ctlWord ++
    bytesOf 4 st.slice.toNat ++ bytesOf 232 0

/-- The other stands that hold resources. -/
def State.otherStands (s : State) (n : Nat) : List Stand :=
  (s.stands.filter (fun e => e.1 != n && decide (e.1 < 12) && e.2.state != 0)).map (·.2)

/-- The VFs bound to a stand, ascending. -/
def State.bound (s : State) (n : Nat) : List Nat := (s.vfs.filter (fun e => e.2.stand == n)).map (·.1)

/-- HXLINKS of a STDLINK word. -/
def hxLinks (w : Word) : Nat := field w.toNat 16 12

/-- Share of a host port of a STDLINK word. -/
def portShare (w : Word) (port : Nat) : Nat := field w.toNat (8 * port) 6

/-- The result of the checks of an APPLY, in the order of the ERR codes (R299, R300). A stand with STDPAIRS = 0 needs no
core pair and no channel set. -/
def State.applyErr (s : State) (n : Nat) : Nat :=
  let st := s.stand n
  let others := s.otherStands n
  let shares (port : Nat) : Nat := (others.map (fun o => portShare o.flink port)).foldl (· + ·) (portShare st.link port)
  if others.any (fun o => o.fpairs &&& st.pairs != 0 || o.fhbm &&& st.hbm != 0 || hxLinks o.flink &&& hxLinks st.link != 0) then 1
  else if st.pairs ≠ 0 ∧ st.hbm = 0 then 2
  else if 64 < shares 0 ∨ 64 < shares 1 then 3
  else if (s.bound n).any (fun v => (s.vf v).state != 0) then 4
  else if st.slice.toNat < 100 ∨ 1000000 < st.slice.toNat then 5
  else 0

/-- The lines of a stand's home-cache slices are written back: memory holds them. They are the lines of its device memory, and of
host memory those of the functions bound to it. -/
def State.writeBackLines (s : State) (n : Nat) : State :=
  let st := s.stand n
  { s with dirty := s.dirty.filter (fun e =>
      !(if spaceOf e.1 = 0 then st.holds (addrOf e.1) else s.standOf e.2 == n)) }

/-- An APPLY of a stand's block (R300): a failure leaves the configuration in force and writes ERR; else STATE is 1, and the block
is the one measurement 4 is to cover (R344). -/
def State.applyStand (s : State) (n : Nat) : State :=
  let st := s.stand n
  let e := s.applyErr n
  if e ≠ 0 then s.setStand n { st with err := e }
  else
    let st1 : Stand := { st with err := 0, state := if st.pairs = 0 then 0 else 2 }
    (s.writeBackLines n).setStand n
      { st with err := 0, state := 1, fpairs := st.pairs, fhbm := st.hbm, flink := st.link, fsplit := st.vsplit,
                fslice := st.slice.toNat, applying := st1.block }

/-- APPLY: an STDCTL write with APPLY set. Outside the window no register answers until the firmware runs (R340). -/
def applyStep (master n : Nat) (s : State) : State :=
  if s.fwState = 1 then s.asOwner master (fun s => if n < 12 then s.applyStand n else s) else s

/-- APPLY. -/
def execApply (master stand : Nat) (s : State) : Out := event (applyStep master stand) s

/-- Drops the carve-out copies of some cores. -/
def State.dropCarves (s : State) (cores : List Nat) : State :=
  { s with carve := s.carve.filter (fun e => !cores.contains (e.1 / 2 ^ 64)) }

/-! ### The guest's context switch (R307, R308) -/

/-- STATUS of a CTXSW register. -/
def ctxswStatus (x : DWord) : Nat := field x.toNat 4 4

/-- CTXSW with INCTX and OUTCTX of a register and a FAIL and a STATUS. -/
def ctxswWord (x : DWord) (fail status : Nat) : DWord :=
  BitVec.ofNat 64 (field x.toNat 32 32 * 2 ^ 32 + fail * 2 ^ 8 + status * 2 ^ 4)

/-- Sets FAIL and STATUS of a VF's CTXSW. -/
def State.ctxswSet (s : State) (v fail status : Nat) : State :=
  let x := s.vf v
  s.setVf v { x with ctxsw := ctxswWord x.ctxsw fail status }

/-- The context of a VF with a context number (R307, R314). -/
def State.ctxOf (s : State) (v num : Nat) : Option Nat :=
  ((List.range 16).map (fun i => 16 * v + i)).find? (fun c =>
    (s.context c).cxnum.getLsbD 31 && decide (s.ctxNum c = num))

/-- A context named by CTXSW: none named, or the context, or none of the VF's. -/
def State.ctxNamed (s : State) (v num : Nat) : Option (Option Nat) :=
  if num = 0xFFFF then some none else (s.ctxOf v num).map some

/-- The FAIL checks of a command, made before its ladder begins (R307). -/
def State.ctxswFail (s : State) (v : Nat) : Nat :=
  let x := (s.vf v).ctxsw.toNat
  match s.ctxNamed v (field x 32 16), s.ctxNamed v (field x 48 16) with
  | some o, some i =>
    let resident := match o with
      | some c => (s.context c).en && !(s.context c).saved && !(s.context c).lost
      | none => true
    let saved := match i with
      | some c => (s.context c).saved
      | none => true
    if resident = false then 1 else if saved = false then 2 else 0
  | _, _ => 3

/-- CTXSW_BEGIN: a command of a running VF begins: STATUS 2 and the ladder on OUTCTX, or STATUS 4 (R307). -/
def State.ctxswBegin (s : State) (v : Nat) : State :=
  let f := s.ctxswFail v
  if f ≠ 0 then s.ctxswSet v f 4
  else
    let x := s.vf v
    let s1 := s.ctxswSet v 0 2
    match s.ctxOf v (field x.ctxsw.toNat 32 16) with
    | some c =>
      if field x.ctxsw.toNat 32 16 = 0xFFFF then s1 else s1.preempt c (BitVec.allOnes 64) x.d1.toNat x.d2.toNat 0
    | none => s1

/-- CTXSW: a write of the register (R307). A write without GO while a command is pending or in progress changes nothing. -/
def ctxswWrite (v : Nat) (val : BitVec 64) (s : State) : State :=
  let x := s.vf v
  if ctxswStatus x.ctxsw = 1 ∨ ctxswStatus x.ctxsw = 2 then s
  else if val.getLsbD 0 then
    let s1 := s.setVf v { x with ctxsw := ctxswWord val 0 1 }
    if x.state = 2 then s1.ctxswBegin v else s1
  else s.setVf v { x with ctxsw := ctxswWord val (field x.ctxsw.toNat 8 4) (ctxswStatus x.ctxsw) }

/-- CTXSW. -/
def execCtxsw (vf : Nat) (val : BitVec 64) (s : State) : Out := event (fun s => s.asked vf (ctxswWrite vf val)) s

/-! ### World switches (R301, R303) -/

/-- The contexts of a function whose blocks are listed. -/
def State.contextsOf (s : State) (fn : Nat) : List Nat := (s.contexts.filter (fun e => ctxFn e.1 == fn)).map (·.1)

/-- Step 1 of a switch out: VFSTATE 3 and the ladder on every core pair for every context of the VF: each that is enabled or has
a grove still (R303). -/
def State.switchBegin (s : State) (n v : Nat) : State :=
  let x := s.vf v
  let all := (s.stand n).fpairs
  (s.contextsOf v).foldl (fun s0 ctx =>
    let s := s0.unclaim ctx
    let c := s.context ctx
    if s.liveContexts.contains ctx then
      let held : BitVec 64 := c.savedPairs ||| (match c.ladder with
        | some l => l.pairs
        | none => 0)
      (s.setContext ctx { c with worldPairs := all &&& ~~~held }).preempt ctx all x.d1.toNat x.d2.toNat 1
    else s) (s.setVf v { x with state := 3 })

/-- A switch out is asked for: while the guest's command is in progress it is held (R308). -/
def State.switchAsk (s : State) (n v : Nat) (stop : Bool) : State :=
  let s1 := s.setStand n { s.stand n with switching := some stop }
  if ctxswStatus (s.vf v).ctxsw = 2 then s1 else s1.switchBegin n v

/-- The VF a stand runs next: the ready VF that follows `last` in ascending order, round robin (R303). -/
def State.nextVf (s : State) (n last : Nat) : Option Nat :=
  let ready := (s.bound n).filter (fun v => (s.vf v).state == 1)
  match ready.find? (fun v => decide (last < v)) with
  | some v => some v
  | none => ready.head?

/-- The next VF of a stand is resumed and becomes running; its slice begins and a pending guest command begins (R303, R306,
R307). -/
def State.startNext (s : State) (n last : Nat) : State :=
  match s.nextVf n last with
  | none => s
  | some v =>
    let st := s.stand n
    let s1 := (s.setStand n { st with running := some v, sliceEnd := s.time + usTime st.fslice, switching := none }).setVf v
      { s.vf v with state := 2 }
    let s2 := (s1.contextsOf v).foldl (fun s ctx =>
      let c := s.context ctx
      let m := c.resumePairs ||| c.worldPairs
      if m = 0 then s else s.resumeOn ctx m) s1
    let s3 := s2.count v 8 1
    if ctxswStatus (s3.vf v).ctxsw = 1 then s3.ctxswBegin v else s3

/-- APPLY_COMPLETION: the home-cache slices have been written back; STATE becomes 2, or 0 for a stand with no core pair
(R300); the block applied is the one measurement 4 covers (R344), and a VF made ready meanwhile runs (R301). -/
def applyDone (n : Nat) (s : State) : State :=
  let st := s.stand n
  if st.state = 1 then
    let s1 := (s.writeBackLines n).setStand n { st with state := if st.fpairs = 0 then 0 else 2, applied := st.applying }
    if st.fpairs ≠ 0 ∧ st.running.isNone then s1.startNext n 0 else s1
  else s

/-- APPLY_COMPLETION. -/
def execApplyCompletion (stand : Nat) (s : State) : Out := event (applyDone stand) s

/-- VF_READY: a stopped VF, bound to a stand that is not disabled, becomes ready; an idle stand that is enabled runs it (R301,
R303). -/
def vfReady (v : Nat) (s : State) : State :=
  let x := s.vf v
  let st := s.stand x.stand
  if x.state = 0 ∧ x.stand < 12 ∧ st.state ≠ 0 then
    let s1 := s.setVf v { x with state := 1 }
    if st.running.isNone ∧ st.state = 2 then s1.startNext x.stand 0 else s1
  else s

/-- VF_READY. -/
def execVfReady (vf : Nat) (s : State) : Out := event (fun s => s.asked 0 (vfReady vf)) s

/-- VF_STOP: a running VF is switched out and left stopped; one that is not running stops at once (R301, R303). -/
def vfStop (v : Nat) (s : State) : State :=
  let x := s.vf v
  let st := s.stand x.stand
  match x.state with
  | 1 => s.setVf v { x with state := 0 }
  | 2 => if st.switching.isSome then s.setStand x.stand { st with switching := some true } else s.switchAsk x.stand v true
  | 3 => s.setStand x.stand { st with switching := some true }
  | _ => s

/-- VF_STOP. -/
def execVfStop (vf : Nat) (s : State) : Out := event (fun s => s.asked 0 (vfStop vf)) s

/-- SLICE_EXPIRY: the slice has passed and another VF is ready (R303). -/
def sliceExpiry (n : Nat) (s : State) : State :=
  let st := s.stand n
  match st.running with
  | none => s
  | some v =>
    if st.sliceEnd ≤ s.time ∧ st.switching.isNone ∧ (s.nextVf n v).isSome ∧ (s.vf v).state = 2 then s.switchAsk n v false else s

/-- SLICE_EXPIRY. -/
def execSliceExpiry (stand : Nat) (s : State) : Out := event (sliceExpiry stand) s

/-- Nothing of a VF is on its way to memory: no ladder of it runs, and no store, capsule step, delivery or away message is under
way (R303, R310). -/
def State.vfQuiet (s : State) (v : Nat) : Bool :=
  let mine (w : Nat) : Bool := ((sget s.warps w).map (fun W => ctxFn W.ctx == v)).getD false
  (s.contextsOf v).all (fun c => (s.context c).ladder.isNone) && !s.regq.any (fun e => e.2.tag == v) &&
    !s.steps.any (fun e => mine e.2.warp) && !s.deliveries.any (fun e => ctxFn e.2.ctx == v) &&
    !s.warps.any (fun e => ctxFn e.2.ctx == v && e.2.away == 1)

/-- SWITCH_OUT_COMPLETION: nothing of the VF is on its way to memory; the carve-outs are invalidated, and the next VF runs
(R303, R310). -/
def switchOutDone (n : Nat) (s : State) : State :=
  let st := s.stand n
  match st.running, st.switching with
  | some v, some stop =>
    if (s.vf v).state = 3 ∧ s.vfQuiet v = true then
      let s1 := ((s.dropCarves st.cores).setVf v { s.vf v with state := if stop then 0 else 1 }).setStand n
        { st with running := none, switching := none }
      s1.startNext n v
    else s
  | _, _ => s

/-- SWITCH_OUT_COMPLETION. -/
def execSwitchOutCompletion (stand : Nat) (s : State) : Out := event (switchOutDone stand) s

/-- CTXSW_COMPLETION: OUTCTX is saved and INCTX comes back, once its places are free; a switch out that was held begins (R307,
R308). -/
def ctxswDone (v : Nat) (s : State) : State :=
  let x := s.vf v
  let outc := field x.ctxsw.toNat 32 16
  let inc := field x.ctxsw.toNat 48 16
  let busy := match s.ctxNamed v outc with
    | some (some c) => (s.context c).ladder.isSome
    | _ => false
  if ctxswStatus x.ctxsw ≠ 2 ∨ busy = true then s
  else
    let done (s : State) : State :=
      match (s.stand x.stand).switching with
      | some _ => s.switchBegin x.stand v
      | none => s
    match s.ctxNamed v inc with
    | some (some c) =>
      if (s.context c).lost then done (s.ctxswSet v 4 4)
      else
        let s1 := if (s.context c).savedPairs = 0 then s else s.resume c
        if (s1.context c).savedPairs = 0 then done (s1.ctxswSet v 0 3) else s1
    | _ => done (s.ctxswSet v 0 3)

/-- CTXSW_COMPLETION. -/
def execCtxswCompletion (vf : Nat) (s : State) : Out := event (ctxswDone vf) s

/-! ### Function-level reset (R305) -/

/-- Discards a context of a function, its completion words unwritten (R305). -/
def State.dropContext (s : State) (ctx : Nat) : State :=
  let gs := (s.groves.filter (fun e => e.2.ctx == ctx)).map (·.1)
  let s1 := gs.foldl (fun s g => s.discardGrove g) s
  { s1 with
    warps := s1.warps.filter (fun e => !(e.2.ctx == ctx))
    blocks := s1.blocks.filter (fun e => !(e.2.ctx == ctx))
    groves := s1.groves.filter (fun e => !(e.2.ctx == ctx))
    trails := s1.trails.filter (fun e => !gs.contains e.2.grove)
    subs := s1.subs.filter (fun e => !(e.2.ctx == ctx))
    tags := s1.tags.filter (fun e => !(e.2.ctx == ctx))
    denials := s1.denials.filter (fun e => !(e.2.ctx == ctx))
    deliveries := s1.deliveries.filter (fun e => !(e.2.ctx == ctx))
    tlb := s1.tlb.filter (fun t => !(t.ctx == ctx))
    ats := s1.ats.filter (fun e => !(e.ctx == ctx))
    atsReq := s1.atsReq.filter (fun e => !(e.1 == ctx))
    requests := s1.requests.filter (fun e => !(e.2.ctx == ctx))
    contexts := sdel s1.contexts ctx }

/-- Invalidates the home-cache lines and registry entries of a tag without writing them back: what memory holds of their
bytes is a free value (R9, R305). -/
def State.dropLines (s : State) (tag : Nat) : State :=
  let keys := (s.dirty.filter (fun e => e.2 == tag)).map (·.1)
  let cells := keys.zipIdx.map (fun e => (e.1, Config.freeByte (s.fresh + e.2)))
  { s with
    mem := memPuts s.mem cells
    dirty := s.dirty.filter (fun e => !(e.2 == tag))
    owners := s.owners.filter (fun e => !(e.2.2 == tag))
    regq := s.regq.filter (fun e => !(e.2.tag == tag))
    fresh := s.fresh + keys.length }

/-- The counters of a function are zeroed (R305). -/
def State.zeroCounters (s : State) (fn : Nat) : State :=
  { s with counters := smod s.counters fn (fun c => { c with cnt := List.replicate 8 0, pend := 0 }) }

/-- The reset of a VF's own part: its state, its logging, its place on its stand (R305). -/
def State.resetVf (s : State) (v : Nat) : State :=
  let x := s.vf v
  let st := s.stand x.stand
  let on := st.running == some v
  let s1 := s.setVf v { x with state := 0, dlctl := x.dlctl &&& ~~~5, logged := [], ctxsw := VFn.reset.ctxsw }
  if on then
    ((s1.dropCarves st.cores).setStand x.stand { st with running := none, switching := none }).startNext x.stand v
  else s1

/-- A reset of the owner's function takes the window from it, and a frozen master is free again (R342, R343). -/
def State.resetMaster (s : State) (master : Nat) : State :=
  let s1 := s.unfreeze master
  if s1.owner = master then { s1 with owner := 0, hand := 0 } else s1

/-- Steps 3 to 5 of the reset of a VF that is resetting (R305). -/
def vfResetEnds (v : Nat) (s : State) : State :=
  if (s.vf v).state = 4 then ((s.dropLines v).zeroCounters v).resetVf v else s

/-- FUNCTION_LEVEL_RESET of the PF or a VF (R305, R342, R343). A VF's takes two steps: VFSTATE 4 and its contexts discarded; then,
at the next such event or by itself, the rest. -/
def functionReset (fn : Nat) (s : State) : State :=
  if fn ≠ 0 ∧ (s.vf fn).state = 4 then vfResetEnds fn s
  else
    let s1 := (s.contextsOf fn).foldl (fun s c => s.dropContext c) s
    if fn = 0 then ((s1.dropLines 0).zeroCounters 0).resetMaster 1 else s1.setVf fn { s1.vf fn with state := 4 }

/-- FUNCTION_LEVEL_RESET. -/
def execFunctionLevelReset (fn : Nat) (s : State) : Out := event (functionReset fn) s

/-! ### Dirty logging (R309, R310) -/

/-- A write of DLCTL (R309): enabling clears the logged bits, DLPROD and OVF; REARM begins. Bit 2 of the stored register
marks a REARM that is not done. -/
def State.dlctlWrite (s : State) (v : Nat) (val : BitVec 32) : State :=
  let x := s.vf v
  let starts := val.getLsbD 0 && !x.dlctl.getLsbD 0
  let ovf := x.dlctl.getLsbD 1 && !val.getLsbD 1 && !starts
  let rearm := val.getLsbD 2
  let keep : Word := if rearm then 0 else x.dlctl &&& 0xC
  let w : Word := (val &&& 0xF001) ||| (if ovf then 2 else 0) ||| keep ||| (if rearm then 4 else 0)
  s.setVf v { x with dlctl := w, logged := if starts then [] else x.logged, dlprod := if starts then 0 else x.dlprod }

/-- DLCTL_EN. -/
def execDlctlEn (vf : Nat) (val : BitVec 32) (s : State) : Out := event (fun s => s.asked 0 (fun s => s.dlctlWrite vf val)) s

/-- DLCTL_REARM: a REARM begins; REARMED is clear until it has completed (R309). -/
def rearmBegin (v : Nat) (s : State) : State :=
  let x := s.vf v
  s.setVf v { x with dlctl := (x.dlctl &&& ~~~8) ||| 4 }

/-- DLCTL_REARM. -/
def execDlctlRearm (vf : Nat) (s : State) : Out := event (fun s => s.asked 0 (rearmBegin vf)) s

/-- REARM_COMPLETION: every logged bit is clear and REARMED is set (R309). -/
def rearmDone (v : Nat) (s : State) : State :=
  let x := s.vf v
  if x.dlctl.getLsbD 2 then s.setVf v { x with dlctl := (x.dlctl &&& ~~~4) ||| 8, logged := [] } else s

/-- REARM_COMPLETION. -/
def execRearmCompletion (vf : Nat) (s : State) : Out := event (rearmDone vf) s

/-! ### Live remap (R302, R311) -/

/-- A granule of a stand is free: no aperture table of its VFs names it, and no remap has put a granule there (R302). -/
def State.isFreeGranule (s : State) (n g : Nat) : Bool :=
  (s.stand n).holds (g * 4096) && !s.remaps.any (fun e => e.2 == g) && !s.retired.contains g &&
    (s.bound n).all (fun v => (apertureFind s (s.vf v).apbase.toNat g (s.vf v).apsize.toNat).isNone)

/-- The granule a VF's REMAPSRC names, as it lies now. -/
def State.remapSource (s : State) (v : Nat) : Option Nat := (s.devAddr v (s.vf v).remapsrc.toNat).map (· / 4096)

/-- The error code of a remap (R301). -/
def State.remapErr (s : State) (v : Nat) : Nat :=
  let x := s.vf v
  if s.isFreeGranule x.stand (x.remapdst.toNat / 4096) = false then 1
  else
    match s.remapSource v with
    | none => 2
    | some g => if (sget s.remaps (unremap s.remaps g)).isNone ∧ s.remapRoom = false then 3 else 0

/-- REMAP_GO: a remap begins and new accesses to the granule are held, unless the VF is switched out (R311). Bit 0 of the
stored register marks a remap that is not done. -/
def remapGo (v : Nat) (s : State) : State :=
  let x := s.vf v
  if x.remapctl.getLsbD 0 then s
  else
    let e := s.remapErr v
    if e ≠ 0 then s.setVf v { x with remapctl := BitVec.ofNat 32 (e * 16) }
    else
      let s1 := s.setVf v { x with remapctl := 1 }
      match s.remapSource v with
      | some g => if x.state = 2 ∨ x.state = 3 then { s1 with held := g :: s1.held } else s1
      | none => s1

/-- REMAP_GO. -/
def execRemapGo (vf : Nat) (s : State) : Out := event (fun s => s.asked 0 (remapGo vf)) s

/-- REMAP_COMPLETION: the granule has been copied, its remap is in force, the held accesses go on and DONE is set (R302,
R311). -/
def remapDone (v : Nat) (s : State) : State :=
  let x := s.vf v
  if x.remapctl.getLsbD 0 then
    match s.remapSource v with
    | none => s.setVf v { x with remapctl := 0x20 }
    | some g =>
      let d := x.remapdst.toNat / 4096
      let s1 := s.moveGranule g d
      { s1 with
        remaps := sput s1.remaps (unremap s1.remaps g) d
        held := s1.held.filter (· != g) }.setVf v { x with remapctl := 2 }
  else s

/-- REMAP_COMPLETION. -/
def execRemapCompletion (vf : Nat) (s : State) : Out := event (remapDone vf) s

/-! ### Counters (R306) -/

/-- CYCLE_COUNT_WRAP: a counter of cycles or beats has wrapped: its PMOVF bit is set and its interrupt raised (R306). -/
def cycleWrap (fn i : Nat) (s : State) : State :=
  if (s.counter fn).pend.getLsbD i then s.overflow fn (bitW i) else s

/-- CYCLE_COUNT_WRAP. -/
def execCycleCountWrap (fn i : Nat) (s : State) : Out := event (cycleWrap fn i) s

end Sys2Proof.Machine
end

