-- ==== Sys2Proof/Machine/Links.lean ====
section
/-! DEFINITION. Launches, host accesses through BAR4, and the Horxus links: flits, replay, retraining, remote requests, and
a link that goes down (27_links R313, R315, R320 to R324). -/

namespace Sys2Proof.Machine

/-! ### Launch and BAR4 (R313, R315) -/

/-- LAUNCH: the grove record's address is submitted; a write while EN is clear is dropped (R315). -/
def launch (ctx : Nat) (addr : DWord) (s : State) : State :=
  if (s.context ctx).en then
    { s with subs := sput s.subs s.nextId { ctx := ctx, addr := addr }, nextId := s.nextId + 1 }
  else s

/-- LAUNCH: what the host has written in its memory before it is there, for every block of the grove (R316); then the write. -/
def execLaunch (ctx : Nat) (call : BitVec 64 × List (Nat × BitVec 8)) (s : State) : Out :=
  event (fun s => (s.hostWrites call.2).asked (ctxFn ctx) (launch ctx call.1)) s

/-- Bytes of device memory of a stand. -/
def Stand.bytes (st : Stand) : Nat := (onesBelow 32 st.fhbm.toNat).length * channelBytes + st.cores.length * st.vaultBytes

/-- Device-physical address of an offset in a stand's device memory: its channel sets ascending, then its vault memory (R313). -/
def Stand.place (st : Stand) (off : Nat) : Nat :=
  let sets := onesBelow 32 st.fhbm.toNat
  if off < sets.length * channelBytes then
    ((sets[off / channelBytes]?).getD 0) * channelBytes + off % channelBytes
  else
    let o := off - sets.length * channelBytes
    vaultBase ((st.cores[o / st.vaultBytes]?).getD 128) + o % st.vaultBytes

/-- Device-physical address of an offset of the PF's BAR4: the memory of the PF's stand first, as R313 lays it out, and then, in the
same layout, that of the other stands ascending, through which the hypervisor writes the aperture tables of their VFs (R302;
assumption 95). -/
def State.pfOffset (s : State) (off : Nat) : Option Nat :=
  ((List.range 12).foldl (fun (r : Nat × Option Nat) n =>
    if r.2.isSome then r
    else
      let st := s.stand n
      if r.1 < st.bytes then (0, some (st.place r.1)) else (r.1 - st.bytes, none)) (off, none)).2

/-- The key of a byte a function's BAR4 presents; none beyond its device memory (R302, R313). -/
def State.barKey (s : State) (fn off : Nat) : Option Nat :=
  (if fn = 0 then (s.pfOffset off).map s.remapped else s.devAddr fn off).map (keyOf 0)

/-- A write of an aperture table's entry frees the remap entries of the granules of the chunk it named (R302). The table stands
where the remap table has put it. -/
def State.freeRemaps (s : State) (key : Nat) : State :=
  let a := unremap s.remaps (key / 4096) * 4096 + key % 4096
  let hit := s.vfs.filter (fun e => decide (e.2.apbase.toNat ≤ a) && decide (a < e.2.apbase.toNat + 8 * e.2.apsize.toNat))
  let chunks := hit.map (fun e => s.num (keyOf 0 (key - (a - e.2.apbase.toNat) % 8)) 8 / 2 ^ 21 % 2 ^ 31)
  if chunks.isEmpty then s else { s with remaps := s.remaps.filter (fun e => !chunks.contains (e.1 / 512)) }

/-- BAR4_ACCESS: an ordinary access of the function at the home slice, of any number of bytes (R304, R313). A read's answer goes
to the host; a place that is not there reads as all ones and takes no write. The hits and misses it counts are free (R306). -/
def bar4 (fn off size : Nat) (write : Bool) (data : List Byte) (s0 : State) : State :=
  if s0.fwState ≠ 1 then s0
  else
    let n := s0.fresh
    let s := ({ s0 with fresh := n + 2 }.count fn 3 (Config.freeWord n).toNat).count fn 4 (Config.freeWord (n + 1)).toNat
    if write then
      let cells : List (Nat × Byte) := (data.take size).zipIdx.filterMap (fun e => (s.barKey fn (off + e.2)).map (fun k => (k, e.1)))
      let s1 := if fn = 0 then cells.foldl (fun s e => s.freeRemaps (addrOf e.1)) s else s
      let whole (w : Nat) : Bool := (List.range 4).all (fun i => cells.any (fun e => e.1 == 4 * w + i))
      { s1 with poison := s1.poison.filter (fun e => !whole e.1) }.homeWrite fn cells
    else
      s.send (.data fn ((List.range size).map (fun i => match s.barKey fn (off + i) with
        | some k => s.byte k
        | none => 255)))

/-- BAR4_ACCESS. -/
def execBar4Access (fn off size : Nat) (write : Bool) (data : List (BitVec 8)) (s : State) : Out :=
  event (bar4 fn off size write data) s

/-! ### Requests of peers (R320, R322) -/

/-- The reply to a request. -/
def Packet.reply (p : Packet) (cls detail data : Nat) : Packet :=
  { kind := 4, size := p.size, fn := cls, type := detail, tag := p.tag, addr := 0, data := data, other := 0 }

/-- REMOTE_REQUEST: a peer's request is checked against the export window and performed at home with HXTAG (R188, R322).
An address outside the window is a permission fault at the requester. -/
def State.remoteRequest (s : State) (x : Link) (p : Packet) : State × Packet :=
  let n := min p.size 32
  let ok := decide (x.expbase.toNat ≤ p.addr) && decide (p.addr + n ≤ x.explim.toNat)
  let tag := field x.tag.toNat 0 8
  let key := keyOf 0 (s.remapped p.addr)
  let write (s : State) (v : Nat) : State :=
    { s with poison := clearPoison s.poison key n }.homeWrite tag ((bytesOf n v).zipIdx.map (fun (e : Byte × Nat) => (key + e.2, e.1)))
  if ok = false then (s, p.reply 7 (if p.kind = 1 then 0 else 1) 0)
  else if p.kind = 1 then
    if s.poisoned key n then (s, p.reply 8 0 0) else (s, p.reply 0 0 (s.num key n))
  else if p.kind = 3 then
    if s.poisoned key n then (s, p.reply 8 0 0)
    else
      let old := s.num key n
      (write s (atomNew p.fn p.type old p.data p.other), p.reply 0 0 old)
  else if s.poisonPart key n then (s, p.reply 8 0 0)
  else (write s p.data, p.reply 0 0 0)

/-- A reply of a peer answers the request of its tag (R322). -/
def State.takeReply (s : State) (k : Nat) (p : Packet) : State :=
  match sget s.requests p.tag with
  | some r =>
    if r.link = k ∧ r.answer = none ∧ r.lost = false then s.answer p.tag r p.fn (if p.fn = 0 then 0 else p.type) p.data else s
  | none => s

/-- The messages of a flit are delivered in order; the replies to its requests (R320). -/
def State.deliverPackets (s : State) (k : Nat) : List Packet → State × List Packet
  | [] => (s, [])
  | p :: r =>
    let x := s.link k
    if p.kind = 5 then (s.remoteArrive x.peer p).deliverPackets k r
    else if p.kind = 4 then (s.takeReply k p).deliverPackets k r
    else
      let (s1, a) := s.remoteRequest x p
      let (s2, l) := s1.deliverPackets k r
      (s2, a :: l)

/-- FLIT_RECEIPT: a whole flit with the expected sequence is delivered and acknowledged, and what it acknowledges leaves the
replay buffer, which makes room for what waits; any other is answered by a negative acknowledgement (R320). -/
def flitReceipt (k : Nat) (flit : List Byte) (s : State) : State :=
  let x := s.link k
  if x.phase ≠ 2 then s
  else
    let head := numOf (flit.take 8)
    if flitGood flit = false ∨ field head 0 12 ≠ x.recvSeq.toNat then s.send (.nak k x.recvSeq.toNat)
    else
      let acked : BitVec 12 := BitVec.ofNat 12 (field head 12 12)
      let keep := match x.replay.findIdx? (fun e => e.1 == acked) with
        | some i => x.replay.drop (i + 1)
        | none => x.replay
      let x1 := { x with recvSeq := x.recvSeq + 1, replay := keep
                         failed := if keep.length = x.replay.length then x.failed else 0 }
      let (s1, replies) := ((s.setLink k x1).count 0 17 1).deliverPackets k (flitPackets flit)
      ((s1.sendFlit k replies).flushLink k x.waiting.length).send (.ack k (field head 0 12))

/-- FLIT_RECEIPT. -/
def execFlitReceipt (link : Nat) (flit : List Byte) (s : State) : Out := event (flitReceipt link flit) s

/-! ### Replay, retraining, going down (R320, R323) -/

/-- A link begins to retrain: at most 10 ms, counted in HXSTAT, in event 19 and in the lifetime record (R320, R321, R346). -/
def State.retrainLink (s : State) (k : Nat) : State :=
  let x := s.link k
  let n := (field x.stat.toNat 16 16 + 1) % 2 ^ 16
  let x1 := { x with stat := BitVec.ofNat 32 (n * 2 ^ 16 + x.peer * 2 ^ 8 + 1), failed := 0, retrain := some (s.time + usTime 10000) }
  ((s.setLink k x1).count 0 19 1).lifeAdd (0x20 + k) 1

/-- Sends again the flits of a link's replay buffer, and then what waits for room there (R320, R306 event 18). -/
def State.replay (s : State) (k : Nat) : State :=
  let x := s.link k
  ((x.replay.foldl (fun s e => s.send (.flit k e.2)) s).count 0 18 x.replay.length).flushLink k x.waiting.length

/-- NEGATIVE_ACKNOWLEDGEMENT: the sender replays from the named flit, the flits before it having arrived; eight failed replays of one flit make the link
retrain, after which it replays from there (R320). -/
def negativeAck (k seq : Nat) (s : State) : State :=
  let x := s.link k
  let rest := x.replay.dropWhile (fun e => e.1 != BitVec.ofNat 12 seq)
  let tries := if rest.length = x.replay.length then x.failed else 0
  if x.phase ≠ 2 ∨ rest.isEmpty then s
  else if 8 ≤ tries then (s.setLink k { x with replay := rest }).retrainLink k
  else (s.setLink k { x with replay := rest, failed := tries + 1 }).replay k

/-- NEGATIVE_ACKNOWLEDGEMENT. -/
def execNegativeAcknowledgement (link seq : Nat) (s : State) : Out := event (negativeAck link seq) s

/-- The requests in flight on a link (R323). -/
def State.onLink (s : State) (k : Nat) : List (Nat × Request) :=
  s.requests.filter (fun e => e.2.link == k && e.2.answer.isNone && !e.2.lost)

/-- A barrier of a device group whose phase waits, and for one of whose members' packets a link is the path (R324). -/
def State.onPath (s : State) (k : Nat) (b : Barrier) : Bool :=
  match s.groupBarrier b with
  | some (_, _, ctx, _) =>
    !(b.arrived.isEmpty && b.packets.isEmpty) &&
      ((if s.rootDevice ctx = s.ownDevice then s.groupDevices ctx else [s.rootDevice ctx]).filter (· != s.ownDevice)).any (fun d =>
        s.groupLink ctx d == some k)
  | none => false

/-- The phases that a link's going down leaves waiting for good (R324). -/
def State.breakPhases (s : State) (k : Nat) : State :=
  { s with barriers := s.barriers.map (fun (e : Nat × Barrier) => if s.onPath k e.2 then (e.1, { e.2 with broken := true }) else e) }

/-- A link goes down: each load, atomic and fill row in flight on it is answered by a poison fault; each store, RED and
drain row is reported once for each granule in its context's trap ring, and is complete once that entry is written (R323). A phase of a device group that waits on it completes no further (R324). -/
def State.dropLink (s : State) (k : Nat) : State :=
  let x := s.link k
  if x.phase = 0 then s
  else
    let l := s.onLink k
    let told (e : Nat × DWord) : Bool := s.requests.any (fun r => r.2.lost && r.2.ctx == e.1 && r.2.page == e.2)
    let spots : List (Nat × DWord) := (((l.filter (·.2.quiet)).map (fun e => (e.2.ctx, e.2.page))).eraseDups).filter (fun e => !told e)
    let s1 := spots.foldl (fun (s : State) e => s.queueTrap e.1 (s.warplessRecord e.1 8 0 0 e.2) none)
      ((s.breakPhases k).setLink k { x.withStat 0 x.peer with retrain := none, waiting := [] })
    l.foldl (fun (s : State) e =>
      if e.2.quiet then { s with requests := sput s.requests e.1 { e.2 with lost := true } } else s.answer e.1 e.2 8 0 0) s1

/-- The last step of a cold reset: once no link trains, the firmware runs, and the fused counter rises to the version that has
booted (R340). -/
def State.bootDone (s : State) : State :=
  if s.fwState = 0 ∧ s.fwBody ≠ [] ∧ s.links.all (fun e => e.2.phase != 1) = true then
    { s with fwState := 1, part := { s.part with svn := max s.part.svn s.fwVersion } }
  else s

/-- LINK_DOWN: also of a link that trains, which has then trained as far as it will (R323, R340; assumption 55). -/
def execLinkDown (link : Nat) (s : State) : Out := event (fun s => (s.dropLink link).bootDone) s

/-- RETRAIN_TIMEOUT: a retrain that has not finished within 10 ms takes the link down (R320). -/
def retrainTimeout (k : Nat) (s : State) : State :=
  match (s.link k).retrain with
  | some t => if t ≤ s.time then s.dropLink k else s
  | none => s

/-- RETRAIN_TIMEOUT. -/
def execRetrainTimeout (link : Nat) (s : State) : Out := event (retrainTimeout link) s

/-- LINK_TRAINING_COMPLETION: HXSTAT moves from training to up, or to peer mismatch (R321). A link that trains from down
begins its sequences anew; one that has retrained replays what its peer has not acknowledged (R320). -/
def trainingDone (k peer : Nat) (s : State) : State :=
  let x := s.link k
  if x.phase = 1 then
    let st := if field x.ctl.toNat 8 4 = peer % 16 then 2 else 3
    let x1 := { x.withStat st (peer % 16) with retrain := none }
    if x.retrain.isSome then
      let s1 := s.setLink k x1
      if st = 2 then s1.replay k else s1
    else s.setLink k { x1 with sendSeq := 0, recvSeq := 0, replay := [], failed := 0 }
  else s

/-- LINK_TRAINING_COMPLETION: the last one of a cold reset lets the firmware run (R340). -/
def execLinkTrainingCompletion (link peer : Nat) (s : State) : Out := event (fun s => (trainingDone link peer s).bootDone) s

/-- A write of HXCTL: setting the enable starts training, clearing it takes the link down (R321). -/
def State.hxctlWrite (s : State) (k : Nat) (val : Word) : State :=
  let x := s.link k
  let s1 := s.setLink k { x with ctl := val &&& 0xF01 }
  if val.getLsbD 0 then
    if x.phase = 0 then s1.setLink k { (s1.link k).withStat 1 x.peer with retrain := none } else s1
  else s1.dropLink k

end Sys2Proof.Machine
end

