-- ==== Sys2Proof/Machine/Sha.lean ====
section
/-! DEFINITION. The hash SHA-256 that the spec names (R1, R340, R344); the function itself is FIPS 180-4's (PRESUMED,
assumption 79). -/

namespace Sys2Proof.Machine

/-- The primes below 312, of which there are 64: a number below 19² that is no prime has a divisor below 18. -/
def shaPrimes : List Nat := (List.range' 2 310).filter (fun p => (List.range' 2 16).all (fun d => p == d || p % d != 0))

/-- The greatest number below `2 ^ n` whose power `k` is at most `x`, found bit by bit. -/
def shaRoot (k x : Nat) (n : Nat) : Nat :=
  (List.range n).foldr (fun i r => if (r + 2 ^ i) ^ k ≤ x then r + 2 ^ i else r) 0

/-- The first 32 bits of the fraction of the root of degree `k` of a number below 512. -/
def shaFraction (k p : Nat) : Word := BitVec.ofNat 32 (shaRoot k (p * 2 ^ (32 * k)) 37)

/-- The eight words a hash begins with: of the square roots of the first eight primes. -/
def shaStart : List Word := (shaPrimes.take 8).map (shaFraction 2)

/-- The word of each of the 64 rounds: of the cube roots of the first 64 primes. -/
def shaRounds : List Word := shaPrimes.map (shaFraction 3)

/-- The exclusive or of a word's right rotations by the counts given. -/
def shaTurns (x : Word) (counts : List Nat) : Word := counts.foldl (fun y n => y ^^^ x.rotateRight n) 0

/-- The next word of the schedule, from the last sixteen, the newest first. -/
def shaNext (l : List Word) : Word :=
  let back (i : Nat) : Word := l.getD (i - 1) 0
  back 16 + back 7 + (shaTurns (back 15) [7, 18] ^^^ back 15 >>> 3) + (shaTurns (back 2) [17, 19] ^^^ back 2 >>> 10)

/-- The schedule of a block, the newest word first: the block's words and `n` more. -/
def shaSchedule (block : List Word) : Nat → List Word
  | 0 => block.reverse
  | n + 1 => let l := shaSchedule block n
    shaNext l :: l

/-- One round on the eight working words, with the sum of its constant and its schedule word: the words move on by one place,
the fourth takes part of the sum as it moves, and the whole sum enters in front. -/
def shaRound (v : List Word) (kw : Word) : List Word :=
  match v with
  | [a, b, c, d, e, f, g, h] =>
    let chosen := g ^^^ (e &&& (f ^^^ g))
    let most := (a &&& b) ||| (c &&& (a ||| b))
    let part := kw + h + chosen + shaTurns e [6, 11, 25]
    [part + most + shaTurns a [2, 13, 22], a, b, c, d + part, e, f, g]
  | _ => v

/-- The hash words after one more block of sixteen words. -/
def shaBlock (h block : List Word) : List Word :=
  let w := (shaSchedule block 48).reverse
  List.zipWith (· + ·) h ((List.zipWith (· + ·) shaRounds w).foldl shaRound h)

/-- The big-endian words of a list of bytes, whole words only. -/
def shaWords : List Byte → List Word
  | a :: b :: c :: d :: l => (a ++ b ++ c ++ d : BitVec 32) :: shaWords l
  | _ => []

/-- The hash words after `n` blocks of a list of words. -/
def shaBlocks (h : List Word) (l : List Word) : Nat → List Word
  | 0 => h
  | n + 1 => shaBlocks (shaBlock h (l.take 16)) (l.drop 16) n

/-- A message with its padding: a byte of 0x80, zeros, and the length in bits as a big-endian 64-bit number. -/
def shaPadded (l : List Byte) : List Byte :=
  l ++ 0x80#8 :: (List.replicate ((119 - l.length % 64) % 64) 0#8 ++
    (List.range 8).map (fun i => BitVec.ofNat 8 (l.length * 8 / 256 ^ (7 - i))))

/-- The SHA-256 digest of a message. -/
def sha256 (l : List Byte) : List Byte :=
  let p := shaPadded l
  (shaBlocks shaStart (shaWords p) (p.length / 64)).flatMap
    (fun w : Word => (List.range 4).map (fun i => (w >>> (8 * (3 - i))).setWidth 8))

end Sys2Proof.Machine
end

