-- ==== Sys2Proof/Machine/Platform.lean ====
section
/-! DEFINITION. Cold reset and firmware, owner election, resets of masters, attestation, droop and lifetime telemetry
(31_platform R340 to R346). -/

namespace Sys2Proof.Machine

/-! ### Firmware (R340, R341) -/

/-- A number of a firmware image, at an offset. -/
def imageNum (img : List Byte) (off n : Nat) : Nat := numOf ((img.drop off).take n)

/-- The body of a firmware image. -/
def imageBody (img : List Byte) : List Byte := (img.drop 0x3F90).take (imageNum img 8 4)

/-- FWSTAT.ERR of an image's verification: magic, signature, digest, security version, in the order of R340. -/
def imageErr (p : Part) (img : List Byte) : Nat :=
  if imageNum img 0 4 ≠ 0x4B460001 then 1
  else if Config.slhVerify p.key (img.take 0x30) ((img.drop 0x30).take 16224) = false then 2
  else if sha256 (imageBody img) ≠ (img.drop 0x10).take 32 then 3
  else if imageNum img 4 4 < p.svn then 4
  else 0

/-- The lifetime record as LTDATA reads it: what flash holds and the counts since. -/
def State.lifeValue (s : State) (i : Nat) : Word :=
  BitVec.ofNat 32 (min ((zget 0 s.part.flash i).toNat + (zget 0 s.life i).toNat) 0xFFFFFFFF)

/-- Seconds the part has been on: those its temperature bins hold. -/
def State.poweredSeconds (s : State) : Nat := ((List.range' 0x40 16).map (fun i => (s.lifeValue i).toNat)).foldl (· + ·) 0

/-- A second adds to a temperature bin, to a supply bin and, each 3600 s, to the power-on hours; the die's temperature and supply in
that second are the world's, so which bins is a free value (R346). -/
def State.recordSec (s : State) : State :=
  let t := (Config.freeWord s.fresh).toNat % 16
  let v := (Config.freeWord (s.fresh + 1)).toNat % 16
  let hours := (s.poweredSeconds + 1) / 3600 - s.poweredSeconds / 3600
  { (((s.lifeAdd (0x40 + t) 1).lifeAdd (0x50 + v) 1).lifeAdd 0x60 hours) with fresh := s.fresh + 2 }

/-- Seconds are counted, each in bins of its own. -/
def State.recordSecs (s : State) (n : Nat) : State := (List.range n).foldl (fun s _ => s.recordSec) s

/-- Whole seconds since the last record write, or since power came. -/
def State.unrecorded (s : State) : Nat := (s.time + 180000000000 - s.lifeNext) / 3000000000

/-- The seconds since the last record write are counted. -/
def State.recordRest (s : State) : State := s.recordSecs s.unrecorded

/-- What a cold reset leaves besides the reset state: the part with its flash and fuses, the lifetime counts the security controller
has not written yet and the time left until it writes them (R346), the host's memory and freeze buffer, the messages sent, and the model's own fields. -/
def State.coldBase (s : State) : State :=
  { State.reset with
    mem := s.mem.filter (fun e => decide (spaceOf e.1 ≠ 0 ∧ spaceOf e.1 < 32))
    frozenMem := s.frozenMem, part := s.part, life := s.life, lifeNext := s.lifeNext - s.time, outbox := s.outbox, turns := s.turns, fresh := s.fresh,
    nextId := s.nextId, progress := s.progress }

/-- The links while they train after a cold reset (R340, R321). -/
def trainingLinks : SMap Link := (List.range 12).map (fun k => (k, Link.reset.withStat 1 0))

/-- COLD_RESET: the boot ROM verifies the boot image and loads the controllers, the links begin to train and memory is zero, or the
device is in recovery. It runs once no link trains any more (R340). -/
def coldReset (s : State) : State :=
  let b := s.coldBase
  let img := s.part.boot
  let e := imageErr s.part img
  if e ≠ 0 then { b with fwState := 2, fwErr := e }
  else
    { b with
      fwState := 0, fwErr := 0, fwBody := sha256 (imageBody img), fwVersion := imageNum img 4 4, links := trainingLinks }

/-- COLD_RESET. -/
def execColdReset (s : State) : Out := event coldReset s

/-- The image staged in HBM, each granule where the remap table has put it (R302, R341). -/
def State.stagedImage (s : State) : List Byte :=
  let at_ (off : Nat) : Byte := s.byte (keyOf 0 (s.remapped (s.fwStage.toNat + off)))
  (List.range (0x3F90 + numOf ((List.range 4).map (fun i => at_ (8 + i))))).map at_

/-- FWCTL bit 0: the staged image is verified and becomes the boot image, or ERR is set (R341). -/
def State.fwVerify (s : State) : State :=
  let img := s.stagedImage
  let e := imageErr s.part img
  if e = 0 then { s with fwErr := 0, part := { s.part with boot := img } } else { s with fwErr := e }

/-- FWCTL_VERIFY. -/
def execFwctlVerify (master : Nat) (s : State) : Out :=
  event (fun s => if s.fwState = 0 then s else s.asOwner master State.fwVerify) s

/-- FWCTL_COLD_RESET. -/
def execFwctlColdReset (master : Nat) (s : State) : Out :=
  event (fun s => if s.fwState = 0 then s else s.asOwner master coldReset) s

/-! ### Owner election (R342, R343) -/

/-- MGCLAIM as a master reads it. -/
def State.claimWord (s : State) (master : Nat) : Nat := s.hand * 2 ^ 8 + master * 2 ^ 4 + s.owner

/-- A write of MGCLAIM (R342): a claim where there is no owner or the hand names the master; a release or a hand-over by the
owner. -/
def State.claim (s : State) (master : Nat) (val : Word) : State :=
  let o := field val.toNat 0 4
  let h := field val.toNat 8 4
  if s.isFrozen master then s
  else if s.owner = master ∧ master ≠ 0 then
    if o = 0 then { s with owner := 0, hand := h } else { s with hand := h }
  else if o = master ∧ (s.owner = 0 ∨ s.hand = master) then { s with owner := master, hand := 0 }
  else s

/-- MGCLAIM. -/
def execMgclaim (master : Nat) (val : BitVec 32) (s : State) : Out :=
  event (fun s => if s.fwState = 0 then s else s.claim master val) s

/-- The master of a host port (R341). -/
def portMaster (port : Nat) : Nat := port + 1

/-- HOT_RESET of a host port: every function of the port is reset; port 0 carries the PF and the VFs (R305, R342, R343). -/
def hotReset (port : Nat) (s : State) : State :=
  if port = 0 then
    let fns := (s.contexts.map (fun e => ctxFn e.1) ++ s.vfs.map (fun e => e.1)).eraseDups.filter (· != 0)
    functionReset 0 (fns.foldl (fun s v => functionReset v s) s)
  else s.resetMaster (portMaster port)

/-- HOT_RESET. -/
def execHotReset (port : Nat) (s : State) : Out := event (hotReset port) s

/-- I3C_TARGET_RESET: the board controller is free again (R343). -/
def execI3cTargetReset (s : State) : Out := event (fun s => s.unfreeze 3) s

/-! ### Attestation (R344) -/

/-- A stand's block as last applied; its reset block before the first APPLY. -/
def Stand.appliedBlock (st : Stand) : List Byte := if st.applied = [] then Stand.reset.block else st.applied

/-- The ASCII bytes of the part number KQ-4128. -/
def partNumber : List Byte := [0x4B, 0x51, 0x2D, 0x34, 0x31, 0x32, 0x38]

/-- A measurement block, 1 to 5. -/
def State.measurement (s : State) (i : Nat) : List Byte :=
  match i with
  | 1 => s.part.rom
  | 2 => s.fwBody
  | 3 => bytesOf 4 s.fwVersion ++ bytesOf 4 s.part.svn
  | 4 => sha256 ((List.range 12).flatMap (fun n => (s.stand n).appliedBlock))
  | 5 => partNumber ++ s.part.serial ++ bytesOf 4 s.part.svn ++ bytesOf 4 s.retired.length ++
      (List.range 12).flatMap (fun k => bytesOf 1 (s.link k).peer)
  | _ => []

/-- An SPDM 1.3 response header: version, response code, two parameters. -/
def spdmHead (code p1 p2 : Nat) : List Byte := [0x13, BitVec.ofNat 8 code, BitVec.ofNat 8 p1, BitVec.ofNat 8 p2]

/-- The security controller answers a master; in the boot ROM and in recovery only the window answers (R340). -/
def State.spdm (s : State) (master : Nat) (l : List Byte) : State := if s.fwState = 1 then s.send (.spdm master l) else s

/-- GET_VERSION: SPDM 1.3. -/
def execGetVersion (master : Nat) (s : State) : Out :=
  event (fun s => s.spdm master (bytesOf 4 0x00000410 ++ bytesOf 2 0x0100 ++ bytesOf 2 0x1300)) s

/-- GET_CAPABILITIES: certificates, challenge, signed measurements. -/
def execGetCapabilities (master : Nat) (s : State) : Out :=
  event (fun s => s.spdm master (spdmHead 0x61 0 0 ++ bytesOf 4 0 ++ bytesOf 4 0x16)) s

/-- NEGOTIATE_ALGORITHMS: SHA-256, and SLH-DSA-SHA2-192s in the extended asymmetric algorithm field. -/
def execNegotiateAlgorithms (master : Nat) (s : State) : Out :=
  event (fun s => s.spdm master (spdmHead 0x63 0 0 ++ bytesOf 4 1 ++ bytesOf 4 1)) s

/-- GET_DIGESTS: SHA-256 of the certificate chain of slot 0. -/
def execGetDigests (master : Nat) (s : State) : Out :=
  event (fun s => s.spdm master (spdmHead 0x01 0 1 ++ sha256 s.part.chain)) s

/-- GET_CERTIFICATE: a portion of the chain, with its length and what remains. -/
def execGetCertificate (master slot off len : Nat) (s : State) : Out :=
  event (fun s =>
    let body := (s.part.chain.drop off).take len
    s.spdm master (spdmHead 0x02 slot 0 ++ bytesOf 2 body.length ++
      bytesOf 2 (s.part.chain.length - off - body.length) ++ body)) s

/-- CHALLENGE: the digest of the chain and of the measurements, the requester's nonce, and the signature of the identity
key. -/
def execChallenge (master : Nat) (nonce : List Byte) (s : State) : Out :=
  event (fun s =>
    let body := spdmHead 0x03 0 1 ++ sha256 s.part.chain ++ nonce ++
      sha256 ((List.range' 1 5).flatMap s.measurement)
    s.spdm master (body ++ Config.slhSign s.part.identity body)) s

/-- GET_MEASUREMENTS: index 0 asks for their number, 0xFF for all, else for one; the answer is signed. -/
def execGetMeasurements (master index : Nat) (nonce : List Byte) (s : State) : Out :=
  event (fun s =>
    let wanted := if index = 0 then [] else if index = 0xFF then [1, 2, 3, 4, 5] else [index]
    let blocks := wanted.flatMap (fun i => bytesOf 1 i ++ bytesOf 2 (s.measurement i).length ++ s.measurement i)
    let body := spdmHead 0x60 (if index = 0 then 5 else 0) 0 ++ bytesOf 1 wanted.length ++ blocks ++ nonce
    s.spdm master (body ++ Config.slhSign s.part.identity body)) s

/-! ### Droop (R345) -/

/-- Sets a core's droop detector. -/
def State.setDetector (s : State) (c : Nat) (x : Droop) : State := { s with droop := sput s.droop c x }

/-- DROOP_ALARM: the stretch starts, again if it or the window runs, and the window after it; each alarm counts. A threshold of 0
disables the detector (R345). -/
def droopAlarm (core : Nat) (s : State) : State :=
  let x := s.detector core
  let stretched := s.time + 2 * field x.ctl.toNat 8 8
  if field x.ctl.toNat 0 8 = 0 then s
  else
    (s.setDetector core
      { x with
        cnt := if x.cnt = BitVec.allOnes 32 then x.cnt else x.cnt + 1
        stretch := if field x.ctl.toNat 8 8 = 0 then none else some stretched
        throttle := some (stretched + usTime (field x.ctl.toNat 16 12)) }).lifeAdd 0x10 1

/-- DROOP_ALARM. -/
def execDroopAlarm (core : Nat) (s : State) : Out := event (droopAlarm core) s

/-- STRETCH_END: the stretched cycles have passed and the nominal clock returns (R345). -/
def stretchEnd (core : Nat) (s : State) : State :=
  let x := s.detector core
  match x.stretch with
  | some t => if t ≤ s.time then s.setDetector core { x with stretch := none } else s
  | none => s

/-- STRETCH_END. -/
def execStretchEnd (core : Nat) (s : State) : Out := event (stretchEnd core) s

/-- THROTTLE_WINDOW_EXPIRY: the window ends (R345). -/
def throttleEnds (core : Nat) (s : State) : State :=
  let x := s.detector core
  match x.throttle with
  | some t => if t ≤ s.time then s.setDetector core { x with throttle := none } else s
  | none => s

/-- THROTTLE_WINDOW_EXPIRY. -/
def execThrottleWindowExpiry (core : Nat) (s : State) : Out := event (throttleEnds core) s

/-! ### Lifetime telemetry (R346) -/

/-- The counts since the last write go to flash. -/
def State.flashLife (s : State) : State :=
  { s with
    part := { s.part with flash := s.life.foldl (fun (m : SMap Word) (e : Nat × Word) => zput 0 m e.1 (s.lifeValue e.1)) s.part.flash }
    life := [] }

/-- LIFETIME_RECORD_WRITE: every 60 s (R346). -/
def lifeWrite (s : State) : State :=
  if s.lifeNext ≤ s.time then { (s.recordSecs 60) with lifeNext := s.lifeNext + 180000000000 }.flashLife else s

/-- LIFETIME_RECORD_WRITE. -/
def execLifetimeRecordWrite (s : State) : Out := event lifeWrite s

/-- The machine without power: fuses, flash and the host's memory remain. -/
def State.dark (s : State) : State := { s.coldBase with power := false, life := [], lifeNext := 180000000000 }

/-- POWER_DOWN: the record is written first (R346). -/
def execPowerDown (s : State) : Out := event (fun s => s.recordRest.flashLife.dark) s

/-- LOSS_OF_POWER: the counts since the last write are lost (R346). -/
def execLossOfPower (s : State) : Out := event State.dark s

end Sys2Proof.Machine
end

