-- ==== Sys2Proof/Machine/Registers.lean ====
section
/-! DEFINITION. The register spaces of the functions and the management window: what a write of each register does and what
a read returns (25_tenancy R299, R301, R306, R307; 27_links R313, R314, R321; 31_platform R341 to R343). -/

namespace Sys2Proof.Machine

/-! ### Words of registers -/

/-- A 64-bit register with its low or its high word replaced. -/
def putWord (x : DWord) (high : Bool) (val : Word) : DWord := if high then pair64 (loWord x) val else pair64 val (hiWord x)

/-- The low or the high word of a 64-bit register. -/
def getWord (x : DWord) (high : Bool) : Word := if high then hiWord x else loWord x

/-- An address that is 4 KiB aligned. -/
def page4K (x : DWord) : DWord := x &&& ~~~0xFFF

/-! ### Context blocks (R314) -/

/-- A write of CXCTL: EN, PREEMPT with CXD1 and CXD2, RESUME. A lost context is off until EN is written again. -/
def State.cxctlWrite (s : State) (ctx : Nat) (val : Word) : State :=
  let c := s.context ctx
  let en := val.getLsbD 0
  let s1 := s.setContext ctx { c with en := en, lost := c.lost && !en }
  let s2 := if val.getLsbD 1 then s1.preempt ctx (BitVec.allOnes 64) c.cxd1.toNat c.cxd2.toNat 0 else s1
  if val.getLsbD 2 then s2.resume ctx else s2

/-- A write of a 32-bit word of a context's block. Only the PF driver writes CXNUM, and, of a VF's context, nothing else; PTROOT, SAVEBASE and CXPASID are kept
while EN is set; a write of half of LAUNCH submits nothing. -/
def State.contextWrite (s : State) (pf : Bool) (ctx off : Nat) (val : Word) : State :=
  let c := s.context ctx
  let set (c : Context) : State := s.setContext ctx c
  if pf ∧ 16 ≤ ctx ∧ off ≠ 0 then s else
  match off with
  | 0x00 => if pf then set { c with cxnum := val &&& 0x8000FFFF } else s
  | 0x04 => s.cxctlWrite ctx val
  | 0x08 =>
    if c.en then s
    else if c.pasid = val &&& 0xFFFFF then s
    else
      { s with ats := s.ats.filter (fun e => !(e.ctx == ctx)), atsReq := s.atsReq.filter (fun e => !(e.1 == ctx)) }.setContext ctx
        { c with pasid := val &&& 0xFFFFF }
  | 0x10 => if c.en then s else set { c with ptroot := page4K (putWord c.ptroot false val) }
  | 0x14 => if c.en then s else set { c with ptroot := putWord c.ptroot true val }
  | 0x18 => if c.en then s else set { c with savebase := putWord c.savebase false val }
  | 0x1C => if c.en then s else set { c with savebase := putWord c.savebase true val }
  | 0x28 => set { c with trbase := page4K (putWord c.trbase false val) }
  | 0x2C => set { c with trbase := putWord c.trbase true val }
  | 0x30 => set { c with trctl := val &&& 0xF }
  | 0x38 => consumeTraps ctx val s
  | 0x3C => set { c with cxvec := val &&& 0x07FF07FF }
  | 0x40 => set { c with cxd1 := val }
  | 0x44 => set { c with cxd2 := val }
  | 0x48 => set { c with tvec := putWord c.tvec false val }
  | 0x4C => set { c with tvec := putWord c.tvec true val }
  | 0x50 => set { c with hvec := putWord c.hvec false val }
  | 0x54 => set { c with hvec := putWord c.hvec true val }
  | 0x58 => set { c with tdeleg := putWord c.tdeleg false val }
  | 0x5C => set { c with tdeleg := putWord c.tdeleg true val }
  | 0x60 => set { c with hxgroup := val &&& 0xFFFFFF }
  | 0x68 => set { c with invva := page4K (putWord c.invva false val) }
  | 0x6C => set { c with invva := putWord c.invva true val }
  | 0x70 => invalidate ctx val s
  | _ => s

/-- A 32-bit word of a context's block as it reads. -/
def Context.word (c : Context) (off : Nat) : Word :=
  match off with
  | 0x00 => c.cxnum
  | 0x04 => if c.en then 1 else 0
  | 0x08 => c.pasid
  | 0x10 => loWord c.ptroot
  | 0x14 => hiWord c.ptroot
  | 0x18 => loWord c.savebase
  | 0x1C => hiWord c.savebase
  | 0x28 => loWord c.trbase
  | 0x2C => hiWord c.trbase
  | 0x30 => c.trctl
  | 0x34 => c.trprod
  | 0x38 => c.trcons
  | 0x3C => c.cxvec
  | 0x40 => c.cxd1
  | 0x44 => c.cxd2
  | 0x48 => loWord c.tvec
  | 0x4C => hiWord c.tvec
  | 0x50 => loWord c.hvec
  | 0x54 => hiWord c.hvec
  | 0x58 => loWord c.tdeleg
  | 0x5C => hiWord c.tdeleg
  | 0x60 => c.hxgroup
  | 0x68 => loWord c.invva
  | 0x6C => hiWord c.invva
  | 0x70 => c.invctl &&& 0x80000002
  | _ => 0

/-! ### Counters (R306) -/

/-- A write of a 32-bit word of a function's counters; `off` counts from 0x800. -/
def State.counterWrite (s : State) (fn off : Nat) (val : Word) : State :=
  let c := s.counter fn
  let set (c : Counters) : State := { s with counters := sput s.counters fn c }
  if off < 0x40 then
    let i := off / 8
    let x := ((c.cnt[i]?).getD 0).setWidth 64
    set { c with cnt := c.cnt.set i ((putWord x (off % 8 == 4) val).setWidth 48) }
  else if off < 0x60 then set { c with sel := c.sel.set ((off - 0x40) / 4) (val &&& 0x11F) }
  else if off = 0x60 then set { c with ovf := c.ovf &&& ~~~val }
  else if off = 0x64 then set { c with int := val &&& 0x87FF }
  else s

/-- A 32-bit word of a function's counters as it reads: in a VF a counter of a fabric event reads zero. -/
def Counters.word (c : Counters) (vf : Bool) (off : Nat) : Word :=
  if off < 0x40 then
    if vf ∧ field ((c.sel[off / 8]?).getD 0).toNat 3 2 = 2 then 0 else getWord (((c.cnt[off / 8]?).getD 0).setWidth 64) (off % 8 == 4)
  else if off < 0x60 then (c.sel[(off - 0x40) / 4]?).getD 0
  else if off = 0x60 then c.ovf
  else if off = 0x64 then c.int
  else 0

/-! ### Stands and VFs (R299, R301) -/

/-- A write of STDCTL: VSPLIT, then APPLY. -/
def State.stdctlWrite (s : State) (n : Nat) (val : Word) : State :=
  let s1 := s.setStand n { s.stand n with vsplit := field val.toNat 1 2 }
  if val.getLsbD 0 then s1.applyStand n else s1

/-- A write of a 32-bit word of a stand's block. -/
def State.standWrite (s : State) (n off : Nat) (val : Word) : State :=
  let st := s.stand n
  match off with
  | 0x00 => s.setStand n { st with pairs := putWord st.pairs false val }
  | 0x04 => s.setStand n { st with pairs := putWord st.pairs true val }
  | 0x08 => s.setStand n { st with hbm := val }
  | 0x0C => s.setStand n { st with link := val &&& 0x0FFF3F3F }
  | 0x10 => s.stdctlWrite n val
  | 0x14 => s.setStand n { st with slice := val }
  | _ => s

/-- A 32-bit word of a stand's block as it reads. -/
def Stand.word (st : Stand) (off : Nat) : Word :=
  match off with
  | 0x00 => loWord st.pairs
  | 0x04 => hiWord st.pairs
  | 0x08 => st.hbm
  | 0x0C => st.link
  | 0x10 => BitVec.ofNat 32 st.ctlWord
  | 0x14 => st.slice
  | _ => 0

/-- A write of VFCTL: STAND, then STOP, or READY. A write that changes STAND while the VF is not stopped is ignored (R301). -/
def State.vfctlWrite (s : State) (v : Nat) (val : Word) : State :=
  let x := s.vf v
  if x.stand ≠ field val.toNat 4 4 ∧ x.state ≠ 0 then s
  else
    let s1 := s.setVf v { x with stand := field val.toNat 4 4 }
    if val.getLsbD 1 then vfStop v s1 else if val.getLsbD 0 then vfReady v s1 else s1

/-- A write of a 32-bit word of a VF's control block. -/
def State.vfWrite (s : State) (v off : Nat) (val : Word) : State :=
  let x := s.vf v
  match off with
  | 0x00 => s.vfctlWrite v val
  | 0x08 => s.setVf v { x with d1 := val }
  | 0x0C => s.setVf v { x with d2 := val }
  | 0x10 => s.setVf v { x with dlbase := page4K (putWord x.dlbase false val) }
  | 0x14 => s.setVf v { x with dlbase := putWord x.dlbase true val }
  | 0x18 => s.dlctlWrite v val
  | 0x20 => s.setVf v { x with dlcons := val }
  | 0x28 => s.setVf v { x with remapsrc := putWord x.remapsrc false val }
  | 0x2C => s.setVf v { x with remapsrc := putWord x.remapsrc true val }
  | 0x30 => s.setVf v { x with remapdst := putWord x.remapdst false val }
  | 0x34 => s.setVf v { x with remapdst := putWord x.remapdst true val }
  | 0x38 => if val.getLsbD 0 then remapGo v s else s
  | 0x40 => s.setVf v { x with apbase := page4K (putWord x.apbase false val) }
  | 0x44 => s.setVf v { x with apbase := putWord x.apbase true val }
  | 0x48 => s.setVf v { x with apsize := BitVec.ofNat 32 (min val.toNat 196608) }
  | _ => s

/-- A 32-bit word of a VF's control block as it reads. -/
def VFn.word (x : VFn) (off : Nat) : Word :=
  match off with
  | 0x00 => BitVec.ofNat 32 (x.stand * 16)
  | 0x04 => BitVec.ofNat 32 x.state
  | 0x08 => x.d1
  | 0x0C => x.d2
  | 0x10 => loWord x.dlbase
  | 0x14 => hiWord x.dlbase
  | 0x18 => x.dlctl &&& 0xF00B
  | 0x1C => x.dlprod
  | 0x20 => x.dlcons
  | 0x28 => loWord x.remapsrc
  | 0x2C => hiWord x.remapsrc
  | 0x30 => loWord x.remapdst
  | 0x34 => hiWord x.remapdst
  | 0x38 => x.remapctl &&& 0xF2
  | 0x40 => loWord x.apbase
  | 0x44 => hiWord x.apbase
  | 0x48 => x.apsize
  | _ => 0

/-! ### Links (R321) -/

/-- A write of a 32-bit word of a link's block. -/
def State.linkWrite (s : State) (k off : Nat) (val : Word) : State :=
  let x := s.link k
  match off with
  | 0x00 => s.hxctlWrite k val
  | 0x08 => s.setLink k { x with expbase := putWord x.expbase false val }
  | 0x0C => s.setLink k { x with expbase := putWord x.expbase true val }
  | 0x10 => s.setLink k { x with explim := putWord x.explim false val }
  | 0x14 => s.setLink k { x with explim := putWord x.explim true val }
  | 0x18 => s.setLink k { x with tag := val &&& 0xFF }
  | _ => s

/-- A 32-bit word of a link's block as it reads. -/
def Link.word (x : Link) (off : Nat) : Word :=
  match off with
  | 0x00 => x.ctl
  | 0x04 => x.stat
  | 0x08 => loWord x.expbase
  | 0x0C => hiWord x.expbase
  | 0x10 => loWord x.explim
  | 0x14 => hiWord x.explim
  | 0x18 => x.tag
  | _ => 0

/-! ### The management window (R341) -/

/-- A write of FWCTL: bit 0 verifies the staged image, bit 1 resets. -/
def State.fwctlWrite (s : State) (val : Word) : State :=
  let s1 := if val.getLsbD 0 then s.fwVerify else s
  if val.getLsbD 1 then coldReset s1 else s1

/-- A write of a 32-bit word of the window by a master. -/
def State.windowWrite (s : State) (master off : Nat) (val : Word) : State :=
  match off with
  | 0x000 => s.claim master val
  | 0x00C => s.asOwner master (fun s => s.fwctlWrite val)
  | 0x010 => s.asOwner master (fun s => { s with fwStage := putWord s.fwStage false val })
  | 0x014 => s.asOwner master (fun s => { s with fwStage := putWord s.fwStage true val })
  | 0x018 => if s.isFrozen master then s else { s with ltsel := val }
  | _ =>
    if 0x1000 ≤ off ∧ off < 0x1200 then
      s.asOwner master (fun s =>
        let c := (off - 0x1000) / 4
        s.setDetector c { s.detector c with ctl := val &&& 0x0FFFFFFF })
    else s

/-- A 32-bit word of the window as a master reads it: all ones while it is frozen (R343). -/
def State.windowWord (s : State) (master off : Nat) : Word :=
  if s.isFrozen master then BitVec.allOnes 32
  else
    match off with
    | 0x000 => BitVec.ofNat 32 (s.claimWord master)
    | 0x004 => s.frozen
    | 0x008 => BitVec.ofNat 32 (s.part.svn * 2 ^ 16 + s.fwErr * 2 ^ 4 + s.fwState)
    | 0x010 => loWord s.fwStage
    | 0x014 => hiWord s.fwStage
    | 0x018 => s.ltsel
    | 0x01C => s.lifeValue s.ltsel.toNat
    | _ =>
      if 0x1000 ≤ off ∧ off < 0x1200 then (s.detector ((off - 0x1000) / 4)).ctl
      else if 0x1200 ≤ off ∧ off < 0x1400 then (s.detector ((off - 0x1200) / 4)).cnt
      else 0

/-! ### REGISTER_WRITE (R313, R343) -/

/-- A write of the two words of CTXSW, by half; the low half holds GO (R307). -/
def State.ctxswHalf (s : State) (v : Nat) (high : Bool) (val : Word) : State :=
  ctxswWrite v (putWord ((s.vf v).ctxsw &&& ~~~1) high val) s

/-- A write of a 32-bit word of BAR0 of a function, by the PF driver (master 1) or by its own. -/
def State.bar0Write (s : State) (master fn off : Nat) (val : Word) : State :=
  if 0x700 ≤ off ∧ off < 0x708 then if fn = 0 then s else s.ctxswHalf fn (off == 0x704) val
  else if 0x800 ≤ off ∧ off < 0x868 then s.counterWrite fn (off - 0x800) val
  else if 0x1000 ≤ off ∧ off < 0x2000 then
    s.contextWrite (master == 1) (16 * fn + (off - 0x1000) / 0x100) ((off - 0x1000) % 0x100) val
  else s

/-- A write of a 32-bit word of a stand or link block, or of HXDEV: the owner-only registers of BAR0 and BAR2. -/
def ownedWrite (bar off : Nat) (val : Word) : Option (State → State) :=
  if bar = 0 ∧ off = 0x2FF0 then some (fun s => { s with hxdev := val &&& 0xF })
  else if bar = 0 ∧ 0x3000 ≤ off ∧ off < 0x3300 then some (fun s => s.linkWrite ((off - 0x3000) / 0x40) ((off - 0x3000) % 0x40) val)
  else if bar = 2 ∧ 0x2000 ≤ off ∧ off < 0x2C00 then
    some (fun s => s.standWrite ((off - 0x2000) / 0x100) ((off - 0x2000) % 0x100) val)
  else none

/-- Where a master finds the window in its BAR0: the PF at 0x8000, the others at 0 (R341). -/
def windowBase (master : Nat) : Nat := if master = 1 then 0x8000 else 0

/-- A write of a 32-bit word by a master, 1 to 3, or by a VF's own driver, master 0. In the boot ROM and in recovery only
the window answers (R340). -/
def State.wordWrite (s : State) (master fn bar off : Nat) (val : Word) : State :=
  let own := fn = 0 ∨ master ≠ 1
  if s.isFrozen master then s
  else if master ≠ 0 ∧ own ∧ bar = 0 ∧ windowBase master ≤ off ∧ off < windowBase master + 0x1400 then
    if s.fwState = 0 then s else s.windowWrite master (off - windowBase master) val
  else if s.fwState ≠ 1 then s
  else if master = 0 then if fn = 0 ∨ bar ≠ 0 then s else s.bar0Write 0 fn off val
  else
    match (if own then ownedWrite bar off val else none) with
    | some f => s.asOwner master f
    | none =>
      if master ≠ 1 then s
      else if bar = 0 then s.bar0Write 1 fn off val
      else if bar = 2 ∧ fn = 0 ∧ 0x10400 ≤ off ∧ off < 0x10000 + 0x400 * 193 then
        s.vfWrite ((off - 0x10000) / 0x400) ((off - 0x10000) % 0x400) val
      else s

/-- REGISTER_WRITE: an aligned write of one or two words, the high one first; a 64-bit write of LAUNCH submits a grove
(R313, R315, R343). -/
def registerWrite (master fn bar off size : Nat) (val : DWord) (s : State) : State :=
  if size = 8 ∧ off % 8 = 0 then
    if bar = 0 ∧ 0x1000 ≤ off ∧ off < 0x2000 ∧ off % 0x100 = 0x20 ∧ master = (if fn = 0 then 1 else 0) then
      if s.isFrozen master ∨ s.fwState ≠ 1 then s else launch (16 * fn + (off - 0x1000) / 0x100) val s
    else (s.wordWrite master fn bar (off + 4) (hiWord val)).wordWrite master fn bar off (loWord val)
  else if size = 4 ∧ off % 4 = 0 then s.wordWrite master fn bar off (loWord val)
  else s

/-- REGISTER_WRITE. -/
def execRegisterWrite (master fn bar off size : Nat) (val : BitVec 64) (s : State) : Out :=
  event (registerWrite master fn bar off size val) s

/-! ### Reads -/

/-- A 32-bit word as a master, or a VF's own driver as master 0, reads it (R313, R343): a frozen master reads all ones, and so
does, until the firmware runs, every place outside the window (R340). -/
def State.wordRead (s : State) (master fn bar off : Nat) : Word :=
  if s.isFrozen master then BitVec.allOnes 32
  else if master ≠ 0 ∧ (fn = 0 ∨ master ≠ 1) ∧ bar = 0 ∧ windowBase master ≤ off ∧ off < windowBase master + 0x1400 then
    s.windowWord master (off - windowBase master)
  else if s.fwState ≠ 1 then BitVec.allOnes 32
  else if bar = 0 then
    if 0x700 ≤ off ∧ off < 0x708 then if fn = 0 then 0 else getWord (s.vf fn).ctxsw (off == 0x704)
    else if 0x800 ≤ off ∧ off < 0x868 then (s.counter fn).word (fn != 0) (off - 0x800)
    else if 0x1000 ≤ off ∧ off < 0x2000 then (s.context (16 * fn + (off - 0x1000) / 0x100)).word ((off - 0x1000) % 0x100)
    else if fn ≠ 0 then 0
    else if off = 0x2FF0 then s.hxdev
    else if 0x3000 ≤ off ∧ off < 0x3300 then (s.link ((off - 0x3000) / 0x40)).word ((off - 0x3000) % 0x40)
    else 0
  else if fn ≠ 0 ∨ bar ≠ 2 then 0
  else if 0x2000 ≤ off ∧ off < 0x2C00 then (s.stand ((off - 0x2000) / 0x100)).word ((off - 0x2000) % 0x100)
  else if 0x10400 ≤ off ∧ off < 0x10000 + 0x400 * 193 then (s.vf ((off - 0x10000) / 0x400)).word ((off - 0x10000) % 0x400)
  else 0

end Sys2Proof.Machine
end

