-- ==== Sys2Proof/Machine/Special.lean ====
section
/-! DEFINITION. The special functions of FUN (09_isa_vector R139). Where the manual bounds a result without fixing its
bits, the result is a free value held within the bound, measured from a value computed in fixed point whose distance from the
exact result is less than 2^-200 of the bound (assumption 11). -/

namespace Sys2Proof.Machine

/-- Fraction bits of the fixed-point values below. -/
def fixP : Nat := 512

/-- One, in fixed point. -/
def fixOne : Int := (2 ^ fixP : Nat)

/-- A product in fixed point. -/
def fixMul (a b : Int) : Int := a * b / fixOne

/-- A power series from its ratio: `term k+1 = term k × x / d k`, `n` terms from index `k`. -/
def fixSeries (x : Int) (d : Nat → Nat) : Nat → Nat → Int → Int
  | 0, _, _ => 0
  | n + 1, k, t => t + fixSeries x d n (k + 1) (fixMul t x / (d k : Nat))

/-- The exponential. -/
def fixExp (x : Int) : Int := fixSeries x (fun k => k + 1) 200 0 fixOne

/-- The arctangent of 1 over a number, from index `k`, `t` being the power. -/
def fixAtanInv (n : Nat) : Nat → Nat → Int → Int
  | 0, _, _ => 0
  | f + 1, k, t => (if k % 2 = 0 then t / (2 * k + 1 : Nat) else -(t / (2 * k + 1 : Nat))) +
      fixAtanInv n f (k + 1) (t / (n * n : Nat))

/-- The ratio of a circle's circumference to its diameter, by Machin's formula. -/
def fixPi : Int := 16 * fixAtanInv 5 130 0 (fixOne / 5) - 4 * fixAtanInv 239 130 0 (fixOne / 239)

/-- The natural logarithm of 2: the sum of 1 / (k 2^k). -/
def fixLn2 : Int := ((List.range' 1 fixP).map (fun k => fixOne / (k * 2 ^ k : Nat))).foldl (· + ·) 0

/-- The sine of a value from zero up to a full turn. -/
def fixSin (x : Int) : Int := fixSeries (-(fixMul x x)) (fun k => (2 * k + 2) * (2 * k + 3)) 120 0 x

/-- The cosine of a value from zero up to a full turn. -/
def fixCos (x : Int) : Int := fixSeries (-(fixMul x x)) (fun k => (2 * k + 1) * (2 * k + 2)) 120 0 fixOne

/-- Fraction bits of the binary logarithm of y, from 1 up to 2, by squaring: `n` bits below weight 2^i. -/
def fixLogBits : Nat → Nat → Int → Int
  | 0, _, _ => 0
  | n + 1, i, y =>
    let z := fixMul y y
    if 2 * fixOne ≤ z then ((2 ^ (i - 1) : Nat) : Int) + fixLogBits n (i - 1) (z / 2) else fixLogBits n (i - 1) z

/-- A fixed-point value as sign, magnitude and exponent. -/
def fixVal (x : Int) : FVal := .fin (decide (x < 0)) x.natAbs (-(fixP : Int))

/-- A finite value of binary32 in fixed point: exact, since no exponent is below -149. -/
def toFix (n : Bool) (m : Nat) (e : Int) : Int := scaled n m e (-(fixP : Int))

/-- A value close to the exact result of a FUN fn on a finite nonzero source where the manual only bounds it. -/
def funNear (fn : Nat) (n : Bool) (m : Nat) (e : Int) : FVal :=
  match fn with
  | 0 =>
    let k := fixP + bitLen m
    .fin n (2 ^ k / m) (-(k : Int) - e)
  | 1 =>
    let odd := e % 2 ≠ 0
    let m1 := if odd then 2 * m else m
    let e1 := if odd then e - 1 else e
    let x := 2 ^ (2 * fixP) / m1
    .fin false (isqrt x ((bitLen x + 1) / 2) 0) (-(fixP : Int) - e1 / 2)
  | 3 =>
    let x := toFix n m e
    if 200 * fixOne ≤ x then .fin false 1 200
    else if x ≤ -300 * fixOne then .fin false 1 (-300)
    else .fin false (fixExp (fixMul (x % fixOne) fixLn2)).natAbs (x / fixOne - fixP)
  | 4 =>
    let top : Int := e + bitLen m - 1
    fixVal (top * fixOne + fixLogBits 256 fixP (scaled false m (e - top) (-(fixP : Int))))
  | 5 => fixVal (fixSin (toFix n m e % (2 * fixPi)))
  | 6 => fixVal (fixCos (toFix n m e % (2 * fixPi)))
  | _ =>
    let x := fixExp (2 * toFix false m e)
    fixVal ((if n then -1 else 1) * ((x - fixOne) * fixOne / (x + fixOne)))

/-- The exponent of the ULP of R139 for a magnitude. -/
def ulpExp (m : Nat) (e : Int) : Int := max (e + bitLen m - 1 - 23) (-149)

/-- The bound of R139, as a number of units of 2^g. -/
def funBound (fn : Nat) (x near : FVal) : Nat × Int :=
  match near with
  | .fin _ m e =>
    let u := ulpExp m e
    match fn with
    | 0 => (1, u)
    | 4 =>
      let inside := match x with
        | .fin _ n g => magGe n g 1 (-1) && magGe 1 1 n g
        | _ => false
      if inside then (1, max (-22) (u + 1)) else (2, u)
    | 5 => (1, max (-24) (u + 1))
    | 6 => (1, max (-24) (u + 1))
    | _ => (2, u)
  | _ => (0, 0)

/-- A candidate lies within a bound of a value. -/
def nearBy (near : FVal) (b : Nat × Int) (c : FVal) : Bool :=
  match near, c with
  | .fin n m e, .fin k r g =>
    let q := min (min e g) b.2
    decide ((scaled n m e q - scaled k r g q).natAbs ≤ b.1 * 2 ^ (b.2 - q).toNat)
  | _, _ => false

/-- The flags of a delivered result that the manual does not fix: OF for an overflow result, UF for a nonzero
subnormal, which the flush bit leaves as it is: it replaces the source alone (R139; assumption 33). -/
def funFlags (x : Nat) : Nat × Word :=
  (x, flagIf (x / 2 ^ 23 % 256 == 255) fOF ||| flagIf (f32.subnormal x) fUF)

/-- The bounded result of a FUN fn on a finite nonzero source: the free value where it lies within the bound, and the
value rounded where it does not; an overflow is an infinity (R79, R139). -/
def funBounded (fn : Nat) (bits : Nat) (x : FVal) (n : Bool) (m : Nat) (e : Int) : Nat × Word :=
  let near := funNear fn n m e
  match near with
  | .fin k r g =>
    let z := (f32.round .rne k r g false).1
    let free := (Config.funResult fn (BitVec.ofNat 32 bits)).toNat
    funFlags (if z / 2 ^ 23 % 256 = 255 then z else if nearBy near (funBound fn x near) (f32.read free) then free else z)
  | _ => (f32.nan, 0)

/-- A power of two: its exponent. -/
def pow2Exp (m : Nat) (e : Int) : Option Int := if m = 2 ^ (bitLen m - 1) then some (e + bitLen m - 1) else none

/-- An integer value. -/
def intOf (n : Bool) (m : Nat) (e : Int) : Option Int :=
  if 0 ≤ e then some ((if n then -1 else 1) * (m * 2 ^ (min e 64).toNat : Nat))
  else if m % 2 ^ (-e).toNat = 0 then some ((if n then -1 else 1) * (m / 2 ^ (-e).toNat : Nat))
  else none

/-- 2^k rounded to binary32. -/
def pow2Bits (k : Int) : Nat := (f32.round .rne false 1 (max (-400) (min 400 k)) false).1

/-- FUN fns but fsqrt, on source bits (R139): special cases first, then the bound. -/
def funOp (fn : Nat) (ftz : Bool) (a : Nat) : Nat × Word :=
  let bits := f32.flush ftz a
  let x := f32.read bits
  let one := f32.bias * 2 ^ 23
  match x with
  | .nan s => f32.nanResult (flagIf s fNV)
  | .inf n =>
    match fn with
    | 0 => (f32.sign n, 0)
    | 1 => if n then f32.nanResult fNV else (0, 0)
    | 3 => (if n then 0 else f32.inf false, 0)
    | 4 => if n then f32.nanResult fNV else (f32.inf false, 0)
    | 5 => f32.nanResult fNV
    | 6 => f32.nanResult fNV
    | _ => (one + f32.sign n, 0)
  | .fin n m e =>
    if m = 0 then
      match fn with
      | 0 => (f32.inf n, fDZ)
      | 1 => (f32.inf n, fDZ)
      | 3 => (one, 0)
      | 4 => (f32.inf true, fDZ)
      | 6 => (one, 0)
      | _ => (f32.sign n, 0)
    else
      let bounded := funBounded fn bits x n m e
      match fn with
      | 0 =>
        match pow2Exp m e with
        | some k => funFlags (pow2Bits (-k) + f32.sign n)
        | none => bounded
      | 1 =>
        if n then f32.nanResult fNV
        else
          match pow2Exp m e with
          | some k => if k % 2 = 0 then funFlags (pow2Bits (-(k / 2))) else bounded
          | none => bounded
      | 3 =>
        match intOf n m e with
        | some k => funFlags (pow2Bits k)
        | none => bounded
      | 4 =>
        if n then f32.nanResult fNV
        else
          match pow2Exp m e with
          | some k => ((f32.round .rne (decide (k < 0)) k.natAbs 0 false).1, 0)
          | none => bounded
      | 5 => bounded
      | 6 => bounded
      | _ => if magGe (10 * m) e 91 0 then (one + f32.sign n, 0) else bounded

end Sys2Proof.Machine
end

