-- ==== Sys2Proof/Machine/Vector.lean ====
section
/-! DEFINITION. Floating-point, conversion, lane-exchange and intersection instructions (09_isa_vector R134 to R151;
05_numbers R73 to R95). -/

namespace Sys2Proof.Machine

/-! ### What they share -/

/-- The rounding a ROUND hint asks for, with a default mode (R59, R79). -/
def HintSet.rnd (h : HintSet) (mode : Nat) : Rnd :=
  match h.round with
  | some (f, t, m) => { mode := m, sat := t, ftz := f, conv := false }
  | none => { mode := mode, sat := false, ftz := false, conv := false }

/-- The flush bit of a ROUND hint. -/
def HintSet.ftz (h : HintSet) : Bool := (h.rnd 0).ftz

/-- A source read in a format, a subnormal flushed where the hint asks (R76). -/
def Fmt.source (f : Fmt) (ftz : Bool) (x : Nat) : FVal := f.read (f.flush ftz x)

/-- Registers of a format. -/
def Fmt.regs (f : Fmt) : Nat := if f.width = 64 then 2 else 1

/-- A number as a result with its flags. -/
def outOf (r : Nat × Word) : DWord × Word := (BitVec.ofNat 64 r.1, r.2)

/-- A vector-major signature of a, an optional second source and a destination, each a group. -/
def fpSig (g : BitVec 2) (d nd a na : Nat) (b : List (Opnd × Option Nat)) (body : BodyRule) : Sig :=
  { Sig.plain with
    g := some g, guard := true, srcs := (.v a na, some 0) :: b, dsts := [.v d nd], body := body }

/-- A signature that also reads c: d, or what a CREG hint names (R62). -/
def Sig.withC (x : Sig) (h : HintSet) (d n : Nat) : Sig :=
  { x with srcs := x.srcs ++ [(.v (casReg h d) n, some 2)], creg := true }

/-- The vector operand b. -/
def vopnd (b : BitVec 7) (n : Nat) : List (Opnd × Option Nat) := (Src.v b).opnds n

/-! ### Arithmetic in a format: F32, F64, H2 (R137, R142, R143) -/

/-- add, sub, mul, fma, minimumNumber and maximumNumber (R137 fn 0 to 5), on bits of a format. -/
def arithOp (f : Fmt) (fn : Nat) (r : Rnd) (a b c : Nat) : Nat × Word :=
  let x := f.source r.ftz a
  let y := f.source r.ftz b
  match fn with
  | 0 => f.addV r x y
  | 1 => f.addV r x y.negate
  | 2 => f.mulV r x y
  | 3 => f.fmaV r x y (f.source r.ftz c)
  | 4 => f.pick false (f.flush r.ftz a) (f.flush r.ftz b)
  | _ => f.pick true (f.flush r.ftz a) (f.flush r.ftz b)

/-- fscale (R137). An exponent past ±1024 rounds as ±1024 does. -/
def fscaleOp (r : Rnd) (a : Nat) (k : Int) : Nat × Word :=
  let bits := f32.flush r.ftz a
  match f32.read bits with
  | .nan s => f32.nanResult (flagIf s fNV)
  | .inf _ => (bits, 0)
  | .fin n m e => if m = 0 then (bits, 0) else f32.round r n m (e + max (-1024) (min 1024 k)) false

/-- The hints of an arithmetic fn: minimumNumber and maximumNumber take the flush bit only (R135). -/
def Sig.rounds (x : Sig) (fn : Nat) : Sig :=
  if fn = 4 ∨ fn = 5 then { x with ftz := true } else { x with modes := true, sat := true, ftz := true }

/-- F32's signature (R135, R137). -/
def f32Sig (fn : Nat) (g : BitVec 2) (d a : BitVec 7) (b : Src) (h : HintSet) : Sig :=
  let x := fpSig g d.toNat 1 a.toNat 1 (b.opnds 1) b.body
  match fn with
  | 3 => (x.withC h d.toNat 1).rounds 3
  | 7 => x
  | n => x.rounds n

/-- F32 fn 0 to 5. -/
def f32Body (fn : Nat) (d a : BitVec 7) (b : Src) : Ctx → State → Res :=
  vecDone d.toNat 1 (fun c s lane => outOf (arithOp f32 fn (c.h.rnd 0) (c.W.vget a.toNat lane).toNat
    (loWord (b.value c s 1 lane)).toNat (c.W.vget (casReg c.h d.toNat) lane).toNat))

/-- fscale. -/
def fscaleBody (d a : BitVec 7) (b : Src) : Ctx → State → Res :=
  vecDone d.toNat 1 (fun c s lane =>
    outOf (fscaleOp (c.h.rnd 0) (c.W.vget a.toNat lane).toNat (loWord (b.value c s 1 lane)).toInt))

/-- fcopysign: bits copied. -/
def fcopysignBody (d a : BitVec 7) (b : Src) : Ctx → State → Res :=
  vecDone d.toNat 1 (fun c s lane =>
    wordOut ((c.W.vget a.toNat lane &&& 0x7FFFFFFF) ||| (loWord (b.value c s 1 lane) &&& 0x80000000)))

/-- F64's signature (R135, R142). -/
def f64Sig (fn : Nat) (g : BitVec 2) (d a b : BitVec 7) (h : HintSet) : Sig :=
  let x := fpSig g d.toNat 2 a.toNat 2 (vopnd b 2) .vec
  if fn = 3 then (x.withC h d.toNat 2).rounds 3 else x.rounds fn

/-- F64 fn 0 to 5. -/
def f64Body (fn : Nat) (d a b : BitVec 7) : Ctx → State → Res :=
  vecDone d.toNat 2 (fun c _ lane => outOf (arithOp f64 fn (c.h.rnd 0) (c.W.vget2 a.toNat lane).toNat
    (c.W.vget2 b.toNat lane).toNat (c.W.vget2 (casReg c.h d.toNat) lane).toNat))

/-- An operation on both halves of packed operands (R78, R143). -/
def halves (f : Nat → Nat → Nat → Nat × Word) (a b c : Word) : DWord × Word :=
  let lo := f (field a.toNat 0 16) (field b.toNat 0 16) (field c.toNat 0 16)
  let hi := f (field a.toNat 16 16) (field b.toNat 16 16) (field c.toNat 16 16)
  (BitVec.ofNat 64 (lo.1 + hi.1 * 2 ^ 16), lo.2 ||| hi.2)

/-- H2's signature, by the arithmetic fn of R137 it performs. -/
def h2Sig (fn : Nat) (types : List Nat) (g : BitVec 2) (d a : BitVec 7) (b : Src) (h : HintSet) : Sig :=
  let x := { fpSig g d.toNat 1 a.toNat 1 (b.opnds 1) b.body with types := types }
  if fn = 3 then (x.withC h d.toNat 1).rounds 3 else x.rounds fn

/-- H2 (R143): the element format is fixed or, for hmin2 and hmax2, the TYPE hint's. -/
def h2Body (f : HintSet → Fmt) (fn : Nat) (d a : BitVec 7) (b : Src) : Ctx → State → Res :=
  vecDone d.toNat 1 (fun c s lane => halves (arithOp (f c.h) fn (c.h.rnd 0)) (c.W.vget a.toNat lane)
    (loWord (b.value c s 1 lane)) (c.W.vget (casReg c.h d.toNat) lane))

/-- The format of hmin2 and hmax2: .f16 by default. -/
def pickFmt (h : HintSet) : Fmt := fmtOf (h.typeOr 9)

/-! ### Comparisons: FSET, DSET (R138, R142) -/

/-- A comparison's outcome and flags. -/
def fsetOp (f : Fmt) (fn : Nat) (ftz : Bool) (a b : Nat) : Bool × Word :=
  let x := f.source ftz a
  let y := f.source ftz b
  let un := x.isNan || y.isNan
  let t := match fn with
    | 0 => x.same y
    | 1 => !x.same y
    | 2 => x.below false y
    | 3 => x.below false y || x.same y
    | 4 => y.below false x
    | 5 => y.below false x || x.same y
    | 6 => un
    | _ => !un
  (t, if 2 ≤ fn ∧ fn ≤ 5 then flagIf un fNV else nvOf [x, y])

/-- A comparison's signature, on groups of `n`: combine codes 4 to 15 are reserved (R48). -/
def fsetSig (n : Nat) (g : BitVec 2) (code : BitVec 4) (a : BitVec 7) (b : Src) (_ : HintSet) : Sig :=
  { Sig.plain with
    g := some g, guard := true, srcs := (.v a.toNat n, some 0) :: b.opnds n, ftz := true
    legal := decide (code.toNat < 4), body := b.body }

/-- A comparison in a format. -/
def fsetBody (f : Fmt) (fn : Nat) (code : BitVec 4) (p : BitVec 3) (a : BitVec 7) (b : Src) : Ctx → State → Res :=
  predDone p.toNat code.toNat (fun c s lane =>
    fsetOp f fn c.h.ftz (c.W.group a.toNat f.regs lane).toNat (b.value c s f.regs lane).toNat)

/-! ### FUN and FMISC (R139 to R142) -/

/-- A unary signature in binary32. -/
def unarySig (g : BitVec 2) (d a : BitVec 7) : Sig := fpSig g d.toNat 1 a.toNat 1 [] .vec

/-- FUN's signature: fsqrt alone takes a rounding mode (R135). -/
def funSig (fn : Nat) (g : BitVec 2) (d a : BitVec 7) (_ : HintSet) : Sig :=
  { unarySig g d a with ftz := true, modes := fn == 2 }

/-- FUN: long-latency (R139). -/
def funBody (fn : Nat) (d a : BitVec 7) : Ctx → State → Res :=
  vecLong d.toNat 1 (fun c _ lane => outOf (funOp fn c.h.ftz (c.W.vget a.toNat lane).toNat))

/-- fsqrt and dsqrt: long-latency, correctly rounded (R139, R142). -/
def sqrtBody (f : Fmt) (d a : BitVec 7) : Ctx → State → Res :=
  vecLong d.toNat f.regs (fun c _ lane =>
    let r := c.h.rnd 0
    outOf (f.sqrtV r (f.source r.ftz (c.W.group a.toNat f.regs lane).toNat)))

/-- fdiv and ddiv: long-latency (R140, R142). -/
def divBody (f : Fmt) (d a b : BitVec 7) : Ctx → State → Res :=
  vecLong d.toNat f.regs (fun c _ lane =>
    let r := c.h.rnd 0
    outOf (f.divV r (f.source r.ftz (c.W.group a.toNat f.regs lane).toNat)
      (f.source r.ftz (c.W.group b.toNat f.regs lane).toNat)))

/-- frnd: an integer value, NX never set (R140). -/
def frndOp (r : Rnd) (a : Nat) : Nat × Word :=
  let bits := f32.flush r.ftz a
  match f32.read bits with
  | .nan s => f32.nanResult (flagIf s fNV)
  | .inf _ => (bits, 0)
  | .fin n m e => if 0 ≤ e then (bits, 0) else ((f32.round .rne n (roundAt r.mode n m e false 0).1 0 false).1, 0)

/-- The class of a value (R141). -/
def classOp (f : Fmt) (a : Nat) : Word :=
  bitW (match f.read a with
    | .nan s => if s then 0 else 1
    | .inf n => if n then 2 else 9
    | .fin n m _ =>
      if m = 0 then (if n then 5 else 6)
      else if f.subnormal a then (if n then 4 else 7)
      else (if n then 3 else 8))

/-- fsat (R140). -/
def fsatOp (ftz : Bool) (a : Nat) : Nat × Word :=
  let bits := f32.flush ftz a
  let x := f32.read bits
  let one : FVal := .fin false 1 0
  let zero : FVal := .fin false 0 0
  if x.isNan then (0, nvOf [x])
  else if x.below false zero || x.same zero then (0, 0)
  else if one.below false x then (f32.bias * 2 ^ 23, 0)
  else (bits, 0)

/-- fmed3 (R140): a NaN c gives lo. -/
def fmed3Op (ftz : Bool) (a b c : Nat) : Nat × Word :=
  let x := f32.flush ftz a
  let y := f32.flush ftz b
  let z := f32.flush ftz c
  let lo := f32.pick false x y
  let hi := f32.pick true x y
  let flags := nvOf [f32.read x, f32.read y, f32.read z]
  if (f32.read z).isNan then (lo.1, flags)
  else ((f32.pick true lo.1 (f32.pick false hi.1 z).1).1, flags)

/-- fclass's registers: a pair under .f64. -/
def classFmt (h : HintSet) : Fmt := fmtOf (h.typeOr 8)

/-! ### Conversions: CVT (R80 to R84, R144 to R147) -/

/-- The floating format of a code of R80. -/
def codeFmt (code : Nat) : Fmt :=
  match code with
  | 1 => f16
  | 2 => bf16
  | 3 => e4m3
  | 4 => e5m2
  | 5 => e2m1
  | 6 => f64
  | _ => f32

/-- A floating code is not reserved. -/
def codeLegal (code : BitVec 3) : Bool := code != 7

/-- fcvt on bits (R81, R82). -/
def fcvtOp (src dst : Fmt) (r : Rnd) (a : Nat) : Nat × Word := dst.convert r (src.source r.ftz (a % 2 ^ src.width))

/-- fcvt's signature. -/
def fcvtSig (g : BitVec 2) (d a : BitVec 7) (src dst : BitVec 3) (_ : HintSet) : Sig :=
  { fpSig g d.toNat (codeFmt dst.toNat).regs a.toNat (codeFmt src.toNat).regs [] .vec with
    modes := true, ftz := true, legal := codeLegal src && codeLegal dst && src != dst }

/-- fcvt. -/
def fcvtBody (d a : BitVec 7) (src dst : BitVec 3) (t : BitVec 1) : Ctx → State → Res :=
  let f := codeFmt src.toNat
  let k := codeFmt dst.toNat
  vecDone d.toNat k.regs (fun c _ lane =>
    outOf (fcvtOp f k { c.h.rnd 0 with sat := t == 1 } (c.W.group a.toNat f.regs lane).toNat))

/-- f2i's signature. -/
def f2iSig (g : BitVec 2) (d a : BitVec 7) (src dst : BitVec 3) (_ : HintSet) : Sig :=
  { fpSig g d.toNat (icRegs dst.toNat) a.toNat (codeFmt src.toNat).regs [] .vec with modes := true, legal := codeLegal src }

/-- f2i (R83): toward zero unless a ROUND hint names a mode. -/
def f2iBody (d a : BitVec 7) (src dst : BitVec 3) (t : BitVec 1) : Ctx → State → Res :=
  let f := codeFmt src.toNat
  vecDone d.toNat (icRegs dst.toNat) (fun c _ lane =>
    outOf (f2iV (c.h.rnd 1).mode (t == 1) (dst.toNat % 2 == 0) (icBits dst.toNat)
      (f.read ((c.W.group a.toNat f.regs lane).toNat % 2 ^ f.width))))

/-- i2f's signature. -/
def i2fSig (g : BitVec 2) (d a : BitVec 7) (src dst : BitVec 3) (_ : HintSet) : Sig :=
  { fpSig g d.toNat (codeFmt dst.toNat).regs a.toNat (icRegs src.toNat) [] .vec with modes := true, legal := codeLegal dst }

/-- i2f (R84). -/
def i2fBody (d a : BitVec 7) (src dst : BitVec 3) (t : BitVec 1) : Ctx → State → Res :=
  let k := codeFmt dst.toNat
  vecDone d.toNat k.regs (fun c _ lane =>
    outOf (i2fV k { c.h.rnd 0 with sat := t == 1 }
      (readInt (src.toNat % 2 == 0) (icBits src.toNat) (c.W.group a.toNat (icRegs src.toNat) lane).toNat)))

/-- Elements of a format in a packed register (R145). -/
def packCount (code : Nat) : Nat := 32 / (codeFmt code).width

/-- A code fpack and funpack take: f16, bf16, e4m3, e5m2, e2m1. -/
def packCode (code : BitVec 3) : Bool := decide (1 ≤ code.toNat) && decide (code.toNat ≤ 5)

/-- fpack's signature. -/
def fpackSig (g : BitVec 2) (d a : BitVec 7) (src dst : BitVec 3) (_ : HintSet) : Sig :=
  { fpSig g d.toNat 1 a.toNat (packCount dst.toNat) [] .vec with
    modes := true, ftz := true, legal := src == 0 && packCode dst }

/-- fpack (R145). -/
def fpackBody (d a : BitVec 7) (dst : BitVec 3) (t : BitVec 1) : Ctx → State → Res :=
  let k := codeFmt dst.toNat
  vecDone d.toNat 1 (fun c _ lane =>
    let r : Rnd := { c.h.rnd 0 with sat := t == 1 }
    outOf ((List.range (packCount dst.toNat)).foldl (fun (x : Nat × Word) j =>
      let y := fcvtOp f32 k r (c.W.vget (a.toNat + j) lane).toNat
      (x.1 + y.1 * 2 ^ (k.width * j), x.2 ||| y.2)) (0, 0)))

/-- funpack's signature. -/
def funpackSig (g : BitVec 2) (d a : BitVec 7) (src dst : BitVec 3) (_ : HintSet) : Sig :=
  { fpSig g d.toNat (packCount src.toNat) a.toNat 1 [] .vec with legal := dst == 0 && packCode src }

/-- funpack (R145): element j, exactly, into d + j. -/
def funpackBody (d a : BitVec 7) (src : BitVec 3) (c : Ctx) (s : State) : Res :=
  let f := codeFmt src.toNat
  let one (j lane : Nat) : Nat × Word :=
    fcvtOp f f32 .rne (field (c.W.vget a.toNat lane).toNat (f.width * j) f.width)
  .done (s.modWarp c.w (fun W =>
    (List.range (packCount src.toNat)).foldl (fun (W : Warp) j =>
      (W.vputs c.act (d.toNat + j) (fun lane => BitVec.ofNat 32 (one j lane).1)).raise
        ((lanesOf c.act).foldl (fun x lane => x ||| (one j lane).2) 0)) W))

/-- BPACK and BUNPACK's signature: the TYPE hint is required (R135, R146). -/
def blockSig (modes : Bool) (g : BitVec 2) (d a : BitVec 7) (h : HintSet) : Sig :=
  { fpSig g d.toNat 1 a.toNat 1 [] .no with types := [16, 17, 18, 19], modes := modes, legal := h.type.isSome }

/-- A word of a block's bytes. -/
def blockWord (l : List Byte) (i : Nat) : Word := BitVec.ofNat 32 (numAt l (4 * i) 4)

/-- bpack (R146): flags once for the warp, whatever lanes contributed. -/
def bpackBody (d a : BitVec 7) (c : Ctx) (s : State) : Res :=
  let fmt := c.h.typeOr 16
  let x := (List.range 32).map (fun lane => f32.read (if c.act.getLsbD lane then (c.W.vget a.toNat lane).toNat else 0))
  let r := encodeRow fmt (c.h.rnd 0).mode 2 x
  let bytes := r.1.toPacked fmt
  .done (s.modWarp c.w (fun W =>
    (W.vputs c.act d.toNat (fun lane => if lane < blockWords fmt then blockWord bytes lane else 0)).raise
      (if c.act = 0 then 0 else r.2)))

/-- bunpack (R147): exact, no flag. -/
def bunpackBody (d a : BitVec 7) : Ctx → State → Res :=
  vecDone d.toNat 1 (fun c _ lane =>
    let fmt := c.h.typeOr 16
    let bytes := (List.range (blockWords fmt)).flatMap (fun j =>
      bytesOf 4 (if c.G.slices.getLsbD (j / 4) then (c.W.vget a.toNat j).toNat else 0))
    plain (BitVec.ofNat 64 (f32.convert .rne ((RawRow.ofPacked fmt 32 bytes).value fmt lane)).1))

/-! ### Lane exchange: XLANE (R148 to R150) -/

/-- XLANE's signature. -/
def xlaneSig (g : BitVec 2) (d a b : BitVec 7) (_ : HintSet) : Sig :=
  fpSig g d.toNat 1 a.toNat 1 (vopnd b 1) .no

/-- The source lane of a pick; none outside the range (R148). -/
def pickLane (fn lane : Nat) (b : Word) : Option Nat :=
  match fn with
  | 0 => some (b.toNat % 32)
  | 1 => some ((lane + b.toNat % 32) % 32)
  | 2 =>
    let j : Int := (lane : Int) + readInt true 6 b.toNat
    if 0 ≤ j ∧ j ≤ 31 then some j.toNat else none
  | _ => some (lane ^^^ (b.toNat % 32))

/-- The lane picks. -/
def pickBody (fn : Nat) (d a b : BitVec 7) : Ctx → State → Res :=
  vecDone d.toNat 1 (fun c _ lane =>
    wordOut (match pickLane fn lane (c.W.vget b.toNat lane) with
      | some j => if c.act.getLsbD j then c.W.vget a.toNat j else c.W.vget a.toNat lane
      | none => c.W.vget a.toNat lane))

/-- The combination of two sides of a tree, either of which may be absent (R95). -/
def combineSides (op : DWord → DWord → DWord × Word) (x y : Option (DWord × Word)) : Option (DWord × Word) :=
  match x, y with
  | none, _ => y
  | _, none => x
  | some p, some q =>
    let r := op p.1 q.1
    some (r.1, p.2 ||| q.2 ||| r.2)

/-- The LRED tree of R95: node `i` of level `n` over the lanes present. -/
def laneTree (op : DWord → DWord → DWord × Word) (f : Nat → Option DWord) : Nat → Nat → Option (DWord × Word)
  | 0, i => (f i).map (fun x => (x, 0))
  | n + 1, i => combineSides op (laneTree op f n (2 * i)) (laneTree op f n (2 * i + 1))

/-- The aligned power-of-two blocks that cover lanes 0 to `count - 1`, ascending, combined in order (R95). Each is as large as its
place and the count allow, so that lane 7 takes the block 0 to 7 (assumption 96). -/
def scanBlocks (op : DWord → DWord → DWord × Word) (f : Nat → Option DWord) (count : Nat) :
    Nat → Nat → Option (DWord × Word) → Option (DWord × Word)
  | 0, _, acc => acc
  | k + 1, start, acc =>
    if count.testBit k then
      scanBlocks op f count k (start + 2 ^ k) (combineSides op acc (laneTree op f k (start / 2 ^ k)))
    else scanBlocks op f count k start acc

/-- Whether a segment starts at a lane (R149): at the lowest active lane, and where b marks an active one. -/
def segStart (act : Word) (marks : Nat → Bool) (lane : Nat) : Bool :=
  act.getLsbD lane && (marks lane || (lanesOf act).head? == some lane)

/-- The lane a lane's segment starts at. -/
def segOf (act : Word) (marks : Nat → Bool) (lane : Nat) : Nat :=
  (((List.range (lane + 1)).filter (segStart act marks)).getLast?).getD 0

/-- The sum of LRED and LSCAN in a type (R149). -/
def laneAdd (t : Nat) (r : Rnd) (x y : DWord) : DWord × Word :=
  match t with
  | 8 => outOf (arithOp f32 0 r (x.toNat % 2 ^ 32) (y.toNat % 2 ^ 32) 0)
  | 14 => outOf (arithOp f64 0 r x.toNat y.toNat 0)
  | 2 => plain (x + y)
  | 3 => plain (x + y)
  | _ => wordOut (loWord x + loWord y)

/-- Registers of a type of LRED and LSCAN. -/
def laneRegs (h : HintSet) : Nat := if [2, 3, 14].contains (h.typeOr 0) then 2 else 1

/-- LRED and LSCAN's signature: ROUND suits the floating types alone (R135). -/
def laneSig (g : BitVec 2) (d a b : BitVec 7) (h : HintSet) : Sig :=
  let n := laneRegs h
  let fl := h.typeOr 0 == 8 || h.typeOr 0 == 14
  { fpSig g d.toNat n a.toNat n (vopnd b 1) .no with types := [0, 1, 2, 3, 8, 14], modes := fl, ftz := fl }

/-- A source of LRED and LSCAN in a type, a subnormal one flushed where the hint says so (R76). -/
def laneSource (t : Nat) (ftz : Bool) (x : DWord) : DWord :=
  match t with
  | 8 => BitVec.ofNat 64 (f32.flush ftz (x.toNat % 2 ^ 32))
  | 14 => BitVec.ofNat 64 (f64.flush ftz x.toNat)
  | _ => x

/-- LRED (fn 4) and LSCAN (fn 5): a b field equal to the a field marks no segment (R149). The value of a segment's only lane, which
R95 passes on, keeps its bits, a NaN's among them, and sets no flag (assumption 78). -/
def laneBody (scan : Bool) (d a b : BitVec 7) : Ctx → State → Res :=
  fun c s =>
    let t := c.h.typeOr 0
    let n := laneRegs c.h
    let marks (lane : Nat) : Bool := a != b && (c.W.vget b.toNat lane).getLsbD 0
    let seg := segOf c.act marks
    let op := laneAdd t (c.h.rnd 0)
    let at_ (first : Nat) (keep : Nat → Bool) (lane : Nat) : Option DWord :=
      if c.act.getLsbD lane && decide (first ≤ lane) && keep lane then some (laneSource t c.h.ftz (c.W.group a.toNat n lane))
      else none
    vecDone d.toNat n (fun _ _ lane =>
      let first := seg lane
      (if scan then scanBlocks op (at_ first (fun _ => true)) (lane + 1) 6 0 none
        else laneTree op (at_ first (fun m => seg m == first)) 5 0).getD (0, 0)) c s

/-- compact (R150). -/
def compactBody (d a b : BitVec 7) : Ctx → State → Res :=
  vecDone d.toNat 1 (fun c _ lane =>
    let vals := ((lanesOf c.act).filter (fun m => c.W.vget b.toNat m != 0)).map (fun m => c.W.vget a.toNat m)
    let rank := ((lanesOf c.act).filter (· < lane)).length
    wordOut ((vals[rank]?).getD 0))

/-- match (R150). -/
def matchBody (d a b : BitVec 7) : Ctx → State → Res :=
  vecDone d.toNat 1 (fun c _ lane =>
    wordOut (maskOf ((lanesOf c.act).filter (fun m =>
      c.W.vget a.toNat m == c.W.vget a.toNat lane && c.W.vget b.toNat m == c.W.vget b.toNat lane))))

/-! ### Intersection: ISECT (R151) -/

/-- The result of INTERSECT in a lane, over the active lanes. -/
def isectOp (signed : Bool) (act : Word) (a b : Nat → Word) (lane : Nat) : Word :=
  let w := lanesOf act
  let num (x : Word) : Int := readInt signed 32 x.toNat
  let h := (w.getLast?).getD 0
  let lim := min (num (a h)) (num (b h))
  let count (f : Nat → Word) : Nat := (w.filter (fun m => decide (num (f m) ≤ lim))).length
  let hit := w.find? (fun m => b m == a lane)
  BitVec.ofNat 32 (count b * 2 ^ 16 + count a * 2 ^ 8 + (match hit with
    | some j => 32 + j
    | none => 0))

/-- intersect: .n32 by default. -/
def execIntersect (g : BitVec 2) (d a b : BitVec 7) (s : State) : Out :=
  issue (fun h => { xlaneSig g d a b h with types := [0, 1] })
    (vecDone d.toNat 1 (fun c _ lane =>
      wordOut (isectOp (typeSigned (c.h.typeOr 1)) c.act (c.W.vget a.toNat) (c.W.vget b.toNat) lane))) s

/-! ### One definition per instruction -/

/-- fadd, vector form (R137). -/
def execFaddV (g : BitVec 2) (d a b : BitVec 7) (s : State) : Out :=
  issue (f32Sig 0 g d a (.v b)) (f32Body 0 d a (.v b)) s

/-- fadd, scalar form (R137). -/
def execFaddS (g : BitVec 2) (d a b : BitVec 7) (s : State) : Out :=
  issue (f32Sig 0 g d a (.s b)) (f32Body 0 d a (.s b)) s

/-- fsub, vector form (R137). -/
def execFsubV (g : BitVec 2) (d a b : BitVec 7) (s : State) : Out :=
  issue (f32Sig 1 g d a (.v b)) (f32Body 1 d a (.v b)) s

/-- fsub, scalar form (R137). -/
def execFsubS (g : BitVec 2) (d a b : BitVec 7) (s : State) : Out :=
  issue (f32Sig 1 g d a (.s b)) (f32Body 1 d a (.s b)) s

/-- fmul, vector form (R137). -/
def execFmulV (g : BitVec 2) (d a b : BitVec 7) (s : State) : Out :=
  issue (f32Sig 2 g d a (.v b)) (f32Body 2 d a (.v b)) s

/-- fmul, scalar form (R137). -/
def execFmulS (g : BitVec 2) (d a b : BitVec 7) (s : State) : Out :=
  issue (f32Sig 2 g d a (.s b)) (f32Body 2 d a (.s b)) s

/-- ffma, vector form (R137). -/
def execFfmaV (g : BitVec 2) (d a b : BitVec 7) (s : State) : Out :=
  issue (f32Sig 3 g d a (.v b)) (f32Body 3 d a (.v b)) s

/-- ffma, scalar form (R137). -/
def execFfmaS (g : BitVec 2) (d a b : BitVec 7) (s : State) : Out :=
  issue (f32Sig 3 g d a (.s b)) (f32Body 3 d a (.s b)) s

/-- fmin, vector form (R137). -/
def execFminV (g : BitVec 2) (d a b : BitVec 7) (s : State) : Out :=
  issue (f32Sig 4 g d a (.v b)) (f32Body 4 d a (.v b)) s

/-- fmin, scalar form (R137). -/
def execFminS (g : BitVec 2) (d a b : BitVec 7) (s : State) : Out :=
  issue (f32Sig 4 g d a (.s b)) (f32Body 4 d a (.s b)) s

/-- fmax, vector form (R137). -/
def execFmaxV (g : BitVec 2) (d a b : BitVec 7) (s : State) : Out :=
  issue (f32Sig 5 g d a (.v b)) (f32Body 5 d a (.v b)) s

/-- fmax, scalar form (R137). -/
def execFmaxS (g : BitVec 2) (d a b : BitVec 7) (s : State) : Out :=
  issue (f32Sig 5 g d a (.s b)) (f32Body 5 d a (.s b)) s

/-- fscale, vector form (R137). -/
def execFscaleV (g : BitVec 2) (d a b : BitVec 7) (s : State) : Out :=
  issue (f32Sig 6 g d a (.v b)) (fscaleBody d a (.v b)) s

/-- fscale, scalar form (R137). -/
def execFscaleS (g : BitVec 2) (d a b : BitVec 7) (s : State) : Out :=
  issue (f32Sig 6 g d a (.s b)) (fscaleBody d a (.s b)) s

/-- fcopysign, vector form (R137). -/
def execFcopysignV (g : BitVec 2) (d a b : BitVec 7) (s : State) : Out :=
  issue (f32Sig 7 g d a (.v b)) (fcopysignBody d a (.v b)) s

/-- fcopysign, scalar form (R137). -/
def execFcopysignS (g : BitVec 2) (d a b : BitVec 7) (s : State) : Out :=
  issue (f32Sig 7 g d a (.s b)) (fcopysignBody d a (.s b)) s

/-- fset.eq, vector form (R138). -/
def execFsetEqV (g : BitVec 2) (code : BitVec 4) (p : BitVec 3) (a b : BitVec 7) (s : State) : Out :=
  issue (fsetSig 1 g code a (.v b)) (fsetBody f32 0 code p a (.v b)) s

/-- fset.eq, scalar form (R138). -/
def execFsetEqS (g : BitVec 2) (code : BitVec 4) (p : BitVec 3) (a b : BitVec 7) (s : State) : Out :=
  issue (fsetSig 1 g code a (.s b)) (fsetBody f32 0 code p a (.s b)) s

/-- fset.ne, vector form (R138). -/
def execFsetNeV (g : BitVec 2) (code : BitVec 4) (p : BitVec 3) (a b : BitVec 7) (s : State) : Out :=
  issue (fsetSig 1 g code a (.v b)) (fsetBody f32 1 code p a (.v b)) s

/-- fset.ne, scalar form (R138). -/
def execFsetNeS (g : BitVec 2) (code : BitVec 4) (p : BitVec 3) (a b : BitVec 7) (s : State) : Out :=
  issue (fsetSig 1 g code a (.s b)) (fsetBody f32 1 code p a (.s b)) s

/-- fset.lt, vector form (R138). -/
def execFsetLtV (g : BitVec 2) (code : BitVec 4) (p : BitVec 3) (a b : BitVec 7) (s : State) : Out :=
  issue (fsetSig 1 g code a (.v b)) (fsetBody f32 2 code p a (.v b)) s

/-- fset.lt, scalar form (R138). -/
def execFsetLtS (g : BitVec 2) (code : BitVec 4) (p : BitVec 3) (a b : BitVec 7) (s : State) : Out :=
  issue (fsetSig 1 g code a (.s b)) (fsetBody f32 2 code p a (.s b)) s

/-- fset.le, vector form (R138). -/
def execFsetLeV (g : BitVec 2) (code : BitVec 4) (p : BitVec 3) (a b : BitVec 7) (s : State) : Out :=
  issue (fsetSig 1 g code a (.v b)) (fsetBody f32 3 code p a (.v b)) s

/-- fset.le, scalar form (R138). -/
def execFsetLeS (g : BitVec 2) (code : BitVec 4) (p : BitVec 3) (a b : BitVec 7) (s : State) : Out :=
  issue (fsetSig 1 g code a (.s b)) (fsetBody f32 3 code p a (.s b)) s

/-- fset.gt, vector form (R138). -/
def execFsetGtV (g : BitVec 2) (code : BitVec 4) (p : BitVec 3) (a b : BitVec 7) (s : State) : Out :=
  issue (fsetSig 1 g code a (.v b)) (fsetBody f32 4 code p a (.v b)) s

/-- fset.gt, scalar form (R138). -/
def execFsetGtS (g : BitVec 2) (code : BitVec 4) (p : BitVec 3) (a b : BitVec 7) (s : State) : Out :=
  issue (fsetSig 1 g code a (.s b)) (fsetBody f32 4 code p a (.s b)) s

/-- fset.ge, vector form (R138). -/
def execFsetGeV (g : BitVec 2) (code : BitVec 4) (p : BitVec 3) (a b : BitVec 7) (s : State) : Out :=
  issue (fsetSig 1 g code a (.v b)) (fsetBody f32 5 code p a (.v b)) s

/-- fset.ge, scalar form (R138). -/
def execFsetGeS (g : BitVec 2) (code : BitVec 4) (p : BitVec 3) (a b : BitVec 7) (s : State) : Out :=
  issue (fsetSig 1 g code a (.s b)) (fsetBody f32 5 code p a (.s b)) s

/-- fset.unordered, vector form (R138). -/
def execFsetUnorderedV (g : BitVec 2) (code : BitVec 4) (p : BitVec 3) (a b : BitVec 7) (s : State) : Out :=
  issue (fsetSig 1 g code a (.v b)) (fsetBody f32 6 code p a (.v b)) s

/-- fset.unordered, scalar form (R138). -/
def execFsetUnorderedS (g : BitVec 2) (code : BitVec 4) (p : BitVec 3) (a b : BitVec 7) (s : State) : Out :=
  issue (fsetSig 1 g code a (.s b)) (fsetBody f32 6 code p a (.s b)) s

/-- fset.ordered, vector form (R138). -/
def execFsetOrderedV (g : BitVec 2) (code : BitVec 4) (p : BitVec 3) (a b : BitVec 7) (s : State) : Out :=
  issue (fsetSig 1 g code a (.v b)) (fsetBody f32 7 code p a (.v b)) s

/-- fset.ordered, scalar form (R138). -/
def execFsetOrderedS (g : BitVec 2) (code : BitVec 4) (p : BitVec 3) (a b : BitVec 7) (s : State) : Out :=
  issue (fsetSig 1 g code a (.s b)) (fsetBody f32 7 code p a (.s b)) s

/-- frcp (R139). -/
def execFrcp (g : BitVec 2) (d a : BitVec 7) (s : State) : Out :=
  issue (funSig 0 g d a) (funBody 0 d a) s

/-- frsq (R139). -/
def execFrsq (g : BitVec 2) (d a : BitVec 7) (s : State) : Out :=
  issue (funSig 1 g d a) (funBody 1 d a) s

/-- fexp2 (R139). -/
def execFexp2 (g : BitVec 2) (d a : BitVec 7) (s : State) : Out :=
  issue (funSig 3 g d a) (funBody 3 d a) s

/-- flog2 (R139). -/
def execFlog2 (g : BitVec 2) (d a : BitVec 7) (s : State) : Out :=
  issue (funSig 4 g d a) (funBody 4 d a) s

/-- fsin (R139). -/
def execFsin (g : BitVec 2) (d a : BitVec 7) (s : State) : Out :=
  issue (funSig 5 g d a) (funBody 5 d a) s

/-- fcos (R139). -/
def execFcos (g : BitVec 2) (d a : BitVec 7) (s : State) : Out :=
  issue (funSig 6 g d a) (funBody 6 d a) s

/-- ftanh (R139). -/
def execFtanh (g : BitVec 2) (d a : BitVec 7) (s : State) : Out :=
  issue (funSig 7 g d a) (funBody 7 d a) s

/-- fsqrt (R139). -/
def execFsqrt (g : BitVec 2) (d a : BitVec 7) (s : State) : Out :=
  issue (funSig 2 g d a) (sqrtBody f32 d a) s

/-- fdiv (R140). -/
def execFdiv (g : BitVec 2) (d a b : BitVec 7) (s : State) : Out :=
  issue (fun _ => (fpSig g d.toNat 1 a.toNat 1 (vopnd b 1) .vec).rounds 0) (divBody f32 d a b) s

/-- frnd (R140). -/
def execFrnd (g : BitVec 2) (d a : BitVec 7) (s : State) : Out :=
  issue (fun _ => { unarySig g d a with modes := true, ftz := true })
    (vecDone d.toNat 1 (fun c _ lane => outOf (frndOp (c.h.rnd 0) (c.W.vget a.toNat lane).toNat))) s

/-- fclass (R141). -/
def execFclass (g : BitVec 2) (d a : BitVec 7) (s : State) : Out :=
  issue (fun h => { fpSig g d.toNat 1 a.toNat (classFmt h).regs [] .vec with types := [8, 14] })
    (vecDone d.toNat 1 (fun c _ lane =>
      wordOut (classOp (classFmt c.h) (c.W.group a.toNat (classFmt c.h).regs lane).toNat))) s

/-- fabs (R140). -/
def execFabs (g : BitVec 2) (d a : BitVec 7) (s : State) : Out :=
  issue (fun _ => unarySig g d a) (vecDone d.toNat 1 (fun c _ lane => wordOut (c.W.vget a.toNat lane &&& 0x7FFFFFFF))) s

/-- fneg (R140). -/
def execFneg (g : BitVec 2) (d a : BitVec 7) (s : State) : Out :=
  issue (fun _ => unarySig g d a) (vecDone d.toNat 1 (fun c _ lane => wordOut (c.W.vget a.toNat lane ^^^ 0x80000000))) s

/-- fsat (R140). -/
def execFsat (g : BitVec 2) (d a : BitVec 7) (s : State) : Out :=
  issue (fun _ => { unarySig g d a with ftz := true })
    (vecDone d.toNat 1 (fun c _ lane => outOf (fsatOp c.h.ftz (c.W.vget a.toNat lane).toNat))) s

/-- fmed3 (R140). -/
def execFmed3 (g : BitVec 2) (d a b : BitVec 7) (s : State) : Out :=
  issue (fun h => { (fpSig g d.toNat 1 a.toNat 1 (vopnd b 1) .vec).withC h d.toNat 1 with ftz := true })
    (vecDone d.toNat 1 (fun c _ lane => outOf (fmed3Op c.h.ftz (c.W.vget a.toNat lane).toNat (c.W.vget b.toNat lane).toNat
      (c.W.vget (casReg c.h d.toNat) lane).toNat))) s

/-- dadd (R142). -/
def execDadd (g : BitVec 2) (d a b : BitVec 7) (s : State) : Out :=
  issue (f64Sig 0 g d a b) (f64Body 0 d a b) s

/-- dsub (R142). -/
def execDsub (g : BitVec 2) (d a b : BitVec 7) (s : State) : Out :=
  issue (f64Sig 1 g d a b) (f64Body 1 d a b) s

/-- dmul (R142). -/
def execDmul (g : BitVec 2) (d a b : BitVec 7) (s : State) : Out :=
  issue (f64Sig 2 g d a b) (f64Body 2 d a b) s

/-- dfma (R142). -/
def execDfma (g : BitVec 2) (d a b : BitVec 7) (s : State) : Out :=
  issue (f64Sig 3 g d a b) (f64Body 3 d a b) s

/-- dmin (R142). -/
def execDmin (g : BitVec 2) (d a b : BitVec 7) (s : State) : Out :=
  issue (f64Sig 4 g d a b) (f64Body 4 d a b) s

/-- dmax (R142). -/
def execDmax (g : BitVec 2) (d a b : BitVec 7) (s : State) : Out :=
  issue (f64Sig 5 g d a b) (f64Body 5 d a b) s

/-- ddiv (R142). -/
def execDdiv (g : BitVec 2) (d a b : BitVec 7) (s : State) : Out :=
  issue (f64Sig 0 g d a b) (divBody f64 d a b) s

/-- dsqrt (R142). -/
def execDsqrt (g : BitVec 2) (d a : BitVec 7) (s : State) : Out :=
  issue (fun _ => { fpSig g d.toNat 2 a.toNat 2 [] .vec with modes := true, ftz := true }) (sqrtBody f64 d a) s

/-- dset.eq (R142). -/
def execDsetEq (g : BitVec 2) (code : BitVec 4) (p : BitVec 3) (a b : BitVec 7) (s : State) : Out :=
  issue (fsetSig 2 g code a (.v b)) (fsetBody f64 0 code p a (.v b)) s

/-- dset.ne (R142). -/
def execDsetNe (g : BitVec 2) (code : BitVec 4) (p : BitVec 3) (a b : BitVec 7) (s : State) : Out :=
  issue (fsetSig 2 g code a (.v b)) (fsetBody f64 1 code p a (.v b)) s

/-- dset.lt (R142). -/
def execDsetLt (g : BitVec 2) (code : BitVec 4) (p : BitVec 3) (a b : BitVec 7) (s : State) : Out :=
  issue (fsetSig 2 g code a (.v b)) (fsetBody f64 2 code p a (.v b)) s

/-- dset.le (R142). -/
def execDsetLe (g : BitVec 2) (code : BitVec 4) (p : BitVec 3) (a b : BitVec 7) (s : State) : Out :=
  issue (fsetSig 2 g code a (.v b)) (fsetBody f64 3 code p a (.v b)) s

/-- dset.gt (R142). -/
def execDsetGt (g : BitVec 2) (code : BitVec 4) (p : BitVec 3) (a b : BitVec 7) (s : State) : Out :=
  issue (fsetSig 2 g code a (.v b)) (fsetBody f64 4 code p a (.v b)) s

/-- dset.ge (R142). -/
def execDsetGe (g : BitVec 2) (code : BitVec 4) (p : BitVec 3) (a b : BitVec 7) (s : State) : Out :=
  issue (fsetSig 2 g code a (.v b)) (fsetBody f64 5 code p a (.v b)) s

/-- dset.unordered (R142). -/
def execDsetUnordered (g : BitVec 2) (code : BitVec 4) (p : BitVec 3) (a b : BitVec 7) (s : State) : Out :=
  issue (fsetSig 2 g code a (.v b)) (fsetBody f64 6 code p a (.v b)) s

/-- dset.ordered (R142). -/
def execDsetOrdered (g : BitVec 2) (code : BitVec 4) (p : BitVec 3) (a b : BitVec 7) (s : State) : Out :=
  issue (fsetSig 2 g code a (.v b)) (fsetBody f64 7 code p a (.v b)) s

/-- hadd2, vector form (R143). -/
def execHadd2V (g : BitVec 2) (d a b : BitVec 7) (s : State) : Out :=
  issue (h2Sig 0 [] g d a (.v b)) (h2Body (fun _ => f16) 0 d a (.v b)) s

/-- hadd2, scalar form (R143). -/
def execHadd2S (g : BitVec 2) (d a b : BitVec 7) (s : State) : Out :=
  issue (h2Sig 0 [] g d a (.s b)) (h2Body (fun _ => f16) 0 d a (.s b)) s

/-- hmul2, vector form (R143). -/
def execHmul2V (g : BitVec 2) (d a b : BitVec 7) (s : State) : Out :=
  issue (h2Sig 2 [] g d a (.v b)) (h2Body (fun _ => f16) 2 d a (.v b)) s

/-- hmul2, scalar form (R143). -/
def execHmul2S (g : BitVec 2) (d a b : BitVec 7) (s : State) : Out :=
  issue (h2Sig 2 [] g d a (.s b)) (h2Body (fun _ => f16) 2 d a (.s b)) s

/-- hfma2, vector form (R143). -/
def execHfma2V (g : BitVec 2) (d a b : BitVec 7) (s : State) : Out :=
  issue (h2Sig 3 [] g d a (.v b)) (h2Body (fun _ => f16) 3 d a (.v b)) s

/-- hfma2, scalar form (R143). -/
def execHfma2S (g : BitVec 2) (d a b : BitVec 7) (s : State) : Out :=
  issue (h2Sig 3 [] g d a (.s b)) (h2Body (fun _ => f16) 3 d a (.s b)) s

/-- badd2, vector form (R143). -/
def execBadd2V (g : BitVec 2) (d a b : BitVec 7) (s : State) : Out :=
  issue (h2Sig 0 [] g d a (.v b)) (h2Body (fun _ => bf16) 0 d a (.v b)) s

/-- badd2, scalar form (R143). -/
def execBadd2S (g : BitVec 2) (d a b : BitVec 7) (s : State) : Out :=
  issue (h2Sig 0 [] g d a (.s b)) (h2Body (fun _ => bf16) 0 d a (.s b)) s

/-- bmul2, vector form (R143). -/
def execBmul2V (g : BitVec 2) (d a b : BitVec 7) (s : State) : Out :=
  issue (h2Sig 2 [] g d a (.v b)) (h2Body (fun _ => bf16) 2 d a (.v b)) s

/-- bmul2, scalar form (R143). -/
def execBmul2S (g : BitVec 2) (d a b : BitVec 7) (s : State) : Out :=
  issue (h2Sig 2 [] g d a (.s b)) (h2Body (fun _ => bf16) 2 d a (.s b)) s

/-- bfma2, vector form (R143). -/
def execBfma2V (g : BitVec 2) (d a b : BitVec 7) (s : State) : Out :=
  issue (h2Sig 3 [] g d a (.v b)) (h2Body (fun _ => bf16) 3 d a (.v b)) s

/-- bfma2, scalar form (R143). -/
def execBfma2S (g : BitVec 2) (d a b : BitVec 7) (s : State) : Out :=
  issue (h2Sig 3 [] g d a (.s b)) (h2Body (fun _ => bf16) 3 d a (.s b)) s

/-- hmin2, vector form (R143). -/
def execHmin2V (g : BitVec 2) (d a b : BitVec 7) (s : State) : Out :=
  issue (h2Sig 4 [9, 10] g d a (.v b)) (h2Body pickFmt 4 d a (.v b)) s

/-- hmin2, scalar form (R143). -/
def execHmin2S (g : BitVec 2) (d a b : BitVec 7) (s : State) : Out :=
  issue (h2Sig 4 [9, 10] g d a (.s b)) (h2Body pickFmt 4 d a (.s b)) s

/-- hmax2, vector form (R143). -/
def execHmax2V (g : BitVec 2) (d a b : BitVec 7) (s : State) : Out :=
  issue (h2Sig 5 [9, 10] g d a (.v b)) (h2Body pickFmt 5 d a (.v b)) s

/-- hmax2, scalar form (R143). -/
def execHmax2S (g : BitVec 2) (d a b : BitVec 7) (s : State) : Out :=
  issue (h2Sig 5 [9, 10] g d a (.s b)) (h2Body pickFmt 5 d a (.s b)) s

/-- fcvt (R144). -/
def execFcvt (g : BitVec 2) (d a : BitVec 7) (src dst : BitVec 3) (t : BitVec 1) (s : State) : Out :=
  issue (fcvtSig g d a src dst) (fcvtBody d a src dst t) s

/-- f2i (R144). -/
def execF2i (g : BitVec 2) (d a : BitVec 7) (src dst : BitVec 3) (t : BitVec 1) (s : State) : Out :=
  issue (f2iSig g d a src dst) (f2iBody d a src dst t) s

/-- i2f (R144). -/
def execI2f (g : BitVec 2) (d a : BitVec 7) (src dst : BitVec 3) (t : BitVec 1) (s : State) : Out :=
  issue (i2fSig g d a src dst) (i2fBody d a src dst t) s

/-- fpack (R145). -/
def execFpack (g : BitVec 2) (d a : BitVec 7) (src dst : BitVec 3) (t : BitVec 1) (s : State) : Out :=
  issue (fpackSig g d a src dst) (fpackBody d a dst t) s

/-- funpack (R145). -/
def execFunpack (g : BitVec 2) (d a : BitVec 7) (src dst : BitVec 3) (s : State) : Out :=
  issue (funpackSig g d a src dst) (funpackBody d a src) s

/-- bpack (R146). -/
def execBpack (g : BitVec 2) (d a : BitVec 7) (s : State) : Out :=
  issue (blockSig true g d a) (bpackBody d a) s

/-- bunpack (R147). -/
def execBunpack (g : BitVec 2) (d a : BitVec 7) (s : State) : Out :=
  issue (blockSig false g d a) (bunpackBody d a) s

/-- xget (R148). -/
def execXget (g : BitVec 2) (d a b : BitVec 7) (s : State) : Out :=
  issue (xlaneSig g d a b) (pickBody 0 d a b) s

/-- xrot (R148). -/
def execXrot (g : BitVec 2) (d a b : BitVec 7) (s : State) : Out :=
  issue (xlaneSig g d a b) (pickBody 1 d a b) s

/-- xslide (R148). -/
def execXslide (g : BitVec 2) (d a b : BitVec 7) (s : State) : Out :=
  issue (xlaneSig g d a b) (pickBody 2 d a b) s

/-- xmirr (R148). -/
def execXmirr (g : BitVec 2) (d a b : BitVec 7) (s : State) : Out :=
  issue (xlaneSig g d a b) (pickBody 3 d a b) s

/-- lred (R149). -/
def execLred (g : BitVec 2) (d a b : BitVec 7) (s : State) : Out :=
  issue (laneSig g d a b) (laneBody false d a b) s

/-- lscan (R149). -/
def execLscan (g : BitVec 2) (d a b : BitVec 7) (s : State) : Out :=
  issue (laneSig g d a b) (laneBody true d a b) s

/-- compact (R150). -/
def execCompact (g : BitVec 2) (d a b : BitVec 7) (s : State) : Out :=
  issue (xlaneSig g d a b) (compactBody d a b) s

/-- match (R150). -/
def execMatchLanes (g : BitVec 2) (d a b : BitVec 7) (s : State) : Out :=
  issue (xlaneSig g d a b) (matchBody d a b) s

end Sys2Proof.Machine
end

