-- ==== Sys2Proof/Machine/Dispatch.lean ====
section
/-! DEFINITION. One arm per instruction: the meaning it calls, or its rejection by name. -/

namespace Sys2Proof.Machine

/-- What an instruction does. -/
def exec (i : Instr) (s : State) : Host.Outcome State Fault Refusal :=
  match i with
  | .iaddV g d a b => Sys2Proof.Machine.execIaddV g d a b s
  | .iaddS g d a b => Sys2Proof.Machine.execIaddS g d a b s
  | .iaddI g d a imm => Sys2Proof.Machine.execIaddI g d a imm s
  | .iaddUint d a b => Sys2Proof.Machine.execIaddUint d a b s
  | .iaddUintI d a imm => Sys2Proof.Machine.execIaddUintI d a imm s
  | .isubV g d a b => Sys2Proof.Machine.execIsubV g d a b s
  | .isubS g d a b => Sys2Proof.Machine.execIsubS g d a b s
  | .isubI g d a imm => Sys2Proof.Machine.execIsubI g d a imm s
  | .isubUint d a b => Sys2Proof.Machine.execIsubUint d a b s
  | .isubUintI d a imm => Sys2Proof.Machine.execIsubUintI d a imm s
  | .imulV g d a b => Sys2Proof.Machine.execImulV g d a b s
  | .imulS g d a b => Sys2Proof.Machine.execImulS g d a b s
  | .imulI g d a imm => Sys2Proof.Machine.execImulI g d a imm s
  | .imulUint d a b => Sys2Proof.Machine.execImulUint d a b s
  | .imulUintI d a imm => Sys2Proof.Machine.execImulUintI d a imm s
  | .imulhV g d a b => Sys2Proof.Machine.execImulhV g d a b s
  | .imulhS g d a b => Sys2Proof.Machine.execImulhS g d a b s
  | .imulhI g d a imm => Sys2Proof.Machine.execImulhI g d a imm s
  | .imulhUint d a b => Sys2Proof.Machine.execImulhUint d a b s
  | .imulhUintI d a imm => Sys2Proof.Machine.execImulhUintI d a imm s
  | .iminV g d a b => Sys2Proof.Machine.execIminV g d a b s
  | .iminS g d a b => Sys2Proof.Machine.execIminS g d a b s
  | .iminI g d a imm => Sys2Proof.Machine.execIminI g d a imm s
  | .iminUint d a b => Sys2Proof.Machine.execIminUint d a b s
  | .iminUintI d a imm => Sys2Proof.Machine.execIminUintI d a imm s
  | .imaxV g d a b => Sys2Proof.Machine.execImaxV g d a b s
  | .imaxS g d a b => Sys2Proof.Machine.execImaxS g d a b s
  | .imaxI g d a imm => Sys2Proof.Machine.execImaxI g d a imm s
  | .imaxUint d a b => Sys2Proof.Machine.execImaxUint d a b s
  | .imaxUintI d a imm => Sys2Proof.Machine.execImaxUintI d a imm s
  | .iaddcV g d a b => Sys2Proof.Machine.execIaddcV g d a b s
  | .iaddcS g d a b => Sys2Proof.Machine.execIaddcS g d a b s
  | .iaddcI g d a imm => Sys2Proof.Machine.execIaddcI g d a imm s
  | .iaddcUint d a b => Sys2Proof.Machine.execIaddcUint d a b s
  | .iaddcUintI d a imm => Sys2Proof.Machine.execIaddcUintI d a imm s
  | .isubcV g d a b => Sys2Proof.Machine.execIsubcV g d a b s
  | .isubcS g d a b => Sys2Proof.Machine.execIsubcS g d a b s
  | .isubcI g d a imm => Sys2Proof.Machine.execIsubcI g d a imm s
  | .isubcUint d a b => Sys2Proof.Machine.execIsubcUint d a b s
  | .isubcUintI d a imm => Sys2Proof.Machine.execIsubcUintI d a imm s
  | .andV g d a b => Sys2Proof.Machine.execAndV g d a b s
  | .andS g d a b => Sys2Proof.Machine.execAndS g d a b s
  | .andI g d a imm => Sys2Proof.Machine.execAndI g d a imm s
  | .andUlog d a b => Sys2Proof.Machine.execAndUlog d a b s
  | .andUlogI d a imm => Sys2Proof.Machine.execAndUlogI d a imm s
  | .orV g d a b => Sys2Proof.Machine.execOrV g d a b s
  | .orS g d a b => Sys2Proof.Machine.execOrS g d a b s
  | .orI g d a imm => Sys2Proof.Machine.execOrI g d a imm s
  | .orUlog d a b => Sys2Proof.Machine.execOrUlog d a b s
  | .orUlogI d a imm => Sys2Proof.Machine.execOrUlogI d a imm s
  | .xorV g d a b => Sys2Proof.Machine.execXorV g d a b s
  | .xorS g d a b => Sys2Proof.Machine.execXorS g d a b s
  | .xorI g d a imm => Sys2Proof.Machine.execXorI g d a imm s
  | .xorUlog d a b => Sys2Proof.Machine.execXorUlog d a b s
  | .xorUlogI d a imm => Sys2Proof.Machine.execXorUlogI d a imm s
  | .andnV g d a b => Sys2Proof.Machine.execAndnV g d a b s
  | .andnS g d a b => Sys2Proof.Machine.execAndnS g d a b s
  | .andnI g d a imm => Sys2Proof.Machine.execAndnI g d a imm s
  | .andnUlog d a b => Sys2Proof.Machine.execAndnUlog d a b s
  | .andnUlogI d a imm => Sys2Proof.Machine.execAndnUlogI d a imm s
  | .shlV g d a b => Sys2Proof.Machine.execShlV g d a b s
  | .shlS g d a b => Sys2Proof.Machine.execShlS g d a b s
  | .shlI g d a imm => Sys2Proof.Machine.execShlI g d a imm s
  | .shlUlog d a b => Sys2Proof.Machine.execShlUlog d a b s
  | .shlUlogI d a imm => Sys2Proof.Machine.execShlUlogI d a imm s
  | .shrV g d a b => Sys2Proof.Machine.execShrV g d a b s
  | .shrS g d a b => Sys2Proof.Machine.execShrS g d a b s
  | .shrI g d a imm => Sys2Proof.Machine.execShrI g d a imm s
  | .shrUlog d a b => Sys2Proof.Machine.execShrUlog d a b s
  | .shrUlogI d a imm => Sys2Proof.Machine.execShrUlogI d a imm s
  | .sarV g d a b => Sys2Proof.Machine.execSarV g d a b s
  | .sarS g d a b => Sys2Proof.Machine.execSarS g d a b s
  | .sarI g d a imm => Sys2Proof.Machine.execSarI g d a imm s
  | .sarUlog d a b => Sys2Proof.Machine.execSarUlog d a b s
  | .sarUlogI d a imm => Sys2Proof.Machine.execSarUlogI d a imm s
  | .rotlV g d a b => Sys2Proof.Machine.execRotlV g d a b s
  | .rotlS g d a b => Sys2Proof.Machine.execRotlS g d a b s
  | .rotlI g d a imm => Sys2Proof.Machine.execRotlI g d a imm s
  | .rotlUlog d a b => Sys2Proof.Machine.execRotlUlog d a b s
  | .rotlUlogI d a imm => Sys2Proof.Machine.execRotlUlogI d a imm s
  | .idivV g d a b => Sys2Proof.Machine.execIdivV g d a b s
  | .idivS g d a b => Sys2Proof.Machine.execIdivS g d a b s
  | .iremV g d a b => Sys2Proof.Machine.execIremV g d a b s
  | .iremS g d a b => Sys2Proof.Machine.execIremS g d a b s
  | .iabsdV g d a b => Sys2Proof.Machine.execIabsdV g d a b s
  | .iabsdS g d a b => Sys2Proof.Machine.execIabsdS g d a b s
  | .iaddsatV g d a b => Sys2Proof.Machine.execIaddsatV g d a b s
  | .iaddsatS g d a b => Sys2Proof.Machine.execIaddsatS g d a b s
  | .isubsatV g d a b => Sys2Proof.Machine.execIsubsatV g d a b s
  | .isubsatS g d a b => Sys2Proof.Machine.execIsubsatS g d a b s
  | .leaV g d a b => Sys2Proof.Machine.execLeaV g d a b s
  | .leaS g d a b => Sys2Proof.Machine.execLeaS g d a b s
  | .bpermV g d a b => Sys2Proof.Machine.execBpermV g d a b s
  | .bpermS g d a b => Sys2Proof.Machine.execBpermS g d a b s
  | .imadV g d a b => Sys2Proof.Machine.execImadV g d a b s
  | .imadS g d a b => Sys2Proof.Machine.execImadS g d a b s
  | .clz g d a => Sys2Proof.Machine.execClz g d a s
  | .ctz g d a => Sys2Proof.Machine.execCtz g d a s
  | .popc g d a => Sys2Proof.Machine.execPopc g d a s
  | .brev g d a => Sys2Proof.Machine.execBrev g d a s
  | .iabs g d a => Sys2Proof.Machine.execIabs g d a s
  | .ineg g d a => Sys2Proof.Machine.execIneg g d a s
  | .notV g d a => Sys2Proof.Machine.execNotV g d a s
  | .icvt g d a sr x t => Sys2Proof.Machine.execIcvt g d a sr x t s
  | .bfx g d a b => Sys2Proof.Machine.execBfx g d a b s
  | .bfxn g d a b => Sys2Proof.Machine.execBfxn g d a b s
  | .bfi g d a b => Sys2Proof.Machine.execBfi g d a b s
  | .fshl g d a b => Sys2Proof.Machine.execFshl g d a b s
  | .fshr g d a b => Sys2Proof.Machine.execFshr g d a b s
  | .idot4 g d a b => Sys2Proof.Machine.execIdot4 g d a b s
  | .idot4n g d a b => Sys2Proof.Machine.execIdot4n g d a b s
  | .idot4m g d a b => Sys2Proof.Machine.execIdot4m g d a b s
  | .idot2 g d a b => Sys2Proof.Machine.execIdot2 g d a b s
  | .isetEqV g c p a b => Sys2Proof.Machine.execIsetEqV g c p a b s
  | .isetEqS g c p a b => Sys2Proof.Machine.execIsetEqS g c p a b s
  | .isetEqI g c p a imm => Sys2Proof.Machine.execIsetEqI g c p a imm s
  | .isetNeV g c p a b => Sys2Proof.Machine.execIsetNeV g c p a b s
  | .isetNeS g c p a b => Sys2Proof.Machine.execIsetNeS g c p a b s
  | .isetNeI g c p a imm => Sys2Proof.Machine.execIsetNeI g c p a imm s
  | .isetLtV g c p a b => Sys2Proof.Machine.execIsetLtV g c p a b s
  | .isetLtS g c p a b => Sys2Proof.Machine.execIsetLtS g c p a b s
  | .isetLtI g c p a imm => Sys2Proof.Machine.execIsetLtI g c p a imm s
  | .isetGeV g c p a b => Sys2Proof.Machine.execIsetGeV g c p a b s
  | .isetGeS g c p a b => Sys2Proof.Machine.execIsetGeS g c p a b s
  | .isetGeI g c p a imm => Sys2Proof.Machine.execIsetGeI g c p a imm s
  | .isetLtnV g c p a b => Sys2Proof.Machine.execIsetLtnV g c p a b s
  | .isetLtnS g c p a b => Sys2Proof.Machine.execIsetLtnS g c p a b s
  | .isetLtnI g c p a imm => Sys2Proof.Machine.execIsetLtnI g c p a imm s
  | .isetGenV g c p a b => Sys2Proof.Machine.execIsetGenV g c p a b s
  | .isetGenS g c p a b => Sys2Proof.Machine.execIsetGenS g c p a b s
  | .isetGenI g c p a imm => Sys2Proof.Machine.execIsetGenI g c p a imm s
  | .isetLeV g c p a b => Sys2Proof.Machine.execIsetLeV g c p a b s
  | .isetLeS g c p a b => Sys2Proof.Machine.execIsetLeS g c p a b s
  | .isetLeI g c p a imm => Sys2Proof.Machine.execIsetLeI g c p a imm s
  | .isetGtV g c p a b => Sys2Proof.Machine.execIsetGtV g c p a b s
  | .isetGtS g c p a b => Sys2Proof.Machine.execIsetGtS g c p a b s
  | .isetGtI g c p a imm => Sys2Proof.Machine.execIsetGtI g c p a imm s
  | .usetEq c p a b => Sys2Proof.Machine.execUsetEq c p a b s
  | .usetNe c p a b => Sys2Proof.Machine.execUsetNe c p a b s
  | .usetLt c p a b => Sys2Proof.Machine.execUsetLt c p a b s
  | .usetGe c p a b => Sys2Proof.Machine.execUsetGe c p a b s
  | .usetLtn c p a b => Sys2Proof.Machine.execUsetLtn c p a b s
  | .usetGen c p a b => Sys2Proof.Machine.execUsetGen c p a b s
  | .usetLe c p a b => Sys2Proof.Machine.execUsetLe c p a b s
  | .usetGt c p a b => Sys2Proof.Machine.execUsetGt c p a b s
  | .mov g d a => Sys2Proof.Machine.execMov g d a s
  | .sel g d a b => Sys2Proof.Machine.execSel g d a b s
  | .bcast g d b => Sys2Proof.Machine.execBcast g d b s
  | .extract g d a l => Sys2Proof.Machine.execExtract g d a l s
  | .pmovToVector g d => Sys2Proof.Machine.execPmovToVector g d s
  | .pmovToPredicates g a => Sys2Proof.Machine.execPmovToPredicates g a s
  | .pset g c p a => Sys2Proof.Machine.execPset g c p a s
  | .plop g l p a b => Sys2Proof.Machine.execPlop g l p a b s
  | .vote g d a m => Sys2Proof.Machine.execVote g d a m s
  | .moviVector g d imm => Sys2Proof.Machine.execMoviVector g d imm s
  | .moviScalar d imm => Sys2Proof.Machine.execMoviScalar d imm s
  | .faddV g d a b => Sys2Proof.Machine.execFaddV g d a b s
  | .faddS g d a b => Sys2Proof.Machine.execFaddS g d a b s
  | .fsubV g d a b => Sys2Proof.Machine.execFsubV g d a b s
  | .fsubS g d a b => Sys2Proof.Machine.execFsubS g d a b s
  | .fmulV g d a b => Sys2Proof.Machine.execFmulV g d a b s
  | .fmulS g d a b => Sys2Proof.Machine.execFmulS g d a b s
  | .ffmaV g d a b => Sys2Proof.Machine.execFfmaV g d a b s
  | .ffmaS g d a b => Sys2Proof.Machine.execFfmaS g d a b s
  | .fminV g d a b => Sys2Proof.Machine.execFminV g d a b s
  | .fminS g d a b => Sys2Proof.Machine.execFminS g d a b s
  | .fmaxV g d a b => Sys2Proof.Machine.execFmaxV g d a b s
  | .fmaxS g d a b => Sys2Proof.Machine.execFmaxS g d a b s
  | .fscaleV g d a b => Sys2Proof.Machine.execFscaleV g d a b s
  | .fscaleS g d a b => Sys2Proof.Machine.execFscaleS g d a b s
  | .fcopysignV g d a b => Sys2Proof.Machine.execFcopysignV g d a b s
  | .fcopysignS g d a b => Sys2Proof.Machine.execFcopysignS g d a b s
  | .fsetEqV g c p a b => Sys2Proof.Machine.execFsetEqV g c p a b s
  | .fsetEqS g c p a b => Sys2Proof.Machine.execFsetEqS g c p a b s
  | .fsetNeV g c p a b => Sys2Proof.Machine.execFsetNeV g c p a b s
  | .fsetNeS g c p a b => Sys2Proof.Machine.execFsetNeS g c p a b s
  | .fsetLtV g c p a b => Sys2Proof.Machine.execFsetLtV g c p a b s
  | .fsetLtS g c p a b => Sys2Proof.Machine.execFsetLtS g c p a b s
  | .fsetLeV g c p a b => Sys2Proof.Machine.execFsetLeV g c p a b s
  | .fsetLeS g c p a b => Sys2Proof.Machine.execFsetLeS g c p a b s
  | .fsetGtV g c p a b => Sys2Proof.Machine.execFsetGtV g c p a b s
  | .fsetGtS g c p a b => Sys2Proof.Machine.execFsetGtS g c p a b s
  | .fsetGeV g c p a b => Sys2Proof.Machine.execFsetGeV g c p a b s
  | .fsetGeS g c p a b => Sys2Proof.Machine.execFsetGeS g c p a b s
  | .fsetUnorderedV g c p a b => Sys2Proof.Machine.execFsetUnorderedV g c p a b s
  | .fsetUnorderedS g c p a b => Sys2Proof.Machine.execFsetUnorderedS g c p a b s
  | .fsetOrderedV g c p a b => Sys2Proof.Machine.execFsetOrderedV g c p a b s
  | .fsetOrderedS g c p a b => Sys2Proof.Machine.execFsetOrderedS g c p a b s
  | .frcp g d a => Sys2Proof.Machine.execFrcp g d a s
  | .frsq g d a => Sys2Proof.Machine.execFrsq g d a s
  | .fsqrt g d a => Sys2Proof.Machine.execFsqrt g d a s
  | .fexp2 g d a => Sys2Proof.Machine.execFexp2 g d a s
  | .flog2 g d a => Sys2Proof.Machine.execFlog2 g d a s
  | .fsin g d a => Sys2Proof.Machine.execFsin g d a s
  | .fcos g d a => Sys2Proof.Machine.execFcos g d a s
  | .ftanh g d a => Sys2Proof.Machine.execFtanh g d a s
  | .fdiv g d a b => Sys2Proof.Machine.execFdiv g d a b s
  | .frnd g d a => Sys2Proof.Machine.execFrnd g d a s
  | .fclass g d a => Sys2Proof.Machine.execFclass g d a s
  | .fabs g d a => Sys2Proof.Machine.execFabs g d a s
  | .fneg g d a => Sys2Proof.Machine.execFneg g d a s
  | .fsat g d a => Sys2Proof.Machine.execFsat g d a s
  | .fmed3 g d a b => Sys2Proof.Machine.execFmed3 g d a b s
  | .dadd g d a b => Sys2Proof.Machine.execDadd g d a b s
  | .dsub g d a b => Sys2Proof.Machine.execDsub g d a b s
  | .dmul g d a b => Sys2Proof.Machine.execDmul g d a b s
  | .dfma g d a b => Sys2Proof.Machine.execDfma g d a b s
  | .dmin g d a b => Sys2Proof.Machine.execDmin g d a b s
  | .dmax g d a b => Sys2Proof.Machine.execDmax g d a b s
  | .ddiv g d a b => Sys2Proof.Machine.execDdiv g d a b s
  | .dsqrt g d a => Sys2Proof.Machine.execDsqrt g d a s
  | .dsetEq g c p a b => Sys2Proof.Machine.execDsetEq g c p a b s
  | .dsetNe g c p a b => Sys2Proof.Machine.execDsetNe g c p a b s
  | .dsetLt g c p a b => Sys2Proof.Machine.execDsetLt g c p a b s
  | .dsetLe g c p a b => Sys2Proof.Machine.execDsetLe g c p a b s
  | .dsetGt g c p a b => Sys2Proof.Machine.execDsetGt g c p a b s
  | .dsetGe g c p a b => Sys2Proof.Machine.execDsetGe g c p a b s
  | .dsetUnordered g c p a b => Sys2Proof.Machine.execDsetUnordered g c p a b s
  | .dsetOrdered g c p a b => Sys2Proof.Machine.execDsetOrdered g c p a b s
  | .hadd2V g d a b => Sys2Proof.Machine.execHadd2V g d a b s
  | .hadd2S g d a b => Sys2Proof.Machine.execHadd2S g d a b s
  | .hmul2V g d a b => Sys2Proof.Machine.execHmul2V g d a b s
  | .hmul2S g d a b => Sys2Proof.Machine.execHmul2S g d a b s
  | .hfma2V g d a b => Sys2Proof.Machine.execHfma2V g d a b s
  | .hfma2S g d a b => Sys2Proof.Machine.execHfma2S g d a b s
  | .badd2V g d a b => Sys2Proof.Machine.execBadd2V g d a b s
  | .badd2S g d a b => Sys2Proof.Machine.execBadd2S g d a b s
  | .bmul2V g d a b => Sys2Proof.Machine.execBmul2V g d a b s
  | .bmul2S g d a b => Sys2Proof.Machine.execBmul2S g d a b s
  | .bfma2V g d a b => Sys2Proof.Machine.execBfma2V g d a b s
  | .bfma2S g d a b => Sys2Proof.Machine.execBfma2S g d a b s
  | .hmin2V g d a b => Sys2Proof.Machine.execHmin2V g d a b s
  | .hmin2S g d a b => Sys2Proof.Machine.execHmin2S g d a b s
  | .hmax2V g d a b => Sys2Proof.Machine.execHmax2V g d a b s
  | .hmax2S g d a b => Sys2Proof.Machine.execHmax2S g d a b s
  | .fcvt g d a sr x t => Sys2Proof.Machine.execFcvt g d a sr x t s
  | .f2i g d a sr x t => Sys2Proof.Machine.execF2i g d a sr x t s
  | .i2f g d a sr x t => Sys2Proof.Machine.execI2f g d a sr x t s
  | .fpack g d a sr x t => Sys2Proof.Machine.execFpack g d a sr x t s
  | .funpack g d a sr x => Sys2Proof.Machine.execFunpack g d a sr x s
  | .bpack g d a => Sys2Proof.Machine.execBpack g d a s
  | .bunpack g d a => Sys2Proof.Machine.execBunpack g d a s
  | .xget g d a b => Sys2Proof.Machine.execXget g d a b s
  | .xrot g d a b => Sys2Proof.Machine.execXrot g d a b s
  | .xslide g d a b => Sys2Proof.Machine.execXslide g d a b s
  | .xmirr g d a b => Sys2Proof.Machine.execXmirr g d a b s
  | .lred g d a b => Sys2Proof.Machine.execLred g d a b s
  | .lscan g d a b => Sys2Proof.Machine.execLscan g d a b s
  | .compact g d a b => Sys2Proof.Machine.execCompact g d a b s
  | .matchLanes g d a b => Sys2Proof.Machine.execMatchLanes g d a b s
  | .intersect g d a b => Sys2Proof.Machine.execIntersect g d a b s
  | .ld w g d a o => Sys2Proof.Machine.execLd w g d a o s
  | .st w g d a o => Sys2Proof.Machine.execSt w g d a o s
  | .lds w g d a o => Sys2Proof.Machine.execLds w g d a o s
  | .sts w g d a o => Sys2Proof.Machine.execSts w g d a o s
  | .ld8 g d a imm => Sys2Proof.Machine.execLd8 g d a imm s
  | .ld8n g d a imm => Sys2Proof.Machine.execLd8n g d a imm s
  | .ld16 g d a imm => Sys2Proof.Machine.execLd16 g d a imm s
  | .ld16n g d a imm => Sys2Proof.Machine.execLd16n g d a imm s
  | .st8 g d a imm => Sys2Proof.Machine.execSt8 g d a imm s
  | .st16 g d a imm => Sys2Proof.Machine.execSt16 g d a imm s
  | .ldbc g d a imm => Sys2Proof.Machine.execLdbc g d a imm s
  | .pref g a imm => Sys2Proof.Machine.execPref g a imm s
  | .atomAdd g d a b => Sys2Proof.Machine.execAtomAdd g d a b s
  | .atomMin g d a b => Sys2Proof.Machine.execAtomMin g d a b s
  | .atomMax g d a b => Sys2Proof.Machine.execAtomMax g d a b s
  | .atomAnd g d a b => Sys2Proof.Machine.execAtomAnd g d a b s
  | .atomOr g d a b => Sys2Proof.Machine.execAtomOr g d a b s
  | .atomXor g d a b => Sys2Proof.Machine.execAtomXor g d a b s
  | .atomExch g d a b => Sys2Proof.Machine.execAtomExch g d a b s
  | .atomCas g d a b => Sys2Proof.Machine.execAtomCas g d a b s
  | .redAdd g a b => Sys2Proof.Machine.execRedAdd g a b s
  | .redMin g a b => Sys2Proof.Machine.execRedMin g a b s
  | .redMax g a b => Sys2Proof.Machine.execRedMax g a b s
  | .redAnd g a b => Sys2Proof.Machine.execRedAnd g a b s
  | .redOr g a b => Sys2Proof.Machine.execRedOr g a b s
  | .redXor g a b => Sys2Proof.Machine.execRedXor g a b s
  | .atomqAdd g d a b => Sys2Proof.Machine.execAtomqAdd g d a b s
  | .atomqExch g d a b => Sys2Proof.Machine.execAtomqExch g d a b s
  | .atomqCas g d a b => Sys2Proof.Machine.execAtomqCas g d a b s
  | .fenceAcq => Sys2Proof.Machine.execFenceAcq s
  | .fenceRel => Sys2Proof.Machine.execFenceRel s
  | .fenceAr => Sys2Proof.Machine.execFenceAr s
  | .meet l b => Sys2Proof.Machine.execMeet l b s
  | .meetArr l b => Sys2Proof.Machine.execMeetArr l b s
  | .meetWait l b => Sys2Proof.Machine.execMeetWait l b s
  | .meetRed l b o sr r => Sys2Proof.Machine.execMeetRed l b o sr r s
  | .tfence => Sys2Proof.Machine.execTfence s
  | .tcopy x y z => Sys2Proof.Machine.execTcopy x y z s
  | .tstore x y z => Sys2Proof.Machine.execTstore x y z s
  | .tgather x y z => Sys2Proof.Machine.execTgather x y z s
  | .tscatter x y z => Sys2Proof.Machine.execTscatter x y z s
  | .tready x => Sys2Proof.Machine.execTready x s
  | .trelease x => Sys2Proof.Machine.execTrelease x s
  | .tstate x y => Sys2Proof.Machine.execTstate x y s
  | .trows x y => Sys2Proof.Machine.execTrows x y s
  | .mloadw x y => Sys2Proof.Machine.execMloadw x y s
  | .mma x y z => Sys2Proof.Machine.execMma x y z s
  | .mmavs x y z => Sys2Proof.Machine.execMmavs x y z s
  | .mfence x => Sys2Proof.Machine.execMfence x s
  | .mwait x => Sys2Proof.Machine.execMwait x s
  | .mstoreRegister x b z => Sys2Proof.Machine.execMstoreRegister x b z s
  | .mstoreTile x b z => Sys2Proof.Machine.execMstoreTile x b z s
  | .mzero x => Sys2Proof.Machine.execMzero x s
  | .medge x y z => Sys2Proof.Machine.execMedge x y z s
  | .mpairLeave => Sys2Proof.Machine.execMpairLeave s
  | .mpairEnter => Sys2Proof.Machine.execMpairEnter s
  | .mshape x y => Sys2Proof.Machine.execMshape x y s
  | .noderead x y z => Sys2Proof.Machine.execNoderead x y z s
  | .inbox x y z => Sys2Proof.Machine.execInbox x y z s
  | .yieldUp x y => Sys2Proof.Machine.execYieldUp x y s
  | .hand x y z => Sys2Proof.Machine.execHand x y z s
  | .nodealloc x y z => Sys2Proof.Machine.execNodealloc x y z s
  | .treegrow x y => Sys2Proof.Machine.execTreegrow x y s
  | .grove x => Sys2Proof.Machine.execGrove x s
  | .frame x => Sys2Proof.Machine.execFrame x s
  | .spawn x y j w p => Sys2Proof.Machine.execSpawn x y j w p s
  | .spawnf x => Sys2Proof.Machine.execSpawnf x s
  | .joinwait x => Sys2Proof.Machine.execJoinwait x s
  | .joinadd x y => Sys2Proof.Machine.execJoinadd x y s
  | .payload x y => Sys2Proof.Machine.execPayload x y s
  | .spquery x y => Sys2Proof.Machine.execSpquery x y s
  | .capbegin x y => Sys2Proof.Machine.execCapbegin x y s
  | .capend => Sys2Proof.Machine.execCapend s
  | .capres x => Sys2Proof.Machine.execCapres x s
  | .capabort => Sys2Proof.Machine.execCapabort s
  | .bra n c o => Sys2Proof.Machine.execBra n c o s
  | .call n c o => Sys2Proof.Machine.execCall n c o s
  | .joinat o => Sys2Proof.Machine.execJoinat o s
  | .nop => Sys2Proof.Machine.execNop s
  | .exit => Sys2Proof.Machine.execExit s
  | .ret => Sys2Proof.Machine.execRet s
  | .brxVector r => Sys2Proof.Machine.execBrxVector r s
  | .brxScalar r => Sys2Proof.Machine.execBrxScalar r s
  | .regang m imm => Sys2Proof.Machine.execRegang m imm s
  | .trap c => Sys2Proof.Machine.execTrap c s
  | .bkpt c => Sys2Proof.Machine.execBkpt c s
  | .sleep n => Sys2Proof.Machine.execSleep n s
  | .yieldq => Sys2Proof.Machine.execYieldq s
  | .tstamp d => Sys2Proof.Machine.execTstamp d s
  | .sread sr d => Sys2Proof.Machine.execSread sr d s
  | .swrite sr d => Sys2Proof.Machine.execSwrite sr d s
  | .iret => Sys2Proof.Machine.execIret s
  | .park => Sys2Proof.Machine.execPark s
  | .hintImm imm => Sys2Proof.Machine.execHintImm imm s
  | .hintGuard n p => Sys2Proof.Machine.execHintGuard n p s
  | .hintSrcx c b a => Sys2Proof.Machine.execHintSrcx c b a s
  | .hintCreg r => Sys2Proof.Machine.execHintCreg r s
  | .hintType t => Sys2Proof.Machine.execHintType t s
  | .hintRound f sr m => Sys2Proof.Machine.execHintRound f sr m s
  | .hintSched y sr => Sys2Proof.Machine.execHintSched y sr s
  | .hintCache p => Sys2Proof.Machine.execHintCache p s
  | .registerWrite master fn bar off size val => Sys2Proof.Machine.execRegisterWrite master fn bar off size val s
  | .promotion w g => Sys2Proof.Machine.execPromotion w g s
  | .schedStallExpiry w g => Sys2Proof.Machine.execSchedStallExpiry w g s
  | .sleepDeadline w g => Sys2Proof.Machine.execSleepDeadline w g s
  | .barrierWaitParking w => Sys2Proof.Machine.execBarrierWaitParking w s
  | .unpark w => Sys2Proof.Machine.execUnpark w s
  | .blockAdmission b => Sys2Proof.Machine.execBlockAdmission b s
  | .registerBecomesFull id => Sys2Proof.Machine.execRegisterBecomesFull id s
  | .instructionCacheParityError core => Sys2Proof.Machine.execInstructionCacheParityError core s
  | .registration id => Sys2Proof.Machine.execRegistration id s
  | .carveOutEviction core line => Sys2Proof.Machine.execCarveOutEviction core line s
  | .translationLookup ctx va => Sys2Proof.Machine.execTranslationLookup ctx va s
  | .pageRequestResponse index frame => Sys2Proof.Machine.execPageRequestResponse index frame s
  | .tileRowLanding cmd row => Sys2Proof.Machine.execTileRowLanding cmd row s
  | .drainRowCompletion cmd row => Sys2Proof.Machine.execDrainRowCompletion cmd row s
  | .tileCopyFault cmd => Sys2Proof.Machine.execTileCopyFault cmd s
  | .arrayOperationStart op => Sys2Proof.Machine.execArrayOperationStart op s
  | .arrayOperationRetirement op => Sys2Proof.Machine.execArrayOperationRetirement op s
  | .quadrantClaimGrant claim => Sys2Proof.Machine.execQuadrantClaimGrant claim s
  | .barrierPacket bar w => Sys2Proof.Machine.execBarrierPacket bar w s
  | .barrierRelease bar => Sys2Proof.Machine.execBarrierRelease bar s
  | .groveAcceptance id => Sys2Proof.Machine.execGroveAcceptance id s
  | .phaseStart grove => Sys2Proof.Machine.execPhaseStart grove s
  | .trailBegin grove core => Sys2Proof.Machine.execTrailBegin grove core s
  | .trailDeepen grove trail => Sys2Proof.Machine.execTrailDeepen grove trail s
  | .steal grove core => Sys2Proof.Machine.execSteal grove core s
  | .allocationGrant grove trail => Sys2Proof.Machine.execAllocationGrant grove trail s
  | .nodeStart grove trail => Sys2Proof.Machine.execNodeStart grove trail s
  | .blockEnd b => Sys2Proof.Machine.execBlockEnd b s
  | .completionWordWrite grove => Sys2Proof.Machine.execCompletionWordWrite grove s
  | .binTimerExpiry core bin grove => Sys2Proof.Machine.execBinTimerExpiry core bin grove s
  | .saplingWarpFormation core bin grove => Sys2Proof.Machine.execSaplingWarpFormation core bin grove s
  | .saplingExit id => Sys2Proof.Machine.execSaplingExit id s
  | .joinwaitWake w => Sys2Proof.Machine.execJoinwaitWake w s
  | .capsuleStepCommit w lane => Sys2Proof.Machine.execCapsuleStepCommit w lane s
  | .away w => Sys2Proof.Machine.execAway w s
  | .back w => Sys2Proof.Machine.execBack w s
  | .delivery id => Sys2Proof.Machine.execDelivery id s
  | .trapRingDelivery ctx => Sys2Proof.Machine.execTrapRingDelivery ctx s
  | .hostAction ctx call => Sys2Proof.Machine.execHostAction ctx call s
  | .preempt ctx pairs d1 d2 => Sys2Proof.Machine.execPreempt ctx pairs d1 d2 s
  | .drainDeadline ctx => Sys2Proof.Machine.execDrainDeadline ctx s
  | .haltEntry w => Sys2Proof.Machine.execHaltEntry w s
  | .designatedHaltEntry w => Sys2Proof.Machine.execDesignatedHaltEntry w s
  | .haltDeadline ctx => Sys2Proof.Machine.execHaltDeadline ctx s
  | .captureCompletion ctx => Sys2Proof.Machine.execCaptureCompletion ctx s
  | .contextLoss ctx => Sys2Proof.Machine.execContextLoss ctx s
  | .resume ctx => Sys2Proof.Machine.execResume ctx s
  | .freezeRequest d1 d2 => Sys2Proof.Machine.execFreezeRequest d1 d2 s
  | .freezeCompletion => Sys2Proof.Machine.execFreezeCompletion s
  | .thaw => Sys2Proof.Machine.execThaw s
  | .correctedError addr => Sys2Proof.Machine.execCorrectedError addr s
  | .uncorrectableError addr => Sys2Proof.Machine.execUncorrectableError addr s
  | .apply master stand => Sys2Proof.Machine.execApply master stand s
  | .applyCompletion stand => Sys2Proof.Machine.execApplyCompletion stand s
  | .vfReady vf => Sys2Proof.Machine.execVfReady vf s
  | .vfStop vf => Sys2Proof.Machine.execVfStop vf s
  | .sliceExpiry stand => Sys2Proof.Machine.execSliceExpiry stand s
  | .switchOutCompletion stand => Sys2Proof.Machine.execSwitchOutCompletion stand s
  | .functionLevelReset fn => Sys2Proof.Machine.execFunctionLevelReset fn s
  | .ctxsw vf val => Sys2Proof.Machine.execCtxsw vf val s
  | .ctxswCompletion vf => Sys2Proof.Machine.execCtxswCompletion vf s
  | .dlctlEn vf val => Sys2Proof.Machine.execDlctlEn vf val s
  | .dlctlRearm vf => Sys2Proof.Machine.execDlctlRearm vf s
  | .rearmCompletion vf => Sys2Proof.Machine.execRearmCompletion vf s
  | .remapGo vf => Sys2Proof.Machine.execRemapGo vf s
  | .remapCompletion vf => Sys2Proof.Machine.execRemapCompletion vf s
  | .launch ctx call => Sys2Proof.Machine.execLaunch ctx call s
  | .invalidate ctx val => Sys2Proof.Machine.execInvalidate ctx val s
  | .invalidationDone ctx => Sys2Proof.Machine.execInvalidationDone ctx s
  | .atsInvalidation fn page => Sys2Proof.Machine.execAtsInvalidation fn page s
  | .flitReceipt link flit => Sys2Proof.Machine.execFlitReceipt link flit s
  | .negativeAcknowledgement link seq => Sys2Proof.Machine.execNegativeAcknowledgement link seq s
  | .retrainTimeout link => Sys2Proof.Machine.execRetrainTimeout link s
  | .linkDown link => Sys2Proof.Machine.execLinkDown link s
  | .coldReset => Sys2Proof.Machine.execColdReset s
  | .fwctlVerify master => Sys2Proof.Machine.execFwctlVerify master s
  | .fwctlColdReset master => Sys2Proof.Machine.execFwctlColdReset master s
  | .mgclaim master val => Sys2Proof.Machine.execMgclaim master val s
  | .hotReset port => Sys2Proof.Machine.execHotReset port s
  | .i3cTargetReset => Sys2Proof.Machine.execI3cTargetReset s
  | .getVersion master => Sys2Proof.Machine.execGetVersion master s
  | .getCapabilities master => Sys2Proof.Machine.execGetCapabilities master s
  | .negotiateAlgorithms master => Sys2Proof.Machine.execNegotiateAlgorithms master s
  | .getDigests master => Sys2Proof.Machine.execGetDigests master s
  | .getCertificate master slot off len => Sys2Proof.Machine.execGetCertificate master slot off len s
  | .challenge master nonce => Sys2Proof.Machine.execChallenge master nonce s
  | .getMeasurements master index nonce => Sys2Proof.Machine.execGetMeasurements master index nonce s
  | .droopAlarm core => Sys2Proof.Machine.execDroopAlarm core s
  | .stretchEnd core => Sys2Proof.Machine.execStretchEnd core s
  | .throttleWindowExpiry core => Sys2Proof.Machine.execThrottleWindowExpiry core s
  | .lifetimeRecordWrite => Sys2Proof.Machine.execLifetimeRecordWrite s
  | .powerDown => Sys2Proof.Machine.execPowerDown s
  | .linkTrainingCompletion link peer => Sys2Proof.Machine.execLinkTrainingCompletion link peer s
  | .deliveryAcknowledgement id => Sys2Proof.Machine.execDeliveryAcknowledgement id s
  | .bar4Access fn off size write data => Sys2Proof.Machine.execBar4Access fn off size write data s
  | .atsTranslationCompletion ctx page answer => Sys2Proof.Machine.execAtsTranslationCompletion ctx page answer s
  | .lossOfPower => Sys2Proof.Machine.execLossOfPower s
  | .cycleCountWrap fn imm => Sys2Proof.Machine.execCycleCountWrap fn imm s

end Sys2Proof.Machine
end

