-- ==== Sys2Proof/Decode.lean ====
section
/-! DEFINITION. The decoder of instruction words and, after it, the encoder, both from the formats and the opcode map
of spec/03_encoding.md (R44 to R50, R66 to R69). Total on any word, and on any bytes. -/

namespace Sys2Proof

/-- Why a word is no instruction (R69), by name. -/
inductive DecodeError where
  /-- Major 0x00 or a reserved major opcode. -/
  | reservedMajor
  /-- A reserved fn of an F1 major. -/
  | reservedFn
  /-- A reserved sub5 or sub6 of an F6 or F8 major. -/
  | reservedSub
  /-- A reserved hint kind (R59). -/
  | reservedKind
  /-- A field that the row requires to be zero, or to hold another fixed value, holds something else (R45). -/
  | nonzeroField
  /-- Fewer than four bytes were given. -/
  | truncated
deriving DecidableEq, Repr

/-- Bits `lo + n - 1` down to `lo` of `w` (R5). -/
def bits {k : Nat} (w : BitVec k) (lo n : Nat) : BitVec n := w.extractLsb' lo n

/-- The words of major 0x01 (R66 to R68). -/
def decode01 (f : Nat) (g : BitVec 2) (d : BitVec 7) (a : BitVec 7) (b : BitVec 7) : Except DecodeError Instr :=
  match f with
  | 0 => .ok (.iaddV g d a b)
  | 1 => .ok (.isubV g d a b)
  | 2 => .ok (.imulV g d a b)
  | 3 => .ok (.imulhV g d a b)
  | 4 => .ok (.iminV g d a b)
  | 5 => .ok (.imaxV g d a b)
  | 6 => .ok (.iaddcV g d a b)
  | 7 => .ok (.isubcV g d a b)
  | _ => .error .reservedFn

/-- The words of major 0x02 (R66 to R68). -/
def decode02 (f : Nat) (g : BitVec 2) (d : BitVec 7) (a : BitVec 7) (b : BitVec 7) : Except DecodeError Instr :=
  match f with
  | 0 => .ok (.iaddS g d a b)
  | 1 => .ok (.isubS g d a b)
  | 2 => .ok (.imulS g d a b)
  | 3 => .ok (.imulhS g d a b)
  | 4 => .ok (.iminS g d a b)
  | 5 => .ok (.imaxS g d a b)
  | 6 => .ok (.iaddcS g d a b)
  | 7 => .ok (.isubcS g d a b)
  | _ => .error .reservedFn

/-- The words of major 0x03 (R66 to R68). -/
def decode03 (f : Nat) (g : BitVec 2) (d : BitVec 7) (a : BitVec 7) (b : BitVec 7) : Except DecodeError Instr :=
  match f with
  | 0 => .ok (.iaddI g d a b)
  | 1 => .ok (.isubI g d a b)
  | 2 => .ok (.imulI g d a b)
  | 3 => .ok (.imulhI g d a b)
  | 4 => .ok (.iminI g d a b)
  | 5 => .ok (.imaxI g d a b)
  | 6 => .ok (.iaddcI g d a b)
  | 7 => .ok (.isubcI g d a b)
  | _ => .error .reservedFn

/-- The words of major 0x04 (R66 to R68). -/
def decode04 (f : Nat) (g : BitVec 2) (d : BitVec 7) (a : BitVec 7) (b : BitVec 7) : Except DecodeError Instr :=
  match f with
  | 0 => .ok (.andV g d a b)
  | 1 => .ok (.orV g d a b)
  | 2 => .ok (.xorV g d a b)
  | 3 => .ok (.andnV g d a b)
  | 4 => .ok (.shlV g d a b)
  | 5 => .ok (.shrV g d a b)
  | 6 => .ok (.sarV g d a b)
  | 7 => .ok (.rotlV g d a b)
  | _ => .error .reservedFn

/-- The words of major 0x05 (R66 to R68). -/
def decode05 (f : Nat) (g : BitVec 2) (d : BitVec 7) (a : BitVec 7) (b : BitVec 7) : Except DecodeError Instr :=
  match f with
  | 0 => .ok (.andS g d a b)
  | 1 => .ok (.orS g d a b)
  | 2 => .ok (.xorS g d a b)
  | 3 => .ok (.andnS g d a b)
  | 4 => .ok (.shlS g d a b)
  | 5 => .ok (.shrS g d a b)
  | 6 => .ok (.sarS g d a b)
  | 7 => .ok (.rotlS g d a b)
  | _ => .error .reservedFn

/-- The words of major 0x06 (R66 to R68). -/
def decode06 (f : Nat) (g : BitVec 2) (d : BitVec 7) (a : BitVec 7) (b : BitVec 7) : Except DecodeError Instr :=
  match f with
  | 0 => .ok (.andI g d a b)
  | 1 => .ok (.orI g d a b)
  | 2 => .ok (.xorI g d a b)
  | 3 => .ok (.andnI g d a b)
  | 4 => .ok (.shlI g d a b)
  | 5 => .ok (.shrI g d a b)
  | 6 => .ok (.sarI g d a b)
  | 7 => .ok (.rotlI g d a b)
  | _ => .error .reservedFn

/-- The words of major 0x07 (R66 to R68). -/
def decode07 (f : Nat) (g : BitVec 2) (d : BitVec 7) (a : BitVec 7) (b : BitVec 7) : Except DecodeError Instr :=
  match f with
  | 0 => .ok (.idivV g d a b)
  | 1 => .ok (.iremV g d a b)
  | 2 => .ok (.iabsdV g d a b)
  | 3 => .ok (.iaddsatV g d a b)
  | 4 => .ok (.isubsatV g d a b)
  | 5 => .ok (.leaV g d a b)
  | 6 => .ok (.bpermV g d a b)
  | 7 => .ok (.imadV g d a b)
  | _ => .error .reservedFn

/-- The words of major 0x08 (R66 to R68). -/
def decode08 (f : Nat) (g : BitVec 2) (d : BitVec 7) (a : BitVec 7) (b : BitVec 7) : Except DecodeError Instr :=
  match f with
  | 0 => .ok (.idivS g d a b)
  | 1 => .ok (.iremS g d a b)
  | 2 => .ok (.iabsdS g d a b)
  | 3 => .ok (.iaddsatS g d a b)
  | 4 => .ok (.isubsatS g d a b)
  | 5 => .ok (.leaS g d a b)
  | 6 => .ok (.bpermS g d a b)
  | 7 => .ok (.imadS g d a b)
  | _ => .error .reservedFn

/-- The words of major 0x09 (R66 to R68). -/
def decode09 (f : Nat) (g : BitVec 2) (d : BitVec 7) (a : BitVec 7) (b : BitVec 7) : Except DecodeError Instr :=
  match f with
  | 0 => if b = 0#7 then .ok (.clz g d a) else .error .nonzeroField
  | 1 => if b = 0#7 then .ok (.ctz g d a) else .error .nonzeroField
  | 2 => if b = 0#7 then .ok (.popc g d a) else .error .nonzeroField
  | 3 => if b = 0#7 then .ok (.brev g d a) else .error .nonzeroField
  | 4 => if b = 0#7 then .ok (.iabs g d a) else .error .nonzeroField
  | 5 => if b = 0#7 then .ok (.ineg g d a) else .error .nonzeroField
  | 6 => if b = 0#7 then .ok (.notV g d a) else .error .nonzeroField
  | 7 => .ok (.icvt g d a (bits b 4 3) (bits b 1 3) (bits b 0 1))
  | _ => .error .reservedFn

/-- The words of major 0x0A (R66 to R68). -/
def decode0A (f : Nat) (g : BitVec 2) (d : BitVec 7) (a : BitVec 7) (b : BitVec 7) : Except DecodeError Instr :=
  match f with
  | 0 => .ok (.bfx g d a b)
  | 1 => .ok (.bfxn g d a b)
  | 2 => .ok (.bfi g d a b)
  | 3 => .ok (.fshl g d a b)
  | 4 => .ok (.fshr g d a b)
  | _ => .error .reservedFn

/-- The words of major 0x0B (R66 to R68). -/
def decode0B (f : Nat) (g : BitVec 2) (d : BitVec 7) (a : BitVec 7) (b : BitVec 7) : Except DecodeError Instr :=
  match f with
  | 0 => .ok (.isetEqV g (bits d 3 4) (bits d 0 3) a b)
  | 1 => .ok (.isetNeV g (bits d 3 4) (bits d 0 3) a b)
  | 2 => .ok (.isetLtV g (bits d 3 4) (bits d 0 3) a b)
  | 3 => .ok (.isetGeV g (bits d 3 4) (bits d 0 3) a b)
  | 4 => .ok (.isetLtnV g (bits d 3 4) (bits d 0 3) a b)
  | 5 => .ok (.isetGenV g (bits d 3 4) (bits d 0 3) a b)
  | 6 => .ok (.isetLeV g (bits d 3 4) (bits d 0 3) a b)
  | 7 => .ok (.isetGtV g (bits d 3 4) (bits d 0 3) a b)
  | _ => .error .reservedFn

/-- The words of major 0x0C (R66 to R68). -/
def decode0C (f : Nat) (g : BitVec 2) (d : BitVec 7) (a : BitVec 7) (b : BitVec 7) : Except DecodeError Instr :=
  match f with
  | 0 => .ok (.isetEqS g (bits d 3 4) (bits d 0 3) a b)
  | 1 => .ok (.isetNeS g (bits d 3 4) (bits d 0 3) a b)
  | 2 => .ok (.isetLtS g (bits d 3 4) (bits d 0 3) a b)
  | 3 => .ok (.isetGeS g (bits d 3 4) (bits d 0 3) a b)
  | 4 => .ok (.isetLtnS g (bits d 3 4) (bits d 0 3) a b)
  | 5 => .ok (.isetGenS g (bits d 3 4) (bits d 0 3) a b)
  | 6 => .ok (.isetLeS g (bits d 3 4) (bits d 0 3) a b)
  | 7 => .ok (.isetGtS g (bits d 3 4) (bits d 0 3) a b)
  | _ => .error .reservedFn

/-- The words of major 0x0D (R66 to R68). -/
def decode0D (f : Nat) (g : BitVec 2) (d : BitVec 7) (a : BitVec 7) (b : BitVec 7) : Except DecodeError Instr :=
  match f with
  | 0 => .ok (.isetEqI g (bits d 3 4) (bits d 0 3) a b)
  | 1 => .ok (.isetNeI g (bits d 3 4) (bits d 0 3) a b)
  | 2 => .ok (.isetLtI g (bits d 3 4) (bits d 0 3) a b)
  | 3 => .ok (.isetGeI g (bits d 3 4) (bits d 0 3) a b)
  | 4 => .ok (.isetLtnI g (bits d 3 4) (bits d 0 3) a b)
  | 5 => .ok (.isetGenI g (bits d 3 4) (bits d 0 3) a b)
  | 6 => .ok (.isetLeI g (bits d 3 4) (bits d 0 3) a b)
  | 7 => .ok (.isetGtI g (bits d 3 4) (bits d 0 3) a b)
  | _ => .error .reservedFn

/-- The words of major 0x0E (R66 to R68). -/
def decode0E (f : Nat) (g : BitVec 2) (d : BitVec 7) (a : BitVec 7) (b : BitVec 7) : Except DecodeError Instr :=
  match f with
  | 0 => if b = 0#7 then .ok (.mov g d a) else .error .nonzeroField
  | 1 => .ok (.sel g d a b)
  | 2 => if a = 0#7 then .ok (.bcast g d b) else .error .nonzeroField
  | 3 => if bits b 5 2 = 0#2 then .ok (.extract g d a (bits b 0 5)) else .error .nonzeroField
  | 4 => if a = 0#7 ∧ b = 0#7 then .ok (.pmovToVector g d) else if d = 0#7 ∧ b = 1#7 then .ok (.pmovToPredicates g a) else .error .nonzeroField
  | 5 => if b = 0#7 then .ok (.pset g (bits d 3 4) (bits d 0 3) a) else .error .nonzeroField
  | 6 => if bits a 3 4 = 0#4 ∧ bits b 3 4 = 0#4 then .ok (.plop g (bits d 3 4) (bits d 0 3) (bits a 0 3) (bits b 0 3)) else .error .nonzeroField
  | 7 => if bits a 3 4 = 0#4 ∧ bits b 2 5 = 0#5 then .ok (.vote g d (bits a 0 3) (bits b 0 2)) else .error .nonzeroField
  | _ => .error .reservedFn

/-- The words of major 0x10 (R66 to R68). -/
def decode10 (f : Nat) (g : BitVec 2) (d : BitVec 7) (a : BitVec 7) (b : BitVec 7) : Except DecodeError Instr :=
  match f with
  | 0 => .ok (.faddV g d a b)
  | 1 => .ok (.fsubV g d a b)
  | 2 => .ok (.fmulV g d a b)
  | 3 => .ok (.ffmaV g d a b)
  | 4 => .ok (.fminV g d a b)
  | 5 => .ok (.fmaxV g d a b)
  | 6 => .ok (.fscaleV g d a b)
  | 7 => .ok (.fcopysignV g d a b)
  | _ => .error .reservedFn

/-- The words of major 0x11 (R66 to R68). -/
def decode11 (f : Nat) (g : BitVec 2) (d : BitVec 7) (a : BitVec 7) (b : BitVec 7) : Except DecodeError Instr :=
  match f with
  | 0 => .ok (.faddS g d a b)
  | 1 => .ok (.fsubS g d a b)
  | 2 => .ok (.fmulS g d a b)
  | 3 => .ok (.ffmaS g d a b)
  | 4 => .ok (.fminS g d a b)
  | 5 => .ok (.fmaxS g d a b)
  | 6 => .ok (.fscaleS g d a b)
  | 7 => .ok (.fcopysignS g d a b)
  | _ => .error .reservedFn

/-- The words of major 0x12 (R66 to R68). -/
def decode12 (f : Nat) (g : BitVec 2) (d : BitVec 7) (a : BitVec 7) (b : BitVec 7) : Except DecodeError Instr :=
  match f with
  | 0 => .ok (.fsetEqV g (bits d 3 4) (bits d 0 3) a b)
  | 1 => .ok (.fsetNeV g (bits d 3 4) (bits d 0 3) a b)
  | 2 => .ok (.fsetLtV g (bits d 3 4) (bits d 0 3) a b)
  | 3 => .ok (.fsetLeV g (bits d 3 4) (bits d 0 3) a b)
  | 4 => .ok (.fsetGtV g (bits d 3 4) (bits d 0 3) a b)
  | 5 => .ok (.fsetGeV g (bits d 3 4) (bits d 0 3) a b)
  | 6 => .ok (.fsetUnorderedV g (bits d 3 4) (bits d 0 3) a b)
  | 7 => .ok (.fsetOrderedV g (bits d 3 4) (bits d 0 3) a b)
  | _ => .error .reservedFn

/-- The words of major 0x13 (R66 to R68). -/
def decode13 (f : Nat) (g : BitVec 2) (d : BitVec 7) (a : BitVec 7) (b : BitVec 7) : Except DecodeError Instr :=
  match f with
  | 0 => .ok (.fsetEqS g (bits d 3 4) (bits d 0 3) a b)
  | 1 => .ok (.fsetNeS g (bits d 3 4) (bits d 0 3) a b)
  | 2 => .ok (.fsetLtS g (bits d 3 4) (bits d 0 3) a b)
  | 3 => .ok (.fsetLeS g (bits d 3 4) (bits d 0 3) a b)
  | 4 => .ok (.fsetGtS g (bits d 3 4) (bits d 0 3) a b)
  | 5 => .ok (.fsetGeS g (bits d 3 4) (bits d 0 3) a b)
  | 6 => .ok (.fsetUnorderedS g (bits d 3 4) (bits d 0 3) a b)
  | 7 => .ok (.fsetOrderedS g (bits d 3 4) (bits d 0 3) a b)
  | _ => .error .reservedFn

/-- The words of major 0x14 (R66 to R68). -/
def decode14 (f : Nat) (g : BitVec 2) (d : BitVec 7) (a : BitVec 7) (b : BitVec 7) : Except DecodeError Instr :=
  match f with
  | 0 => if b = 0#7 then .ok (.frcp g d a) else .error .nonzeroField
  | 1 => if b = 0#7 then .ok (.frsq g d a) else .error .nonzeroField
  | 2 => if b = 0#7 then .ok (.fsqrt g d a) else .error .nonzeroField
  | 3 => if b = 0#7 then .ok (.fexp2 g d a) else .error .nonzeroField
  | 4 => if b = 0#7 then .ok (.flog2 g d a) else .error .nonzeroField
  | 5 => if b = 0#7 then .ok (.fsin g d a) else .error .nonzeroField
  | 6 => if b = 0#7 then .ok (.fcos g d a) else .error .nonzeroField
  | 7 => if b = 0#7 then .ok (.ftanh g d a) else .error .nonzeroField
  | _ => .error .reservedFn

/-- The words of major 0x15 (R66 to R68). -/
def decode15 (f : Nat) (g : BitVec 2) (d : BitVec 7) (a : BitVec 7) (b : BitVec 7) : Except DecodeError Instr :=
  match f with
  | 0 => .ok (.fdiv g d a b)
  | 1 => if b = 0#7 then .ok (.frnd g d a) else .error .nonzeroField
  | 2 => if b = 0#7 then .ok (.fclass g d a) else .error .nonzeroField
  | 3 => if b = 0#7 then .ok (.fabs g d a) else .error .nonzeroField
  | 4 => if b = 0#7 then .ok (.fneg g d a) else .error .nonzeroField
  | 5 => if b = 0#7 then .ok (.fsat g d a) else .error .nonzeroField
  | 6 => .ok (.fmed3 g d a b)
  | _ => .error .reservedFn

/-- The words of major 0x16 (R66 to R68). -/
def decode16 (f : Nat) (g : BitVec 2) (d : BitVec 7) (a : BitVec 7) (b : BitVec 7) : Except DecodeError Instr :=
  match f with
  | 0 => .ok (.dadd g d a b)
  | 1 => .ok (.dsub g d a b)
  | 2 => .ok (.dmul g d a b)
  | 3 => .ok (.dfma g d a b)
  | 4 => .ok (.dmin g d a b)
  | 5 => .ok (.dmax g d a b)
  | 6 => .ok (.ddiv g d a b)
  | 7 => if b = 0#7 then .ok (.dsqrt g d a) else .error .nonzeroField
  | _ => .error .reservedFn

/-- The words of major 0x17 (R66 to R68). -/
def decode17 (f : Nat) (g : BitVec 2) (d : BitVec 7) (a : BitVec 7) (b : BitVec 7) : Except DecodeError Instr :=
  match f with
  | 0 => .ok (.dsetEq g (bits d 3 4) (bits d 0 3) a b)
  | 1 => .ok (.dsetNe g (bits d 3 4) (bits d 0 3) a b)
  | 2 => .ok (.dsetLt g (bits d 3 4) (bits d 0 3) a b)
  | 3 => .ok (.dsetLe g (bits d 3 4) (bits d 0 3) a b)
  | 4 => .ok (.dsetGt g (bits d 3 4) (bits d 0 3) a b)
  | 5 => .ok (.dsetGe g (bits d 3 4) (bits d 0 3) a b)
  | 6 => .ok (.dsetUnordered g (bits d 3 4) (bits d 0 3) a b)
  | 7 => .ok (.dsetOrdered g (bits d 3 4) (bits d 0 3) a b)
  | _ => .error .reservedFn

/-- The words of major 0x18 (R66 to R68). -/
def decode18 (f : Nat) (g : BitVec 2) (d : BitVec 7) (a : BitVec 7) (b : BitVec 7) : Except DecodeError Instr :=
  match f with
  | 0 => .ok (.hadd2V g d a b)
  | 1 => .ok (.hmul2V g d a b)
  | 2 => .ok (.hfma2V g d a b)
  | 3 => .ok (.badd2V g d a b)
  | 4 => .ok (.bmul2V g d a b)
  | 5 => .ok (.bfma2V g d a b)
  | 6 => .ok (.hmin2V g d a b)
  | 7 => .ok (.hmax2V g d a b)
  | _ => .error .reservedFn

/-- The words of major 0x19 (R66 to R68). -/
def decode19 (f : Nat) (g : BitVec 2) (d : BitVec 7) (a : BitVec 7) (b : BitVec 7) : Except DecodeError Instr :=
  match f with
  | 0 => .ok (.hadd2S g d a b)
  | 1 => .ok (.hmul2S g d a b)
  | 2 => .ok (.hfma2S g d a b)
  | 3 => .ok (.badd2S g d a b)
  | 4 => .ok (.bmul2S g d a b)
  | 5 => .ok (.bfma2S g d a b)
  | 6 => .ok (.hmin2S g d a b)
  | 7 => .ok (.hmax2S g d a b)
  | _ => .error .reservedFn

/-- The words of major 0x1A (R66 to R68). -/
def decode1A (f : Nat) (g : BitVec 2) (d : BitVec 7) (a : BitVec 7) (b : BitVec 7) : Except DecodeError Instr :=
  match f with
  | 0 => .ok (.fcvt g d a (bits b 4 3) (bits b 1 3) (bits b 0 1))
  | 1 => .ok (.f2i g d a (bits b 4 3) (bits b 1 3) (bits b 0 1))
  | 2 => .ok (.i2f g d a (bits b 4 3) (bits b 1 3) (bits b 0 1))
  | 3 => .ok (.fpack g d a (bits b 4 3) (bits b 1 3) (bits b 0 1))
  | 4 => if bits b 0 1 = 0#1 then .ok (.funpack g d a (bits b 4 3) (bits b 1 3)) else .error .nonzeroField
  | 5 => if b = 0#7 then .ok (.bpack g d a) else .error .nonzeroField
  | 6 => if b = 0#7 then .ok (.bunpack g d a) else .error .nonzeroField
  | _ => .error .reservedFn

/-- The words of major 0x1C (R66 to R68). -/
noncomputable def decode1C (f : Nat) (g : BitVec 2) (d : BitVec 7) (a : BitVec 7) (b : BitVec 7) : Except DecodeError Instr :=
  match f with
  | 0 => .ok (.xget g d a b)
  | 1 => .ok (.xrot g d a b)
  | 2 => .ok (.xslide g d a b)
  | 3 => .ok (.xmirr g d a b)
  | 4 => .ok (.lred g d a b)
  | 5 => .ok (.lscan g d a b)
  | 6 => .ok (.compact g d a b)
  | 7 => .ok (.matchLanes g d a b)
  | _ => .error .reservedFn

/-- The words of major 0x1D (R66 to R68). -/
noncomputable def decode1D (f : Nat) (g : BitVec 2) (d : BitVec 7) (a : BitVec 7) (b : BitVec 7) : Except DecodeError Instr :=
  match f with
  | 0 => .ok (.intersect g d a b)
  | _ => .error .reservedFn

/-- The words of major 0x1E (R66 to R68). -/
def decode1E (f : Nat) (g : BitVec 2) (d : BitVec 7) (a : BitVec 7) (b : BitVec 7) : Except DecodeError Instr :=
  match f with
  | 0 => .ok (.idot4 g d a b)
  | 1 => .ok (.idot4n g d a b)
  | 2 => .ok (.idot4m g d a b)
  | 3 => .ok (.idot2 g d a b)
  | _ => .error .reservedFn

/-- The words of major 0x20 (R66). -/
noncomputable def decode20 (w : BitVec 2) (g : BitVec 2) (d : BitVec 7) (a : BitVec 7) (o : BitVec 8) : Except DecodeError Instr :=
  .ok (.ld w g d a o)

/-- The words of major 0x21 (R66). -/
noncomputable def decode21 (w : BitVec 2) (g : BitVec 2) (d : BitVec 7) (a : BitVec 7) (o : BitVec 8) : Except DecodeError Instr :=
  .ok (.st w g d a o)

/-- The words of major 0x22 (R66). -/
noncomputable def decode22 (w : BitVec 2) (g : BitVec 2) (d : BitVec 7) (a : BitVec 7) (o : BitVec 8) : Except DecodeError Instr :=
  .ok (.lds w g d a o)

/-- The words of major 0x23 (R66). -/
noncomputable def decode23 (w : BitVec 2) (g : BitVec 2) (d : BitVec 7) (a : BitVec 7) (o : BitVec 8) : Except DecodeError Instr :=
  .ok (.sts w g d a o)

/-- The words of major 0x24 (R66 to R68). -/
noncomputable def decode24 (f : Nat) (g : BitVec 2) (d : BitVec 7) (a : BitVec 7) (b : BitVec 7) : Except DecodeError Instr :=
  match f with
  | 0 => .ok (.ld8 g d a b)
  | 1 => .ok (.ld8n g d a b)
  | 2 => .ok (.ld16 g d a b)
  | 3 => .ok (.ld16n g d a b)
  | 4 => .ok (.st8 g d a b)
  | 5 => .ok (.st16 g d a b)
  | 6 => .ok (.ldbc g d a b)
  | 7 => if d = 0#7 then .ok (.pref g a b) else .error .nonzeroField
  | _ => .error .reservedFn

/-- The words of major 0x25 (R66 to R68). -/
noncomputable def decode25 (f : Nat) (g : BitVec 2) (d : BitVec 7) (a : BitVec 7) (b : BitVec 7) : Except DecodeError Instr :=
  match f with
  | 0 => .ok (.atomAdd g d a b)
  | 1 => .ok (.atomMin g d a b)
  | 2 => .ok (.atomMax g d a b)
  | 3 => .ok (.atomAnd g d a b)
  | 4 => .ok (.atomOr g d a b)
  | 5 => .ok (.atomXor g d a b)
  | 6 => .ok (.atomExch g d a b)
  | 7 => .ok (.atomCas g d a b)
  | _ => .error .reservedFn

/-- The words of major 0x26 (R66 to R68). -/
noncomputable def decode26 (f : Nat) (g : BitVec 2) (d : BitVec 7) (a : BitVec 7) (b : BitVec 7) : Except DecodeError Instr :=
  match f with
  | 0 => if d = 0#7 then .ok (.redAdd g a b) else .error .nonzeroField
  | 1 => if d = 0#7 then .ok (.redMin g a b) else .error .nonzeroField
  | 2 => if d = 0#7 then .ok (.redMax g a b) else .error .nonzeroField
  | 3 => if d = 0#7 then .ok (.redAnd g a b) else .error .nonzeroField
  | 4 => if d = 0#7 then .ok (.redOr g a b) else .error .nonzeroField
  | 5 => if d = 0#7 then .ok (.redXor g a b) else .error .nonzeroField
  | _ => .error .reservedFn

/-- The words of major 0x27 (R66 to R68). -/
noncomputable def decode27 (f : Nat) (g : BitVec 2) (d : BitVec 7) (a : BitVec 7) (b : BitVec 7) : Except DecodeError Instr :=
  match f with
  | 0 => .ok (.atomqAdd g d a b)
  | 1 => .ok (.atomqExch g d a b)
  | 2 => .ok (.atomqCas g d a b)
  | _ => .error .reservedFn

/-- The words of major 0x28 (R66 to R68). -/
noncomputable def decode28 (f : Nat) (r : BitVec 20) : Except DecodeError Instr :=
  match f with
  | 0 => if r = 0#20 then .ok (.fenceAcq) else .error .nonzeroField
  | 1 => if r = 0#20 then .ok (.fenceRel) else .error .nonzeroField
  | 2 => if r = 0#20 then .ok (.fenceAr) else .error .nonzeroField
  | 8 => if bits r 0 13 = 0#13 then .ok (.meet (bits r 17 3) (bits r 13 4)) else .error .nonzeroField
  | 9 => if bits r 0 13 = 0#13 then .ok (.meetArr (bits r 17 3) (bits r 13 4)) else .error .nonzeroField
  | 10 => if bits r 0 13 = 0#13 then .ok (.meetWait (bits r 17 3) (bits r 13 4)) else .error .nonzeroField
  | 11 => if bits r 7 2 = 0#2 then .ok (.meetRed (bits r 17 3) (bits r 13 4) (bits r 10 3) (bits r 9 1) (bits r 0 7)) else .error .nonzeroField
  | 16 => if r = 0#20 then .ok (.tfence) else .error .nonzeroField
  | _ => .error .reservedSub

/-- The words of major 0x29 (R66 to R68). -/
noncomputable def decode29 (f : Nat) (x : BitVec 7) (y : BitVec 7) (z : BitVec 7) : Except DecodeError Instr :=
  match f with
  | 0 => .ok (.tcopy x y z)
  | 1 => .ok (.tstore x y z)
  | 2 => .ok (.tgather x y z)
  | 3 => .ok (.tscatter x y z)
  | 4 => if y = 0#7 ∧ z = 0#7 then .ok (.tready x) else .error .nonzeroField
  | 5 => if y = 0#7 ∧ z = 0#7 then .ok (.trelease x) else .error .nonzeroField
  | 6 => if z = 0#7 then .ok (.tstate x y) else .error .nonzeroField
  | 7 => if z = 0#7 then .ok (.trows x y) else .error .nonzeroField
  | _ => .error .reservedSub

/-- The words of major 0x2A (R66 to R68). -/
noncomputable def decode2A (f : Nat) (x : BitVec 7) (y : BitVec 7) (z : BitVec 7) : Except DecodeError Instr :=
  match f with
  | 0 => if z = 0#7 then .ok (.mloadw x y) else .error .nonzeroField
  | 1 => .ok (.mma x y z)
  | 2 => .ok (.mmavs x y z)
  | 3 => if y = 0#7 ∧ z = 0#7 then .ok (.mfence x) else .error .nonzeroField
  | 4 => if y = 0#7 ∧ z = 0#7 then .ok (.mwait x) else .error .nonzeroField
  | 5 => if bits y 3 4 = 0#4 then .ok (.mstoreRegister x (bits y 0 3) z) else if bits y 3 4 = 8#4 then .ok (.mstoreTile x (bits y 0 3) z) else .error .nonzeroField
  | 6 => if y = 0#7 ∧ z = 0#7 then .ok (.mzero x) else .error .nonzeroField
  | 7 => .ok (.medge x y z)
  | 8 => if x = 0#7 ∧ y = 0#7 ∧ z = 0#7 then .ok (.mpairLeave) else if x = 1#7 ∧ y = 0#7 ∧ z = 0#7 then .ok (.mpairEnter) else .error .nonzeroField
  | 9 => if z = 0#7 then .ok (.mshape x y) else .error .nonzeroField
  | _ => .error .reservedSub

/-- The words of major 0x2B (R66 to R68). -/
noncomputable def decode2B (f : Nat) (x : BitVec 7) (y : BitVec 7) (z : BitVec 7) : Except DecodeError Instr :=
  match f with
  | 0 => .ok (.noderead x y z)
  | 1 => .ok (.inbox x y z)
  | 2 => if z = 0#7 then .ok (.yieldUp x y) else .error .nonzeroField
  | 3 => .ok (.hand x y z)
  | 4 => .ok (.nodealloc x y z)
  | 5 => if z = 0#7 then .ok (.treegrow x y) else .error .nonzeroField
  | 6 => if y = 0#7 ∧ z = 0#7 then .ok (.grove x) else .error .nonzeroField
  | 7 => if y = 0#7 ∧ z = 0#7 then .ok (.frame x) else .error .nonzeroField
  | _ => .error .reservedSub

/-- The words of major 0x2C (R66 to R68). -/
noncomputable def decode2C (f : Nat) (x : BitVec 7) (y : BitVec 7) (z : BitVec 7) : Except DecodeError Instr :=
  match f with
  | 0 => if bits z 6 1 = 0#1 then .ok (.spawn x y (bits z 5 1) (bits z 3 2) (bits z 0 3)) else .error .nonzeroField
  | 1 => if y = 0#7 ∧ z = 0#7 then .ok (.spawnf x) else .error .nonzeroField
  | 2 => if y = 0#7 ∧ z = 0#7 then .ok (.joinwait x) else .error .nonzeroField
  | 3 => if z = 0#7 then .ok (.joinadd x y) else .error .nonzeroField
  | 4 => if z = 0#7 then .ok (.payload x y) else .error .nonzeroField
  | 5 => if z = 0#7 then .ok (.spquery x y) else .error .nonzeroField
  | _ => .error .reservedSub

/-- The words of major 0x2D (R66 to R68). -/
noncomputable def decode2D (f : Nat) (x : BitVec 7) (y : BitVec 7) (z : BitVec 7) : Except DecodeError Instr :=
  match f with
  | 0 => if z = 0#7 then .ok (.capbegin x y) else .error .nonzeroField
  | 1 => if x = 0#7 ∧ y = 0#7 ∧ z = 0#7 then .ok (.capend) else .error .nonzeroField
  | 2 => if y = 0#7 ∧ z = 0#7 then .ok (.capres x) else .error .nonzeroField
  | 3 => if x = 0#7 ∧ y = 0#7 ∧ z = 0#7 then .ok (.capabort) else .error .nonzeroField
  | _ => .error .reservedSub

/-- The words of major 0x30 (R66). -/
noncomputable def decode30 (n : BitVec 1) (c : BitVec 3) (o : BitVec 22) : Except DecodeError Instr :=
  .ok (.bra n c o)

/-- The words of major 0x31 (R66). -/
noncomputable def decode31 (n : BitVec 1) (c : BitVec 3) (o : BitVec 22) : Except DecodeError Instr :=
  if bits c 2 1 = 1#1 then .ok (.call n (bits c 0 2) o) else .error .nonzeroField

/-- The words of major 0x32 (R66). -/
noncomputable def decode32 (n : BitVec 1) (c : BitVec 3) (o : BitVec 22) : Except DecodeError Instr :=
  if n = 0#1 ∧ c = 7#3 then .ok (.joinat o) else .error .nonzeroField

/-- The words of major 0x33 (R66 to R68). -/
noncomputable def decode33 (f : Nat) (r : BitVec 20) : Except DecodeError Instr :=
  match f with
  | 0 => if r = 0#20 then .ok (.nop) else .error .nonzeroField
  | 1 => if r = 0#20 then .ok (.exit) else .error .nonzeroField
  | 2 => if r = 0#20 then .ok (.ret) else .error .nonzeroField
  | 3 => if bits r 7 13 = 0#13 then .ok (.brxVector (bits r 0 7)) else if bits r 7 13 = 4096#13 then .ok (.brxScalar (bits r 0 7)) else .error .nonzeroField
  | 4 => .ok (.regang (bits r 12 8) (bits r 0 12))
  | 5 => if bits r 16 4 = 0#4 then .ok (.trap (bits r 0 16)) else .error .nonzeroField
  | 6 => if bits r 16 4 = 0#4 then .ok (.bkpt (bits r 0 16)) else .error .nonzeroField
  | 7 => .ok (.sleep r)
  | 8 => if r = 0#20 then .ok (.yieldq) else .error .nonzeroField
  | 9 => if bits r 7 13 = 0#13 then .ok (.tstamp (bits r 0 7)) else .error .nonzeroField
  | 10 => .ok (.sread (bits r 7 13) (bits r 0 7))
  | 11 => .ok (.swrite (bits r 7 13) (bits r 0 7))
  | 12 => if r = 0#20 then .ok (.iret) else .error .nonzeroField
  | 13 => if r = 0#20 then .ok (.park) else .error .nonzeroField
  | _ => .error .reservedSub

/-- The words of major 0x38 (R66 to R68). -/
def decode38 (f : Nat) (g : BitVec 2) (d : BitVec 7) (a : BitVec 7) (b : BitVec 7) : Except DecodeError Instr :=
  match f with
  | 0 => if g = 0#2 then .ok (.iaddUint d a b) else .error .nonzeroField
  | 1 => if g = 0#2 then .ok (.isubUint d a b) else .error .nonzeroField
  | 2 => if g = 0#2 then .ok (.imulUint d a b) else .error .nonzeroField
  | 3 => if g = 0#2 then .ok (.imulhUint d a b) else .error .nonzeroField
  | 4 => if g = 0#2 then .ok (.iminUint d a b) else .error .nonzeroField
  | 5 => if g = 0#2 then .ok (.imaxUint d a b) else .error .nonzeroField
  | 6 => if g = 0#2 then .ok (.iaddcUint d a b) else .error .nonzeroField
  | 7 => if g = 0#2 then .ok (.isubcUint d a b) else .error .nonzeroField
  | _ => .error .reservedFn

/-- The words of major 0x39 (R66 to R68). -/
def decode39 (f : Nat) (g : BitVec 2) (d : BitVec 7) (a : BitVec 7) (b : BitVec 7) : Except DecodeError Instr :=
  match f with
  | 0 => if g = 0#2 then .ok (.andUlog d a b) else .error .nonzeroField
  | 1 => if g = 0#2 then .ok (.orUlog d a b) else .error .nonzeroField
  | 2 => if g = 0#2 then .ok (.xorUlog d a b) else .error .nonzeroField
  | 3 => if g = 0#2 then .ok (.andnUlog d a b) else .error .nonzeroField
  | 4 => if g = 0#2 then .ok (.shlUlog d a b) else .error .nonzeroField
  | 5 => if g = 0#2 then .ok (.shrUlog d a b) else .error .nonzeroField
  | 6 => if g = 0#2 then .ok (.sarUlog d a b) else .error .nonzeroField
  | 7 => if g = 0#2 then .ok (.rotlUlog d a b) else .error .nonzeroField
  | _ => .error .reservedFn

/-- The words of major 0x3A (R66 to R68). -/
def decode3A (f : Nat) (g : BitVec 2) (d : BitVec 7) (a : BitVec 7) (b : BitVec 7) : Except DecodeError Instr :=
  match f with
  | 0 => if g = 0#2 then .ok (.iaddUintI d a b) else .error .nonzeroField
  | 1 => if g = 0#2 then .ok (.isubUintI d a b) else .error .nonzeroField
  | 2 => if g = 0#2 then .ok (.imulUintI d a b) else .error .nonzeroField
  | 3 => if g = 0#2 then .ok (.imulhUintI d a b) else .error .nonzeroField
  | 4 => if g = 0#2 then .ok (.iminUintI d a b) else .error .nonzeroField
  | 5 => if g = 0#2 then .ok (.imaxUintI d a b) else .error .nonzeroField
  | 6 => if g = 0#2 then .ok (.iaddcUintI d a b) else .error .nonzeroField
  | 7 => if g = 0#2 then .ok (.isubcUintI d a b) else .error .nonzeroField
  | _ => .error .reservedFn

/-- The words of major 0x3B (R66 to R68). -/
def decode3B (f : Nat) (g : BitVec 2) (d : BitVec 7) (a : BitVec 7) (b : BitVec 7) : Except DecodeError Instr :=
  match f with
  | 0 => if g = 0#2 then .ok (.andUlogI d a b) else .error .nonzeroField
  | 1 => if g = 0#2 then .ok (.orUlogI d a b) else .error .nonzeroField
  | 2 => if g = 0#2 then .ok (.xorUlogI d a b) else .error .nonzeroField
  | 3 => if g = 0#2 then .ok (.andnUlogI d a b) else .error .nonzeroField
  | 4 => if g = 0#2 then .ok (.shlUlogI d a b) else .error .nonzeroField
  | 5 => if g = 0#2 then .ok (.shrUlogI d a b) else .error .nonzeroField
  | 6 => if g = 0#2 then .ok (.sarUlogI d a b) else .error .nonzeroField
  | 7 => if g = 0#2 then .ok (.rotlUlogI d a b) else .error .nonzeroField
  | _ => .error .reservedFn

/-- The words of major 0x3C (R66 to R68). -/
def decode3C (sd : Nat) (g : BitVec 2) (d : BitVec 7) (i : BitVec 16) : Except DecodeError Instr :=
  match sd with
  | 0 => .ok (.moviVector g d i)
  | 1 => if g = 0#2 then .ok (.moviScalar d i) else .error .nonzeroField
  | _ => .error .reservedFn

/-- The words of major 0x3D (R66 to R68). -/
def decode3D (f : Nat) (g : BitVec 2) (d : BitVec 7) (a : BitVec 7) (b : BitVec 7) : Except DecodeError Instr :=
  match f with
  | 0 => if g = 0#2 then .ok (.usetEq (bits d 3 4) (bits d 0 3) a b) else .error .nonzeroField
  | 1 => if g = 0#2 then .ok (.usetNe (bits d 3 4) (bits d 0 3) a b) else .error .nonzeroField
  | 2 => if g = 0#2 then .ok (.usetLt (bits d 3 4) (bits d 0 3) a b) else .error .nonzeroField
  | 3 => if g = 0#2 then .ok (.usetGe (bits d 3 4) (bits d 0 3) a b) else .error .nonzeroField
  | 4 => if g = 0#2 then .ok (.usetLtn (bits d 3 4) (bits d 0 3) a b) else .error .nonzeroField
  | 5 => if g = 0#2 then .ok (.usetGen (bits d 3 4) (bits d 0 3) a b) else .error .nonzeroField
  | 6 => if g = 0#2 then .ok (.usetLe (bits d 3 4) (bits d 0 3) a b) else .error .nonzeroField
  | 7 => if g = 0#2 then .ok (.usetGt (bits d 3 4) (bits d 0 3) a b) else .error .nonzeroField
  | _ => .error .reservedFn

/-- The words of major 0x3F (R66 to R68). -/
noncomputable def decode3F (f : Nat) (r : BitVec 22) : Except DecodeError Instr :=
  match f with
  | 0 => .ok (.hintImm r)
  | 1 => if bits r 4 18 = 0#18 then .ok (.hintGuard (bits r 3 1) (bits r 0 3)) else .error .nonzeroField
  | 2 => if bits r 3 19 = 0#19 then .ok (.hintSrcx (bits r 2 1) (bits r 1 1) (bits r 0 1)) else .error .nonzeroField
  | 3 => if bits r 7 15 = 0#15 then .ok (.hintCreg (bits r 0 7)) else .error .nonzeroField
  | 4 => if bits r 5 17 = 0#17 then .ok (.hintType (bits r 0 5)) else .error .nonzeroField
  | 5 => if bits r 5 17 = 0#17 then .ok (.hintRound (bits r 4 1) (bits r 3 1) (bits r 0 3)) else .error .nonzeroField
  | 6 => if bits r 5 17 = 0#17 then .ok (.hintSched (bits r 4 1) (bits r 0 4)) else .error .nonzeroField
  | 7 => if bits r 3 19 = 0#19 then .ok (.hintCache (bits r 0 3)) else .error .nonzeroField
  | _ => .error .reservedKind

/-- The instruction a word holds, or why it holds none (R66 to R69). Operand ranges that R46 to R50 give are no
business of the decoder: they are checked at issue, in the order of R71. -/
noncomputable def decode (w : Word) : Except DecodeError Instr :=
  match (bits w 26 6).toNat with
  | 1 => decode01 (bits w 23 3).toNat (bits w 21 2) (bits w 14 7) (bits w 7 7) (bits w 0 7)
  | 2 => decode02 (bits w 23 3).toNat (bits w 21 2) (bits w 14 7) (bits w 7 7) (bits w 0 7)
  | 3 => decode03 (bits w 23 3).toNat (bits w 21 2) (bits w 14 7) (bits w 7 7) (bits w 0 7)
  | 4 => decode04 (bits w 23 3).toNat (bits w 21 2) (bits w 14 7) (bits w 7 7) (bits w 0 7)
  | 5 => decode05 (bits w 23 3).toNat (bits w 21 2) (bits w 14 7) (bits w 7 7) (bits w 0 7)
  | 6 => decode06 (bits w 23 3).toNat (bits w 21 2) (bits w 14 7) (bits w 7 7) (bits w 0 7)
  | 7 => decode07 (bits w 23 3).toNat (bits w 21 2) (bits w 14 7) (bits w 7 7) (bits w 0 7)
  | 8 => decode08 (bits w 23 3).toNat (bits w 21 2) (bits w 14 7) (bits w 7 7) (bits w 0 7)
  | 9 => decode09 (bits w 23 3).toNat (bits w 21 2) (bits w 14 7) (bits w 7 7) (bits w 0 7)
  | 10 => decode0A (bits w 23 3).toNat (bits w 21 2) (bits w 14 7) (bits w 7 7) (bits w 0 7)
  | 11 => decode0B (bits w 23 3).toNat (bits w 21 2) (bits w 14 7) (bits w 7 7) (bits w 0 7)
  | 12 => decode0C (bits w 23 3).toNat (bits w 21 2) (bits w 14 7) (bits w 7 7) (bits w 0 7)
  | 13 => decode0D (bits w 23 3).toNat (bits w 21 2) (bits w 14 7) (bits w 7 7) (bits w 0 7)
  | 14 => decode0E (bits w 23 3).toNat (bits w 21 2) (bits w 14 7) (bits w 7 7) (bits w 0 7)
  | 16 => decode10 (bits w 23 3).toNat (bits w 21 2) (bits w 14 7) (bits w 7 7) (bits w 0 7)
  | 17 => decode11 (bits w 23 3).toNat (bits w 21 2) (bits w 14 7) (bits w 7 7) (bits w 0 7)
  | 18 => decode12 (bits w 23 3).toNat (bits w 21 2) (bits w 14 7) (bits w 7 7) (bits w 0 7)
  | 19 => decode13 (bits w 23 3).toNat (bits w 21 2) (bits w 14 7) (bits w 7 7) (bits w 0 7)
  | 20 => decode14 (bits w 23 3).toNat (bits w 21 2) (bits w 14 7) (bits w 7 7) (bits w 0 7)
  | 21 => decode15 (bits w 23 3).toNat (bits w 21 2) (bits w 14 7) (bits w 7 7) (bits w 0 7)
  | 22 => decode16 (bits w 23 3).toNat (bits w 21 2) (bits w 14 7) (bits w 7 7) (bits w 0 7)
  | 23 => decode17 (bits w 23 3).toNat (bits w 21 2) (bits w 14 7) (bits w 7 7) (bits w 0 7)
  | 24 => decode18 (bits w 23 3).toNat (bits w 21 2) (bits w 14 7) (bits w 7 7) (bits w 0 7)
  | 25 => decode19 (bits w 23 3).toNat (bits w 21 2) (bits w 14 7) (bits w 7 7) (bits w 0 7)
  | 26 => decode1A (bits w 23 3).toNat (bits w 21 2) (bits w 14 7) (bits w 7 7) (bits w 0 7)
  | 28 => decode1C (bits w 23 3).toNat (bits w 21 2) (bits w 14 7) (bits w 7 7) (bits w 0 7)
  | 29 => decode1D (bits w 23 3).toNat (bits w 21 2) (bits w 14 7) (bits w 7 7) (bits w 0 7)
  | 30 => decode1E (bits w 23 3).toNat (bits w 21 2) (bits w 14 7) (bits w 7 7) (bits w 0 7)
  | 32 => decode20 (bits w 24 2) (bits w 22 2) (bits w 15 7) (bits w 8 7) (bits w 0 8)
  | 33 => decode21 (bits w 24 2) (bits w 22 2) (bits w 15 7) (bits w 8 7) (bits w 0 8)
  | 34 => decode22 (bits w 24 2) (bits w 22 2) (bits w 15 7) (bits w 8 7) (bits w 0 8)
  | 35 => decode23 (bits w 24 2) (bits w 22 2) (bits w 15 7) (bits w 8 7) (bits w 0 8)
  | 36 => decode24 (bits w 23 3).toNat (bits w 21 2) (bits w 14 7) (bits w 7 7) (bits w 0 7)
  | 37 => decode25 (bits w 23 3).toNat (bits w 21 2) (bits w 14 7) (bits w 7 7) (bits w 0 7)
  | 38 => decode26 (bits w 23 3).toNat (bits w 21 2) (bits w 14 7) (bits w 7 7) (bits w 0 7)
  | 39 => decode27 (bits w 23 3).toNat (bits w 21 2) (bits w 14 7) (bits w 7 7) (bits w 0 7)
  | 40 => decode28 (bits w 20 6).toNat (bits w 0 20)
  | 41 => decode29 (bits w 21 5).toNat (bits w 14 7) (bits w 7 7) (bits w 0 7)
  | 42 => decode2A (bits w 21 5).toNat (bits w 14 7) (bits w 7 7) (bits w 0 7)
  | 43 => decode2B (bits w 21 5).toNat (bits w 14 7) (bits w 7 7) (bits w 0 7)
  | 44 => decode2C (bits w 21 5).toNat (bits w 14 7) (bits w 7 7) (bits w 0 7)
  | 45 => decode2D (bits w 21 5).toNat (bits w 14 7) (bits w 7 7) (bits w 0 7)
  | 48 => decode30 (bits w 25 1) (bits w 22 3) (bits w 0 22)
  | 49 => decode31 (bits w 25 1) (bits w 22 3) (bits w 0 22)
  | 50 => decode32 (bits w 25 1) (bits w 22 3) (bits w 0 22)
  | 51 => decode33 (bits w 20 6).toNat (bits w 0 20)
  | 56 => decode38 (bits w 23 3).toNat (bits w 21 2) (bits w 14 7) (bits w 7 7) (bits w 0 7)
  | 57 => decode39 (bits w 23 3).toNat (bits w 21 2) (bits w 14 7) (bits w 7 7) (bits w 0 7)
  | 58 => decode3A (bits w 23 3).toNat (bits w 21 2) (bits w 14 7) (bits w 7 7) (bits w 0 7)
  | 59 => decode3B (bits w 23 3).toNat (bits w 21 2) (bits w 14 7) (bits w 7 7) (bits w 0 7)
  | 60 => decode3C (bits w 25 1).toNat (bits w 23 2) (bits w 16 7) (bits w 0 16)
  | 61 => decode3D (bits w 23 3).toNat (bits w 21 2) (bits w 14 7) (bits w 7 7) (bits w 0 7)
  | 63 => decode3F (bits w 22 4).toNat (bits w 0 22)
  | _ => .error .reservedMajor

/-- A little-endian word from its four bytes (R5, R43). -/
def wordOfBytes (b0 b1 b2 b3 : Byte) : Word := b3 ++ b2 ++ b1 ++ b0

/-- The instruction at the head of a list of bytes, with the rest of the list. -/
noncomputable def decodeBytes : List Byte → Except DecodeError (Instr × List Byte)
  | b0 :: b1 :: b2 :: b3 :: rest => (decode (wordOfBytes b0 b1 b2 b3)).map (fun i => (i, rest))
  | _ => .error .truncated

/-- What the decoder reads from an instruction whose bits are `w`, numbered as the opcode table numbers them. Every
instruction of this hardware is one word of 32 bits (R43); a row of no bits is an event, which no word encodes. -/
noncomputable def decodeTableWord (nbits w : Nat) : Option Instr :=
  if nbits = 0 ∨ 32 < nbits ∨ 2 ^ nbits ≤ w then none
  else match decodeBytes [BitVec.ofNat 8 w, BitVec.ofNat 8 (w / 2 ^ 8), BitVec.ofNat 8 (w / 2 ^ 16), BitVec.ofNat 8 (w / 2 ^ 24)] with
    | .ok (i, _) => some i
    | .error _ => none

/-- Format F1: three registers, and F2 with an immediate in b (R44). -/
def encF1 (major : BitVec 6) (fn : BitVec 3) (g : BitVec 2) (d a b : BitVec 7) : Word :=
  major ++ fn ++ g ++ d ++ a ++ b

/-- Format F3: MOVI (R44). -/
def encF3 (major : BitVec 6) (sd : BitVec 1) (g : BitVec 2) (d : BitVec 7) (i : BitVec 16) : Word :=
  major ++ sd ++ g ++ d ++ i

/-- Format F4: branch (R44). -/
def encF4 (major : BitVec 6) (n : BitVec 1) (c : BitVec 3) (o : BitVec 22) : Word :=
  major ++ n ++ c ++ o

/-- Format F5: memory (R44). -/
def encF5 (major : BitVec 6) (w g : BitVec 2) (d a : BitVec 7) (o : BitVec 8) : Word :=
  major ++ w ++ g ++ d ++ a ++ o

/-- Format F6: system (R44). -/
def encF6 (major : BitVec 6) (sub : BitVec 6) (r : BitVec 20) : Word :=
  major ++ sub ++ r

/-- Format F7: hint (R44). -/
def encF7 (major : BitVec 6) (kind : BitVec 4) (p : BitVec 22) : Word :=
  major ++ kind ++ p

/-- Format F8: engine (R44). -/
def encF8 (major : BitVec 6) (sub : BitVec 5) (x y z : BitVec 7) : Word :=
  major ++ sub ++ x ++ y ++ z

/-- The word of an instruction; none for an event, which has no word (R44, R66 to R68). -/
def encode : Instr → Option Word
  | .iaddV g d a b => some (encF1 0x01#6 0#3 g d a b)
  | .iaddS g d a b => some (encF1 0x02#6 0#3 g d a b)
  | .iaddI g d a i => some (encF1 0x03#6 0#3 g d a i)
  | .iaddUint d a b => some (encF1 0x38#6 0#3 0#2 d a b)
  | .iaddUintI d a i => some (encF1 0x3A#6 0#3 0#2 d a i)
  | .isubV g d a b => some (encF1 0x01#6 1#3 g d a b)
  | .isubS g d a b => some (encF1 0x02#6 1#3 g d a b)
  | .isubI g d a i => some (encF1 0x03#6 1#3 g d a i)
  | .isubUint d a b => some (encF1 0x38#6 1#3 0#2 d a b)
  | .isubUintI d a i => some (encF1 0x3A#6 1#3 0#2 d a i)
  | .imulV g d a b => some (encF1 0x01#6 2#3 g d a b)
  | .imulS g d a b => some (encF1 0x02#6 2#3 g d a b)
  | .imulI g d a i => some (encF1 0x03#6 2#3 g d a i)
  | .imulUint d a b => some (encF1 0x38#6 2#3 0#2 d a b)
  | .imulUintI d a i => some (encF1 0x3A#6 2#3 0#2 d a i)
  | .imulhV g d a b => some (encF1 0x01#6 3#3 g d a b)
  | .imulhS g d a b => some (encF1 0x02#6 3#3 g d a b)
  | .imulhI g d a i => some (encF1 0x03#6 3#3 g d a i)
  | .imulhUint d a b => some (encF1 0x38#6 3#3 0#2 d a b)
  | .imulhUintI d a i => some (encF1 0x3A#6 3#3 0#2 d a i)
  | .iminV g d a b => some (encF1 0x01#6 4#3 g d a b)
  | .iminS g d a b => some (encF1 0x02#6 4#3 g d a b)
  | .iminI g d a i => some (encF1 0x03#6 4#3 g d a i)
  | .iminUint d a b => some (encF1 0x38#6 4#3 0#2 d a b)
  | .iminUintI d a i => some (encF1 0x3A#6 4#3 0#2 d a i)
  | .imaxV g d a b => some (encF1 0x01#6 5#3 g d a b)
  | .imaxS g d a b => some (encF1 0x02#6 5#3 g d a b)
  | .imaxI g d a i => some (encF1 0x03#6 5#3 g d a i)
  | .imaxUint d a b => some (encF1 0x38#6 5#3 0#2 d a b)
  | .imaxUintI d a i => some (encF1 0x3A#6 5#3 0#2 d a i)
  | .iaddcV g d a b => some (encF1 0x01#6 6#3 g d a b)
  | .iaddcS g d a b => some (encF1 0x02#6 6#3 g d a b)
  | .iaddcI g d a i => some (encF1 0x03#6 6#3 g d a i)
  | .iaddcUint d a b => some (encF1 0x38#6 6#3 0#2 d a b)
  | .iaddcUintI d a i => some (encF1 0x3A#6 6#3 0#2 d a i)
  | .isubcV g d a b => some (encF1 0x01#6 7#3 g d a b)
  | .isubcS g d a b => some (encF1 0x02#6 7#3 g d a b)
  | .isubcI g d a i => some (encF1 0x03#6 7#3 g d a i)
  | .isubcUint d a b => some (encF1 0x38#6 7#3 0#2 d a b)
  | .isubcUintI d a i => some (encF1 0x3A#6 7#3 0#2 d a i)
  | .andV g d a b => some (encF1 0x04#6 0#3 g d a b)
  | .andS g d a b => some (encF1 0x05#6 0#3 g d a b)
  | .andI g d a i => some (encF1 0x06#6 0#3 g d a i)
  | .andUlog d a b => some (encF1 0x39#6 0#3 0#2 d a b)
  | .andUlogI d a i => some (encF1 0x3B#6 0#3 0#2 d a i)
  | .orV g d a b => some (encF1 0x04#6 1#3 g d a b)
  | .orS g d a b => some (encF1 0x05#6 1#3 g d a b)
  | .orI g d a i => some (encF1 0x06#6 1#3 g d a i)
  | .orUlog d a b => some (encF1 0x39#6 1#3 0#2 d a b)
  | .orUlogI d a i => some (encF1 0x3B#6 1#3 0#2 d a i)
  | .xorV g d a b => some (encF1 0x04#6 2#3 g d a b)
  | .xorS g d a b => some (encF1 0x05#6 2#3 g d a b)
  | .xorI g d a i => some (encF1 0x06#6 2#3 g d a i)
  | .xorUlog d a b => some (encF1 0x39#6 2#3 0#2 d a b)
  | .xorUlogI d a i => some (encF1 0x3B#6 2#3 0#2 d a i)
  | .andnV g d a b => some (encF1 0x04#6 3#3 g d a b)
  | .andnS g d a b => some (encF1 0x05#6 3#3 g d a b)
  | .andnI g d a i => some (encF1 0x06#6 3#3 g d a i)
  | .andnUlog d a b => some (encF1 0x39#6 3#3 0#2 d a b)
  | .andnUlogI d a i => some (encF1 0x3B#6 3#3 0#2 d a i)
  | .shlV g d a b => some (encF1 0x04#6 4#3 g d a b)
  | .shlS g d a b => some (encF1 0x05#6 4#3 g d a b)
  | .shlI g d a i => some (encF1 0x06#6 4#3 g d a i)
  | .shlUlog d a b => some (encF1 0x39#6 4#3 0#2 d a b)
  | .shlUlogI d a i => some (encF1 0x3B#6 4#3 0#2 d a i)
  | .shrV g d a b => some (encF1 0x04#6 5#3 g d a b)
  | .shrS g d a b => some (encF1 0x05#6 5#3 g d a b)
  | .shrI g d a i => some (encF1 0x06#6 5#3 g d a i)
  | .shrUlog d a b => some (encF1 0x39#6 5#3 0#2 d a b)
  | .shrUlogI d a i => some (encF1 0x3B#6 5#3 0#2 d a i)
  | .sarV g d a b => some (encF1 0x04#6 6#3 g d a b)
  | .sarS g d a b => some (encF1 0x05#6 6#3 g d a b)
  | .sarI g d a i => some (encF1 0x06#6 6#3 g d a i)
  | .sarUlog d a b => some (encF1 0x39#6 6#3 0#2 d a b)
  | .sarUlogI d a i => some (encF1 0x3B#6 6#3 0#2 d a i)
  | .rotlV g d a b => some (encF1 0x04#6 7#3 g d a b)
  | .rotlS g d a b => some (encF1 0x05#6 7#3 g d a b)
  | .rotlI g d a i => some (encF1 0x06#6 7#3 g d a i)
  | .rotlUlog d a b => some (encF1 0x39#6 7#3 0#2 d a b)
  | .rotlUlogI d a i => some (encF1 0x3B#6 7#3 0#2 d a i)
  | .idivV g d a b => some (encF1 0x07#6 0#3 g d a b)
  | .idivS g d a b => some (encF1 0x08#6 0#3 g d a b)
  | .iremV g d a b => some (encF1 0x07#6 1#3 g d a b)
  | .iremS g d a b => some (encF1 0x08#6 1#3 g d a b)
  | .iabsdV g d a b => some (encF1 0x07#6 2#3 g d a b)
  | .iabsdS g d a b => some (encF1 0x08#6 2#3 g d a b)
  | .iaddsatV g d a b => some (encF1 0x07#6 3#3 g d a b)
  | .iaddsatS g d a b => some (encF1 0x08#6 3#3 g d a b)
  | .isubsatV g d a b => some (encF1 0x07#6 4#3 g d a b)
  | .isubsatS g d a b => some (encF1 0x08#6 4#3 g d a b)
  | .leaV g d a b => some (encF1 0x07#6 5#3 g d a b)
  | .leaS g d a b => some (encF1 0x08#6 5#3 g d a b)
  | .bpermV g d a b => some (encF1 0x07#6 6#3 g d a b)
  | .bpermS g d a b => some (encF1 0x08#6 6#3 g d a b)
  | .imadV g d a b => some (encF1 0x07#6 7#3 g d a b)
  | .imadS g d a b => some (encF1 0x08#6 7#3 g d a b)
  | .clz g d a => some (encF1 0x09#6 0#3 g d a 0#7)
  | .ctz g d a => some (encF1 0x09#6 1#3 g d a 0#7)
  | .popc g d a => some (encF1 0x09#6 2#3 g d a 0#7)
  | .brev g d a => some (encF1 0x09#6 3#3 g d a 0#7)
  | .iabs g d a => some (encF1 0x09#6 4#3 g d a 0#7)
  | .ineg g d a => some (encF1 0x09#6 5#3 g d a 0#7)
  | .notV g d a => some (encF1 0x09#6 6#3 g d a 0#7)
  | .icvt g d a s x t => some (encF1 0x09#6 7#3 g d a (s ++ x ++ t))
  | .bfx g d a b => some (encF1 0x0A#6 0#3 g d a b)
  | .bfxn g d a b => some (encF1 0x0A#6 1#3 g d a b)
  | .bfi g d a b => some (encF1 0x0A#6 2#3 g d a b)
  | .fshl g d a b => some (encF1 0x0A#6 3#3 g d a b)
  | .fshr g d a b => some (encF1 0x0A#6 4#3 g d a b)
  | .idot4 g d a b => some (encF1 0x1E#6 0#3 g d a b)
  | .idot4n g d a b => some (encF1 0x1E#6 1#3 g d a b)
  | .idot4m g d a b => some (encF1 0x1E#6 2#3 g d a b)
  | .idot2 g d a b => some (encF1 0x1E#6 3#3 g d a b)
  | .isetEqV g c p a b => some (encF1 0x0B#6 0#3 g (c ++ p) a b)
  | .isetEqS g c p a b => some (encF1 0x0C#6 0#3 g (c ++ p) a b)
  | .isetEqI g c p a i => some (encF1 0x0D#6 0#3 g (c ++ p) a i)
  | .isetNeV g c p a b => some (encF1 0x0B#6 1#3 g (c ++ p) a b)
  | .isetNeS g c p a b => some (encF1 0x0C#6 1#3 g (c ++ p) a b)
  | .isetNeI g c p a i => some (encF1 0x0D#6 1#3 g (c ++ p) a i)
  | .isetLtV g c p a b => some (encF1 0x0B#6 2#3 g (c ++ p) a b)
  | .isetLtS g c p a b => some (encF1 0x0C#6 2#3 g (c ++ p) a b)
  | .isetLtI g c p a i => some (encF1 0x0D#6 2#3 g (c ++ p) a i)
  | .isetGeV g c p a b => some (encF1 0x0B#6 3#3 g (c ++ p) a b)
  | .isetGeS g c p a b => some (encF1 0x0C#6 3#3 g (c ++ p) a b)
  | .isetGeI g c p a i => some (encF1 0x0D#6 3#3 g (c ++ p) a i)
  | .isetLtnV g c p a b => some (encF1 0x0B#6 4#3 g (c ++ p) a b)
  | .isetLtnS g c p a b => some (encF1 0x0C#6 4#3 g (c ++ p) a b)
  | .isetLtnI g c p a i => some (encF1 0x0D#6 4#3 g (c ++ p) a i)
  | .isetGenV g c p a b => some (encF1 0x0B#6 5#3 g (c ++ p) a b)
  | .isetGenS g c p a b => some (encF1 0x0C#6 5#3 g (c ++ p) a b)
  | .isetGenI g c p a i => some (encF1 0x0D#6 5#3 g (c ++ p) a i)
  | .isetLeV g c p a b => some (encF1 0x0B#6 6#3 g (c ++ p) a b)
  | .isetLeS g c p a b => some (encF1 0x0C#6 6#3 g (c ++ p) a b)
  | .isetLeI g c p a i => some (encF1 0x0D#6 6#3 g (c ++ p) a i)
  | .isetGtV g c p a b => some (encF1 0x0B#6 7#3 g (c ++ p) a b)
  | .isetGtS g c p a b => some (encF1 0x0C#6 7#3 g (c ++ p) a b)
  | .isetGtI g c p a i => some (encF1 0x0D#6 7#3 g (c ++ p) a i)
  | .usetEq c p a b => some (encF1 0x3D#6 0#3 0#2 (c ++ p) a b)
  | .usetNe c p a b => some (encF1 0x3D#6 1#3 0#2 (c ++ p) a b)
  | .usetLt c p a b => some (encF1 0x3D#6 2#3 0#2 (c ++ p) a b)
  | .usetGe c p a b => some (encF1 0x3D#6 3#3 0#2 (c ++ p) a b)
  | .usetLtn c p a b => some (encF1 0x3D#6 4#3 0#2 (c ++ p) a b)
  | .usetGen c p a b => some (encF1 0x3D#6 5#3 0#2 (c ++ p) a b)
  | .usetLe c p a b => some (encF1 0x3D#6 6#3 0#2 (c ++ p) a b)
  | .usetGt c p a b => some (encF1 0x3D#6 7#3 0#2 (c ++ p) a b)
  | .mov g d a => some (encF1 0x0E#6 0#3 g d a 0#7)
  | .sel g d a b => some (encF1 0x0E#6 1#3 g d a b)
  | .bcast g d b => some (encF1 0x0E#6 2#3 g d 0#7 b)
  | .extract g d a l => some (encF1 0x0E#6 3#3 g d a (0#2 ++ l))
  | .pmovToVector g d => some (encF1 0x0E#6 4#3 g d 0#7 0#7)
  | .pmovToPredicates g a => some (encF1 0x0E#6 4#3 g 0#7 a 1#7)
  | .pset g c p a => some (encF1 0x0E#6 5#3 g (c ++ p) a 0#7)
  | .plop g l p a b => some (encF1 0x0E#6 6#3 g (l ++ p) (0#4 ++ a) (0#4 ++ b))
  | .vote g d a m => some (encF1 0x0E#6 7#3 g d (0#4 ++ a) (0#5 ++ m))
  | .moviVector g d i => some (encF3 0x3C#6 0#1 g d i)
  | .moviScalar d i => some (encF3 0x3C#6 1#1 0#2 d i)
  | .faddV g d a b => some (encF1 0x10#6 0#3 g d a b)
  | .faddS g d a b => some (encF1 0x11#6 0#3 g d a b)
  | .fsubV g d a b => some (encF1 0x10#6 1#3 g d a b)
  | .fsubS g d a b => some (encF1 0x11#6 1#3 g d a b)
  | .fmulV g d a b => some (encF1 0x10#6 2#3 g d a b)
  | .fmulS g d a b => some (encF1 0x11#6 2#3 g d a b)
  | .ffmaV g d a b => some (encF1 0x10#6 3#3 g d a b)
  | .ffmaS g d a b => some (encF1 0x11#6 3#3 g d a b)
  | .fminV g d a b => some (encF1 0x10#6 4#3 g d a b)
  | .fminS g d a b => some (encF1 0x11#6 4#3 g d a b)
  | .fmaxV g d a b => some (encF1 0x10#6 5#3 g d a b)
  | .fmaxS g d a b => some (encF1 0x11#6 5#3 g d a b)
  | .fscaleV g d a b => some (encF1 0x10#6 6#3 g d a b)
  | .fscaleS g d a b => some (encF1 0x11#6 6#3 g d a b)
  | .fcopysignV g d a b => some (encF1 0x10#6 7#3 g d a b)
  | .fcopysignS g d a b => some (encF1 0x11#6 7#3 g d a b)
  | .fsetEqV g c p a b => some (encF1 0x12#6 0#3 g (c ++ p) a b)
  | .fsetEqS g c p a b => some (encF1 0x13#6 0#3 g (c ++ p) a b)
  | .fsetNeV g c p a b => some (encF1 0x12#6 1#3 g (c ++ p) a b)
  | .fsetNeS g c p a b => some (encF1 0x13#6 1#3 g (c ++ p) a b)
  | .fsetLtV g c p a b => some (encF1 0x12#6 2#3 g (c ++ p) a b)
  | .fsetLtS g c p a b => some (encF1 0x13#6 2#3 g (c ++ p) a b)
  | .fsetLeV g c p a b => some (encF1 0x12#6 3#3 g (c ++ p) a b)
  | .fsetLeS g c p a b => some (encF1 0x13#6 3#3 g (c ++ p) a b)
  | .fsetGtV g c p a b => some (encF1 0x12#6 4#3 g (c ++ p) a b)
  | .fsetGtS g c p a b => some (encF1 0x13#6 4#3 g (c ++ p) a b)
  | .fsetGeV g c p a b => some (encF1 0x12#6 5#3 g (c ++ p) a b)
  | .fsetGeS g c p a b => some (encF1 0x13#6 5#3 g (c ++ p) a b)
  | .fsetUnorderedV g c p a b => some (encF1 0x12#6 6#3 g (c ++ p) a b)
  | .fsetUnorderedS g c p a b => some (encF1 0x13#6 6#3 g (c ++ p) a b)
  | .fsetOrderedV g c p a b => some (encF1 0x12#6 7#3 g (c ++ p) a b)
  | .fsetOrderedS g c p a b => some (encF1 0x13#6 7#3 g (c ++ p) a b)
  | .frcp g d a => some (encF1 0x14#6 0#3 g d a 0#7)
  | .frsq g d a => some (encF1 0x14#6 1#3 g d a 0#7)
  | .fsqrt g d a => some (encF1 0x14#6 2#3 g d a 0#7)
  | .fexp2 g d a => some (encF1 0x14#6 3#3 g d a 0#7)
  | .flog2 g d a => some (encF1 0x14#6 4#3 g d a 0#7)
  | .fsin g d a => some (encF1 0x14#6 5#3 g d a 0#7)
  | .fcos g d a => some (encF1 0x14#6 6#3 g d a 0#7)
  | .ftanh g d a => some (encF1 0x14#6 7#3 g d a 0#7)
  | .fdiv g d a b => some (encF1 0x15#6 0#3 g d a b)
  | .frnd g d a => some (encF1 0x15#6 1#3 g d a 0#7)
  | .fclass g d a => some (encF1 0x15#6 2#3 g d a 0#7)
  | .fabs g d a => some (encF1 0x15#6 3#3 g d a 0#7)
  | .fneg g d a => some (encF1 0x15#6 4#3 g d a 0#7)
  | .fsat g d a => some (encF1 0x15#6 5#3 g d a 0#7)
  | .fmed3 g d a b => some (encF1 0x15#6 6#3 g d a b)
  | .dadd g d a b => some (encF1 0x16#6 0#3 g d a b)
  | .dsub g d a b => some (encF1 0x16#6 1#3 g d a b)
  | .dmul g d a b => some (encF1 0x16#6 2#3 g d a b)
  | .dfma g d a b => some (encF1 0x16#6 3#3 g d a b)
  | .dmin g d a b => some (encF1 0x16#6 4#3 g d a b)
  | .dmax g d a b => some (encF1 0x16#6 5#3 g d a b)
  | .ddiv g d a b => some (encF1 0x16#6 6#3 g d a b)
  | .dsqrt g d a => some (encF1 0x16#6 7#3 g d a 0#7)
  | .dsetEq g c p a b => some (encF1 0x17#6 0#3 g (c ++ p) a b)
  | .dsetNe g c p a b => some (encF1 0x17#6 1#3 g (c ++ p) a b)
  | .dsetLt g c p a b => some (encF1 0x17#6 2#3 g (c ++ p) a b)
  | .dsetLe g c p a b => some (encF1 0x17#6 3#3 g (c ++ p) a b)
  | .dsetGt g c p a b => some (encF1 0x17#6 4#3 g (c ++ p) a b)
  | .dsetGe g c p a b => some (encF1 0x17#6 5#3 g (c ++ p) a b)
  | .dsetUnordered g c p a b => some (encF1 0x17#6 6#3 g (c ++ p) a b)
  | .dsetOrdered g c p a b => some (encF1 0x17#6 7#3 g (c ++ p) a b)
  | .hadd2V g d a b => some (encF1 0x18#6 0#3 g d a b)
  | .hadd2S g d a b => some (encF1 0x19#6 0#3 g d a b)
  | .hmul2V g d a b => some (encF1 0x18#6 1#3 g d a b)
  | .hmul2S g d a b => some (encF1 0x19#6 1#3 g d a b)
  | .hfma2V g d a b => some (encF1 0x18#6 2#3 g d a b)
  | .hfma2S g d a b => some (encF1 0x19#6 2#3 g d a b)
  | .badd2V g d a b => some (encF1 0x18#6 3#3 g d a b)
  | .badd2S g d a b => some (encF1 0x19#6 3#3 g d a b)
  | .bmul2V g d a b => some (encF1 0x18#6 4#3 g d a b)
  | .bmul2S g d a b => some (encF1 0x19#6 4#3 g d a b)
  | .bfma2V g d a b => some (encF1 0x18#6 5#3 g d a b)
  | .bfma2S g d a b => some (encF1 0x19#6 5#3 g d a b)
  | .hmin2V g d a b => some (encF1 0x18#6 6#3 g d a b)
  | .hmin2S g d a b => some (encF1 0x19#6 6#3 g d a b)
  | .hmax2V g d a b => some (encF1 0x18#6 7#3 g d a b)
  | .hmax2S g d a b => some (encF1 0x19#6 7#3 g d a b)
  | .fcvt g d a s x t => some (encF1 0x1A#6 0#3 g d a (s ++ x ++ t))
  | .f2i g d a s x t => some (encF1 0x1A#6 1#3 g d a (s ++ x ++ t))
  | .i2f g d a s x t => some (encF1 0x1A#6 2#3 g d a (s ++ x ++ t))
  | .fpack g d a s x t => some (encF1 0x1A#6 3#3 g d a (s ++ x ++ t))
  | .funpack g d a s x => some (encF1 0x1A#6 4#3 g d a (s ++ x ++ 0#1))
  | .bpack g d a => some (encF1 0x1A#6 5#3 g d a 0#7)
  | .bunpack g d a => some (encF1 0x1A#6 6#3 g d a 0#7)
  | .xget g d a b => some (encF1 0x1C#6 0#3 g d a b)
  | .xrot g d a b => some (encF1 0x1C#6 1#3 g d a b)
  | .xslide g d a b => some (encF1 0x1C#6 2#3 g d a b)
  | .xmirr g d a b => some (encF1 0x1C#6 3#3 g d a b)
  | .lred g d a b => some (encF1 0x1C#6 4#3 g d a b)
  | .lscan g d a b => some (encF1 0x1C#6 5#3 g d a b)
  | .compact g d a b => some (encF1 0x1C#6 6#3 g d a b)
  | .matchLanes g d a b => some (encF1 0x1C#6 7#3 g d a b)
  | .intersect g d a b => some (encF1 0x1D#6 0#3 g d a b)
  | .ld w g d a o => some (encF5 0x20#6 w g d a o)
  | .st w g d a o => some (encF5 0x21#6 w g d a o)
  | .lds w g d a o => some (encF5 0x22#6 w g d a o)
  | .sts w g d a o => some (encF5 0x23#6 w g d a o)
  | .ld8 g d a i => some (encF1 0x24#6 0#3 g d a i)
  | .ld8n g d a i => some (encF1 0x24#6 1#3 g d a i)
  | .ld16 g d a i => some (encF1 0x24#6 2#3 g d a i)
  | .ld16n g d a i => some (encF1 0x24#6 3#3 g d a i)
  | .st8 g d a i => some (encF1 0x24#6 4#3 g d a i)
  | .st16 g d a i => some (encF1 0x24#6 5#3 g d a i)
  | .ldbc g d a i => some (encF1 0x24#6 6#3 g d a i)
  | .pref g a i => some (encF1 0x24#6 7#3 g 0#7 a i)
  | .atomAdd g d a b => some (encF1 0x25#6 0#3 g d a b)
  | .atomMin g d a b => some (encF1 0x25#6 1#3 g d a b)
  | .atomMax g d a b => some (encF1 0x25#6 2#3 g d a b)
  | .atomAnd g d a b => some (encF1 0x25#6 3#3 g d a b)
  | .atomOr g d a b => some (encF1 0x25#6 4#3 g d a b)
  | .atomXor g d a b => some (encF1 0x25#6 5#3 g d a b)
  | .atomExch g d a b => some (encF1 0x25#6 6#3 g d a b)
  | .atomCas g d a b => some (encF1 0x25#6 7#3 g d a b)
  | .redAdd g a b => some (encF1 0x26#6 0#3 g 0#7 a b)
  | .redMin g a b => some (encF1 0x26#6 1#3 g 0#7 a b)
  | .redMax g a b => some (encF1 0x26#6 2#3 g 0#7 a b)
  | .redAnd g a b => some (encF1 0x26#6 3#3 g 0#7 a b)
  | .redOr g a b => some (encF1 0x26#6 4#3 g 0#7 a b)
  | .redXor g a b => some (encF1 0x26#6 5#3 g 0#7 a b)
  | .atomqAdd g d a b => some (encF1 0x27#6 0#3 g d a b)
  | .atomqExch g d a b => some (encF1 0x27#6 1#3 g d a b)
  | .atomqCas g d a b => some (encF1 0x27#6 2#3 g d a b)
  | .fenceAcq => some (encF6 0x28#6 0#6 0#20)
  | .fenceRel => some (encF6 0x28#6 1#6 0#20)
  | .fenceAr => some (encF6 0x28#6 2#6 0#20)
  | .meet l b => some (encF6 0x28#6 8#6 (l ++ b ++ 0#13))
  | .meetArr l b => some (encF6 0x28#6 9#6 (l ++ b ++ 0#13))
  | .meetWait l b => some (encF6 0x28#6 10#6 (l ++ b ++ 0#13))
  | .meetRed l b o s r => some (encF6 0x28#6 11#6 (l ++ b ++ o ++ s ++ 0#2 ++ r))
  | .tfence => some (encF6 0x28#6 16#6 0#20)
  | .tcopy x y z => some (encF8 0x29#6 0#5 x y z)
  | .tstore x y z => some (encF8 0x29#6 1#5 x y z)
  | .tgather x y z => some (encF8 0x29#6 2#5 x y z)
  | .tscatter x y z => some (encF8 0x29#6 3#5 x y z)
  | .tready x => some (encF8 0x29#6 4#5 x 0#7 0#7)
  | .trelease x => some (encF8 0x29#6 5#5 x 0#7 0#7)
  | .tstate x y => some (encF8 0x29#6 6#5 x y 0#7)
  | .trows x y => some (encF8 0x29#6 7#5 x y 0#7)
  | .mloadw x y => some (encF8 0x2A#6 0#5 x y 0#7)
  | .mma x y z => some (encF8 0x2A#6 1#5 x y z)
  | .mmavs x y z => some (encF8 0x2A#6 2#5 x y z)
  | .mfence x => some (encF8 0x2A#6 3#5 x 0#7 0#7)
  | .mwait x => some (encF8 0x2A#6 4#5 x 0#7 0#7)
  | .mstoreRegister x b z => some (encF8 0x2A#6 5#5 x (0#4 ++ b) z)
  | .mstoreTile x b z => some (encF8 0x2A#6 5#5 x (8#4 ++ b) z)
  | .mzero x => some (encF8 0x2A#6 6#5 x 0#7 0#7)
  | .medge x y z => some (encF8 0x2A#6 7#5 x y z)
  | .mpairLeave => some (encF8 0x2A#6 8#5 0#7 0#7 0#7)
  | .mpairEnter => some (encF8 0x2A#6 8#5 1#7 0#7 0#7)
  | .mshape x y => some (encF8 0x2A#6 9#5 x y 0#7)
  | .noderead x y z => some (encF8 0x2B#6 0#5 x y z)
  | .inbox x y z => some (encF8 0x2B#6 1#5 x y z)
  | .yieldUp x y => some (encF8 0x2B#6 2#5 x y 0#7)
  | .hand x y z => some (encF8 0x2B#6 3#5 x y z)
  | .nodealloc x y z => some (encF8 0x2B#6 4#5 x y z)
  | .treegrow x y => some (encF8 0x2B#6 5#5 x y 0#7)
  | .grove x => some (encF8 0x2B#6 6#5 x 0#7 0#7)
  | .frame x => some (encF8 0x2B#6 7#5 x 0#7 0#7)
  | .spawn x y j w p => some (encF8 0x2C#6 0#5 x y (0#1 ++ j ++ w ++ p))
  | .spawnf x => some (encF8 0x2C#6 1#5 x 0#7 0#7)
  | .joinwait x => some (encF8 0x2C#6 2#5 x 0#7 0#7)
  | .joinadd x y => some (encF8 0x2C#6 3#5 x y 0#7)
  | .payload x y => some (encF8 0x2C#6 4#5 x y 0#7)
  | .spquery x y => some (encF8 0x2C#6 5#5 x y 0#7)
  | .capbegin x y => some (encF8 0x2D#6 0#5 x y 0#7)
  | .capend => some (encF8 0x2D#6 1#5 0#7 0#7 0#7)
  | .capres x => some (encF8 0x2D#6 2#5 x 0#7 0#7)
  | .capabort => some (encF8 0x2D#6 3#5 0#7 0#7 0#7)
  | .bra n c o => some (encF4 0x30#6 n c o)
  | .call n c o => some (encF4 0x31#6 n (1#1 ++ c) o)
  | .joinat o => some (encF4 0x32#6 0#1 7#3 o)
  | .nop => some (encF6 0x33#6 0#6 0#20)
  | .exit => some (encF6 0x33#6 1#6 0#20)
  | .ret => some (encF6 0x33#6 2#6 0#20)
  | .brxVector r => some (encF6 0x33#6 3#6 (0#13 ++ r))
  | .brxScalar r => some (encF6 0x33#6 3#6 (4096#13 ++ r))
  | .regang m i => some (encF6 0x33#6 4#6 (m ++ i))
  | .trap c => some (encF6 0x33#6 5#6 (0#4 ++ c))
  | .bkpt c => some (encF6 0x33#6 6#6 (0#4 ++ c))
  | .sleep n => some (encF6 0x33#6 7#6 n)
  | .yieldq => some (encF6 0x33#6 8#6 0#20)
  | .tstamp d => some (encF6 0x33#6 9#6 (0#13 ++ d))
  | .sread s d => some (encF6 0x33#6 10#6 (s ++ d))
  | .swrite s d => some (encF6 0x33#6 11#6 (s ++ d))
  | .iret => some (encF6 0x33#6 12#6 0#20)
  | .park => some (encF6 0x33#6 13#6 0#20)
  | .hintImm i => some (encF7 0x3F#6 0#4 i)
  | .hintGuard n p => some (encF7 0x3F#6 1#4 (0#18 ++ n ++ p))
  | .hintSrcx c b a => some (encF7 0x3F#6 2#4 (0#19 ++ c ++ b ++ a))
  | .hintCreg r => some (encF7 0x3F#6 3#4 (0#15 ++ r))
  | .hintType t => some (encF7 0x3F#6 4#4 (0#17 ++ t))
  | .hintRound f s m => some (encF7 0x3F#6 5#4 (0#17 ++ f ++ s ++ m))
  | .hintSched y s => some (encF7 0x3F#6 6#4 (0#17 ++ y ++ s))
  | .hintCache p => some (encF7 0x3F#6 7#4 (0#19 ++ p))
  | .registerWrite _ _ _ _ _ _ => none
  | .promotion _ _ => none
  | .schedStallExpiry _ _ => none
  | .sleepDeadline _ _ => none
  | .barrierWaitParking _ => none
  | .unpark _ => none
  | .blockAdmission _ => none
  | .registerBecomesFull _ => none
  | .instructionCacheParityError _ => none
  | .registration _ => none
  | .carveOutEviction _ _ => none
  | .translationLookup _ _ => none
  | .pageRequestResponse _ _ => none
  | .tileRowLanding _ _ => none
  | .drainRowCompletion _ _ => none
  | .tileCopyFault _ => none
  | .arrayOperationStart _ => none
  | .arrayOperationRetirement _ => none
  | .quadrantClaimGrant _ => none
  | .barrierPacket _ _ => none
  | .barrierRelease _ => none
  | .groveAcceptance _ => none
  | .phaseStart _ => none
  | .trailBegin _ _ => none
  | .trailDeepen _ _ => none
  | .steal _ _ => none
  | .allocationGrant _ _ => none
  | .nodeStart _ _ => none
  | .blockEnd _ => none
  | .completionWordWrite _ => none
  | .binTimerExpiry _ _ _ => none
  | .saplingWarpFormation _ _ _ => none
  | .saplingExit _ => none
  | .joinwaitWake _ => none
  | .capsuleStepCommit _ _ => none
  | .away _ => none
  | .back _ => none
  | .delivery _ => none
  | .trapRingDelivery _ => none
  | .hostAction _ _ => none
  | .preempt _ _ _ _ => none
  | .drainDeadline _ => none
  | .haltEntry _ => none
  | .designatedHaltEntry _ => none
  | .haltDeadline _ => none
  | .captureCompletion _ => none
  | .contextLoss _ => none
  | .resume _ => none
  | .freezeRequest _ _ => none
  | .freezeCompletion => none
  | .thaw => none
  | .correctedError _ => none
  | .uncorrectableError _ => none
  | .apply _ _ => none
  | .applyCompletion _ => none
  | .vfReady _ => none
  | .vfStop _ => none
  | .sliceExpiry _ => none
  | .switchOutCompletion _ => none
  | .functionLevelReset _ => none
  | .ctxsw _ _ => none
  | .ctxswCompletion _ => none
  | .dlctlEn _ _ => none
  | .dlctlRearm _ => none
  | .rearmCompletion _ => none
  | .remapGo _ => none
  | .remapCompletion _ => none
  | .launch _ _ => none
  | .invalidate _ _ => none
  | .invalidationDone _ => none
  | .atsInvalidation _ _ => none
  | .flitReceipt _ _ => none
  | .negativeAcknowledgement _ _ => none
  | .retrainTimeout _ => none
  | .linkDown _ => none
  | .coldReset => none
  | .fwctlVerify _ => none
  | .fwctlColdReset _ => none
  | .mgclaim _ _ => none
  | .hotReset _ => none
  | .i3cTargetReset => none
  | .getVersion _ => none
  | .getCapabilities _ => none
  | .negotiateAlgorithms _ => none
  | .getDigests _ => none
  | .getCertificate _ _ _ _ => none
  | .challenge _ _ => none
  | .getMeasurements _ _ _ => none
  | .droopAlarm _ => none
  | .stretchEnd _ => none
  | .throttleWindowExpiry _ => none
  | .lifetimeRecordWrite => none
  | .powerDown => none
  | .linkTrainingCompletion _ _ => none
  | .deliveryAcknowledgement _ => none
  | .bar4Access _ _ _ _ _ => none
  | .atsTranslationCompletion _ _ _ => none
  | .lossOfPower => none
  | .cycleCountWrap _ _ => none

end Sys2Proof
end

