-- ==== Sys2Proof/Machine/Fetch.lean ====
section
/-! DEFINITION. Which gangs may issue, fetching and decoding a word, and the word a test places (01_machine R26, R27,
03_encoding R43, R69). -/

namespace Sys2Proof.Machine

/-- The throttle window and the stretch of R345 change timing only; a gang's turn is the model's step. -/
def State.mayIssue (s : State) (w j : Nat) : Bool :=
  match sget s.warps w with
  | none => false
  | some W =>
    match W.gangAt j with
    | none => false
    | some g => s.gangMayIssue W g

/-- What a fetch at a PC answers: a word, a trap, or a host page to wait for (R43). -/
inductive Fetched where
  /-- The word. -/
  | word (w : Word)
  /-- A fetch fault: class and detail. -/
  | trap (cls detail : Nat)
  /-- The host has not supplied the page. -/
  | stall (page : Nat)
  /-- Another device holds the word, at the key given (R322). -/
  | far (key : Nat)
  /-- The request for it is on its way. -/
  | asked
deriving DecidableEq, Repr

/-- The word at a PC of a warp (R43): a translated address with execute permission. An address in the core-store window is not
in the translated space; the fault it takes is the model's choice, class 0x06 detail 1 (assumption 72). The word is the one the
home holds now, of the words R188 lets a fetch return before the next launch (assumption 73). -/
def State.fetch (s : State) (w : Nat) (W : Warp) (slices : BitVec 8) (pc : DWord) : Fetched :=
  if canonical pc = false then .trap 6 0
  else if inWindow pc then .trap 6 1
  else
    match s.xlateFor W.ctx W.core (some w) (vaOf pc) .exec with
    | .trap c d => .trap c d
    | .stall p => .stall p
    | .go key _ =>
      if isRemote key then
        match s.requests.find? (fun e => e.2.who == .fetch w slices pc) with
        | none => .far key
        | some (_, r) =>
          match r.answer with
          | none => .asked
          | some (0, _, v) => .word (BitVec.ofNat 32 v)
          | some (k, d, _) => .trap k (if k = 7 then 2 else d)
      else if s.poisoned key 4 then .trap 8 0
      else .word (wordOfBytes (s.byte key) (s.byte (key + 1)) (s.byte (key + 2)) (s.byte (key + 3)))

/-- A gang whose fetch finds a host page absent asks for it and waits (R154). -/
def State.fetchWait (s : State) (w j : Nat) (W : Warp) (page : Nat) (pc : DWord) : State :=
  (s.askHost { ctx := W.ctx, core := W.core, warp := some w, page := page, lanes := 0, va := pc }).modWarp w (fun W =>
    W.modGang j (fun g => { g with wait := some s.progress }))

/-- The answered fetch of a gang is done with. -/
def State.fetched (s : State) (w : Nat) (slices : BitVec 8) (pc : DWord) : State :=
  { s with requests := s.requests.filter (fun e => e.2.who != .fetch w slices pc) }

/-- A gang whose word another device holds asks for it once and waits (R322). -/
def State.fetchFar (s : State) (w j : Nat) (W : Warp) (slices : BitVec 8) (pc : DWord) (key : Option Nat) : State :=
  let s1 := match key with
    | some k => s.askOne (.fetch w slices pc) W.ctx k (pc &&& ~~~0xFFF) (loadPacket 4)
    | none => s
  s1.modWarp w (fun W => W.modGang j (fun g => { g with wait := some s.progress }))

/-- A fetch fault of a gang: a precise memory fault at the instruction that could not be fetched; no lane faults (R283). -/
def State.fetchTrap (s : State) (w j cls detail : Nat) (pc : DWord) : State :=
  (s.trap w j { Trap.of cls detail with page := pc }).tick

/-- A word that holds no instruction raises an illegal-instruction trap when it issues, and the issue counts (R69, R306). -/
def State.illegalWord (s : State) (w j ctx : Nat) : State := ((s.trap w j (Trap.of 1 0)).count (ctxFn ctx) 1 1).tick

/-- The state in which the fetched instruction of a gang issues: its page's translation is installed (R154). -/
def State.issueOf (s : State) (w j : Nat) (ctx : Nat) (pc : DWord) : State :=
  { s.install ctx (vaOf pc) with cur := some (w, j) }

/-- A context in which one warp runs, with a page of code mapped: what `withFetchWord` adds around a placed word. It
stands for the launch of a grove that a host makes (assumption 7). -/
def State.placed (s : State) : State :=
  let n := s.nextId
  let kernel : Kernel :=
    { entry := 0, window := 128, scalars := 96, team := 1, pair := false, capsules := true, scratch := 1024, enable := 0,
      tiles := [], tileCount := 0 }
  let W : Warp :=
    { Warp.start 0 0 0 n 0 0 (some n) kernel 0x10000 (fun _ => 15) 0 with residency := .resident }
  let B : Block :=
    { ctx := 0, grove := n, node := 0, trail := n, cores := [0], warps := 1, kernel := 0, desc := kernel, scratch := 0,
      admitted := true, members := [n], ended := [], frame := 0x8000, yielded := false, faulted := false, tiles := [],
      teams := [], cluster := none, region := none, grown := false }
  let G : Grove :=
    { ctx := 0, slot := 0, order := 0, addr := 0x9000, mode := 5, msix := false, nodes := 0xA000, capacity := 1, root := 0,
      depth := 1, yieldBytes := 0, handBytes := 0, code := 0x10000, kernels := [(0, kernel)], kernelCount := 1,
      clearing := 0, clearBytes := 0x10000, trailsPerCore := 1, priority := 0,
      levels := [(1, 1, 4, 1), (1, 1, 16, 512), (0, 0, 0, 1), (0, 0, 0, 1), (6, 3, 4, 1)], completion := 0xB000,
      quota := 0, accepted := 0, maxChildren := 1, maxFrame := 0, policy := 0, cores := [0], ringBase := 0,
      ringSize := 65536, phase := 0, begun := true, status := .running, completed := 0, errors := [], doneNodes := [],
      grownNodes := [], total := 1, subtrees := [], allocs := [], areas := [], lost := false, gone := [] }
  let page : Tlb := { ctx := 0, va := 0, size := 0x200000, tgt := 0, base := 0, dev := 0, attr := 7 }
  let st := s.stand 0
  { s with
    stands := sput s.stands 0 { st with fpairs := 1, fhbm := 1, state := 2 }
    contexts := sput s.contexts 0 { s.context 0 with cxnum := 0x80000000, en := true, savebase := 0x20000 }
    tlb := page :: s.tlb
    warps := sput s.warps n W, blocks := sput s.blocks n B, groves := sput s.groves n G
    turns := [.issue n 0], nextId := n + 1, power := true, remaps := [], poison := [], held := []
    fwState := 1 }

/-- The bytes of a placed instruction where the placed warp fetches: each word little-endian, the first lowest. -/
def State.placeWord (s : State) (w : Nat) : State :=
  { s.placed with mem := memPuts s.mem ((bytesOf 4 w).zipIdx.map (fun e => (keyOf 0 (0x10000 + e.2), e.1))) }

end Sys2Proof.Machine
end

