-- ==== Sys2Proof/Machine/Sched.lean ====
section
/-! DEFINITION. Fetching and issuing an instruction, and who moves when the list of turns is empty: the first of the machine's
other agents whose step changes something, else a gang that is to find out whether it is ready, else what R26 chooses among the
ready candidates of each partition (assumption 3). -/

namespace Sys2Proof.Machine

/-! ### Issuing -/

/-- The word of a gang's next instruction: one that waits with something of it done has been fetched and is not fetched again
(R282). -/
def State.nextWord (s : State) (w : Nat) (W : Warp) (g : Gang) : Fetched :=
  match (if g.pend = .none then none else g.words[g.hints.length]?) with
  | some x => .word x
  | none => s.fetch w W g.slices (W.pcOf g)

/-- The words that a gang keeps of its hint group, and the one it issues now (R283). -/
def State.keepWords (s : State) (w j : Nat) (l : List Word) : State :=
  s.modWarp w (fun W => W.modGang j (fun g => { g with words := g.words.take g.hints.length ++ l }))

/-- The state in which the word a gang has fetched at a PC issues: the answer of its request is used up, the word is kept, and its
page's translation is installed (R154). -/
def State.readied (s : State) (w j : Nat) (W : Warp) (g : Gang) (pc : DWord) (x : Word) : State :=
  ((s.fetched w g.slices pc).keepWords w j [x]).issueOf w (lowSlice g.slices) W.ctx pc

/-- The gang of a warp that holds a slice fetches and issues its next instruction (R43, R69). -/
noncomputable def issueStep (s : State) (w j : Nat) : Out :=
  match sget s.warps w with
  | none => .next s
  | some W =>
    match W.gangAt j with
    | none => .next s
    | some g =>
      let pc := W.pcOf g
      match s.nextWord w W g with
      | .trap c d => .next (((s.fetched w g.slices pc).keepWords w j []).fetchTrap w (lowSlice g.slices) c d pc)
      | .stall p => .next (s.fetchWait w j W p pc)
      | .far key => .next (s.fetchFar w j W g.slices pc (some key))
      | .asked => .next (s.fetchFar w j W g.slices pc none)
      | .word x =>
        match decode x with
        | .error _ => .next (((s.fetched w g.slices pc).keepWords w j [x]).illegalWord w (lowSlice g.slices) W.ctx)
        | .ok i => exec i (s.readied w j W g pc x)

/-- What holds a gang back: what it waits for and its stall. -/
def State.heldBy (s : State) (w j : Nat) : Option Nat × Option Nat :=
  match (sget s.warps w).bind (fun W => W.gangAt j) with
  | some g => (g.wait, g.stall)
  | none => (none, none)

/-- A gang still waits after it has been tried. -/
def State.waits (s : State) (w j : Nat) : Bool := (s.heldBy w j).1.isSome

/-- A try of a gang with a word to issue has only found out what holds it back: nothing else has changed. -/
def State.onlyHeld (s t : State) (w j : Nat) : Bool :=
  match sget s.warps w with
  | none => false
  | some W =>
    match W.gangAt j with
    | none => false
    | some g =>
      match s.nextWord w W g with
      | .word x =>
        let h := t.heldBy w j
        (h.1.isSome || h.2.isSome) &&
          decide (t = (s.readied w j W g (W.pcOf g) x).modWarp w (fun W => W.modGang j (fun g => { g with wait := h.1, stall := h.2 })))
      | _ => false

/-- The word of a gang's next instruction is there to be issued. -/
def State.hasWord (s : State) (w j : Nat) : Bool :=
  match sget s.warps w with
  | none => false
  | some W =>
    match W.gangAt j with
    | none => false
    | some g =>
      match s.nextWord w W g with
      | .word _ => true
      | _ => false

/-- A gang's instruction has issued, and waits with what it has done of it. -/
def State.begun (s : State) (w j : Nat) : Bool :=
  match (sget s.warps w).bind (fun W => W.gangAt j) with
  | some g => g.pend != .none
  | none => false

/-- What a try of a gang that is not ready comes to: it waits for a word to fetch or for a register; or, where its instruction has
issued, with what it has asked for or done of it. None where the gang is ready, so that its try would issue: a try that would do
something of an instruction that has not issued is its issue, for which it is to be chosen (R26). -/
noncomputable def State.tried (s : State) (w j : Nat) : Option State :=
  match issueStep s w j with
  | .next t =>
    if s.onlyHeld t w j = true ∨ (t.waits w j = true ∧ (s.hasWord w j = false ∨ s.begun w j = true)) then some t else none
  | _ => none

/-! ### Readiness (R26, R31, R32) -/

/-- The gangs that may issue: warp, lowest slice, and their rank in R26's order: promoted first, then by age, then by lowest
slice. -/
def State.candidates (s : State) : List ((Nat × Nat × Nat) × Nat × Nat) :=
  s.warps.flatMap (fun e =>
    (e.2.gangs.filter (fun g => s.gangMayIssue e.2 g)).map (fun g =>
      ((if g.promoted then 0 else 1, e.2.age, lowSlice g.slices), e.1, lowSlice g.slices)))

/-- The first candidate found not ready is tried: it waits, until something moves. -/
noncomputable def State.tryOne (s : State) : Option State := s.candidates.findSome? (fun x => s.tried x.2.1 x.2.2)

/-- A parked warp that waits finds out whether it is ready, once something has moved since it last did: it becomes ready, in the
order of becoming so, where a gang of it could go on (R31, R32). A warp on JOINWAIT becomes ready by its counter alone (R244). -/
noncomputable def State.noteReady (s : State) (w : Nat) : Option State :=
  match sget s.warps w with
  | none => none
  | some W =>
    match W.residency with
    | .parked false o =>
      if W.ended ∨ W.joining = true ∨ s.mayReturn W.ctx W.core = false then none
      else
        let R := { W with residency := .resident }
        let s1 := s.setWarp w R
        match R.gangs.find? (fun g => s1.gangMayIssue R g) with
        | none => none
        | some g =>
          match s1.tried w (lowSlice g.slices) with
          | some t => some (t.modWarp w (fun V => if V.residency = .resident then { V with residency := .parked false o } else V))
          | none => some (s.wake w false)
    | _ => none

/-- The first parked warp with something to find out. -/
noncomputable def State.readiness (s : State) : Option State := s.warps.findSome? (fun e => s.noteReady e.1)

/-! ### The choice (R24, R26) -/

/-- One rank comes before another. -/
def rankLt (a b : Nat × Nat × Nat) : Bool :=
  decide (a.1 < b.1) || (a.1 == b.1 && (decide (a.2.1 < b.2.1) || (a.2.1 == b.2.1 && decide (a.2.2 < b.2.2))))

/-- The first of some candidates in R26's order. -/
def firstRank (l : List ((Nat × Nat × Nat) × Nat × Nat)) : Option ((Nat × Nat × Nat) × Nat × Nat) :=
  l.foldl (fun b x =>
    match b with
    | none => some x
    | some y => if rankLt x.1 y.1 then some x else b) none

/-- A word's instruction issues on port B only (R24): FUN, the divide and square-root forms of FMISC and F64, and the memory,
atomic, barrier, tile, matrix, tree, spawn and capsule instructions, majors 0x20 to 0x2D. -/
def portB (x : Word) : Bool :=
  let op := field x.toNat 26 6
  let fn := field x.toNat 23 3
  op == 0x14 || (op == 0x15 && fn == 0) || (op == 0x16 && decide (6 ≤ fn)) || (decide (0x20 ≤ op) && decide (op ≤ 0x2D))

/-- A gang's next instruction needs port B. -/
def State.needsB (s : State) (w j : Nat) : Bool :=
  match sget s.warps w with
  | none => false
  | some W =>
    match W.gangAt j with
    | none => false
    | some g =>
      match s.nextWord w W g with
      | .word x => portB x
      | _ => false

/-- A throttle window of a core is open: it opens when the stretch has ended (R345). -/
def State.throttled (s : State) (core : Nat) : Bool :=
  (match (s.detector core).throttle with
    | some t => decide (s.time < t)
    | none => false) &&
  (match (s.detector core).stretch with
    | some t => decide (t ≤ s.time)
    | none => true)

/-- The core and the partition of a warp. -/
def State.placeOf (s : State) (w : Nat) : Nat × Nat := ((sget s.warps w).map (fun W => (W.core, W.part))).getD (0, 0)

/-- What the partition of some candidates issues in a cycle: the first, and the first of the rest that another port takes, unless a
throttle window is open (R26, R345). -/
def State.picks (s : State) (core : Nat) (l : List ((Nat × Nat × Nat) × Nat × Nat)) : List (Nat × Nat) :=
  match firstRank l with
  | none => []
  | some x =>
    if s.throttled core then [x.2]
    else
      let b := s.needsB x.2.1 x.2.2
      match firstRank (l.filter (fun y => y != x && !(b && s.needsB y.2.1 y.2.2))) with
      | none => [x.2]
      | some y => [x.2, y.2]

/-- What the machine's partitions issue in a cycle, of candidates that are all ready; a core in whose stretch this is no cycle's end
issues nothing (R26, R345). -/
def State.chosen (s : State) : List (Nat × Nat) :=
  ((s.candidates.map (fun x => s.placeOf x.2.1)).eraseDups).flatMap (fun p =>
    if s.coreTicks p.1 then s.picks p.1 (s.candidates.filter (fun x => s.placeOf x.2.1 == p)) else [])

/-- The ready candidates that are not chosen count a cycle of their core; a gang that is not ready starts its count again (R26). -/
def State.countUnchosen (s : State) (l : List (Nat × Nat)) : State :=
  { s with warps := s.warps.map (fun e => (e.1, { e.2 with gangs := e.2.gangs.map (fun g =>
      if l.contains (e.1, lowSlice g.slices) ∨ s.coreTicks e.2.core = false then g
      else { g with unchosen := if s.gangMayIssue e.2 g then g.unchosen + 1 else 0 }) })) }

/-! ### The other agents' steps

Every step that some agent of the device takes of itself, in the order in which they are tried. Steps of the host, of a
peer, of the power supply and of errors stand in the list of turns alone. -/

/-- Steps of gangs and warps. -/
def State.warpMoves (s : State) : List (State → State) :=
  s.warps.flatMap (fun (e : Nat × Warp) =>
    (e.2.gangs.flatMap (fun g =>
      let j := lowSlice g.slices
      [stallOver e.1 j, sleepOver e.1 j, promote e.1 j])) ++
    [parkWaiting e.1, sendAway e.1, sendBack e.1, joinWake e.1, unpark e.1, haltEntry e.1, designatedEntry e.1])

/-- Steps of the memory system and of the cores' engines. -/
def State.memoryMoves (s : State) : List (State → State) :=
  s.regq.map (fun (e : Nat × Reg) => registration e.1) ++
  s.steps.map (fun (e : Nat × CapStep) => commitStep e.2.warp e.2.lane) ++
  s.deliveries.flatMap (fun (e : Nat × Delivery) => [deliver e.1, acknowledge e.1]) ++
  s.cmds.flatMap (fun (e : Nat × CopyCmd) =>
    e.2.todo.flatMap (fun r => [rowLanding e.1 r.1, drainRowDone e.1 r.1]) ++ [copyFault e.1]) ++
  s.ops.flatMap (fun (e : Nat × ArrayOp) => [startOp e.1, retireOp e.1]) ++
  s.claims.map (fun (e : Nat × Claim) => grantClaim e.1) ++
  s.inflight.map (fun (e : Nat × Land) => landResult e.1) ++
  s.barriers.flatMap (fun (e : Nat × Barrier) =>
    e.2.arrived.map (fun (a : Nat × BitVec 8) => barrierPacket e.1 a.1) ++ [releaseBarrier e.1])

/-- Steps of the launch engine, the sweeper and the seedbeds. -/
def State.groveMoves (s : State) : List (State → State) :=
  s.subs.map (fun (e : Nat × Submission) => acceptGrove e.1) ++
  s.blocks.flatMap (fun (e : Nat × Block) => [admitWarps e.1, endBlock e.1]) ++
  s.trails.flatMap (fun (e : Nat × Trail) =>
    [grantAllocation e.2.grove e.1, startNode e.2.grove e.1, deepenTrail e.2.grove e.1]) ++
  s.groves.flatMap (fun (e : Nat × Grove) =>
    startPhase e.1 :: e.2.cores.flatMap (fun c => [beginOwn e.1 c, stealSubtree e.1 c])) ++
  s.exits.map (fun (e : Nat × SaplingExit) => recordExit e.1) ++
  s.saplings.flatMap (fun (e : Nat × Sapling) =>
    [binTimer e.2.core e.2.bin e.2.grove, formWarp e.2.core e.2.bin e.2.grove]) ++
  s.groves.map (fun (e : Nat × Grove) => writeCompletion e.1)

/-- A RESUME that waits is tried again. -/
def resumeWaiting (ctx : Nat) (s : State) : State :=
  let m := (s.context ctx).resumePairs
  if m = 0 then s else s.resumeOn ctx m

/-- Steps of trap delivery, pre-emption, the tenancy and the platform. -/
def State.systemMoves (s : State) : List (State → State) :=
  s.contexts.flatMap (fun (e : Nat × Context) =>
    [deliverTrap e.1, invalidated e.1, drainEnds e.1, haltEnds e.1, captureDone e.1, resumeWaiting e.1]) ++
  [freezeDone] ++
  s.stands.flatMap (fun (e : Nat × Stand) => [applyDone e.1, sliceExpiry e.1, switchOutDone e.1]) ++
  s.vfs.flatMap (fun (e : Nat × VFn) => [ctxswDone e.1, rearmDone e.1, remapDone e.1, vfResetEnds e.1]) ++
  s.counters.flatMap (fun (e : Nat × Counters) => (List.range 8).map (fun i => cycleWrap e.1 i)) ++
  s.links.map (fun (e : Nat × Link) => retrainTimeout e.1) ++
  s.droop.flatMap (fun (e : Nat × Droop) => [stretchEnd e.1, throttleEnds e.1]) ++
  [lifeWrite]

/-- Every step an agent might take; after power comes, the boot ROM's first, and while the links train the security controller's
alone (R340, R346). -/
def State.moves (s : State) : List (State → State) :=
  if s.power = false then []
  else if s.fwState = 0 then if s.fwBody = [] then [coldReset] else [lifeWrite]
  else s.memoryMoves ++ s.warpMoves ++ s.groveMoves ++ s.systemMoves

/-- The state after the first of the agents' steps that changes something; none where nothing does. -/
def State.agentStep (s : State) : Option State := (s.moves.map (fun f => f s)).find? (fun t => decide (t ≠ s))

/-! ### One step -/

/-- What moves when the list of turns is empty: a parked warp that finds out whether it is ready, so that the order of becoming ready
is that of the cycles; else an agent that has something to do; else a gang that finds out whether it is ready; else, for this cycle, the gangs that R26 chooses on each partition, the first now and the others in the turns
that follow without a cycle between; else the cycle passes (R26; assumption 3). -/
noncomputable def defaultStep (s : State) : Out :=
  match s.readiness with
  | some t => .next t
  | none =>
  match s.agentStep with
  | some t => .next t.tick
  | none =>
    match s.tryOne with
    | some t => .next t
    | none =>
      match s.chosen with
      | [] => .next s
      | (w, j) :: r =>
        issueStep { s.countUnchosen ((w, j) :: r) with turns := r.map (fun x => Turn.also x.1 x.2) } w j

end Sys2Proof.Machine
end

