-- ==== Sys2Proof/Machine/Step.lean ====
section
/-! DEFINITION. One step of the machine: one gang issues one instruction, or one of the other agents takes one step. The
meanings and the fetch stand in their own files; this file only calls them. -/

namespace Sys2Proof.Machine

/-- One step: the head of the list of turns moves, or, where the list is empty, what R26 or the order of the agents
chooses. Each step is one main-clock cycle, but for a gang that issues in the cycle of the turn before (R26; assumption 5). -/
noncomputable def step (s : State) : Host.Outcome State Fault Refusal :=
  match s.turns with
  | .issue w j :: r =>
    let s1 := { s.pass with turns := r }
    if s1.mayIssue w j then issueStep s1 w j else .next s1
  | .also w j :: r =>
    let s1 := { s with turns := r }
    if s1.mayIssue w j then issueStep s1 w j else .next s1
  | .event i :: r => exec i { s.pass with turns := r }
  | [] => defaultStep s.pass

/-- The state with an instruction stored where the next step fetches it. -/
def State.withFetchWord (s : State) (_nbits w : Nat) : State := s.placeWord w

end Sys2Proof.Machine
end

