-- ==== Sys2Proof/Safety.lean ====
section
/-! DEFINITION. The terms in which claims about the machine are stated: which gang issues and passes every check, which
registers an instruction writes, what an instruction that has completed leaves, and the canonical form of memory. -/

namespace Sys2Proof.Machine

/-! ### Issue -/

/-- The gang that issues under a signature and passes every check an issue makes, with its lanes under the guard: no SCHED stall
of its group (R65), nothing illegal, nothing privileged outside handler mode, no register past the window or the scalar count,
no marked source empty (R71), every register full (R56), no acquire of an earlier ATOMQ to come (R164), and the rule of capsule
bodies (R253). -/
def State.passes (s : State) (sig : Ctx → State → Sig) : Option Ctx :=
  match s.issuing with
  | none => none
  | some c =>
    let g := sig c s
    if stallEnd (c.guarded g) s.time = none ∧ (front (c.guarded g) g).isNone ∧ ready (c.guarded g) g = true ∧
        s.acquiring (c.guarded g) = false ∧ (bodyCheck (c.guarded g) g).isNone then
      some (c.guarded g)
    else none

/-- The gang that issues under a signature, with no SCHED stall of its group, and the trap that the checks of R71 before an
instruction's own find. -/
def State.stopped (s : State) (sig : Ctx → State → Sig) : Option (Ctx × Trap) :=
  match s.issuing with
  | none => none
  | some c =>
    if stallEnd (c.guarded (sig c s)) s.time = none then
      (front (c.guarded (sig c s)) (sig c s)).map (fun t => (c.guarded (sig c s), t))
    else none

/-- A signature that depends on the hints alone. -/
def hinted (sig : HintSet → Sig) (c : Ctx) (_ : State) : Sig := sig c.h

/-! ### Registers as slices see them -/

/-- Scalar register `i` in the view of the gang that holds slice `j`. -/
def Warp.view (W : Warp) (j i : Nat) : Word :=
  match W.gangAt j with
  | some g => g.sget i
  | none => 0

/-- Uniform predicate `i` in the view of the gang that holds slice `j`. -/
def Warp.uview (W : Warp) (j i : Nat) : Bool :=
  match W.gangAt j with
  | some g => g.q.getLsbD i
  | none => false

/-- Slice `j` is an unexited slice of the issuing gang. -/
def Ctx.has (c : Ctx) (j : Nat) : Prop := c.W.gangAt j = some c.G ∧ (c.W.slice j).exited = false

/-- Slice `j` belongs to another gang, which shares no slice with the issuing one. -/
def Ctx.other (c : Ctx) (j : Nat) : Prop :=
  ∃ g, c.W.gangAt j = some g ∧ g.slices &&& c.G.slices = 0

/-! ### What an instruction writes -/

/-- The registers an instruction writes, each with its new value; what it leaves alone reads none. -/
structure Written where
  /-- Vector register of a lane. -/
  v : Nat → Nat → Option Word
  /-- Predicate of a lane. -/
  p : Nat → Nat → Option Bool
  /-- Scalar register of the issuing gang's view. -/
  s : Nat → Option Word
  /-- Uniform predicate of the issuing gang's view. -/
  q : Nat → Option Bool
  /-- Flags it sets. -/
  flags : Word

/-- Nothing written. -/
def Written.none : Written :=
  { v := fun _ _ => .none, p := fun _ _ => .none, s := fun _ => .none, q := fun _ => .none, flags := 0 }

/-- A vector register of the active lanes, with flags. -/
def Written.vec (act : Word) (d : Nat) (f : Nat → Word) (flags : Word) : Written :=
  { Written.none with v := fun r lane => if r = d ∧ act.getLsbD lane = true then some (f lane) else .none, flags := flags }

/-- A group of one or two vector registers of the active lanes, lowest register least significant (R50), with flags. -/
def Written.group (act : Word) (d n : Nat) (f : Nat → DWord) (flags : Word) : Written :=
  { Written.none with
    v := fun r lane =>
      if n = 2 ∧ r = d + 1 ∧ act.getLsbD lane = true then some (hiWord (f lane))
      else if r = d ∧ act.getLsbD lane = true then some (loWord (f lane)) else .none
    flags := flags }

/-- A predicate of the active lanes, with flags; p7 discards (R48). -/
def Written.pred (act : Word) (p : Nat) (f : Nat → Bool) (flags : Word) : Written :=
  { Written.none with
    p := fun i lane => if i = p ∧ p ≠ 7 ∧ lane < 32 ∧ act.getLsbD lane = true then some (f lane) else .none
    flags := flags }

/-- A group of one or two scalar registers of the issuing gang's view; s96 discards (R47). -/
def Written.scal (d n : Nat) (x : DWord) : Written :=
  { Written.none with
    s := fun i =>
      if 96 ≤ d then .none
      else if n = 2 ∧ i = d + 1 then some (hiWord x) else if i = d then some (loWord x) else .none }

/-- A uniform predicate of the issuing gang's view. -/
def Written.uni (p : Nat) (x : Bool) : Written :=
  { Written.none with q := fun i => if i = p ∧ p < 3 then some x else .none }

/-- Two sets of registers written. -/
def Written.also (x y : Written) : Written :=
  { v := fun r lane => (y.v r lane).or (x.v r lane), p := fun i lane => (y.p i lane).or (x.p i lane),
    s := fun i => (y.s i).or (x.s i), q := fun i => (y.q i).or (x.q i), flags := x.flags ||| y.flags }

/-! ### What a completed instruction leaves -/

/-- The registers of the issuing warp after an instruction that wrote `x`: every other register, in every lane and in every
view, is as it was, and FLAGS gains the flags set. -/
structure RegsAfter (c : Ctx) (W : Warp) (x : Written) : Prop where
  /-- Vector registers. -/
  vec : ∀ r lane, lane < 32 → W.vget r lane = (x.v r lane).getD (c.W.vget r lane)
  /-- Predicates. -/
  pred : ∀ i lane, (W.pmask i).getLsbD lane = (x.p i lane).getD ((c.W.pmask i).getLsbD lane)
  /-- Flags. -/
  flags : W.flags = c.W.flags ||| x.flags
  /-- Scalars in the issuing gang's view, which every gang that descends from it holds. -/
  scal : ∀ j i, c.has j → W.view j i = (x.s i).getD (c.G.sget i)
  /-- Uniform predicates in it. -/
  uni : ∀ j i, c.has j → W.uview j i = (x.q i).getD (c.G.q.getLsbD i)
  /-- The views of the other gangs. -/
  others : ∀ j i, c.other j → W.view j i = c.W.view j i ∧ W.uview j i = c.W.uview j i

/-- Where an instruction that falls through leaves the slices: a slice of the issuing gang that waits for no lanes goes on
at the next word, with the same lanes, and the slices of other gangs stay. -/
structure FallsThrough (c : Ctx) (W : Warp) : Prop where
  /-- A slice of the gang. -/
  next : ∀ j, j < c.W.slices.length → c.G.slices.getLsbD j = true → (c.W.slice j).stack = [] →
    W.slice j = { c.W.slice j with pc := (c.W.slice j).pc + 4 }
  /-- The hints are used up (R61). -/
  used : ∀ j g, c.has j → W.gangAt j = some g → g.hints = []
  /-- Any other slice. -/
  stay : ∀ j, c.G.slices.getLsbD j = false → W.slice j = c.W.slice j

/-- The part of a warp that is neither a general register nor a place of a gang. -/
def Warp.rest (W : Warp) : Warp :=
  { W with v := [], p := [], flags := 0, slices := [], gangs := [] }

/-- `t` is `s` after the gang of `c` has completed an instruction that wrote the registers `x`, fell through, and changed
nothing else: no byte of memory, no other warp, no other field of the machine but the counters of events, what an
overflowing counter sends, and the mark of progress. -/
structure Completes (c : Ctx) (s t : State) (x : Written) : Prop where
  /-- The issuing warp. -/
  warp : ∃ W, sget t.warps c.w = some W ∧ RegsAfter c W x ∧ FallsThrough c W ∧ W.rest = c.W.rest
  /-- The other warps. -/
  others : ∀ w, w ≠ c.w → sget t.warps w = sget s.warps w
  /-- Memory. -/
  memory : ∀ key, t.byte key = s.byte key
  /-- Everything else. -/
  rest : { t with warps := s.warps, counters := s.counters, outbox := s.outbox, progress := s.progress } = s

/-- Instruction `i`, issued under a signature by a gang that passes every check, completes and has written `x`. -/
def Runs (i : Instr) (sig : Ctx → State → Sig) (x : Ctx → State → Written) : Prop :=
  ∀ s c, s.passes sig = some c → ∃ t, exec i s = .next t ∧ Completes c s t (x c s)

/-! ### Results that come later (R54 to R57) -/

/-- The part of a warp that a long-latency producer may not change when it issues: all but the empty marks and the places
of its gangs. -/
def Warp.marked (W : Warp) : Warp := { W.rest with emptyV := [], emptyS := 0 }

/-- Where a result is still to come, the register is marked empty, a vector register in the slices whose lanes it names;
every other mark stays. -/
def EmptyFor (W0 W : Warp) (x : Written) : Prop :=
  (∀ r j, j < 8 → ((zget 0 W.emptyV r).getLsbD j = true ↔
    (zget 0 W0.emptyV r).getLsbD j = true ∨ ∃ lane, lane / 4 = j ∧ (x.v r lane).isSome = true)) ∧
  ∀ i, i < 96 → (W.emptyS.getLsbD i = true ↔ W0.emptyS.getLsbD i = true ∨ (x.s i).isSome = true)

/-- A gang after a result of some slices has arrived: where it holds one of them its view has the values; nothing else of it
changes. -/
def Gang.has (m : BitVec 8) (x : Written) (g h : Gang) : Prop :=
  if g.slices &&& m = 0 then h = g
  else (∀ i, i < 96 → h.sget i = (x.s i).getD (g.sget i)) ∧ (∀ i, i < 3 → h.q.getLsbD i = (x.q i).getD (g.q.getLsbD i)) ∧
    { h with s := g.s, q := g.q, written := g.written } = g

/-- The result of number `id` lands: the registers have their values, FLAGS its flags, the destinations are full, the core
drops the copies it does not own where the instruction acquires (R164), and nothing else changes but the list of results to
come and the mark of progress. -/
structure Arrives (id w : Nat) (slices : BitVec 8) (acquire : Bool) (t u : State) (x : Written) : Prop where
  /-- The warp. -/
  warp : ∃ W W', sget t.warps w = some W ∧ sget u.warps w = some W' ∧
    (∀ r lane, lane < 32 → W'.vget r lane = (x.v r lane).getD (W.vget r lane)) ∧
    W'.flags = W.flags ||| x.flags ∧
    (∀ r j, j < 8 → ((zget 0 W'.emptyV r).getLsbD j = true ↔
      (zget 0 W.emptyV r).getLsbD j = true ∧ ¬ ∃ lane, lane / 4 = j ∧ (x.v r lane).isSome = true)) ∧
    (∀ i, i < 96 → (W'.emptyS.getLsbD i = true ↔ W.emptyS.getLsbD i = true ∧ (x.s i).isSome = false)) ∧
    (∀ j g, W.gangAt j = some g → ∃ h, W'.gangAt j = some h ∧ g.has slices x h) ∧
    { W' with v := W.v, flags := W.flags, emptyV := W.emptyV, emptyS := W.emptyS, gangs := W.gangs } = W ∧
    u.carve = if acquire then (t.acquire W.core).carve else t.carve
  /-- The other warps. -/
  others : ∀ v, v ≠ w → sget u.warps v = sget t.warps v
  /-- The result is no longer to come. -/
  gone : ∀ k, sget u.inflight k = if k = id then none else sget t.inflight k
  /-- Everything else, memory among it. -/
  rest : { u with warps := t.warps, inflight := t.inflight, progress := t.progress, carve := t.carve } = t

/-- `t` is `s` after the gang of `c` has issued a long-latency instruction whose results are `x`: no register and no flag
has changed, the destinations are marked empty, the gang has moved on, and where `x` writes something REGISTER_BECOMES_FULL
of the result makes it arrive. -/
structure Produces (c : Ctx) (acquire : Bool) (s t : State) (x : Written) : Prop where
  /-- The issuing warp. -/
  warp : ∃ W, sget t.warps c.w = some W ∧ RegsAfter c W Written.none ∧ FallsThrough c W ∧ W.marked = c.W.marked ∧
    EmptyFor c.W W x
  /-- The other warps. -/
  others : ∀ w, w ≠ c.w → sget t.warps w = sget s.warps w
  /-- The results arrive. -/
  lands : (∃ r lane, (x.v r lane).isSome = true) ∨ (∃ i, (x.s i).isSome = true ∨ (x.q i).isSome = true) →
    ∃ u, exec (.registerBecomesFull s.nextId) t = .next u ∧ Arrives s.nextId c.w c.G.slices acquire t u x
  /-- Everything else. -/
  rest : { t with
    warps := s.warps, counters := s.counters, outbox := s.outbox, progress := s.progress, inflight := s.inflight,
    nextId := s.nextId } = s

/-- Instruction `i`, issued under a signature by a gang that passes every check, starts to produce `x`. -/
def RunsLong (i : Instr) (sig : Ctx → State → Sig) (x : Ctx → State → Written) : Prop :=
  ∀ s c, s.passes sig = some c → ∃ t, exec i s = .next t ∧ Produces c false s t (x c s)

/-- The flags that some lanes set together (R98). -/
def flagsOf (act : Word) (f : Nat → Word) : Word := (lanesOf act).foldl (fun a lane => a ||| f lane) 0

end Sys2Proof.Machine
end

