-- ==== Sys2Proof/WellFormed.lean ====
section
/-! DEFINITION. The checks an instruction's fields must pass whatever the state and whatever hints it carries (03_encoding
R46 to R50, R59, R60, R66 to R69; 05_numbers R81). What depends on a hint, on the warp's window or on the grove is
checked when the instruction issues (Machine/Operands.lean). -/

namespace Sys2Proof

/-- The conversions, by which codes they accept (R81, R144). -/
inductive CvtKind where
  /-- fcvt: two floating codes that differ. -/
  | fcvt
  /-- f2i: a floating source. -/
  | f2i
  /-- i2f: a floating destination. -/
  | i2f
  /-- fpack: FP32 to a narrow format. -/
  | fpack
  /-- funpack: a narrow format to FP32. -/
  | funpack
deriving DecidableEq, Repr

/-- A field with what it must satisfy. -/
inductive Form where
  /-- A scalar source group of `n` from `r` (R47, R50). -/
  | src (r n : Nat)
  /-- A scalar destination group (R47, R50). -/
  | dst (r n : Nat)
  /-- A vector group (R50). -/
  | vec (r n : Nat)
  /-- A code, a resource number or an immediate from `lo` to `hi` (R48, R49, R67, R68). -/
  | range (x lo hi : Nat)
  /-- Conversion codes. -/
  | code (src dst : Nat) (k : CvtKind)
  /-- MEET.RED's signed bit beside its op (R67). -/
  | signed (s o : Nat)
  /-- A negate bit beside the condition code that means always (R45). -/
  | negate (n c always : Nat)
  /-- A system register number, to be read or written (R130). -/
  | sysreg (n : Nat) (write : Bool)
  /-- A TYPE code (R60). -/
  | type (t : Nat)
deriving DecidableEq, Repr

/-- The field satisfies it. -/
def Form.ok : Form → Bool
  | .src r n => if n = 1 then decide (r < 122) else r % n == 0 && (decide (r + n ≤ 96) || r == 96 || (r == 110 && n == 2))
  | .dst r n => r % n == 0 && (decide (r + n ≤ 96) || r == 96)
  | .vec r n => r % n == 0
  | .range x lo hi => decide (lo ≤ x) && decide (x ≤ hi)
  | .code x y k =>
    match k with
    | .fcvt => x != 7 && y != 7 && x != y
    | .f2i => x != 7
    | .i2f => y != 7
    | .fpack => x == 0 && decide (1 ≤ y) && decide (y ≤ 5)
    | .funpack => y == 0 && decide (1 ≤ x) && decide (x ≤ 5)
  | .signed s o => s == 0 || decide (o < 2)
  | .negate n c always => n == 0 || c != always
  | .sysreg n write =>
    (decide (0x1001 ≤ n) && decide (n ≤ 0x1006)) || n == 1 || (!write && (n == 0x1000 || (decide (2 ≤ n) && decide (n ≤ 6))))
  | .type t => decide (t < 20) && t != 15

/-- Registers of a floating code: FP64 is a pair (R80). -/
def floatRegs (code : Nat) : Nat := if code = 6 then 2 else 1

/-- Registers of an integer code: the 64-bit types are pairs (R80). -/
def intRegs (code : Nat) : Nat := if code = 2 ∨ code = 3 then 2 else 1

/-- Registers that fpack reads or funpack writes: 32 over the format's width (R145). -/
def packRegs (code : Nat) : Nat := if code = 5 then 8 else if code = 3 ∨ code = 4 then 4 else 2

/-- What the fields of an instruction must satisfy. An event names no fields of a word. -/
def Instr.forms : Instr → List Form
  | .iaddV _ _ _ _ => []
  | .iaddS _ _ _ b => [.src b.toNat 1]
  | .iaddI _ _ _ _ => []
  | .iaddUint d a b => [.dst d.toNat 1, .src a.toNat 1, .src b.toNat 1]
  | .iaddUintI d a _ => [.dst d.toNat 1, .src a.toNat 1]
  | .isubV _ _ _ _ => []
  | .isubS _ _ _ b => [.src b.toNat 1]
  | .isubI _ _ _ _ => []
  | .isubUint d a b => [.dst d.toNat 1, .src a.toNat 1, .src b.toNat 1]
  | .isubUintI d a _ => [.dst d.toNat 1, .src a.toNat 1]
  | .imulV _ _ _ _ => []
  | .imulS _ _ _ b => [.src b.toNat 1]
  | .imulI _ _ _ _ => []
  | .imulUint d a b => [.dst d.toNat 1, .src a.toNat 1, .src b.toNat 1]
  | .imulUintI d a _ => [.dst d.toNat 1, .src a.toNat 1]
  | .imulhV _ _ _ _ => []
  | .imulhS _ _ _ b => [.src b.toNat 1]
  | .imulhI _ _ _ _ => []
  | .imulhUint d a b => [.dst d.toNat 1, .src a.toNat 1, .src b.toNat 1]
  | .imulhUintI d a _ => [.dst d.toNat 1, .src a.toNat 1]
  | .iminV _ _ _ _ => []
  | .iminS _ _ _ b => [.src b.toNat 1]
  | .iminI _ _ _ _ => []
  | .iminUint d a b => [.dst d.toNat 1, .src a.toNat 1, .src b.toNat 1]
  | .iminUintI d a _ => [.dst d.toNat 1, .src a.toNat 1]
  | .imaxV _ _ _ _ => []
  | .imaxS _ _ _ b => [.src b.toNat 1]
  | .imaxI _ _ _ _ => []
  | .imaxUint d a b => [.dst d.toNat 1, .src a.toNat 1, .src b.toNat 1]
  | .imaxUintI d a _ => [.dst d.toNat 1, .src a.toNat 1]
  | .iaddcV _ _ _ _ => []
  | .iaddcS _ _ _ b => [.src b.toNat 1]
  | .iaddcI _ _ _ _ => []
  | .iaddcUint d a b => [.dst d.toNat 1, .src a.toNat 1, .src b.toNat 1]
  | .iaddcUintI d a _ => [.dst d.toNat 1, .src a.toNat 1]
  | .isubcV _ _ _ _ => []
  | .isubcS _ _ _ b => [.src b.toNat 1]
  | .isubcI _ _ _ _ => []
  | .isubcUint d a b => [.dst d.toNat 1, .src a.toNat 1, .src b.toNat 1]
  | .isubcUintI d a _ => [.dst d.toNat 1, .src a.toNat 1]
  | .andV _ _ _ _ => []
  | .andS _ _ _ b => [.src b.toNat 1]
  | .andI _ _ _ _ => []
  | .andUlog d a b => [.dst d.toNat 1, .src a.toNat 1, .src b.toNat 1]
  | .andUlogI d a _ => [.dst d.toNat 1, .src a.toNat 1]
  | .orV _ _ _ _ => []
  | .orS _ _ _ b => [.src b.toNat 1]
  | .orI _ _ _ _ => []
  | .orUlog d a b => [.dst d.toNat 1, .src a.toNat 1, .src b.toNat 1]
  | .orUlogI d a _ => [.dst d.toNat 1, .src a.toNat 1]
  | .xorV _ _ _ _ => []
  | .xorS _ _ _ b => [.src b.toNat 1]
  | .xorI _ _ _ _ => []
  | .xorUlog d a b => [.dst d.toNat 1, .src a.toNat 1, .src b.toNat 1]
  | .xorUlogI d a _ => [.dst d.toNat 1, .src a.toNat 1]
  | .andnV _ _ _ _ => []
  | .andnS _ _ _ b => [.src b.toNat 1]
  | .andnI _ _ _ _ => []
  | .andnUlog d a b => [.dst d.toNat 1, .src a.toNat 1, .src b.toNat 1]
  | .andnUlogI d a _ => [.dst d.toNat 1, .src a.toNat 1]
  | .shlV _ _ _ _ => []
  | .shlS _ _ _ b => [.src b.toNat 1]
  | .shlI _ _ _ _ => []
  | .shlUlog d a b => [.dst d.toNat 1, .src a.toNat 1, .src b.toNat 1]
  | .shlUlogI d a _ => [.dst d.toNat 1, .src a.toNat 1]
  | .shrV _ _ _ _ => []
  | .shrS _ _ _ b => [.src b.toNat 1]
  | .shrI _ _ _ _ => []
  | .shrUlog d a b => [.dst d.toNat 1, .src a.toNat 1, .src b.toNat 1]
  | .shrUlogI d a _ => [.dst d.toNat 1, .src a.toNat 1]
  | .sarV _ _ _ _ => []
  | .sarS _ _ _ b => [.src b.toNat 1]
  | .sarI _ _ _ _ => []
  | .sarUlog d a b => [.dst d.toNat 1, .src a.toNat 1, .src b.toNat 1]
  | .sarUlogI d a _ => [.dst d.toNat 1, .src a.toNat 1]
  | .rotlV _ _ _ _ => []
  | .rotlS _ _ _ b => [.src b.toNat 1]
  | .rotlI _ _ _ _ => []
  | .rotlUlog d a b => [.dst d.toNat 1, .src a.toNat 1, .src b.toNat 1]
  | .rotlUlogI d a _ => [.dst d.toNat 1, .src a.toNat 1]
  | .idivV _ _ _ _ => []
  | .idivS _ _ _ b => [.src b.toNat 1]
  | .iremV _ _ _ _ => []
  | .iremS _ _ _ b => [.src b.toNat 1]
  | .iabsdV _ _ _ _ => []
  | .iabsdS _ _ _ b => [.src b.toNat 1]
  | .iaddsatV _ _ _ _ => []
  | .iaddsatS _ _ _ b => [.src b.toNat 1]
  | .isubsatV _ _ _ _ => []
  | .isubsatS _ _ _ b => [.src b.toNat 1]
  | .leaV _ d a _ => [.vec d.toNat 2, .vec a.toNat 2]
  | .leaS _ d a b => [.vec d.toNat 2, .vec a.toNat 2, .src b.toNat 1]
  | .bpermV _ _ _ _ => []
  | .bpermS _ _ _ b => [.src b.toNat 1]
  | .imadV _ _ _ _ => []
  | .imadS _ _ _ b => [.src b.toNat 1]
  | .clz _ _ _ => []
  | .ctz _ _ _ => []
  | .popc _ _ _ => []
  | .brev _ _ _ => []
  | .iabs _ _ _ => []
  | .ineg _ _ _ => []
  | .notV _ _ _ => []
  | .icvt _ d a s x _ => [.vec d.toNat (intRegs x.toNat), .vec a.toNat (intRegs s.toNat)]
  | .bfx _ _ _ _ => []
  | .bfxn _ _ _ _ => []
  | .bfi _ _ _ _ => []
  | .fshl _ _ a _ => [.vec a.toNat 2]
  | .fshr _ _ a _ => [.vec a.toNat 2]
  | .idot4 _ _ _ _ => []
  | .idot4n _ _ _ _ => []
  | .idot4m _ _ _ _ => []
  | .idot2 _ _ _ _ => []
  | .isetEqV _ c _ _ _ => [.range c.toNat 0 3]
  | .isetEqS _ c _ _ b => [.range c.toNat 0 3, .src b.toNat 1]
  | .isetEqI _ c _ _ _ => [.range c.toNat 0 3]
  | .isetNeV _ c _ _ _ => [.range c.toNat 0 3]
  | .isetNeS _ c _ _ b => [.range c.toNat 0 3, .src b.toNat 1]
  | .isetNeI _ c _ _ _ => [.range c.toNat 0 3]
  | .isetLtV _ c _ _ _ => [.range c.toNat 0 3]
  | .isetLtS _ c _ _ b => [.range c.toNat 0 3, .src b.toNat 1]
  | .isetLtI _ c _ _ _ => [.range c.toNat 0 3]
  | .isetGeV _ c _ _ _ => [.range c.toNat 0 3]
  | .isetGeS _ c _ _ b => [.range c.toNat 0 3, .src b.toNat 1]
  | .isetGeI _ c _ _ _ => [.range c.toNat 0 3]
  | .isetLtnV _ c _ _ _ => [.range c.toNat 0 3]
  | .isetLtnS _ c _ _ b => [.range c.toNat 0 3, .src b.toNat 1]
  | .isetLtnI _ c _ _ _ => [.range c.toNat 0 3]
  | .isetGenV _ c _ _ _ => [.range c.toNat 0 3]
  | .isetGenS _ c _ _ b => [.range c.toNat 0 3, .src b.toNat 1]
  | .isetGenI _ c _ _ _ => [.range c.toNat 0 3]
  | .isetLeV _ c _ _ _ => [.range c.toNat 0 3]
  | .isetLeS _ c _ _ b => [.range c.toNat 0 3, .src b.toNat 1]
  | .isetLeI _ c _ _ _ => [.range c.toNat 0 3]
  | .isetGtV _ c _ _ _ => [.range c.toNat 0 3]
  | .isetGtS _ c _ _ b => [.range c.toNat 0 3, .src b.toNat 1]
  | .isetGtI _ c _ _ _ => [.range c.toNat 0 3]
  | .usetEq c p a b => [.range c.toNat 0 3, .range p.toNat 0 2, .src a.toNat 1, .src b.toNat 1]
  | .usetNe c p a b => [.range c.toNat 0 3, .range p.toNat 0 2, .src a.toNat 1, .src b.toNat 1]
  | .usetLt c p a b => [.range c.toNat 0 3, .range p.toNat 0 2, .src a.toNat 1, .src b.toNat 1]
  | .usetGe c p a b => [.range c.toNat 0 3, .range p.toNat 0 2, .src a.toNat 1, .src b.toNat 1]
  | .usetLtn c p a b => [.range c.toNat 0 3, .range p.toNat 0 2, .src a.toNat 1, .src b.toNat 1]
  | .usetGen c p a b => [.range c.toNat 0 3, .range p.toNat 0 2, .src a.toNat 1, .src b.toNat 1]
  | .usetLe c p a b => [.range c.toNat 0 3, .range p.toNat 0 2, .src a.toNat 1, .src b.toNat 1]
  | .usetGt c p a b => [.range c.toNat 0 3, .range p.toNat 0 2, .src a.toNat 1, .src b.toNat 1]
  | .mov _ _ _ => []
  | .sel _ _ _ _ => []
  | .bcast _ _ b => [.src b.toNat 1]
  | .extract _ d _ _ => [.dst d.toNat 1]
  | .pmovToVector _ _ => []
  | .pmovToPredicates _ _ => []
  | .pset _ c _ _ => [.range c.toNat 0 3]
  | .plop _ _ _ _ _ => []
  | .vote _ d _ _ => [.dst d.toNat 1]
  | .moviVector _ _ _ => []
  | .moviScalar d _ => [.dst d.toNat 1]
  | .faddV _ _ _ _ => []
  | .faddS _ _ _ b => [.src b.toNat 1]
  | .fsubV _ _ _ _ => []
  | .fsubS _ _ _ b => [.src b.toNat 1]
  | .fmulV _ _ _ _ => []
  | .fmulS _ _ _ b => [.src b.toNat 1]
  | .ffmaV _ _ _ _ => []
  | .ffmaS _ _ _ b => [.src b.toNat 1]
  | .fminV _ _ _ _ => []
  | .fminS _ _ _ b => [.src b.toNat 1]
  | .fmaxV _ _ _ _ => []
  | .fmaxS _ _ _ b => [.src b.toNat 1]
  | .fscaleV _ _ _ _ => []
  | .fscaleS _ _ _ b => [.src b.toNat 1]
  | .fcopysignV _ _ _ _ => []
  | .fcopysignS _ _ _ b => [.src b.toNat 1]
  | .fsetEqV _ c _ _ _ => [.range c.toNat 0 3]
  | .fsetEqS _ c _ _ b => [.range c.toNat 0 3, .src b.toNat 1]
  | .fsetNeV _ c _ _ _ => [.range c.toNat 0 3]
  | .fsetNeS _ c _ _ b => [.range c.toNat 0 3, .src b.toNat 1]
  | .fsetLtV _ c _ _ _ => [.range c.toNat 0 3]
  | .fsetLtS _ c _ _ b => [.range c.toNat 0 3, .src b.toNat 1]
  | .fsetLeV _ c _ _ _ => [.range c.toNat 0 3]
  | .fsetLeS _ c _ _ b => [.range c.toNat 0 3, .src b.toNat 1]
  | .fsetGtV _ c _ _ _ => [.range c.toNat 0 3]
  | .fsetGtS _ c _ _ b => [.range c.toNat 0 3, .src b.toNat 1]
  | .fsetGeV _ c _ _ _ => [.range c.toNat 0 3]
  | .fsetGeS _ c _ _ b => [.range c.toNat 0 3, .src b.toNat 1]
  | .fsetUnorderedV _ c _ _ _ => [.range c.toNat 0 3]
  | .fsetUnorderedS _ c _ _ b => [.range c.toNat 0 3, .src b.toNat 1]
  | .fsetOrderedV _ c _ _ _ => [.range c.toNat 0 3]
  | .fsetOrderedS _ c _ _ b => [.range c.toNat 0 3, .src b.toNat 1]
  | .frcp _ _ _ => []
  | .frsq _ _ _ => []
  | .fsqrt _ _ _ => []
  | .fexp2 _ _ _ => []
  | .flog2 _ _ _ => []
  | .fsin _ _ _ => []
  | .fcos _ _ _ => []
  | .ftanh _ _ _ => []
  | .fdiv _ _ _ _ => []
  | .frnd _ _ _ => []
  | .fclass _ _ _ => []
  | .fabs _ _ _ => []
  | .fneg _ _ _ => []
  | .fsat _ _ _ => []
  | .fmed3 _ _ _ _ => []
  | .dadd _ d a b => [.vec d.toNat 2, .vec a.toNat 2, .vec b.toNat 2]
  | .dsub _ d a b => [.vec d.toNat 2, .vec a.toNat 2, .vec b.toNat 2]
  | .dmul _ d a b => [.vec d.toNat 2, .vec a.toNat 2, .vec b.toNat 2]
  | .dfma _ d a b => [.vec d.toNat 2, .vec a.toNat 2, .vec b.toNat 2]
  | .dmin _ d a b => [.vec d.toNat 2, .vec a.toNat 2, .vec b.toNat 2]
  | .dmax _ d a b => [.vec d.toNat 2, .vec a.toNat 2, .vec b.toNat 2]
  | .ddiv _ d a b => [.vec d.toNat 2, .vec a.toNat 2, .vec b.toNat 2]
  | .dsqrt _ d a => [.vec d.toNat 2, .vec a.toNat 2]
  | .dsetEq _ c _ a b => [.range c.toNat 0 3, .vec a.toNat 2, .vec b.toNat 2]
  | .dsetNe _ c _ a b => [.range c.toNat 0 3, .vec a.toNat 2, .vec b.toNat 2]
  | .dsetLt _ c _ a b => [.range c.toNat 0 3, .vec a.toNat 2, .vec b.toNat 2]
  | .dsetLe _ c _ a b => [.range c.toNat 0 3, .vec a.toNat 2, .vec b.toNat 2]
  | .dsetGt _ c _ a b => [.range c.toNat 0 3, .vec a.toNat 2, .vec b.toNat 2]
  | .dsetGe _ c _ a b => [.range c.toNat 0 3, .vec a.toNat 2, .vec b.toNat 2]
  | .dsetUnordered _ c _ a b => [.range c.toNat 0 3, .vec a.toNat 2, .vec b.toNat 2]
  | .dsetOrdered _ c _ a b => [.range c.toNat 0 3, .vec a.toNat 2, .vec b.toNat 2]
  | .hadd2V _ _ _ _ => []
  | .hadd2S _ _ _ b => [.src b.toNat 1]
  | .hmul2V _ _ _ _ => []
  | .hmul2S _ _ _ b => [.src b.toNat 1]
  | .hfma2V _ _ _ _ => []
  | .hfma2S _ _ _ b => [.src b.toNat 1]
  | .badd2V _ _ _ _ => []
  | .badd2S _ _ _ b => [.src b.toNat 1]
  | .bmul2V _ _ _ _ => []
  | .bmul2S _ _ _ b => [.src b.toNat 1]
  | .bfma2V _ _ _ _ => []
  | .bfma2S _ _ _ b => [.src b.toNat 1]
  | .hmin2V _ _ _ _ => []
  | .hmin2S _ _ _ b => [.src b.toNat 1]
  | .hmax2V _ _ _ _ => []
  | .hmax2S _ _ _ b => [.src b.toNat 1]
  | .fcvt _ d a s x _ => [.code s.toNat x.toNat .fcvt, .vec d.toNat (floatRegs x.toNat), .vec a.toNat (floatRegs s.toNat)]
  | .f2i _ d a s x _ => [.code s.toNat x.toNat .f2i, .vec d.toNat (intRegs x.toNat), .vec a.toNat (floatRegs s.toNat)]
  | .i2f _ d a s x _ => [.code s.toNat x.toNat .i2f, .vec d.toNat (floatRegs x.toNat), .vec a.toNat (intRegs s.toNat)]
  | .fpack _ _ a s x _ => [.code s.toNat x.toNat .fpack, .vec a.toNat (packRegs x.toNat)]
  | .funpack _ d _ s x => [.code s.toNat x.toNat .funpack, .vec d.toNat (packRegs s.toNat)]
  | .bpack _ _ _ => []
  | .bunpack _ _ _ => []
  | .xget _ _ _ _ => []
  | .xrot _ _ _ _ => []
  | .xslide _ _ _ _ => []
  | .xmirr _ _ _ _ => []
  | .lred _ _ _ _ => []
  | .lscan _ _ _ _ => []
  | .compact _ _ _ _ => []
  | .matchLanes _ _ _ _ => []
  | .intersect _ _ _ _ => []
  | .ld w _ d a _ => [.vec d.toNat (2 ^ w.toNat), .vec a.toNat 2]
  | .st w _ d a _ => [.vec d.toNat (2 ^ w.toNat), .vec a.toNat 2]
  | .lds w _ d a _ => [.vec d.toNat (2 ^ w.toNat), .src a.toNat 2]
  | .sts w _ d a _ => [.vec d.toNat (2 ^ w.toNat), .src a.toNat 2]
  | .ld8 _ _ a _ => [.vec a.toNat 2]
  | .ld8n _ _ a _ => [.vec a.toNat 2]
  | .ld16 _ _ a _ => [.vec a.toNat 2]
  | .ld16n _ _ a _ => [.vec a.toNat 2]
  | .st8 _ _ a _ => [.vec a.toNat 2]
  | .st16 _ _ a _ => [.vec a.toNat 2]
  | .ldbc _ _ a _ => [.vec a.toNat 2]
  | .pref _ a _ => [.vec a.toNat 2]
  | .atomAdd _ _ a _ => [.vec a.toNat 2]
  | .atomMin _ _ a _ => [.vec a.toNat 2]
  | .atomMax _ _ a _ => [.vec a.toNat 2]
  | .atomAnd _ _ a _ => [.vec a.toNat 2]
  | .atomOr _ _ a _ => [.vec a.toNat 2]
  | .atomXor _ _ a _ => [.vec a.toNat 2]
  | .atomExch _ _ a _ => [.vec a.toNat 2]
  | .atomCas _ _ a _ => [.vec a.toNat 2]
  | .redAdd _ a _ => [.vec a.toNat 2]
  | .redMin _ a _ => [.vec a.toNat 2]
  | .redMax _ a _ => [.vec a.toNat 2]
  | .redAnd _ a _ => [.vec a.toNat 2]
  | .redOr _ a _ => [.vec a.toNat 2]
  | .redXor _ a _ => [.vec a.toNat 2]
  | .atomqAdd _ d a b => [.vec a.toNat 2, .vec d.toNat 2, .vec b.toNat 2]
  | .atomqExch _ d a b => [.vec a.toNat 2, .vec d.toNat 2, .vec b.toNat 2]
  | .atomqCas _ d a b => [.vec a.toNat 2, .vec d.toNat 2, .vec b.toNat 2]
  | .fenceAcq => []
  | .fenceRel => []
  | .fenceAr => []
  | .meet l _ => [.range l.toNat 3 7]
  | .meetArr l _ => [.range l.toNat 3 7]
  | .meetWait l _ => [.range l.toNat 3 7]
  | .meetRed l _ o s r => [.range l.toNat 3 7, .range o.toNat 0 4, .signed s.toNat o.toNat, .dst r.toNat 1]
  | .tfence => []
  | .tcopy x y z => [.range x.toNat 0 63, .src y.toNat 2, .src z.toNat 1]
  | .tstore x y z => [.range x.toNat 0 63, .src y.toNat 2, .src z.toNat 1]
  | .tgather x y _ => [.range x.toNat 0 63, .src y.toNat 2]
  | .tscatter x y _ => [.range x.toNat 0 63, .src y.toNat 2]
  | .tready x => [.range x.toNat 0 63]
  | .trelease x => [.range x.toNat 0 63]
  | .tstate x y => [.dst x.toNat 1, .range y.toNat 0 63]
  | .trows x y => [.range x.toNat 0 63, .src y.toNat 1]
  | .mloadw x y => [.range x.toNat 0 63, .range y.toNat 1 15]
  | .mma x y z => [.range x.toNat 0 7, .range y.toNat 0 63, .range z.toNat 0 3]
  | .mmavs x y _ => [.range x.toNat 0 7, .range y.toNat 0 63]
  | .mfence x => [.dst x.toNat 1]
  | .mwait x => [.src x.toNat 1]
  | .mstoreRegister _ _ z => [.src z.toNat 1]
  | .mstoreTile x _ z => [.range x.toNat 0 63, .src z.toNat 1]
  | .mzero x => [.range x.toNat 0 7]
  | .medge x y _ => [.range x.toNat 0 3, .range y.toNat 0 2]
  | .mpairLeave => []
  | .mpairEnter => []
  | .mshape x y => [.range x.toNat 0 4, .range y.toNat 0 3]
  | .noderead _ _ z => [.range z.toNat 0 15]
  | .inbox _ _ z => [.range z.toNat 0 15]
  | .yieldUp _ y => [.range y.toNat 1 16]
  | .hand _ _ z => [.range z.toNat 1 16]
  | .nodealloc x y z => [.dst x.toNat 1, .src y.toNat 1, .range z.toNat 0 2]
  | .treegrow x y => [.src x.toNat 1, .src y.toNat 1]
  | .grove x => [.src x.toNat 2]
  | .frame x => [.dst x.toNat 2]
  | .spawn x y _ _ _ => [.vec x.toNat 2, .src y.toNat 1]
  | .spawnf x => [.range x.toNat 0 64]
  | .joinwait x => [.src x.toNat 2]
  | .joinadd x y => [.src x.toNat 2, .src y.toNat 1]
  | .payload _ y => [.range y.toNat 1 4]
  | .spquery x _ => [.dst x.toNat 1]
  | .capbegin x y => [.vec x.toNat 16, .vec y.toNat 2]
  | .capend => []
  | .capres _ => []
  | .capabort => []
  | .bra n c _ => [.negate n.toNat c.toNat 7]
  | .call n c _ => [.negate n.toNat c.toNat 3]
  | .joinat _ => []
  | .nop => []
  | .exit => []
  | .ret => []
  | .brxVector r => [.vec r.toNat 2]
  | .brxScalar r => [.src r.toNat 2]
  | .regang _ _ => []
  | .trap _ => []
  | .bkpt _ => []
  | .sleep _ => []
  | .yieldq => []
  | .tstamp d => [.dst d.toNat 2]
  | .sread s d => [.sysreg s.toNat false, .dst d.toNat 1]
  | .swrite s d => [.sysreg s.toNat true, .src d.toNat 1]
  | .iret => []
  | .park => []
  | .hintImm _ => []
  | .hintGuard _ p => [.range p.toNat 0 6]
  | .hintSrcx _ _ _ => []
  | .hintCreg _ => []
  | .hintType t => [.type t.toNat]
  | .hintRound _ _ m => [.range m.toNat 0 4]
  | .hintSched _ _ => []
  | .hintCache p => [.range p.toNat 0 4]
  | .registerWrite _ _ _ _ _ _ => []
  | .promotion _ _ => []
  | .schedStallExpiry _ _ => []
  | .sleepDeadline _ _ => []
  | .barrierWaitParking _ => []
  | .unpark _ => []
  | .blockAdmission _ => []
  | .registerBecomesFull _ => []
  | .instructionCacheParityError _ => []
  | .registration _ => []
  | .carveOutEviction _ _ => []
  | .translationLookup _ _ => []
  | .pageRequestResponse _ _ => []
  | .tileRowLanding _ _ => []
  | .drainRowCompletion _ _ => []
  | .tileCopyFault _ => []
  | .arrayOperationStart _ => []
  | .arrayOperationRetirement _ => []
  | .quadrantClaimGrant _ => []
  | .barrierPacket _ _ => []
  | .barrierRelease _ => []
  | .groveAcceptance _ => []
  | .phaseStart _ => []
  | .trailBegin _ _ => []
  | .trailDeepen _ _ => []
  | .steal _ _ => []
  | .allocationGrant _ _ => []
  | .nodeStart _ _ => []
  | .blockEnd _ => []
  | .completionWordWrite _ => []
  | .binTimerExpiry _ _ _ => []
  | .saplingWarpFormation _ _ _ => []
  | .saplingExit _ => []
  | .joinwaitWake _ => []
  | .capsuleStepCommit _ _ => []
  | .away _ => []
  | .back _ => []
  | .delivery _ => []
  | .trapRingDelivery _ => []
  | .hostAction _ _ => []
  | .preempt _ _ _ _ => []
  | .drainDeadline _ => []
  | .haltEntry _ => []
  | .designatedHaltEntry _ => []
  | .haltDeadline _ => []
  | .captureCompletion _ => []
  | .contextLoss _ => []
  | .resume _ => []
  | .freezeRequest _ _ => []
  | .freezeCompletion => []
  | .thaw => []
  | .correctedError _ => []
  | .uncorrectableError _ => []
  | .apply _ _ => []
  | .applyCompletion _ => []
  | .vfReady _ => []
  | .vfStop _ => []
  | .sliceExpiry _ => []
  | .switchOutCompletion _ => []
  | .functionLevelReset _ => []
  | .ctxsw _ _ => []
  | .ctxswCompletion _ => []
  | .dlctlEn _ _ => []
  | .dlctlRearm _ => []
  | .rearmCompletion _ => []
  | .remapGo _ => []
  | .remapCompletion _ => []
  | .launch _ _ => []
  | .invalidate _ _ => []
  | .invalidationDone _ => []
  | .atsInvalidation _ _ => []
  | .flitReceipt _ _ => []
  | .negativeAcknowledgement _ _ => []
  | .retrainTimeout _ => []
  | .linkDown _ => []
  | .coldReset => []
  | .fwctlVerify _ => []
  | .fwctlColdReset _ => []
  | .mgclaim _ _ => []
  | .hotReset _ => []
  | .i3cTargetReset => []
  | .getVersion _ => []
  | .getCapabilities _ => []
  | .negotiateAlgorithms _ => []
  | .getDigests _ => []
  | .getCertificate _ _ _ _ => []
  | .challenge _ _ => []
  | .getMeasurements _ _ _ => []
  | .droopAlarm _ => []
  | .stretchEnd _ => []
  | .throttleWindowExpiry _ => []
  | .lifetimeRecordWrite => []
  | .powerDown => []
  | .linkTrainingCompletion _ _ => []
  | .deliveryAcknowledgement _ => []
  | .bar4Access _ _ _ _ _ => []
  | .atsTranslationCompletion _ _ _ => []
  | .lossOfPower => []
  | .cycleCountWrap _ _ => []

/-- Every field satisfies what R66 to R69 ask of it. -/
def Instr.wellFormed (i : Instr) : Bool := i.forms.all Form.ok

end Sys2Proof
end

