-- ==== Sys2Proof/Certificates/Slice0/Obligations.lean ====
section
/-! DEFINITION. The statements about the machine, each formalising rules of spec/. Helper definitions stand in
Sys2Proof.Claims; they say what a rule says in its own terms. -/

namespace Sys2Proof.Claims

open Sys2Proof.Machine

/-! ### Steps, words, memory -/

/-- The bytes at an address that a gang's fetch reads (R43): a canonical address outside the core-store window, on a page
that is translated for execution, of this device's memory or the host's, and not poisoned. -/
def fetches (s : State) (w : Nat) (W : Warp) (pc : DWord) (b : List Byte) : Prop :=
  canonical pc = true ∧ inWindow pc = false ∧ ∃ key o,
    s.xlateFor W.ctx W.core (some w) (vaOf pc) .exec = .go key o ∧ isRemote key = false ∧ s.poisoned key 4 = false ∧
    b = [s.byte key, s.byte (key + 1), s.byte (key + 2), s.byte (key + 3)]

/-- The word that another device has answered a gang's fetch with (R43, R322). -/
def fetchesFar (s : State) (w : Nat) (W : Warp) (slices : BitVec 8) (pc : DWord) (x : Word) : Prop :=
  canonical pc = true ∧ inWindow pc = false ∧ ∃ key o e d v,
    s.xlateFor W.ctx W.core (some w) (vaOf pc) .exec = .go key o ∧ isRemote key = true ∧
    s.requests.find? (fun e => e.2.who == .fetch w slices pc) = some e ∧ e.2.answer = some (0, d, v) ∧ x = BitVec.ofNat 32 v

/-- A gang keeps its next word while something of the instruction there is done, and has kept it (R282). -/
def kept (g : Gang) : Option Word := if g.pend = .none then none else g.words[g.hints.length]?

/-- The state in which a gang's fetched word issues: the fetch is done with, the word kept behind those of its hint group, its page's
translation installed, the gang named. -/
def issuesAt (s : State) (w j : Nat) (W : Warp) (g : Gang) (x : Word) : State :=
  let s1 := (s.fetched w g.slices (W.pcOf g)).modWarp w (fun W => W.modGang j (fun g => { g with words := g.words.take g.hints.length ++ [x] }))
  { s1.install W.ctx (vaOf (W.pcOf g)) with cur := some (w, lowSlice g.slices) }

/-- The turn of a gang, at the head of the list, and the state in which it fetches: a cycle later, or, for a gang that issues in the
same cycle as the turn before, at once (R26). -/
def turnOf (s : State) (w j : Nat) (s1 : State) : Prop :=
  ∃ r, (s.turns = .issue w j :: r ∧ s1 = { s.pass with turns := r }) ∨ (s.turns = .also w j :: r ∧ s1 = { s with turns := r })

/-- A word and the instruction it encodes. -/
def Reads (x : Word) (i : Instr) : Prop := decode x = .ok i ∧ encode i = some x

/-- A number at an offset of some bytes. -/
def numOff (b : List Byte) (off n : Nat) : Nat := numOf ((b.drop off).take n)

end Sys2Proof.Claims

open Sys2Proof Sys2Proof.Machine Sys2Proof.Claims in
/-- R43 and R69. Where the turn is a gang's and the bytes at its PC decode, the step is that instruction's exec, in the state after
the cycle has passed, with the fetch page's translation installed and the gang named as the one that issues; a word that another
device has answered runs in the same way, and so does the word of an instruction that a gang waits at with something of it done,
which is not fetched again (R282). -/
def Obligations.StepRunsDecoded : Prop :=
  ∀ (s s1 : State) (w j : Nat) (W : Warp) (g : Gang), turnOf s w j s1 → sget s1.warps w = some W → W.gangAt j = some g →
    s1.gangMayIssue W g = true →
    (∀ (b : List Byte) (i : Instr), kept g = none → fetches s1 w W (W.pcOf g) b → decodeBytes b = .ok (i, []) →
      step s = exec i (issuesAt s1 w j W g (BitVec.ofNat 32 (numOf b)))) ∧
    (∀ (x : Word) (i : Instr), kept g = none → fetchesFar s1 w W g.slices (W.pcOf g) x → decode x = .ok i →
      step s = exec i (issuesAt s1 w j W g x)) ∧
    (∀ (x : Word) (i : Instr), kept g = some x → decode x = .ok i → step s = exec i (issuesAt s1 w j W g x))

open Sys2Proof Sys2Proof.Machine Sys2Proof.Claims in
/-- R69, R43 and R26, with the order of agents of assumption 3: a word that is no instruction takes the illegal-instruction trap and
counts as an issue (R306); a PC that is not canonical takes a translation fault; a gang that may not issue is passed over; an event's
turn runs it; with no turn listed a parked warp finds out whether it is ready, else the first agent's step that changes something is
taken, else a gang finds out whether it is ready, else the gangs chosen by R26 issue, one now and the others in turns without a cycle
between, those not chosen counting the cycle. -/
def Obligations.StepOtherwise : Prop :=
  ∀ (s : State),
    (∀ w j s1 W g b e, turnOf s w j s1 → sget s1.warps w = some W → W.gangAt j = some g → s1.gangMayIssue W g = true →
      kept g = none → fetches s1 w W (W.pcOf g) b → decodeBytes b = .error e →
      step s = .next (((((s1.fetched w g.slices (W.pcOf g)).keepWords w j [BitVec.ofNat 32 (numOf b)]).trap w (lowSlice g.slices)
        (Trap.of 1 0)).count (ctxFn W.ctx) 1 1).tick)) ∧
    (∀ w j s1 W g, turnOf s w j s1 → sget s1.warps w = some W → W.gangAt j = some g → s1.gangMayIssue W g = true →
      kept g = none → canonical (W.pcOf g) = false →
      step s = .next (((s1.fetched w g.slices (W.pcOf g)).keepWords w j []).trap w (lowSlice g.slices)
        { Trap.of 6 0 with page := W.pcOf g }).tick) ∧
    (∀ w j s1 W g, turnOf s w j s1 → sget s1.warps w = some W → W.gangAt j = some g → s1.gangMayIssue W g = false →
      step s = .next s1) ∧
    (∀ i r, s.turns = .event i :: r → step s = exec i { s.pass with turns := r }) ∧
    (s.turns = [] →
      let s1 := s.pass
      (∀ t, s1.readiness = some t → step s = .next t) ∧
      (∀ t, s1.readiness = none → s1.agentStep = some t → step s = .next t.tick) ∧
      (∀ t, s1.readiness = none → s1.agentStep = none → s1.tryOne = some t → step s = .next t) ∧
      (s1.readiness = none → s1.agentStep = none → s1.tryOne = none →
        (s1.chosen = [] → step s = .next s1) ∧
        ∀ w j l W g b i, s1.chosen = (w, j) :: l →
          let s2 := { s1.countUnchosen ((w, j) :: l) with turns := l.map (fun x => Turn.also x.1 x.2) }
          sget s2.warps w = some W → W.gangAt j = some g → kept g = none → fetches s2 w W (W.pcOf g) b →
          decodeBytes b = .ok (i, []) → step s = exec i (issuesAt s2 w j W g (BitVec.ofNat 32 (numOf b)))))

open Sys2Proof Sys2Proof.Machine Sys2Proof.Claims in
/-- R26 and R24. Every gang chosen is a ready candidate; each partition that has one, in a cycle of its core, chooses one that no other
of its candidates comes before; it chooses at most one more, and not two that need port B; under a throttle window it chooses one, and
in the middle of a stretched cycle none (R345). -/
def Obligations.OldestReadyIssues : Prop :=
  ∀ (s : State),
    (∀ w j, (w, j) ∈ s.chosen → ∃ W g, (w, W) ∈ s.warps ∧ g ∈ W.gangs ∧ s.gangMayIssue W g = true ∧ j = lowSlice g.slices) ∧
    (∀ v V h, (v, V) ∈ s.warps → h ∈ V.gangs → s.gangMayIssue V h = true → s.coreTicks (s.placeOf v).1 = true →
      ∃ w W g, (w, lowSlice g.slices) ∈ s.chosen ∧ s.placeOf w = s.placeOf v ∧ (w, W) ∈ s.warps ∧ g ∈ W.gangs ∧
        s.gangMayIssue W g = true ∧ ¬ (h.promoted = true ∧ g.promoted = false) ∧
        (h.promoted = g.promoted → W.age ≤ V.age ∧ (W.age = V.age → lowSlice g.slices ≤ lowSlice h.slices))) ∧
    (∀ p, (s.chosen.filter (fun x => s.placeOf x.1 == p)).length ≤
      if s.coreTicks p.1 = false then 0 else if s.throttled p.1 = true then 1 else 2) ∧
    (∀ x y, x ∈ s.chosen → y ∈ s.chosen → x ≠ y → s.placeOf x.1 = s.placeOf y.1 →
      ¬ (s.needsB x.1 x.2 = true ∧ s.needsB y.1 y.2 = true))

open Sys2Proof Sys2Proof.Machine Sys2Proof.Claims in
/-- The words written out beside instructions in the strips of the manual. -/
def Obligations.DecodedWords : Prop :=
  Reads 0x1A00C185 (.shlI 0 3 3 5) ∧ Reads 0xFD000001 (.hintType 1) ∧ Reads 0x05818205 (.imulhV 0 6 4 5) ∧
  Reads 0x1E828403 (.leaV 0 10 8 3) ∧ Reads 0x2780818B (.icvt 0 2 3 0 5 1) ∧ Reads 0x28808389 (.bfxn 0 2 7 9) ∧
  Reads 0x78030205 (.idot4 0 12 4 5) ∧ Reads 0x3204C086 (.isetLtnS 0 2 3 1 6) ∧ Reads 0x3B108001 (.plop 0 8 2 0 1) ∧
  Reads 0xE000C184 (.iaddUint 3 3 4) ∧ Reads 0xF009FFFE (.moviVector 0 9 0xFFFE) ∧ Reads 0x40010103 (.faddV 0 4 2 3) ∧
  Reads 0x45820105 (.ffmaS 0 8 2 5) ∧ Reads 0x49028083 (.fsetLtV 0 1 2 1 3) ∧ Reads 0x50814300 (.frsq 0 5 6) ∧
  Reads 0x5401C409 (.fdiv 0 7 8 9) ∧ Reads 0x5982860E (.dfma 0 10 12 14) ∧ Reads 0x5D004206 (.dsetLt 0 0 1 4 6) ∧
  Reads 0x6100C205 (.hfma2V 0 3 4 5) ∧ Reads 0x68008082 (.fcvt 0 2 1 0 1 0) ∧ Reads 0x71818287 (.xmirr 0 6 5 7) ∧
  Reads 0x74028103 (.intersect 0 10 2 3) ∧ Reads 0xCCC00000 .iret ∧ Reads 0xCC900014 (.tstamp 20)

open Sys2Proof Sys2Proof.Machine Sys2Proof.Claims in
/-- R44 to R50 and R66 to R68: no bit of an encoding is dropped. -/
def Obligations.DecodeOfEncode : Prop :=
  ∀ (i : Instr) (w : Word), encode i = some w → decode w = .ok i

open Sys2Proof Sys2Proof.Machine Sys2Proof.Claims in
/-- R45 and R69: every bit of a word that decodes is either in a field of the instruction or fixed by its row, so
two words never mean one instruction; and the events, which no word encodes, decode from none. -/
def Obligations.OneWordEach : Prop :=
  ∀ (w : Word) (i : Instr), decode w = .ok i → encode i = some w

namespace Sys2Proof.Claims

open Sys2Proof.Machine

/-- The rows of the opcode table that no word encodes: what the machine's other agents, the host and the peers do. -/
def isEvent : Instr → Bool
  | .registerWrite _ _ _ _ _ _ => true
  | .promotion _ _ => true
  | .schedStallExpiry _ _ => true
  | .sleepDeadline _ _ => true
  | .barrierWaitParking _ => true
  | .unpark _ => true
  | .blockAdmission _ => true
  | .registerBecomesFull _ => true
  | .instructionCacheParityError _ => true
  | .registration _ => true
  | .carveOutEviction _ _ => true
  | .translationLookup _ _ => true
  | .pageRequestResponse _ _ => true
  | .tileRowLanding _ _ => true
  | .drainRowCompletion _ _ => true
  | .tileCopyFault _ => true
  | .arrayOperationStart _ => true
  | .arrayOperationRetirement _ => true
  | .quadrantClaimGrant _ => true
  | .barrierPacket _ _ => true
  | .barrierRelease _ => true
  | .groveAcceptance _ => true
  | .phaseStart _ => true
  | .trailBegin _ _ => true
  | .trailDeepen _ _ => true
  | .steal _ _ => true
  | .allocationGrant _ _ => true
  | .nodeStart _ _ => true
  | .blockEnd _ => true
  | .completionWordWrite _ => true
  | .binTimerExpiry _ _ _ => true
  | .saplingWarpFormation _ _ _ => true
  | .saplingExit _ => true
  | .joinwaitWake _ => true
  | .capsuleStepCommit _ _ => true
  | .away _ => true
  | .back _ => true
  | .delivery _ => true
  | .trapRingDelivery _ => true
  | .hostAction _ _ => true
  | .preempt _ _ _ _ => true
  | .drainDeadline _ => true
  | .haltEntry _ => true
  | .designatedHaltEntry _ => true
  | .haltDeadline _ => true
  | .captureCompletion _ => true
  | .contextLoss _ => true
  | .resume _ => true
  | .freezeRequest _ _ => true
  | .freezeCompletion => true
  | .thaw => true
  | .correctedError _ => true
  | .uncorrectableError _ => true
  | .apply _ _ => true
  | .applyCompletion _ => true
  | .vfReady _ => true
  | .vfStop _ => true
  | .sliceExpiry _ => true
  | .switchOutCompletion _ => true
  | .functionLevelReset _ => true
  | .ctxsw _ _ => true
  | .ctxswCompletion _ => true
  | .dlctlEn _ _ => true
  | .dlctlRearm _ => true
  | .rearmCompletion _ => true
  | .remapGo _ => true
  | .remapCompletion _ => true
  | .launch _ _ => true
  | .invalidate _ _ => true
  | .invalidationDone _ => true
  | .atsInvalidation _ _ => true
  | .flitReceipt _ _ => true
  | .negativeAcknowledgement _ _ => true
  | .retrainTimeout _ => true
  | .linkDown _ => true
  | .coldReset => true
  | .fwctlVerify _ => true
  | .fwctlColdReset _ => true
  | .mgclaim _ _ => true
  | .hotReset _ => true
  | .i3cTargetReset => true
  | .getVersion _ => true
  | .getCapabilities _ => true
  | .negotiateAlgorithms _ => true
  | .getDigests _ => true
  | .getCertificate _ _ _ _ => true
  | .challenge _ _ => true
  | .getMeasurements _ _ _ => true
  | .droopAlarm _ => true
  | .stretchEnd _ => true
  | .throttleWindowExpiry _ => true
  | .lifetimeRecordWrite => true
  | .powerDown => true
  | .linkTrainingCompletion _ _ => true
  | .deliveryAcknowledgement _ => true
  | .bar4Access _ _ _ _ _ => true
  | .atsTranslationCompletion _ _ _ => true
  | .lossOfPower => true
  | .cycleCountWrap _ _ => true
  | _ => false

end Sys2Proof.Claims

open Sys2Proof Sys2Proof.Machine Sys2Proof.Claims in
/-- R43: every instruction is one word of 32 bits, and the decoder reads it from its four bytes, lowest first. -/
def Obligations.WellFormedEncodes : Prop :=
  (∀ i : Instr, i.wellFormed = true → isEvent i = false → ∃ w, encode i = some w) ∧
  (∀ i : Instr, isEvent i = true → encode i = none) ∧
  ∀ (i : Instr) (w : Word) (rest : List Byte), encode i = some w →
    decodeTableWord 32 w.toNat = some i ∧
    decodeBytes (bytesOf 4 w.toNat ++ rest) = .ok (i, rest)

open Sys2Proof Sys2Proof.Machine Sys2Proof.Claims in
/-- The values the manual gives for reset; and that the reset memory has the model's own canonical form (assumption 2), which
MemoryStaysCanonical keeps. -/
def Obligations.ResetState : Prop :=
  (∀ c, ((State.reset.context c).cxd1, (State.reset.context c).cxd2) = (400, 200)) ∧
  (∀ n, (State.reset.stand n).vsplit = 1 ∧ (State.reset.stand n).err = 0 ∧ (State.reset.stand n).state = 0 ∧
    (State.reset.stand n).slice = 2000) ∧
  (∀ v, (State.reset.vf v).stand = 0 ∧ (State.reset.vf v).d1 = 0 ∧ (State.reset.vf v).d2 = 200 ∧
    (State.reset.vf v).ctxsw = 0xFFFFFFFF00000000) ∧
  (∀ c, field (State.reset.detector c).ctl.toNat 16 8 = 20 ∧ field (State.reset.detector c).ctl.toNat 8 8 = 16 ∧
    field (State.reset.detector c).ctl.toNat 0 8 = 40 ∧ (State.reset.detector c).cnt = 0) ∧
  State.reset.hand = 0 ∧ State.reset.owner = 0 ∧ State.reset.frozen = 0 ∧ State.reset.fwErr = 0 ∧ State.reset.fwState = 0 ∧
  State.reset.time = 0 ∧ State.reset.warps = [] ∧ State.reset.groves = [] ∧ State.reset.blocks = [] ∧
  Memory.wf State.reset.mem = true ∧ State.reset.frozenMem = none

open Sys2Proof Sys2Proof.Machine Sys2Proof.Claims in
/-- The model's own form of memory (assumption 2): every step of every agent keeps it, in memory and in the freeze
buffer, so that equal memories are equal data. -/
def Obligations.MemoryStaysCanonical : Prop :=
  let Inv (s : State) : Prop := Memory.wf s.mem = true ∧ (∀ m, s.frozenMem = some m → Memory.wf m = true)
  ∀ s t : State, Inv s → step s = .next t → Inv t

namespace Sys2Proof.Claims

open Sys2Proof.Machine

/-- A byte of the dirty log of a function whose log is on (R309): a write to its device memory may enter a granule there. -/
def LogCell (s : State) (fn key : Nat) : Prop :=
  fn ≠ 0 ∧ (s.vf fn).dlctl.getLsbD 0 = true ∧ ∃ k i, k < 2 ^ (field (s.vf fn).dlctl.toNat 12 4 + 6) ∧ i < 8 ∧
    key = keyOf 1 ((s.vf fn).dlbase.toNat + 8 * k) + i

/-- An instruction issued by a gang that a check of R71 stops takes that trap, whatever else it would do. -/
def Traps (i : Instr) (sig : Ctx → State → Sig) : Prop :=
  ∀ s c t, s.stopped sig = some (c, t) → exec i s = .next (s.trapped c t)

/-- Integer, logic, move, predicate and comparison instructions under the checks of R71. -/
def StopsInteger : Prop :=
  (∀ g d a b, Traps (.iaddV g d a b) (hinted (intSig 0 g d a (.v b))) ∧ Traps (.imulS g d a b) (hinted (intSig 2 g d a (.s b))) ∧
    Traps (.imaxI g d a b) (hinted (intSig 5 g d a (.i b))) ∧ Traps (.iaddUint d a b) (hinted (uintSig 0 d a (.s b))) ∧
    Traps (.xorV g d a b) (hinted (logSig g d a (.v b))) ∧ Traps (.shlUlog d a b) (hinted (ulogSig d a (.s b))) ∧
    Traps (.idivV g d a b) (hinted (iextSig [0, 1] false g d a (.v b))) ∧ Traps (.imadV g d a b) (hinted (iextSig [] true g d a (.v b))) ∧
    Traps (.leaV g d a b) (hinted (leaSig g d a (.v b))) ∧ Traps (.clz g d a) (hinted (countSig g d a)) ∧
    Traps (.brev g d a) (hinted (fun _ => iunSig 1 1 [] g d a)) ∧ Traps (.bfx g d a b) (hinted (bitfSig 1 false g d a b)) ∧
    Traps (.bfi g d a b) (hinted (bitfSig 1 true g d a b)) ∧ Traps (.fshl g d a b) (hinted (bitfSig 2 false g d a b)) ∧
    Traps (.idot4 g d a b) (hinted (idotSig g d a b))) ∧
  (∀ g code p a b, Traps (.isetEqV g code p a b) (hinted (isetSig g code a (.v b))) ∧ Traps (.usetEq code p a b) (hinted (usetSig code p a b))) ∧
  (∀ g d a b, Traps (.mov g d a) (hinted (fun _ => moveSig g [(.v a.toNat 1, some 0)] [.v d.toNat 1] .vec)) ∧
    Traps (.bcast g d b) (hinted (fun _ => moveSig g [(.s b.toNat 1, some 1)] [.v d.toNat 1] .no)) ∧
    Traps (.pmovToPredicates g a) (hinted (fun _ => moveSig g [(.v a.toNat 1, some 0)] [] .vec))) ∧
  (∀ d i, Traps (.moviScalar d i)
    (hinted (fun h => { Sig.plain with dsts := [.s d.toNat (typeRegs (h.typeOr 0))], types := intTypes, imms := 2 })))

/-- Float, conversion and lane instructions under the checks of R71. -/
def StopsFloat : Prop :=
  (∀ g d a b, Traps (.faddV g d a b) (hinted (f32Sig 0 g d a (.v b))) ∧ Traps (.ffmaS g d a b) (hinted (f32Sig 3 g d a (.s b))) ∧
    Traps (.frcp g d a) (hinted (funSig 0 g d a)) ∧ Traps (.fsqrt g d a) (hinted (funSig 2 g d a)) ∧
    Traps (.dadd g d a b) (hinted (f64Sig 0 g d a b)) ∧ Traps (.dfma g d a b) (hinted (f64Sig 3 g d a b)) ∧
    Traps (.hadd2V g d a b) (hinted (h2Sig 0 [] g d a (.v b))) ∧ Traps (.hmin2V g d a b) (hinted (h2Sig 4 [9, 10] g d a (.v b))) ∧
    Traps (.bpack g d a) (hinted (blockSig true g d a)) ∧ Traps (.xget g d a b) (hinted (xlaneSig g d a b)) ∧
    Traps (.lred g d a b) (hinted (laneSig g d a b)) ∧
    Traps (.intersect g d a b) (hinted (fun h => { xlaneSig g d a b h with types := [0, 1] }))) ∧
  (∀ g code p a b, Traps (.fsetLtV g code p a b) (hinted (fsetSig 1 g code a (.v b))) ∧
    Traps (.dsetLt g code p a b) (hinted (fsetSig 2 g code a (.v b)))) ∧
  (∀ g d a src dst t, Traps (.fcvt g d a src dst t) (hinted (fcvtSig g d a src dst)) ∧
    Traps (.f2i g d a src dst t) (hinted (f2iSig g d a src dst)) ∧ Traps (.i2f g d a src dst t) (hinted (i2fSig g d a src dst)))

/-- Loads, stores and atomics under the checks of R71. -/
def StopsMemory : Prop :=
  (∀ w g d a o, Traps (.ld w g d a o) (hinted (loadSig g d.toNat (widthOf w) a.toNat)) ∧
    Traps (.st w g d a o) (hinted (storeSig g d.toNat (widthOf w) a.toNat)) ∧
    Traps (.lds w g d a o) (hinted (fun _ => { Sig.plain with
      g := some g, guard := true, srcs := [(.s a.toNat 2, some 0)], dsts := [.v d.toNat (widthOf w)], imms := 2, cache := true })) ∧
    Traps (.sts w g d a o) (hinted (fun _ => { Sig.plain with
      g := some g, guard := true, srcs := [(.s a.toNat 2, some 0), (.v d.toNat (widthOf w), some 2)], imms := 2, cache := true }))) ∧
  (∀ g d a b, Traps (.ld8 g d a b) (hinted (loadSig g d.toNat 1 a.toNat)) ∧ Traps (.st16 g d a b) (hinted (storeSig g d.toNat 1 a.toNat)) ∧
    Traps (.atomAdd g d a b) (hinted (atomSig 0 (atomTypes 0) .vec g (some d.toNat) a.toNat b.toNat)) ∧
    Traps (.atomCas g d a b) (hinted (atomSig 7 (atomTypes 7) .vec g (some d.toNat) a.toNat b.toNat)) ∧
    Traps (.redMax g a b) (hinted (atomSig 2 (atomTypes 2) .vec g none a.toNat b.toNat)) ∧
    Traps (.atomqCas g d a b) (hinted (atomSig 7 [0, 1, 2, 3] .no g (some d.toNat) a.toNat b.toNat)))

/-- Tile and matrix instructions under the checks of R71. -/
def StopsTileMatrix : Prop :=
  (∀ x y z, Traps (.tcopy x y z) (copySig false false x.toNat y.toNat (.s z.toNat 1)) ∧
    Traps (.tscatter x y z) (copySig true true x.toNat y.toNat (.v z.toNat 1)) ∧ Traps (.tready x) (tileSig x.toNat) ∧
    Traps (.mma x y z) (fun c s => mtxSig 2 ((s.tileOf c.W y.toNat).isSome && decide (x.toNat ≤ 7) && decide (z.toNat ≤ 3)) c) ∧
    Traps (.mzero x) (fun c _ => mtxSig 0 (decide (x.toNat ≤ 7)) c) ∧
    Traps (.mwait x) (fun c _ => { mtxSig 0 true c with srcs := [(.s x.toNat 1, some 0)] })) ∧
  (∀ x b z, Traps (.mstoreTile x b z)
    (fun c s => { mtxSig 0 (s.tileOf c.W x.toNat).isSome c with guard := true, srcs := [(.s z.toNat 1, some 2)] }))

/-- Tree, spawn and capsule instructions under the checks of R71. -/
def StopsTreeSpawn : Prop :=
  (∀ x y z, Traps (.noderead x y z) (hinted (fun _ => { Sig.plain with
      guard := true, srcs := [(.v y.toNat 1, some 1)], dsts := [.v x.toNat 1], legal := decide (z.toNat ≤ 15) })) ∧
    Traps (.yieldUp x y) (hinted (fun _ => { Sig.plain with
      guard := true, srcs := wordSrcs x.toNat y.toNat, legal := decide (1 ≤ y.toNat) && decide (y.toNat ≤ 16) })) ∧
    Traps (.grove x) (hinted (fun _ => { Sig.plain with srcs := [(.s x.toNat 2, some 0)] })) ∧
    Traps (.frame x) (hinted (fun _ => { Sig.plain with dsts := [.s x.toNat 2] })) ∧
    Traps (.spawnf x) (hinted (fun _ => { Sig.plain with legal := decide (x.toNat ≤ 64) })) ∧
    Traps (.joinadd x y) (hinted (fun _ => { Sig.plain with srcs := [(.s x.toNat 2, some 0), (.s y.toNat 1, some 1)] })) ∧
    Traps (.capbegin x y) (hinted (fun _ => { Sig.plain with
      srcs := [(.v x.toNat 16, some 0), (.v y.toNat 2, some 1)], body := .own })))

/-- Barrier, fence, branch, call, handler and system-register instructions under the checks of R71. -/
def StopsControl : Prop :=
  (∀ l b, Traps (.meet l b) (meetSig l b)) ∧ Traps .fenceRel (hinted bareSig) ∧ Traps .tfence (hinted bareSig) ∧
  Traps .exit (hinted bareSig) ∧ Traps .ret (hinted bareSig) ∧ Traps .park (hinted bareSig) ∧
  (∀ o, Traps (.joinat o) (hinted (fun _ => branchSig true .free))) ∧
  (∀ n cond o, Traps (.call n cond o) (hinted (fun _ => branchSig (!(n == 1 && cond == 3)) .no))) ∧
  (∀ r, Traps (.brxVector r) (hinted (fun _ => { Sig.plain with srcs := [(.v r.toNat 2, some 0)] }))) ∧
  (∀ n d, Traps (.swrite n d) (hinted (fun _ => { Sig.plain with
    srcs := [(.s d.toNat 1, some 0)], priv := true
    legal := n.toNat == 1 || (decide (0x1001 ≤ n.toNat) && decide (n.toNat ≤ 0x1006)) }))) ∧
  Traps .iret (hinted (fun _ => { Sig.plain with priv := true }))

end Sys2Proof.Claims

open Sys2Proof Sys2Proof.Machine Sys2Proof.Claims in
/-- R71: the first cause that applies is taken, before the instruction changes anything. -/
def Obligations.ChecksInOrder : Prop :=
  (∀ (c : Ctx) (g : Sig),
    let opnds := g.srcs.map (·.1) ++ g.dsts
    let marked := g.srcs.filter (fun o => match c.h.srcx, o.2 with
      | some m, some i => m.getLsbD i && !(o.1.full c.W c.G.slices)
      | _, _ => false)
    let legal := g.lawful c.G.hints
    let allowed := !g.priv || c.W.inHandler c.j
    let inside := opnds.all (Opnd.within c.W c.j)
    (legal = false → front c g = some (Trap.of 0x01 0)) ∧
    (legal = true → allowed = false → front c g = some (Trap.of 0x02 0)) ∧
    (legal = true → allowed = true → inside = false → front c g = some (Trap.of 0x03 0)) ∧
    (legal = true → allowed = true → inside = true → c.G.pend = .none → ∀ o rest, marked = o :: rest →
      front c g = some (Trap.of 0x04 o.1.field)) ∧
    (legal = true → allowed = true → inside = true → marked = [] ∨ c.G.pend ≠ .none → front c g = none)) ∧
  StopsInteger ∧ StopsFloat ∧ StopsMemory ∧ StopsTileMatrix ∧ StopsTreeSpawn ∧ StopsControl

open Sys2Proof Sys2Proof.Machine Sys2Proof.Claims in
/-- R283: each field at its offset, little-endian, for a warp's trap that carries no PRI tag. -/
def Obligations.TrapRecord : Prop :=
  ∀ (s : State) (W : Warp) (g : Gang) (t : Trap) (host : Bool), t.tag = none → t.cls < 2 ^ 16 → t.detail < 2 ^ 16 →
    W.core < 128 → W.entry < 2048 →
    let b := s.record W g t host
    b.length = 128 ∧ numOff b 0x00 2 = t.cls ∧ numOff b 0x02 2 = t.detail ∧ numOff b 0x04 1 = g.slices.toNat ∧
    numOff b 0x05 1 = (if t.cls = 6 ∨ t.cls = 7 ∨ t.cls = 8 then 1 else 0) + (if host then 2 else 0) ∧
    numOff b 0x08 8 = (W.groupPc g).toNat ∧
    numOff b 0x10 8 = (if t.after then W.pcOf g + 4 else W.groupPc g).toNat ∧
    numOff b 0x18 4 = t.completed.toNat ∧ numOff b 0x1C 4 = t.faulting.toNat ∧ numOff b 0x20 8 = t.addr.toNat ∧
    numOff b 0x2C 4 = W.core * 2 ^ 25 + W.entry * 2 ^ 14 ∧
    numOff b 0x34 2 = field (s.context W.ctx).cxnum.toNat 0 16 ∧ numOff b 0x37 1 = 0 ∧ numOff b 0x38 4 = W.flags.toNat ∧
    (∀ i, i < 4 → numOff b (0x40 + 4 * i) 4 = (g.sget (92 + i)).toNat) ∧
    numOff b 0x50 8 = s.time / 3 % 2 ^ 64 ∧ numOff b 0x7C 1 = 0

namespace Sys2Proof.Claims

open Sys2Proof.Machine

/-- A trap as it is recorded: in a class that is restarted, the lanes that an earlier execution completed stay named (R281, R286). -/
def noted (W : Warp) (g : Gang) (t : Trap) : Trap :=
  if t.cls = 6 ∨ t.cls = 7 ∨ t.cls = 8 then
    { t with completed := t.completed ||| (match g.redo with
        | some (pc, m) => if pc = W.groupPc g then m else 0
        | none => 0) }
  else t

end Sys2Proof.Claims

open Sys2Proof Sys2Proof.Machine Sys2Proof.Claims in
/-- R285 and R282. That the low two bits of tvec are cleared is the model's choice (assumption 27). -/
def Obligations.TrapToHandler : Prop :=
  ∀ (s : State) (w j : Nat) (W : Warp) (g : Gang) (t : Trap), sget s.warps w = some W → W.gangAt j = some g →
    W.gangs.filter (fun h => h.slices.getLsbD j) = [g] → W.inHandler j = false → s.toHost W.ctx t.cls = false →
    ¬ (t.cls = 6 ∧ t.detail = 2) → g.slices.getLsbD j = true → W.slices.length = 8 →
    let a := s.recordAddr W.ctx W.core W.entry
    ∃ V, sget (s.trap w j t).warps w = some V ∧
      V.handler.map (fun h => (h.slices, h.halt)) = some (g.slices, none) ∧ V.inHandler j = true ∧
      (∀ k, k < 8 → V.slice k = if g.slices.getLsbD k then { W.slice k with pc := (s.context W.ctx).tvec &&& ~~~3 } else W.slice k) ∧
      (∃ h, V.gangAt j = some h ∧ h.slices = g.slices ∧ h.hints = [] ∧ h.q = g.q ∧
        h.sget 92 = (BitVec.ofNat 64 a).setWidth 32 ∧ h.sget 93 = ((BitVec.ofNat 64 a) >>> 32).setWidth 32 ∧
        h.sget 94 = BitVec.ofNat 32 (t.cls * 2 ^ 16 + t.detail) ∧ h.sget 95 = 0 ∧
        ∀ i, i < 92 → h.sget i = g.sget i) ∧
      V.v = W.v ∧ V.p = W.p ∧ V.flags = W.flags ∧ V.emptyV = W.emptyV ∧
      (∀ h, h ∈ V.gangs → h.slices &&& g.slices = 0 → h.slices ≠ 0 → (s.trap w j t).gangMayIssue V h = false) ∧
      (∀ key, (s.trap w j t).byte key = (s.devWrite (ctxFn W.ctx) a (s.record W g (noted W g t) false)).byte key) ∧
      (∀ v, v ≠ w → sget (s.trap w j t).warps v = sget s.warps v)

open Sys2Proof Sys2Proof.Machine Sys2Proof.Claims in
/-- R284, R285 and R287: with tvec 0, a delegated class, or in handler mode, the record is written, queued for the ring,
and the warp stops; in handler mode the class is 0x31 with the inner class as detail. -/
def Obligations.TrapToHost : Prop :=
  ∀ (s : State) (w j : Nat) (W : Warp) (g : Gang) (t : Trap), sget s.warps w = some W → W.gangAt j = some g →
    ¬ (t.cls = 6 ∧ t.detail = 2) → (∀ h, W.handler = some h → h.halt = none) →
    W.inHandler j = true ∨ (s.context W.ctx).tvec = 0 ∨ (s.context W.ctx).tdeleg.toNat.testBit t.cls = true →
    let u := if W.inHandler j then { t with cls := 0x31, detail := t.cls, completed := 0, tag := none, after := false } else noted W g t
    let bytes := s.record W g u true
    ∃ V, sget (s.trap w j t).warps w = some V ∧ V.hostStop = true ∧ V.v = W.v ∧ V.p = W.p ∧ V.flags = W.flags ∧
      V.slices = W.slices ∧ V.handler = W.handler ∧ V.stopNext = W.pcOf g + 4 ∧
      (∀ h, (s.trap w j t).gangMayIssue V h = false) ∧
      ((s.trap w j t).context W.ctx).trapq = (s.context W.ctx).trapq ++ [(bytes, some w)] ∧
      (∀ key, (s.trap w j t).byte key = (s.devWrite (ctxFn W.ctx) (s.recordAddr W.ctx W.core W.entry) bytes).byte key) ∧
      (∀ v, v ≠ w → sget (s.trap w j t).warps v = sget s.warps v)

namespace Sys2Proof.Claims

open Sys2Proof.Machine

/-! ### Values under a TYPE code (R77, R104) -/

/-- The number that a value is under an integer TYPE code: .i32, .n32, .i64 or .n64. -/
def typed (t : Nat) (x : DWord) : Int :=
  match t with
  | 0 => (x.setWidth 32).toInt
  | 1 => ((x.setWidth 32).toNat : Int)
  | 2 => x.toInt
  | _ => (x.toNat : Int)

/-- Bits of an operand under an integer TYPE code. -/
def wid (t : Nat) : Nat := if t = 2 ∨ t = 3 then 64 else 32

/-- Registers of an operand under an integer TYPE code (R104). -/
def regs (t : Nat) : Nat := if t = 2 ∨ t = 3 then 2 else 1

/-- The TYPE code in force: .i32 where no hint names one. -/
def ty (c : Ctx) : Nat := c.h.type.getD 0

/-- A vector operand in a lane. -/
def vec (c : Ctx) (n : Nat) (a : BitVec 7) (lane : Nat) : DWord := if n = 2 then c.W.vget2 a.toNat lane else (c.W.vget a.toNat lane).setWidth 64

/-- A scalar operand in the issuing gang's view. -/
def sca (c : Ctx) (s : State) (n : Nat) (a : BitVec 7) : DWord := if n = 2 then c.sread2 s a.toNat else (c.sread s a.toNat).setWidth 64

/-- A word result in a vector register. -/
def word (c : Ctx) (d : BitVec 7) (f : Nat → Word) : Written := Written.vec c.act d.toNat f 0

/-! ### INT and UINT (R106) -/

/-- One fn of INT and UINT whose result is a number computed from x and y: the five forms. -/
def IntRow (op : Nat → Int → Int → Int) (fn : Nat) (v s i : BitVec 2 → BitVec 7 → BitVec 7 → BitVec 7 → Instr)
    (u ui : BitVec 7 → BitVec 7 → BitVec 7 → Instr) : Prop :=
  let res (c : Ctx) (x y : DWord) : DWord := BitVec.ofInt 64 (op (wid (ty c)) (typed (ty c) x) (typed (ty c) y))
  let row (i : Instr) (g : BitVec 2) (d a : BitVec 7) (b : Src) : Prop :=
    Runs i (hinted (intSig fn g d a b)) (fun c s =>
      Written.group c.act d.toNat (regs (ty c))
        (fun lane => res c (vec c (regs (ty c)) a lane) (b.value c s (regs (ty c)) lane)) 0)
  let urow (i : Instr) (d a : BitVec 7) (b : Src) : Prop :=
    Runs i (hinted (uintSig fn d a b)) (fun c s =>
      Written.scal d.toNat (regs (ty c)) (res c (sca c s (regs (ty c)) a) (b.value c s (regs (ty c)) 0)))
  ∀ g d a b, row (v g d a b) g d a (.v b) ∧ row (s g d a b) g d a (.s b) ∧ row (i g d a b) g d a (.i b) ∧
    urow (u d a b) d a (.s b) ∧ urow (ui d a b) d a (.i b)

/-- One fn of INT and UINT with a carry: p6 of the lanes, or q2. -/
def CarryRow (op : Int → Int → Int → Int) (out : Int → Bool) (fn : Nat)
    (v s i : BitVec 2 → BitVec 7 → BitVec 7 → BitVec 7 → Instr) (u ui : BitVec 7 → BitVec 7 → BitVec 7 → Instr) : Prop :=
  let num (x : DWord) (y : DWord) (k : Bool) : Int := op (typed 1 x) (typed 1 y) (if k then 1 else 0)
  let row (i : Instr) (g : BitVec 2) (d a : BitVec 7) (b : Src) : Prop :=
    Runs i (hinted (intSig fn g d a b)) (fun c s =>
      let r (lane : Nat) : Int := num (vec c 1 a lane) (b.value c s 1 lane) ((c.W.pmask 6).getLsbD lane)
      (word c d (fun lane => BitVec.ofInt 32 (r lane))).also (Written.pred c.act 6 (fun lane => out (r lane)) 0))
  let urow (i : Instr) (d a : BitVec 7) (b : Src) : Prop :=
    Runs i (hinted (uintSig fn d a b)) (fun c s =>
      let r : Int := num (sca c s 1 a) (b.value c s 1 0) (c.G.q.getLsbD 2)
      (Written.scal d.toNat 1 (BitVec.ofInt 64 r)).also (Written.uni 2 (out r)))
  ∀ g d a b, row (v g d a b) g d a (.v b) ∧ row (s g d a b) g d a (.s b) ∧ row (i g d a b) g d a (.i b) ∧
    urow (u d a b) d a (.s b) ∧ urow (ui d a b) d a (.i b)

/-! ### LOG and ULOG (R107) -/

/-- One fn of LOG and ULOG: the five forms. -/
def LogRow (op : Word → Word → Word) (v s i : BitVec 2 → BitVec 7 → BitVec 7 → BitVec 7 → Instr)
    (u ui : BitVec 7 → BitVec 7 → BitVec 7 → Instr) : Prop :=
  let row (i : Instr) (g : BitVec 2) (d a : BitVec 7) (b : Src) : Prop :=
    Runs i (hinted (logSig g d a b)) (fun c s =>
      word c d (fun lane => op (c.W.vget a.toNat lane) ((b.value c s 1 lane).setWidth 32)))
  let urow (i : Instr) (d a : BitVec 7) (b : Src) : Prop :=
    Runs i (hinted (ulogSig d a b)) (fun c s =>
      Written.scal d.toNat 1 ((op (c.sread s a.toNat) ((b.value c s 1 0).setWidth 32)).setWidth 64))
  ∀ g d a b, row (v g d a b) g d a (.v b) ∧ row (s g d a b) g d a (.s b) ∧ row (i g d a b) g d a (.i b) ∧
    urow (u d a b) d a (.s b) ∧ urow (ui d a b) d a (.i b)

end Sys2Proof.Claims

open Sys2Proof Sys2Proof.Machine Sys2Proof.Claims in
/-- R106 and R107. Each fn of INT and UINT, in every form, writes `r mod 2^w` to d, and iaddc and isubc the carry predicate, which
is p6 of the active lanes or q2; each fn of LOG and ULOG writes its result; nothing else changes. -/
def Obligations.IntegerAndLogical : Prop :=
  IntRow (fun _ x y => x + y) 0 .iaddV .iaddS .iaddI .iaddUint .iaddUintI ∧
  IntRow (fun _ x y => x - y) 1 .isubV .isubS .isubI .isubUint .isubUintI ∧
  IntRow (fun _ x y => x * y) 2 .imulV .imulS .imulI .imulUint .imulUintI ∧
  IntRow (fun w x y => x * y / 2 ^ w) 3 .imulhV .imulhS .imulhI .imulhUint .imulhUintI ∧
  IntRow (fun _ x y => min x y) 4 .iminV .iminS .iminI .iminUint .iminUintI ∧
  IntRow (fun _ x y => max x y) 5 .imaxV .imaxS .imaxI .imaxUint .imaxUintI ∧
  CarryRow (fun x y k => x + y + k) (fun r => decide (2 ^ 32 ≤ r)) 6 .iaddcV .iaddcS .iaddcI .iaddcUint .iaddcUintI ∧
  CarryRow (fun x y k => x - y - k) (fun r => decide (r < 0)) 7 .isubcV .isubcS .isubcI .isubcUint .isubcUintI ∧
  LogRow (fun x y => x &&& y) .andV .andS .andI .andUlog .andUlogI ∧
  LogRow (fun x y => x ||| y) .orV .orS .orI .orUlog .orUlogI ∧
  LogRow (fun x y => x ^^^ y) .xorV .xorS .xorI .xorUlog .xorUlogI ∧
  LogRow (fun x y => x &&& ~~~y) .andnV .andnS .andnI .andnUlog .andnUlogI ∧
  LogRow (fun x y => x <<< (y.toNat % 32)) .shlV .shlS .shlI .shlUlog .shlUlogI ∧
  LogRow (fun x y => x >>> (y.toNat % 32)) .shrV .shrS .shrI .shrUlog .shrUlogI ∧
  LogRow (fun x y => x.sshiftRight (y.toNat % 32)) .sarV .sarS .sarI .sarUlog .sarUlogI ∧
  LogRow (fun x y => x.rotateLeft (y.toNat % 32)) .rotlV .rotlS .rotlI .rotlUlog .rotlUlogI

namespace Sys2Proof.Claims

open Sys2Proof.Machine

/-! ### IEXT (R108 to R111) -/

/-- An IEXT instruction on words, in both forms. -/
def ExtRow (types : List Nat) (creg : Bool) (op : Ctx → Word → Word → Nat → Word)
    (v s : BitVec 2 → BitVec 7 → BitVec 7 → BitVec 7 → Instr) : Prop :=
  let row (i : Instr) (g : BitVec 2) (d a : BitVec 7) (b : Src) : Prop :=
    Runs i (hinted (iextSig types creg g d a b)) (fun c s =>
      word c d (fun lane => op c (c.W.vget a.toNat lane) ((b.value c s 1 lane).setWidth 32)
        (c.W.vget (c.h.creg.getD d.toNat) lane).toNat))
  ∀ g d a b, row (v g d a b) g d a (.v b) ∧ row (s g d a b) g d a (.s b)

/-- A long-latency IEXT instruction on words, in both forms, with the flags it sets when its result is written. -/
def DivRow (op : Ctx → Word → Word → Word) (v s : BitVec 2 → BitVec 7 → BitVec 7 → BitVec 7 → Instr) : Prop :=
  let row (i : Instr) (g : BitVec 2) (d a : BitVec 7) (b : Src) : Prop :=
    RunsLong i (hinted (iextSig [0, 1] false g d a b)) (fun c s =>
      let y (lane : Nat) : Word := (b.value c s 1 lane).setWidth 32
      Written.vec c.act d.toNat (fun lane => op c (c.W.vget a.toNat lane) (y lane))
        (flagsOf c.act (fun lane => if y lane = 0 then fIZ else 0)))
  ∀ g d a b, row (v g d a b) g d a (.v b) ∧ row (s g d a b) g d a (.s b)

/-- A 32-bit operand read as the type says. -/
def num32 (c : Ctx) (x : Word) : Int := if ty c = 0 then x.toInt else (x.toNat : Int)

/-- The greatest and the least number of the type. -/
def top32 (c : Ctx) : Int := if ty c = 0 then 2147483647 else 4294967295
def least32 (c : Ctx) : Int := if ty c = 0 then -2147483648 else 0

/-- A byte of bperm (R111): the picked byte, zero, or copies of its top bit. -/
def permByte (a : Word) (n : Nat) : Nat :=
  let x := a.toNat / 2 ^ (8 * (n % 4)) % 256
  if n / 4 % 2 = 1 then 0 else if n / 8 = 1 then (if 128 ≤ x then 255 else 0) else x

end Sys2Proof.Claims

open Sys2Proof Sys2Proof.Machine Sys2Proof.Claims in
/-- R108. The quotient is truncated toward zero, the remainder takes the sign of the dividend; division by zero gives all
ones and the dividend, with IZ set when the result is written. -/
def Obligations.DivideAndRemainder : Prop :=
  DivRow (fun c x y => if y = 0 then 0xFFFFFFFF else BitVec.ofInt 32 ((num32 c x).tdiv (num32 c y))) .idivV .idivS ∧
  DivRow (fun c x y => if y = 0 then x else BitVec.ofInt 32 ((num32 c x).tmod (num32 c y))) .iremV .iremS

open Sys2Proof Sys2Proof.Machine Sys2Proof.Claims in
/-- R109 to R111. -/
def Obligations.ExtendedInteger : Prop :=
  ExtRow [0, 1] false (fun c x y _ => BitVec.ofInt 32 |num32 c x - num32 c y|) .iabsdV .iabsdS ∧
  ExtRow [0, 1] false (fun c x y _ => BitVec.ofInt 32 (max (least32 c) (min (top32 c) (num32 c x + num32 c y)))) .iaddsatV
    .iaddsatS ∧
  ExtRow [0, 1] false (fun c x y _ => BitVec.ofInt 32 (max (least32 c) (min (top32 c) (num32 c x - num32 c y)))) .isubsatV
    .isubsatS ∧
  ExtRow [] false (fun _ x y _ => BitVec.ofNat 32 (permByte x (y.toNat % 16) + permByte x (y.toNat / 16 % 16) * 2 ^ 8 +
    permByte x (y.toNat / 256 % 16) * 2 ^ 16 + permByte x (y.toNat / 4096 % 16) * 2 ^ 24)) .bpermV .bpermS ∧
  ExtRow [] true (fun _ x y k => BitVec.ofNat 32 (x.toNat * y.toNat + k)) .imadV .imadS ∧
  ∀ g d a b,
    let row (i : Instr) (b : Src) : Prop :=
      Runs i (hinted (leaSig g d a b)) (fun c s =>
        let t := ty c
        let size := if [6, 7, 11, 12].contains t then 1 else if [4, 5, 9, 10].contains t then 2
          else if [2, 3, 14].contains t then 8 else 4
        Written.group c.act d.toNat 2 (fun lane =>
          let w : Word := (b.value c s 1 lane).setWidth 32
          let ix : Int := if [1, 3, 5, 7].contains t then (w.toNat : Int) else w.toInt
          BitVec.ofInt 64 ((c.W.vget2 a.toNat lane).toNat + ix * size)) 0)
    row (.leaV g d a b) (.v b) ∧ row (.leaS g d a b) (.s b)

namespace Sys2Proof.Claims

open Sys2Proof.Machine

/-! ### IUN, BITF, IDOT (R112 to R114) -/

/-- A unary instruction on words. -/
def UnaryRow (op : Word → Word) (i : BitVec 2 → BitVec 7 → BitVec 7 → Instr) : Prop :=
  ∀ g d a, Runs (i g d a) (hinted (fun _ => iunSig 1 1 [] g d a)) (fun c _ => word c d (fun lane => op (c.W.vget a.toNat lane)))

/-- A counting instruction, on a word or a pair by TYPE: `ok w x n` says that n is the count of x of w bits. -/
def CountRow (ok : Nat → Nat → Nat → Prop) (i : BitVec 2 → BitVec 7 → BitVec 7 → Instr) : Prop :=
  ∀ g d a, ∃ f : Nat → Nat → Nat, (∀ w x, x < 2 ^ w → ok w x (f w x)) ∧
    Runs (i g d a) (hinted (countSig g d a)) (fun c _ =>
      word c d (fun lane => BitVec.ofNat 32 (f (wid (ty c)) (vec c (regs (ty c)) a lane).toNat)))

/-- Bits and signedness of an integer code of R80: i32, n32, i64, n64, i16, n16, i8, n8. -/
def codeBits (k : Nat) : Nat := if k < 2 then 32 else if k < 4 then 64 else if k < 6 then 16 else 8

/-- The low bits of a value as the number an integer code reads. -/
def codeInt (k : Nat) (x : DWord) : Int := if k % 2 = 0 then (x.setWidth (codeBits k)).toInt else ((x.setWidth (codeBits k)).toNat : Int)

/-- The least and the greatest number of an integer code. -/
def codeMin (k : Nat) : Int := if k % 2 = 0 then -(2 ^ (codeBits k - 1)) else 0
def codeMax (k : Nat) : Int := if k % 2 = 0 then 2 ^ (codeBits k - 1) - 1 else 2 ^ codeBits k - 1

/-- Registers of an operand of an integer code. -/
def codeRegs (k : Nat) : Nat := if k = 2 ∨ k = 3 then 2 else 1

end Sys2Proof.Claims

open Sys2Proof Sys2Proof.Machine Sys2Proof.Claims in
/-- R112, and R84 for icvt. The counts are characterised, not computed: clz is the number of leading zeros n with
x < 2^(w-n) and no greater n, ctz the number of trailing zeros, popc the number of set bits. -/
def Obligations.UnaryAndConversion : Prop :=
  CountRow (fun w x n => n ≤ w ∧ x < 2 ^ (w - n) ∧ (n < w → 2 ^ (w - n - 1) ≤ x)) .clz ∧
  CountRow (fun w x n => n ≤ w ∧ x % 2 ^ n = 0 ∧ (n < w → x.testBit n = true)) .ctz ∧
  CountRow (fun w x n => n = ((List.range w).filter (fun i => x.testBit i)).length) .popc ∧
  (∃ f : Word → Word, (∀ x i, i < 32 → (f x).getLsbD i = x.getLsbD (31 - i)) ∧ UnaryRow f .brev) ∧
  UnaryRow (fun x => BitVec.ofInt 32 |x.toInt|) .iabs ∧
  UnaryRow (fun x => BitVec.ofInt 32 (-x.toInt)) .ineg ∧
  UnaryRow (fun x => ~~~x) .notV ∧
  ∀ g d a src dst sat, Runs (.icvt g d a src dst sat)
    (hinted (fun _ => iunSig (codeRegs src.toNat) (codeRegs dst.toNat) [] g d a)) (fun c _ =>
      let x (lane : Nat) : Int := codeInt src.toNat (vec c (codeRegs src.toNat) a lane)
      let y (lane : Nat) : Int := max (codeMin dst.toNat) (min (codeMax dst.toNat) (x lane))
      Written.group c.act d.toNat (codeRegs dst.toNat)
        (fun lane => BitVec.ofInt 64 ((if sat = 1 then y lane else x lane) % 2 ^ codeBits dst.toNat))
        (flagsOf c.act (fun lane => if sat = 1 ∧ x lane ≠ y lane then fSAT else 0)))

namespace Sys2Proof.Claims

open Sys2Proof.Machine

/-- A BITF instruction: `op x y k` from a, b and c. -/
def FieldRow (na : Nat) (creg : Bool) (op : DWord → Word → Word → Word)
    (i : BitVec 2 → BitVec 7 → BitVec 7 → BitVec 7 → Instr) : Prop :=
  ∀ g d a b, Runs (i g d a b) (hinted (bitfSig na creg g d a b)) (fun c _ =>
    word c d (fun lane => op (vec c na a lane) (c.W.vget b.toNat lane) (c.W.vget (c.h.creg.getD d.toNat) lane)))

/-- Position and length of the field that b names (R113). -/
def fpos (b : Word) : Nat := b.toNat % 256
def flen (b : Word) : Nat := if 32 ≤ fpos b then 0 else min (min (b.toNat / 256 % 256) 32) (32 - fpos b)

/-- Byte or halfword `j` of a word, signed or not. -/
def elemInt (signed : Bool) (n j : Nat) (x : Word) : Int :=
  if signed then ((x >>> (n * j)).setWidth n).toInt else (((x >>> (n * j)).setWidth n).toNat : Int)

/-- An IDOT instruction of `k` elements of `n` bits. -/
def DotRow (n k : Nat) (sa sb : Bool) (i : BitVec 2 → BitVec 7 → BitVec 7 → BitVec 7 → Instr) : Prop :=
  ∀ g d a b, Runs (i g d a b) (hinted (idotSig g d a b)) (fun c _ =>
    word c d (fun lane =>
      let r : Int := (c.W.vget (c.h.creg.getD d.toNat) lane).toInt +
        ((List.range k).map (fun j => elemInt sa n j (c.W.vget a.toNat lane) * elemInt sb n j (c.W.vget b.toNat lane))).sum
      if (c.h.round.map (fun e => e.2.1)).getD false = true then BitVec.ofInt 32 (max (-2147483648) (min 2147483647 r))
      else BitVec.ofInt 32 r))

end Sys2Proof.Claims

open Sys2Proof Sys2Proof.Machine Sys2Proof.Claims in
/-- R113, bit by bit, and R114. That bit c of a SRCX hint may mark the c of bfi and IDOT where it is d is assumption 97. -/
def Obligations.BitFieldsAndDotProducts : Prop :=
  (∃ f : DWord → Word → Word → Word, FieldRow 1 false f .bfx ∧ ∀ x y k j, j < 32 → (f x y k).getLsbD j =
    if flen y = 0 then false else if j < flen y then x.getLsbD (fpos y + j) else x.getLsbD (fpos y + flen y - 1)) ∧
  (∃ f : DWord → Word → Word → Word, FieldRow 1 false f .bfxn ∧ ∀ x y k j, j < 32 → (f x y k).getLsbD j =
    (decide (j < flen y) && x.getLsbD (fpos y + j))) ∧
  (∃ f : DWord → Word → Word → Word, FieldRow 1 true f .bfi ∧ ∀ x y k j, j < 32 → (f x y k).getLsbD j =
    if fpos y ≤ j ∧ j < fpos y + flen y then x.getLsbD (j - fpos y) else k.getLsbD j) ∧
  FieldRow 2 false (fun x y _ => (x <<< (y.toNat % 32)).extractLsb' 32 32) .fshl ∧
  FieldRow 2 false (fun x y _ => (x >>> (y.toNat % 32)).setWidth 32) .fshr ∧
  DotRow 8 4 true true .idot4 ∧ DotRow 8 4 false false .idot4n ∧ DotRow 8 4 true false .idot4m ∧
  DotRow 16 2 true true .idot2

namespace Sys2Proof.Claims

open Sys2Proof.Machine

/-! ### Comparisons (R115) -/

/-- A combine code: set, and, or, xor. -/
def combine (code : BitVec 4) (old t : Bool) : Bool :=
  if code = 0 then t else if code = 1 then old && t else if code = 2 then old || t else old ^^ t

/-- One fn of ISET in its three forms, and of USET. -/
def SetRow (signed : Bool) (rel : Int → Int → Bool)
    (v s i : BitVec 2 → BitVec 4 → BitVec 3 → BitVec 7 → BitVec 7 → Instr)
    (u : BitVec 4 → BitVec 3 → BitVec 7 → BitVec 7 → Instr) : Prop :=
  let test (c : Ctx) (x y : DWord) : Bool :=
    let t := if wid (ty c) = 64 then (if signed then 2 else 3) else (if signed then 0 else 1)
    rel (typed t x) (typed t y)
  let row (i : Instr) (g : BitVec 2) (k : BitVec 4) (p : BitVec 3) (a : BitVec 7) (b : Src) : Prop :=
    Runs i (hinted (isetSig g k a b)) (fun c s =>
      Written.pred c.act p.toNat (fun lane => combine k ((c.W.pmask p.toNat).getLsbD lane)
        (test c (vec c (regs (ty c)) a lane) (b.value c s (regs (ty c)) lane))) 0)
  ∀ g k p a b, row (v g k p a b) g k p a (.v b) ∧ row (s g k p a b) g k p a (.s b) ∧ row (i g k p a b) g k p a (.i b) ∧
    Runs (u k p a b) (hinted (usetSig k p a b)) (fun c s =>
      Written.uni p.toNat (combine k (c.G.q.getLsbD p.toNat)
        (test c (sca c s (regs (ty c)) a) (sca c s (regs (ty c)) b))))

end Sys2Proof.Claims

open Sys2Proof Sys2Proof.Machine Sys2Proof.Claims in
/-- R115. -/
def Obligations.IntegerComparisons : Prop :=
  SetRow false (fun x y => decide (x = y)) .isetEqV .isetEqS .isetEqI .usetEq ∧
  SetRow false (fun x y => decide (x ≠ y)) .isetNeV .isetNeS .isetNeI .usetNe ∧
  SetRow true (fun x y => decide (x < y)) .isetLtV .isetLtS .isetLtI .usetLt ∧
  SetRow true (fun x y => decide (x ≥ y)) .isetGeV .isetGeS .isetGeI .usetGe ∧
  SetRow false (fun x y => decide (x < y)) .isetLtnV .isetLtnS .isetLtnI .usetLtn ∧
  SetRow false (fun x y => decide (x ≥ y)) .isetGenV .isetGenS .isetGenI .usetGen ∧
  SetRow true (fun x y => decide (x ≤ y)) .isetLeV .isetLeS .isetLeI .usetLe ∧
  SetRow true (fun x y => decide (x > y)) .isetGtV .isetGtS .isetGtI .usetGt

namespace Sys2Proof.Claims

open Sys2Proof.Machine

/-! ### Moves (R116 to R119) -/

/-- A MOVE instruction into a vector register. -/
def MoveRow (i : Instr) (sig : HintSet → Sig) (d : BitVec 7) (f : Ctx → State → Nat → Word) : Prop :=
  Runs i (hinted sig) (fun c s => word c d (f c s))

end Sys2Proof.Claims

open Sys2Proof Sys2Proof.Machine Sys2Proof.Claims in
/-- R117 and R118, with R103 for extract and vote: they write only where a lane is active; R119 and
R63: MOVI’s immediate field and up to two IMM payloads,
each 22 bits more, sign-extended or, under an unsigned type, zero-extended. -/
def Obligations.MovesAndPredicates : Prop :=
  (∀ (g : BitVec 2) (d a b : BitVec 7) (p pa pb : BitVec 3) (k : BitVec 4) (l : BitVec 5) (m : BitVec 2),
    MoveRow (.mov g d a) (fun _ => moveSig g [(.v a.toNat 1, some 0)] [.v d.toNat 1] .vec) d
      (fun c _ lane => c.W.vget a.toNat lane) ∧
    MoveRow (.sel g d a b) (fun h => { moveSig g [(.v a.toNat 1, some 0), (.v b.toNat 1, some 1)] [.v d.toNat 1] .vec with
        creg := true, legal := decide (h.creg.getD 0 < 8) }) d
      (fun c _ lane => if (c.W.pmask (c.h.creg.getD 0)).getLsbD lane then c.W.vget a.toNat lane else c.W.vget b.toNat lane) ∧
    MoveRow (.bcast g d b) (fun _ => moveSig g [(.s b.toNat 1, some 1)] [.v d.toNat 1] .no) d
      (fun c s _ => c.sread s b.toNat) ∧
    MoveRow (.pmovToVector g d) (fun _ => moveSig g [] [.v d.toNat 1] .vec) d
      (fun c _ lane => BitVec.ofNat 32 (((List.range 8).map (fun i =>
        if (c.W.pmask i).getLsbD lane then 2 ^ i else 0)).sum)) ∧
    Runs (.pmovToPredicates g a) (hinted (fun _ => moveSig g [(.v a.toNat 1, some 0)] [] .vec)) (fun c _ =>
      { Written.none with
        p := fun i lane =>
          if i < 7 ∧ c.act.getLsbD lane = true then some ((c.W.vget a.toNat lane).getLsbD i) else none }) ∧
    Runs (.pset g k p a)
      (hinted (fun _ => { moveSig g [(.v a.toNat 1, some 0)] [] .vec with legal := decide (k.toNat < 4) }))
      (fun c _ => Written.pred c.act p.toNat (fun lane =>
        combine k ((c.W.pmask p.toNat).getLsbD lane) (decide (c.W.vget a.toNat lane ≠ 0))) 0) ∧
    Runs (.plop g k p pa pb) (hinted (fun _ => moveSig g [] [] .vec)) (fun c _ =>
      Written.pred c.act p.toNat (fun lane => k.getLsbD
        (2 * ((c.W.pmask pa.toNat).getLsbD lane).toNat + ((c.W.pmask pb.toNat).getLsbD lane).toNat)) 0) ∧
    Runs (.extract g d a l)
      (hinted (fun _ => { moveSig g [(.v a.toNat 1, some 0)] [.s d.toNat 1] .no with
        extra := [(a.toNat, 1#8 <<< (l.toNat / 4))] })) (fun c _ =>
      if c.act = 0 then Written.none else Written.scal d.toNat 1 ((c.W.vget a.toNat l.toNat).setWidth 64)) ∧
    Runs (.vote g d pa m) (hinted (fun _ => moveSig g [] [.s d.toNat 1] .no)) (fun c _ =>
      let lanes := (List.range 32).filter (fun lane => c.act.getLsbD lane)
      let yes := lanes.filter (fun lane => (c.W.pmask pa.toNat).getLsbD lane)
      let r : Nat :=
        if m = 0 then (yes.map (fun lane => 2 ^ lane)).sum
        else if m = 1 then (if yes = lanes then 1 else 0)
        else if m = 2 then (if yes = [] then 0 else 1)
        else yes.length
      if c.act = 0 then Written.none else Written.scal d.toNat 1 (BitVec.ofNat 64 r))) ∧
  (∀ (g : BitVec 2) (d : BitVec 7) (i : BitVec 16),
    let bitsOf (c : Ctx) : Nat := 16 + 22 * c.h.imms.length
    let raw (c : Ctx) : Nat := (c.h.imms.reverse.foldl (fun (a : Nat × Nat) p => (a.1 + p.toNat * 2 ^ a.2, a.2 + 22)) (i.toNat, 16)).1
    let val (c : Ctx) : DWord :=
      if ty c = 1 ∨ ty c = 3 then BitVec.ofNat 64 (raw c)
      else BitVec.ofInt 64 (if raw c < 2 ^ (bitsOf c - 1) then (raw c : Int) else raw c - 2 ^ bitsOf c)
    Runs (.moviVector g d i)
      (hinted (fun h => { moveSig g [] [.v d.toNat (typeRegs (h.typeOr 0))] .vec with types := intTypes, imms := 2 }))
      (fun c _ => Written.group c.act d.toNat (regs (ty c)) (fun _ => val c) 0) ∧
    Runs (.moviScalar d i)
      (hinted (fun h => { Sig.plain with dsts := [.s d.toNat (typeRegs (h.typeOr 0))], types := intTypes, imms := 2 }))
      (fun c _ => Written.scal d.toNat (regs (ty c)) (val c)))

namespace Sys2Proof.Claims

open Sys2Proof.Machine

/-! ### Floating point -/

/-- The rational number that a finite value is; an infinity and a NaN have none. -/
def valQ : FVal → ℚ
  | .fin n m e => (if n then -1 else 1) * (m : ℚ) * (2 : ℚ) ^ e
  | _ => 0

/-- A value is finite. -/
def finite (v : FVal) : Prop := ∃ n m e, v = .fin n m e

/-- The order of values that are no NaN: zeros of either sign are one (R138). -/
def lessQ : FVal → FVal → Prop
  | .nan _, _ => False
  | _, .nan _ => False
  | .inf n, .inf k => n = true ∧ k = false
  | .inf n, .fin _ _ _ => n = true
  | .fin _ _ _, .inf k => k = false
  | .fin n m e, .fin k r g => valQ (.fin n m e) < valQ (.fin k r g)

/-- Two values are equal in that order. -/
def sameQ (a b : FVal) : Prop := a.isNan = false ∧ b.isNan = false ∧ ¬ lessQ a b ∧ ¬ lessQ b a

/-- The rounding a ROUND hint asks for, to nearest even where there is none (R59, R79). -/
def rnd (c : Ctx) : Rnd := c.h.rnd 0

/-- A source of a format under the flush bit (R76): a subnormal read as zero of its sign. -/
def src (f : Fmt) (c : Ctx) (x : Nat) : FVal :=
  if (rnd c).ftz = true ∧ f.subnormal x = true then .fin (decide (f.signBit ≤ x)) 0 f.qmin else f.read x

/-- The real number that a finite value is. -/
noncomputable def valR (v : FVal) : ℝ := (valQ v : ℝ)

/-- The largest finite number of a format and its unit in the last place (R73, R74). -/
noncomputable def greatest (f : Fmt) : ℝ × ℝ :=
  if f = f64 then ((2 - (2 : ℝ) ^ (-52 : Int)) * 2 ^ (1023 : Int), 2 ^ (971 : Int))
  else if f = f32 then ((2 - (2 : ℝ) ^ (-23 : Int)) * 2 ^ (127 : Int), 2 ^ (104 : Int))
  else if f = f16 then (65504, 32)
  else if f = bf16 then ((2 - (2 : ℝ) ^ (-7 : Int)) * 2 ^ (127 : Int), 2 ^ (120 : Int))
  else if f = e4m3 then (448, 32)
  else if f = e5m2 then (57344, 8192)
  else (6, 2)

/-- A number of a format is an exact nonzero value rounded in a mode, of the value's sign (R59, R79). -/
def RoundsTo (f : Fmt) (mode : Nat) (v : ℝ) (y : Nat) : Prop :=
  let w (x : Nat) : ℝ := valR (f.read x)
  let num (x : Nat) : Prop := x < 2 ^ f.width ∧ finite (f.read x)
  num y ∧ (v < 0 ↔ 2 ^ (f.width - 1) ≤ y) ∧
  (mode = 0 → ∀ x, num x → |w y - v| ≤ |w x - v| ∧ (|w y - v| = |w x - v| → w x ≠ w y → y % 2 = 0)) ∧
  (mode = 1 → |w y| ≤ |v| ∧ ∀ x, num x → |w x| ≤ |v| → |w x| ≤ |w y|) ∧
  (mode = 2 → v ≤ w y ∧ ∀ x, num x → v ≤ w x → w y ≤ w x) ∧
  (mode = 3 → w y ≤ v ∧ ∀ x, num x → w x ≤ v → w x ≤ w y) ∧
  (mode = 4 → ∀ x, num x → |w y - v| ≤ |w x - v| ∧ (|w y - v| = |w x - v| → |w x| ≤ |w y|))

/-- An exact value overflows a format in a mode: its rounded magnitude would exceed the largest finite number (R79). -/
def Overflows (f : Fmt) (mode : Nat) (v : ℝ) : Prop :=
  let (big, unit) := greatest f
  if mode = 0 ∨ mode = 4 then big + unit / 2 ≤ |v|
  else if mode = 2 ∧ 0 < v ∨ mode = 3 ∧ v < 0 then big < |v|
  else big + unit ≤ |v|

/-- What R79 delivers, bits and flags, for an exact nonzero value under a rounding: overflow by the table, saturation, the rounded
number with NX and UF, and the flush of a subnormal result (R76). -/
def Delivered (f : Fmt) (r : Rnd) (v : ℝ) (d : Nat × Word) : Prop :=
  let top : Prop := d.1 < 2 ^ f.width ∧ finite (f.read d.1) ∧ valR (f.read d.1) = (if v < 0 then -1 else 1) * (greatest f).1
  (Overflows f r.mode v →
    if r.conv = true ∧ r.sat = true then top ∧ d.2 = fSAT ||| fNX
    else d.2 = fOF ||| fNX ∧
      if r.sat = true ∨ r.mode = 1 ∨ r.mode = 2 ∧ v < 0 ∨ r.mode = 3 ∧ 0 < v then top
      else d.1 = (2 ^ f.ebits - 1) * 2 ^ f.fbits + (if v < 0 then 2 ^ (f.width - 1) else 0)) ∧
  (¬ Overflows f r.mode v → ∃ y, RoundsTo f r.mode v y ∧
    if r.ftz = true ∧ f.subnormal y = true then d = (y / 2 ^ (f.width - 1) * 2 ^ (f.width - 1), fUF ||| fNX)
    else d.1 = y ∧ d.2 =
      (if valR (f.read y) = v then 0 else if |v| < 2 ^ (2 - 2 ^ (f.ebits - 1) : Int) then fNX ||| fUF else fNX))

end Sys2Proof.Claims

open Sys2Proof Sys2Proof.Machine Sys2Proof.Claims in
/-- R79 with R73, R74 and R76: the number that bits stand for; the rounding of an exact value in each of the five modes, with NX, UF,
OF, saturation and the flush; and that addition, multiplication, fused multiply-add, division, square root and scaling deliver so
the exact result of their sources (R137, R139, R140, R142). -/
def Obligations.RoundedOnce : Prop :=
  (∀ f ∈ [f64, f32, f16, bf16, e4m3, e5m2, e2m1], ∀ x, x < 2 ^ f.width →
    let s : Nat := x / 2 ^ (f.width - 1)
    let e : Nat := x / 2 ^ f.fbits % 2 ^ f.ebits
    let m : Nat := x % 2 ^ f.fbits
    let ieee : Prop := f ≠ e4m3 ∧ f ≠ e2m1
    (ieee → e = 2 ^ f.ebits - 1 → f.read x = if m = 0 then .inf (decide (s = 1)) else .nan (decide (m < 2 ^ (f.fbits - 1)))) ∧
    (f = e4m3 → e = 15 → m = 7 → f.read x = .nan false) ∧
    ((ieee → e ≠ 2 ^ f.ebits - 1) → (f = e4m3 → ¬ (e = 15 ∧ m = 7)) → finite (f.read x) ∧
      valR (f.read x) = (-1 : ℝ) ^ s * ((m : ℝ) + if e = 0 then 0 else (2 : ℝ) ^ f.fbits) *
        (2 : ℝ) ^ (((max e 1 : Nat) : Int) - ((2 : Int) ^ (f.ebits - 1) - 1) - (f.fbits : Int)))) ∧
  (∀ f ∈ [f64, f32, f16, bf16, e4m3, e5m2, e2m1], ∀ (r : Rnd) (n : Bool) (m : Nat) (e : Int), r.mode ≤ 4 →
    (f = e4m3 ∨ f = e2m1 → r.conv = true ∧ r.sat = true) →
    (m = 0 → f.round r n m e false = (if n then 2 ^ (f.width - 1) else 0, 0)) ∧
    (m ≠ 0 → Delivered f r (valR (.fin n m e)) (f.round r n m e false))) ∧
  (∀ f ∈ [f64, f32, f16, bf16], ∀ (r : Rnd) (x y z : FVal), r.mode ≤ 4 → finite x → finite y → finite z →
    (valR x + valR y ≠ 0 → Delivered f r (valR x + valR y) (f.addV r x y)) ∧
    (valR x * valR y ≠ 0 → Delivered f r (valR x * valR y) (f.mulV r x y)) ∧
    (valR x * valR y + valR z ≠ 0 → Delivered f r (valR x * valR y + valR z) (f.fmaV r x y z)) ∧
    (valR x ≠ 0 → valR y ≠ 0 → Delivered f r (valR x / valR y) (f.divV r x y)) ∧
    (0 < valR x → Delivered f r (Real.sqrt (valR x)) (f.sqrtV r x))) ∧
  (∀ (r : Rnd) (a : Nat) (k : Int), r.mode ≤ 4 → a < 2 ^ 32 →
    let v := f32.read (f32.flush r.ftz a)
    finite v → valR v ≠ 0 → Delivered f32 r (valR v * 2 ^ k) (fscaleOp r a k))

namespace Sys2Proof.Claims

open Sys2Proof.Machine

/-- What an arithmetic instruction of R137 delivers in a format: the exact result of the sources, rounded once. -/
def Arith (f : Fmt) (fn : Nat) (c : Ctx) (a b k : Nat) : Nat × Word :=
  let x := src f c a
  let y := src f c b
  match fn with
  | 0 => f.addV (rnd c) x y
  | 1 => f.addV (rnd c) x y.negate
  | 2 => f.mulV (rnd c) x y
  | 3 => f.fmaV (rnd c) x y (src f c k)
  | 4 => f.pick false (f.flush (rnd c).ftz a) (f.flush (rnd c).ftz b)
  | _ => f.pick true (f.flush (rnd c).ftz a) (f.flush (rnd c).ftz b)

/-- A vector result with flags. -/
def flagged (c : Ctx) (d n : Nat) (r : Nat → Nat × Word) : Written :=
  Written.group c.act d n (fun lane => BitVec.ofNat 64 (r lane).1) (flagsOf c.act (fun lane => (r lane).2))

/-- One F32 fn in both forms. -/
def F32Row (fn : Nat) (r : Ctx → Nat → Word → Nat → Nat × Word) (v s : BitVec 2 → BitVec 7 → BitVec 7 → BitVec 7 → Instr) : Prop :=
  let row (i : Instr) (g : BitVec 2) (d a : BitVec 7) (b : Src) : Prop :=
    Runs i (hinted (f32Sig fn g d a b)) (fun c s => flagged c d.toNat 1 (fun lane =>
      r c (c.W.vget a.toNat lane).toNat ((b.value c s 1 lane).setWidth 32) (c.W.vget (c.h.creg.getD d.toNat) lane).toNat))
  ∀ g d a b, row (v g d a b) g d a (.v b) ∧ row (s g d a b) g d a (.s b)

/-- One H2 fn in both forms: both halves, each rounded in the format (R143). -/
def H2Row (fn : Nat) (f : Ctx → Fmt) (types : List Nat) (v s : BitVec 2 → BitVec 7 → BitVec 7 → BitVec 7 → Instr) : Prop :=
  let row (i : Instr) (g : BitVec 2) (d a : BitVec 7) (b : Src) : Prop :=
    Runs i (hinted (h2Sig fn types g d a b)) (fun c s =>
      let half (j lane : Nat) : Nat × Word :=
        let part (x : Word) : Nat := x.toNat / 2 ^ (16 * j) % 2 ^ 16
        Arith (f c) fn c (part (c.W.vget a.toNat lane)) (part ((b.value c s 1 lane).setWidth 32))
          (part (c.W.vget (c.h.creg.getD d.toNat) lane))
      flagged c d.toNat 1 (fun lane => ((half 0 lane).1 + (half 1 lane).1 * 2 ^ 16, (half 0 lane).2 ||| (half 1 lane).2)))
  ∀ g d a b, row (v g d a b) g d a (.v b) ∧ row (s g d a b) g d a (.s b)

/-- One F64 fn on pairs. -/
def F64Row (fn : Nat) (i : BitVec 2 → BitVec 7 → BitVec 7 → BitVec 7 → Instr) : Prop :=
  ∀ g d a b, Runs (i g d a b) (hinted (f64Sig fn g d a b)) (fun c _ => flagged c d.toNat 2 (fun lane =>
    Arith f64 fn c (c.W.vget2 a.toNat lane).toNat (c.W.vget2 b.toNat lane).toNat
      (c.W.vget2 (c.h.creg.getD d.toNat) lane).toNat))

end Sys2Proof.Claims

open Sys2Proof Sys2Proof.Machine Sys2Proof.Claims in
/-- R137, R142 and R143: each instruction delivers the exact result of its sources, rounded once in its format, writes d
and sets the flags of its active lanes. -/
def Obligations.FloatArithmetic : Prop :=
  (F32Row 0 (fun c a b k => Arith f32 0 c a b.toNat k) .faddV .faddS ∧
    F32Row 1 (fun c a b k => Arith f32 1 c a b.toNat k) .fsubV .fsubS ∧
    F32Row 2 (fun c a b k => Arith f32 2 c a b.toNat k) .fmulV .fmulS ∧
    F32Row 3 (fun c a b k => Arith f32 3 c a b.toNat k) .ffmaV .ffmaS ∧
    F32Row 4 (fun c a b k => Arith f32 4 c a b.toNat k) .fminV .fminS ∧
    F32Row 5 (fun c a b k => Arith f32 5 c a b.toNat k) .fmaxV .fmaxS ∧
    F32Row 6 (fun c a b _ => fscaleOp (rnd c) a b.toInt) .fscaleV .fscaleS ∧
    F32Row 7 (fun _ a b _ => (a % 2 ^ 31 + b.toNat / 2 ^ 31 * 2 ^ 31, 0)) .fcopysignV .fcopysignS) ∧
  (F64Row 0 .dadd ∧ F64Row 1 .dsub ∧ F64Row 2 .dmul ∧ F64Row 3 .dfma ∧ F64Row 4 .dmin ∧ F64Row 5 .dmax) ∧
  (H2Row 0 (fun _ => f16) [] .hadd2V .hadd2S ∧ H2Row 2 (fun _ => f16) [] .hmul2V .hmul2S ∧
    H2Row 3 (fun _ => f16) [] .hfma2V .hfma2S ∧ H2Row 0 (fun _ => bf16) [] .badd2V .badd2S ∧
    H2Row 2 (fun _ => bf16) [] .bmul2V .bmul2S ∧ H2Row 3 (fun _ => bf16) [] .bfma2V .bfma2S ∧
    H2Row 4 (fun c => if c.h.type = some 10 then bf16 else f16) [9, 10] .hmin2V .hmin2S ∧
    H2Row 5 (fun c => if c.h.type = some 10 then bf16 else f16) [9, 10] .hmax2V .hmax2S)

namespace Sys2Proof.Claims

open Sys2Proof.Machine

/-- The product of an infinity and a zero, in either order: an invalid one. -/
def infTimesZero : FVal → FVal → Bool
  | .inf _, .fin _ m _ => m == 0
  | .fin _ m _, .inf _ => m == 0
  | _, _ => false

end Sys2Proof.Claims

open Sys2Proof Sys2Proof.Machine Sys2Proof.Claims in
/-- R75, R137 and R140: the canonical NaN of the format for every NaN, NV for a signalling source and for an invalid
operation, signed zeros, divisions by zero, and minimumNumber and maximumNumber. -/
def Obligations.FloatSpecialCases : Prop :=
  ∀ f ∈ [f64, f32, f16, bf16], ∀ (r : Rnd) (x y z : FVal),
    let nan : Nat := (2 ^ f.ebits - 1) * 2 ^ f.fbits + 2 ^ (f.fbits - 1)
    (x.isNan = true ∨ y.isNan = true →
      (f.addV r x y).1 = nan ∧ (f.mulV r x y).1 = nan ∧ (f.divV r x y).1 = nan ∧ (f.fmaV r x y z).1 = nan ∧
      (f.fmaV r x y z).2 = (if x.snan || y.snan || z.snan then fNV else 0) ∧
      (x.snan = true ∨ y.snan = true → (f.addV r x y).2 = fNV ∧ (f.mulV r x y).2 = fNV ∧ (f.divV r x y).2 = fNV) ∧
      (x.snan = false → y.snan = false → (f.addV r x y).2 = 0 ∧ (f.mulV r x y).2 = 0 ∧ (f.divV r x y).2 = 0)) ∧
    (x.isNan = false → y.isNan = false → z.isNan = true → f.fmaV r x y z =
      (nan, if infTimesZero x y = true ∨ z.snan = true then fNV else 0)) ∧
    (∀ n k m e, m ≠ 0 → f.fmaV r (.inf n) (.fin k m e) (.inf (n ^^ k)) = (f.inf (n ^^ k), 0) ∧
      f.fmaV r (.inf n) (.fin k m e) (.inf !(n ^^ k)) = (nan, fNV) ∧ f.fmaV r (.fin k m e) (.inf n) (.inf !(n ^^ k)) = (nan, fNV) ∧
      f.mulV r (.inf n) (.fin k m e) = (f.inf (n ^^ k), 0) ∧ f.mulV r (.fin k m e) (.inf n) = (f.inf (n ^^ k), 0) ∧
      f.addV r (.inf n) (.fin k m e) = (f.inf n, 0) ∧ f.addV r (.fin k m e) (.inf n) = (f.inf n, 0) ∧
      f.fmaV r (.fin k m e) (.fin n 0 e) (.inf n) = (f.inf n, 0)) ∧
    (∀ n k m e g, f.mulV r (.fin n 0 e) (.fin k m g) = (if n ^^ k then f.signBit else 0, 0) ∧
      (m ≠ 0 → f.divV r (.fin n 0 e) (.fin k m g) = (if n ^^ k then f.signBit else 0, 0)) ∧
      f.fmaV r (.fin n 0 e) (.fin k m g) (.fin (n ^^ k) 0 g) = (if n ^^ k then f.signBit else 0, 0) ∧
      f.fmaV r (.fin n 0 e) (.fin k m g) (.fin (!(n ^^ k)) 0 g) = (if r.mode = 3 then f.signBit else 0, 0)) ∧
    (∀ b, f.sqrtV r (.nan b) = (nan, if b then fNV else 0)) ∧ f.sqrtV r (.inf false) = (f.inf false, 0) ∧
    f.sqrtV r (.inf true) = (nan, fNV) ∧
    (∀ n, f.addV r (.inf n) (.inf (!n)) = (nan, fNV) ∧ f.addV r (.inf n) (.inf n) = (f.inf n, 0)) ∧
    (∀ n k e, f.mulV r (.inf n) (.fin k 0 e) = (nan, fNV) ∧ f.mulV r (.fin k 0 e) (.inf n) = (nan, fNV) ∧
      f.fmaV r (.inf n) (.fin k 0 e) z = (nan, fNV)) ∧
    (∀ n k m e g, m ≠ 0 → f.divV r (.fin n m e) (.fin k 0 g) = (f.inf (n ^^ k), fDZ)) ∧
    (∀ n k e g, f.divV r (.fin n 0 e) (.fin k 0 g) = (nan, fNV)) ∧
    (∀ n k, f.divV r (.inf n) (.inf k) = (nan, fNV)) ∧
    (∀ n k m e, f.divV r (.fin n m e) (.inf k) = (if n ^^ k then f.signBit else 0, 0)) ∧
    (∀ n e g, f.addV r (.fin n 0 e) (.fin n 0 g) = (if n then f.signBit else 0, 0)) ∧
    (∀ n m e, m ≠ 0 → f.addV r (.fin n m e) (.fin (!n) m e) = (if r.mode = 3 then f.signBit else 0, 0)) ∧
    (∀ n e, f.sqrtV r (.fin n 0 e) = (if n then f.signBit else 0, 0)) ∧
    (∀ m e, m ≠ 0 → f.sqrtV r (.fin true m e) = (nan, fNV)) ∧
    (∀ a b, a < 2 ^ f.width → b < 2 ^ f.width →
      ((f.read a).isNan = true → (f.read b).isNan = true → (f.pick false a b).1 = nan ∧ (f.pick true a b).1 = nan) ∧
      ((f.read a).isNan = true → (f.read b).isNan = false → (f.pick false a b).1 = b ∧ (f.pick true a b).1 = b) ∧
      ((f.read a).isNan = false → (f.read b).isNan = true → (f.pick false a b).1 = a ∧ (f.pick true a b).1 = a) ∧
      (lessQ (f.read a) (f.read b) → (f.pick false a b).1 = a ∧ (f.pick true a b).1 = b ∧
        (f.pick false b a).1 = a ∧ (f.pick true b a).1 = b)) ∧
    (f.pick false 0 f.signBit).1 = f.signBit ∧ (f.pick true f.signBit 0).1 = 0

namespace Sys2Proof.Claims

open Sys2Proof.Machine

/-- One comparison of FSET in both forms, and of DSET: when it is true, and whether any NaN sets NV (R138). -/
def FsetRow (test : FVal → FVal → Prop) (anyNan : Bool) (v s dv : BitVec 2 → BitVec 4 → BitVec 3 → BitVec 7 → BitVec 7 → Instr) : Prop :=
  let written (c : Ctx) (k : BitVec 4) (p : BitVec 3) (x y : Nat → FVal) (w : Written) : Prop :=
    ∃ t : Nat → Bool, (∀ lane, t lane = true ↔ test (x lane) (y lane)) ∧
      w = Written.pred c.act p.toNat (fun lane => combine k ((c.W.pmask p.toNat).getLsbD lane) (t lane))
        (flagsOf c.act (fun lane =>
          if (x lane).snan || (y lane).snan || (anyNan && ((x lane).isNan || (y lane).isNan)) then fNV else 0))
  let row (f : Fmt) (n : Nat) (i : Instr) (g : BitVec 2) (k : BitVec 4) (p : BitVec 3) (a : BitVec 7) (b : Src) : Prop :=
    ∀ st c, st.passes (hinted (fsetSig n g k a b)) = some c → ∃ t w, exec i st = .next t ∧ Completes c st t w ∧
      written c k p (fun lane => src f c (vec c n a lane).toNat) (fun lane => src f c (b.value c st n lane).toNat) w
  ∀ g k p a b, row f32 1 (v g k p a b) g k p a (.v b) ∧ row f32 1 (s g k p a b) g k p a (.s b) ∧
    row f64 2 (dv g k p a b) g k p a (.v b)

end Sys2Proof.Claims

open Sys2Proof Sys2Proof.Machine Sys2Proof.Claims in
/-- R138, and R142 for DSET: the comparison on the values, a NaN being unordered, combined into the predicate. -/
def Obligations.FloatComparisons : Prop :=
  FsetRow (fun x y => sameQ x y) false .fsetEqV .fsetEqS .dsetEq ∧
  FsetRow (fun x y => ¬ sameQ x y) false .fsetNeV .fsetNeS .dsetNe ∧
  FsetRow (fun x y => lessQ x y) true .fsetLtV .fsetLtS .dsetLt ∧
  FsetRow (fun x y => lessQ x y ∨ sameQ x y) true .fsetLeV .fsetLeS .dsetLe ∧
  FsetRow (fun x y => lessQ y x) true .fsetGtV .fsetGtS .dsetGt ∧
  FsetRow (fun x y => lessQ y x ∨ sameQ x y) true .fsetGeV .fsetGeS .dsetGe ∧
  FsetRow (fun x y => x.isNan = true ∨ y.isNan = true) false .fsetUnorderedV .fsetUnorderedS .dsetUnordered ∧
  FsetRow (fun x y => x.isNan = false ∧ y.isNan = false) false .fsetOrderedV .fsetOrderedS .dsetOrdered

namespace Sys2Proof.Claims

open Sys2Proof.Machine

/-- What frnd delivers of a binary32 source under a ROUND mode and flush bit (R140): an integer of the source's sign, the nearest
one by the mode's rule for ties, or the one toward zero, above or below; an infinity unchanged; the canonical NaN. -/
def IntegerRounded (q : Rnd) (x y : Nat) : Prop :=
  let v := f32.read (f32.flush q.ftz x)
  (v.isNan = true → y = 0x7FC00000) ∧ (∀ n, v = .inf n → y = x) ∧
  (finite v → finite (f32.read y) ∧ y / 2 ^ 31 = x / 2 ^ 31 ∧ y < 2 ^ 32 ∧ ∃ k : Int, valQ (f32.read y) = k ∧
    (q.mode = 0 → |(k : ℚ) - valQ v| ≤ 1 / 2 ∧ (|(k : ℚ) - valQ v| = 1 / 2 → k % 2 = 0)) ∧
    (q.mode = 1 → |(k : ℚ)| ≤ |valQ v| ∧ |valQ v| < |(k : ℚ)| + 1) ∧
    (q.mode = 2 → valQ v ≤ k ∧ (k : ℚ) < valQ v + 1) ∧
    (q.mode = 3 → (k : ℚ) ≤ valQ v ∧ valQ v < k + 1) ∧
    (q.mode = 4 → |(k : ℚ) - valQ v| ≤ 1 / 2 ∧ (|(k : ℚ) - valQ v| = 1 / 2 → |valQ v| < |(k : ℚ)|)))

/-- One binary32 operand does not lie above another, neither being a NaN, -0 lying below +0 (R137). -/
def atMost (x y : Nat) : Prop :=
  (f32.read x).isNan = false ∧ (f32.read y).isNan = false ∧ ¬ lessQ (f32.read y) (f32.read x) ∧ ¬ (x = 0 ∧ y = 2 ^ 31)

/-- What fmed3 delivers of three binary32 operands (R140): the middle one; with NaNs among them, what minimumNumber and
maximumNumber make of the others. -/
def Median (x y z m : Nat) : Prop :=
  let nan (a : Nat) : Bool := (f32.read a).isNan
  (∀ a b c, [a, b, c].Perm [x, y, z] → atMost a b → atMost b c → m = b) ∧
  (nan x = true → nan y = false → m = y) ∧ (nan y = true → nan x = false → m = x) ∧
  (nan z = true → atMost x y → m = x) ∧ (nan z = true → atMost y x → m = y) ∧
  (nan x = true → nan y = true → nan z = false → m = z) ∧
  (nan x = true → nan y = true → nan z = true → m = 0x7FC00000)

end Sys2Proof.Claims

open Sys2Proof Sys2Proof.Machine Sys2Proof.Claims in
/-- R140 and R141: the instructions of FMISC that are ready at once. -/
def Obligations.FloatMisc : Prop :=
  ∀ (g : BitVec 2) (d a b : BitVec 7),
    Runs (.fabs g d a) (hinted (fun _ => unarySig g d a)) (fun c _ =>
      word c d (fun lane => BitVec.ofNat 32 ((c.W.vget a.toNat lane).toNat % 2 ^ 31))) ∧
    Runs (.fneg g d a) (hinted (fun _ => unarySig g d a)) (fun c _ =>
      word c d (fun lane => BitVec.ofNat 32 ((c.W.vget a.toNat lane).toNat + 2 ^ 31))) ∧
    (∃ cls : Fmt → Nat → Nat,
      (∀ f ∈ [f32, f64], ∀ x, x < 2 ^ f.width → cls f x =
        match f.read x with
        | .nan true => 0
        | .nan false => 1
        | .inf true => 2
        | .inf false => 9
        | .fin true 0 _ => 5
        | .fin false 0 _ => 6
        | .fin true m _ => if m < 2 ^ f.fbits then 4 else 3
        | .fin false m _ => if m < 2 ^ f.fbits then 7 else 8) ∧
      Runs (.fclass g d a)
        (hinted (fun h => { fpSig g d.toNat 1 a.toNat (if h.type = some 14 then 2 else 1) [] .vec with types := [8, 14] }))
        (fun c _ => word c d (fun lane => BitVec.ofNat 32 (2 ^
          (if c.h.type = some 14 then cls f64 (c.W.vget2 a.toNat lane).toNat else cls f32 (c.W.vget a.toNat lane).toNat))))) ∧
    (∃ r : Bool → Nat → Nat,
      (∀ z x, x < 2 ^ 32 → let v := f32.read (f32.flush z x)
        (v.isNan = true ∨ ¬ lessQ (.fin false 0 0) v → r z x = 0) ∧
        (¬ lessQ v (.fin false 1 0) → v.isNan = false → r z x = 0x3F800000) ∧
        (lessQ (.fin false 0 0) v → lessQ v (.fin false 1 0) → r z x = x)) ∧
      Runs (.fsat g d a) (hinted (fun _ => { unarySig g d a with ftz := true })) (fun c _ =>
        flagged c d.toNat 1 (fun lane => (r (rnd c).ftz (c.W.vget a.toNat lane).toNat,
          if (f32.read (c.W.vget a.toNat lane).toNat).snan then fNV else 0)))) ∧
    (∃ r : Rnd → Nat → Nat, (∀ q x, x < 2 ^ 32 → IntegerRounded q x (r q x)) ∧
      Runs (.frnd g d a) (hinted (fun _ => { unarySig g d a with modes := true, ftz := true })) (fun c _ =>
        flagged c d.toNat 1 (fun lane => (r (rnd c) (c.W.vget a.toNat lane).toNat,
          if (f32.read (c.W.vget a.toNat lane).toNat).snan then fNV else 0)))) ∧
    (∃ r : Bool → Nat → Nat → Nat → Nat,
      (∀ q x y z, x < 2 ^ 32 → y < 2 ^ 32 → z < 2 ^ 32 →
        Median (f32.flush q x) (f32.flush q y) (f32.flush q z) (r q x y z)) ∧
      Runs (.fmed3 g d a b)
        (hinted (fun h => { (fpSig g d.toNat 1 a.toNat 1 (vopnd b 1) .vec).withC h d.toNat 1 with ftz := true })) (fun c _ =>
        flagged c d.toNat 1 (fun lane =>
          let z := (c.W.vget (c.h.creg.getD d.toNat) lane).toNat
          (r (rnd c).ftz (c.W.vget a.toNat lane).toNat (c.W.vget b.toNat lane).toNat z,
            if [(c.W.vget a.toNat lane).toNat, (c.W.vget b.toNat lane).toNat, z].any (fun x => (f32.read x).snan)
            then fNV else 0))))

namespace Sys2Proof.Claims

open Sys2Proof.Machine

/-- A long-latency result with flags. -/
def LongRow (i : Instr) (sig : HintSet → Sig) (d n : Nat) (r : Ctx → Nat → Nat × Word) : Prop :=
  RunsLong i (hinted sig) (fun c _ => flagged c d n (r c))

end Sys2Proof.Claims

open Sys2Proof Sys2Proof.Machine Sys2Proof.Claims in
/-- R139, R140 and R142, with R54 to R57: the destination is marked empty, and the result arrives with its flags. Which
number a bounded FUN result is, is open (assumption 11): nothing here depends on it but that one source gives one result; FunBounds
says how near it lies, and RoundedOnce what division and square root deliver. -/
def Obligations.LongLatencyFloat : Prop :=
  ∀ (g : BitVec 2) (d a b : BitVec 7),
    (∀ e ∈ [(0, Instr.frcp g d a), (1, .frsq g d a), (3, .fexp2 g d a), (4, .flog2 g d a), (5, .fsin g d a),
        (6, .fcos g d a), (7, .ftanh g d a)],
      LongRow e.2 (fun _ => { unarySig g d a with ftz := true }) d.toNat 1
        (fun c lane => funOp e.1 (rnd c).ftz (c.W.vget a.toNat lane).toNat)) ∧
    LongRow (.fsqrt g d a) (fun _ => { unarySig g d a with ftz := true, modes := true }) d.toNat 1
      (fun c lane => f32.sqrtV (rnd c) (src f32 c (c.W.vget a.toNat lane).toNat)) ∧
    LongRow (.dsqrt g d a) (fun _ => { fpSig g d.toNat 2 a.toNat 2 [] .vec with modes := true, ftz := true }) d.toNat 2
      (fun c lane => f64.sqrtV (rnd c) (src f64 c (c.W.vget2 a.toNat lane).toNat)) ∧
    LongRow (.fdiv g d a b)
      (fun _ => { fpSig g d.toNat 1 a.toNat 1 [(.v b.toNat 1, some 1)] .vec with modes := true, sat := true, ftz := true })
      d.toNat 1 (fun c lane => f32.divV (rnd c) (src f32 c (c.W.vget a.toNat lane).toNat)
        (src f32 c (c.W.vget b.toNat lane).toNat)) ∧
    LongRow (.ddiv g d a b)
      (fun _ => { fpSig g d.toNat 2 a.toNat 2 [(.v b.toNat 2, some 1)] .vec with modes := true, sat := true, ftz := true })
      d.toNat 2 (fun c lane => f64.divV (rnd c) (src f64 c (c.W.vget2 a.toNat lane).toNat)
        (src f64 c (c.W.vget2 b.toNat lane).toNat))

open Sys2Proof Sys2Proof.Machine Sys2Proof.Claims in
/-- R139's exact and special cases, and the rules for NaNs and for the flush bit. -/
def Obligations.FunSpecialCases : Prop :=
  ∀ (z : Bool) (x : Nat), x < 2 ^ 32 →
    let nan : Nat := 0x7FC00000
    let inf : Nat := 0x7F800000
    let one : Nat := 0x3F800000
    (∀ fn ∈ [0, 1, 3, 4, 5, 6, 7],
      ((f32.read x).isNan = true → funOp fn z x = (nan, if (f32.read x).snan then fNV else 0)) ∧
      (z = true → f32.subnormal x = true → funOp fn z x = funOp fn z (x / 2 ^ 31 * 2 ^ 31))) ∧
    (∀ n : Bool, let s := if n then 2 ^ 31 else 0
      funOp 0 z s = (inf + s, fDZ) ∧ funOp 0 z (inf + s) = (s, 0) ∧
      funOp 1 z s = (inf + s, fDZ) ∧ funOp 4 z s = (inf + 2 ^ 31, fDZ) ∧
      funOp 5 z s = (s, 0) ∧ funOp 5 z (inf + s) = (nan, fNV) ∧ funOp 6 z s = (one, 0) ∧ funOp 6 z (inf + s) = (nan, fNV) ∧
      funOp 7 z s = (s, 0) ∧ funOp 7 z (inf + s) = (one + s, 0) ∧ funOp 3 z s = (one, 0)) ∧
    funOp 1 z inf = (0, 0) ∧ funOp 3 z inf = (inf, 0) ∧ funOp 3 z (inf + 2 ^ 31) = (0, 0) ∧ funOp 4 z inf = (inf, 0) ∧
    (∀ fn ∈ [1, 4], 2 ^ 31 < x → (f32.read x).isNan = false → (z = true → f32.subnormal x = false) →
      funOp fn z x = (nan, fNV)) ∧
    (∀ k : Nat, k < 255 → 0 < k → funOp 4 z (k * 2 ^ 23) = ((f32.round .rne (decide (k < 127)) (k - 127 : Int).natAbs 0 false).1, 0)) ∧
    (∀ j : Nat, j < 23 → funOp 4 false (2 ^ j) = ((f32.round .rne true (149 - j) 0 false).1, 0)) ∧
    (∀ (k : Nat) (n : Bool), let s := if n then 2 ^ 31 else 0
      0 < k → k < 254 → funOp 0 z (k * 2 ^ 23 + s) = ((254 - k) * 2 ^ 23 + s, 0)) ∧
    (∀ n : Bool, let s := if n then 2 ^ 31 else 0
      funOp 0 z (254 * 2 ^ 23 + s) = (2 ^ 22 + s, fUF) ∧ funOp 0 false (2 ^ 22 + s) = (254 * 2 ^ 23 + s, 0)) ∧
    (∀ k : Nat, 0 < k → k < 255 → k % 2 = 1 → funOp 1 z (k * 2 ^ 23) = ((381 - k) / 2 * 2 ^ 23, 0)) ∧
    (∀ j : Nat, j < 23 → j % 2 = 1 → funOp 1 false (2 ^ j) = ((127 + (149 - j) / 2) * 2 ^ 23, 0)) ∧
    (∀ k : Int, finite (f32.read x) → valQ (f32.read x) = k →
      (-126 ≤ k → k ≤ 127 → funOp 3 z x = ((k + 127).toNat * 2 ^ 23, 0)) ∧
      (-149 ≤ k → k < -126 → funOp 3 z x = (2 ^ (k + 149).toNat, fUF)) ∧
      (k < -149 → funOp 3 z x = (0, 0)) ∧ (127 < k → funOp 3 z x = (inf, fOF))) ∧
    (finite (f32.read x) → 91 / 10 ≤ |valQ (f32.read x)| → funOp 7 z x = (one + x / 2 ^ 31 * 2 ^ 31, 0))

namespace Sys2Proof.Claims

open Sys2Proof.Machine

/-- The function that a bounded fn of FUN approximates (R139). -/
noncomputable def funReal (fn : Nat) (x : ℝ) : ℝ :=
  match fn with
  | 0 => 1 / x
  | 1 => 1 / Real.sqrt x
  | 3 => (2 : ℝ) ^ x
  | 4 => Real.logb 2 x
  | 5 => Real.sin x
  | 6 => Real.cos x
  | _ => Real.tanh x

/-- The ULP of R139 for a magnitude. -/
noncomputable def ulp (v : ℝ) : ℝ := if |v| < 2 ^ (-126 : Int) then 2 ^ (-149 : Int) else 2 ^ (Int.log 2 |v| - 23)

/-- The bound of R139 on the result of a fn for a source and an exact result. -/
noncomputable def funLimit (fn : Nat) (x v : ℝ) : ℝ :=
  if fn = 0 then ulp v
  else if fn = 4 ∧ 1 / 2 ≤ x ∧ x ≤ 2 then 2 ^ (-22 : Int)
  else if fn = 5 ∨ fn = 6 then max (2 * ulp v) (2 ^ (-24 : Int))
  else 2 * ulp v

end Sys2Proof.Claims

open Sys2Proof Sys2Proof.Machine Sys2Proof.Claims in
/-- R139. Which number within the bound is delivered is open (assumption 11). The bound holds from a number that lies within 2^-200
of an ULP of the exact result, which is how near the model's own evaluation comes (assumption 11). -/
def Obligations.FunBounds : Prop :=
  ∀ (z : Bool) (x : Nat), x < 2 ^ 32 → ∀ fn ∈ [0, 1, 3, 4, 5, 6, 7],
    let v := f32.read (f32.flush z x)
    let d := funOp fn z x
    finite v → valR v ≠ 0 → (fn = 1 ∨ fn = 4 → 0 < valR v) →
    ∃ w : ℝ, |w - funReal fn (valR v)| ≤ 2 ^ (-200 : Int) * ulp w ∧
      (finite (f32.read d.1) → |valR (f32.read d.1) - w| ≤ funLimit fn (valR v) w) ∧
      (¬ finite (f32.read d.1) → f32.read d.1 = .inf (decide (w < 0)) ∧ (2 - (2 : ℝ) ^ (-24 : Int)) * 2 ^ (127 : Int) ≤ |w|) ∧
      d.2 = (if f32.subnormal d.1 then fUF else if d.1 / 2 ^ 23 % 256 = 255 then fOF else 0)

namespace Sys2Proof.Claims

open Sys2Proof.Machine

/-- Element `j` of a packed register, of `n` bits. -/
def elem (n j : Nat) (x : Word) : Nat := x.toNat / 2 ^ (n * j) % 2 ^ n

/-- The rounding of a conversion: the hint's mode and flush bit, the instruction's saturate bit (R81). -/
def convRnd (c : Ctx) (sat : BitVec 1) : Rnd := { mode := (rnd c).mode, sat := sat == 1, ftz := (rnd c).ftz, conv := false }

/-- Elements of a format that fill a register. -/
def packOf (f : Fmt) : Nat := 32 / f.width

/-- The integer that a number rounds to in a mode (R59). -/
def roundTo (mode : Nat) (q : ℚ) : Int :=
  match mode with
  | 0 => if q - ⌊q⌋ < 1 / 2 then ⌊q⌋ else if 1 / 2 < q - ⌊q⌋ then ⌊q⌋ + 1 else if ⌊q⌋ % 2 = 0 then ⌊q⌋ else ⌊q⌋ + 1
  | 1 => if q < 0 then ⌈q⌉ else ⌊q⌋
  | 2 => ⌈q⌉
  | 3 => ⌊q⌋
  | _ => if q < 0 then ⌈q - 1 / 2⌉ else ⌊q + 1 / 2⌋

/-- What a conversion to a floating format delivers (R81, R82): the exact value rounded once, zeros, infinities and NaNs; the narrow formats
always saturate, and those without an infinity give the largest finite number for one, with SAT and NX (assumption 33). -/
def ConvertsTo (k : Fmt) (r : Rnd) (v : FVal) (d : Nat × Word) : Prop :=
  let q : Rnd := { r with conv := true, sat := r.sat || decide (k = e4m3 ∨ k = e5m2 ∨ k = e2m1) }
  match v with
  | .nan s =>
    if k = e2m1 then d = (0, fNV)
    else d = (if k = e4m3 then 0x7F else (2 ^ k.ebits - 1) * 2 ^ k.fbits + 2 ^ (k.fbits - 1), if s then fNV else 0)
  | .inf n =>
    let s := if n then 2 ^ (k.width - 1) else 0
    if k = e4m3 then d = (0x7E + s, fSAT ||| fNX)
    else if k = e2m1 then d = (7 + s, fSAT ||| fNX)
    else d = ((2 ^ k.ebits - 1) * 2 ^ k.fbits + s, 0)
  | .fin n m e => if m = 0 then d = (if n then 2 ^ (k.width - 1) else 0, 0) else Delivered k q (valR (.fin n m e)) d

/-- What f2i delivers (R83): the rounded integer, or NV with the table's result for a NaN or a number beyond the type. -/
def ToInteger (mode : Nat) (sat signed : Bool) (n : Nat) (v : FVal) (d : Nat × Word) : Prop :=
  let lo : Int := if signed then -2 ^ (n - 1) else 0
  let hi : Int := if signed then 2 ^ (n - 1) - 1 else 2 ^ n - 1
  let code (x : Int) : Nat := (x % 2 ^ n).toNat
  let bad : Nat := if signed then 2 ^ (n - 1) else 2 ^ n - 1
  match v with
  | .nan _ => d = (if sat then 0 else bad, fNV)
  | .inf neg => d = (if sat then code (if neg then lo else hi) else bad, fNV)
  | .fin s m e =>
    let x := valQ (.fin s m e)
    let k := roundTo mode x
    if k < lo then d = (if sat then code lo else bad, fNV)
    else if hi < k then d = (if sat then code hi else bad, fNV)
    else d = (code k, if (k : ℚ) = x then 0 else fNX)

/-! Rows of a block format, as one little-endian number: the packed layouts of R85, R88 and R90 (`plane` false) and the planes of R171. -/

/-- The sign of element `i` of a row of `k` elements. -/
def rowSign (fmt : Nat) (plane : Bool) (k N i : Nat) : Nat :=
  let m := magBits fmt
  if plane then N / 2 ^ i % 2
  else if fmt = 19 then N / 2 ^ (272 * (i / 16) + 16 * (i % 16) + 15) % 2
  else if fmt = 6 then N / 2 ^ (8 * i + 7) % 2
  else N / 2 ^ (i / 32 * (32 * (1 + m) + 32) + i % 32 * (1 + m) + m) % 2

/-- The magnitude of element `i`. -/
def rowMag (fmt : Nat) (plane : Bool) (k N i : Nat) : Nat :=
  let m := magBits fmt
  if plane then ((List.range m).map (fun j => N / 2 ^ ((m - j) * k + i) % 2 * 2 ^ j)).sum
  else if fmt = 19 then N / 2 ^ (272 * (i / 16) + 16 * (i % 16)) % 2 ^ 15
  else if fmt = 6 then (let x := N / 2 ^ (8 * i) % 256; if x < 128 then x else 256 - x)
  else N / 2 ^ (i / 32 * (32 * (1 + m) + 32) + i % 32 * (1 + m)) % 2 ^ m

/-- The exponent of group `g`. -/
def rowExp (fmt : Nat) (plane : Bool) (k N g : Nat) : Nat :=
  let m := magBits fmt
  if plane then N / 2 ^ ((1 + m) * k + 16 * g + 8) % 256
  else if fmt = 19 then N / 2 ^ (272 * g + 256) % 256
  else N / 2 ^ (g / 2 * (32 * (1 + m) + 32) + 32 * (1 + m) + 16 + 8 * (g % 2)) % 256

/-- The micro bits of group `g`: none in AL16. -/
def rowMicro (fmt : Nat) (plane : Bool) (k N g : Nat) : Nat :=
  let m := magBits fmt
  if fmt = 19 then 0
  else if plane then N / 2 ^ ((1 + m) * k + 16 * g) % 256
  else N / 2 ^ (g / 2 * (32 * (1 + m) + 32) + 32 * (1 + m) + 8 * (g % 2)) % 256

/-- The number that element `i` decodes to; none in a NaN group (R86, R88). -/
def rowValue (fmt : Nat) (plane : Bool) (k N i : Nat) : Option ℚ :=
  let e := rowExp fmt plane k N (i / 16)
  let u := rowMicro fmt plane k N (i / 16) / 2 ^ (i % 16 / 2) % 2
  if e = 255 then none
  else some ((if rowSign fmt plane k N i = 1 then -1 else 1) * (rowMag fmt plane k N i : ℚ) *
    (2 : ℚ) ^ ((e : Int) - 127 - (u : Int) - ((magBits fmt : Int) - 1)))

/-- Element `i` has the largest magnitude of `n` values, the lowest-numbered on a tie. -/
def largestAt (n : Nat) (x : Nat → FVal) (i : Nat) : Prop :=
  i < n ∧ ∀ j, j < n → |valQ (x j)| ≤ |valQ (x i)| ∧ (j < i → |valQ (x j)| < |valQ (x i)|)

/-- 16 values become the fields, micro bits and exponent of a group, with flags, by the steps of R87 and, for AL16, of R89 and R146. A
magnitude that rounds past the field becomes the largest, with SAT and NX (assumption 81); a NaN group has zero fields (assumption 82). -/
def EncodesGroup (fmt mode : Nat) (x : Nat → FVal) (e micro : Nat) (mag sign : Nat → Nat) (w : Word) : Prop :=
  let m := magBits fmt
  let top : Int := 2 ^ m - 1
  ((∃ i, i < 16 ∧ ¬ finite (x i)) → e = 255 ∧ micro = 0 ∧ (∀ i, i < 16 → mag i = 0 ∧ sign i = 0) ∧
    ((∃ i, i < 16 ∧ ((∃ n, x i = .inf n) ∨ x i = .nan true)) → w = fNV) ∧
    ((∀ i, i < 16 → (∀ n, x i ≠ .inf n) ∧ x i ≠ .nan true) → w = 0)) ∧
  ((∀ i, i < 16 → finite (x i) ∧ valQ (x i) = 0) → e = 0 ∧ micro = 0 ∧ (∀ i, i < 16 → mag i = 0 ∧ sign i = 0) ∧ w = 0) ∧
  (∀ a, (∀ i, i < 16 → finite (x i)) → valQ (x a) ≠ 0 → largestAt 16 x a →
    let l : Int := Int.log 2 |valQ (x a)|
    let raw : Int := l + 127 + if |roundTo mode (valQ (x a) * (2 : ℚ) ^ ((m : Int) - 1 - l))| = 2 ^ m then 1 else 0
    let E : Int := max 0 (min 254 raw)
    (e : Int) = E ∧
    (∀ j b, j < 8 → largestAt 2 (fun i => x (2 * j + i)) b → (micro / 2 ^ j % 2 = 1 ↔ fmt ≠ 19 ∧
      |roundTo mode (valQ (x (2 * j + b)) * (2 : ℚ) ^ ((m : Int) - (E - 127)))| ≤ top)) ∧
    let k (i : Nat) : Int := (m : Int) - 1 + ((micro / 2 ^ (i / 2) % 2 : Nat) : Int) - (E - 127)
    let r (i : Nat) : Int := roundTo mode (valQ (x i) * (2 : ℚ) ^ k i)
    (∀ i, i < 16 → (mag i : Int) = min |r i| top ∧ (sign i = 1 ↔ valQ (x i) < 0 ∧ mag i ≠ 0) ∧ sign i ≤ 1) ∧
    ((∃ i, i < 16 ∧ top < |r i|) → w = fSAT ||| fNX) ∧
    ((∀ i, i < 16 → |r i| ≤ top) → (∃ i, i < 16 ∧ (r i : ℚ) ≠ valQ (x i) * (2 : ℚ) ^ k i) → w = fNX) ∧
    ((∀ i, i < 16 → |r i| ≤ top ∧ (r i : ℚ) = valQ (x i) * (2 : ℚ) ^ k i) → w = 0))

/-- A row of `k` values becomes a row of a block format, with flags. -/
def EncodesRow (fmt mode : Nat) (plane : Bool) (k : Nat) (x : Nat → FVal) (N : Nat) (w : Word) : Prop :=
  ∃ f : Nat → Word, w = (List.range (k / 16)).foldl (fun a g => a ||| f g) 0 ∧
    ∀ g, g < k / 16 → EncodesGroup fmt mode (fun i => x (16 * g + i)) (rowExp fmt plane k N g) (rowMicro fmt plane k N g)
      (fun i => rowMag fmt plane k N (16 * g + i)) (fun i => rowSign fmt plane k N (16 * g + i)) (f g)

end Sys2Proof.Claims

open Sys2Proof Sys2Proof.Machine Sys2Proof.Claims in
/-- R81 to R89, R146 and R147, for the functions that Conversions names. Assumptions 33, 81 and 82 are the model's choices. -/
def Obligations.ConversionResults : Prop :=
  (∀ k ∈ [f32, f16, bf16, e4m3, e5m2, e2m1, f64], ∀ (r : Rnd), r.mode ≤ 4 → ∀ v, ConvertsTo k r v (k.convert r v)) ∧
  (∀ n ∈ [8, 16, 32, 64], ∀ (mode : Nat) (sat signed : Bool) (v : FVal), mode ≤ 4 →
    ToInteger mode sat signed n v (f2iV mode sat signed n v)) ∧
  (∀ k ∈ [f32, f16, bf16, e4m3, e5m2, e2m1, f64], ∀ (r : Rnd) (x : Int), r.mode ≤ 4 →
    ConvertsTo k r (.fin (decide (x < 0)) x.natAbs 0) (i2fV k r x)) ∧
  (∀ fmt ∈ [16, 17, 18, 19], ∀ (w : Nat → Word) (i : Nat), i < 32 →
    let N := ((List.range (blockWords fmt)).map (fun j => (w j).toNat * 2 ^ (32 * j))).sum
    let y := (f32.convert .rne ((RawRow.ofPacked fmt 32
      ((List.range (blockWords fmt)).flatMap (fun j => bytesOf 4 (w j).toNat))).value fmt i)).1
    (rowValue fmt false 32 N i = none → y = 0x7FC00000) ∧
    ∀ q, rowValue fmt false 32 N i = some q →
      if q = 0 then y = 0 else y < 2 ^ 32 ∧ finite (f32.read y) ∧ valQ (f32.read y) = q) ∧
  (∀ fmt ∈ [16, 17, 18, 19], ∀ (mode : Nat) (x : Nat → Nat), mode ≤ 4 → (∀ i, x i < 2 ^ 32) →
    let e := encodeRow fmt mode 2 ((List.range 32).map (fun i => f32.read (x i)))
    let N := ((List.range (blockWords fmt)).map (fun j => (blockWord (e.1.toPacked fmt) j).toNat * 2 ^ (32 * j))).sum
    EncodesRow fmt mode false 32 (fun i => f32.read (x i)) N e.2 ∧
    (fmt = 19 → N / 2 ^ 264 % 256 = 0 ∧ N / 2 ^ 536 % 256 = 0))

open Sys2Proof Sys2Proof.Machine Sys2Proof.Claims in
/-- R144 to R147: each conversion is the exact value of the source, delivered by the rules of the destination format; ConversionResults
says what the named functions deliver. -/
def Obligations.Conversions : Prop :=
  ∀ (g : BitVec 2) (d a : BitVec 7) (x y : BitVec 3) (t : BitVec 1),
    let f := codeFmt x.toNat
    let k := codeFmt y.toNat
    Runs (.fcvt g d a x y t)
      (hinted (fun _ => { fpSig g d.toNat k.regs a.toNat f.regs [] .vec with
        modes := true, ftz := true, legal := x != 7 && y != 7 && x != y }))
      (fun c _ => flagged c d.toNat k.regs (fun lane =>
        k.convert (convRnd c t) (src f c ((vec c f.regs a lane).toNat % 2 ^ f.width)))) ∧
    Runs (.f2i g d a x y t)
      (hinted (fun _ => { fpSig g d.toNat (codeRegs y.toNat) a.toNat f.regs [] .vec with modes := true, legal := x != 7 }))
      (fun c _ => flagged c d.toNat (codeRegs y.toNat) (fun lane =>
        f2iV (c.h.rnd 1).mode (t == 1) (y.toNat % 2 == 0) (codeBits y.toNat)
          (f.read ((vec c f.regs a lane).toNat % 2 ^ f.width)))) ∧
    Runs (.i2f g d a x y t)
      (hinted (fun _ => { fpSig g d.toNat k.regs a.toNat (codeRegs x.toNat) [] .vec with modes := true, legal := y != 7 }))
      (fun c _ => flagged c d.toNat k.regs (fun lane =>
        i2fV k (convRnd c t) (codeInt x.toNat (vec c (codeRegs x.toNat) a lane)))) ∧
    Runs (.fpack g d a x y t)
      (hinted (fun _ => { fpSig g d.toNat 1 a.toNat (packOf k) [] .vec with
        modes := true, ftz := true, legal := x == 0 && (decide (1 ≤ y.toNat) && decide (y.toNat ≤ 5)) }))
      (fun c _ =>
        let one (j lane : Nat) : Nat × Word := k.convert (convRnd c t) (src f32 c (c.W.vget (a.toNat + j) lane).toNat)
        flagged c d.toNat 1 (fun lane => (((List.range (packOf k)).map (fun j => (one j lane).1 * 2 ^ (k.width * j))).sum,
          (List.range (packOf k)).foldl (fun w j => w ||| (one j lane).2) 0))) ∧
    Runs (.funpack g d a x y)
      (hinted (fun _ => { fpSig g d.toNat (packOf f) a.toNat 1 [] .vec with
        legal := y == 0 && (decide (1 ≤ x.toNat) && decide (x.toNat ≤ 5)) }))
      (fun c _ =>
        let one (j lane : Nat) : Nat × Word := f32.convert .rne (f.read (elem f.width j (c.W.vget a.toNat lane)))
        { Written.none with
          v := fun r lane => if d.toNat ≤ r ∧ r < d.toNat + packOf f ∧ c.act.getLsbD lane = true then
            some (BitVec.ofNat 32 (one (r - d.toNat) lane).1) else none
          flags := (List.range (packOf f)).foldl (fun w j => w ||| flagsOf c.act (fun lane => (one j lane).2)) 0 }) ∧
    Runs (.bpack g d a) (hinted (blockSig true g d a)) (fun c _ =>
      let fmt := c.h.type.getD 16
      let e := encodeRow fmt (rnd c).mode 2 ((List.range 32).map (fun lane =>
        f32.read (if c.act.getLsbD lane then (c.W.vget a.toNat lane).toNat else 0)))
      Written.vec c.act d.toNat
        (fun lane => if lane < blockWords fmt then blockWord (e.1.toPacked fmt) lane else 0) (if c.act = 0 then 0 else e.2)) ∧
    Runs (.bunpack g d a) (hinted (blockSig false g d a)) (fun c _ =>
      let fmt := c.h.type.getD 16
      let w (j : Nat) : Nat := if c.G.slices.getLsbD (j / 4) then (c.W.vget a.toNat j).toNat else 0
      let b := RawRow.ofPacked fmt 32 ((List.range (blockWords fmt)).flatMap (fun j => bytesOf 4 (w j)))
      word c d (fun lane => BitVec.ofNat 32 (f32.convert .rne (b.value fmt lane)).1))

namespace Sys2Proof.Claims

open Sys2Proof.Machine

/-! ### Lane exchange (R148 to R151) -/

/-- The active lanes, ascending. -/
def active (c : Ctx) : List Nat := (List.range 32).filter (fun lane => c.act.getLsbD lane)

/-- One lane pick: the lane it names in a lane that reads b there; outside 0 to 31 it names none. -/
def PickRow (pick : Nat → Word → Int) (i : BitVec 2 → BitVec 7 → BitVec 7 → BitVec 7 → Instr) : Prop :=
  ∀ g d a b, Runs (i g d a b) (hinted (xlaneSig g d a b)) (fun c _ => word c d (fun lane =>
    let j := pick lane (c.W.vget b.toNat lane)
    if 0 ≤ j ∧ j ≤ 31 ∧ c.act.getLsbD j.toNat = true then c.W.vget a.toNat j.toNat else c.W.vget a.toNat lane))

/-- A segment starts at a lane (R149). -/
def starts (c : Ctx) (a b : BitVec 7) (lane : Nat) : Prop :=
  lane ∈ active c ∧ ((∀ m ∈ active c, lane ≤ m) ∨ (a ≠ b ∧ (c.W.vget b.toNat lane).getLsbD 0 = true))

/-- Two lanes stand in one segment, the first not after the second: none starts between. -/
def joined (c : Ctx) (a b : BitVec 7) (m lane : Nat) : Prop := m ≤ lane ∧ ∀ k, m < k → k ≤ lane → ¬ starts c a b k

/-- The sum of an operand over some active lanes. -/
noncomputable def sumOver (c : Ctx) (n : Nat) (a : BitVec 7) (keep : Nat → Prop) : DWord :=
  open Classical in ((active c).map (fun m => if keep m then vec c n a m else 0)).sum

end Sys2Proof.Claims

open Sys2Proof Sys2Proof.Machine Sys2Proof.Claims in
/-- R148 to R151. The sums are stated for the integer types, where no order of adding shows. -/
def Obligations.LaneExchange : Prop :=
  PickRow (fun _ y => ((y.toNat % 32 : Nat) : Int)) .xget ∧
  PickRow (fun lane y => (((lane + y.toNat % 32) % 32 : Nat) : Int)) .xrot ∧
  PickRow (fun lane y => (lane : Int) + (y.setWidth 6).toInt) .xslide ∧
  PickRow (fun lane y => ((lane ^^^ (y.toNat % 32) : Nat) : Int)) .xmirr ∧
  ∀ (g : BitVec 2) (d a b : BitVec 7),
    Runs (.compact g d a b) (hinted (xlaneSig g d a b)) (fun c _ =>
      let vals := ((active c).filter (fun m => decide (c.W.vget b.toNat m ≠ 0))).map (fun m => c.W.vget a.toNat m)
      word c d (fun lane => (vals[((active c).filter (fun m => decide (m < lane))).length]?).getD 0)) ∧
    Runs (.matchLanes g d a b) (hinted (xlaneSig g d a b)) (fun c _ =>
      word c d (fun lane => BitVec.ofNat 32 (((active c).map (fun m =>
        if c.W.vget a.toNat m = c.W.vget a.toNat lane ∧ c.W.vget b.toNat m = c.W.vget b.toNat lane then 2 ^ m else 0)).sum))) ∧
    (∀ s c, s.passes (hinted (laneSig g d a b)) = some c → [0, 1, 2, 3].contains (ty c) = true →
      (∃ t, exec (.lred g d a b) s = .next t ∧ Completes c s t
        (Written.group c.act d.toNat (regs (ty c)) (fun lane => sumOver c (regs (ty c)) a
          (fun m => joined c a b m lane ∨ joined c a b lane m)) 0)) ∧
      (∃ t, exec (.lscan g d a b) s = .next t ∧ Completes c s t
        (Written.group c.act d.toNat (regs (ty c)) (fun lane => sumOver c (regs (ty c)) a
          (fun m => joined c a b m lane)) 0))) ∧
    Runs (.intersect g d a b) (hinted (fun h => { xlaneSig g d a b h with types := [0, 1] })) (fun c _ =>
      let num (x : Word) : Int := if c.h.type = some 0 then x.toInt else (x.toNat : Int)
      let h := (active c).getLast?.getD 0
      let lim := min (num (c.W.vget a.toNat h)) (num (c.W.vget b.toNat h))
      let adv (r : BitVec 7) : Nat := ((active c).filter (fun m => decide (num (c.W.vget r.toNat m) ≤ lim))).length
      word c d (fun lane =>
        let hits := (active c).filter (fun m => decide (c.W.vget b.toNat m = c.W.vget a.toNat lane))
        BitVec.ofNat 32 (adv b * 2 ^ 16 + adv a * 2 ^ 8 + (if hits = [] then 0 else 2 ^ 5 + hits.head?.getD 0))))

namespace Sys2Proof.Claims

open Sys2Proof.Machine

/-- Two sides combined, each perhaps absent, with the flags so far: an absent side passes the other on (R95). -/
def sides (add : DWord → DWord → DWord × Word) : Option (DWord × Word) → Option (DWord × Word) → Option (DWord × Word)
  | some x, some y => some ((add x.1 y.1).1, (add x.1 y.1).2 ||| x.2 ||| y.2)
  | some x, none => some x
  | none, y => y

/-- A node of the tree of R95: at level 0 a lane, at each later level two adjacent results of the level below. -/
def treeNode (add : DWord → DWord → DWord × Word) (v : Nat → Option DWord) : Nat → Nat → Option (DWord × Word)
  | 0, i => (v i).map (fun x => (x, 0))
  | j + 1, i => sides add (treeNode add v j (2 * i)) (treeNode add v j (2 * i + 1))

/-- The aligned blocks that cover `n` lanes, in ascending order: the level of each and its number at that level (R95; assumption 96). -/
def blocksOf (n : Nat) : List (Nat × Nat) :=
  ([5, 4, 3, 2, 1, 0].filter (fun j => n / 2 ^ j % 2 = 1)).map (fun j => (j, n / 2 ^ (j + 1) * 2))

end Sys2Proof.Claims

open Sys2Proof Sys2Proof.Machine Sys2Proof.Claims in
/-- R149 with R95 for .f32 and .f64: the combinations are those of the fixed tree over the lanes of the segment, each
rounded under the ROUND mode; under the flush bit a subnormal source counts as zero, in a segment of one lane too (R76). That such a lane
passes on the bits of a NaN and sets no flag is the model's choice (assumption 78), and so is which blocks cover lane 7 (assumption 96). -/
def Obligations.FloatLaneSums : Prop :=
  ∀ (g : BitVec 2) (d a b : BitVec 7) (s : State) (c : Ctx), s.passes (hinted (laneSig g d a b)) = some c →
    c.h.type = some 8 ∨ c.h.type = some 14 →
    let n := if c.h.type = some 14 then 2 else 1
    let f := if c.h.type = some 14 then f64 else f32
    let add (x y : DWord) : DWord × Word :=
      let r := Arith f 0 c (x.toNat % 2 ^ f.width) (y.toNat % 2 ^ f.width) 0
      (BitVec.ofNat 64 r.1, r.2)
    ∃ val : (Nat → Prop) → Nat → Option DWord,
      (∀ keep m, (m ∈ active c ∧ keep m →
        val keep m = some (BitVec.ofNat 64 (f.flush (rnd c).ftz ((vec c n a m).toNat % 2 ^ f.width)))) ∧
        (¬ (m ∈ active c ∧ keep m) → val keep m = none)) ∧
      let red (lane : Nat) : DWord × Word :=
        (treeNode add (val (fun m => joined c a b m lane ∨ joined c a b lane m)) 5 0).getD (0, 0)
      let scan (lane : Nat) : DWord × Word :=
        ((blocksOf (lane + 1)).foldl (fun acc e => sides add acc (treeNode add (val (fun m => joined c a b m lane)) e.1 e.2))
          none).getD (0, 0)
      (∃ t, exec (.lred g d a b) s = .next t ∧ Completes c s t
        (Written.group c.act d.toNat n (fun lane => (red lane).1) (flagsOf c.act (fun lane => (red lane).2)))) ∧
      ∃ t, exec (.lscan g d a b) s = .next t ∧ Completes c s t
        (Written.group c.act d.toNat n (fun lane => (scan lane).1) (flagsOf c.act (fun lane => (scan lane).2)))

namespace Sys2Proof.Claims

open Sys2Proof.Machine

/-! ### Memory instructions (R152 to R164) -/

/-- The active lanes with their addresses. -/
def lanesAt (c : Ctx) (f : Nat → DWord) : List (Nat × DWord) := (lanesOf c.act).map (fun lane => (lane, f lane))

/-- The address of a lane from a vector pair and an offset in units (R152, R45, R63). -/
def vaddr {n : Nat} (c : Ctx) (a : BitVec 7) (o : BitVec n) (unit lane : Nat) : DWord :=
  c.W.vget2 a.toNat lane + BitVec.ofInt 64 (immInt o c.h.imms * unit)

/-- The address of a lane from a scalar pair (R152). -/
def saddr (c : Ctx) (s : State) (a : BitVec 7) (o : BitVec 8) (size lane : Nat) : DWord :=
  c.sread2 s a.toNat + BitVec.ofInt 64 (immInt o c.h.imms * size) + BitVec.ofNat 64 (lane * size)

/-- Every lane's access can be performed, and `place` says where its bytes lie: aligned, canonical, allowed in the window,
translated with the permission it needs, not poisoned, not held; no lane is in a capsule; the core has room for the requests (R157);
and where a place is on an ordered page, the core's earlier accesses to such pages are performed (R155) and it has no store on its
way (what such a store does first is said in OrderedAfterOwnStores). -/
structure Reaches (s : State) (c : Ctx) (acc : Acc) (win : Bool) (size align : Nat) (l : List (Nat × DWord))
    (place : Nat → List Loc) : Prop where
  aligned : ∀ e ∈ l, e.2.toNat % align = 0
  canon : ∀ e ∈ l, canonical e.2 = true
  window : ∀ e ∈ l, badWindow s c win size e.2 = false
  go : ∀ e ∈ l, laneAccess s c acc size e.2 = .go (place e.1)
  plain : ∀ lane, c.inCapsule lane = false
  room : s.requestsOut c.W.core + l.length ≤ 3072
  quiet : (∃ e ∈ l, orderedLocs (place e.1) = true) → s.orderedBusy c = false ∧ ∀ e ∈ s.regq, e.2.core ≠ c.W.core

/-- A core holds the newest value of a byte itself: its own store on its way, or a copy it owns (R189). -/
def holdsNewest (s : State) (core key : Nat) : Prop :=
  (∃ b, s.pendingByte core key = some b) ∨ ∃ x, sget s.carve (carveKey core key) = some x ∧ x.owned = true

/-- A byte that a plain load of a core may see (R189): its own newest; else its copy, or what the home holds now. -/
def MaySee (s : State) (core key : Nat) (b : Byte) : Prop :=
  b = s.coreByte core key ∨ (¬ holdsNewest s core key ∧ b = s.byte key)

/-- The byte that a load sees at a place that is no cached memory: at home on an ordered page (R155), in block scratch, or in a
register through the window (R41). -/
def directly (s : State) : Loc → Byte
  | .mem key _ => s.byte key
  | .reg w r lane b => (((sget s.warps w).map (fun (T : Warp) => T.vget r lane)).getD 0).extractLsb' (8 * b) 8

/-- A place is memory that the core caches. -/
def cached : Loc → Prop
  | .mem key o => o = false ∧ isScratch key = false
  | .reg _ _ _ _ => False

/-- What a lane's load sees (R155, R189, R192): each byte is one that the core may see; and where the core lacks a byte that the lane
reads of an aligned 8-byte unit, every byte of the unit that the core does not itself hold newest is the home's, so no value is torn
between two writes. -/
structure SeesAt (s : State) (core : Nat) (place : List Loc) (b : List Byte) : Prop where
  size : b.length = place.length
  direct : ∀ (j : Nat) (p : Loc) (x : Byte), place[j]? = some p → b[j]? = some x → ¬ cached p → x = directly s p
  may : ∀ (j key : Nat) (x : Byte), place[j]? = some (Loc.mem key false) → b[j]? = some x → isScratch key = false → MaySee s core key x
  whole : ∀ (j key : Nat) (x : Byte), place[j]? = some (Loc.mem key false) → b[j]? = some x → isScratch key = false →
    ¬ holdsNewest s core key →
    (∃ i k : Nat, place[i]? = some (Loc.mem k false) ∧ k / 8 = key / 8 ∧ s.pendingByte core k = none ∧
      sget s.carve (carveKey core k) = none) → x = s.byte key

/-- Registers `d` to `d + n - 1` of the active lanes. -/
def groupOf (c : Ctx) (d : BitVec 7) (n : Nat) (f : Nat → Nat → Word) : Written :=
  { Written.none with
    v := fun r lane => if d.toNat ≤ r ∧ r < d.toNat + n ∧ c.act.getLsbD lane = true then some (f (r - d.toNat) lane) else none }

/-- The copies of a core after its loads: another core's are as before, and each byte that the core sees is one it could have seen
before (R189). -/
def SameView (s : State) (core : Nat) (k : SMap Carve) : Prop :=
  ∀ key, key < 2 ^ 64 → MaySee s core key (({ s with carve := k } : State).coreByte core key) ∧
    ∀ d, d ≠ core → sget k (carveKey d key) = sget s.carve (carveKey d key)

/-- A load: what it sees arrives in its group; no byte of memory changes, and the core sees nothing that it could not see before. -/
def LoadRow (i : Instr) (sig : HintSet → Sig) (size : Nat) (l : Ctx → State → List (Nat × DWord))
    (x : Ctx → (Nat → List Byte) → Written) : Prop :=
  ∀ s c place, s.passes (hinted sig) = some c → Reaches s c .read true size size (l c s) place →
    ∃ t k b, exec i s = .next t ∧ Produces c false { s with carve := k } t (x c b) ∧ SameView s c.W.core k ∧
      ∀ e ∈ l c s, SeesAt s c.W.core (place e.1) (b e.1)

end Sys2Proof.Claims

open Sys2Proof Sys2Proof.Machine Sys2Proof.Claims in
/-- R152, R159 and R160, with R54 to R57: the word at the lowest address goes to the lowest register, each little-endian;
narrow values are extended; ldbc reads once, for the lowest active lane. -/
def Obligations.Loads : Prop :=
  ∀ (w g : BitVec 2) (d a i : BitVec 7) (o : BitVec 8),
    let n := 2 ^ w.toNat
    let wide (c : Ctx) (b : Nat → List Byte) : Written :=
      groupOf c d n (fun j lane => BitVec.ofNat 32 (numOf (((b lane).drop (4 * j)).take 4)))
    let sig : HintSet → Sig := fun _ =>
      { Sig.plain with
        g := some g, guard := true, srcs := [(.v a.toNat 2, some 0)], dsts := [.v d.toNat 1], imms := 2, cache := true, body := .vec }
    let narrow (size : Nat) (f : Nat → Int) (c : Ctx) (b : Nat → List Byte) : Written :=
      groupOf c d 1 (fun _ lane => BitVec.ofInt 32 (f (numOf ((b lane).take size))))
    LoadRow (.ld w g d a o) (fun h => { sig h with dsts := [.v d.toNat n] }) (4 * n)
      (fun c _ => lanesAt c (vaddr c a o (4 * n))) wide ∧
    LoadRow (.lds w g d a o) (fun h => { sig h with srcs := [(.s a.toNat 2, some 0)], dsts := [.v d.toNat n], body := .no })
      (4 * n) (fun c s => lanesAt c (saddr c s a o (4 * n))) wide ∧
    LoadRow (.ld8 g d a i) sig 1 (fun c _ => lanesAt c (vaddr c a i 1)) (narrow 1 (fun x => if x < 128 then (x : Int) else x - 256)) ∧
    LoadRow (.ld8n g d a i) sig 1 (fun c _ => lanesAt c (vaddr c a i 1)) (narrow 1 (fun x => x)) ∧
    LoadRow (.ld16 g d a i) sig 2 (fun c _ => lanesAt c (vaddr c a i 2))
      (narrow 2 (fun x => if x < 32768 then (x : Int) else x - 65536)) ∧
    LoadRow (.ld16n g d a i) sig 2 (fun c _ => lanesAt c (vaddr c a i 2)) (narrow 2 (fun x => x)) ∧
    LoadRow (.ldbc g d a i) sig 4 (fun c _ => (lanesAt c (vaddr c a i 4)).take 1)
      (fun c b => groupOf c d 1 (fun _ _ => BitVec.ofNat 32 (numOf ((b ((lowestLane c.act).getD 0)).take 4))))

namespace Sys2Proof.Claims

open Sys2Proof.Machine

/-- What the lanes store: each lane's places with its bytes, in ascending lane order (R157). -/
def cellsOf (c : Ctx) (place : Nat → List Loc) (data : Nat → List Byte) : List (Loc × Byte) :=
  (lanesOf c.act).flatMap (fun lane => (place lane).zip (data lane))

/-- The last byte of a list of cells at a place. -/
def lastAt (l : List (Loc × Byte)) (p : Loc → Bool) : Option Byte := ((l.filter (fun e => p e.1)).getLast?).map (·.2)

/-- A store to pages that are not ordered: each aligned part of up to 8 bytes of each lane, in ascending order, is a store
on its way, with its home and the function's tag; memory changes when it registers (R155, R157, R189, R195). -/
def Queued (c : Ctx) (s s1 : State) (size : Nat) (key : Nat → Nat) (data : Nat → List Byte) : Prop :=
  let parts := (size + 7) / 8
  let lanes := lanesOf c.act
  s1.nextId = s.nextId + parts * lanes.length ∧
  (∀ id, id < s.nextId ∨ s1.nextId ≤ id → sget s1.regq id = sget s.regq id) ∧
  (∀ i p lane, lanes[i]? = some lane → p < parts → sget s1.regq (s.nextId + parts * i + p) = some
    { core := c.W.core, warp := c.w, slices := c.G.slices, home := homeOf (s.ctxStand c.W.ctx) (key lane + 8 * p),
      ctx := c.W.ctx, tag := ctxFn c.W.ctx,
      bytes := ((data lane).zipIdx.map (fun e => (key lane + e.2, e.1))).drop (8 * p) |>.take 8 }) ∧
  { s1 with regq := s.regq, nextId := s.nextId, poison := s.poison } = s

/-- A store into the core-store window: scratch bytes and register bytes change at once, the highest lane's value standing
(R39 to R41, R157). -/
def InWindow (s s1 : State) (cells : List (Loc × Byte)) : Prop :=
  (∀ key, s1.byte key = (lastAt cells (fun p => p == .mem key false)).getD (s.byte key)) ∧
  (∀ w T, sget s.warps w = some T → ∃ T', sget s1.warps w = some T' ∧ { T' with v := T.v } = T ∧
    ∀ r lane b, lane < 32 → b < 4 → (T'.vget r lane).extractLsb' (8 * b) 8 =
      (lastAt cells (fun p => p == .reg w r lane b)).getD ((T.vget r lane).extractLsb' (8 * b) 8)) ∧
  { s1 with warps := s.warps, mem := s.mem, poison := s.poison } = s

/-- A write at home by a core: the bytes named change, the last standing, and nothing else of memory but cells of the
function's dirty log (R155, R309). -/
def AtHome (c : Ctx) (s s1 : State) (cells : List (Nat × Byte)) : Prop :=
  (∀ key b, (cells.filter (fun e => e.1 == key)).getLast? = some (key, b) → ¬ LogCell s (ctxFn c.W.ctx) key →
    s1.byte key = b) ∧
  (∀ key, cells.filter (fun e => e.1 == key) = [] → ¬ LogCell s (ctxFn c.W.ctx) key → s1.byte key = s.byte key) ∧
  { s1 with mem := s.mem, owners := s.owners, dirty := s.dirty, carve := s.carve, vfs := s.vfs, poison := s.poison } = s

/-- A store of the active lanes: on plain pages, in the window, and on ordered pages. -/
def StoreRow (i : Instr) (sig : HintSet → Sig) (size : Nat) (l : Ctx → State → List (Nat × DWord))
    (data : Ctx → Nat → List Byte) : Prop :=
  ∀ s c place, s.passes (hinted sig) = some c → Reaches s c .write true size size (l c s) place →
    (∀ key : Nat → Nat, (∀ lane, place lane = (List.range size).map (fun j => .mem (key lane + j) false)) →
      (∀ lane ∈ lanesOf c.act, ∀ j, j < size → isScratch (key lane + j) = false) →
      ∃ t s1, exec i s = .next t ∧ Queued c s s1 size key (data c) ∧ Completes c s1 t Written.none) ∧
    ((∀ lane ∈ lanesOf c.act, (place lane).length = size ∧ ∀ p ∈ place lane, match p with
        | .mem key o => o = false ∧ isScratch key = true
        | .reg _ _ j _ => j < 32) →
      ∃ t s1 W1, exec i s = .next t ∧ InWindow s s1 (cellsOf c place (data c)) ∧ sget s1.warps c.w = some W1 ∧
        Completes { c with W := W1 } s1 t Written.none) ∧
    (∀ key : Nat → Nat, (∀ lane, place lane = (List.range size).map (fun j => .mem (key lane + j) true)) →
      (∀ lane ∈ lanesOf c.act, ∀ j, j < size → isScratch (key lane + j) = false) →
      ∃ t s1, exec i s = .next t ∧
        AtHome c s s1 ((lanesOf c.act).flatMap (fun lane => (data c lane).zipIdx.map (fun e => (key lane + e.2, e.1)))) ∧
        Completes c s1 t Written.none)

end Sys2Proof.Claims

open Sys2Proof Sys2Proof.Machine Sys2Proof.Claims in
/-- R152, R155, R157, R159 and R160. -/
def Obligations.Stores : Prop :=
  ∀ (w g : BitVec 2) (d a i : BitVec 7) (o : BitVec 8),
    let n := 2 ^ w.toNat
    let sig (k : Nat) : HintSet → Sig := fun _ =>
      { Sig.plain with
        g := some g, guard := true, srcs := [(.v a.toNat 2, some 0), (.v d.toNat k, some 2)], imms := 2, cache := true, body := .vec }
    let words (c : Ctx) (lane : Nat) : List Byte := (List.range n).flatMap (fun j => bytesOf 4 (c.W.vget (d.toNat + j) lane).toNat)
    StoreRow (.st w g d a o) (sig n) (4 * n) (fun c _ => lanesAt c (vaddr c a o (4 * n))) words ∧
    StoreRow (.sts w g d a o)
      (fun h => { sig n h with srcs := [(.s a.toNat 2, some 0), (.v d.toNat n, some 2)], body := .no }) (4 * n)
      (fun c s => lanesAt c (saddr c s a o (4 * n))) words ∧
    StoreRow (.st8 g d a i) (sig 1) 1 (fun c _ => lanesAt c (vaddr c a i 1))
      (fun c lane => [(c.W.vget d.toNat lane).setWidth 8]) ∧
    StoreRow (.st16 g d a i) (sig 1) 2 (fun c _ => lanesAt c (vaddr c a i 2))
      (fun c lane => [(c.W.vget d.toNat lane).setWidth 8, ((c.W.vget d.toNat lane) >>> 8).setWidth 8])

namespace Sys2Proof.Claims

open Sys2Proof.Machine

/-- The new value of an atomic (R161, R162), for a location that holds `old`, operand `b`, and `k` for a cas. -/
def newValue (fn t old b k : Nat) : Nat :=
  let n := 8 * atomWidth t
  let num (x : Nat) : Int := if t % 2 = 0 then (BitVec.ofNat n x).toInt else ((BitVec.ofNat n x).toNat : Int)
  let x := b % 2 ^ n
  match fn with
  | 0 => if t = 8 then (f32.addV .rne (f32.read old) (f32.read x)).1 else (old + x) % 2 ^ n
  | 1 => if t = 8 then (f32.pick false old x).1 else if num x < num old then x else old
  | 2 => if t = 8 then (f32.pick true old x).1 else if num old < num x then x else old
  | 3 => old &&& x
  | 4 => old ||| x
  | 5 => old ^^^ x
  | 6 => x
  | _ => if old = x then k % 2 ^ n else old

/-- The lanes' read-modify-writes in ascending order, on memory as a function: old values, and memory after. -/
def inTurn (size : Nat) (key : Nat → Nat) (f : Nat → Nat → Nat) : List Nat → (Nat → Byte) → (Nat → Option Nat) × (Nat → Byte)
  | [], m => (fun _ => none, m)
  | lane :: r, m =>
    let old := numOf ((List.range size).map (fun j => m (key lane + j)))
    let q := inTurn size key f r (fun a => if key lane ≤ a ∧ a < key lane + size then
      BitVec.ofNat 8 (f lane old / 2 ^ (8 * (a - key lane))) else m a)
    (fun k => if k = lane then some old else q.1 k, q.2)

/-- A register or a pair of a lane, as a number, by TYPE code. -/
def operand (c : Ctx) (r lane : Nat) : Nat :=
  if ty c = 2 ∨ ty c = 3 then (c.W.vget2 r lane).toNat else (c.W.vget r lane).toNat

/-- The effect of an atomic fn on memory, and the old values. -/
def atomTurn (c : Ctx) (s : State) (fn : Nat) (d : Nat) (b : BitVec 7) (key : Nat → Nat) : (Nat → Option Nat) × (Nat → Byte) :=
  inTurn (atomWidth (ty c)) key
    (fun lane old => newValue fn (ty c) old (vec c (regs (ty c)) b lane).toNat
      (vec c (regs (ty c)) (BitVec.ofNat 7 (c.h.creg.getD d)) lane).toNat) (lanesOf c.act) s.byte

/-- Memory after the lanes' operations, and nothing else but the memory system's own records (R162, R193, R309). -/
def Performed (c : Ctx) (s s1 : State) (m : Nat → Byte) : Prop :=
  (∀ key, ¬ LogCell s (ctxFn c.W.ctx) key → s1.byte key = m key) ∧
  { s1 with mem := s.mem, owners := s.owners, dirty := s.dirty, carve := s.carve, vfs := s.vfs } = s

/-- Every lane can perform its atomic, at `key`: the core has no store on its way (see OrderedAfterOwnStores). -/
def Atoms (s : State) (c : Ctx) (a : BitVec 7) (key : Nat → Nat) : Prop :=
  ∃ o : Nat → Bool, Reaches s c .both false (atomWidth (ty c)) (atomWidth (ty c)) (lanesAt c (fun lane => c.W.vget2 a.toNat lane))
    (fun lane => (List.range (atomWidth (ty c))).map (fun j => .mem (key lane + j) (o lane))) ∧
    (∀ e ∈ s.regq, e.2.core ≠ c.W.core) ∧
    (∀ lane ∈ lanesOf c.act, ∀ j, j < atomWidth (ty c) → ¬ LogCell s (ctxFn c.W.ctx) (key lane + j))

/-- An atomic that returns the old value, one that acquires when it has (ATOMQ, whose gang's earlier accesses have
completed), and one that returns nothing. -/
def AtomRow (fn : Nat) (types : List Nat) (i : BitVec 2 → BitVec 7 → BitVec 7 → BitVec 7 → Instr) : Prop :=
  ∀ g d a b s c key, s.passes (hinted (atomSig fn types .vec g (some d.toNat) a.toNat b.toNat)) = some c → Atoms s c a key →
    ∃ t s1, exec (i g d a b) s = .next t ∧ Performed c s s1 (atomTurn c s fn d.toNat b key).2 ∧
      Produces c false s1 t (groupOf c d (regs (ty c)) (fun j lane =>
        BitVec.ofNat 32 (((atomTurn c s fn d.toNat b key).1 lane).getD 0 / 2 ^ (32 * j))))
def QueueRow (fn : Nat) (i : BitVec 2 → BitVec 7 → BitVec 7 → BitVec 7 → Instr) : Prop :=
  ∀ g d a b s c key, s.passes (hinted (atomSig fn [0, 1, 2, 3] .no g (some d.toNat) a.toNat b.toNat)) = some c →
    Atoms s c a key → s.storesOut c.w c.G.slices = false → s.drainsOut c.w c.G.slices = false →
    s.loadsOut c.w c.G.slices = false → s.ticketBusy c = false →
    (c.act = 0 → ∃ t, exec (i g d a b) s = .next t ∧ Completes c (s.acquire c.W.core) t Written.none) ∧
    (c.act ≠ 0 → ∃ t s1, exec (i g d a b) s = .next t ∧ Performed c s s1 (atomTurn c s fn d.toNat b key).2 ∧
      Produces c true s1 t (groupOf c d (regs (ty c)) (fun j lane =>
        BitVec.ofNat 32 (((atomTurn c s fn d.toNat b key).1 lane).getD 0 / 2 ^ (32 * j)))))
def RedRow (fn : Nat) (types : List Nat) (i : BitVec 2 → BitVec 7 → BitVec 7 → Instr) : Prop :=
  ∀ g a b s c key, s.passes (hinted (atomSig fn types .vec g none a.toNat b.toNat)) = some c → Atoms s c a key →
    ∃ t s1, exec (i g a b) s = .next t ∧ Performed c s s1 (atomTurn c s fn 0 b key).2 ∧ Completes c s1 t Written.none

end Sys2Proof.Claims

open Sys2Proof Sys2Proof.Machine Sys2Proof.Claims in
/-- R161 to R164: each active lane in ascending order reads and writes its location as one operation, seeing the lanes
below; ATOM and ATOMQ return the old value. -/
def Obligations.Atomics : Prop :=
  let num := [0, 1, 2, 3, 8]
  let any := [0, 1, 2, 3, 5, 7]
  (AtomRow 0 num .atomAdd ∧ AtomRow 1 num .atomMin ∧ AtomRow 2 num .atomMax ∧ AtomRow 3 any .atomAnd ∧ AtomRow 4 any .atomOr ∧
    AtomRow 5 any .atomXor ∧ AtomRow 6 any .atomExch ∧ AtomRow 7 any .atomCas) ∧
  (RedRow 0 num .redAdd ∧ RedRow 1 num .redMin ∧ RedRow 2 num .redMax ∧ RedRow 3 any .redAnd ∧ RedRow 4 any .redOr ∧
    RedRow 5 any .redXor) ∧
  (QueueRow 0 .atomqAdd ∧ QueueRow 6 .atomqExch ∧ QueueRow 7 .atomqCas) ∧
  (∀ (s : State) (id : Nat) (l : Land), sget s.inflight id = some l → l.acquire = true →
    (∃ e ∈ s.inflight, e.1 < id ∧ e.2.warp = l.warp ∧ e.2.memory = true ∧ e.2.slices &&& l.slices ≠ 0) →
    exec (.registerBecomesFull id) s = .next s.tick) ∧
  (∀ (s : State) (c0 : Ctx) (w g : BitVec 2) (d a : BitVec 7) (o : BitVec 8), s.issuing = some c0 →
    let sig := loadSig g d.toNat (2 ^ w.toNat) a.toNat c0.h
    let c := c0.guarded sig
    stallEnd c s.time = none → front c sig = none →
    (∃ e ∈ s.inflight, e.2.warp = c.w ∧ e.2.acquire = true ∧ e.2.slices &&& c.G.slices ≠ 0) →
    exec (.ld w g d a o) s = .next (s.waitAt c))

open Sys2Proof Sys2Proof.Machine Sys2Proof.Claims in
/-- R165 and pref of R160. -/
def Obligations.FencesAndPrefetch : Prop :=
  (∀ s c, s.passes (hinted (fun _ => Sig.plain)) = some c →
    let out := s.storesOut c.w c.G.slices || s.drainsOut c.w c.G.slices || !s.writable c.W.core
    let back := s.loadsOut c.w c.G.slices
    let clean := s.writeBack c.W.core
    (out = false → ∃ t, exec .fenceRel s = .next t ∧ Completes c clean t Written.none) ∧
    (back = false → ∃ t, exec .fenceAcq s = .next t ∧ Completes c (s.acquire c.W.core) t Written.none) ∧
    (out = false → back = false → ∃ t, exec .fenceAr s = .next t ∧ Completes c (clean.acquire c.W.core) t Written.none) ∧
    (out = true → exec .fenceRel s = .next (s.waitAt c) ∧ exec .fenceAr s = .next (s.waitAt c)) ∧
    (back = true → exec .fenceAcq s = .next (s.waitAt c)) ∧
    (out = false → back = true → exec .fenceAr s = .next (clean.waitAt c))) ∧
  (∀ (s : State) (core : Nat),
    let t := s.writeBack core
    (∀ e ∈ t.regq, e.2.core ≠ core) ∧ t.warps = s.warps ∧ t.inflight = s.inflight ∧
    (∀ id (r : Reg), (∀ e ∈ s.regq, e.1 = id → e.2 = r) → r.core ≠ core → sget t.regq id = sget s.regq id) ∧
    (srising s.regq = true → ∀ key, (∀ e ∈ s.regq, e.2.core = core → (∀ x ∈ e.2.bytes, x.1 ≠ key) ∧ ¬ LogCell s e.2.tag key) → t.byte key = s.byte key)) ∧
  (∀ (s : State) (core key : Nat) (x : Carve), key < 2 ^ 64 →
    sget (s.acquire core).carve (carveKey core key) = some x → x.owned = true) ∧
  (∀ (g : BitVec 2) (a i : BitVec 7), ∀ s c, s.passes (hinted (fun _ =>
      { Sig.plain with g := some g, guard := true, srcs := [(.v a.toNat 2, some 0)], imms := 2, cache := true, body := .vec })) = some c →
    ∃ t k, exec (.pref g a i) s = .next t ∧ Completes c { s with carve := k } t Written.none ∧ SameView s c.W.core k)

namespace Sys2Proof.Claims

open Sys2Proof.Machine

/-- No lane of a warp has a request to another device. -/
def NoneAsked (s : State) (w : Nat) : Prop :=
  ∀ e ∈ s.requests, ∀ v m pc lane give dest, e.2.who = .lane v m pc lane give dest → v ≠ w

/-- The faults found at issue over every active lane (R156): misaligned, else non-canonical, else the window where it may not be used;
no lane is performed. -/
def IssueFaults (s : State) (c : Ctx) (i : Instr) (win : Bool) (size : Nat) (l : List (Nat × DWord)) : Prop :=
  let odd := l.filter (fun e => decide (e.2.toNat % size ≠ 0))
  let far := l.filter (fun e => !canonical e.2)
  let off := l.filter (fun e => badWindow s c win size e.2)
  let at_ (cls detail : Nat) (bad : List (Nat × DWord)) : Prop := ∃ t, exec i s = .next (s.trapped c t) ∧
    (t.cls, t.detail, t.completed) = (cls, detail, (0 : Word)) ∧
    (∀ lane, t.faulting.getLsbD lane = true ↔ ∃ e ∈ bad, e.1 = lane ∧ lane < 32) ∧ t.addr = ((bad.head?).map (·.2)).getD 0
  (odd ≠ [] → at_ 0x05 0 odd) ∧ (odd = [] → far ≠ [] → at_ 0x06 0 far) ∧ (odd = [] → far = [] → off ≠ [] → at_ 0x03 0 off)

/-- The faults found lane by lane (R156): with no lane held up or at another device, and some at fault, the trap has the class, detail
and address of the lowest of those, names them all, and names as complete none but lanes that could be performed, of those on ordered
pages (and of an ATOMQ, which goes in the order of its tickets) exactly the ones below. `eff` says what the lanes performed have done. -/
def LaneFaults (s : State) (c : Ctx) (i : Instr) (acc : Acc) (win tick : Bool) (size : Nat) (l : List (Nat × DWord))
    (eff : (Nat → Prop) → State → Prop) : Prop :=
  let fault (e : Nat × DWord) : Prop := ∃ k d, laneAccess s c acc size e.2 = .fault k d
  ∀ low ∈ l, ∀ k d, (∀ e ∈ l, e.2.toNat % size = 0 ∧ canonical e.2 = true ∧ badWindow s c win size e.2 = false) →
    (∀ e ∈ l, fault e ∨ ∃ p, laneAccess s c acc size e.2 = .go p) →
    laneAccess s c acc size low.2 = .fault k d → (∀ e ∈ l, fault e → low.1 ≤ e.1) →
    NoneAsked s c.w → s.requestsOut c.W.core + l.length ≤ 3072 →
    ((∃ e ∈ l, s.onOrdered c.W.ctx e.2 = true) → s.orderedBusy c = false) →
    ∃ t s1, exec i s = .next (s1.trapped c t) ∧ (t.cls, t.detail, t.addr) = (k, d, low.2) ∧
      (∀ lane, t.faulting.getLsbD lane = true ↔ ∃ e ∈ l, e.1 = lane ∧ lane < 32 ∧ fault e) ∧
      (∀ lane, t.completed.getLsbD lane = true → c.redone.getLsbD lane = true ∨ ∃ e ∈ l, e.1 = lane ∧ ¬ fault e) ∧
      (∀ lane, c.redone.getLsbD lane = true → t.completed.getLsbD lane = true) ∧
      (∀ e ∈ l, ∀ p, laneAccess s c acc size e.2 = .go p → orderedLocs p = true ∨ tick = true →
        (t.completed.getLsbD e.1 = true ↔ e.1 < low.1 ∨ c.redone.getLsbD e.1 = true)) ∧
      ((∀ e ∈ s.regq, e.2.core ≠ c.W.core) → eff (fun lane => c.act.getLsbD lane = true ∧ t.completed.getLsbD lane = true) s1)

/-- What the loads of some lanes have done: those lanes of the group hold what they see, and nothing else has changed. -/
def LoadEffect (s : State) (c : Ctx) (size d n : Nat) (l : List (Nat × DWord)) (val : List Byte → Nat → Word)
    (done : Nat → Prop) (s1 : State) : Prop :=
  ∃ (W1 : Warp) (k : SMap Carve) (b : Nat → List Byte), s1 = ({ s with fresh := s.fresh + 1, carve := k } : State).setWarp c.w W1 ∧ SameView s c.W.core k ∧
    { W1 with v := c.W.v } = c.W ∧
    (∀ r lane, lane < 32 → (done lane → d ≤ r → r < d + n → W1.vget r lane = val (b lane) (r - d)) ∧
      (¬ (done lane ∧ d ≤ r ∧ r < d + n) → W1.vget r lane = c.W.vget r lane)) ∧
    ∀ e ∈ l, done e.1 → ∀ p, laneAccess s c .read size e.2 = .go p → SeesAt s c.W.core p (b e.1)

/-- Two places are one byte. -/
def sameByte : Loc → Loc → Bool
  | .mem k _, .mem j _ => k == j
  | x, y => x == y

/-- What the stores of some lanes have done: each place reads for the core as the last of them stored to it, and no other byte of memory
(but a dirty-log cell) or of a register has changed. -/
def StoreEffect (s : State) (c : Ctx) (size : Nat) (l : List (Nat × DWord)) (data : Nat → List Byte)
    (done : Nat → Prop) (s1 : State) : Prop :=
  ∀ cells : List (Loc × Byte), (∃ f : Nat → List Loc, (∀ e ∈ l, laneAccess s c .write size e.2 = .go (f e.1) ∨ ¬ done e.1) ∧
      ∃ m : List Nat, m = (l.map (·.1)).filter (fun lane => open Classical in decide (done lane)) ∧
        cells = m.flatMap (fun lane => (f lane).zip (data lane))) →
    (∀ e, (cells.filter (fun x => sameByte x.1 e.1)).getLast? = some e → (∀ key o, e.1 = .mem key o → ¬ LogCell s (ctxFn c.W.ctx) key) →
      (∀ w r lane b, e.1 = .reg w r lane b → ∃ T, sget s.warps w = some T) → s1.locByte c.W.core e.1 = e.2) ∧
    (∀ key, (∀ e ∈ cells, ∀ o, e.1 ≠ .mem key o) → ¬ LogCell s (ctxFn c.W.ctx) key → s1.byte key = s.byte key) ∧
    (∀ v V, sget s.warps v = some V → ∃ U, sget s1.warps v = some U ∧ { U with v := V.v } = V ∧
      ∀ r lane b, lane < 32 → b < 4 → (∀ e ∈ cells, e.1 ≠ .reg v r lane b) →
        (U.vget r lane).extractLsb' (8 * b) 8 = (V.vget r lane).extractLsb' (8 * b) 8) ∧
    { s1 with mem := s.mem, regq := s.regq, nextId := s.nextId, poison := s.poison, owners := s.owners, dirty := s.dirty,
              carve := s.carve, vfs := s.vfs, warps := s.warps, fresh := s.fresh } = s

/-- What the atomics of some lanes have done: their operations in ascending order, the old values in the group, where there is one. -/
def AtomEffect (s : State) (c : Ctx) (fn : Nat) (d : Option Nat) (b : BitVec 7) (l : List (Nat × DWord))
    (done : Nat → Prop) (s1 : State) : Prop :=
  ∀ (key : Nat → Nat) (m : Word), (∀ lane, m.getLsbD lane = true ↔ lane < 32 ∧ done lane) →
    (∀ e ∈ l, done e.1 → ∃ o, laneAccess s c .both (atomWidth (ty c)) e.2 =
      .go ((List.range (atomWidth (ty c))).map (fun j => .mem (key e.1 + j) o))) →
    (∀ lane, done lane → ∀ j, j < atomWidth (ty c) → ¬ LogCell s (ctxFn c.W.ctx) (key lane + j)) →
    let r := atomTurn { c with act := m } s fn (d.getD 0) b key
    (∀ k, ¬ LogCell s (ctxFn c.W.ctx) k → s1.byte k = r.2 k) ∧
    (∃ W1, sget s1.warps c.w = some W1 ∧ { W1 with v := c.W.v } = c.W ∧ ∀ x lane, lane < 32 →
      (∀ y, d = some y → done lane → y ≤ x → x < y + regs (ty c) →
        W1.vget x lane = BitVec.ofNat 32 ((r.1 lane).getD 0 / 2 ^ (32 * (x - y)))) ∧
      ((∀ y, d = some y → ¬ (done lane ∧ y ≤ x ∧ x < y + regs (ty c))) → W1.vget x lane = c.W.vget x lane)) ∧
    { s1 with mem := s.mem, owners := s.owners, dirty := s.dirty, carve := s.carve, vfs := s.vfs, warps := s.warps,
              fresh := s.fresh } = s ∧ ∀ v, v ≠ c.w → sget s1.warps v = sget s.warps v

/-- The faults of a load. -/
def LoadFaults (i : Instr) (sig : HintSet → Sig) (size d n : Nat) (l : Ctx → State → List (Nat × DWord))
    (val : List Byte → Nat → Word) : Prop :=
  ∀ s c, s.passes (hinted sig) = some c → (∀ lane, c.inCapsule lane = false) →
    IssueFaults s c i true size (l c s) ∧
    LaneFaults s c i .read true false size (l c s) (LoadEffect s c size d n (l c s) val)

/-- The faults of a store. -/
def StoreFaults (i : Instr) (sig : HintSet → Sig) (size : Nat) (l : Ctx → State → List (Nat × DWord))
    (data : Ctx → Nat → List Byte) : Prop :=
  ∀ s c, s.passes (hinted sig) = some c → (∀ lane, c.inCapsule lane = false) →
    IssueFaults s c i true size (l c s) ∧
    LaneFaults s c i .write true false size (l c s) (StoreEffect s c size (l c s) (data c))

/-- The faults of an atomic: ATOM, RED, and ATOMQ once it may make its accesses. -/
def AtomFaults (fn : Nat) (types : List Nat) (body : BodyRule) (d : Option Nat) (tick : Bool) (i : Instr) (g : BitVec 2)
    (a b : BitVec 7) : Prop :=
  ∀ s c, s.passes (hinted (atomSig fn types body g d a.toNat b.toNat)) = some c → (∀ lane, c.inCapsule lane = false) →
    let l := lanesAt c (fun lane => c.W.vget2 a.toNat lane)
    IssueFaults s c i false (atomWidth (ty c)) l ∧
    ((tick = true → s.storesOut c.w c.G.slices = false ∧ s.drainsOut c.w c.G.slices = false ∧
        (∀ e ∈ s.regq, e.2.core ≠ c.W.core) ∧ s.ticketBusy c = false) →
      LaneFaults s c i .both false tick (atomWidth (ty c)) l (AtomEffect s c fn d b l))

end Sys2Proof.Claims

open Sys2Proof Sys2Proof.Machine Sys2Proof.Claims in
/-- R156 and R58: misaligned, then non-canonical, then window, over every active lane, no lane performed; then, where accesses fault
after issue, class and detail of the lowest such lane, all such lanes named, some of the other lanes complete (which is open), and what those
have done. Capsule lanes apart. -/
def Obligations.AddressFaults : Prop :=
  ∀ (w g : BitVec 2) (d a b : BitVec 7) (o : BitVec 8),
    let n := 2 ^ w.toNat
    let wide (x : List Byte) (j : Nat) : Word := BitVec.ofNat 32 (numOf ((x.drop (4 * j)).take 4))
    let narrow (size : Nat) (f : Nat → Int) (x : List Byte) (_ : Nat) : Word := BitVec.ofInt 32 (f (numOf (x.take size)))
    let words (c : Ctx) (lane : Nat) : List Byte := (List.range n).flatMap (fun j => bytesOf 4 (c.W.vget (d.toNat + j) lane).toNat)
    let scalar (h : Sig) : Sig := { h with srcs := (.s a.toNat 2, some 0) :: h.srcs.drop 1, body := .no }
    let any := [0, 1, 2, 3, 5, 7]
    LoadFaults (.ld w g d a o) (loadSig g d.toNat n a.toNat) (4 * n) d.toNat n (fun c _ => lanesAt c (vaddr c a o (4 * n))) wide ∧
    LoadFaults (.lds w g d a o) (fun h => scalar (loadSig g d.toNat n a.toNat h)) (4 * n) d.toNat n
      (fun c s => lanesAt c (saddr c s a o (4 * n))) wide ∧
    LoadFaults (.ld8 g d a b) (loadSig g d.toNat 1 a.toNat) 1 d.toNat 1 (fun c _ => lanesAt c (vaddr c a b 1))
      (narrow 1 (fun x => if x < 128 then (x : Int) else x - 256)) ∧
    LoadFaults (.ld8n g d a b) (loadSig g d.toNat 1 a.toNat) 1 d.toNat 1 (fun c _ => lanesAt c (vaddr c a b 1))
      (narrow 1 (fun x => x)) ∧
    LoadFaults (.ld16 g d a b) (loadSig g d.toNat 1 a.toNat) 2 d.toNat 1 (fun c _ => lanesAt c (vaddr c a b 2))
      (narrow 2 (fun x => if x < 32768 then (x : Int) else x - 65536)) ∧
    LoadFaults (.ld16n g d a b) (loadSig g d.toNat 1 a.toNat) 2 d.toNat 1 (fun c _ => lanesAt c (vaddr c a b 2))
      (narrow 2 (fun x => x)) ∧
    (∀ s c, s.passes (hinted (loadSig g d.toNat 1 a.toNat)) = some c → (∀ lane, c.inCapsule lane = false) →
      let l := (lanesAt c (vaddr c a b 4)).take 1
      IssueFaults s c (.ldbc g d a b) true 4 l ∧
      LaneFaults s c (.ldbc g d a b) .read true false 4 l (fun _ s1 => s1 = { s with fresh := s.fresh + 1 })) ∧
    StoreFaults (.st w g d a o) (storeSig g d.toNat n a.toNat) (4 * n) (fun c _ => lanesAt c (vaddr c a o (4 * n))) words ∧
    StoreFaults (.sts w g d a o) (fun h => scalar (storeSig g d.toNat n a.toNat h)) (4 * n)
      (fun c s => lanesAt c (saddr c s a o (4 * n))) words ∧
    StoreFaults (.st8 g d a b) (storeSig g d.toNat 1 a.toNat) 1 (fun c _ => lanesAt c (vaddr c a b 1))
      (fun c lane => [(c.W.vget d.toNat lane).setWidth 8]) ∧
    StoreFaults (.st16 g d a b) (storeSig g d.toNat 1 a.toNat) 2 (fun c _ => lanesAt c (vaddr c a b 2))
      (fun c lane => [(c.W.vget d.toNat lane).setWidth 8, ((c.W.vget d.toNat lane) >>> 8).setWidth 8]) ∧
    (∀ e ∈ [(0, atomTypes 0, Instr.atomAdd g d a b), (1, atomTypes 1, .atomMin g d a b), (2, atomTypes 2, .atomMax g d a b), (3, any, .atomAnd g d a b),
        (4, any, .atomOr g d a b), (5, any, .atomXor g d a b), (6, any, .atomExch g d a b), (7, any, .atomCas g d a b)],
      AtomFaults e.1 e.2.1 .vec (some d.toNat) false e.2.2 g a b) ∧
    (∀ e ∈ [(0, atomTypes 0, Instr.redAdd g a b), (1, atomTypes 1, .redMin g a b), (2, atomTypes 2, .redMax g a b), (3, any, .redAnd g a b),
        (4, any, .redOr g a b), (5, any, .redXor g a b)], AtomFaults e.1 e.2.1 .vec none false e.2.2 g a b) ∧
    (∀ e ∈ [(0, Instr.atomqAdd g d a b), (6, .atomqExch g d a b), (7, .atomqCas g d a b)],
      AtomFaults e.1 [0, 1, 2, 3] .no (some d.toNat) true e.2 g a b)

open Sys2Proof Sys2Proof.Machine Sys2Proof.Claims in
/-- R193 and R319: a write at home is of the bytes it names, the last of several to one address standing; no other byte
changes but those of the function's dirty log (R309). R158 and R195: before an access of a gang is performed at home, the core's stores on their way to that home, up to the
last that touches its bytes or that the gang's slices issued, are registered in order, and the core keeps no older copy of them (R189); a
REGISTRATION writes exactly its bytes, after the rows of the slices' earlier drains (R182). -/
def Obligations.OrderedAfterOwnStores : Prop :=
  (∀ (s : State) (tag : Nat) (l : List (Nat × Byte)) (key : Nat),
    (∀ e, (l.filter (fun e => e.1 == key)).getLast? = some e → (s.homeWrite tag l).byte key = e.2) ∧
    (l.filter (fun e => e.1 == key) = [] → ¬ LogCell s tag key → (s.homeWrite tag l).byte key = s.byte key) ∧
    (s.homeWrite tag l).warps = s.warps ∧ (s.homeWrite tag l).regq = s.regq) ∧
  (∀ (c : Ctx) (s : State) (key : Nat), isScratch key = false →
    let home := homeOf (s.ctxStand c.W.ctx) key
    let mine : List (Nat × Reg) := s.regq.filter (fun e => e.2.core == c.W.core && e.2.home == home && decide (e.1 < s.nextId))
    let hits : List (Nat × Reg) := mine.filter (fun e =>
      (e.2.warp == c.w && !(e.2.slices &&& c.G.slices == 0)) || e.2.bytes.any (fun b => b.1 == key))
    let first := match hits.getLast? with
      | none => []
      | some (h : Nat × Reg) => (mine.map (fun (e : Nat × Reg) => e.1)).filter (fun id => decide (id ≤ h.1))
    let t := first.foldl State.register s
    readLocs c s [.mem key true] = ([t.byte key], t.refresh c.W.core key 1)) ∧
  (∀ (s : State) (core key n k : Nat) (x : Carve), k < 2 ^ 64 → key ≤ k → k < key + n →
    sget (s.refresh core key n).carve (carveKey core k) = some x → x.owned = true) ∧
  (∀ (s : State) (id : Nat) (r : Reg), sget s.regq id = some r →
    let held : Prop := (∃ e ∈ s.regq, e.1 < id ∧ e.2.core = r.core ∧
      ((e.2.warp = r.warp ∧ e.2.slices &&& r.slices ≠ 0 ∧ e.2.home = r.home) ∨ ∃ x ∈ e.2.bytes, ∃ y ∈ r.bytes, x.1 = y.1)) ∨
      s.rowsBefore { core := r.core, w := r.warp, slices := r.slices } r.ctx r.home id = true
    (held → exec (.registration id) s = .next s.tick) ∧ (¬ held → ∃ t, exec (.registration id) s = .next t ∧
    (∀ key b, (r.bytes.filter (fun (e : Nat × Byte) => e.1 == key)).getLast? = some (key, b) → t.byte key = b) ∧
    (∀ key, r.bytes.filter (fun (e : Nat × Byte) => e.1 == key) = [] → ¬ LogCell s r.tag key → t.byte key = s.byte key) ∧
    (∀ k, sget t.regq k = if k = id then none else sget s.regq k) ∧
    (∀ key b, (r.bytes.filter (fun (e : Nat × Byte) => e.1 == key)).getLast? = some (key, b) → sget t.owners key = some (r.core, r.tag)) ∧
    t.warps = s.warps ∧ t.inflight = s.inflight)) ∧
  (∀ (s : State) (p : Party) (ctx home limit : Nat), s.rowsBefore p ctx home limit = true →
    ∃ e ∈ s.cmds, e.1 < limit ∧ e.2.drain = true ∧ e.2.warp = p.w ∧ e.2.slices &&& p.slices ≠ 0 ∧ e.2.todo ≠ [])

namespace Sys2Proof.Claims

open Sys2Proof.Machine

/-! ### Barriers (R38, R100, R166 to R168) -/

/-- The gang's slices arrive at the barrier of a level and number: `s1` is `s` with the arrival entered in the barrier
numbered `id`, made now where it was never used, in its phase `phase`. -/
def Joins (c : Ctx) (s s1 : State) (level num : Nat) (part : List (Nat × Bool × Word)) (id phase : Nat) : Prop :=
  ∃ inst b0, s.barrierKey c.W level num = some inst ∧
    ((s.findBarrier level inst num = some (id, b0) ∧ s1.nextId = s.nextId) ∨
      (s.findBarrier level inst num = none ∧ id = s.nextId ∧ s1.nextId = s.nextId + 1 ∧
        b0 = Barrier.unused level inst num)) ∧
    phase = b0.phase ∧
    (∀ k, sget s1.barriers k = if k = id then
        some { b0 with
          arrived := sput b0.arrived c.w (zget 0 b0.arrived c.w ||| c.G.slices), parts := b0.parts ++ part }
      else sget s.barriers k) ∧
    sget s1.warps c.w = some { c.W with arrived := sput c.W.arrived id phase } ∧
    (∀ v, v ≠ c.w → sget s1.warps v = sget s.warps v) ∧
    { s1 with barriers := s.barriers, nextId := s.nextId, warps := s.warps } = s

/-- The gang may arrive: its stores are registered, its drains done, no store of its core waits for a drain row (R182), and none of
its slices stands in the barrier's current phase (R166, R167). -/
def MayJoin (c : Ctx) (s : State) (level num : Nat) : Prop :=
  s.storesOut c.w c.G.slices = false ∧ s.drainsOut c.w c.G.slices = false ∧ s.writable c.W.core = true ∧
    ∀ inst id b, s.barrierKey c.W level num = some inst → s.findBarrier level inst num = some (id, b) →
      zget 0 b.arrived c.w &&& c.G.slices = 0

/-- The gang has arrived in the phase given of a barrier and waits at its instruction. -/
def Waits (c : Ctx) (t : State) (id phase : Nat) : Prop :=
  ∃ W, sget t.warps c.w = some W ∧ W.slices = c.W.slices ∧ W.v = c.W.v ∧ W.p = c.W.p ∧ W.flags = c.W.flags ∧
    ∀ g, W.gangAt c.j = some g → g.pend = .barrier id phase ∧ g.wait = some t.progress ∧ g.s = c.G.s ∧ g.q = c.G.q

/-- The phase of a barrier is over. -/
def Over (s : State) (id phase : Nat) : Prop := ∃ b, sget s.barriers id = some b ∧ phase < b.phase

end Sys2Proof.Claims

open Sys2Proof Sys2Proof.Machine Sys2Proof.Claims in
/-- R166, R167, R168 and R100: a release comes first, which writes back what the core has on its way; MEET.ARR arrives and goes on; MEET and MEET.RED arrive and wait, and complete, acquiring,
once their phase is over, MEET.RED with the combined value; MEET.WAIT completes once the phase the warp last arrived in is
over, and where it has arrived in none (assumption 16); an absent barrier is an illegal instruction. -/
def Obligations.BarrierInstructions : Prop :=
  ∀ (l : BitVec 3) (b : BitVec 4) (o : BitVec 3) (sr : BitVec 1) (r : BitVec 7) (s : State) (c : Ctx),
    let red : Ctx → State → Sig := fun c s =>
      { meetSig l b c s with
        srcs := [(.s r.toNat 1, some 0)], dsts := [.s r.toNat 1]
        legal := (s.barrierKey c.W l.toNat b.toNat).isSome && decide (o.toNat ≤ 4) && (sr == 0 || decide (o.toNat < 2)) }
    let back := s.loadsOut c.w c.G.slices = false
    let clean := s.writeBack c.W.core
    (s.passes (meetSig l b) = some c → MayJoin c s l.toNat b.toNat →
      (∃ t s1 W1 id phase, exec (.meetArr l b) s = .next t ∧ Joins c clean s1 l.toNat b.toNat [] id phase ∧
        sget s1.warps c.w = some W1 ∧ Completes { c with W := W1 } s1 t Written.none) ∧
      ((∀ i p, c.G.pend ≠ .barrier i p) → ∃ t s1 id phase, exec (.meet l b) s = .next t ∧
        Joins c clean s1 l.toNat b.toNat [] id phase ∧ Waits c t id phase ∧ t.barriers = s1.barriers ∧ t.mem = clean.mem)) ∧
    (s.passes red = some c → MayJoin c s l.toNat b.toNat → (∀ i p, c.G.pend ≠ .barrier i p) →
      ∃ t s1 id phase, exec (.meetRed l b o sr r) s = .next t ∧
        Joins c clean s1 l.toNat b.toNat [(o.toNat, sr == 1, c.sread s r.toNat)] id phase ∧ Waits c t id phase ∧
        t.barriers = s1.barriers ∧ t.mem = clean.mem) ∧
    (∀ id phase, c.G.pend = .barrier id phase → Over s id phase → back →
      (s.passes (meetSig l b) = some c → ∃ t, exec (.meet l b) s = .next t ∧ Completes c (s.acquire c.W.core) t Written.none) ∧
      (s.passes red = some c → ∀ B, sget s.barriers id = some B → ∃ t, exec (.meetRed l b o sr r) s = .next t ∧
        Completes c (s.acquire c.W.core) t (Written.scal r.toNat 1 (B.result.setWidth 64)))) ∧
    (s.passes (meetSig l b) = some c → back → (∀ id phase, c.G.pend = .barrier id phase → Over s id phase) →
      ∀ inst, s.barrierKey c.W l.toNat b.toNat = some inst →
      ((∀ i p, c.G.pend ≠ .barrier i p) →
        ∀ id B, s.findBarrier l.toNat inst b.toNat = some (id, B) → ∀ phase, sget c.W.arrived id = some phase → Over s id phase) →
      ∃ t, exec (.meetWait l b) s = .next t ∧ Completes c (s.acquire c.W.core) t Written.none) ∧
    (∀ c0, s.issuing = some c0 → stallEnd c0 s.time = none → (s.barrierKey c0.W l.toNat b.toNat) = none →
      exec (.meet l b) s = .next (s.trapped c0 (Trap.of 1 0)) ∧
      exec (.meetArr l b) s = .next (s.trapped c0 (Trap.of 1 0)) ∧
      exec (.meetWait l b) s = .next (s.trapped c0 (Trap.of 1 0)) ∧
      exec (.meetRed l b o sr r) s = .next (s.trapped c0 (Trap.of 1 0))) ∧
    (s.passes (fun _ _ => Sig.plain) = some c → (∃ e ∈ s.inflight, e.2.warp = c.w ∧ e.2.mayFlag = true) →
      exec .tfence s = .next (s.waitAt c)) ∧
    (s.passes (fun _ _ => Sig.plain) = some c → (∀ e ∈ s.inflight, e.2.warp = c.w → e.2.mayFlag = false) →
      let f := field c.W.flags.toNat 0 9 &&& field c.W.flags.toNat 16 9
      (f = 0 → ∃ t, exec .tfence s = .next t ∧ Completes c s t Written.none) ∧
      (f ≠ 0 → exec .tfence s = .next (s.trapped c (Trap.of 0x20 f))))

namespace Sys2Proof.Claims

open Sys2Proof.Machine

/-- The reduction of the contributions of a phase, where all are of one op and sign (R168). -/
def reduced (op : Nat) (signed : Bool) (l : List Word) : Word :=
  let v (x : Word) : Int := if signed then x.toInt else (x.toNat : Int)
  match op with
  | 0 => l.foldl (fun a x => if v a < v x then x else a) (if signed then BitVec.intMin 32 else 0)
  | 1 => l.foldl (fun a x => if v x < v a then x else a) (if signed then BitVec.intMax 32 else BitVec.allOnes 32)
  | 2 => BitVec.ofNat 32 ((l.map (·.toNat)).sum)
  | 3 => l.foldl (· &&& ·) (BitVec.allOnes 32)
  | _ => l.foldl (· ||| ·) 0

/-- Slice `j` of a warp that has not ended is unexited. -/
def liveSlice (s : State) (w j : Nat) : Prop :=
  j < 8 ∧ ∃ W, sget s.warps w = some W ∧ W.ended = false ∧ (W.slice j).exited = false

/-- A barrier's phase has turned, with those it is one with in a device group, before the packets of other devices that waited for it are
taken: each number has risen, no arrival is left, the result is the reduction of like contributions, and of the warps only the readiness of
parked ones has changed. -/
def PhaseTurned (s u : State) (id : Nat) (b : Barrier) : Prop :=
  let all := (id, b) :: s.others b
  (∀ e ∈ all, ∃ B, sget u.barriers e.1 = some B ∧ B.phase = e.2.phase + 1 ∧ B.arrived = [] ∧ B.packets = [] ∧ B.parts = [] ∧
    (∀ op sg, s.partsOf b ≠ [] → (∀ x ∈ s.partsOf b, x.1 = op ∧ x.2.1 = sg) → B.result = reduced op sg ((s.partsOf b).map (·.2.2)))) ∧
  (∀ k, (∀ e ∈ all, e.1 ≠ k) → sget u.barriers k = sget s.barriers k) ∧
  (∀ w W, sget s.warps w = some W → ∃ V, sget u.warps w = some V ∧ { V with residency := W.residency, urgent := W.urgent } = W) ∧
  { u with barriers := s.barriers, warps := s.warps, fresh := s.fresh, nextId := s.nextId } = s

/-- No link on the path of a member of a barrier's phase went down in it (R324). -/
def Whole (s : State) (b : Barrier) : Prop := b.broken = false ∧ ∀ e ∈ s.others b, e.2.broken = false

end Sys2Proof.Claims

open Sys2Proof Sys2Proof.Machine Sys2Proof.Claims in
/-- R38, R166, R168 and R204: a phase ends when every member has arrived, over several cores when the packets have; its end
gives the combined value and begins the next phase with no arrivals; a packet stands once for a warp that has arrived. R324: in a
device group a member reports to the root, and the root releases the others; a packet that comes before it can be taken is kept, and a
phase in which a link went down ends no more. The forms of the packets are assumption 30; that one report stands for a member, that early packets are
kept, and which link is taken, assumption 52. -/
def Obligations.BarrierPhases : Prop :=
  ∀ (s : State) (id : Nat) (b : Barrier), sget s.barriers id = some b → srising s.barriers = true →
    (¬ Whole s b → exec (.barrierRelease id) s = .next s.tick) ∧
    (Whole s b → b.arrived ≠ [] ∨ b.packets ≠ [] → s.phaseFull b = true → s.report b = none →
      (∀ x, s.groupBarrier b = some x → s.rootDevice x.2.2.1 ≠ s.ownDevice) →
      ∃ u, PhaseTurned s u id b ∧ exec (.barrierRelease id) s = .next u.takeEarly.tick ∧ (s.early = [] → u.takeEarly = u)) ∧
    ((b.arrived = [] ∧ b.packets = []) ∨ s.phaseFull b = false → s.report b = none →
      exec (.barrierRelease id) s = .next s.tick) ∧
    (∀ k p, Whole s b → s.report b = some (k, p) → ∃ t, exec (.barrierRelease id) s = .next t ∧
      sget t.barriers id = some { b with packets := b.packets ++ [remoteMember s.ownDevice] } ∧ t.warps = s.warps ∧
      if (s.link k).phase = 2 ∧ (s.link k).room = true ∧ (s.link k).waiting = [] then
        .flit k (flitOf (s.link k).sendSeq.toNat ((s.link k).recvSeq - 1).toNat (Config.flitHead (s.fresh + 1)) [p]) ∈ t.outbox
      else (t.link k).waiting = (s.link k).waiting ++ [p.bytes]) ∧
    (∀ g ph ctx gone, Whole s b → s.groupBarrier b = some (g, ph, ctx, gone) → s.rootDevice ctx = s.ownDevice → s.early = [] →
      b.arrived ≠ [] ∨ b.packets ≠ [] → s.phaseFull b = true →
      (∀ d ∈ s.groupDevices ctx, d ≠ s.ownDevice → gone.contains (d + 16 * ph) = false → s.groupLink ctx d ≠ none) →
      ∃ t B, exec (.barrierRelease id) s = .next t ∧ sget t.barriers id = some B ∧ B.phase = b.phase + 1 ∧ B.arrived = [] ∧
        (∀ d ∈ s.groupDevices ctx, d ≠ s.ownDevice → gone.contains (d + 16 * ph) = false → ∃ k m, s.groupLink ctx d = some k ∧
          ((∃ f, .flit k f ∈ t.outbox ∧ Packet.read m ∈ flitPackets f) ∨ m ∈ (t.link k).waiting) ∧ (Packet.read m).kind = 5 ∧
          (Packet.read m).tag = b.num % 2 ^ 32 ∧ (Packet.read m).type = if s.partsOf b = [] then 3 else 4)) ∧
    (∀ blk B, b.level = 4 → b.inst = [blk] → sget s.blocks blk = some B → B.cores.length = 1 →
      (s.phaseFull b = true ↔ ∀ w ∈ B.members,
        (∀ j, liveSlice s w j → (zget 0 b.arrived w).getLsbD j = true) ∧
        (∀ e ∈ s.regq, e.2.warp = w → ∀ j, e.2.slices.getLsbD j = true → liveSlice s w j) ∧
        (∀ e ∈ s.cmds, e.2.warp = w → e.2.drain = true → ∀ j, e.2.slices.getLsbD j = true → liveSlice s w j) ∧
        ((∃ j, liveSlice s w j) ∨ ∀ e ∈ s.steps, e.2.warp ≠ w))) ∧
    (∀ w, s.isWide b = true → (sget b.arrived w).isSome = true → s.warpArrived b w = true → b.packets.contains w = false →
      ∃ t, exec (.barrierPacket id w) s = .next t ∧ sget t.barriers id = some { b with packets := b.packets ++ [w] } ∧
        (∀ k, k ≠ id → sget t.barriers k = sget s.barriers k) ∧
        { t with barriers := s.barriers, progress := s.progress } = s) ∧
    (∀ w, b.packets.contains w = true → exec (.barrierPacket id w) s = .next s.tick) ∧
    (∀ (dev : Nat) (p : Packet), Packet.read p.bytes = p → s.early = [] → s.roots = [] →
      let t := s.remoteArrive dev p
      (s.groupGroves p.group = [] → t = { s with early := [(dev, p.bytes)] }) ∧
      (∀ g G, s.groupGroves p.group = [(g, G)] → sget s.groves g = some G → p.other < 2 → p.other = G.phase →
        G.gone.contains (dev + 16 * p.other) = false →
        (p.type = 5 → (sget t.groves g).map (·.gone) = some (G.gone ++ [dev + 16 * p.other]) ∧ t.early = []) ∧
        (p.type ≠ 5 → (∀ i x, s.findBarrier 7 [g, p.other] p.tag = some (i, x) → x.packets.contains (remoteMember dev) = false) →
          t.early = [] ∧ ∃ i x, ((s.findBarrier 7 [g, p.other] p.tag = some (i, x)) ∨
              (s.findBarrier 7 [g, p.other] p.tag = none ∧ i = s.nextId ∧ x.packets = [] ∧ x.arrived = [])) ∧
            ∃ y, sget t.barriers i = some y ∧ y.packets = x.packets ++ [remoteMember dev] ∧ y.arrived = x.arrived)))

namespace Sys2Proof.Claims

open Sys2Proof.Machine

/-! ### Tiles (R170 to R182) -/

/-- Tile `x` of a block is now `t`, and no other tile or block has changed. -/
def TileIs (s s1 : State) (b x : Nat) (t : Tile) : Prop :=
  ∃ B B', sget s.blocks b = some B ∧ sget s1.blocks b = some B' ∧
    (∀ k, sget B'.tiles k = if k = x then some t else sget B.tiles k) ∧ { B' with tiles := B.tiles } = B ∧
    ∀ k, k ≠ b → sget s1.blocks k = sget s.blocks k

/-- The states in which a command of a tile is accepted (R173). -/
def Accepts (t : Tile) (drain gather : Bool) : Prop :=
  if drain = true then t.state = .ready ∨ t.state = .draining
  else t.state = .empty ∨ (t.state = .filling ∧ gather = true) ∨ (t.state = .ready ∧ t.readers = 0)

/-- The rows of a fill at addresses on pages of this device or the host that are not ordered: their bytes are those the core
sees, and reading them changes nothing (R182). -/
def PlainRows (s : State) (c : Ctx) (n : Nat) (rows : List (Nat × DWord)) : Prop :=
  ∀ e ∈ rows, ∀ parts, s.rowAccess c.W.ctx c.W.core false e.2 n = .go parts → ∀ p ∈ parts, p.2.1 = false

/-- The places of a row's bytes on pages that are not ordered. -/
def placesOf (parts : List (Nat × Bool × Nat)) : List Loc :=
  parts.flatMap (fun p => (List.range p.2.2).map (fun i => Loc.mem (p.1 + i) false))

/-- The pairs of R177; and a plane tile of an odd number of groups has no rows of whole Palush blocks in memory (assumption 17). -/
def MayConvert (drain : Bool) (mem : Nat) (t : Tile) : Prop :=
  ((mem = t.fmt ∧ (t.plane = false ∨ t.fmt ∈ [16, 17, 18, 19, 6])) ∨
    (drain = false ∧ t.fmt = 19 ∧ mem ∈ [9, 10, 11, 12]) ∨ (drain = false ∧ t.fmt ∈ [16, 17, 18] ∧ mem ∈ [8, 9, 10, 11, 12]) ∨
    (drain = true ∧ t.fmt = 8 ∧ t.plane = false ∧ mem ∈ [9, 10])) ∧
  ¬ (mem ∈ [16, 17, 18] ∧ t.k % 32 ≠ 0)

/-- The state once a copy has read its rows: a drain reads none, a fill reads now what it can, as its gang's loads, each row
after those before it (R182). -/
def rowsSeen (s : State) (c : Ctx) (drain : Bool) (n : Nat) (rows : List (Nat × DWord)) : List (Nat × List Byte) × State :=
  if drain then ([], s) else s.readRows c.party c.W.ctx n rows

/-- The command of a tile's rows that an accepted copy leaves in its core's queue (R174, R182). -/
structure Commands (s s1 : State) (c : Ctx) (b x : Nat) (t : Tile) (drain gather : Bool) (fmt : Nat)
    (rows : List (Nat × DWord)) : Prop where
  cmd : ∃ k, sget s1.cmds s.nextId = some k ∧
    (k.core, k.block, k.tile, k.warp, k.slices, k.drain, k.fmt, k.size, k.todo, k.values, k.fault) =
      (c.W.core, b, x, c.w, c.G.slices, drain, fmt, memRowBytes fmt t.k, rows, [], none) ∧
    k.source = (rowsSeen s c drain (memRowBytes fmt t.k) rows).1 ∧
    (drain = false → PlainRows s c (memRowBytes fmt t.k) rows → ∀ e ∈ rows, ∀ parts,
      s.rowAccess c.W.ctx c.W.core false e.2 (memRowBytes fmt t.k) = .go parts → (∀ p ∈ parts, isRemote p.1 = false) →
        ∃ b, (e.1, b) ∈ k.source ∧ SeesAt s c.W.core (placesOf parts) b)
  others : ∀ k, k ≠ s.nextId → sget s1.cmds k = sget s.cmds k
  tile : TileIs s s1 b x
    { t with
      state := if drain = true then .draining else .filling, cmds := t.cmds + 1
      landed := if drain = true ∨ (gather = true ∧ t.state = .filling) then t.landed else 0 }
  seen : drain = true ∨ PlainRows s c (memRowBytes fmt t.k) rows → ∃ m,
    (rowsSeen s c drain (memRowBytes fmt t.k) rows).2 = { s with carve := m } ∧ SameView s c.W.core m
  rest : s1.nextId = s.nextId + 1 ∧ { s1 with cmds := s.cmds, nextId := s.nextId, blocks := s.blocks } =
    (rowsSeen s c drain (memRowBytes fmt t.k) rows).2

/-- A copy instruction: its rows' addresses in order of the faults, then the tile's, then the command (R156, R173 to R176,
R181). -/
def CopyRow (i : Instr) (sig : Ctx → State → Sig) (x : Nat) (drain gather : Bool)
    (rows : Ctx → State → Tile → Nat → List (Nat × DWord)) : Prop :=
  (∀ s c, s.issuing = some c → stallEnd c s.time = none →
    (∀ t, s.tileOf c.W x = some t → ¬ MayConvert drain (c.h.typeOr t.fmt) t) →
    exec i s = .next (s.trapped c (Trap.of 0x01 0))) ∧
  ∀ s c b B t, s.passes sig = some c → s.blockOf c.W = some (b, B) → s.tileOf c.W x = some t →
    let fmt := c.h.typeOr t.fmt
    let l := rows c s t fmt
    let trap (cls : Nat) (a : DWord) : Prop := ∃ f, exec i s = .next (s.trapped c f) ∧ f.cls = cls ∧ f.addr = a
    let odd := l.filter (fun e => decide (e.2.toNat % 16 ≠ 0))
    let far := l.filter (fun e => !canonical e.2)
    let win := l.filter (fun e => inWindow e.2)
    MayConvert drain fmt t ∧
    (l ≠ [] → (∀ e ∈ odd.head?, trap 0x05 e.2) ∧ (odd = [] → ∀ e ∈ far.head?, trap 0x06 e.2) ∧
      (odd = [] → far = [] → ∀ e ∈ win.head?, trap 0x03 e.2) ∧
      (odd = [] → far = [] → win = [] →
        ((∃ e ∈ l, t.rows ≤ e.1) → trap 0x11 0) ∧
        ((∀ e ∈ l, e.1 < t.rows) → t.fault = true → trap 0x12 t.faultAddr) ∧
        ((∀ e ∈ l, e.1 < t.rows) → t.fault = false →
          let held := drain = false ∧ s.fillWaits c.party c.W.ctx (memRowBytes fmt t.k) l = true
          (Accepts t drain gather → s.copyQueue c.W.core < 64 → ¬ held →
            ∃ u s1, exec i s = .next u ∧ Commands s s1 c b x t drain gather fmt l ∧ Completes c s1 u Written.none) ∧
          (¬ Accepts t drain gather ∨ 64 ≤ s.copyQueue c.W.core ∨ held → exec i s = .next (s.waitAt c)))))

end Sys2Proof.Claims

open Sys2Proof Sys2Proof.Machine Sys2Proof.Claims in
/-- R173 to R177 and R181: tcopy and tstore name every row at a stride; tgather and tscatter one row a lane; a pair of formats that R177
does not list is illegal. The model's choices: the order of the faults, addresses before the tile's rows and its fault bit (assumption
15), that a fill reads its rows at acceptance and waits for the rows of earlier drains (assumption 14), that a stride shows in the
rows' addresses alone (assumption 98), and Palush rows of whole blocks (assumption 17). -/
def Obligations.TileCopies : Prop :=
  ∀ (x y z : BitVec 7),
    let strided : Ctx → State → Tile → Nat → List (Nat × DWord) := fun c s t _ =>
      (List.range t.rows).map (fun i => (i, c.sread2 s y.toNat + BitVec.ofNat 64 (i * (c.sread s z.toNat).toNat)))
    let laned : Ctx → State → Tile → Nat → List (Nat × DWord) := fun c s t fmt => (lanesOf c.act).map (fun lane =>
      (immNat (0#0 : BitVec 0) c.h.imms + lane,
        c.sread2 s y.toNat + BitVec.ofNat 64 ((c.W.vget z.toNat lane).toNat * memRowBytes fmt t.k)))
    CopyRow (.tcopy x y z) (copySig false false x.toNat y.toNat (.s z.toNat 1)) x.toNat false false strided ∧
    CopyRow (.tstore x y z) (copySig true false x.toNat y.toNat (.s z.toNat 1)) x.toNat true false strided ∧
    CopyRow (.tgather x y z) (copySig false true x.toNat y.toNat (.v z.toNat 1)) x.toNat false true laned ∧
    CopyRow (.tscatter x y z) (copySig true true x.toNat y.toNat (.v z.toNat 1)) x.toNat true false laned ∧
    (∀ s c, c.act = 0 →
      (s.passes (copySig false true x.toNat y.toNat (.v z.toNat 1)) = some c → (s.tileOf c.W x.toNat).isSome = true →
        ∃ u, exec (.tgather x y z) s = .next u ∧ Completes c s u Written.none) ∧
      (s.passes (copySig true true x.toNat y.toNat (.v z.toNat 1)) = some c → (s.tileOf c.W x.toNat).isSome = true →
        ∃ u, exec (.tscatter x y z) s = .next u ∧ Completes c s u Written.none))

namespace Sys2Proof.Claims

open Sys2Proof.Machine

/-- A command's row at an address, and the tile it belongs to, while the command's cores are not in the save area. -/
def Doing (s : State) (id row : Nat) (k : CopyCmd) (a : DWord) (t : Tile) (B : Block) : Prop :=
  sget s.cmds id = some k ∧ k.todo.find? (fun e => e.1 == row) = some (row, a) ∧ s.tile k.block k.tile = some t ∧
    sget s.blocks k.block = some B ∧ s.cmdSaved k = false

/-- A row is done: it is off its command; the last one ends the command and may change the tile's state (R173, R174). -/
def RowOff (u : State) (id row : Nat) (k : CopyCmd) (t : Tile) : Prop :=
  let rest := k.todo.filter (fun e => !(e.1 == row))
  if rest = [] then sget u.cmds id = none ∧ u.tile k.block k.tile = some { t with
      cmds := t.cmds - 1
      state := if t.cmds ≤ 1 ∧ (t.state = .draining ∨ (t.state = .filling ∧ t.rows ≤ t.landed)) then .ready else t.state }
  else sget u.cmds id = some { k with todo := rest } ∧ u.tile k.block k.tile = some t

/-- The warp that issued a command has its registers on its core and no halt entry pending, so that flags reach it alone (R98). -/
def Here (s : State) (w : Nat) : Prop := ∀ W, sget s.warps w = some W → W.saved = false ∧ W.handler.bind (·.halt) = none

/-- The bytes that a fill's row reads where it was not read at acceptance: of the parts in another device's memory what was answered,
of the others, on pages that are not ordered, what the core sees (R182, R322). -/
def RowSees (s : State) (id row core : Nat) (parts : List (Nat × Bool × Nat)) (bytes : List Byte) : Prop :=
  ∃ pieces : List (List Byte), pieces.length = parts.length ∧ bytes = pieces.flatten ∧
    ∀ (i : Nat) (p : Nat × Bool × Nat) (b : List Byte), parts[i]? = some p → pieces[i]? = some b →
      match s.partRequest id row p.1 with
      | some (_, r) => b = bytesOf p.2.2 ((r.answer.map (·.2.2)).getD 0)
      | none => SeesAt s core (placesOf [p]) b

/-- A row lands in scratch as the bytes and with the flags given (R174, R177). -/
def Lands (s u : State) (id row : Nat) (k : CopyCmd) (t : Tile) (B : Block) (r : List Byte × Word) : Prop :=
  RowOff u id row k { t with landed := min (t.landed + 1) 4095 } ∧
  (∀ i, i < r.1.length → u.byte (B.rowKey t row + i) = r.1[i]?.getD 0) ∧
  (Here s k.warp → (∀ key, key < B.rowKey t row ∨ B.rowKey t row + r.1.length ≤ key → u.byte key = s.byte key) ∧
    ∀ W, sget s.warps k.warp = some W → sget u.warps k.warp = some { W with flags := W.flags ||| r.2 })

/-- Rows of a tile that is not in plane form begin at its offset, each a multiple of 16 bytes long; those in plane form hold the sign plane,
the magnitude planes from the highest down, the groups' trailers and padding (R171). -/
def RowPlaces : Prop :=
  ∀ (B : Block) (t : Tile) (row : Nat),
    B.rowKey t row = B.scratchKey (t.off + row * t.rowBytes) ∧ t.rowBytes % 16 = 0 ∧
    let used : Nat := if t.plane then (1 + magBits t.fmt) * t.k / 8 + (if t.fmt = 6 then 0 else 2 * t.k / 16)
      else memRowBytes t.fmt t.k
    used ≤ t.rowBytes ∧ t.rowBytes < used + 16

/-- What a fill makes of a memory row (R177): the same bytes; the same signs, magnitudes, exponents and micro bits in planes, padding and
AL16's reserved bytes zero; or each group of 16 values encoded, by R87 and, for AL16, R89. -/
def FillValues : Prop :=
  ∀ (mem fmt k : Nat) (plane : Bool) (l : List Byte), k % 16 = 0 → l.length = memRowBytes mem k →
    (fmt ∈ [16, 17, 18] → mem = fmt ∨ plane = false → k % 32 = 0) →
    let r := fillRow mem fmt plane k l
    let N := numOf l
    let M := numOf r.1
    (mem = fmt → plane = false → r = (l, 0)) ∧
    (mem = fmt → plane = true → fmt ∈ [16, 17, 18, 19, 6] → r.2 = 0 ∧ r.1.length = rowBytes fmt true k ∧
      (∀ i, i < k → rowSign fmt true k M i = rowSign fmt false k N i ∧ rowMag fmt true k M i = rowMag fmt false k N i) ∧
      (fmt ≠ 6 → ∀ g, g < k / 16 → rowExp fmt true k M g = rowExp fmt false k N g ∧ rowMicro fmt true k M g = rowMicro fmt false k N g) ∧
      (fmt = 19 → ∀ g, g < k / 16 → M / 2 ^ (16 * k + 16 * g) % 256 = 0) ∧
      M < 2 ^ ((1 + magBits fmt) * k + if fmt = 6 then 0 else k)) ∧
    (fmt = 19 ∧ mem ∈ [9, 10, 11, 12] ∨ fmt ∈ [16, 17, 18] ∧ mem ∈ [8, 9, 10, 11, 12] →
      r.1.length = (if plane then rowBytes fmt true k else memRowBytes fmt k) ∧
      EncodesRow fmt 0 plane k (fun i => (fmtOf mem).read (N / 2 ^ (elementBits mem * i) % 2 ^ elementBits mem)) M r.2 ∧
      (plane = true → M < 2 ^ ((1 + magBits fmt) * k + k) ∧
        (fmt = 19 → ∀ g, g < k / 16 → M / 2 ^ (16 * k + 16 * g) % 256 = 0)) ∧
      (plane = false → fmt = 19 → ∀ g, g < k / 16 → M / 2 ^ (272 * g + 264) % 256 = 0))

/-- What a drain makes of a tile's row (R177): the bytes without their padding; the fields out of their planes; or each element rounded to
nearest even into the narrower format. -/
def DrainValues : Prop :=
  ∀ (mem fmt k : Nat) (plane : Bool) (l : List Byte), k % 16 = 0 → l.length = rowBytes fmt plane k → (fmt ∈ [16, 17, 18] → k % 32 = 0) →
    let r := drainRow mem fmt plane k l
    let N := numOf l
    let M := numOf r.1
    (mem = fmt → plane = false → r = (l.take (memRowBytes fmt k), 0)) ∧
    (mem = fmt → plane = true → fmt ∈ [16, 17, 18, 19] → r.2 = 0 ∧ r.1.length = memRowBytes fmt k ∧
      (∀ i, i < k → rowSign fmt false k M i = rowSign fmt true k N i ∧ rowMag fmt false k M i = rowMag fmt true k N i) ∧
      (∀ g, g < k / 16 → rowExp fmt false k M g = rowExp fmt true k N g ∧ rowMicro fmt false k M g = rowMicro fmt true k N g) ∧
      (fmt = 19 → ∀ g, g < k / 16 → M / 2 ^ (272 * g + 264) % 256 = 0)) ∧
    (mem = 6 → fmt = 6 → plane = true → r.2 = 0 ∧ r.1.length = k ∧ ∀ i, i < k → r.1[i]? = some (BitVec.ofInt 8
      ((if rowSign 6 true k N i = 1 then -1 else 1) * (rowMag 6 true k N i : Int)))) ∧
    (mem ∈ [9, 10] → fmt = 8 → plane = false → r.1.length = 2 * k ∧ ∃ w : Nat → Word,
      r.2 = (List.range k).foldl (fun a i => a ||| w i) 0 ∧
      ∀ i, i < k → ConvertsTo (fmtOf mem) .rne (f32.read (N / 2 ^ (32 * i) % 2 ^ 32)) (M / 2 ^ (16 * i) % 2 ^ 16, w i))

/-- What a row of MSTORE makes of the bank's words (R279): words as they are; f16 and bf16 rounded to nearest even; or groups encoded. -/
def BankValues : Prop :=
  ∀ (t : Tile) (l : List Word), l.length = t.k → t.k % 16 = 0 → (t.fmt ∈ [16, 17, 18] → t.plane = false → t.k % 32 = 0) →
    let r := bankRow t l
    let M := numOf r.1
    (t.fmt ∈ [0, 8] → r.2 = 0 ∧ r.1 = l.flatMap (fun x => bytesOf 4 x.toNat)) ∧
    (t.fmt ∈ [9, 10] → r.1.length = 2 * t.k ∧ ∃ w : Nat → Word, r.2 = (List.range t.k).foldl (fun a i => a ||| w i) 0 ∧
      ∀ i, i < t.k → ConvertsTo (fmtOf t.fmt) .rne (f32.read ((l[i]?).getD 0).toNat) (M / 2 ^ (16 * i) % 2 ^ 16, w i)) ∧
    (t.fmt ∈ [16, 17, 18, 19] → r.1.length = (if t.plane then rowBytes t.fmt true t.k else memRowBytes t.fmt t.k) ∧
      EncodesRow t.fmt 0 t.plane t.k (fun i => f32.read ((l[i]?).getD 0).toNat) M r.2)

end Sys2Proof.Claims

open Sys2Proof Sys2Proof.Machine Sys2Proof.Claims in
/-- R178 to R181, and R171, R173, R174, R177, R182 and R279 for the rows: a fill's row lands in scratch with its flags; a drain's row is
written to memory; a fault ends the command and sets the tile's fault bit. Assumptions 14, 16, 81 and 82 are the model's choices. -/
def Obligations.TileControlAndRows : Prop :=
  ∀ (x y : BitVec 7),
    (∀ s c b B t, s.passes (tileSig x.toNat) = some c → s.blockOf c.W = some (b, B) → s.tileOf c.W x.toNat = some t →
      (t.fault = true → ∃ f, exec (.tready x) s = .next (s.trapped c f) ∧ (f.cls, f.detail, f.addr) = (0x12, x.toNat, t.faultAddr)) ∧
      (t.fault = false → t.cmds ≠ 0 → exec (.tready x) s = .next (s.waitAt c)) ∧
      (t.fault = false → t.cmds = 0 → ∃ u s1, exec (.tready x) s = .next u ∧
        TileIs s s1 b x.toNat { t with state := .ready, landed := t.rows } ∧ { s1 with blocks := s.blocks } = s ∧
        Completes c s1 u Written.none) ∧
      (t.cmds ≠ 0 ∨ t.readers ≠ 0 → exec (.trelease x) s = .next (s.waitAt c)) ∧
      (t.cmds = 0 → t.readers = 0 → ∃ u s1, exec (.trelease x) s = .next u ∧
        TileIs s s1 b x.toNat { t with state := .empty, landed := 0, fault := false, faultAddr := 0 } ∧
        { s1 with blocks := s.blocks } = s ∧ Completes c s1 u Written.none)) ∧
    (∀ s c t, s.passes (fun c s => { tileSig y.toNat c s with dsts := [.s x.toNat 1] }) = some c → s.tileOf c.W y.toNat = some t →
      ∃ u, exec (.tstate x y) s = .next u ∧ Produces c false s u (Written.scal x.toNat 1
        (BitVec.ofNat 64 ((match t.state with | .empty => 0 | .filling => 1 | .ready => 2 | .draining => 3) +
          (if t.cmds = 0 then 0 else 2 ^ 4) + (if t.fault then 2 ^ 5 else 0) + min t.readers 4095 * 2 ^ 8 +
          min t.landed 4095 * 2 ^ 20)))) ∧
    (∀ s c t, s.passes (fun c s => { tileSig x.toNat c s with srcs := [(.s y.toNat 1, some 1)] }) = some c →
      s.tileOf c.W x.toNat = some t → t.fault = false →
      let n := (c.sread s y.toNat).toNat
      (n ≤ t.landed ∨ t.state = .ready ∨ t.state = .draining → ∃ u, exec (.trows x y) s = .next u ∧ Completes c s u Written.none) ∧
      (t.landed < n → t.state = .empty ∨ t.state = .filling → exec (.trows x y) s = .next (s.waitAt c))) ∧
    RowPlaces ∧ FillValues ∧ DrainValues ∧ BankValues ∧
    (∀ s id row k a t B, Doing s id row k a t B → k.drain = false →
      (∀ l, sget k.values row = some l → ∃ u, exec (.tileRowLanding id row) s = .next u ∧ Lands s u id row k t B (bankRow t l)) ∧
      (sget k.values row = none → ∀ bytes, k.source.find? (fun e => e.1 == row) = some (row, bytes) →
        ∃ u, exec (.tileRowLanding id row) s = .next u ∧ Lands s u id row k t B (fillRow k.fmt t.fmt t.plane t.k bytes)) ∧
      (sget k.values row = none → k.source.find? (fun e => e.1 == row) = none → ∀ parts, s.rowNow id k row a = .go parts →
        s.partsWait k.party (s.cmdCtx k) false id parts = false → (∀ p ∈ parts, p.2.1 = false ∧ s.partReady id row p = true) →
        ∃ u bytes, exec (.tileRowLanding id row) s = .next u ∧ RowSees s id row k.core parts bytes ∧
          Lands s u id row k t B (fillRow k.fmt t.fmt t.plane t.k bytes))) ∧
    (∀ s id row k a t B parts, Doing s id row k a t B → k.drain = true →
      s.rowAccess (s.cmdCtx k) k.core true a k.size = .go parts → s.poisoned (B.rowKey t row) t.rowBytes = false → Here s k.warp →
      (∀ e ∈ s.regq, e.2.core ≠ k.core) → (∀ p ∈ parts, isRemote p.1 = false) →
      (∀ e ∈ s.requests, ∀ r key, e.2.who ≠ .row id r key) → s.partsWait k.party (s.cmdCtx k) true id parts = false →
      let r := drainRow k.fmt t.fmt t.plane t.k (s.bytes (B.rowKey t row) t.rowBytes)
      let cells := (parts.flatMap (fun p => (List.range p.2.2).map (fun i => p.1 + i))).zip r.1
      ∃ u, exec (.drainRowCompletion id row) s = .next u ∧ RowOff u id row k t ∧
        (∀ key b, (cells.filter (fun e => e.1 == key)).getLast? = some (key, b) → ¬ LogCell s (ctxFn (s.cmdCtx k)) key →
          u.byte key = b) ∧
        (∀ key, cells.filter (fun e => e.1 == key) = [] → ¬ LogCell s (ctxFn (s.cmdCtx k)) key → u.byte key = s.byte key) ∧
        (∀ W, sget s.warps k.warp = some W → sget u.warps k.warp = some { W with flags := W.flags ||| r.2 })) ∧
    (∀ s id k t a, sget s.cmds id = some k → s.tile k.block k.tile = some t → s.cmdSaved k = false → s.cmdFault id k = some a →
      ∃ u, exec (.tileCopyFault id) s = .next u ∧ sget u.cmds id = none ∧
        u.tile k.block k.tile = some { t with
          cmds := t.cmds - 1, fault := true, faultAddr := a, state := if k.drain then .ready else .empty } ∧
        (∀ j, j ≠ id → sget u.cmds j = sget s.cmds j) ∧ u.mem = s.mem ∧ u.warps = s.warps)

namespace Sys2Proof.Claims

open Sys2Proof.Machine

/-! ### The matrix arrays (R261 to R280) -/

/-- The gang of an arrival, as it would issue. -/
def gangOf (s : State) (a : Arrival) : Option Ctx := ({ s with cur := some (a.warp, lowSlice a.slices) } : State).issuing

/-- The gang's arrival of number `k` at a collective of the fields given is its team's last: it comes next, every other member has made
its arrival of that number and is not away, and the gang makes its own now, or has made it and waits (R264, R291). -/
structure Last (c : Ctx) (s : State) (x : TeamCtx) (k : Nat) : Prop where
  team : teamCtx c s = some x
  next : (s.team x.b x.t).performed + 1 = k
  mine : (c.G.pend = .team k ∧ ∃ a ∈ (s.team x.b x.t).arrivals, a.k = k ∧ a.warp = c.w) ∨
    ((∀ j, c.G.pend ≠ .team j) ∧ (∀ cls d, c.G.pend ≠ .caught cls d) ∧ k = c.W.arrivals + 1 ∧
      ∀ a ∈ (s.team x.b x.t).arrivals, a.k = k → a.warp ≠ c.w)
  here : ∀ m ∈ x.members, m ≠ c.w → ∃ a ∈ (s.team x.b x.t).arrivals, a.k = k ∧ a.warp = m
  known : ∀ a ∈ (s.team x.b x.t).arrivals, a.k = k → a.warp ∈ x.members ∧ s.away c.w a = false ∧
    ∀ d, gangOf s a = some d → teamCtx d s = some x
  once : (((s.team x.b x.t).arrivals.filter (fun a => a.k == k)).map (·.warp)).Nodup

/-- The arrivals of number `k` gave these fields (R264). -/
def Alike (s : State) (x : TeamCtx) (k : Nat) (fields : List Nat) : Prop :=
  ∀ a ∈ (s.team x.b x.t).arrivals, a.k = k → a.fields = fields

/-- The team of a collective once performed: its records otherwise as `f` says. -/
def TeamIs (s s1 : State) (x : TeamCtx) (k : Nat) (f : Team → Team) : Prop :=
  s1.team x.b x.t = { f (s.team x.b x.t) with
    performed := k, arrivals := (s.team x.b x.t).arrivals.filter (fun a => !(a.k == k)) } ∧
  ∀ b t, (b, t) ≠ (x.b, x.t) → s1.team b t = s.team b t

/-- A collective has appended an operation, counted it a reader of a tile and noted formats in quadrants; but for the warps nothing else
has changed (R264, R265, R173). -/
structure Did (s s1 : State) (x : TeamCtx) (k : Nat) (team : Team → Team) (new : Option ArrayOp)
    (reader : Option Nat) (fmts : List (Nat × Nat)) : Prop where
  team : TeamIs s s1 x k team
  ops : ∀ id, sget s1.ops id = if id = s.nextId ∧ new.isSome = true then new else sget s.ops id
  tiles : ∀ n, s1.tile x.b n = if some n = reader then (s.tile x.b n).map (fun t => { t with readers := t.readers + 1 }) else s.tile x.b n
  quads : ∀ q, s1.quad q = match fmts.find? (fun e => e.1 == q) with
    | some e => { s.quad q with appended := some e.2 }
    | none => s.quad q
  blocks : ∀ b, b ≠ x.b → sget s1.blocks b = sget s.blocks b
  rest : { s1 with
    blocks := s.blocks, ops := s.ops, quads := s.quads, warps := s.warps, nextId := s.nextId, counters := s.counters,
    outbox := s.outbox, progress := s.progress } = s

/-- An operation of a team not yet begun, in no batch. -/
def newOp (x : TeamCtx) (kind : ArrayKind) (quads : List (Nat × Nat × Nat)) : ArrayOp :=
  { block := x.b, team := x.t, kind := kind, quads := quads, batch := none, started := false, flags := none, complete := false }

/-- A member's gang has gone on past the collective with `w` written; of what it does not write, its warp keeps all but its number of
arrivals and, where it was parked, its place in the list of those that are ready (R264, R32). -/
def GoesOn (u : State) (d : Ctx) (w : Written) : Prop :=
  ∃ V n r q, sget u.warps d.w = some V ∧ RegsAfter d V w ∧ FallsThrough d V ∧
    V.rest = { d.W.rest with arrivals := n, residency := r, urgent := q } ∧ (r = d.W.residency ∨ ∃ i, r = .parked true i)

/-- A collective of a team of any size, at its last arrival, with every member's fields alike: where `ok` holds it is performed once, with
what `did` says, every member's gang goes on with `wr` written, and no other warp and no byte of memory changes (R264). -/
def CollTeam (i : Instr) (sig : Ctx → State → Sig) (fields : List Nat) (ok : Ctx → State → TeamCtx → Prop)
    (did : Ctx → State → TeamCtx → Nat → State → Prop) (wr : State → TeamCtx → Written) : Prop :=
  ∀ s c x k, s.passes sig = some c → Last c s x k → Alike s x k (fields ++ c.h.imms.map (·.toNat)) → ok c s x →
    ∃ u, exec i s = .next u ∧ did c s x k u ∧ GoesOn u c (wr s x) ∧
      (∀ a ∈ (s.team x.b x.t).arrivals, a.k = k → a.warp ≠ c.w → ∀ d, gangOf s a = some d → GoesOn u d (wr s x)) ∧
      (∀ v, v ≠ c.w → v ∉ x.members → sget u.warps v = sget s.warps v) ∧ ∀ key, u.byte key = s.byte key

/-- Arrivals of number `k` are withdrawn: later ones of the same warps move down by one (R264). -/
def withoutArrivals (l : List Arrival) (k : Nat) : List Arrival :=
  l.filterMap (fun a => if a.k = k then none else if k < a.k then some { a with k := a.k - 1 } else some a)

/-- A collective traps every member with `f` (R264, R269): the issuing gang takes it now; another member's gang takes it too, as
TrapToHandler and TrapToHost say, or, where another gang of its warp is in a handler or has its warp stopped, when it issues next; the
arrivals are withdrawn, and nothing is appended, claimed or freed. -/
def TrapsTeam (i : Instr) (s : State) (c : Ctx) (x : TeamCtx) (k : Nat) (f : Trap) : Prop :=
  ∃ v : State, exec i s = .next (v.trapped c f) ∧ v.ops = s.ops ∧ v.quads = s.quads ∧ v.claims = s.claims ∧ v.cmds = s.cmds ∧
    ((∀ a ∈ (s.team x.b x.t).arrivals, a.warp ∈ x.members) →
      (v.team x.b x.t).arrivals = withoutArrivals (s.team x.b x.t).arrivals k) ∧
    (∃ V, sget v.warps c.w = some V ∧ V.slices = c.W.slices ∧ V.v = c.W.v ∧ V.p = c.W.p ∧ V.flags = c.W.flags ∧
      V.handler = c.W.handler ∧ V.hostStop = c.W.hostStop) ∧
    ∀ a ∈ (s.team x.b x.t).arrivals, a.k = k → a.warp ≠ c.w → ∀ d, gangOf s a = some d →
      (d.W.handler = none → d.W.hostStop = false → ∃ (r : State) (R : Warp) (g : Gang), sget r.warps a.warp = some R ∧
        R.slices = d.W.slices ∧ R.v = d.W.v ∧ R.handler = none ∧ R.ctx = d.W.ctx ∧ R.gangAt d.j = some g ∧ g.slices = d.G.slices ∧
        g.s = d.G.s ∧ g.q = d.G.q ∧ r.time = s.time ∧
        (∀ n, (r.context n).tvec = (s.context n).tvec ∧ (r.context n).tdeleg = (s.context n).tdeleg) ∧
        sget v.warps a.warp = sget (r.trap a.warp d.j f).warps a.warp) ∧
      (d.W.handler ≠ none ∨ d.W.hostStop = true → d.W.inHandler d.j = false → ∃ V, sget v.warps a.warp = some V ∧
        V.slices = d.W.slices ∧ V.handler = d.W.handler ∧
        ∀ g, V.gangAt d.j = some g → g.pend = .caught f.cls f.detail ∧ g.wait = none)

/-- When a collective traps, whatever the size of its team: `why` gives the causes of its own (R269); members whose fields differ take
class 0x10 (R264); a member that waited while its warp was busy takes the trap kept for it. -/
def CollTraps (i : Instr) (sig : Ctx → State → Sig) (fields : List Nat) (why : Ctx → State → TeamCtx → Trap → Prop) : Prop :=
  ∀ s c x k, s.passes sig = some c →
    let mine := fields ++ c.h.imms.map (·.toNat)
    (Last c s x k → Alike s x k mine → ∀ f, why c s x f → TrapsTeam i s c x k f) ∧
    (Last c s x k → ¬ Alike s x k mine → TrapsTeam i s c x k (Trap.of 0x10 0)) ∧
    (∀ cls d, c.G.pend = .caught cls d → exec i s = .next (s.trapped c (Trap.of cls d)))

/-- A collective's arrival that is not the last is entered, and the gang waits; where a member that has not arrived has ended, the gang
takes class 0x10 with its arrival withdrawn (R264). -/
def CollWaits (i : Instr) (sig : Ctx → State → Sig) (fields : List Nat) : Prop :=
  ∀ s c x, s.passes sig = some c → teamCtx c s = some x → (∀ j, c.G.pend ≠ .team j) → (∀ cls d, c.G.pend ≠ .caught cls d) →
    let k := c.W.arrivals + 1
    let l := (s.team x.b x.t).arrivals
    let missing (m : Nat) : Prop := m ∈ x.members ∧ m ≠ c.w ∧ ∀ a ∈ l, a.k = k → a.warp ≠ m
    ((∃ m, missing m) → (∀ m, missing m → ∃ V, sget s.warps m = some V ∧ V.ended = false) →
      ∃ u, exec i s = .next u ∧ (u.team x.b x.t).arrivals = l ++
          [{ k := k, index := c.W.index, warp := c.w, slices := c.G.slices, fields := fields ++ c.h.imms.map (·.toNat) }] ∧
        u.ops = s.ops ∧ u.mem = s.mem ∧ u.quads = s.quads ∧ u.claims = s.claims ∧ (∀ v, v ≠ c.w → sget u.warps v = sget s.warps v) ∧
        ∃ W g, sget u.warps c.w = some W ∧ W.gangAt c.j = some g ∧ g.pend = .team k ∧ g.wait = some u.progress ∧
          W.arrivals = k ∧ W.slices = c.W.slices ∧ W.v = c.W.v ∧ W.p = c.W.p ∧ W.flags = c.W.flags) ∧
    ((∃ m, missing m ∧ ∀ V, sget s.warps m = some V → V.ended = true) → (∀ a ∈ l, a.k ≠ k ∨ a.warp ≠ c.w) →
      (∀ a ∈ l, a.warp = c.w → a.k < k) → (∀ g ∈ c.W.gangs, ∀ j, g.pend = .team j → j < k) →
      ∃ v : State, exec i s = .next (v.trapped c (Trap.of 0x10 0)) ∧ (v.team x.b x.t).arrivals = l ∧ v.ops = s.ops ∧
        v.quads = s.quads ∧ v.claims = s.claims ∧ v.mem = s.mem ∧ ∀ w, sget v.warps w = sget s.warps w)

/-- A tile a reader may issue on: present, its fault bit clear, ready or draining (R173, R181). -/
def Readable (s : State) (x : TeamCtx) (n : Nat) (t : Tile) : Prop :=
  s.tile x.b n = some t ∧ t.fault = false ∧ (t.state = .ready ∨ t.state = .draining)

/-- The shape of a team, with its base and quadrants. -/
def Shaped (s : State) (x : TeamCtx) (base : Nat) (sh : List (Nat × Nat × Nat)) : Prop :=
  ∃ code, (s.team x.b x.t).shape = some (code, base) ∧ shapeQuads x.core code base = some sh

/-- A tile can stand beside a shape's quadrants in an MMA: plane form, enough quadrants along K, and latched formats that pair (cause
4 of R269). -/
def Suits (s : State) (sh : List (Nat × Nat × Nat)) (t : Tile) : Prop :=
  t.plane = true ∧ t.k / 16 ≤ extentK sh / 16 ∧ ∀ e ∈ sh, ∃ f, (s.quad e.1).appended = some f ∧ pairsWith f t.fmt = true

/-- The conditions MMA and MMAVS share (R269, causes 1, 2 and 4). -/
def MayMultiply (s : State) (x : TeamCtx) (bank tile : Nat) (sh : List (Nat × Nat × Nat)) (t : Tile) : Prop :=
  Shaped s x (bank / 2) sh ∧ Readable s x tile t ∧ Suits s sh t

/-- A mask and a tile that MLOADW may latch (cause 3 of R269). -/
def Loadable (x : TeamCtx) (sh : List (Nat × Nat × Nat)) (wide : Bool) (m : Nat) (t : Tile) : Prop :=
  fusable m = true ∧ (if wide then sh.length = 8 else ∀ q, q < 4 → m.testBit q = true → ∃ e ∈ sh, e.1 = quadKey x.core q) ∧
    t.rows ≤ extentN (maskQuads x sh wide m) ∧ t.k ≤ extentK (maskQuads x sh wide m) ∧ t.fmt ∈ [16, 17, 18, 19, 6]

/-- The causes of R269 that need a shape and a bank of its base: 1 and 2; with both, those given. -/
def Causes (s : State) (x : TeamCtx) (bank : Option Nat) (f : Trap) (more : List (Nat × Nat × Nat) → Prop) : Prop :=
  ((s.team x.b x.t).shape = none ∧ f = Trap.of 0x16 1) ∨
    ∃ base sh, Shaped s x base sh ∧
      ((∃ b, bank = some b ∧ b / 2 ≠ base ∧ f = Trap.of 0x16 2) ∨ ((∀ b, bank = some b → b / 2 = base) ∧ more sh))

/-- A tile with its fault bit set gives its fault to the reader that names it (R181). -/
def Faulty (n : Nat) (t : Tile) (f : Trap) : Prop := t.fault = true ∧ f = { Trap.of 0x12 n with addr := t.faultAddr }

/-- The vector registers of a team's first warp, all full, from which MMAVS and MEDGE read (R274, R277). -/
def Lead (s : State) (x : TeamCtx) (L : Warp) : Prop := ∃ m, x.members.head? = some m ∧ sget s.warps m = some L ∧ L.emptyV = []

end Sys2Proof.Claims

open Sys2Proof Sys2Proof.Machine Sys2Proof.Claims in
/-- R264, R265, R269 and R272 to R277, for teams of any size, at the last arrival: the operation is appended once and every member goes
on; unlike fields, and the causes of R269, trap every member; an arrival that is not the last waits. -/
def Obligations.MatrixOperations : Prop :=
  ∀ (a b z : BitVec 7),
    let none' : State → TeamCtx → Written := fun _ _ => Written.none
    let tileOk (c : Ctx) (s : State) (n : Nat) : Bool := (s.tileOf c.W n).isSome
    let wide (s : State) (x : TeamCtx) (m : BitVec 7) : Bool := (s.team x.b x.t).pair && m.toNat == 15
    let row0 (c : Ctx) : Nat := immNat (0#0 : BitVec 0) c.h.imms
    let both (i : Instr) (sig : Ctx → State → Sig) (fields : List Nat) (why : Ctx → State → TeamCtx → Trap → Prop) : Prop :=
      CollTraps i sig fields why ∧ CollWaits i sig fields
    let zeroSig : Ctx → State → Sig := fun c _ => mtxSig 0 (decide (a.toNat ≤ 7)) c
    let loadSig : Ctx → State → Sig := fun c s =>
      mtxSig 0 (tileOk c s a.toNat && decide (1 ≤ b.toNat) && decide (b.toNat ≤ 15)) c
    let mmaSig : Ctx → State → Sig := fun c s =>
      mtxSig 2 (tileOk c s b.toNat && decide (a.toNat ≤ 7) && decide (z.toNat ≤ 3)) c
    let vsSig : Ctx → State → Sig := fun c s =>
      { mtxSig 2 (tileOk c s b.toNat && decide (a.toNat ≤ 7) && c.h.imms.all (fun p => p.toNat / 256 == 0)) c with
        srcs := [(.v z.toNat 1, some 2)] }
    let edgeSig : Ctx → State → Sig := fun c _ =>
      { mtxSig 0 (decide (a.toNat ≤ 3) && decide (b.toNat ≤ 2)) c with srcs := [(.v z.toNat 1, some 2)] }
    CollTeam (.mzero a) zeroSig [6, a.toNat, 0, 0] (fun _ s x => ∃ sh, Shaped s x (a.toNat / 2) sh)
      (fun _ s x k u => ∀ sh, Shaped s x (a.toNat / 2) sh → Did s u x k id (some (newOp x (.zero (a.toNat % 2)) sh)) none []) none' ∧
    both (.mzero a) zeroSig [6, a.toNat, 0, 0] (fun _ s x f => Causes s x (some a.toNat) f (fun _ => False)) ∧
    CollTeam (.mloadw a b) loadSig [0, a.toNat, b.toNat, 0]
      (fun _ s x => ∃ base sh t, Shaped s x base sh ∧ Readable s x a.toNat t ∧ Loadable x sh (wide s x b) b.toNat t)
      (fun _ s x k u => ∀ base sh t, Shaped s x base sh → s.tile x.b a.toNat = some t →
        let qs := maskQuads x sh (wide s x b) b.toNat
        Did s u x k id (some (newOp x (.loadw a.toNat b.toNat) qs)) (some a.toNat) (qs.map (fun e => (e.1, t.fmt)))) none' ∧
    both (.mloadw a b) loadSig [0, a.toNat, b.toNat, 0] (fun _ s x f => Causes s x none f (fun sh => ∃ t, s.tile x.b a.toNat = some t ∧
      ((¬ Loadable x sh (wide s x b) b.toNat t ∧ f = Trap.of 0x16 3) ∨
        (Loadable x sh (wide s x b) b.toNat t ∧ Faulty a.toNat t f)))) ∧
    CollTeam (.mma a b z) mmaSig [1, a.toNat, b.toNat, z.toNat]
      (fun c s x => (∃ sh t, MayMultiply s x a.toNat b.toNat sh t) ∧ c.h.imms.length ≤ 1 ∧ row0 c ≤ 1023)
      (fun c s x k u => ∀ sh, Shaped s x (a.toNat / 2) sh →
        let t := s.team x.b x.t
        Did s u x k id (some (newOp x (.mma (a.toNat % 2) b.toNat (row0 c) ((t.em[z.toNat]?).getD 0)
          ((t.en[z.toNat]?).getD 0) ((t.ek[z.toNat]?).getD 0) none) sh)) (some b.toNat) []) none' ∧
    both (.mma a b z) mmaSig [1, a.toNat, b.toNat, z.toNat] (fun c s x f => Causes s x (some a.toNat) f (fun sh => ∃ t,
      s.tile x.b b.toNat = some t ∧
      ((¬ Suits s sh t ∧ f = Trap.of 0x16 4) ∨ (Suits s sh t ∧ (1 < c.h.imms.length ∨ 1023 < row0 c) ∧ f = Trap.of 0x16 9) ∨
        (Suits s sh t ∧ c.h.imms.length ≤ 1 ∧ row0 c ≤ 1023 ∧ Faulty b.toNat t f)))) ∧
    CollTeam (.mmavs a b z) vsSig [2, a.toNat, b.toNat, z.toNat]
      (fun c s x => (∃ sh t, MayMultiply s x a.toNat b.toNat sh t ∧ t.fmt ≠ 6) ∧ c.h.imms.length = 1 ∧ ∃ L, Lead s x L)
      (fun c s x k u => ∀ sh t L, Shaped s x (a.toNat / 2) sh → s.tile x.b b.toNat = some t → Lead s x L →
        let e := s.team x.b x.t
        let sel := row0 c
        let scales := (List.range (t.k / 16)).map (fun g =>
          (L.vget z.toNat ((sel % 32 + g) % 32)).extractLsb' (8 * (sel / 32 % 4)) 8)
        Did s u x k id (some (newOp x (.mma (a.toNat % 2) b.toNat 0 ((e.em[0]?).getD 0) ((e.en[0]?).getD 0) ((e.ek[0]?).getD 0)
          (some (sel.testBit 7, scales))) sh)) (some b.toNat) []) none' ∧
    both (.mmavs a b z) vsSig [2, a.toNat, b.toNat, z.toNat] (fun c s x f => Causes s x (some a.toNat) f (fun sh => ∃ t,
      s.tile x.b b.toNat = some t ∧
      ((¬ Suits s sh t ∧ f = Trap.of 0x16 4) ∨ (Suits s sh t ∧ (t.fmt = 6 ∨ c.h.imms.length ≠ 1) ∧ f = Trap.of 0x16 8) ∨
        (Suits s sh t ∧ t.fmt ≠ 6 ∧ c.h.imms.length = 1 ∧ (∃ L, Lead s x L) ∧ Faulty b.toNat t f)))) ∧
    CollTeam (.medge a b z) edgeSig [7, a.toNat, b.toNat, z.toNat] (fun _ s x => ∃ L, Lead s x L)
      (fun _ s x k u => ∀ L, Lead s x L →
        let v (n : Nat) : Nat := ((List.range n).map (fun lane => (L.vget z.toNat lane).toNat * 2 ^ (32 * lane))).sum
        Did s u x k (fun t =>
          if b.toNat = 0 then { t with em := t.em.set a.toNat (BitVec.ofNat 256 (v 8)) }
          else if b.toNat = 1 then { t with en := t.en.set a.toNat (BitVec.ofNat 128 (v 4)) }
          else { t with ek := t.ek.set a.toNat (BitVec.ofNat 128 (v 4)) }) none none []) none' ∧
    both (.medge a b z) edgeSig [7, a.toNat, b.toNat, z.toNat] (fun _ _ _ _ => False)

open Sys2Proof Sys2Proof.Machine Sys2Proof.Claims in
/-- R266, R276, R262, R269 to R271, R263, R278 and R279, for teams of any size. What MSTORE reads where no operation that
writes the element is waited for is a free value, of which nothing is said. -/
def Obligations.BatchesShapesAndStores : Prop :=
  ∀ (a z : BitVec 7) (b : BitVec 3),
    let none' : State → TeamCtx → Written := fun _ _ => Written.none
    let kept (s u : State) : Prop := { u with
      blocks := s.blocks, ops := s.ops, quads := s.quads, warps := s.warps, claims := s.claims, nextId := s.nextId,
      counters := s.counters, outbox := s.outbox, progress := s.progress } = s
    let mine (s : State) (x : TeamCtx) (e : Nat × ArrayOp) : Bool :=
      e.2.block == x.b && e.2.team == x.t && (e.2.batch == none || e.2.batch == some (s.team x.b x.t).nextBatch)
    let whole (s : State) (x : TeamCtx) : Bool :=
      (s.ops.filter (mine s x)).all (fun e => e.2.flags.isSome) && (s.ops.filter (mine s x)).any (fun e => !e.2.complete)
    let plainSig : Ctx → State → Sig := fun c _ => mtxSig 0 true c
    let fenceSig : Ctx → State → Sig := fun c _ => { mtxSig 0 true c with dsts := [.s a.toNat 1] }
    let oddCore (s : State) (x : TeamCtx) : Prop := x.core % 2 = 1 ∨ ∀ B, sget s.blocks x.b = some B → B.desc.pair = false
    CollTeam (.mfence a) fenceSig [3, a.toNat, 0, 0]
      (fun _ s x => (s.openBatches x.b x.t).length < 32 ∧ ∀ m ∈ x.members, Here s m)
      (fun _ s x k u =>
        let n := (s.team x.b x.t).nextBatch
        TeamIs s u x k (fun t => { t with nextBatch := n + 1 }) ∧ kept s u ∧ u.quads = s.quads ∧ u.claims = s.claims ∧
        (∀ id o, sget u.ops id = some o → o.block = x.b → o.team = x.t → o.batch ≠ none ∧
          (o.batch = some n → whole s x = true → o.complete = true)) ∧
        (whole s x = false → u.ops = s.ops.map (fun e => if mine s x e then (e.1, { e.2 with batch := some n }) else e)))
      (fun s x => { Written.scal a.toNat 1 (BitVec.ofNat 64 ((s.team x.b x.t).nextBatch % 65536)) with
        flags := if whole s x then (s.ops.filter (mine s x)).foldl (fun f e => f ||| e.2.flags.getD 0) 0 else 0 }) ∧
    CollTraps (.mfence a) fenceSig [3, a.toNat, 0, 0] (fun _ _ _ _ => False) ∧ CollWaits (.mfence a) fenceSig [3, a.toNat, 0, 0] ∧
    (∀ s c x, s.passes (fun c _ => { mtxSig 0 true c with srcs := [(.s a.toNat 1, some 0)] }) = some c → teamCtx c s = some x →
      let covered (n : Nat) : Prop := ((c.sread s a.toNat).toNat % 65536 + 65536 - n % 65536) % 65536 ≤ 32767
      ((∃ n ∈ s.openBatches x.b x.t, covered n) ∨ s.loadsOut c.w c.G.slices = true →
        exec (.mwait a) s = .next ((s.waitWith c .issued).waitAt c)) ∧
      ((∀ n ∈ s.openBatches x.b x.t, ¬ covered n) → s.loadsOut c.w c.G.slices = false →
        ∃ u s1 o, exec (.mwait a) s = .next u ∧ sget s1.warps c.w = some { c.W with waited := o } ∧
          { s1 with warps := s.warps } = s.acquire c.W.core ∧
          (∀ n, n ∈ o ↔ n ∈ c.W.waited ∨
            (covered n ∧ ∃ e ∈ s.ops, e.2.block = x.b ∧ e.2.team = x.t ∧ e.2.batch = some n)) ∧
          Completes { c with W := { c.W with waited := o } } s1 u Written.none)) ∧
    (∀ code : BitVec 7,
      let shapeSig : Ctx → State → Sig := fun c _ => mtxSig 0 (decide (code.toNat ≤ 4) && decide (a.toNat ≤ 3)) c
      CollTeam (.mshape code a) shapeSig [9, code.toNat, a.toNat, 0]
        (fun _ s x => ∃ sh, shapeQuads x.core code.toNat a.toNat = some sh ∧ (code.toNat = 4 → (s.team x.b x.t).pair = true) ∧
          ((s.team x.b x.t).shape = some (code.toNat, a.toNat) ∨
            (s.opsRetired x.b x.t = true ∧ (∀ e ∈ s.claims, e.2.owner ≠ (x.b, x.t) ∧ (e.2.core = x.core → e.2.granted = true)) ∧
              ∀ e ∈ sh, e.1 ∈ s.owned x.b x.t ∨ (s.quad e.1).owner = none)))
        (fun _ s x k u => TeamIs s u x k (fun t => { t with shape := some (code.toNat, a.toNat) }) ∧ kept s u ∧
          ((s.team x.b x.t).shape = some (code.toNat, a.toNat) → ∀ q, u.quad q = s.quad q) ∧
          ((s.team x.b x.t).shape ≠ some (code.toNat, a.toNat) → ∀ sh, shapeQuads x.core code.toNat a.toNat = some sh →
            ∀ q, u.quad q =
              if (∃ e ∈ sh, e.1 = q) ∧ q ∉ s.owned x.b x.t then { Quadrant.reset with owner := some (x.b, x.t) }
              else if q ∈ s.owned x.b x.t ∧ ¬ (∃ e ∈ sh, e.1 = q) ∧
                ¬ ((s.team x.b x.t).pair = true ∧ q / 4 = x.core + 1) then Quadrant.reset
              else s.quad q)) none' ∧
      CollTraps (.mshape code a) shapeSig [9, code.toNat, a.toNat, 0] (fun _ s x f => f = Trap.of 0x16 5 ∧
        (shapeQuads x.core code.toNat a.toNat = none ∨ (code.toNat = 4 ∧ (s.team x.b x.t).pair = false))) ∧
      CollWaits (.mshape code a) shapeSig [9, code.toNat, a.toNat, 0]) ∧
    CollTeam .mpairEnter plainSig [8, 1, 0, 0]
      (fun _ s x => ¬ oddCore s x ∧ ((s.team x.b x.t).pair = true ∨
        (s.opsRetired x.b x.t = true ∧ (∀ e ∈ s.claims, e.2.owner ≠ (x.b, x.t) ∧ (e.2.core = x.core + 1 → e.2.granted = true)) ∧
          ∀ q, q < 4 → (s.quad (4 * (x.core + 1) + q)).owner = none)))
      (fun _ s x k u => TeamIs s u x k (fun t => { t with pair := true }) ∧ kept s u ∧ u.ops = s.ops ∧ u.claims = s.claims ∧
        ∀ q, u.quad q = if (s.team x.b x.t).pair = false ∧ q / 4 = x.core + 1 then { Quadrant.reset with owner := some (x.b, x.t) }
          else s.quad q) none' ∧
    CollTraps .mpairEnter plainSig [8, 1, 0, 0] (fun _ s x f => f = Trap.of 0x16 6 ∧ oddCore s x) ∧
    CollWaits .mpairEnter plainSig [8, 1, 0, 0] ∧
    CollTeam .mpairLeave plainSig [8, 0, 0, 0]
      (fun _ s x => (s.team x.b x.t).pair = false ∨ s.opsRetired x.b x.t = true)
      (fun _ s x k u => TeamIs s u x k (fun t => if t.pair = false then t else
          { t with pair := false, shape := if t.shape = some (4, 0) then some (3, 0) else t.shape }) ∧ kept s u ∧ u.claims = s.claims ∧
        ∀ q, u.quad q = if (s.team x.b x.t).pair = true ∧ q / 4 = x.core + 1 then Quadrant.reset else s.quad q) none' ∧
    CollTraps .mpairLeave plainSig [8, 0, 0, 0] (fun _ _ _ _ => False) ∧ CollWaits .mpairLeave plainSig [8, 0, 0, 0] ∧
    (∀ s c x, s.passes (fun c _ =>
        { mtxSig 0 true c with guard := true, srcs := [(.s z.toNat 1, some 2)], dsts := [.v a.toNat 1] }) = some c →
      teamCtx c s = some x →
      let sel := (c.sread s z.toNat).toNat
      let row := sel % 256
      let col := sel / 256 % 256
      let n := sel / 65536 % 16 + 1
      let stops (t : Trap) : Prop := exec (.mstoreRegister a b z) s = .next (s.trapped c t)
      (c.W.window < a.toNat + n → stops (Trap.of 3 0)) ∧
      (a.toNat + n ≤ c.W.window → s.shapeOf x = none → stops (Trap.of 0x16 1)) ∧
      ∀ sh, a.toNat + n ≤ c.W.window → s.shapeOf x = some sh →
        let mine := ∃ e ∈ sh, e.2.2 = 0 ∧ e.1 = quadKey x.core (b.toNat / 2)
        let fits := sel < 2 ^ 20 ∧ row ≤ 224 ∧ col + n ≤ extentN sh
        (¬ mine → stops (Trap.of 0x16 2)) ∧ (mine → ¬ fits → stops (Trap.of 0x16 7)) ∧
        (mine → fits → c.W.emptyV = [] →
          ∃ u f m, exec (.mstoreRegister a b z) s = .next u ∧ Produces c false { s with fresh := m } u (groupOf c a n f) ∧
            ∀ i lane, i < n → lane < 32 →
              s.defined x c.W.waited (columnQuad sh (col + i)) (b.toNat % 2) (row + lane) ((col + i) % 64) = true →
              f i lane = zget 0 ((s.quad (columnQuad sh (col + i))).bank (b.toNat % 2)) (64 * (row + lane) + (col + i) % 64))) ∧
    (∀ s c x t, s.passes (fun c s =>
        { mtxSig 0 (s.tileOf c.W a.toNat).isSome c with guard := true, srcs := [(.s z.toNat 1, some 2)] }) = some c →
      teamCtx c s = some x → s.tileOf c.W a.toNat = some t →
      let sel := (c.sread s z.toNat).toNat
      let row := sel % 256
      let col := sel / 256 % 256
      let stops (t : Trap) : Prop := exec (.mstoreTile a b z) s = .next (s.trapped c t)
      (c.act = 0 → ∃ u, exec (.mstoreTile a b z) s = .next u ∧ Completes c s u Written.none) ∧
      (c.act ≠ 0 → s.shapeOf x = none → stops (Trap.of 0x16 1)) ∧
      ∀ sh, c.act ≠ 0 → s.shapeOf x = some sh →
        let mine := ∃ e ∈ sh, e.2.2 = 0 ∧ e.1 = quadKey x.core (b.toNat / 2)
        let fits := sel < 2 ^ 16 ∧ row + t.rows ≤ 256 ∧ col + t.k ≤ extentN sh ∧
          (t.plane = false ∧ t.fmt ∈ [8, 0, 9, 10] ∨ t.fmt ∈ [16, 17, 18, 19])
        (¬ mine → stops (Trap.of 0x16 2)) ∧ (mine → ¬ fits → stops (Trap.of 0x16 7)) ∧
        (mine → fits → t.fault = true → stops { Trap.of 0x12 a.toNat with addr := t.faultAddr }) ∧
        (mine → fits → t.fault = false → Accepts t false false → s.copyQueue c.W.core < 64 →
          ∃ u s1 cmd, exec (.mstoreTile a b z) s = .next u ∧ Completes c s1 u Written.none ∧ sget s1.cmds s.nextId = some cmd ∧
            (cmd.core, cmd.tile, cmd.warp, cmd.slices, cmd.drain, cmd.fmt, cmd.todo.map (·.1)) =
              (c.W.core, a.toNat, c.w, c.G.slices, false, t.fmt, List.range t.rows) ∧
            TileIs s s1 x.b a.toNat { t with state := .filling, cmds := t.cmds + 1, landed := 0 } ∧
            { s1 with cmds := s.cmds, blocks := s.blocks, nextId := s.nextId, fresh := s.fresh } = s ∧
            ∀ i, i < t.rows → ∃ l, sget cmd.values i = some l ∧ l.length = t.k ∧ ∀ k, k < t.k →
              s.defined x c.W.waited (columnQuad sh (col + k)) (b.toNat % 2) (row + i) ((col + k) % 64) = true →
              l[k]? = some (zget 0 ((s.quad (columnQuad sh (col + k))).bank (b.toNat % 2)) (64 * (row + i) + (col + k) % 64))))

namespace Sys2Proof.Claims

open Sys2Proof.Machine

/-! ### TREE instructions (R207 to R229) -/

/-- Words that the hardware writes one after another in a context's space, each at its home: address, bytes, value. -/
def Puts (s : State) (ctx : Nat) (l : List (DWord × Nat × Nat)) : State :=
  l.foldl (fun s e => s.hwWrite ctx e.1 (bytesOf e.2.1 e.2.2)) s

/-- The words of a lane's registers `x` to `x + n - 1`, one after another from an address. -/
def regWords (c : Ctx) (x n lane : Nat) (a : DWord) : List (DWord × Nat × Nat) :=
  (List.range n).map (fun i => (a + BitVec.ofNat 64 (4 * i), 4, (c.W.vget (x + i) lane).toNat))

/-- The word INBOX reads in a lane, as an address; none where it reads 0 (R223). -/
def inboxPlace (s : State) (g : Nat) (B : Block) (G : Grove) (z pos : Nat) : Option DWord :=
  if G.upward = true then
    if 4 * z < G.yieldBytes then (s.inboxSlot g G B.node pos).map (fun a => a + BitVec.ofNat 64 (4 * z)) else none
  else if B.node = G.root then some (G.addr + BitVec.ofNat 64 (0xC0 + 4 * (z + pos)))
  else if 4 * (z + pos) < G.handBytes then
    let parent := s.nodeNum G B.node 0x10 4
    (G.handSlot parent (B.node - s.nodeNum G parent 8 4)).map (fun a => a + BitVec.ofNat 64 (4 * (z + pos)))
  else none

/-- Every one of some addresses of a context's space that the hardware accesses for a gang is translated, to memory of this device or the
host, and the stores that come before the access can be registered (R153, R156, R195); the gang has nothing asked of another device. -/
def HardGo (s : State) (c : Ctx) (l : List DWord) : Prop :=
  (∀ a ∈ l, ∃ key o, s.xlateFor c.W.ctx c.W.core (some c.w) (vaOf a) .hard = .go key o ∧ isRemote key = false ∧
    s.homeFree c (key / 64 * 64) 64 = true) ∧
  ∀ e ∈ s.requests, ∀ part, e.2.who ≠ .engine (.gang c.w c.G.slices) part

/-- The addresses of some words, one after another. -/
def wordsFrom (n : Nat) (a : DWord) : List DWord := (List.range n).map (fun i => a + BitVec.ofNat 64 (4 * i))

/-- Words that the hardware writes for a gang one after another, each at its home: address, bytes, value. -/
def GangPuts (c : Ctx) (s : State) (l : List (DWord × Nat × Nat)) : State :=
  l.foldl (fun s e => s.gangWrite c e.1 (bytesOf e.2.1 e.2.2)) s

/-- What such a write does where the core has no store on its way: the bytes are written at home, and the core reads them so (R158,
R189). -/
def GangWrites : Prop :=
  ∀ (s : State) (c : Ctx) (a : DWord) (l : List Byte) (cells : List (Nat × Byte)), s.hwCells c.W.ctx a l = some cells →
    (∀ e ∈ cells, isRemote e.1 = false) → (∀ e ∈ s.regq, e.2.core ≠ c.W.core) →
    let u := s.gangWrite c a l
    (∀ key, ¬ LogCell s (ctxFn c.W.ctx) key → u.byte key = (((cells.filter (fun e => e.1 == key)).getLast?).map (·.2)).getD (s.byte key)) ∧
    (∀ e ∈ cells, u.coreByte c.W.core e.1 = u.byte e.1) ∧
    { u with mem := s.mem, owners := s.owners, dirty := s.dirty, carve := s.carve, vfs := s.vfs } = s

/-- Where the slots of a node's inbox and hand areas lie: in the clearing of the core of the trail that holds the area, the inbox's in
ascending position (assumption 9), the hand area's in descending position (R213, R216). -/
def SlotPlaces (s : State) (g : Nat) (G : Grove) (node : Nat) : Prop :=
  let base (core : Nat) (a : Alloc) : DWord := G.clearing + BitVec.ofNat 64 (core * G.clearBytes) + BitVec.ofNat 64 a.off
  (∀ T p area pos, (∃ t, (t, T) ∈ s.trails) → T.grove = g → p ∈ T.path → p.node = node → p.inbox = some area →
    (∀ U q, (∃ t, (t, U) ∈ s.trails) → U.grove = g → q ∈ U.path → q.node = node → U.core = T.core ∧ q.inbox = p.inbox) →
    s.inboxSlot g G node pos = some (base T.core area + BitVec.ofNat 64 (pos * G.yieldBytes))) ∧
  ((∀ U q, (∃ t, (t, U) ∈ s.trails) → U.grove = g → q ∈ U.path → q.node ≠ node) → ∀ pos, s.inboxSlot g G node pos = none) ∧
  (∀ core area slots pos, sget G.areas node = some (core, area, slots) → G.handSlot node pos =
    if pos < slots then some (base core area + BitVec.ofNat 64 ((slots - 1 - pos) * G.handBytes)) else none)

/-- An instruction traps with a tree-usage cause (R281, class 0x13). -/
def TreeTrap (i : Instr) (s : State) (c : Ctx) (cause : Nat) : Prop :=
  exec i s = .next (s.trapped c (Trap.of 0x13 cause))

end Sys2Proof.Claims

open Sys2Proof Sys2Proof.Machine Sys2Proof.Claims in
/-- R222 to R229: what each reads, writes and requires, and the tree-usage causes in order. The reads are of cores with no
store on its way, and drop the copies of what they read; the bytes of a word are written at home one word at a time. What releases
goes on once every dirty word of the core is written back. In a phase that is not downward treegrow takes cause 5 (assumption 74);
its other checks, of cause 5 too, read the records after the release. Inbox slots ascend (assumption 9); with no active lane nothing is
checked (assumption 92). -/
def Obligations.TreeInstructions : Prop :=
  ∀ (x y z : BitVec 7) (s : State) (c : Ctx),
    let lanes := lanesOf c.act
    let count (G : Grove) (B : Block) : Nat := s.nodeNum G B.node 0x0C 2
    let clean := s.writeBack c.W.core
    let out := s.storesOut c.w c.G.slices = false ∧ s.drainsOut c.w c.G.slices = false ∧ s.writable c.W.core = true
    let laneSig (z : BitVec 7) : HintSet → Sig := fun _ =>
      { Sig.plain with guard := true, srcs := [(.v y.toNat 1, some 1)], dsts := [.v x.toNat 1], legal := decide (z.toNat ≤ 15) }
    let words (x n : Nat) : List (Opnd × Option Nat) := (List.range n).map (fun i => (.v (x + i) 1, some 0))
    let yieldSig : HintSet → Sig := fun _ =>
      { Sig.plain with
        guard := true, srcs := words x.toNat y.toNat, legal := decide (1 ≤ y.toNat) && decide (y.toNat ≤ 16) }
    let handSig : HintSet → Sig := fun _ =>
      { Sig.plain with
        guard := true, srcs := words x.toNat z.toNat ++ [(.v y.toNat 1, some 1)]
        legal := decide (1 ≤ z.toNat) && decide (z.toNat ≤ 16) }
    let allocSig : HintSet → Sig := fun _ =>
      { Sig.plain with
        guard := true, srcs := [(.s y.toNat 1, some 1)], dsts := [.s x.toNat 1], legal := decide (z.toNat ≤ 2) }
    let growSig : HintSet → Sig := fun _ =>
      { Sig.plain with guard := true, srcs := [(.s x.toNat 1, some 0), (.s y.toNat 1, some 1)] }
    let idle (i : Instr) (sig : HintSet → Sig) : Prop := s.passes (hinted sig) = some c →
      ∃ t, exec i s = .next t ∧ Completes c s t Written.none
    (c.act = 0 → idle (.inbox x y z) (laneSig z) ∧ idle (.yieldUp x y) yieldSig ∧ idle (.hand x y z) handSig ∧
      idle (.nodealloc x y z) allocSig ∧ idle (.treegrow x y) growSig) ∧
    GangWrites ∧ (∀ g G node, SlotPlaces s g G node) ∧
    (c.act ≠ 0 → s.place c.W = none →
      (s.passes (hinted (laneSig z)) = some c → TreeTrap (.inbox x y z) s c 7) ∧
      (s.passes (hinted yieldSig) = some c → TreeTrap (.yieldUp x y) s c 7) ∧
      (s.passes (hinted handSig) = some c → TreeTrap (.hand x y z) s c 7) ∧
      (s.passes (hinted growSig) = some c → TreeTrap (.treegrow x y) s c 7)) ∧
    (∀ G place, s.passes (hinted (laneSig z)) = some c → sget s.groves c.W.grove = some G →
      ((∃ lane ∈ lanes, G.capacity ≤ (c.W.vget y.toNat lane).toNat) → TreeTrap (.noderead x y z) s c 6) ∧
      ((∀ lane ∈ lanes, (c.W.vget y.toNat lane).toNat < G.capacity) → (∀ e ∈ s.regq, e.2.core ≠ c.W.core) →
        Reaches s c .read false 4 4 (lanesAt c (fun lane =>
          G.nodes + 64 * BitVec.ofNat 64 (c.W.vget y.toNat lane).toNat + BitVec.ofNat 64 (4 * z.toNat))) place →
        (∀ lane ∈ lanes, ∃ key o, place lane = (List.range 4).map (fun j => .mem (key + j) o)) →
        ∃ t k, exec (.noderead x y z) s = .next t ∧ SameView s c.W.core k ∧ Produces c false { s with carve := k } t (groupOf c x 1 (fun _ lane =>
          BitVec.ofNat 32 (numOf ((place lane).map (fun p => match p with
            | .mem key _ => s.byte key
            | _ => 0))))))) ∧
    (∀ B G, s.passes (hinted (laneSig z)) = some c → c.act ≠ 0 → s.place c.W = some (B, G) →
      let pos (lane : Nat) : Nat := (c.W.vget y.toNat lane).toNat
      (G.mode = 5 → TreeTrap (.inbox x y z) s c 2) ∧
      (G.mode ≠ 5 → G.upward = true → (∃ lane ∈ lanes, count G B ≤ pos lane) → TreeTrap (.inbox x y z) s c 4) ∧
      (G.mode ≠ 5 → G.upward = false → (∃ lane ∈ lanes, 15 < z.toNat + pos lane) → TreeTrap (.inbox x y z) s c 8) ∧
      (G.mode ≠ 5 → (G.upward = true → ∀ lane ∈ lanes, pos lane < count G B) →
        (G.upward = false → ∀ lane ∈ lanes, z.toNat + pos lane ≤ 15) → (∀ e ∈ s.regq, e.2.core ≠ c.W.core) →
        HardGo s c (lanes.filterMap (fun lane => inboxPlace s c.W.grove B G z.toNat (pos lane))) →
        ∃ t k, exec (.inbox x y z) s = .next t ∧ SameView s c.W.core k ∧ Produces c false { s with carve := k } t (groupOf c x 1 (fun _ lane =>
          match (inboxPlace s c.W.grove B G z.toNat (pos lane)).bind (fun a => s.hwKey c.W.ctx a .hard) with
          | some key => BitVec.ofNat 32 (s.num key 4)
          | none => 0)))) ∧
    (∀ B G b lane, s.passes (hinted yieldSig) = some c →
      lowestLane c.act = some lane → s.place c.W = some (B, G) → c.W.block = some b → (∀ m, c.G.pend ≠ .lanes m) →
      (G.upward = false → TreeTrap (.yieldUp x y) s c 2) ∧
      (G.upward = true → G.yieldBytes < 4 * y.toNat → TreeTrap (.yieldUp x y) s c 3) ∧
      (G.upward = true → 4 * y.toNat ≤ G.yieldBytes → B.yielded = true → TreeTrap (.yieldUp x y) s c 1) ∧
      (G.upward = true → 4 * y.toNat ≤ G.yieldBytes → B.yielded = false → out → ∀ a,
        let parent := s.nodeNum G B.node 0x10 4
        (if B.node = G.root then some (G.addr + 0xC0)
          else s.inboxSlot c.W.grove G parent (B.node - s.nodeNum G parent 8 4)) = some a →
        let ready := ({ s with blocks := sput s.blocks b { B with yielded := true } } : State).writeBack c.W.core
        HardGo ready c (wordsFrom y.toNat a) → ∃ t s1, exec (.yieldUp x y) s = .next t ∧ Completes c s1 t Written.none ∧
          s1 = ready.gangWrite c a
            ((List.range y.toNat).flatMap (fun i => bytesOf 4 (c.W.vget (x.toNat + i) lane).toNat)))) ∧
    (∀ B G, s.passes (hinted handSig) = some c → c.act ≠ 0 → s.place c.W = some (B, G) →
      let low : Prop := ∃ lane ∈ lanes, count G B ≤ (c.W.vget y.toNat lane).toNat
      (G.downward = false → TreeTrap (.hand x y z) s c 2) ∧
      (G.downward = true → G.handBytes < 4 * z.toNat → TreeTrap (.hand x y z) s c 3) ∧
      (G.downward = true → 4 * z.toNat ≤ G.handBytes → low → TreeTrap (.hand x y z) s c 4) ∧
      let slots := lanes.filterMap (fun lane => (G.handSlot B.node (c.W.vget y.toNat lane).toNat).map (fun a => (a, lane)))
      (G.downward = true → 4 * z.toNat ≤ G.handBytes → ¬ low → out → HardGo clean c (slots.flatMap (fun e => wordsFrom z.toNat e.1)) →
        ∃ t s1, exec (.hand x y z) s = .next t ∧ Completes c s1 t Written.none ∧ s1 = slots.foldl
            (fun s e => s.gangWrite c e.1 ((List.range z.toNat).flatMap (fun i =>
              bytesOf 4 (c.W.vget (x.toNat + i) e.2).toNat))) clean)) ∧
    (∀ G, s.passes (hinted allocSig) = some c → c.act ≠ 0 → sget s.groves c.W.grove = some G →
      let k := (c.sread s y.toNat).toNat
      let n := s.hwNum G.ctx (G.addr + 0x14) 4
      HardGo s c ((G.addr + 0x14) :: (List.range' n k).map (fun i => G.nodes + 64 * BitVec.ofNat 64 i + 0x14)) →
      (n + k ≤ G.capacity → ∃ t, exec (.nodealloc x y z) s = .next t ∧
        Produces c false (GangPuts c s ((G.addr + 0x14, 4, n + k) ::
            (List.range' n k).map (fun i => (G.nodes + 64 * BitVec.ofNat 64 i + 0x14, 4, 0)))) t
          ((Written.scal x.toNat 1 (BitVec.ofNat 64 n)).also (Written.uni z.toNat true))) ∧
      (G.capacity < n + k → ∃ t, exec (.nodealloc x y z) s = .next t ∧
        Produces c false s t ((Written.scal x.toNat 1 0xFFFFFFFF).also (Written.uni z.toNat false)))) ∧
    (∀ B G, s.passes (hinted growSig) = some c → c.act ≠ 0 →
      s.place c.W = some (B, G) →
      let f := (c.sread s x.toNat).toNat
      let k := (c.sread s y.toNat).toNat
      let depth := clean.nodeNum G B.node 0x0E 2
      let may : Prop := clean.nodeNum G B.node 0x0C 2 = 0 ∧ 1 ≤ k ∧ k ≤ G.maxChildren ∧
        f + k ≤ clean.hwNum G.ctx (G.addr + 0x14) 4 ∧ depth + 1 < G.depth ∧
        ∀ i, f ≤ i → i < f + k → clean.nodeState G i = 0 ∧ clean.nodeOk G i = true
      let at_ (i off : Nat) : DWord := G.nodes + 64 * BitVec.ofNat 64 i + BitVec.ofNat 64 off
      let child (i : Nat) : List (DWord × Nat × Nat) :=
        [(at_ i 0x10, 4, B.node), (at_ i 0x0E, 2, depth + 1), (at_ i 0x0C, 2, 0), (at_ i 8, 4, 0),
          (at_ i 0x14, 4, 2 ^ 20 + G.phase * 2 ^ 16)]
      (G.downward = false → TreeTrap (.treegrow x y) s c 5) ∧
      let there := HardGo clean c ((G.addr + 0x14) :: at_ B.node 0 :: (List.range' f k).map (fun i => at_ i 0))
      (G.downward = true → ¬ may → out → there → exec (.treegrow x y) s = .next (clean.trapped c (Trap.of 0x13 5))) ∧
      (G.downward = true → may → out → there → ∃ t s1 core, exec (.treegrow x y) s = .next t ∧ Completes c s1 t Written.none ∧
        (∀ e, s.pathNode c.W.grove B.node = some e → core = e.1.core) ∧
        s1 = (GangPuts c clean ((List.range' f k).flatMap child ++
            [(at_ B.node 8, 4, f), (at_ B.node 0x0C, 2, k), (at_ B.node 0x14, 2, k)])).modGrove c.W.grove (fun G =>
          { G with
            grownNodes := G.grownNodes ++ List.range' f k
            subtrees := G.subtrees ++ (List.range' f k).map (fun i =>
              { node := i, core := core, parent := some B.node, grown := true }) }))) ∧
    (s.passes (hinted (fun _ => { Sig.plain with srcs := [(.s x.toNat 2, some 0)] })) = some c → c.act ≠ 0 →
      let a := c.sread2 s x.toNat
      (a.toNat % 256 ≠ 0 → exec (.grove x) s = .next (s.trapped c { Trap.of 5 0 with addr := a })) ∧
      (a.toNat % 256 = 0 → inWindow a = true → exec (.grove x) s = .next (s.trapped c { Trap.of 3 0 with addr := a })) ∧
      (a.toNat % 256 = 0 → inWindow a = false → out → ∃ t, exec (.grove x) s = .next t ∧
        Completes c { clean with subs := sput clean.subs clean.nextId { ctx := c.W.ctx, addr := a }, nextId := clean.nextId + 1 }
          t Written.none)) ∧
    (∀ b B, s.passes (hinted (fun _ => { Sig.plain with dsts := [.s x.toNat 2] })) = some c → s.blockOf c.W = some (b, B) →
      ∃ t, exec (.frame x) s = .next t ∧ Completes c s t (Written.scal x.toNat 2 B.frame)) ∧
    (s.passes (hinted (fun _ => { Sig.plain with dsts := [.s x.toNat 2] })) = some c → s.blockOf c.W = none →
      TreeTrap (.frame x) s c 7)

namespace Sys2Proof.Claims

open Sys2Proof.Machine

/-! ### Trails: the reserve line, the order of work, stealing (R213, R215 to R219, R348) -/

/-- A trail of a grove on a core, with its number. -/
def TrailOn (s : State) (g core : Nat) (x : Nat × Trail) : Prop := x ∈ s.trails ∧ x.2.grove = g ∧ x.2.core = core

/-- A child of a node that a trail of a core can enter now: a pending subtree, free to be entered there (R211, R218). -/
def Enterable (s : State) (g : Nat) (G : Grove) (core node k : Nat) : Prop :=
  k ∈ s.children G node ∧ (∃ x ∈ G.subtrees, x.node = k) ∧ s.mayEnter g G core k = true

/-- A trail waits at the node it stands at for the node's children alone (R217). -/
def WaitsFor (s : State) (g : Nat) (G : Grove) (x : Nat × Trail) (node : Nat) : Prop :=
  ∃ p r, x.2.path = p :: r ∧ p.node = node ∧ x.2.asking = none ∧ p.block = none ∧
    (if G.upward = true then p.done = false ∧ p.inbox.isSome = true else p.done = true) ∧ ∀ k, ¬ Enterable s g G x.2.core node k

/-- The reserve line goes on from a trail to another: that waits at a node whose lowest incomplete child the other holds (R217). -/
def GoesTo (s : State) (g : Nat) (G : Grove) (x y : Nat × Trail) : Prop :=
  ∃ node k, WaitsFor s g G x node ∧ (s.children G node).find? (fun c => !G.doneNodes.contains c) = some k ∧
    (∃ q ∈ y.2.path, q.node = k) ∧ y.1 ≠ x.1

/-- Bytes of the reserve line, and unallocated bytes of a core's clearing (R217). -/
def lineBytes (l : List (Nat × Trail)) : Nat :=
  (l.map (fun x => ((x.2.path.flatMap (fun p => p.frame.toList ++ p.slots ++ p.inbox.toList)).map (·.size)).sum)).sum
def freeOn (G : Grove) (core : Nat) : Nat :=
  G.clearBytes - ((G.allocs.filter (fun e => e.1 == core)).map (fun e => e.2.size)).sum

/-- A unit of some bytes fits at an offset of a core's clearing, from another offset on. -/
def FitsAt (G : Grove) (core from_ size off : Nat) : Prop :=
  from_ ≤ off ∧ off + size ≤ G.clearBytes ∧ ∀ e ∈ G.allocs, e.1 = core → ¬ (e.2.off < off + size ∧ off < e.2.off + e.2.size)

/-- What an allocation of some bytes is granted: the lowest place from an offset on, or none where none fits. -/
def LowestFit (G : Grove) (core from_ size : Nat) (r : Option Alloc) : Prop :=
  match r with
  | some a => a.size = size ∧ FitsAt G core from_ size a.off ∧ ∀ o, FitsAt G core from_ size o → a.off ≤ o
  | none => ∀ o, ¬ FitsAt G core from_ size o

/-- A trail's node may start: it has no block, is runnable, or in error since it was entered, and the first unit it needs would be granted
or has not been asked for (R209, R216 to R218). -/
def Starts (s : State) (g : Nat) (G : Grove) (x : Nat × Trail) : Prop :=
  ∃ p r, x.2.path = p :: r ∧ p.block = none ∧ p.done = false ∧
    (s.nodeNum G p.node 0x14 4 / 2 ^ 20 % 16 = 2 ∨ (p.node ∈ G.errors ∧ s.nodeNum G p.node 0x14 4 / 2 ^ 20 % 16 = 5)) ∧
    ∀ w l, s.startWants G p = w :: l → (s.grant g G x (s.wantBytes G p.node w)).isSome = true ∨ x.2.asking = none

/-- A trail may deepen into a child: the lowest that it can enter, in an upward phase before its node starts and once its inbox is
allocated, in a downward one once its block has ended, in mode 5 once it has started (R216, R218, R348); with no inbox yet, the first
child stands for it. -/
def Deepens (s : State) (g : Nat) (G : Grove) (x : Nat × Trail) (k : Nat) : Prop :=
  ∃ p r, x.2.path = p :: r ∧
    let lowest := Enterable s g G x.2.core p.node k ∧ ∀ i, Enterable s g G x.2.core p.node i → k ≤ i
    if G.upward = true then p.block = none ∧ p.done = false ∧
      ((p.inbox.isSome = true ∧ lowest) ∨ (p.inbox = none ∧ (s.children G p.node).head? = some k ∧
        ((s.grant g G x (s.wantBytes G p.node .inbox)).isSome = true ∨ x.2.asking = none)))
    else (G.downward = true → p.done = true) ∧ (G.mode = 5 → p.block.isSome = true ∨ p.done = true) ∧ lowest

/-- The order within one priority: earlier in the reserve line, then older (R218). -/
def Before (s : State) (g : Nat) (G : Grove) (core : Nat) (x y : Nat × Trail) : Prop :=
  let l := s.line g G core
  (∃ i j : Nat, i ≤ j ∧ l[i]? = some x ∧ l[j]? = some y) ∨ (x ∈ l ∧ y ∉ l) ∨ (x ∉ l ∧ y ∉ l ∧ x.2.age ≤ y.2.age)

/-- Of some pending subtrees, the one nearest the root, those that TREEGROW made behind the others in their order (R218; assumption
22). -/
def Nearest (s : State) (G : Grove) (l : List Subtree) (n : Nat) : Prop :=
  let depth (x : Subtree) : Nat := s.nodeNum G x.node 0x0E 2
  (∃ x ∈ l, x.node = n ∧ x.grown = false ∧ ∀ y ∈ l, y.grown = false → depth x < depth y ∨ (depth x = depth y ∧ n ≤ y.node)) ∨
    ((∀ x ∈ l, x.grown = true) ∧ ∃ x r, l = x :: r ∧ x.node = n)

/-- The pending subtrees that a core holds and another may enter. -/
def held (s : State) (g : Nat) (G : Grove) (holder thief : Nat) : List Subtree :=
  G.subtrees.filter (fun x => x.core == holder && s.mayEnter g G thief x.node)

/-- The cores that a thief looks to, first, second and last (R219). -/
def StealsFrom (G : Grove) (thief step h : Nat) : Prop :=
  h ∈ G.cores ∧
    (step = 0 ∧ (if G.domain 5 = 0 then h / 4 = thief / 4 else G.clusterGroup h = G.clusterGroup thief) ∨
      step = 1 ∧ h / 32 = thief / 32 ∨ step = 2 ∧ (G.domain 6 ≠ 0 → G.dieOf h = G.dieOf thief))

end Sys2Proof.Claims

open Sys2Proof Sys2Proof.Machine Sys2Proof.Claims in
/-- R213, R215, R217 to R219 and R348. The model's choices: where a unit is placed (assumption 66) and, for subtrees that TREEGROW made and
those that a thief may not enter, assumption 22. -/
def Obligations.TrailPriorities : Prop :=
  ∀ (s : State) (g core : Nat) (G : Grove), (s.trails.map (·.1)).Nodup →
    let l := s.line g G core
    let on (x : Nat × Trail) : Prop := TrailOn s g core x
    ((∀ x, ¬ on x) → l = []) ∧
    ((∃ x, on x) → ∃ x, l.head? = some x ∧ on x ∧ ∀ y, on y → x.2.age ≤ y.2.age) ∧
    (∀ (i : Nat) (x y : Nat × Trail), l[i]? = some x → l[i + 1]? = some y → on y ∧ GoesTo s g G x y) ∧
    (∀ x, l.getLast? = some x → (∀ y, on y → ¬ GoesTo s g G x y) ∨ l.length = (s.trails.filter (fun y => y.2.grove == g && y.2.core == core)).length) ∧
    (G.reserve = G.depth * ((G.maxChildren * max G.yieldBytes G.handBytes + 63) / 64 * 64 + 64 * G.maxFrame)) ∧
    (∀ node, let n := (s.children G node).length
      s.wantBytes G node .inbox = (n * G.yieldBytes + 63) / 64 * 64 ∧
      s.wantBytes G node .hand = ((if n = 0 then G.maxChildren else n) * G.handBytes + 63) / 64 * 64 ∧
      s.wantBytes G node .frame = 64 * s.nodeNum G node 6 2) ∧
    (∀ x size, on x → 0 < size →
      ((l.getLast?).map (·.1) = some x.1 → LowestFit G core 0 size (s.grant g G x size)) ∧
      ((l.getLast?).map (·.1) ≠ some x.1 →
        if size ≤ freeOn G core ∧ G.reserve ≤ freeOn G core - size + lineBytes l then
          LowestFit G core G.reserve size (s.grant g G x size)
        else s.grant g G x size = none)) ∧
    (let begins := (s.trails.filter (fun y => y.2.grove == g && y.2.core == core)).length < G.trailsPerCore
      let able := G.begun = true ∧ G.status = .running ∧ G.lost = false ∧ core ∈ G.cores ∧ s.runsOn G.ctx core = true ∧ s.faultHalts g G = false
      let steals (k h : Nat) : Prop := StealsFrom G core k h ∧ held s g G h core ≠ []
      let count (h : Nat) : Nat := (G.subtrees.filter (fun x => x.core == h)).length
      let noStart := ∀ x, on x → ¬ Starts s g G x
      let noDeep := ∀ x k, on x → ¬ Deepens s g G x k
      (∀ x ∈ G.subtrees, x.node < 2 ^ 32) → G.cores.Pairwise (· < ·) →
      (¬ able → s.nextWork g G core = none) ∧
      (able → match s.nextWork g G core with
        | some (.start t) => ∃ x, x.1 = t ∧ on x ∧ Starts s g G x ∧ ∀ y, on y → Starts s g G y → Before s g G core x y
        | some (.deepen t k) => noStart ∧ ∃ x, x.1 = t ∧ on x ∧ Deepens s g G x k ∧
          ∀ y i, on y → Deepens s g G y i → Before s g G core x y
        | some (.own n) => noStart ∧ noDeep ∧ begins ∧ Nearest s G (held s g G core core) n
        | some (.steal n) => noStart ∧ noDeep ∧ (∀ x, ¬ on x) ∧ (begins → held s g G core core = []) ∧
          ∃ k h, k < 3 ∧ steals k h ∧ (∀ i h', i < k → ¬ steals i h') ∧
            (∀ h', steals k h' → count h' < count h ∨ (count h' = count h ∧ h ≤ h')) ∧ Nearest s G (held s g G h core) n
        | none => noStart ∧ noDeep ∧ (begins → held s g G core core = []) ∧ ((∀ x, ¬ on x) → ∀ k h, k < 3 → ¬ steals k h))) ∧
    (∀ w H, s.workFor g core = some (H, w) ↔ sget s.groves g = some H ∧ s.nextWork g H core = some w ∧
      ∀ e ∈ s.groves, e.1 ≠ g → (H.priority < e.2.priority ∨ (e.2.priority = H.priority ∧ e.2.order < H.order)) →
        s.nextWork e.1 e.2 core = none)

namespace Sys2Proof.Claims

open Sys2Proof.Machine

/-- A grove but for what other devices of its group have reported to it (R324). -/
def known (G : Option Grove) : Option Grove := G.map (fun G => { G with gone := [] })

/-- The state word of a node: REMAIN the number of its children, the phase, and a state (R207, R209). -/
def atPhaseStart (G : Grove) (st : Nat) (t : State) (i : Nat) : State :=
  Puts t G.ctx [(G.nodes + 64 * BitVec.ofNat 64 i + 0x14, 4, st * 2 ^ 20 + G.phase * 2 ^ 16 + (t.children G i).length)]

/-- The MSI-X of a function that an event sends: none of a vector that its table does not hold (R312, R314). -/
def msixOf (fn vector : Nat) : List Msg := if vector < vectors fn then [.msix fn vector] else []

/-- No page of a context lies in another device's memory. -/
def Local (s : State) (ctx : Nat) : Prop := ∀ va acc key o, s.xlate ctx va acc = .go key o → isRemote key = false

/-- A trail asks for a unit that it is not granted: nothing else changes (R217). -/
def Asks (s u : State) (t : Nat) (T : Trail) (w : Want) (bytes : Nat) : Prop :=
  sget u.trails t = some { T with asking := some (w.code, bytes) } ∧ (∀ k, k ≠ t → sget u.trails k = sget s.trails k) ∧
    u.groves = s.groves ∧ u.blocks = s.blocks ∧ u.warps = s.warps ∧ u.mem = s.mem

end Sys2Proof.Claims

open Sys2Proof Sys2Proof.Machine Sys2Proof.Claims in
/-- R212, R209, R216 to R219, R29, R208 and R214: each step of a grove's own, where it has something to do, and that it
changes nothing where it has not. The submissions of a context are dealt with in order (R315, R218); a page that the host has yet to
supply, or a record that another device holds, is asked for. The state words of R209 are written at home one after another. TrailPriorities
says which work a core starts and what is granted. The model's choices: the registers of a warp that starts are zero (assumption 1), the
order of work for grown, stolen and region-bound subtrees (assumption 22), the place of a unit and of a block's scratch (assumptions 66
and 90), a trail's number (assumption 76). -/
def Obligations.GroveSteps : Prop :=
  (∀ (s : State) (id ctx : Nat) (a : DWord), sget s.subs id = some { ctx := ctx, addr := a } →
    let c := s.context ctx
    let op := EngineOp.submission id
    let cw := BitVec.ofNat 64 (s.hwNum ctx (a + 0x80) 8)
    let on : Prop := (∀ e ∈ s.subs, e.1 < id → e.2.ctx ≠ ctx) ∧ c.saved = false ∧ c.lost = false ∧ c.ladder = none ∧
      s.freeze = none ∧ s.frozenMem = none ∧ s.fnRuns (ctxFn ctx) = true
    (¬ on → exec (.groveAcceptance id) s = .next s.tick) ∧
    (a.toNat % 256 ≠ 0 → s.verdict op ctx a = .refuse 0x010C 0) ∧
    (a.toNat % 256 = 0 → s.probe op ctx a 256 .read = .bad → s.verdict op ctx a = .refuse 0x010C 0) ∧
    (a.toNat % 256 = 0 → s.probe op ctx a 256 .read = .ok → s.probe op ctx cw 8 .write = .ok → cw.toNat % 8 = 0 →
      s.hwNum ctx a 4 ≠ 0x4B470001 → s.verdict op ctx a = .refuse 0x0100 0) ∧
    (on → ∀ b p, s.verdict op ctx a = .wait b p → exec (.groveAcceptance id) s = .next (s.supply op ctx b p).tick) ∧
    (on → ∀ st node, s.verdict op ctx a = .refuse st node → st ≠ 0x010C → st ≠ 0x010D →
      s.probe op ctx cw 8 .write = .ok → cw.toNat % 8 = 0 →
      ∃ u, exec (.groveAcceptance id) s = .next u ∧ sget u.subs id = none ∧ u.groves = s.groves ∧ u.warps = s.warps ∧
        u.mem = (Puts s ctx [(cw, 8, node * 2 ^ 32 + st)]).mem) ∧
    (on → ∀ G, s.verdict op ctx a = .live G → Local s ctx → ∃ u, exec (.groveAcceptance id) s = .next u ∧ sget u.subs id = none ∧
      known (sget u.groves s.nextId) = known (some { G with slot := s.freeSlot ctx, order := id }) ∧
      (∀ k, k ≠ s.nextId → known (sget u.groves k) = known (sget s.groves k)) ∧
      u.warps = s.warps ∧ u.mem = (Puts s ctx ((s.walkNodes op G (s.hwNum ctx (a + 0x14) 4 + 1) [G.root] []).1.map (fun i =>
        (G.nodes + 64 * BitVec.ofNat 64 i + 0x38, 8, 0xFFFF)))).mem)) ∧
  (∀ (s : State) (g : Nat) (G : Grove), sget s.groves g = some G →
    (G.begun = true ∨ G.status ≠ .running ∨ s.engineRuns G.ctx = false → exec (.phaseStart g) s = .next s.tick) ∧
    (G.begun = false → G.status = .running → s.engineRuns G.ctx = true →
      let H0 := { G with grownNodes := [] }
      let nodes := s.subtree H0 (G.depth + 1) [G.root]
      let atOnce (i : Nat) : Bool :=
        decide (G.mode = 5) || (G.upward && (s.children H0 i).isEmpty) || (G.downward && decide (i = G.root))
      ∃ u H, exec (.phaseStart g) s = .next u ∧ sget u.groves g = some H ∧ H.begun = true ∧ H.completed = 0 ∧
        H.total = nodes.length ∧ H.doneNodes = [] ∧ H.phase = G.phase ∧ H.status = .running ∧
        H.subtrees = [{ node := G.root, core := (G.cores.head?).getD 0, parent := none, grown := false }] ∧
        u.mem = ((nodes.filter atOnce).foldl (atPhaseStart H0 2) (nodes.foldl (atPhaseStart H0 1) s)).mem ∧
        (∀ k, k ≠ g → sget u.groves k = sget s.groves k) ∧ u.warps = s.warps ∧ u.blocks = s.blocks ∧ u.trails = s.trails)) ∧
  (∀ (s : State) (g core : Nat),
    (∀ G n, s.workFor g core = some (G, .own n) →
      (s.nodeWait g G n = none → ∃ u T, exec (.trailBegin g core) s = .next u ∧ sget u.trails s.nextId = some T ∧
        T.grove = g ∧ T.core = core ∧ T.path.map (·.node) = [n] ∧ u.warps = s.warps) ∧
      (∀ b p, s.nodeWait g G n = some (b, p) → exec (.trailBegin g core) s = .next (s.supply (.node g n) G.ctx b p).tick)) ∧
    (∀ G n, s.workFor g core = some (G, .steal n) →
      (s.nodeWait g G n = none → ∃ u T, exec (.steal g core) s = .next u ∧ sget u.trails s.nextId = some T ∧
        T.grove = g ∧ T.core = core ∧ T.path.map (·.node) = [n] ∧ u.warps = s.warps) ∧
      (∀ b p, s.nodeWait g G n = some (b, p) → exec (.steal g core) s = .next (s.supply (.node g n) G.ctx b p).tick)) ∧
    (s.workFor g core = none → exec (.trailBegin g core) s = .next s.tick ∧ exec (.steal g core) s = .next s.tick)) ∧
  (∀ (s : State) (g t : Nat) (T : Trail) (p : TrailNode) (r : List TrailNode) (G : Grove), sget s.trails t = some T →
    T.path = p :: r →
    (∀ n, s.workFor g T.core = some (G, .deepen t n) →
      (G.upward = false ∨ p.inbox.isSome = true →
        (s.nodeWait g G n = none → ∃ u T', exec (.trailDeepen g t) s = .next u ∧ sget u.trails t = some T' ∧
          (T'.path.head?).map (·.node) = some n ∧ T'.core = T.core ∧ u.warps = s.warps) ∧
        (∀ b a, s.nodeWait g G n = some (b, a) → exec (.trailDeepen g t) s = .next (s.supply (.node g n) G.ctx b a).tick)) ∧
      (G.upward = true → p.inbox = none →
        let bytes := s.wantBytes G p.node .inbox
        (s.grant g G (t, T) bytes = none → ∃ u, exec (.trailDeepen g t) s = .next u ∧ Asks s u t T .inbox bytes) ∧
        (∀ a, s.grant g G (t, T) bytes = some a → G.policy = 0 → T.grove = g → ∃ u T', exec (.trailDeepen g t) s = .next u ∧
          sget u.trails t = some T' ∧ (∃ q ∈ T'.path, q.node = p.node ∧ q.inbox = some a) ∧ T'.core = T.core ∧
          u.warps = s.warps))) ∧
    (s.workFor g T.core = some (G, .start t) →
      (∀ s1, s.allocateAll g t p.node (s.startWants G p) = (s1, false) → exec (.nodeStart g t) s = .next s1.tick) ∧
      (∀ w l, s.startWants G p = w :: l → s.grant g G (t, T) (s.wantBytes G p.node w) = none →
        ∃ u, exec (.nodeStart g t) s = .next u ∧ Asks s u t T w (s.wantBytes G p.node w)) ∧
      (∀ s1, s.allocateAll g t p.node (s.startWants G p) = (s1, true) →
        (s1.hasBlock G p.node = true →
          ∀ B, s1.blockFor g G t T.core p.node ((s1.pathNode g p.node).bind (fun e => e.2.frame)) = some B →
          ∃ u, exec (.nodeStart g t) s = .next u ∧ sget u.blocks s1.nextId = some B ∧ B.node = p.node ∧ B.admitted = false ∧
            (∀ k, k ≠ s1.nextId → sget u.blocks k = sget s.blocks k) ∧ u.warps = s.warps ∧ u.mem = s1.mem ∧
            (s.startWants G p = [] → u.mem = s.mem)) ∧
        (s1.hasBlock G p.node = false →
          ∃ u, exec (.nodeStart g t) s = .next u ∧ u.blocks = s.blocks ∧ u.warps = s.warps))) ∧
    (T.asking = none → exec (.allocationGrant g t) s = .next s.tick) ∧
    (∀ k, sget s.groves g = some G → T.asking = some (k, s.wantBytes G p.node (wantOf k)) → T.grove = g →
      ((s.grant g G (t, T) (s.wantBytes G p.node (wantOf k)) = none ∨ s.engineRuns G.ctx = false) →
        exec (.allocationGrant g t) s = .next s.tick) ∧
      (∀ a, s.grant g G (t, T) (s.wantBytes G p.node (wantOf k)) = some a → s.engineRuns G.ctx = true →
        ∃ u T' H, exec (.allocationGrant g t) s = .next u ∧ sget u.trails t = some T' ∧ T'.asking = none ∧
          sget u.groves g = some H ∧ H.allocs = G.allocs ++ (if a.size = 0 then [] else [(T.core, a)]) ∧ u.warps = s.warps))) ∧
  (∀ (s : State) (b : Nat) (B : Block) (G : Grove), sget s.blocks b = some B → sget s.groves B.grove = some G →
    (B.admitted = true → exec (.blockAdmission b) s = .next s.tick) ∧
    (B.admitted = false → G.status = .running → G.lost = false → s.faultHalts B.grove G = false →
      B.cluster = none ∨ G.domain 5 = 0 →
      ((∃ core ∈ B.cores, s.fitsOn B core = false) ∨ s.scratchPlace B = none → exec (.blockAdmission b) s = .next s.tick) ∧
      (∀ off, (∀ core ∈ B.cores, s.fitsOn B core = true) → s.scratchPlace B = some off →
        (∀ core, B.cores.find? (fun k => !s.roomOn B k) = some core →
          (s.victim core = none → exec (.blockAdmission b) s = .next s.tick) ∧
          ∀ v, s.victim core = some v → exec (.blockAdmission b) s = .next (s.park v false).tick) ∧
        ((∀ core ∈ B.cores, s.roomOn B core = true) →
          ∃ u B', exec (.blockAdmission b) s = .next u ∧ sget u.blocks b = some B' ∧ B'.admitted = true ∧
            B'.scratch = off ∧ B'.members = List.range' s.nextId B.warps ∧
            ∀ i, i < B.warps → ∃ W, sget u.warps (s.nextId + i) = some W ∧
              (W.index, W.block, W.grove, W.ctx, W.window, W.scalars) =
                (i, some b, B.grove, B.ctx, B.desc.window, B.desc.scalars) ∧
              W.core = (B.cores[i / (B.warps / B.cores.length)]?).getD 0 ∧ W.v = [] ∧ W.p = [] ∧
              W.flags = B.desc.enable.setWidth 32 <<< 16 ∧
              W.slices = List.replicate 8 (Slice.start (G.code + BitVec.ofNat 64 (4 * B.desc.entry)) 15)))) ∧
    (s.blockQuiet b B = false ∨ s.engineRuns B.ctx = false → exec (.blockEnd b) s = .next s.tick) ∧
    (s.blockQuiet b B = true → s.engineRuns B.ctx = true → ∃ u, exec (.blockEnd b) s = .next u ∧ sget u.blocks b = none ∧
      ∀ w ∈ B.members, sget u.warps w = none)) ∧
  (∀ (s : State) (g : Nat) (G : Grove), sget s.groves g = some G →
    let op := EngineOp.completion g
    let posted : Prop := ∃ e ∈ s.requests, e.2.who = .posted ∧ e.2.ctx = G.ctx
    (s.outcome g G = none ∨ s.engineRuns G.ctx = false ∨ posted → exec (.completionWordWrite g) s = .next s.tick) ∧
    (∀ st node, s.outcome g G = some (st, node) → s.engineRuns G.ctx = true → ¬ posted →
      (∀ p, s.probe op G.ctx G.completion 8 .write = p → p.waits = true →
        exec (.completionWordWrite g) s = .next (s.supply op G.ctx G.completion p).tick) ∧
      (s.probe op G.ctx G.completion 8 .write = .ok → G.completion.toNat % 8 = 0 →
        ∃ u, exec (.completionWordWrite g) s = .next u ∧ sget u.groves g = none ∧
          u.mem = (Puts s G.ctx [(G.completion, 8, node * 2 ^ 32 + st)]).mem ∧
          (G.domain 7 ≠ 7 → Local s G.ctx → u.outbox =
            (if G.msix then msixOf (ctxFn G.ctx) (field (s.context G.ctx).cxvec.toNat 16 11) else []) ++ s.outbox) ∧
          ∀ e ∈ u.warps, e.2.grove ≠ g)))

namespace Sys2Proof.Claims

open Sys2Proof.Machine

/-! ### Spawn (R230 to R247) -/

/-- A lane's decision: accepted, or refused with a reason, as the instruction reports it in its predicate (R242, R247). -/
def decide1 (c : Ctx) (p lane : Nat) (s : State) : Offer → Option State
  | .yes s1 => some (s1.modWarp c.w (fun W => W.pputs (BitVec.ofNat 32 (2 ^ lane)) p (BitVec.allOnes 32)))
  | .no reason => some ((s.modWarp c.w (fun W => { W with refusal := reason })).modWarp c.w
      (fun W => W.pputs (BitVec.ofNat 32 (2 ^ lane)) p 0))
  | _ => none

/-- The lanes' decisions, ascending. -/
def decided (c : Ctx) (x e n p : Nat) (join : Bool) : List Nat → State → Option State
  | [], s => some s
  | lane :: r, s =>
    (sget s.groves c.W.grove).bind (fun G =>
      (decide1 c p lane s (offer c s G e n (payloadOf c x n lane) (if join then some (c.W.vget2 (x + 4) lane) else none) lane)).bind
        (decided c x e n p join r))

/-- The counter of an instruction is reached: an aligned canonical address outside the window, whose bytes lie at `key`, of this
device's memory or the host's, no store of the core on its way, no access to an ordered page that it waits for, and no request of the
instruction. -/
def Counts (c : Ctx) (s : State) (acc : Acc) (a : DWord) (key : Nat) : Prop :=
  a.toNat % 8 = 0 ∧ canonical a = true ∧ inWindow a = false ∧ (∀ e ∈ s.regq, e.2.core ≠ c.W.core) ∧
    (s.onOrdered c.W.ctx a = true → s.orderedBusy c = false) ∧ (∀ lane, s.onceOf c.w (c.W.groupPc c.G) lane = none) ∧
    ∃ o, laneAccess s c acc 8 a = .go ((List.range 8).map (fun j => .mem (key + j) o))

/-- A counter at `key` has had `k` added; nothing else of memory has changed but cells of the dirty log (R237, R239, R309). -/
def Added (fn : Nat) (s s1 : State) (key k : Nat) : Prop :=
  ((∀ j, j < 8 → ¬ LogCell s fn (key + j)) → s1.num key 8 = (s.num key 8 + k) % 2 ^ 64) ∧
  ∀ q, (q < key ∨ key + 8 ≤ q) → ¬ LogCell s fn q → s1.byte q = s.byte q

end Sys2Proof.Claims

open Sys2Proof Sys2Proof.Machine Sys2Proof.Claims in
/-- R242 with R230 to R233: after the release each active lane is decided in ascending order; the quota first, then a place, then
the join counter. R243 to R247, each after the spilled saplings that fit are back in the seedbed (R233). The model's choices: a lane that
would be refused waits while a sapling that holds a place is still undecided (assumption 89), and a JOINWAIT whose warp was woken
completes without reading its counter again (assumption 29). -/
def Obligations.SpawnInstructions : Prop :=
  ∀ (x y : BitVec 7) (j : BitVec 1) (w : BitVec 2) (p : BitVec 3) (s : State) (c : Ctx) (G : Grove),
    let n := w.toNat + 1
    let clean := s.writeBack c.W.core
    let out := s.storesOut c.w c.G.slices = false ∧ s.drainsOut c.w c.G.slices = false ∧ s.writable c.W.core = true
    let e := (c.sread s y.toNat).toNat
    let trap (i : Instr) (cls detail : Nat) : Prop := exec i s = .next (s.trapped c (Trap.of cls detail))
    (s.passes (hinted (fun _ => { Sig.plain with
        guard := true
        srcs := ((List.range n).map (fun i => (.v (x.toNat + i) 1, some 0))) ++
          (if j == 1 then [(.v (x.toNat + 4) 2, some 0)] else []) ++ [(.s y.toNat 1, some 1)]
        legal := x.toNat % 2 == 0 })) = some c → sget s.groves c.W.grove = some G →
      (64 ≤ e ∨ G.kernelCount ≤ e → trap (.spawn x y j w p) 0x14 1) ∧
      (e < 64 → e < G.kernelCount → (∀ d, sget G.kernels e = some d →
          ¬ (d.team = 1 ∧ d.pair = false ∧ d.scratch = 0 ∧ d.tileCount = 0)) → trap (.spawn x y j w p) 0x14 2) ∧
      (∀ d, e < 64 → e < G.kernelCount → sget G.kernels e = some d → d.team = 1 → d.pair = false → d.scratch = 0 →
        d.tileCount = 0 → out → (∀ m, c.G.pend ≠ .lanes m) →
        (∀ lane, s.onceOf c.w (c.W.groupPc c.G) lane = none) →
        (j = 1 → issueFault s c false 8 8 (laneAddrs c (fun lane => c.W.vget2 (x.toNat + 4) lane)) = none) →
        ∀ s1 W1, decided c x.toNat e n p.toNat (j == 1) (lanesOf c.act) clean = some s1 → sget s1.warps c.w = some W1 →
        ∃ t, exec (.spawn x y j w p) s = .next t ∧ Completes { c with W := W1 } s1 t Written.none)) ∧
    (∀ lane join, let load := payloadOf c x.toNat n lane
      let no (r : Nat) : Offer := if s.undecided c.W.grove c.W.core then .wait s else .no r
      (G.quota ≤ G.accepted → offer c s G e n load join lane = no 1) ∧
      (G.accepted < G.quota → (s.refill c.W.core).spot c.W.grove G c.W.core = .full → offer c s G e n load join lane = no 2) ∧
      (sget s.groves c.W.grove = some G → G.accepted < G.quota → (s.seedbed c.W.core).length < 4096 →
        (∀ a ∈ s.saplingsOn c.W.core, a.2.ring = none ∧ a.2.away = false) →
        ∃ s1, (join = none → offer c s G e n load join lane = .yes s1 ∧ s1.mem = s.mem) ∧
          (∀ a key, join = some a → Counts c s .both a key → offer c s G e n load join lane = .yes s1 ∧
            Added (ctxFn c.W.ctx) s s1 key 1) ∧
          (join = none ∨ (∃ a key, join = some a ∧ Counts c s .both a key) →
            sget s1.saplings s.nextId = some {
              core := c.W.core, bin := e, grove := c.W.grove, payload := load, words := n, join := join, time := s.time
              ring := none, away := false, ready := true, named := false } ∧
            sget s1.groves c.W.grove = some { G with accepted := G.accepted + 1 } ∧ s1.warps = s.warps))) ∧
    (s.passes (hinted (fun _ => { Sig.plain with legal := decide (x.toNat ≤ 64) })) = some c →
      let bed := s.refill c.W.core
      let here := (bed.saplingsOn c.W.core).map (·.1)
      let named (a : Nat × Sapling) : Bool := here.contains a.1 && a.2.ring.isNone && !a.2.away && a.2.ready &&
        (decide (x.toNat = 64) || decide (a.2.bin = x.toNat))
      ∃ t m, exec (.spawnf x) s = .next t ∧ Completes c { s with saplings := m } t Written.none ∧
        m = bed.saplings.map (fun a => if named a then (a.1, { a.2 with named := true }) else a)) ∧
    (s.passes (hinted (fun _ => { Sig.plain with srcs := [(.s x.toNat 2, some 0)] })) = some c →
      let a := c.sread2 s x.toNat
      (c.G.pend = .join a true → s.loadsOut c.w c.G.slices = false →
        ∃ t, exec (.joinwait x) s = .next t ∧ Completes c (s.acquire c.W.core) t Written.none) ∧
      (c.G.pend ≠ .join a true → a.toNat % 8 ≠ 0 → exec (.joinwait x) s = .next (s.trapped c { Trap.of 5 0 with addr := a })) ∧
      (∀ key, c.G.pend ≠ .join a true → Counts c s .read a key →
        (s.num key 8 = 0 → s.loadsOut c.w c.G.slices = false →
          ∃ t k, exec (.joinwait x) s = .next t ∧ SameView s c.W.core k ∧
            Completes c (({ s with carve := k } : State).acquire c.W.core) t Written.none) ∧
        (s.num key 8 ≠ 0 → ∃ t W g, exec (.joinwait x) s = .next t ∧ sget t.warps c.w = some W ∧ W.gangAt c.j = some g ∧
          g.slices = c.G.slices ∧ W.slices = c.W.slices ∧ W.v = c.W.v ∧ W.p = c.W.p ∧ W.flags = c.W.flags ∧ t.mem = s.mem ∧
          (s.outstanding c.w = true → g.pend = .issued ∧ W.residency = c.W.residency) ∧
          (s.outstanding c.w = false → c.W.residency = .resident → c.W.callers = [] →
            g.pend = .join a false ∧ W.residency = .parked false s.nextId)))) ∧
    (s.passes (hinted (fun _ => { Sig.plain with srcs := [(.s x.toNat 2, some 0), (.s y.toNat 1, some 1)] })) = some c →
      (c.act = 0 → ∃ t, exec (.joinadd x y) s = .next t ∧ Completes c s t Written.none) ∧
      (∀ key, c.act ≠ 0 → Counts c clean .both (c.sread2 s x.toNat) key → out → ∃ t s1, exec (.joinadd x y) s = .next t ∧
        Completes c s1 t Written.none ∧ Added (ctxFn c.W.ctx) clean s1 key ((c.sread s y.toNat).signExtend 64).toNat)) ∧
    (s.passes (hinted (fun _ => { Sig.plain with
        guard := true, dsts := (List.range y.toNat).map (fun i => .v (x.toNat + i) 1)
        legal := decide (1 ≤ y.toNat) && decide (y.toNat ≤ 4) })) = some c →
      (c.W.block.isSome = true → trap (.payload x y) 0x14 3) ∧
      (c.W.block = none → (∀ lane ∈ lanesOf c.act, (sget c.W.saplings lane).isSome = true) →
        ∃ t, exec (.payload x y) s = .next t ∧ Produces c false s t (groupOf c x y.toNat (fun i lane =>
          (((sget c.W.saplings lane).map (·.1)).getD [])[i]?.getD 0)))) ∧
    (s.passes (hinted (fun _ => { Sig.plain with
        dsts := [.s x.toNat 1], legal := decide (y.toNat ≤ 4) || decide (64 ≤ y.toNat) })) = some c →
      sget s.groves c.W.grove = some G →
      let r := s.refill c.W.core
      let mine (l : SMap Sapling) : SMap Sapling := l.filter (fun e => e.2.grove == c.W.grove && e.2.ready)
      let bed := mine (r.seedbed c.W.core)
      let W1 : Warp := if y.toNat = 4 then { c.W with refusal := 0 } else c.W
      ∃ t, exec (.spquery x y) s = .next t ∧ Produces { c with W := W1 } false (r.setWarp c.w W1) t
        (Written.scal x.toNat 1 (BitVec.ofNat 64 ((match y.toNat with
          | 0 => min (G.quota - G.accepted) 0xFFFFFFFF
          | 1 => bed.length
          | 2 => (mine (r.spilled c.W.core)).length
          | 3 => G.ringSize
          | 4 => c.W.refusal
          | k => (bed.filter (fun e => e.2.bin + 64 == k)).length) % 2 ^ 32))))

open Sys2Proof Sys2Proof.Machine Sys2Proof.Claims in
/-- R235, R236, R237, R239 and R244, with R233: what is spilled goes back to the seedbed first. -/
def Obligations.SaplingSteps : Prop :=
  (∀ (s0 : State) (core bin g k : Nat) (a : Sapling) (r : SMap Sapling),
    let s := s0.refill core
    s.bin core bin g = (k, a) :: r →
    (a.time + 4096 ≤ s.time → (core, bin, g) ∉ s.flushes → ∃ t, exec (.binTimerExpiry core bin g) s0 = .next t ∧
      t = { s with flushes := s.flushes ++ [(core, bin, g)], progress := t.progress }) ∧
    (s.time < a.time + 4096 → exec (.binTimerExpiry core bin g) s0 = .next s.tick)) ∧
  (∀ (s0 : State) (core bin g : Nat) (G : Grove),
    let s := s0.refill core
    sget s.groves g = some G →
    let l := s.bin core bin g
    let due : Prop := 32 ≤ l.length ∨ (∃ e ∈ l, e.2.named = true) ∨ (core, bin, g) ∈ s.flushes ∨ s.coreIdle core = true
    (l = [] ∨ s.runsOn G.ctx core = false ∨ ¬ due → exec (.saplingWarpFormation core bin g) s0 = .next s.tick) ∧
    (∀ d entry, l ≠ [] → s.runsOn G.ctx core = true → due →
      sget G.kernels bin = some d → s.saplingEntry core d.window = some entry →
      ∃ t W, exec (.saplingWarpFormation core bin g) s0 = .next t ∧ sget t.warps s.nextId = some W ∧
        (W.core, W.entry, W.block, W.grove, W.ctx, W.index, W.kernel, W.window) =
          (core, entry, none, g, G.ctx, 0, bin, d.window) ∧ W.residency = .resident ∧
        (∀ i e, i < 32 → (l.take 32)[i]? = some e → sget W.saplings i = some (e.2.payload, e.2.join) ∧
          ∀ n, n < 4 → W.vget n i = (e.2.payload[n]?).getD 0) ∧
        (∀ j, j < 8 → ∀ i, i < 4 → ((W.slice j).active.getLsbD i = true ↔ 4 * j + i < (l.take 32).length)) ∧
        (core, bin, g) ∉ t.flushes ∧
        (∀ e ∈ t.saplings, ∀ f ∈ l.take 32, e.1 ≠ f.1) ∧ (∀ w, w ≠ s.nextId → sget t.warps w = sget s.warps w) ∧ t.mem = s.mem)) ∧
  (∀ (s : State) (id : Nat) (x : SaplingExit), sget s.exits id = some x → s.exitRequest id = none →
    let core := ((sget s.warps x.warp).map (fun W : Warp => W.core)).getD 0
    (s.exitQuiet x.warp id = false ∨ s.engineRuns x.ctx = false → exec (.saplingExit id) s = .next s.tick) ∧
    (s.exitQuiet x.warp id = true → s.engineRuns x.ctx = true →
      (x.join = none → ∃ t, exec (.saplingExit id) s = .next t ∧ sget t.exits id = none ∧ t.mem = s.mem) ∧
      (∀ a key o, x.join = some a → s.xlateFor x.ctx core none (vaOf a) .hard = .go key o → isRemote key = false →
        (s.onOrdered x.ctx a = true → s.orderedGang core x.warp 0 = false ∧ s.orderedRows core id = false ∧ s.orderedAway core = false) →
        s.held = [] → s.regq = [] →
        ∃ t, exec (.saplingExit id) s = .next t ∧ sget t.exits id = none ∧ Added (ctxFn x.ctx) s t key (2 ^ 64 - 1)))) ∧
  (∀ (s : State) (w : Nat) (W : Warp) (o : Nat), sget s.warps w = some W → W.residency = .parked false o →
    (∀ (l r : List Gang) (g : Gang) (a : DWord) (key : Nat) (p : Bool), W.gangs = l ++ g :: r →
      (∀ h ∈ l ++ r, ∀ b, h.pend ≠ .join b false) → g.pend = .join a false → W.gangAt (lowSlice g.slices) = some g →
      s.onceOf w (W.groupPc g) 0 = none → s.xlateFor W.ctx W.core (some w) (vaOf a) .read = .go key p →
      isRemote key = false → s.poisoned key 8 = false →
      (s.num key 8 = 0 → ∃ t, exec (.joinwaitWake w) s = .next t ∧ sget t.warps w =
        some { W.modGang (lowSlice g.slices) (fun g => { g with pend := .join a true }) with
          residency := .parked true s.nextId, urgent := true } ∧
        (∀ v, v ≠ w → sget t.warps v = sget s.warps v) ∧ t.mem = s.mem) ∧
      (s.num key 8 ≠ 0 → exec (.joinwaitWake w) s = .next s.tick)) ∧
    (∀ t V, exec (.joinwaitWake w) s = .next t → sget t.warps w = some V → V.joining = true → V.residency = W.residency))

namespace Sys2Proof.Claims

open Sys2Proof.Machine

/-! ### Capsules (R248 to R260) -/

/-- The record at a key as its capsule was acquired by a lane (R248 to R252): among the rest, the holder's identity whole, the slot
of its grove and the number of its context with the token (R251). -/
def Held (s0 s : State) (W : Warp) (lane base : Nat) (body : DWord) (key : Nat) : Prop :=
  let seq := nextSeq (W.cap lane).seq
  let token := W.core * 2 ^ 25 + W.entry * 2 ^ 14 + lane * 2 ^ 9 + seq
  let slot := ((sget s0.groves W.grove).map (·.slot)).getD 0
  s.num (key + 4) 4 = token % 2 ^ 32 ∧ s.num (key + 3) 1 = 1 ∧ s.num (key + 2) 1 = 0 ∧ s.num key 2 = s0.num key 2 ∧
    s.num (key + 8) 4 = (body - W.code).toNat / 4 % 2 ^ 32 ∧
    field (s.num (key + 0x0C) 4) 23 3 = base / 16 % 8 ∧ field (s.num (key + 0x0C) 4) 26 6 = 0 ∧
    (∀ i, i < 7 → (s.num (key + 0x0C) 4).testBit (16 + i) = (W.pmask i).getLsbD lane) ∧
    (∀ i, i < 16 → s.num (key + 0x10 + 4 * i) 4 = (W.vget (base + i) lane).toNat) ∧
    s.num (key + 0x0C) 4 % 2 ^ 16 = 0 ∧
    s.num (key + 0x50) 8 = (slot * 2 ^ 56 + s0.ctxNum W.ctx * 2 ^ 32 + token % 2 ^ 32) % 2 ^ 64 ∧ s.num (key + 0x60) 8 = 0 ∧ s.num (key + 0x58) 4 = 0

/-- A gang reaches a record at a key, of this device's memory or the host's, with nothing to wait for (R154, R155, R248). -/
def RecordAt (c : Ctx) (s : State) (a : DWord) (key : Nat) : Prop :=
  (s.onOrdered c.W.ctx a = true → s.orderedBusy c = false) ∧ isRemote key = false ∧
    (∀ e ∈ s.requests, ∀ part, e.2.who ≠ .engine (.gang c.w c.G.slices) part) ∧
    (∃ o, s.xlateFor c.W.ctx c.W.core (some c.w) (vaOf a) .both = .go key o) ∧
    ∃ o, laneAccess s c .both 128 a = .go ((List.range 128).map (fun i => .mem (key + i) o))

/-- The record at its home, the gang's earlier stores to it registered (R158). -/
def atRecord (c : Ctx) (s : State) (key : Nat) : State := s.atHome c.party (s.ctxStand c.W.ctx) key 128

/-- Lanes acquire their free records one after another; those that have already are skipped (R252). -/
def Acquired (c : Ctx) (base y : Nat) : List Nat → State → State → Prop
  | [], s, t => t = s
  | lane :: r, s, t =>
    if acquiredHere c s y lane = true then Acquired c base y r s t
    else ∃ key, RecordAt c s (c.W.vget2 y lane) key ∧ (atRecord c s key).num (key + 3) 1 = 0 ∧
      Acquired c base y r ((atRecord c s key).acquireCap c lane base (c.W.vget2 y lane) key) t

/-- A lane's registers and predicates are some words and bits from a base on; every other lane's, and its others, are as before. -/
def Loaded (W V : Warp) (lane base : Nat) (regs : List Word) (preds : Nat → Bool) : Prop :=
  (∀ r k, k < 32 → V.vget r k = if k = lane ∧ base ≤ r ∧ r < base + regs.length then (regs[r - base]?).getD 0 else W.vget r k) ∧
    ∀ i k, i < 7 → k < 32 → (V.pmask i).getLsbD k = if k = lane then preds i else (W.pmask i).getLsbD k

/-- A lane adopts the record at a key, away there: steps 1 to 3 of R256. -/
def Adopted (c : Ctx) (s u : State) (lane : Nat) (a : DWord) (key : Nat) (got : Word) : Prop :=
  let seq := nextSeq (c.W.cap lane).seq
  let token := BitVec.ofNat 32 (c.W.core * 2 ^ 25 + c.W.entry * 2 ^ 14 + lane * 2 ^ 9 + seq)
  let slot := ((sget s.groves c.W.grove).map (·.slot)).getD 0
  let word := s.num (key + 0x0C) 4
  let h := field word 23 3 * 16
  let entry := c.W.code + 4 * BitVec.ofNat 64 (s.num (key + 8) 4)
  (u.num (key + 3) 1 = 3 ∧ u.num key 2 = (s.num key 2 + 1) % 2 ^ 16 ∧ u.num (key + 4) 4 = s.num (key + 4) 4 ∧
    u.num (key + 2) 1 = s.num (key + 2) 1 ∧
    u.num (key + 0x60) 8 = (slot * 2 ^ 56 + s.ctxNum c.W.ctx * 2 ^ 32 + token.toNat) % 2 ^ 64 ∧
    ∀ q, (q < key ∨ key + 8 ≤ q) → (q < key + 0x60 ∨ key + 0x68 ≤ q) → ¬ LogCell s (ctxFn c.W.ctx) q → u.byte q = s.byte q) ∧
  ∃ W b g, sget u.warps c.w = some W ∧ W.adopts = b :: c.W.adopts ∧
    b = { lane := lane, slices := c.G.slices, pc := c.W.pcOf c.G, actives := c.W.slices.map (·.active), preds := b.preds, regs := (List.range 16).map (fun i => c.W.vget (h + i) lane), base := h, acquired := got } ∧
    (∀ i, i < 7 → b.preds.getLsbD i = (c.W.pmask i).getLsbD lane) ∧
    Loaded c.W W lane h ((List.range 16).map (fun i => BitVec.ofNat 32 (s.num (key + 0x10 + 4 * i) 4))) (fun i => word.testBit (16 + i)) ∧
    W.cap lane = { c.W.cap lane with
      inside := true, record := a, kbase := h, entry := entry, step := s.num (key + 2) 1, own := 0, seq := seq, token := token,
      adopting := true, result := none, reply := none } ∧
    (∀ j, W.slice j = if j = lane / 4 then { c.W.slice j with
        active := 1#4 <<< (lane % 4), pc := entry + 4 * BitVec.ofNat 64 (field word 26 6) } else c.W.slice j) ∧
    W.gangAt (lane / 4) = some g ∧ g.slices = 1#8 <<< (lane / 4) ∧ g.pend = .none ∧ g.wait = none

/-- A run's buffer is restored: its gang stands at its CAPBEGIN again, its lane in no capsule (R256, step 6). -/
def Restored (b : AdoptBuffer) (W V : Warp) : Prop :=
  V.adopts = W.adopts.filter (fun x => x.lane != b.lane) ∧ (V.cap b.lane).inside = false ∧
    (∀ j, j < 8 → b.slices.getLsbD j = true → (V.slice j).pc = b.pc ∧ (V.slice j).active = (b.actives[j]?).getD 0) ∧
    Loaded W V b.lane b.base b.regs (fun i => b.preds.getLsbD i) ∧ ∃ g ∈ V.gangs, g.slices = b.slices

/-- A lane has left its capsule and its slice's active mask, its CAPRES word as given (R257, R258). -/
def Detached (lane : Nat) (word : Word) (W V : Warp) : Prop :=
  (V.cap lane).inside = false ∧ (V.cap lane).result = none ∧ (V.cap lane).last = word ∧
    ∀ j, V.slice j = if j = lane / 4 then { W.slice j with
      active := (W.slice j).active &&& ~~~(1#4 <<< (lane % 4)), detached := (W.slice j).detached ||| (1#4 <<< (lane % 4)) } else W.slice j

/-- A lane with its adopted mark set detaches, sending nothing: it takes its slot, and the gang acquires (R257, R260). -/
def TakesSlot (c : Ctx) (s u : State) (W : Warp) (lane : Nat) : Prop :=
  ∃ regs preds word V, (W.cap lane).result = some (regs, preds, word) ∧ sget u.warps c.w = some V ∧
    Loaded W V lane (W.cap lane).kbase regs (fun i => preds.getLsbD i) ∧
    Detached lane (BitVec.ofNat 32 (word.toNat / 2 ^ 16 * 2 ^ 16 + (W.cap lane).own * 2 ^ 8 + word.toNat % 8)) W V ∧
    { u with warps := s.warps, carve := s.carve } = s ∧ ∀ key, u.coreByte c.W.core key = (s.acquire c.W.core).coreByte c.W.core key

/-- A run is abandoned: its buffer is restored and nothing else of the machine changes (R256). -/
def Abandons (c : Ctx) (s u : State) (W : Warp) : Prop :=
  ∃ b V, c.W.adoption c.G.slices = some b ∧ sget u.warps c.w = some V ∧ Restored b W V ∧ { u with warps := s.warps } = s

/-- Lanes end their capsules one after another (R258, R260). -/
def Ended (c : Ctx) (abort : Bool) : List Nat → State → State → Prop
  | [], s, t => t = s
  | lane :: r, s, t => ∃ u, endLane c abort lane s = .past u ∧ Ended c abort r u t

/-- A gang waits at its instruction, its lanes' wait for a delivery or a record noted, and its warp is parked once its register writes
have landed (R31, R252, R257). -/
def Parks (c : Ctx) (s t : State) (p : Pending) : Prop :=
  ∃ W g, sget t.warps c.w = some W ∧ W.gangAt c.j = some g ∧ g.pend = p ∧ g.slices = c.G.slices ∧ W.slices = c.W.slices ∧ t.mem = s.mem ∧
    (s.outstanding c.w = false → c.W.residency = .resident → c.W.callers = [] → ∃ o, W.residency = .parked false o)

end Sys2Proof.Claims

open Sys2Proof Sys2Proof.Machine Sys2Proof.Claims in
/-- R252 with the record of R248 to R251; R256 to R258 and R260. A record that another device holds is read and written by requests
(assumption 52), which the hypotheses leave out. -/
def Obligations.CapsuleInstructions : Prop :=
  (∀ (x y : BitVec 7) (s : State) (c : Ctx), s.passes (hinted (fun _ =>
      { Sig.plain with srcs := [(.v x.toNat 16, some 0), (.v y.toNat 2, some 1)], body := .own })) = some c →
    let lanes := lanesOf c.base
    let addr (lane : Nat) : DWord := c.W.vget2 y.toNat lane
    let fresh := lanes.filter (fun lane => !acquiredHere c s y.toNat lane)
    let begin_ := Instr.capbegin x y
    issueFault s c false 128 128 (fresh.map (fun lane => (lane, addr lane))) = none → c.W.adoption c.G.slices = none →
      (c.W.capsules = false → exec begin_ s = .next (s.trapped c (Trap.of 0x15 1))) ∧
      (c.W.capsules = true → ((∃ lane ∈ fresh, (c.W.cap lane).inside = true) ∨ ¬ (lanes.map addr).Nodup) →
        exec begin_ s = .next (s.trapped c (Trap.of 0x15 2))) ∧
      (c.W.capsules = true → (∀ lane ∈ fresh, (c.W.cap lane).inside = false) → (lanes.map addr).Nodup →
        (∀ s1 W1, Acquired c x.toNat y.toNat lanes s s1 → s1.loadsOut c.w c.G.slices = false → sget s1.warps c.w = some W1 →
          ∃ t, exec begin_ s = .next t ∧ Completes { c with W := W1 } (s1.acquire c.W.core) t Written.none) ∧
        (∀ l r lane s1 key, lanes = l ++ lane :: r → Acquired c x.toNat y.toNat l s s1 → acquiredHere c s1 y.toNat lane = false →
          RecordAt c s1 (addr lane) key →
          let s2 := atRecord c s1 key
          let st := s2.num (key + 3) 1
          let h := field (s2.num (key + 0x0C) 4) 23 3 * 16
          let slot := ((sget s.groves c.W.grove).map (·.slot)).getD 0
          let adopts : Prop := (st = 2 ∨ st = 4) ∧ h + 15 < c.W.window ∧
            s2.num (key + 0x50) 8 / 2 ^ 32 = (slot * 2 ^ 56 + s.ctxNum c.W.ctx * 2 ^ 32) / 2 ^ 32
          (st = 5 → exec begin_ s = .next (s2.trapped c (Trap.of 0x15 8))) ∧
          (adopts → c.W.kFull h lane = true →
            exec begin_ s = .next ((s2.adoptCap c lane (addr lane) key (maskOf l)).finish c)) ∧
          (st ≠ 0 → st ≠ 5 → ¬ adopts → ∃ t, exec begin_ s = .next t ∧ Parks c s2 t (.capsule (maskOf l)))))) ∧
  (∀ (s : State) (c : Ctx) (lane base : Nat) (a : DWord) (key : Nat), sget s.warps c.w = some c.W → lane < 32 → isRemote key = false →
    (∀ q, key ≤ q → q < key + 128 → ¬ LogCell s (ctxFn c.W.ctx) q) →
    let u := s.acquireCap c lane base a key
    (Held s u c.W lane base (c.W.pcOf c.G + 4) key ∧ (∀ q, (q < key ∨ key + 128 ≤ q) → ¬ LogCell s (ctxFn c.W.ctx) q → u.byte q = s.byte q) ∧
      ∃ W, sget u.warps c.w = some W ∧ (W.cap lane).inside = true ∧ (W.cap lane).record = a ∧ (W.cap lane).kbase = base ∧
        (W.cap lane).step = 0 ∧ (W.cap lane).seq = nextSeq (c.W.cap lane).seq ∧ W.slices = c.W.slices ∧ W.v = c.W.v) ∧
    (∀ got, c.W.slices.length = 8 → c.W.gangAt (lane / 4) = some c.G → Adopted c s (s.adoptCap c lane a key got) lane a key got)) ∧
  (∀ (s : State) (c : Ctx), s.passes (hinted (fun _ => { Sig.plain with body := .free })) = some c →
    s.storesOut c.w c.G.slices = false → s.drainsOut c.w c.G.slices = false → s.writable c.W.core = true → c.doneLanes = 0 →
    let apart := ∃ j, j < 8 ∧ c.G.slices.getLsbD j = true ∧ (c.W.slice j).detached ≠ 0
    let clean := s.writeBack c.W.core
    (c.capLanes = [] → ¬ apart → exec .capend s = .next (s.trapped c (Trap.of 0x15 7)) ∧
      exec .capabort s = .next (s.trapped c (Trap.of 0x15 7))) ∧
    (c.capLanes ≠ [] ∨ apart → (∀ s1 W1, Ended c false c.capLanes clean s1 → sget (s1.rejoin c).warps c.w = some W1 →
        (∀ j, j < c.W.slices.length → c.G.slices.getLsbD j = true → (W1.slice j).detached = 0) ∧
        ∃ t, exec .capend s = .next t ∧ Completes { c with W := W1 } (s1.rejoin c) t Written.none) ∧
      (∀ s1 W1, Ended c true c.capLanes clean s1 → sget s1.warps c.w = some W1 →
        ∃ t, exec .capabort s = .next t ∧ Completes { c with W := W1 } s1 t Written.none)) ∧
    (∀ lane u, c.capLanes = [lane] →
      (endLane c false lane clean = .delivery u → ∃ t, exec .capend s = .next t ∧ Parks c u t (.delivery 0)) ∧
      (endLane c true lane clean = .delivery u → ∃ t, exec .capabort s = .next t ∧ Parks c u t (.delivery 0)) ∧
      (endLane c false lane clean = .abandoned u → exec .capend s = .next (u.finish c)) ∧
      (endLane c true lane clean = .abandoned u → exec .capabort s = .next (u.finish c)))) ∧
  (∀ (s : State) (c : Ctx) (W : Warp) (lane key : Nat) (abort : Bool), sget s.warps c.w = some W → lane < 32 → W.slices.length = 8 →
    let x := W.cap lane
    let held : Prop := s.num (key + 3) 1 = 1 ∧ s.num (key + 4) 4 = x.token.toNat
    let runs : Prop := s.num (key + 3) 1 = 3 ∧ s.num (key + 0x60) 4 = x.token.toNat
    let word (own code : Nat) : Nat := (s.num key 2 * 2 ^ 16 + own * 2 ^ 8 + code) % 2 ^ 32
    (x.adopting = false → x.result.isSome = true → c.settled s lane = true → ∃ u, endLane c abort lane s = .past u ∧ TakesSlot c s u W lane) ∧
    (RecordAt c s x.record key → (∀ q, key ≤ q → q < key + 128 → ¬ LogCell s (ctxFn c.W.ctx) q) →
      (x.adopting = false → x.result = none → ¬ held → endLane c abort lane s = .delivery s) ∧
      (x.adopting = false → x.result = none → held → (abort = true → c.settled s lane = true) →
        ∃ u V, endLane c abort lane s = .past u ∧ u.num key 8 = s.num key 2 ∧
          u.num (key + 0x58) 4 = word x.own (if abort then 3 else 1) ∧ sget u.warps c.w = some V ∧ V.v = W.v ∧ V.p = W.p ∧
          (if abort then Detached lane (BitVec.ofNat 32 (word x.own 3)) W V
            else (V.cap lane).inside = false ∧ (V.cap lane).last = BitVec.ofNat 32 (word x.own 1) ∧ V.slices = W.slices)) ∧
      (∀ b, x.adopting = true → c.settled s lane = true → c.W.adoption c.G.slices = some b → b.lane < 32 →
          (∃ g ∈ W.gangs, g.slices &&& b.slices ≠ 0) →
        (¬ runs → ∃ u, endLane c abort lane s = .abandoned u ∧ Abandons c s u W) ∧
        (runs → ∃ u V, endLane c abort lane s = .abandoned u ∧ sget u.warps c.w = some V ∧ Restored b W V ∧
          u.num (key + 0x58) 4 = word (((sget s.holders key).map (·.own)).getD 0) (if abort then 4 else 2) ∧
          (∀ i, i < 16 → u.num (key + 0x10 + 4 * i) 4 = (c.W.vget (x.kbase + i) lane).toNat) ∧
          field (u.num (key + 0x0C) 4) 26 6 = ((c.W.pcOf c.G - x.entry).toNat / 4 + 1) % 64 ∧ u.num key 8 = s.num key 8 ∧
          ∃ d, sget u.deliveries s.nextId = some d ∧ d.record = key ∧ d.holder = sget s.holders key ∧ d.acked = false ∧ d.frees = true ∧
            d.regs = (List.range 16).map (fun i => c.W.vget (x.kbase + i) lane) ∧
            (∀ i, i < 7 → d.preds.getLsbD i = (c.W.pmask i).getLsbD lane) ∧ d.status.toNat = u.num (key + 0x58) 4)))) ∧
  (∀ (x : BitVec 7) (s : State) (c : Ctx), s.passes (hinted (fun _ => { Sig.plain with dsts := [.v x.toNat 1] })) = some c →
    ∃ t, exec (.capres x) s = .next t ∧ Produces c false s t (groupOf c x 1 (fun _ lane => (c.W.cap lane).last)))

namespace Sys2Proof.Claims

open Sys2Proof.Machine

/-- An instruction issues in a body: a lane of the gang's active masks is in a capsule, and the checks of R71 and R56 before the body's
pass (R253). -/
def InBody (s : State) (sig : Ctx → State → Sig) (c : Ctx) : Prop :=
  ∃ c0, s.issuing = some c0 ∧ c = c0.guarded (sig c0 s) ∧ stallEnd c s.time = none ∧ front c (sig c0 s) = none ∧
    ready c (sig c0 s) = true ∧ s.acquiring c = false ∧ c.capLanes ≠ []

/-- A lane's word offset in its body (R253). -/
def bodyOffset (c : Ctx) (lane : Nat) : Nat := (c.W.pcOf c.G - (c.W.cap lane).entry).toNat / 4

/-- An instruction takes a capsule violation with a cause: what that does is said beside (R259). -/
def Violates (i : Instr) (s : State) (c : Ctx) (cause : Nat) : Prop := exec i s = .next (s.settle c (violation c s cause))

/-- An instruction may stand in a body; past the offset of 63 words it is a violation (R253, cause 4). -/
def Within (i : Instr) (sig : Ctx → State → Sig) : Prop :=
  ∀ s c, InBody s sig c → (∀ lane ∈ c.capLanes, 63 < bodyOffset c lane) → Violates i s c 4

/-- An instruction that may not stand in a body (R253). -/
def Outside (i : Instr) (sig : Ctx → State → Sig) (cause : Nat) : Prop :=
  Within i sig ∧ ∀ s c, InBody s sig c → (∀ lane ∈ c.capLanes, bodyOffset c lane ≤ 63) → Violates i s c cause

/-- An instruction whose vector registers, by field or CREG hint, are to lie in the k window (R253). -/
def InWindowK (i : Instr) (sig : Ctx → State → Sig) : Prop :=
  Within i sig ∧ ∀ s c, InBody s sig c → (∀ lane ∈ c.capLanes, bodyOffset c lane ≤ 63) →
    (∃ lane ∈ c.capLanes, ∃ e ∈ (sig c s).vectors, ¬ ((c.W.cap lane).kbase ≤ e.1 ∧ e.1 + e.2 ≤ (c.W.cap lane).kbase + 16)) →
    Violates i s c 3

/-- What instructions of a body break of R253's table. -/
def BodyTable : Prop :=
  (∀ g d a b, InWindowK (.iaddV g d a b) (hinted (intSig 0 g d a (.v b))) ∧ InWindowK (.iaddI g d a b) (hinted (intSig 0 g d a (.i b))) ∧
    InWindowK (.xorV g d a b) (hinted (logSig g d a (.v b))) ∧ InWindowK (.imadV g d a b) (hinted (iextSig [] true g d a (.v b))) ∧
    InWindowK (.clz g d a) (hinted (countSig g d a)) ∧ InWindowK (.bfi g d a b) (hinted (bitfSig 1 true g d a b)) ∧
    InWindowK (.idot4 g d a b) (hinted (idotSig g d a b)) ∧ InWindowK (.faddV g d a b) (hinted (f32Sig 0 g d a (.v b))) ∧
    InWindowK (.ffmaV g d a b) (hinted (f32Sig 3 g d a (.v b))) ∧ InWindowK (.frcp g d a) (hinted (funSig 0 g d a)) ∧
    InWindowK (.dadd g d a b) (hinted (f64Sig 0 g d a b)) ∧ InWindowK (.hadd2V g d a b) (hinted (h2Sig 0 [] g d a (.v b))) ∧
    InWindowK (.ld8 g d a b) (hinted (loadSig g d.toNat 1 a.toNat)) ∧ InWindowK (.st16 g d a b) (hinted (storeSig g d.toNat 1 a.toNat)) ∧
    InWindowK (.atomAdd g d a b) (hinted (atomSig 0 (atomTypes 0) .vec g (some d.toNat) a.toNat b.toNat)) ∧
    InWindowK (.redMax g a b) (hinted (atomSig 2 (atomTypes 2) .vec g none a.toNat b.toNat)) ∧
    InWindowK (.mov g d a) (hinted (fun _ => moveSig g [(.v a.toNat 1, some 0)] [.v d.toNat 1] .vec)) ∧
    InWindowK (.pmovToPredicates g a) (hinted (fun _ => moveSig g [(.v a.toNat 1, some 0)] [] .vec))) ∧
  (∀ g code p a b, InWindowK (.isetEqV g code p a b) (hinted (isetSig g code a (.v b))) ∧
    InWindowK (.fsetLtV g code p a b) (hinted (fsetSig 1 g code a (.v b))) ∧
    InWindowK (.dsetLt g code p a b) (hinted (fsetSig 2 g code a (.v b)))) ∧
  (∀ g d a src dst t, InWindowK (.fcvt g d a src dst t) (hinted (fcvtSig g d a src dst))) ∧
  (∀ w g d a o, InWindowK (.ld w g d a o) (hinted (loadSig g d.toNat (widthOf w) a.toNat)) ∧
    InWindowK (.st w g d a o) (hinted (storeSig g d.toNat (widthOf w) a.toNat))) ∧
  (∀ g d a b, Outside (.iaddS g d a b) (hinted (intSig 0 g d a (.s b))) 3 ∧ Outside (.ffmaS g d a b) (hinted (f32Sig 3 g d a (.s b))) 3 ∧
    Outside (.iaddUint d a b) (hinted (uintSig 0 d a (.s b))) 3 ∧ Outside (.bpack g d a) (hinted (blockSig true g d a)) 3 ∧
    Outside (.xget g d a b) (hinted (xlaneSig g d a b)) 3 ∧ Outside (.lred g d a b) (hinted (laneSig g d a b)) 3 ∧
    Outside (.atomqCas g d a b) (hinted (atomSig 7 [0, 1, 2, 3] .no g (some d.toNat) a.toNat b.toNat)) 3) ∧
  (∀ n cond o, Outside (.call n cond o) (hinted (fun _ => branchSig (!(n == 1 && cond == 3)) .no)) 3) ∧
  (∀ x, Outside (.spawnf x) (hinted (fun _ => { Sig.plain with legal := decide (x.toNat ≤ 64) })) 3 ∧
    Outside (.frame x) (hinted (fun _ => { Sig.plain with dsts := [.s x.toNat 2] })) 3 ∧
    Outside (.grove x) (hinted (fun _ => { Sig.plain with srcs := [(.s x.toNat 2, some 0)] })) 3 ∧
    Outside (.capres x) (hinted (fun _ => { Sig.plain with dsts := [.v x.toNat 1] })) 3) ∧
  (Outside .exit (hinted bareSig) 3 ∧ Outside .ret (hinted bareSig) 3 ∧ Outside .fenceRel (hinted bareSig) 3 ∧
    Outside .tfence (hinted bareSig) 3) ∧
  (∀ (n : BitVec 1) (cond : BitVec 3) (o : BitVec 22),
    let sig : HintSet → Sig := fun h => branchSig (!(n == 1 && cond == 7))
      (if cond.toNat < 4 || cond == 7 then (if decide (1 ≤ immInt o h.imms) then .free else .back) else .no)
    Within (.bra n cond o) (hinted sig) ∧
    ∀ s c, InBody s (hinted sig) c → (∀ lane ∈ c.capLanes, bodyOffset c lane ≤ 63) →
      (4 ≤ cond.toNat → cond ≠ 7 → Violates (.bra n cond o) s c 3) ∧
      ((cond.toNat < 4 ∨ cond = 7) → immInt o c.h.imms < 1 → Violates (.bra n cond o) s c 4)) ∧
  (∀ o, Within (.joinat o) (hinted (fun _ => branchSig true .free))) ∧ Within .nop (hinted (fun _ => { Sig.plain with body := .free })) ∧
  Within .capend (hinted (fun _ => { Sig.plain with body := .free })) ∧ Within .capabort (hinted (fun _ => { Sig.plain with body := .free }))

/-- The violation of a body's access by a lane: a 17th step, a byte off the capsule page, or one in the record (R253, R254, R259). -/
def accessCause (x : CapLane) (step : Bool) (size : Nat) (a : DWord) : Option Nat :=
  let page (v : Nat) : Nat := v / 4096
  if step = true ∧ 16 ≤ x.step then some 5
  else if page a.toNat = page x.record.toNat ∧ page (a.toNat + size - 1) = page x.record.toNat ∧
    (x.record.toNat + 128 ≤ a.toNat ∨ a.toNat + size ≤ x.record.toNat) then none
  else some 6

/-- The lowest lane in a capsule whose access breaks a rule decides the violation. -/
def BodyAccess (i : Instr) (sig : HintSet → Sig) (step : Bool) (size : Ctx → Nat) (addr : Ctx → Nat → DWord) : Prop :=
  ∀ s c cause, s.passes (hinted sig) = some c → c.W.inHandler c.j = false → c.doneLanes = 0 →
    (∀ lane, s.stepOut c.w lane = false ∧ (c.W.cap lane).reply = none) →
    ((lanesOf c.act).filter (fun lane => (c.W.cap lane).inside)).findSome?
      (fun lane => accessCause (c.W.cap lane) step (size c) (addr c lane)) = some cause → Violates i s c cause

/-- A body's steps and loads (R253, R254). -/
def BodyAccesses : Prop :=
  (∀ w g d a o, BodyAccess (.ld w g d a o) (loadSig g d.toNat (widthOf w) a.toNat) false (fun _ => 4 * 2 ^ w.toNat)
      (fun c => vaddr c a o (4 * 2 ^ w.toNat)) ∧
    BodyAccess (.st w g d a o) (storeSig g d.toNat (widthOf w) a.toNat) true (fun _ => 4 * 2 ^ w.toNat) (fun c => vaddr c a o (4 * 2 ^ w.toNat))) ∧
  ∀ g d a b, BodyAccess (.ld8 g d a b) (loadSig g d.toNat 1 a.toNat) false (fun _ => 1) (fun c => vaddr c a b 1) ∧
    BodyAccess (.st16 g d a b) (storeSig g d.toNat 1 a.toNat) true (fun _ => 2) (fun c => vaddr c a b 2) ∧
    BodyAccess (.atomAdd g d a b) (atomSig 0 (atomTypes 0) .vec g (some d.toNat) a.toNat b.toNat) true (fun c => atomWidth (ty c))
      (fun c lane => c.W.vget2 a.toNat lane) ∧
    BodyAccess (.redMax g a b) (atomSig 2 (atomTypes 2) .vec g none a.toNat b.toNat) true (fun c => atomWidth (ty c))
      (fun c lane => c.W.vget2 a.toNat lane)

/-- The state of one lane of a step as the gang's instruction goes on from it (R254, R257). -/
def StepGoes (i : Instr) (s : State) (c : Ctx) : Commit → Prop
  | .past u => ∀ W1, sget u.warps c.w = some W1 → ∃ t, exec i s = .next t ∧ Completes { c with W := W1 } u t Written.none
  | .waiting u => exec i s = .next ((u.waitWith c (.delivery c.doneLanes)).waitAt c)
  | .delivery u => ∃ t, exec i s = .next t ∧ Parks c u t (.delivery c.doneLanes)
  | .abandoned u => exec i s = .next (u.finish c)
  | .fault _ _ => True

/-- A record is in the STATE that its warp's away or back message changes, under the lane's token (R255). -/
def markedFrom (s : State) (x : CapLane) (key : Nat) (from_ : Nat) : Bool :=
  s.num (key + 3) 1 == (if x.adopting then from_ + 2 else from_) && s.num (if x.adopting then key + 0x60 else key + 4) 4 == x.token.toNat

/-- The records of a warp's lanes in a capsule are at their homes: apart, of this device or the host (R248, R255). -/
def RecordsHere (s : State) (w : Nat) (W : Warp) (key : Nat → Nat) : Prop :=
  ∀ lane, lane < 32 → (W.cap lane).inside = true → isRemote (key lane) = false ∧ key lane % 128 = 0 ∧
    s.recordKey W.ctx (W.cap lane).record = some (key lane) ∧
    (∃ o, s.xlateFor W.ctx W.core (some w) (vaOf (W.cap lane).record) .both = .go (key lane) o) ∧
    ∀ k, k < 32 → k ≠ lane → (W.cap k).inside = true → key k ≠ key lane

end Sys2Proof.Claims

open Sys2Proof Sys2Proof.Machine Sys2Proof.Claims in
/-- R253 and R259: what a body may hold; R254: a step is applied with its checkpoint where the record is the lane's and the step is
expected, else refused; R255: away and back; R256 and R257: the delivery and the record's release. -/
def Obligations.CapsuleMessages : Prop :=
  BodyTable ∧ BodyAccesses ∧
  (∀ (s : State) (c : Ctx) (cause : Nat),
    (c.W.adoption c.G.slices = none → s.settle c (violation c s cause) = s.trapped c (Trap.of 0x15 cause)) ∧
    (∀ b x key, c.W.adoption c.G.slices = some b → b.lane < 32 → c.W.slices.length = 8 → sget s.warps c.w = some c.W →
      sget c.W.caps b.lane = some x → isRemote key = false → (∃ g ∈ c.W.gangs, g.slices &&& b.slices ≠ 0) →
      (∃ o, s.xlateFor c.W.ctx c.W.core (some c.w) (vaOf x.record) .both = .go key o) → c.W.kFull b.base b.lane = true →
      (∀ q, key ≤ q → q < key + 128 → ¬ LogCell s (ctxFn c.W.ctx) q) →
      ∃ (u : State) (V : Warp) (i : Nat) (d : Delivery), s.settle c (violation c s cause) = u.finish c ∧ sget u.warps c.w = some V ∧ Restored b c.W V ∧ u.num (key + 3) 1 = 5 ∧
        u.num (key + 0x58) 4 = (s.num key 2 * 2 ^ 16 + ((sget s.holders key).map (·.own)).getD 0 * 2 ^ 8 + 5) % 2 ^ 32 ∧
        sget u.deliveries i = some d ∧ d.record = key ∧ d.holder = sget s.holders key ∧ d.status.toNat = u.num (key + 0x58) 4 ∧
        d.acked = false ∧ d.frees = false ∧
        d.regs = (List.range 16).map (fun i => BitVec.ofNat 32 (s.num (key + 0x10 + 4 * i) 4)) ∧
        ∀ q, (q < key ∨ key + 128 ≤ q) → ¬ LogCell s (ctxFn c.W.ctx) q → u.byte q = s.byte q)) ∧
  (∀ (w g : BitVec 2) (d a : BitVec 7) (o : BitVec 8) (s : State) (c : Ctx) (lane : Nat),
    s.passes (hinted (storeSig g d.toNat (widthOf w) a.toNat)) = some c → lanesOf c.act = [lane] → c.inCapsule lane = true →
    c.doneLanes.getLsbD lane = false → s.storesOut c.w c.G.slices = false → s.drainsOut c.w c.G.slices = false → s.writable c.W.core = true →
    let size := 4 * 2 ^ w.toNat
    let addr := vaddr c a o size lane
    let x := c.W.cap lane
    addr.toNat % size = 0 → canonical addr = true → inWindow addr = false → accessCause x true size addr = none →
    s.onOrdered c.W.ctx addr = false →
    ∀ key rec, laneAccess s c .write size addr = .go ((List.range size).map (fun j => .mem (key + j) false)) →
      s.hwKey c.W.ctx addr .hard = some key → s.recordKey c.W.ctx x.record = some rec →
      StepGoes (.st w g d a o) s c (stepLane c (fun _ =>
        { warp := c.w, lane := lane, record := rec, token := x.token, expect := x.step, key := key
          bytes := (List.range (2 ^ w.toNat)).flatMap (fun j => bytesOf 4 (c.W.vget (d.toNat + j) lane).toNat), atom := none
          regs := (List.range 16).map (fun i => c.W.vget (x.kbase + i) lane)
          resume := BitVec.ofNat 32 ((c.W.pcOf c.G + 4 - x.entry).toNat / 4 % 64 * 2 ^ 26 + x.kbase / 16 % 8 * 2 ^ 23 +
            ((List.range 7).map (fun i => if (c.W.pmask i).getLsbD lane then 2 ^ (16 + i) else 0)).sum) }) lane (s.writeBack c.W.core))) ∧
  (∀ (s : State) (c : Ctx) (W : Warp) (lane : Nat) (p : CapStep), sget s.warps c.w = some W → lane < 32 → W.slices.length = 8 →
    let x := W.cap lane
    (s.stepOut c.w lane = true ∨ c.settled s lane = false → stepLane c (fun _ => p) lane s = .waiting s) ∧
    (s.stepOut c.w lane = false → c.settled s lane = true →
      (x.reply = some true → ∃ u V, stepLane c (fun _ => p) lane s = .past u ∧ { u with warps := s.warps } = s ∧
        sget u.warps c.w = some V ∧ (V.cap lane).reply = none ∧ V.v = W.v ∧ V.p = W.p ∧ V.slices = W.slices) ∧
      (x.reply = none → x.adopting = true ∨ x.result = none → isRemote p.record = false → isRemote p.key = false →
        (∀ e ∈ s.requests, ∀ part, e.2.who ≠ .engine (.gang c.w c.G.slices) part) →
        stepLane c (fun _ => p) lane s = .waiting { s with steps := sput s.steps s.nextId p, nextId := s.nextId + 1 }) ∧
      (x.reply ≠ some true → x.adopting = false → x.result.isSome = true →
        ∃ u, stepLane c (fun _ => p) lane s = .past u ∧ TakesSlot c s u W lane) ∧
      (x.reply = some false → x.adopting = false → x.result = none → stepLane c (fun _ => p) lane s = .delivery s) ∧
      (∀ b, x.reply = some false → x.adopting = true → c.W.adoption c.G.slices = some b → b.lane < 32 →
        (∃ g ∈ W.gangs, g.slices &&& b.slices ≠ 0) → ∃ u, stepLane c (fun _ => p) lane s = .abandoned u ∧ Abandons c s u W))) ∧
  (∀ (s : State) (w lane id : Nat) (p : CapStep) (W : Warp),
    s.steps.find? (fun e => e.2.warp == w && e.2.lane == lane) = some (id, p) → sget s.warps w = some W →
    ((∃ e ∈ s.steps, e.2.warp = w ∧ e.2.lane < lane ∧ (∃ g, W.gangAt (lane / 4) = some g ∧ g.slices.getLsbD (e.2.lane / 4) = true)) →
      exec (.capsuleStepCommit w lane) s = .next s.tick) ∧
    ((∀ e ∈ s.steps, e.2.warp = w → lane ≤ e.2.lane) → s.regq = [] → s.held = [] →
      let mine : Prop := ((s.num (p.record + 3) 1 = 1 ∧ s.num (p.record + 4) 4 = p.token.toNat) ∨
        (s.num (p.record + 3) 1 = 3 ∧ s.num (p.record + 0x60) 4 = p.token.toNat)) ∧ s.num (p.record + 2) 1 = p.expect
      (¬ mine → ∃ t V, exec (.capsuleStepCommit w lane) s = .next t ∧ sget t.steps id = none ∧ t.mem = s.mem ∧
        sget t.warps w = some V ∧ (V.cap lane).reply = some false ∧ V.v = W.v ∧ (V.cap lane).step = (W.cap lane).step) ∧
      (mine → p.expect < 16 → p.regs.length = 16 → ctxFn W.ctx = 0 → lane < 32 → isRemote p.record = false → isRemote p.key = false →
        p.record + 128 ≤ p.key ∨ p.key + p.bytes.length ≤ p.record →
        ∃ t V, exec (.capsuleStepCommit w lane) s = .next t ∧ sget t.steps id = none ∧ sget t.warps w = some V ∧
          (V.cap lane).reply = some true ∧ (V.cap lane).step = (W.cap lane).step + 1 ∧ t.num (p.record + 2) 1 = p.expect + 1 ∧
          t.num (p.record + 0x0C) 4 = p.resume.toNat ∧
          (∀ q, (q < p.record ∨ p.record + 128 ≤ q) → (q < p.key ∨ p.key + p.bytes.length ≤ q) → t.byte q = s.byte q) ∧
          (p.atom = none → V.v = W.v ∧ t.bytes p.key p.bytes.length = p.bytes ∧
            ∀ i, i < 16 → t.num (p.record + 0x10 + 4 * i) 4 = ((p.regs[i]?).getD 0).toNat) ∧
          (∀ fn ty b n r, p.atom = some (fn, ty, b, n, r) → fn < 8 → p.bytes.length = atomWidth ty →
            let old := s.num p.key (atomWidth ty)
            let words := if atomWidth ty = 8 then 2 else 1
            t.num p.key (atomWidth ty) = newValue fn ty old b.toNat n.toNat % 2 ^ (8 * atomWidth ty) ∧
            ∀ i, i < 16 → (∀ k, r = some k → k + words ≤ 16) →
              let x : Word := match r with
                | some k => if k ≤ i ∧ i < k + words then BitVec.ofNat 32 (old / 2 ^ (32 * (i - k))) else (p.regs[i]?).getD 0
                | none => (p.regs[i]?).getD 0
              t.num (p.record + 0x10 + 4 * i) 4 = x.toNat ∧ (r.isSome = true → V.vget ((W.cap lane).kbase + i) lane = x))))) ∧
  (∀ (s : State) (w : Nat) (W : Warp), sget s.warps w = some W →
    (W.away ≠ 1 ∨ s.engineRuns W.ctx = false ∨ (∃ e ∈ s.steps, e.2.warp = w) → exec (.away w) s = .next s.tick) ∧
    (¬ (W.residency = .resident ∧ W.ended = false ∧ W.away = 2) → exec (.back w) s = .next s.tick) ∧
    (∀ key, RecordsHere s w W key → ctxFn W.ctx = 0 →
      (W.away = 1 → s.engineRuns W.ctx = true → (∀ e ∈ s.steps, e.2.warp ≠ w) → ∃ t V, exec (.away w) s = .next t ∧
        sget t.warps w = some V ∧ V.away = 2 ∧ V.v = W.v ∧ ∀ lane, lane < 32 → (W.cap lane).inside = true →
          t.num (key lane + 3) 1 = (if markedFrom s (W.cap lane) (key lane) 1 then s.num (key lane + 3) 1 + 1 else s.num (key lane + 3) 1)) ∧
      (W.residency = .resident → W.ended = false → W.away = 2 → ∃ t V, exec (.back w) s = .next t ∧ sget t.warps w = some V ∧
        V.away = 0 ∧ V.v = W.v ∧ ∀ lane, lane < 32 → (W.cap lane).inside = true →
          t.num (key lane + 3) 1 = (if markedFrom s (W.cap lane) (key lane) 2 then s.num (key lane + 3) 1 - 1 else s.num (key lane + 3) 1))) ∧
    (∀ lane p, lane < 32 → (W.cap lane).inside = true → (∀ k, k < 32 → k ≠ lane → (W.cap k).inside = false) →
      s.xlateFor W.ctx W.core (some w) (vaOf (W.cap lane).record) .both = .stall p →
      let asked := s.askHost { ctx := W.ctx, core := W.core, warp := some w, page := p, lanes := BitVec.ofNat 32 (2 ^ lane)
                               va := (W.cap lane).record }
      (W.away = 1 → s.engineRuns W.ctx = true → (∀ e ∈ s.steps, e.2.warp ≠ w) → exec (.away w) s = .next asked.tick) ∧
      (W.residency = .resident → W.ended = false → W.away = 2 → exec (.back w) s = .next asked.tick))) ∧
  (∀ (s : State) (id : Nat) (d : Delivery), sget s.deliveries id = some d →
    (∃ t, exec (.delivery id) s = .next t ∧ sget t.deliveries id = some { d with acked := true } ∧ t.mem = s.mem ∧
      (∀ h w lane, d.holder = some h → s.holderLane h = some (w, lane) → ∃ V, sget t.warps w = some V ∧
        (V.cap lane).result = some (d.regs, d.preds, d.status)) ∧
      ((∀ h, d.holder = some h → s.holderLane h = none) → t.warps = s.warps)) ∧
    (d.acked = false ∨ s.engineRuns d.ctx = false → exec (.deliveryAcknowledgement id) s = .next s.tick) ∧
    (d.acked = true → s.engineRuns d.ctx = true → d.frees = false → ∃ t, exec (.deliveryAcknowledgement id) s = .next t ∧ sget t.deliveries id = none ∧
      t.mem = s.mem) ∧
    (d.acked = true → s.engineRuns d.ctx = true → d.frees = true →
      (∀ q, d.record ≤ q → q < d.record + 8 → ¬ LogCell s (ctxFn d.ctx) q) → ∃ t, exec (.deliveryAcknowledgement id) s = .next t ∧
      sget t.deliveries id = none ∧ t.num d.record 8 = s.num d.record 2))

namespace Sys2Proof.Claims

open Sys2Proof.Machine

/-! ### Where slices go (R16, R21, R123) -/

/-- `t` is `s` after the gang of `c` has issued an instruction that sets each of its slices as `f` says, the check of joins
made after it (R123), and writes no register: the gang has parted by the slices' next PCs, each part with its view (R16,
R21), and nothing else has changed. -/
structure Jumps (c : Ctx) (s t : State) (f : Nat → Slice → Slice) : Prop where
  warp : ∃ W, sget t.warps c.w = some W ∧ RegsAfter c W Written.none ∧
    (∀ j, j < c.W.slices.length → W.slice j =
      if c.G.slices.getLsbD j = true then (f j (c.W.slice j)).settle 20 else c.W.slice j) ∧
    (∀ j, c.has j → j < 8 → (W.slice j).exited = false → ∃ g, W.gangAt j = some g ∧ g.hints = [] ∧
      ∀ k, k < 8 → (g.slices.getLsbD k = true ↔ c.G.slices.getLsbD k = true ∧ (W.slice k).exited = false ∧
        (W.slice k).pc = (W.slice j).pc)) ∧ W.rest = c.W.rest
  others : ∀ w, w ≠ c.w → sget t.warps w = sget s.warps w
  memory : ∀ key, t.byte key = s.byte key
  rest : { t with warps := s.warps, counters := s.counters, outbox := s.outbox, progress := s.progress } = s

/-- An instruction takes a trap of a class and detail. -/
def TrapsWith (i : Instr) (s : State) (c : Ctx) (cls detail : Nat) : Prop :=
  exec i s = .next (s.trapped c (Trap.of cls detail))

/-- The lanes of slice `j` that take a branch (R122). -/
def takenBy (c : Ctx) (cond : Nat) (neg : Bool) (j : Nat) : BitVec 4 :=
  let m : Word :=
    if cond < 4 then c.W.pmask cond
    else if cond < 7 then (if c.G.q.getLsbD (cond - 4) then BitVec.allOnes 32 else 0)
    else BitVec.allOnes 32
  (c.W.slice j).active &&& (if neg then ~~~m else m).extractLsb' (4 * j) 4

end Sys2Proof.Claims

open Sys2Proof Sys2Proof.Machine Sys2Proof.Claims in
/-- R123: it applies where a slice's next PC is the join of its top entry, and at most once for each entry and phase. -/
def Obligations.JoinCheck : Prop :=
  ∀ (x : Slice) (n : Nat),
    (x.stack = [] → x.settle n = x) ∧
    (∀ e r, x.stack = e :: r → e.join ≠ some x.pc → x.settle n = x) ∧
    (∀ e r, x.stack = e :: r → e.join = some x.pc → e.second = false → x.settle (n + 1) =
      ({ x with active := e.lanes, stack := { e with lanes := x.active, second := true } :: r, pc := e.resume } : Slice).settle n) ∧
    (∀ e r, x.stack = e :: r → e.join = some x.pc → e.second = true →
      x.settle (n + 1) = ({ x with active := x.active ||| e.lanes, stack := r } : Slice).settle n)

open Sys2Proof Sys2Proof.Machine Sys2Proof.Claims in
/-- R121, R122, R126, R127 and R128, whose checks are made before any change. The model's choice: where a vector BRX meets a missing
join or a full mask stack and a misaligned target too, it takes the first (assumption 70). That a misaligned return traps where it is
taken from the stack, its address recorded, is assumption 27. -/
def Obligations.Branches : Prop :=
  ∀ (n : BitVec 1) (k : BitVec 3) (b : BitVec 2) (o : BitVec 22) (r : BitVec 7) (s : State) (c : Ctx),
    let target := c.W.pcOf c.G + BitVec.ofInt 64 (4 * immInt o c.h.imms)
    let next := c.W.pcOf c.G + 4
    let neg := n == 1
    let mine (j : Nat) : Prop := c.G.slices.getLsbD j = true ∧ j < 8
    let t (j : Nat) : BitVec 4 := takenBy c k.toNat neg j
    let fits (j : Nat) : Prop := ∃ e q, (c.W.slice j).stack = e :: q ∧ e.second = false ∧ e.join = (c.W.slice j).armed ∧ e.resume = next
    let split (j : Nat) : Prop := t j ≠ (c.W.slice j).active ∧ t j ≠ 0
    let bad (j : Nat) : Prop := split j ∧ ((c.W.slice j).armed = none ∨ (¬ fits j ∧ 8 ≤ (c.W.slice j).stack.length))
    (s.passes (hinted (fun _ => { Sig.plain with imms := 2, body := .free })) = some c →
      ∃ u s1 W1, exec (.joinat o) s = .next u ∧ s1 = s.setWarp c.w W1 ∧ { W1 with slices := c.W.slices } = c.W ∧
        (∀ j, j < c.W.slices.length → W1.slice j =
          if c.G.slices.getLsbD j = true then { c.W.slice j with armed := some target } else c.W.slice j) ∧
        Completes { c with W := W1 } s1 u Written.none) ∧
    (s.passes (hinted (fun h => { Sig.plain with
        imms := 2, legal := !(n == 1 && k == 7)
        body := if (k.toNat < 4 || k == 7) && decide (1 ≤ immInt o h.imms) then .free else .no })) = some c →
      (∀ j, mine j → bad j → (∀ i, i < j → mine i → ¬ bad i) →
        TrapsWith (.bra n k o) s c (if (c.W.slice j).armed = none then 0x0B else 0x0A) j) ∧
      ((∀ j, mine j → ¬ bad j) → ∃ u, exec (.bra n k o) s = .next u ∧ ∃ f, Jumps c s u f ∧ ∀ j, mine j →
        let x := c.W.slice j
        let x1 := if k = 7 then x else { x with armed := none }
        (t j = x.active → f j x = { x1 with pc := target }) ∧
        (t j = 0 → x.active ≠ 0 → f j x = { x1 with pc := next }) ∧
        (split j → ¬ fits j → f j x = { x1 with
          active := t j, pc := target
          stack := { resume := next, lanes := x.active &&& ~~~(t j), join := x.armed, second := false } :: x.stack }) ∧
        (split j → ∀ e q, x.stack = e :: q → fits j → f j x = { x1 with
          active := t j, pc := target, stack := { e with lanes := e.lanes ||| (x.active &&& ~~~(t j)) } :: q }))) ∧
    (s.passes (hinted (fun _ => { Sig.plain with imms := 2, legal := !(n == 1 && b == 3) })) = some c →
      let go := (if b.toNat < 3 then c.G.q.getLsbD b.toNat else true) != neg
      (go = false → ∃ u, exec (.call n b o) s = .next u ∧ Completes c s u Written.none) ∧
      (go = true → (∃ j, mine j ∧ 32 ≤ (c.W.slice j).rets.length) → TrapsWith (.call n b o) s c 0x0C 0) ∧
      (go = true → (∀ j, mine j → (c.W.slice j).rets.length < 32) →
        ∃ u, exec (.call n b o) s = .next u ∧ Jumps c s u (fun _ x => { x with rets := next :: x.rets, pc := target }))) ∧
    (s.passes (hinted (fun _ => Sig.plain)) = some c →
      ((∃ j, mine j ∧ (c.W.slice j).rets = []) → TrapsWith .ret s c 0x0D 0) ∧
      ((∀ j, mine j → (c.W.slice j).rets ≠ []) → (∃ j a q, mine j ∧ (c.W.slice j).rets = a :: q ∧ a.toNat % 4 ≠ 0) →
        TrapsWith .ret s c 9 0) ∧
      ((∀ j, mine j → ∃ a q, (c.W.slice j).rets = a :: q ∧ a.toNat % 4 = 0) → ∃ u, exec .ret s = .next u ∧
        Jumps c s u (fun _ x => { x with rets := x.rets.tail, pc := (x.rets.head?).getD x.pc }))) ∧
    (s.passes (hinted (fun _ => { Sig.plain with srcs := [(.s r.toNat 2, some 0)] })) = some c →
      let a := c.sread2 s r.toNat
      (a.toNat % 4 ≠ 0 → TrapsWith (.brxScalar r) s c 9 0) ∧
      (a.toNat % 4 = 0 → ∃ u, exec (.brxScalar r) s = .next u ∧ Jumps c s u (fun _ x => { x with armed := none, pc := a }))) ∧
    (s.passes (hinted (fun _ => { Sig.plain with srcs := [(.v r.toNat 2, some 0)] })) = some c →
      let dest (j i : Nat) : DWord := c.W.vget2 r.toNat (4 * j + i)
      let on (j i : Nat) : Prop := i < 4 ∧ (c.W.slice j).active.getLsbD i = true
      let groups (j : Nat) : Nat := (((List.range 4).filter (fun i => (c.W.slice j).active.getLsbD i)).map (dest j)).dedup.length
      let depth (j : Nat) : Nat := (c.W.slice j).stack.length + (groups j - 1)
      let stops (j : Nat) : Prop := 1 < groups j ∧ ((c.W.slice j).armed = none ∨ 8 < depth j)
      (∀ j, mine j → stops j → (∀ i, i < j → mine i → ¬ stops i) →
        TrapsWith (.brxVector r) s c (if (c.W.slice j).armed = none then 0x0B else 0x0A) j) ∧
      ((∀ j, mine j → ¬ stops j) → ∀ l m,
        (∀ j i, mine j → on j i → 4 * j + i < l → (dest j i).toNat % 4 = 0) →
        (mine (l / 4) ∧ on (l / 4) (l % 4) ∧ (dest (l / 4) (l % 4)).toNat % 4 ≠ 0) →
        (∀ k, k < 32 → (m.getLsbD k = true ↔ mine (k / 4) ∧ on (k / 4) (k % 4) ∧ (dest (k / 4) (k % 4)).toNat % 4 ≠ 0)) →
        exec (.brxVector r) s = .next (s.trapped c { Trap.of 9 0 with faulting := m, addr := dest (l / 4) (l % 4) })) ∧
      ((∀ j, mine j → ∀ i, on j i → (dest j i).toNat % 4 = 0) → (∀ j, mine j → ¬ stops j) →
        ∃ u, exec (.brxVector r) s = .next u ∧ ∃ f, Jumps c s u f ∧ ∀ j, mine j →
          let x := c.W.slice j
          (x.active = 0 → f j x = { x with armed := none, pc := next }) ∧
          (∀ i, on j i → (∀ k, k < i → ¬ on j k) → ∃ m l, f j x =
              { x with armed := none, active := m, pc := dest j i, stack := l ++ x.stack } ∧
            (∀ k, m.getLsbD k = true ↔ on j k ∧ dest j k = dest j i) ∧
            (∀ e ∈ l, e.join = x.armed ∧ e.second = false ∧ e.lanes ≠ 0 ∧ e.resume ≠ dest j i ∧
              ∀ k, e.lanes.getLsbD k = true ↔ on j k ∧ dest j k = e.resume) ∧
            (∀ k, on j k → dest j k ≠ dest j i → ∃ e ∈ l, e.resume = dest j k) ∧
            (l.map (·.resume)).Nodup ∧ l.Pairwise (fun e e' => ∃ k, e.lanes.getLsbD k = true ∧
              ∀ k', e'.lanes.getLsbD k' = true → k < k'))))

open Sys2Proof Sys2Proof.Machine Sys2Proof.Claims in
/-- R124, R129, R130, R133, R18, R19, R22 and R61 to R65. -/
def Obligations.ControlOperations : Prop :=
  ∀ (s : State) (c : Ctx),
    (s.passes (hinted (fun _ => { Sig.plain with body := .free })) = some c →
      ∃ u, exec .nop s = .next u ∧ Completes c s u Written.none) ∧
    (s.passes (hinted (fun _ => Sig.plain)) = some c →
      (∃ u W, exec .exit s = .next u ∧ sget u.warps c.w = some W ∧ W.v = c.W.v ∧ W.p = c.W.p ∧ W.flags = c.W.flags ∧
        u.mem = s.mem ∧ (∀ v, v ≠ c.w → sget u.warps v = sget s.warps v) ∧
        (∀ j, j < c.W.slices.length → W.slice j =
          if c.G.slices.getLsbD j = true then Slice.afterExit 20 { c.W.slice j with active := 0 } else c.W.slice j) ∧
        (W.ended = true ↔ ∀ j, j < 8 → (W.slice j).exited = true) ∧
        (∀ b B, c.W.block = some b → sget s.blocks b = some B → ∃ B', sget u.blocks b = some B' ∧
          B'.ended = if W.ended then B.ended ++ [c.W.index] else B.ended)) ∧
      (∀ n : BitVec 20,
        let G1 := if n = 0 then c.G else { c.G with sleep := some (3 * (s.time / 3 + n.toNat)) }
        ∃ u W1, exec (.sleep n) s = .next u ∧ { W1 with gangs := c.W.gangs } = c.W ∧ W1.gangAt c.j = some G1 ∧
          (∀ j, c.other j → W1.gangAt j = c.W.gangAt j) ∧
          Completes { c with W := W1, G := G1 } (s.setWarp c.w W1) u Written.none) ∧
      (∃ u W, exec .yieldq s = .next u ∧ sget u.warps c.w = some W ∧ W.age = s.nextId ∧ W.v = c.W.v ∧ W.flags = c.W.flags ∧
        (∀ g ∈ W.gangs, g.promoted = false) ∧ u.nextId = s.nextId + 1 ∧ u.mem = s.mem ∧
        (∀ v, v ≠ c.w → sget u.warps v = sget s.warps v)) ∧
      (s.outstanding c.w = true ∨ s.called c.W = true → exec .park s = .next (s.waitAt c)) ∧
      (s.outstanding c.w = false → s.called c.W = false → c.W.residency = .resident → ∃ u s1 W1, exec .park s = .next u ∧
        sget s1.warps c.w = some W1 ∧ W1.residency = .parked true s.nextId ∧
        { W1 with residency := c.W.residency, away := c.W.away, lastSlot := c.W.lastSlot, callers := c.W.callers } = c.W ∧ Completes { c with W := W1 } s1 u Written.none) ∧
      (∀ (m : BitVec 8) (id : BitVec 12),
        let wants (g : Gang) : Prop := ∃ x, g.pend = .regang id.toNat x
        ((∀ g ∈ c.W.gangs, g.slices = c.G.slices ∨ g.slices &&& c.G.slices = 0) →
          (∀ g ∈ c.W.gangs, ¬ wants g ∨ g.slices = c.G.slices) → (∀ j, j < 8 → m.getLsbD j = true → (c.W.slice j).exited = false →
            c.G.slices.getLsbD j = true) → s.scalarsOut c.w c.G.slices = false →
          (c.W.gangs.filter (fun g => g.slices == c.G.slices)) = [c.G] →
          ∃ u W, exec (.regang m id) s = .next u ∧ sget u.warps c.w = some W ∧ W.v = c.W.v ∧ W.flags = c.W.flags ∧
            (∀ j, j < c.W.slices.length → c.G.slices.getLsbD j = true → (c.W.slice j).stack = [] →
              (W.slice j).pc = (c.W.slice j).pc + 4) ∧
            (∀ j, c.has j → j < 8 → (∀ i, i < 8 → c.G.slices.getLsbD i = true → (c.W.slice i).stack = [] ∧
                (c.W.slice i).pc = c.W.pcOf c.G) →
              ∃ g, W.gangAt j = some g ∧ g.slices = c.G.slices &&& c.W.live ∧ ∀ i, i < 96 → g.sget i = c.G.sget i)) ∧
        (∀ B, (c.W.gangs = [c.G, B] ∨ c.W.gangs = [B, c.G]) → c.G.slices &&& B.slices = 0 → c.G.slices ≠ 0 → B.slices ≠ 0 →
          B.pend = .regang id.toNat m → (∀ x y, c.G.pend ≠ .regang x y) → c.W.pcOf B = c.W.pcOf c.G →
          (∀ j, j < 8 → m.getLsbD j = true → (c.W.slice j).exited = false →
            (c.G.slices ||| B.slices).getLsbD j = true) → s.scalarsOut c.w (c.G.slices ||| B.slices) = false →
          (∀ j, (c.W.slice j).stack = []) → (c.G.slices ||| B.slices) &&& ~~~c.W.live = 0 → (∀ j, j < 8 →
            (c.G.slices ||| B.slices).getLsbD j = true → (c.W.slice j).pc = c.W.pcOf c.G) →
          let first := if lowSlice c.G.slices < lowSlice B.slices then c.G else B
          let second := if lowSlice c.G.slices < lowSlice B.slices then B else c.G
          let both (i : Nat) : Bool := first.written.getLsbD i && second.written.getLsbD i
          ∃ u W g, exec (.regang m id) s = .next u ∧ sget u.warps c.w = some W ∧ W.v = c.W.v ∧ W.gangs = [g] ∧
            g.slices = c.G.slices ||| B.slices ∧ g.written = 0 ∧
            (∀ i, i < 96 → g.sget i = if first.written.getLsbD i then first.sget i
              else if second.written.getLsbD i then second.sget i else first.sget i) ∧
            (∀ i, i < 3 → g.q.getLsbD i = if first.written.getLsbD (96 + i) then first.q.getLsbD i
              else if second.written.getLsbD (96 + i) then second.q.getLsbD i else first.q.getLsbD i) ∧
            W.flags = c.W.flags ||| (if (List.range 96).any (fun i => both i && first.sget i != second.sget i) ||
              (List.range 3).any (fun i => both (96 + i) && first.q.getLsbD i != second.q.getLsbD i) then fMC else 0)))) ∧
    (∀ c0, s.issuing = some c0 → (bodyCheck c0 { Sig.plain with body := .free }).isNone = true →
      let row (i : Instr) (kind payload : Nat) (legal : Prop) : Prop :=
        (¬ legal → TrapsWith i s c0 1 0) ∧
        (legal → ∃ u W, exec i s = .next u ∧ sget u.warps c0.w = some W ∧ u.mem = s.mem ∧ W.v = c0.W.v ∧ W.p = c0.W.p ∧
          W.flags = c0.W.flags ∧ (∀ v, v ≠ c0.w → sget u.warps v = sget s.warps v) ∧
          (∀ j, j < c0.W.slices.length → c0.G.slices.getLsbD j = true → (c0.W.slice j).stack = [] →
            W.slice j = { c0.W.slice j with pc := (c0.W.slice j).pc + 4 }) ∧
          ((∀ j, j < 8 → c0.G.slices.getLsbD j = true → (c0.W.slice j).stack = [] ∧ (c0.W.slice j).exited = false) →
            (∀ j, j < 8 → c0.G.slices.getLsbD j = true → (c0.W.slice j).pc = c0.W.pcOf c0.G) →
            ∃ g, W.gangAt c0.j = some g ∧ g.s = c0.G.s ∧ g.q = c0.G.q ∧
              g.hints = c0.G.hints ++ [{ kind := kind, payload := BitVec.ofNat 22 payload }]))
      (∀ i : BitVec 22, row (.hintImm i) 0 i.toNat True) ∧
      (∀ (n : BitVec 1) (p : BitVec 3), row (.hintGuard n p) 1 (8 * n.toNat + p.toNat) (p ≠ 7)) ∧
      (∀ c b a : BitVec 1, row (.hintSrcx c b a) 2 (4 * c.toNat + 2 * b.toNat + a.toNat) True) ∧
      (∀ r : BitVec 7, row (.hintCreg r) 3 r.toNat True) ∧
      (∀ t : BitVec 5, row (.hintType t) 4 t.toNat (t ≠ 15 ∧ t.toNat ≤ 19)) ∧
      (∀ (f t : BitVec 1) (m : BitVec 3), row (.hintRound f t m) 5 (16 * f.toNat + 8 * t.toNat + m.toNat) (m.toNat ≤ 4)) ∧
      (∀ (y : BitVec 1) (st : BitVec 4), row (.hintSched y st) 6 (16 * y.toNat + st.toNat) True) ∧
      (∀ p : BitVec 3, row (.hintCache p) 7 p.toNat (p.toNat ≤ 4)))

open Sys2Proof Sys2Proof.Machine Sys2Proof.Claims in
/-- R99, R132, R284, R131, R129 and R286. The model's choices: the low two bits of the resume PC are cleared (assumption 27), and
IRET restores s92 to s95 before its depth check, whose double trap has the handled trap's class as its detail, a slice at its join being
moved before it fetches (assumption 41). -/
def Obligations.SystemRegisters : Prop :=
  ∀ (n : BitVec 13) (d : BitVec 7) (code : BitVec 16) (s : State) (c : Ctx),
    let x := s.context c.W.ctx
    let known := (decide (1 ≤ n.toNat) && decide (n.toNat ≤ 6)) || (decide (0x1000 ≤ n.toNat) && decide (n.toNat ≤ 0x1006))
    let v := c.sread s d.toNat
    let pack (w : Nat) (f : Slice → Nat) : Nat := ((List.range 8).map (fun j => f (c.W.slice j) * 2 ^ (w * j))).sum
    (s.passes (hinted (fun _ => { Sig.plain with dsts := [.s d.toNat 1], priv := decide (0x1000 ≤ n.toNat), legal := known })) = some c →
      ∃ u W1 v, exec (.sread n d) s = .next u ∧ { W1 with flags := c.W.flags } = c.W ∧
        W1.flags = (if n = 2 then c.W.flags &&& ~~~0x1FF else c.W.flags) ∧
        (n = 1 ∨ n = 2 → v = c.W.flags) ∧
        (n = 3 → v = BitVec.ofNat 32 (pack 4 (fun (x : Slice) => if x.exited then 0 else x.stack.length))) ∧
        (n = 4 → v = BitVec.ofNat 32 (c.W.slice c.j).rets.length) ∧ (n = 5 → v = c.base) ∧
        (n = 6 → v = BitVec.ofNat 32 (pack 1 (fun (x : Slice) => if x.armed.isSome then 1 else 0))) ∧
        (n = 0x1001 → v = loWord x.tvec) ∧ (n = 0x1002 → v = hiWord x.tvec) ∧ (n = 0x1003 → v = loWord x.hvec) ∧
        (n = 0x1004 → v = hiWord x.hvec) ∧ (n = 0x1005 → v = loWord x.tdeleg) ∧ (n = 0x1006 → v = hiWord x.tdeleg) ∧
        (n = 0x1000 → v = 1 ∨ v = 3) ∧
        Completes { c with W := W1 } (s.setWarp c.w W1) u (Written.scal d.toNat 1 (v.setWidth 64))) ∧
    (s.passes (hinted (fun _ => { Sig.plain with
        srcs := [(.s d.toNat 1, some 0)], priv := true
        legal := n.toNat == 1 || (decide (0x1001 ≤ n.toNat) && decide (n.toNat ≤ 0x1006)) })) = some c →
      (n = 1 → ∃ u W1, exec (.swrite n d) s = .next u ∧ W1 = { c.W with flags := v &&& 0x01FF01FF } ∧
        Completes { c with W := W1 } (s.setWarp c.w W1) u Written.none) ∧
      (n ≠ 1 → ∃ u y, exec (.swrite n d) s = .next u ∧ Completes c (s.setContext c.W.ctx y) u Written.none ∧
        { y with tvec := x.tvec, hvec := x.hvec, tdeleg := x.tdeleg } = x ∧
        y.tvec = (if n = 0x1001 then hiWord x.tvec ++ v else if n = 0x1002 then v ++ loWord x.tvec else x.tvec) ∧
        y.hvec = (if n = 0x1003 then hiWord x.hvec ++ v else if n = 0x1004 then v ++ loWord x.hvec else x.hvec) ∧
        y.tdeleg = (if n = 0x1005 then hiWord x.tdeleg ++ v else if n = 0x1006 then v ++ loWord x.tdeleg else x.tdeleg))) ∧
    (s.passes (hinted (fun _ => { Sig.plain with dsts := [.s d.toNat 2] })) = some c →
      ∃ u, exec (.tstamp d) s = .next u ∧ Completes c s u (Written.scal d.toNat 2 (BitVec.ofNat 64 (s.time / 3)))) ∧
    (s.passes (hinted (fun _ => Sig.plain)) = some c →
      exec (.trap code) s = .next (s.trapped c { Trap.of 0x21 code.toNat with after := true }) ∧
      exec (.bkpt code) s = .next (s.trapped c (Trap.of 0x22 code.toNat))) ∧
    (∀ sig, sig = hinted (fun _ => { Sig.plain with priv := true }) →
      (∀ t, s.stopped sig = some (c, t) → c.W.handler = none → c.G.hints = [] → t = Trap.of 0x02 0) ∧
      (∀ h, s.passes sig = some c → c.W.handler = some h → h.halt = none →
        let fn := ctxFn c.W.ctx
        let a := h.record.toNat
        let back : DWord := BitVec.ofNat 64 (s.devNum fn (a + 0x10) 8) &&& ~~~3
        let deep : Prop := ∃ (j : Nat) (x : Slice), c.W.slices[j]? = some x ∧ (h.depths[j]?).getD 0 < x.stack.length
        (deep → exec .iret s = .next ((s.restoreSs c.w c.j
          ((List.range 4).map (fun i => BitVec.ofNat 32 (s.devNum fn (a + 0x40 + 4 * i) 4)))).trapped c
            (Trap.of (s.devNum fn a 2) 0))) ∧
        (¬ deep → ∃ u W, exec .iret s = .next u ∧ sget u.warps c.w = some W ∧ W.handler = none ∧ W.v = c.W.v ∧ W.p = c.W.p ∧
          W.flags = c.W.flags ∧
          (∀ j, j < c.W.slices.length → W.slice j = if c.G.slices.getLsbD j = true then
            Slice.settle 20 { c.W.slice j with pc := back } else c.W.slice j) ∧
          ((∀ j, c.G.slices.getLsbD j = true → ∀ e, (c.W.slice j).stack.head? = some e → e.join ≠ some back) →
            ∃ q, W.gangAt c.j = some q ∧
            q.hints = [] ∧ (s.devNum fn (a + 8) 8 ≠ (c.W.groupPc c.G).toNat → q.redo =
              if s.devNum fn (a + 0x10) 8 = s.devNum fn (a + 8) 8 ∧ s.devNum fn (a + 0x18) 4 ≠ 0 then
                some (BitVec.ofNat 64 (s.devNum fn (a + 8) 8), BitVec.ofNat 32 (s.devNum fn (a + 0x18) 4)) else none) ∧
            (∀ i, i < 4 → q.sget (92 + i) = BitVec.ofNat 32 (s.devNum fn (a + 0x40 + 4 * i) 4)) ∧
            ∀ i, i < 92 → q.sget i = c.G.sget i) ∧
          u.mem = s.mem ∧ ∀ v, v ≠ c.w → sget u.warps v = sget s.warps v)) ∧
      (∀ h, s.passes sig = some c → c.W.handler = some h → h.halt.isSome = true → ∃ u W, exec .iret s = .next u ∧
        sget u.warps c.w = some W ∧ W.residency = .saved false ∧ W.v = c.W.v ∧ W.slices = c.W.slices ∧ u.mem = s.mem))

namespace Sys2Proof.Claims

open Sys2Proof.Machine

/-! ### The machine's own steps -/

/-- A step of the machine answers `t` as the next state, marked as progress. -/
def Does (i : Instr) (s t : State) : Prop := exec i s = .next t.tick

/-- A step that is not due changes nothing. -/
def Idle (i : Instr) (s : State) : Prop := Does i s s

/-- Accesses of the contexts named that may use an old translation are on their way: stores, loads, capsule steps, requests (R319). -/
def Flying (s : State) (p : Nat → Prop) : Prop :=
  let mine (w : Nat) : Prop := ∃ W, sget s.warps w = some W ∧ p W.ctx
  (∃ e ∈ s.regq, p e.2.ctx) ∨ (∃ e ∈ s.inflight, e.2.memory = true ∧ mine e.2.warp) ∨ (∃ e ∈ s.steps, mine e.2.warp) ∨
    ∃ e ∈ s.requests, p e.2.ctx ∧ e.2.answer = none

/-- A gang waits at a barrier or for its team. -/
def Together (g : Gang) : Prop := (∃ a b, g.pend = .barrier a b ∨ g.pend = .again a b) ∨ ∃ n, g.pend = .team n

end Sys2Proof.Claims

open Sys2Proof Sys2Proof.Machine Sys2Proof.Claims in
/-- R26, R65 and R129: promotion, and the end of a stall and of a sleep. R31 to R33: parking and becoming resident; which warp is parked
to make room, and when an urgent one takes the reserve's last slot, are the model's choices (assumption 26). R55: results. R189:
evictions. R43, R346: a parity error. R154, R289 and R319: translations; that a page response installs both permissions and keeps a denial for
the stalled instruction is the model's choice (assumption 34), and so is when an ATS invalidation completes (assumption 45). R262, R265,
R272, R273 and R275: claims and array operations. -/
def Obligations.SchedulerAndMemorySteps : Prop :=
  ∀ s : State,
    (∀ w j W g, sget s.warps w = some W → W.gangAt j = some g →
      let with' (f : Gang → Gang) : State := s.setWarp w (W.modGang j f)
      (64 ≤ g.unchosen ∧ g.promoted = false → Does (.promotion w j) s (with' (fun g => { g with promoted := true }))) ∧
      (g.unchosen < 64 ∨ g.promoted = true → Idle (.promotion w j) s) ∧
      (∀ t, g.stall = some t → t ≤ s.time → Does (.schedStallExpiry w j) s (with' (fun g => { g with stall := none }))) ∧
      (∀ t, g.stall = some t → s.time < t → Idle (.schedStallExpiry w j) s) ∧
      (g.stall = none → Idle (.schedStallExpiry w j) s) ∧
      (∀ t, g.sleep = some t → t ≤ s.time → Does (.sleepDeadline w j) s (with' (fun g => { g with sleep := none }))) ∧
      (∀ t, g.sleep = some t → s.time < t → Idle (.sleepDeadline w j) s) ∧
      (g.sleep = none → Idle (.sleepDeadline w j) s)) ∧
    (∀ w W, sget s.warps w = some W →
      let due : Prop := (∀ g ∈ W.gangs, g.wait = some s.progress ∧ (Together g ∨ ∃ a b, g.pend = .regang a b)) ∧
        (∃ g ∈ W.gangs, g.since + 4096 < s.time ∧ Together g) ∧ s.outstanding w = false ∧ W.residency = .resident ∧ s.called W = false
      (due → Does (.barrierWaitParking w) s { s with
        warps := sput s.warps w { W with residency := .parked false s.nextId, away := if W.holds then 1 else W.away, lastSlot := false, callers := [] }
        nextId := s.nextId + 1 }) ∧
      (¬ due → Idle (.barrierWaitParking w) s) ∧
      let fits : Prop := if 2032 ≤ W.entry then s.slotFits W.core W.window = true else s.roomFor W.core W.window = true
      let last : Prop := s.victim W.core = none ∧ W.urgent = true ∧ s.lastSlotFree W.core = true ∧ s.known W.core = true
      (s.nextUnpark W.core ≠ some w → Idle (.unpark w) s) ∧
      (s.nextUnpark W.core = some w → fits ∨ last → ∃ p x, p < 12 ∧ (∀ q, q < 12 → s.residentIn W.core p ≤ s.residentIn W.core q) ∧
        (∀ q, q < p → s.residentIn W.core p < s.residentIn W.core q) ∧
        (x = true ↔ ¬ fits) ∧
        Does (.unpark w) s (s.setWarp w { W with residency := .resident, part := p, urgent := false, lastSlot := x })) ∧
      (s.nextUnpark W.core = some w → ¬ fits → (∀ v, s.victim W.core = some v → Does (.unpark w) s (s.park v false)) ∧
        (s.victim W.core = none → ¬ last → Idle (.unpark w) s))) ∧
    (∀ core v, s.victim core = some v → ∃ W, (v, W) ∈ s.warps ∧ W.core = core ∧ W.residency = .resident ∧ W.ended = false ∧
      s.outstanding v = false ∧ s.called W = false ∧ ∀ g ∈ W.gangs, s.gangMayIssue W g = false) ∧
    (∀ core w, s.nextUnpark core = some w → ∃ W o, (w, W) ∈ s.warps ∧ W.core = core ∧ W.ended = false ∧
      s.mayReturn W.ctx core = true ∧ W.readyOrder = some o ∧
      ∀ v V o', (v, V) ∈ s.warps → V.core = core → V.ended = false → s.mayReturn V.ctx core = true →
        V.readyOrder = some o' → o ≤ o') ∧
    (∀ id, (sget s.inflight id = none → Idle (.registerBecomesFull id) s) ∧
      (∀ l, sget s.inflight id = some l → s.mayLand id l = false → Idle (.registerBecomesFull id) s) ∧
      (∀ l W, sget s.inflight id = some l → s.mayLand id l = true → sget s.warps l.warp = some W → ∃ u W', exec (.registerBecomesFull id) s = .next u ∧
        sget u.warps l.warp = some W' ∧ W'.flags = W.flags ||| l.flags ∧ (∀ e ∈ l.marks, zget 0 W'.emptyV e.1 &&& e.2 = 0) ∧
        (∀ e ∈ l.scals, e.1 < 96 → W'.emptyS.getLsbD e.1 = false) ∧ W'.slices = W.slices ∧
        u.inflight = sdel s.inflight id ∧ u.mem = s.mem ∧ ∀ v, v ≠ l.warp → sget u.warps v = sget s.warps v)) ∧
    (∀ core, ∃ u, exec (.instructionCacheParityError core) s = .next u ∧ { u with life := s.life, progress := s.progress } = s ∧
      ∀ i, zget 0 u.life i = if i = 3 ∧ zget 0 s.life 3 ≠ 0xFFFFFFFF then zget 0 s.life 3 + 1 else zget 0 s.life i) ∧
    (∀ core line, ∃ u, exec (.carveOutEviction core line) s = .next u ∧
      (∀ e, e ∈ u.carve ↔ e ∈ s.carve ∧ ¬ (e.1 / 2 ^ 64 = core ∧ e.1 % 2 ^ 64 / 128 = line)) ∧
      (∀ e, e ∈ u.owners ↔ e ∈ s.owners ∧ ¬ (e.2.1 = core ∧ e.1 / 128 = line)) ∧
      (∀ key, key / 128 = line → key < 2 ^ 64 → s.pendingByte core key = none → u.coreByte core key = s.byte key) ∧
      { u with carve := s.carve, owners := s.owners, progress := s.progress } = s) ∧
    (∀ ctx va,
      let a := vaOf va
      (canonical va = false ∨ inWindow va = true ∨ s.lookup ctx a = none → Idle (.translationLookup ctx va) s) ∧
      (∀ t, canonical va = true → inWindow va = false → s.lookup ctx a = some t →
        let page := (t.base + (a - t.va)) / 4096
        let asks : Prop := t.tgt = 1 ∧ (∀ e ∈ s.ats, ¬ (e.ctx = ctx ∧ e.page = page)) ∧ (ctx, page) ∉ s.atsReq
        let s1 : State := { s with tlb := if (s.cached ctx a).isSome then s.tlb else t :: s.tlb }
        (asks → Does (.translationLookup ctx va) s
          { s1 with atsReq := (ctx, page) :: s.atsReq, outbox := .ats (ctxFn ctx) (s.pasidOf ctx) page :: s.outbox }) ∧
        (¬ asks → Does (.translationLookup ctx va) s s1))) ∧
    (∀ ctx page frame perm, ((ctx, page) ∉ s.atsReq → Idle (.atsTranslationCompletion ctx page (frame, perm)) s) ∧
      ((ctx, page) ∈ s.atsReq → (∀ e ∈ (s.context ctx).ringWarps, e.passed = false) →
        Does (.atsTranslationCompletion ctx page (frame, perm)) s { s with
          atsReq := s.atsReq.filter (fun e => !(e == (ctx, page)))
          ats := { ctx := ctx, page := page, frame := frame, perm := perm } ::
            s.ats.filter (fun e => !(e.ctx == ctx && e.page == page)) })) ∧
    (∀ index frame, (∀ answer, sget s.tags index = none → Idle (.pageRequestResponse index answer) s) ∧
      (∀ t, sget s.tags index = some t →
        ((∀ e ∈ (s.context t.ctx).ringWarps, e.passed = false) → Does (.pageRequestResponse index (some frame)) s { s with
          tags := sdel s.tags index
          ats := { ctx := t.ctx, page := t.page, frame := frame, perm := 3 } ::
            s.ats.filter (fun e => !(e.ctx == t.ctx && e.page == t.page)) }) ∧
        (∀ w W, t.warp = some w → sget s.warps w = some W →
          (W.ended = true ∨ W.saved = true → Does (.pageRequestResponse index none) s { s with tags := sdel s.tags index }) ∧
          (W.ended = false → W.saved = false → Does (.pageRequestResponse index none) s
            { s with tags := sdel s.tags index, denials := s.denials ++ [(index, t)] })) ∧
        (∀ w, t.warp = some w → sget s.warps w = none →
          Does (.pageRequestResponse index none) s { s with tags := sdel s.tags index }) ∧
        (t.warp = none →
          ((∀ e ∈ s.cmds, s.cmdCtx e.2 ≠ t.ctx ∨ e.2.core ≠ t.core) → Does (.pageRequestResponse index none) s
            { s with tags := sdel s.tags index, denials := s.denials ++ [(index, t)] }) ∧
          ∃ u, exec (.pageRequestResponse index none) s = .next u ∧
            { u with tags := s.tags, denials := s.denials, cmds := s.cmds, progress := s.progress } = s ∧
            u.tags = sdel s.tags index ∧
            (∀ i c, sget s.cmds i = some c → ∃ x, sget u.cmds i = some { c with fault := x } ∧
              (c.fault ≠ none ∨ s.cmdCtx c ≠ t.ctx ∨ c.core ≠ t.core → x = c.fault) ∧
              (c.fault = none → s.cmdCtx c = t.ctx → c.core = t.core → ∀ r a, c.todo = [r] → c.open_ r.1 = true → c.size = 16 →
                s.chunkAccess t.ctx t.core c.drain r.2 16 = .stall t.page a → x = some a))))) ∧
    (∀ ctx (val : Word),
      let c := s.context ctx
      let a := vaOf c.invva
      let flying : Prop := Flying s (fun x => x = ctx)
      (s.answers (ctxFn ctx) = false → Idle (.invalidate ctx val) s) ∧
      (s.answers (ctxFn ctx) = true → val.getLsbD 0 = true → ∃ u x, exec (.invalidate ctx val) s = .next u ∧
        u.context ctx = { c with invctl := x } ∧
        x.getLsbD 0 = true ∧ x.getLsbD 31 = false ∧ x.getLsbD 1 = val.getLsbD 1 ∧
        (∀ t, t ∈ u.tlb ↔ t ∈ s.tlb ∧ ¬ (t.ctx = ctx ∧ (val.getLsbD 1 = true ∨ (t.va ≤ a ∧ a < t.va + t.size)))) ∧
        (∀ e, e ∈ u.ats ↔ e ∈ s.ats ∧ ¬ (e.ctx = ctx ∧ (val.getLsbD 1 = true ∨ ∃ t ∈ s.tlb, t.ctx = ctx ∧ t.va ≤ a ∧ a < t.va + t.size ∧
          t.tgt = 1 ∧ t.base ≤ e.page * 4096 ∧ e.page * 4096 < t.base + t.size))) ∧
        u.warps = s.warps ∧ u.mem = s.mem) ∧
      (s.answers (ctxFn ctx) = true → val.getLsbD 0 = false → ∃ u x, exec (.invalidate ctx val) s = .next u ∧
        u.context ctx = { c with invctl := x } ∧
        x.getLsbD 1 = val.getLsbD 1 ∧ x.getLsbD 0 = c.invctl.getLsbD 0 ∧ x.getLsbD 31 = c.invctl.getLsbD 31 ∧ u.tlb = s.tlb ∧
        u.ats = s.ats) ∧
      (c.invctl.getLsbD 0 = true → ¬ flying → ∃ u x, exec (.invalidationDone ctx) s = .next u ∧
        u.context ctx = { c with invctl := x } ∧ x.getLsbD 0 = false ∧ x.getLsbD 31 = true ∧ x.getLsbD 1 = c.invctl.getLsbD 1) ∧
      (c.invctl.getLsbD 0 = false ∨ flying → Does (.invalidationDone ctx) s (s.atsSettle (ctxFn ctx)))) ∧
    (∀ fn,
      let used : Prop := Flying s (fun x => ctxFn x = fn)
      (used ∨ (∀ e ∈ s.atsInv, e.1 ≠ fn) → s.atsSettle fn = s) ∧
      (¬ used → (s.atsSettle fn).atsInv = s.atsInv.filter (fun e => !(e.1 == fn)) ∧
        (∀ m, m ∈ (s.atsSettle fn).outbox ↔ m ∈ s.outbox ∨ ∃ page, (fn, page) ∈ s.atsInv ∧ m = .atsDone fn page) ∧
        { s.atsSettle fn with atsInv := s.atsInv, outbox := s.outbox } = s) ∧
      ∀ page,
        let left := s.ats.filter (fun e => !(ctxFn e.ctx == fn && e.page == page))
        (s.fwState ≠ 1 → Idle (.atsInvalidation fn page) s) ∧
        (s.fwState = 1 → (∀ e ∈ s.atsInv, e.1 ≠ fn) →
          (used → Does (.atsInvalidation fn page) s { s with ats := left, atsInv := s.atsInv ++ [(fn, page)] }) ∧
          (¬ used → Does (.atsInvalidation fn page) s { s with ats := left, outbox := .atsDone fn page :: s.outbox })) ∧
        (s.fwState = 1 → (fn, page) ∈ s.atsInv → Does (.atsInvalidation fn page) s (({ s with ats := left } : State).atsSettle fn))) ∧
    (∀ id, (sget s.claims id = none → Idle (.quadrantClaimGrant id) s) ∧
      (∀ q, sget s.claims id = some q →
        let due : Prop := q.granted = false ∧ (∀ k ∈ q.quads, (s.quad k).owner = none) ∧
          ∀ e ∈ s.claims, e.1 < id → e.2.core = q.core → e.2.granted = true
        (¬ due → Idle (.quadrantClaimGrant id) s) ∧
        (due → ∃ u, exec (.quadrantClaimGrant id) s = .next u ∧ u.claims = sput s.claims id { q with granted := true } ∧
          (∀ k, u.quad k = if k ∈ q.quads then { Quadrant.reset with owner := some q.owner } else s.quad k) ∧
          { u with claims := s.claims, quads := s.quads, progress := s.progress } = s))) ∧
    (∀ id, (sget s.ops id = none → Idle (.arrayOperationStart id) s ∧ Idle (.arrayOperationRetirement id) s) ∧
      (∀ o, sget s.ops id = some o →
        let older (e : Nat × ArrayOp) : Prop := e ∈ s.ops ∧ e.2.block = o.block ∧ e.2.team = o.team ∧ e.1 < id
        ((∃ e, older e ∧ e.2.started = false) → Idle (.arrayOperationStart id) s) ∧
        ((∀ e, older e → e.2.started = true) →
          Does (.arrayOperationStart id) s { s with ops := sput s.ops id { o with started := true } }) ∧
        let due : Prop := o.started = true ∧ o.flags = none ∧
          ∀ e, older e → e.2.flags = none → e.2.ordered o = false
        (¬ due → Idle (.arrayOperationRetirement id) s) ∧
        (due → (o.quads.map (·.1)).Nodup → ∃ u x, exec (.arrayOperationRetirement id) s = .next u ∧
          sget u.ops id = some x ∧ x.flags.isSome = true ∧ u.mem = s.mem ∧
          (∀ k, (∀ e ∈ o.quads, e.1 ≠ k) → u.quad k = s.quad k) ∧
          (∀ b, o.kind = .zero b → ∀ e ∈ o.quads, u.quad e.1 = if e.2.2 = 0 then (s.quad e.1).setBank b [] else s.quad e.1) ∧
          (∀ tile m B t, o.kind = .loadw tile m → sget s.blocks o.block = some B → s.tile o.block tile = some t →
            ∀ e ∈ o.quads, u.quad e.1 = { s.quad e.1 with
              latch := some { tile := tile, fmt := t.fmt, plane := t.plane, k := t.k, col := 64 * e.2.1, elem := 64 * e.2.2,
                              load := id, rows := (List.range t.rows).map (fun i => s.bytes (B.rowKey t i) t.rowBytes) } }) ∧
          (∀ b tile row0 em en ek sc B t, o.kind = .mma b tile row0 em en ek sc → sget s.blocks o.block = some B →
            s.tile o.block tile = some t → ∀ e ∈ o.quads, (u.quad e.1).latch = (s.quad e.1).latch ∧
              ∀ m i, m < 256 → i < 64 →
                let old := zget 0 ((s.quad e.1).bank b) (64 * m + i)
                zget 0 ((u.quad e.1).bank b) (64 * m + i) =
                  if e.2.2 = 0 ∧ em.getLsbD m = true ∧ row0 + m < t.rows ∧ en.getLsbD ((64 * e.2.1 + i) % 128) = true then
                    (mmaElement t (RawRow.ofPlanes t.fmt t.k (s.bytes (B.rowKey t (row0 + m)) t.rowBytes))
                      (fun k => (o.quads.find? (fun f => f.2.1 == e.2.1 && f.2.2 == k)).bind (fun f => (s.quad f.1).latch))
                      i ek sc old).1
                  else old)))) ∧
    (∀ (t : Tile) (row : RawRow) (l : Latch) (col : Nat) (ek : BitVec 128) (acc : Word),
      t.k = 16 → (∀ i, i < 16 → ek.getLsbD i = true) →
      let a (i : Nat) : Int := fieldInt ((row.fields[i]?).getD (false, 0))
      let w (i : Nat) : Int := fieldInt (((l.group col 0).1[i]?).getD (false, 0))
      let ea := ((row.groups[0]?).getD (0, 0)).2
      let ew := (l.group col 0).2.2
      let x := acc.toInt + ((List.range 16).map (fun i => a i * w i)).sum
      (t.fmt = 6 → mmaElement t row (fun _ => some l) col ek none acc =
        (BitVec.ofInt 32 x, if x < -2 ^ 31 ∨ 2 ^ 31 ≤ x then fIO else 0)) ∧
      (t.fmt ≠ 6 → ea = 0xFF ∨ ew = 0xFF → mmaElement t row (fun _ => some l) col ek none acc = (0x7FC00000, 0)))

namespace Sys2Proof.Claims

open Sys2Proof.Machine

/-- The warp `w` has taken its halt entry: the hardware fields of its image are written, its gang `g` runs the save handler with
the image's address in s92 and s93 and that of the scratch image in s94 and s95, and what it was is kept (R291). -/
def Halted (s u : State) (w : Nat) (W : Warp) (g : Gang) (scratch : Nat) : Prop :=
  ∃ W' q h k, u = (((s.devWrite (ctxFn W.ctx) (s.imageAddr W) (W.imageHead 1 (W.pcOf g) g.q g.ss)).captureState W).setWarp w W').tick ∧
    W'.gangs = [q] ∧ W'.handler = some h ∧ h.halt = some k ∧ h.slices = g.slices ∧
    k.gang = g ∧ k.slices = W.slices ∧ k.v = W.v ∧ k.p = W.p ∧ k.flags = W.flags ∧
    q.sget 92 = BitVec.ofNat 32 (s.imageAddr W) ∧ q.sget 93 = BitVec.ofNat 32 (s.imageAddr W / 2 ^ 32) ∧
    q.sget 94 = BitVec.ofNat 32 scratch ∧ q.sget 95 = BitVec.ofNat 32 (scratch / 2 ^ 32) ∧ (∀ i, i < 92 → q.sget i = g.sget i) ∧
    W'.v = W.v ∧ W'.p = W.p ∧ W'.flags = W.flags ∧
    (∀ j, j < W.slices.length → W'.slice j = if g.slices.getLsbD j = true then
      { W.slice j with pc := (s.context W.ctx).hvec &&& ~~~3 } else W.slice j)

/-- Granule `g` has been retired: its bytes are at the spare `d`, which its place now leads to, no warp has stopped, and no
context's ring gets a record but one of class 0x30 with detail `how`, of an enabled context (R297). -/
def Retired (s u : State) (g d how : Nat) : Prop :=
  (∀ off, off < 4096 → u.byte (d * 4096 + off) = s.byte (g * 4096 + off)) ∧
  (∀ key, key / 4096 ≠ g → key / 4096 ≠ d → u.byte key = s.byte key) ∧
  sget u.remaps (unremap s.remaps g) = some d ∧ g ∈ u.retired ∧ u.warps = s.warps ∧
  (u.contexts = s.contexts ∨ ∃ e ∈ s.contexts, ∃ va, e.2.en = true ∧
    (u.context e.1).trapq = (s.context e.1).trapq ++ [(s.warplessRecord e.1 0x30 how 0 va, none)] ∧
    ∀ c, c ≠ e.1 → u.context c = s.context c)

end Sys2Proof.Claims

open Sys2Proof Sys2Proof.Machine Sys2Proof.Claims in
/-- R287 and R317: delivery and consumption; how the ring is reached through ATS is the model's choice (assumption 84), and so is clearing
the low bits of a resume PC (assumption 27). R290 to R293: the ladder, here of one part; the deadlines of a joined drain are assumption 36.
R295, R296, R297: resumption, where waiting is assumption 40; freeze and thaw, of the contexts and with the vector of assumption 42; corrected and
uncorrectable errors, the spares' numbers and the owner by assumption 43. -/
def Obligations.TrapsPreemptionAndErrors : Prop :=
  ∀ s : State,
    (∀ ctx,
      let c := s.context ctx
      let size := 2 ^ (field c.trctl.toNat 0 4 + 4)
      let vec := field c.cxvec.toNat 0 11
      let at_ := c.trbase.toNat + 128 * (c.trprod.toNat % size)
      let room : Prop := (c.trprod - c.trcons).toNat < size ∧ s.engineRuns ctx = true
      (c.trapq = [] ∨ ¬ room → Idle (.trapRingDelivery ctx) s) ∧
      (∀ bytes w r, c.trapq = (bytes, w) :: r → room →
        (s.ringKey ctx c.trprod.toNat true = none →
          Does (.trapRingDelivery ctx) s (s.askHost (Tag.of ctx noCore (at_ / 4096)))) ∧
        (∀ k, s.ringKey ctx c.trprod.toNat true = some k →
          (∃ e, s.atsEntry ctx (at_ / 4096) = some e ∧ e.perm.getLsbD 1 = true ∧ k = keyOf 1 (e.frame * 4096 + at_ % 4096)) ∧
          let s1 := (s.rawWrite k bytes).setContext ctx { c with
            trapq := r, trprod := c.trprod + 1
            ringWarps := c.ringWarps ++ [{ count := c.trprod.toNat, warp := w, slices := ((bytes[4]?).getD 0).toNat, passed := false }] }
          let s2 := if w = none then s1.reported ctx bytes else s1
          Does (.trapRingDelivery ctx) s (if vec < (if ctx / 16 = 0 then 2048 else 64) then
            { s2 with outbox := .msix (ctx / 16) vec :: s2.outbox } else s2) ∧
          (numOf (bytes.take 2) ≠ 8 → s1.reported ctx bytes = s1))) ∧
      (∀ (cons : Word) writes, s.answers (ctxFn ctx) = false ∨ (c.trprod - c.trcons).toNat < (cons - c.trcons).toNat →
        Does (.hostAction ctx (cons, writes)) s (s.hostWrites writes)) ∧
      (∀ (cons : Word) writes e w W, s.answers (ctxFn ctx) = true → cons = c.trcons + 1 → c.trprod ≠ c.trcons →
        (∀ x ∈ c.ringWarps, x.passed = false) →
        c.ringWarps.find? (fun e => e.count == c.trcons.toNat) = some e → e.warp = some w → sget s.warps w = some W →
        let s0 := s.hostWrites writes
        let here := c.trbase.toNat + 128 * (c.trcons.toNat % size)
        (s0.ringKey ctx c.trcons.toNat false = none → Does (.hostAction ctx (cons, writes)) s ((s0.setContext ctx { c with
          trcons := cons
          ringWarps := c.ringWarps.map (fun x => { x with passed := x.count == c.trcons.toNat }) }).askHost
            (Tag.of ctx noCore (here / 4096)))) ∧
        ∀ k, s0.ringKey ctx c.trcons.toNat false = some k →
        (∃ e, s.atsEntry ctx (here / 4096) = some e ∧ e.perm.getLsbD 0 = true ∧ k = keyOf 1 (e.frame * 4096 + here % 4096)) ∧
        let action := if s0.num k 2 = 0x31 then 2 else s0.num (k + 0x7C) 1
        let pc : DWord := BitVec.ofNat 64 (s0.num (k + 0x10) 8)
        let done : Word := BitVec.ofNat 32 (s0.num (k + 0x18) 4)
        (W.saved = true → ∃ u, exec (.hostAction ctx (cons, writes)) s = .next u ∧ u.warps = s.warps ∧ (u.context ctx).trcons = cons ∧
          (u.context ctx).actions = c.actions ++ [(w, e.slices + 256 * action, pc, done)]) ∧
        (∀ g, W.saved = false → W.hostStop = true → W.ended = false →
          W.gangAt (lowSlice (BitVec.ofNat 8 e.slices)) = some g →
          (∀ b, W.block = some b → ∃ B, sget s.blocks b = some B ∧ w ∈ B.members) →
          ∃ u W', exec (.hostAction ctx (cons, writes)) s = .next u ∧ (u.context ctx).trcons = cons ∧ sget u.warps w = some W' ∧
            W'.hostStop = false ∧
            (action = 0 → W'.v = W.v ∧ (∀ j, j < W.slices.length → W'.slice j = if g.slices.getLsbD j = true then
                Slice.settle 20 { W.slice j with pc := pc &&& ~~~3 } else W.slice j) ∧
              ((∀ j, g.slices.getLsbD j = true → ∀ e, (W.slice j).stack.head? = some e → e.join ≠ some (pc &&& ~~~3)) →
                ∃ q, W'.gangAt (lowSlice g.slices) = some q ∧
                  q.redo = if pc = W.groupPc g ∧ done ≠ 0 then some (W.groupPc g, done) else none)) ∧
            (action = 1 → W'.v = W.v ∧ ∀ j, j < W.slices.length → g.slices.getLsbD j = true → (W.slice j).stack = [] →
              W'.slice j = { W.slice j with pc := W.stopNext }) ∧
            (2 ≤ action → W'.ended = true ∧ W'.gangs = [])))) ∧
    (∀ ctx (pairs : BitVec 64) d1 d2,
      let c := s.context ctx
      let m := pairs &&& (s.stand (s.standOf (ctxFn ctx))).fpairs &&& ~~~c.savedPairs
      (s.answers (ctxFn ctx) = false → Idle (.preempt ctx pairs d1 d2) s) ∧
      (s.answers (ctxFn ctx) = true → c.ladder = none →
        (m = 0 → Idle (.preempt ctx pairs d1 d2) s) ∧
        (m ≠ 0 → ∃ n, m &&& ~~~n = 0 ∧ n &&& c.savedPairs = 0 ∧
          (∀ e ∈ s.blocks, e.2.ctx = ctx → e.2.admitted = true → e.2.pairMask &&& m ≠ 0 →
            e.2.pairMask &&& ~~~c.savedPairs &&& ~~~n = 0) ∧
          Does (.preempt ctx pairs d1 d2) s ((((((s.setContext ctx { c with
            ladder := some { parts := [{ stage := .drain, pairs := n, d1 := s.time + 3000 * d1, d2 := 3000 * d2 }], done := 0, reason := 0 }
            counts := (0, 0, 0) }).header ctx 4 1 1).header ctx 5 1 0).header ctx 6 2 0).header ctx 0x1C 4 0).header ctx 0x20 8
              s.refTime))) ∧
      (∀ l, s.answers (ctxFn ctx) = true → c.ladder = some l → ∃ u l' n, exec (.preempt ctx pairs d1 d2) s = .next u ∧
        (u.context ctx).ladder = some l' ∧ l'.done = l.done ∧ l'.reason = l.reason ∧ m &&& ~~~n = 0 ∧
        ∀ p ∈ l.parts, ∀ k, p.pairs.getLsbD k = true → ∃ q ∈ l'.parts, q.pairs.getLsbD k = true ∧ q.stage = p.stage ∧
          (n.getLsbD k = false ∨ p.stage = .capture → q.d1 = p.d1 ∧ q.d2 = p.d2) ∧
          (n.getLsbD k = true → p.stage = .drain → q.d1 = min p.d1 (s.time + 3000 * d1) ∧ q.d2 = min p.d2 (3000 * d2)) ∧
          (n.getLsbD k = true → p.stage = .halt → q.d1 = p.d1 ∧ q.d2 = min p.d2 (s.time + 3000 * d2)))) ∧
    (∀ ctx,
      let c := s.context ctx
      let still (i : Instr) (st : Stage) : Prop := (∀ l, c.ladder = some l → ∀ p ∈ l.parts, p.stage ≠ st) → Idle i s
      still (.drainDeadline ctx) .drain ∧ still (.haltDeadline ctx) .halt ∧ still (.captureCompletion ctx) .capture ∧
      still (.contextLoss ctx) .capture ∧
      ∀ l p, c.ladder = some l → l.parts = [p] →
        let next (q : LadderPart) : State := s.setContext ctx { c with ladder := some { l with parts := [q] } }
        (p.stage = .drain →
          let late : Prop := p.d1 ≤ s.time ∨ s.blocksIn ctx p.pairs = false
          (¬ late → Idle (.drainDeadline ctx) s) ∧
          (late → c.hvec = 0 → Does (.drainDeadline ctx) s ((next { p with stage := .capture }).header ctx 4 1 3)) ∧
          (late → c.hvec ≠ 0 →
            Does (.drainDeadline ctx) s ((next { p with stage := .halt, d2 := s.time + p.d2 }).header ctx 4 1 2))) ∧
        (p.stage = .halt →
          let late : Prop := p.d2 ≤ s.time ∨ s.unsaved ctx p.pairs = []
          (¬ late → Idle (.haltDeadline ctx) s) ∧
          (late → Does (.haltDeadline ctx) s ((next { p with stage := .capture }).header ctx 4 1 3))) ∧
        (p.stage = .capture →
          (s.captureReady ctx p.pairs = false → Idle (.captureCompletion ctx) s) ∧
          (s.captureReady ctx p.pairs = true → ∃ u, exec (.captureCompletion ctx) s = .next u ∧ (u.context ctx).ladder = none ∧
            (u.context ctx).savedPairs = c.savedPairs ||| (l.done ||| p.pairs) ∧
            ∀ e ∈ s.unsaved ctx p.pairs, ∃ W, sget u.warps e.1 = some W ∧ W.residency = .saved true) ∧
          ∃ u, exec (.contextLoss ctx) s = .next u ∧ (u.context ctx).lost = true ∧ (u.context ctx).ladder = none ∧
            (∀ e ∈ u.warps, e.2.ctx ≠ ctx) ∧ (∀ e ∈ u.blocks, e.2.ctx ≠ ctx))) ∧
    (∀ w W, sget s.warps w = some W →
      (s.arraysQuiet W = true ↔ ∀ e ∈ s.ops, W.block = some e.2.block → e.2.flags ≠ none) ∧
      (s.haltable w W = true → s.arraysQuiet W = true ∧ s.outstanding w = false ∧ W.reconverged = true ∧ s.stageOf W = some .halt) ∧
      ((∃ b o, W.residency = .parked b o) → (s.stageOf W = some .halt → W.ended = false → s.arraysQuiet W = true →
          ∃ u W', exec (.haltEntry w) s = .next u ∧ sget u.warps w = some W' ∧ W'.residency = .saved true ∧ W'.v = W.v) ∧
        (s.stageOf W ≠ some .halt ∨ W.ended = true ∨ s.arraysQuiet W = false → Idle (.haltEntry w) s)) ∧
      (W.residency = .resident → s.haltable w W = false ∨ s.isDesignated w W = true → Idle (.haltEntry w) s) ∧
      (∀ g, W.gangs = [g] → s.haltable w W = true → s.isDesignated w W = false →
        ∃ u, exec (.haltEntry w) s = .next u ∧ Halted s u w W g 0) ∧
      (∀ b B, W.block = some b → sget s.blocks b = some B →
        let ready : Prop := s.haltable w W = true ∧ s.isDesignated w W = true ∧ (∀ e ∈ s.cmds, e.2.block ≠ b) ∧
          ∀ v V, v ∈ B.members → v ≠ w → sget s.warps v = some V → V.saved = true ∨ V.ended = true
        (¬ ready → Idle (.designatedHaltEntry w) s) ∧
        (∀ g, W.gangs = [g] → ready → ∃ u, exec (.designatedHaltEntry w) s = .next u ∧
          Halted s u w W g (s.scratchBase B.ctx W.core)))) ∧
    (∀ ctx,
      let c := s.context ctx
      let may : Prop := c.ladder = none ∧ s.freeze = none ∧ s.frozenMem = none ∧ s.fnRuns (ctxFn ctx) = true
      let claimed := (s.blocksOf ctx c.savedPairs).foldl (fun t e => t.reclaim e.1 e.2) s
      let fits : Prop := claimed.resumable ctx c.savedPairs = true
      (s.answers (ctxFn ctx) = false ∨ (c.savedPairs = 0 ∧ c.ladder = none) → Idle (.resume ctx) s) ∧
      (s.answers (ctxFn ctx) = true → c.savedPairs ≠ 0 ∨ c.ladder ≠ none → ¬ may →
        Does (.resume ctx) s (s.setContext ctx { c with resumePairs := BitVec.allOnes 64 })) ∧
      (s.answers (ctxFn ctx) = true → c.savedPairs ≠ 0 → may → ¬ fits → ∃ r,
        (r = claimed ∨ ∃ core v, claimed.victim core = some v ∧ r = claimed.park v false) ∧
        Does (.resume ctx) s (if c.resumePairs = BitVec.allOnes 64 then r else
          (r.setContext ctx { c with resumePairs := BitVec.allOnes 64 }).header ctx 4 1 6)) ∧
      (s.answers (ctxFn ctx) = true → c.savedPairs ≠ 0 → may → fits → c.actions = [] → Memory.wf s.mem = true →
        ∃ u, exec (.resume ctx) s = .next u ∧ (u.context ctx).savedPairs = 0 ∧ (u.context ctx).resumePairs = 0 ∧ (u.context ctx).worldPairs = c.worldPairs &&& ~~~c.savedPairs ∧
        ∀ w W b, sget s.warps w = some W → W.ctx = ctx → W.residency = .saved b →
          c.savedPairs.getLsbD (W.core / 2) = true →
          let num (off n : Nat) : Nat := s.devNum (ctxFn ctx) (s.imageAddr W + off) n
          ∃ W' o, sget u.warps w = some W' ∧ W'.residency = .parked true o ∧ W'.flags = BitVec.ofNat 32 (num 0x10 4) &&& flagBits ∧
            (∀ r lane, r < W.window → lane < 32 → W'.vget r lane = BitVec.ofNat 32 (num (0x280 + 128 * r + 4 * lane) 4)) ∧
            ∀ i lane, i < 7 → lane < 32 → (W'.pmask i).getLsbD lane = (num (0x20 + lane) 1).testBit i)) ∧
    (∀ ctx, ctx ∈ s.liveContexts ↔ ∃ c, (ctx, c) ∈ s.contexts ∧ c.lost = false ∧ (c.en = true ∨ ∃ g ∈ s.groves, g.2.ctx = ctx)) ∧
    (∀ d1 d2, (s.freeze ≠ none ∨ s.frozenMem ≠ none ∨ s.fwState ≠ 1 → Idle (.freezeRequest d1 d2) s) ∧
      (s.freeze = none → s.frozenMem = none → s.fwState = 1 → ∃ u, exec (.freezeRequest d1 d2) s = .next u ∧ u.freeze = some (d1, d2) ∧
        ∀ ctx ∈ s.liveContexts,
          (s.stand (s.standOf (ctxFn ctx))).fpairs &&& ~~~(s.context ctx).savedPairs ≠ 0 → (u.context ctx).ladder ≠ none)) ∧
    (s.freeze = none ∨ (∃ e ∈ s.contexts, e.2.ladder ≠ none) ∨ s.regq ≠ [] → Idle .freezeCompletion s) ∧
    (s.freeze ≠ none → (∀ e ∈ s.contexts, e.2.ladder = none) → s.regq = [] → ∃ u m v, exec .freezeCompletion s = .next u ∧
      u.freeze = none ∧ u.frozenMem = some m ∧ u.dirty = [] ∧ v < 2048 ∧ .msix 0 v ∈ u.outbox ∧ u.warps = s.warps ∧
      ∀ key, zget 0 m key = if spaceOf key = 0 then u.byte key else 0) ∧
    (s.frozenMem = none ∨ s.fwState ≠ 1 → Idle .thaw s) ∧
    (∀ m, s.frozenMem = some m → s.fwState = 1 → Memory.wf s.mem = true → Memory.wf m = true → (∀ e ∈ m, spaceOf e.1 = 0) →
      ∃ u, exec .thaw s = .next u ∧ u.frozenMem = none ∧
        (s.liveContexts = [] → ∀ key, u.byte key = if spaceOf key = 0 then zget 0 m key else s.byte key)) ∧
    (∀ core off, let a := coreKey core off
      let more (j : Nat) : SMap Word := zput 0 s.life j (BitVec.ofNat 32 (min ((zget 0 s.life j).toNat + 1) 0xFFFFFFFF))
      Does (.correctedError a) s { s with life := more 0 } ∧
        Does (.uncorrectableError a) s { s with life := more 4, poison := sput s.poison (a / 4) true }) ∧
    (∀ addr, addr < 2 ^ 39 →
      let g := addr / 4096
      let n := zget 0 s.ecc g + 1
      let d := 0x8000000 + s.retired.length
      let i := if 0x6000000000 ≤ addr then 1 else 2
      let more (j : Nat) : SMap Word := zput 0 s.life j (BitVec.ofNat 32 (min ((zget 0 s.life j).toNat + 1) 0xFFFFFFFF))
      let fresh : Prop := g ∉ s.retired ∧ s.remaps.length < 65536
      let here : Prop := unremap s.remaps g ≠ g ∨ sget s.remaps g = none ∨ sget s.remaps g = some g
      (n < 8 → Does (.correctedError addr) s { s with life := more i, ecc := zput 0 s.ecc g n }) ∧
      (8 ≤ n → fresh → here → Memory.wf s.mem = true → ∃ u, exec (.correctedError addr) s = .next u ∧ Retired s u g d 0) ∧
      (8 ≤ n → fresh → ¬ here → ∃ u, exec (.correctedError addr) s = .next u ∧ u.retired = g :: s.retired ∧ u.mem = s.mem ∧
        u.remaps = s.remaps ∧ u.warps = s.warps ∧ u.contexts = s.contexts) ∧
      (¬ fresh → Does (.uncorrectableError addr) s { s with life := more (4 + i), poison := sput s.poison (addr / 4) true }) ∧
      (fresh → here → Memory.wf s.mem = true → ∃ u, exec (.uncorrectableError addr) s = .next u ∧ Retired s u g d 1 ∧
        sget u.poison (d * 1024 + addr / 4 % 1024) = some true))

namespace Sys2Proof.Claims

open Sys2Proof.Machine

/-- A step only the owner may take: the owner takes it; a master that is not the owner is frozen, and nothing else happens; a
frozen master's does nothing (R343). -/
def OwnerOnly (i : Nat → Instr) (s : State) (f : State → State) : Prop :=
  ∀ m, (s.frozen.getLsbD m = true → Idle (i m) s) ∧
    (s.frozen.getLsbD m = false → s.owner = m → m ≠ 0 → Does (i m) s (f s)) ∧
    (s.frozen.getLsbD m = false → s.owner ≠ m ∨ m = 0 →
      ∃ x, Does (i m) s { s with frozen := x } ∧ ∀ k, k < 32 → (x.getLsbD k = true ↔ s.frozen.getLsbD k = true ∨ k = m))

end Sys2Proof.Claims

open Sys2Proof Sys2Proof.Machine Sys2Proof.Claims in
/-- R299 and R300: APPLY, in force at once by assumption 47. R301 and R303: VF_READY, VF_STOP, which of a ready VF is assumption 50, slices
and switches. R305: function-level reset, a VF's in two steps and the PF's by assumption 48. R307: CTXSW, whose checks come in the order 3, 1, 2
by assumption 46. R309: DLCTL. R302 and R311: remaps, checked at GO by assumption 49. R315: LAUNCH. R306: wraps. -/
def Obligations.TenancySteps : Prop :=
  ∀ s : State,
    (s.fwState ≠ 1 → ∀ m n, Idle (.apply m n) s) ∧
    (∀ n, n < 12 → s.fwState = 1 → ∃ e, OwnerOnly (.apply · n) s (fun s =>
          let st := s.stand n
          if e ≠ 0 then s.setStand n { st with err := e } else
            (s.writeBackLines n).setStand n
              { st with err := 0, state := 1, fpairs := st.pairs, fhbm := st.hbm, flink := st.link, fsplit := st.vsplit,
                        fslice := st.slice.toNat, applying := { st with err := 0, state := if st.pairs = 0 then 0 else 2 }.block }) ∧
      let st := s.stand n
      let others := s.stands.filter (fun o => o.1 != n && decide (o.1 < 12) && o.2.state != 0)
      let share (k : Nat) : Nat :=
        (others.map (fun o => field o.2.flink.toNat (8 * k) 6)).foldl (· + ·) (field st.link.toNat (8 * k) 6)
      let c1 : Prop := ∃ o ∈ others, o.2.fpairs &&& st.pairs ≠ 0 ∨ o.2.fhbm &&& st.hbm ≠ 0 ∨
        field o.2.flink.toNat 16 12 &&& field st.link.toNat 16 12 ≠ 0
      let c2 : Prop := st.pairs ≠ 0 ∧ st.hbm = 0
      let c3 : Prop := 64 < share 0 ∨ 64 < share 1
      let c4 : Prop := ∃ v ∈ s.bound n, (s.vf v).state ≠ 0
      let c5 : Prop := st.slice.toNat < 100 ∨ 1000000 < st.slice.toNat
      (c1 → e = 1) ∧ (¬ c1 → c2 → e = 2) ∧ (¬ c1 → ¬ c2 → c3 → e = 3) ∧ (¬ c1 → ¬ c2 → ¬ c3 → c4 → e = 4) ∧
      (¬ c1 → ¬ c2 → ¬ c3 → ¬ c4 → c5 → e = 5) ∧ (¬ c1 → ¬ c2 → ¬ c3 → ¬ c4 → ¬ c5 → e = 0)) ∧
    (∀ n, let st := s.stand n
      (st.state ≠ 1 → Idle (.applyCompletion n) s) ∧
      (∀ e, e ∈ (s.writeBackLines n).dirty ↔
        e ∈ s.dirty ∧ (if spaceOf e.1 = 0 then st.holds (addrOf e.1) = false else s.standOf e.2 ≠ n)) ∧
      let runs : Prop := st.fpairs ≠ 0 ∧ st.running = none ∧ ∃ v ∈ s.bound n, (s.vf v).state = 1
      (st.state = 1 → ¬ runs → Does (.applyCompletion n) s
        ((s.writeBackLines n).setStand n { st with state := if st.fpairs = 0 then 0 else 2, applied := st.applying })) ∧
      (st.state = 1 → runs → ∃ u r, exec (.applyCompletion n) s = .next u ∧ r ∈ s.bound n ∧ (s.vf r).state = 1 ∧ (u.vf r).state = 2 ∧
        u.stand n = { st with state := 2, applied := st.applying, running := some r, sliceEnd := s.time + 3000 * st.fslice
                              switching := none })) ∧
    (s.answers 0 = false → ∀ v, Idle (.vfReady v) s ∧ Idle (.vfStop v) s ∧ Idle (.dlctlRearm v) s ∧ Idle (.remapGo v) s ∧
      ∀ val, Idle (.dlctlEn v val) s) ∧
    (∀ v, s.answers 0 = true → let x := s.vf v
      let st := s.stand x.stand
      let asked : State := s.setStand x.stand { st with switching := some true }
      (¬ (x.state = 0 ∧ x.stand < 12 ∧ st.state ≠ 0) → Idle (.vfReady v) s) ∧
      (x.state = 0 → x.stand < 12 → st.state ≠ 0 → st.running ≠ none ∨ st.state ≠ 2 →
        Does (.vfReady v) s (s.setVf v { x with state := 1 })) ∧
      (x.state = 0 → x.stand < 12 → st.state = 2 → st.running = none → ∃ u r, exec (.vfReady v) s = .next u ∧
        (r = v ∨ (r ∈ s.bound x.stand ∧ (s.vf r).state = 1)) ∧ (u.vf r).state = 2 ∧ (u.stand x.stand).running = some r ∧
        (u.stand x.stand).sliceEnd = s.time + 3000 * st.fslice) ∧
      (x.state = 0 ∨ 3 < x.state → Idle (.vfStop v) s) ∧
      (x.state = 1 → Does (.vfStop v) s (s.setVf v { x with state := 0 })) ∧
      (x.state = 3 ∨ (x.state = 2 ∧ (st.switching ≠ none ∨ ctxswStatus x.ctxsw = 2)) → Does (.vfStop v) s asked) ∧
      (x.state = 2 → st.switching = none → ctxswStatus x.ctxsw ≠ 2 → ∃ u, exec (.vfStop v) s = .next u ∧
        (u.stand x.stand).switching = some true ∧ (u.vf v).state = 3)) ∧
    (∀ n, let st := s.stand n
      (∀ v, st.running = some v →
        let due : Prop := st.sliceEnd ≤ s.time ∧ st.switching = none ∧ (s.vf v).state = 2 ∧
          ∃ r ∈ s.bound n, (s.vf r).state = 1
        (¬ due → Idle (.sliceExpiry n) s) ∧
        (due → ctxswStatus (s.vf v).ctxsw = 2 → Does (.sliceExpiry n) s (s.setStand n { st with switching := some false })) ∧
        (due → ctxswStatus (s.vf v).ctxsw ≠ 2 → ∃ u, exec (.sliceExpiry n) s = .next u ∧ (u.vf v).state = 3 ∧
          (u.stand n).switching = some false) ∧
        ∀ stop, st.switching = some stop →
          let out : Prop := (s.vf v).state = 3 ∧ (∀ c ∈ s.contextsOf v, (s.context c).ladder = none) ∧ (∀ e ∈ s.regq, e.2.tag ≠ v) ∧
            (∀ e ∈ s.steps, ∀ W, sget s.warps e.2.warp = some W → ctxFn W.ctx ≠ v) ∧ (∀ e ∈ s.deliveries, ctxFn e.2.ctx ≠ v) ∧
            ∀ e ∈ s.warps, ctxFn e.2.ctx = v → e.2.away ≠ 1
          (¬ out → Idle (.switchOutCompletion n) s) ∧
          (out → stop = true → ∃ u, exec (.switchOutCompletion n) s = .next u ∧ (u.vf v).state = 0 ∧
            ((∀ r ∈ s.bound n, r ≠ v → (s.vf r).state ≠ 1) → (u.stand n).running = none ∧ (u.stand n).switching = none) ∧
            ((∃ r ∈ s.bound n, r ≠ v ∧ (s.vf r).state = 1) → ∃ r ∈ s.bound n, (s.vf r).state = 1 ∧ (u.vf r).state = 2 ∧
              (u.stand n).running = some r) ∧ ∀ e ∈ u.carve, e.1 / 2 ^ 64 ∉ st.cores)) ∧
      (st.running = none → Idle (.sliceExpiry n) s ∧ Idle (.switchOutCompletion n) s) ∧
      (st.switching = none → Idle (.switchOutCompletion n) s)) ∧
    (∀ fn, ∃ u, exec (.functionLevelReset fn) s = .next u ∧
      (fn = 0 ∨ (s.vf fn).state ≠ 4 → (∀ e ∈ u.warps, e.2.ctx ∉ s.contextsOf fn) ∧ (∀ e ∈ u.blocks, e.2.ctx ∉ s.contextsOf fn) ∧
        (∀ e ∈ u.groves, e.2.ctx ∉ s.contextsOf fn) ∧ (∀ e ∈ u.deliveries, e.2.ctx ∉ s.contextsOf fn) ∧
        u.contexts = s.contexts.filter (fun e => !(e.1 / 16 == fn)) ∧ (fn ≠ 0 → (u.vf fn).state = 4)) ∧
      (fn = 0 ∨ (s.vf fn).state = 4 → (∀ e ∈ u.dirty, e.2 ≠ fn) ∧
        ∀ c, sget s.counters fn = some c → (u.counter fn).cnt = List.replicate 8 0) ∧
      (fn = 0 → u.frozen.getLsbD 1 = false ∧ u.owner ≠ 1 ∧ (s.owner ≠ 1 → u.owner = s.owner)) ∧
      (fn ≠ 0 → (s.vf fn).state = 4 → (u.vf fn).state = 0 ∧ (u.vf fn).logged = [] ∧ (u.vf fn).dlctl.getLsbD 0 = false ∧
        (u.vf fn).ctxsw = VFn.reset.ctxsw)) ∧
    (∀ v (val : DWord), s.answers v = false → Idle (.ctxsw v val) s) ∧
    (∀ v (val : DWord), s.answers v = true → let x := s.vf v
      let set (y : DWord) (fail status : Nat) : Prop := field y.toNat 8 4 = fail ∧ field y.toNat 4 4 = status
      (ctxswStatus x.ctxsw = 1 ∨ ctxswStatus x.ctxsw = 2 → Idle (.ctxsw v val) s) ∧
      (ctxswStatus x.ctxsw ≠ 1 → ctxswStatus x.ctxsw ≠ 2 → ∃ u y, exec (.ctxsw v val) s = .next u ∧ (u.vf v).ctxsw = y ∧
        field y.toNat 32 32 = field val.toNat 32 32 ∧ y.getLsbD 0 = false ∧
        (val.getLsbD 0 = false → set y (field x.ctxsw.toNat 8 4) (ctxswStatus x.ctxsw)) ∧
        (val.getLsbD 0 = true → x.state ≠ 2 → set y 0 1) ∧
        (val.getLsbD 0 = true → x.state = 2 →
          let named (k : Nat) : Option (Option Nat) := if k = 0xFFFF then some none else (s.ctxOf v k).map some
          let o := named (field val.toNat 32 16)
          let i := named (field val.toNat 48 16)
          let f3 : Prop := o = none ∨ i = none
          let f1 : Prop := ∃ c, o = some (some c) ∧
            ¬ ((s.context c).en = true ∧ (s.context c).saved = false ∧ (s.context c).lost = false)
          let f2 : Prop := ∃ c, i = some (some c) ∧ (s.context c).saved = false
          (f3 → set y 3 4) ∧ (¬ f3 → f1 → set y 1 4) ∧ (¬ f3 → ¬ f1 → f2 → set y 2 4) ∧ (¬ f3 → ¬ f1 → ¬ f2 → set y 0 2)))) ∧
    (∀ v, let x := s.vf v
      let set (y : DWord) (fail status : Nat) : Prop := field y.toNat 8 4 = fail ∧ field y.toNat 4 4 = status
      (ctxswStatus x.ctxsw ≠ 2 → Idle (.ctxswCompletion v) s) ∧
      (ctxswStatus x.ctxsw = 2 → (∀ c, s.ctxNamed v (field x.ctxsw.toNat 32 16) = some (some c) → (s.context c).ladder = none) →
        (s.ctxNamed v (field x.ctxsw.toNat 48 16) = some none → ∃ u, exec (.ctxswCompletion v) s = .next u ∧
          set (u.vf v).ctxsw 0 3) ∧
        (∀ c, s.ctxNamed v (field x.ctxsw.toNat 48 16) = some (some c) → (s.context c).lost = true →
          ∃ u, exec (.ctxswCompletion v) s = .next u ∧ set (u.vf v).ctxsw 4 4) ∧
        (∀ c, s.ctxNamed v (field x.ctxsw.toNat 48 16) = some (some c) → (s.context c).lost = false →
          ∃ u, exec (.ctxswCompletion v) s = .next u ∧
            ((s.context c).savedPairs = 0 → set (u.vf v).ctxsw 0 3) ∧
            ((u.context c).savedPairs ≠ 0 → (s.stand x.stand).switching = none → ctxswStatus (u.vf v).ctxsw = 2))) ∧
      (∀ c, s.ctxNamed v (field x.ctxsw.toNat 32 16) = some (some c) → (s.context c).ladder ≠ none → Idle (.ctxswCompletion v) s)) ∧
    (∀ v (val : Word), s.answers 0 = true → let x := s.vf v
      ∃ w, (let starts : Prop := val.getLsbD 0 = true ∧ x.dlctl.getLsbD 0 = false
          (starts → Does (.dlctlEn v val) s (s.setVf v { x with dlctl := w, logged := [], dlprod := 0 })) ∧
          (¬ starts → Does (.dlctlEn v val) s (s.setVf v { x with dlctl := w })) ∧
          w.getLsbD 0 = val.getLsbD 0 ∧ w.extractLsb' 12 4 = val.extractLsb' 12 4 ∧
          (w.getLsbD 1 = true ↔ x.dlctl.getLsbD 1 = true ∧ val.getLsbD 1 = false ∧ ¬ starts) ∧
          (val.getLsbD 2 = true → w.getLsbD 2 = true ∧ w.getLsbD 3 = false) ∧
          (val.getLsbD 2 = false → w.getLsbD 2 = x.dlctl.getLsbD 2 ∧ w.getLsbD 3 = x.dlctl.getLsbD 3)) ∧
        Does (.dlctlRearm v) s (s.setVf v { x with dlctl := (x.dlctl &&& ~~~8) ||| 4 })) ∧
    (∀ v, let x := s.vf v
        (x.dlctl.getLsbD 2 = true →
          Does (.rearmCompletion v) s (s.setVf v { x with dlctl := (x.dlctl &&& ~~~4) ||| 8, logged := [] })) ∧
        (x.dlctl.getLsbD 2 = false → Idle (.rearmCompletion v) s)) ∧
    (∀ v, let x := s.vf v
      let d := x.remapdst.toNat / 4096
      let src := (s.devAddr v x.remapsrc.toNat).map (· / 4096)
      let bad (e : Nat) : Prop := Does (.remapGo v) s (s.setVf v { x with remapctl := BitVec.ofNat 32 (16 * e) })
      let busy : Prop := x.remapctl.getLsbD 0 = true
      (busy → Idle (.remapGo v) s) ∧ (s.answers 0 = true → ¬ busy → s.isFreeGranule x.stand d = false → bad 1) ∧
      (s.answers 0 = true → ¬ busy → s.isFreeGranule x.stand d = true → src = none → bad 2) ∧
      (s.answers 0 = true → ¬ busy → s.isFreeGranule x.stand d = true → ∀ g, src = some g →
        let full : Prop := sget s.remaps (unremap s.remaps g) = none ∧ 65536 ≤ s.remaps.length
        (full → bad 3) ∧ (¬ full → Does (.remapGo v) s { s.setVf v { x with remapctl := 1 } with
          held := if x.state = 2 ∨ x.state = 3 then g :: s.held else s.held })) ∧
      (¬ busy → Idle (.remapCompletion v) s) ∧
      (busy → ∀ g, src = some g → g ≠ d → Memory.wf s.mem = true → ∃ u, exec (.remapCompletion v) s = .next u ∧
        (∀ off, off < 4096 → u.byte (d * 4096 + off) = s.byte (g * 4096 + off)) ∧
        (∀ key, key / 4096 ≠ g → key / 4096 ≠ d → u.byte key = s.byte key) ∧
        (srising s.carve = true → srising s.owners = true → g < 2 ^ 52 → d < 2 ^ 52 → ∀ off, off < 4096 →
          sget u.owners (d * 4096 + off) = sget s.owners (g * 4096 + off) ∧
          ∀ core, sget u.carve (carveKey core (d * 4096 + off)) = sget s.carve (carveKey core (g * 4096 + off))) ∧
        sget u.remaps (unremap s.remaps g) = some d ∧ g ∉ u.held ∧ u.vf v = { x with remapctl := 2 } ∧ u.warps = s.warps)) ∧
    (∀ ctx a writes, let s1 := s.hostWrites writes
      let on : Prop := s.answers (ctxFn ctx) = true ∧ (s.context ctx).en = true
      (¬ on → Does (.launch ctx (a, writes)) s s1) ∧
      (on → Does (.launch ctx (a, writes)) s
        { s1 with subs := sput s.subs s.nextId { ctx := ctx, addr := a }, nextId := s.nextId + 1 })) ∧
    (∀ a b, let t := s.hostWrites [(a, b)]
      (∀ key, t.byte key = if key = keyOf 1 a then b else s.byte key) ∧ sget t.owners (keyOf 1 a) = none ∧
      ∀ core key, sget t.carve (carveKey core key) = (sget s.carve (carveKey core key)).map (fun x =>
        if carveKey core key % 2 ^ 64 = keyOf 1 a then { x with owned := false } else x)) ∧
    (∀ fn i, let c := s.counter fn
      (c.pend.getLsbD i = false → Idle (.cycleCountWrap fn i) s) ∧
      (c.pend.getLsbD i = true → ∃ u, exec (.cycleCountWrap fn i) s = .next u ∧ (u.counter fn).ovf.getLsbD i = true ∧
        (u.counter fn).pend.getLsbD i = false ∧ (u.counter fn).cnt = c.cnt ∧
        u.outbox = if c.int.getLsbD 15 = true ∧ field c.int.toNat 0 11 < (if fn = 0 then 2048 else 64) then
          .msix fn (field c.int.toNat 0 11) :: s.outbox else s.outbox))

namespace Sys2Proof.Claims

open Sys2Proof.Machine

/-- A register of BAR0 or BAR2: a 32-bit write of it by a master, or by a VF's own driver as master 0, reads back under its mask
(R299, R301, R306, R314, R321). -/
def ReadsBack (s : State) (m fn bar off : Nat) (mask : Word) : Prop :=
  ∀ val : DWord, ∃ u, exec (.registerWrite m fn bar off 4 val) s = .next u ∧ u.wordRead m fn bar off = val.setWidth 32 &&& mask

/-- The answer to an SPDM request is sent, and nothing else changes; in the boot ROM and in recovery there is none (R340). -/
def Answers (i : Instr) (s : State) (m : Nat) (l : List Byte) : Prop :=
  (s.fwState = 1 → Does i s { s with outbox := .spdm m l :: s.outbox }) ∧ (s.fwState ≠ 1 → Idle i s)

/-- `n` seconds have been counted, each in a bin of the sixteen from `base` on (R346). -/
def Binned (s u : State) (base n : Nat) : Prop :=
  ∃ f : Nat → Nat, ((List.range 16).map f).sum = n ∧ ∀ j, j < 16 →
    u.lifeValue (base + j) = BitVec.ofNat 32 (min ((s.lifeValue (base + j)).toNat + f j) 0xFFFFFFFF)

/-- The machine has restarted without its volatile state: what fuses, flash and the host hold stays (R340). -/
def Restarted (s u : State) : Prop :=
  u.warps = [] ∧ u.contexts = [] ∧ u.stands = [] ∧ u.vfs = [] ∧ u.owner = 0 ∧ u.frozen = 0 ∧ u.part.flash = s.part.flash ∧
  u.part.boot = s.part.boot ∧ u.part.key = s.part.key ∧ ∀ key, u.byte key = if 1 ≤ spaceOf key ∧ spaceOf key < 32 then s.byte key else 0

/-- A value of `size` bytes in register `i` of an answer: words, a signed or an unsigned narrow value (R159, R160, R162). -/
def taken (form size data i : Nat) : Word :=
  if form = 0 then BitVec.ofNat 32 (data / 2 ^ (32 * i))
  else if form = 1 then (BitVec.ofNat (8 * size) data).signExtend 32
  else (BitVec.ofNat (8 * size) data).setWidth 32

/-- The gang that waits for the answer of a lane's request stands at its instruction. -/
def StandsAt (s : State) (w : Nat) (m : BitVec 8) (pc : DWord) (W : Warp) (g : Gang) : Prop :=
  sget s.warps w = some W ∧ W.gangAt (lowSlice m) = some g ∧ g.slices = m ∧ W.groupPc g = pc

/-- A load of one active lane of a remote page, aligned, canonical and outside the window. -/
def FarLoad (s : State) (c : Ctx) (w g : BitVec 2) (d a : BitVec 7) (o : BitVec 8) (lane : Nat) (adr : DWord) : Prop :=
  s.passes (hinted (loadSig g d.toNat (2 ^ w.toNat) a.toNat)) = some c ∧ (∀ lane, c.inCapsule lane = false) ∧
  lanesAt c (vaddr c a o (4 * 2 ^ w.toNat)) = [(lane, adr)] ∧ adr.toNat % (4 * 2 ^ w.toNat) = 0 ∧ canonical adr = true ∧
  inWindow adr = false

/-- A flit that its link accepts, holding one message. -/
def Brings (s : State) (k : Nat) (flit : List Byte) (p : Packet) : Prop :=
  (s.link k).phase = 2 ∧ flitGood flit = true ∧ numOf (flit.take 8) % 2 ^ 12 = (s.link k).recvSeq.toNat ∧
  flitPackets flit = [p]

end Sys2Proof.Claims

open Sys2Proof Sys2Proof.Machine Sys2Proof.Claims in
/-- R322: a load of a remote page travels on the link of its granule, and its gang waits. R322, R323: a good answer completes
its lanes; a refusal, or the poison fault of a link that goes down, is the lane's fault; a store, RED or drain row on that link
is reported in the trap ring, and is complete once that entry is written. Messages have the model's framing (assumption 30); that the gang
waits for every answer, and leaves out a lane after a good one, is assumption 52, and one record a granule, with its address, assumption 53. -/
def Obligations.RemoteRequests : Prop :=
  ∀ s : State,
    (∀ w g d a o c lane adr key ord k, FarLoad s c w g d a o lane adr →
      laneAccess s c .read (4 * 2 ^ w.toNat) adr = .remote key ord → s.requests = [] →
      s.linkTo (ctxFn c.W.ctx) (spaceOf key - 2) (addrOf key) = some k → (s.link k).replay.length < 512 → (s.link k).waiting = [] →
      s.requestsOut c.W.core < 3072 → ord = false ∨ s.orderedBusy c = false →
      ∃ u W, exec (.ld w g d a o) s = .next u ∧ sget u.requests 0 = some
          { who := .lane c.w c.G.slices (c.W.groupPc c.G) lane (BitVec.ofNat 32 (2 ^ lane)) (some (d.toNat, 2 ^ w.toNat, 0)), link := k
            ctx := c.W.ctx, page := adr &&& ~~~0xFFF, size := 4 * 2 ^ w.toNat, quiet := false, load := true, lost := false
            order := s.nextId, answer := none } ∧
        .flit k (flitOf (s.link k).sendSeq.toNat ((s.link k).recvSeq - 1).toNat (Config.flitHead s.fresh)
          [{ kind := 1, size := 4 * 2 ^ w.toNat, fn := 0, type := 0, tag := 0, addr := addrOf key, data := 0, other := 0 }]) ∈ u.outbox ∧
        u.mem = s.mem ∧ sget u.warps c.w = some W ∧ W.v = c.W.v ∧ W.p = c.W.p ∧ W.slices = c.W.slices) ∧
    (∀ w g d a o c lane adr i r cls detail x, FarLoad s c w g d a o lane adr → c.redone = 0 → s.requests = [(i, r)] →
      ((∃ key ord, laneAccess s c .read (4 * 2 ^ w.toNat) adr = .remote key ord) ∨
        ∃ k d, laneAccess s c .read (4 * 2 ^ w.toNat) adr = .fault k d) → s.onOrdered c.W.ctx adr = false ∨ s.orderedBusy c = false →
      (∃ give dest, r.who = .lane c.w c.G.slices (c.W.groupPc c.G) lane give dest) → c.G.slices ≠ 0 → r.answer = some (cls, detail, x) →
      s.requestsOut c.W.core < 3072 → srising s.warps = true →
      ∃ t, (t.cls, t.detail, t.completed, t.addr) = (cls, detail, (0 : Word), adr) ∧
        (∀ l, t.faulting.getLsbD l = true ↔ l = lane ∧ l < 32) ∧
        exec (.ld w g d a o) s = .next (({ s with fresh := s.fresh + 1, requests := [] } : State).trapped c t)) ∧
    (∀ k flit p r w m pc lane give dest W g, Brings s k flit p → p.kind = 4 → sget s.requests p.tag = some r → r.link = k →
      r.answer = none → r.lost = false → r.who = .lane w m pc lane give dest → StandsAt s w m pc W g →
      (p.fn = 0 → ∃ u V q, exec (.flitReceipt k flit) s = .next u ∧ sget u.requests p.tag = none ∧ u.mem = s.mem ∧
        sget u.warps w = some V ∧ V.p = W.p ∧ V.slices = W.slices ∧ V.gangAt (lowSlice m) = some q ∧
        q.redo = some (pc, give ||| (match g.redo with
          | some (at_, old) => if at_ = pc then old else 0
          | none => 0)) ∧
        ∀ y l, l < 32 → V.vget y l = match dest with
          | some (x, n, form) => if x ≤ y ∧ y < x + n ∧ give.getLsbD l = true then taken form r.size p.data (y - x) else W.vget y l
          | none => W.vget y l) ∧
      (p.fn ≠ 0 → ∃ u, exec (.flitReceipt k flit) s = .next u ∧ u.warps = s.warps ∧ u.mem = s.mem ∧
        sget u.requests p.tag = some { r with answer := some (p.fn, p.type, p.data) })) ∧
    (∀ k, (s.link k).phase ≠ 0 → srising s.requests = true → ∃ u, exec (.linkDown k) s = .next u ∧ (u.link k).phase = 0 ∧
      ∀ i r, sget s.requests i = some r →
        (r.link ≠ k ∨ r.answer ≠ none ∨ r.lost = true → sget u.requests i = some r) ∧
        (r.link = k → r.answer = none → r.lost = false → r.quiet = false → ∀ w m pc lane give dest W g, r.who = .lane w m pc lane give dest →
          StandsAt s w m pc W g → sget u.requests i = some { r with answer := some (8, 0, 0) }) ∧
        (r.link = k → r.answer = none → r.lost = false → r.quiet = true → sget u.requests i = some { r with lost := true } ∧
          ((s.warplessRecord r.ctx 8 0 0 r.page, none) ∈ (u.context r.ctx).trapq ∨
            ∃ e ∈ s.requests, e.2.lost = true ∧ e.2.ctx = r.ctx ∧ e.2.page = r.page))) ∧
    (∀ ctx bytes i r, numOf (bytes.take 2) = 8 → srising s.requests = true → sget s.requests i = some r → r.lost = true → r.ctx = ctx →
      r.page = BitVec.ofNat 64 (numOf ((bytes.drop 0x20).take 8)) →
      ∀ x, sget (s.reported ctx bytes).requests i = some x → x.answer ≠ none)

open Sys2Proof Sys2Proof.Machine Sys2Proof.Claims in
/-- R313: BAR4, whose missing places read all ones by assumption 53 and whose PF continues past stand 0 by assumption 95. R320, R321, R323:
flits, in the layout of assumption 30, replay, retraining, going down. R314, R299, R301: register writes, by the access rules of assumption 56. R340
to R343: firmware, with SHA-256 by assumption 79, resets, what survives them by assumption 55, and owners; outside the window nothing answers before
the firmware runs, assumption 83. R344: attestation, in the model's framing of SPDM messages, and hot reset, assumption 54. R345, R346: droop
and telemetry. -/
def Obligations.LinksAndPlatformSteps : Prop :=
  ∀ s : State,
    (s.fwState = 1 → s.frozen.getLsbD 1 = false → s.frozen.getLsbD 0 = false →
      (∀ fn i, fn ≤ 192 → i < 16 →
        let at' := 0x1000 + 0x100 * i
        let m := if fn = 0 then 1 else 0
        ReadsBack s 1 fn 0 at' 0x8000FFFF ∧
        (fn ≠ 0 → ∀ off (val : DWord), off ≠ 0 → off < 0x100 → Idle (.registerWrite 1 fn 0 (at' + off) 4 val) s) ∧
        (∀ e ∈ [(0x28, (0xFFFFF000 : Word)), (0x2C, 0xFFFFFFFF), (0x30, 0xF), (0x3C, 0x07FF07FF),
            (0x40, 0xFFFFFFFF), (0x44, 0xFFFFFFFF), (0x48, 0xFFFFFFFF), (0x4C, 0xFFFFFFFF), (0x50, 0xFFFFFFFF),
            (0x54, 0xFFFFFFFF), (0x58, 0xFFFFFFFF), (0x5C, 0xFFFFFFFF), (0x60, 0xFFFFFF), (0x68, 0xFFFFF000),
            (0x6C, 0xFFFFFFFF)], ReadsBack s m fn 0 (at' + e.1) e.2) ∧
        ((s.context (16 * fn + i)).en = false → ∀ e ∈ [(0x08, (0xFFFFF : Word)), (0x10, 0xFFFFF000), (0x14, 0xFFFFFFFF),
            (0x18, 0xFFFFFFFF), (0x1C, 0xFFFFFFFF)], ReadsBack s m fn 0 (at' + e.1) e.2) ∧
        (∀ val : DWord, exec (.registerWrite m fn 0 (at' + 0x20) 8 val) s = exec (.launch (16 * fn + i) (val, [])) s)) ∧
      (∀ v, 1 ≤ v → v ≤ 192 → ∀ e ∈ [(0x08, (0xFFFFFFFF : Word)), (0x0C, 0xFFFFFFFF), (0x10, 0xFFFFF000), (0x14, 0xFFFFFFFF),
          (0x20, 0xFFFFFFFF), (0x28, 0xFFFFFFFF), (0x2C, 0xFFFFFFFF), (0x30, 0xFFFFFFFF), (0x34, 0xFFFFFFFF), (0x40, 0xFFFFF000),
          (0x44, 0xFFFFFFFF)], ReadsBack s 1 0 2 (0x10000 + 0x400 * v + e.1) e.2) ∧
      (s.owner = 1 → (∀ n, n < 12 → ∀ e ∈ [(0x00, (0xFFFFFFFF : Word)), (0x04, 0xFFFFFFFF), (0x08, 0xFFFFFFFF),
          (0x0C, 0x0FFF3F3F), (0x14, 0xFFFFFFFF)], ReadsBack s 1 0 2 (0x2000 + 0x100 * n + e.1) e.2) ∧
        (∀ k, k < 12 → ∀ e ∈ [(0x08, (0xFFFFFFFF : Word)), (0x0C, 0xFFFFFFFF), (0x10, 0xFFFFFFFF), (0x14, 0xFFFFFFFF),
          (0x18, 0xFF)], ReadsBack s 1 0 0 (0x3000 + 0x40 * k + e.1) e.2)) ∧
      (s.owner ≠ 1 → ∀ n e (val : DWord), n < 12 → e ∈ [0x00, 0x04, 0x08, 0x0C, 0x10, 0x14] →
        ∃ u, exec (.registerWrite 1 0 2 (0x2000 + 0x100 * n + e) 4 val) s = .next u ∧ u.frozen.getLsbD 1 = true ∧ u.stands = s.stands ∧
          ∀ fn bar off, u.wordRead 1 fn bar off = 0xFFFFFFFF)) ∧
    (∀ m fn bar off size (val : DWord), s.frozen.getLsbD m = true → Idle (.registerWrite m fn bar off size val) s) ∧
    (∀ fn off size (data : List Byte), let key (i : Nat) : Option Nat := s.barKey fn (off + i)
      (s.fwState ≠ 1 → ∀ w, Idle (.bar4Access fn off size w data) s) ∧
      (s.fwState = 1 →
        (∃ u, exec (.bar4Access fn off size false data) s = .next u ∧ u.mem = s.mem ∧ u.warps = s.warps ∧
          u.outbox.head? = some (.data fn ((List.range size).map (fun i => ((key i).map s.byte).getD 255)))) ∧
        ∃ u, exec (.bar4Access fn off size true data) s = .next u ∧
          ((∀ i j, i < size → j < size → i ≠ j → ∀ k, key i = some k → key j ≠ some k) →
            ∀ i k b, i < size → data[i]? = some b → key i = some k → u.byte k = b)  ∧
          (∀ k, spaceOf k ≠ 1 → spaceOf k ≠ 2 → (∀ i, i < size → i < data.length → key i ≠ some k) → u.byte k = s.byte k) ∧
          u.warps = s.warps)) ∧
    (∀ k flit, let x := s.link k
      let seq := numOf (flit.take 8) % 2 ^ 12
      (x.phase ≠ 2 → Idle (.flitReceipt k flit) s) ∧
      (x.phase = 2 → flitGood flit = false ∨ seq ≠ x.recvSeq.toNat →
        Does (.flitReceipt k flit) s { s with outbox := .nak k x.recvSeq.toNat :: s.outbox }) ∧
      (x.phase = 2 → flitGood flit = true → seq = x.recvSeq.toNat → x.replay.length < 512 → x.waiting = [] →
        (flitPackets flit = [] → ∃ u, exec (.flitReceipt k flit) s = .next u ∧ (u.link k).recvSeq = x.recvSeq + 1 ∧
          (u.link k).sendSeq = x.sendSeq ∧ .ack k seq ∈ u.outbox ∧ u.mem = s.mem) ∧
        (∀ p, flitPackets flit = [p] → 1 ≤ p.size → p.size ≤ 8 → x.expbase.toNat ≤ p.addr → p.addr + p.size ≤ x.explim.toNat →
          let at' := keyOf 0 (s.remapped p.addr)
          spaceOf (at' + p.size) = 0 →
          (p.kind = 1 → s.poisoned at' p.size = false → ∃ u, exec (.flitReceipt k flit) s = .next u ∧ u.mem = s.mem ∧
            .flit k (flitOf x.sendSeq.toNat x.recvSeq.toNat (Config.flitHead s.fresh) [p.reply 0 0 (s.num at' p.size)]) ∈ u.outbox) ∧
          (p.kind = 2 → s.poisonPart at' p.size = false → ∃ u, exec (.flitReceipt k flit) s = .next u ∧
            .flit k (flitOf x.sendSeq.toNat x.recvSeq.toNat (Config.flitHead s.fresh) [p.reply 0 0 0]) ∈ u.outbox ∧
            ∀ i, i < p.size → u.byte (at' + i) = BitVec.ofNat 8 (p.data / 2 ^ (8 * i)))) ∧
        (∀ p, flitPackets flit = [p] → p.kind = 1 → p.addr < x.expbase.toNat → ∃ u, exec (.flitReceipt k flit) s = .next u ∧
          u.mem = s.mem ∧ .flit k (flitOf x.sendSeq.toNat x.recvSeq.toNat (Config.flitHead s.fresh) [p.reply 7 0 0]) ∈ u.outbox))) ∧
    (∀ k seq, let x := s.link k
      let rest := x.replay.dropWhile (fun e => e.1 != BitVec.ofNat 12 seq)
      let tries := if rest.length = x.replay.length then x.failed else 0
      (x.phase ≠ 2 ∨ rest = [] → Idle (.negativeAcknowledgement k seq) s) ∧
      (x.phase = 2 → rest ≠ [] → 8 ≤ tries → ∃ u, exec (.negativeAcknowledgement k seq) s = .next u ∧ (u.link k).phase = 1 ∧
        (u.link k).peer = x.peer ∧ (u.link k).replay = rest ∧
        field (u.link k).stat.toNat 16 16 = (field x.stat.toNat 16 16 + 1) % 2 ^ 16 ∧
        (u.link k).retrain = some (s.time + 30000000)) ∧
      (x.phase = 2 → rest ≠ [] → tries < 8 → x.waiting = [] → ∃ u, exec (.negativeAcknowledgement k seq) s = .next u ∧
        u.link k = { x with replay := rest, failed := tries + 1 } ∧ ∀ e ∈ rest, .flit k e.2 ∈ u.outbox)) ∧
    (∀ k, let x := s.link k
      let down (u : State) : Prop := (u.link k).phase = 0 ∧ (u.link k).peer = x.peer ∧ (u.link k).retrain = none ∧
        u.regq = s.regq ∧ u.mem = s.mem ∧ (s.requests = [] → u.requests = [] ∧ u.warps = s.warps ∧ u.contexts = s.contexts)
      let boots : Prop := s.fwState = 0 ∧ s.fwBody ≠ [] ∧ ∀ e ∈ s.links, e.2.phase ≠ 1
      (x.phase = 0 → ¬ boots → Idle (.linkDown k) s) ∧ (x.phase ≠ 0 → ∃ u, exec (.linkDown k) s = .next u ∧ down u) ∧
      (x.retrain = none → Idle (.retrainTimeout k) s) ∧ (∀ t, x.retrain = some t → s.time < t → Idle (.retrainTimeout k) s) ∧
      (∀ t, x.retrain = some t → t ≤ s.time → x.phase ≠ 0 → ∃ u, exec (.retrainTimeout k) s = .next u ∧ down u) ∧
      ∀ peer, (x.phase ≠ 1 → ¬ boots → Idle (.linkTrainingCompletion k peer) s) ∧
        (x.phase = 1 → ∃ u, exec (.linkTrainingCompletion k peer) s = .next u ∧ (u.link k).peer = peer % 16 ∧
          (u.link k).phase = (if field x.ctl.toNat 8 4 = peer % 16 then 2 else 3) ∧ (u.link k).retrain = none ∧
          (x.retrain = none → (u.link k).sendSeq = 0 ∧ (u.link k).recvSeq = 0 ∧ (u.link k).replay = []) ∧
          (x.retrain ≠ none → x.waiting = [] → (u.link k).sendSeq = x.sendSeq ∧ (u.link k).recvSeq = x.recvSeq ∧
            (u.link k).replay = x.replay ∧ ((u.link k).phase = 2 → ∀ e ∈ x.replay, .flit k e.2 ∈ u.outbox)) ∧
          (s.fwState ≠ 0 → u.fwState = s.fwState ∧ u.part = s.part) ∧
          (s.fwState = 0 → s.fwBody ≠ [] → ((∃ e ∈ s.links, e.1 ≠ k ∧ e.2.phase = 1) → u.fwState = 0 ∧ u.part = s.part) ∧
            ((∀ e ∈ s.links, e.1 ≠ k → e.2.phase ≠ 1) → u.fwState = 1 ∧
              u.part = { s.part with svn := max s.part.svn s.fwVersion })))) ∧
    (let e := imageErr s.part s.part.boot
      ∃ u, exec .coldReset s = .next u ∧ Restarted s u ∧ (∀ i, u.lifeValue i = s.lifeValue i) ∧ u.part = s.part ∧ u.time = 0 ∧
        u.lifeNext = s.lifeNext - s.time ∧
        (e ≠ 0 → u.fwState = 2 ∧ u.fwErr = e ∧ ∀ k, (u.link k).phase = 0) ∧
        (e = 0 → u.fwState = 0 ∧ u.fwErr = 0 ∧ u.fwBody = sha256 (imageBody s.part.boot) ∧ u.fwBody ≠ [] ∧
          u.fwVersion = imageNum s.part.boot 4 4 ∧ ∀ k, (u.link k).phase = if k < 12 then 1 else 0)) ∧
    (s.fwState = 0 → ∀ m val, Idle (.fwctlColdReset m) s ∧ Idle (.fwctlVerify m) s ∧ Idle (.mgclaim m val) s) ∧
    (s.fwState ≠ 0 → OwnerOnly .fwctlColdReset s coldReset ∧ OwnerOnly .fwctlVerify s (fun s =>
      let e := imageErr s.part s.stagedImage
      if e = 0 then { s with fwErr := 0, part := { s.part with boot := s.stagedImage } } else { s with fwErr := e })) ∧
    (∀ m (val : Word), s.fwState ≠ 0 → let o := field val.toNat 0 4
      let h := field val.toNat 8 4
      let mine : Prop := s.owner = m ∧ m ≠ 0
      let takes : Prop := ¬ mine ∧ o = m ∧ (s.owner = 0 ∨ s.hand = m)
      (s.frozen.getLsbD m = true ∨ (¬ mine ∧ ¬ takes) → Idle (.mgclaim m val) s) ∧
      (s.frozen.getLsbD m = false → mine → o = 0 → Does (.mgclaim m val) s { s with owner := 0, hand := h }) ∧
      (s.frozen.getLsbD m = false → mine → o ≠ 0 → Does (.mgclaim m val) s { s with hand := h }) ∧
      (s.frozen.getLsbD m = false → takes → Does (.mgclaim m val) s { s with owner := m, hand := 0 })) ∧
    (∃ x, Does .i3cTargetReset s { s with frozen := x } ∧ ∀ k, x.getLsbD k = true ↔ s.frozen.getLsbD k = true ∧ k ≠ 3) ∧
    (∃ u, exec (.hotReset 0) s = .next u ∧ (∀ e ∈ s.contexts, e.1 / 16 = 0 → sget u.contexts e.1 = none) ∧
      (∀ e ∈ s.vfs, e.1 ≠ 0 → (u.vf e.1).state = if (s.vf e.1).state = 4 then 0 else 4) ∧ u.frozen.getLsbD 1 = false ∧ u.owner ≠ 1) ∧
    (∃ u, exec (.hotReset 1) s = .next u ∧ u.contexts = s.contexts ∧ u.warps = s.warps ∧ u.frozen.getLsbD 2 = false ∧ u.owner ≠ 2) ∧
    (∀ m, Answers (.getVersion m) s m [0x10, 0x04, 0, 0, 0x00, 0x01, 0x00, 0x13] ∧
      Answers (.getCapabilities m) s m [0x13, 0x61, 0, 0, 0, 0, 0, 0, 0x16, 0, 0, 0] ∧
      Answers (.negotiateAlgorithms m) s m [0x13, 0x63, 0, 0, 1, 0, 0, 0, 1, 0, 0, 0] ∧
      Answers (.getDigests m) s m ([0x13, 0x01, 0, 1] ++ sha256 s.part.chain) ∧
      (∀ slot off len, let body := (s.part.chain.drop off).take len
        Answers (.getCertificate m slot off len) s m ([0x13, 0x02, BitVec.ofNat 8 slot, 0] ++ bytesOf 2 body.length ++
          bytesOf 2 (s.part.chain.length - off - body.length) ++ body)) ∧
      (∀ nonce, let body := [0x13, 0x03, 0, 1] ++ sha256 s.part.chain ++ nonce ++
          sha256 (s.measurement 1 ++ s.measurement 2 ++ s.measurement 3 ++ s.measurement 4 ++ s.measurement 5)
        Answers (.challenge m nonce) s m (body ++ Config.slhSign s.part.identity body)) ∧
      (∀ i nonce,
        let block (j : Nat) : List Byte := bytesOf 1 j ++ bytesOf 2 (s.measurement j).length ++ s.measurement j
        let body (n : Byte) (l : List Byte) : List Byte := [0x13, 0x60, if i = 0 then 5 else 0, 0, n] ++ l ++ nonce
        let answer : List Byte := if i = 0 then body 0 [] else if i = 0xFF then body 5 ([1, 2, 3, 4, 5].flatMap block) else body 1 (block i)
        Answers (.getMeasurements m i nonce) s m (answer ++ Config.slhSign s.part.identity answer))) ∧
    (∀ core, let x := s.detector core
      (field x.ctl.toNat 0 8 = 0 → Idle (.droopAlarm core) s) ∧
      (field x.ctl.toNat 0 8 ≠ 0 → ∃ u, exec (.droopAlarm core) s = .next u ∧ u.detector core = { x with
          cnt := if x.cnt = 0xFFFFFFFF then x.cnt else x.cnt + 1, stretch := if field x.ctl.toNat 8 8 = 0 then none else some (s.time + 2 * field x.ctl.toNat 8 8)
          throttle := some (s.time + 2 * field x.ctl.toNat 8 8 + 3000 * field x.ctl.toNat 16 12) } ∧ u.warps = s.warps ∧ u.mem = s.mem) ∧
      (∀ t, x.stretch = some t → s.time < t → (s.coreTicks core = true ↔ (t - s.time) % 2 = 1)) ∧
      (s.throttled core = true ↔ (∃ t, x.throttle = some t ∧ s.time < t) ∧ ∀ t, x.stretch = some t → t ≤ s.time) ∧
      (s.throttled core = true → ∀ l, (s.picks core l).length ≤ 1) ∧
      ((∀ t, x.stretch = some t → s.time < t) → Idle (.stretchEnd core) s) ∧
      (∀ t, x.stretch = some t → t ≤ s.time →
        Does (.stretchEnd core) s { s with droop := sput s.droop core { x with stretch := none } }) ∧
      ((∀ t, x.throttle = some t → s.time < t) → Idle (.throttleWindowExpiry core) s) ∧
      (∀ t, x.throttle = some t → t ≤ s.time →
        Does (.throttleWindowExpiry core) s { s with droop := sput s.droop core { x with throttle := none } })) ∧
    (s.time < s.lifeNext → Idle .lifetimeRecordWrite s) ∧
    (s.lifeNext ≤ s.time → ∃ u, exec .lifetimeRecordWrite s = .next u ∧ u.life = [] ∧ u.lifeNext = s.lifeNext + 180000000000 ∧
      (∀ i, i < 0x40 → u.lifeValue i = s.lifeValue i) ∧ ∀ base ∈ [0x40, 0x50], Binned s u base 60) ∧
    (s.lifeNext ≤ s.time → (∀ j, j < 16 → (s.lifeValue (0x40 + j)).toNat + 60 < 2 ^ 32) → ∃ u, exec .lifetimeRecordWrite s = .next u ∧
      let secs := ((List.range 16).map (fun j => (s.lifeValue (0x40 + j)).toNat)).sum
      u.lifeValue 0x60 = BitVec.ofNat 32 (min ((s.lifeValue 0x60).toNat + ((secs + 60) / 3600 - secs / 3600)) 0xFFFFFFFF)) ∧
    (let n := (s.time + 180000000000 - s.lifeNext) / 3000000000
      ∃ u, exec .powerDown s = .next u ∧ u.power = false ∧ u.life = [] ∧ u.warps = [] ∧
        (∀ i, i < 0x40 → u.lifeValue i = s.lifeValue i) ∧ ∀ base ∈ [0x40, 0x50], Binned s u base n) ∧
    (∃ u, exec .lossOfPower s = .next u ∧ u.power = false ∧ u.life = [] ∧ Restarted s u ∧ u.part = s.part ∧
      u.links = [])
end

