-- ==== Sys2Proof/Laws/Store.lean ====
section
/-! SUPPORT. Finite maps: what a key reads as after a write, and that every operation keeps the canonical form. -/

namespace Sys2Proof.Machine

variable {α : Type}

theorem sget_cons (j : Nat) (x : α) (r : SMap α) (k : Nat) :
    sget ((j, x) :: r) k = if j = k then some x else sget r k := rfl

theorem sget_sdel_same (m : SMap α) (k : Nat) : sget (sdel m k) k = none := by
  induction m with
  | nil => rfl
  | cons e r ih =>
    obtain ⟨j, x⟩ := e
    by_cases h : j = k
    · simpa [sdel, h] using ih
    · simpa [sdel, h, sget] using ih

theorem sget_sdel_other (m : SMap α) {k i : Nat} (h : i ≠ k) : sget (sdel m k) i = sget m i := by
  induction m with
  | nil => rfl
  | cons e r ih =>
    obtain ⟨j, x⟩ := e
    by_cases hj : j = k
    · subst hj
      have hi : ¬ j = i := fun e => h e.symm
      simpa [sdel, sget, hi] using ih
    · by_cases hi : j = i
      · subst hi
        simp [sdel, hj, sget]
      · simpa [sdel, hj, sget, hi] using ih

theorem sget_splace (m : SMap α) (k : Nat) (x : α) (h : sget m k = none) (i : Nat) :
    sget (splace m k x) i = if i = k then some x else sget m i := by
  induction m with
  | nil => simp [splace, sget, eq_comm]
  | cons e r ih =>
    obtain ⟨j, y⟩ := e
    have hjk : ¬ j = k := by
      intro hj
      simp [sget, hj] at h
    have hr : sget r k = none := by simpa [sget, hjk] using h
    by_cases hl : j < k
    · by_cases hi : j = i
      · subst hi
        simp [splace, hl, sget, hjk]
      · simp [splace, hl, sget, hi, ih hr]
    · simp [splace, hl, sget, eq_comm]

/-- What a key reads as after an entry is set. -/
theorem sget_sput (m : SMap α) (k i : Nat) (x : α) : sget (sput m k x) i = if i = k then some x else sget m i := by
  unfold sput
  rw [sget_splace _ _ _ (sget_sdel_same m k)]
  by_cases h : i = k
  · simp [h]
  · simp [h, sget_sdel_other m h]

@[simp] theorem sget_sput_same (m : SMap α) (k : Nat) (x : α) : sget (sput m k x) k = some x := by
  simp [sget_sput]

theorem sget_sput_other (m : SMap α) {k i : Nat} (h : i ≠ k) (x : α) : sget (sput m k x) i = sget m i := by
  simp [sget_sput, h]

/-- What a key reads as after an entry is changed. -/
theorem sget_smod (m : SMap α) (k i : Nat) (f : α → α) :
    sget (smod m k f) i = if i = k then (sget m k).map f else sget m i := by
  unfold smod
  cases h : sget m k with
  | none => by_cases hi : i = k <;> simp [hi, h]
  | some x => simp [sget_sput]

theorem sget_smod_other (m : SMap α) {k i : Nat} (h : i ≠ k) (f : α → α) : sget (smod m k f) i = sget m i := by
  simp [sget_smod, h]

/-- What a key reads as after a write, in a map whose unlisted keys read as `z`. -/
theorem zget_zput [DecidableEq α] (z : α) (m : SMap α) (k i : Nat) (x : α) :
    zget z (zput z m k x) i = if i = k then x else zget z m i := by
  unfold zput zget
  by_cases hx : x = z
  · by_cases hi : i = k
    · simp [hx, hi, sget_sdel_same]
    · simp [hx, hi, sget_sdel_other m hi]
  · by_cases hi : i = k
    · simp [hx, hi]
    · simp [hx, hi, sget_sput]

/-! ### The canonical form -/

theorem srising_filter (p : Nat × α → Bool) (m : SMap α) (h : srising m = true) : srising (m.filter p) = true := by
  induction m with
  | nil => rfl
  | cons e r ih =>
    obtain ⟨k, x⟩ := e
    simp only [srising, Bool.and_eq_true, List.all_eq_true, decide_eq_true_eq] at h
    by_cases hp : p (k, x) = true
    · simp only [List.filter_cons, hp, if_true, srising, Bool.and_eq_true, List.all_eq_true, decide_eq_true_eq]
      exact ⟨fun e he => h.1 e (List.mem_filter.mp he).1, ih h.2⟩
    · simp only [List.filter_cons, hp]
      exact ih h.2

theorem mem_splace (m : SMap α) (k : Nat) (x : α) (e : Nat × α) : e ∈ splace m k x ↔ e = (k, x) ∨ e ∈ m := by
  induction m with
  | nil => simp [splace]
  | cons f r ih =>
    obtain ⟨j, y⟩ := f
    by_cases hl : j < k
    · simp only [splace, hl, if_true, List.mem_cons, ih]
      constructor
      · rintro (h | h | h)
        · exact .inr (.inl h)
        · exact .inl h
        · exact .inr (.inr h)
      · rintro (h | h | h)
        · exact .inr (.inl h)
        · exact .inl h
        · exact .inr (.inr h)
    · simp [splace, hl]

theorem srising_splace (m : SMap α) (k : Nat) (x : α) (h : srising m = true) (hk : ∀ e ∈ m, e.1 ≠ k) :
    srising (splace m k x) = true := by
  induction m with
  | nil => rfl
  | cons f r ih =>
    obtain ⟨j, y⟩ := f
    have h' := h
    simp only [srising, Bool.and_eq_true, List.all_eq_true, decide_eq_true_eq] at h
    by_cases hl : j < k
    · simp only [splace, hl, if_true, srising, Bool.and_eq_true, List.all_eq_true, decide_eq_true_eq]
      refine ⟨fun e he => ?_, ih h.2 (fun e he => hk e (by simp [he]))⟩
      rcases (mem_splace r k x e).mp he with rfl | hr
      · exact hl
      · exact h.1 e hr
    · have hj : j ≠ k := hk (j, y) (by simp)
      have hkj : k < j := by omega
      simp only [splace, hl, if_false, srising, Bool.and_eq_true, List.all_eq_true, decide_eq_true_eq]
      refine ⟨fun e he => ?_, by simpa [srising] using h⟩
      rcases List.mem_cons.mp he with rfl | hr
      · exact hkj
      · exact Nat.lt_trans hkj (h.1 e hr)

theorem srising_sput (m : SMap α) (k : Nat) (x : α) (h : srising m = true) : srising (sput m k x) = true := by
  refine srising_splace _ _ _ (srising_filter _ _ h) (fun e he => ?_)
  simpa using (List.mem_filter.mp he).2

theorem zwf_filter [DecidableEq α] (z : α) (p : Nat × α → Bool) (m : SMap α) (h : zwf z m = true) :
    zwf z (m.filter p) = true := by
  simp only [zwf, Bool.and_eq_true, List.all_eq_true] at h ⊢
  exact ⟨srising_filter p m h.1, fun e he => h.2 e (List.mem_filter.mp he).1⟩

/-- A write keeps the canonical form. -/
theorem zwf_zput [DecidableEq α] (z : α) (m : SMap α) (k : Nat) (x : α) (h : zwf z m = true) :
    zwf z (zput z m k x) = true := by
  unfold zput
  by_cases hx : x = z
  · simpa [hx, sdel] using zwf_filter z _ m h
  · simp only [hx, if_false]
    simp only [zwf, Bool.and_eq_true, List.all_eq_true] at h ⊢
    refine ⟨srising_sput m k x h.1, fun e he => ?_⟩
    rcases (mem_splace _ k x e).mp he with rfl | hr
    · simpa using hx
    · exact h.2 e (List.mem_filter.mp hr).1

/-- Two maps in canonical form that read alike are equal. -/
theorem zwf_ext [DecidableEq α] (z : α) (m n : SMap α) (hm : zwf z m = true) (hn : zwf z n = true)
    (h : ∀ k, zget z m k = zget z n k) : m = n := by
  have below : ∀ (r : SMap α) (k : Nat), (∀ e ∈ r, k < e.1) → sget r k = none := by
    intro r
    induction r with
    | nil => intros; rfl
    | cons e r ih =>
      intro k hk
      obtain ⟨j, x⟩ := e
      have := hk (j, x) (by simp)
      have hjk : ¬ j = k := by simp at this; omega
      simp [sget, hjk, ih k (fun e he => hk e (by simp [he]))]
  induction m generalizing n with
  | nil =>
    cases n with
    | nil => rfl
    | cons e r =>
      obtain ⟨j, y⟩ := e
      have := h j
      simp [zget, sget] at this
      simp [zwf, ← this] at hn
  | cons e r ih =>
    obtain ⟨k, x⟩ := e
    cases n with
    | nil =>
      have := h k
      simp [zget, sget] at this
      simp [zwf, this] at hm
    | cons f t =>
      obtain ⟨j, y⟩ := f
      simp only [zwf, srising, List.all_cons, Bool.and_eq_true, List.all_eq_true, decide_eq_true_eq, Bool.not_eq_true',
        beq_eq_false_iff_ne, ne_eq] at hm hn
      have hk := h k
      have hj := h j
      have e1 : j = k := by
        rcases Nat.lt_trichotomy j k with hl | he | hl
        · have hne : ¬ k = j := by omega
          have hb : sget r j = none := below r j (fun e he => Nat.lt_trans hl (hm.1.1 e he))
          simp [zget, sget, hne, hb] at hj
          exact absurd hj.symm hn.2.1
        · exact he
        · have hne : ¬ j = k := by omega
          have hb : sget t k = none := below t k (fun e he => Nat.lt_trans hl (hn.1.1 e he))
          simp [zget, sget, hne, hb] at hk
          exact absurd hk hm.2.1
      subst e1
      have e2 : x = y := by simpa [zget, sget] using hk
      subst e2
      have : r = t := by
        refine ih t ?_ ?_ (fun i => ?_)
        · simp only [zwf, Bool.and_eq_true, List.all_eq_true, Bool.not_eq_true', beq_eq_false_iff_ne, ne_eq]
          exact ⟨hm.1.2, hm.2.2⟩
        · simp only [zwf, Bool.and_eq_true, List.all_eq_true, Bool.not_eq_true', beq_eq_false_iff_ne, ne_eq]
          exact ⟨hn.1.2, hn.2.2⟩
        · by_cases hi : j = i
          · subst hi
            simp [zget, below r j hm.1.1, below t j hn.1.1]
          · have := h i
            simpa [zget, sget, hi] using this
      rw [this]

end Sys2Proof.Machine
end

