-- ==== Sys2Proof/Laws/Registers.lean ====
section
/-! SUPPORT. What a register of a warp reads as after each way of writing one. -/

namespace Sys2Proof.Machine

theorem mem_lanesOf (m : Word) (lane : Nat) : lane ∈ lanesOf m ↔ m.getLsbD lane = true := by
  simp only [lanesOf, onesBelow, List.mem_filter, List.mem_range, BitVec.getLsbD]
  constructor
  · exact fun h => h.2
  · intro h
    refine ⟨?_, h⟩
    by_cases hl : lane < 32
    · exact hl
    · have := Nat.testBit_lt_two_pow (x := m.toNat) (i := lane)
        (Nat.lt_of_lt_of_le m.isLt (Nat.pow_le_pow_right (by decide) (by omega)))
      simp [this] at h

/-- Writes of one register in a list of lanes. -/
theorem zget_lanes (l : List Nat) (v : SMap Word) (r : Nat) (f : Nat → Word) (r' lane : Nat) (hl : ∀ i ∈ l, i < 32)
    (h : lane < 32) :
    zget 0 (l.foldl (fun v i => zput 0 v (vkey r i) (f i)) v) (vkey r' lane) =
      if r' = r ∧ lane ∈ l then f lane else zget 0 v (vkey r' lane) := by
  induction l generalizing v with
  | nil => simp
  | cons i t ih =>
    rw [List.foldl_cons, ih _ (fun j hj => hl j (by simp [hj])), zget_zput]
    have hi : i < 32 := hl i (by simp)
    by_cases hr : r' = r
    · subst hr
      by_cases ht : lane ∈ t
      · simp [ht]
      · by_cases he : lane = i
        · simp [he, vkey]
        · have : vkey r' lane ≠ vkey r' i := by simp only [vkey]; omega
          simp [this, ht, he]
    · have : vkey r' lane ≠ vkey r i := by simp only [vkey]; omega
      simp [this, hr]

/-- A vector register of a lane after a register is written in the lanes of a mask. -/
theorem Warp.vget_vputs (W : Warp) (m : Word) (r : Nat) (f : Nat → Word) (r' lane : Nat) (h : lane < 32) :
    (W.vputs m r f).vget r' lane = if r' = r ∧ m.getLsbD lane = true then f lane else W.vget r' lane := by
  unfold Warp.vputs Warp.vget
  have := zget_lanes (lanesOf m) W.v r f r' lane
    (fun i hi => by
      have := List.mem_filter.mp hi
      simpa using this.1) h
  simp only [mem_lanesOf] at this
  exact this

/-- A predicate register of a lane after a predicate register is written in the lanes of a mask; p7 discards. -/
theorem Warp.pmask_pputs (W : Warp) (m : Word) (i : Nat) (x : Word) (j lane : Nat) :
    ((W.pputs m i x).pmask j).getLsbD lane =
      if j = i ∧ i ≠ 7 ∧ m.getLsbD lane = true then x.getLsbD lane else (W.pmask j).getLsbD lane := by
  unfold Warp.pputs
  by_cases hi : i = 7
  · simp [hi]
  · by_cases hj : j = i
    · subst hj
      simp only [hi, if_false, Warp.pmask, zget_zput, if_true, ne_eq, not_false_eq_true, true_and]
      simp only [BitVec.getLsbD_or, BitVec.getLsbD_and, BitVec.getLsbD_not]
      by_cases hl : lane < 32
      · cases m.getLsbD lane <;> simp [hl]
      · rw [BitVec.getLsbD_of_ge m lane (by omega), BitVec.getLsbD_of_ge (zget 0 W.p j) lane (by omega)]
        simp
    · simp [hi, hj, Warp.pmask, zget_zput]

/-- A scalar register of a view after one is written; s96 discards. -/
theorem Gang.sget_sput (g : Gang) (only : Bool) (i : Nat) (x : Word) (k : Nat) :
    (g.sput only i x).sget k = if k = i ∧ i < 96 then x else g.sget k := by
  unfold Gang.sput Gang.sget
  by_cases h : i < 96
  · simp [h, zget_zput]
  · simp [h]

/-- A uniform predicate of a view after one is written. -/
theorem Gang.q_qput (g : Gang) (only : Bool) (i : Nat) (x : Bool) (k : Nat) :
    (g.qput only i x).q.getLsbD k = if k = i ∧ i < 3 then x else g.q.getLsbD k := by
  unfold Gang.qput
  by_cases h : i < 3
  · by_cases hk : k = i
    · subst hk
      cases x <;> simp [h]
    · have hb : (1#3 <<< i).getLsbD k = false := by
        simp only [BitVec.getLsbD_shiftLeft]
        by_cases hki : k < i
        · simp [hki]
        · have : k - i ≠ 0 := by omega
          simp [hki, BitVec.getLsbD_one, this]
      simp only [h, if_true, hk, false_and, if_false]
      cases x with
      | true => simp only [if_true, BitVec.getLsbD_or, hb, Bool.or_false]
      | false =>
        simp only [Bool.false_eq_true, if_false, BitVec.getLsbD_and, BitVec.getLsbD_not, hb, Bool.not_false, Bool.and_true]
        by_cases hk3 : k < 3
        · simp [hk3]
        · simp [BitVec.getLsbD_of_ge _ k (by omega : 3 ≤ k)]
  · simp [h]

end Sys2Proof.Machine
end

