-- ==== Sys2Proof/Laws/Issue.lean ====
section
/-! SUPPORT. What an issue does: a meaning that is done leaves the registers it wrote and moves on; the checks come
first. -/

namespace Sys2Proof.Machine

/-! ### From an issue to its meaning -/

/-- The checks an issue makes before the meaning, all passed. -/
structure Passed (c : Ctx) (g : Sig) (s : State) : Prop where
  /-- No SCHED stall. -/
  stall : stallEnd c s.time = none
  /-- The checks of R71. -/
  front : front c g = none
  /-- Every register full. -/
  full : ready c g = true
  /-- No acquire to come. -/
  acq : s.acquiring c = false
  /-- The rule of capsule bodies. -/
  body : bodyCheck c g = none

/-- What it means to pass. -/
theorem passes_cases (s : State) (sig : Ctx → State → Sig) (c : Ctx) (h : s.passes sig = some c) :
    ∃ c0, s.issuing = some c0 ∧ c = c0.guarded (sig c0 s) ∧ Passed c (sig c0 s) s := by
  unfold State.passes at h
  cases hi : s.issuing with
  | none => rw [hi] at h; exact absurd h (by simp)
  | some c0 =>
    rw [hi] at h
    dsimp only at h
    split at h
    · rename_i hc
      have e := (Option.some.inj h).symm
      subst e
      exact ⟨c0, rfl, rfl, hc.1, Option.isNone_iff_eq_none.mp hc.2.1, hc.2.2.1, hc.2.2.2.1,
        Option.isNone_iff_eq_none.mp hc.2.2.2.2⟩
    · exact absurd h (by simp)

theorem issueAs_passes (c : Ctx) (g : Sig) (body : Ctx → State → Res) (s : State) (h : Passed (c.guarded g) g s) :
    issueAs c g body s = s.settle (c.guarded g) (body (c.guarded g) s) := by
  unfold issueAs
  dsimp only
  rw [h.stall]
  dsimp only
  rw [h.front]
  dsimp only
  rw [if_pos ⟨h.full, h.acq⟩, h.body]

/-- A gang that passes every check runs the meaning. -/
theorem issue_passes (s : State) (sig : HintSet → Sig) (body : Ctx → State → Res) (c : Ctx)
    (h : s.passes (hinted sig) = some c) : issue sig body s = .next (s.settle c (body c s)) := by
  obtain ⟨c0, hi, e, hp⟩ := passes_cases s _ c h
  subst e
  unfold issue
  rw [hi]
  dsimp only
  exact congrArg _ (issueAs_passes c0 _ body s hp)

/-- The same for a signature that depends on the state. -/
theorem issueWith_passes (s : State) (sig : Ctx → State → Sig) (body : Ctx → State → Res) (c : Ctx)
    (h : s.passes sig = some c) : issueWith sig body s = .next (s.settle c (body c s)) := by
  obtain ⟨c0, hi, e, hp⟩ := passes_cases s _ c h
  subst e
  unfold issueWith
  rw [hi]
  dsimp only
  exact congrArg _ (issueAs_passes c0 _ body s hp)

/-- A gang that a check of R71 stops takes that trap, whatever the meaning. -/
theorem issue_stopped (s : State) (sig : HintSet → Sig) (body : Ctx → State → Res) (c : Ctx) (t : Trap)
    (h : s.stopped (hinted sig) = some (c, t)) : issue sig body s = .next (s.trapped c t) := by
  unfold State.stopped hinted at h
  unfold issue
  cases hi : s.issuing with
  | none => rw [hi] at h; exact absurd h (by simp)
  | some c0 =>
    rw [hi] at h
    dsimp only at h ⊢
    by_cases hs : stallEnd (c0.guarded (sig c0.h)) s.time = none
    · rw [if_pos hs, Option.map_eq_some_iff] at h
      obtain ⟨t', h1, h2⟩ := h
      have h3 := congrArg Prod.fst h2
      have h4 := congrArg Prod.snd h2
      dsimp only at h3 h4
      unfold issueAs
      dsimp only
      rw [hs]
      dsimp only
      rw [h1, h4, h3]
    · rw [if_neg hs] at h
      exact absurd h (by simp)

/-- The issuing gang is a gang of a warp of the machine, and holds the slice it is named by. -/
theorem issuing_warp (s : State) (c : Ctx) (h : s.issuing = some c) :
    sget s.warps c.w = some c.W ∧ c.W.gangAt c.j = some c.G := by
  unfold State.issuing at h
  cases h1 : s.cur with
  | none => rw [h1] at h; exact absurd h (by simp)
  | some p =>
    rw [h1] at h
    dsimp only at h
    cases h2 : sget s.warps p.1 with
    | none => rw [h2] at h; exact absurd h (by simp)
    | some W =>
      rw [h2] at h
      dsimp only at h
      cases h3 : W.gangAt p.2 with
      | none => rw [h3] at h; exact absurd h (by simp)
      | some G =>
        rw [h3] at h
        have e := (Option.some.inj h).symm
        subst e
        exact ⟨h2, h3⟩

theorem passes_warp (s : State) (sig : Ctx → State → Sig) (c : Ctx) (h : s.passes sig = some c) :
    sget s.warps c.w = some c.W ∧ c.W.gangAt c.j = some c.G := by
  obtain ⟨c0, hi, e, -⟩ := passes_cases s _ c h
  subst e
  exact issuing_warp s c0 hi

/-! ### Gangs that part -/

theorem mem_slicesOf (m : BitVec 8) (j : Nat) : j ∈ slicesOf m ↔ m.getLsbD j = true := by
  simp only [slicesOf, onesBelow, List.mem_filter, List.mem_range, BitVec.getLsbD]
  constructor
  · exact fun h => h.2
  · intro h
    refine ⟨?_, h⟩
    by_cases hl : j < 8
    · exact hl
    · have := Nat.testBit_lt_two_pow (x := m.toNat) (i := j)
        (Nat.lt_of_lt_of_le m.isLt (Nat.pow_le_pow_right (by decide) (by omega)))
      simp [this] at h

theorem getLsbD_one_shift (j : Nat) (h : j < 8) : (1#8 <<< j).getLsbD j = true := by
  simp [h]

/-- Every slice of the list stands in some group. -/
theorem group_covers (W : Warp) (l : List Nat) (hl : ∀ i ∈ l, i < 8) (gs : List (BitVec 8)) (j : Nat)
    (h : j ∈ l ∨ ∃ x ∈ gs, x.getLsbD j = true) :
    ∃ x ∈ l.foldl (fun gs j =>
      match gs.find? (fun x => (W.slice (lowSlice x)).pc == (W.slice j).pc) with
      | some x => gs.map (fun y => if y = x then y ||| (1#8 <<< j) else y)
      | none => gs ++ [1#8 <<< j]) gs, x.getLsbD j = true := by
  induction l generalizing gs with
  | nil => simpa using h
  | cons i t ih =>
    rw [List.foldl_cons]
    have hi : i < 8 := hl i (by simp)
    refine ih (fun k hk => hl k (by simp [hk])) _ ?_
    rcases h with h | ⟨x, hx, hj⟩
    · rcases List.mem_cons.mp h with rfl | ht
      · right
        split
        · rename_i y hy
          have := List.mem_of_find?_eq_some hy
          exact ⟨y ||| (1#8 <<< j), List.mem_map.mpr ⟨y, this, by simp⟩, by simp [hi]⟩
        · exact ⟨1#8 <<< j, by simp, getLsbD_one_shift j hi⟩
      · exact .inl ht
    · right
      split
      · rename_i y hy
        refine ⟨if x = y then x ||| (1#8 <<< i) else x, List.mem_map.mpr ⟨x, hx, rfl⟩, ?_⟩
        by_cases e : x = y
        · simp only [e, if_true, BitVec.getLsbD_or]
          rw [← e, hj]
          rfl
        · simp [e, hj]
      · exact ⟨x, by simp [hx], hj⟩

theorem groupByPc_covers (W : Warp) (m : BitVec 8) (j : Nat) (h : m.getLsbD j = true) :
    ∃ x ∈ groupByPc W m, x.getLsbD j = true :=
  group_covers W (slicesOf m) (fun i hi => by
    have := List.mem_filter.mp hi
    simpa using this.1) [] j (.inl ((mem_slicesOf m j).mpr h))

theorem find_append_none {α : Type} (p : α → Bool) (l r : List α) (h : ∀ x ∈ l, p x = false) :
    (l ++ r).find? p = r.find? p := by
  induction l with
  | nil => rfl
  | cons x t ih =>
    have hx := h x (by simp)
    simp only [List.cons_append, List.find?_cons, hx]
    exact ih (fun y hy => h y (by simp [hy]))

/-- The first element that satisfies `p`, after each element is replaced by a list. -/
theorem find_flatMap {α : Type} (p : α → Bool) (f : α → List α) (l : List α) (x : α) (hx : l.find? p = some x)
    (hn : ∀ y ∈ l, p y = false → ∀ z ∈ f y, p z = false) (hy : ∃ z ∈ f x, p z = true) :
    ∃ z ∈ f x, (l.flatMap f).find? p = some z := by
  induction l with
  | nil => simp at hx
  | cons a t ih =>
    rw [List.flatMap_cons]
    by_cases ha : p a = true
    · have : a = x := by simpa [List.find?_cons, ha] using hx
      subst this
      rw [List.find?_append]
      cases hf : (f a).find? p with
      | none =>
        obtain ⟨z, hz, hp⟩ := hy
        have := List.find?_eq_none.mp hf z hz
        simp [hp] at this
      | some z => exact ⟨z, List.mem_of_find?_eq_some hf, by simp⟩
    · have ha' : p a = false := by simpa using ha
      have hx' : t.find? p = some x := by simpa [List.find?_cons, ha'] using hx
      rw [find_append_none p _ _ (hn a (by simp) ha')]
      exact ih hx' (fun y hy => hn y (by simp [hy]))

/-- Two gangs with the same scalar view. -/
def Gang.alike (g h : Gang) : Prop := g.s = h.s ∧ g.q = h.q

theorem find_lone (W : Warp) (j : Nat) :
    (W.lone).gangAt j = (W.gangAt j).map (fun g => if W.gangs.length = 1 then { g with written := 0 } else g) := by
  unfold Warp.lone Warp.gangAt
  split
  · rename_i g hg
    by_cases h : g.slices.getLsbD j = true <;> simp [hg, h]
  · rename_i hg
    have : W.gangs.length ≠ 1 := by
      intro h
      obtain ⟨g, hg'⟩ := List.length_eq_one_iff.mp h
      exact hg g hg'
    simp only [this, if_false]
    cases List.find? (fun g : Gang => g.slices.getLsbD j) W.gangs <;> rfl

theorem lone_slices (W : Warp) : (W.lone).slices = W.slices := by
  unfold Warp.lone
  split <;> rfl

theorem lone_alike (W : Warp) (j : Nat) :
    (W.gangAt j = none ∧ (W.lone).gangAt j = none) ∨
      ∃ g g', W.gangAt j = some g ∧ (W.lone).gangAt j = some g' ∧ g'.s = g.s ∧ g'.q = g.q ∧ g'.hints = g.hints ∧
        g'.slices = g.slices := by
  rw [find_lone]
  cases h : W.gangAt j with
  | none => simp
  | some g =>
    right
    refine ⟨g, _, rfl, rfl, ?_⟩
    by_cases hl : W.gangs.length = 1 <;> simp [hl]

theorem mapIdx_get {α : Type} (f : Nat → α → α) (l : List α) (j : Nat) : (l.mapIdx f)[j]? = (l[j]?).map (f j) := by
  simp [List.getElem?_mapIdx]

/-- The slice of a warp after some slices are changed. -/
theorem slice_modSlices (W : Warp) (m : BitVec 8) (f : Nat → Slice → Slice) (j : Nat) (h : j < W.slices.length) :
    (W.modSlices m f).slice j = if m.getLsbD j then f j (W.slice j) else W.slice j := by
  unfold Warp.modSlices Warp.slice
  simp only [mapIdx_get]
  rw [List.getElem?_eq_getElem h]
  rfl

theorem slice_modSlices_other (W : Warp) (m : BitVec 8) (f : Nat → Slice → Slice) (j : Nat) (h : m.getLsbD j = false) :
    (W.modSlices m f).slice j = W.slice j := by
  unfold Warp.modSlices Warp.slice
  simp only [mapIdx_get]
  cases W.slices[j]? with
  | none => rfl
  | some x => simp [h]

/-- A slice that waits for no lanes reaches no join. -/
theorem settle_nil (n : Nat) (x : Slice) (h : x.stack = []) : Slice.settle n x = x := by
  cases n with
  | zero => rfl
  | succ n =>
    unfold Slice.settle
    rw [h]

theorem live_iff (W : Warp) (j : Nat) (h : j < 8) : W.live.getLsbD j = !(W.slice j).exited := by
  have gen : ∀ (l : List Nat) (a : BitVec 8), (∀ i ∈ l, i < 8) → (l.foldl (fun a j => if (W.slice j).exited then a else
      a ||| (1#8 <<< j)) a).getLsbD j = (a.getLsbD j || (l.contains j && !(W.slice j).exited)) := by
    intro l
    induction l with
    | nil => simp
    | cons i t ih =>
      intro a hl
      rw [List.foldl_cons, ih _ (fun k hk => hl k (by simp [hk]))]
      have hi : i < 8 := hl i (by simp)
      by_cases hij : i = j
      · subst hij
        cases he : (W.slice i).exited <;> simp [hi]
      · have hji : (1#8 <<< i).getLsbD j = false := by
          simp only [BitVec.getLsbD_shiftLeft]
          by_cases hk : j < i
          · simp [hk]
          · have : j - i ≠ 0 := by omega
            simp [hk, BitVec.getLsbD_one, this]
        have hb : ¬ j = i := fun e => hij e.symm
        cases he : (W.slice i).exited <;> simp [hb, hji]
  have := gen (List.range 8) 0 (fun i hi => by simpa using hi)
  unfold Warp.live
  rw [this]
  simp [h]

/-- The slices of a gang that parts keep its view; a slice that falls through to `keep` keeps its hints. -/
theorem sunder_view (W : Warp) (G : Gang) (keep : Option DWord) (j : Nat) (hg : W.gangAt j = some G)
    (hl : (W.slice j).exited = false) :
    ∃ g, (W.sunder G.slices keep).gangAt j = some g ∧ g.s = G.s ∧ g.q = G.q ∧ (g.hints = G.hints ∨ g.hints = []) := by
  have hj : G.slices.getLsbD j = true := by simpa using List.find?_some hg
  have hj8 : j < 8 := by
    by_cases h : j < 8
    · exact h
    · rw [BitVec.getLsbD_of_ge G.slices j (by omega)] at hj
      exact absurd hj (by simp)
  have hlive : (G.slices &&& W.live).getLsbD j = true := by
    rw [BitVec.getLsbD_and, hj, live_iff W j hj8, hl]
    rfl
  obtain ⟨x, hx, hxj⟩ := groupByPc_covers W (G.slices &&& W.live) j hlive
  unfold Warp.sunder
  dsimp only
  obtain ⟨z, hz, hf⟩ := find_flatMap (fun g : Gang => g.slices.getLsbD j)
    (fun g : Gang => if g.slices = G.slices then
      (groupByPc W (G.slices &&& W.live)).map (fun x =>
        { g with slices := x, hints := if some (W.slice (lowSlice x)).pc = keep then g.hints else [] })
      else [g]) W.gangs G hg
    (by
      intro y _ hy z hz
      by_cases e : y.slices = G.slices
      · rw [e, hj] at hy
        exact absurd hy (by simp)
      · rw [if_neg e] at hz
        rw [List.mem_singleton.mp hz]
        exact hy)
    (by
      refine ⟨{ G with slices := x, hints := if some (W.slice (lowSlice x)).pc = keep then G.hints else [] }, ?_, hxj⟩
      rw [if_pos rfl]
      exact List.mem_map.mpr ⟨x, hx, rfl⟩)
  rw [if_pos rfl] at hz
  obtain ⟨y, -, e⟩ := List.mem_map.mp hz
  rw [find_lone]
  unfold Warp.gangAt
  dsimp only
  rw [hf]
  refine ⟨_, rfl, ?_, ?_, ?_⟩
  · subst e; dsimp only; split <;> rfl
  · subst e; dsimp only; split <;> rfl
  · subst e
    dsimp only
    by_cases h : some (W.slice (lowSlice y)).pc = keep
    · left; rw [if_pos h]; split <;> rfl
    · right; rw [if_neg h]; split <;> rfl

/-- A slice of another gang, which shares no slice with the one that parts, keeps its gang's view. -/
theorem sunder_other (W : Warp) (m : BitVec 8) (keep : Option DWord) (j : Nat) (G : Gang) (hg : W.gangAt j = some G)
    (hm : G.slices &&& m = 0) (hj : m.getLsbD j = false) :
    ∃ g, (W.sunder m keep).gangAt j = some g ∧ g.s = G.s ∧ g.q = G.q ∧ g.slices = G.slices := by
  have hGj : G.slices.getLsbD j = true := by simpa using List.find?_some hg
  have hne : G.slices ≠ m := by
    intro e
    rw [e, hj] at hGj
    exact absurd hGj (by simp)
  have piece : ∀ (l : List Nat) (gs : List (BitVec 8)), (∀ i ∈ l, i ≠ j) → (∀ x ∈ gs, x.getLsbD j = false) →
      ∀ x ∈ l.foldl (fun gs j =>
        match gs.find? (fun x => (W.slice (lowSlice x)).pc == (W.slice j).pc) with
        | some x => gs.map (fun y => if y = x then y ||| (1#8 <<< j) else y)
        | none => gs ++ [1#8 <<< j]) gs, x.getLsbD j = false := by
    intro l
    induction l with
    | nil => intro gs _ h; exact h
    | cons i t ih =>
      intro gs hl hgs
      rw [List.foldl_cons]
      have hij : i ≠ j := hl i (by simp)
      have hb : (1#8 <<< i).getLsbD j = false := by
        simp only [BitVec.getLsbD_shiftLeft]
        by_cases hk : j < i
        · simp [hk]
        · have : j - i ≠ 0 := by omega
          simp [hk, BitVec.getLsbD_one, this]
      refine ih _ (fun k hk => hl k (by simp [hk])) ?_
      split
      · intro x hx
        obtain ⟨y, hy, e⟩ := List.mem_map.mp hx
        subst e
        split
        · rw [BitVec.getLsbD_or, hgs y hy, hb]; rfl
        · exact hgs y hy
      · intro x hx
        rcases List.mem_append.mp hx with h | h
        · exact hgs x h
        · rw [List.mem_singleton.mp h]; exact hb
  have pieces : ∀ x ∈ groupByPc W (m &&& W.live), x.getLsbD j = false := by
    refine piece _ [] ?_ (by simp)
    intro i hi e
    subst e
    rw [mem_slicesOf, BitVec.getLsbD_and, hj] at hi
    exact absurd hi (by simp)
  unfold Warp.sunder
  dsimp only
  obtain ⟨z, hz, hf⟩ := find_flatMap (fun g : Gang => g.slices.getLsbD j)
    (fun g : Gang => if g.slices = m then
      (groupByPc W (m &&& W.live)).map (fun x =>
        { g with slices := x, hints := if some (W.slice (lowSlice x)).pc = keep then g.hints else [] })
      else [g]) W.gangs G hg
    (by
      intro y _ hy z hz
      by_cases e : y.slices = m
      · rw [if_pos e] at hz
        obtain ⟨x, hx, e2⟩ := List.mem_map.mp hz
        subst e2
        exact pieces x hx
      · rw [if_neg e] at hz
        rw [List.mem_singleton.mp hz]
        exact hy)
    (by
      refine ⟨G, ?_, hGj⟩
      rw [if_neg hne]
      exact List.mem_singleton.mpr rfl)
  rw [if_neg hne, List.mem_singleton] at hz
  subst hz
  rw [find_lone]
  unfold Warp.gangAt
  dsimp only
  rw [hf]
  refine ⟨_, rfl, ?_, ?_, ?_⟩ <;> (dsimp only; split <;> rfl)

theorem sunder_slices (W : Warp) (m : BitVec 8) (keep : Option DWord) : (W.sunder m keep).slices = W.slices := by
  unfold Warp.sunder
  rw [lone_slices]

/-! ### What a completed issue leaves -/

/-- An interrupt is a message, or nothing (R312, R314). -/
theorem interrupt_frame (s : State) (fn v : Nat) : ∃ o, s.interrupt fn v = { s with outbox := o } := by
  unfold State.interrupt
  by_cases h : v < vectors fn
  · rw [if_pos h]; exact ⟨_, rfl⟩
  · rw [if_neg h]; exact ⟨s.outbox, rfl⟩

theorem overflow_frame (s : State) (fn : Nat) (m : Word) :
    ∃ cs o, s.overflow fn m = { s with counters := cs, outbox := o } := by
  unfold State.overflow
  dsimp only
  generalize field (s.counter fn).int.toNat 0 11 = v
  generalize (s.counter fn).int.getLsbD 15 = b
  cases b
  · exact ⟨_, s.outbox, rfl⟩
  · rw [if_pos rfl]
    generalize sput s.counters fn _ = cs
    obtain ⟨o, h⟩ := interrupt_frame ({ s with counters := cs } : State) fn v
    exact ⟨cs, o, h⟩

/-- Counting an event changes the counters and what an overflow sends, nothing else (R306). -/
theorem count_frame (s : State) (fn ev n : Nat) :
    ∃ cs o, s.count fn ev n = { s with counters := cs, outbox := o } := by
  unfold State.count
  by_cases h : s.fnCounts fn = true ∧ (sget s.counters fn).isSome = true
  · rw [if_pos h]
    generalize (s.counter fn).add (fun e => if e = ev then n else 0) = r
    obtain ⟨c1, wraps⟩ := r
    dsimp only
    by_cases h5 : ev = 5
    · rw [if_pos h5]; exact ⟨_, s.outbox, rfl⟩
    · rw [if_neg h5]
      by_cases hz : wraps = 0
      · rw [if_pos hz]; exact ⟨_, s.outbox, rfl⟩
      · rw [if_neg hz]
        obtain ⟨cs, o, e⟩ := overflow_frame { s with counters := sput s.counters fn c1 } fn wraps
        exact ⟨cs, o, e⟩
  · rw [if_neg h]; exact ⟨s.counters, s.outbox, rfl⟩

/-- An issue's end changes the issuing warp alone, beside counters and progress. -/
theorem finish_frame (s : State) (c : Ctx) : ∃ cs o p, s.finish c = { s with
    warps := smod s.warps c.w (fun W => W.modGangs c.G.slices (fun g => g.issued s.time c.h (c.W.groupPc c.G)))
    counters := cs, outbox := o, progress := p } := by
  unfold State.finish
  obtain ⟨cs, o, h⟩ := count_frame (s.modWarp c.w (fun W =>
    W.modGangs c.G.slices (fun g => g.issued s.time c.h (c.W.groupPc c.G)))) (ctxFn c.W.ctx) 1 1
  rw [h]
  exact ⟨cs, o, _, rfl⟩

theorem find_map_gangs (l : List Gang) (h : Gang → Gang) (j : Nat) (hh : ∀ g, (h g).slices = g.slices) :
    (l.map h).find? (fun g => g.slices.getLsbD j) = (l.find? (fun g => g.slices.getLsbD j)).map h := by
  rw [List.find?_map]
  congr 2
  funext g
  simp [hh]

theorem smod_eq {α : Type} (m : SMap α) (k : Nat) (f : α → α) (x : α) (h : sget m k = some x) :
    smod m k f = sput m k (f x) := by
  unfold smod
  rw [h]

/-- A meaning that is done, having changed the issuing warp alone, to `W1`, has completed. -/
theorem done_completes (s u : State) (c : Ctx) (W1 : Warp) (x : Written) (h : Gang → Gang) (ws : SMap Warp)
    (hu : u = { s with warps := ws })
    (step1 : sget u.warps c.w = some W1) (ho : ∀ w, w ≠ c.w → sget u.warps w = sget s.warps w) (hs : W1.slices = c.W.slices) (hr : W1.rest = c.W.rest)
    (hgangs : W1.gangs = c.W.gangs.map h) (hh : ∀ g, (h g).slices = g.slices)
    (hin : ∀ i, (h c.G).sget i = (x.s i).getD (c.G.sget i))
    (hinq : ∀ i, (h c.G).q.getLsbD i = (x.q i).getD (c.G.q.getLsbD i))
    (hout : ∀ g, g.slices &&& c.G.slices = 0 → (h g).s = g.s ∧ (h g).q = g.q)
    (hv : ∀ r lane, lane < 32 → W1.vget r lane = (x.v r lane).getD (c.W.vget r lane))
    (hp : ∀ i lane, (W1.pmask i).getLsbD lane = (x.p i lane).getD ((c.W.pmask i).getLsbD lane))
    (hf : W1.flags = c.W.flags ||| x.flags) :
    Completes c s (s.settle c (.done u)) x := by
  obtain ⟨cs, o, p, hfin⟩ := finish_frame (u.advance c) c
  have hset : s.settle c (.done u) = (u.advance c).finish c := rfl
  let keep : Option DWord := some (c.W.pcOf c.G + 4)
  let W2 := W1.go c.G.slices keep (fun _ x => { x with pc := x.pc + 4 })
  let W3 : Warp := W2.modGangs c.G.slices (fun g => g.issued (u.advance c).time c.h (c.W.groupPc c.G))
  have step2 : sget (u.advance c).warps c.w = some W2 := by
    show sget (smod u.warps c.w (fun W =>
      W.go c.G.slices keep (fun _ x => { x with pc := x.pc + 4 }))) c.w = some W2
    rw [smod_eq _ _ _ _ step1, sget_sput_same]
  have step3 : sget (s.settle c (.done u)).warps c.w = some W3 := by
    rw [hset, hfin]
    dsimp only
    rw [smod_eq _ _ _ _ step2, sget_sput_same]
  -- the gang that holds a slice of the issuing gang
  have gang1 : ∀ j g, c.W.gangAt j = some g → W1.gangAt j = some (h g) := by
    intro j g hg
    show W1.gangAt j = some (h g)
    unfold Warp.gangAt
    rw [hgangs, find_map_gangs _ h j hh]
    unfold Warp.gangAt at hg
    rw [hg]
    rfl
  have sl1 : ∀ j, W1.slice j = c.W.slice j := by
    intro j
    show W1.slice j = _
    unfold Warp.slice
    rw [hs]
  have exited : ∀ (y : Slice) n, (Slice.settle n y).exited = y.exited := by
    intro y n
    induction n generalizing y with
    | zero => rfl
    | succ n ih =>
      unfold Slice.settle
      split
      · rfl
      · split
        · split
          · rw [ih]
          · rw [ih]
        · rfl
  let Wm := W1.modSlices c.G.slices (fun j x => Slice.settle 20 { x with pc := x.pc + 4 })
  have hW2 : W2 = Wm.sunder c.G.slices keep := rfl
  have exm : ∀ j, (c.W.slice j).exited = false → (Wm.slice j).exited = false := by
    intro j hj
    by_cases hl : j < W1.slices.length
    · show (Warp.slice (W1.modSlices _ _) j).exited = false
      rw [slice_modSlices _ _ _ _ hl]
      split
      · rw [exited]; exact (congrArg Slice.exited (sl1 j)).trans hj
      · rw [sl1]; exact hj
    · exfalso
      unfold Warp.slice at hj
      have hs' : c.W.slices.length ≤ j := by
        have : W1.slices.length = c.W.slices.length := congrArg List.length hs
        omega
      rw [List.getElem?_eq_none hs'] at hj
      exact absurd hj (by simp)
  have gangW3 : ∀ j, W3.gangAt j = (W2.gangAt j).map (fun g => if g.slices &&& c.G.slices = 0 then g else
      g.issued (u.advance c).time c.h (c.W.groupPc c.G)) := by
    intro j
    show Warp.gangAt _ j = _
    unfold Warp.gangAt
    show List.find? _ ((W2.modGangs _ _).gangs) = _
    unfold Warp.modGangs
    dsimp only
    exact find_map_gangs _ _ j (fun g => by split <;> rfl)
  have mine : ∀ j, c.has j → ∃ g, W3.gangAt j = some g ∧ g.s = (h c.G).s ∧ g.q = (h c.G).q := by
    intro j ⟨hg, hl⟩
    have hgm : Wm.gangAt j = some (h c.G) := gang1 j c.G hg
    obtain ⟨g, e1, e2, e3, -⟩ := sunder_view Wm (h c.G) keep j hgm (exm j hl)
    rw [hh] at e1
    rw [gangW3, hW2, e1]
    refine ⟨_, rfl, ?_, ?_⟩ <;> (dsimp only; split <;> assumption)
  have theirs : ∀ j, c.other j → ∃ g g', c.W.gangAt j = some g ∧ W3.gangAt j = some g' ∧ g'.s = g.s ∧ g'.q = g.q := by
    intro j ⟨g, hg, hd⟩
    have hgj : g.slices.getLsbD j = true := by simpa using List.find?_some hg
    have hmj : c.G.slices.getLsbD j = false := by
      have := congrArg (fun b : BitVec 8 => b.getLsbD j) hd
      simp only [BitVec.getLsbD_and, hgj, Bool.true_and] at this
      simpa using this
    have hgm : Wm.gangAt j = some (h g) := gang1 j g hg
    obtain ⟨g', e1, e2, e3, e4⟩ := sunder_other Wm c.G.slices keep j (h g) hgm (by rw [hh]; exact hd) hmj
    rw [gangW3, hW2, e1]
    obtain ⟨o1, o2⟩ := hout g hd
    exact ⟨g, _, hg, rfl, by (dsimp only; split <;> exact e2.trans o1), by (dsimp only; split <;> exact e3.trans o2)⟩
  have hslices : W3.slices = Wm.slices := by
    show (Wm.sunder c.G.slices keep).slices = _
    exact sunder_slices _ _ _
  have hslice : ∀ j, W3.slice j = Wm.slice j := by
    intro j
    unfold Warp.slice
    rw [hslices]
  have lv : W3.v = W1.v ∧ W3.p = W1.p ∧ W3.flags = W1.flags ∧ W3.rest = W1.rest := by
    have lone : ∀ (W : Warp), W.lone.v = W.v ∧ W.lone.p = W.p ∧ W.lone.flags = W.flags ∧ W.lone.rest = W.rest := by
      intro W
      unfold Warp.lone
      split <;> exact ⟨rfl, rfl, rfl, rfl⟩
    have l := lone { Wm with gangs := Wm.gangs.flatMap (fun g => if g.slices = c.G.slices then
      (groupByPc Wm (c.G.slices &&& Wm.live)).map (fun x =>
        { g with slices := x, hints := if some (Wm.slice (lowSlice x)).pc = keep then g.hints else [] })
      else [g]) }
    exact ⟨l.1, l.2.1, l.2.2.1, l.2.2.2⟩
  refine ⟨⟨W3, step3, ⟨?_, ?_, ?_, ?_, ?_, ?_⟩, ⟨?_, ?_, ?_⟩, ?_⟩, ?_, ?_, ?_⟩
  · intro r lane hl
    rw [← hv r lane hl]
    unfold Warp.vget
    rw [lv.1]
  · intro i lane
    rw [← hp i lane]
    unfold Warp.pmask
    rw [lv.2.1]
  · rw [lv.2.2.1, hf]
  · intro j i hj
    obtain ⟨g, e1, e2, -⟩ := mine j hj
    unfold Warp.view
    rw [e1, ← hin i]
    unfold Gang.sget
    dsimp only
    rw [e2]
  · intro j i hj
    obtain ⟨g, e1, -, e3⟩ := mine j hj
    unfold Warp.uview
    rw [e1, ← hinq i]
    dsimp only
    rw [e3]
  · intro j i hj
    obtain ⟨g, g', e1, e2, e3, e4⟩ := theirs j hj
    unfold Warp.view Warp.uview Gang.sget
    rw [e1, e2]
    dsimp only
    rw [e3, e4]
    exact ⟨rfl, rfl⟩
  · intro j hj hm hst
    rw [hslice]
    have hl : j < W1.slices.length := by
      have : W1.slices.length = c.W.slices.length := congrArg List.length hs
      omega
    show Warp.slice (W1.modSlices _ _) j = _
    rw [slice_modSlices _ _ _ _ hl, if_pos hm, sl1]
    exact settle_nil 20 _ hst
  · intro j g hj hg
    obtain ⟨hgj, hl⟩ := hj
    have hgm : Wm.gangAt j = some (h c.G) := gang1 j c.G hgj
    obtain ⟨g0, e1, -⟩ := sunder_view Wm (h c.G) keep j hgm (exm j hl)
    rw [hh] at e1
    have hb0 : g0.slices.getLsbD j = true := by simpa using List.find?_some e1
    have hbG : c.G.slices.getLsbD j = true := by simpa using List.find?_some hgj
    have hne : ¬ (g0.slices &&& c.G.slices = 0) := by
      intro e
      have := congrArg (fun b : BitVec 8 => b.getLsbD j) e
      simp [hb0, hbG] at this
    rw [gangW3, hW2, e1, Option.map_some, if_neg hne] at hg
    rw [← Option.some.inj hg]
    rfl
  · intro j hm
    rw [hslice]
    show Warp.slice (W1.modSlices _ _) j = _
    rw [slice_modSlices_other _ _ _ _ hm, sl1]
  · rw [lv.2.2.2, hr]
  · intro w hne
    rw [hset, hfin]
    dsimp only
    rw [sget_smod_other _ hne]
    unfold State.advance State.modWarp
    dsimp only
    rw [sget_smod_other _ hne, ho w hne]
  · intro key
    rw [hset, hfin]
    subst hu
    rfl
  · rw [hset, hfin]
    subst hu
    rfl

end Sys2Proof.Machine
end

