-- ==== Sys2Proof/Laws/Completes.lean ====
section
/-! SUPPORT. The shared endings of the data instructions have completed: a vector result, a predicate result, a scalar
result, a uniform predicate result. -/

namespace Sys2Proof.Machine

/-- The flags that the active lanes set together. -/
def laneFlags (act : Word) (f : Nat → Word) : Word := (lanesOf act).foldl (fun a lane => a ||| f lane) 0

theorem Written.none_q (i : Nat) : Written.none.q i = Option.none := rfl

/-- A meaning that is done, having changed the issuing warp by `F`. -/
theorem warp_completes (s : State) (c : Ctx) (F : Warp → Warp) (x : Written) (h : Gang → Gang)
    (hw : sget s.warps c.w = some c.W) (hs : (F c.W).slices = c.W.slices) (hr : (F c.W).rest = c.W.rest)
    (hgangs : (F c.W).gangs = c.W.gangs.map h) (hh : ∀ g, (h g).slices = g.slices)
    (hin : ∀ i, (h c.G).sget i = (x.s i).getD (c.G.sget i))
    (hinq : ∀ i, (h c.G).q.getLsbD i = (x.q i).getD (c.G.q.getLsbD i))
    (hout : ∀ g, g.slices &&& c.G.slices = 0 → (h g).s = g.s ∧ (h g).q = g.q)
    (hv : ∀ r lane, lane < 32 → (F c.W).vget r lane = (x.v r lane).getD (c.W.vget r lane))
    (hp : ∀ i lane, ((F c.W).pmask i).getLsbD lane = (x.p i lane).getD ((c.W.pmask i).getLsbD lane))
    (hf : (F c.W).flags = c.W.flags ||| x.flags) :
    Completes c s (s.settle c (.done (s.modWarp c.w F))) x := by
  refine done_completes s (s.modWarp c.w F) c (F c.W) x h _ rfl ?_ ?_ hs hr hgangs hh hin hinq hout hv hp hf
  · unfold State.modWarp
    dsimp only
    rw [smod_eq _ _ _ _ hw, sget_sput_same]
  · intro w hne
    unfold State.modWarp
    dsimp only
    rw [sget_smod_other _ hne]

/-- A meaning that is done, having changed registers of lanes alone. -/
theorem lanes_completes (s : State) (c : Ctx) (F : Warp → Warp) (x : Written) (hw : sget s.warps c.w = some c.W)
    (hs : (F c.W).slices = c.W.slices) (hr : (F c.W).rest = c.W.rest) (hg : (F c.W).gangs = c.W.gangs)
    (hxs : ∀ i, x.s i = .none) (hxq : ∀ i, x.q i = .none)
    (hv : ∀ r lane, lane < 32 → (F c.W).vget r lane = (x.v r lane).getD (c.W.vget r lane))
    (hp : ∀ i lane, ((F c.W).pmask i).getLsbD lane = (x.p i lane).getD ((c.W.pmask i).getLsbD lane))
    (hf : (F c.W).flags = c.W.flags ||| x.flags) :
    Completes c s (s.settle c (.done (s.modWarp c.w F))) x := by
  refine warp_completes s c F x id hw hs hr ?_ (fun _ => rfl) ?_ ?_ (fun _ _ => ⟨rfl, rfl⟩) hv hp hf
  · rw [hg, List.map_id]
  · intro i; rw [hxs]; rfl
  · intro i; rw [hxq]; rfl

/-- A vector result of one or two registers. -/
theorem vecDone_completes (s : State) (c : Ctx) (d n : Nat) (f : Ctx → State → Nat → DWord × Word)
    (hw : sget s.warps c.w = some c.W) :
    Completes c s (s.settle c (vecDone d n f c s))
      (Written.group c.act d n (fun lane => (f c s lane).1) (laneFlags c.act (fun lane => (f c s lane).2))) := by
  unfold vecDone putLanes
  by_cases hn : n = 2
  · subst hn
    refine lanes_completes s c _ _ hw rfl rfl rfl (fun _ => rfl) (fun _ => rfl) ?_ ?_ rfl
    · intro r lane hl
      show ((c.W.vputs c.act d _).vputs c.act (d + 1) _).vget r lane = _
      rw [Warp.vget_vputs _ _ _ _ _ _ hl, Warp.vget_vputs _ _ _ _ _ _ hl]
      unfold Written.group
      dsimp only
      by_cases h1 : r = d + 1 <;> by_cases h2 : r = d <;> cases h3 : c.act.getLsbD lane <;> simp [h1, h2]
    · intro i lane; rfl
  · refine lanes_completes s c _ _ hw ?_ ?_ ?_ (fun _ => rfl) (fun _ => rfl) ?_ ?_ ?_
    · dsimp only; rw [if_neg hn]; rfl
    · dsimp only; rw [if_neg hn]; rfl
    · dsimp only; rw [if_neg hn]; rfl
    · intro r lane hl
      dsimp only
      rw [if_neg hn]
      show (c.W.vputs c.act d _).vget r lane = _
      rw [Warp.vget_vputs _ _ _ _ _ _ hl]
      unfold Written.group
      dsimp only
      by_cases h2 : r = d <;> cases h3 : c.act.getLsbD lane <;> simp [hn, h2]
    · intro i lane; dsimp only; rw [if_neg hn]; rfl
    · dsimp only; rw [if_neg hn]; rfl

theorem maskOf_bit (l : List Nat) (hl : ∀ i ∈ l, i < 32) (j : Nat) : (maskOf l).getLsbD j = l.contains j := by
  have gen : ∀ (l : List Nat) (a : Word), (∀ i ∈ l, i < 32) →
      (l.foldl (fun a i => a ||| bitW i) a).getLsbD j = (a.getLsbD j || l.contains j) := by
    intro l
    induction l with
    | nil => simp
    | cons i t ih =>
      intro a hl
      rw [List.foldl_cons, ih _ (fun k hk => hl k (by simp [hk]))]
      have hi : i < 32 := hl i (by simp)
      have : (bitW i).getLsbD j = (j == i) := by
        unfold bitW
        rw [BitVec.getLsbD_ofNat]
        by_cases e : j = i
        · subst e; simp [hi]
        · have : (2 ^ i).testBit j = false := by
            rw [Nat.testBit_two_pow]
            simpa using fun e' => e e'.symm
          simp [this, e]
      rw [BitVec.getLsbD_or, this, List.contains_cons, Bool.or_assoc]
  have := gen l 0 hl
  unfold maskOf
  rw [this]
  simp

theorem lanesWhere_bit (f : Nat → Bool) (j : Nat) : (lanesWhere f).getLsbD j = (decide (j < 32) && f j) := by
  unfold lanesWhere
  rw [maskOf_bit _ (fun i hi => by
    have := List.mem_filter.mp hi
    simpa using this.1)]
  rw [Bool.eq_iff_iff]
  simp

/-- A predicate result. -/
theorem predDone_completes (s : State) (c : Ctx) (p code : Nat) (f : Ctx → State → Nat → Bool × Word)
    (hw : sget s.warps c.w = some c.W) :
    Completes c s (s.settle c (predDone p code f c s))
      (Written.pred c.act p (fun lane => combinePred code ((c.W.pmask p).getLsbD lane) (f c s lane).1)
        (laneFlags c.act (fun lane => (f c s lane).2))) := by
  unfold predDone
  have same : ∀ x, (c.W.pputs c.act p x).slices = c.W.slices ∧ (c.W.pputs c.act p x).rest = c.W.rest ∧
      (c.W.pputs c.act p x).gangs = c.W.gangs ∧ (c.W.pputs c.act p x).v = c.W.v ∧
      (c.W.pputs c.act p x).flags = c.W.flags := by
    intro x
    unfold Warp.pputs
    split <;> exact ⟨rfl, rfl, rfl, rfl, rfl⟩
  refine lanes_completes s c _ _ hw ?_ ?_ ?_ (fun _ => rfl) (fun _ => rfl) ?_ ?_ ?_
  · exact (same _).1
  · exact (same _).2.1
  · exact (same _).2.2.1
  · intro r lane hl
    unfold Warp.vget
    show zget 0 (c.W.pputs c.act p _).v _ = _
    rw [(same _).2.2.2.1]
    rfl
  · intro i lane
    show ((c.W.pputs c.act p _).pmask i).getLsbD lane = _
    rw [Warp.pmask_pputs]
    unfold Written.pred
    dsimp only
    by_cases hl : lane < 32
    · by_cases h : i = p ∧ p ≠ 7 ∧ c.act.getLsbD lane = true
      · rw [if_pos h, if_pos ⟨h.1, h.2.1, hl, h.2.2⟩, lanesWhere_bit]
        simp [hl]
      · rw [if_neg h, if_neg (fun g => h ⟨g.1, g.2.1, g.2.2.2⟩)]
        rfl
    · have : c.act.getLsbD lane = false := BitVec.getLsbD_of_ge _ _ (by omega)
      rw [if_neg (fun g => by rw [this] at g; exact absurd g.2.2 (by simp)),
        if_neg (fun g => hl g.2.2.1)]
      rfl
  · show (c.W.pputs c.act p _).flags ||| _ = _
    rw [(same _).2.2.2.2]
    rfl

/-- A meaning that is done, having changed the view of the issuing gang alone. -/
theorem view_completes (s : State) (c : Ctx) (F : Warp → Warp) (k : Gang → Gang) (x : Written)
    (hw : sget s.warps c.w = some c.W) (hg : c.W.gangAt c.j = some c.G) (hF : F c.W = c.W.modGang c.j k)
    (hk : ∀ g, (k g).slices = g.slices) (hs : ∀ i, (k c.G).sget i = (x.s i).getD (c.G.sget i))
    (hq : ∀ i, (k c.G).q.getLsbD i = (x.q i).getD (c.G.q.getLsbD i))
    (hv : ∀ r lane, x.v r lane = .none) (hp : ∀ i lane, x.p i lane = .none) (hf : x.flags = 0) :
    Completes c s (s.settle c (.done (s.modWarp c.w F))) x := by
  have hj : c.G.slices.getLsbD c.j = true := by simpa using List.find?_some hg
  refine warp_completes s c F x (fun g => if g.slices.getLsbD c.j then k g else g) hw ?_ ?_ ?_ ?_ ?_ ?_ ?_ ?_ ?_ ?_
  · rw [hF]; rfl
  · rw [hF]; rfl
  · rw [hF]; rfl
  · intro g; split
    · exact hk g
    · rfl
  · intro i; rw [if_pos hj]; exact hs i
  · intro i; rw [if_pos hj]; exact hq i
  · intro g hd
    have : g.slices.getLsbD c.j = false := by
      have e := congrArg (fun b : BitVec 8 => b.getLsbD c.j) hd
      simpa [hj] using e
    rw [if_neg (by rw [this]; simp)]
    exact ⟨rfl, rfl⟩
  · intro r lane _; rw [hv, hF]; rfl
  · intro i lane; rw [hp, hF]; rfl
  · rw [hf, hF]; show c.W.flags = c.W.flags ||| 0; simp

theorem modGang_modGang (W : Warp) (j : Nat) (k l : Gang → Gang) (hk : ∀ g, (k g).slices = g.slices) :
    (W.modGang j k).modGang j l = W.modGang j (fun g => l (k g)) := by
  unfold Warp.modGang
  dsimp only
  rw [List.map_map]
  congr 2
  funext g
  simp only [Function.comp]
  by_cases h : g.slices.getLsbD j = true
  · rw [if_pos h, if_pos (by rw [hk]; exact h)]
    simp [h]
  · simp [h]

theorem Gang.sput_slices (g : Gang) (only : Bool) (i : Nat) (x : Word) : (g.sput only i x).slices = g.slices := by
  unfold Gang.sput; split <;> rfl

theorem Gang.sput_q (g : Gang) (only : Bool) (i : Nat) (x : Word) : (g.sput only i x).q = g.q := by
  unfold Gang.sput; split <;> rfl

theorem Gang.qput_slices (g : Gang) (only : Bool) (i : Nat) (x : Bool) : (g.qput only i x).slices = g.slices := by
  unfold Gang.qput; split <;> rfl

theorem Gang.qput_s (g : Gang) (only : Bool) (i : Nat) (x : Bool) : (g.qput only i x).s = g.s := by
  unfold Gang.qput; split <;> rfl

/-- A scalar result of one register; s96 discards (R47). -/
theorem sput_completes (s : State) (c : Ctx) (d : Nat) (x : Word) (hw : sget s.warps c.w = some c.W)
    (hg : c.W.gangAt c.j = some c.G) :
    Completes c s (s.settle c (.done (s.modWarp c.w (fun W => Warp.sput W c.j d x)))) (Written.scal d 1 (x.setWidth 64)) := by
  have lo : loWord (x.setWidth 64) = x := by
    unfold loWord
    ext i hi
    have : i < 64 := by omega
    simp [this, BitVec.getLsbD_eq_getElem hi]
  refine view_completes s c _ (fun g => g.sput c.W.only d x) _ hw hg rfl (fun g => Gang.sput_slices ..) ?_ ?_
    (fun _ _ => rfl) (fun _ _ => rfl) rfl
  · intro i
    rw [Gang.sget_sput]
    unfold Written.scal
    dsimp only
    rw [lo]
    by_cases h : d < 96
    · by_cases hi : i = d <;> simp [h, hi, Nat.not_le.mpr h]
    · simp [h, Nat.le_of_not_lt h]
  · intro i
    rw [Gang.sput_q]
    rfl

/-- A scalar result of one register or of an even pair; s96 discards (R47, R50). -/
theorem sgroup_completes (s : State) (c : Ctx) (d n : Nat) (x : DWord) (hw : sget s.warps c.w = some c.W)
    (hg : c.W.gangAt c.j = some c.G) (hd : n = 2 → d % 2 = 0) :
    Completes c s (s.settle c (.done (s.modWarp c.w (fun W => W.sgroup c.j d n x)))) (Written.scal d n x) := by
  by_cases hn : n = 2
  · refine view_completes s c _ (fun g => if d = 96 then g.sput c.W.only d (loWord x) else
      (g.sput c.W.only d (loWord x)).sput c.W.only (d + 1) (hiWord x)) _ hw hg ?_ ?_ ?_ ?_
      (fun _ _ => rfl) (fun _ _ => rfl) rfl
    · unfold Warp.sgroup
      rw [if_pos hn]
      unfold Warp.sput2 Warp.sput
      rw [modGang_modGang _ _ _ _ (fun g => Gang.sput_slices ..)]
    · intro g
      split
      · exact Gang.sput_slices ..
      · rw [Gang.sput_slices, Gang.sput_slices]
    · intro i
      have := hd hn
      unfold Written.scal
      dsimp only
      by_cases h96 : d = 96
      · rw [if_pos h96, Gang.sget_sput]
        simp [h96]
      · rw [if_neg h96, Gang.sget_sput, Gang.sget_sput]
        by_cases h : d < 96
        · have h1 : d + 1 < 96 := by omega
          by_cases hi : i = d + 1
          · simp [hi, h1, hn, Nat.not_le.mpr h]
          · by_cases hi2 : i = d <;> simp [hi, hi2, h, hn, Nat.not_le.mpr h]
        · have h1 : ¬ d + 1 < 96 := by omega
          simp [h, h1, Nat.le_of_not_lt h]
    · intro i
      split
      · rw [Gang.sput_q]; rfl
      · rw [Gang.sput_q, Gang.sput_q]; rfl
  · refine view_completes s c _ (fun g => g.sput c.W.only d (loWord x)) _ hw hg ?_ (fun g => Gang.sput_slices ..) ?_ ?_
      (fun _ _ => rfl) (fun _ _ => rfl) rfl
    · unfold Warp.sgroup
      rw [if_neg hn]
      rfl
    · intro i
      rw [Gang.sget_sput]
      unfold Written.scal
      dsimp only
      by_cases h : d < 96
      · by_cases hi : i = d <;> simp [h, hi, hn, Nat.not_le.mpr h]
      · simp [h, Nat.le_of_not_lt h]
    · intro i
      rw [Gang.sput_q]
      rfl

/-- A uniform predicate result. -/
theorem qput_completes (s : State) (c : Ctx) (p : Nat) (x : Bool) (hw : sget s.warps c.w = some c.W)
    (hg : c.W.gangAt c.j = some c.G) :
    Completes c s (s.settle c (.done (s.modWarp c.w (fun W => Warp.qput W c.j p x)))) (Written.uni p x) := by
  refine view_completes s c _ (fun g => g.qput c.W.only p x) _ hw hg rfl (fun g => Gang.qput_slices ..) ?_ ?_
    (fun _ _ => rfl) (fun _ _ => rfl) rfl
  · intro i
    dsimp only [Gang.sget]
    rw [Gang.qput_s]
    rfl
  · intro i
    rw [Gang.q_qput]
    unfold Written.uni
    dsimp only
    by_cases h : i = p ∧ p < 3
    · rw [if_pos h, if_pos h]; rfl
    · rw [if_neg h, if_neg h]; rfl

/-- A meaning that is done and changed nothing. -/
theorem none_completes (s : State) (c : Ctx) (hw : sget s.warps c.w = some c.W) :
    Completes c s (s.settle c (.done s)) Written.none := by
  refine done_completes s s c c.W Written.none id s.warps rfl hw (fun _ _ => rfl) rfl rfl ?_ (fun _ => rfl) (fun _ => rfl)
    (fun _ => rfl) (fun _ _ => ⟨rfl, rfl⟩) (fun _ _ _ => rfl) (fun _ _ => rfl) ?_
  · rw [List.map_id]
  · show c.W.flags = c.W.flags ||| 0
    simp

end Sys2Proof.Machine
end

