-- ==== Sys2Proof/Laws/Encoding.lean ====
section
/-! SUPPORT. The fields of a word put together in one of the formats of R44 are the fields it was put together from, and
what the decoder does with a word of each major opcode. -/

set_option linter.unusedSimpArgs false

namespace Sys2Proof.Laws

theorem extract_low {n m lo k : Nat} (x : BitVec n) (y : BitVec m) (h : lo + k ≤ m) :
    (x ++ y).extractLsb' lo k = y.extractLsb' lo k := by
  ext i hi
  simp only [BitVec.getElem_extractLsb', BitVec.getLsbD_append]
  have : lo + i < m := by omega
  simp [this]

theorem extract_high {n m lo k : Nat} (x : BitVec n) (y : BitVec m) (h : m ≤ lo) :
    (x ++ y).extractLsb' lo k = x.extractLsb' (lo - m) k := by
  ext i hi
  simp only [BitVec.getElem_extractLsb', BitVec.getLsbD_append]
  have h1 : ¬ lo + i < m := by omega
  have h2 : lo + i - m = lo - m + i := by omega
  simp [h1, h2]

theorem extract_all {n : Nat} (x : BitVec n) : x.extractLsb' 0 n = x := by
  ext i hi
  simp

/-! ### Format F1 -/

theorem bits_encF1_26 (m : BitVec 6) (f : BitVec 3) (g : BitVec 2) (d a b : BitVec 7) : bits (encF1 m f g d a b) 26 6 = m := by
  simp (disch := decide) only [bits, encF1, extract_low, extract_high, extract_all, Nat.sub_self, Nat.reduceSub]

theorem bits_encF1_23 (m : BitVec 6) (f : BitVec 3) (g : BitVec 2) (d a b : BitVec 7) : bits (encF1 m f g d a b) 23 3 = f := by
  simp (disch := decide) only [bits, encF1, extract_low, extract_high, extract_all, Nat.sub_self, Nat.reduceSub]

theorem bits_encF1_21 (m : BitVec 6) (f : BitVec 3) (g : BitVec 2) (d a b : BitVec 7) : bits (encF1 m f g d a b) 21 2 = g := by
  simp (disch := decide) only [bits, encF1, extract_low, extract_high, extract_all, Nat.sub_self, Nat.reduceSub]

theorem bits_encF1_14 (m : BitVec 6) (f : BitVec 3) (g : BitVec 2) (d a b : BitVec 7) : bits (encF1 m f g d a b) 14 7 = d := by
  simp (disch := decide) only [bits, encF1, extract_low, extract_high, extract_all, Nat.sub_self, Nat.reduceSub]

theorem bits_encF1_7 (m : BitVec 6) (f : BitVec 3) (g : BitVec 2) (d a b : BitVec 7) : bits (encF1 m f g d a b) 7 7 = a := by
  simp (disch := decide) only [bits, encF1, extract_low, extract_high, extract_all, Nat.sub_self, Nat.reduceSub]

theorem bits_encF1_0 (m : BitVec 6) (f : BitVec 3) (g : BitVec 2) (d a b : BitVec 7) : bits (encF1 m f g d a b) 0 7 = b := by
  simp (disch := decide) only [bits, encF1, extract_low, extract_high, extract_all, Nat.sub_self, Nat.reduceSub]

/-! ### Format F3 -/

theorem bits_encF3_26 (m : BitVec 6) (s : BitVec 1) (g : BitVec 2) (d : BitVec 7) (i : BitVec 16) : bits (encF3 m s g d i) 26 6 = m := by
  simp (disch := decide) only [bits, encF3, extract_low, extract_high, extract_all, Nat.sub_self, Nat.reduceSub]

theorem bits_encF3_25 (m : BitVec 6) (s : BitVec 1) (g : BitVec 2) (d : BitVec 7) (i : BitVec 16) : bits (encF3 m s g d i) 25 1 = s := by
  simp (disch := decide) only [bits, encF3, extract_low, extract_high, extract_all, Nat.sub_self, Nat.reduceSub]

theorem bits_encF3_23 (m : BitVec 6) (s : BitVec 1) (g : BitVec 2) (d : BitVec 7) (i : BitVec 16) : bits (encF3 m s g d i) 23 2 = g := by
  simp (disch := decide) only [bits, encF3, extract_low, extract_high, extract_all, Nat.sub_self, Nat.reduceSub]

theorem bits_encF3_16 (m : BitVec 6) (s : BitVec 1) (g : BitVec 2) (d : BitVec 7) (i : BitVec 16) : bits (encF3 m s g d i) 16 7 = d := by
  simp (disch := decide) only [bits, encF3, extract_low, extract_high, extract_all, Nat.sub_self, Nat.reduceSub]

theorem bits_encF3_0 (m : BitVec 6) (s : BitVec 1) (g : BitVec 2) (d : BitVec 7) (i : BitVec 16) : bits (encF3 m s g d i) 0 16 = i := by
  simp (disch := decide) only [bits, encF3, extract_low, extract_high, extract_all, Nat.sub_self, Nat.reduceSub]

/-! ### Format F4 -/

theorem bits_encF4_26 (m : BitVec 6) (n : BitVec 1) (c : BitVec 3) (o : BitVec 22) : bits (encF4 m n c o) 26 6 = m := by
  simp (disch := decide) only [bits, encF4, extract_low, extract_high, extract_all, Nat.sub_self, Nat.reduceSub]

theorem bits_encF4_25 (m : BitVec 6) (n : BitVec 1) (c : BitVec 3) (o : BitVec 22) : bits (encF4 m n c o) 25 1 = n := by
  simp (disch := decide) only [bits, encF4, extract_low, extract_high, extract_all, Nat.sub_self, Nat.reduceSub]

theorem bits_encF4_22 (m : BitVec 6) (n : BitVec 1) (c : BitVec 3) (o : BitVec 22) : bits (encF4 m n c o) 22 3 = c := by
  simp (disch := decide) only [bits, encF4, extract_low, extract_high, extract_all, Nat.sub_self, Nat.reduceSub]

theorem bits_encF4_0 (m : BitVec 6) (n : BitVec 1) (c : BitVec 3) (o : BitVec 22) : bits (encF4 m n c o) 0 22 = o := by
  simp (disch := decide) only [bits, encF4, extract_low, extract_high, extract_all, Nat.sub_self, Nat.reduceSub]

/-! ### Format F5 -/

theorem bits_encF5_26 (m : BitVec 6) (w g : BitVec 2) (d a : BitVec 7) (o : BitVec 8) : bits (encF5 m w g d a o) 26 6 = m := by
  simp (disch := decide) only [bits, encF5, extract_low, extract_high, extract_all, Nat.sub_self, Nat.reduceSub]

theorem bits_encF5_24 (m : BitVec 6) (w g : BitVec 2) (d a : BitVec 7) (o : BitVec 8) : bits (encF5 m w g d a o) 24 2 = w := by
  simp (disch := decide) only [bits, encF5, extract_low, extract_high, extract_all, Nat.sub_self, Nat.reduceSub]

theorem bits_encF5_22 (m : BitVec 6) (w g : BitVec 2) (d a : BitVec 7) (o : BitVec 8) : bits (encF5 m w g d a o) 22 2 = g := by
  simp (disch := decide) only [bits, encF5, extract_low, extract_high, extract_all, Nat.sub_self, Nat.reduceSub]

theorem bits_encF5_15 (m : BitVec 6) (w g : BitVec 2) (d a : BitVec 7) (o : BitVec 8) : bits (encF5 m w g d a o) 15 7 = d := by
  simp (disch := decide) only [bits, encF5, extract_low, extract_high, extract_all, Nat.sub_self, Nat.reduceSub]

theorem bits_encF5_8 (m : BitVec 6) (w g : BitVec 2) (d a : BitVec 7) (o : BitVec 8) : bits (encF5 m w g d a o) 8 7 = a := by
  simp (disch := decide) only [bits, encF5, extract_low, extract_high, extract_all, Nat.sub_self, Nat.reduceSub]

theorem bits_encF5_0 (m : BitVec 6) (w g : BitVec 2) (d a : BitVec 7) (o : BitVec 8) : bits (encF5 m w g d a o) 0 8 = o := by
  simp (disch := decide) only [bits, encF5, extract_low, extract_high, extract_all, Nat.sub_self, Nat.reduceSub]

/-! ### Format F6 -/

theorem bits_encF6_26 (m : BitVec 6) (f : BitVec 6) (r : BitVec 20) : bits (encF6 m f r) 26 6 = m := by
  simp (disch := decide) only [bits, encF6, extract_low, extract_high, extract_all, Nat.sub_self, Nat.reduceSub]

theorem bits_encF6_20 (m : BitVec 6) (f : BitVec 6) (r : BitVec 20) : bits (encF6 m f r) 20 6 = f := by
  simp (disch := decide) only [bits, encF6, extract_low, extract_high, extract_all, Nat.sub_self, Nat.reduceSub]

theorem bits_encF6_0 (m : BitVec 6) (f : BitVec 6) (r : BitVec 20) : bits (encF6 m f r) 0 20 = r := by
  simp (disch := decide) only [bits, encF6, extract_low, extract_high, extract_all, Nat.sub_self, Nat.reduceSub]

/-! ### Format F7 -/

theorem bits_encF7_26 (m : BitVec 6) (k : BitVec 4) (p : BitVec 22) : bits (encF7 m k p) 26 6 = m := by
  simp (disch := decide) only [bits, encF7, extract_low, extract_high, extract_all, Nat.sub_self, Nat.reduceSub]

theorem bits_encF7_22 (m : BitVec 6) (k : BitVec 4) (p : BitVec 22) : bits (encF7 m k p) 22 4 = k := by
  simp (disch := decide) only [bits, encF7, extract_low, extract_high, extract_all, Nat.sub_self, Nat.reduceSub]

theorem bits_encF7_0 (m : BitVec 6) (k : BitVec 4) (p : BitVec 22) : bits (encF7 m k p) 0 22 = p := by
  simp (disch := decide) only [bits, encF7, extract_low, extract_high, extract_all, Nat.sub_self, Nat.reduceSub]

/-! ### Format F8 -/

theorem bits_encF8_26 (m : BitVec 6) (f : BitVec 5) (x y z : BitVec 7) : bits (encF8 m f x y z) 26 6 = m := by
  simp (disch := decide) only [bits, encF8, extract_low, extract_high, extract_all, Nat.sub_self, Nat.reduceSub]

theorem bits_encF8_21 (m : BitVec 6) (f : BitVec 5) (x y z : BitVec 7) : bits (encF8 m f x y z) 21 5 = f := by
  simp (disch := decide) only [bits, encF8, extract_low, extract_high, extract_all, Nat.sub_self, Nat.reduceSub]

theorem bits_encF8_14 (m : BitVec 6) (f : BitVec 5) (x y z : BitVec 7) : bits (encF8 m f x y z) 14 7 = x := by
  simp (disch := decide) only [bits, encF8, extract_low, extract_high, extract_all, Nat.sub_self, Nat.reduceSub]

theorem bits_encF8_7 (m : BitVec 6) (f : BitVec 5) (x y z : BitVec 7) : bits (encF8 m f x y z) 7 7 = y := by
  simp (disch := decide) only [bits, encF8, extract_low, extract_high, extract_all, Nat.sub_self, Nat.reduceSub]

theorem bits_encF8_0 (m : BitVec 6) (f : BitVec 5) (x y z : BitVec 7) : bits (encF8 m f x y z) 0 7 = z := by
  simp (disch := decide) only [bits, encF8, extract_low, extract_high, extract_all, Nat.sub_self, Nat.reduceSub]

/-! ### Majors -/

theorem decode_01 (f : BitVec 3) (g : BitVec 2) (d a b : BitVec 7) : decode (encF1 0x01#6 f g d a b) = decode01 f.toNat g d a b := by
  unfold decode
  rw [bits_encF1_26, bits_encF1_23, bits_encF1_21, bits_encF1_14, bits_encF1_7, bits_encF1_0]
  rfl

theorem decode_02 (f : BitVec 3) (g : BitVec 2) (d a b : BitVec 7) : decode (encF1 0x02#6 f g d a b) = decode02 f.toNat g d a b := by
  unfold decode
  rw [bits_encF1_26, bits_encF1_23, bits_encF1_21, bits_encF1_14, bits_encF1_7, bits_encF1_0]
  rfl

theorem decode_03 (f : BitVec 3) (g : BitVec 2) (d a b : BitVec 7) : decode (encF1 0x03#6 f g d a b) = decode03 f.toNat g d a b := by
  unfold decode
  rw [bits_encF1_26, bits_encF1_23, bits_encF1_21, bits_encF1_14, bits_encF1_7, bits_encF1_0]
  rfl

theorem decode_04 (f : BitVec 3) (g : BitVec 2) (d a b : BitVec 7) : decode (encF1 0x04#6 f g d a b) = decode04 f.toNat g d a b := by
  unfold decode
  rw [bits_encF1_26, bits_encF1_23, bits_encF1_21, bits_encF1_14, bits_encF1_7, bits_encF1_0]
  rfl

theorem decode_05 (f : BitVec 3) (g : BitVec 2) (d a b : BitVec 7) : decode (encF1 0x05#6 f g d a b) = decode05 f.toNat g d a b := by
  unfold decode
  rw [bits_encF1_26, bits_encF1_23, bits_encF1_21, bits_encF1_14, bits_encF1_7, bits_encF1_0]
  rfl

theorem decode_06 (f : BitVec 3) (g : BitVec 2) (d a b : BitVec 7) : decode (encF1 0x06#6 f g d a b) = decode06 f.toNat g d a b := by
  unfold decode
  rw [bits_encF1_26, bits_encF1_23, bits_encF1_21, bits_encF1_14, bits_encF1_7, bits_encF1_0]
  rfl

theorem decode_07 (f : BitVec 3) (g : BitVec 2) (d a b : BitVec 7) : decode (encF1 0x07#6 f g d a b) = decode07 f.toNat g d a b := by
  unfold decode
  rw [bits_encF1_26, bits_encF1_23, bits_encF1_21, bits_encF1_14, bits_encF1_7, bits_encF1_0]
  rfl

theorem decode_08 (f : BitVec 3) (g : BitVec 2) (d a b : BitVec 7) : decode (encF1 0x08#6 f g d a b) = decode08 f.toNat g d a b := by
  unfold decode
  rw [bits_encF1_26, bits_encF1_23, bits_encF1_21, bits_encF1_14, bits_encF1_7, bits_encF1_0]
  rfl

theorem decode_09 (f : BitVec 3) (g : BitVec 2) (d a b : BitVec 7) : decode (encF1 0x09#6 f g d a b) = decode09 f.toNat g d a b := by
  unfold decode
  rw [bits_encF1_26, bits_encF1_23, bits_encF1_21, bits_encF1_14, bits_encF1_7, bits_encF1_0]
  rfl

theorem decode_0A (f : BitVec 3) (g : BitVec 2) (d a b : BitVec 7) : decode (encF1 0x0A#6 f g d a b) = decode0A f.toNat g d a b := by
  unfold decode
  rw [bits_encF1_26, bits_encF1_23, bits_encF1_21, bits_encF1_14, bits_encF1_7, bits_encF1_0]
  rfl

theorem decode_0B (f : BitVec 3) (g : BitVec 2) (d a b : BitVec 7) : decode (encF1 0x0B#6 f g d a b) = decode0B f.toNat g d a b := by
  unfold decode
  rw [bits_encF1_26, bits_encF1_23, bits_encF1_21, bits_encF1_14, bits_encF1_7, bits_encF1_0]
  rfl

theorem decode_0C (f : BitVec 3) (g : BitVec 2) (d a b : BitVec 7) : decode (encF1 0x0C#6 f g d a b) = decode0C f.toNat g d a b := by
  unfold decode
  rw [bits_encF1_26, bits_encF1_23, bits_encF1_21, bits_encF1_14, bits_encF1_7, bits_encF1_0]
  rfl

theorem decode_0D (f : BitVec 3) (g : BitVec 2) (d a b : BitVec 7) : decode (encF1 0x0D#6 f g d a b) = decode0D f.toNat g d a b := by
  unfold decode
  rw [bits_encF1_26, bits_encF1_23, bits_encF1_21, bits_encF1_14, bits_encF1_7, bits_encF1_0]
  rfl

theorem decode_0E (f : BitVec 3) (g : BitVec 2) (d a b : BitVec 7) : decode (encF1 0x0E#6 f g d a b) = decode0E f.toNat g d a b := by
  unfold decode
  rw [bits_encF1_26, bits_encF1_23, bits_encF1_21, bits_encF1_14, bits_encF1_7, bits_encF1_0]
  rfl

theorem decode_10 (f : BitVec 3) (g : BitVec 2) (d a b : BitVec 7) : decode (encF1 0x10#6 f g d a b) = decode10 f.toNat g d a b := by
  unfold decode
  rw [bits_encF1_26, bits_encF1_23, bits_encF1_21, bits_encF1_14, bits_encF1_7, bits_encF1_0]
  rfl

theorem decode_11 (f : BitVec 3) (g : BitVec 2) (d a b : BitVec 7) : decode (encF1 0x11#6 f g d a b) = decode11 f.toNat g d a b := by
  unfold decode
  rw [bits_encF1_26, bits_encF1_23, bits_encF1_21, bits_encF1_14, bits_encF1_7, bits_encF1_0]
  rfl

theorem decode_12 (f : BitVec 3) (g : BitVec 2) (d a b : BitVec 7) : decode (encF1 0x12#6 f g d a b) = decode12 f.toNat g d a b := by
  unfold decode
  rw [bits_encF1_26, bits_encF1_23, bits_encF1_21, bits_encF1_14, bits_encF1_7, bits_encF1_0]
  rfl

theorem decode_13 (f : BitVec 3) (g : BitVec 2) (d a b : BitVec 7) : decode (encF1 0x13#6 f g d a b) = decode13 f.toNat g d a b := by
  unfold decode
  rw [bits_encF1_26, bits_encF1_23, bits_encF1_21, bits_encF1_14, bits_encF1_7, bits_encF1_0]
  rfl

theorem decode_14 (f : BitVec 3) (g : BitVec 2) (d a b : BitVec 7) : decode (encF1 0x14#6 f g d a b) = decode14 f.toNat g d a b := by
  unfold decode
  rw [bits_encF1_26, bits_encF1_23, bits_encF1_21, bits_encF1_14, bits_encF1_7, bits_encF1_0]
  rfl

theorem decode_15 (f : BitVec 3) (g : BitVec 2) (d a b : BitVec 7) : decode (encF1 0x15#6 f g d a b) = decode15 f.toNat g d a b := by
  unfold decode
  rw [bits_encF1_26, bits_encF1_23, bits_encF1_21, bits_encF1_14, bits_encF1_7, bits_encF1_0]
  rfl

theorem decode_16 (f : BitVec 3) (g : BitVec 2) (d a b : BitVec 7) : decode (encF1 0x16#6 f g d a b) = decode16 f.toNat g d a b := by
  unfold decode
  rw [bits_encF1_26, bits_encF1_23, bits_encF1_21, bits_encF1_14, bits_encF1_7, bits_encF1_0]
  rfl

theorem decode_17 (f : BitVec 3) (g : BitVec 2) (d a b : BitVec 7) : decode (encF1 0x17#6 f g d a b) = decode17 f.toNat g d a b := by
  unfold decode
  rw [bits_encF1_26, bits_encF1_23, bits_encF1_21, bits_encF1_14, bits_encF1_7, bits_encF1_0]
  rfl

theorem decode_18 (f : BitVec 3) (g : BitVec 2) (d a b : BitVec 7) : decode (encF1 0x18#6 f g d a b) = decode18 f.toNat g d a b := by
  unfold decode
  rw [bits_encF1_26, bits_encF1_23, bits_encF1_21, bits_encF1_14, bits_encF1_7, bits_encF1_0]
  rfl

theorem decode_19 (f : BitVec 3) (g : BitVec 2) (d a b : BitVec 7) : decode (encF1 0x19#6 f g d a b) = decode19 f.toNat g d a b := by
  unfold decode
  rw [bits_encF1_26, bits_encF1_23, bits_encF1_21, bits_encF1_14, bits_encF1_7, bits_encF1_0]
  rfl

theorem decode_1A (f : BitVec 3) (g : BitVec 2) (d a b : BitVec 7) : decode (encF1 0x1A#6 f g d a b) = decode1A f.toNat g d a b := by
  unfold decode
  rw [bits_encF1_26, bits_encF1_23, bits_encF1_21, bits_encF1_14, bits_encF1_7, bits_encF1_0]
  rfl

theorem decode_1C (f : BitVec 3) (g : BitVec 2) (d a b : BitVec 7) : decode (encF1 0x1C#6 f g d a b) = decode1C f.toNat g d a b := by
  unfold decode
  rw [bits_encF1_26, bits_encF1_23, bits_encF1_21, bits_encF1_14, bits_encF1_7, bits_encF1_0]
  rfl

theorem decode_1D (f : BitVec 3) (g : BitVec 2) (d a b : BitVec 7) : decode (encF1 0x1D#6 f g d a b) = decode1D f.toNat g d a b := by
  unfold decode
  rw [bits_encF1_26, bits_encF1_23, bits_encF1_21, bits_encF1_14, bits_encF1_7, bits_encF1_0]
  rfl

theorem decode_1E (f : BitVec 3) (g : BitVec 2) (d a b : BitVec 7) : decode (encF1 0x1E#6 f g d a b) = decode1E f.toNat g d a b := by
  unfold decode
  rw [bits_encF1_26, bits_encF1_23, bits_encF1_21, bits_encF1_14, bits_encF1_7, bits_encF1_0]
  rfl

theorem decode_20 (w g : BitVec 2) (d a : BitVec 7) (o : BitVec 8) : decode (encF5 0x20#6 w g d a o) = decode20 w g d a o := by
  unfold decode
  rw [bits_encF5_26, bits_encF5_24, bits_encF5_22, bits_encF5_15, bits_encF5_8, bits_encF5_0]
  rfl

theorem decode_21 (w g : BitVec 2) (d a : BitVec 7) (o : BitVec 8) : decode (encF5 0x21#6 w g d a o) = decode21 w g d a o := by
  unfold decode
  rw [bits_encF5_26, bits_encF5_24, bits_encF5_22, bits_encF5_15, bits_encF5_8, bits_encF5_0]
  rfl

theorem decode_22 (w g : BitVec 2) (d a : BitVec 7) (o : BitVec 8) : decode (encF5 0x22#6 w g d a o) = decode22 w g d a o := by
  unfold decode
  rw [bits_encF5_26, bits_encF5_24, bits_encF5_22, bits_encF5_15, bits_encF5_8, bits_encF5_0]
  rfl

theorem decode_23 (w g : BitVec 2) (d a : BitVec 7) (o : BitVec 8) : decode (encF5 0x23#6 w g d a o) = decode23 w g d a o := by
  unfold decode
  rw [bits_encF5_26, bits_encF5_24, bits_encF5_22, bits_encF5_15, bits_encF5_8, bits_encF5_0]
  rfl

theorem decode_24 (f : BitVec 3) (g : BitVec 2) (d a b : BitVec 7) : decode (encF1 0x24#6 f g d a b) = decode24 f.toNat g d a b := by
  unfold decode
  rw [bits_encF1_26, bits_encF1_23, bits_encF1_21, bits_encF1_14, bits_encF1_7, bits_encF1_0]
  rfl

theorem decode_25 (f : BitVec 3) (g : BitVec 2) (d a b : BitVec 7) : decode (encF1 0x25#6 f g d a b) = decode25 f.toNat g d a b := by
  unfold decode
  rw [bits_encF1_26, bits_encF1_23, bits_encF1_21, bits_encF1_14, bits_encF1_7, bits_encF1_0]
  rfl

theorem decode_26 (f : BitVec 3) (g : BitVec 2) (d a b : BitVec 7) : decode (encF1 0x26#6 f g d a b) = decode26 f.toNat g d a b := by
  unfold decode
  rw [bits_encF1_26, bits_encF1_23, bits_encF1_21, bits_encF1_14, bits_encF1_7, bits_encF1_0]
  rfl

theorem decode_27 (f : BitVec 3) (g : BitVec 2) (d a b : BitVec 7) : decode (encF1 0x27#6 f g d a b) = decode27 f.toNat g d a b := by
  unfold decode
  rw [bits_encF1_26, bits_encF1_23, bits_encF1_21, bits_encF1_14, bits_encF1_7, bits_encF1_0]
  rfl

theorem decode_28 (f : BitVec 6) (r : BitVec 20) : decode (encF6 0x28#6 f r) = decode28 f.toNat r := by
  unfold decode
  rw [bits_encF6_26, bits_encF6_20, bits_encF6_0]
  rfl

theorem decode_29 (f : BitVec 5) (x y z : BitVec 7) : decode (encF8 0x29#6 f x y z) = decode29 f.toNat x y z := by
  unfold decode
  rw [bits_encF8_26, bits_encF8_21, bits_encF8_14, bits_encF8_7, bits_encF8_0]
  rfl

theorem decode_2A (f : BitVec 5) (x y z : BitVec 7) : decode (encF8 0x2A#6 f x y z) = decode2A f.toNat x y z := by
  unfold decode
  rw [bits_encF8_26, bits_encF8_21, bits_encF8_14, bits_encF8_7, bits_encF8_0]
  rfl

theorem decode_2B (f : BitVec 5) (x y z : BitVec 7) : decode (encF8 0x2B#6 f x y z) = decode2B f.toNat x y z := by
  unfold decode
  rw [bits_encF8_26, bits_encF8_21, bits_encF8_14, bits_encF8_7, bits_encF8_0]
  rfl

theorem decode_2C (f : BitVec 5) (x y z : BitVec 7) : decode (encF8 0x2C#6 f x y z) = decode2C f.toNat x y z := by
  unfold decode
  rw [bits_encF8_26, bits_encF8_21, bits_encF8_14, bits_encF8_7, bits_encF8_0]
  rfl

theorem decode_2D (f : BitVec 5) (x y z : BitVec 7) : decode (encF8 0x2D#6 f x y z) = decode2D f.toNat x y z := by
  unfold decode
  rw [bits_encF8_26, bits_encF8_21, bits_encF8_14, bits_encF8_7, bits_encF8_0]
  rfl

theorem decode_30 (n : BitVec 1) (c : BitVec 3) (o : BitVec 22) : decode (encF4 0x30#6 n c o) = decode30 n c o := by
  unfold decode
  rw [bits_encF4_26, bits_encF4_25, bits_encF4_22, bits_encF4_0]
  rfl

theorem decode_31 (n : BitVec 1) (c : BitVec 3) (o : BitVec 22) : decode (encF4 0x31#6 n c o) = decode31 n c o := by
  unfold decode
  rw [bits_encF4_26, bits_encF4_25, bits_encF4_22, bits_encF4_0]
  rfl

theorem decode_32 (n : BitVec 1) (c : BitVec 3) (o : BitVec 22) : decode (encF4 0x32#6 n c o) = decode32 n c o := by
  unfold decode
  rw [bits_encF4_26, bits_encF4_25, bits_encF4_22, bits_encF4_0]
  rfl

theorem decode_33 (f : BitVec 6) (r : BitVec 20) : decode (encF6 0x33#6 f r) = decode33 f.toNat r := by
  unfold decode
  rw [bits_encF6_26, bits_encF6_20, bits_encF6_0]
  rfl

theorem decode_38 (f : BitVec 3) (g : BitVec 2) (d a b : BitVec 7) : decode (encF1 0x38#6 f g d a b) = decode38 f.toNat g d a b := by
  unfold decode
  rw [bits_encF1_26, bits_encF1_23, bits_encF1_21, bits_encF1_14, bits_encF1_7, bits_encF1_0]
  rfl

theorem decode_39 (f : BitVec 3) (g : BitVec 2) (d a b : BitVec 7) : decode (encF1 0x39#6 f g d a b) = decode39 f.toNat g d a b := by
  unfold decode
  rw [bits_encF1_26, bits_encF1_23, bits_encF1_21, bits_encF1_14, bits_encF1_7, bits_encF1_0]
  rfl

theorem decode_3A (f : BitVec 3) (g : BitVec 2) (d a b : BitVec 7) : decode (encF1 0x3A#6 f g d a b) = decode3A f.toNat g d a b := by
  unfold decode
  rw [bits_encF1_26, bits_encF1_23, bits_encF1_21, bits_encF1_14, bits_encF1_7, bits_encF1_0]
  rfl

theorem decode_3B (f : BitVec 3) (g : BitVec 2) (d a b : BitVec 7) : decode (encF1 0x3B#6 f g d a b) = decode3B f.toNat g d a b := by
  unfold decode
  rw [bits_encF1_26, bits_encF1_23, bits_encF1_21, bits_encF1_14, bits_encF1_7, bits_encF1_0]
  rfl

theorem decode_3C (s : BitVec 1) (g : BitVec 2) (d : BitVec 7) (i : BitVec 16) : decode (encF3 0x3C#6 s g d i) = decode3C s.toNat g d i := by
  unfold decode
  rw [bits_encF3_26, bits_encF3_25, bits_encF3_23, bits_encF3_16, bits_encF3_0]
  rfl

theorem decode_3D (f : BitVec 3) (g : BitVec 2) (d a b : BitVec 7) : decode (encF1 0x3D#6 f g d a b) = decode3D f.toNat g d a b := by
  unfold decode
  rw [bits_encF1_26, bits_encF1_23, bits_encF1_21, bits_encF1_14, bits_encF1_7, bits_encF1_0]
  rfl

theorem decode_3F (k : BitVec 4) (p : BitVec 22) : decode (encF7 0x3F#6 k p) = decode3F k.toNat p := by
  unfold decode
  rw [bits_encF7_26, bits_encF7_22, bits_encF7_0]
  rfl

/-! ### Fields made of parts -/

theorem part_3_3_1_0 (x0 : BitVec 3) (x1 : BitVec 3) (x2 : BitVec 1) :
    BitVec.extractLsb' (n := 7) 4 3 (x0 ++ x1 ++ x2) = x0 :=
  (extract_high (lo := 4) (k := 3) (x0 ++ x1) x2 (by decide)).trans ((extract_high (lo := 3) (k := 3) x0 x1 (by decide)).trans (extract_all x0))

theorem part_3_3_1_1 (x0 : BitVec 3) (x1 : BitVec 3) (x2 : BitVec 1) :
    BitVec.extractLsb' (n := 7) 1 3 (x0 ++ x1 ++ x2) = x1 :=
  (extract_high (lo := 1) (k := 3) (x0 ++ x1) x2 (by decide)).trans ((extract_low (lo := 0) (k := 3) x0 x1 (by decide)).trans (extract_all x1))

theorem part_3_3_1_2 (x0 : BitVec 3) (x1 : BitVec 3) (x2 : BitVec 1) :
    BitVec.extractLsb' (n := 7) 0 1 (x0 ++ x1 ++ x2) = x2 :=
  (extract_low (lo := 0) (k := 1) (x0 ++ x1) x2 (by decide)).trans (extract_all x2)

theorem part_4_3_0 (x0 : BitVec 4) (x1 : BitVec 3) :
    BitVec.extractLsb' (n := 7) 3 4 (x0 ++ x1) = x0 :=
  (extract_high (lo := 3) (k := 4) x0 x1 (by decide)).trans (extract_all x0)

theorem part_4_3_1 (x0 : BitVec 4) (x1 : BitVec 3) :
    BitVec.extractLsb' (n := 7) 0 3 (x0 ++ x1) = x1 :=
  (extract_low (lo := 0) (k := 3) x0 x1 (by decide)).trans (extract_all x1)

theorem part_2_5_0 (x0 : BitVec 2) (x1 : BitVec 5) :
    BitVec.extractLsb' (n := 7) 5 2 (x0 ++ x1) = x0 :=
  (extract_high (lo := 5) (k := 2) x0 x1 (by decide)).trans (extract_all x0)

theorem part_2_5_1 (x0 : BitVec 2) (x1 : BitVec 5) :
    BitVec.extractLsb' (n := 7) 0 5 (x0 ++ x1) = x1 :=
  (extract_low (lo := 0) (k := 5) x0 x1 (by decide)).trans (extract_all x1)

theorem part_5_2_0 (x0 : BitVec 5) (x1 : BitVec 2) :
    BitVec.extractLsb' (n := 7) 2 5 (x0 ++ x1) = x0 :=
  (extract_high (lo := 2) (k := 5) x0 x1 (by decide)).trans (extract_all x0)

theorem part_5_2_1 (x0 : BitVec 5) (x1 : BitVec 2) :
    BitVec.extractLsb' (n := 7) 0 2 (x0 ++ x1) = x1 :=
  (extract_low (lo := 0) (k := 2) x0 x1 (by decide)).trans (extract_all x1)

theorem part_3_4_13_0 (x0 : BitVec 3) (x1 : BitVec 4) (x2 : BitVec 13) :
    BitVec.extractLsb' (n := 20) 17 3 (x0 ++ x1 ++ x2) = x0 :=
  (extract_high (lo := 17) (k := 3) (x0 ++ x1) x2 (by decide)).trans ((extract_high (lo := 4) (k := 3) x0 x1 (by decide)).trans (extract_all x0))

theorem part_3_4_13_1 (x0 : BitVec 3) (x1 : BitVec 4) (x2 : BitVec 13) :
    BitVec.extractLsb' (n := 20) 13 4 (x0 ++ x1 ++ x2) = x1 :=
  (extract_high (lo := 13) (k := 4) (x0 ++ x1) x2 (by decide)).trans ((extract_low (lo := 0) (k := 4) x0 x1 (by decide)).trans (extract_all x1))

theorem part_3_4_13_2 (x0 : BitVec 3) (x1 : BitVec 4) (x2 : BitVec 13) :
    BitVec.extractLsb' (n := 20) 0 13 (x0 ++ x1 ++ x2) = x2 :=
  (extract_low (lo := 0) (k := 13) (x0 ++ x1) x2 (by decide)).trans (extract_all x2)

theorem part_3_4_3_1_2_7_0 (x0 : BitVec 3) (x1 : BitVec 4) (x2 : BitVec 3) (x3 : BitVec 1) (x4 : BitVec 2) (x5 : BitVec 7) :
    BitVec.extractLsb' (n := 20) 17 3 (x0 ++ x1 ++ x2 ++ x3 ++ x4 ++ x5) = x0 :=
  (extract_high (lo := 17) (k := 3) (x0 ++ x1 ++ x2 ++ x3 ++ x4) x5 (by decide)).trans ((extract_high (lo := 10) (k := 3) (x0 ++ x1 ++ x2 ++ x3) x4 (by decide)).trans ((extract_high (lo := 8) (k := 3) (x0 ++ x1 ++ x2) x3 (by decide)).trans ((extract_high (lo := 7) (k := 3) (x0 ++ x1) x2 (by decide)).trans ((extract_high (lo := 4) (k := 3) x0 x1 (by decide)).trans (extract_all x0)))))

theorem part_3_4_3_1_2_7_1 (x0 : BitVec 3) (x1 : BitVec 4) (x2 : BitVec 3) (x3 : BitVec 1) (x4 : BitVec 2) (x5 : BitVec 7) :
    BitVec.extractLsb' (n := 20) 13 4 (x0 ++ x1 ++ x2 ++ x3 ++ x4 ++ x5) = x1 :=
  (extract_high (lo := 13) (k := 4) (x0 ++ x1 ++ x2 ++ x3 ++ x4) x5 (by decide)).trans ((extract_high (lo := 6) (k := 4) (x0 ++ x1 ++ x2 ++ x3) x4 (by decide)).trans ((extract_high (lo := 4) (k := 4) (x0 ++ x1 ++ x2) x3 (by decide)).trans ((extract_high (lo := 3) (k := 4) (x0 ++ x1) x2 (by decide)).trans ((extract_low (lo := 0) (k := 4) x0 x1 (by decide)).trans (extract_all x1)))))

theorem part_3_4_3_1_2_7_2 (x0 : BitVec 3) (x1 : BitVec 4) (x2 : BitVec 3) (x3 : BitVec 1) (x4 : BitVec 2) (x5 : BitVec 7) :
    BitVec.extractLsb' (n := 20) 10 3 (x0 ++ x1 ++ x2 ++ x3 ++ x4 ++ x5) = x2 :=
  (extract_high (lo := 10) (k := 3) (x0 ++ x1 ++ x2 ++ x3 ++ x4) x5 (by decide)).trans ((extract_high (lo := 3) (k := 3) (x0 ++ x1 ++ x2 ++ x3) x4 (by decide)).trans ((extract_high (lo := 1) (k := 3) (x0 ++ x1 ++ x2) x3 (by decide)).trans ((extract_low (lo := 0) (k := 3) (x0 ++ x1) x2 (by decide)).trans (extract_all x2))))

theorem part_3_4_3_1_2_7_3 (x0 : BitVec 3) (x1 : BitVec 4) (x2 : BitVec 3) (x3 : BitVec 1) (x4 : BitVec 2) (x5 : BitVec 7) :
    BitVec.extractLsb' (n := 20) 9 1 (x0 ++ x1 ++ x2 ++ x3 ++ x4 ++ x5) = x3 :=
  (extract_high (lo := 9) (k := 1) (x0 ++ x1 ++ x2 ++ x3 ++ x4) x5 (by decide)).trans ((extract_high (lo := 2) (k := 1) (x0 ++ x1 ++ x2 ++ x3) x4 (by decide)).trans ((extract_low (lo := 0) (k := 1) (x0 ++ x1 ++ x2) x3 (by decide)).trans (extract_all x3)))

theorem part_3_4_3_1_2_7_4 (x0 : BitVec 3) (x1 : BitVec 4) (x2 : BitVec 3) (x3 : BitVec 1) (x4 : BitVec 2) (x5 : BitVec 7) :
    BitVec.extractLsb' (n := 20) 7 2 (x0 ++ x1 ++ x2 ++ x3 ++ x4 ++ x5) = x4 :=
  (extract_high (lo := 7) (k := 2) (x0 ++ x1 ++ x2 ++ x3 ++ x4) x5 (by decide)).trans ((extract_low (lo := 0) (k := 2) (x0 ++ x1 ++ x2 ++ x3) x4 (by decide)).trans (extract_all x4))

theorem part_3_4_3_1_2_7_5 (x0 : BitVec 3) (x1 : BitVec 4) (x2 : BitVec 3) (x3 : BitVec 1) (x4 : BitVec 2) (x5 : BitVec 7) :
    BitVec.extractLsb' (n := 20) 0 7 (x0 ++ x1 ++ x2 ++ x3 ++ x4 ++ x5) = x5 :=
  (extract_low (lo := 0) (k := 7) (x0 ++ x1 ++ x2 ++ x3 ++ x4) x5 (by decide)).trans (extract_all x5)

theorem part_1_1_2_3_0 (x0 : BitVec 1) (x1 : BitVec 1) (x2 : BitVec 2) (x3 : BitVec 3) :
    BitVec.extractLsb' (n := 7) 6 1 (x0 ++ x1 ++ x2 ++ x3) = x0 :=
  (extract_high (lo := 6) (k := 1) (x0 ++ x1 ++ x2) x3 (by decide)).trans ((extract_high (lo := 3) (k := 1) (x0 ++ x1) x2 (by decide)).trans ((extract_high (lo := 1) (k := 1) x0 x1 (by decide)).trans (extract_all x0)))

theorem part_1_1_2_3_1 (x0 : BitVec 1) (x1 : BitVec 1) (x2 : BitVec 2) (x3 : BitVec 3) :
    BitVec.extractLsb' (n := 7) 5 1 (x0 ++ x1 ++ x2 ++ x3) = x1 :=
  (extract_high (lo := 5) (k := 1) (x0 ++ x1 ++ x2) x3 (by decide)).trans ((extract_high (lo := 2) (k := 1) (x0 ++ x1) x2 (by decide)).trans ((extract_low (lo := 0) (k := 1) x0 x1 (by decide)).trans (extract_all x1)))

theorem part_1_1_2_3_2 (x0 : BitVec 1) (x1 : BitVec 1) (x2 : BitVec 2) (x3 : BitVec 3) :
    BitVec.extractLsb' (n := 7) 3 2 (x0 ++ x1 ++ x2 ++ x3) = x2 :=
  (extract_high (lo := 3) (k := 2) (x0 ++ x1 ++ x2) x3 (by decide)).trans ((extract_low (lo := 0) (k := 2) (x0 ++ x1) x2 (by decide)).trans (extract_all x2))

theorem part_1_1_2_3_3 (x0 : BitVec 1) (x1 : BitVec 1) (x2 : BitVec 2) (x3 : BitVec 3) :
    BitVec.extractLsb' (n := 7) 0 3 (x0 ++ x1 ++ x2 ++ x3) = x3 :=
  (extract_low (lo := 0) (k := 3) (x0 ++ x1 ++ x2) x3 (by decide)).trans (extract_all x3)

theorem part_1_2_0 (x0 : BitVec 1) (x1 : BitVec 2) :
    BitVec.extractLsb' (n := 3) 2 1 (x0 ++ x1) = x0 :=
  (extract_high (lo := 2) (k := 1) x0 x1 (by decide)).trans (extract_all x0)

theorem part_1_2_1 (x0 : BitVec 1) (x1 : BitVec 2) :
    BitVec.extractLsb' (n := 3) 0 2 (x0 ++ x1) = x1 :=
  (extract_low (lo := 0) (k := 2) x0 x1 (by decide)).trans (extract_all x1)

theorem part_13_7_0 (x0 : BitVec 13) (x1 : BitVec 7) :
    BitVec.extractLsb' (n := 20) 7 13 (x0 ++ x1) = x0 :=
  (extract_high (lo := 7) (k := 13) x0 x1 (by decide)).trans (extract_all x0)

theorem part_13_7_1 (x0 : BitVec 13) (x1 : BitVec 7) :
    BitVec.extractLsb' (n := 20) 0 7 (x0 ++ x1) = x1 :=
  (extract_low (lo := 0) (k := 7) x0 x1 (by decide)).trans (extract_all x1)

theorem part_8_12_0 (x0 : BitVec 8) (x1 : BitVec 12) :
    BitVec.extractLsb' (n := 20) 12 8 (x0 ++ x1) = x0 :=
  (extract_high (lo := 12) (k := 8) x0 x1 (by decide)).trans (extract_all x0)

theorem part_8_12_1 (x0 : BitVec 8) (x1 : BitVec 12) :
    BitVec.extractLsb' (n := 20) 0 12 (x0 ++ x1) = x1 :=
  (extract_low (lo := 0) (k := 12) x0 x1 (by decide)).trans (extract_all x1)

theorem part_4_16_0 (x0 : BitVec 4) (x1 : BitVec 16) :
    BitVec.extractLsb' (n := 20) 16 4 (x0 ++ x1) = x0 :=
  (extract_high (lo := 16) (k := 4) x0 x1 (by decide)).trans (extract_all x0)

theorem part_4_16_1 (x0 : BitVec 4) (x1 : BitVec 16) :
    BitVec.extractLsb' (n := 20) 0 16 (x0 ++ x1) = x1 :=
  (extract_low (lo := 0) (k := 16) x0 x1 (by decide)).trans (extract_all x1)

theorem part_18_1_3_0 (x0 : BitVec 18) (x1 : BitVec 1) (x2 : BitVec 3) :
    BitVec.extractLsb' (n := 22) 4 18 (x0 ++ x1 ++ x2) = x0 :=
  (extract_high (lo := 4) (k := 18) (x0 ++ x1) x2 (by decide)).trans ((extract_high (lo := 1) (k := 18) x0 x1 (by decide)).trans (extract_all x0))

theorem part_18_1_3_1 (x0 : BitVec 18) (x1 : BitVec 1) (x2 : BitVec 3) :
    BitVec.extractLsb' (n := 22) 3 1 (x0 ++ x1 ++ x2) = x1 :=
  (extract_high (lo := 3) (k := 1) (x0 ++ x1) x2 (by decide)).trans ((extract_low (lo := 0) (k := 1) x0 x1 (by decide)).trans (extract_all x1))

theorem part_18_1_3_2 (x0 : BitVec 18) (x1 : BitVec 1) (x2 : BitVec 3) :
    BitVec.extractLsb' (n := 22) 0 3 (x0 ++ x1 ++ x2) = x2 :=
  (extract_low (lo := 0) (k := 3) (x0 ++ x1) x2 (by decide)).trans (extract_all x2)

theorem part_19_1_1_1_0 (x0 : BitVec 19) (x1 : BitVec 1) (x2 : BitVec 1) (x3 : BitVec 1) :
    BitVec.extractLsb' (n := 22) 3 19 (x0 ++ x1 ++ x2 ++ x3) = x0 :=
  (extract_high (lo := 3) (k := 19) (x0 ++ x1 ++ x2) x3 (by decide)).trans ((extract_high (lo := 2) (k := 19) (x0 ++ x1) x2 (by decide)).trans ((extract_high (lo := 1) (k := 19) x0 x1 (by decide)).trans (extract_all x0)))

theorem part_19_1_1_1_1 (x0 : BitVec 19) (x1 : BitVec 1) (x2 : BitVec 1) (x3 : BitVec 1) :
    BitVec.extractLsb' (n := 22) 2 1 (x0 ++ x1 ++ x2 ++ x3) = x1 :=
  (extract_high (lo := 2) (k := 1) (x0 ++ x1 ++ x2) x3 (by decide)).trans ((extract_high (lo := 1) (k := 1) (x0 ++ x1) x2 (by decide)).trans ((extract_low (lo := 0) (k := 1) x0 x1 (by decide)).trans (extract_all x1)))

theorem part_19_1_1_1_2 (x0 : BitVec 19) (x1 : BitVec 1) (x2 : BitVec 1) (x3 : BitVec 1) :
    BitVec.extractLsb' (n := 22) 1 1 (x0 ++ x1 ++ x2 ++ x3) = x2 :=
  (extract_high (lo := 1) (k := 1) (x0 ++ x1 ++ x2) x3 (by decide)).trans ((extract_low (lo := 0) (k := 1) (x0 ++ x1) x2 (by decide)).trans (extract_all x2))

theorem part_19_1_1_1_3 (x0 : BitVec 19) (x1 : BitVec 1) (x2 : BitVec 1) (x3 : BitVec 1) :
    BitVec.extractLsb' (n := 22) 0 1 (x0 ++ x1 ++ x2 ++ x3) = x3 :=
  (extract_low (lo := 0) (k := 1) (x0 ++ x1 ++ x2) x3 (by decide)).trans (extract_all x3)

theorem part_15_7_0 (x0 : BitVec 15) (x1 : BitVec 7) :
    BitVec.extractLsb' (n := 22) 7 15 (x0 ++ x1) = x0 :=
  (extract_high (lo := 7) (k := 15) x0 x1 (by decide)).trans (extract_all x0)

theorem part_15_7_1 (x0 : BitVec 15) (x1 : BitVec 7) :
    BitVec.extractLsb' (n := 22) 0 7 (x0 ++ x1) = x1 :=
  (extract_low (lo := 0) (k := 7) x0 x1 (by decide)).trans (extract_all x1)

theorem part_17_5_0 (x0 : BitVec 17) (x1 : BitVec 5) :
    BitVec.extractLsb' (n := 22) 5 17 (x0 ++ x1) = x0 :=
  (extract_high (lo := 5) (k := 17) x0 x1 (by decide)).trans (extract_all x0)

theorem part_17_5_1 (x0 : BitVec 17) (x1 : BitVec 5) :
    BitVec.extractLsb' (n := 22) 0 5 (x0 ++ x1) = x1 :=
  (extract_low (lo := 0) (k := 5) x0 x1 (by decide)).trans (extract_all x1)

theorem part_17_1_1_3_0 (x0 : BitVec 17) (x1 : BitVec 1) (x2 : BitVec 1) (x3 : BitVec 3) :
    BitVec.extractLsb' (n := 22) 5 17 (x0 ++ x1 ++ x2 ++ x3) = x0 :=
  (extract_high (lo := 5) (k := 17) (x0 ++ x1 ++ x2) x3 (by decide)).trans ((extract_high (lo := 2) (k := 17) (x0 ++ x1) x2 (by decide)).trans ((extract_high (lo := 1) (k := 17) x0 x1 (by decide)).trans (extract_all x0)))

theorem part_17_1_1_3_1 (x0 : BitVec 17) (x1 : BitVec 1) (x2 : BitVec 1) (x3 : BitVec 3) :
    BitVec.extractLsb' (n := 22) 4 1 (x0 ++ x1 ++ x2 ++ x3) = x1 :=
  (extract_high (lo := 4) (k := 1) (x0 ++ x1 ++ x2) x3 (by decide)).trans ((extract_high (lo := 1) (k := 1) (x0 ++ x1) x2 (by decide)).trans ((extract_low (lo := 0) (k := 1) x0 x1 (by decide)).trans (extract_all x1)))

theorem part_17_1_1_3_2 (x0 : BitVec 17) (x1 : BitVec 1) (x2 : BitVec 1) (x3 : BitVec 3) :
    BitVec.extractLsb' (n := 22) 3 1 (x0 ++ x1 ++ x2 ++ x3) = x2 :=
  (extract_high (lo := 3) (k := 1) (x0 ++ x1 ++ x2) x3 (by decide)).trans ((extract_low (lo := 0) (k := 1) (x0 ++ x1) x2 (by decide)).trans (extract_all x2))

theorem part_17_1_1_3_3 (x0 : BitVec 17) (x1 : BitVec 1) (x2 : BitVec 1) (x3 : BitVec 3) :
    BitVec.extractLsb' (n := 22) 0 3 (x0 ++ x1 ++ x2 ++ x3) = x3 :=
  (extract_low (lo := 0) (k := 3) (x0 ++ x1 ++ x2) x3 (by decide)).trans (extract_all x3)

theorem part_17_1_4_0 (x0 : BitVec 17) (x1 : BitVec 1) (x2 : BitVec 4) :
    BitVec.extractLsb' (n := 22) 5 17 (x0 ++ x1 ++ x2) = x0 :=
  (extract_high (lo := 5) (k := 17) (x0 ++ x1) x2 (by decide)).trans ((extract_high (lo := 1) (k := 17) x0 x1 (by decide)).trans (extract_all x0))

theorem part_17_1_4_1 (x0 : BitVec 17) (x1 : BitVec 1) (x2 : BitVec 4) :
    BitVec.extractLsb' (n := 22) 4 1 (x0 ++ x1 ++ x2) = x1 :=
  (extract_high (lo := 4) (k := 1) (x0 ++ x1) x2 (by decide)).trans ((extract_low (lo := 0) (k := 1) x0 x1 (by decide)).trans (extract_all x1))

theorem part_17_1_4_2 (x0 : BitVec 17) (x1 : BitVec 1) (x2 : BitVec 4) :
    BitVec.extractLsb' (n := 22) 0 4 (x0 ++ x1 ++ x2) = x2 :=
  (extract_low (lo := 0) (k := 4) (x0 ++ x1) x2 (by decide)).trans (extract_all x2)

theorem part_19_3_0 (x0 : BitVec 19) (x1 : BitVec 3) :
    BitVec.extractLsb' (n := 22) 3 19 (x0 ++ x1) = x0 :=
  (extract_high (lo := 3) (k := 19) x0 x1 (by decide)).trans (extract_all x0)

theorem part_19_3_1 (x0 : BitVec 19) (x1 : BitVec 3) :
    BitVec.extractLsb' (n := 22) 0 3 (x0 ++ x1) = x1 :=
  (extract_low (lo := 0) (k := 3) x0 x1 (by decide)).trans (extract_all x1)

end Sys2Proof.Laws
end

