-- ==== Sys2Proof/Laws/State.lean ====
section
/-! SUPPORT. What each named update of the state leaves of each field: one lemma for each, true by unfolding, so that no
later proof unfolds a record update. -/

namespace Sys2Proof.Machine

/-! ### setWarp -/

@[simp] theorem State.setWarp_mem (s : State) (w : Nat) (W : Warp) : (s.setWarp w W).mem = s.mem := rfl
@[simp] theorem State.setWarp_poison (s : State) (w : Nat) (W : Warp) : (s.setWarp w W).poison = s.poison := rfl
@[simp] theorem State.setWarp_carve (s : State) (w : Nat) (W : Warp) : (s.setWarp w W).carve = s.carve := rfl
@[simp] theorem State.setWarp_regq (s : State) (w : Nat) (W : Warp) : (s.setWarp w W).regq = s.regq := rfl
@[simp] theorem State.setWarp_owners (s : State) (w : Nat) (W : Warp) : (s.setWarp w W).owners = s.owners := rfl
@[simp] theorem State.setWarp_dirty (s : State) (w : Nat) (W : Warp) : (s.setWarp w W).dirty = s.dirty := rfl
@[simp] theorem State.setWarp_tlb (s : State) (w : Nat) (W : Warp) : (s.setWarp w W).tlb = s.tlb := rfl
@[simp] theorem State.setWarp_remaps (s : State) (w : Nat) (W : Warp) : (s.setWarp w W).remaps = s.remaps := rfl
@[simp] theorem State.setWarp_held (s : State) (w : Nat) (W : Warp) : (s.setWarp w W).held = s.held := rfl
@[simp] theorem State.setWarp_ecc (s : State) (w : Nat) (W : Warp) : (s.setWarp w W).ecc = s.ecc := rfl
@[simp] theorem State.setWarp_retired (s : State) (w : Nat) (W : Warp) : (s.setWarp w W).retired = s.retired := rfl
@[simp] theorem State.setWarp_warps (s : State) (w : Nat) (W : Warp) : (s.setWarp w W).warps = sput s.warps w W := rfl
@[simp] theorem State.setWarp_blocks (s : State) (w : Nat) (W : Warp) : (s.setWarp w W).blocks = s.blocks := rfl
@[simp] theorem State.setWarp_groves (s : State) (w : Nat) (W : Warp) : (s.setWarp w W).groves = s.groves := rfl
@[simp] theorem State.setWarp_trails (s : State) (w : Nat) (W : Warp) : (s.setWarp w W).trails = s.trails := rfl
@[simp] theorem State.setWarp_barriers (s : State) (w : Nat) (W : Warp) : (s.setWarp w W).barriers = s.barriers := rfl
@[simp] theorem State.setWarp_subs (s : State) (w : Nat) (W : Warp) : (s.setWarp w W).subs = s.subs := rfl
@[simp] theorem State.setWarp_inflight (s : State) (w : Nat) (W : Warp) : (s.setWarp w W).inflight = s.inflight := rfl
@[simp] theorem State.setWarp_cmds (s : State) (w : Nat) (W : Warp) : (s.setWarp w W).cmds = s.cmds := rfl
@[simp] theorem State.setWarp_ops (s : State) (w : Nat) (W : Warp) : (s.setWarp w W).ops = s.ops := rfl
@[simp] theorem State.setWarp_quads (s : State) (w : Nat) (W : Warp) : (s.setWarp w W).quads = s.quads := rfl
@[simp] theorem State.setWarp_claims (s : State) (w : Nat) (W : Warp) : (s.setWarp w W).claims = s.claims := rfl
@[simp] theorem State.setWarp_saplings (s : State) (w : Nat) (W : Warp) : (s.setWarp w W).saplings = s.saplings := rfl
@[simp] theorem State.setWarp_exits (s : State) (w : Nat) (W : Warp) : (s.setWarp w W).exits = s.exits := rfl
@[simp] theorem State.setWarp_flushes (s : State) (w : Nat) (W : Warp) : (s.setWarp w W).flushes = s.flushes := rfl
@[simp] theorem State.setWarp_deliveries (s : State) (w : Nat) (W : Warp) : (s.setWarp w W).deliveries = s.deliveries := rfl
@[simp] theorem State.setWarp_holders (s : State) (w : Nat) (W : Warp) : (s.setWarp w W).holders = s.holders := rfl
@[simp] theorem State.setWarp_steps (s : State) (w : Nat) (W : Warp) : (s.setWarp w W).steps = s.steps := rfl
@[simp] theorem State.setWarp_contexts (s : State) (w : Nat) (W : Warp) : (s.setWarp w W).contexts = s.contexts := rfl
@[simp] theorem State.setWarp_tags (s : State) (w : Nat) (W : Warp) : (s.setWarp w W).tags = s.tags := rfl
@[simp] theorem State.setWarp_denials (s : State) (w : Nat) (W : Warp) : (s.setWarp w W).denials = s.denials := rfl
@[simp] theorem State.setWarp_ats (s : State) (w : Nat) (W : Warp) : (s.setWarp w W).ats = s.ats := rfl
@[simp] theorem State.setWarp_atsReq (s : State) (w : Nat) (W : Warp) : (s.setWarp w W).atsReq = s.atsReq := rfl
@[simp] theorem State.setWarp_atsInv (s : State) (w : Nat) (W : Warp) : (s.setWarp w W).atsInv = s.atsInv := rfl
@[simp] theorem State.setWarp_stands (s : State) (w : Nat) (W : Warp) : (s.setWarp w W).stands = s.stands := rfl
@[simp] theorem State.setWarp_vfs (s : State) (w : Nat) (W : Warp) : (s.setWarp w W).vfs = s.vfs := rfl
@[simp] theorem State.setWarp_counters (s : State) (w : Nat) (W : Warp) : (s.setWarp w W).counters = s.counters := rfl
@[simp] theorem State.setWarp_links (s : State) (w : Nat) (W : Warp) : (s.setWarp w W).links = s.links := rfl
@[simp] theorem State.setWarp_requests (s : State) (w : Nat) (W : Warp) : (s.setWarp w W).requests = s.requests := rfl
@[simp] theorem State.setWarp_early (s : State) (w : Nat) (W : Warp) : (s.setWarp w W).early = s.early := rfl
@[simp] theorem State.setWarp_roots (s : State) (w : Nat) (W : Warp) : (s.setWarp w W).roots = s.roots := rfl
@[simp] theorem State.setWarp_hxdev (s : State) (w : Nat) (W : Warp) : (s.setWarp w W).hxdev = s.hxdev := rfl
@[simp] theorem State.setWarp_hand (s : State) (w : Nat) (W : Warp) : (s.setWarp w W).hand = s.hand := rfl
@[simp] theorem State.setWarp_owner (s : State) (w : Nat) (W : Warp) : (s.setWarp w W).owner = s.owner := rfl
@[simp] theorem State.setWarp_frozen (s : State) (w : Nat) (W : Warp) : (s.setWarp w W).frozen = s.frozen := rfl
@[simp] theorem State.setWarp_fwErr (s : State) (w : Nat) (W : Warp) : (s.setWarp w W).fwErr = s.fwErr := rfl
@[simp] theorem State.setWarp_fwState (s : State) (w : Nat) (W : Warp) : (s.setWarp w W).fwState = s.fwState := rfl
@[simp] theorem State.setWarp_fwStage (s : State) (w : Nat) (W : Warp) : (s.setWarp w W).fwStage = s.fwStage := rfl
@[simp] theorem State.setWarp_fwBody (s : State) (w : Nat) (W : Warp) : (s.setWarp w W).fwBody = s.fwBody := rfl
@[simp] theorem State.setWarp_fwVersion (s : State) (w : Nat) (W : Warp) : (s.setWarp w W).fwVersion = s.fwVersion := rfl
@[simp] theorem State.setWarp_ltsel (s : State) (w : Nat) (W : Warp) : (s.setWarp w W).ltsel = s.ltsel := rfl
@[simp] theorem State.setWarp_life (s : State) (w : Nat) (W : Warp) : (s.setWarp w W).life = s.life := rfl
@[simp] theorem State.setWarp_lifeNext (s : State) (w : Nat) (W : Warp) : (s.setWarp w W).lifeNext = s.lifeNext := rfl
@[simp] theorem State.setWarp_droop (s : State) (w : Nat) (W : Warp) : (s.setWarp w W).droop = s.droop := rfl
@[simp] theorem State.setWarp_part (s : State) (w : Nat) (W : Warp) : (s.setWarp w W).part = s.part := rfl
@[simp] theorem State.setWarp_power (s : State) (w : Nat) (W : Warp) : (s.setWarp w W).power = s.power := rfl
@[simp] theorem State.setWarp_freeze (s : State) (w : Nat) (W : Warp) : (s.setWarp w W).freeze = s.freeze := rfl
@[simp] theorem State.setWarp_frozenMem (s : State) (w : Nat) (W : Warp) : (s.setWarp w W).frozenMem = s.frozenMem := rfl
@[simp] theorem State.setWarp_outbox (s : State) (w : Nat) (W : Warp) : (s.setWarp w W).outbox = s.outbox := rfl
@[simp] theorem State.setWarp_time (s : State) (w : Nat) (W : Warp) : (s.setWarp w W).time = s.time := rfl
@[simp] theorem State.setWarp_turns (s : State) (w : Nat) (W : Warp) : (s.setWarp w W).turns = s.turns := rfl
@[simp] theorem State.setWarp_cur (s : State) (w : Nat) (W : Warp) : (s.setWarp w W).cur = s.cur := rfl
@[simp] theorem State.setWarp_fresh (s : State) (w : Nat) (W : Warp) : (s.setWarp w W).fresh = s.fresh := rfl
@[simp] theorem State.setWarp_nextId (s : State) (w : Nat) (W : Warp) : (s.setWarp w W).nextId = s.nextId := rfl
@[simp] theorem State.setWarp_progress (s : State) (w : Nat) (W : Warp) : (s.setWarp w W).progress = s.progress := rfl

/-! ### modWarp -/

@[simp] theorem State.modWarp_mem (s : State) (w : Nat) (f : Warp → Warp) : (s.modWarp w f).mem = s.mem := rfl
@[simp] theorem State.modWarp_poison (s : State) (w : Nat) (f : Warp → Warp) : (s.modWarp w f).poison = s.poison := rfl
@[simp] theorem State.modWarp_carve (s : State) (w : Nat) (f : Warp → Warp) : (s.modWarp w f).carve = s.carve := rfl
@[simp] theorem State.modWarp_regq (s : State) (w : Nat) (f : Warp → Warp) : (s.modWarp w f).regq = s.regq := rfl
@[simp] theorem State.modWarp_owners (s : State) (w : Nat) (f : Warp → Warp) : (s.modWarp w f).owners = s.owners := rfl
@[simp] theorem State.modWarp_dirty (s : State) (w : Nat) (f : Warp → Warp) : (s.modWarp w f).dirty = s.dirty := rfl
@[simp] theorem State.modWarp_tlb (s : State) (w : Nat) (f : Warp → Warp) : (s.modWarp w f).tlb = s.tlb := rfl
@[simp] theorem State.modWarp_remaps (s : State) (w : Nat) (f : Warp → Warp) : (s.modWarp w f).remaps = s.remaps := rfl
@[simp] theorem State.modWarp_held (s : State) (w : Nat) (f : Warp → Warp) : (s.modWarp w f).held = s.held := rfl
@[simp] theorem State.modWarp_ecc (s : State) (w : Nat) (f : Warp → Warp) : (s.modWarp w f).ecc = s.ecc := rfl
@[simp] theorem State.modWarp_retired (s : State) (w : Nat) (f : Warp → Warp) : (s.modWarp w f).retired = s.retired := rfl
@[simp] theorem State.modWarp_warps (s : State) (w : Nat) (f : Warp → Warp) : (s.modWarp w f).warps = smod s.warps w f := rfl
@[simp] theorem State.modWarp_blocks (s : State) (w : Nat) (f : Warp → Warp) : (s.modWarp w f).blocks = s.blocks := rfl
@[simp] theorem State.modWarp_groves (s : State) (w : Nat) (f : Warp → Warp) : (s.modWarp w f).groves = s.groves := rfl
@[simp] theorem State.modWarp_trails (s : State) (w : Nat) (f : Warp → Warp) : (s.modWarp w f).trails = s.trails := rfl
@[simp] theorem State.modWarp_barriers (s : State) (w : Nat) (f : Warp → Warp) : (s.modWarp w f).barriers = s.barriers := rfl
@[simp] theorem State.modWarp_subs (s : State) (w : Nat) (f : Warp → Warp) : (s.modWarp w f).subs = s.subs := rfl
@[simp] theorem State.modWarp_inflight (s : State) (w : Nat) (f : Warp → Warp) : (s.modWarp w f).inflight = s.inflight := rfl
@[simp] theorem State.modWarp_cmds (s : State) (w : Nat) (f : Warp → Warp) : (s.modWarp w f).cmds = s.cmds := rfl
@[simp] theorem State.modWarp_ops (s : State) (w : Nat) (f : Warp → Warp) : (s.modWarp w f).ops = s.ops := rfl
@[simp] theorem State.modWarp_quads (s : State) (w : Nat) (f : Warp → Warp) : (s.modWarp w f).quads = s.quads := rfl
@[simp] theorem State.modWarp_claims (s : State) (w : Nat) (f : Warp → Warp) : (s.modWarp w f).claims = s.claims := rfl
@[simp] theorem State.modWarp_saplings (s : State) (w : Nat) (f : Warp → Warp) : (s.modWarp w f).saplings = s.saplings := rfl
@[simp] theorem State.modWarp_exits (s : State) (w : Nat) (f : Warp → Warp) : (s.modWarp w f).exits = s.exits := rfl
@[simp] theorem State.modWarp_flushes (s : State) (w : Nat) (f : Warp → Warp) : (s.modWarp w f).flushes = s.flushes := rfl
@[simp] theorem State.modWarp_deliveries (s : State) (w : Nat) (f : Warp → Warp) : (s.modWarp w f).deliveries = s.deliveries := rfl
@[simp] theorem State.modWarp_holders (s : State) (w : Nat) (f : Warp → Warp) : (s.modWarp w f).holders = s.holders := rfl
@[simp] theorem State.modWarp_steps (s : State) (w : Nat) (f : Warp → Warp) : (s.modWarp w f).steps = s.steps := rfl
@[simp] theorem State.modWarp_contexts (s : State) (w : Nat) (f : Warp → Warp) : (s.modWarp w f).contexts = s.contexts := rfl
@[simp] theorem State.modWarp_tags (s : State) (w : Nat) (f : Warp → Warp) : (s.modWarp w f).tags = s.tags := rfl
@[simp] theorem State.modWarp_denials (s : State) (w : Nat) (f : Warp → Warp) : (s.modWarp w f).denials = s.denials := rfl
@[simp] theorem State.modWarp_ats (s : State) (w : Nat) (f : Warp → Warp) : (s.modWarp w f).ats = s.ats := rfl
@[simp] theorem State.modWarp_atsReq (s : State) (w : Nat) (f : Warp → Warp) : (s.modWarp w f).atsReq = s.atsReq := rfl
@[simp] theorem State.modWarp_atsInv (s : State) (w : Nat) (f : Warp → Warp) : (s.modWarp w f).atsInv = s.atsInv := rfl
@[simp] theorem State.modWarp_stands (s : State) (w : Nat) (f : Warp → Warp) : (s.modWarp w f).stands = s.stands := rfl
@[simp] theorem State.modWarp_vfs (s : State) (w : Nat) (f : Warp → Warp) : (s.modWarp w f).vfs = s.vfs := rfl
@[simp] theorem State.modWarp_counters (s : State) (w : Nat) (f : Warp → Warp) : (s.modWarp w f).counters = s.counters := rfl
@[simp] theorem State.modWarp_links (s : State) (w : Nat) (f : Warp → Warp) : (s.modWarp w f).links = s.links := rfl
@[simp] theorem State.modWarp_requests (s : State) (w : Nat) (f : Warp → Warp) : (s.modWarp w f).requests = s.requests := rfl
@[simp] theorem State.modWarp_early (s : State) (w : Nat) (f : Warp → Warp) : (s.modWarp w f).early = s.early := rfl
@[simp] theorem State.modWarp_roots (s : State) (w : Nat) (f : Warp → Warp) : (s.modWarp w f).roots = s.roots := rfl
@[simp] theorem State.modWarp_hxdev (s : State) (w : Nat) (f : Warp → Warp) : (s.modWarp w f).hxdev = s.hxdev := rfl
@[simp] theorem State.modWarp_hand (s : State) (w : Nat) (f : Warp → Warp) : (s.modWarp w f).hand = s.hand := rfl
@[simp] theorem State.modWarp_owner (s : State) (w : Nat) (f : Warp → Warp) : (s.modWarp w f).owner = s.owner := rfl
@[simp] theorem State.modWarp_frozen (s : State) (w : Nat) (f : Warp → Warp) : (s.modWarp w f).frozen = s.frozen := rfl
@[simp] theorem State.modWarp_fwErr (s : State) (w : Nat) (f : Warp → Warp) : (s.modWarp w f).fwErr = s.fwErr := rfl
@[simp] theorem State.modWarp_fwState (s : State) (w : Nat) (f : Warp → Warp) : (s.modWarp w f).fwState = s.fwState := rfl
@[simp] theorem State.modWarp_fwStage (s : State) (w : Nat) (f : Warp → Warp) : (s.modWarp w f).fwStage = s.fwStage := rfl
@[simp] theorem State.modWarp_fwBody (s : State) (w : Nat) (f : Warp → Warp) : (s.modWarp w f).fwBody = s.fwBody := rfl
@[simp] theorem State.modWarp_fwVersion (s : State) (w : Nat) (f : Warp → Warp) : (s.modWarp w f).fwVersion = s.fwVersion := rfl
@[simp] theorem State.modWarp_ltsel (s : State) (w : Nat) (f : Warp → Warp) : (s.modWarp w f).ltsel = s.ltsel := rfl
@[simp] theorem State.modWarp_life (s : State) (w : Nat) (f : Warp → Warp) : (s.modWarp w f).life = s.life := rfl
@[simp] theorem State.modWarp_lifeNext (s : State) (w : Nat) (f : Warp → Warp) : (s.modWarp w f).lifeNext = s.lifeNext := rfl
@[simp] theorem State.modWarp_droop (s : State) (w : Nat) (f : Warp → Warp) : (s.modWarp w f).droop = s.droop := rfl
@[simp] theorem State.modWarp_part (s : State) (w : Nat) (f : Warp → Warp) : (s.modWarp w f).part = s.part := rfl
@[simp] theorem State.modWarp_power (s : State) (w : Nat) (f : Warp → Warp) : (s.modWarp w f).power = s.power := rfl
@[simp] theorem State.modWarp_freeze (s : State) (w : Nat) (f : Warp → Warp) : (s.modWarp w f).freeze = s.freeze := rfl
@[simp] theorem State.modWarp_frozenMem (s : State) (w : Nat) (f : Warp → Warp) : (s.modWarp w f).frozenMem = s.frozenMem := rfl
@[simp] theorem State.modWarp_outbox (s : State) (w : Nat) (f : Warp → Warp) : (s.modWarp w f).outbox = s.outbox := rfl
@[simp] theorem State.modWarp_time (s : State) (w : Nat) (f : Warp → Warp) : (s.modWarp w f).time = s.time := rfl
@[simp] theorem State.modWarp_turns (s : State) (w : Nat) (f : Warp → Warp) : (s.modWarp w f).turns = s.turns := rfl
@[simp] theorem State.modWarp_cur (s : State) (w : Nat) (f : Warp → Warp) : (s.modWarp w f).cur = s.cur := rfl
@[simp] theorem State.modWarp_fresh (s : State) (w : Nat) (f : Warp → Warp) : (s.modWarp w f).fresh = s.fresh := rfl
@[simp] theorem State.modWarp_nextId (s : State) (w : Nat) (f : Warp → Warp) : (s.modWarp w f).nextId = s.nextId := rfl
@[simp] theorem State.modWarp_progress (s : State) (w : Nat) (f : Warp → Warp) : (s.modWarp w f).progress = s.progress := rfl

/-! ### modBlock -/

@[simp] theorem State.modBlock_mem (s : State) (b : Nat) (f : Block → Block) : (s.modBlock b f).mem = s.mem := rfl
@[simp] theorem State.modBlock_poison (s : State) (b : Nat) (f : Block → Block) : (s.modBlock b f).poison = s.poison := rfl
@[simp] theorem State.modBlock_carve (s : State) (b : Nat) (f : Block → Block) : (s.modBlock b f).carve = s.carve := rfl
@[simp] theorem State.modBlock_regq (s : State) (b : Nat) (f : Block → Block) : (s.modBlock b f).regq = s.regq := rfl
@[simp] theorem State.modBlock_owners (s : State) (b : Nat) (f : Block → Block) : (s.modBlock b f).owners = s.owners := rfl
@[simp] theorem State.modBlock_dirty (s : State) (b : Nat) (f : Block → Block) : (s.modBlock b f).dirty = s.dirty := rfl
@[simp] theorem State.modBlock_tlb (s : State) (b : Nat) (f : Block → Block) : (s.modBlock b f).tlb = s.tlb := rfl
@[simp] theorem State.modBlock_remaps (s : State) (b : Nat) (f : Block → Block) : (s.modBlock b f).remaps = s.remaps := rfl
@[simp] theorem State.modBlock_held (s : State) (b : Nat) (f : Block → Block) : (s.modBlock b f).held = s.held := rfl
@[simp] theorem State.modBlock_ecc (s : State) (b : Nat) (f : Block → Block) : (s.modBlock b f).ecc = s.ecc := rfl
@[simp] theorem State.modBlock_retired (s : State) (b : Nat) (f : Block → Block) : (s.modBlock b f).retired = s.retired := rfl
@[simp] theorem State.modBlock_warps (s : State) (b : Nat) (f : Block → Block) : (s.modBlock b f).warps = s.warps := rfl
@[simp] theorem State.modBlock_blocks (s : State) (b : Nat) (f : Block → Block) : (s.modBlock b f).blocks = smod s.blocks b f := rfl
@[simp] theorem State.modBlock_groves (s : State) (b : Nat) (f : Block → Block) : (s.modBlock b f).groves = s.groves := rfl
@[simp] theorem State.modBlock_trails (s : State) (b : Nat) (f : Block → Block) : (s.modBlock b f).trails = s.trails := rfl
@[simp] theorem State.modBlock_barriers (s : State) (b : Nat) (f : Block → Block) : (s.modBlock b f).barriers = s.barriers := rfl
@[simp] theorem State.modBlock_subs (s : State) (b : Nat) (f : Block → Block) : (s.modBlock b f).subs = s.subs := rfl
@[simp] theorem State.modBlock_inflight (s : State) (b : Nat) (f : Block → Block) : (s.modBlock b f).inflight = s.inflight := rfl
@[simp] theorem State.modBlock_cmds (s : State) (b : Nat) (f : Block → Block) : (s.modBlock b f).cmds = s.cmds := rfl
@[simp] theorem State.modBlock_ops (s : State) (b : Nat) (f : Block → Block) : (s.modBlock b f).ops = s.ops := rfl
@[simp] theorem State.modBlock_quads (s : State) (b : Nat) (f : Block → Block) : (s.modBlock b f).quads = s.quads := rfl
@[simp] theorem State.modBlock_claims (s : State) (b : Nat) (f : Block → Block) : (s.modBlock b f).claims = s.claims := rfl
@[simp] theorem State.modBlock_saplings (s : State) (b : Nat) (f : Block → Block) : (s.modBlock b f).saplings = s.saplings := rfl
@[simp] theorem State.modBlock_exits (s : State) (b : Nat) (f : Block → Block) : (s.modBlock b f).exits = s.exits := rfl
@[simp] theorem State.modBlock_flushes (s : State) (b : Nat) (f : Block → Block) : (s.modBlock b f).flushes = s.flushes := rfl
@[simp] theorem State.modBlock_deliveries (s : State) (b : Nat) (f : Block → Block) : (s.modBlock b f).deliveries = s.deliveries := rfl
@[simp] theorem State.modBlock_holders (s : State) (b : Nat) (f : Block → Block) : (s.modBlock b f).holders = s.holders := rfl
@[simp] theorem State.modBlock_steps (s : State) (b : Nat) (f : Block → Block) : (s.modBlock b f).steps = s.steps := rfl
@[simp] theorem State.modBlock_contexts (s : State) (b : Nat) (f : Block → Block) : (s.modBlock b f).contexts = s.contexts := rfl
@[simp] theorem State.modBlock_tags (s : State) (b : Nat) (f : Block → Block) : (s.modBlock b f).tags = s.tags := rfl
@[simp] theorem State.modBlock_denials (s : State) (b : Nat) (f : Block → Block) : (s.modBlock b f).denials = s.denials := rfl
@[simp] theorem State.modBlock_ats (s : State) (b : Nat) (f : Block → Block) : (s.modBlock b f).ats = s.ats := rfl
@[simp] theorem State.modBlock_atsReq (s : State) (b : Nat) (f : Block → Block) : (s.modBlock b f).atsReq = s.atsReq := rfl
@[simp] theorem State.modBlock_atsInv (s : State) (b : Nat) (f : Block → Block) : (s.modBlock b f).atsInv = s.atsInv := rfl
@[simp] theorem State.modBlock_stands (s : State) (b : Nat) (f : Block → Block) : (s.modBlock b f).stands = s.stands := rfl
@[simp] theorem State.modBlock_vfs (s : State) (b : Nat) (f : Block → Block) : (s.modBlock b f).vfs = s.vfs := rfl
@[simp] theorem State.modBlock_counters (s : State) (b : Nat) (f : Block → Block) : (s.modBlock b f).counters = s.counters := rfl
@[simp] theorem State.modBlock_links (s : State) (b : Nat) (f : Block → Block) : (s.modBlock b f).links = s.links := rfl
@[simp] theorem State.modBlock_requests (s : State) (b : Nat) (f : Block → Block) : (s.modBlock b f).requests = s.requests := rfl
@[simp] theorem State.modBlock_early (s : State) (b : Nat) (f : Block → Block) : (s.modBlock b f).early = s.early := rfl
@[simp] theorem State.modBlock_roots (s : State) (b : Nat) (f : Block → Block) : (s.modBlock b f).roots = s.roots := rfl
@[simp] theorem State.modBlock_hxdev (s : State) (b : Nat) (f : Block → Block) : (s.modBlock b f).hxdev = s.hxdev := rfl
@[simp] theorem State.modBlock_hand (s : State) (b : Nat) (f : Block → Block) : (s.modBlock b f).hand = s.hand := rfl
@[simp] theorem State.modBlock_owner (s : State) (b : Nat) (f : Block → Block) : (s.modBlock b f).owner = s.owner := rfl
@[simp] theorem State.modBlock_frozen (s : State) (b : Nat) (f : Block → Block) : (s.modBlock b f).frozen = s.frozen := rfl
@[simp] theorem State.modBlock_fwErr (s : State) (b : Nat) (f : Block → Block) : (s.modBlock b f).fwErr = s.fwErr := rfl
@[simp] theorem State.modBlock_fwState (s : State) (b : Nat) (f : Block → Block) : (s.modBlock b f).fwState = s.fwState := rfl
@[simp] theorem State.modBlock_fwStage (s : State) (b : Nat) (f : Block → Block) : (s.modBlock b f).fwStage = s.fwStage := rfl
@[simp] theorem State.modBlock_fwBody (s : State) (b : Nat) (f : Block → Block) : (s.modBlock b f).fwBody = s.fwBody := rfl
@[simp] theorem State.modBlock_fwVersion (s : State) (b : Nat) (f : Block → Block) : (s.modBlock b f).fwVersion = s.fwVersion := rfl
@[simp] theorem State.modBlock_ltsel (s : State) (b : Nat) (f : Block → Block) : (s.modBlock b f).ltsel = s.ltsel := rfl
@[simp] theorem State.modBlock_life (s : State) (b : Nat) (f : Block → Block) : (s.modBlock b f).life = s.life := rfl
@[simp] theorem State.modBlock_lifeNext (s : State) (b : Nat) (f : Block → Block) : (s.modBlock b f).lifeNext = s.lifeNext := rfl
@[simp] theorem State.modBlock_droop (s : State) (b : Nat) (f : Block → Block) : (s.modBlock b f).droop = s.droop := rfl
@[simp] theorem State.modBlock_part (s : State) (b : Nat) (f : Block → Block) : (s.modBlock b f).part = s.part := rfl
@[simp] theorem State.modBlock_power (s : State) (b : Nat) (f : Block → Block) : (s.modBlock b f).power = s.power := rfl
@[simp] theorem State.modBlock_freeze (s : State) (b : Nat) (f : Block → Block) : (s.modBlock b f).freeze = s.freeze := rfl
@[simp] theorem State.modBlock_frozenMem (s : State) (b : Nat) (f : Block → Block) : (s.modBlock b f).frozenMem = s.frozenMem := rfl
@[simp] theorem State.modBlock_outbox (s : State) (b : Nat) (f : Block → Block) : (s.modBlock b f).outbox = s.outbox := rfl
@[simp] theorem State.modBlock_time (s : State) (b : Nat) (f : Block → Block) : (s.modBlock b f).time = s.time := rfl
@[simp] theorem State.modBlock_turns (s : State) (b : Nat) (f : Block → Block) : (s.modBlock b f).turns = s.turns := rfl
@[simp] theorem State.modBlock_cur (s : State) (b : Nat) (f : Block → Block) : (s.modBlock b f).cur = s.cur := rfl
@[simp] theorem State.modBlock_fresh (s : State) (b : Nat) (f : Block → Block) : (s.modBlock b f).fresh = s.fresh := rfl
@[simp] theorem State.modBlock_nextId (s : State) (b : Nat) (f : Block → Block) : (s.modBlock b f).nextId = s.nextId := rfl
@[simp] theorem State.modBlock_progress (s : State) (b : Nat) (f : Block → Block) : (s.modBlock b f).progress = s.progress := rfl

/-! ### modGrove -/

@[simp] theorem State.modGrove_mem (s : State) (g : Nat) (f : Grove → Grove) : (s.modGrove g f).mem = s.mem := rfl
@[simp] theorem State.modGrove_poison (s : State) (g : Nat) (f : Grove → Grove) : (s.modGrove g f).poison = s.poison := rfl
@[simp] theorem State.modGrove_carve (s : State) (g : Nat) (f : Grove → Grove) : (s.modGrove g f).carve = s.carve := rfl
@[simp] theorem State.modGrove_regq (s : State) (g : Nat) (f : Grove → Grove) : (s.modGrove g f).regq = s.regq := rfl
@[simp] theorem State.modGrove_owners (s : State) (g : Nat) (f : Grove → Grove) : (s.modGrove g f).owners = s.owners := rfl
@[simp] theorem State.modGrove_dirty (s : State) (g : Nat) (f : Grove → Grove) : (s.modGrove g f).dirty = s.dirty := rfl
@[simp] theorem State.modGrove_tlb (s : State) (g : Nat) (f : Grove → Grove) : (s.modGrove g f).tlb = s.tlb := rfl
@[simp] theorem State.modGrove_remaps (s : State) (g : Nat) (f : Grove → Grove) : (s.modGrove g f).remaps = s.remaps := rfl
@[simp] theorem State.modGrove_held (s : State) (g : Nat) (f : Grove → Grove) : (s.modGrove g f).held = s.held := rfl
@[simp] theorem State.modGrove_ecc (s : State) (g : Nat) (f : Grove → Grove) : (s.modGrove g f).ecc = s.ecc := rfl
@[simp] theorem State.modGrove_retired (s : State) (g : Nat) (f : Grove → Grove) : (s.modGrove g f).retired = s.retired := rfl
@[simp] theorem State.modGrove_warps (s : State) (g : Nat) (f : Grove → Grove) : (s.modGrove g f).warps = s.warps := rfl
@[simp] theorem State.modGrove_blocks (s : State) (g : Nat) (f : Grove → Grove) : (s.modGrove g f).blocks = s.blocks := rfl
@[simp] theorem State.modGrove_groves (s : State) (g : Nat) (f : Grove → Grove) : (s.modGrove g f).groves = smod s.groves g f := rfl
@[simp] theorem State.modGrove_trails (s : State) (g : Nat) (f : Grove → Grove) : (s.modGrove g f).trails = s.trails := rfl
@[simp] theorem State.modGrove_barriers (s : State) (g : Nat) (f : Grove → Grove) : (s.modGrove g f).barriers = s.barriers := rfl
@[simp] theorem State.modGrove_subs (s : State) (g : Nat) (f : Grove → Grove) : (s.modGrove g f).subs = s.subs := rfl
@[simp] theorem State.modGrove_inflight (s : State) (g : Nat) (f : Grove → Grove) : (s.modGrove g f).inflight = s.inflight := rfl
@[simp] theorem State.modGrove_cmds (s : State) (g : Nat) (f : Grove → Grove) : (s.modGrove g f).cmds = s.cmds := rfl
@[simp] theorem State.modGrove_ops (s : State) (g : Nat) (f : Grove → Grove) : (s.modGrove g f).ops = s.ops := rfl
@[simp] theorem State.modGrove_quads (s : State) (g : Nat) (f : Grove → Grove) : (s.modGrove g f).quads = s.quads := rfl
@[simp] theorem State.modGrove_claims (s : State) (g : Nat) (f : Grove → Grove) : (s.modGrove g f).claims = s.claims := rfl
@[simp] theorem State.modGrove_saplings (s : State) (g : Nat) (f : Grove → Grove) : (s.modGrove g f).saplings = s.saplings := rfl
@[simp] theorem State.modGrove_exits (s : State) (g : Nat) (f : Grove → Grove) : (s.modGrove g f).exits = s.exits := rfl
@[simp] theorem State.modGrove_flushes (s : State) (g : Nat) (f : Grove → Grove) : (s.modGrove g f).flushes = s.flushes := rfl
@[simp] theorem State.modGrove_deliveries (s : State) (g : Nat) (f : Grove → Grove) : (s.modGrove g f).deliveries = s.deliveries := rfl
@[simp] theorem State.modGrove_holders (s : State) (g : Nat) (f : Grove → Grove) : (s.modGrove g f).holders = s.holders := rfl
@[simp] theorem State.modGrove_steps (s : State) (g : Nat) (f : Grove → Grove) : (s.modGrove g f).steps = s.steps := rfl
@[simp] theorem State.modGrove_contexts (s : State) (g : Nat) (f : Grove → Grove) : (s.modGrove g f).contexts = s.contexts := rfl
@[simp] theorem State.modGrove_tags (s : State) (g : Nat) (f : Grove → Grove) : (s.modGrove g f).tags = s.tags := rfl
@[simp] theorem State.modGrove_denials (s : State) (g : Nat) (f : Grove → Grove) : (s.modGrove g f).denials = s.denials := rfl
@[simp] theorem State.modGrove_ats (s : State) (g : Nat) (f : Grove → Grove) : (s.modGrove g f).ats = s.ats := rfl
@[simp] theorem State.modGrove_atsReq (s : State) (g : Nat) (f : Grove → Grove) : (s.modGrove g f).atsReq = s.atsReq := rfl
@[simp] theorem State.modGrove_atsInv (s : State) (g : Nat) (f : Grove → Grove) : (s.modGrove g f).atsInv = s.atsInv := rfl
@[simp] theorem State.modGrove_stands (s : State) (g : Nat) (f : Grove → Grove) : (s.modGrove g f).stands = s.stands := rfl
@[simp] theorem State.modGrove_vfs (s : State) (g : Nat) (f : Grove → Grove) : (s.modGrove g f).vfs = s.vfs := rfl
@[simp] theorem State.modGrove_counters (s : State) (g : Nat) (f : Grove → Grove) : (s.modGrove g f).counters = s.counters := rfl
@[simp] theorem State.modGrove_links (s : State) (g : Nat) (f : Grove → Grove) : (s.modGrove g f).links = s.links := rfl
@[simp] theorem State.modGrove_requests (s : State) (g : Nat) (f : Grove → Grove) : (s.modGrove g f).requests = s.requests := rfl
@[simp] theorem State.modGrove_early (s : State) (g : Nat) (f : Grove → Grove) : (s.modGrove g f).early = s.early := rfl
@[simp] theorem State.modGrove_roots (s : State) (g : Nat) (f : Grove → Grove) : (s.modGrove g f).roots = s.roots := rfl
@[simp] theorem State.modGrove_hxdev (s : State) (g : Nat) (f : Grove → Grove) : (s.modGrove g f).hxdev = s.hxdev := rfl
@[simp] theorem State.modGrove_hand (s : State) (g : Nat) (f : Grove → Grove) : (s.modGrove g f).hand = s.hand := rfl
@[simp] theorem State.modGrove_owner (s : State) (g : Nat) (f : Grove → Grove) : (s.modGrove g f).owner = s.owner := rfl
@[simp] theorem State.modGrove_frozen (s : State) (g : Nat) (f : Grove → Grove) : (s.modGrove g f).frozen = s.frozen := rfl
@[simp] theorem State.modGrove_fwErr (s : State) (g : Nat) (f : Grove → Grove) : (s.modGrove g f).fwErr = s.fwErr := rfl
@[simp] theorem State.modGrove_fwState (s : State) (g : Nat) (f : Grove → Grove) : (s.modGrove g f).fwState = s.fwState := rfl
@[simp] theorem State.modGrove_fwStage (s : State) (g : Nat) (f : Grove → Grove) : (s.modGrove g f).fwStage = s.fwStage := rfl
@[simp] theorem State.modGrove_fwBody (s : State) (g : Nat) (f : Grove → Grove) : (s.modGrove g f).fwBody = s.fwBody := rfl
@[simp] theorem State.modGrove_fwVersion (s : State) (g : Nat) (f : Grove → Grove) : (s.modGrove g f).fwVersion = s.fwVersion := rfl
@[simp] theorem State.modGrove_ltsel (s : State) (g : Nat) (f : Grove → Grove) : (s.modGrove g f).ltsel = s.ltsel := rfl
@[simp] theorem State.modGrove_life (s : State) (g : Nat) (f : Grove → Grove) : (s.modGrove g f).life = s.life := rfl
@[simp] theorem State.modGrove_lifeNext (s : State) (g : Nat) (f : Grove → Grove) : (s.modGrove g f).lifeNext = s.lifeNext := rfl
@[simp] theorem State.modGrove_droop (s : State) (g : Nat) (f : Grove → Grove) : (s.modGrove g f).droop = s.droop := rfl
@[simp] theorem State.modGrove_part (s : State) (g : Nat) (f : Grove → Grove) : (s.modGrove g f).part = s.part := rfl
@[simp] theorem State.modGrove_power (s : State) (g : Nat) (f : Grove → Grove) : (s.modGrove g f).power = s.power := rfl
@[simp] theorem State.modGrove_freeze (s : State) (g : Nat) (f : Grove → Grove) : (s.modGrove g f).freeze = s.freeze := rfl
@[simp] theorem State.modGrove_frozenMem (s : State) (g : Nat) (f : Grove → Grove) : (s.modGrove g f).frozenMem = s.frozenMem := rfl
@[simp] theorem State.modGrove_outbox (s : State) (g : Nat) (f : Grove → Grove) : (s.modGrove g f).outbox = s.outbox := rfl
@[simp] theorem State.modGrove_time (s : State) (g : Nat) (f : Grove → Grove) : (s.modGrove g f).time = s.time := rfl
@[simp] theorem State.modGrove_turns (s : State) (g : Nat) (f : Grove → Grove) : (s.modGrove g f).turns = s.turns := rfl
@[simp] theorem State.modGrove_cur (s : State) (g : Nat) (f : Grove → Grove) : (s.modGrove g f).cur = s.cur := rfl
@[simp] theorem State.modGrove_fresh (s : State) (g : Nat) (f : Grove → Grove) : (s.modGrove g f).fresh = s.fresh := rfl
@[simp] theorem State.modGrove_nextId (s : State) (g : Nat) (f : Grove → Grove) : (s.modGrove g f).nextId = s.nextId := rfl
@[simp] theorem State.modGrove_progress (s : State) (g : Nat) (f : Grove → Grove) : (s.modGrove g f).progress = s.progress := rfl

/-! ### setContext -/

@[simp] theorem State.setContext_mem (s : State) (n : Nat) (c : Context) : (s.setContext n c).mem = s.mem := rfl
@[simp] theorem State.setContext_poison (s : State) (n : Nat) (c : Context) : (s.setContext n c).poison = s.poison := rfl
@[simp] theorem State.setContext_carve (s : State) (n : Nat) (c : Context) : (s.setContext n c).carve = s.carve := rfl
@[simp] theorem State.setContext_regq (s : State) (n : Nat) (c : Context) : (s.setContext n c).regq = s.regq := rfl
@[simp] theorem State.setContext_owners (s : State) (n : Nat) (c : Context) : (s.setContext n c).owners = s.owners := rfl
@[simp] theorem State.setContext_dirty (s : State) (n : Nat) (c : Context) : (s.setContext n c).dirty = s.dirty := rfl
@[simp] theorem State.setContext_tlb (s : State) (n : Nat) (c : Context) : (s.setContext n c).tlb = s.tlb := rfl
@[simp] theorem State.setContext_remaps (s : State) (n : Nat) (c : Context) : (s.setContext n c).remaps = s.remaps := rfl
@[simp] theorem State.setContext_held (s : State) (n : Nat) (c : Context) : (s.setContext n c).held = s.held := rfl
@[simp] theorem State.setContext_ecc (s : State) (n : Nat) (c : Context) : (s.setContext n c).ecc = s.ecc := rfl
@[simp] theorem State.setContext_retired (s : State) (n : Nat) (c : Context) : (s.setContext n c).retired = s.retired := rfl
@[simp] theorem State.setContext_warps (s : State) (n : Nat) (c : Context) : (s.setContext n c).warps = s.warps := rfl
@[simp] theorem State.setContext_blocks (s : State) (n : Nat) (c : Context) : (s.setContext n c).blocks = s.blocks := rfl
@[simp] theorem State.setContext_groves (s : State) (n : Nat) (c : Context) : (s.setContext n c).groves = s.groves := rfl
@[simp] theorem State.setContext_trails (s : State) (n : Nat) (c : Context) : (s.setContext n c).trails = s.trails := rfl
@[simp] theorem State.setContext_barriers (s : State) (n : Nat) (c : Context) : (s.setContext n c).barriers = s.barriers := rfl
@[simp] theorem State.setContext_subs (s : State) (n : Nat) (c : Context) : (s.setContext n c).subs = s.subs := rfl
@[simp] theorem State.setContext_inflight (s : State) (n : Nat) (c : Context) : (s.setContext n c).inflight = s.inflight := rfl
@[simp] theorem State.setContext_cmds (s : State) (n : Nat) (c : Context) : (s.setContext n c).cmds = s.cmds := rfl
@[simp] theorem State.setContext_ops (s : State) (n : Nat) (c : Context) : (s.setContext n c).ops = s.ops := rfl
@[simp] theorem State.setContext_quads (s : State) (n : Nat) (c : Context) : (s.setContext n c).quads = s.quads := rfl
@[simp] theorem State.setContext_claims (s : State) (n : Nat) (c : Context) : (s.setContext n c).claims = s.claims := rfl
@[simp] theorem State.setContext_saplings (s : State) (n : Nat) (c : Context) : (s.setContext n c).saplings = s.saplings := rfl
@[simp] theorem State.setContext_exits (s : State) (n : Nat) (c : Context) : (s.setContext n c).exits = s.exits := rfl
@[simp] theorem State.setContext_flushes (s : State) (n : Nat) (c : Context) : (s.setContext n c).flushes = s.flushes := rfl
@[simp] theorem State.setContext_deliveries (s : State) (n : Nat) (c : Context) : (s.setContext n c).deliveries = s.deliveries := rfl
@[simp] theorem State.setContext_holders (s : State) (n : Nat) (c : Context) : (s.setContext n c).holders = s.holders := rfl
@[simp] theorem State.setContext_steps (s : State) (n : Nat) (c : Context) : (s.setContext n c).steps = s.steps := rfl
@[simp] theorem State.setContext_contexts (s : State) (n : Nat) (c : Context) : (s.setContext n c).contexts = sput s.contexts n c := rfl
@[simp] theorem State.setContext_tags (s : State) (n : Nat) (c : Context) : (s.setContext n c).tags = s.tags := rfl
@[simp] theorem State.setContext_denials (s : State) (n : Nat) (c : Context) : (s.setContext n c).denials = s.denials := rfl
@[simp] theorem State.setContext_ats (s : State) (n : Nat) (c : Context) : (s.setContext n c).ats = s.ats := rfl
@[simp] theorem State.setContext_atsReq (s : State) (n : Nat) (c : Context) : (s.setContext n c).atsReq = s.atsReq := rfl
@[simp] theorem State.setContext_atsInv (s : State) (n : Nat) (c : Context) : (s.setContext n c).atsInv = s.atsInv := rfl
@[simp] theorem State.setContext_stands (s : State) (n : Nat) (c : Context) : (s.setContext n c).stands = s.stands := rfl
@[simp] theorem State.setContext_vfs (s : State) (n : Nat) (c : Context) : (s.setContext n c).vfs = s.vfs := rfl
@[simp] theorem State.setContext_counters (s : State) (n : Nat) (c : Context) : (s.setContext n c).counters = s.counters := rfl
@[simp] theorem State.setContext_links (s : State) (n : Nat) (c : Context) : (s.setContext n c).links = s.links := rfl
@[simp] theorem State.setContext_requests (s : State) (n : Nat) (c : Context) : (s.setContext n c).requests = s.requests := rfl
@[simp] theorem State.setContext_early (s : State) (n : Nat) (c : Context) : (s.setContext n c).early = s.early := rfl
@[simp] theorem State.setContext_roots (s : State) (n : Nat) (c : Context) : (s.setContext n c).roots = s.roots := rfl
@[simp] theorem State.setContext_hxdev (s : State) (n : Nat) (c : Context) : (s.setContext n c).hxdev = s.hxdev := rfl
@[simp] theorem State.setContext_hand (s : State) (n : Nat) (c : Context) : (s.setContext n c).hand = s.hand := rfl
@[simp] theorem State.setContext_owner (s : State) (n : Nat) (c : Context) : (s.setContext n c).owner = s.owner := rfl
@[simp] theorem State.setContext_frozen (s : State) (n : Nat) (c : Context) : (s.setContext n c).frozen = s.frozen := rfl
@[simp] theorem State.setContext_fwErr (s : State) (n : Nat) (c : Context) : (s.setContext n c).fwErr = s.fwErr := rfl
@[simp] theorem State.setContext_fwState (s : State) (n : Nat) (c : Context) : (s.setContext n c).fwState = s.fwState := rfl
@[simp] theorem State.setContext_fwStage (s : State) (n : Nat) (c : Context) : (s.setContext n c).fwStage = s.fwStage := rfl
@[simp] theorem State.setContext_fwBody (s : State) (n : Nat) (c : Context) : (s.setContext n c).fwBody = s.fwBody := rfl
@[simp] theorem State.setContext_fwVersion (s : State) (n : Nat) (c : Context) : (s.setContext n c).fwVersion = s.fwVersion := rfl
@[simp] theorem State.setContext_ltsel (s : State) (n : Nat) (c : Context) : (s.setContext n c).ltsel = s.ltsel := rfl
@[simp] theorem State.setContext_life (s : State) (n : Nat) (c : Context) : (s.setContext n c).life = s.life := rfl
@[simp] theorem State.setContext_lifeNext (s : State) (n : Nat) (c : Context) : (s.setContext n c).lifeNext = s.lifeNext := rfl
@[simp] theorem State.setContext_droop (s : State) (n : Nat) (c : Context) : (s.setContext n c).droop = s.droop := rfl
@[simp] theorem State.setContext_part (s : State) (n : Nat) (c : Context) : (s.setContext n c).part = s.part := rfl
@[simp] theorem State.setContext_power (s : State) (n : Nat) (c : Context) : (s.setContext n c).power = s.power := rfl
@[simp] theorem State.setContext_freeze (s : State) (n : Nat) (c : Context) : (s.setContext n c).freeze = s.freeze := rfl
@[simp] theorem State.setContext_frozenMem (s : State) (n : Nat) (c : Context) : (s.setContext n c).frozenMem = s.frozenMem := rfl
@[simp] theorem State.setContext_outbox (s : State) (n : Nat) (c : Context) : (s.setContext n c).outbox = s.outbox := rfl
@[simp] theorem State.setContext_time (s : State) (n : Nat) (c : Context) : (s.setContext n c).time = s.time := rfl
@[simp] theorem State.setContext_turns (s : State) (n : Nat) (c : Context) : (s.setContext n c).turns = s.turns := rfl
@[simp] theorem State.setContext_cur (s : State) (n : Nat) (c : Context) : (s.setContext n c).cur = s.cur := rfl
@[simp] theorem State.setContext_fresh (s : State) (n : Nat) (c : Context) : (s.setContext n c).fresh = s.fresh := rfl
@[simp] theorem State.setContext_nextId (s : State) (n : Nat) (c : Context) : (s.setContext n c).nextId = s.nextId := rfl
@[simp] theorem State.setContext_progress (s : State) (n : Nat) (c : Context) : (s.setContext n c).progress = s.progress := rfl

/-! ### setStand -/

@[simp] theorem State.setStand_mem (s : State) (n : Nat) (x : Stand) : (s.setStand n x).mem = s.mem := rfl
@[simp] theorem State.setStand_poison (s : State) (n : Nat) (x : Stand) : (s.setStand n x).poison = s.poison := rfl
@[simp] theorem State.setStand_carve (s : State) (n : Nat) (x : Stand) : (s.setStand n x).carve = s.carve := rfl
@[simp] theorem State.setStand_regq (s : State) (n : Nat) (x : Stand) : (s.setStand n x).regq = s.regq := rfl
@[simp] theorem State.setStand_owners (s : State) (n : Nat) (x : Stand) : (s.setStand n x).owners = s.owners := rfl
@[simp] theorem State.setStand_dirty (s : State) (n : Nat) (x : Stand) : (s.setStand n x).dirty = s.dirty := rfl
@[simp] theorem State.setStand_tlb (s : State) (n : Nat) (x : Stand) : (s.setStand n x).tlb = s.tlb := rfl
@[simp] theorem State.setStand_remaps (s : State) (n : Nat) (x : Stand) : (s.setStand n x).remaps = s.remaps := rfl
@[simp] theorem State.setStand_held (s : State) (n : Nat) (x : Stand) : (s.setStand n x).held = s.held := rfl
@[simp] theorem State.setStand_ecc (s : State) (n : Nat) (x : Stand) : (s.setStand n x).ecc = s.ecc := rfl
@[simp] theorem State.setStand_retired (s : State) (n : Nat) (x : Stand) : (s.setStand n x).retired = s.retired := rfl
@[simp] theorem State.setStand_warps (s : State) (n : Nat) (x : Stand) : (s.setStand n x).warps = s.warps := rfl
@[simp] theorem State.setStand_blocks (s : State) (n : Nat) (x : Stand) : (s.setStand n x).blocks = s.blocks := rfl
@[simp] theorem State.setStand_groves (s : State) (n : Nat) (x : Stand) : (s.setStand n x).groves = s.groves := rfl
@[simp] theorem State.setStand_trails (s : State) (n : Nat) (x : Stand) : (s.setStand n x).trails = s.trails := rfl
@[simp] theorem State.setStand_barriers (s : State) (n : Nat) (x : Stand) : (s.setStand n x).barriers = s.barriers := rfl
@[simp] theorem State.setStand_subs (s : State) (n : Nat) (x : Stand) : (s.setStand n x).subs = s.subs := rfl
@[simp] theorem State.setStand_inflight (s : State) (n : Nat) (x : Stand) : (s.setStand n x).inflight = s.inflight := rfl
@[simp] theorem State.setStand_cmds (s : State) (n : Nat) (x : Stand) : (s.setStand n x).cmds = s.cmds := rfl
@[simp] theorem State.setStand_ops (s : State) (n : Nat) (x : Stand) : (s.setStand n x).ops = s.ops := rfl
@[simp] theorem State.setStand_quads (s : State) (n : Nat) (x : Stand) : (s.setStand n x).quads = s.quads := rfl
@[simp] theorem State.setStand_claims (s : State) (n : Nat) (x : Stand) : (s.setStand n x).claims = s.claims := rfl
@[simp] theorem State.setStand_saplings (s : State) (n : Nat) (x : Stand) : (s.setStand n x).saplings = s.saplings := rfl
@[simp] theorem State.setStand_exits (s : State) (n : Nat) (x : Stand) : (s.setStand n x).exits = s.exits := rfl
@[simp] theorem State.setStand_flushes (s : State) (n : Nat) (x : Stand) : (s.setStand n x).flushes = s.flushes := rfl
@[simp] theorem State.setStand_deliveries (s : State) (n : Nat) (x : Stand) : (s.setStand n x).deliveries = s.deliveries := rfl
@[simp] theorem State.setStand_holders (s : State) (n : Nat) (x : Stand) : (s.setStand n x).holders = s.holders := rfl
@[simp] theorem State.setStand_steps (s : State) (n : Nat) (x : Stand) : (s.setStand n x).steps = s.steps := rfl
@[simp] theorem State.setStand_contexts (s : State) (n : Nat) (x : Stand) : (s.setStand n x).contexts = s.contexts := rfl
@[simp] theorem State.setStand_tags (s : State) (n : Nat) (x : Stand) : (s.setStand n x).tags = s.tags := rfl
@[simp] theorem State.setStand_denials (s : State) (n : Nat) (x : Stand) : (s.setStand n x).denials = s.denials := rfl
@[simp] theorem State.setStand_ats (s : State) (n : Nat) (x : Stand) : (s.setStand n x).ats = s.ats := rfl
@[simp] theorem State.setStand_atsReq (s : State) (n : Nat) (x : Stand) : (s.setStand n x).atsReq = s.atsReq := rfl
@[simp] theorem State.setStand_atsInv (s : State) (n : Nat) (x : Stand) : (s.setStand n x).atsInv = s.atsInv := rfl
@[simp] theorem State.setStand_stands (s : State) (n : Nat) (x : Stand) : (s.setStand n x).stands = sput s.stands n x := rfl
@[simp] theorem State.setStand_vfs (s : State) (n : Nat) (x : Stand) : (s.setStand n x).vfs = s.vfs := rfl
@[simp] theorem State.setStand_counters (s : State) (n : Nat) (x : Stand) : (s.setStand n x).counters = s.counters := rfl
@[simp] theorem State.setStand_links (s : State) (n : Nat) (x : Stand) : (s.setStand n x).links = s.links := rfl
@[simp] theorem State.setStand_requests (s : State) (n : Nat) (x : Stand) : (s.setStand n x).requests = s.requests := rfl
@[simp] theorem State.setStand_early (s : State) (n : Nat) (x : Stand) : (s.setStand n x).early = s.early := rfl
@[simp] theorem State.setStand_roots (s : State) (n : Nat) (x : Stand) : (s.setStand n x).roots = s.roots := rfl
@[simp] theorem State.setStand_hxdev (s : State) (n : Nat) (x : Stand) : (s.setStand n x).hxdev = s.hxdev := rfl
@[simp] theorem State.setStand_hand (s : State) (n : Nat) (x : Stand) : (s.setStand n x).hand = s.hand := rfl
@[simp] theorem State.setStand_owner (s : State) (n : Nat) (x : Stand) : (s.setStand n x).owner = s.owner := rfl
@[simp] theorem State.setStand_frozen (s : State) (n : Nat) (x : Stand) : (s.setStand n x).frozen = s.frozen := rfl
@[simp] theorem State.setStand_fwErr (s : State) (n : Nat) (x : Stand) : (s.setStand n x).fwErr = s.fwErr := rfl
@[simp] theorem State.setStand_fwState (s : State) (n : Nat) (x : Stand) : (s.setStand n x).fwState = s.fwState := rfl
@[simp] theorem State.setStand_fwStage (s : State) (n : Nat) (x : Stand) : (s.setStand n x).fwStage = s.fwStage := rfl
@[simp] theorem State.setStand_fwBody (s : State) (n : Nat) (x : Stand) : (s.setStand n x).fwBody = s.fwBody := rfl
@[simp] theorem State.setStand_fwVersion (s : State) (n : Nat) (x : Stand) : (s.setStand n x).fwVersion = s.fwVersion := rfl
@[simp] theorem State.setStand_ltsel (s : State) (n : Nat) (x : Stand) : (s.setStand n x).ltsel = s.ltsel := rfl
@[simp] theorem State.setStand_life (s : State) (n : Nat) (x : Stand) : (s.setStand n x).life = s.life := rfl
@[simp] theorem State.setStand_lifeNext (s : State) (n : Nat) (x : Stand) : (s.setStand n x).lifeNext = s.lifeNext := rfl
@[simp] theorem State.setStand_droop (s : State) (n : Nat) (x : Stand) : (s.setStand n x).droop = s.droop := rfl
@[simp] theorem State.setStand_part (s : State) (n : Nat) (x : Stand) : (s.setStand n x).part = s.part := rfl
@[simp] theorem State.setStand_power (s : State) (n : Nat) (x : Stand) : (s.setStand n x).power = s.power := rfl
@[simp] theorem State.setStand_freeze (s : State) (n : Nat) (x : Stand) : (s.setStand n x).freeze = s.freeze := rfl
@[simp] theorem State.setStand_frozenMem (s : State) (n : Nat) (x : Stand) : (s.setStand n x).frozenMem = s.frozenMem := rfl
@[simp] theorem State.setStand_outbox (s : State) (n : Nat) (x : Stand) : (s.setStand n x).outbox = s.outbox := rfl
@[simp] theorem State.setStand_time (s : State) (n : Nat) (x : Stand) : (s.setStand n x).time = s.time := rfl
@[simp] theorem State.setStand_turns (s : State) (n : Nat) (x : Stand) : (s.setStand n x).turns = s.turns := rfl
@[simp] theorem State.setStand_cur (s : State) (n : Nat) (x : Stand) : (s.setStand n x).cur = s.cur := rfl
@[simp] theorem State.setStand_fresh (s : State) (n : Nat) (x : Stand) : (s.setStand n x).fresh = s.fresh := rfl
@[simp] theorem State.setStand_nextId (s : State) (n : Nat) (x : Stand) : (s.setStand n x).nextId = s.nextId := rfl
@[simp] theorem State.setStand_progress (s : State) (n : Nat) (x : Stand) : (s.setStand n x).progress = s.progress := rfl

/-! ### setVf -/

@[simp] theorem State.setVf_mem (s : State) (v : Nat) (x : VFn) : (s.setVf v x).mem = s.mem := rfl
@[simp] theorem State.setVf_poison (s : State) (v : Nat) (x : VFn) : (s.setVf v x).poison = s.poison := rfl
@[simp] theorem State.setVf_carve (s : State) (v : Nat) (x : VFn) : (s.setVf v x).carve = s.carve := rfl
@[simp] theorem State.setVf_regq (s : State) (v : Nat) (x : VFn) : (s.setVf v x).regq = s.regq := rfl
@[simp] theorem State.setVf_owners (s : State) (v : Nat) (x : VFn) : (s.setVf v x).owners = s.owners := rfl
@[simp] theorem State.setVf_dirty (s : State) (v : Nat) (x : VFn) : (s.setVf v x).dirty = s.dirty := rfl
@[simp] theorem State.setVf_tlb (s : State) (v : Nat) (x : VFn) : (s.setVf v x).tlb = s.tlb := rfl
@[simp] theorem State.setVf_remaps (s : State) (v : Nat) (x : VFn) : (s.setVf v x).remaps = s.remaps := rfl
@[simp] theorem State.setVf_held (s : State) (v : Nat) (x : VFn) : (s.setVf v x).held = s.held := rfl
@[simp] theorem State.setVf_ecc (s : State) (v : Nat) (x : VFn) : (s.setVf v x).ecc = s.ecc := rfl
@[simp] theorem State.setVf_retired (s : State) (v : Nat) (x : VFn) : (s.setVf v x).retired = s.retired := rfl
@[simp] theorem State.setVf_warps (s : State) (v : Nat) (x : VFn) : (s.setVf v x).warps = s.warps := rfl
@[simp] theorem State.setVf_blocks (s : State) (v : Nat) (x : VFn) : (s.setVf v x).blocks = s.blocks := rfl
@[simp] theorem State.setVf_groves (s : State) (v : Nat) (x : VFn) : (s.setVf v x).groves = s.groves := rfl
@[simp] theorem State.setVf_trails (s : State) (v : Nat) (x : VFn) : (s.setVf v x).trails = s.trails := rfl
@[simp] theorem State.setVf_barriers (s : State) (v : Nat) (x : VFn) : (s.setVf v x).barriers = s.barriers := rfl
@[simp] theorem State.setVf_subs (s : State) (v : Nat) (x : VFn) : (s.setVf v x).subs = s.subs := rfl
@[simp] theorem State.setVf_inflight (s : State) (v : Nat) (x : VFn) : (s.setVf v x).inflight = s.inflight := rfl
@[simp] theorem State.setVf_cmds (s : State) (v : Nat) (x : VFn) : (s.setVf v x).cmds = s.cmds := rfl
@[simp] theorem State.setVf_ops (s : State) (v : Nat) (x : VFn) : (s.setVf v x).ops = s.ops := rfl
@[simp] theorem State.setVf_quads (s : State) (v : Nat) (x : VFn) : (s.setVf v x).quads = s.quads := rfl
@[simp] theorem State.setVf_claims (s : State) (v : Nat) (x : VFn) : (s.setVf v x).claims = s.claims := rfl
@[simp] theorem State.setVf_saplings (s : State) (v : Nat) (x : VFn) : (s.setVf v x).saplings = s.saplings := rfl
@[simp] theorem State.setVf_exits (s : State) (v : Nat) (x : VFn) : (s.setVf v x).exits = s.exits := rfl
@[simp] theorem State.setVf_flushes (s : State) (v : Nat) (x : VFn) : (s.setVf v x).flushes = s.flushes := rfl
@[simp] theorem State.setVf_deliveries (s : State) (v : Nat) (x : VFn) : (s.setVf v x).deliveries = s.deliveries := rfl
@[simp] theorem State.setVf_holders (s : State) (v : Nat) (x : VFn) : (s.setVf v x).holders = s.holders := rfl
@[simp] theorem State.setVf_steps (s : State) (v : Nat) (x : VFn) : (s.setVf v x).steps = s.steps := rfl
@[simp] theorem State.setVf_contexts (s : State) (v : Nat) (x : VFn) : (s.setVf v x).contexts = s.contexts := rfl
@[simp] theorem State.setVf_tags (s : State) (v : Nat) (x : VFn) : (s.setVf v x).tags = s.tags := rfl
@[simp] theorem State.setVf_denials (s : State) (v : Nat) (x : VFn) : (s.setVf v x).denials = s.denials := rfl
@[simp] theorem State.setVf_ats (s : State) (v : Nat) (x : VFn) : (s.setVf v x).ats = s.ats := rfl
@[simp] theorem State.setVf_atsReq (s : State) (v : Nat) (x : VFn) : (s.setVf v x).atsReq = s.atsReq := rfl
@[simp] theorem State.setVf_atsInv (s : State) (v : Nat) (x : VFn) : (s.setVf v x).atsInv = s.atsInv := rfl
@[simp] theorem State.setVf_stands (s : State) (v : Nat) (x : VFn) : (s.setVf v x).stands = s.stands := rfl
@[simp] theorem State.setVf_vfs (s : State) (v : Nat) (x : VFn) : (s.setVf v x).vfs = sput s.vfs v x := rfl
@[simp] theorem State.setVf_counters (s : State) (v : Nat) (x : VFn) : (s.setVf v x).counters = s.counters := rfl
@[simp] theorem State.setVf_links (s : State) (v : Nat) (x : VFn) : (s.setVf v x).links = s.links := rfl
@[simp] theorem State.setVf_requests (s : State) (v : Nat) (x : VFn) : (s.setVf v x).requests = s.requests := rfl
@[simp] theorem State.setVf_early (s : State) (v : Nat) (x : VFn) : (s.setVf v x).early = s.early := rfl
@[simp] theorem State.setVf_roots (s : State) (v : Nat) (x : VFn) : (s.setVf v x).roots = s.roots := rfl
@[simp] theorem State.setVf_hxdev (s : State) (v : Nat) (x : VFn) : (s.setVf v x).hxdev = s.hxdev := rfl
@[simp] theorem State.setVf_hand (s : State) (v : Nat) (x : VFn) : (s.setVf v x).hand = s.hand := rfl
@[simp] theorem State.setVf_owner (s : State) (v : Nat) (x : VFn) : (s.setVf v x).owner = s.owner := rfl
@[simp] theorem State.setVf_frozen (s : State) (v : Nat) (x : VFn) : (s.setVf v x).frozen = s.frozen := rfl
@[simp] theorem State.setVf_fwErr (s : State) (v : Nat) (x : VFn) : (s.setVf v x).fwErr = s.fwErr := rfl
@[simp] theorem State.setVf_fwState (s : State) (v : Nat) (x : VFn) : (s.setVf v x).fwState = s.fwState := rfl
@[simp] theorem State.setVf_fwStage (s : State) (v : Nat) (x : VFn) : (s.setVf v x).fwStage = s.fwStage := rfl
@[simp] theorem State.setVf_fwBody (s : State) (v : Nat) (x : VFn) : (s.setVf v x).fwBody = s.fwBody := rfl
@[simp] theorem State.setVf_fwVersion (s : State) (v : Nat) (x : VFn) : (s.setVf v x).fwVersion = s.fwVersion := rfl
@[simp] theorem State.setVf_ltsel (s : State) (v : Nat) (x : VFn) : (s.setVf v x).ltsel = s.ltsel := rfl
@[simp] theorem State.setVf_life (s : State) (v : Nat) (x : VFn) : (s.setVf v x).life = s.life := rfl
@[simp] theorem State.setVf_lifeNext (s : State) (v : Nat) (x : VFn) : (s.setVf v x).lifeNext = s.lifeNext := rfl
@[simp] theorem State.setVf_droop (s : State) (v : Nat) (x : VFn) : (s.setVf v x).droop = s.droop := rfl
@[simp] theorem State.setVf_part (s : State) (v : Nat) (x : VFn) : (s.setVf v x).part = s.part := rfl
@[simp] theorem State.setVf_power (s : State) (v : Nat) (x : VFn) : (s.setVf v x).power = s.power := rfl
@[simp] theorem State.setVf_freeze (s : State) (v : Nat) (x : VFn) : (s.setVf v x).freeze = s.freeze := rfl
@[simp] theorem State.setVf_frozenMem (s : State) (v : Nat) (x : VFn) : (s.setVf v x).frozenMem = s.frozenMem := rfl
@[simp] theorem State.setVf_outbox (s : State) (v : Nat) (x : VFn) : (s.setVf v x).outbox = s.outbox := rfl
@[simp] theorem State.setVf_time (s : State) (v : Nat) (x : VFn) : (s.setVf v x).time = s.time := rfl
@[simp] theorem State.setVf_turns (s : State) (v : Nat) (x : VFn) : (s.setVf v x).turns = s.turns := rfl
@[simp] theorem State.setVf_cur (s : State) (v : Nat) (x : VFn) : (s.setVf v x).cur = s.cur := rfl
@[simp] theorem State.setVf_fresh (s : State) (v : Nat) (x : VFn) : (s.setVf v x).fresh = s.fresh := rfl
@[simp] theorem State.setVf_nextId (s : State) (v : Nat) (x : VFn) : (s.setVf v x).nextId = s.nextId := rfl
@[simp] theorem State.setVf_progress (s : State) (v : Nat) (x : VFn) : (s.setVf v x).progress = s.progress := rfl

/-! ### setLink -/

@[simp] theorem State.setLink_mem (s : State) (k : Nat) (x : Link) : (s.setLink k x).mem = s.mem := rfl
@[simp] theorem State.setLink_poison (s : State) (k : Nat) (x : Link) : (s.setLink k x).poison = s.poison := rfl
@[simp] theorem State.setLink_carve (s : State) (k : Nat) (x : Link) : (s.setLink k x).carve = s.carve := rfl
@[simp] theorem State.setLink_regq (s : State) (k : Nat) (x : Link) : (s.setLink k x).regq = s.regq := rfl
@[simp] theorem State.setLink_owners (s : State) (k : Nat) (x : Link) : (s.setLink k x).owners = s.owners := rfl
@[simp] theorem State.setLink_dirty (s : State) (k : Nat) (x : Link) : (s.setLink k x).dirty = s.dirty := rfl
@[simp] theorem State.setLink_tlb (s : State) (k : Nat) (x : Link) : (s.setLink k x).tlb = s.tlb := rfl
@[simp] theorem State.setLink_remaps (s : State) (k : Nat) (x : Link) : (s.setLink k x).remaps = s.remaps := rfl
@[simp] theorem State.setLink_held (s : State) (k : Nat) (x : Link) : (s.setLink k x).held = s.held := rfl
@[simp] theorem State.setLink_ecc (s : State) (k : Nat) (x : Link) : (s.setLink k x).ecc = s.ecc := rfl
@[simp] theorem State.setLink_retired (s : State) (k : Nat) (x : Link) : (s.setLink k x).retired = s.retired := rfl
@[simp] theorem State.setLink_warps (s : State) (k : Nat) (x : Link) : (s.setLink k x).warps = s.warps := rfl
@[simp] theorem State.setLink_blocks (s : State) (k : Nat) (x : Link) : (s.setLink k x).blocks = s.blocks := rfl
@[simp] theorem State.setLink_groves (s : State) (k : Nat) (x : Link) : (s.setLink k x).groves = s.groves := rfl
@[simp] theorem State.setLink_trails (s : State) (k : Nat) (x : Link) : (s.setLink k x).trails = s.trails := rfl
@[simp] theorem State.setLink_barriers (s : State) (k : Nat) (x : Link) : (s.setLink k x).barriers = s.barriers := rfl
@[simp] theorem State.setLink_subs (s : State) (k : Nat) (x : Link) : (s.setLink k x).subs = s.subs := rfl
@[simp] theorem State.setLink_inflight (s : State) (k : Nat) (x : Link) : (s.setLink k x).inflight = s.inflight := rfl
@[simp] theorem State.setLink_cmds (s : State) (k : Nat) (x : Link) : (s.setLink k x).cmds = s.cmds := rfl
@[simp] theorem State.setLink_ops (s : State) (k : Nat) (x : Link) : (s.setLink k x).ops = s.ops := rfl
@[simp] theorem State.setLink_quads (s : State) (k : Nat) (x : Link) : (s.setLink k x).quads = s.quads := rfl
@[simp] theorem State.setLink_claims (s : State) (k : Nat) (x : Link) : (s.setLink k x).claims = s.claims := rfl
@[simp] theorem State.setLink_saplings (s : State) (k : Nat) (x : Link) : (s.setLink k x).saplings = s.saplings := rfl
@[simp] theorem State.setLink_exits (s : State) (k : Nat) (x : Link) : (s.setLink k x).exits = s.exits := rfl
@[simp] theorem State.setLink_flushes (s : State) (k : Nat) (x : Link) : (s.setLink k x).flushes = s.flushes := rfl
@[simp] theorem State.setLink_deliveries (s : State) (k : Nat) (x : Link) : (s.setLink k x).deliveries = s.deliveries := rfl
@[simp] theorem State.setLink_holders (s : State) (k : Nat) (x : Link) : (s.setLink k x).holders = s.holders := rfl
@[simp] theorem State.setLink_steps (s : State) (k : Nat) (x : Link) : (s.setLink k x).steps = s.steps := rfl
@[simp] theorem State.setLink_contexts (s : State) (k : Nat) (x : Link) : (s.setLink k x).contexts = s.contexts := rfl
@[simp] theorem State.setLink_tags (s : State) (k : Nat) (x : Link) : (s.setLink k x).tags = s.tags := rfl
@[simp] theorem State.setLink_denials (s : State) (k : Nat) (x : Link) : (s.setLink k x).denials = s.denials := rfl
@[simp] theorem State.setLink_ats (s : State) (k : Nat) (x : Link) : (s.setLink k x).ats = s.ats := rfl
@[simp] theorem State.setLink_atsReq (s : State) (k : Nat) (x : Link) : (s.setLink k x).atsReq = s.atsReq := rfl
@[simp] theorem State.setLink_atsInv (s : State) (k : Nat) (x : Link) : (s.setLink k x).atsInv = s.atsInv := rfl
@[simp] theorem State.setLink_stands (s : State) (k : Nat) (x : Link) : (s.setLink k x).stands = s.stands := rfl
@[simp] theorem State.setLink_vfs (s : State) (k : Nat) (x : Link) : (s.setLink k x).vfs = s.vfs := rfl
@[simp] theorem State.setLink_counters (s : State) (k : Nat) (x : Link) : (s.setLink k x).counters = s.counters := rfl
@[simp] theorem State.setLink_links (s : State) (k : Nat) (x : Link) : (s.setLink k x).links = sput s.links k x := rfl
@[simp] theorem State.setLink_requests (s : State) (k : Nat) (x : Link) : (s.setLink k x).requests = s.requests := rfl
@[simp] theorem State.setLink_early (s : State) (k : Nat) (x : Link) : (s.setLink k x).early = s.early := rfl
@[simp] theorem State.setLink_roots (s : State) (k : Nat) (x : Link) : (s.setLink k x).roots = s.roots := rfl
@[simp] theorem State.setLink_hxdev (s : State) (k : Nat) (x : Link) : (s.setLink k x).hxdev = s.hxdev := rfl
@[simp] theorem State.setLink_hand (s : State) (k : Nat) (x : Link) : (s.setLink k x).hand = s.hand := rfl
@[simp] theorem State.setLink_owner (s : State) (k : Nat) (x : Link) : (s.setLink k x).owner = s.owner := rfl
@[simp] theorem State.setLink_frozen (s : State) (k : Nat) (x : Link) : (s.setLink k x).frozen = s.frozen := rfl
@[simp] theorem State.setLink_fwErr (s : State) (k : Nat) (x : Link) : (s.setLink k x).fwErr = s.fwErr := rfl
@[simp] theorem State.setLink_fwState (s : State) (k : Nat) (x : Link) : (s.setLink k x).fwState = s.fwState := rfl
@[simp] theorem State.setLink_fwStage (s : State) (k : Nat) (x : Link) : (s.setLink k x).fwStage = s.fwStage := rfl
@[simp] theorem State.setLink_fwBody (s : State) (k : Nat) (x : Link) : (s.setLink k x).fwBody = s.fwBody := rfl
@[simp] theorem State.setLink_fwVersion (s : State) (k : Nat) (x : Link) : (s.setLink k x).fwVersion = s.fwVersion := rfl
@[simp] theorem State.setLink_ltsel (s : State) (k : Nat) (x : Link) : (s.setLink k x).ltsel = s.ltsel := rfl
@[simp] theorem State.setLink_life (s : State) (k : Nat) (x : Link) : (s.setLink k x).life = s.life := rfl
@[simp] theorem State.setLink_lifeNext (s : State) (k : Nat) (x : Link) : (s.setLink k x).lifeNext = s.lifeNext := rfl
@[simp] theorem State.setLink_droop (s : State) (k : Nat) (x : Link) : (s.setLink k x).droop = s.droop := rfl
@[simp] theorem State.setLink_part (s : State) (k : Nat) (x : Link) : (s.setLink k x).part = s.part := rfl
@[simp] theorem State.setLink_power (s : State) (k : Nat) (x : Link) : (s.setLink k x).power = s.power := rfl
@[simp] theorem State.setLink_freeze (s : State) (k : Nat) (x : Link) : (s.setLink k x).freeze = s.freeze := rfl
@[simp] theorem State.setLink_frozenMem (s : State) (k : Nat) (x : Link) : (s.setLink k x).frozenMem = s.frozenMem := rfl
@[simp] theorem State.setLink_outbox (s : State) (k : Nat) (x : Link) : (s.setLink k x).outbox = s.outbox := rfl
@[simp] theorem State.setLink_time (s : State) (k : Nat) (x : Link) : (s.setLink k x).time = s.time := rfl
@[simp] theorem State.setLink_turns (s : State) (k : Nat) (x : Link) : (s.setLink k x).turns = s.turns := rfl
@[simp] theorem State.setLink_cur (s : State) (k : Nat) (x : Link) : (s.setLink k x).cur = s.cur := rfl
@[simp] theorem State.setLink_fresh (s : State) (k : Nat) (x : Link) : (s.setLink k x).fresh = s.fresh := rfl
@[simp] theorem State.setLink_nextId (s : State) (k : Nat) (x : Link) : (s.setLink k x).nextId = s.nextId := rfl
@[simp] theorem State.setLink_progress (s : State) (k : Nat) (x : Link) : (s.setLink k x).progress = s.progress := rfl

/-! ### setQuad -/

@[simp] theorem State.setQuad_mem (s : State) (k : Nat) (x : Quadrant) : (s.setQuad k x).mem = s.mem := rfl
@[simp] theorem State.setQuad_poison (s : State) (k : Nat) (x : Quadrant) : (s.setQuad k x).poison = s.poison := rfl
@[simp] theorem State.setQuad_carve (s : State) (k : Nat) (x : Quadrant) : (s.setQuad k x).carve = s.carve := rfl
@[simp] theorem State.setQuad_regq (s : State) (k : Nat) (x : Quadrant) : (s.setQuad k x).regq = s.regq := rfl
@[simp] theorem State.setQuad_owners (s : State) (k : Nat) (x : Quadrant) : (s.setQuad k x).owners = s.owners := rfl
@[simp] theorem State.setQuad_dirty (s : State) (k : Nat) (x : Quadrant) : (s.setQuad k x).dirty = s.dirty := rfl
@[simp] theorem State.setQuad_tlb (s : State) (k : Nat) (x : Quadrant) : (s.setQuad k x).tlb = s.tlb := rfl
@[simp] theorem State.setQuad_remaps (s : State) (k : Nat) (x : Quadrant) : (s.setQuad k x).remaps = s.remaps := rfl
@[simp] theorem State.setQuad_held (s : State) (k : Nat) (x : Quadrant) : (s.setQuad k x).held = s.held := rfl
@[simp] theorem State.setQuad_ecc (s : State) (k : Nat) (x : Quadrant) : (s.setQuad k x).ecc = s.ecc := rfl
@[simp] theorem State.setQuad_retired (s : State) (k : Nat) (x : Quadrant) : (s.setQuad k x).retired = s.retired := rfl
@[simp] theorem State.setQuad_warps (s : State) (k : Nat) (x : Quadrant) : (s.setQuad k x).warps = s.warps := rfl
@[simp] theorem State.setQuad_blocks (s : State) (k : Nat) (x : Quadrant) : (s.setQuad k x).blocks = s.blocks := rfl
@[simp] theorem State.setQuad_groves (s : State) (k : Nat) (x : Quadrant) : (s.setQuad k x).groves = s.groves := rfl
@[simp] theorem State.setQuad_trails (s : State) (k : Nat) (x : Quadrant) : (s.setQuad k x).trails = s.trails := rfl
@[simp] theorem State.setQuad_barriers (s : State) (k : Nat) (x : Quadrant) : (s.setQuad k x).barriers = s.barriers := rfl
@[simp] theorem State.setQuad_subs (s : State) (k : Nat) (x : Quadrant) : (s.setQuad k x).subs = s.subs := rfl
@[simp] theorem State.setQuad_inflight (s : State) (k : Nat) (x : Quadrant) : (s.setQuad k x).inflight = s.inflight := rfl
@[simp] theorem State.setQuad_cmds (s : State) (k : Nat) (x : Quadrant) : (s.setQuad k x).cmds = s.cmds := rfl
@[simp] theorem State.setQuad_ops (s : State) (k : Nat) (x : Quadrant) : (s.setQuad k x).ops = s.ops := rfl
@[simp] theorem State.setQuad_quads (s : State) (k : Nat) (x : Quadrant) : (s.setQuad k x).quads = sput s.quads k x := rfl
@[simp] theorem State.setQuad_claims (s : State) (k : Nat) (x : Quadrant) : (s.setQuad k x).claims = s.claims := rfl
@[simp] theorem State.setQuad_saplings (s : State) (k : Nat) (x : Quadrant) : (s.setQuad k x).saplings = s.saplings := rfl
@[simp] theorem State.setQuad_exits (s : State) (k : Nat) (x : Quadrant) : (s.setQuad k x).exits = s.exits := rfl
@[simp] theorem State.setQuad_flushes (s : State) (k : Nat) (x : Quadrant) : (s.setQuad k x).flushes = s.flushes := rfl
@[simp] theorem State.setQuad_deliveries (s : State) (k : Nat) (x : Quadrant) : (s.setQuad k x).deliveries = s.deliveries := rfl
@[simp] theorem State.setQuad_holders (s : State) (k : Nat) (x : Quadrant) : (s.setQuad k x).holders = s.holders := rfl
@[simp] theorem State.setQuad_steps (s : State) (k : Nat) (x : Quadrant) : (s.setQuad k x).steps = s.steps := rfl
@[simp] theorem State.setQuad_contexts (s : State) (k : Nat) (x : Quadrant) : (s.setQuad k x).contexts = s.contexts := rfl
@[simp] theorem State.setQuad_tags (s : State) (k : Nat) (x : Quadrant) : (s.setQuad k x).tags = s.tags := rfl
@[simp] theorem State.setQuad_denials (s : State) (k : Nat) (x : Quadrant) : (s.setQuad k x).denials = s.denials := rfl
@[simp] theorem State.setQuad_ats (s : State) (k : Nat) (x : Quadrant) : (s.setQuad k x).ats = s.ats := rfl
@[simp] theorem State.setQuad_atsReq (s : State) (k : Nat) (x : Quadrant) : (s.setQuad k x).atsReq = s.atsReq := rfl
@[simp] theorem State.setQuad_atsInv (s : State) (k : Nat) (x : Quadrant) : (s.setQuad k x).atsInv = s.atsInv := rfl
@[simp] theorem State.setQuad_stands (s : State) (k : Nat) (x : Quadrant) : (s.setQuad k x).stands = s.stands := rfl
@[simp] theorem State.setQuad_vfs (s : State) (k : Nat) (x : Quadrant) : (s.setQuad k x).vfs = s.vfs := rfl
@[simp] theorem State.setQuad_counters (s : State) (k : Nat) (x : Quadrant) : (s.setQuad k x).counters = s.counters := rfl
@[simp] theorem State.setQuad_links (s : State) (k : Nat) (x : Quadrant) : (s.setQuad k x).links = s.links := rfl
@[simp] theorem State.setQuad_requests (s : State) (k : Nat) (x : Quadrant) : (s.setQuad k x).requests = s.requests := rfl
@[simp] theorem State.setQuad_early (s : State) (k : Nat) (x : Quadrant) : (s.setQuad k x).early = s.early := rfl
@[simp] theorem State.setQuad_roots (s : State) (k : Nat) (x : Quadrant) : (s.setQuad k x).roots = s.roots := rfl
@[simp] theorem State.setQuad_hxdev (s : State) (k : Nat) (x : Quadrant) : (s.setQuad k x).hxdev = s.hxdev := rfl
@[simp] theorem State.setQuad_hand (s : State) (k : Nat) (x : Quadrant) : (s.setQuad k x).hand = s.hand := rfl
@[simp] theorem State.setQuad_owner (s : State) (k : Nat) (x : Quadrant) : (s.setQuad k x).owner = s.owner := rfl
@[simp] theorem State.setQuad_frozen (s : State) (k : Nat) (x : Quadrant) : (s.setQuad k x).frozen = s.frozen := rfl
@[simp] theorem State.setQuad_fwErr (s : State) (k : Nat) (x : Quadrant) : (s.setQuad k x).fwErr = s.fwErr := rfl
@[simp] theorem State.setQuad_fwState (s : State) (k : Nat) (x : Quadrant) : (s.setQuad k x).fwState = s.fwState := rfl
@[simp] theorem State.setQuad_fwStage (s : State) (k : Nat) (x : Quadrant) : (s.setQuad k x).fwStage = s.fwStage := rfl
@[simp] theorem State.setQuad_fwBody (s : State) (k : Nat) (x : Quadrant) : (s.setQuad k x).fwBody = s.fwBody := rfl
@[simp] theorem State.setQuad_fwVersion (s : State) (k : Nat) (x : Quadrant) : (s.setQuad k x).fwVersion = s.fwVersion := rfl
@[simp] theorem State.setQuad_ltsel (s : State) (k : Nat) (x : Quadrant) : (s.setQuad k x).ltsel = s.ltsel := rfl
@[simp] theorem State.setQuad_life (s : State) (k : Nat) (x : Quadrant) : (s.setQuad k x).life = s.life := rfl
@[simp] theorem State.setQuad_lifeNext (s : State) (k : Nat) (x : Quadrant) : (s.setQuad k x).lifeNext = s.lifeNext := rfl
@[simp] theorem State.setQuad_droop (s : State) (k : Nat) (x : Quadrant) : (s.setQuad k x).droop = s.droop := rfl
@[simp] theorem State.setQuad_part (s : State) (k : Nat) (x : Quadrant) : (s.setQuad k x).part = s.part := rfl
@[simp] theorem State.setQuad_power (s : State) (k : Nat) (x : Quadrant) : (s.setQuad k x).power = s.power := rfl
@[simp] theorem State.setQuad_freeze (s : State) (k : Nat) (x : Quadrant) : (s.setQuad k x).freeze = s.freeze := rfl
@[simp] theorem State.setQuad_frozenMem (s : State) (k : Nat) (x : Quadrant) : (s.setQuad k x).frozenMem = s.frozenMem := rfl
@[simp] theorem State.setQuad_outbox (s : State) (k : Nat) (x : Quadrant) : (s.setQuad k x).outbox = s.outbox := rfl
@[simp] theorem State.setQuad_time (s : State) (k : Nat) (x : Quadrant) : (s.setQuad k x).time = s.time := rfl
@[simp] theorem State.setQuad_turns (s : State) (k : Nat) (x : Quadrant) : (s.setQuad k x).turns = s.turns := rfl
@[simp] theorem State.setQuad_cur (s : State) (k : Nat) (x : Quadrant) : (s.setQuad k x).cur = s.cur := rfl
@[simp] theorem State.setQuad_fresh (s : State) (k : Nat) (x : Quadrant) : (s.setQuad k x).fresh = s.fresh := rfl
@[simp] theorem State.setQuad_nextId (s : State) (k : Nat) (x : Quadrant) : (s.setQuad k x).nextId = s.nextId := rfl
@[simp] theorem State.setQuad_progress (s : State) (k : Nat) (x : Quadrant) : (s.setQuad k x).progress = s.progress := rfl

/-! ### send -/

@[simp] theorem State.send_mem (s : State) (m : Msg) : (s.send m).mem = s.mem := rfl
@[simp] theorem State.send_poison (s : State) (m : Msg) : (s.send m).poison = s.poison := rfl
@[simp] theorem State.send_carve (s : State) (m : Msg) : (s.send m).carve = s.carve := rfl
@[simp] theorem State.send_regq (s : State) (m : Msg) : (s.send m).regq = s.regq := rfl
@[simp] theorem State.send_owners (s : State) (m : Msg) : (s.send m).owners = s.owners := rfl
@[simp] theorem State.send_dirty (s : State) (m : Msg) : (s.send m).dirty = s.dirty := rfl
@[simp] theorem State.send_tlb (s : State) (m : Msg) : (s.send m).tlb = s.tlb := rfl
@[simp] theorem State.send_remaps (s : State) (m : Msg) : (s.send m).remaps = s.remaps := rfl
@[simp] theorem State.send_held (s : State) (m : Msg) : (s.send m).held = s.held := rfl
@[simp] theorem State.send_ecc (s : State) (m : Msg) : (s.send m).ecc = s.ecc := rfl
@[simp] theorem State.send_retired (s : State) (m : Msg) : (s.send m).retired = s.retired := rfl
@[simp] theorem State.send_warps (s : State) (m : Msg) : (s.send m).warps = s.warps := rfl
@[simp] theorem State.send_blocks (s : State) (m : Msg) : (s.send m).blocks = s.blocks := rfl
@[simp] theorem State.send_groves (s : State) (m : Msg) : (s.send m).groves = s.groves := rfl
@[simp] theorem State.send_trails (s : State) (m : Msg) : (s.send m).trails = s.trails := rfl
@[simp] theorem State.send_barriers (s : State) (m : Msg) : (s.send m).barriers = s.barriers := rfl
@[simp] theorem State.send_subs (s : State) (m : Msg) : (s.send m).subs = s.subs := rfl
@[simp] theorem State.send_inflight (s : State) (m : Msg) : (s.send m).inflight = s.inflight := rfl
@[simp] theorem State.send_cmds (s : State) (m : Msg) : (s.send m).cmds = s.cmds := rfl
@[simp] theorem State.send_ops (s : State) (m : Msg) : (s.send m).ops = s.ops := rfl
@[simp] theorem State.send_quads (s : State) (m : Msg) : (s.send m).quads = s.quads := rfl
@[simp] theorem State.send_claims (s : State) (m : Msg) : (s.send m).claims = s.claims := rfl
@[simp] theorem State.send_saplings (s : State) (m : Msg) : (s.send m).saplings = s.saplings := rfl
@[simp] theorem State.send_exits (s : State) (m : Msg) : (s.send m).exits = s.exits := rfl
@[simp] theorem State.send_flushes (s : State) (m : Msg) : (s.send m).flushes = s.flushes := rfl
@[simp] theorem State.send_deliveries (s : State) (m : Msg) : (s.send m).deliveries = s.deliveries := rfl
@[simp] theorem State.send_holders (s : State) (m : Msg) : (s.send m).holders = s.holders := rfl
@[simp] theorem State.send_steps (s : State) (m : Msg) : (s.send m).steps = s.steps := rfl
@[simp] theorem State.send_contexts (s : State) (m : Msg) : (s.send m).contexts = s.contexts := rfl
@[simp] theorem State.send_tags (s : State) (m : Msg) : (s.send m).tags = s.tags := rfl
@[simp] theorem State.send_denials (s : State) (m : Msg) : (s.send m).denials = s.denials := rfl
@[simp] theorem State.send_ats (s : State) (m : Msg) : (s.send m).ats = s.ats := rfl
@[simp] theorem State.send_atsReq (s : State) (m : Msg) : (s.send m).atsReq = s.atsReq := rfl
@[simp] theorem State.send_atsInv (s : State) (m : Msg) : (s.send m).atsInv = s.atsInv := rfl
@[simp] theorem State.send_stands (s : State) (m : Msg) : (s.send m).stands = s.stands := rfl
@[simp] theorem State.send_vfs (s : State) (m : Msg) : (s.send m).vfs = s.vfs := rfl
@[simp] theorem State.send_counters (s : State) (m : Msg) : (s.send m).counters = s.counters := rfl
@[simp] theorem State.send_links (s : State) (m : Msg) : (s.send m).links = s.links := rfl
@[simp] theorem State.send_requests (s : State) (m : Msg) : (s.send m).requests = s.requests := rfl
@[simp] theorem State.send_early (s : State) (m : Msg) : (s.send m).early = s.early := rfl
@[simp] theorem State.send_roots (s : State) (m : Msg) : (s.send m).roots = s.roots := rfl
@[simp] theorem State.send_hxdev (s : State) (m : Msg) : (s.send m).hxdev = s.hxdev := rfl
@[simp] theorem State.send_hand (s : State) (m : Msg) : (s.send m).hand = s.hand := rfl
@[simp] theorem State.send_owner (s : State) (m : Msg) : (s.send m).owner = s.owner := rfl
@[simp] theorem State.send_frozen (s : State) (m : Msg) : (s.send m).frozen = s.frozen := rfl
@[simp] theorem State.send_fwErr (s : State) (m : Msg) : (s.send m).fwErr = s.fwErr := rfl
@[simp] theorem State.send_fwState (s : State) (m : Msg) : (s.send m).fwState = s.fwState := rfl
@[simp] theorem State.send_fwStage (s : State) (m : Msg) : (s.send m).fwStage = s.fwStage := rfl
@[simp] theorem State.send_fwBody (s : State) (m : Msg) : (s.send m).fwBody = s.fwBody := rfl
@[simp] theorem State.send_fwVersion (s : State) (m : Msg) : (s.send m).fwVersion = s.fwVersion := rfl
@[simp] theorem State.send_ltsel (s : State) (m : Msg) : (s.send m).ltsel = s.ltsel := rfl
@[simp] theorem State.send_life (s : State) (m : Msg) : (s.send m).life = s.life := rfl
@[simp] theorem State.send_lifeNext (s : State) (m : Msg) : (s.send m).lifeNext = s.lifeNext := rfl
@[simp] theorem State.send_droop (s : State) (m : Msg) : (s.send m).droop = s.droop := rfl
@[simp] theorem State.send_part (s : State) (m : Msg) : (s.send m).part = s.part := rfl
@[simp] theorem State.send_power (s : State) (m : Msg) : (s.send m).power = s.power := rfl
@[simp] theorem State.send_freeze (s : State) (m : Msg) : (s.send m).freeze = s.freeze := rfl
@[simp] theorem State.send_frozenMem (s : State) (m : Msg) : (s.send m).frozenMem = s.frozenMem := rfl
@[simp] theorem State.send_outbox (s : State) (m : Msg) : (s.send m).outbox = m :: s.outbox := rfl
@[simp] theorem State.send_time (s : State) (m : Msg) : (s.send m).time = s.time := rfl
@[simp] theorem State.send_turns (s : State) (m : Msg) : (s.send m).turns = s.turns := rfl
@[simp] theorem State.send_cur (s : State) (m : Msg) : (s.send m).cur = s.cur := rfl
@[simp] theorem State.send_fresh (s : State) (m : Msg) : (s.send m).fresh = s.fresh := rfl
@[simp] theorem State.send_nextId (s : State) (m : Msg) : (s.send m).nextId = s.nextId := rfl
@[simp] theorem State.send_progress (s : State) (m : Msg) : (s.send m).progress = s.progress := rfl

/-! ### tick -/

@[simp] theorem State.tick_mem (s : State) : s.tick.mem = s.mem := rfl
@[simp] theorem State.tick_poison (s : State) : s.tick.poison = s.poison := rfl
@[simp] theorem State.tick_carve (s : State) : s.tick.carve = s.carve := rfl
@[simp] theorem State.tick_regq (s : State) : s.tick.regq = s.regq := rfl
@[simp] theorem State.tick_owners (s : State) : s.tick.owners = s.owners := rfl
@[simp] theorem State.tick_dirty (s : State) : s.tick.dirty = s.dirty := rfl
@[simp] theorem State.tick_tlb (s : State) : s.tick.tlb = s.tlb := rfl
@[simp] theorem State.tick_remaps (s : State) : s.tick.remaps = s.remaps := rfl
@[simp] theorem State.tick_held (s : State) : s.tick.held = s.held := rfl
@[simp] theorem State.tick_ecc (s : State) : s.tick.ecc = s.ecc := rfl
@[simp] theorem State.tick_retired (s : State) : s.tick.retired = s.retired := rfl
@[simp] theorem State.tick_warps (s : State) : s.tick.warps = s.warps := rfl
@[simp] theorem State.tick_blocks (s : State) : s.tick.blocks = s.blocks := rfl
@[simp] theorem State.tick_groves (s : State) : s.tick.groves = s.groves := rfl
@[simp] theorem State.tick_trails (s : State) : s.tick.trails = s.trails := rfl
@[simp] theorem State.tick_barriers (s : State) : s.tick.barriers = s.barriers := rfl
@[simp] theorem State.tick_subs (s : State) : s.tick.subs = s.subs := rfl
@[simp] theorem State.tick_inflight (s : State) : s.tick.inflight = s.inflight := rfl
@[simp] theorem State.tick_cmds (s : State) : s.tick.cmds = s.cmds := rfl
@[simp] theorem State.tick_ops (s : State) : s.tick.ops = s.ops := rfl
@[simp] theorem State.tick_quads (s : State) : s.tick.quads = s.quads := rfl
@[simp] theorem State.tick_claims (s : State) : s.tick.claims = s.claims := rfl
@[simp] theorem State.tick_saplings (s : State) : s.tick.saplings = s.saplings := rfl
@[simp] theorem State.tick_exits (s : State) : s.tick.exits = s.exits := rfl
@[simp] theorem State.tick_flushes (s : State) : s.tick.flushes = s.flushes := rfl
@[simp] theorem State.tick_deliveries (s : State) : s.tick.deliveries = s.deliveries := rfl
@[simp] theorem State.tick_holders (s : State) : s.tick.holders = s.holders := rfl
@[simp] theorem State.tick_steps (s : State) : s.tick.steps = s.steps := rfl
@[simp] theorem State.tick_contexts (s : State) : s.tick.contexts = s.contexts := rfl
@[simp] theorem State.tick_tags (s : State) : s.tick.tags = s.tags := rfl
@[simp] theorem State.tick_denials (s : State) : s.tick.denials = s.denials := rfl
@[simp] theorem State.tick_ats (s : State) : s.tick.ats = s.ats := rfl
@[simp] theorem State.tick_atsReq (s : State) : s.tick.atsReq = s.atsReq := rfl
@[simp] theorem State.tick_atsInv (s : State) : s.tick.atsInv = s.atsInv := rfl
@[simp] theorem State.tick_stands (s : State) : s.tick.stands = s.stands := rfl
@[simp] theorem State.tick_vfs (s : State) : s.tick.vfs = s.vfs := rfl
@[simp] theorem State.tick_counters (s : State) : s.tick.counters = s.counters := rfl
@[simp] theorem State.tick_links (s : State) : s.tick.links = s.links := rfl
@[simp] theorem State.tick_requests (s : State) : s.tick.requests = s.requests := rfl
@[simp] theorem State.tick_early (s : State) : s.tick.early = s.early := rfl
@[simp] theorem State.tick_roots (s : State) : s.tick.roots = s.roots := rfl
@[simp] theorem State.tick_hxdev (s : State) : s.tick.hxdev = s.hxdev := rfl
@[simp] theorem State.tick_hand (s : State) : s.tick.hand = s.hand := rfl
@[simp] theorem State.tick_owner (s : State) : s.tick.owner = s.owner := rfl
@[simp] theorem State.tick_frozen (s : State) : s.tick.frozen = s.frozen := rfl
@[simp] theorem State.tick_fwErr (s : State) : s.tick.fwErr = s.fwErr := rfl
@[simp] theorem State.tick_fwState (s : State) : s.tick.fwState = s.fwState := rfl
@[simp] theorem State.tick_fwStage (s : State) : s.tick.fwStage = s.fwStage := rfl
@[simp] theorem State.tick_fwBody (s : State) : s.tick.fwBody = s.fwBody := rfl
@[simp] theorem State.tick_fwVersion (s : State) : s.tick.fwVersion = s.fwVersion := rfl
@[simp] theorem State.tick_ltsel (s : State) : s.tick.ltsel = s.ltsel := rfl
@[simp] theorem State.tick_life (s : State) : s.tick.life = s.life := rfl
@[simp] theorem State.tick_lifeNext (s : State) : s.tick.lifeNext = s.lifeNext := rfl
@[simp] theorem State.tick_droop (s : State) : s.tick.droop = s.droop := rfl
@[simp] theorem State.tick_part (s : State) : s.tick.part = s.part := rfl
@[simp] theorem State.tick_power (s : State) : s.tick.power = s.power := rfl
@[simp] theorem State.tick_freeze (s : State) : s.tick.freeze = s.freeze := rfl
@[simp] theorem State.tick_frozenMem (s : State) : s.tick.frozenMem = s.frozenMem := rfl
@[simp] theorem State.tick_outbox (s : State) : s.tick.outbox = s.outbox := rfl
@[simp] theorem State.tick_time (s : State) : s.tick.time = s.time := rfl
@[simp] theorem State.tick_turns (s : State) : s.tick.turns = s.turns := rfl
@[simp] theorem State.tick_cur (s : State) : s.tick.cur = s.cur := rfl
@[simp] theorem State.tick_fresh (s : State) : s.tick.fresh = s.fresh := rfl
@[simp] theorem State.tick_nextId (s : State) : s.tick.nextId = s.nextId := rfl
@[simp] theorem State.tick_progress (s : State) : s.tick.progress = s.progress + 1 := rfl

/-! ### Reads after updates -/

/-- A stand after a stand is set. -/
theorem State.stand_setStand (s : State) (n : Nat) (x : Stand) (k : Nat) :
    (s.setStand n x).stand k = if k = n then x else s.stand k := by
  unfold State.stand State.setStand
  rw [sget_sput]
  split <;> rfl

/-- A context after a context is set. -/
theorem State.context_setContext (s : State) (n : Nat) (c : Context) (k : Nat) :
    (s.setContext n c).context k = if k = n then c else s.context k := by
  unfold State.context State.setContext
  rw [sget_sput]
  split <;> rfl

/-- A VF's block after one is set. -/
theorem State.vf_setVf (s : State) (n : Nat) (x : VFn) (k : Nat) : (s.setVf n x).vf k = if k = n then x else s.vf k := by
  unfold State.vf State.setVf
  rw [sget_sput]
  split <;> rfl

/-- A link's block after one is set. -/
theorem State.link_setLink (s : State) (n : Nat) (x : Link) (k : Nat) :
    (s.setLink n x).link k = if k = n then x else s.link k := by
  unfold State.link State.setLink
  rw [sget_sput]
  split <;> rfl

/-- A quadrant after one is set. -/
theorem State.quad_setQuad (s : State) (n : Nat) (x : Quadrant) (k : Nat) :
    (s.setQuad n x).quad k = if k = n then x else s.quad k := by
  unfold State.quad State.setQuad
  rw [sget_sput]
  split <;> rfl

/-- A warp after one is set. -/
theorem State.warp_setWarp (s : State) (w : Nat) (W : Warp) (k : Nat) :
    sget (s.setWarp w W).warps k = if k = w then some W else sget s.warps k := sget_sput s.warps w k W

/-- Warps after one is changed. -/
theorem State.warp_modWarp (s : State) (w : Nat) (f : Warp → Warp) (k : Nat) :
    sget (s.modWarp w f).warps k = if k = w then (sget s.warps w).map f else sget s.warps k := sget_smod s.warps w k f

end Sys2Proof.Machine
end

