-- ==== Sys2Proof/Laws/Memory.lean ====
section
/-! SUPPORT. The canonical form of memory: every operation that writes memory keeps it, and what a byte reads as after a
write. -/

namespace Sys2Proof.Machine

/-! ### Bytes -/

/-- A byte after one byte is written. -/
theorem zget_memPut (m : SMap Byte) (key : Nat) (b : Byte) (k : Nat) :
    zget unlisted (memPut m key b) k = if k = key then b else zget unlisted m k := zget_zput unlisted m key k b

/-- A byte that no write of a list names is unchanged. -/
theorem zget_memPuts_other (l : List (Nat × Byte)) (m : SMap Byte) (k : Nat) (h : ∀ e ∈ l, e.1 ≠ k) :
    zget unlisted (memPuts m l) k = zget unlisted m k := by
  induction l generalizing m with
  | nil => rfl
  | cons e r ih =>
    have h1 : memPuts m (e :: r) = memPuts (memPut m e.1 e.2) r := rfl
    rw [h1, ih _ (fun x hx => h x (List.mem_cons_of_mem _ hx)), zget_memPut]
    exact if_neg (fun hk => h e List.mem_cons_self hk.symm)

/-- Bytes written in two lists. -/
theorem memPuts_append (m : SMap Byte) (l r : List (Nat × Byte)) : memPuts m (l ++ r) = memPuts (memPuts m l) r := by
  unfold memPuts
  rw [List.foldl_append]

/-- The last write of a list to a byte stands. -/
theorem zget_memPuts_last (m : SMap Byte) (l r : List (Nat × Byte)) (e : Nat × Byte) (h : ∀ x ∈ r, x.1 ≠ e.1) :
    zget unlisted (memPuts m (l ++ e :: r)) e.1 = e.2 := by
  rw [memPuts_append]
  have h1 : memPuts (memPuts m l) (e :: r) = memPuts (memPut (memPuts m l) e.1 e.2) r := rfl
  rw [h1, zget_memPuts_other r _ _ h, zget_memPut, if_pos rfl]

/-! ### The canonical form -/

/-- One write keeps the canonical form. -/
theorem memPut_wf (m : SMap Byte) (key : Nat) (b : Byte) (h : Memory.wf m = true) : Memory.wf (memPut m key b) = true :=
  zwf_zput unlisted m key b h

/-- A list of writes keeps it. -/
theorem memPuts_wf (l : List (Nat × Byte)) (m : SMap Byte) (h : Memory.wf m = true) : Memory.wf (memPuts m l) = true := by
  induction l generalizing m with
  | nil => exact h
  | cons e r ih => exact ih _ (memPut_wf m e.1 e.2 h)

/-- Leaving bytes out keeps it. -/
theorem mem_filter_wf (p : Nat × Byte → Bool) (m : SMap Byte) (h : Memory.wf m = true) : Memory.wf (m.filter p) = true :=
  zwf_filter unlisted p m h

/-- Two canonical memories that read the same are the same. -/
theorem mem_ext (m n : SMap Byte) (hm : Memory.wf m = true) (hn : Memory.wf n = true)
    (h : ∀ k, zget unlisted m k = zget unlisted n k) : m = n := zwf_ext unlisted m n hm hn h

/-- Memory after reset has the canonical form. -/
theorem reset_mem_wf : Memory.wf State.reset.mem = true := rfl

/-! ### The operations on the state -/

/-- Logging a write keeps the form. -/
theorem logDirty_wf (s : State) (fn key : Nat) (h : Memory.wf s.mem = true) : Memory.wf (s.logDirty fn key).mem = true := by
  unfold State.logDirty
  dsimp only
  split
  · exact h
  · split
    · exact h
    · split
      · exact h
      · split
        · rw [State.setVf_mem]
          exact memPuts_wf _ _ h
        · exact h

/-- Logging a write leaves the freeze buffer. -/
theorem logDirty_frozenMem (s : State) (fn key : Nat) : (s.logDirty fn key).frozenMem = s.frozenMem := by
  unfold State.logDirty
  dsimp only
  split
  · rfl
  · split
    · rfl
    · split
      · rfl
      · split <;> rfl

/-- Logging the writes of a list keeps the form. -/
theorem logAll_wf {α : Type} (l : List (Nat × α)) (tag : Nat) (s : State) (h : Memory.wf s.mem = true) :
    Memory.wf (l.foldl (fun s e => s.logDirty tag e.1) s).mem = true := by
  induction l generalizing s with
  | nil => exact h
  | cons e r ih => exact ih _ (logDirty_wf s tag e.1 h)

/-- Logging the writes of a list leaves the freeze buffer. -/
theorem logAll_frozenMem {α : Type} (l : List (Nat × α)) (tag : Nat) (s : State) :
    (l.foldl (fun s e => s.logDirty tag e.1) s).frozenMem = s.frozenMem := by
  induction l generalizing s with
  | nil => rfl
  | cons e r ih =>
    rw [List.foldl_cons, ih]
    exact logDirty_frozenMem s tag e.1

/-- A write at home keeps the form. -/
theorem homeWrite_wf (s : State) (tag : Nat) (l : List (Nat × Byte)) (h : Memory.wf s.mem = true) :
    Memory.wf (s.homeWrite tag l).mem = true := memPuts_wf _ _ (logAll_wf l tag s h)

/-- A write at home leaves the freeze buffer. -/
theorem homeWrite_frozenMem (s : State) (tag : Nat) (l : List (Nat × Byte)) :
    (s.homeWrite tag l).frozenMem = s.frozenMem := logAll_frozenMem l tag s

/-- A write at home for a core keeps the form. -/
theorem homeWriteBy_wf (s : State) (core tag : Nat) (l : List (Nat × Byte)) (h : Memory.wf s.mem = true) :
    Memory.wf (s.homeWriteBy core tag l).mem = true := homeWrite_wf s tag l h

/-- A write of a context's space by the hardware keeps the form. -/
theorem hwWrite_wf (s : State) (ctx : Nat) (a : DWord) (l : List Byte) (h : Memory.wf s.mem = true) :
    Memory.wf (s.hwWrite ctx a l).mem = true := by
  unfold State.hwWrite
  split
  · exact homeWrite_wf s _ _ h
  · exact h

/-- A write of a function's device memory keeps the form. -/
theorem devWrite_wf (s : State) (fn a : Nat) (l : List Byte) (h : Memory.wf s.mem = true) :
    Memory.wf (s.devWrite fn a l).mem = true := homeWrite_wf s fn _ h

/-- A write of memory by key keeps the form. -/
theorem rawWrite_wf (s : State) (key : Nat) (l : List Byte) (h : Memory.wf s.mem = true) :
    Memory.wf (s.rawWrite key l).mem = true := memPuts_wf _ _ h

/-- The writes of the host's own processors keep the form. -/
theorem hostWrites_wf (s : State) (l : List (Nat × Byte)) (h : Memory.wf s.mem = true) :
    Memory.wf (s.hostWrites l).mem = true := memPuts_wf _ _ h

/-- A write of block scratch keeps the form. -/
theorem scratchWrite_wf (s : State) (key : Nat) (l : List Byte) (h : Memory.wf s.mem = true) :
    Memory.wf (s.scratchWrite key l).mem = true := memPuts_wf _ _ h

/-- A registration keeps the form. -/
theorem register_wf (s : State) (id : Nat) (h : Memory.wf s.mem = true) : Memory.wf (s.register id).mem = true := by
  unfold State.register
  split
  · exact h
  · exact memPuts_wf _ _ (logAll_wf _ _ s h)

/-- Registrations in turn keep the form. -/
theorem registers_wf (l : List Nat) (s : State) (h : Memory.wf s.mem = true) :
    Memory.wf (l.foldl State.register s).mem = true := by
  induction l generalizing s with
  | nil => exact h
  | cons i r ih => exact ih _ (register_wf s i h)

/-- The registrations before an access keep the form. -/
theorem drain_wf (s : State) (p : Party) (home key n limit : Nat) (h : Memory.wf s.mem = true) :
    Memory.wf (s.drain p home key n limit).mem = true := registers_wf _ s h

/-- The write back of a core's carve-out keeps the form. -/
theorem writeBack_wf (s : State) (core : Nat) (h : Memory.wf s.mem = true) :
    Memory.wf (s.writeBack core).mem = true := registers_wf _ s h

/-- The registrations of a context's stores keep the form. -/
theorem registerOf_wf (s : State) (ctx : Nat) (h : Memory.wf s.mem = true) :
    Memory.wf (s.registerOf ctx).mem = true := registers_wf _ s h

/-- A move of a granule keeps the form. -/
theorem moveGranule_wf (s : State) (g d : Nat) (h : Memory.wf s.mem = true) : Memory.wf (s.moveGranule g d).mem = true :=
  memPuts_wf _ _ (memPuts_wf _ _ h)

/-- A reset's free values keep the form. -/
theorem dropLines_wf (s : State) (tag : Nat) (h : Memory.wf s.mem = true) : Memory.wf (s.dropLines tag).mem = true :=
  memPuts_wf _ _ h

/-- A lifetime count leaves memory. -/
@[simp] theorem State.lifeAdd_mem (s : State) (i n : Nat) : (s.lifeAdd i n).mem = s.mem := rfl

/-- Counting a second of the lifetime record leaves memory. -/
@[simp] theorem State.recordSec_mem (s : State) : s.recordSec.mem = s.mem := by
  unfold State.recordSec
  simp only [State.lifeAdd_mem]

/-- Counting seconds of the lifetime record leaves memory. -/
@[simp] theorem State.recordSecs_mem (s : State) (n : Nat) : (s.recordSecs n).mem = s.mem := by
  have h (l : List Nat) (s : State) : (l.foldl (fun s _ => s.recordSec) s).mem = s.mem := by
    induction l generalizing s with
    | nil => rfl
    | cons _ l ih => rw [List.foldl_cons, ih, State.recordSec_mem]
  exact h _ s

/-- What a cold reset leaves of memory has the form. -/
theorem coldBase_wf (s : State) (h : Memory.wf s.mem = true) : Memory.wf s.coldBase.mem = true :=
  mem_filter_wf _ _ h

/-- A number is laid out in as many bytes as are asked for. -/
theorem length_bytesOf (n x : Nat) : (bytesOf n x).length = n := by
  induction n generalizing x with
  | zero => rfl
  | succ n ih => unfold bytesOf; simp [ih]

/-- Bytes laid out are read back as the number, modulo what they hold. -/
theorem numOf_bytesOf (n x : Nat) : numOf (bytesOf n x) = x % 256 ^ n := by
  induction n generalizing x with
  | zero => simp [bytesOf, numOf, Nat.mod_one]
  | succ n ih =>
    unfold bytesOf numOf
    rw [ih, Nat.pow_succ', Nat.mod_mul]
    simp

end Sys2Proof.Machine
end

