-- ==== Sys2Proof/Laws/PerInstr.lean ====
section
/-! SUPPORT. Laws of the instructions as syntax, one lemma a constructor: the word of an instruction decodes to it, with
every operand at every value (R44, R66 to R68). An event has no word. -/

set_option linter.unusedSimpArgs false

namespace Sys2Proof.Laws.RoundTrip

/-- The word of the instruction, where it has one, decodes to it. -/
def Statement (i : Instr) : Prop := ∀ w, encode i = some w → decode w = .ok i

theorem iaddV (g : BitVec 2) (d : BitVec 7) (a : BitVec 7) (b : BitVec 7) : Statement (.iaddV g d a b) := by
  intro w h
  cases h
  rw [decode_01]
  rfl

theorem iaddS (g : BitVec 2) (d : BitVec 7) (a : BitVec 7) (b : BitVec 7) : Statement (.iaddS g d a b) := by
  intro w h
  cases h
  rw [decode_02]
  rfl

theorem iaddI (g : BitVec 2) (d : BitVec 7) (a : BitVec 7) (i : BitVec 7) : Statement (.iaddI g d a i) := by
  intro w h
  cases h
  rw [decode_03]
  rfl

theorem iaddUint (d : BitVec 7) (a : BitVec 7) (b : BitVec 7) : Statement (.iaddUint d a b) := by
  intro w h
  cases h
  rw [decode_38]
  rfl

theorem iaddUintI (d : BitVec 7) (a : BitVec 7) (i : BitVec 7) : Statement (.iaddUintI d a i) := by
  intro w h
  cases h
  rw [decode_3A]
  rfl

theorem isubV (g : BitVec 2) (d : BitVec 7) (a : BitVec 7) (b : BitVec 7) : Statement (.isubV g d a b) := by
  intro w h
  cases h
  rw [decode_01]
  rfl

theorem isubS (g : BitVec 2) (d : BitVec 7) (a : BitVec 7) (b : BitVec 7) : Statement (.isubS g d a b) := by
  intro w h
  cases h
  rw [decode_02]
  rfl

theorem isubI (g : BitVec 2) (d : BitVec 7) (a : BitVec 7) (i : BitVec 7) : Statement (.isubI g d a i) := by
  intro w h
  cases h
  rw [decode_03]
  rfl

theorem isubUint (d : BitVec 7) (a : BitVec 7) (b : BitVec 7) : Statement (.isubUint d a b) := by
  intro w h
  cases h
  rw [decode_38]
  rfl

theorem isubUintI (d : BitVec 7) (a : BitVec 7) (i : BitVec 7) : Statement (.isubUintI d a i) := by
  intro w h
  cases h
  rw [decode_3A]
  rfl

theorem imulV (g : BitVec 2) (d : BitVec 7) (a : BitVec 7) (b : BitVec 7) : Statement (.imulV g d a b) := by
  intro w h
  cases h
  rw [decode_01]
  rfl

theorem imulS (g : BitVec 2) (d : BitVec 7) (a : BitVec 7) (b : BitVec 7) : Statement (.imulS g d a b) := by
  intro w h
  cases h
  rw [decode_02]
  rfl

theorem imulI (g : BitVec 2) (d : BitVec 7) (a : BitVec 7) (i : BitVec 7) : Statement (.imulI g d a i) := by
  intro w h
  cases h
  rw [decode_03]
  rfl

theorem imulUint (d : BitVec 7) (a : BitVec 7) (b : BitVec 7) : Statement (.imulUint d a b) := by
  intro w h
  cases h
  rw [decode_38]
  rfl

theorem imulUintI (d : BitVec 7) (a : BitVec 7) (i : BitVec 7) : Statement (.imulUintI d a i) := by
  intro w h
  cases h
  rw [decode_3A]
  rfl

theorem imulhV (g : BitVec 2) (d : BitVec 7) (a : BitVec 7) (b : BitVec 7) : Statement (.imulhV g d a b) := by
  intro w h
  cases h
  rw [decode_01]
  rfl

theorem imulhS (g : BitVec 2) (d : BitVec 7) (a : BitVec 7) (b : BitVec 7) : Statement (.imulhS g d a b) := by
  intro w h
  cases h
  rw [decode_02]
  rfl

theorem imulhI (g : BitVec 2) (d : BitVec 7) (a : BitVec 7) (i : BitVec 7) : Statement (.imulhI g d a i) := by
  intro w h
  cases h
  rw [decode_03]
  rfl

theorem imulhUint (d : BitVec 7) (a : BitVec 7) (b : BitVec 7) : Statement (.imulhUint d a b) := by
  intro w h
  cases h
  rw [decode_38]
  rfl

theorem imulhUintI (d : BitVec 7) (a : BitVec 7) (i : BitVec 7) : Statement (.imulhUintI d a i) := by
  intro w h
  cases h
  rw [decode_3A]
  rfl

theorem iminV (g : BitVec 2) (d : BitVec 7) (a : BitVec 7) (b : BitVec 7) : Statement (.iminV g d a b) := by
  intro w h
  cases h
  rw [decode_01]
  rfl

theorem iminS (g : BitVec 2) (d : BitVec 7) (a : BitVec 7) (b : BitVec 7) : Statement (.iminS g d a b) := by
  intro w h
  cases h
  rw [decode_02]
  rfl

theorem iminI (g : BitVec 2) (d : BitVec 7) (a : BitVec 7) (i : BitVec 7) : Statement (.iminI g d a i) := by
  intro w h
  cases h
  rw [decode_03]
  rfl

theorem iminUint (d : BitVec 7) (a : BitVec 7) (b : BitVec 7) : Statement (.iminUint d a b) := by
  intro w h
  cases h
  rw [decode_38]
  rfl

theorem iminUintI (d : BitVec 7) (a : BitVec 7) (i : BitVec 7) : Statement (.iminUintI d a i) := by
  intro w h
  cases h
  rw [decode_3A]
  rfl

theorem imaxV (g : BitVec 2) (d : BitVec 7) (a : BitVec 7) (b : BitVec 7) : Statement (.imaxV g d a b) := by
  intro w h
  cases h
  rw [decode_01]
  rfl

theorem imaxS (g : BitVec 2) (d : BitVec 7) (a : BitVec 7) (b : BitVec 7) : Statement (.imaxS g d a b) := by
  intro w h
  cases h
  rw [decode_02]
  rfl

theorem imaxI (g : BitVec 2) (d : BitVec 7) (a : BitVec 7) (i : BitVec 7) : Statement (.imaxI g d a i) := by
  intro w h
  cases h
  rw [decode_03]
  rfl

theorem imaxUint (d : BitVec 7) (a : BitVec 7) (b : BitVec 7) : Statement (.imaxUint d a b) := by
  intro w h
  cases h
  rw [decode_38]
  rfl

theorem imaxUintI (d : BitVec 7) (a : BitVec 7) (i : BitVec 7) : Statement (.imaxUintI d a i) := by
  intro w h
  cases h
  rw [decode_3A]
  rfl

theorem iaddcV (g : BitVec 2) (d : BitVec 7) (a : BitVec 7) (b : BitVec 7) : Statement (.iaddcV g d a b) := by
  intro w h
  cases h
  rw [decode_01]
  rfl

theorem iaddcS (g : BitVec 2) (d : BitVec 7) (a : BitVec 7) (b : BitVec 7) : Statement (.iaddcS g d a b) := by
  intro w h
  cases h
  rw [decode_02]
  rfl

theorem iaddcI (g : BitVec 2) (d : BitVec 7) (a : BitVec 7) (i : BitVec 7) : Statement (.iaddcI g d a i) := by
  intro w h
  cases h
  rw [decode_03]
  rfl

theorem iaddcUint (d : BitVec 7) (a : BitVec 7) (b : BitVec 7) : Statement (.iaddcUint d a b) := by
  intro w h
  cases h
  rw [decode_38]
  rfl

theorem iaddcUintI (d : BitVec 7) (a : BitVec 7) (i : BitVec 7) : Statement (.iaddcUintI d a i) := by
  intro w h
  cases h
  rw [decode_3A]
  rfl

theorem isubcV (g : BitVec 2) (d : BitVec 7) (a : BitVec 7) (b : BitVec 7) : Statement (.isubcV g d a b) := by
  intro w h
  cases h
  rw [decode_01]
  rfl

theorem isubcS (g : BitVec 2) (d : BitVec 7) (a : BitVec 7) (b : BitVec 7) : Statement (.isubcS g d a b) := by
  intro w h
  cases h
  rw [decode_02]
  rfl

theorem isubcI (g : BitVec 2) (d : BitVec 7) (a : BitVec 7) (i : BitVec 7) : Statement (.isubcI g d a i) := by
  intro w h
  cases h
  rw [decode_03]
  rfl

theorem isubcUint (d : BitVec 7) (a : BitVec 7) (b : BitVec 7) : Statement (.isubcUint d a b) := by
  intro w h
  cases h
  rw [decode_38]
  rfl

theorem isubcUintI (d : BitVec 7) (a : BitVec 7) (i : BitVec 7) : Statement (.isubcUintI d a i) := by
  intro w h
  cases h
  rw [decode_3A]
  rfl

theorem andV (g : BitVec 2) (d : BitVec 7) (a : BitVec 7) (b : BitVec 7) : Statement (.andV g d a b) := by
  intro w h
  cases h
  rw [decode_04]
  rfl

theorem andS (g : BitVec 2) (d : BitVec 7) (a : BitVec 7) (b : BitVec 7) : Statement (.andS g d a b) := by
  intro w h
  cases h
  rw [decode_05]
  rfl

theorem andI (g : BitVec 2) (d : BitVec 7) (a : BitVec 7) (i : BitVec 7) : Statement (.andI g d a i) := by
  intro w h
  cases h
  rw [decode_06]
  rfl

theorem andUlog (d : BitVec 7) (a : BitVec 7) (b : BitVec 7) : Statement (.andUlog d a b) := by
  intro w h
  cases h
  rw [decode_39]
  rfl

theorem andUlogI (d : BitVec 7) (a : BitVec 7) (i : BitVec 7) : Statement (.andUlogI d a i) := by
  intro w h
  cases h
  rw [decode_3B]
  rfl

theorem orV (g : BitVec 2) (d : BitVec 7) (a : BitVec 7) (b : BitVec 7) : Statement (.orV g d a b) := by
  intro w h
  cases h
  rw [decode_04]
  rfl

theorem orS (g : BitVec 2) (d : BitVec 7) (a : BitVec 7) (b : BitVec 7) : Statement (.orS g d a b) := by
  intro w h
  cases h
  rw [decode_05]
  rfl

theorem orI (g : BitVec 2) (d : BitVec 7) (a : BitVec 7) (i : BitVec 7) : Statement (.orI g d a i) := by
  intro w h
  cases h
  rw [decode_06]
  rfl

theorem orUlog (d : BitVec 7) (a : BitVec 7) (b : BitVec 7) : Statement (.orUlog d a b) := by
  intro w h
  cases h
  rw [decode_39]
  rfl

theorem orUlogI (d : BitVec 7) (a : BitVec 7) (i : BitVec 7) : Statement (.orUlogI d a i) := by
  intro w h
  cases h
  rw [decode_3B]
  rfl

theorem xorV (g : BitVec 2) (d : BitVec 7) (a : BitVec 7) (b : BitVec 7) : Statement (.xorV g d a b) := by
  intro w h
  cases h
  rw [decode_04]
  rfl

theorem xorS (g : BitVec 2) (d : BitVec 7) (a : BitVec 7) (b : BitVec 7) : Statement (.xorS g d a b) := by
  intro w h
  cases h
  rw [decode_05]
  rfl

theorem xorI (g : BitVec 2) (d : BitVec 7) (a : BitVec 7) (i : BitVec 7) : Statement (.xorI g d a i) := by
  intro w h
  cases h
  rw [decode_06]
  rfl

theorem xorUlog (d : BitVec 7) (a : BitVec 7) (b : BitVec 7) : Statement (.xorUlog d a b) := by
  intro w h
  cases h
  rw [decode_39]
  rfl

theorem xorUlogI (d : BitVec 7) (a : BitVec 7) (i : BitVec 7) : Statement (.xorUlogI d a i) := by
  intro w h
  cases h
  rw [decode_3B]
  rfl

theorem andnV (g : BitVec 2) (d : BitVec 7) (a : BitVec 7) (b : BitVec 7) : Statement (.andnV g d a b) := by
  intro w h
  cases h
  rw [decode_04]
  rfl

theorem andnS (g : BitVec 2) (d : BitVec 7) (a : BitVec 7) (b : BitVec 7) : Statement (.andnS g d a b) := by
  intro w h
  cases h
  rw [decode_05]
  rfl

theorem andnI (g : BitVec 2) (d : BitVec 7) (a : BitVec 7) (i : BitVec 7) : Statement (.andnI g d a i) := by
  intro w h
  cases h
  rw [decode_06]
  rfl

theorem andnUlog (d : BitVec 7) (a : BitVec 7) (b : BitVec 7) : Statement (.andnUlog d a b) := by
  intro w h
  cases h
  rw [decode_39]
  rfl

theorem andnUlogI (d : BitVec 7) (a : BitVec 7) (i : BitVec 7) : Statement (.andnUlogI d a i) := by
  intro w h
  cases h
  rw [decode_3B]
  rfl

theorem shlV (g : BitVec 2) (d : BitVec 7) (a : BitVec 7) (b : BitVec 7) : Statement (.shlV g d a b) := by
  intro w h
  cases h
  rw [decode_04]
  rfl

theorem shlS (g : BitVec 2) (d : BitVec 7) (a : BitVec 7) (b : BitVec 7) : Statement (.shlS g d a b) := by
  intro w h
  cases h
  rw [decode_05]
  rfl

theorem shlI (g : BitVec 2) (d : BitVec 7) (a : BitVec 7) (i : BitVec 7) : Statement (.shlI g d a i) := by
  intro w h
  cases h
  rw [decode_06]
  rfl

theorem shlUlog (d : BitVec 7) (a : BitVec 7) (b : BitVec 7) : Statement (.shlUlog d a b) := by
  intro w h
  cases h
  rw [decode_39]
  rfl

theorem shlUlogI (d : BitVec 7) (a : BitVec 7) (i : BitVec 7) : Statement (.shlUlogI d a i) := by
  intro w h
  cases h
  rw [decode_3B]
  rfl

theorem shrV (g : BitVec 2) (d : BitVec 7) (a : BitVec 7) (b : BitVec 7) : Statement (.shrV g d a b) := by
  intro w h
  cases h
  rw [decode_04]
  rfl

theorem shrS (g : BitVec 2) (d : BitVec 7) (a : BitVec 7) (b : BitVec 7) : Statement (.shrS g d a b) := by
  intro w h
  cases h
  rw [decode_05]
  rfl

theorem shrI (g : BitVec 2) (d : BitVec 7) (a : BitVec 7) (i : BitVec 7) : Statement (.shrI g d a i) := by
  intro w h
  cases h
  rw [decode_06]
  rfl

theorem shrUlog (d : BitVec 7) (a : BitVec 7) (b : BitVec 7) : Statement (.shrUlog d a b) := by
  intro w h
  cases h
  rw [decode_39]
  rfl

theorem shrUlogI (d : BitVec 7) (a : BitVec 7) (i : BitVec 7) : Statement (.shrUlogI d a i) := by
  intro w h
  cases h
  rw [decode_3B]
  rfl

theorem sarV (g : BitVec 2) (d : BitVec 7) (a : BitVec 7) (b : BitVec 7) : Statement (.sarV g d a b) := by
  intro w h
  cases h
  rw [decode_04]
  rfl

theorem sarS (g : BitVec 2) (d : BitVec 7) (a : BitVec 7) (b : BitVec 7) : Statement (.sarS g d a b) := by
  intro w h
  cases h
  rw [decode_05]
  rfl

theorem sarI (g : BitVec 2) (d : BitVec 7) (a : BitVec 7) (i : BitVec 7) : Statement (.sarI g d a i) := by
  intro w h
  cases h
  rw [decode_06]
  rfl

theorem sarUlog (d : BitVec 7) (a : BitVec 7) (b : BitVec 7) : Statement (.sarUlog d a b) := by
  intro w h
  cases h
  rw [decode_39]
  rfl

theorem sarUlogI (d : BitVec 7) (a : BitVec 7) (i : BitVec 7) : Statement (.sarUlogI d a i) := by
  intro w h
  cases h
  rw [decode_3B]
  rfl

theorem rotlV (g : BitVec 2) (d : BitVec 7) (a : BitVec 7) (b : BitVec 7) : Statement (.rotlV g d a b) := by
  intro w h
  cases h
  rw [decode_04]
  rfl

theorem rotlS (g : BitVec 2) (d : BitVec 7) (a : BitVec 7) (b : BitVec 7) : Statement (.rotlS g d a b) := by
  intro w h
  cases h
  rw [decode_05]
  rfl

theorem rotlI (g : BitVec 2) (d : BitVec 7) (a : BitVec 7) (i : BitVec 7) : Statement (.rotlI g d a i) := by
  intro w h
  cases h
  rw [decode_06]
  rfl

theorem rotlUlog (d : BitVec 7) (a : BitVec 7) (b : BitVec 7) : Statement (.rotlUlog d a b) := by
  intro w h
  cases h
  rw [decode_39]
  rfl

theorem rotlUlogI (d : BitVec 7) (a : BitVec 7) (i : BitVec 7) : Statement (.rotlUlogI d a i) := by
  intro w h
  cases h
  rw [decode_3B]
  rfl

theorem idivV (g : BitVec 2) (d : BitVec 7) (a : BitVec 7) (b : BitVec 7) : Statement (.idivV g d a b) := by
  intro w h
  cases h
  rw [decode_07]
  rfl

theorem idivS (g : BitVec 2) (d : BitVec 7) (a : BitVec 7) (b : BitVec 7) : Statement (.idivS g d a b) := by
  intro w h
  cases h
  rw [decode_08]
  rfl

theorem iremV (g : BitVec 2) (d : BitVec 7) (a : BitVec 7) (b : BitVec 7) : Statement (.iremV g d a b) := by
  intro w h
  cases h
  rw [decode_07]
  rfl

theorem iremS (g : BitVec 2) (d : BitVec 7) (a : BitVec 7) (b : BitVec 7) : Statement (.iremS g d a b) := by
  intro w h
  cases h
  rw [decode_08]
  rfl

theorem iabsdV (g : BitVec 2) (d : BitVec 7) (a : BitVec 7) (b : BitVec 7) : Statement (.iabsdV g d a b) := by
  intro w h
  cases h
  rw [decode_07]
  rfl

theorem iabsdS (g : BitVec 2) (d : BitVec 7) (a : BitVec 7) (b : BitVec 7) : Statement (.iabsdS g d a b) := by
  intro w h
  cases h
  rw [decode_08]
  rfl

theorem iaddsatV (g : BitVec 2) (d : BitVec 7) (a : BitVec 7) (b : BitVec 7) : Statement (.iaddsatV g d a b) := by
  intro w h
  cases h
  rw [decode_07]
  rfl

theorem iaddsatS (g : BitVec 2) (d : BitVec 7) (a : BitVec 7) (b : BitVec 7) : Statement (.iaddsatS g d a b) := by
  intro w h
  cases h
  rw [decode_08]
  rfl

theorem isubsatV (g : BitVec 2) (d : BitVec 7) (a : BitVec 7) (b : BitVec 7) : Statement (.isubsatV g d a b) := by
  intro w h
  cases h
  rw [decode_07]
  rfl

theorem isubsatS (g : BitVec 2) (d : BitVec 7) (a : BitVec 7) (b : BitVec 7) : Statement (.isubsatS g d a b) := by
  intro w h
  cases h
  rw [decode_08]
  rfl

theorem leaV (g : BitVec 2) (d : BitVec 7) (a : BitVec 7) (b : BitVec 7) : Statement (.leaV g d a b) := by
  intro w h
  cases h
  rw [decode_07]
  rfl

theorem leaS (g : BitVec 2) (d : BitVec 7) (a : BitVec 7) (b : BitVec 7) : Statement (.leaS g d a b) := by
  intro w h
  cases h
  rw [decode_08]
  rfl

theorem bpermV (g : BitVec 2) (d : BitVec 7) (a : BitVec 7) (b : BitVec 7) : Statement (.bpermV g d a b) := by
  intro w h
  cases h
  rw [decode_07]
  rfl

theorem bpermS (g : BitVec 2) (d : BitVec 7) (a : BitVec 7) (b : BitVec 7) : Statement (.bpermS g d a b) := by
  intro w h
  cases h
  rw [decode_08]
  rfl

theorem imadV (g : BitVec 2) (d : BitVec 7) (a : BitVec 7) (b : BitVec 7) : Statement (.imadV g d a b) := by
  intro w h
  cases h
  rw [decode_07]
  rfl

theorem imadS (g : BitVec 2) (d : BitVec 7) (a : BitVec 7) (b : BitVec 7) : Statement (.imadS g d a b) := by
  intro w h
  cases h
  rw [decode_08]
  rfl

theorem clz (g : BitVec 2) (d : BitVec 7) (a : BitVec 7) : Statement (.clz g d a) := by
  intro w h
  cases h
  rw [decode_09]
  rfl

theorem ctz (g : BitVec 2) (d : BitVec 7) (a : BitVec 7) : Statement (.ctz g d a) := by
  intro w h
  cases h
  rw [decode_09]
  rfl

theorem popc (g : BitVec 2) (d : BitVec 7) (a : BitVec 7) : Statement (.popc g d a) := by
  intro w h
  cases h
  rw [decode_09]
  rfl

theorem brev (g : BitVec 2) (d : BitVec 7) (a : BitVec 7) : Statement (.brev g d a) := by
  intro w h
  cases h
  rw [decode_09]
  rfl

theorem iabs (g : BitVec 2) (d : BitVec 7) (a : BitVec 7) : Statement (.iabs g d a) := by
  intro w h
  cases h
  rw [decode_09]
  rfl

theorem ineg (g : BitVec 2) (d : BitVec 7) (a : BitVec 7) : Statement (.ineg g d a) := by
  intro w h
  cases h
  rw [decode_09]
  rfl

theorem notV (g : BitVec 2) (d : BitVec 7) (a : BitVec 7) : Statement (.notV g d a) := by
  intro w h
  cases h
  rw [decode_09]
  rfl

theorem icvt (g : BitVec 2) (d : BitVec 7) (a : BitVec 7) (s : BitVec 3) (x : BitVec 3) (t : BitVec 1) : Statement (.icvt g d a s x t) := by
  intro w h
  cases h
  rw [decode_09]
  simp [decode09, bits, part_3_3_1_0, part_3_3_1_1, part_3_3_1_2]

theorem bfx (g : BitVec 2) (d : BitVec 7) (a : BitVec 7) (b : BitVec 7) : Statement (.bfx g d a b) := by
  intro w h
  cases h
  rw [decode_0A]
  rfl

theorem bfxn (g : BitVec 2) (d : BitVec 7) (a : BitVec 7) (b : BitVec 7) : Statement (.bfxn g d a b) := by
  intro w h
  cases h
  rw [decode_0A]
  rfl

theorem bfi (g : BitVec 2) (d : BitVec 7) (a : BitVec 7) (b : BitVec 7) : Statement (.bfi g d a b) := by
  intro w h
  cases h
  rw [decode_0A]
  rfl

theorem fshl (g : BitVec 2) (d : BitVec 7) (a : BitVec 7) (b : BitVec 7) : Statement (.fshl g d a b) := by
  intro w h
  cases h
  rw [decode_0A]
  rfl

theorem fshr (g : BitVec 2) (d : BitVec 7) (a : BitVec 7) (b : BitVec 7) : Statement (.fshr g d a b) := by
  intro w h
  cases h
  rw [decode_0A]
  rfl

theorem idot4 (g : BitVec 2) (d : BitVec 7) (a : BitVec 7) (b : BitVec 7) : Statement (.idot4 g d a b) := by
  intro w h
  cases h
  rw [decode_1E]
  rfl

theorem idot4n (g : BitVec 2) (d : BitVec 7) (a : BitVec 7) (b : BitVec 7) : Statement (.idot4n g d a b) := by
  intro w h
  cases h
  rw [decode_1E]
  rfl

theorem idot4m (g : BitVec 2) (d : BitVec 7) (a : BitVec 7) (b : BitVec 7) : Statement (.idot4m g d a b) := by
  intro w h
  cases h
  rw [decode_1E]
  rfl

theorem idot2 (g : BitVec 2) (d : BitVec 7) (a : BitVec 7) (b : BitVec 7) : Statement (.idot2 g d a b) := by
  intro w h
  cases h
  rw [decode_1E]
  rfl

theorem isetEqV (g : BitVec 2) (c : BitVec 4) (p : BitVec 3) (a : BitVec 7) (b : BitVec 7) : Statement (.isetEqV g c p a b) := by
  intro w h
  cases h
  rw [decode_0B]
  simp [decode0B, bits, part_4_3_0, part_4_3_1]

theorem isetEqS (g : BitVec 2) (c : BitVec 4) (p : BitVec 3) (a : BitVec 7) (b : BitVec 7) : Statement (.isetEqS g c p a b) := by
  intro w h
  cases h
  rw [decode_0C]
  simp [decode0C, bits, part_4_3_0, part_4_3_1]

theorem isetEqI (g : BitVec 2) (c : BitVec 4) (p : BitVec 3) (a : BitVec 7) (i : BitVec 7) : Statement (.isetEqI g c p a i) := by
  intro w h
  cases h
  rw [decode_0D]
  simp [decode0D, bits, part_4_3_0, part_4_3_1]

theorem isetNeV (g : BitVec 2) (c : BitVec 4) (p : BitVec 3) (a : BitVec 7) (b : BitVec 7) : Statement (.isetNeV g c p a b) := by
  intro w h
  cases h
  rw [decode_0B]
  simp [decode0B, bits, part_4_3_0, part_4_3_1]

theorem isetNeS (g : BitVec 2) (c : BitVec 4) (p : BitVec 3) (a : BitVec 7) (b : BitVec 7) : Statement (.isetNeS g c p a b) := by
  intro w h
  cases h
  rw [decode_0C]
  simp [decode0C, bits, part_4_3_0, part_4_3_1]

theorem isetNeI (g : BitVec 2) (c : BitVec 4) (p : BitVec 3) (a : BitVec 7) (i : BitVec 7) : Statement (.isetNeI g c p a i) := by
  intro w h
  cases h
  rw [decode_0D]
  simp [decode0D, bits, part_4_3_0, part_4_3_1]

theorem isetLtV (g : BitVec 2) (c : BitVec 4) (p : BitVec 3) (a : BitVec 7) (b : BitVec 7) : Statement (.isetLtV g c p a b) := by
  intro w h
  cases h
  rw [decode_0B]
  simp [decode0B, bits, part_4_3_0, part_4_3_1]

theorem isetLtS (g : BitVec 2) (c : BitVec 4) (p : BitVec 3) (a : BitVec 7) (b : BitVec 7) : Statement (.isetLtS g c p a b) := by
  intro w h
  cases h
  rw [decode_0C]
  simp [decode0C, bits, part_4_3_0, part_4_3_1]

theorem isetLtI (g : BitVec 2) (c : BitVec 4) (p : BitVec 3) (a : BitVec 7) (i : BitVec 7) : Statement (.isetLtI g c p a i) := by
  intro w h
  cases h
  rw [decode_0D]
  simp [decode0D, bits, part_4_3_0, part_4_3_1]

theorem isetGeV (g : BitVec 2) (c : BitVec 4) (p : BitVec 3) (a : BitVec 7) (b : BitVec 7) : Statement (.isetGeV g c p a b) := by
  intro w h
  cases h
  rw [decode_0B]
  simp [decode0B, bits, part_4_3_0, part_4_3_1]

theorem isetGeS (g : BitVec 2) (c : BitVec 4) (p : BitVec 3) (a : BitVec 7) (b : BitVec 7) : Statement (.isetGeS g c p a b) := by
  intro w h
  cases h
  rw [decode_0C]
  simp [decode0C, bits, part_4_3_0, part_4_3_1]

theorem isetGeI (g : BitVec 2) (c : BitVec 4) (p : BitVec 3) (a : BitVec 7) (i : BitVec 7) : Statement (.isetGeI g c p a i) := by
  intro w h
  cases h
  rw [decode_0D]
  simp [decode0D, bits, part_4_3_0, part_4_3_1]

theorem isetLtnV (g : BitVec 2) (c : BitVec 4) (p : BitVec 3) (a : BitVec 7) (b : BitVec 7) : Statement (.isetLtnV g c p a b) := by
  intro w h
  cases h
  rw [decode_0B]
  simp [decode0B, bits, part_4_3_0, part_4_3_1]

theorem isetLtnS (g : BitVec 2) (c : BitVec 4) (p : BitVec 3) (a : BitVec 7) (b : BitVec 7) : Statement (.isetLtnS g c p a b) := by
  intro w h
  cases h
  rw [decode_0C]
  simp [decode0C, bits, part_4_3_0, part_4_3_1]

theorem isetLtnI (g : BitVec 2) (c : BitVec 4) (p : BitVec 3) (a : BitVec 7) (i : BitVec 7) : Statement (.isetLtnI g c p a i) := by
  intro w h
  cases h
  rw [decode_0D]
  simp [decode0D, bits, part_4_3_0, part_4_3_1]

theorem isetGenV (g : BitVec 2) (c : BitVec 4) (p : BitVec 3) (a : BitVec 7) (b : BitVec 7) : Statement (.isetGenV g c p a b) := by
  intro w h
  cases h
  rw [decode_0B]
  simp [decode0B, bits, part_4_3_0, part_4_3_1]

theorem isetGenS (g : BitVec 2) (c : BitVec 4) (p : BitVec 3) (a : BitVec 7) (b : BitVec 7) : Statement (.isetGenS g c p a b) := by
  intro w h
  cases h
  rw [decode_0C]
  simp [decode0C, bits, part_4_3_0, part_4_3_1]

theorem isetGenI (g : BitVec 2) (c : BitVec 4) (p : BitVec 3) (a : BitVec 7) (i : BitVec 7) : Statement (.isetGenI g c p a i) := by
  intro w h
  cases h
  rw [decode_0D]
  simp [decode0D, bits, part_4_3_0, part_4_3_1]

theorem isetLeV (g : BitVec 2) (c : BitVec 4) (p : BitVec 3) (a : BitVec 7) (b : BitVec 7) : Statement (.isetLeV g c p a b) := by
  intro w h
  cases h
  rw [decode_0B]
  simp [decode0B, bits, part_4_3_0, part_4_3_1]

theorem isetLeS (g : BitVec 2) (c : BitVec 4) (p : BitVec 3) (a : BitVec 7) (b : BitVec 7) : Statement (.isetLeS g c p a b) := by
  intro w h
  cases h
  rw [decode_0C]
  simp [decode0C, bits, part_4_3_0, part_4_3_1]

theorem isetLeI (g : BitVec 2) (c : BitVec 4) (p : BitVec 3) (a : BitVec 7) (i : BitVec 7) : Statement (.isetLeI g c p a i) := by
  intro w h
  cases h
  rw [decode_0D]
  simp [decode0D, bits, part_4_3_0, part_4_3_1]

theorem isetGtV (g : BitVec 2) (c : BitVec 4) (p : BitVec 3) (a : BitVec 7) (b : BitVec 7) : Statement (.isetGtV g c p a b) := by
  intro w h
  cases h
  rw [decode_0B]
  simp [decode0B, bits, part_4_3_0, part_4_3_1]

theorem isetGtS (g : BitVec 2) (c : BitVec 4) (p : BitVec 3) (a : BitVec 7) (b : BitVec 7) : Statement (.isetGtS g c p a b) := by
  intro w h
  cases h
  rw [decode_0C]
  simp [decode0C, bits, part_4_3_0, part_4_3_1]

theorem isetGtI (g : BitVec 2) (c : BitVec 4) (p : BitVec 3) (a : BitVec 7) (i : BitVec 7) : Statement (.isetGtI g c p a i) := by
  intro w h
  cases h
  rw [decode_0D]
  simp [decode0D, bits, part_4_3_0, part_4_3_1]

theorem usetEq (c : BitVec 4) (p : BitVec 3) (a : BitVec 7) (b : BitVec 7) : Statement (.usetEq c p a b) := by
  intro w h
  cases h
  rw [decode_3D]
  simp [decode3D, bits, part_4_3_0, part_4_3_1]

theorem usetNe (c : BitVec 4) (p : BitVec 3) (a : BitVec 7) (b : BitVec 7) : Statement (.usetNe c p a b) := by
  intro w h
  cases h
  rw [decode_3D]
  simp [decode3D, bits, part_4_3_0, part_4_3_1]

theorem usetLt (c : BitVec 4) (p : BitVec 3) (a : BitVec 7) (b : BitVec 7) : Statement (.usetLt c p a b) := by
  intro w h
  cases h
  rw [decode_3D]
  simp [decode3D, bits, part_4_3_0, part_4_3_1]

theorem usetGe (c : BitVec 4) (p : BitVec 3) (a : BitVec 7) (b : BitVec 7) : Statement (.usetGe c p a b) := by
  intro w h
  cases h
  rw [decode_3D]
  simp [decode3D, bits, part_4_3_0, part_4_3_1]

theorem usetLtn (c : BitVec 4) (p : BitVec 3) (a : BitVec 7) (b : BitVec 7) : Statement (.usetLtn c p a b) := by
  intro w h
  cases h
  rw [decode_3D]
  simp [decode3D, bits, part_4_3_0, part_4_3_1]

theorem usetGen (c : BitVec 4) (p : BitVec 3) (a : BitVec 7) (b : BitVec 7) : Statement (.usetGen c p a b) := by
  intro w h
  cases h
  rw [decode_3D]
  simp [decode3D, bits, part_4_3_0, part_4_3_1]

theorem usetLe (c : BitVec 4) (p : BitVec 3) (a : BitVec 7) (b : BitVec 7) : Statement (.usetLe c p a b) := by
  intro w h
  cases h
  rw [decode_3D]
  simp [decode3D, bits, part_4_3_0, part_4_3_1]

theorem usetGt (c : BitVec 4) (p : BitVec 3) (a : BitVec 7) (b : BitVec 7) : Statement (.usetGt c p a b) := by
  intro w h
  cases h
  rw [decode_3D]
  simp [decode3D, bits, part_4_3_0, part_4_3_1]

theorem mov (g : BitVec 2) (d : BitVec 7) (a : BitVec 7) : Statement (.mov g d a) := by
  intro w h
  cases h
  rw [decode_0E]
  rfl

theorem sel (g : BitVec 2) (d : BitVec 7) (a : BitVec 7) (b : BitVec 7) : Statement (.sel g d a b) := by
  intro w h
  cases h
  rw [decode_0E]
  rfl

theorem bcast (g : BitVec 2) (d : BitVec 7) (b : BitVec 7) : Statement (.bcast g d b) := by
  intro w h
  cases h
  rw [decode_0E]
  rfl

theorem extract (g : BitVec 2) (d : BitVec 7) (a : BitVec 7) (l : BitVec 5) : Statement (.extract g d a l) := by
  intro w h
  cases h
  rw [decode_0E]
  simp [decode0E, bits, part_2_5_0, part_2_5_1]

theorem pmovToVector (g : BitVec 2) (d : BitVec 7) : Statement (.pmovToVector g d) := by
  intro w h
  cases h
  rw [decode_0E]
  rfl

theorem pmovToPredicates (g : BitVec 2) (a : BitVec 7) : Statement (.pmovToPredicates g a) := by
  intro w h
  cases h
  rw [decode_0E]
  simp [decode0E, bits]

theorem pset (g : BitVec 2) (c : BitVec 4) (p : BitVec 3) (a : BitVec 7) : Statement (.pset g c p a) := by
  intro w h
  cases h
  rw [decode_0E]
  simp [decode0E, bits, part_4_3_0, part_4_3_1]

theorem plop (g : BitVec 2) (l : BitVec 4) (p : BitVec 3) (a : BitVec 3) (b : BitVec 3) : Statement (.plop g l p a b) := by
  intro w h
  cases h
  rw [decode_0E]
  simp [decode0E, bits, part_4_3_0, part_4_3_1]

theorem vote (g : BitVec 2) (d : BitVec 7) (a : BitVec 3) (m : BitVec 2) : Statement (.vote g d a m) := by
  intro w h
  cases h
  rw [decode_0E]
  simp [decode0E, bits, part_4_3_0, part_4_3_1, part_5_2_0, part_5_2_1]

theorem moviVector (g : BitVec 2) (d : BitVec 7) (i : BitVec 16) : Statement (.moviVector g d i) := by
  intro w h
  cases h
  rw [decode_3C]
  rfl

theorem moviScalar (d : BitVec 7) (i : BitVec 16) : Statement (.moviScalar d i) := by
  intro w h
  cases h
  rw [decode_3C]
  rfl

theorem faddV (g : BitVec 2) (d : BitVec 7) (a : BitVec 7) (b : BitVec 7) : Statement (.faddV g d a b) := by
  intro w h
  cases h
  rw [decode_10]
  rfl

theorem faddS (g : BitVec 2) (d : BitVec 7) (a : BitVec 7) (b : BitVec 7) : Statement (.faddS g d a b) := by
  intro w h
  cases h
  rw [decode_11]
  rfl

theorem fsubV (g : BitVec 2) (d : BitVec 7) (a : BitVec 7) (b : BitVec 7) : Statement (.fsubV g d a b) := by
  intro w h
  cases h
  rw [decode_10]
  rfl

theorem fsubS (g : BitVec 2) (d : BitVec 7) (a : BitVec 7) (b : BitVec 7) : Statement (.fsubS g d a b) := by
  intro w h
  cases h
  rw [decode_11]
  rfl

theorem fmulV (g : BitVec 2) (d : BitVec 7) (a : BitVec 7) (b : BitVec 7) : Statement (.fmulV g d a b) := by
  intro w h
  cases h
  rw [decode_10]
  rfl

theorem fmulS (g : BitVec 2) (d : BitVec 7) (a : BitVec 7) (b : BitVec 7) : Statement (.fmulS g d a b) := by
  intro w h
  cases h
  rw [decode_11]
  rfl

theorem ffmaV (g : BitVec 2) (d : BitVec 7) (a : BitVec 7) (b : BitVec 7) : Statement (.ffmaV g d a b) := by
  intro w h
  cases h
  rw [decode_10]
  rfl

theorem ffmaS (g : BitVec 2) (d : BitVec 7) (a : BitVec 7) (b : BitVec 7) : Statement (.ffmaS g d a b) := by
  intro w h
  cases h
  rw [decode_11]
  rfl

theorem fminV (g : BitVec 2) (d : BitVec 7) (a : BitVec 7) (b : BitVec 7) : Statement (.fminV g d a b) := by
  intro w h
  cases h
  rw [decode_10]
  rfl

theorem fminS (g : BitVec 2) (d : BitVec 7) (a : BitVec 7) (b : BitVec 7) : Statement (.fminS g d a b) := by
  intro w h
  cases h
  rw [decode_11]
  rfl

theorem fmaxV (g : BitVec 2) (d : BitVec 7) (a : BitVec 7) (b : BitVec 7) : Statement (.fmaxV g d a b) := by
  intro w h
  cases h
  rw [decode_10]
  rfl

theorem fmaxS (g : BitVec 2) (d : BitVec 7) (a : BitVec 7) (b : BitVec 7) : Statement (.fmaxS g d a b) := by
  intro w h
  cases h
  rw [decode_11]
  rfl

theorem fscaleV (g : BitVec 2) (d : BitVec 7) (a : BitVec 7) (b : BitVec 7) : Statement (.fscaleV g d a b) := by
  intro w h
  cases h
  rw [decode_10]
  rfl

theorem fscaleS (g : BitVec 2) (d : BitVec 7) (a : BitVec 7) (b : BitVec 7) : Statement (.fscaleS g d a b) := by
  intro w h
  cases h
  rw [decode_11]
  rfl

theorem fcopysignV (g : BitVec 2) (d : BitVec 7) (a : BitVec 7) (b : BitVec 7) : Statement (.fcopysignV g d a b) := by
  intro w h
  cases h
  rw [decode_10]
  rfl

theorem fcopysignS (g : BitVec 2) (d : BitVec 7) (a : BitVec 7) (b : BitVec 7) : Statement (.fcopysignS g d a b) := by
  intro w h
  cases h
  rw [decode_11]
  rfl

theorem fsetEqV (g : BitVec 2) (c : BitVec 4) (p : BitVec 3) (a : BitVec 7) (b : BitVec 7) : Statement (.fsetEqV g c p a b) := by
  intro w h
  cases h
  rw [decode_12]
  simp [decode12, bits, part_4_3_0, part_4_3_1]

theorem fsetEqS (g : BitVec 2) (c : BitVec 4) (p : BitVec 3) (a : BitVec 7) (b : BitVec 7) : Statement (.fsetEqS g c p a b) := by
  intro w h
  cases h
  rw [decode_13]
  simp [decode13, bits, part_4_3_0, part_4_3_1]

theorem fsetNeV (g : BitVec 2) (c : BitVec 4) (p : BitVec 3) (a : BitVec 7) (b : BitVec 7) : Statement (.fsetNeV g c p a b) := by
  intro w h
  cases h
  rw [decode_12]
  simp [decode12, bits, part_4_3_0, part_4_3_1]

theorem fsetNeS (g : BitVec 2) (c : BitVec 4) (p : BitVec 3) (a : BitVec 7) (b : BitVec 7) : Statement (.fsetNeS g c p a b) := by
  intro w h
  cases h
  rw [decode_13]
  simp [decode13, bits, part_4_3_0, part_4_3_1]

theorem fsetLtV (g : BitVec 2) (c : BitVec 4) (p : BitVec 3) (a : BitVec 7) (b : BitVec 7) : Statement (.fsetLtV g c p a b) := by
  intro w h
  cases h
  rw [decode_12]
  simp [decode12, bits, part_4_3_0, part_4_3_1]

theorem fsetLtS (g : BitVec 2) (c : BitVec 4) (p : BitVec 3) (a : BitVec 7) (b : BitVec 7) : Statement (.fsetLtS g c p a b) := by
  intro w h
  cases h
  rw [decode_13]
  simp [decode13, bits, part_4_3_0, part_4_3_1]

theorem fsetLeV (g : BitVec 2) (c : BitVec 4) (p : BitVec 3) (a : BitVec 7) (b : BitVec 7) : Statement (.fsetLeV g c p a b) := by
  intro w h
  cases h
  rw [decode_12]
  simp [decode12, bits, part_4_3_0, part_4_3_1]

theorem fsetLeS (g : BitVec 2) (c : BitVec 4) (p : BitVec 3) (a : BitVec 7) (b : BitVec 7) : Statement (.fsetLeS g c p a b) := by
  intro w h
  cases h
  rw [decode_13]
  simp [decode13, bits, part_4_3_0, part_4_3_1]

theorem fsetGtV (g : BitVec 2) (c : BitVec 4) (p : BitVec 3) (a : BitVec 7) (b : BitVec 7) : Statement (.fsetGtV g c p a b) := by
  intro w h
  cases h
  rw [decode_12]
  simp [decode12, bits, part_4_3_0, part_4_3_1]

theorem fsetGtS (g : BitVec 2) (c : BitVec 4) (p : BitVec 3) (a : BitVec 7) (b : BitVec 7) : Statement (.fsetGtS g c p a b) := by
  intro w h
  cases h
  rw [decode_13]
  simp [decode13, bits, part_4_3_0, part_4_3_1]

theorem fsetGeV (g : BitVec 2) (c : BitVec 4) (p : BitVec 3) (a : BitVec 7) (b : BitVec 7) : Statement (.fsetGeV g c p a b) := by
  intro w h
  cases h
  rw [decode_12]
  simp [decode12, bits, part_4_3_0, part_4_3_1]

theorem fsetGeS (g : BitVec 2) (c : BitVec 4) (p : BitVec 3) (a : BitVec 7) (b : BitVec 7) : Statement (.fsetGeS g c p a b) := by
  intro w h
  cases h
  rw [decode_13]
  simp [decode13, bits, part_4_3_0, part_4_3_1]

theorem fsetUnorderedV (g : BitVec 2) (c : BitVec 4) (p : BitVec 3) (a : BitVec 7) (b : BitVec 7) : Statement (.fsetUnorderedV g c p a b) := by
  intro w h
  cases h
  rw [decode_12]
  simp [decode12, bits, part_4_3_0, part_4_3_1]

theorem fsetUnorderedS (g : BitVec 2) (c : BitVec 4) (p : BitVec 3) (a : BitVec 7) (b : BitVec 7) : Statement (.fsetUnorderedS g c p a b) := by
  intro w h
  cases h
  rw [decode_13]
  simp [decode13, bits, part_4_3_0, part_4_3_1]

theorem fsetOrderedV (g : BitVec 2) (c : BitVec 4) (p : BitVec 3) (a : BitVec 7) (b : BitVec 7) : Statement (.fsetOrderedV g c p a b) := by
  intro w h
  cases h
  rw [decode_12]
  simp [decode12, bits, part_4_3_0, part_4_3_1]

theorem fsetOrderedS (g : BitVec 2) (c : BitVec 4) (p : BitVec 3) (a : BitVec 7) (b : BitVec 7) : Statement (.fsetOrderedS g c p a b) := by
  intro w h
  cases h
  rw [decode_13]
  simp [decode13, bits, part_4_3_0, part_4_3_1]

theorem frcp (g : BitVec 2) (d : BitVec 7) (a : BitVec 7) : Statement (.frcp g d a) := by
  intro w h
  cases h
  rw [decode_14]
  rfl

theorem frsq (g : BitVec 2) (d : BitVec 7) (a : BitVec 7) : Statement (.frsq g d a) := by
  intro w h
  cases h
  rw [decode_14]
  rfl

theorem fsqrt (g : BitVec 2) (d : BitVec 7) (a : BitVec 7) : Statement (.fsqrt g d a) := by
  intro w h
  cases h
  rw [decode_14]
  rfl

theorem fexp2 (g : BitVec 2) (d : BitVec 7) (a : BitVec 7) : Statement (.fexp2 g d a) := by
  intro w h
  cases h
  rw [decode_14]
  rfl

theorem flog2 (g : BitVec 2) (d : BitVec 7) (a : BitVec 7) : Statement (.flog2 g d a) := by
  intro w h
  cases h
  rw [decode_14]
  rfl

theorem fsin (g : BitVec 2) (d : BitVec 7) (a : BitVec 7) : Statement (.fsin g d a) := by
  intro w h
  cases h
  rw [decode_14]
  rfl

theorem fcos (g : BitVec 2) (d : BitVec 7) (a : BitVec 7) : Statement (.fcos g d a) := by
  intro w h
  cases h
  rw [decode_14]
  rfl

theorem ftanh (g : BitVec 2) (d : BitVec 7) (a : BitVec 7) : Statement (.ftanh g d a) := by
  intro w h
  cases h
  rw [decode_14]
  rfl

theorem fdiv (g : BitVec 2) (d : BitVec 7) (a : BitVec 7) (b : BitVec 7) : Statement (.fdiv g d a b) := by
  intro w h
  cases h
  rw [decode_15]
  rfl

theorem frnd (g : BitVec 2) (d : BitVec 7) (a : BitVec 7) : Statement (.frnd g d a) := by
  intro w h
  cases h
  rw [decode_15]
  rfl

theorem fclass (g : BitVec 2) (d : BitVec 7) (a : BitVec 7) : Statement (.fclass g d a) := by
  intro w h
  cases h
  rw [decode_15]
  rfl

theorem fabs (g : BitVec 2) (d : BitVec 7) (a : BitVec 7) : Statement (.fabs g d a) := by
  intro w h
  cases h
  rw [decode_15]
  rfl

theorem fneg (g : BitVec 2) (d : BitVec 7) (a : BitVec 7) : Statement (.fneg g d a) := by
  intro w h
  cases h
  rw [decode_15]
  rfl

theorem fsat (g : BitVec 2) (d : BitVec 7) (a : BitVec 7) : Statement (.fsat g d a) := by
  intro w h
  cases h
  rw [decode_15]
  rfl

theorem fmed3 (g : BitVec 2) (d : BitVec 7) (a : BitVec 7) (b : BitVec 7) : Statement (.fmed3 g d a b) := by
  intro w h
  cases h
  rw [decode_15]
  rfl

theorem dadd (g : BitVec 2) (d : BitVec 7) (a : BitVec 7) (b : BitVec 7) : Statement (.dadd g d a b) := by
  intro w h
  cases h
  rw [decode_16]
  rfl

theorem dsub (g : BitVec 2) (d : BitVec 7) (a : BitVec 7) (b : BitVec 7) : Statement (.dsub g d a b) := by
  intro w h
  cases h
  rw [decode_16]
  rfl

theorem dmul (g : BitVec 2) (d : BitVec 7) (a : BitVec 7) (b : BitVec 7) : Statement (.dmul g d a b) := by
  intro w h
  cases h
  rw [decode_16]
  rfl

theorem dfma (g : BitVec 2) (d : BitVec 7) (a : BitVec 7) (b : BitVec 7) : Statement (.dfma g d a b) := by
  intro w h
  cases h
  rw [decode_16]
  rfl

theorem dmin (g : BitVec 2) (d : BitVec 7) (a : BitVec 7) (b : BitVec 7) : Statement (.dmin g d a b) := by
  intro w h
  cases h
  rw [decode_16]
  rfl

theorem dmax (g : BitVec 2) (d : BitVec 7) (a : BitVec 7) (b : BitVec 7) : Statement (.dmax g d a b) := by
  intro w h
  cases h
  rw [decode_16]
  rfl

theorem ddiv (g : BitVec 2) (d : BitVec 7) (a : BitVec 7) (b : BitVec 7) : Statement (.ddiv g d a b) := by
  intro w h
  cases h
  rw [decode_16]
  rfl

theorem dsqrt (g : BitVec 2) (d : BitVec 7) (a : BitVec 7) : Statement (.dsqrt g d a) := by
  intro w h
  cases h
  rw [decode_16]
  rfl

theorem dsetEq (g : BitVec 2) (c : BitVec 4) (p : BitVec 3) (a : BitVec 7) (b : BitVec 7) : Statement (.dsetEq g c p a b) := by
  intro w h
  cases h
  rw [decode_17]
  simp [decode17, bits, part_4_3_0, part_4_3_1]

theorem dsetNe (g : BitVec 2) (c : BitVec 4) (p : BitVec 3) (a : BitVec 7) (b : BitVec 7) : Statement (.dsetNe g c p a b) := by
  intro w h
  cases h
  rw [decode_17]
  simp [decode17, bits, part_4_3_0, part_4_3_1]

theorem dsetLt (g : BitVec 2) (c : BitVec 4) (p : BitVec 3) (a : BitVec 7) (b : BitVec 7) : Statement (.dsetLt g c p a b) := by
  intro w h
  cases h
  rw [decode_17]
  simp [decode17, bits, part_4_3_0, part_4_3_1]

theorem dsetLe (g : BitVec 2) (c : BitVec 4) (p : BitVec 3) (a : BitVec 7) (b : BitVec 7) : Statement (.dsetLe g c p a b) := by
  intro w h
  cases h
  rw [decode_17]
  simp [decode17, bits, part_4_3_0, part_4_3_1]

theorem dsetGt (g : BitVec 2) (c : BitVec 4) (p : BitVec 3) (a : BitVec 7) (b : BitVec 7) : Statement (.dsetGt g c p a b) := by
  intro w h
  cases h
  rw [decode_17]
  simp [decode17, bits, part_4_3_0, part_4_3_1]

theorem dsetGe (g : BitVec 2) (c : BitVec 4) (p : BitVec 3) (a : BitVec 7) (b : BitVec 7) : Statement (.dsetGe g c p a b) := by
  intro w h
  cases h
  rw [decode_17]
  simp [decode17, bits, part_4_3_0, part_4_3_1]

theorem dsetUnordered (g : BitVec 2) (c : BitVec 4) (p : BitVec 3) (a : BitVec 7) (b : BitVec 7) : Statement (.dsetUnordered g c p a b) := by
  intro w h
  cases h
  rw [decode_17]
  simp [decode17, bits, part_4_3_0, part_4_3_1]

theorem dsetOrdered (g : BitVec 2) (c : BitVec 4) (p : BitVec 3) (a : BitVec 7) (b : BitVec 7) : Statement (.dsetOrdered g c p a b) := by
  intro w h
  cases h
  rw [decode_17]
  simp [decode17, bits, part_4_3_0, part_4_3_1]

theorem hadd2V (g : BitVec 2) (d : BitVec 7) (a : BitVec 7) (b : BitVec 7) : Statement (.hadd2V g d a b) := by
  intro w h
  cases h
  rw [decode_18]
  rfl

theorem hadd2S (g : BitVec 2) (d : BitVec 7) (a : BitVec 7) (b : BitVec 7) : Statement (.hadd2S g d a b) := by
  intro w h
  cases h
  rw [decode_19]
  rfl

theorem hmul2V (g : BitVec 2) (d : BitVec 7) (a : BitVec 7) (b : BitVec 7) : Statement (.hmul2V g d a b) := by
  intro w h
  cases h
  rw [decode_18]
  rfl

theorem hmul2S (g : BitVec 2) (d : BitVec 7) (a : BitVec 7) (b : BitVec 7) : Statement (.hmul2S g d a b) := by
  intro w h
  cases h
  rw [decode_19]
  rfl

theorem hfma2V (g : BitVec 2) (d : BitVec 7) (a : BitVec 7) (b : BitVec 7) : Statement (.hfma2V g d a b) := by
  intro w h
  cases h
  rw [decode_18]
  rfl

theorem hfma2S (g : BitVec 2) (d : BitVec 7) (a : BitVec 7) (b : BitVec 7) : Statement (.hfma2S g d a b) := by
  intro w h
  cases h
  rw [decode_19]
  rfl

theorem badd2V (g : BitVec 2) (d : BitVec 7) (a : BitVec 7) (b : BitVec 7) : Statement (.badd2V g d a b) := by
  intro w h
  cases h
  rw [decode_18]
  rfl

theorem badd2S (g : BitVec 2) (d : BitVec 7) (a : BitVec 7) (b : BitVec 7) : Statement (.badd2S g d a b) := by
  intro w h
  cases h
  rw [decode_19]
  rfl

theorem bmul2V (g : BitVec 2) (d : BitVec 7) (a : BitVec 7) (b : BitVec 7) : Statement (.bmul2V g d a b) := by
  intro w h
  cases h
  rw [decode_18]
  rfl

theorem bmul2S (g : BitVec 2) (d : BitVec 7) (a : BitVec 7) (b : BitVec 7) : Statement (.bmul2S g d a b) := by
  intro w h
  cases h
  rw [decode_19]
  rfl

theorem bfma2V (g : BitVec 2) (d : BitVec 7) (a : BitVec 7) (b : BitVec 7) : Statement (.bfma2V g d a b) := by
  intro w h
  cases h
  rw [decode_18]
  rfl

theorem bfma2S (g : BitVec 2) (d : BitVec 7) (a : BitVec 7) (b : BitVec 7) : Statement (.bfma2S g d a b) := by
  intro w h
  cases h
  rw [decode_19]
  rfl

theorem hmin2V (g : BitVec 2) (d : BitVec 7) (a : BitVec 7) (b : BitVec 7) : Statement (.hmin2V g d a b) := by
  intro w h
  cases h
  rw [decode_18]
  rfl

theorem hmin2S (g : BitVec 2) (d : BitVec 7) (a : BitVec 7) (b : BitVec 7) : Statement (.hmin2S g d a b) := by
  intro w h
  cases h
  rw [decode_19]
  rfl

theorem hmax2V (g : BitVec 2) (d : BitVec 7) (a : BitVec 7) (b : BitVec 7) : Statement (.hmax2V g d a b) := by
  intro w h
  cases h
  rw [decode_18]
  rfl

theorem hmax2S (g : BitVec 2) (d : BitVec 7) (a : BitVec 7) (b : BitVec 7) : Statement (.hmax2S g d a b) := by
  intro w h
  cases h
  rw [decode_19]
  rfl

theorem fcvt (g : BitVec 2) (d : BitVec 7) (a : BitVec 7) (s : BitVec 3) (x : BitVec 3) (t : BitVec 1) : Statement (.fcvt g d a s x t) := by
  intro w h
  cases h
  rw [decode_1A]
  simp [decode1A, bits, part_3_3_1_0, part_3_3_1_1, part_3_3_1_2]

theorem f2i (g : BitVec 2) (d : BitVec 7) (a : BitVec 7) (s : BitVec 3) (x : BitVec 3) (t : BitVec 1) : Statement (.f2i g d a s x t) := by
  intro w h
  cases h
  rw [decode_1A]
  simp [decode1A, bits, part_3_3_1_0, part_3_3_1_1, part_3_3_1_2]

theorem i2f (g : BitVec 2) (d : BitVec 7) (a : BitVec 7) (s : BitVec 3) (x : BitVec 3) (t : BitVec 1) : Statement (.i2f g d a s x t) := by
  intro w h
  cases h
  rw [decode_1A]
  simp [decode1A, bits, part_3_3_1_0, part_3_3_1_1, part_3_3_1_2]

theorem fpack (g : BitVec 2) (d : BitVec 7) (a : BitVec 7) (s : BitVec 3) (x : BitVec 3) (t : BitVec 1) : Statement (.fpack g d a s x t) := by
  intro w h
  cases h
  rw [decode_1A]
  simp [decode1A, bits, part_3_3_1_0, part_3_3_1_1, part_3_3_1_2]

theorem funpack (g : BitVec 2) (d : BitVec 7) (a : BitVec 7) (s : BitVec 3) (x : BitVec 3) : Statement (.funpack g d a s x) := by
  intro w h
  cases h
  rw [decode_1A]
  simp [decode1A, bits, part_3_3_1_0, part_3_3_1_1, part_3_3_1_2]

theorem bpack (g : BitVec 2) (d : BitVec 7) (a : BitVec 7) : Statement (.bpack g d a) := by
  intro w h
  cases h
  rw [decode_1A]
  rfl

theorem bunpack (g : BitVec 2) (d : BitVec 7) (a : BitVec 7) : Statement (.bunpack g d a) := by
  intro w h
  cases h
  rw [decode_1A]
  rfl

theorem xget (g : BitVec 2) (d : BitVec 7) (a : BitVec 7) (b : BitVec 7) : Statement (.xget g d a b) := by
  intro w h
  cases h
  rw [decode_1C]
  rfl

theorem xrot (g : BitVec 2) (d : BitVec 7) (a : BitVec 7) (b : BitVec 7) : Statement (.xrot g d a b) := by
  intro w h
  cases h
  rw [decode_1C]
  rfl

theorem xslide (g : BitVec 2) (d : BitVec 7) (a : BitVec 7) (b : BitVec 7) : Statement (.xslide g d a b) := by
  intro w h
  cases h
  rw [decode_1C]
  rfl

theorem xmirr (g : BitVec 2) (d : BitVec 7) (a : BitVec 7) (b : BitVec 7) : Statement (.xmirr g d a b) := by
  intro w h
  cases h
  rw [decode_1C]
  rfl

theorem lred (g : BitVec 2) (d : BitVec 7) (a : BitVec 7) (b : BitVec 7) : Statement (.lred g d a b) := by
  intro w h
  cases h
  rw [decode_1C]
  rfl

theorem lscan (g : BitVec 2) (d : BitVec 7) (a : BitVec 7) (b : BitVec 7) : Statement (.lscan g d a b) := by
  intro w h
  cases h
  rw [decode_1C]
  rfl

theorem compact (g : BitVec 2) (d : BitVec 7) (a : BitVec 7) (b : BitVec 7) : Statement (.compact g d a b) := by
  intro w h
  cases h
  rw [decode_1C]
  rfl

theorem matchLanes (g : BitVec 2) (d : BitVec 7) (a : BitVec 7) (b : BitVec 7) : Statement (.matchLanes g d a b) := by
  intro w h
  cases h
  rw [decode_1C]
  rfl

theorem intersect (g : BitVec 2) (d : BitVec 7) (a : BitVec 7) (b : BitVec 7) : Statement (.intersect g d a b) := by
  intro w h
  cases h
  rw [decode_1D]
  rfl

theorem ld (w : BitVec 2) (g : BitVec 2) (d : BitVec 7) (a : BitVec 7) (o : BitVec 8) : Statement (.ld w g d a o) := by
  intro w h
  cases h
  rw [decode_20]
  rfl

theorem st (w : BitVec 2) (g : BitVec 2) (d : BitVec 7) (a : BitVec 7) (o : BitVec 8) : Statement (.st w g d a o) := by
  intro w h
  cases h
  rw [decode_21]
  rfl

theorem lds (w : BitVec 2) (g : BitVec 2) (d : BitVec 7) (a : BitVec 7) (o : BitVec 8) : Statement (.lds w g d a o) := by
  intro w h
  cases h
  rw [decode_22]
  rfl

theorem sts (w : BitVec 2) (g : BitVec 2) (d : BitVec 7) (a : BitVec 7) (o : BitVec 8) : Statement (.sts w g d a o) := by
  intro w h
  cases h
  rw [decode_23]
  rfl

theorem ld8 (g : BitVec 2) (d : BitVec 7) (a : BitVec 7) (i : BitVec 7) : Statement (.ld8 g d a i) := by
  intro w h
  cases h
  rw [decode_24]
  rfl

theorem ld8n (g : BitVec 2) (d : BitVec 7) (a : BitVec 7) (i : BitVec 7) : Statement (.ld8n g d a i) := by
  intro w h
  cases h
  rw [decode_24]
  rfl

theorem ld16 (g : BitVec 2) (d : BitVec 7) (a : BitVec 7) (i : BitVec 7) : Statement (.ld16 g d a i) := by
  intro w h
  cases h
  rw [decode_24]
  rfl

theorem ld16n (g : BitVec 2) (d : BitVec 7) (a : BitVec 7) (i : BitVec 7) : Statement (.ld16n g d a i) := by
  intro w h
  cases h
  rw [decode_24]
  rfl

theorem st8 (g : BitVec 2) (d : BitVec 7) (a : BitVec 7) (i : BitVec 7) : Statement (.st8 g d a i) := by
  intro w h
  cases h
  rw [decode_24]
  rfl

theorem st16 (g : BitVec 2) (d : BitVec 7) (a : BitVec 7) (i : BitVec 7) : Statement (.st16 g d a i) := by
  intro w h
  cases h
  rw [decode_24]
  rfl

theorem ldbc (g : BitVec 2) (d : BitVec 7) (a : BitVec 7) (i : BitVec 7) : Statement (.ldbc g d a i) := by
  intro w h
  cases h
  rw [decode_24]
  rfl

theorem pref (g : BitVec 2) (a : BitVec 7) (i : BitVec 7) : Statement (.pref g a i) := by
  intro w h
  cases h
  rw [decode_24]
  rfl

theorem atomAdd (g : BitVec 2) (d : BitVec 7) (a : BitVec 7) (b : BitVec 7) : Statement (.atomAdd g d a b) := by
  intro w h
  cases h
  rw [decode_25]
  rfl

theorem atomMin (g : BitVec 2) (d : BitVec 7) (a : BitVec 7) (b : BitVec 7) : Statement (.atomMin g d a b) := by
  intro w h
  cases h
  rw [decode_25]
  rfl

theorem atomMax (g : BitVec 2) (d : BitVec 7) (a : BitVec 7) (b : BitVec 7) : Statement (.atomMax g d a b) := by
  intro w h
  cases h
  rw [decode_25]
  rfl

theorem atomAnd (g : BitVec 2) (d : BitVec 7) (a : BitVec 7) (b : BitVec 7) : Statement (.atomAnd g d a b) := by
  intro w h
  cases h
  rw [decode_25]
  rfl

theorem atomOr (g : BitVec 2) (d : BitVec 7) (a : BitVec 7) (b : BitVec 7) : Statement (.atomOr g d a b) := by
  intro w h
  cases h
  rw [decode_25]
  rfl

theorem atomXor (g : BitVec 2) (d : BitVec 7) (a : BitVec 7) (b : BitVec 7) : Statement (.atomXor g d a b) := by
  intro w h
  cases h
  rw [decode_25]
  rfl

theorem atomExch (g : BitVec 2) (d : BitVec 7) (a : BitVec 7) (b : BitVec 7) : Statement (.atomExch g d a b) := by
  intro w h
  cases h
  rw [decode_25]
  rfl

theorem atomCas (g : BitVec 2) (d : BitVec 7) (a : BitVec 7) (b : BitVec 7) : Statement (.atomCas g d a b) := by
  intro w h
  cases h
  rw [decode_25]
  rfl

theorem redAdd (g : BitVec 2) (a : BitVec 7) (b : BitVec 7) : Statement (.redAdd g a b) := by
  intro w h
  cases h
  rw [decode_26]
  rfl

theorem redMin (g : BitVec 2) (a : BitVec 7) (b : BitVec 7) : Statement (.redMin g a b) := by
  intro w h
  cases h
  rw [decode_26]
  rfl

theorem redMax (g : BitVec 2) (a : BitVec 7) (b : BitVec 7) : Statement (.redMax g a b) := by
  intro w h
  cases h
  rw [decode_26]
  rfl

theorem redAnd (g : BitVec 2) (a : BitVec 7) (b : BitVec 7) : Statement (.redAnd g a b) := by
  intro w h
  cases h
  rw [decode_26]
  rfl

theorem redOr (g : BitVec 2) (a : BitVec 7) (b : BitVec 7) : Statement (.redOr g a b) := by
  intro w h
  cases h
  rw [decode_26]
  rfl

theorem redXor (g : BitVec 2) (a : BitVec 7) (b : BitVec 7) : Statement (.redXor g a b) := by
  intro w h
  cases h
  rw [decode_26]
  rfl

theorem atomqAdd (g : BitVec 2) (d : BitVec 7) (a : BitVec 7) (b : BitVec 7) : Statement (.atomqAdd g d a b) := by
  intro w h
  cases h
  rw [decode_27]
  rfl

theorem atomqExch (g : BitVec 2) (d : BitVec 7) (a : BitVec 7) (b : BitVec 7) : Statement (.atomqExch g d a b) := by
  intro w h
  cases h
  rw [decode_27]
  rfl

theorem atomqCas (g : BitVec 2) (d : BitVec 7) (a : BitVec 7) (b : BitVec 7) : Statement (.atomqCas g d a b) := by
  intro w h
  cases h
  rw [decode_27]
  rfl

theorem fenceAcq : Statement (.fenceAcq) := by
  intro w h
  cases h
  rw [decode_28]
  rfl

theorem fenceRel : Statement (.fenceRel) := by
  intro w h
  cases h
  rw [decode_28]
  rfl

theorem fenceAr : Statement (.fenceAr) := by
  intro w h
  cases h
  rw [decode_28]
  rfl

theorem meet (l : BitVec 3) (b : BitVec 4) : Statement (.meet l b) := by
  intro w h
  cases h
  rw [decode_28]
  simp [decode28, bits, part_3_4_13_0, part_3_4_13_1, part_3_4_13_2]

theorem meetArr (l : BitVec 3) (b : BitVec 4) : Statement (.meetArr l b) := by
  intro w h
  cases h
  rw [decode_28]
  simp [decode28, bits, part_3_4_13_0, part_3_4_13_1, part_3_4_13_2]

theorem meetWait (l : BitVec 3) (b : BitVec 4) : Statement (.meetWait l b) := by
  intro w h
  cases h
  rw [decode_28]
  simp [decode28, bits, part_3_4_13_0, part_3_4_13_1, part_3_4_13_2]

theorem meetRed (l : BitVec 3) (b : BitVec 4) (o : BitVec 3) (s : BitVec 1) (r : BitVec 7) : Statement (.meetRed l b o s r) := by
  intro w h
  cases h
  rw [decode_28]
  simp [decode28, bits, part_3_4_3_1_2_7_0, part_3_4_3_1_2_7_1, part_3_4_3_1_2_7_2, part_3_4_3_1_2_7_3, part_3_4_3_1_2_7_4, part_3_4_3_1_2_7_5]

theorem tfence : Statement (.tfence) := by
  intro w h
  cases h
  rw [decode_28]
  rfl

theorem tcopy (x : BitVec 7) (y : BitVec 7) (z : BitVec 7) : Statement (.tcopy x y z) := by
  intro w h
  cases h
  rw [decode_29]
  rfl

theorem tstore (x : BitVec 7) (y : BitVec 7) (z : BitVec 7) : Statement (.tstore x y z) := by
  intro w h
  cases h
  rw [decode_29]
  rfl

theorem tgather (x : BitVec 7) (y : BitVec 7) (z : BitVec 7) : Statement (.tgather x y z) := by
  intro w h
  cases h
  rw [decode_29]
  rfl

theorem tscatter (x : BitVec 7) (y : BitVec 7) (z : BitVec 7) : Statement (.tscatter x y z) := by
  intro w h
  cases h
  rw [decode_29]
  rfl

theorem tready (x : BitVec 7) : Statement (.tready x) := by
  intro w h
  cases h
  rw [decode_29]
  rfl

theorem trelease (x : BitVec 7) : Statement (.trelease x) := by
  intro w h
  cases h
  rw [decode_29]
  rfl

theorem tstate (x : BitVec 7) (y : BitVec 7) : Statement (.tstate x y) := by
  intro w h
  cases h
  rw [decode_29]
  rfl

theorem trows (x : BitVec 7) (y : BitVec 7) : Statement (.trows x y) := by
  intro w h
  cases h
  rw [decode_29]
  rfl

theorem mloadw (x : BitVec 7) (y : BitVec 7) : Statement (.mloadw x y) := by
  intro w h
  cases h
  rw [decode_2A]
  rfl

theorem mma (x : BitVec 7) (y : BitVec 7) (z : BitVec 7) : Statement (.mma x y z) := by
  intro w h
  cases h
  rw [decode_2A]
  rfl

theorem mmavs (x : BitVec 7) (y : BitVec 7) (z : BitVec 7) : Statement (.mmavs x y z) := by
  intro w h
  cases h
  rw [decode_2A]
  rfl

theorem mfence (x : BitVec 7) : Statement (.mfence x) := by
  intro w h
  cases h
  rw [decode_2A]
  rfl

theorem mwait (x : BitVec 7) : Statement (.mwait x) := by
  intro w h
  cases h
  rw [decode_2A]
  rfl

theorem mstoreRegister (x : BitVec 7) (b : BitVec 3) (z : BitVec 7) : Statement (.mstoreRegister x b z) := by
  intro w h
  cases h
  rw [decode_2A]
  simp [decode2A, bits, part_4_3_0, part_4_3_1]

theorem mstoreTile (x : BitVec 7) (b : BitVec 3) (z : BitVec 7) : Statement (.mstoreTile x b z) := by
  intro w h
  cases h
  rw [decode_2A]
  simp [decode2A, bits, part_4_3_0, part_4_3_1]

theorem mzero (x : BitVec 7) : Statement (.mzero x) := by
  intro w h
  cases h
  rw [decode_2A]
  rfl

theorem medge (x : BitVec 7) (y : BitVec 7) (z : BitVec 7) : Statement (.medge x y z) := by
  intro w h
  cases h
  rw [decode_2A]
  rfl

theorem mpairLeave : Statement (.mpairLeave) := by
  intro w h
  cases h
  rw [decode_2A]
  rfl

theorem mpairEnter : Statement (.mpairEnter) := by
  intro w h
  cases h
  rw [decode_2A]
  rfl

theorem mshape (x : BitVec 7) (y : BitVec 7) : Statement (.mshape x y) := by
  intro w h
  cases h
  rw [decode_2A]
  rfl

theorem noderead (x : BitVec 7) (y : BitVec 7) (z : BitVec 7) : Statement (.noderead x y z) := by
  intro w h
  cases h
  rw [decode_2B]
  rfl

theorem inbox (x : BitVec 7) (y : BitVec 7) (z : BitVec 7) : Statement (.inbox x y z) := by
  intro w h
  cases h
  rw [decode_2B]
  rfl

theorem yieldUp (x : BitVec 7) (y : BitVec 7) : Statement (.yieldUp x y) := by
  intro w h
  cases h
  rw [decode_2B]
  rfl

theorem hand (x : BitVec 7) (y : BitVec 7) (z : BitVec 7) : Statement (.hand x y z) := by
  intro w h
  cases h
  rw [decode_2B]
  rfl

theorem nodealloc (x : BitVec 7) (y : BitVec 7) (z : BitVec 7) : Statement (.nodealloc x y z) := by
  intro w h
  cases h
  rw [decode_2B]
  rfl

theorem treegrow (x : BitVec 7) (y : BitVec 7) : Statement (.treegrow x y) := by
  intro w h
  cases h
  rw [decode_2B]
  rfl

theorem grove (x : BitVec 7) : Statement (.grove x) := by
  intro w h
  cases h
  rw [decode_2B]
  rfl

theorem frame (x : BitVec 7) : Statement (.frame x) := by
  intro w h
  cases h
  rw [decode_2B]
  rfl

theorem spawn (x : BitVec 7) (y : BitVec 7) (j : BitVec 1) (w : BitVec 2) (p : BitVec 3) : Statement (.spawn x y j w p) := by
  intro w h
  cases h
  rw [decode_2C]
  simp [decode2C, bits, part_1_1_2_3_0, part_1_1_2_3_1, part_1_1_2_3_2, part_1_1_2_3_3]

theorem spawnf (x : BitVec 7) : Statement (.spawnf x) := by
  intro w h
  cases h
  rw [decode_2C]
  rfl

theorem joinwait (x : BitVec 7) : Statement (.joinwait x) := by
  intro w h
  cases h
  rw [decode_2C]
  rfl

theorem joinadd (x : BitVec 7) (y : BitVec 7) : Statement (.joinadd x y) := by
  intro w h
  cases h
  rw [decode_2C]
  rfl

theorem payload (x : BitVec 7) (y : BitVec 7) : Statement (.payload x y) := by
  intro w h
  cases h
  rw [decode_2C]
  rfl

theorem spquery (x : BitVec 7) (y : BitVec 7) : Statement (.spquery x y) := by
  intro w h
  cases h
  rw [decode_2C]
  rfl

theorem capbegin (x : BitVec 7) (y : BitVec 7) : Statement (.capbegin x y) := by
  intro w h
  cases h
  rw [decode_2D]
  rfl

theorem capend : Statement (.capend) := by
  intro w h
  cases h
  rw [decode_2D]
  rfl

theorem capres (x : BitVec 7) : Statement (.capres x) := by
  intro w h
  cases h
  rw [decode_2D]
  rfl

theorem capabort : Statement (.capabort) := by
  intro w h
  cases h
  rw [decode_2D]
  rfl

theorem bra (n : BitVec 1) (c : BitVec 3) (o : BitVec 22) : Statement (.bra n c o) := by
  intro w h
  cases h
  rw [decode_30]
  rfl

theorem call (n : BitVec 1) (c : BitVec 2) (o : BitVec 22) : Statement (.call n c o) := by
  intro w h
  cases h
  rw [decode_31]
  simp [decode31, bits, part_1_2_0, part_1_2_1]

theorem joinat (o : BitVec 22) : Statement (.joinat o) := by
  intro w h
  cases h
  rw [decode_32]
  simp [decode32, bits]

theorem nop : Statement (.nop) := by
  intro w h
  cases h
  rw [decode_33]
  rfl

theorem exit : Statement (.exit) := by
  intro w h
  cases h
  rw [decode_33]
  rfl

theorem ret : Statement (.ret) := by
  intro w h
  cases h
  rw [decode_33]
  rfl

theorem brxVector (r : BitVec 7) : Statement (.brxVector r) := by
  intro w h
  cases h
  rw [decode_33]
  simp [decode33, bits, part_13_7_0, part_13_7_1]

theorem brxScalar (r : BitVec 7) : Statement (.brxScalar r) := by
  intro w h
  cases h
  rw [decode_33]
  simp [decode33, bits, part_13_7_0, part_13_7_1]

theorem regang (m : BitVec 8) (i : BitVec 12) : Statement (.regang m i) := by
  intro w h
  cases h
  rw [decode_33]
  simp [decode33, bits, part_8_12_0, part_8_12_1]

theorem trap (c : BitVec 16) : Statement (.trap c) := by
  intro w h
  cases h
  rw [decode_33]
  simp [decode33, bits, part_4_16_0, part_4_16_1]

theorem bkpt (c : BitVec 16) : Statement (.bkpt c) := by
  intro w h
  cases h
  rw [decode_33]
  simp [decode33, bits, part_4_16_0, part_4_16_1]

theorem sleep (n : BitVec 20) : Statement (.sleep n) := by
  intro w h
  cases h
  rw [decode_33]
  rfl

theorem yieldq : Statement (.yieldq) := by
  intro w h
  cases h
  rw [decode_33]
  rfl

theorem tstamp (d : BitVec 7) : Statement (.tstamp d) := by
  intro w h
  cases h
  rw [decode_33]
  simp [decode33, bits, part_13_7_0, part_13_7_1]

theorem sread (s : BitVec 13) (d : BitVec 7) : Statement (.sread s d) := by
  intro w h
  cases h
  rw [decode_33]
  simp [decode33, bits, part_13_7_0, part_13_7_1]

theorem swrite (s : BitVec 13) (d : BitVec 7) : Statement (.swrite s d) := by
  intro w h
  cases h
  rw [decode_33]
  simp [decode33, bits, part_13_7_0, part_13_7_1]

theorem iret : Statement (.iret) := by
  intro w h
  cases h
  rw [decode_33]
  rfl

theorem park : Statement (.park) := by
  intro w h
  cases h
  rw [decode_33]
  rfl

theorem hintImm (i : BitVec 22) : Statement (.hintImm i) := by
  intro w h
  cases h
  rw [decode_3F]
  rfl

theorem hintGuard (n : BitVec 1) (p : BitVec 3) : Statement (.hintGuard n p) := by
  intro w h
  cases h
  rw [decode_3F]
  simp [decode3F, bits, part_18_1_3_0, part_18_1_3_1, part_18_1_3_2]

theorem hintSrcx (c : BitVec 1) (b : BitVec 1) (a : BitVec 1) : Statement (.hintSrcx c b a) := by
  intro w h
  cases h
  rw [decode_3F]
  simp [decode3F, bits, part_19_1_1_1_0, part_19_1_1_1_1, part_19_1_1_1_2, part_19_1_1_1_3]

theorem hintCreg (r : BitVec 7) : Statement (.hintCreg r) := by
  intro w h
  cases h
  rw [decode_3F]
  simp [decode3F, bits, part_15_7_0, part_15_7_1]

theorem hintType (t : BitVec 5) : Statement (.hintType t) := by
  intro w h
  cases h
  rw [decode_3F]
  simp [decode3F, bits, part_17_5_0, part_17_5_1]

theorem hintRound (f : BitVec 1) (s : BitVec 1) (m : BitVec 3) : Statement (.hintRound f s m) := by
  intro w h
  cases h
  rw [decode_3F]
  simp [decode3F, bits, part_17_1_1_3_0, part_17_1_1_3_1, part_17_1_1_3_2, part_17_1_1_3_3]

theorem hintSched (y : BitVec 1) (s : BitVec 4) : Statement (.hintSched y s) := by
  intro w h
  cases h
  rw [decode_3F]
  simp [decode3F, bits, part_17_1_4_0, part_17_1_4_1, part_17_1_4_2]

theorem hintCache (p : BitVec 3) : Statement (.hintCache p) := by
  intro w h
  cases h
  rw [decode_3F]
  simp [decode3F, bits, part_19_3_0, part_19_3_1]

theorem registerWrite (master fn bar off size : Nat) (val : BitVec 64) : Statement (.registerWrite master fn bar off size val) := by
  intro w h
  cases h

theorem promotion (w g : Nat) : Statement (.promotion w g) := by
  intro w h
  cases h

theorem schedStallExpiry (w g : Nat) : Statement (.schedStallExpiry w g) := by
  intro w h
  cases h

theorem sleepDeadline (w g : Nat) : Statement (.sleepDeadline w g) := by
  intro w h
  cases h

theorem barrierWaitParking (w : Nat) : Statement (.barrierWaitParking w) := by
  intro w h
  cases h

theorem unpark (w : Nat) : Statement (.unpark w) := by
  intro w h
  cases h

theorem blockAdmission (b : Nat) : Statement (.blockAdmission b) := by
  intro w h
  cases h

theorem registerBecomesFull (id : Nat) : Statement (.registerBecomesFull id) := by
  intro w h
  cases h

theorem instructionCacheParityError (core : Nat) : Statement (.instructionCacheParityError core) := by
  intro w h
  cases h

theorem registration (id : Nat) : Statement (.registration id) := by
  intro w h
  cases h

theorem carveOutEviction (core line : Nat) : Statement (.carveOutEviction core line) := by
  intro w h
  cases h

theorem translationLookup (ctx : Nat) (va : BitVec 64) : Statement (.translationLookup ctx va) := by
  intro w h
  cases h

theorem pageRequestResponse (index : Nat) (frame : Option Nat) : Statement (.pageRequestResponse index frame) := by
  intro w h
  cases h

theorem tileRowLanding (cmd row : Nat) : Statement (.tileRowLanding cmd row) := by
  intro w h
  cases h

theorem drainRowCompletion (cmd row : Nat) : Statement (.drainRowCompletion cmd row) := by
  intro w h
  cases h

theorem tileCopyFault (cmd : Nat) : Statement (.tileCopyFault cmd) := by
  intro w h
  cases h

theorem arrayOperationStart (op : Nat) : Statement (.arrayOperationStart op) := by
  intro w h
  cases h

theorem arrayOperationRetirement (op : Nat) : Statement (.arrayOperationRetirement op) := by
  intro w h
  cases h

theorem quadrantClaimGrant (claim : Nat) : Statement (.quadrantClaimGrant claim) := by
  intro w h
  cases h

theorem barrierPacket (bar w : Nat) : Statement (.barrierPacket bar w) := by
  intro w h
  cases h

theorem barrierRelease (bar : Nat) : Statement (.barrierRelease bar) := by
  intro w h
  cases h

theorem groveAcceptance (id : Nat) : Statement (.groveAcceptance id) := by
  intro w h
  cases h

theorem phaseStart (grove : Nat) : Statement (.phaseStart grove) := by
  intro w h
  cases h

theorem trailBegin (grove core : Nat) : Statement (.trailBegin grove core) := by
  intro w h
  cases h

theorem trailDeepen (grove trail : Nat) : Statement (.trailDeepen grove trail) := by
  intro w h
  cases h

theorem steal (grove core : Nat) : Statement (.steal grove core) := by
  intro w h
  cases h

theorem allocationGrant (grove trail : Nat) : Statement (.allocationGrant grove trail) := by
  intro w h
  cases h

theorem nodeStart (grove trail : Nat) : Statement (.nodeStart grove trail) := by
  intro w h
  cases h

theorem blockEnd (b : Nat) : Statement (.blockEnd b) := by
  intro w h
  cases h

theorem completionWordWrite (grove : Nat) : Statement (.completionWordWrite grove) := by
  intro w h
  cases h

theorem binTimerExpiry (core bin grove : Nat) : Statement (.binTimerExpiry core bin grove) := by
  intro w h
  cases h

theorem saplingWarpFormation (core bin grove : Nat) : Statement (.saplingWarpFormation core bin grove) := by
  intro w h
  cases h

theorem saplingExit (id : Nat) : Statement (.saplingExit id) := by
  intro w h
  cases h

theorem joinwaitWake (w : Nat) : Statement (.joinwaitWake w) := by
  intro w h
  cases h

theorem capsuleStepCommit (w lane : Nat) : Statement (.capsuleStepCommit w lane) := by
  intro w h
  cases h

theorem away (w : Nat) : Statement (.away w) := by
  intro w h
  cases h

theorem back (w : Nat) : Statement (.back w) := by
  intro w h
  cases h

theorem delivery (id : Nat) : Statement (.delivery id) := by
  intro w h
  cases h

theorem trapRingDelivery (ctx : Nat) : Statement (.trapRingDelivery ctx) := by
  intro w h
  cases h

theorem hostAction (ctx : Nat) (call : BitVec 32 × List (Nat × BitVec 8)) : Statement (.hostAction ctx call) := by
  intro w h
  cases h

theorem preempt (ctx : Nat) (pairs : BitVec 64) (d1 d2 : Nat) : Statement (.preempt ctx pairs d1 d2) := by
  intro w h
  cases h

theorem drainDeadline (ctx : Nat) : Statement (.drainDeadline ctx) := by
  intro w h
  cases h

theorem haltEntry (w : Nat) : Statement (.haltEntry w) := by
  intro w h
  cases h

theorem designatedHaltEntry (w : Nat) : Statement (.designatedHaltEntry w) := by
  intro w h
  cases h

theorem haltDeadline (ctx : Nat) : Statement (.haltDeadline ctx) := by
  intro w h
  cases h

theorem captureCompletion (ctx : Nat) : Statement (.captureCompletion ctx) := by
  intro w h
  cases h

theorem contextLoss (ctx : Nat) : Statement (.contextLoss ctx) := by
  intro w h
  cases h

theorem resume (ctx : Nat) : Statement (.resume ctx) := by
  intro w h
  cases h

theorem freezeRequest (d1 d2 : Nat) : Statement (.freezeRequest d1 d2) := by
  intro w h
  cases h

theorem freezeCompletion : Statement (.freezeCompletion) := by
  intro w h
  cases h

theorem thaw : Statement (.thaw) := by
  intro w h
  cases h

theorem correctedError (addr : Nat) : Statement (.correctedError addr) := by
  intro w h
  cases h

theorem uncorrectableError (addr : Nat) : Statement (.uncorrectableError addr) := by
  intro w h
  cases h

theorem apply (master stand : Nat) : Statement (.apply master stand) := by
  intro w h
  cases h

theorem applyCompletion (stand : Nat) : Statement (.applyCompletion stand) := by
  intro w h
  cases h

theorem vfReady (vf : Nat) : Statement (.vfReady vf) := by
  intro w h
  cases h

theorem vfStop (vf : Nat) : Statement (.vfStop vf) := by
  intro w h
  cases h

theorem sliceExpiry (stand : Nat) : Statement (.sliceExpiry stand) := by
  intro w h
  cases h

theorem switchOutCompletion (stand : Nat) : Statement (.switchOutCompletion stand) := by
  intro w h
  cases h

theorem functionLevelReset (fn : Nat) : Statement (.functionLevelReset fn) := by
  intro w h
  cases h

theorem ctxsw (vf : Nat) (val : BitVec 64) : Statement (.ctxsw vf val) := by
  intro w h
  cases h

theorem ctxswCompletion (vf : Nat) : Statement (.ctxswCompletion vf) := by
  intro w h
  cases h

theorem dlctlEn (vf : Nat) (val : BitVec 32) : Statement (.dlctlEn vf val) := by
  intro w h
  cases h

theorem dlctlRearm (vf : Nat) : Statement (.dlctlRearm vf) := by
  intro w h
  cases h

theorem rearmCompletion (vf : Nat) : Statement (.rearmCompletion vf) := by
  intro w h
  cases h

theorem remapGo (vf : Nat) : Statement (.remapGo vf) := by
  intro w h
  cases h

theorem remapCompletion (vf : Nat) : Statement (.remapCompletion vf) := by
  intro w h
  cases h

theorem launch (ctx : Nat) (call : BitVec 64 × List (Nat × BitVec 8)) : Statement (.launch ctx call) := by
  intro w h
  cases h

theorem invalidate (ctx : Nat) (val : BitVec 32) : Statement (.invalidate ctx val) := by
  intro w h
  cases h

theorem invalidationDone (ctx : Nat) : Statement (.invalidationDone ctx) := by
  intro w h
  cases h

theorem atsInvalidation (fn : Nat) (page : Nat) : Statement (.atsInvalidation fn page) := by
  intro w h
  cases h

theorem flitReceipt (link : Nat) (flit : List Byte) : Statement (.flitReceipt link flit) := by
  intro w h
  cases h

theorem negativeAcknowledgement (link : Nat) (seq : Nat) : Statement (.negativeAcknowledgement link seq) := by
  intro w h
  cases h

theorem retrainTimeout (link : Nat) : Statement (.retrainTimeout link) := by
  intro w h
  cases h

theorem linkDown (link : Nat) : Statement (.linkDown link) := by
  intro w h
  cases h

theorem coldReset : Statement (.coldReset) := by
  intro w h
  cases h

theorem fwctlVerify (master : Nat) : Statement (.fwctlVerify master) := by
  intro w h
  cases h

theorem fwctlColdReset (master : Nat) : Statement (.fwctlColdReset master) := by
  intro w h
  cases h

theorem mgclaim (master : Nat) (val : BitVec 32) : Statement (.mgclaim master val) := by
  intro w h
  cases h

theorem hotReset (port : Nat) : Statement (.hotReset port) := by
  intro w h
  cases h

theorem i3cTargetReset : Statement (.i3cTargetReset) := by
  intro w h
  cases h

theorem getVersion (master : Nat) : Statement (.getVersion master) := by
  intro w h
  cases h

theorem getCapabilities (master : Nat) : Statement (.getCapabilities master) := by
  intro w h
  cases h

theorem negotiateAlgorithms (master : Nat) : Statement (.negotiateAlgorithms master) := by
  intro w h
  cases h

theorem getDigests (master : Nat) : Statement (.getDigests master) := by
  intro w h
  cases h

theorem getCertificate (master slot off len : Nat) : Statement (.getCertificate master slot off len) := by
  intro w h
  cases h

theorem challenge (master : Nat) (nonce : List Byte) : Statement (.challenge master nonce) := by
  intro w h
  cases h

theorem getMeasurements (master index : Nat) (nonce : List Byte) : Statement (.getMeasurements master index nonce) := by
  intro w h
  cases h

theorem droopAlarm (core : Nat) : Statement (.droopAlarm core) := by
  intro w h
  cases h

theorem stretchEnd (core : Nat) : Statement (.stretchEnd core) := by
  intro w h
  cases h

theorem throttleWindowExpiry (core : Nat) : Statement (.throttleWindowExpiry core) := by
  intro w h
  cases h

theorem lifetimeRecordWrite : Statement (.lifetimeRecordWrite) := by
  intro w h
  cases h

theorem powerDown : Statement (.powerDown) := by
  intro w h
  cases h

theorem linkTrainingCompletion (link peer : Nat) : Statement (.linkTrainingCompletion link peer) := by
  intro w h
  cases h

theorem deliveryAcknowledgement (id : Nat) : Statement (.deliveryAcknowledgement id) := by
  intro w h
  cases h

theorem bar4Access (fn off size : Nat) (write : Bool) (data : List (BitVec 8)) : Statement (.bar4Access fn off size write data) := by
  intro w h
  cases h

theorem atsTranslationCompletion (ctx page : Nat) (answer : Nat × BitVec 2) : Statement (.atsTranslationCompletion ctx page answer) := by
  intro w h
  cases h

theorem lossOfPower : Statement (.lossOfPower) := by
  intro w h
  cases h

theorem cycleCountWrap (fn i : Nat) : Statement (.cycleCountWrap fn i) := by
  intro w h
  cases h

end Sys2Proof.Laws.RoundTrip
end

