-- ==== Sys2Proof/Tests/Slice0.lean ====
section
/-! SUPPORT. Small tests, each of one word, one check or one step: words of the spec's encodings, an ill-formed term for
each check of WellFormed, steps whose results the spec works out, and states that meet the hypotheses of the statements. -/

set_option Elab.async false

namespace Sys2Proof.Tests

open Sys2Proof Sys2Proof.Machine Sys2Proof.Claims

/-! ### Decoding: words put together from the match and field columns of the opcode table -/

theorem test_decode_01 :
    decode 0x0421040D = .ok (.iaddV 1 4 8 13) ∧ decode 0x04A1040D = .ok (.isubV 1 4 8 13) ∧
    decode 0x0521040D = .ok (.imulV 1 4 8 13) ∧ decode 0x05A1040D = .ok (.imulhV 1 4 8 13) ∧
    decode 0x0621040D = .ok (.iminV 1 4 8 13) ∧ decode 0x06A1040D = .ok (.imaxV 1 4 8 13) ∧
    decode 0x0721040D = .ok (.iaddcV 1 4 8 13) ∧ decode 0x07A1040D = .ok (.isubcV 1 4 8 13) :=
  ⟨rfl, rfl, rfl, rfl, rfl, rfl, rfl, rfl⟩

theorem test_decode_02 :
    decode 0x0821040D = .ok (.iaddS 1 4 8 13) ∧ decode 0x08A1040D = .ok (.isubS 1 4 8 13) ∧
    decode 0x0921040D = .ok (.imulS 1 4 8 13) ∧ decode 0x09A1040D = .ok (.imulhS 1 4 8 13) ∧
    decode 0x0A21040D = .ok (.iminS 1 4 8 13) ∧ decode 0x0AA1040D = .ok (.imaxS 1 4 8 13) ∧
    decode 0x0B21040D = .ok (.iaddcS 1 4 8 13) ∧ decode 0x0BA1040D = .ok (.isubcS 1 4 8 13) :=
  ⟨rfl, rfl, rfl, rfl, rfl, rfl, rfl, rfl⟩

theorem test_decode_03 :
    decode 0x0C210455 = .ok (.iaddI 1 4 8 85) ∧ decode 0x0CA10455 = .ok (.isubI 1 4 8 85) ∧
    decode 0x0D210455 = .ok (.imulI 1 4 8 85) ∧ decode 0x0DA10455 = .ok (.imulhI 1 4 8 85) ∧
    decode 0x0E210455 = .ok (.iminI 1 4 8 85) ∧ decode 0x0EA10455 = .ok (.imaxI 1 4 8 85) ∧
    decode 0x0F210455 = .ok (.iaddcI 1 4 8 85) ∧ decode 0x0FA10455 = .ok (.isubcI 1 4 8 85) :=
  ⟨rfl, rfl, rfl, rfl, rfl, rfl, rfl, rfl⟩

theorem test_decode_04 :
    decode 0x1021040D = .ok (.andV 1 4 8 13) ∧ decode 0x10A1040D = .ok (.orV 1 4 8 13) ∧
    decode 0x1121040D = .ok (.xorV 1 4 8 13) ∧ decode 0x11A1040D = .ok (.andnV 1 4 8 13) ∧
    decode 0x1221040D = .ok (.shlV 1 4 8 13) ∧ decode 0x12A1040D = .ok (.shrV 1 4 8 13) ∧
    decode 0x1321040D = .ok (.sarV 1 4 8 13) ∧ decode 0x13A1040D = .ok (.rotlV 1 4 8 13) :=
  ⟨rfl, rfl, rfl, rfl, rfl, rfl, rfl, rfl⟩

theorem test_decode_05 :
    decode 0x1421040D = .ok (.andS 1 4 8 13) ∧ decode 0x14A1040D = .ok (.orS 1 4 8 13) ∧
    decode 0x1521040D = .ok (.xorS 1 4 8 13) ∧ decode 0x15A1040D = .ok (.andnS 1 4 8 13) ∧
    decode 0x1621040D = .ok (.shlS 1 4 8 13) ∧ decode 0x16A1040D = .ok (.shrS 1 4 8 13) ∧
    decode 0x1721040D = .ok (.sarS 1 4 8 13) ∧ decode 0x17A1040D = .ok (.rotlS 1 4 8 13) :=
  ⟨rfl, rfl, rfl, rfl, rfl, rfl, rfl, rfl⟩

theorem test_decode_06 :
    decode 0x18210455 = .ok (.andI 1 4 8 85) ∧ decode 0x18A10455 = .ok (.orI 1 4 8 85) ∧
    decode 0x19210455 = .ok (.xorI 1 4 8 85) ∧ decode 0x19A10455 = .ok (.andnI 1 4 8 85) ∧
    decode 0x1A210455 = .ok (.shlI 1 4 8 85) ∧ decode 0x1AA10455 = .ok (.shrI 1 4 8 85) ∧
    decode 0x1B210455 = .ok (.sarI 1 4 8 85) ∧ decode 0x1BA10455 = .ok (.rotlI 1 4 8 85) :=
  ⟨rfl, rfl, rfl, rfl, rfl, rfl, rfl, rfl⟩

theorem test_decode_07 :
    decode 0x1C21040D = .ok (.idivV 1 4 8 13) ∧ decode 0x1CA1040D = .ok (.iremV 1 4 8 13) ∧
    decode 0x1D21040D = .ok (.iabsdV 1 4 8 13) ∧ decode 0x1DA1040D = .ok (.iaddsatV 1 4 8 13) ∧
    decode 0x1E21040D = .ok (.isubsatV 1 4 8 13) ∧ decode 0x1EA1040D = .ok (.leaV 1 4 8 13) ∧
    decode 0x1F21040D = .ok (.bpermV 1 4 8 13) ∧ decode 0x1FA1040D = .ok (.imadV 1 4 8 13) :=
  ⟨rfl, rfl, rfl, rfl, rfl, rfl, rfl, rfl⟩

theorem test_decode_08 :
    decode 0x2021040D = .ok (.idivS 1 4 8 13) ∧ decode 0x20A1040D = .ok (.iremS 1 4 8 13) ∧
    decode 0x2121040D = .ok (.iabsdS 1 4 8 13) ∧ decode 0x21A1040D = .ok (.iaddsatS 1 4 8 13) ∧
    decode 0x2221040D = .ok (.isubsatS 1 4 8 13) ∧ decode 0x22A1040D = .ok (.leaS 1 4 8 13) ∧
    decode 0x2321040D = .ok (.bpermS 1 4 8 13) ∧ decode 0x23A1040D = .ok (.imadS 1 4 8 13) :=
  ⟨rfl, rfl, rfl, rfl, rfl, rfl, rfl, rfl⟩

theorem test_decode_09 :
    decode 0x24210400 = .ok (.clz 1 4 8) ∧ decode 0x24A10400 = .ok (.ctz 1 4 8) ∧
    decode 0x25210400 = .ok (.popc 1 4 8) ∧ decode 0x25A10400 = .ok (.brev 1 4 8) ∧
    decode 0x26210400 = .ok (.iabs 1 4 8) ∧ decode 0x26A10400 = .ok (.ineg 1 4 8) ∧
    decode 0x27210400 = .ok (.notV 1 4 8) ∧ decode 0x27A10417 = .ok (.icvt 1 4 8 1 3 1) :=
  ⟨rfl, rfl, rfl, rfl, rfl, rfl, rfl, rfl⟩

theorem test_decode_0A :
    decode 0x2821040D = .ok (.bfx 1 4 8 13) ∧ decode 0x28A1040D = .ok (.bfxn 1 4 8 13) ∧
    decode 0x2921040D = .ok (.bfi 1 4 8 13) ∧ decode 0x29A1040D = .ok (.fshl 1 4 8 13) ∧
    decode 0x2A21040D = .ok (.fshr 1 4 8 13) :=
  ⟨rfl, rfl, rfl, rfl, rfl⟩

theorem test_decode_0B :
    decode 0x2C2BC40D = .ok (.isetEqV 1 5 7 8 13) ∧ decode 0x2CABC40D = .ok (.isetNeV 1 5 7 8 13) ∧
    decode 0x2D2BC40D = .ok (.isetLtV 1 5 7 8 13) ∧ decode 0x2DABC40D = .ok (.isetGeV 1 5 7 8 13) ∧
    decode 0x2E2BC40D = .ok (.isetLtnV 1 5 7 8 13) ∧ decode 0x2EABC40D = .ok (.isetGenV 1 5 7 8 13) ∧
    decode 0x2F2BC40D = .ok (.isetLeV 1 5 7 8 13) ∧ decode 0x2FABC40D = .ok (.isetGtV 1 5 7 8 13) :=
  ⟨rfl, rfl, rfl, rfl, rfl, rfl, rfl, rfl⟩

theorem test_decode_0C :
    decode 0x302BC40D = .ok (.isetEqS 1 5 7 8 13) ∧ decode 0x30ABC40D = .ok (.isetNeS 1 5 7 8 13) ∧
    decode 0x312BC40D = .ok (.isetLtS 1 5 7 8 13) ∧ decode 0x31ABC40D = .ok (.isetGeS 1 5 7 8 13) ∧
    decode 0x322BC40D = .ok (.isetLtnS 1 5 7 8 13) ∧ decode 0x32ABC40D = .ok (.isetGenS 1 5 7 8 13) ∧
    decode 0x332BC40D = .ok (.isetLeS 1 5 7 8 13) ∧ decode 0x33ABC40D = .ok (.isetGtS 1 5 7 8 13) :=
  ⟨rfl, rfl, rfl, rfl, rfl, rfl, rfl, rfl⟩

theorem test_decode_0D :
    decode 0x342BC455 = .ok (.isetEqI 1 5 7 8 85) ∧ decode 0x34ABC455 = .ok (.isetNeI 1 5 7 8 85) ∧
    decode 0x352BC455 = .ok (.isetLtI 1 5 7 8 85) ∧ decode 0x35ABC455 = .ok (.isetGeI 1 5 7 8 85) ∧
    decode 0x362BC455 = .ok (.isetLtnI 1 5 7 8 85) ∧ decode 0x36ABC455 = .ok (.isetGenI 1 5 7 8 85) ∧
    decode 0x372BC455 = .ok (.isetLeI 1 5 7 8 85) ∧ decode 0x37ABC455 = .ok (.isetGtI 1 5 7 8 85) :=
  ⟨rfl, rfl, rfl, rfl, rfl, rfl, rfl, rfl⟩

theorem test_decode_0E :
    decode 0x38210400 = .ok (.mov 1 4 8) ∧ decode 0x38A1040D = .ok (.sel 1 4 8 13) ∧
    decode 0x3921000D = .ok (.bcast 1 4 13) ∧ decode 0x39A10409 = .ok (.extract 1 4 8 9) ∧
    decode 0x3A210000 = .ok (.pmovToVector 1 4) ∧ decode 0x3A200401 = .ok (.pmovToPredicates 1 8) ∧
    decode 0x3AABC400 = .ok (.pset 1 5 7 8) ∧ decode 0x3B2BC085 = .ok (.plop 1 5 7 1 5) ∧
    decode 0x3BA10081 = .ok (.vote 1 4 1 1) :=
  ⟨rfl, rfl, rfl, rfl, rfl, rfl, rfl, rfl, rfl⟩

theorem test_decode_10 :
    decode 0x4021040D = .ok (.faddV 1 4 8 13) ∧ decode 0x40A1040D = .ok (.fsubV 1 4 8 13) ∧
    decode 0x4121040D = .ok (.fmulV 1 4 8 13) ∧ decode 0x41A1040D = .ok (.ffmaV 1 4 8 13) ∧
    decode 0x4221040D = .ok (.fminV 1 4 8 13) ∧ decode 0x42A1040D = .ok (.fmaxV 1 4 8 13) ∧
    decode 0x4321040D = .ok (.fscaleV 1 4 8 13) ∧ decode 0x43A1040D = .ok (.fcopysignV 1 4 8 13) :=
  ⟨rfl, rfl, rfl, rfl, rfl, rfl, rfl, rfl⟩

theorem test_decode_11 :
    decode 0x4421040D = .ok (.faddS 1 4 8 13) ∧ decode 0x44A1040D = .ok (.fsubS 1 4 8 13) ∧
    decode 0x4521040D = .ok (.fmulS 1 4 8 13) ∧ decode 0x45A1040D = .ok (.ffmaS 1 4 8 13) ∧
    decode 0x4621040D = .ok (.fminS 1 4 8 13) ∧ decode 0x46A1040D = .ok (.fmaxS 1 4 8 13) ∧
    decode 0x4721040D = .ok (.fscaleS 1 4 8 13) ∧ decode 0x47A1040D = .ok (.fcopysignS 1 4 8 13) :=
  ⟨rfl, rfl, rfl, rfl, rfl, rfl, rfl, rfl⟩

theorem test_decode_12 :
    decode 0x482BC40D = .ok (.fsetEqV 1 5 7 8 13) ∧ decode 0x48ABC40D = .ok (.fsetNeV 1 5 7 8 13) ∧
    decode 0x492BC40D = .ok (.fsetLtV 1 5 7 8 13) ∧ decode 0x49ABC40D = .ok (.fsetLeV 1 5 7 8 13) ∧
    decode 0x4A2BC40D = .ok (.fsetGtV 1 5 7 8 13) ∧ decode 0x4AABC40D = .ok (.fsetGeV 1 5 7 8 13) ∧
    decode 0x4B2BC40D = .ok (.fsetUnorderedV 1 5 7 8 13) ∧ decode 0x4BABC40D = .ok (.fsetOrderedV 1 5 7 8 13) :=
  ⟨rfl, rfl, rfl, rfl, rfl, rfl, rfl, rfl⟩

theorem test_decode_13 :
    decode 0x4C2BC40D = .ok (.fsetEqS 1 5 7 8 13) ∧ decode 0x4CABC40D = .ok (.fsetNeS 1 5 7 8 13) ∧
    decode 0x4D2BC40D = .ok (.fsetLtS 1 5 7 8 13) ∧ decode 0x4DABC40D = .ok (.fsetLeS 1 5 7 8 13) ∧
    decode 0x4E2BC40D = .ok (.fsetGtS 1 5 7 8 13) ∧ decode 0x4EABC40D = .ok (.fsetGeS 1 5 7 8 13) ∧
    decode 0x4F2BC40D = .ok (.fsetUnorderedS 1 5 7 8 13) ∧ decode 0x4FABC40D = .ok (.fsetOrderedS 1 5 7 8 13) :=
  ⟨rfl, rfl, rfl, rfl, rfl, rfl, rfl, rfl⟩

theorem test_decode_14 :
    decode 0x50210400 = .ok (.frcp 1 4 8) ∧ decode 0x50A10400 = .ok (.frsq 1 4 8) ∧
    decode 0x51210400 = .ok (.fsqrt 1 4 8) ∧ decode 0x51A10400 = .ok (.fexp2 1 4 8) ∧
    decode 0x52210400 = .ok (.flog2 1 4 8) ∧ decode 0x52A10400 = .ok (.fsin 1 4 8) ∧
    decode 0x53210400 = .ok (.fcos 1 4 8) ∧ decode 0x53A10400 = .ok (.ftanh 1 4 8) :=
  ⟨rfl, rfl, rfl, rfl, rfl, rfl, rfl, rfl⟩

theorem test_decode_15 :
    decode 0x5421040D = .ok (.fdiv 1 4 8 13) ∧ decode 0x54A10400 = .ok (.frnd 1 4 8) ∧
    decode 0x55210400 = .ok (.fclass 1 4 8) ∧ decode 0x55A10400 = .ok (.fabs 1 4 8) ∧
    decode 0x56210400 = .ok (.fneg 1 4 8) ∧ decode 0x56A10400 = .ok (.fsat 1 4 8) ∧
    decode 0x5721040D = .ok (.fmed3 1 4 8 13) :=
  ⟨rfl, rfl, rfl, rfl, rfl, rfl, rfl⟩

theorem test_decode_16 :
    decode 0x5821040D = .ok (.dadd 1 4 8 13) ∧ decode 0x58A1040D = .ok (.dsub 1 4 8 13) ∧
    decode 0x5921040D = .ok (.dmul 1 4 8 13) ∧ decode 0x59A1040D = .ok (.dfma 1 4 8 13) ∧
    decode 0x5A21040D = .ok (.dmin 1 4 8 13) ∧ decode 0x5AA1040D = .ok (.dmax 1 4 8 13) ∧
    decode 0x5B21040D = .ok (.ddiv 1 4 8 13) ∧ decode 0x5BA10400 = .ok (.dsqrt 1 4 8) :=
  ⟨rfl, rfl, rfl, rfl, rfl, rfl, rfl, rfl⟩

theorem test_decode_17 :
    decode 0x5C2BC40D = .ok (.dsetEq 1 5 7 8 13) ∧ decode 0x5CABC40D = .ok (.dsetNe 1 5 7 8 13) ∧
    decode 0x5D2BC40D = .ok (.dsetLt 1 5 7 8 13) ∧ decode 0x5DABC40D = .ok (.dsetLe 1 5 7 8 13) ∧
    decode 0x5E2BC40D = .ok (.dsetGt 1 5 7 8 13) ∧ decode 0x5EABC40D = .ok (.dsetGe 1 5 7 8 13) ∧
    decode 0x5F2BC40D = .ok (.dsetUnordered 1 5 7 8 13) ∧ decode 0x5FABC40D = .ok (.dsetOrdered 1 5 7 8 13) :=
  ⟨rfl, rfl, rfl, rfl, rfl, rfl, rfl, rfl⟩

theorem test_decode_18 :
    decode 0x6021040D = .ok (.hadd2V 1 4 8 13) ∧ decode 0x60A1040D = .ok (.hmul2V 1 4 8 13) ∧
    decode 0x6121040D = .ok (.hfma2V 1 4 8 13) ∧ decode 0x61A1040D = .ok (.badd2V 1 4 8 13) ∧
    decode 0x6221040D = .ok (.bmul2V 1 4 8 13) ∧ decode 0x62A1040D = .ok (.bfma2V 1 4 8 13) ∧
    decode 0x6321040D = .ok (.hmin2V 1 4 8 13) ∧ decode 0x63A1040D = .ok (.hmax2V 1 4 8 13) :=
  ⟨rfl, rfl, rfl, rfl, rfl, rfl, rfl, rfl⟩

theorem test_decode_19 :
    decode 0x6421040D = .ok (.hadd2S 1 4 8 13) ∧ decode 0x64A1040D = .ok (.hmul2S 1 4 8 13) ∧
    decode 0x6521040D = .ok (.hfma2S 1 4 8 13) ∧ decode 0x65A1040D = .ok (.badd2S 1 4 8 13) ∧
    decode 0x6621040D = .ok (.bmul2S 1 4 8 13) ∧ decode 0x66A1040D = .ok (.bfma2S 1 4 8 13) ∧
    decode 0x6721040D = .ok (.hmin2S 1 4 8 13) ∧ decode 0x67A1040D = .ok (.hmax2S 1 4 8 13) :=
  ⟨rfl, rfl, rfl, rfl, rfl, rfl, rfl, rfl⟩

theorem test_decode_1A :
    decode 0x68210417 = .ok (.fcvt 1 4 8 1 3 1) ∧ decode 0x68A10417 = .ok (.f2i 1 4 8 1 3 1) ∧
    decode 0x69210417 = .ok (.i2f 1 4 8 1 3 1) ∧ decode 0x69A10417 = .ok (.fpack 1 4 8 1 3 1) ∧
    decode 0x6A210416 = .ok (.funpack 1 4 8 1 3) ∧ decode 0x6AA10400 = .ok (.bpack 1 4 8) ∧
    decode 0x6B210400 = .ok (.bunpack 1 4 8) :=
  ⟨rfl, rfl, rfl, rfl, rfl, rfl, rfl⟩

theorem test_decode_1C :
    decode 0x7021040D = .ok (.xget 1 4 8 13) ∧ decode 0x70A1040D = .ok (.xrot 1 4 8 13) ∧
    decode 0x7121040D = .ok (.xslide 1 4 8 13) ∧ decode 0x71A1040D = .ok (.xmirr 1 4 8 13) ∧
    decode 0x7221040D = .ok (.lred 1 4 8 13) ∧ decode 0x72A1040D = .ok (.lscan 1 4 8 13) ∧
    decode 0x7321040D = .ok (.compact 1 4 8 13) ∧ decode 0x73A1040D = .ok (.matchLanes 1 4 8 13) :=
  ⟨rfl, rfl, rfl, rfl, rfl, rfl, rfl, rfl⟩

theorem test_decode_1D :
    decode 0x7421040D = .ok (.intersect 1 4 8 13) :=
  rfl

theorem test_decode_1E :
    decode 0x7821040D = .ok (.idot4 1 4 8 13) ∧ decode 0x78A1040D = .ok (.idot4n 1 4 8 13) ∧
    decode 0x7921040D = .ok (.idot4m 1 4 8 13) ∧ decode 0x79A1040D = .ok (.idot2 1 4 8 13) :=
  ⟨rfl, rfl, rfl, rfl⟩

theorem test_decode_20 :
    decode 0x834208B7 = .ok (.ld 3 1 4 8 183) :=
  rfl

theorem test_decode_21 :
    decode 0x874208B7 = .ok (.st 3 1 4 8 183) :=
  rfl

theorem test_decode_22 :
    decode 0x8B4208B7 = .ok (.lds 3 1 4 8 183) :=
  rfl

theorem test_decode_23 :
    decode 0x8F4208B7 = .ok (.sts 3 1 4 8 183) :=
  rfl

theorem test_decode_24 :
    decode 0x90210455 = .ok (.ld8 1 4 8 85) ∧ decode 0x90A10455 = .ok (.ld8n 1 4 8 85) ∧
    decode 0x91210455 = .ok (.ld16 1 4 8 85) ∧ decode 0x91A10455 = .ok (.ld16n 1 4 8 85) ∧
    decode 0x92210455 = .ok (.st8 1 4 8 85) ∧ decode 0x92A10455 = .ok (.st16 1 4 8 85) ∧
    decode 0x93210455 = .ok (.ldbc 1 4 8 85) ∧ decode 0x93A00455 = .ok (.pref 1 8 85) :=
  ⟨rfl, rfl, rfl, rfl, rfl, rfl, rfl, rfl⟩

theorem test_decode_25 :
    decode 0x9421040D = .ok (.atomAdd 1 4 8 13) ∧ decode 0x94A1040D = .ok (.atomMin 1 4 8 13) ∧
    decode 0x9521040D = .ok (.atomMax 1 4 8 13) ∧ decode 0x95A1040D = .ok (.atomAnd 1 4 8 13) ∧
    decode 0x9621040D = .ok (.atomOr 1 4 8 13) ∧ decode 0x96A1040D = .ok (.atomXor 1 4 8 13) ∧
    decode 0x9721040D = .ok (.atomExch 1 4 8 13) ∧ decode 0x97A1040D = .ok (.atomCas 1 4 8 13) :=
  ⟨rfl, rfl, rfl, rfl, rfl, rfl, rfl, rfl⟩

theorem test_decode_26 :
    decode 0x9820040D = .ok (.redAdd 1 8 13) ∧ decode 0x98A0040D = .ok (.redMin 1 8 13) ∧
    decode 0x9920040D = .ok (.redMax 1 8 13) ∧ decode 0x99A0040D = .ok (.redAnd 1 8 13) ∧
    decode 0x9A20040D = .ok (.redOr 1 8 13) ∧ decode 0x9AA0040D = .ok (.redXor 1 8 13) :=
  ⟨rfl, rfl, rfl, rfl, rfl, rfl⟩

theorem test_decode_27 :
    decode 0x9C21040D = .ok (.atomqAdd 1 4 8 13) ∧ decode 0x9CA1040D = .ok (.atomqExch 1 4 8 13) ∧
    decode 0x9D21040D = .ok (.atomqCas 1 4 8 13) :=
  ⟨rfl, rfl, rfl⟩

theorem test_decode_28 :
    decode 0xA0000000 = .ok .fenceAcq ∧ decode 0xA0100000 = .ok .fenceRel ∧ decode 0xA0200000 = .ok .fenceAr ∧
    decode 0xA087A000 = .ok (.meet 3 13) ∧ decode 0xA097A000 = .ok (.meetArr 3 13) ∧
    decode 0xA0A7A000 = .ok (.meetWait 3 13) ∧ decode 0xA0B7BE0B = .ok (.meetRed 3 13 7 1 11) ∧
    decode 0xA1000000 = .ok .tfence :=
  ⟨rfl, rfl, rfl, rfl, rfl, rfl, rfl, rfl⟩

theorem test_decode_29 :
    decode 0xA400C287 = .ok (.tcopy 3 5 7) ∧ decode 0xA420C287 = .ok (.tstore 3 5 7) ∧
    decode 0xA440C287 = .ok (.tgather 3 5 7) ∧ decode 0xA460C287 = .ok (.tscatter 3 5 7) ∧
    decode 0xA480C000 = .ok (.tready 3) ∧ decode 0xA4A0C000 = .ok (.trelease 3) ∧
    decode 0xA4C0C280 = .ok (.tstate 3 5) ∧ decode 0xA4E0C280 = .ok (.trows 3 5) :=
  ⟨rfl, rfl, rfl, rfl, rfl, rfl, rfl, rfl⟩

theorem test_decode_2A :
    decode 0xA800C280 = .ok (.mloadw 3 5) ∧ decode 0xA820C287 = .ok (.mma 3 5 7) ∧
    decode 0xA840C287 = .ok (.mmavs 3 5 7) ∧ decode 0xA860C000 = .ok (.mfence 3) ∧ decode 0xA880C000 = .ok (.mwait 3) ∧
    decode 0xA8A0C287 = .ok (.mstoreRegister 3 5 7) ∧ decode 0xA8A0E287 = .ok (.mstoreTile 3 5 7) ∧
    decode 0xA8C0C000 = .ok (.mzero 3) ∧ decode 0xA8E0C287 = .ok (.medge 3 5 7) ∧ decode 0xA9000000 = .ok .mpairLeave ∧
    decode 0xA9004000 = .ok .mpairEnter ∧ decode 0xA920C280 = .ok (.mshape 3 5) :=
  ⟨rfl, rfl, rfl, rfl, rfl, rfl, rfl, rfl, rfl, rfl, rfl, rfl⟩

theorem test_decode_2B :
    decode 0xAC00C287 = .ok (.noderead 3 5 7) ∧ decode 0xAC20C287 = .ok (.inbox 3 5 7) ∧
    decode 0xAC40C280 = .ok (.yieldUp 3 5) ∧ decode 0xAC60C287 = .ok (.hand 3 5 7) ∧
    decode 0xAC80C287 = .ok (.nodealloc 3 5 7) ∧ decode 0xACA0C280 = .ok (.treegrow 3 5) ∧
    decode 0xACC0C000 = .ok (.grove 3) ∧ decode 0xACE0C000 = .ok (.frame 3) :=
  ⟨rfl, rfl, rfl, rfl, rfl, rfl, rfl, rfl⟩

theorem test_decode_2C :
    decode 0xB000C2AB = .ok (.spawn 3 5 1 1 3) ∧ decode 0xB020C000 = .ok (.spawnf 3) ∧
    decode 0xB040C000 = .ok (.joinwait 3) ∧ decode 0xB060C280 = .ok (.joinadd 3 5) ∧
    decode 0xB080C280 = .ok (.payload 3 5) ∧ decode 0xB0A0C280 = .ok (.spquery 3 5) :=
  ⟨rfl, rfl, rfl, rfl, rfl, rfl⟩

theorem test_decode_2D :
    decode 0xB400C280 = .ok (.capbegin 3 5) ∧ decode 0xB4200000 = .ok .capend ∧ decode 0xB440C000 = .ok (.capres 3) ∧
    decode 0xB4600000 = .ok .capabort :=
  ⟨rfl, rfl, rfl, rfl⟩

theorem test_decode_30 :
    decode 0xC342A5B7 = .ok (.bra 1 5 0x2A5B7) :=
  rfl

theorem test_decode_31 :
    decode 0xC742A5B7 = .ok (.call 1 1 0x2A5B7) :=
  rfl

theorem test_decode_32 :
    decode 0xC9C2A5B7 = .ok (.joinat 0x2A5B7) :=
  rfl

theorem test_decode_33 :
    decode 0xCC000000 = .ok .nop ∧ decode 0xCC100000 = .ok .exit ∧ decode 0xCC200000 = .ok .ret ∧
    decode 0xCC300003 = .ok (.brxVector 3) ∧ decode 0xCC380003 = .ok (.brxScalar 3) ∧
    decode 0xCC403055 = .ok (.regang 3 85) ∧ decode 0xCC500003 = .ok (.trap 3) ∧ decode 0xCC600003 = .ok (.bkpt 3) ∧
    decode 0xCC700003 = .ok (.sleep 3) ∧ decode 0xCC800000 = .ok .yieldq ∧ decode 0xCC900004 = .ok (.tstamp 4) ∧
    decode 0xCCA00184 = .ok (.sread 3 4) ∧ decode 0xCCB00184 = .ok (.swrite 3 4) ∧ decode 0xCCC00000 = .ok .iret ∧
    decode 0xCCD00000 = .ok .park :=
  ⟨rfl, rfl, rfl, rfl, rfl, rfl, rfl, rfl, rfl, rfl, rfl, rfl, rfl, rfl, rfl⟩

theorem test_decode_38 :
    decode 0xE001040D = .ok (.iaddUint 4 8 13) ∧ decode 0xE081040D = .ok (.isubUint 4 8 13) ∧
    decode 0xE101040D = .ok (.imulUint 4 8 13) ∧ decode 0xE181040D = .ok (.imulhUint 4 8 13) ∧
    decode 0xE201040D = .ok (.iminUint 4 8 13) ∧ decode 0xE281040D = .ok (.imaxUint 4 8 13) ∧
    decode 0xE301040D = .ok (.iaddcUint 4 8 13) ∧ decode 0xE381040D = .ok (.isubcUint 4 8 13) :=
  ⟨rfl, rfl, rfl, rfl, rfl, rfl, rfl, rfl⟩

theorem test_decode_39 :
    decode 0xE401040D = .ok (.andUlog 4 8 13) ∧ decode 0xE481040D = .ok (.orUlog 4 8 13) ∧
    decode 0xE501040D = .ok (.xorUlog 4 8 13) ∧ decode 0xE581040D = .ok (.andnUlog 4 8 13) ∧
    decode 0xE601040D = .ok (.shlUlog 4 8 13) ∧ decode 0xE681040D = .ok (.shrUlog 4 8 13) ∧
    decode 0xE701040D = .ok (.sarUlog 4 8 13) ∧ decode 0xE781040D = .ok (.rotlUlog 4 8 13) :=
  ⟨rfl, rfl, rfl, rfl, rfl, rfl, rfl, rfl⟩

theorem test_decode_3A :
    decode 0xE8010455 = .ok (.iaddUintI 4 8 85) ∧ decode 0xE8810455 = .ok (.isubUintI 4 8 85) ∧
    decode 0xE9010455 = .ok (.imulUintI 4 8 85) ∧ decode 0xE9810455 = .ok (.imulhUintI 4 8 85) ∧
    decode 0xEA010455 = .ok (.iminUintI 4 8 85) ∧ decode 0xEA810455 = .ok (.imaxUintI 4 8 85) ∧
    decode 0xEB010455 = .ok (.iaddcUintI 4 8 85) ∧ decode 0xEB810455 = .ok (.isubcUintI 4 8 85) :=
  ⟨rfl, rfl, rfl, rfl, rfl, rfl, rfl, rfl⟩

theorem test_decode_3B :
    decode 0xEC010455 = .ok (.andUlogI 4 8 85) ∧ decode 0xEC810455 = .ok (.orUlogI 4 8 85) ∧
    decode 0xED010455 = .ok (.xorUlogI 4 8 85) ∧ decode 0xED810455 = .ok (.andnUlogI 4 8 85) ∧
    decode 0xEE010455 = .ok (.shlUlogI 4 8 85) ∧ decode 0xEE810455 = .ok (.shrUlogI 4 8 85) ∧
    decode 0xEF010455 = .ok (.sarUlogI 4 8 85) ∧ decode 0xEF810455 = .ok (.rotlUlogI 4 8 85) :=
  ⟨rfl, rfl, rfl, rfl, rfl, rfl, rfl, rfl⟩

theorem test_decode_3C :
    decode 0xF0840055 = .ok (.moviVector 1 4 85) ∧ decode 0xF2040055 = .ok (.moviScalar 4 85) :=
  ⟨rfl, rfl⟩

theorem test_decode_3D :
    decode 0xF407440D = .ok (.usetEq 3 5 8 13) ∧ decode 0xF487440D = .ok (.usetNe 3 5 8 13) ∧
    decode 0xF507440D = .ok (.usetLt 3 5 8 13) ∧ decode 0xF587440D = .ok (.usetGe 3 5 8 13) ∧
    decode 0xF607440D = .ok (.usetLtn 3 5 8 13) ∧ decode 0xF687440D = .ok (.usetGen 3 5 8 13) ∧
    decode 0xF707440D = .ok (.usetLe 3 5 8 13) ∧ decode 0xF787440D = .ok (.usetGt 3 5 8 13) :=
  ⟨rfl, rfl, rfl, rfl, rfl, rfl, rfl, rfl⟩

theorem test_decode_3F :
    decode 0xFC000055 = .ok (.hintImm 85) ∧ decode 0xFC40000D = .ok (.hintGuard 1 5) ∧
    decode 0xFC800007 = .ok (.hintSrcx 1 1 1) ∧ decode 0xFCC00003 = .ok (.hintCreg 3) ∧
    decode 0xFD000003 = .ok (.hintType 3) ∧ decode 0xFD40001F = .ok (.hintRound 1 1 7) ∧
    decode 0xFD800015 = .ok (.hintSched 1 5) ∧ decode 0xFDC00003 = .ok (.hintCache 3) :=
  ⟨rfl, rfl, rfl, rfl, rfl, rfl, rfl, rfl⟩

/-! ### WellFormed -/

theorem test_wellFormed_accepts :
    (Instr.iaddV 0 1 2 3).wellFormed = true ∧ (Instr.frame 94).wellFormed = true ∧ (Instr.fcvt 0 2 4 0 6 0).wellFormed = true ∧
    (Instr.sread 0x1000 3).wellFormed = true ∧ (Instr.hintType 19).wellFormed = true ∧ (Instr.bra 0 7 1).wellFormed = true := by
  decide
/-- A source register number from 122 on (R47). -/
theorem test_illFormed_source : (Instr.iaddS 0 1 2 122).wellFormed = false := by decide
/-- A scalar pair at an odd register (R50). -/
theorem test_illFormed_sourcePair : (Instr.lds 0 0 1 5 0).wellFormed = false ∧ (Instr.lds 0 0 1 98 0).wellFormed = false := by decide
/-- A scalar destination that is a launch value (R47). -/
theorem test_illFormed_destination : (Instr.iaddUint 97 1 2).wellFormed = false ∧ (Instr.tstamp 95).wellFormed = false := by decide
/-- A vector pair at an odd register (R50). -/
theorem test_illFormed_vectorPair : (Instr.dadd 0 3 4 6).wellFormed = false := by decide
/-- A resource number below and above its range (R49, R67, R68). -/
theorem test_illFormed_range : (Instr.mloadw 0 0).wellFormed = false ∧ (Instr.mzero 8).wellFormed = false ∧
    (Instr.meet 2 0).wellFormed = false ∧ (Instr.hintCache 5).wellFormed = false := by decide
/-- The conversion codes, one bad pair for each kind (R81, R144, R145). -/
theorem test_illFormed_conversion : (Instr.fcvt 0 2 4 1 1 0).wellFormed = false ∧ (Instr.f2i 0 2 4 7 0 0).wellFormed = false ∧
    (Instr.i2f 0 2 4 0 7 0).wellFormed = false ∧ (Instr.fpack 0 2 4 0 6 0).wellFormed = false ∧
    (Instr.funpack 0 2 4 1 1).wellFormed = false := by decide
/-- A signed AND reduction (R67). -/
theorem test_illFormed_signed : (Instr.meetRed 4 0 3 1 5).wellFormed = false := by decide
/-- A condition that is never met (R45). -/
theorem test_illFormed_never : (Instr.bra 1 7 1).wellFormed = false ∧ (Instr.call 1 3 1).wellFormed = false := by decide
/-- A system register that does not exist, and one that is only read (R132). -/
theorem test_illFormed_systemRegister : (Instr.sread 7 3).wellFormed = false ∧ (Instr.swrite 0x1000 3).wellFormed = false ∧
    (Instr.swrite 2 3).wellFormed = false := by decide
/-- TYPE codes that name no type (R60). -/
theorem test_illFormed_type : (Instr.hintType 15).wellFormed = false ∧ (Instr.hintType 20).wellFormed = false := by decide

/-! ### A small machine: one block of one warp of eight full slices, as `withFetchWord` places it, its gang issuing -/

/-- The placed warp, whose only gang issues. -/
def at0 : State := State.reset.placed.issueOf 0 0 0 0x10000
/-- The gang changed. -/
def gang (f : Gang → Gang) : State := at0.modWarp 0 (fun W => W.modGang 0 f)
/-- The gang with hints pending. -/
def hints (l : List Hint) : State := gang (fun g => { g with hints := l })
/-- The gang with a TYPE hint. -/
def typed' (t : Nat) : State := hints [⟨4, BitVec.ofNat 22 t⟩]
/-- Vector registers of all lanes, each a value of the lane. -/
def vecs (s : State) (l : List (Nat × (Nat → Word))) : State :=
  s.modWarp 0 (fun W => l.foldl (fun W e => W.vputs (BitVec.allOnes 32) e.1 (fun lane => e.2 lane)) W)
/-- Scalar registers. -/
def scals (s : State) (l : List (Nat × Word)) : State := s.modWarp 0 (fun W => l.foldl (fun W e => W.sput 0 e.1 e.2) W)
/-- The gang passes every check under each of the signatures. -/
def passes (s : State) (l : List (Ctx → State → Sig)) : Bool := l.all (fun g => (s.passes g).isSome)
/-- Signatures that depend on hints alone. -/
def passesH (s : State) (l : List (HintSet → Sig)) : Bool := passes s (l.map hinted)

/-! ### Hypotheses: a gang that passes the checks -/

theorem test_hyp_int : passesH at0 ((List.range 8).flatMap (fun fn => [intSig fn 0 4 8 (.v 13), intSig fn 0 4 8 (.s 13),
    intSig fn 0 4 8 (.i 13), uintSig fn 4 8 (.s 13), uintSig fn 4 8 (.i 13)])) = true := by decide
theorem test_hyp_int_pair : passesH (typed' 2) ((List.range 3).flatMap (fun fn => [intSig fn 0 4 8 (.v 12), intSig fn 0 4 8 (.s 12),
    intSig fn 0 4 8 (.i 13), uintSig fn 4 8 (.s 12), uintSig fn 4 8 (.i 13)])) = true := by decide
theorem test_hyp_log : passesH at0 [logSig 0 4 8 (.v 13), logSig 0 4 8 (.s 13), logSig 0 4 8 (.i 13), ulogSig 4 8 (.s 13),
    ulogSig 4 8 (.i 13)] = true := by decide
theorem test_hyp_iext : passesH (typed' 1) [iextSig [0, 1] false 0 4 8 (.v 13), iextSig [0, 1] false 0 4 8 (.s 13),
    leaSig 0 4 8 (.v 13), leaSig 0 4 8 (.s 13)] = true ∧
    passesH at0 [iextSig [] false 0 4 8 (.v 13), iextSig [] false 0 4 8 (.s 13)] = true ∧
    passesH (hints [⟨3, 9⟩]) [iextSig [] true 0 4 8 (.v 13), iextSig [] true 0 4 8 (.s 13)] = true := by decide
theorem test_hyp_iun : passesH at0 [fun _ => iunSig 1 1 [] 0 4 8, countSig 0 4 8, fun _ => iunSig 2 1 [] 0 4 8,
    fun _ => iunSig 1 2 [] 0 4 8] = true ∧ passesH (typed' 3) [countSig 0 4 8] = true := by decide
theorem test_hyp_bitf : passesH (hints [⟨3, 9⟩]) [bitfSig 1 true 0 4 8 13] = true ∧
    passesH at0 [bitfSig 1 false 0 4 8 13, bitfSig 2 false 0 4 8 13, idotSig 0 4 8 13] = true ∧
    passesH (hints [⟨5, 8⟩]) [idotSig 0 4 8 13] = true := by decide
theorem test_hyp_iset : passesH at0 [isetSig 0 3 8 (.v 13), isetSig 0 3 8 (.s 13), isetSig 0 3 8 (.i 13), usetSig 3 1 8 13] = true ∧
    passesH (typed' 2) [isetSig 0 3 8 (.v 12), isetSig 0 3 8 (.s 12), isetSig 0 3 8 (.i 13), usetSig 3 1 8 12] = true := by decide
theorem test_hyp_move : passesH at0 [fun _ => moveSig 0 [(.v 8 1, some 0)] [.v 4 1] .vec, fun _ => moveSig 0 [(.s 8 1, some 1)] [.v 4 1] .no,
    fun _ => moveSig 0 [] [.v 4 1] .vec, fun _ => moveSig 0 [(.v 8 1, some 0)] [] .vec, fun _ => moveSig 0 [] [] .vec,
    fun _ => moveSig 0 [] [.s 4 1] .no] = true ∧
    passesH (hints [⟨3, 2⟩]) [fun h => { moveSig 0 [(.v 8 1, some 0), (.v 13 1, some 1)] [.v 4 1] .vec with
        creg := true, legal := decide (h.creg.getD 0 < 8) }] = true ∧
    passesH (hints [⟨0, 1⟩, ⟨0, 0x200000⟩]) [fun h => { moveSig 0 [] [.v 4 (typeRegs (h.typeOr 0))] .vec with types := intTypes, imms := 2 },
      fun h => { Sig.plain with dsts := [.s 4 (typeRegs (h.typeOr 0))], types := intTypes, imms := 2 }] = true := by decide
theorem test_hyp_float : passesH at0 ((List.range 8).flatMap (fun fn => [f32Sig fn 0 4 8 (.v 13), f32Sig fn 0 4 8 (.s 13)])) = true ∧
    passesH at0 ((List.range 6).flatMap (fun fn => [f64Sig fn 0 4 8 12])) = true ∧
    passesH at0 [h2Sig 0 [] 0 4 8 (.v 13), h2Sig 2 [] 0 4 8 (.s 13), h2Sig 3 [] 0 4 8 (.v 13)] = true ∧
    passesH (typed' 10) [h2Sig 4 [9, 10] 0 4 8 (.v 13), h2Sig 5 [9, 10] 0 4 8 (.s 13)] = true ∧
    passesH (hints [⟨5, 0x1B⟩]) [f32Sig 0 0 4 8 (.v 13), f64Sig 2 0 4 8 12] = true := by decide
theorem test_hyp_fset : passesH at0 [fsetSig 1 0 3 8 (.v 13), fsetSig 1 0 0 8 (.s 13), fsetSig 2 0 1 8 (.v 12)] = true := by decide
theorem test_hyp_fmisc : passesH at0 [fun _ => unarySig 0 4 8, fun _ => { unarySig 0 4 8 with ftz := true },
    fun _ => { unarySig 0 4 8 with modes := true, ftz := true },
    fun h => { (fpSig 0 4 1 8 1 (vopnd 13 1) .vec).withC h 4 1 with ftz := true },
    fun _ => { fpSig 0 4 2 8 2 [] .vec with modes := true, ftz := true },
    fun _ => { fpSig 0 4 1 8 1 [(.v 13 1, some 1)] .vec with modes := true, sat := true, ftz := true },
    fun _ => { fpSig 0 4 2 8 2 [(.v 12 2, some 1)] .vec with modes := true, sat := true, ftz := true }] = true ∧
    passesH (typed' 14) [fun h => { fpSig 0 4 1 8 (if h.type = some 14 then 2 else 1) [] .vec with types := [8, 14] }] = true := by decide
theorem test_hyp_conversions : passesH at0 [fcvtSig 0 4 8 0 6, f2iSig 0 4 8 6 2, i2fSig 0 4 8 2 6, fpackSig 0 4 8 0 5, funpackSig 0 8 4 5 0] = true ∧
    passesH (typed' 17) [blockSig true 0 4 8, blockSig false 0 4 8] = true := by decide
theorem test_hyp_lanes : passesH at0 [xlaneSig 0 4 8 13] = true ∧ passesH (typed' 0) [fun h => { xlaneSig 0 4 8 13 h with types := [0, 1] }] = true ∧
    passesH (typed' 3) [laneSig 0 4 8 12] = true ∧ passesH (typed' 8) [laneSig 0 4 8 12] = true ∧
    passesH (typed' 14) [laneSig 0 4 8 12] = true := by decide
theorem test_hyp_memory : passesH at0 [loadSig 0 4 4 8, storeSig 0 4 4 8, fun _ => { Sig.plain with
      g := some 0, guard := true, srcs := [(.s 8 2, some 0)], dsts := [.v 4 2], imms := 2, cache := true, body := .no }, fun _ => { Sig.plain with
      g := some 0, guard := true, srcs := [(.s 8 2, some 0), (.v 4 2, some 2)], imms := 2, cache := true, body := .no }, fun _ => { Sig.plain with
      g := some 0, guard := true, srcs := [(.v 8 2, some 0)], imms := 2, cache := true, body := .vec }] = true := by decide
theorem test_hyp_atomics : passesH (typed' 8) ((List.range 3).map (fun fn => atomSig fn [0, 1, 2, 3, 8] .vec 0 (some 4) 8 12)) = true ∧
    passesH (typed' 7) [atomSig 3 [0, 1, 2, 3, 5, 7] .vec 0 (some 4) 8 12, atomSig 5 [0, 1, 2, 3, 5, 7] .vec 0 none 8 12] = true ∧
    passesH (hints [⟨4, 3⟩, ⟨3, 16⟩]) [atomSig 7 [0, 1, 2, 3, 5, 7] .vec 0 (some 4) 8 12, atomSig 7 [0, 1, 2, 3] .no 0 (some 4) 8 12] = true ∧
    passesH (typed' 2) [atomSig 0 [0, 1, 2, 3] .no 0 (some 4) 8 12, atomSig 6 [0, 1, 2, 3] .no 0 (some 4) 8 12,
      atomSig 2 [0, 1, 2, 3, 8] .vec 0 none 8 12] = true := by decide

/-! ### Hypotheses: memory accesses -/

/-- No lane of a warp without capsules is in one. -/
theorem noCapsule (c : Ctx) (h : c.W.caps = []) : ∀ lane, c.inCapsule lane = false := by
  intro lane
  unfold Ctx.inCapsule Warp.cap
  rw [h]
  rfl

/-- An access that the placed warp can perform, in the form the statements ask for. -/
def CanReach (s : State) (sig : HintSet → Sig) (acc : Acc) (win : Bool) (size : Nat) (l : Ctx → State → List (Nat × DWord))
    (place : Nat → List Loc) : Prop :=
  ∃ c, s.passes (hinted sig) = some c ∧ Reaches s c acc win size size (l c s) place

/-- That, computed, on a machine with no store on its way. -/
def can (s : State) (sig : HintSet → Sig) (acc : Acc) (win : Bool) (size : Nat) (l : Ctx → State → List (Nat × DWord))
    (place : Nat → List Loc) : Bool :=
  match s.passes (hinted sig) with
  | none => false
  | some c => c.W.caps.isEmpty && s.regq.isEmpty && decide (s.requestsOut c.W.core + (l c s).length ≤ 3072) && !(s.orderedBusy c) && c.act != 0 && (l c s).all (fun e => e.2.toNat % size == 0 && canonical e.2 &&
      !(badWindow s c win size e.2) && decide (laneAccess s c acc size e.2 = .go (place e.1)))

theorem can_reach (s : State) (sig : HintSet → Sig) (acc : Acc) (win : Bool) (size : Nat) (l : Ctx → State → List (Nat × DWord))
    (place : Nat → List Loc) (h : can s sig acc win size l place = true) : CanReach s sig acc win size l place := by
  unfold can at h
  generalize hp : s.passes (hinted sig) = o at h
  cases o with
  | none => cases h
  | some c =>
    simp only [Bool.and_eq_true, List.all_eq_true, List.isEmpty_iff, Bool.not_eq_true', beq_iff_eq, decide_eq_true_eq] at h
    obtain ⟨⟨⟨⟨⟨hc, hq⟩, hr⟩, ho⟩, _⟩, hl⟩ := h
    refine ⟨c, hp, fun e he => (hl e he).1.1.1, fun e he => (hl e he).1.1.2, fun e he => (hl e he).1.2, fun e he => (hl e he).2,
      noCapsule c hc, hr, fun _ => ⟨ho, fun e he => ?_⟩⟩
    rw [hq] at he
    cases he

/-- Lanes at 16 bytes each from an address. -/
def lanesFrom (s : State) (r : Nat) (lo hi : Word) : State :=
  vecs s [(r, fun lane => lo + BitVec.ofNat 32 (16 * lane)), (r + 1, fun _ => hi)]
/-- Bytes of device memory. -/
def memAt (o : Bool) (n : Nat) (lane : Nat) : List Loc := (List.range n).map (fun j => .mem (0x40000 + 16 * lane + j) o)
/-- The page made ordered. -/
def ordered (s : State) : State := { s with tlb := s.tlb.map (fun t => { t with attr := 15 }) }

theorem test_hyp_load : CanReach (lanesFrom at0 8 0x40000 0) (loadSig 0 4 4 8) .read true 16
    (fun c _ => lanesAt c (vaddr c 8 (0 : BitVec 8) 16)) (memAt false 16) :=
  can_reach _ _ _ _ _ _ _ (by decide +kernel)
theorem test_hyp_load_window : CanReach (lanesFrom at0 8 0x600 0xFFFE0000) (loadSig 0 4 1 8) .read true 4
    (fun c _ => lanesAt c (vaddr c 8 (0 : BitVec 8) 4))
    (fun lane => (List.range 4).map (fun j => .reg 0 ((0x200 + 16 * lane) / 128) ((0x200 + 16 * lane) % 128 / 4) j)) :=
  can_reach _ _ _ _ _ _ _ (by decide +kernel)
theorem test_hyp_store : CanReach (lanesFrom at0 8 0x40000 0) (storeSig 0 4 4 8) .write true 16
    (fun c _ => lanesAt c (vaddr c 8 (0 : BitVec 8) 16)) (memAt false 16) :=
  can_reach _ _ _ _ _ _ _ (by decide +kernel)
theorem test_hyp_store_window : CanReach (lanesFrom at0 8 0 0xFFFE0000) (storeSig 0 4 1 8) .write true 4
    (fun c _ => lanesAt c (vaddr c 8 (0 : BitVec 8) 4))
    (fun lane => (List.range 4).map (fun j => .mem (coreKey 0 (16 * lane) + j) false)) :=
  can_reach _ _ _ _ _ _ _ (by decide +kernel)
theorem test_hyp_store_ordered : CanReach (ordered (lanesFrom at0 8 0x40000 0)) (storeSig 0 4 4 8) .write true 16
    (fun c _ => lanesAt c (vaddr c 8 (0 : BitVec 8) 16)) (memAt true 16) :=
  can_reach _ _ _ _ _ _ _ (by decide +kernel)
theorem test_hyp_atomic : CanReach (lanesFrom (typed' 0) 8 0x40000 0) (atomSig 0 [0, 1, 2, 3, 8] .vec 0 (some 4) 8 12) .both false 4
    (fun c _ => lanesAt c (fun lane => c.W.vget2 8 lane)) (memAt false 4) :=
  can_reach _ _ _ _ _ _ _ (by decide +kernel)
/-- No byte is in the dirty log of the PF, which keeps none. -/
theorem test_hyp_noLog (s : State) (key : Nat) : ¬ LogCell s 0 key := fun h => h.1 rfl
/-- A byte of the dirty log of a VF that has its log on. -/
theorem test_hyp_log_cell : LogCell (State.reset.setVf 1 { VFn.reset with dlctl := 1, dlbase := 0x5000 }) 1 (keyOf 1 0x5008) :=
  ⟨by decide, by decide, 1, 0, by decide, by decide, by decide⟩
theorem test_hyp_atomq_idle : ∃ c, (at0.passes (hinted (atomSig 0 [0, 1, 2, 3] .no 1 (some 4) 8 12))) = some c ∧ c.act = 0 :=
  ⟨_, rfl, by decide⟩

/-- One access by lane 0 alone, at an address. -/
def laneZero (lo hi : Word) : State :=
  (vecs at0 [(8, fun _ => lo), (9, fun _ => hi)]).modWarp 0 (fun W => W.pputs (BitVec.allOnes 32) 0 1)
theorem test_hyp_faults :
    let at' (lo hi : Word) (f : Nat × DWord → Bool) : Bool := match (laneZero lo hi).passes (hinted (loadSig 1 4 1 8)) with
      | some c => (lanesAt c (vaddr c 8 (0 : BitVec 8) 4)).length == 1 && (lanesAt c (vaddr c 8 (0 : BitVec 8) 4)).any f
      | none => false
    at' 0x40002 0 (fun e => decide (e.2.toNat % 4 ≠ 0)) = true ∧ at' 0 0x0F000000 (fun e => !canonical e.2) = true ∧
    (match (laneZero 0x4600 0xFFFE0000).passes (hinted (loadSig 1 4 1 8)) with
      | some c => (lanesAt c (vaddr c 8 (0 : BitVec 8) 4)).any (fun e => badWindow (laneZero 0x4600 0xFFFE0000) c true 4 e.2)
      | none => false) = true ∧
    (match (laneZero 0x200000 0).passes (hinted (loadSig 1 4 1 8)) with
      | some c => decide (laneAccess (laneZero 0x200000 0) c .read 4 0x200000 = .fault 6 1)
      | none => false) = true := by decide +kernel

/-- A store of the placed warp to two bytes, or one. -/
def aStore (l : List (Nat × Byte)) : Reg :=
  { core := 0, warp := 0, slices := 1, home := homeOf (State.reset.stand 0) 0x40000, ctx := 0, tag := 0, bytes := l }
/-- Two stores on their way. -/
def storing : State := { at0 with regq := [(7, aStore [(0x40000, 1), (0x40001, 2)]), (9, aStore [(0x40001, 3)])] }
/-- A load of the placed warp that has not returned. -/
def aLoad : Land :=
  { warp := 0, slices := 255, vecs := [(4, 15, [9, 8, 7, 6])], marks := [(4, 1)], scals := [(3, 5)], quni := none, flags := 0,
    memory := true, acquire := false, mayFlag := false }
/-- A load on its way. -/
def loading : State := { at0 with inflight := [(5, aLoad)] }
theorem test_hyp_fences :
    (match storing.passes (hinted (fun _ => Sig.plain)) with | some c => storing.storesOut c.w c.G.slices | none => false) = true ∧
    (match loading.passes (hinted (fun _ => Sig.plain)) with | some c => loading.loadsOut c.w c.G.slices | none => false) = true ∧
    (match at0.passes (hinted (fun _ => Sig.plain)) with
      | some c => !(at0.storesOut c.w c.G.slices || at0.drainsOut c.w c.G.slices || at0.loadsOut c.w c.G.slices) | none => false) = true := by
  decide
/-- A store of a core on its way to one home before another. -/
def before (e : Nat × Reg) (id : Nat) (r : Reg) : Prop := e.1 < id ∧ e.2.core = r.core ∧
  ((e.2.warp = r.warp ∧ e.2.slices &&& r.slices ≠ 0 ∧ e.2.home = r.home) ∨ ∃ x ∈ e.2.bytes, ∃ y ∈ r.bytes, x.1 = y.1)
/-- The younger of two stores of a warp to one home waits for the elder, which waits for none. -/
theorem test_hyp_registration : sget storing.regq 9 = some (aStore [(0x40001, 3)]) ∧
    (∃ e ∈ storing.regq, before e 9 (aStore [(0x40001, 3)])) ∧ sget storing.regq 7 = some (aStore [(0x40000, 1), (0x40001, 2)]) ∧
    ¬ ∃ e ∈ storing.regq, before e 7 (aStore [(0x40000, 1), (0x40001, 2)]) := by
  refine ⟨by decide, ⟨(7, aStore [(0x40000, 1), (0x40001, 2)]), by decide, ?_⟩, by decide, ?_⟩
  · unfold before; decide
  · unfold before; decide

/-- The queue rises, and a key of none of the core's stores is no word of a log. -/
theorem test_hyp_write_back : srising storing.regq = true ∧
    (∀ e ∈ storing.regq, e.2.core = 0 ∧ ∀ x ∈ e.2.bytes, x.1 ≠ 0x50000) ∧
    (∀ e ∈ storing.regq, ¬ LogCell storing e.2.tag 0x50000) := by
  refine ⟨by decide, by decide, ?_⟩
  intro e he
  have ht : e.2.tag = 0 := by
    revert e
    decide
  rw [ht]
  rintro ⟨h, -⟩
  exact absurd rfl h

/-! ### Hypotheses: barriers, tiles and the arrays -/

/-- The gang passes the checks, and what follows is true of it. -/
def holds (s : State) (sig : Ctx → State → Sig) (f : Ctx → State → Bool) : Bool :=
  match s.passes sig with
  | none => false
  | some c => f c s

/-- Barrier 0 of the block, in a phase. -/
def barrier (phase : Nat) (l : SMap (BitVec 8)) : Barrier :=
  { level := 4, inst := [0], num := 0, phase := phase, arrived := l, packets := [], parts := [], broken := false, result := 0 }
/-- The placed warp with that barrier. -/
def withBarrier (s : State) (b : Barrier) : State := { s with barriers := [(3, b)] }
/-- The gang waits at a barrier. -/
def waiting (p : Pending) : State := gang (fun g => { g with pend := p })

/-- It may arrive: at a barrier never used, and at one in whose phase it does not stand. -/
theorem test_hyp_meet :
    let joins (s : State) (fresh : Bool) : Bool := holds s (meetSig 4 0) (fun c s =>
      !(s.storesOut c.w c.G.slices) && !(s.drainsOut c.w c.G.slices) && decide (c.G.pend = .none) &&
        (match s.barrierKey c.W 4 0 with
          | none => false
          | some inst => match s.findBarrier 4 inst 0 with
            | none => fresh
            | some (_, b) => !fresh && zget 0 b.arrived c.w &&& c.G.slices == 0))
    joins at0 true = true ∧ joins (withBarrier at0 (barrier 2 [])) false = true := by decide
theorem test_hyp_meet_over :
    let s := withBarrier (waiting (.barrier 3 0)) (barrier 1 [])
    holds s (meetSig 4 0) (fun c s => decide (c.G.pend = .barrier 3 0) && !(s.loadsOut c.w c.G.slices)) = true ∧
    (∃ b, sget s.barriers 3 = some b ∧ 0 < b.phase) := ⟨by decide, _, rfl, by decide⟩
theorem test_hyp_meetWait :
    let s := (withBarrier at0 (barrier 1 [])).modWarp 0 (fun W => { W with arrived := [(3, 0)] })
    holds s (meetSig 4 0) (fun c s => s.barrierKey c.W 4 0 == some [0] && sget c.W.arrived 3 == some 0) = true ∧
    (s.findBarrier 4 [0] 0).map (fun e => (e.1, e.2.phase)) = some (3, 1) := by decide
theorem test_hyp_meet_absent : (match at0.issuing with
    | none => false
    | some c => at0.barrierKey c.W 7 9 == none) = true := by decide
theorem test_hyp_tfence :
    let s (f : Word) : State := at0.modWarp 0 (fun W => { W with flags := f })
    holds (s 0x00010000) (fun _ _ => Sig.plain) (fun c _ => field c.W.flags.toNat 0 9 &&& field c.W.flags.toNat 16 9 == 0) = true ∧
    holds (s 0x00010001) (fun _ _ => Sig.plain) (fun c _ => field c.W.flags.toNat 0 9 &&& field c.W.flags.toNat 16 9 == 1) = true := by
  decide
/-- A phase that is full and one that is not; a barrier over two cores, whose packet is still to be sent and has been sent. -/
theorem test_hyp_phases :
    let two (b : Barrier) : State := (withBarrier at0 b).modBlock 0 (fun B => { B with cores := [0, 1] })
    let b := barrier 0 [(0, 255)]
    (withBarrier at0 b).phaseFull b = true ∧ (withBarrier at0 b).phaseFull (barrier 0 [(0, 127)]) = false ∧
    (two b).isWide b = true ∧ (two b).warpArrived b 0 = true ∧ (two b).phaseFull b = false ∧
    (two b).phaseFull { b with packets := [0] } = true := by decide

/-- A tile of FP32: two rows of 16 elements. -/
def tile (st : TileState) : Tile :=
  { off := 0, rows := 2, k := 16, fmt := 8, plane := false, state := st, readers := 0, landed := 0, cmds := 0, fault := false,
    faultAddr := 0 }
/-- The block with tile 5. -/
def tiled (s : State) (t : Tile) : State := s.modBlock 0 (fun B => { B with tiles := [(5, t)] })
/-- A copy with a base and a stride, in the states the clauses ask for. -/
theorem test_hyp_copy :
    let base (x : Word) : State := scals at0 [(4, x), (8, 64)]
    let rows (c : Ctx) (s : State) : List DWord := (List.range 2).map (fun i => c.sread2 s 4 + BitVec.ofNat 64 (i * (c.sread s 8).toNat))
    let fill := copySig false false 5 4 (.s 8 1)
    let drain := copySig true false 5 4 (.s 8 1)
    holds (tiled (base 0x40004) (tile .empty)) fill (fun c s => (rows c s).any (fun a => decide (a.toNat % 16 ≠ 0))) = true ∧
    holds (tiled (base 0x40000) (tile .empty)) fill (fun c s =>
      (rows c s).all (fun a => a.toNat % 16 == 0 && canonical a && !(inWindow a)) && decide (s.copyQueue c.W.core < 64)) = true ∧
    holds (tiled (base 0x40000) (tile .ready)) drain (fun c s => (s.tileOf c.W 5 == some (tile .ready))) = true ∧
    holds (tiled (base 0x40000) (tile .draining)) fill (fun c s => (s.tileOf c.W 5 == some (tile .draining))) = true ∧
    holds (tiled (base 0x40000) { tile .empty with fault := true, faultAddr := 0x70 }) fill (fun _ _ => true) = true := by decide
/-- A gather of two lanes into two rows; one with a row past the last; one with no lane. -/
theorem test_hyp_gather :
    let lanes (m : Word) (i : List Hint) : State :=
      (scals (hints i) [(4, 0x40000)]).modWarp 0 (fun W => { W with slices := (List.range 8).map (fun j =>
        { W.slice j with active := m.extractLsb' (4 * j) 4 }) })
    let far (c : Ctx) : Bool := (lanesOf c.act).any (fun lane => decide (2 ≤ immNat (0#0 : BitVec 0) c.h.imms + lane))
    holds (tiled (lanes 3 []) (tile .empty)) (copySig false true 5 4 (.v 8 1)) (fun c _ => c.act != 0 && !(far c)) = true ∧
    holds (tiled (lanes 3 [⟨0, 1⟩]) (tile .empty)) (copySig false true 5 4 (.v 8 1)) (fun c _ => far c) = true ∧
    holds (tiled (lanes 0 []) (tile .ready)) (copySig true true 5 4 (.v 8 1)) (fun c _ => c.act == 0) = true := by decide
theorem test_hyp_tile :
    holds (tiled at0 { tile .filling with cmds := 1 }) (tileSig 5) (fun _ _ => true) = true ∧
    holds (tiled at0 { tile .ready with landed := 2 }) (fun c s => { tileSig 5 c s with dsts := [.s 3 1] }) (fun _ _ => true) = true ∧
    holds (tiled (scals at0 [(3, 2)]) { tile .filling with landed := 2 })
      (fun c s => { tileSig 5 c s with srcs := [(.s 3 1, some 1)] }) (fun c s => decide ((c.sread s 3).toNat ≤ 2)) = true ∧
    holds (tiled (scals at0 [(3, 2)]) (tile .filling))
      (fun c s => { tileSig 5 c s with srcs := [(.s 3 1, some 1)] }) (fun c s => decide (0 < (c.sread s 3).toNat)) = true := by decide

/-- A copy command of tile 5 with its first row to do. -/
def command (drain : Bool) : CopyCmd :=
  { core := 0, block := 0, tile := 5, warp := 0, slices := 255, drain := drain, fmt := 8, size := 64, todo := [(0, 0x40000)], values := [],
    source := [(0, List.replicate 64 7)], fault := none }
/-- The placed warp with that command. -/
def copying (k : CopyCmd) : State := { tiled at0 { tile (if k.drain then .draining else .filling) with cmds := 1 } with cmds := [(6, k)] }
theorem test_hyp_rows :
    (∃ t B, Doing (copying (command false)) 6 0 (command false) 0x40000 t B) ∧
    (∃ t B, Doing (copying (command true)) 6 0 (command true) 0x40000 t B) ∧
    (match (copying (command true)).rowAccess 0 0 true 0x40000 (memRowBytes 8 16) with
      | .go l => l == [(0x40000, false, 16), (0x40010, false, 16), (0x40020, false, 16), (0x40030, false, 16)]
      | _ => false) = true ∧
    (copying { command false with todo := [(0, 0xFFFF0)], fault := some 0xFFFF0 }).cmdFault 90
      { command false with todo := [(0, 0xFFFF0)], fault := some 0xFFFF0 } = some 0xFFFF0 :=
  ⟨⟨_, _, rfl, rfl, rfl, rfl, rfl⟩, ⟨_, _, rfl, rfl, rfl, rfl, rfl⟩, by decide, by decide⟩

/-- The placed block's team, of one warp. -/
def teamed (s : State) (f : Team → Team) : State := s.modBlock 0 (fun B => { B with teams := [(0, f Team.start)] })
/-- The team has the whole array. -/
def shaped (s : State) : State := teamed s (fun t => { t with shape := some (3, 0) })
/-- It comes alone to its next collective. -/
def alone (c : Ctx) (s : State) : Bool := match teamCtx c s with
  | none => false
  | some x => x.members == [c.w] && (s.team x.b x.t).performed + 1 == c.W.arrivals + 1 && decide (c.G.pend = .none) &&
      (s.team x.b x.t).arrivals.isEmpty && c.G.slices != 0
/-- A plane tile of 32 rows of 64 FP8 elements. -/
def plane : Tile :=
  { off := 0, rows := 32, k := 64, fmt := 17, plane := true, state := .ready, readers := 0, landed := 32, cmds := 0, fault := false,
    faultAddr := 0 }
theorem test_hyp_collectives :
    holds at0 (fun c _ => mtxSig 0 true c) alone = true ∧ holds (shaped at0) (fun c _ => mtxSig 0 true c) alone = true ∧
    holds (shaped at0) (fun c _ => { mtxSig 0 true c with srcs := [(.v 8 1, some 2)] }) alone = true ∧
    holds (shaped at0) (fun c _ => { mtxSig 0 true c with dsts := [.s 3 1] }) alone = true ∧
    holds (shaped at0) (fun c _ => { mtxSig 0 true c with srcs := [(.s 3 1, some 0)] }) alone = true ∧
    holds (tiled (shaped at0) plane) (fun c s => mtxSig 0 ((s.tileOf c.W 5).isSome) c) alone = true ∧
    holds (tiled (shaped (hints [⟨0, 0x380⟩])) plane) (fun c s => mtxSig 2 ((s.tileOf c.W 5).isSome) c) alone = true := by decide
theorem test_hyp_matrix :
    let s := { tiled (shaped at0) plane with quads := (List.range 4).map (fun q => (q, { Quadrant.reset with owner := some (0, 0), appended := some 17 })) }
    let x : TeamCtx := { b := 0, t := 0, core := 0, members := [0] }
    let sh : List (Nat × Nat × Nat) := [(0, 0, 0), (1, 1, 0), (2, 0, 1), (3, 1, 1)]
    Shaped s x 0 sh ∧ MayMultiply s x 1 5 sh plane ∧ fusable 15 = true ∧
      plane.rows ≤ extentN (maskQuads x sh (decide (sh.length = 8)) 15) ∧ plane.k ≤ extentK (maskQuads x sh (decide (sh.length = 8)) 15) := by
  refine ⟨⟨3, by decide, by decide⟩, ⟨⟨3, by decide, by decide⟩, by unfold Readable; decide, by decide, by decide, ?_⟩, by decide, by decide, by decide⟩
  intro e he
  refine ⟨17, ?_, by decide⟩
  revert e
  decide
/-- The conditions of MSHAPE, MPAIR, MFENCE, MWAIT and MSTORE. -/
theorem test_hyp_shapes :
    let x : TeamCtx := { b := 0, t := 0, core := 0, members := [0] }
    let paired := at0.modBlock 0 (fun B => { B with desc := { B.desc with pair := true } })
    at0.opsRetired 0 0 = true ∧ at0.claims = [] ∧ shapeQuads 0 3 0 = some [(0, 0, 0), (1, 1, 0), (2, 0, 1), (3, 1, 1)] ∧
    (∀ q ∈ [0, 1, 2, 3], (at0.quad q).owner = none) ∧ (∀ q ∈ [4, 5, 6, 7], (paired.quad q).owner = none) ∧
    ((sget paired.blocks 0).map (fun B => B.desc.pair)) = some true ∧ (at0.team 0 0).pair = false ∧
    ((teamed paired (fun t => { t with pair := true })).team 0 0).pair = true ∧ (at0.openBatches 0 0).length < 32 ∧
    (shaped at0).shapeOf x = some [(0, 0, 0), (1, 1, 0), (2, 0, 1), (3, 1, 1)] := by decide
/-- An element that the team has zeroed, the operation done: MSTORE reads it. -/
theorem test_hyp_defined :
    let x : TeamCtx := { b := 0, t := 0, core := 0, members := [0] }
    let s := { shaped at0 with
      ops := [(4, { newOp x (.zero 0) [(0, 0, 0)] with started := true, flags := some 0, complete := true, batch := some 1 })]
      quads := [(0, { Quadrant.reset with owner := some (0, 0) })] }
    s.defined x [1] 0 0 3 5 = true ∧ s.defined x [] 0 0 3 5 = false := by decide

/-! ### Hypotheses: trees, spawn and capsules -/

/-- Numbers in device memory: address, bytes, value. -/
def poke (s : State) (l : List (Nat × Nat × Nat)) : State :=
  { s with mem := l.foldl (fun m e => memPuts m ((bytesOf e.2.1 e.2.2).zipIdx.map (fun b => (e.1 + b.2, b.1)))) s.mem }
/-- The placed grove changed. -/
def grove (s : State) (f : Grove → Grove) : State := s.modGrove 0 f
/-- One lane active in each slice of the gang but the first few. -/
def fewLanes (s : State) (m : Word) : State :=
  s.modWarp 0 (fun W => { W with slices := (List.range 8).map (fun j => { W.slice j with active := m.extractLsb' (4 * j) 4 }) })

theorem test_hyp_tree_checks :
    passesH at0 [fun _ => { Sig.plain with guard := true, srcs := [(.v 8 1, some 1)], dsts := [.v 4 1], legal := decide (15 ≤ 15) },
      fun _ => { Sig.plain with guard := true, srcs := [(.v 4 1, some 0), (.v 5 1, some 0)], legal := decide (1 ≤ 2) && decide (2 ≤ 16) },
      fun _ => { Sig.plain with guard := true, srcs := [(.v 4 1, some 0), (.v 5 1, some 0), (.v 8 1, some 1)], legal := true },
      fun _ => { Sig.plain with guard := true, srcs := [(.s 8 1, some 1)], dsts := [.s 4 1], legal := decide (2 ≤ 2) },
      fun _ => { Sig.plain with guard := true, srcs := [(.s 4 1, some 0), (.s 8 1, some 1)] },
      fun _ => { Sig.plain with srcs := [(.s 4 2, some 0)] }, fun _ => { Sig.plain with dsts := [.s 4 2] }] = true ∧
    ((sget at0.warps 0).bind at0.place).isSome = true := by
  decide
/-- Every lane reads node 0 of a placed grove of one node. -/
theorem test_hyp_noderead :
    (match sget at0.groves 0 with
      | none => false
      | some G => can at0 (fun _ => { Sig.plain with guard := true, srcs := [(.v 8 1, some 1)], dsts := [.v 4 1], legal := true })
          .read false 4 (fun c _ => lanesAt c (fun lane => G.nodes + 64 * BitVec.ofNat 64 (c.W.vget 8 lane).toNat + 12))
          (fun _ => (List.range 4).map (fun j => .mem (0xA00C + j) false))) = true := by decide +kernel
/-- The grove in an upward, a downward and a flat phase, the running node the root: what each clause asks of mode, size and
position. -/
theorem test_hyp_phases_of_trees :
    let up := grove at0 (fun G => { G with mode := 1, yieldBytes := 8 })
    let down := grove at0 (fun G => { G with mode := 2, handBytes := 8 })
    ((sget up.groves 0).map (fun G => (G.upward, G.downward, decide (4 * 2 ≤ G.yieldBytes)))) = some (true, false, true) ∧
    ((sget down.groves 0).map (fun G => (G.upward, G.downward, decide (4 * 2 ≤ G.handBytes)))) = some (false, true, true) ∧
    ((sget at0.groves 0).map (fun G => (G.upward, G.downward))) = some (false, false) ∧
    ((sget (poke up [(0xA00C, 2, 3)]).groves 0).map (fun G => (poke up [(0xA00C, 2, 3)]).nodeNum G 0 0x0C 2)) = some 3 ∧
    (sget at0.blocks 0).map (fun B => (B.node, B.yielded)) = some (0, false) ∧ at0.regq = [] := by decide
/-- TREEGROW's conditions hold of a grove with two nodes, of which the second is reserved. -/
theorem test_hyp_treegrow :
    let s := poke (grove at0 (fun G => { G with mode := 2, capacity := 2, depth := 2, maxChildren := 4 }))
      [(0x9014, 4, 2), (0xA040, 2, 0xFFFF)]
    ((sget s.groves 0).map (fun G => decide (s.nodeNum G 0 0x0C 2 = 0) && decide (1 + 1 ≤ s.hwNum G.ctx (G.addr + 0x14) 4) &&
      decide (s.nodeNum G 0 0x0E 2 + 1 < G.depth) && decide (s.nodeState G 1 = 0) && s.nodeOk G 1 && G.downward)) = some true := by
  decide
/-- NODEALLOC with room and without. -/
theorem test_hyp_nodealloc :
    let s := poke (grove at0 (fun G => { G with capacity := 8 })) [(0x9014, 4, 5)]
    ((sget s.groves 0).map (fun G => decide (s.hwNum G.ctx (G.addr + 0x14) 4 + 3 ≤ G.capacity) &&
      decide (G.capacity < s.hwNum G.ctx (G.addr + 0x14) 4 + 4))) = some true := by decide
theorem test_hyp_grove :
    let sig : HintSet → Sig := fun _ => { Sig.plain with srcs := [(.s 4 2, some 0)] }
    holds (scals at0 [(4, 0x40010)]) (hinted sig) (fun c s => decide ((c.sread2 s 4).toNat % 256 ≠ 0)) = true ∧
    holds (scals at0 [(5, 0xFFFE0000)]) (hinted sig) (fun c s => decide ((c.sread2 s 4).toNat % 256 = 0) && inWindow (c.sread2 s 4)) = true ∧
    holds (scals at0 [(4, 0x40100)]) (hinted sig) (fun c s => decide ((c.sread2 s 4).toNat % 256 = 0) && !(inWindow (c.sread2 s 4)) &&
      c.act != 0 && !(s.storesOut c.w c.G.slices) && !(s.drainsOut c.w c.G.slices)) = true := by decide
/-- A warp of no block. -/
theorem test_hyp_frame_sapling :
    holds (at0.modWarp 0 (fun W => { W with block := none })) (hinted (fun _ => { Sig.plain with dsts := [.s 4 2] }))
      (fun c s => (s.blockOf c.W).isNone) = true := by decide

/-- The steps of groves: a submission to be judged, a phase to be started, work of a core, a trail, a block, an end. -/
def submitted (l : List (Nat × Nat × Nat)) : State := { poke at0 l with subs := [(6, { ctx := 0, addr := 0x40000 })] }
theorem test_hyp_acceptance :
    let c := (submitted []).context 0
    c.saved = false ∧ c.lost = false ∧ c.ladder = none ∧ (submitted []).freeze = none ∧ (submitted []).frozenMem = none ∧
    (submitted []).fnRuns (ctxFn 0) = true ∧ (submitted []).probe (.submission 6) 0 0x40000 256 .read = .ok ∧
    (submitted [(0x40080, 8, 0x50000)]).probe (.submission 6) 0 (BitVec.ofNat 64 ((submitted [(0x40080, 8, 0x50000)]).hwNum 0 0x40080 8)) 8 .write = .ok ∧
    (submitted [(0x40080, 8, 0x50000)]).hwNum 0 0x40000 4 ≠ 0x4B470001 := by decide
/-- A record that is accepted: mode 1 over one core pair, one kernel, a root with no children, clearings in the vaults. -/
def accepted : State :=
  let s := submitted ([(0x40000, 4, 0x4B470001), (0x40004, 1, 1), (0x40008, 8, 0x44000), (0x40010, 4, 1), (0x40014, 4, 1),
    (0x4001C, 2, 1), (0x4001E, 1, 8), (0x40020, 8, 0x10000), (0x40028, 8, 0x45000), (0x40030, 8, 0x80000000), (0x40038, 4, 0x10000),
    (0x4003C, 1, 1), (0x4003E, 2, 1), (0x40058, 2, 0x0101), (0x4005C, 4, 1), (0x40060, 2, 0x0101), (0x40064, 4, 512),
    (0x4006C, 4, 1), (0x40074, 4, 1), (0x40078, 2, 0x0306), (0x4007C, 4, 1), (0x40080, 8, 0x46000), (0x4008C, 2, 1)] ++
    [(0x44004, 2, 1), (0x44010, 4, 0xFFFFFFFF), (0x45004, 1, 128), (0x45005, 1, 96), (0x45006, 1, 1)])
  { s with tlb := { ctx := 0, va := 0x80000000, size := 0x10000, tgt := 0, base := 0x6000000000, dev := 0, attr := 3 } ::
      { ctx := 0, va := 0x80010000, size := 0x10000, tgt := 0, base := 0x6001000000, dev := 0, attr := 3 } :: s.tlb }
theorem test_hyp_accepted : (match accepted.verdict (.submission 6) 0 0x40000 with
    | .live G => G.mode == 1 && G.cores == [0, 1] && G.kernelCount == 1
    | _ => false) = true := by decide +kernel

/-- A trail on core 0 whose deepest node is node 0. -/
def trail (p : TrailNode) : Trail := { grove := 0, core := 0, num := 0, age := 0, path := [p], asking := none }
/-- A node entered, with a frame. -/
def entered : TrailNode := { node := 0, inbox := none, hand := none, frame := some { off := 0, size := 0 }, slots := [], block := none, done := false }
/-- The placed grove in a phase with one pending subtree, held by a core. -/
def pending (core : Nat) : State :=
  grove at0 (fun G => { G with cores := [0, 1], subtrees := [{ node := 0, core := core, parent := none, grown := false }] })
theorem test_hyp_work :
    ((pending 0).workFor 0 0).map (·.2) = some (.own 0) ∧ ((pending 1).workFor 0 0).map (·.2) = some (.steal 0) ∧
    (at0.workFor 0 0).isNone = true ∧
    (({ poke at0 [(0xA014, 4, 0x200000)] with trails := [(4, trail entered)] } : State).workFor 0 0).map (·.2) = some (.start 4) ∧
    (({ poke (grove at0 (fun G => { G with subtrees := [{ node := 1, core := 0, parent := some 0, grown := false }] }))
        [(0xA00C, 2, 1), (0xA008, 4, 1)] with trails := [(4, trail { entered with done := true })] } : State).workFor 0 0).map (·.2) =
      some (.deepen 4 1) := by decide +kernel
/-- A node that may start, wanting nothing more; a unit of a frame that is granted. -/
theorem test_hyp_start :
    let s : State := { poke at0 [(0xA014, 4, 0x200000), (0xA006, 2, 1)] with trails := [(4, { trail entered with asking := some (2, 64) })] }
    ((sget s.groves 0).map (fun G => (s.startWants G entered).isEmpty && s.hasBlock G 0 && (s.blockFor 0 G 4 0 0 none).isSome &&
      s.wantBytes G 0 (wantOf 2) == 64 && (s.grant 0 G (4, { trail entered with asking := some (2, 64) }) 64).isSome)) = some true := by
  decide +kernel
/-- A phase not yet started, a block not yet admitted that fits, a block whose warps have ended, a grove that has ended. -/
theorem test_hyp_grove_ends :
    ((sget (grove at0 (fun G => { G with begun := false })).groves 0).map (fun G => (G.begun, decide (G.status = .running)))) = some (false, true) ∧
    (let s := at0.modBlock 0 (fun B => { B with admitted := false, members := [], cores := [1] });
      (sget s.blocks 0).map (fun B => B.cores.all (s.fitsOn B) && !B.admitted && B.cluster.isNone)) = some true ∧
    (let s := at0.modWarp 0 (fun W => { W with ended := true, gangs := [] });
      (sget s.blocks 0).map (s.blockQuiet 0)) = some true ∧
    (let s := { grove at0 (fun G => { G with status := .swept, completed := 1 }) with blocks := [], warps := [] };
      (sget s.groves 0).bind (s.outcome 0)) = some (1, 1) ∧ at0.probe (.completion 0) 0 0xB000 8 .write = .ok := by decide +kernel

/-- A grove that permits saplings and has two entries, the second with warps in teams of two. -/
def spawning (s : State) : State := grove s (fun G =>
  { G with quota := 100, kernelCount := 2, kernels := G.kernels.map (fun e => (e.1, { e.2 with scratch := 0 })) ++
      G.kernels.map (fun e => (e.1 + 1, { e.2 with team := 2 })) })
/-- Signature of a SPAWN of two words, with a counter or without. -/
def spawnOf (join : Bool) : HintSet → Sig := fun _ =>
  { Sig.plain with
    guard := true
    srcs := ((List.range 2).map (fun i => (.v (8 + i) 1, some 0))) ++ (if join then [(.v 12 2, some 0)] else []) ++ [(.s 3 1, some 1)]
    legal := true }
theorem test_hyp_spawn :
    let s := fewLanes (spawning at0) 3
    holds s (hinted (spawnOf false)) (fun c s => match sget s.groves c.W.grove with
      | none => false
      | some G => match sget G.kernels 0 with
        | none => false
        | some d => d.team == 1 && !d.pair && d.scratch == 0 && d.tileCount == 0 && G.accepted < G.quota && decide (0 < G.kernelCount) &&
            ((sget G.kernels 1).map (·.team)) == some 2 && decide ((s.seedbed 0).length < 4096) && (s.spilled 0).isEmpty &&
            (match decided c 8 0 2 3 false (lanesOf c.act) s with
              | some s1 => (sget s1.warps c.w).isSome
              | none => false)) = true ∧
    (match s.issuing, sget at0.groves 0 with
      | some c, some G => (match offer c s G 0 2 [0, 0] none 0 with
        | .no n => n == 1
        | _ => false)
      | _, _ => false) = true := by decide +kernel
theorem test_hyp_counter :
    (match (scals at0 [(4, 0x40000)]).issuing with
      | none => false
      | some c => decide (c.sread2 (scals at0 [(4, 0x40000)]) 4 = 0x40000) &&
          decide (laneAccess (scals at0 [(4, 0x40000)]) c .both 8 0x40000 = .go ((List.range 8).map (fun j => .mem (0x40000 + j) false)))) = true := by
  decide +kernel
theorem test_hyp_join :
    let sig : HintSet → Sig := fun _ => { Sig.plain with srcs := [(.s 4 2, some 0)] }
    holds (scals at0 [(4, 0x40004)]) (hinted sig) (fun c s => decide (c.G.pend ≠ .join (c.sread2 s 4) true) && decide ((c.sread2 s 4).toNat % 8 ≠ 0)) = true ∧
    holds (gang (fun g => { g with pend := .join 0 true })) (hinted sig) (fun c s => decide (c.G.pend = .join (c.sread2 s 4) true) &&
      !(s.loadsOut c.w c.G.slices)) = true ∧
    holds (poke (scals at0 [(4, 0x40000)]) [(0x40000, 8, 3)]) (hinted sig) (fun c s => s.num 0x40000 8 == 3 && !(s.outstanding c.w) &&
      decide (c.W.residency = .resident) && c.W.callers.isEmpty) = true ∧
    holds (scals at0 [(4, 0x40000)]) (hinted (fun _ => { Sig.plain with srcs := [(.s 4 2, some 0), (.s 8 1, some 1)] }))
      (fun c _ => c.act != 0) = true := by decide
/-- A sapling warp of two saplings. -/
def sapling : State := (fewLanes at0 3).modWarp 0 (fun W => { W with block := none, saplings := [(0, [1, 2, 3, 4], none), (1, [5, 6, 7, 8], some 0x40000)] })
theorem test_hyp_payload :
    let sig : HintSet → Sig := fun _ => { Sig.plain with guard := true, dsts := (List.range 4).map (fun i => .v (8 + i) 1), legal := true }
    holds sapling (hinted sig) (fun c _ => c.W.block.isNone && (lanesOf c.act).all (fun lane => (sget c.W.saplings lane).isSome)) = true ∧
    holds at0 (hinted sig) (fun c _ => c.W.block.isSome) = true := by decide
theorem test_hyp_spawnf : passesH at0 [fun _ => { Sig.plain with legal := decide (64 ≤ 64) }, fun _ => { Sig.plain with
    dsts := [.s 3 1], legal := decide (66 ≤ 4) || decide (64 ≤ 66) }] = true := by decide
/-- A bin: its timer past and not, its warp to be formed; an exit to be recorded; a warp parked on its counter. -/
def bed (n t : Nat) : State := { spawning at0 with
  time := t
  saplings := (List.range n).map (fun i => (10 + i, { core := 0, bin := 0, grove := 0, payload := [1, 2, 3, 4], words := 4, join := none, time := 0, ring := none, away := false, ready := true, named := false })) }
theorem test_hyp_bins :
    ((bed 2 5000).bin 0 0 0).length = 2 ∧ (bed 2 5000).flushes = [] ∧ ((bed 2 100).bin 0 0 0).length = 2 ∧
    ((bed 32 100).bin 0 0 0).length = 32 ∧ ((bed 32 100).saplingEntry 0 128).isSome = true ∧ (bed 2 100).coreIdle 0 = false ∧
    (bed 2 100).runsOn 0 0 = true := by decide
theorem test_hyp_exit :
    let s : State := { sapling with exits := [(20, { warp := 0, grove := 0, ctx := 0, join := some 0x40000 })] }
    s.exitRequest 20 = none ∧ s.exitQuiet 0 20 = true ∧ s.engineRuns 0 = true ∧
    s.xlateFor 0 0 none (vaOf 0x40000) .hard = .go 0x40000 false ∧ s.held = [] ∧ s.regq = [] ∧
    (let t := (gang (fun g => { g with pend := .join 0x40000 false })).modWarp 0 (fun W => { W with residency := .parked false 1 });
      (sget t.warps 0).map (fun W => (W.gangs.map (·.pend), W.residency)) = some ([.join 0x40000 false], .parked false 1)) ∧
    at0.hwKey 0 0x40000 .read = some 0x40000 := by decide

/-- Records in memory, a lane's capsule, and lanes about to take one. -/
theorem test_hyp_capbegin :
    let s := lanesFrom (fewLanes at0 1) 40 0x40000 0
    holds s (hinted (fun _ => { Sig.plain with srcs := [(.v 16 16, some 0), (.v 40 2, some 1)], body := .own })) (fun c s =>
      decide (lanesOf c.base = [0]) && decide (c.W.vget2 40 0 = 0x40000) && c.W.capsules && (c.W.adoption c.G.slices).isNone &&
        (issueFault s c false 128 128 [(0, c.W.vget2 40 0)]).isNone && !(acquiredHere c s 40 0) && s.num 0x40003 1 == 0 &&
        decide (s.xlateFor c.W.ctx c.W.core (some c.w) (vaOf (c.W.vget2 40 0)) .both = .go 0x40000 false) &&
        !(s.poisoned 0x40000 128) && !(s.loadsOut c.w c.G.slices)) = true := by decide +kernel
/-- Lane 0 holds the record at 0x40000 under token 1. -/
def held (st : Nat) : State :=
  poke (at0.modWarp 0 (fun W => { W with caps := [(0, { CapLane.none with inside := true, record := 0x40000, kbase := 16, entry := 0x10000, seq := 1, token := 1 })] }))
    [(0x40003, 1, st), (0x40004, 4, 1)]
theorem test_hyp_capend :
    holds (held 1) (hinted (fun _ => { Sig.plain with body := .free })) (fun c s => decide (c.capLanes = [0]) && decide (c.doneLanes = 0) &&
      (let x := s.capOf c.w 0;
        !x.adopting && x.result.isNone && decide (s.recordKey c.W.ctx x.record = some 0x40000) && s.num 0x40003 1 == 1 &&
          s.num 0x40004 4 == x.token.toNat) && decide (sget s.warps c.w = some c.W)) = true ∧
    holds at0 (hinted (fun _ => { Sig.plain with body := .free })) (fun c _ => c.capLanes.isEmpty &&
      (List.range 8).all (fun j => (c.W.slice j).detached == 0)) = true ∧
    passesH at0 [fun _ => { Sig.plain with dsts := [.v 4 1] }] = true := by decide
/-- A step of that lane on its way. -/
def aStep (expect : Nat) : CapStep :=
  { warp := 0, lane := 0, record := 0x40000, token := 1, expect := expect, key := 0x40100, bytes := [1, 2, 3, 4], atom := none,
    regs := List.replicate 16 7, resume := 5 }
theorem test_hyp_step :
    let s : State := { held 1 with steps := [(30, aStep 0)] }
    (s.steps.find? (fun e => e.2.warp == 0 && e.2.lane == 0)) = some (30, aStep 0) ∧ s.num 0x40003 1 = 1 ∧ s.num 0x40004 4 = 1 ∧
    s.num 0x40002 1 = (aStep 0).expect ∧ s.num 0x40002 1 ≠ (aStep 3).expect ∧ ctxFn 0 = 0 ∧ s.regq = [] := by decide
theorem test_hyp_away :
    let s (n st : Nat) : State := (held st).modWarp 0 (fun W => { W with away := n })
    ((sget (s 1 1).warps 0).map (fun W => (W.away, (W.cap 0).inside, (W.cap 1).inside))) = some (1, true, false) ∧ (s 1 1).num 0x40003 1 = 1 ∧
    ((sget (s 2 2).warps 0).map (fun W => (W.away, W.ended, decide (W.residency = .resident)))) = some (2, false, true) ∧
    (s 2 2).num 0x40003 1 = 2 := by decide
theorem test_hyp_delivery :
    let d (ack free : Bool) : Delivery :=
      { record := 0x40000, ctx := 0, va := 0x40000, holder := some { warp := 0, lane := 0, seq := 1, own := 0 }, regs := [], preds := 0, status := 1
        acked := ack, frees := free }
    let s (d : Delivery) : State := { held 3 with deliveries := [(31, d)] }
    sget (s (d false false)).deliveries 31 = some (d false false) ∧ ((d false true).holder.bind (s (d false true)).holderLane) = some (0, 0) ∧ (s (d true true)).engineRuns 0 = true ∧
    sget (s (d true true)).owners (d true true).record = none := by decide

/-! ### Hypotheses: control, traps and system registers -/

/-- A slice's control state changed, in every slice. -/
def slices (f : Slice → Slice) : State := at0.modWarp 0 (fun W => { W with slices := W.slices.map f })
theorem test_hyp_branches :
    passesH at0 [fun _ => { Sig.plain with imms := 2, body := .free }, fun _ => { Sig.plain with imms := 2, legal := !(false && true), body := .no },
      fun _ => { Sig.plain with srcs := [(.s 4 2, some 0)] }, fun _ => { Sig.plain with srcs := [(.v 4 2, some 0)] }, fun _ => Sig.plain] = true := by
  decide
/-- Half the lanes of each slice take a branch: with a join armed; with none; with the stack full. -/
theorem test_hyp_split :
    let half (f : Slice → Slice) : State := (slices f).modWarp 0 (fun W => W.pputs (BitVec.allOnes 32) 1 0x33333333)
    let at' (s : State) (n : Nat) (armed : Bool) : Bool := holds s (hinted (fun _ => { Sig.plain with imms := 2 })) (fun c _ =>
      decide (takenBy c 1 false 0 = 3) && decide ((c.W.slice 0).active = 15) && (c.W.slice 0).stack.length == n && (c.W.slice 0).armed.isSome == armed)
    let e : MaskEntry := { resume := 0x20000, lanes := 1, join := some 0x20000, second := false }
    at' (half (fun x => { x with armed := some 0x10100 })) 0 true = true ∧ at' (half id) 0 false = true ∧
    at' (half (fun x => { x with armed := some 0x10100, stack := List.replicate 8 e })) 8 true = true ∧
    at' (half (fun x => { x with armed := some 0x10100, stack := [{ e with resume := 0x10004, join := some 0x10100 }] })) 1 true = true := by
  decide
theorem test_hyp_calls :
    holds at0 (hinted (fun _ => { Sig.plain with imms := 2 })) (fun c _ => !(c.G.q.getLsbD 0) && (c.W.slice 0).rets.isEmpty) = true ∧
    holds (slices (fun x => { x with rets := List.replicate 32 0x10000 })) (hinted (fun _ => Sig.plain))
      (fun c _ => (c.W.slice 0).rets.length == 32 && ((c.W.slice 0).rets.head?).any (fun a => a.toNat % 4 == 0)) = true := by decide
theorem test_hyp_brx :
    holds (scals at0 [(4, 0x10002)]) (hinted (fun _ => { Sig.plain with srcs := [(.s 4 2, some 0)] })) (fun c s => (c.sread2 s 4).toNat % 4 != 0) = true ∧
    holds (scals at0 [(4, 0x10004)]) (hinted (fun _ => { Sig.plain with srcs := [(.s 4 2, some 0)] })) (fun c s => (c.sread2 s 4).toNat % 4 == 0) = true ∧
    holds (vecs (slices (fun x => { x with armed := some 0x10100 })) [(4, fun lane => 0x10000 + BitVec.ofNat 32 (4 * (lane % 2)))])
      (hinted (fun _ => { Sig.plain with srcs := [(.v 4 2, some 0)] })) (fun c _ => decide (c.W.vget2 4 0 ≠ c.W.vget2 4 1) &&
        (c.W.slice 0).armed.isSome && decide ((c.W.slice 0).stack.length ≤ 5)) = true := by decide
/-- A join reached in each phase. -/
theorem test_hyp_joins :
    let x : Slice := Slice.start 0x10100 3
    let e : MaskEntry := { resume := 0x10004, lanes := 12, join := some 0x10100, second := false }
    ({ x with stack := [e] } : Slice).settle 1 = { x with active := 12, stack := [{ e with lanes := 3, second := true }], pc := 0x10004 } ∧
    ({ x with stack := [{ e with second := true }] } : Slice).settle 1 = { x with active := 15, stack := [] } := by decide
theorem test_hyp_control :
    holds at0 (hinted (fun _ => Sig.plain)) (fun c s => !(s.outstanding c.w) && decide (c.W.residency = .resident) &&
      !(s.scalarsOut c.w c.G.slices) && decide (c.W.gangs = [c.G]) && (List.range 8).all (fun j => (c.W.slice j).stack.isEmpty)) = true ∧
    holds loading (hinted (fun _ => Sig.plain)) (fun c s => s.outstanding c.w) = true ∧
    (match at0.issuing with
      | none => false
      | some c => (bodyCheck c { Sig.plain with body := .free }).isNone) = true := by decide
/-- Two gangs of four slices each, the other at the REGANG already. -/
def parted : State := at0.modWarp 0 (fun W => { W with gangs := [Gang.start 15, { Gang.start 240 with pend := .regang 5 255 }] })
theorem test_hyp_regang :
    holds parted (hinted (fun _ => Sig.plain)) (fun c s => match c.W.gangs with
      | [a, b] => decide (a = c.G) && decide (a.slices &&& b.slices = 0) && decide (b.pend = .regang 5 255) && decide (c.W.pcOf b = c.W.pcOf a) &&
          !(s.scalarsOut c.w (a.slices ||| b.slices)) && decide ((a.slices ||| b.slices) &&& ~~~c.W.live = 0)
      | _ => false) = true := by decide
/-- Slice 4 belongs to another gang, as the frame of SLEEP asks. -/
theorem test_hyp_sleep_frame :
    holds parted (hinted (fun _ => Sig.plain)) (fun c _ => match c.W.gangAt 4 with
      | some g => decide (g.slices &&& c.G.slices = 0)
      | none => false) = true := by decide
/-- What a warp was at its halt entry. -/
def haltOf (W : Warp) : Halt := { gang := Gang.start 255, slices := W.slices, v := W.v, p := W.p, flags := W.flags }
/-- Handler mode, entered by a trap or by a halt entry, over the slices of the placed gang. -/
def handling (halt : Bool) (d : Nat) : State := at0.modWarp 0 (fun W =>
  { W with handler := some { slices := 255, record := 0x50000, depths := List.replicate 8 d, halt := if halt then some (haltOf W) else none } })
theorem test_hyp_system :
    passesH at0 [fun _ => { Sig.plain with dsts := [.s 4 1], priv := false }, fun _ => { Sig.plain with dsts := [.s 4 2] }] = true ∧
    passesH (handling false 0) [fun _ => { Sig.plain with dsts := [.s 4 1], priv := true }, fun _ => { Sig.plain with srcs := [(.s 4 1, some 0)], priv := true },
      fun _ => { Sig.plain with priv := true }] = true ∧
    ((at0.stopped (hinted (fun _ => { Sig.plain with priv := true }))).map (·.2)) = some (Trap.of 2 0) := by decide
theorem test_hyp_iret :
    let deep (s : State) : Bool := match sget s.warps 0 with
      | none => false
      | some W => W.slices.zipIdx.any (fun e => decide ((((W.handler.map (·.depths)).getD [])[e.2]?).getD 0 < e.1.stack.length))
    deep (handling false 0) = false ∧
    deep ((handling false 0).modWarp 0 (fun W => { W with slices := W.slices.map (fun x => { x with stack := [{ resume := 0, lanes := 1, join := some 4, second := false }] }) })) = true ∧
    passesH (handling true 0) [fun _ => { Sig.plain with priv := true }] = true := by decide
/-- A trap goes to a handler where the context has one, to the host where it has none. -/
theorem test_hyp_trap :
    let s := at0.setContext 0 { at0.context 0 with tvec := 0x11000 }
    s.toHost 0 5 = false ∧ (at0.context 0).tvec = 0 ∧
    ((sget s.warps 0).map (fun W => (W.gangs.filter (fun h => h.slices.getLsbD 0)).length)) = some 1 ∧
    ((sget s.warps 0).map (fun W => (W.inHandler 0, W.slices.length, W.handler.isNone))) = some (false, 8, true) ∧
    (s.setContext 0 { s.context 0 with tdeleg := 32 }).toHost 0 5 = true := by decide
/-- The order of R71's checks, one witness each. -/
theorem test_hyp_checks :
    let t (l : List Hint) (sig : HintSet → Sig) : Option (Nat × Nat) := ((hints l).stopped (hinted sig)).map (fun e => (e.2.cls, e.2.detail))
    t [⟨4, 8⟩] (intSig 0 0 4 8 (.v 13)) = some (1, 0) ∧ t [] (fun _ => { Sig.plain with priv := true }) = some (2, 0) ∧
    ((at0.modWarp 0 (fun W => { W with window := 8 })).stopped (hinted (intSig 0 0 4 8 (.v 13)))).map (fun e => (e.2.cls, e.2.detail)) = some (3, 0) ∧
    (((hints [⟨2, 2⟩]).modWarp 0 (fun W => { W with emptyV := [(13, 1)] })).stopped (hinted (intSig 0 0 4 8 (.v 13)))).map (fun e => (e.2.cls, e.2.detail)) =
      some (4, 13) := by decide

/-! ### Hypotheses: rounding and values -/

theorem test_hyp_round :
    (f32.round .rne false 0x1FFFFFF 103 false).2 &&& fOF ≠ 0 ∧ (f32.round .rne false 0x1FFFFFF 0 false).2 &&& fOF = 0 ∧
    f32 ∈ [f64, f32, f16, bf16] ∧ f32.subnormal 1 = true ∧ (f32.read 0x7FC00000).isNan = true ∧ (f32.read 0x7F800001).snan = true := by decide
theorem test_hyp_finite : finite (f32.read 0x3F800000) := ⟨_, _, _, rfl⟩
theorem test_hyp_less : lessQ (.fin true 1 0) (.fin false 0 0) ∧ lessQ (.inf true) (.fin false 0 0) := by
  refine ⟨?_, rfl⟩
  unfold lessQ valQ
  norm_num

/-! ### Hypotheses: steps -/

/-- The turn is the placed gang's, and its word decodes, or does not. -/
theorem test_hyp_step_decodes :
    let s := (State.reset.withFetchWord 32 0x0421040D)
    s.turns = [.issue 0 0] ∧ (∃ W, sget s.warps 0 = some W ∧ W.gangs.map (fun g => W.mayIssue g s.progress) = [true] ∧
      fetches { s.pass with turns := [] } 0 W 0x10000 [0x0D, 0x04, 0x21, 0x04]) ∧
    decodeBytes [0x0D, 0x04, 0x21, 0x04] = .ok (.iaddV 1 4 8 13, []) :=
  ⟨rfl, ⟨_, rfl, by decide, by decide, by decide, 0x10000, false, by decide, by decide, by decide⟩, rfl⟩
theorem test_hyp_step_illegal : (match decodeBytes [0xFF, 0xFF, 0xFF, 0xFF] with
    | .error _ => true
    | .ok _ => false) = true := by decide
theorem test_hyp_mayIssue :
    (sget at0.warps 0).map (fun W => W.gangs.map (fun g => W.mayIssue g 0)) = some [true] ∧
    (sget (gang (fun g => { g with wait := some 0 })).warps 0).map (fun W => W.gangs.map (fun g => W.mayIssue g 0)) = some [false] ∧
    at0.chosen = [(0, 0)] ∧ (gang (fun g => { g with wait := some 0 })).chosen = [] := by decide +kernel
/-- Words of the manual's strips decode and encode again. -/
theorem test_hyp_encode : encode (.iaddV 1 4 8 13) = some 0x0421040D := rfl

theorem test_hyp_scheduler :
    let g (f : Gang → Gang) : Option Gang := (sget (gang f).warps 0).bind (fun W => W.gangAt 0)
    (g (fun x => { x with unchosen := 64 })).map (fun x => decide (64 ≤ x.unchosen) && !x.promoted) = some true ∧
    (g (fun x => { x with stall := some 9, sleep := some 12 })).map (fun x => (x.stall, x.sleep)) = some (some 9, some 12) ∧ at0.time = 0 := by
  decide
/-- A warp whose gangs all wait at a barrier and have waited past the deadline. -/
theorem test_hyp_barrierParking :
    let s := { gang (fun g => { g with wait := some 0, pend := .barrier 3 0, since := 0 }) with time := 5000 }
    Together { Gang.start 255 with pend := .barrier 3 0 } ∧ s.progress = 0 ∧ s.outstanding 0 = false ∧
    ((sget s.warps 0).map (fun W => (W.gangs.all (fun g => g.wait == some 0 && decide (g.since + 4096 < s.time)), decide (W.residency = .resident)))) =
      some (true, true) := ⟨.inl ⟨3, 0, .inl rfl⟩, by decide, by decide, by decide⟩
/-- A parked warp next in order that fits; one that does not, with a victim. -/
theorem test_hyp_unpark :
    let parked := at0.modWarp 0 (fun W => { W with residency := .parked true 1 })
    parked.nextUnpark 0 = some 0 ∧ parked.roomFor 0 128 = true ∧ at0.nextUnpark 0 = none ∧
    (let s := gang (fun g => { g with wait := some 0 }); s.victim 0 = some 0) ∧ at0.victim 0 = none := by decide
theorem test_hyp_full : sget loading.inflight 5 = some aLoad ∧ (sget loading.warps 0).isSome = true ∧
    sget at0.inflight 5 = none ∧ storing.pendingByte 0 0x40004 = none := by decide
theorem test_hyp_lookup :
    let host : State := { at0 with tlb := { ctx := 0, va := 0x800000, size := 0x1000, tgt := 1, base := 0x9000, dev := 0, attr := 3 } :: at0.tlb }
    (host.lookup 0 0x800010).map (fun t => (t.tgt, (t.base + (0x800010 - t.va)) / 4096)) = some (1, 9) ∧ host.ats = [] ∧ host.atsReq = [] ∧
    (at0.lookup 0 0x40).map (·.tgt) = some 0 ∧ at0.lookup 0 0x800010 = none ∧ canonical 0x800010 = true ∧ inWindow 0x800010 = false := by
  decide +kernel
/-- An ATS request and a page request outstanding, the latter of a running warp and of one that has ended. -/
theorem test_hyp_pages :
    let tag : Tag := { ctx := 0, core := 0, warp := some 0, page := 9, lanes := 1, va := 0x9000 }
    let s : State := { at0 with atsReq := [(0, 9)], tags := [(2, tag)] }
    (0, 9) ∈ s.atsReq ∧ sget s.tags 2 = some tag ∧ (sget s.warps 0).map (fun W => (W.ended, W.saved)) = some (false, false) ∧
    (sget (s.modWarp 0 (fun W => { W with ended := true })).warps 0).map (·.ended) = some true := by decide
theorem test_hyp_invalidate :
    let s := at0.setContext 0 { at0.context 0 with invctl := 1 }
    (s.context 0).invctl.getLsbD 0 = true ∧ s.regq = [] ∧ s.inflight = [] ∧ s.steps = [] ∧ (at0.context 0).invctl.getLsbD 0 = false := by
  decide
theorem test_hyp_claims :
    let s : State := { at0 with claims := [(4, { core := 0, owner := (0, 0), quads := [0, 1], granted := false })] }
    (sget s.claims 4).map (fun q => (q.granted, q.quads.all (fun k => (s.quad k).owner.isNone))) = some (false, true) := by decide
/-- Operations of a team: one not begun behind another, one begun that may retire. -/
theorem test_hyp_operations :
    let x : TeamCtx := { b := 0, t := 0, core := 0, members := [0] }
    let o := newOp x (.zero 0) [(0, 0, 0), (1, 1, 0)]
    let s : State := { at0 with ops := [(4, { o with started := true }), (5, o)] }
    (sget s.ops 4).map (fun o => (o.started, o.flags)) = some (true, none) ∧ (sget s.ops 5).map (·.started) = some false ∧
    (o.quads.map (·.1)).Nodup ∧ (∀ e ∈ s.ops, ¬ (e.1 < 4)) := by decide

/-- A trap record waiting for the ring, with room and without. -/
theorem test_hyp_ring :
    let s (n : Word) : State := at0.setContext 0 { at0.context 0 with trapq := [([1, 2], some 0)], trprod := n }
    ((s 3).context 0).trapq = [([1, 2], some 0)] ∧ (((s 3).context 0).trprod - ((s 3).context 0).trcons).toNat < 2 ^ (field ((s 3).context 0).trctl.toNat 0 4 + 4) ∧
    2 ^ (field ((s 16).context 0).trctl.toNat 0 4 + 4) ≤ (((s 16).context 0).trprod - ((s 16).context 0).trcons).toNat := by decide
/-- An entry of the ring that names the stopped placed warp. -/
theorem test_hyp_consumed :
    let s := (at0.setContext 0 { at0.context 0 with trprod := 1, ringWarps := [{ count := 0, warp := some 0, slices := 255, passed := false }] }).modWarp 0 (fun W => { W with hostStop := true })
    let c := s.context 0
    c.trprod ≠ c.trcons ∧ (c.ringWarps.find? (fun e => e.count == c.trcons.toNat)).map (fun e => (e.warp, e.slices)) = some (some 0, 255) ∧
    s.answers (ctxFn 0) = true ∧
    (sget s.warps 0).map (fun W => (W.saved, W.hostStop, W.ended, (W.gangAt (lowSlice 255)).isSome)) = some (false, true, false, true) ∧
    (sget s.blocks 0).map (fun B => B.members.contains 0) = some true := by decide
/-- A ladder in each stage. -/
def laddered (st : Stage) (hvec : DWord) : State := at0.setContext 0 { at0.context 0 with
  hvec := hvec, ladder := some { parts := [{ stage := st, pairs := 1, d1 := 0, d2 := 0 }], done := 0, reason := 0 } }
theorem test_hyp_ladder :
    (at0.context 0).ladder = none ∧ (1 &&& (at0.stand (at0.standOf (ctxFn 0))).fpairs &&& ~~~(at0.context 0).savedPairs) ≠ 0 ∧
    ((laddered .drain 0).context 0).hvec = 0 ∧ ((laddered .drain 0x12000).context 0).hvec ≠ 0 ∧ (laddered .drain 0).blocksIn 0 1 = true ∧
    ((laddered .halt 0).unsaved 0 1).map (·.1) = [0] ∧ (laddered .capture 0).captureReady 0 1 = true ∧
    ({ laddered .capture 0 with regq := storing.regq } : State).captureReady 0 1 = false := by decide
theorem test_hyp_halt :
    let s := laddered .halt 0x12000
    let two := s.modBlock 0 (fun B => { B with members := [1, 0] })
    let pair : State := { two with warps := two.warps ++ [(1, (sget two.warps 0).getD (Warp.start 0 1 0 0 1 0 (some 0)
      { entry := 0, window := 8, scalars := 0, team := 1, pair := false, capsules := false, scratch := 0, enable := 0, tiles := [], tileCount := 0 } 0 (fun _ => 15) 0))] }
    (sget s.warps 0).map (fun W => (s.haltable 0 W, s.isDesignated 0 W, W.gangs.length)) = some (true, true, 1) ∧
    (sget pair.warps 0).map (fun W => (pair.haltable 0 W, pair.isDesignated 0 W)) = some (true, false) ∧
    (let t := s.modWarp 0 (fun W => { W with residency := .parked true 1 });
      (sget t.warps 0).map t.stageOf) = some (some .halt) := by decide
theorem test_hyp_resume :
    let s := (at0.setContext 0 { at0.context 0 with savedPairs := 1 }).modWarp 0 (fun W => { W with residency := .saved true })
    (s.context 0).savedPairs ≠ 0 ∧ (s.context 0).ladder = none ∧ s.freeze = none ∧ s.frozenMem = none ∧ s.fnRuns (ctxFn 0) = true ∧
    s.resumable 0 1 = true ∧ (s.context 0).actions = [] := by decide
theorem test_hyp_freeze :
    0 ∈ at0.liveContexts ∧ ({ at0 with freeze := some (1, 1) } : State).freeze ≠ none ∧ at0.regq = [] ∧
    (∀ e ∈ at0.contexts, e.2.ladder = none) ∧ Memory.wf at0.mem = true := by decide
/-- Granules that may be retired and may not, and the eighth corrected error. -/
theorem test_hyp_errors :
    let s : State := { at0 with ecc := [(5, 7)], retired := [6] }
    zget 0 s.ecc 5 + 1 = 8 ∧ unremap s.remaps 5 ∉ s.retired ∧ s.remaps.length < 65536 ∧ unremap s.remaps 6 ∈ s.retired ∧
    zget 0 s.ecc 6 + 1 < 8 := by decide

/-- Stands, functions and switches. -/
def stood (st : Stand → Stand) (v : VFn → VFn) : State :=
  { (at0.setStand 1 (st { at0.stand 1 with fpairs := 2, fhbm := 2, state := 2 })).setVf 3 (v { VFn.reset with stand := 1 }) with owner := 1 }
theorem test_hyp_apply :
    let s := stood (fun st => { st with pairs := 1 }) id
    let t := stood (fun st => { st with pairs := 2, hbm := 2 }) id
    s.owner = 1 ∧ s.frozen.getLsbD 1 = false ∧ s.frozen.getLsbD 2 = false ∧ s.owner ≠ 2 ∧
    (s.stands.filter (fun o => o.1 != 1 && decide (o.1 < 12) && o.2.state != 0)).any (fun o => decide (o.2.fpairs &&& (s.stand 1).pairs ≠ 0)) = true ∧
    (t.stands.filter (fun o => o.1 != 1 && decide (o.1 < 12) && o.2.state != 0)).any (fun o => decide (o.2.fpairs &&& (t.stand 1).pairs ≠ 0)) = false ∧
    ((stood (fun st => { st with state := 1 }) id).stand 1).state = 1 ∧ (stood id (fun v => { v with state := 1 })).bound 1 = [3] := by decide
theorem test_hyp_switch :
    let run := stood (fun st => { st with running := some 3 }) (fun v => { v with state := 2 })
    let out := stood (fun st => { st with running := some 3, switching := some true }) (fun v => { v with state := 3 })
    (stood id id).vf 3 = { VFn.reset with stand := 1 } ∧ ((stood id id).stand 1).running = none ∧ (run.stand 1).running = some 3 ∧
    (run.vf 3).state = 2 ∧ (run.stand 1).switching = none ∧ ctxswStatus (run.vf 3).ctxsw ≠ 2 ∧
    (out.vf 3).state = 3 ∧ (out.stand 1).switching = some true ∧ (∀ c ∈ out.contextsOf 3, (out.context c).ladder = none) ∧ out.regq = [] ∧
    (let two := run.setVf 4 { VFn.reset with stand := 1, state := 1 };
      (run.stand 1).sliceEnd ≤ two.time ∧ 4 ∈ two.bound 1 ∧ (two.vf 4).state = 1) := by decide
/-- A context switch asked for: named contexts present, saved or not, and absent. -/
theorem test_hyp_ctxsw :
    let s := (stood id (fun v => { v with state := 2 })).setContext 48 { at0.context 48 with cxnum := 0x80000007, en := true }
    let t := s.setContext 49 { at0.context 49 with cxnum := 0x80000008, en := true, saved := true }
    s.ctxOf 3 7 = some 48 ∧ s.ctxOf 3 9 = none ∧ (t.context 48).saved = false ∧ (t.context 49).saved = true ∧ t.ctxOf 3 8 = some 49 ∧
    ctxswStatus (s.vf 3).ctxsw ≠ 1 ∧ ctxswStatus (s.vf 3).ctxsw ≠ 2 ∧ ctxswStatus 0xFFFFFFFF00000020 = 2 ∧
    t.ctxNamed 3 0xFFFF = some none := by decide
/-- A remap asked for, from a granule of the aperture to a free one of the stand; and to one that is not. -/
theorem test_hyp_remap :
    let s := (stood id (fun v => { v with apbase := 0x300000000, apsize := 1, remapsrc := 0x3000, remapdst := 0x300007000 }))
    s.isFreeGranule 1 0x300007 = true ∧ s.isFreeGranule 1 0x7 = false ∧ (s.vf 3).remapctl.getLsbD 0 = false ∧
    s.devAddr 3 0x3000 = none ∧
    ((poke s [(0x300000000, 8, 0x300200001)]).devAddr 3 0x3000).isSome = true := by decide +kernel
theorem test_hyp_counters :
    let s : State := { at0 with counters := [(0, { (at0.counter 0) with pend := 4 })] }
    (s.counter 0).pend.getLsbD 2 = true ∧ (at0.counter 0).pend.getLsbD 2 = false ∧ (at0.context 0).en = true ∧ (at0.context 5).en = false := by
  decide

/-- Links: training, up, waiting for its peer; a flit as the model lays it out, whose CRC agrees. -/
def linked (phase : Nat) : State := at0.setLink 2 { at0.link 2 with stat := BitVec.ofNat 32 phase, expbase := 0x1000, explim := 0x9000 }
/-- A load of four bytes. -/
def request : Packet := { kind := 1, size := 4, fn := 0, type := 0, tag := 7, addr := 0x2000, data := 0, other := 0 }
theorem test_hyp_links :
    ((linked 2).link 2).phase = 2 ∧ ((linked 1).link 2).phase = 1 ∧ (at0.link 2).phase = 0 ∧ ((linked 2).link 2).recvSeq.toNat = 0 ∧
    ((linked 2).link 2).replay.length < 512 ∧ ((linked 2).link 2).expbase.toNat ≤ request.addr ∧
    request.addr + request.size ≤ ((linked 2).link 2).explim.toNat ∧ (linked 2).poisoned (keyOf 0 ((linked 2).remapped request.addr)) 4 = false ∧
    spaceOf (keyOf 0 ((linked 2).remapped request.addr) + 4) = 0 := by decide
theorem test_hyp_packets : flitPackets (flitOf 0 0 0 [request]) = [request] ∧ flitPackets (flitOf 0 0 0 []) = [] := ⟨rfl, rfl⟩
/-- Bytes followed by their CRC are a whole flit. -/
theorem flit_good (body : List Byte) (h : body.length = 248) : flitGood (body ++ bytesOf 8 (Config.crc64 body).toNat) = true := by
  unfold flitGood
  rw [List.drop_left' h, List.take_left' h, numOf_bytesOf, List.length_append, length_bytesOf, h,
    Nat.mod_eq_of_lt (show (Config.crc64 body).toNat < 256 ^ 8 from (Config.crc64 body).isLt)]
  simp
theorem test_hyp_flit : flitGood (flitOf 0 0 0 []) = true := flit_good _ (by decide +kernel)
theorem test_hyp_nak :
    let s (n : Nat) : State := at0.setLink 2 { (linked 2).link 2 with replay := [(0, [1]), (1, [2])], failed := n }
    (((s 8).link 2).replay.dropWhile (fun e => e.1 != BitVec.ofNat 12 0)).length = 2 ∧ 8 ≤ ((s 8).link 2).failed ∧ ((s 3).link 2).failed < 8 ∧
    ((s 3).link 2).replay.dropWhile (fun e => e.1 != BitVec.ofNat 12 5) = [] := by decide
theorem test_hyp_retrain : ((at0.setLink 2 { (linked 1).link 2 with retrain := some 7 }).link 2).retrain = some 7 ∧
    ((at0.setLink 2 { (linked 1).link 2 with retrain := some 7 }).link 2).phase ≠ 0 := by decide
theorem test_hyp_platform :
    at0.fwState = 1 ∧ at0.frozen.getLsbD 1 = false ∧ ({ at0 with frozen := 2 } : State).frozen.getLsbD 1 = true ∧
    field (at0.detector 5).ctl.toNat 0 8 ≠ 0 ∧ ({ at0 with time := 200000000000 } : State).lifeNext ≤ 200000000000 ∧ at0.time < at0.lifeNext ∧
    (at0.barKey 0 0x100).isSome = true ∧ ({ at0 with owner := 2, hand := 1 } : State).hand = 1 := by decide

/-! ### Steps whose results the manual works out -/

/-- The placed warp after an instruction that completes. -/
noncomputable def after (i : Instr) (s : State) : Option Warp :=
  match exec i s with
  | .next t => sget t.warps 0
  | _ => none
/-- A vector register of lanes, as it is or as it will be once its result has landed. -/
noncomputable def lanesOut (i : Instr) (s : State) (r : Nat) (l : List Nat) : Option (List Word) :=
  (after i s).map (fun W => l.map (fun lane => W.vget r lane))
/-- The first result on its way: the value of lanes, the lanes written, the flags. -/
noncomputable def landing (i : Instr) (s : State) (l : List Nat) : Option (List Word × Word) :=
  match exec i s with
  | .next t => (t.inflight.head?).bind (fun e => (e.2.vecs.head?).map (fun v => (l.map (fun lane => (v.2.2[lane]?).getD 0), e.2.flags)))
  | _ => none
/-- A register of all lanes. -/
def all (x : Word) (_ : Nat) : Word := x

/-- 08: the carry chain. -/
theorem test_iaddc :
    let s := vecs at0 [(0, all 0xFFFFFFFF), (1, all 1), (2, all 1)]
    lanesOut (.iaddcV 0 4 0 2) s 4 [0] = some [0] ∧ (after (.iaddcV 0 4 0 2) s).map (fun W => W.pmask 6) = some (BitVec.allOnes 32) ∧
    lanesOut (.iaddcV 0 5 1 3) (s.modWarp 0 (fun W => W.pputs (BitVec.allOnes 32) 6 (BitVec.allOnes 32))) 5 [31] = some [2] := by
  decide +kernel
/-- R106: a pair wraps at 64 bits. -/
theorem test_iadd_pair :
    lanesOut (.iaddV 0 4 0 2) (vecs (typed' 2) [(0, all 0xFFFFFFFF), (1, all 0xFFFFFFFF), (2, all 2)]) 4 [0] = some [1] ∧
    lanesOut (.iaddV 0 4 0 2) (vecs (typed' 2) [(0, all 0xFFFFFFFF), (1, all 0xFFFFFFFF), (2, all 2)]) 5 [0] = some [0] := by decide +kernel
/-- 08: division by zero in one lane, under a guard. -/
theorem test_idiv :
    let s := (vecs at0 [(4, all 17), (5, fun lane => if lane = 2 then 0 else 5)]).modWarp 0 (fun W => W.pputs (BitVec.allOnes 32) 0 (~~~64))
    landing (.idivV 1 3 4 5) s [0, 2] = some ([3, 0xFFFFFFFF], fIZ) := by decide +kernel
theorem test_idiv_overflow :
    landing (.idivV 0 3 4 5) (vecs at0 [(4, all 0x80000000), (5, all 0xFFFFFFFF)]) [0] = some ([0x80000000], 0) := by decide +kernel
/-- 10: minimumNumber. -/
theorem test_fmin :
    let s := vecs at0 [(2, fun l => if l = 0 then 0x7FC00000 else if l = 1 then 0x7F800001 else if l = 2 then 0x7FC00000 else 0x80000000),
      (3, fun l => if l = 0 then 0x40000000 else if l = 1 then 0x80000000 else if l = 2 then 0x7F800001 else 0)]
    lanesOut (.fminV 0 1 2 3) s 1 [0, 1, 2, 3] = some [0x40000000, 0x80000000, 0x7FC00000, 0x80000000] ∧
    lanesOut (.fmaxV 0 1 2 3) s 1 [0, 1, 2, 3] = some [0x40000000, 0x80000000, 0x7FC00000, 0] ∧
    (after (.fminV 0 1 2 3) s).map (·.flags) = some fNV := by decide +kernel
/-- 10: FMED3 with a NaN in c. -/
theorem test_fmed3 :
    lanesOut (.fmed3 0 1 2 3) (vecs (hints [⟨3, 4⟩]) [(2, all 0x3F800000), (3, all 0x40A00000), (4, all 0x7FC00000)]) 1 [0] = some [0x3F800000] := by
  decide +kernel
/-- 10: FMUL and FADD against FFMA. -/
theorem test_ffma :
    let s := vecs at0 [(2, all 0x3F800800), (3, all 0x3F800800), (8, all 0xBF801000)]
    lanesOut (.fmulV 0 9 2 3) s 9 [0] = some [0x3F801000] ∧ (after (.fmulV 0 9 2 3) s).map (·.flags) = some fNX ∧
    lanesOut (.ffmaV 0 8 2 3) s 8 [0] = some [0x33800000] ∧ (after (.ffmaV 0 8 2 3) s).map (·.flags) = some 0 := by decide +kernel
/-- 10: the scan of slice 0. -/
theorem test_lscan :
    lanesOut (.lscan 0 9 8 8) (vecs (fewLanes (typed' 8) 15) [(8, fun l => if l = 0 then 0x4B800000 else 0x3F800000)]) 9 [0, 1, 2, 3] =
      some [0x4B800000, 0x4B800000, 0x4B800000, 0x4B800001] := by decide +kernel
/-- 10: the first step of the intersection. -/
theorem test_intersect :
    let pick (l : List Word) (lane : Nat) : Word := (l[lane]?).getD 0
    lanesOut (.intersect 0 10 2 3) (vecs (fewLanes (typed' 0) 15) [(2, pick [1, 4, 6, 9]), (3, pick [4, 5, 9, 14])]) 10 [0, 1, 2, 3] =
      some [0x30400, 0x30420, 0x30400, 0x30422] := by decide +kernel
/-- 06: FP8 saturation. -/
theorem test_fcvt_e4m3 :
    let pick (lane : Nat) : Word := (([0x43E60000, 0x43FA0000, 0x7F800000, 0xFF800000, 0x7FC00000] : List Word)[lane]?).getD 0
    lanesOut (.fcvt 0 3 2 0 3 0) (vecs at0 [(2, pick)]) 3 [0, 1, 2, 3, 4] = some [0x7E, 0x7E, 0x7E, 0xFE, 0x7F] ∧
    (after (.fcvt 0 3 2 0 3 0) (vecs at0 [(2, pick)])).map (·.flags) = some (fSAT ||| fNX) := by decide +kernel
/-- 06 and 09: the PL5 block. -/
theorem test_bpack :
    let pick (lane : Nat) : Word := (([0x41F00000, 0xC0F00000, 0x40400000, 0x40200000] : List Word)[lane]?).getD 0
    lanesOut (.bpack 0 20 2) (vecs (typed' 17) [(2, pick)]) 20 [0, 1, 5, 6] = some [0x00010E8F, 0, 0x008300FE, 0] ∧
    (after (.bpack 0 20 2) (vecs (typed' 17) [(2, pick)])).map (·.flags) = some fNX := by decide +kernel
theorem test_bunpack :
    lanesOut (.bunpack 0 3 20) (vecs (typed' 17) [(20, fun l => if l = 0 then 0x00010E8F else if l = 5 then 0x008300FE else 0)]) 3 [0, 1, 2, 3, 4] =
      some [0x41F00000, 0xC1000000, 0x40400000, 0x40000000, 0] := by decide +kernel
/-- 04: two hints give the LDS its offset. -/
theorem test_imm_chain : immInt (0 : BitVec 8) [4, 0] * 4 = 0x400000000 ∧ immInt (0 : BitVec 8) [0] = 0 ∧ (immInt (0x1FF : BitVec 9) [] = -1) := by
  decide
/-- 04: an illegal word traps with every lane off, before the window is looked at. -/
theorem test_illegal_word : (match decode 0x2AA04103 with
    | .error _ => true
    | .ok _ => false) = true := by decide
/-- 08: the split of the ninth nested if overflows the mask stack. -/
theorem test_mask_overflow :
    let e : MaskEntry := { resume := 0x20000, lanes := 1, join := some 0x20000, second := false }
    let s := (slices (fun x => { x with armed := some 0x10100, stack := List.replicate 8 e })).modWarp 0 (fun W => W.pputs (BitVec.allOnes 32) 1 0x33333333)
    (match exec (.bra 0 1 4) s with
      | .next t => ((t.context 0).trapq.head?).map (fun r => (numOff r.1 0 2, numOff r.1 2 2))
      | _ => none) = some (0x0A, 0) := by decide +kernel
/-- 12: byte stores to one word, the highest lane's standing. -/
theorem test_st8 :
    let s := vecs ((fewLanes at0 0x1208)) [(6, fun l => if l = 9 then 0x40001 else 0x40000), (9, fun l => if l = 3 then 0x11 else if l = 9 then 0x22 else 0x33)]
    (match exec (.st8 0 9 6 0) s with
      | .next t => [t.coreByte 0 0x40000, t.coreByte 0 0x40001, t.coreByte 0 0x40002]
      | _ => []) = [0x33, 0x22, 0] := by decide +kernel
/-- R159: a signed byte and an unsigned one. -/
theorem test_ld8 :
    let s := vecs (poke at0 [(0x40000, 1, 0x80)]) [(6, all 0x40000)]
    landing (.ld8 0 9 6 0) s [0] = some ([0xFFFFFF80], 0) ∧ landing (.ld8n 0 9 6 0) s [0] = some ([0x80], 0) := by decide +kernel
/-- R162: lanes in ascending order see those below. -/
theorem test_atom_add :
    let s := vecs (poke (fewLanes (typed' 0) 7) [(0x40000, 4, 10)]) [(6, all 0x40000), (12, fun l => BitVec.ofNat 32 (l + 1))]
    landing (.atomAdd 0 9 6 12) s [0, 1, 2] = some ([10, 11, 13], 0) ∧
    (match exec (.atomAdd 0 9 6 12) s with
      | .next t => t.num 0x40000 4
      | _ => 0) = 16 := by decide +kernel
/-- R168: the greatest of −5, 7 and 3. -/
theorem test_meet_red : Machine.combine 0 true [0xFFFFFFFB, 7, 3] = 7 ∧ Machine.combine 0 false [0xFFFFFFFB, 7, 3] = 0xFFFFFFFB := by decide
/-- R282 and R285: a misaligned load goes to the handler, with its record. -/
theorem test_trap_handler :
    let s := (vecs at0 [(6, all 0x40002)]).setContext 0 { at0.context 0 with tvec := 0x11000 }
    (match exec (.ld 0 0 9 6 0) s with
      | .next t => (sget t.warps 0).map (fun W => ((W.slice 3).pc, W.inHandler 3, (W.gangAt 0).map (fun g => g.sget 94)))
      | _ => none) = some (0x11000, true, some 0x50000) := by decide +kernel
/-- One step from reset runs the placed word (R43): v4 := v8 + v13 in every lane, and the PC moves on. -/
theorem test_step :
    (match step (State.reset.withFetchWord 32 0x0401040D) with
      | .next t => (sget t.warps 0).map (fun W => (W.vget 4 0, (W.slice 0).pc))
      | _ => none) = some (0, 0x10004) := by decide +kernel

/-! ### Requests to other devices (R320 to R324) -/

/-- Lane 0 alone reaches address 0x5008 of device 3, whose link 2 is up. -/
def far : State :=
  let s := (laneZero 0x800008 0).setStand 0 { at0.stand 0 with flink := 0x00040000 }
  { (s.setLink 2 { at0.link 2 with stat := 0x302 }) with
    tlb := [⟨0, 0x10000, 0x1000, 0, 0, 0, 7⟩, ⟨0, 0x800000, 0x1000, 2, 0x5000, 3, 3⟩] }
/-- The request of that lane, and its answer. -/
def farAsked (ans : Option (Nat × Nat × Nat)) : Request :=
  { who := .lane 0 255 0x10000 0 1 (some (4, 1, 0)), link := 2, ctx := 0, page := 0x800000, size := 4, quiet := false, load := true, lost := false
    order := 1, answer := ans }
/-- The state with that request. -/
def awaiting (ans : Option (Nat × Nat × Nat)) : State := { far with requests := [(0, farAsked ans)] }
theorem test_hyp_far :
    (match far.passes (hinted (loadSig 1 4 1 8)) with
      | some c => decide (lanesAt c (vaddr c 8 (0 : BitVec 8) 4) = [(0, 0x800008)]) &&
          decide (laneAccess far c .read 4 0x800008 = .remote (keyOf 5 0x5008) false) && c.redone == 0 && c.G.slices == 255 &&
          (List.range 32).all (fun l => !c.inCapsule l) && decide (c.W.groupPc c.G = 0x10000)
      | none => false) = true ∧
    far.linkTo 0 3 0x5008 = some 2 ∧ (far.link 2).replay.length < 512 ∧ far.requests = [] := by decide +kernel
theorem test_hyp_far_stands : ∃ W g, StandsAt (awaiting none) 0 255 0x10000 W g := ⟨_, _, rfl, rfl, rfl, rfl⟩
theorem test_hyp_far_answered : srising (awaiting none).requests = true ∧ ((awaiting none).link 2).phase ≠ 0 ∧
    (farAsked none).quiet = false ∧ { farAsked none with quiet := true }.quiet = true := by decide
theorem test_hyp_brings : flitGood (flitOf 0 0 0 [{ request with kind := 4, tag := 0 }]) = true ∧
    flitPackets (flitOf 0 0 0 [{ request with kind := 4, tag := 0 }]) = [{ request with kind := 4, tag := 0 }] ∧
    numOf ((flitOf 0 0 0 [{ request with kind := 4, tag := 0 }]).take 8) % 2 ^ 12 = 0 :=
  ⟨flit_good _ (by decide +kernel), rfl, rfl⟩
/-- R322: the load asks and its gang waits at it. -/
theorem test_far_load :
    (match exec (.ld 0 1 4 8 0) far with
      | .next t => some (t.requests, (sget t.warps 0).map (fun W => (W.slice 0).pc))
      | _ => none) = some ([(0, farAsked none)], some 0x10000) := by decide +kernel
/-- R322: the answer is in v4 of lane 0 alone, and the load then completes. -/
theorem test_far_answer :
    let s := (awaiting none).takeReply 2 { request with kind := 4, tag := 0, data := 77 }
    s.requests = [] ∧ (sget s.warps 0).map (fun W => (W.vget 4 0, W.vget 4 1)) = some (77, 0) ∧
    (match exec (.ld 0 1 4 8 0) s with
      | .next t => (sget t.warps 0).map (fun W => ((W.slice 0).pc, W.vget 4 0))
      | _ => none) = some (0x10004, 77) := by decide +kernel
/-- R322 and R323: a refusal and a lost link are the lane's faults. -/
theorem test_far_faults :
    let cls (s : State) : Option (Nat × Nat) := match exec (.ld 0 1 4 8 0) s with
      | .next t => ((t.context 0).trapq.head?).map (fun r => (numOff r.1 0 2, numOff r.1 2 2))
      | _ => none
    cls ((awaiting none).takeReply 2 { request with kind := 4, tag := 0, fn := 7 }) = some (7, 0) ∧
    cls ((awaiting none).dropLink 2) = some (8, 0) ∧ cls (far.dropLink 2) = some (6, 1) := by decide +kernel
/-- R323: a store on its way is reported with its granule, and its lane is complete once that entry is written. -/
theorem test_far_store :
    let s0 : State := match exec (.st 0 1 4 8 0) far with
      | .next t => t
      | _ => far
    let s1 := s0.dropLink 2
    let s := s1.reported 0 (((s1.context 0).trapq.map (·.1)).flatten)
    s0.requests.map (fun e => (e.2.quiet, e.2.answer)) = [(true, none)] ∧ s1.requests.map (fun e => (e.2.lost, e.2.answer)) = [(true, none)] ∧
    s.requests = [] ∧ ((s1.context 0).trapq.map (fun r => (numOff r.1 0 2, numOff r.1 0x20 8))) = [(8, 0x800000)] ∧
    (match exec (.st 0 1 4 8 0) s with
      | .next t => (sget t.warps 0).map (fun W => (W.slice 0).pc)
      | _ => none) = some 0x10004 := by decide +kernel
/-- The grove spans a device group of devices 0 and 1; link 2 is up to a peer. -/
def grouped (own peer : Nat) (b : Barrier) : State :=
  let s := (at0.setStand 0 { at0.stand 0 with flink := 0x00040000 }).modGrove 0 (fun G => { G with levels := List.replicate 4 (0, 0, 0, 0) ++ [(7, 0, 1, 2)] })
  let s1 := (s.setLink 2 { at0.link 2 with stat := BitVec.ofNat 32 (peer * 256 + 2) }).setContext 0 { at0.context 0 with hxgroup := 0x050003 }
  { s1 with hxdev := BitVec.ofNat 32 own, barriers := [(3, b)] }
/-- Barrier 0 of the device, at which the warp has arrived with a part of 4. -/
def deviceWide (l : List Nat) : Barrier :=
  { level := 7, inst := [0, 0], num := 0, phase := 0, arrived := [(0, 255)], packets := l, parts := [(2, false, 4)], broken := false, result := 0 }
theorem test_hyp_group :
    (((grouped 1 0 (deviceWide [0])).report (deviceWide [0])).map (fun e => (e.1, e.2.kind, e.2.size, e.2.type, e.2.data))) = some (2, 5, 5, 1, 4) ∧
    (grouped 1 0 (deviceWide [])).report (deviceWide []) = none ∧
    (withBarrier at0 (barrier 0 [(0, 255)])).groupBarrier (barrier 0 [(0, 255)]) = none := by decide +kernel
theorem test_hyp_group_root :
    let b := deviceWide [0, remoteMember 1]
    let s := grouped 0 1 b
    s.report b = none ∧ s.phaseFull b = true ∧ s.early = [] ∧ s.groupBarrier b = some (0, 0, 0, []) ∧
    (s.rootDevice 0, s.ownDevice, s.groupDevices 0, s.groupLink 0 1) = (0, 0, [0, 1], some 2) := by decide +kernel
/-- R324: a member releases on the root's release alone; the root on every member's report, and sends its own. -/
theorem test_group_release :
    let run (own peer : Nat) (b : Barrier) : Option (Nat × Nat) := match exec (.barrierRelease 3) (grouped own peer b) with
      | .next t => (sget t.barriers 3).map (fun x => (x.phase, t.outbox.length))
      | _ => none
    run 1 0 (deviceWide [0]) = some (0, 1) ∧ run 1 0 (deviceWide [0, remoteMember 1]) = some (0, 0) ∧
    run 1 0 (deviceWide [0, remoteMember 1, remoteMember 0]) = some (1, 0) ∧ run 0 1 (deviceWide [0]) = some (0, 0) ∧
    run 0 1 (deviceWide [0, remoteMember 1]) = some (1, 1) ∧ run 0 2 (deviceWide [0, remoteMember 1]) = some (0, 0) := by decide +kernel

/-! ### Hypotheses: one witness for each further clause -/

/-- A turn in the same cycle; a gang that may issue and one that may not. -/
theorem test_hyp_turns :
    turnOf { at0 with turns := [.also 0 0] } 0 0 { at0 with turns := [] } ∧
    (sget at0.warps 0).map (fun W => W.gangs.map (at0.gangMayIssue W)) = some [true] ∧
    (let s := gang (fun g => { g with wait := some 0 });
      (sget s.warps 0).map (fun W => W.gangs.map (s.gangMayIssue W)) = some [false]) ∧
    ({ at0 with turns := [.event (.promotion 0 0)] } : State).turns = .event (.promotion 0 0) :: [] :=
  ⟨⟨[], .inr ⟨rfl, rfl⟩⟩, by decide +kernel, by decide +kernel, rfl⟩
/-- A fetch that device 3 has answered. -/
theorem test_hyp_fetchesFar :
    let s : State := { far with
      tlb := [⟨0, 0x10000, 0x1000, 2, 0x5000, 3, 7⟩]
      requests := [(0, { who := .fetch 0 255 0x10000, link := 2, ctx := 0, page := 0x10000, size := 4, quiet := false, load := true,
                         lost := false, order := 0, answer := some (0, 0, 0x0421040D) })] }
    ∃ W, sget s.warps 0 = some W ∧ fetchesFar s 0 W 255 0x10000 0x0421040D :=
  ⟨_, rfl, by decide, by decide, keyOf 5 0x5000, false, _, 0, 0x0421040D, by decide, by decide, rfl, rfl, rfl⟩
/-- A queued atomic with lanes; an acquiring result behind an earlier load of its gang; a gang that waits for one. -/
theorem test_hyp_atomq :
    holds (lanesFrom (typed' 0) 8 0x40000 0) (hinted (atomSig 0 [0, 1, 2, 3] .no 0 (some 4) 8 12)) (fun c s =>
      c.act != 0 && !(s.storesOut c.w c.G.slices) && !(s.drainsOut c.w c.G.slices) && !(s.loadsOut c.w c.G.slices) && !(s.ticketBusy c)) = true ∧
    (let l := { aLoad with acquire := true };
      let s : State := { at0 with inflight := [(3, aLoad), (5, l)] };
      sget s.inflight 5 = some l ∧ ∃ e ∈ s.inflight, e.1 < 5 ∧ e.2.warp = l.warp ∧ e.2.memory = true ∧ e.2.slices &&& l.slices ≠ 0) ∧
    (let s : State := { at0 with inflight := [(5, { aLoad with acquire := true })] };
      (match s.issuing with
        | none => false
        | some c0 =>
          let c := c0.guarded (loadSig 0 4 1 8 c0.h)
          (stallEnd c s.time).isNone && (front c (loadSig 0 4 1 8 c0.h)).isNone && s.inflight.any (fun e =>
            e.2.warp == c.w && e.2.acquire && e.2.slices &&& c.G.slices != 0)) = true) :=
  ⟨by decide, ⟨rfl, (3, aLoad), by decide, by decide, by decide, by decide, by decide⟩, by decide⟩
/-- Stores of the core on their way to the home of the byte accessed at home; a store that a drain row of its gang comes before. -/
theorem test_hyp_drained :
    isScratch 0x40000 = false ∧
    (storing.regq.filter (fun e => e.2.core == 0 && e.2.home == homeOf (storing.ctxStand 0) 0x40000)).length = 2 ∧
    ({ copying (command true) with regq := [(7, { aStore [(0x40000, 1)] with slices := 255 })] } : State).rowsBefore
      { core := 0, w := 0, slices := 255 } 0 (homeOf (State.reset.stand 0) 0x40000) 7 = true := by decide +kernel
/-- A result in flight that can set a flag, and one that cannot. -/
theorem test_hyp_flagged :
    let s (b : Bool) : State := { at0 with inflight := [(5, { aLoad with memory := false, mayFlag := b })] }
    holds (s true) (fun _ _ => Sig.plain) (fun c s => s.inflight.any (fun e => e.2.warp == c.w && e.2.mayFlag)) = true ∧
    holds (s false) (fun _ _ => Sig.plain) (fun c s => s.inflight.all (fun e => e.2.warp != c.w || !e.2.mayFlag)) = true := by decide
/-- A barrier packet of another device where no grove of its group runs, and where one does. -/
theorem test_hyp_remote :
    let p : Packet := { kind := 5, size := 5, fn := 0, type := 1, tag := 0, addr := 3, data := 4, other := 0 }
    Packet.read p.bytes = p ∧ at0.groupGroves p.group = [] ∧ at0.early = [] ∧ at0.roots = [] ∧
    (let s := grouped 0 1 (deviceWide []);
      (s.groupGroves p.group).map (fun e => (e.1, e.2.phase, e.2.gone)) = [(0, 0, [])] ∧ s.early = [] ∧ s.roots = []) := by
  decide +kernel
/-- A fill whose rows are readable at once, and one that waits behind the gang's own drain of the same bytes. -/
theorem test_hyp_fills :
    let rows : List (Nat × DWord) := [(0, 0x40000)]
    at0.fillWaits { core := 0, w := 0, slices := 255 } 0 64 rows = false ∧
    ({ copying (command true) with nextId := 90 } : State).fillWaits { core := 0, w := 0, slices := 255 } 0 64 rows = true ∧
    (match at0.rowAccess 0 0 false 0x40000 64 with
      | .go l => l.all (fun p => !p.2.1)
      | _ => false) = true ∧
    (let s := copying (command true);
      match s.rowAccess (s.cmdCtx (command true)) 0 true 0x40000 64 with
      | .go l => l.all (fun p => !(isRemote p.1)) && !(s.partsWait (command true).party (s.cmdCtx (command true)) true 6 l)
      | _ => false) = true := by decide +kernel
/-- A pair-mode team that names all eight quadrants by the mask 0xF; a batch covered and one not. -/
theorem test_hyp_wide :
    let s := teamed (at0.modBlock 0 (fun B => { B with desc := { B.desc with pair := true } })) (fun t => { t with pair := true, shape := some (4, 0) })
    let x : TeamCtx := { b := 0, t := 0, core := 0, members := [0] }
    (s.team 0 0).pair = true ∧ (∃ sh, Shaped s x 0 sh ∧ sh.length = 8) ∧ fusable 15 = true ∧
    (3 % 65536 + 65536 - 1 % 65536) % 65536 ≤ 32767 ∧ ¬ ((0 % 65536 + 65536 - 1 % 65536) % 65536 ≤ 32767) :=
  ⟨by decide, ⟨_, ⟨4, by decide, rfl⟩, by decide⟩, by decide, by decide, by decide⟩
/-- Every one of some addresses is translated for the hardware's accesses. -/
def hard (s : State) (c : Ctx) (l : List DWord) : Bool :=
  l.all (fun a => match s.xlateFor c.W.ctx c.W.core (some c.w) (vaOf a) .hard with
    | .go key _ => !(isRemote key) && s.homeFree c (key / 64 * 64) 64
    | _ => false) && s.requests.isEmpty
theorem hard_go (s : State) (c : Ctx) (l : List DWord) (h : hard s c l = true) : HardGo s c l := by
  rw [hard, Bool.and_eq_true] at h
  refine ⟨fun a ha => ?_, fun e he => ?_⟩
  · have := List.all_eq_true.mp h.1 a ha
    split at this
    · rw [Bool.and_eq_true, Bool.not_eq_true'] at this
      exact ⟨_, _, ‹_›, this.1, this.2⟩
    · cases this
  · rw [List.isEmpty_iff.mp h.2] at he
    cases he
/-- What the running root of a placed grove with one child reads and writes is reached. -/
theorem test_hyp_treeWords :
    let s (m : Nat) : State := poke (grove at0 (fun G =>
        { G with mode := m, yieldBytes := 8, handBytes := 8, capacity := 8, areas := [(0, 0, { off := 0, size := 64 }, 2)] }))
      [(0xA00C, 2, 2), (0x9014, 4, 5)]
    let root (s : State) (f : Ctx → Grove → Block → Bool) : Bool := holds s (fun _ _ => Sig.plain) (fun c s =>
      match s.place c.W with
      | some (B, G) => c.act != 0 && !(s.storesOut c.w c.G.slices) && !(s.drainsOut c.w c.G.slices) && s.regq.isEmpty && f c G B
      | none => false)
    root (s 2) (fun c G B => !G.upward && G.downward && B.node == G.root &&
      (match inboxPlace (s 2) c.W.grove B G 1 2 with
        | some a => hard (s 2) c [a]
        | none => false) &&
      (match G.handSlot B.node 1 with
        | some a => hard ((s 2).writeBack 0) c [a]
        | none => false) && hard (s 2) c [G.addr + 0x14]) = true ∧
    root (s 1) (fun c G B => G.upward && !B.yielded && B.node == G.root && hard ((s 1).writeBack 0) c [G.addr + 0xC0] &&
      decide (inboxPlace (s 1) c.W.grove B G 1 0 = none)) = true := by decide +kernel

/-- The rest of what acceptance may answer: a refusal that is reported at its word, and a page to come; a phase that may start;
nodes whose pages are there and are not. -/
theorem test_hyp_verdicts :
    let host (p : Nat) (s : State) : State := { s with tlb := [⟨0, p, 0x1000, 1, 0x9000, 0, 3⟩] }
    let begin' := grove at0 (fun G => { G with begun := false })
    (match (submitted [(0x40080, 8, 0x50000)]).verdict (.submission 6) 0 0x40000 with
      | .refuse st node => st == 0x0100 && node == 0
      | _ => false) = true ∧
    (match (host 0x40000 (submitted [])).verdict (.submission 6) 0 0x40000 with
      | .wait _ (.page p) => p == 9
      | _ => false) = true ∧
    (submitted []).subs.all (fun e => decide (6 ≤ e.1)) = true ∧
    begin'.engineRuns 0 = true ∧ ((sget begin'.groves 0).map (fun G => (begin'.nodeWait 0 G 0).isNone)) = some true ∧
    ((sget (host 0xA000 (pending 0)).groves 0).map (fun G => ((host 0xA000 (pending 0)).nodeWait 0 G 0).map (·.2))) = some (some (.page 9)) := by decide +kernel
/-- A trail that wants a frame it is granted, one that is not, and a block with and without room for its warps. -/
theorem test_hyp_rooms :
    let s : State := { poke at0 [(0xA014, 4, 0x200000), (0xA006, 2, 1)] with trails := [(4, trail { entered with frame := none })] }
    ((sget s.groves 0).map (fun G => match s.startWants G { entered with frame := none } with
      | [] => false
      | w :: _ => s.wantBytes G 0 w == 64 && (s.grant 0 G (4, trail { entered with frame := none }) 64).isSome)) = some true ∧
    (let full : State := { s with trails := [(3, trail { entered with frame := some { off := 0, size := 64 } }), (4, trail { entered with frame := none })] };
      ((sget full.groves 0).map (fun G => (full.grant 0 { G with clearBytes := 64, allocs := [(0, { off := 0, size := 64 })] }
        (4, trail { entered with frame := none }) 64).isNone)) = some true) ∧
    (s.allocateAll 0 4 0 []).2 = true ∧
    (let b := at0.modBlock 0 (fun B => { B with admitted := false, members := [], cores := [1] });
      (sget b.blocks 0).map (fun B => B.cores.all (b.roomOn B)) = some true) ∧
    (let b := (gang (fun g => { g with wait := some 0 })).modBlock 0 (fun B => { B with admitted := false, members := [], cores := [0], warps := 32, desc := { B.desc with scratch := 0 } });
      (sget b.blocks 0).map (fun B => (b.fitsOn B 0, b.victim 0)) = some (true, some 0)) := by decide +kernel
/-- The seedbed full, and the ring of the placed grove with it; the quota used up; a sapling that is not yet decided. -/
theorem test_hyp_offers :
    let one (i : Nat) : Nat × Sapling := (10 + i, { core := 0, bin := 0, grove := 0, payload := [], words := 0, join := none, time := 0, ring := none, away := false, ready := true, named := false })
    let full : State := { grove at0 (fun G => { G with quota := 5000, ringSize := 0 }) with saplings := (List.range 4096).map one }
    ((sget full.groves 0).map (fun G => (full.spot 0 G 0, decide (G.accepted < G.quota)))) = some (.full, true) ∧
    ((sget at0.groves 0).map (fun G => decide (G.quota ≤ G.accepted))) = some true ∧ at0.undecided 0 0 = false ∧
    ({ at0 with saplings := [(9, { (one 0).2 with ready := false })] } : State).undecided 0 0 = true := by decide +kernel
/-- A counter that the placed warp reaches, and that no request of its instruction is about. -/
theorem test_hyp_counts : ∃ c, (poke at0 [(0x40000, 8, 3)]).issuing = some c ∧ Counts c (poke at0 [(0x40000, 8, 3)]) .both 0x40000 0x40000 ∧
    Counts c (poke at0 [(0x40000, 8, 3)]) .read 0x40000 0x40000 :=
  ⟨_, rfl, ⟨by decide, by decide, by decide, nofun, fun _ => by decide, fun _ => rfl, false, by decide +kernel⟩,
    ⟨by decide, by decide, by decide, nofun, fun _ => by decide, fun _ => rfl, false, by decide +kernel⟩⟩
/-- What makes a bin's warp due: a named sapling, a timer, an idle core; and a full core, which makes none. -/
theorem test_hyp_due :
    let named : State := { bed 2 100 with saplings := (bed 2 100).saplings.map (fun e => (e.1, { e.2 with named := true })) }
    let timed : State := { bed 2 5000 with flushes := [(0, 0, 0)] }
    let idle : State := { bed 2 100 with warps := [] }
    ((named.bin 0 0 0).any (fun e => e.2.named)) = true ∧ (0, 0, 0) ∈ timed.flushes ∧ idle.coreIdle 0 = true ∧
    (idle.refill 0).runsOn 0 0 = true ∧ ((idle.refill 0).bin 0 0 0).length = 2 ∧ (idle.saplingEntry 0 128).isSome = true ∧
    ({ idle with freeze := some (1, 1) } : State).runsOn 0 0 = false := by decide +kernel
/-- A lane whose CAPABORT may end its capsule; a warp away whose steps are done, and one with a step on its way. -/
theorem test_hyp_settled :
    holds (held 1) (hinted (fun _ => { Sig.plain with body := .free })) (fun c s => c.settled s 0 && s.engineRuns 0) = true ∧
    (∀ e ∈ (held 1).steps, e.2.warp ≠ 0) ∧ (∃ e ∈ ({ held 1 with steps := [(30, aStep 0)] } : State).steps, e.2.warp = 0) :=
  ⟨by decide, nofun, ⟨_, .head _, rfl⟩⟩
/-- A warp that comes back next, and what it asks for the last slot. -/
theorem test_hyp_lastSlot :
    let s := at0.modWarp 0 (fun W => { W with residency := .parked true 1, urgent := true })
    s.nextUnpark 0 = some 0 ∧ s.victim 0 = none ∧ s.lastSlotFree 0 = true ∧ s.mayReturn 0 0 = true ∧
    ((sget s.warps 0).bind (fun W => W.readyOrder)) = some 1 := by decide
/-- A result that may land and one that may not yet; a page of the host that the ATS has translated, and one it was asked for. -/
theorem test_hyp_lands :
    loading.mayLand 5 aLoad = true ∧
    ({ at0 with inflight := [(3, aLoad), (5, { aLoad with acquire := true })] } : State).mayLand 5 { aLoad with acquire := true } = false ∧
    (let e : AtsEntry := { ctx := 0, page := 9, frame := 7, perm := 3 };
      ({ at0 with ats := [e] } : State).atsEntry 0 9 = some e) ∧
    (∃ e ∈ storing.regq, e.2.ctx = 0) ∧
    (let s : State := { at0 with atsInv := [(0, 9)] }; (∃ e ∈ s.atsInv, e.1 = 0) ∧ (0, 9) ∈ s.atsInv ∧ s.regq = [] ∧ s.inflight = []) :=
  ⟨by decide, by decide, by decide, ⟨_, .head _, rfl⟩, ⟨_, .head _, rfl⟩, .head _, rfl, rfl⟩
/-- The trap ring's page translated and not; a function whose registers answer; writes of the host. -/
theorem test_hyp_ringKey :
    let s : State := (at0.setContext 0 { at0.context 0 with trapq := [([1, 2], some 0)], trbase := 0x9000 })
    let t : State := { s with ats := [{ ctx := 0, page := 9, frame := 7, perm := 3 }] }
    s.ringKey 0 0 true = none ∧ t.ringKey 0 0 true = some (keyOf 1 0x7000) ∧ s.engineRuns 0 = true ∧ at0.answers 0 = true ∧
    ({ at0 with fwState := 2 } : State).answers 0 = false := by decide +kernel
/-- A consumed entry of a warp in the save area; an entry with an action and a changed PC. -/
theorem test_hyp_actions :
    let s := (at0.setContext 0 { at0.context 0 with trprod := 1, ringWarps := [{ count := 0, warp := some 0, slices := 255, passed := false }] }).modWarp 0
      (fun W => { W with residency := .saved true })
    let t := s.hostWrites [(0x907C, 1), (0x9010, 8)]
    ((sget s.warps 0).map (fun W => W.saved)) = some true ∧ t.num (keyOf 1 0x907C) 1 = 1 ∧ t.num (keyOf 1 0x9010) 8 = 8 := by decide +kernel
/-- A request that joins a running ladder in each of its stages; a designated warp that is ready for its entry. -/
theorem test_hyp_joined :
    ((laddered .drain 0).context 0).ladder.isSome = true ∧ ((laddered .halt 0).context 0).ladder.isSome = true ∧
    (1 &&& ((laddered .drain 0).stand ((laddered .drain 0).standOf (ctxFn 0))).fpairs &&& ~~~((laddered .drain 0).context 0).savedPairs) = 1 ∧
    (let s := laddered .halt 0x12000;
      (sget s.warps 0).map (fun W => (s.haltable 0 W, s.isDesignated 0 W)) = some (true, true) ∧ s.cmds = [] ∧
      (sget s.blocks 0).map (·.members) = some [0]) ∧
    (let s : State := { laddered .drain 0 with time := 7, blocks := [] };
      s.blocksIn 0 1 = false) := by decide +kernel
/-- A saved context whose claims make it resumable; one that does not run. -/
theorem test_hyp_claimed :
    let s := (at0.setContext 0 { at0.context 0 with savedPairs := 1 }).modWarp 0 (fun W => { W with residency := .saved true })
    ((s.blocksOf 0 1).foldl (fun t e => t.reclaim e.1 e.2) s).resumable 0 1 = true ∧ Memory.wf s.mem = true ∧
    (let t : State := { s with quads := [(0, { Quadrant.reset with owner := some (9, 0) })], blocks := s.blocks.map (fun e =>
        (e.1, { e.2 with teams := [(0, { Team.start with stash := [(0, Quadrant.reset)] })] })) };
      ((t.blocksOf 0 1).foldl (fun t e => t.reclaim e.1 e.2) t).resumable 0 1 = false) := by decide +kernel
/-- Granules fresh and not, and one whose place leads elsewhere. -/
theorem test_hyp_retire :
    let s : State := { at0 with ecc := [(5, 7), (7, 7)], retired := [6], remaps := [(7, 9)] }
    5 ∉ s.retired ∧ 6 ∈ s.retired ∧ s.remaps.length < 65536 ∧ zget 0 s.ecc 5 + 1 = 8 ∧ sget s.remaps 5 = none ∧
    unremap s.remaps 7 = 7 ∧ sget s.remaps 7 = some 9 ∧ unremap s.remaps 9 ≠ 9 ∧ Memory.wf s.mem = true := by decide +kernel
/-- The moments of applying, switching and resetting. -/
theorem test_hyp_stands :
    let runs := stood (fun st => { st with state := 1 }) (fun v => { v with state := 1 })
    (runs.stand 1).fpairs ≠ 0 ∧ (runs.stand 1).running = none ∧ (∃ v ∈ runs.bound 1, (runs.vf v).state = 1) ∧
    (let s := stood (fun st => { st with state := 1 }) id; (s.stand 1).state ≠ 2 ∧ (s.stand 1).state ≠ 0 ∧ (s.vf 3).state = 0) ∧
    ((stood id (fun v => { v with state := 4 })).vf 3).state = 4 ∧
    ({ at0 with frozen := 2 } : State).answers 0 = false ∧ (at0.context 0).en = true ∧
    (let s := (stood id (fun v => { v with state := 2, ctxsw := 0x0031003000000020 })).setContext 48 { at0.context 48 with cxnum := 0x80000030, en := true };
      let t := s.setContext 49 { at0.context 49 with cxnum := 0x80000031, en := true, lost := true };
      let u := s.setContext 49 { at0.context 49 with cxnum := 0x80000031, en := true, savedPairs := 2 };
      ctxswStatus (t.vf 3).ctxsw = 2 ∧ t.ctxNamed 3 0x30 = some (some 48) ∧ (t.context 48).ladder = none ∧ t.ctxNamed 3 0x31 = some (some 49) ∧
        (t.context 49).lost = true ∧ (u.context 49).lost = false ∧ (u.context 49).savedPairs ≠ 0) := by decide +kernel
/-- A core with room for the request of a far load; a store that its lost link left, with the record that reports it. -/
theorem test_hyp_lost :
    far.requestsOut 0 < 3072 ∧ (far.link 2).waiting = [] ∧ srising far.warps = true ∧
    (let r : Request := { farAsked none with quiet := true, load := false, lost := true };
      let s : State := { far with requests := [(0, r)] };
      let b := s.warplessRecord 0 8 0 0 r.page;
      sget s.requests 0 = some r ∧ r.lost = true ∧ numOf (b.take 2) = 8 ∧ r.page = BitVec.ofNat 64 (numOf ((b.drop 0x20).take 8)) ∧
        ((sget (s.reported 0 b).requests 0).map (fun x => x.answer.isSome)) ≠ some false) := by decide +kernel
/-- The states of the firmware, and detectors that stretch, throttle and are off. -/
theorem test_hyp_firmware :
    State.reset.fwState = 0 ∧ ({ at0 with fwState := 2 } : State).fwState ≠ 1 ∧ at0.owner = 0 ∧ ({ at0 with owner := 1 } : State).owner = 1 ∧
    (let s : State := { at0 with droop := [(5, { at0.detector 5 with stretch := some 0, throttle := some 9 })] };
      (s.detector 5).stretch = some 0 ∧ (s.detector 5).throttle = some 9 ∧ s.time = 0) ∧
    (let s : State := { at0 with droop := [(5, { at0.detector 5 with ctl := 0 })] }; field (s.detector 5).ctl.toNat 0 8 = 0) := by decide +kernel

/-! ### Hypotheses: steps, more -/

/-- A gang that waits with its word kept, and one whose PC is not canonical, each at its turn. -/
theorem test_hyp_keptWord :
    let at' (f : Gang → Gang) (W0 : Warp → Warp) : State := { ((gang f).modWarp 0 W0).pass with turns := [] }
    let gangOf (s : State) (p : Warp → Gang → Bool) : Bool := match sget s.warps 0 with
      | none => false
      | some W => match W.gangAt 0 with
        | none => false
        | some g => s.gangMayIssue W g && p W g
    gangOf (at' (fun g => { g with pend := .issued, words := [0x0421040D] }) id) (fun _ g => kept g == some 0x0421040D) = true ∧
    decode 0x0421040D = .ok (.iaddV 1 4 8 13) ∧
    gangOf (at' id (fun W => { W with slices := W.slices.map (fun x => { x with pc := 0x0F00000000000000 }) }))
      (fun W g => kept g == none && !(canonical (W.pcOf g))) = true := ⟨by decide +kernel, rfl, by decide +kernel⟩
/-- With no turn listed: a parked warp finds out that it is ready; an agent moves; a gang finds out that it waits; only the cycle
passes; the placed gang issues. -/
theorem test_hyp_noTurn :
    let go (w : Nat) : State := { State.reset.withFetchWord 32 w with turns := [] }
    ((go 0x0421040D).modWarp 0 (fun W => { W with residency := .parked false 1 })).readiness.isSome = true ∧
    (let s := (go 0x0421040D).modWarp 0 (fun W => W.modGang 0 (fun g => { g with stall := some 0 }));
      s.readiness.isNone = true ∧ s.agentStep.isSome = true) ∧
    (let s := (go 0x0421040D).modWarp 0 (fun W => { W with emptyV := [(13, 255)] });
      s.readiness.isNone = true ∧ s.agentStep.isNone = true ∧ s.tryOne.isSome = true) ∧
    (let s := (go 0x0421040D).modWarp 0 (fun W => W.modGang 0 (fun g => { g with wait := some 0 }));
      s.readiness.isNone = true ∧ s.agentStep.isNone = true ∧ s.tryOne.isNone = true ∧ s.chosen = []) ∧
    (let s := go 0x0421040D;
      s.readiness.isNone = true ∧ s.agentStep.isNone = true ∧ s.tryOne.isNone = true ∧ s.chosen = [(0, 0)]) := by decide +kernel
/-- Two gangs of a partition, of which one issues in a throttle window, both without one unless both need port B, and none in the
middle of a stretched cycle. -/
theorem test_hyp_ports :
    let two (w : Nat) (d : Droop) : State := { (State.reset.withFetchWord 32 w).modWarp 0 (fun W =>
      { W with gangs := [Gang.start 15, Gang.start 240] }) with droop := [(0, d)] }
    (two 0x0421040D Droop.reset).chosen = [(0, 0), (0, 4)] ∧ (two 0x834208B7 Droop.reset).chosen = [(0, 0)] ∧
    (two 0x834208B7 Droop.reset).needsB 0 4 = true ∧
    (two 0x0421040D { Droop.reset with throttle := some 9 }).chosen = [(0, 0)] ∧
    (two 0x0421040D { Droop.reset with stretch := some 2 }).coreTicks 0 = false := by decide +kernel
/-- A gang that waits is not stopped by an empty register marked. -/
theorem test_hyp_waitingMarked :
    (match (((hints [⟨2, 2⟩]).modWarp 0 (fun W => W.modGang 0 (fun g => { g with pend := .page }))).modWarp 0 (fun W => { W with emptyV := [(13, 1)] })).issuing with
      | none => false
      | some c0 =>
        let g := intSig 0 0 4 8 (.v 13) c0.h
        decide (c0.G.pend ≠ .none) && (front (c0.guarded g) g).isNone && !((Opnd.v 13 1).full c0.W c0.G.slices)) = true := by decide +kernel

/-! ### Hypotheses: values of floats -/

/-- One, as a value and as FP32: finite, not zero, above zero; encodings of infinity and of NaN. -/
theorem test_hyp_one : finite (.fin false 1 0) ∧ valR (.fin false 1 0) = 1 ∧ valR (.fin false 1 0) + valR (.fin false 1 0) ≠ 0 ∧
    0 < valR (.fin false 1 0) ∧ f32.flush false 0x3F800000 = 0x3F800000 ∧ f32.read 0x3F800000 = .fin false 0x800000 (-23) ∧
    valR (f32.read 0x3F800000) ≠ 0 ∧ f32.read 0x7F800000 = .inf false ∧ e4m3.read 0x7F = .nan false := by
  have h1 : valR (.fin false 1 0) = 1 := by simp [valR, valQ]
  have h2 : f32.read 0x3F800000 = .fin false 0x800000 (-23) := by decide
  refine ⟨⟨_, _, _, rfl⟩, h1, ?_, ?_, by decide, h2, ?_, by decide, by decide⟩
  · rw [h1]
    norm_num
  · rw [h1]
    norm_num
  · rw [h2]
    norm_num [valR, valQ]
/-- FP16 at the edges of overflow: 65520 rounds to it to nearest and 65519 does not; 65536 does toward zero and 65520 does not. -/
theorem test_hyp_overflow : Overflows f16 0 65520 ∧ ¬ Overflows f16 0 65519 ∧ Overflows f16 1 65536 ∧ ¬ Overflows f16 1 65520 ∧
    Overflows f16 2 65505 ∧ ¬ Overflows f16 3 65505 := by
  have h : greatest f16 = (65504, 32) := by
    unfold greatest
    rw [if_neg (by decide), if_neg (by decide), if_pos rfl]
  simp only [Overflows, h]
  norm_num

/-- Sources of FUN whose values are 1, -127, -150, 128 and 10; a negative number, a subnormal one. -/
theorem test_hyp_fun : valQ (f32.read 0x3F800000) = (1 : Int) ∧ valQ (f32.read 0xC2FE0000) = (-127 : Int) ∧
    valQ (f32.read 0xC3160000) = (-150 : Int) ∧ valQ (f32.read 0x43000000) = (128 : Int) ∧ 91 / 10 ≤ |valQ (f32.read 0x41200000)| ∧
    2 ^ 31 < 0xBF800000 ∧ (f32.read 0xBF800000).isNan = false ∧ f32.subnormal 0xBF800000 = false := by
  have h1 : f32.read 0x3F800000 = .fin false 0x800000 (-23) := by decide
  have h2 : f32.read 0xC2FE0000 = .fin true 0xFE0000 (-17) := by decide
  have h3 : f32.read 0xC3160000 = .fin true 0x960000 (-16) := by decide
  have h4 : f32.read 0x43000000 = .fin false 0x800000 (-16) := by decide
  have h5 : f32.read 0x41200000 = .fin false 0xA00000 (-20) := by decide
  rw [h1, h2, h3, h4, h5]
  refine ⟨?_, ?_, ?_, ?_, ?_, by decide, by decide, by decide⟩ <;> norm_num [valQ]
/-- Groups of a row: one with a NaN exponent and one without; 16 values with an infinity, all zero, and with a largest one. -/
theorem test_hyp_groups : rowValue 16 false 32 (255 * 2 ^ (32 * (1 + magBits 16) + 16)) 0 = none ∧ rowExp 16 false 32 0 0 ≠ 255 ∧
    (let x (i : Nat) : FVal := if i = 3 then .inf false else .fin false 0 0; ∃ i, i < 16 ∧ ¬ finite (x i) ∧ ∃ n, x i = .inf n) ∧
    (let x (_ : Nat) : FVal := .fin false 0 0; ∀ i, i < 16 → finite (x i) ∧ valQ (x i) = 0) ∧
    (let x (i : Nat) : FVal := .fin false (if i = 0 then 1 else 0) 0; valQ (x 0) ≠ 0 ∧ (∀ i, i < 16 → finite (x i)) ∧ largestAt 16 x 0) := by
  refine ⟨by simp [rowValue, rowExp, magBits], by decide, ⟨3, by decide, ?_, false, rfl⟩, fun i _ => ⟨⟨_, _, _, rfl⟩, by simp [valQ]⟩, ?_, fun i _ => ⟨_, _, _, rfl⟩,
    by decide, fun j _ => ⟨?_, fun h => absurd h (Nat.not_lt_zero j)⟩⟩
  · rintro ⟨n, m, e, h⟩
    simp at h
  · simp [valQ]
  · by_cases h : j = 0 <;> simp [valQ, h]
/-- FP32 operands in order for fmed3; an infinity for frnd. -/
theorem test_hyp_order : atMost 0x80000000 0 ∧ f32.read 0xFF800000 = .inf true ∧ [0, 1, 2].Perm [2, 1, 0] := by
  refine ⟨⟨by decide, by decide, ?_, by decide⟩, by decide, by decide⟩
  have h1 : f32.read 0x80000000 = .fin true 0 (-149) := by decide
  have h2 : f32.read 0 = .fin false 0 (-149) := by decide
  rw [h1, h2]
  simp [lessQ, valQ]

/-! ### Hypotheses: faults lane by lane, fences, barriers, more -/

/-- Lane 0 reaches its place and lane 1 does not. -/
def oneFaults (s : State) (sig : HintSet → Sig) (acc : Acc) (size : Nat) (win : Bool) : Bool :=
  holds s (hinted sig) (fun c s =>
    let l := lanesAt c (fun lane => c.W.vget2 8 lane)
    l.map (·.1) == [0, 1] && l.all (fun e => decide (e.2.toNat % size = 0) && canonical e.2 && !(badWindow s c win size e.2)) &&
      decide (laneAccess s c acc size 0x40000 = .go ((List.range size).map (fun j => .mem (0x40000 + j) false))) &&
      decide (laneAccess s c acc size 0x200000 = .fault 6 1) && s.requests.isEmpty && decide (s.requestsOut c.W.core + 2 ≤ 3072) &&
      !(s.orderedBusy c) && s.regq.isEmpty && !(s.storesOut c.w c.G.slices) && !(s.drainsOut c.w c.G.slices) && !(s.ticketBusy c) &&
      (List.range 32).all (fun lane => !(c.inCapsule lane)))
theorem test_hyp_laneFaults :
    let s (t : State) : State := vecs (fewLanes t 3) [(8, fun lane => if lane = 1 then 0x200000 else 0x40000), (9, fun _ => 0)]
    oneFaults (s at0) (loadSig 0 4 1 8) .read 4 true = true ∧ oneFaults (s at0) (storeSig 0 4 1 8) .write 4 true = true ∧
    oneFaults (s (typed' 0)) (atomSig 0 (atomTypes 0) .vec 0 (some 4) 8 12) .both 4 false = true ∧
    oneFaults (s (typed' 0)) (atomSig 0 (atomTypes 0) .vec 0 none 8 12) .both 4 false = true ∧
    oneFaults (s (typed' 0)) (atomSig 0 [0, 1, 2, 3] .no 0 (some 4) 8 12) .both 4 false = true := by decide +kernel
/-- A core whose stores may all register, and one with a store that a drain row of its gang comes before; a copy that the core owns. -/
theorem test_hyp_writable : at0.writable 0 = true ∧
    ({ copying (command true) with regq := [(7, { aStore [(0x40000, 1)] with slices := 255 })] } : State).writable 0 = false ∧
    (sget ({ at0 with carve := [(carveKey 0 0x40000, { val := 1, owned := true })] } : State).carve (carveKey 0 0x40000)).isSome = true := by
  decide +kernel
/-- MEET.RED of a signed maximum, and a barrier a link on whose member's path went down. -/
theorem test_hyp_meetRed :
    (at0.passes (fun c s => { meetSig 4 0 c s with
      srcs := [(.s 3 1, some 0)], dsts := [.s 3 1], legal := (s.barrierKey c.W 4 0).isSome && decide (0 ≤ 4) })).isSome = true ∧
    (withBarrier at0 (barrier 0 [])).writable 0 = true ∧ ({ barrier 0 [] with broken := true } : Barrier).broken = true ∧
    Whole (withBarrier at0 (barrier 0 [(0, 255)])) (barrier 0 [(0, 255)]) ∧
    (withBarrier at0 (barrier 0 [(0, 255)])).report (barrier 0 [(0, 255)]) = none ∧
    (withBarrier at0 (barrier 0 [(0, 255)])).early = [] :=
  ⟨by decide +kernel, by decide +kernel, rfl, ⟨rfl, by decide +kernel⟩, by decide +kernel, rfl⟩

/-! ### Hypotheses: tiles and arrays, more -/

/-- A packet that ends a phase, for a group of which one grove runs. -/
theorem test_hyp_endPacket :
    let p : Packet := { kind := 5, size := 5, fn := 0, type := 5, tag := 0, addr := 3, data := 0, other := 0 }
    let s := grouped 0 1 (deviceWide [])
    Packet.read p.bytes = p ∧ (s.groupGroves p.group).map (fun e => (e.1, e.2.phase, e.2.gone)) = [(0, 0, [])] ∧
    (sget s.groves 0).isSome = true ∧ p.other < 2 ∧ (deviceWide []).packets.contains (remoteMember 1) = false := by decide +kernel
/-- A pair of formats that R177 does not list; rows that are not canonical and in the window; a tile that is filling, for a gather. -/
theorem test_hyp_copy_more :
    let base (lo hi : Word) (t : TileState) : State := tiled (scals at0 [(4, lo), (5, hi), (8, 64)]) (tile t)
    let rows (c : Ctx) (s : State) : List DWord := (List.range 2).map (fun i => c.sread2 s 4 + BitVec.ofNat 64 (i * (c.sread s 8).toNat))
    ¬ MayConvert false 0 (tile .empty) ∧ MayConvert false 8 (tile .empty) ∧ MayConvert true 9 (tile .ready) ∧
    (match (tiled (typed' 0) (tile .empty)).issuing with
      | none => false
      | some c => ((tiled (typed' 0) (tile .empty)).tileOf c.W 5 == some (tile .empty)) && decide (c.G.hints.length = 1) &&
          (stallEnd c 0).isNone) = true ∧
    holds (base 0 0x0F000000 .empty) (copySig false false 5 4 (.s 8 1)) (fun c s =>
      (rows c s).all (fun a => a.toNat % 16 == 0) && (rows c s).any (fun a => !(canonical a))) = true ∧
    holds (base 0 0xFFFE0000 .empty) (copySig false false 5 4 (.s 8 1)) (fun c s =>
      (rows c s).all (fun a => a.toNat % 16 == 0 && canonical a) && (rows c s).any inWindow) = true ∧
    Accepts (tile .filling) false true ∧ ¬ Accepts (tile .filling) false false := by
  refine ⟨?_, ?_, ?_, by decide +kernel, by decide +kernel, by decide +kernel, ?_, ?_⟩ <;> simp [MayConvert, Accepts, tile]
/-- A fill's row read at its landing, on this device, and a row of MSTORE with its values; no link and no halt entry in the way. -/
theorem test_hyp_landings :
    let s : State := copying { command false with source := [] }
    let v : State := copying { command false with source := [], values := [(0, List.replicate 16 7)] }
    (match s.rowNow 6 { command false with source := [] } 0 0x40000 with
      | .go l => l.all (fun p => !p.2.1 && s.partReady 6 0 p) && !(s.partsWait (command false).party (s.cmdCtx (command false)) false 6 l)
      | _ => false) = true ∧
    (∃ t B, Doing s 6 0 { command false with source := [] } 0x40000 t B) ∧
    (∃ t B, Doing v 6 0 { command false with source := [], values := [(0, List.replicate 16 7)] } 0x40000 t B) ∧
    Here (copying (command true)) 0 ∧ (copying (command true)).regq = [] ∧ (copying (command true)).requests = [] ∧
    (copying (command true)).poisoned (coreKey 0 0) 64 = false :=
  ⟨by decide +kernel, ⟨_, _, rfl, rfl, rfl, rfl, rfl⟩, ⟨_, _, rfl, rfl, rfl, rfl, rfl⟩,
    fun W h => ⟨by rw [← Option.some.inj h]; rfl, by rw [← Option.some.inj h]; rfl⟩, rfl, rfl, by decide +kernel⟩
/-- A row of zeros of two groups, in memory and in planes, and of a bank. -/
theorem test_hyp_rowValues : (List.replicate (memRowBytes 16 32) (0 : Byte)).length = memRowBytes 16 32 ∧
    (List.replicate (rowBytes 16 true 32) (0 : Byte)).length = rowBytes 16 true 32 ∧ 32 % 16 = 0 ∧ 32 % 32 = 0 ∧
    (List.replicate (tile .ready).k (0 : Word)).length = (tile .ready).k ∧ (tile .ready).k % 16 = 0 := by decide
/-- A property of what an option may hold. -/
theorem of_all {α : Type} {o : Option α} {p : α → Bool} (h : o.all p = true) : ∀ d, o = some d → p d = true := by
  rintro d rfl
  exact h
/-- An MZERO of the placed block, whose team has the warp's record and the shape given. -/
def zeroes (s : State) : Option Ctx := s.passes (fun c _ => mtxSig 0 (decide (0 ≤ 7)) c)
/-- A team of one warp comes to its next collective: its arrival is the last. -/
theorem test_hyp_last : ∃ c, zeroes (shaped at0) = some c ∧ Last c (shaped at0) { b := 0, t := 0, core := 0, members := [0] } 1 ∧
    Alike (shaped at0) { b := 0, t := 0, core := 0, members := [0] } 1 [6, 0, 0, 0] ∧
    Shaped (shaped at0) { b := 0, t := 0, core := 0, members := [0] } 0 [(0, 0, 0), (1, 1, 0), (2, 0, 1), (3, 1, 1)] := by
  have ha : ((shaped at0).team 0 0).arrivals = [] := by decide +kernel
  refine ⟨_, rfl, ⟨by decide +kernel, by decide +kernel, .inr ⟨nofun, nofun, by decide +kernel, ?_⟩, by decide +kernel, ?_, ?_⟩, ?_, ⟨3, by decide +kernel, by decide +kernel⟩⟩
  · rw [ha]
    nofun
  · rw [ha]
    nofun
  · rw [ha]
    exact List.nodup_nil
  · intro a h
    rw [ha] at h
    cases h
/-- A team of two warps, of which the other has arrived with the fields given. -/
def duo (fields : List Nat) (other : Warp → Warp) : State :=
  let s := at0.modBlock 0 (fun B => { B with
    members := [0, 1], desc := { B.desc with team := 2 }
    teams := [(0, { Team.start with arrivals := [{ k := 1, index := 1, warp := 1, slices := 255, fields := fields }] })] })
  { s with warps := s.warps ++ s.warps.map (fun e => (1, other { e.2 with
    index := 1, arrivals := 1, gangs := [{ Gang.start 255 with pend := .team 1, wait := some 0 }] })) }
/-- That arrival. -/
def duoArrival (fields : List Nat) : Arrival := { k := 1, index := 1, warp := 1, slices := 255, fields := fields }
/-- The team. -/
def duoTeam : TeamCtx := { b := 0, t := 0, core := 0, members := [0, 1] }
/-- Warp 0's gang may come to its own first arrival. -/
def comes (c : Ctx) (s : State) : Bool := decide (teamCtx c s = some duoTeam) && decide (c.G.pend = .none) && decide (c.W.arrivals = 0) && decide (c.w = 0)
theorem duo_last (fields : List Nat) (c : Ctx) (_ : zeroes (duo fields id) = some c)
    (h : comes c (duo fields id) = true) (hp : ((duo fields id).team 0 0).performed = 0) (hw : (duo fields id).away 0 (duoArrival fields) = false)
    (hy : (gangOf (duo fields id) (duoArrival fields)).all (fun d => decide (teamCtx d (duo fields id) = some duoTeam)) = true) :
    Last c (duo fields id) duoTeam 1 := by
  have ha : ((duo fields id).team 0 0).arrivals = [duoArrival fields] := rfl
  simp only [comes, Bool.and_eq_true, decide_eq_true_eq] at h
  obtain ⟨⟨⟨h1, h2⟩, h3⟩, h4⟩ := h
  refine ⟨h1, ?_, .inr ⟨by rw [h2]; nofun, by rw [h2]; nofun, by rw [h3], ?_⟩, ?_, ?_, ?_⟩
  · show ((duo fields id).team 0 0).performed + 1 = 1
    rw [hp]
  · show ∀ a ∈ ((duo fields id).team 0 0).arrivals, _
    rw [ha, h4]
    intro a hm _
    rw [List.mem_singleton.mp hm]
    exact Nat.one_ne_zero
  · intro m hm hn
    rw [h4] at hn
    have : m = 1 := by
      simp only [duoTeam, List.mem_cons, List.not_mem_nil, or_false] at hm
      exact hm.resolve_left hn
    refine ⟨duoArrival fields, ?_, rfl, this.symm⟩
    show _ ∈ ((duo fields id).team 0 0).arrivals
    rw [ha]
    exact .head _
  · show ∀ a ∈ ((duo fields id).team 0 0).arrivals, _
    rw [ha, h4]
    intro a hm _
    rw [List.mem_singleton.mp hm]
    exact ⟨.tail _ (.head _), hw, fun d hd => of_decide_eq_true (of_all hy d hd)⟩
  · show (((duo fields id).team 0 0).arrivals.filter _ |>.map _).Nodup
    rw [ha]
    exact List.nodup_singleton _
/-- The last arrival of a team of two, with like fields and with others. -/
theorem test_hyp_lastOfTwo :
    (∃ c, zeroes (duo [6, 0, 0, 0] id) = some c ∧ Last c (duo [6, 0, 0, 0] id) duoTeam 1 ∧ Alike (duo [6, 0, 0, 0] id) duoTeam 1 [6, 0, 0, 0]) ∧
    ∃ c, zeroes (duo [6, 1, 0, 0] id) = some c ∧ Last c (duo [6, 1, 0, 0] id) duoTeam 1 ∧ ¬ Alike (duo [6, 1, 0, 0] id) duoTeam 1 [6, 0, 0, 0] := by
  refine ⟨⟨_, rfl, duo_last _ _ rfl (by decide +kernel) rfl (by decide +kernel) (by decide +kernel), ?_⟩,
    ⟨_, rfl, duo_last _ _ rfl (by decide +kernel) rfl (by decide +kernel) (by decide +kernel), ?_⟩⟩
  · intro a h _
    have ha : ((duo [6, 0, 0, 0] id).team 0 0).arrivals = [duoArrival [6, 0, 0, 0]] := rfl
    change a ∈ ((duo [6, 0, 0, 0] id).team 0 0).arrivals at h
    rw [ha, List.mem_singleton] at h
    rw [h]
    rfl
  · intro h
    exact absurd (h (duoArrival [6, 1, 0, 0]) (.head _) rfl) (by decide)
/-- A member that has not arrived, running and ended; a warp that holds a trap for later; a first warp with all its registers full. -/
theorem test_hyp_missing :
    let x : TeamCtx := { b := 0, t := 0, core := 0, members := [0, 1] }
    let bare (s : State) : State := teamed s id
    (∃ c, zeroes (bare (duo [] id)) = some c ∧ teamCtx c (bare (duo [] id)) = some x ∧ c.W.arrivals = 0) ∧
    ((bare (duo [] id)).team 0 0).arrivals = [] ∧ (sget (bare (duo [] id)).warps 1).map (·.ended) = some false ∧
    (sget (bare (duo [] (fun W => { W with ended := true }))).warps 1).map (·.ended) = some true ∧
    ((gang (fun g => { g with pend := .caught 0x10 0 })).passes (fun c _ => mtxSig 0 (decide (0 ≤ 7)) c)).isSome = true ∧
    (∃ L, Lead at0 { b := 0, t := 0, core := 0, members := [0] } L) :=
  ⟨⟨_, rfl, by decide +kernel, by decide +kernel⟩, rfl, by decide +kernel, by decide +kernel, by decide +kernel,
    ⟨_, 0, rfl, rfl, rfl⟩⟩
/-- The causes of R269: no shape; a bank of another base; with both, a tile that MLOADW may latch and one that it may not. -/
theorem test_hyp_causes :
    let x : TeamCtx := { b := 0, t := 0, core := 0, members := [0] }
    let sh : List (Nat × Nat × Nat) := [(0, 0, 0), (1, 1, 0), (2, 0, 1), (3, 1, 1)]
    Causes at0 x (some 0) (Trap.of 0x16 1) (fun _ => False) ∧ Causes (shaped at0) x (some 2) (Trap.of 0x16 2) (fun _ => False) ∧
    Shaped (shaped at0) x 0 sh ∧ Loadable x sh false 15 plane ∧ ¬ Loadable x sh false 15 { plane with k := 192 } ∧
    Faulty 5 { plane with fault := true } (Trap.of 0x12 5) := by
  refine ⟨.inl ⟨by decide +kernel, rfl⟩, .inr ⟨0, _, ⟨3, by decide +kernel, rfl⟩, .inl ⟨2, rfl, by decide, rfl⟩⟩, ⟨3, by decide +kernel, by decide⟩,
    ?_, ?_, rfl, rfl⟩ <;> simp only [Loadable] <;> decide

/-! ### Hypotheses: trees and groves, more -/

theorem keyOf_local (n x : Nat) (h : n < 2) : isRemote (keyOf n x) = false := by
  have h2 : spaceOf (keyOf n x) = n := by
    unfold spaceOf keyOf
    omega
  unfold isRemote
  rw [h2, decide_eq_false (by omega)]
  rfl
/-- A context with no page of another device in its caches and a root table that no memory holds has none. -/
theorem local_of (s : State) (ctx : Nat) (ht : ∀ t ∈ s.tlb, t.tgt < 2)
    (hp : ∀ i, i < 512 → s.devAddr (ctxFn ctx) ((s.context ctx).ptroot.toNat + 8 * i) = none) : Local s ctx := by
  intro va acc key o h
  unfold State.xlate at h
  split at h
  · cases h
  · rename_i t hl
    have hm : t ∈ s.tlb := by
      unfold State.lookup at hl
      split at hl
      · rename_i u hc
        cases hl
        exact List.mem_of_find?_eq_some hc
      · rw [State.walk, hp _ (Nat.mod_lt _ (by decide))] at hl
        cases hl
    have hlt := ht t hm
    split at h
    · cases h
    · obtain h0 | h0 : t.tgt = 0 ∨ t.tgt = 1 := by omega
      · simp only [h0] at h
        split at h
        · split at h
          · cases h
            exact keyOf_local 0 _ (by decide)
          · cases h
        · cases h
      · simp only [h0] at h
        split at h
        · cases h
        · split at h
          · cases h
          · split at h
            · cases h
            · cases h
              exact keyOf_local 1 _ (by decide)
/-- The accepted record again, its context's root table where there is no memory: no page lies in another device's. -/
theorem test_hyp_local :
    let s := accepted.setContext 0 { accepted.context 0 with ptroot := 0x4000000000000000 }
    Local s 0 ∧ (match s.verdict (.submission 6) 0 0x40000 with
      | .live G => G.mode == 1
      | _ => false) = true := by
  refine ⟨local_of _ _ (by decide +kernel) (by decide +kernel), by decide +kernel⟩
/-- Acceptance refused at its address: misaligned, or not there. -/
theorem test_hyp_refused : (0x40010 : DWord).toNat % 256 ≠ 0 ∧ (submitted []).probe (.submission 6) 0 0x200000 256 .read = .bad ∧
    ({ submitted [] with freeze := some (1, 1) } : State).freeze ≠ none := by decide +kernel
/-- With no lane active, and outside a block, tree instructions pass their checks. -/
theorem test_hyp_treeIdle :
    let lane : HintSet → Sig := fun _ => { Sig.plain with guard := true, srcs := [(.v 8 1, some 1)], dsts := [.v 4 1], legal := true }
    holds (fewLanes at0 0) (hinted lane) (fun c _ => c.act == 0) = true ∧
    holds (at0.modWarp 0 (fun W => { W with block := none })) (hinted lane) (fun c s => c.act != 0 && (s.place c.W).isNone) = true ∧
    (gang (fun g => { g with pend := .lanes 3 })).warps ≠ [] := by decide +kernel
/-- The causes of tree-usage traps, one witness each: a node beyond the array, a mode without a phase, positions beyond the children and
beyond the words, areas too small, a grant already taken, children already there. -/
theorem test_hyp_treeCauses :
    let at' (s : State) (f : Ctx → Grove → Block → Bool) : Bool := holds s (fun _ _ => Sig.plain) (fun c s => match s.place c.W with
      | some (B, G) => c.act != 0 && f c G B
      | none => false)
    at' (vecs at0 [(8, fun _ => 7)]) (fun c G _ => decide (G.capacity ≤ (c.W.vget 8 0).toNat)) = true ∧
    at' (grove at0 (fun G => { G with mode := 5 })) (fun _ G _ => decide (G.mode = 5) && !G.upward && !G.downward) = true ∧
    at' (grove at0 (fun G => { G with mode := 1, yieldBytes := 4 })) (fun _ G B => G.upward && decide (G.yieldBytes < 4 * 2) &&
      decide ((grove at0 (fun G => { G with mode := 1, yieldBytes := 4 })).nodeNum G B.node 0x0C 2 ≤ 7)) = true ∧
    at' (grove at0 (fun G => { G with mode := 2, handBytes := 4 })) (fun _ G _ => G.downward && decide (G.handBytes < 4 * 2) && decide (15 < 2 + 14)) = true ∧
    at' ((grove at0 (fun G => { G with mode := 1, yieldBytes := 8 })).modBlock 0 (fun B => { B with yielded := true })) (fun c G B =>
      G.upward && B.yielded && c.W.block == some 0) = true ∧
    at' (poke (grove at0 (fun G => { G with mode := 2 })) [(0xA00C, 2, 1)]) (fun _ G B => G.downward &&
      decide ((poke (grove at0 (fun G => { G with mode := 2 })) [(0xA00C, 2, 1)]).nodeNum G B.node 0x0C 2 ≠ 0)) = true := by decide +kernel
/-- What NODEALLOC and TREEGROW read and write is reached, and the bytes of a word of the grove's record lie at home. -/
theorem test_hyp_nodeWords :
    let s := poke (grove at0 (fun G => { G with mode := 2, capacity := 8, depth := 2, maxChildren := 4 })) [(0x9014, 4, 2), (0xA040, 2, 0xFFFF)]
    holds s (fun _ _ => Sig.plain) (fun c s => match sget s.groves 0 with
      | some G => hard s c ((G.addr + 0x14) :: (List.range' 2 3).map (fun i => G.nodes + 64 * BitVec.ofNat 64 i + 0x14)) &&
          hard (s.writeBack 0) c ((G.addr + 0x14) :: G.nodes :: (List.range' 1 1).map (fun i => G.nodes + 64 * BitVec.ofNat 64 i)) &&
          ((s.hwCells 0 (G.addr + 0x14) [1, 2, 3, 4]).any (fun l => l.all (fun e => !(isRemote e.1)) && l.length == 4))
      | none => false) = true := by decide +kernel
/-- A node with an inbox and one without; a hand area of two slots. -/
theorem test_hyp_slots :
    let p : TrailNode := { entered with inbox := some { off := 64, size := 64 } }
    let s : State := { at0 with trails := [(4, trail p)] }
    (∃ T, (4, T) ∈ s.trails ∧ T.grove = 0 ∧ p ∈ T.path ∧ p.node = 0 ∧ p.inbox = some { off := 64, size := 64 } ∧
      ∀ U q, (∃ t, (t, U) ∈ s.trails) → U.grove = 0 → q ∈ U.path → q.node = 0 → U.core = T.core ∧ q.inbox = p.inbox) ∧
    (∀ U q, (∃ t, (t, U) ∈ s.trails) → U.grove = 0 → q ∈ U.path → q.node ≠ 7) ∧
    sget ((sget (grove at0 (fun G => { G with areas := [(0, 0, { off := 0, size := 64 }, 2)] })).groves 0).map (·.areas) |>.getD []) 0 =
      some (0, { off := 0, size := 64 }, 2) := by
  refine ⟨⟨_, .head _, rfl, .head _, rfl, rfl, ?_⟩, ?_, by decide +kernel⟩
  · rintro U q ⟨t, ht⟩ _ hq _
    rw [List.mem_singleton] at ht
    cases ht
    rw [show q = _ from List.mem_singleton.mp hq]
    exact ⟨rfl, rfl⟩
  · rintro U q ⟨t, ht⟩ _ hq
    rw [List.mem_singleton] at ht
    cases ht
    rw [show q = _ from List.mem_singleton.mp hq]
    decide
/-- A trail on the core, alone: last of the reserve line; a second, not last; cores in order and few nodes; a core that may start work. -/
theorem test_hyp_line :
    let s : State := { pending 0 with trails := [(4, trail entered), (5, { trail { entered with node := 1 } with age := 1 })] }
    (s.trails.map (·.1)).Nodup ∧ TrailOn s 0 0 (4, trail entered) ∧
    (sget s.groves 0).map (fun G => (s.line 0 G 0).map (·.1)) = some [4] ∧
    (sget s.groves 0).map (fun G => decide (G.cores.Pairwise (· < ·)) && decide (∀ x ∈ G.subtrees, x.node < 2 ^ 32)) = some true ∧
    (sget s.groves 0).map (fun G => G.begun && decide (G.status = .running) && !G.lost && G.cores.contains 0 && s.runsOn G.ctx 0 &&
      !(s.faultHalts 0 G)) = some true ∧
    ((sget at0.groves 0).map (fun G => (({ at0 with trails := [] } : State).line 0 G 0).map (·.1))) = some [] := by
  refine ⟨by decide, ⟨.head _, rfl, rfl⟩, by decide +kernel, by decide +kernel, by decide +kernel, by decide +kernel⟩

/-! ### Hypotheses: spawn and capsules, more -/

/-- A SPAWN whose kernel number is beyond the grove's, one whose counter is aligned, and no request of its lanes. -/
theorem test_hyp_spawn_more :
    let s := fewLanes (spawning at0) 3
    holds (scals s [(3, 7)]) (hinted (spawnOf false)) (fun c s => match sget s.groves c.W.grove with
      | none => false
      | some G => decide (G.kernelCount ≤ (c.sread s 3).toNat)) = true ∧
    holds (vecs s [(12, fun _ => 0x40000), (13, fun _ => 0)]) (hinted (spawnOf true)) (fun c s =>
      (issueFault s c false 8 8 (laneAddrs c (fun lane => c.W.vget2 12 lane))).isNone && s.writable c.W.core && !(s.storesOut c.w c.G.slices) &&
        !(s.drainsOut c.w c.G.slices) && s.requests.isEmpty && decide (c.G.pend = .none)) = true ∧
    at0.saplingsOn 0 = [] ∧ (at0.seedbed 0).length < 4096 := by decide +kernel
/-- A JOINWAIT that finds its counter nonzero while register writes are on their way; a JOINADD with no lane active. -/
theorem test_hyp_join_more :
    let sig : HintSet → Sig := fun _ => { Sig.plain with srcs := [(.s 4 2, some 0)] }
    let s : State := { poke (scals at0 [(4, 0x40000)]) [(0x40000, 8, 3)] with inflight := [(5, aLoad)] }
    holds s (hinted sig) (fun c s => s.outstanding c.w && s.num 0x40000 8 == 3) = true ∧
    holds (fewLanes at0 0) (hinted (fun _ => { Sig.plain with srcs := [(.s 4 2, some 0), (.s 8 1, some 1)] })) (fun c _ => c.act == 0) = true := by
  decide +kernel
/-- A warp parked on its only gang's counter, which is zero and which is not. -/
theorem test_hyp_wake :
    let s (n : Nat) : State := poke ((gang (fun g => { g with pend := .join 0x40000 false })).modWarp 0 (fun W => { W with residency := .parked false 1 }))
      [(0x40000, 8, n)]
    let ok (n : Nat) : Bool := match sget (s n).warps 0 with
      | none => false
      | some W => match W.gangs with
        | [g] => decide (g.pend = .join 0x40000 false) && decide (W.gangAt (lowSlice g.slices) = some g) && ((s n).onceOf 0 (W.groupPc g) 0).isNone &&
            decide ((s n).xlateFor W.ctx W.core (some 0) (vaOf 0x40000) .read = .go 0x40000 false) && W.joining
        | _ => false
    ok 0 = true ∧ ok 3 = true ∧ (s 0).num 0x40000 8 = 0 ∧ (s 3).num 0x40000 8 = 3 ∧ isRemote 0x40000 = false ∧
    (s 0).poisoned 0x40000 8 = false := by decide +kernel
/-- An exited sapling whose counter lies on an ordered page, with no earlier ordered access of its core. -/
theorem test_hyp_exit_ordered :
    let s : State := ordered { sapling with exits := [(20, { warp := 0, grove := 0, ctx := 0, join := some 0x40000 })] }
    s.onOrdered 0 0x40000 = true ∧ s.orderedGang 0 0 0 = false ∧ s.orderedRows 0 20 = false ∧ s.orderedAway 0 = false ∧
    s.xlateFor 0 0 none (vaOf 0x40000) .hard = .go 0x40000 true := by decide +kernel

/-- The CAPBEGIN of v16 and the address pair v40. -/
def capSig : HintSet → Sig := fun _ => { Sig.plain with srcs := [(.v 16 16, some 0), (.v 40 2, some 1)], body := .own }
/-- Lane 0 alone at the record at 0x40000, whose memory is given. -/
def beginning (l : List (Nat × Nat × Nat)) : State := poke (lanesFrom (fewLanes at0 1) 40 0x40000 0) l
/-- The record lies on a plain page of the device. -/
abbrev Plainly (s : State) (c : Ctx) : Prop :=
  s.onOrdered c.W.ctx 0x40000 = false ∧ s.xlateFor c.W.ctx c.W.core (some c.w) (vaOf 0x40000) .both = .go 0x40000 false ∧
    laneAccess s c .both 128 0x40000 = .go ((List.range 128).map (fun i => .mem (0x40000 + i) false))
/-- That lane reaches the record. -/
theorem record_at (s : State) (c : Ctx) (h : s.requests = []) (hx : Plainly s c) : RecordAt c s 0x40000 0x40000 := by
  refine ⟨fun ho => absurd ho (by rw [hx.1]; decide), by decide, fun e he => ?_, ⟨_, hx.2.1⟩, _, hx.2.2⟩
  rw [h] at he
  cases he
theorem test_hyp_acquired : ∃ c, (beginning []).passes (hinted capSig) = some c ∧ lanesOf c.base = [0] ∧
    RecordAt c (beginning []) (c.W.vget2 40 0) 0x40000 ∧ (∃ t, Acquired c 16 40 (lanesOf c.base) (beginning []) t) ∧
    (atRecord c (beginning []) 0x40000).num 0x40003 1 = 0 ∧ acquiredHere c (beginning []) 40 0 = false ∧
    (beginning []).regq = [] ∧ sget (beginning []).warps c.w = some c.W := by
  have ha (c : Ctx) (hv : c.W.vget2 40 0 = 0x40000) (hx : Plainly (beginning []) c) : RecordAt c (beginning []) (c.W.vget2 40 0) 0x40000 := by
    rw [hv]
    exact record_at _ _ rfl hx
  refine ⟨_, rfl, by decide +kernel, ha _ (by decide +kernel) (by decide +kernel), ?_, by decide +kernel, by decide +kernel, rfl, by decide +kernel⟩
  have hl : ∀ c : Ctx, lanesOf c.base = [0] → acquiredHere c (beginning []) 40 0 = false → RecordAt c (beginning []) (c.W.vget2 40 0) 0x40000 →
      (atRecord c (beginning []) 0x40000).num 0x40003 1 = 0 → ∃ t, Acquired c 16 40 (lanesOf c.base) (beginning []) t := by
    intro c h1 h2 h3 h4
    rw [h1]
    exact ⟨_, by
      rw [Acquired, if_neg (by rw [h2]; decide)]
      exact ⟨0x40000, h3, h4, rfl⟩⟩
  exact hl _ (by decide +kernel) (by decide +kernel) (ha _ (by decide +kernel) (by decide +kernel)) (by decide +kernel)
/-- CAPBEGIN without permission, by a lane in a capsule, of one record twice; of a record that is broken, that is away and may be adopted,
and that another holds. -/
theorem test_hyp_capBegins :
    let identity : Nat × Nat × Nat := (0x40050, 8, ((beginning []).ctxNum 0) * 2 ^ 32)
    holds ((beginning []).modWarp 0 (fun W => { W with capsules := false })) (hinted capSig) (fun c _ => !c.W.capsules) = true ∧
    holds ((beginning []).modWarp 0 (fun W => { W with caps := [(0, { CapLane.none with inside := true, record := 0x50000 })] })) (hinted capSig) (fun c s =>
      (c.W.cap 0).inside && !(acquiredHere c s 40 0)) = true ∧
    holds (vecs (fewLanes at0 3) [(40, fun _ => 0x40000), (41, fun _ => 0)]) (hinted capSig) (fun c _ =>
      !(decide (((lanesOf c.base).map (fun lane => c.W.vget2 40 lane)).Nodup))) = true ∧
    (beginning [(0x40003, 1, 5)]).num 0x40003 1 = 5 ∧ (beginning [(0x40003, 1, 1)]).num 0x40003 1 = 1 ∧
    holds (beginning [(0x40003, 1, 2), (0x4000C, 4, 0), identity]) (hinted capSig) (fun c s =>
      s.num 0x40003 1 == 2 && decide (field (s.num 0x4000C 4) 23 3 * 16 + 15 < c.W.window) && c.W.kFull 0 0 &&
        s.num 0x40050 8 / 2 ^ 32 == (((sget s.groves c.W.grove).map (·.slot)).getD 0 * 2 ^ 56 + s.ctxNum c.W.ctx * 2 ^ 32) / 2 ^ 32) = true ∧
    ((sget at0.warps 0).map (fun W => W.slices.length)) = some 8 := by decide +kernel
/-- A lane with its adopted mark and slot; one that runs an adopted body; a record held under another token, and one in adoption. -/
theorem test_hyp_ends :
    let mark : State := (held 1).modWarp 0 (fun W => { W with caps := W.caps.map (fun e =>
      (e.1, { e.2 with result := some (List.replicate 16 7, 0, 2) })) })
    let b : AdoptBuffer := { lane := 0, slices := 255, pc := 0x10000, actives := List.replicate 8 15, preds := 0, regs := List.replicate 16 0, base := 16, acquired := 0 }
    let runs (tok : Nat) : State := poke ((held 3).modWarp 0 (fun W => { W with
      caps := W.caps.map (fun e => (e.1, { e.2 with adopting := true })), adopts := [b] })) [(0x40060, 4, tok)]
    holds mark (hinted (fun _ => { Sig.plain with body := .free })) (fun c s => (s.capOf c.w 0).result.isSome && !(s.capOf c.w 0).adopting && c.settled s 0 &&
      s.writable c.W.core) = true ∧
    (runs 1).num 0x40003 1 = 3 ∧ (runs 1).num 0x40060 4 = 1 ∧ (runs 2).num 0x40060 4 = 2 ∧
    holds (runs 1) (hinted (fun _ => { Sig.plain with body := .free })) (fun c s => decide (c.W.adoption c.G.slices = some b) && (c.W.cap 0).adopting &&
      c.settled s 0 && c.W.gangs.any (fun g => g.slices &&& b.slices != 0)) = true ∧
    (held 2).num 0x40003 1 ≠ 1 := by decide +kernel
/-- The lane's record is reached while it is held. -/
theorem test_hyp_heldRecord : ∃ c, (held 1).passes (hinted (fun _ => { Sig.plain with body := .free })) = some c ∧ c.capLanes = [0] ∧
    RecordAt c (held 1) 0x40000 0x40000 :=
  ⟨_, rfl, by decide +kernel, record_at _ _ rfl (by decide +kernel)⟩

/-! ### Hypotheses: bodies, steps and branches, more -/

/-- Lane 0 alone holds the record at 0x40000, its body begun at an address. -/
def bodied (entry : DWord) (f : CapLane → CapLane) : State :=
  (fewLanes (held 1) 1).modWarp 0 (fun W => { W with caps := W.caps.map (fun e => (e.1, f { e.2 with entry := entry })) })
/-- The gang stands in a body, as InBody asks, and what follows is true of it. -/
def body (s : State) (sig : HintSet → Sig) (f : Ctx → Bool) : Bool :=
  match s.issuing with
  | none => false
  | some c0 =>
    let c := c0.guarded (hinted sig c0 s)
    (stallEnd c s.time).isNone && (front c (hinted sig c0 s)).isNone && ready c (hinted sig c0 s) && !(s.acquiring c) && !c.capLanes.isEmpty && f c
theorem in_body (s : State) (sig : HintSet → Sig) (f : Ctx → Bool) (h : body s sig f = true) : ∃ c, InBody s (hinted sig) c ∧ f c = true := by
  unfold body at h
  split at h
  · cases h
  · rename_i c0 h0
    simp only [Bool.and_eq_true, Bool.not_eq_true', Option.isNone_iff_eq_none, List.isEmpty_eq_false_iff] at h
    exact ⟨_, ⟨c0, h0, rfl, h.1.1.1.1.1, h.1.1.1.1.2, h.1.1.1.2, h.1.1.2, h.1.2⟩, h.2⟩
/-- In a body: within its 64 words with a register off the window, and past them. -/
theorem test_hyp_inBody : (∃ c, InBody (bodied 0x10000 id) (hinted (intSig 0 0 4 8 (.v 13))) c ∧ ((∀ lane ∈ c.capLanes, bodyOffset c lane ≤ 63) ∧
      ∃ lane ∈ c.capLanes, ¬ ((c.W.cap lane).kbase ≤ 4))) ∧
    ∃ c, InBody (bodied 0xFF00 id) (hinted (intSig 0 0 16 17 (.v 18))) c ∧ ∀ lane ∈ c.capLanes, 63 < bodyOffset c lane := by
  constructor
  · obtain ⟨c, h, hf⟩ := in_body (bodied 0x10000 id) (intSig 0 0 4 8 (.v 13)) (fun c => decide ((∀ lane ∈ c.capLanes, bodyOffset c lane ≤ 63) ∧
      ∃ lane ∈ c.capLanes, ¬ ((c.W.cap lane).kbase ≤ 4))) (by decide +kernel)
    exact ⟨c, h, of_decide_eq_true hf⟩
  · obtain ⟨c, h, hf⟩ := in_body (bodied 0xFF00 id) (intSig 0 0 16 17 (.v 18)) (fun c => decide (∀ lane ∈ c.capLanes, 63 < bodyOffset c lane))
      (by decide +kernel)
    exact ⟨c, h, of_decide_eq_true hf⟩
/-- Instructions that may not stand in a body, and a branch back in it. -/
theorem test_hyp_outside : ([intSig 0 0 16 17 (.s 4), laneSig 0 16 17 18, fun _ => Sig.plain, fun _ => { Sig.plain with imms := 2, body := .free },
    fun h => branchSig true (if decide (1 ≤ immInt (0 : BitVec 22) h.imms) then .free else .back)].all (fun g => body (bodied 0x10000 id) g (fun c =>
      c.capLanes.all (fun lane => decide (bodyOffset c lane ≤ 63))))) = true := by decide +kernel
/-- A lane's 17th step, an access off its record's page, and one that reaches into its record. -/
theorem test_hyp_bodyAccess :
    let quiet (s : State) (c : Ctx) : Bool := (List.range 32).all (fun lane => !(s.stepOut c.w lane) && decide ((c.W.cap lane).reply = none)) &&
      c.doneLanes == 0 && !(c.W.inHandler c.j)
    let bad (s : State) (w a : Nat) : Bool := holds s (hinted (storeSig 0 16 w a)) (fun c s => quiet s c && decide (lanesOf c.act = [0]))
    let at' (a : Word) : State := lanesFrom (bodied 0x10000 id) 18 a 0
    bad (at' 0x40100) 1 18 = true ∧ bad (at' 0x50000) 1 18 = true ∧ bad (at' 0x40040) 1 18 = true ∧
    accessCause { CapLane.none with record := 0x40000, step := 16 } true 4 0x40100 = some 5 ∧
    accessCause { CapLane.none with record := 0x40000 } true 4 0x50000 = some 6 ∧
    accessCause { CapLane.none with record := 0x40000 } true 4 0x40040 = some 6 ∧
    accessCause { CapLane.none with record := 0x40000 } true 4 0x40100 = none := by decide +kernel
/-- The buffer of an adopter, lane 0's. -/
def buffer : AdoptBuffer :=
  { lane := 0, slices := 255, pc := 0x10000, actives := List.replicate 8 15, preds := 0, regs := List.replicate 16 0, base := 16, acquired := 0 }
/-- Lane 0 runs an adopted body under a token. -/
def adopting (tok : Nat) : State := poke ((held 3).modWarp 0 (fun W => { W with
  caps := W.caps.map (fun e => (e.1, { e.2 with adopting := true })), adopts := [buffer] })) [(0x40060, 4, tok)]
/-- A violation in an adopted body, whose record is at home. -/
theorem test_hyp_violation :
    (match (adopting 1).issuing with
      | none => false
      | some c => decide (c.W.adoption c.G.slices = some buffer) && decide (sget (adopting 1).warps c.w = some c.W) &&
          (match sget c.W.caps 0 with
            | some x => decide ((adopting 1).xlateFor c.W.ctx c.W.core (some c.w) (vaOf x.record) .both = .go 0x40000 false)
            | none => false) &&
          c.W.gangs.any (fun g => g.slices &&& buffer.slices != 0) && c.W.kFull 16 0 && c.W.slices.length == 8) = true ∧
    (match at0.issuing with
      | none => false
      | some c => decide (c.W.adoption c.G.slices = none)) = true := by decide +kernel
/-- A store of lane 0's body: its address, its record and its registers stand. -/
theorem test_hyp_step_sent : holds (lanesFrom (bodied 0x10000 id) 18 0x40100 0) (hinted (storeSig 0 16 1 18)) (fun c s =>
    decide (lanesOf c.act = [0]) && c.inCapsule 0 && !(c.doneLanes.getLsbD 0) && !(s.storesOut c.w c.G.slices) && !(s.drainsOut c.w c.G.slices) &&
      s.writable c.W.core && decide (vaddr c 18 (0 : BitVec 8) 4 0 = 0x40100) && decide (accessCause (c.W.cap 0) true 4 0x40100 = none) &&
      !(s.onOrdered c.W.ctx 0x40100) && decide (laneAccess s c .write 4 0x40100 = .go ((List.range 4).map (fun j => .mem (0x40100 + j) false))) &&
      decide (s.hwKey c.W.ctx 0x40100 .hard = some 0x40100) && decide (s.recordKey c.W.ctx (c.W.cap 0).record = some 0x40000)) = true := by
  decide +kernel
/-- What a lane's step finds: an answer of each kind, none, and its mark. -/
theorem test_hyp_stepLane :
    let ok (s : State) (f : CapLane → Bool) : Bool := match s.issuing with
      | none => false
      | some c => !(s.stepOut c.w 0) && c.settled s 0 && c.W.slices.length == 8 && decide (sget s.warps c.w = some c.W) && f (c.W.cap 0) &&
          s.requests.isEmpty
    let reply (r : Option Bool) : State := bodied 0x10000 (fun x => { x with reply := r })
    ok (reply none) (fun x => x.reply.isNone && x.result.isNone && !x.adopting) = true ∧
    ok (reply (some true)) (fun x => x.reply == some true) = true ∧
    ok (reply (some false)) (fun x => x.reply == some false && x.result.isNone && !x.adopting) = true ∧
    ok (bodied 0x10000 (fun x => { x with result := some (List.replicate 16 7, 0, 2) })) (fun x => x.result.isSome && x.reply.isNone && !x.adopting) = true ∧
    ok ((adopting 1).modWarp 0 (fun W => { W with caps := W.caps.map (fun e => (e.1, { e.2 with reply := some false })) }))
      (fun x => x.reply == some false && x.adopting) = true ∧
    (match (({ held 1 with steps := [(30, aStep 0)] } : State)).issuing with
      | none => false
      | some c => State.stepOut { held 1 with steps := [(30, aStep 0)] } c.w 0) = true := by decide +kernel
/-- Two lanes of one gang have a step out: the lower commits first; the step that is its record's next has its 16 registers. -/
theorem test_hyp_step_order :
    let s : State := { held 1 with steps := [(30, aStep 0), (31, { aStep 0 with lane := 5, record := 0x40080 })] }
    (s.steps.find? (fun e => e.2.warp == 0 && e.2.lane == 5)) = some (31, { aStep 0 with lane := 5, record := 0x40080 }) ∧
    (match sget s.warps 0 with
      | none => false
      | some W => match W.gangAt (5 / 4) with
        | some g => g.slices.getLsbD (0 / 4)
        | none => false) = true ∧
    (aStep 0).expect < 16 ∧ (aStep 0).regs.length = 16 ∧ isRemote (aStep 0).record = false ∧ isRemote (aStep 0).key = false ∧
    (aStep 0).record + 128 ≤ (aStep 0).key ∧ (∀ e ∈ s.steps, e.2.warp = 0 → 0 ≤ e.2.lane) ∧ s.regq = [] ∧ s.held = [] := by decide
/-- The one record of the warp is at its home, in a STATE that away or back changes; and a page of the host that is no longer translated. -/
theorem test_hyp_records_here : ∃ W, sget (held 1).warps 0 = some W ∧ RecordsHere (held 1) 0 W (fun lane => 0x40000 + 128 * lane) ∧
    markedFrom (held 1) (W.cap 0) 0x40000 1 = true ∧ markedFrom (held 2) (W.cap 0) 0x40000 2 = true ∧ (held 1).engineRuns W.ctx = true := by
  refine ⟨_, rfl, ?_, by decide +kernel, by decide +kernel, by decide +kernel⟩
  have hin : ∀ k, k < 32 → k ≠ 0 → (({ at0 with mem := (held 1).mem } : State).capOf 0 k).inside = false := by decide +kernel
  intro lane hl hi
  by_cases h0 : lane = 0
  · subst h0
    refine ⟨by decide, by decide, by decide +kernel, ⟨false, by decide +kernel⟩, ?_⟩
    intro k _ hne _
    show 0x40000 + 128 * k ≠ 0x40000 + 128 * 0
    omega
  · exact absurd hi (by
      interval_cases lane <;> first | exact absurd rfl h0 | decide +kernel)
/-- The record's page is the host's and no longer translated: the engine asks for it. -/
theorem test_hyp_record_stall :
    let s : State := { held 1 with tlb := (held 1).tlb.map (fun t => { t with tgt := 1 }) }
    (match sget s.warps 0 with
      | none => false
      | some W => (match s.xlateFor W.ctx W.core (some 0) (vaOf (W.cap 0).record) .both with
          | .stall _ => true
          | _ => false) && (W.cap 0).inside && (List.range 32).all (fun k => k == 0 || !(W.cap k).inside)) = true := by decide +kernel
/-- Acknowledgements: of one that frees nothing, and of one that frees a record of the physical function's context. -/
theorem test_hyp_acknowledged :
    let d (free : Bool) : Delivery := { record := 0x40000, ctx := 0, va := 0x40000, holder := none, regs := [], preds := 0, status := 1, acked := true, frees := free }
    let s (free : Bool) : State := { held 3 with deliveries := [(31, d free)] }
    (s true).engineRuns 0 = true ∧ (s false).engineRuns 0 = true ∧ (d false).frees = false ∧ (d true).frees = true ∧ ctxFn (d true).ctx = 0 ∧
    sget (s true).deliveries 31 = some (d true) := by decide
/-- CALLs at a depth of 32, below it, and not made; RETs with no return, and with one that is misaligned. -/
theorem test_hyp_calls_more :
    holds (slices (fun x => { x with rets := List.replicate 32 0x10000 })) (hinted (fun _ => { Sig.plain with imms := 2 })) (fun c _ =>
      (c.W.slice 0).rets.length == 32) = true ∧
    holds (slices (fun x => { x with rets := [0x10006] })) (hinted (fun _ => Sig.plain)) (fun c _ =>
      ((c.W.slice 0).rets.head?).any (fun a => a.toNat % 4 != 0) && c.G.slices.getLsbD 0) = true ∧
    holds at0 (hinted (fun _ => Sig.plain)) (fun c _ => (c.W.slice 0).rets.isEmpty && c.G.slices.getLsbD 0) = true := by decide
/-- A vector BRX that overflows, one with no join armed, and one whose lane 1 is misaligned. -/
theorem test_hyp_brx_stops :
    let e : MaskEntry := { resume := 0x20000, lanes := 1, join := some 0x20000, second := false }
    let apart (lane : Nat) : Word := 0x10000 + BitVec.ofNat 32 (4 * lane)
    let groups (c : Ctx) : Nat := (((List.range 4).filter (fun i => (c.W.slice 0).active.getLsbD i)).map (fun i => c.W.vget2 4 i)).dedup.length
    let at' (s : State) (f : Ctx → Bool) : Bool := holds (vecs s [(4, apart)]) (hinted (fun _ => { Sig.plain with srcs := [(.v 4 2, some 0)] })) (fun c _ => f c)
    at' (slices (fun x => { x with armed := some 0x10100, stack := List.replicate 6 e })) (fun c => groups c == 4 && (c.W.slice 0).armed.isSome &&
      decide (8 < (c.W.slice 0).stack.length + (groups c - 1))) = true ∧
    at' (slices (fun x => { x with armed := some 0x10100, stack := List.replicate 5 e })) (fun c =>
      decide ((c.W.slice 0).stack.length + (groups c - 1) ≤ 8)) = true ∧
    at' at0 (fun c => groups c == 4 && (c.W.slice 0).armed.isNone) = true ∧
    holds (vecs (slices (fun x => { x with armed := some 0x10100 })) [(4, fun lane => if lane = 1 then 0x10002 else 0x10000)])
      (hinted (fun _ => { Sig.plain with srcs := [(.v 4 2, some 0)] })) (fun c _ => (c.W.vget2 4 1).toNat % 4 != 0 && (c.W.vget2 4 0).toNat % 4 == 0 &&
        (c.W.slice 0).armed.isSome && (c.W.slice 0).active.getLsbD 1) = true := by decide +kernel
/-- A warp that another's window access waits for, as PARK meets it. -/
theorem test_hyp_park_called :
    let s : State := { at0 with warps := match sget at0.warps 0 with
      | none => []
      | some W => [(0, { W with callers := [(1, 0, 0x10000)] }), (1, W.modGang 0 (fun g => { g with pend := .page }))] }
    holds s (hinted (fun _ => Sig.plain)) (fun c s => s.called c.W && !(s.outstanding c.w)) = true := by decide +kernel
/-- One gang alone at its REGANG, every slice it names its own. -/
theorem test_hyp_regang_alone : holds at0 (hinted (fun _ => Sig.plain)) (fun c s => decide (c.W.gangs.filter (fun g => g.slices == c.G.slices) = [c.G]) &&
    c.W.gangs.all (fun g => decide (g.slices = c.G.slices ∨ g.slices &&& c.G.slices = 0)) && (List.range 8).all (fun j => c.G.slices.getLsbD j) &&
    !(s.scalarsOut c.w c.G.slices)) = true := by decide +kernel
/-- Hint words that are not legal stand beside legal ones. -/
theorem test_hyp_hint_words : (match at0.issuing with
    | none => false
    | some c => (bodyCheck c { Sig.plain with body := .free }).isNone && (List.range 8).all (fun j => c.G.slices.getLsbD j &&
        (c.W.slice j).stack.isEmpty && !(c.W.slice j).exited && decide ((c.W.slice j).pc = c.W.pcOf c.G))) = true ∧
    ¬ ((15 : BitVec 5) ≠ 15) ∧ ¬ ((20 : BitVec 5).toNat ≤ 19) ∧ ¬ ((5 : BitVec 3).toNat ≤ 4) := by decide +kernel

/-! ### Hypotheses: the machine's own steps, more -/

/-- A warp whose gangs wait at an incomplete phase again or at a REGANG, one at a barrier among them; a warp of the reserve. -/
theorem test_hyp_parking_more :
    let s : State := { at0.modWarp 0 (fun W => { W with gangs := [{ Gang.start 15 with wait := some 0, pend := .again 3 0, since := 0 },
      { Gang.start 240 with wait := some 0, pend := .regang 5 255 }] }) with time := 5000 }
    ((sget s.warps 0).map (fun W => (W.gangs.all (fun g => g.wait == some s.progress), W.gangs.any (fun g => decide (g.since + 4096 < s.time)),
      s.called W, W.gangs.map (fun g => g.pend)))) = some (true, true, false, [.again 3 0, .regang 5 255]) ∧ s.outstanding 0 = false ∧
    ((sget (at0.modWarp 0 (fun W => { W with entry := 2040 })).warps 0).map (fun W => decide (2032 ≤ W.entry) && at0.slotFits W.core W.window)) = some true := by
  decide +kernel
/-- A parked warp with no room, no victim and no claim of the last slot; and one whose resident neighbour may make room. -/
theorem test_hyp_noRoom :
    let big (urgent : Bool) : State := at0.modWarp 0 (fun W => { W with residency := .parked true 1, window := 100000, urgent := urgent })
    (big false).nextUnpark 0 = some 0 ∧ (big false).roomFor 0 100000 = false ∧ (big false).victim 0 = none ∧
    (big true).lastSlotFree 0 = true ∧ (big true).known 0 = true ∧
    (let s := big false
      let t : State := { s with warps := match sget at0.warps 0 with
        | none => []
        | some W => s.warps ++ [(1, { W with gangs := W.gangs.map (fun g => { g with wait := some 0 }) })] }
      t.nextUnpark 0 = some 0 ∧ t.victim 0 = some 1) := by decide +kernel
/-- A page request of a core's own commands, denied: one stalls at that page. -/
theorem test_hyp_denied :
    let host : State := { at0 with tlb := at0.tlb.map (fun t => { t with tgt := 1 }) }
    let k : CopyCmd := { command false with size := 16 }
    let s : State := { host with cmds := [(6, k)], tags := [(2, { ctx := 0, core := 0, warp := none, page := 0x40, lanes := 0, va := 0x40000 })] }
    k.todo = [(0, 0x40000)] ∧ { k with source := [] }.open_ 0 = true ∧ k.fault = none ∧ k.core = 0 ∧
    (match s.chunkAccess 0 0 false 0x40000 16 with
      | .stall _ a => a == 0x40000
      | _ => false) = true ∧ (sget s.tags 2).map (·.warp) = some none ∧ s.cmdCtx k = 0 := by decide +kernel
/-- Operations of a team that may retire: a load of weights and a multiplication, of a tile that stands. -/
theorem test_hyp_retires :
    let x : TeamCtx := { b := 0, t := 0, core := 0, members := [0] }
    let o (k : ArrayKind) : ArrayOp := { newOp x k [(0, 0, 0)] with started := true }
    let s (k : ArrayKind) : State := { tiled at0 plane with ops := [(4, o k)] }
    ((sget (s (.loadw 5 1)).ops 4).map (fun y => (y.started, y.flags))) = some (true, none) ∧
    (s (.mma 0 5 0 0 0 0 none)).tile 0 5 = some plane ∧ (sget (s (.loadw 5 1)).blocks 0).isSome = true ∧
    ((o (.loadw 5 1)).quads.map (·.1)).Nodup ∧ { plane with k := 16, fmt := 6, plane := false }.k = 16 ∧
    (∀ i, i < 16 → (BitVec.allOnes 128).getLsbD i = true) ∧ { plane with k := 16, fmt := 10, plane := false }.fmt ≠ 6 := by
  decide +kernel
/-- A detail of class 8 in a waiting record without a warp; the reach of a stop that is not resumed. -/
theorem test_hyp_reports :
    numOf ((at0.warplessRecord 0 8 0 0 0x5000).take 2) = 8 ∧ numOf ((at0.warplessRecord 0 0x31 0 0 0x5000).take 2) ≠ 8 := by decide +kernel
/-- A frozen memory with no context to resume. -/
theorem test_hyp_thaw :
    let s : State := { at0 with contexts := [], groves := [], frozenMem := some [(5, 7)] }
    s.liveContexts = [] ∧ s.fwState = 1 ∧ Memory.wf s.mem = true ∧ Memory.wf [(5, (7 : Byte))] = true ∧
    (∀ e ∈ ([(5, 7)] : List (Nat × Byte)), spaceOf e.1 = 0) := by decide +kernel
/-- APPLYs that meet the second to the fifth of their checks. -/
theorem test_hyp_apply_checks :
    let other (st : Stand → Stand) : State := (stood st id).setStand 2 { at0.stand 2 with state := 2, fpairs := 4, fhbm := 4, flink := 0x30 }
    ((stood (fun st => { st with pairs := 2, hbm := 0 }) id).stand 1).hbm = 0 ∧
    64 < field ((other (fun st => { st with pairs := 2, hbm := 2, link := 0x30 })).stand 2).flink.toNat 0 6 +
      field ((other (fun st => { st with pairs := 2, hbm := 2, link := 0x30 })).stand 1).link.toNat 0 6 ∧
    (∃ v ∈ (stood (fun st => { st with pairs := 2, hbm := 2 }) (fun v => { v with state := 2 })).bound 1,
      ((stood (fun st => { st with pairs := 2, hbm := 2 }) (fun v => { v with state := 2 })).vf v).state ≠ 0) ∧
    ((stood (fun st => { st with slice := 99 }) id).stand 1).slice.toNat < 100 ∧
    100 ≤ ((stood (fun st => { st with slice := 100 }) id).stand 1).slice.toNat := by decide +kernel
/-- VF_READY and VF_STOP as a VF's state and its stand's bear them. -/
theorem test_hyp_ready_stop :
    ((stood (fun st => { st with running := some 4 }) id).vf 3).state = 0 ∧ ((stood (fun st => { st with running := some 4 }) id).stand 1).running ≠ none ∧
    ((stood id id).stand 1).state = 2 ∧ ((stood id id).stand 1).running = none ∧ (stood id id).answers 0 = true ∧
    ((stood id (fun v => { v with state := 1 })).vf 3).state = 1 ∧ ((stood id (fun v => { v with state := 3 })).vf 3).state = 3 ∧
    ctxswStatus ((stood id (fun v => { v with state := 2, ctxsw := 0x20 })).vf 3).ctxsw = 2 ∧ 3 < ((stood id (fun v => { v with state := 4 })).vf 3).state := by
  decide +kernel
/-- A remap in progress, caches and claims in order; DLCTL starting and not. -/
theorem test_hyp_remapping :
    let s := poke (stood id (fun v => { v with apbase := 0x300000000, apsize := 1, remapsrc := 0x3000, remapdst := 0x300007000, remapctl := 1 }))
      [(0x300000000, 8, 0x300200001)]
    ((s.vf 3).remapctl.getLsbD 0 = true) ∧ (s.devAddr 3 0x3000).isSome = true ∧ Memory.wf s.mem = true ∧ srising s.carve = true ∧ srising s.owners = true ∧
    ((s.devAddr 3 0x3000).map (· / 4096)) ≠ some 0x300007 ∧ ((s.devAddr 3 0x3000).map (fun a => decide (a / 4096 < 2 ^ 52))) = some true ∧
    (s.vf 3).dlctl.getLsbD 0 = false ∧ ((stood id (fun v => { v with dlctl := 5 })).vf 3).dlctl.getLsbD 0 = true ∧
    ((stood id (fun v => { v with dlctl := 5 })).vf 3).dlctl.getLsbD 2 = true := by decide +kernel
/-- A boot that waits for its links, with one still training and with none. -/
theorem test_hyp_boots :
    let s (l : SMap Link) : State := { at0 with fwState := 0, fwBody := [1], links := l }
    let x := at0.link 0
    (s [(2, { x with stat := 1 })]).fwState = 0 ∧ (s []).fwBody ≠ [] ∧ (∀ e ∈ (s []).links, e.2.phase ≠ 1) ∧
    ((s [(2, { x with stat := 1 }), (3, { x with stat := 1 })]).link 2).phase = 1 ∧
    (∃ e ∈ (s [(2, { x with stat := 1 }), (3, { x with stat := 1 })]).links, e.1 ≠ 2 ∧ e.2.phase = 1) ∧
    (∀ e ∈ (s [(2, { x with stat := 1 })]).links, e.1 ≠ 2 → e.2.phase ≠ 1) := by decide +kernel
/-- A retrain that has run out and one that has not; a link with nothing to send again. -/
theorem test_hyp_timeouts :
    let s (t : Nat) : State := at0.setLink 2 { (linked 1).link 2 with retrain := some t }
    ((s 0).link 2).retrain = some 0 ∧ (0 : Nat) ≤ (s 0).time ∧ (s 9).time < 9 ∧ ((s 0).link 2).phase ≠ 0 ∧ ((s 0).link 2).waiting = [] ∧
    (at0.link 2).retrain = none := by decide +kernel
/-- MGCLAIM by the owner, by one to whom it is handed, and by one that may not. -/
theorem test_hyp_owners :
    (at0.fwState ≠ 0) ∧ at0.owner = 0 ∧ (1 : Nat) ≠ 0 ∧ field (1 : Word).toNat 0 4 = 1 ∧ field (0x200 : Word).toNat 0 4 = 0 ∧
    field (0x200 : Word).toNat 8 4 = 2 ∧ ({ at0 with owner := 1, hand := 2 } : State).hand = 2 ∧ ({ at0 with owner := 1 } : State).owner = 1 := by
  decide +kernel
/-- Seconds that are counted: the write is due, none of the bins near its end. -/
theorem test_hyp_telemetry :
    let s : State := { at0 with time := 200000000000 }
    s.lifeNext ≤ s.time ∧ (∀ j, j < 16 → (s.lifeValue (0x40 + j)).toNat + 60 < 2 ^ 32) ∧ s.fwState = 1 ∧ s.frozen.getLsbD 0 = false ∧
    (s.context 37).en = false := by decide +kernel

end Sys2Proof.Tests
end

section
/-! SUPPORT. Fetching and the choice of a step: what a gang's fetch answers, what an issue does with it, and who moves when no turn
is listed (R26, R43, R69). -/

namespace Sys2Proof.Proofs.Step

open Sys2Proof Sys2Proof.Machine Sys2Proof.Claims

/-! ### Fetching -/

theorem toNat_append_byte {n : Nat} (x : BitVec n) (y : Byte) : (x ++ y).toNat = x.toNat * 256 + y.toNat := by
  rw [BitVec.toNat_append, ← Nat.shiftLeft_add_eq_or_of_lt y.isLt, Nat.shiftLeft_eq]

/-- Four bytes, the first lowest, are the word of their number (R5). -/
theorem wordOfBytes_eq (b0 b1 b2 b3 : Byte) : wordOfBytes b0 b1 b2 b3 = BitVec.ofNat 32 (numOf [b0, b1, b2, b3]) := by
  apply BitVec.eq_of_toNat_eq
  have h0 := b0.isLt
  have h1 := b1.isLt
  have h2 := b2.isLt
  have h3 := b3.isLt
  simp only [wordOfBytes, numOf, toNat_append_byte, BitVec.toNat_ofNat]
  omega

/-- Bytes that a gang's fetch reads are the word that it answers. -/
theorem fetch_of_fetches {s : State} {w : Nat} {W : Warp} {pc : DWord} {b : List Byte} (m : BitVec 8) (h : fetches s w W pc b) :
    s.fetch w W m pc = .word (BitVec.ofNat 32 (numOf b)) := by
  obtain ⟨hc, hw, key, o, hx, hr, hp, rfl⟩ := h
  simp only [State.fetch, hc, hw, hx, hr, hp, wordOfBytes_eq, Bool.true_eq_false, Bool.false_eq_true, if_false]

theorem decodeBytes_of_fetches {s : State} {w : Nat} {W : Warp} {pc : DWord} {b : List Byte} (h : fetches s w W pc b) :
    decodeBytes b = (decode (BitVec.ofNat 32 (numOf b))).map (fun i => (i, [])) := by
  obtain ⟨-, -, key, o, -, -, -, rfl⟩ := h
  rw [decodeBytes, wordOfBytes_eq]

/-- A gang that keeps no word fetches its next one. -/
theorem nextWord_of_kept_none {s : State} {w : Nat} {W : Warp} {g : Gang} (h : kept g = none) :
    s.nextWord w W g = s.fetch w W g.slices (W.pcOf g) := by
  unfold kept at h
  rw [State.nextWord, h]

/-! ### An issue, by the word it has -/

section
variable {s : State} {w j : Nat} {W : Warp} {g : Gang} (hw : sget s.warps w = some W) (hg : W.gangAt j = some g)
include hw hg

theorem mayIssue_eq : s.mayIssue w j = s.gangMayIssue W g := by
  simp only [State.mayIssue, hw, hg]

theorem issueStep_of_decodes {x : Word} {i : Instr} (hx : s.nextWord w W g = .word x) (hi : decode x = .ok i) :
    issueStep s w j = exec i (s.readied w j W g (W.pcOf g) x) := by
  simp only [issueStep, hw, hg, hx, hi]

theorem issueStep_of_illegal {x : Word} {e : DecodeError} (hx : s.nextWord w W g = .word x) (he : decode x = .error e) :
    issueStep s w j =
      .next (((s.fetched w g.slices (W.pcOf g)).keepWords w j [x]).illegalWord w (lowSlice g.slices) W.ctx) := by
  simp only [issueStep, hw, hg, hx, he]

theorem issueStep_of_fetchFault {c d : Nat} (hx : s.nextWord w W g = .trap c d) :
    issueStep s w j =
      .next (((s.fetched w g.slices (W.pcOf g)).keepWords w j []).fetchTrap w (lowSlice g.slices) c d (W.pcOf g)) := by
  simp only [issueStep, hw, hg, hx]

/-- The bytes fetched are an instruction: it runs. -/
theorem issueStep_of_fetches {b : List Byte} {i : Instr} (hk : kept g = none) (hb : fetches s w W (W.pcOf g) b)
    (hd : decodeBytes b = .ok (i, [])) :
    issueStep s w j = exec i (issuesAt s w j W g (BitVec.ofNat 32 (numOf b))) := by
  rw [decodeBytes_of_fetches hb] at hd
  refine issueStep_of_decodes hw hg ((nextWord_of_kept_none hk).trans (fetch_of_fetches _ hb)) ?_
  cases hx : decode (BitVec.ofNat 32 (numOf b)) with
  | error e => rw [hx] at hd; cases hd
  | ok k => rw [hx] at hd; cases hd; rfl

end

/-! ### Turns -/

/-- The turn of a gang is an issue, where the gang may issue. -/
theorem step_of_turn {s s1 : State} {w j : Nat} (h : turnOf s w j s1) :
    step s = if s1.mayIssue w j then issueStep s1 w j else .next s1 := by
  obtain ⟨r, ⟨ht, rfl⟩ | ⟨ht, rfl⟩⟩ := h <;> simp only [step, ht]

theorem step_of_ready_turn {s s1 : State} {w j : Nat} {W : Warp} {g : Gang} (h : turnOf s w j s1)
    (hw : sget s1.warps w = some W) (hg : W.gangAt j = some g) (hm : s1.gangMayIssue W g = true) :
    step s = issueStep s1 w j := by
  rw [step_of_turn h, mayIssue_eq hw hg, hm, if_pos rfl]

/-! ### No turn listed -/

section
variable {s : State} (hr : s.readiness = none)
include hr

theorem defaultStep_of_agentStep {t : State} (ha : s.agentStep = some t) : defaultStep s = .next t.tick := by
  simp only [defaultStep, hr, ha]

theorem defaultStep_of_tryOne {t : State} (ha : s.agentStep = none) (ht : s.tryOne = some t) : defaultStep s = .next t := by
  simp only [defaultStep, hr, ha, ht]

theorem defaultStep_of_nothing (ha : s.agentStep = none) (ht : s.tryOne = none) (hc : s.chosen = []) :
    defaultStep s = .next s := by
  simp only [defaultStep, hr, ha, ht, hc]

theorem defaultStep_of_chosen {w j : Nat} {r : List (Nat × Nat)} (ha : s.agentStep = none) (ht : s.tryOne = none)
    (hc : s.chosen = (w, j) :: r) :
    defaultStep s =
      issueStep { s.countUnchosen ((w, j) :: r) with turns := r.map (fun x => Turn.also x.1 x.2) } w j := by
  simp only [defaultStep, hr, ha, ht, hc]

end

theorem step_of_no_turns {s : State} (h : s.turns = []) : step s = defaultStep s.pass := by
  simp only [step, h]

/-- Settles O2: each clause is a branch of the step, and of the issue where a gang has its turn. -/
theorem stepOtherwise : Obligations.StepOtherwise := by
  intro s
  refine ⟨?_, ?_, ?_, ?_, ?_⟩
  · intro w j s1 W g b e hturn hw hg hm hk hb hd
    rw [step_of_ready_turn hturn hw hg hm]
    have hx := (nextWord_of_kept_none hk).trans (fetch_of_fetches g.slices hb)
    rw [decodeBytes_of_fetches hb] at hd
    cases he : decode (BitVec.ofNat 32 (numOf b)) with
    | error e' => exact issueStep_of_illegal hw hg hx he
    | ok i => rw [he] at hd; cases hd
  · intro w j s1 W g hturn hw hg hm hk hc
    rw [step_of_ready_turn hturn hw hg hm]
    have hx : s1.nextWord w W g = .trap 6 0 := by
      rw [nextWord_of_kept_none hk, State.fetch, if_pos hc]
    exact issueStep_of_fetchFault hw hg hx
  · intro w j s1 W g hturn hw hg hm
    rw [step_of_turn hturn, mayIssue_eq hw hg, hm]
    rfl
  · intro i r ht
    simp only [step, ht]
  · intro ht s1
    rw [step_of_no_turns ht]
    refine ⟨?_, fun t hr ha => defaultStep_of_agentStep hr ha, fun t hr ha hx => defaultStep_of_tryOne hr ha hx, ?_⟩
    · intro t hr
      have hr' : s.pass.readiness = some t := hr
      simp only [defaultStep, hr']
    · intro hr ha hx
      refine ⟨defaultStep_of_nothing hr ha hx, ?_⟩
      intro w j l W g b i hc s2 hw hg hk hb hd
      rw [defaultStep_of_chosen hr ha hx hc]
      exact issueStep_of_fetches hw hg hk hb hd

end Sys2Proof.Proofs.Step
end

section
/-! SUPPORT. The choice among ready candidates (R24, R26, R345): the first of some candidates in R26's order, what a partition picks,
and what the machine's partitions choose together. -/

namespace Sys2Proof.Proofs.Choice

open Sys2Proof Sys2Proof.Machine

/-! ### Lists -/

theorem nodup_eraseDups {α : Type} [BEq α] [LawfulBEq α] (l : List α) : l.eraseDups.Nodup := by
  induction hn : l.length using Nat.strongRecOn generalizing l with
  | _ n ih =>
    cases l with
    | nil => rw [List.eraseDups_nil]; exact List.nodup_nil
    | cons a r =>
      rw [List.eraseDups_cons, List.nodup_cons, List.mem_eraseDups]
      refine ⟨by simp, ih _ ?_ _ rfl⟩
      have := List.length_filter_le (fun b => !b == a) r
      simp only [List.length_cons] at hn
      omega

/-- Of the lists of some keys without repetition, only one key's holds elements that satisfy a predicate. -/
theorem filter_flatMap_single {α β : Type} (q : β → Bool) (f : α → List β) (p : α) (l : List α) (hl : l.Nodup)
    (h : ∀ a ∈ l, a ≠ p → ∀ b ∈ f a, q b = false) : ((l.flatMap f).filter q).length ≤ (f p).length := by
  induction l with
  | nil => exact Nat.zero_le _
  | cons a r ih =>
    obtain ⟨ha, hr⟩ := List.nodup_cons.mp hl
    rw [List.flatMap_cons, List.filter_append, List.length_append]
    have hrest := ih hr (fun b hb => h b (List.mem_cons_of_mem _ hb))
    by_cases hap : a = p
    · subst hap
      have hnil : (r.flatMap f).filter q = [] := by
        rw [List.filter_eq_nil_iff]
        intro b hb
        obtain ⟨c, hc, hbc⟩ := List.mem_flatMap.mp hb
        have hca : c ≠ a := fun e => ha (e ▸ hc)
        simp [h c (List.mem_cons_of_mem _ hc) hca b hbc]
      simpa [hnil] using List.length_filter_le q (f a)
    · have hnil : (f a).filter q = [] := by
        rw [List.filter_eq_nil_iff]
        intro b hb
        simp [h a List.mem_cons_self hap b hb]
      simpa [hnil] using hrest

/-! ### Ranks (R26) -/

theorem rankLt_iff (a b : Nat × Nat × Nat) :
    rankLt a b = true ↔ a.1 < b.1 ∨ (a.1 = b.1 ∧ (a.2.1 < b.2.1 ∨ (a.2.1 = b.2.1 ∧ a.2.2 < b.2.2))) := by
  simp [rankLt]

theorem not_rankLt_iff (a b : Nat × Nat × Nat) :
    rankLt a b = false ↔ b.1 < a.1 ∨ (b.1 = a.1 ∧ (b.2.1 < a.2.1 ∨ (b.2.1 = a.2.1 ∧ b.2.2 ≤ a.2.2))) := by
  rw [← Bool.not_eq_true, rankLt_iff]
  omega

theorem not_rankLt_self (a : Nat × Nat × Nat) : rankLt a a = false := by
  rw [not_rankLt_iff]
  omega

theorem not_rankLt_trans {a b c : Nat × Nat × Nat} (h1 : rankLt a b = false) (h2 : rankLt b c = false) :
    rankLt a c = false := by
  rw [not_rankLt_iff] at h1 h2 ⊢
  omega

theorem not_rankLt_of_rankLt {a b : Nat × Nat × Nat} (h : rankLt a b = true) : rankLt b a = false := by
  rw [rankLt_iff] at h
  rw [not_rankLt_iff]
  omega

/-- A candidate: its rank, its warp, its lowest slice. -/
abbrev Candidate := (Nat × Nat × Nat) × Nat × Nat

/-- The earlier in R26's order of the first so far and one more. -/
def earlier (b : Option Candidate) (x : Candidate) : Option Candidate :=
  match b with
  | none => some x
  | some y => if rankLt x.1 y.1 then some x else b

theorem firstRank_eq_foldl (l : List Candidate) : firstRank l = l.foldl earlier none := rfl

/-- The first so far stays or gives way to one that comes before it and is of the list, and nothing of the list comes before the last. -/
theorem foldl_earlier_some (l : List Candidate) (y : Candidate) :
    ∃ z, l.foldl earlier (some y) = some z ∧ (z = y ∨ z ∈ l) ∧ rankLt y.1 z.1 = false ∧ ∀ x ∈ l, rankLt x.1 z.1 = false := by
  induction l generalizing y with
  | nil => exact ⟨y, rfl, .inl rfl, not_rankLt_self _, by simp⟩
  | cons x r ih =>
    by_cases hx : rankLt x.1 y.1 = true
    · obtain ⟨z, hz, hmem, hfirst, hall⟩ := ih x
      refine ⟨z, ?_, .inr ?_, not_rankLt_trans (not_rankLt_of_rankLt hx) hfirst, ?_⟩
      · rw [List.foldl_cons, earlier, if_pos hx, hz]
      · exact List.mem_cons.mpr hmem
      · exact List.forall_mem_cons.mpr ⟨hfirst, hall⟩
    · obtain ⟨z, hz, hmem, hfirst, hall⟩ := ih y
      refine ⟨z, ?_, ?_, hfirst, ?_⟩
      · rw [List.foldl_cons, earlier, if_neg hx, hz]
      · exact hmem.imp_right (List.mem_cons_of_mem _)
      · exact List.forall_mem_cons.mpr ⟨not_rankLt_trans (Bool.not_eq_true _ ▸ hx) hfirst, hall⟩

theorem firstRank_cons (x : Candidate) (l : List Candidate) :
    ∃ z, firstRank (x :: l) = some z ∧ z ∈ x :: l ∧ ∀ y ∈ x :: l, rankLt y.1 z.1 = false := by
  obtain ⟨z, hz, hmem, hfirst, hall⟩ := foldl_earlier_some l x
  exact ⟨z, (firstRank_eq_foldl (x :: l)).trans hz, List.mem_cons.mpr hmem, List.forall_mem_cons.mpr ⟨hfirst, hall⟩⟩

/-- Some candidate stands first, as soon as there is one. -/
theorem firstRank_of_mem {x : Candidate} {l : List Candidate} (h : x ∈ l) :
    ∃ z, firstRank l = some z ∧ z ∈ l ∧ ∀ y ∈ l, rankLt y.1 z.1 = false := by
  cases l with
  | nil => cases h
  | cons y r => exact firstRank_cons y r

theorem mem_of_firstRank {x : Candidate} {l : List Candidate} (h : firstRank l = some x) : x ∈ l := by
  cases l with
  | nil => cases h
  | cons y r =>
    obtain ⟨z, hz, hmem, -⟩ := firstRank_cons y r
    rw [hz] at h
    exact Option.some.inj h ▸ hmem

/-! ### What a partition picks -/

/-- The candidates of a partition that another port takes beside the first. -/
def beside (s : State) (l : List Candidate) (x : Candidate) : List Candidate :=
  l.filter (fun y => y != x && !(s.needsB x.2.1 x.2.2 && s.needsB y.2.1 y.2.2))

/-- A partition picks nothing, one candidate, or, with no throttle window open, two of which not both need port B. -/
theorem picks_cases (s : State) (core : Nat) (l : List Candidate) :
    (l = [] ∧ s.picks core l = []) ∨
    ∃ x, firstRank l = some x ∧ (s.picks core l = [x.2] ∨
      (s.throttled core = false ∧ ∃ y ∈ l, s.picks core l = [x.2, y.2] ∧
        (s.needsB x.2.1 x.2.2 && s.needsB y.2.1 y.2.2) = false)) := by
  cases l with
  | nil => exact .inl ⟨rfl, rfl⟩
  | cons a r =>
    right
    obtain ⟨x, hx, -, -⟩ := firstRank_cons a r
    refine ⟨x, hx, ?_⟩
    by_cases ht : s.throttled core = true
    · left
      simp only [State.picks, hx, ht, if_true]
    · have hopen : s.throttled core = false := Bool.not_eq_true _ ▸ ht
      cases hy : firstRank (beside s (a :: r) x) with
      | none =>
        unfold beside at hy
        left
        simp only [State.picks, hx, hopen, hy, Bool.false_eq_true, if_false]
      | some y =>
        obtain ⟨hmem, hport⟩ := List.mem_filter.mp (mem_of_firstRank hy)
        rw [Bool.and_eq_true, Bool.not_eq_true'] at hport
        unfold beside at hy
        refine .inr ⟨hopen, y, hmem, ?_, hport.2⟩
        simp only [State.picks, hx, hopen, hy, Bool.false_eq_true, if_false]

theorem picks_subset (s : State) (core : Nat) (l : List Candidate) (a : Nat × Nat) (h : a ∈ s.picks core l) :
    ∃ x ∈ l, x.2 = a := by
  obtain ⟨-, hp⟩ | ⟨x, hx, hp | ⟨-, y, hy, hp, -⟩⟩ := picks_cases s core l <;> rw [hp] at h
  · cases h
  · exact ⟨x, mem_of_firstRank hx, (List.mem_singleton.mp h).symm⟩
  · rcases List.mem_pair.mp h with rfl | rfl
    · exact ⟨x, mem_of_firstRank hx, rfl⟩
    · exact ⟨y, hy, rfl⟩

theorem mem_picks_of_firstRank (s : State) (core : Nat) {l : List Candidate} {x : Candidate} (h : firstRank l = some x) :
    x.2 ∈ s.picks core l := by
  obtain ⟨rfl, -⟩ | ⟨y, hy, hp | ⟨-, z, -, hp, -⟩⟩ := picks_cases s core l
  · cases h
  all_goals
    rw [h] at hy
    cases hy
    simp [hp]

theorem length_picks_le (s : State) (core : Nat) (l : List Candidate) :
    (s.picks core l).length ≤ if s.throttled core = true then 1 else 2 := by
  obtain ⟨-, hp⟩ | ⟨x, -, hp | ⟨ht, y, -, hp, -⟩⟩ := picks_cases s core l
  · simp [hp]
  · rw [hp]; split <;> simp
  · simp [hp, ht]

theorem picks_one_port (s : State) (core : Nat) (l : List Candidate) {a b : Nat × Nat} (ha : a ∈ s.picks core l)
    (hb : b ∈ s.picks core l) (hab : a ≠ b) : (s.needsB a.1 a.2 && s.needsB b.1 b.2) = false := by
  obtain ⟨-, hp⟩ | ⟨x, -, hp | ⟨-, y, -, hp, hport⟩⟩ := picks_cases s core l <;> rw [hp] at ha hb
  · cases ha
  · exact absurd ((List.mem_singleton.mp ha).trans (List.mem_singleton.mp hb).symm) hab
  · rcases List.mem_pair.mp ha with rfl | rfl <;> rcases List.mem_pair.mp hb with rfl | rfl
    · exact absurd rfl hab
    · exact hport
    · rw [Bool.and_comm]; exact hport
    · exact absurd rfl hab

/-! ### The candidates and the gangs chosen -/

theorem mem_candidates {s : State} {x : Candidate} :
    x ∈ s.candidates ↔ ∃ w W g, (w, W) ∈ s.warps ∧ g ∈ W.gangs ∧ s.gangMayIssue W g = true ∧
      x = ((if g.promoted then 0 else 1, W.age, lowSlice g.slices), w, lowSlice g.slices) := by
  simp only [State.candidates, List.mem_flatMap, List.mem_map, List.mem_filter]
  constructor
  · rintro ⟨⟨w, W⟩, hw, g, ⟨hg, hm⟩, rfl⟩
    exact ⟨w, W, g, hw, hg, hm, rfl⟩
  · rintro ⟨w, W, g, hw, hg, hm, rfl⟩
    exact ⟨(w, W), hw, g, ⟨hg, hm⟩, rfl⟩

/-- The candidates of a core's partition. -/
def candidatesAt (s : State) (p : Nat × Nat) : List Candidate := s.candidates.filter (fun x => s.placeOf x.2.1 == p)

theorem mem_candidatesAt {s : State} {p : Nat × Nat} {x : Candidate} :
    x ∈ candidatesAt s p ↔ x ∈ s.candidates ∧ s.placeOf x.2.1 = p := by
  rw [candidatesAt, List.mem_filter, beq_iff_eq]

/-- What a core's partition issues in a cycle. -/
def issuedAt (s : State) (p : Nat × Nat) : List (Nat × Nat) :=
  if s.coreTicks p.1 then s.picks p.1 (candidatesAt s p) else []

theorem chosen_eq (s : State) :
    s.chosen = ((s.candidates.map (fun x => s.placeOf x.2.1)).eraseDups).flatMap (issuedAt s) := rfl

theorem issuedAt_subset {s : State} {p a : Nat × Nat} (h : a ∈ issuedAt s p) : ∃ x ∈ candidatesAt s p, x.2 = a := by
  unfold issuedAt at h
  split at h
  · exact picks_subset _ _ _ _ h
  · cases h

theorem placeOf_issuedAt {s : State} {p a : Nat × Nat} (h : a ∈ issuedAt s p) : s.placeOf a.1 = p := by
  obtain ⟨x, hx, rfl⟩ := issuedAt_subset h
  exact (mem_candidatesAt.mp hx).2

/-- A gang is chosen where its own partition issues it. -/
theorem mem_chosen {s : State} {a : Nat × Nat} : a ∈ s.chosen ↔ a ∈ issuedAt s (s.placeOf a.1) := by
  rw [chosen_eq, List.mem_flatMap]
  constructor
  · rintro ⟨p, -, ha⟩
    rwa [placeOf_issuedAt ha]
  · intro ha
    refine ⟨_, ?_, ha⟩
    obtain ⟨x, hx, rfl⟩ := issuedAt_subset ha
    exact List.mem_eraseDups.mpr (List.mem_map.mpr ⟨x, (mem_candidatesAt.mp hx).1, rfl⟩)

theorem length_chosen_le (s : State) (p : Nat × Nat) :
    (s.chosen.filter (fun x => s.placeOf x.1 == p)).length ≤ (issuedAt s p).length := by
  refine filter_flatMap_single _ (issuedAt s) p _ (nodup_eraseDups _) (fun q _ hq a ha => ?_)
  rw [placeOf_issuedAt ha]
  exact beq_eq_false_iff_ne.mpr hq

/-- What it means for a candidate's rank not to come after another's. -/
theorem rank_first {g h : Gang} {W V : Warp}
    (hr : rankLt (if h.promoted then 0 else 1, V.age, lowSlice h.slices) (if g.promoted then 0 else 1, W.age, lowSlice g.slices) =
      false) :
    ¬ (h.promoted = true ∧ g.promoted = false) ∧
      (h.promoted = g.promoted → W.age ≤ V.age ∧ (W.age = V.age → lowSlice g.slices ≤ lowSlice h.slices)) := by
  rw [not_rankLt_iff] at hr
  cases hg : g.promoted <;> cases hh : h.promoted <;> simp [hg, hh] at hr ⊢ <;> omega

/-- Settles O3: a partition issues the first of its candidates in R26's order, and at most one beside it that another port takes. -/
theorem oldestReadyIssues : Obligations.OldestReadyIssues := by
  intro s
  refine ⟨?_, ?_, ?_, ?_⟩
  · intro w j hc
    obtain ⟨x, hx, he⟩ := issuedAt_subset (mem_chosen.mp hc)
    obtain ⟨w', W, g, hw, hg, hm, rfl⟩ := mem_candidates.mp (mem_candidatesAt.mp hx).1
    cases he
    exact ⟨W, g, hw, hg, hm, rfl⟩
  · intro v V h hv hh hm ht
    have hcand := mem_candidatesAt.mpr ⟨mem_candidates.mpr ⟨v, V, h, hv, hh, hm, rfl⟩, rfl⟩
    obtain ⟨x, hfirst, hx, hall⟩ := firstRank_of_mem hcand
    obtain ⟨hxc, hplace⟩ := mem_candidatesAt.mp hx
    obtain ⟨w, W, g, hw, hg, hmg, rfl⟩ := mem_candidates.mp hxc
    refine ⟨w, W, g, mem_chosen.mpr ?_, hplace, hw, hg, hmg, rank_first (hall _ hcand)⟩
    rw [hplace, issuedAt, if_pos ht]
    exact mem_picks_of_firstRank s _ hfirst
  · intro p
    refine (length_chosen_le s p).trans ?_
    unfold issuedAt
    cases s.coreTicks p.1
    · exact Nat.le_refl 0
    · exact length_picks_le s p.1 _
  · rintro x y hx hy hne hplace ⟨hxB, hyB⟩
    have hx' := mem_chosen.mp hx
    have hy' := mem_chosen.mp hy
    rw [hplace] at hx'
    unfold issuedAt at hx' hy'
    split at hy'
    · rw [if_pos ‹_›] at hx'
      have := picks_one_port s _ _ hx' hy' hne
      simp [hxB, hyB] at this
    · cases hy'

end Sys2Proof.Proofs.Choice
end

section
/-! SUPPORT. Finite maps: entries of a canonical map, and a map after several entries are set. -/

namespace Sys2Proof.Proofs.Maps

open Sys2Proof.Machine

variable {α : Type}

/-- In a map whose keys rise, a key reads as its entry. -/
theorem sget_of_mem {m : SMap α} (hm : srising m = true) {k : Nat} {x : α} (h : (k, x) ∈ m) : sget m k = some x := by
  induction m with
  | nil => cases h
  | cons e r ih =>
    obtain ⟨j, y⟩ := e
    simp only [srising, Bool.and_eq_true, List.all_eq_true, decide_eq_true_eq] at hm
    obtain ⟨hlt, hr⟩ := hm
    rw [sget_cons]
    rcases List.mem_cons.mp h with he | hmem
    · cases he
      exact if_pos rfl
    · have := hlt _ hmem
      rw [if_neg (by simp only at this; omega)]
      exact ih hr hmem

/-- The entries of a list set one after another, each key at what a function makes of its entry. -/
def sputAll (f : Nat × α → α) (l : List (Nat × α)) (m : SMap α) : SMap α := l.foldl (fun m e => sput m e.1 (f e)) m

theorem sget_sputAll_other (f : Nat × α → α) (l : List (Nat × α)) (m : SMap α) (k : Nat) (h : ∀ e ∈ l, e.1 ≠ k) :
    sget (sputAll f l m) k = sget m k := by
  induction l generalizing m with
  | nil => rfl
  | cons a r ih =>
    refine (ih _ (fun e he => h e (List.mem_cons_of_mem _ he))).trans ?_
    exact sget_sput_other m (fun e => h a List.mem_cons_self e.symm) _

/-- Where entries of one key are one entry, each key of the list reads as what is set for it. -/
theorem sget_sputAll (f : Nat × α → α) (l : List (Nat × α)) (m : SMap α) (h : ∀ e ∈ l, ∀ e' ∈ l, e.1 = e'.1 → e = e')
    {e : Nat × α} (he : e ∈ l) : sget (sputAll f l m) e.1 = some (f e) := by
  induction l generalizing m with
  | nil => cases he
  | cons a r ih =>
    have hr : ∀ e ∈ r, ∀ e' ∈ r, e.1 = e'.1 → e = e' := fun e he e' he' =>
      h e (List.mem_cons_of_mem _ he) e' (List.mem_cons_of_mem _ he')
    by_cases hmem : e ∈ r
    · exact ih _ hr hmem
    · have hea : e = a := (List.mem_cons.mp he).resolve_right hmem
      subst hea
      refine (sget_sputAll_other f r _ e.1 (fun e' he' hk => ?_)).trans (sget_sput_same ..)
      exact hmem (h e' (List.mem_cons_of_mem _ he') e List.mem_cons_self hk ▸ he')

end Sys2Proof.Proofs.Maps
end

section
/-! SUPPORT. What sending leaves of the state: counters, messages and links alone change, and a message sent is in the outbox or waits
for its link (R306, R320); what waking a warp changes of it (R31). -/

namespace Sys2Proof.Proofs.Send

open Sys2Proof Sys2Proof.Machine

/-! ### Counting and sending -/

theorem interrupt_outbox (s : State) (fn v : Nat) : ∃ l, s.interrupt fn v = { s with outbox := l ++ s.outbox } := by
  unfold State.interrupt
  split
  · exact ⟨[.msix fn v], rfl⟩
  · exact ⟨[], rfl⟩

theorem overflow_outbox (s : State) (fn : Nat) (m : Word) :
    ∃ cs l, s.overflow fn m = { s with counters := cs, outbox := l ++ s.outbox } := by
  unfold State.overflow
  dsimp only
  split
  · obtain ⟨l, h⟩ := interrupt_outbox ({ s with counters := _ } : State) fn (field (s.counter fn).int.toNat 0 11)
    exact ⟨_, l, h⟩
  · exact ⟨_, [], rfl⟩

/-- Counting an event changes the counters, and adds to what is sent (R306). -/
theorem count_outbox (s : State) (fn ev n : Nat) :
    ∃ cs l, s.count fn ev n = { s with counters := cs, outbox := l ++ s.outbox } := by
  unfold State.count
  split
  · dsimp only
    split
    · exact ⟨_, [], rfl⟩
    · split
      · exact ⟨_, [], rfl⟩
      · obtain ⟨cs, l, h⟩ := overflow_outbox ({ s with counters := _ } : State) fn _
        exact ⟨cs, l, h⟩
  · exact ⟨s.counters, [], rfl⟩

theorem emitFlit_eq (s : State) (k : Nat) (ps : List Packet) :
    ∃ cs l, s.emitFlit k ps = { s with
      fresh := s.fresh + 1
      links := sput s.links k { s.link k with
        sendSeq := (s.link k).sendSeq + 1
        replay := (s.link k).replay ++ [((s.link k).sendSeq,
          flitOf (s.link k).sendSeq.toNat ((s.link k).recvSeq - 1).toNat (Config.flitHead s.fresh) ps)] }
      counters := cs
      outbox := l ++ .flit k (flitOf (s.link k).sendSeq.toNat ((s.link k).recvSeq - 1).toNat (Config.flitHead s.fresh) ps) ::
        s.outbox } := by
  unfold State.emitFlit
  exact count_outbox _ _ _ _

theorem sendFlit_frame (s : State) (k : Nat) (ps : List Packet) :
    ∃ fr ls cs l, s.sendFlit k ps = { s with fresh := fr, links := ls, counters := cs, outbox := l ++ s.outbox } := by
  unfold State.sendFlit
  dsimp only
  split
  · exact ⟨s.fresh, s.links, s.counters, [], rfl⟩
  · split
    · obtain ⟨cs, l, h⟩ := emitFlit_eq s k ps
      rw [h]
      exact ⟨_, _, cs, l ++ [_], by rw [List.append_assoc]; rfl⟩
    · exact ⟨s.fresh, _, s.counters, [], rfl⟩

@[simp] theorem sendFlit_barriers (s : State) (k : Nat) (ps : List Packet) : (s.sendFlit k ps).barriers = s.barriers := by
  obtain ⟨_, _, _, _, h⟩ := sendFlit_frame s k ps
  rw [h]

@[simp] theorem sendFlit_warps (s : State) (k : Nat) (ps : List Packet) : (s.sendFlit k ps).warps = s.warps := by
  obtain ⟨_, _, _, _, h⟩ := sendFlit_frame s k ps
  rw [h]

theorem mem_outbox_sendFlit (s : State) (k : Nat) (ps : List Packet) {m : Msg} (h : m ∈ s.outbox) :
    m ∈ (s.sendFlit k ps).outbox := by
  obtain ⟨_, _, _, l, e⟩ := sendFlit_frame s k ps
  rw [e]
  exact List.mem_append_right l h

/-- A link that is up, whose replay buffer has room and for which nothing waits, takes a flit at once. -/
def Clear (x : Link) : Prop := x.phase = 2 ∧ x.room = true ∧ x.waiting = []

theorem sendFlit_clear {s : State} {k : Nat} {p : Packet} {ps : List Packet} (h : Clear (s.link k)) :
    s.sendFlit k (p :: ps) = s.emitFlit k (p :: ps) := by
  unfold State.sendFlit
  exact (if_neg (by simp)).trans (if_pos h)

theorem sendFlit_waits {s : State} {k : Nat} {p : Packet} {ps : List Packet} (h : ¬ Clear (s.link k)) :
    s.sendFlit k (p :: ps) =
      s.setLink k { s.link k with waiting := (s.link k).waiting ++ (p :: ps).map Packet.bytes } := by
  unfold State.sendFlit
  exact (if_neg (by simp)).trans (if_neg h)

theorem mem_outbox_emitFlit (s : State) (k : Nat) (ps : List Packet) :
    .flit k (flitOf (s.link k).sendSeq.toNat ((s.link k).recvSeq - 1).toNat (Config.flitHead s.fresh) ps) ∈
      (s.emitFlit k ps).outbox := by
  obtain ⟨cs, l, h⟩ := emitFlit_eq s k ps
  rw [h]
  exact List.mem_append_right l List.mem_cons_self

/-- What waits for a link is still there, or has been added to, after messages are sent on any link. -/
theorem mem_waiting_sendFlit (s : State) (k i : Nat) (ps : List Packet) {m : List Byte} (h : m ∈ (s.link i).waiting) :
    m ∈ ((s.sendFlit k ps).link i).waiting := by
  cases ps with
  | nil => exact h
  | cons p ps =>
    by_cases hc : Clear (s.link k)
    · have hik : i ≠ k := by
        rintro rfl
        rw [hc.2.2] at h
        cases h
      obtain ⟨cs, l, e⟩ := emitFlit_eq s k (p :: ps)
      rw [sendFlit_clear hc, e]
      show m ∈ ((sget (sput s.links k _) i).getD Link.reset).waiting
      rw [sget_sput_other _ hik]
      exact h
    · rw [sendFlit_waits hc, State.link_setLink]
      split
      · subst_vars
        exact List.mem_append_left _ h
      · exact h

/-! ### Messages and flits -/

theorem length_packetBytes (p : Packet) : p.bytes.length = 56 := by
  simp [Packet.bytes, length_bytesOf]

theorem drop_bytesOf {n k : Nat} (x : Nat) (h : n ≤ k) : (bytesOf n x).drop k = [] :=
  List.drop_of_length_le (by rw [length_bytesOf]; exact h)

theorem read_bytes_kind (p : Packet) : (Packet.read p.bytes).kind = p.kind % 256 := by
  simp [Packet.read, Packet.bytes, length_bytesOf, numOf_bytesOf]

theorem read_bytes_type (p : Packet) : (Packet.read p.bytes).type = p.type % 256 := by
  simp [Packet.read, Packet.bytes, List.drop_append, length_bytesOf, numOf_bytesOf, drop_bytesOf]

theorem read_bytes_tag (p : Packet) : (Packet.read p.bytes).tag = p.tag % 2 ^ 32 := by
  simp [Packet.read, Packet.bytes, List.drop_append, length_bytesOf, numOf_bytesOf, drop_bytesOf]

theorem take_drop_flit {α : Type} (a p z c : List α) (ha : a.length = 8) (hp : p.length = 56) :
    ((a ++ (p ++ z).take 240 ++ c).drop 8).take 56 = p := by
  rw [List.append_assoc, List.drop_left' ha, List.take_append_of_le_length (by simp; omega), List.take_take,
    Nat.min_eq_left (by decide), List.take_left' hp]

/-- The first message of a flit is read back from it. -/
theorem read_mem_flitPackets (seq ack : Nat) (head : BitVec 12) (p : Packet) (hp : (Packet.read p.bytes).kind ≠ 0) :
    Packet.read p.bytes ∈ flitPackets (flitOf seq ack head [p]) := by
  unfold flitPackets
  rw [List.mem_filter]
  refine ⟨List.mem_map.mpr ⟨0, by simp, ?_⟩, by simpa using hp⟩
  have hflat : ([p].take 4).flatMap Packet.bytes = p.bytes := by simp
  unfold flitOf
  rw [hflat]
  exact congrArg Packet.read (take_drop_flit _ _ _ _ (length_bytesOf 8 _) (length_packetBytes p))

/-- A message has been sent on a link: it stands in a flit that has left, or waits for the link. -/
def Sent (s : State) (k : Nat) (m : List Byte) : Prop :=
  (∃ f, .flit k f ∈ s.outbox ∧ Packet.read m ∈ flitPackets f) ∨ m ∈ (s.link k).waiting

theorem sent_sendFlit (s : State) (k : Nat) (p : Packet) (hp : (Packet.read p.bytes).kind ≠ 0) :
    Sent (s.sendFlit k [p]) k p.bytes := by
  by_cases hc : Clear (s.link k)
  · rw [sendFlit_clear hc]
    exact .inl ⟨_, mem_outbox_emitFlit s k [p], read_mem_flitPackets _ _ _ p hp⟩
  · rw [sendFlit_waits hc]
    refine .inr ?_
    rw [State.link_setLink, if_pos rfl]
    simp

theorem Sent.after_sendFlit {s : State} {i : Nat} {m : List Byte} (h : Sent s i m) (k : Nat) (ps : List Packet) :
    Sent (s.sendFlit k ps) i m := by
  obtain ⟨f, hf, hm⟩ | h := h
  · exact .inl ⟨f, mem_outbox_sendFlit s k ps hf, hm⟩
  · exact .inr (mem_waiting_sendFlit s k i ps h)

/-- Each of some messages, each on its link, one after another. -/
def sendEach (l : List (Nat × Packet)) (s : State) : State := l.foldl (fun s e => s.sendFlit e.1 [e.2]) s

@[simp] theorem sendEach_barriers (l : List (Nat × Packet)) (s : State) : (sendEach l s).barriers = s.barriers := by
  induction l generalizing s with
  | nil => rfl
  | cons e r ih => exact (ih (s.sendFlit e.1 [e.2])).trans (sendFlit_barriers s e.1 [e.2])

theorem Sent.after_sendEach {s : State} {i : Nat} {m : List Byte} (h : Sent s i m) (l : List (Nat × Packet)) :
    Sent (sendEach l s) i m := by
  induction l generalizing s with
  | nil => exact h
  | cons e r ih => exact ih (h.after_sendFlit e.1 [e.2])

theorem sent_sendEach (l : List (Nat × Packet)) (s : State) {e : Nat × Packet} (he : e ∈ l)
    (hp : (Packet.read e.2.bytes).kind ≠ 0) : Sent (sendEach l s) e.1 e.2.bytes := by
  induction l generalizing s with
  | nil => cases he
  | cons a r ih =>
    rcases List.mem_cons.mp he with rfl | hr
    · exact (sent_sendFlit s e.1 e.2 hp).after_sendEach r
    · exact ih _ hr

/-! ### Waking -/

/-- Of the warps only the readiness of some has changed, beside the next number, barriers and free values. -/
def OnlyReadied (s t : State) : Prop :=
  (∀ w W, sget s.warps w = some W → ∃ V, sget t.warps w = some V ∧ { V with residency := W.residency, urgent := W.urgent } = W) ∧
  { t with barriers := s.barriers, warps := s.warps, fresh := s.fresh, nextId := s.nextId } = s

theorem OnlyReadied.refl (s : State) : OnlyReadied s s := ⟨fun _ W h => ⟨W, h, rfl⟩, rfl⟩

theorem OnlyReadied.trans {s t u : State} (h1 : OnlyReadied s t) (h2 : OnlyReadied t u) : OnlyReadied s u := by
  refine ⟨fun w W hw => ?_, ?_⟩
  · obtain ⟨V, hV, e1⟩ := h1.1 w W hw
    obtain ⟨U, hU, e2⟩ := h2.1 w V hV
    refine ⟨U, hU, ?_⟩
    rw [← e1, ← e2]
  · have e := congrArg (fun (x : State) =>
      { x with barriers := s.barriers, warps := s.warps, fresh := s.fresh, nextId := s.nextId }) h2.2
    exact e.trans h1.2

theorem wake_onlyReadied (s : State) (w : Nat) (u : Bool) : OnlyReadied s (s.wake w u) := by
  unfold State.wake
  split
  · exact .refl s
  · rename_i W hW
    split
    · exact .refl s
    · split
      · refine ⟨fun k V hV => ?_, rfl⟩
        by_cases hk : k = w
        · subst hk
          rw [hW] at hV
          cases hV
          exact ⟨_, sget_sput_same .., rfl⟩
        · exact ⟨V, (sget_sput_other _ hk _).trans hV, rfl⟩
      · exact .refl s

theorem wake_barriers (s : State) (w : Nat) (u : Bool) : (s.wake w u).barriers = s.barriers := by
  unfold State.wake
  split
  · rfl
  · split
    · rfl
    · split <;> rfl

end Sys2Proof.Proofs.Send
end

section
/-! SUPPORT. The end of a barrier's phase, the reports and releases of a device group, and the packets that come for a barrier (R38,
R166, R168, R204, R324). -/

namespace Sys2Proof.Proofs.Barriers

open Sys2Proof Sys2Proof.Machine Sys2Proof.Claims Sys2Proof.Proofs.Maps Sys2Proof.Proofs.Send

/-! ### Contributions -/

theorem foldl_add_eq_sum (l : List Word) (a : Word) :
    l.foldl (· + ·) a = a + BitVec.ofNat 32 ((l.map (·.toNat)).sum) := by
  induction l generalizing a with
  | nil => simp
  | cons x r ih => rw [List.foldl_cons, ih, List.map_cons, List.sum_cons, BitVec.ofNat_add, BitVec.ofNat_toNat,
      BitVec.setWidth_eq, BitVec.add_assoc]

theorem combine_eq_reduced (op : Nat) (signed : Bool) (l : List Word) : Machine.combine op signed l = reduced op signed l := by
  match op with
  | 0 => cases signed <;> rfl
  | 1 => cases signed <;> rfl
  | 2 => exact (foldl_add_eq_sum l 0).trans (BitVec.zero_add _)
  | 3 => rfl
  | _ + 4 => rfl

/-- Like contributions give their reduction (R168). -/
theorem combineParts_like {fresh op : Nat} {signed : Bool} {l : List (Nat × Bool × Word)} (hl : l ≠ [])
    (h : ∀ x ∈ l, x.1 = op ∧ x.2.1 = signed) : combineParts fresh l = reduced op signed (l.map (·.2.2)) := by
  cases l with
  | nil => exact absurd rfl hl
  | cons x r =>
    obtain ⟨ho, hs⟩ := h x List.mem_cons_self
    have hall : r.all (fun y => y.1 == x.1 && y.2.1 == x.2.1) = true := by
      rw [List.all_eq_true]
      intro y hy
      obtain ⟨ho', hs'⟩ := h y (List.mem_cons_of_mem _ hy)
      simp [ho, hs, ho', hs']
    rw [combineParts, if_pos hall, ho, hs, combine_eq_reduced]

/-! ### Barriers that are one -/

theorem findBarrier_sget {s : State} (hs : srising s.barriers = true) {level num : Nat} {inst : List Nat} {e : Nat × Barrier}
    (h : s.findBarrier level inst num = some e) : sget s.barriers e.1 = some e.2 :=
  sget_of_mem hs (List.mem_of_find?_eq_some h)

theorem others_sget {s : State} (hs : srising s.barriers = true) {b : Barrier} {e : Nat × Barrier} (h : e ∈ s.others b) :
    sget s.barriers e.1 = some e.2 := by
  unfold State.others at h
  split at h
  · obtain ⟨a, -, hf⟩ := List.mem_filterMap.mp h
    exact findBarrier_sget hs hf
  · cases h

/-- A barrier and those it is one with. -/
def joined (s : State) (id : Nat) (b : Barrier) : List (Nat × Barrier) := (id, b) :: s.others b

theorem joined_sget {s : State} {id : Nat} {b : Barrier} (hb : sget s.barriers id = some b) (hs : srising s.barriers = true)
    {e : Nat × Barrier} (h : e ∈ joined s id b) : sget s.barriers e.1 = some e.2 := by
  rcases List.mem_cons.mp h with rfl | h
  · exact hb
  · exact others_sget hs h

/-- Of the barriers that are one, a number names one. -/
theorem joined_inj {s : State} {id : Nat} {b : Barrier} (hb : sget s.barriers id = some b) (hs : srising s.barriers = true) :
    ∀ e ∈ joined s id b, ∀ e' ∈ joined s id b, e.1 = e'.1 → e = e' := by
  intro e he e' he' hk
  have h1 := joined_sget hb hs he
  rw [hk, joined_sget hb hs he'] at h1
  exact Prod.ext hk (Option.some.inj h1).symm

/-! ### The end of a phase -/

/-- A barrier whose phase has ended with a result. -/
def turned (result : Word) (e : Nat × Barrier) : Barrier :=
  { e.2 with phase := e.2.phase + 1, arrived := [], packets := [], parts := [], result := result }

theorem foldl_wake (p : Nat × Warp → Bool) (l : List (Nat × Warp)) (s : State) :
    OnlyReadied s (l.foldl (fun s x => if p x then s.wake x.1 false else s) s) ∧
      (l.foldl (fun s x => if p x then s.wake x.1 false else s) s).barriers = s.barriers := by
  induction l generalizing s with
  | nil => exact ⟨.refl s, rfl⟩
  | cons x r ih =>
    rw [List.foldl_cons]
    obtain ⟨h1, h2⟩ := ih (if p x then s.wake x.1 false else s)
    split at h1
    · rw [if_pos ‹_›] at h2 ⊢
      exact ⟨(wake_onlyReadied s x.1 false).trans h1, h2.trans (wake_barriers ..)⟩
    · rw [if_neg ‹_›] at h2 ⊢
      exact ⟨h1, h2⟩

theorem turnOne_spec (s : State) (result : Word) (e : Nat × Barrier) :
    OnlyReadied s (s.turnOne result e) ∧ (s.turnOne result e).barriers = sput s.barriers e.1 (turned result e) := by
  unfold State.turnOne
  obtain ⟨h1, h2⟩ := foldl_wake (fun x => x.2.gangs.any _) s.warps { s with barriers := sput s.barriers e.1 (turned result e) }
  have h0 : OnlyReadied s { s with barriers := sput s.barriers e.1 (turned result e) } := ⟨fun _ W h => ⟨W, h, rfl⟩, rfl⟩
  exact ⟨h0.trans h1, h2⟩

/-- The phases of some barriers end one after another. -/
def turnAll (result : Word) (l : List (Nat × Barrier)) (s : State) : State := l.foldl (fun t e => t.turnOne result e) s

theorem turnAll_spec (result : Word) (l : List (Nat × Barrier)) (s : State) :
    OnlyReadied s (turnAll result l s) ∧ (turnAll result l s).barriers = sputAll (turned result) l s.barriers := by
  induction l generalizing s with
  | nil => exact ⟨.refl s, rfl⟩
  | cons e r ih =>
    obtain ⟨h1, h2⟩ := turnOne_spec s result e
    obtain ⟨h3, h4⟩ := ih (s.turnOne result e)
    exact ⟨h1.trans h3, h4.trans (congrArg (sputAll (turned result) r) h2)⟩

/-- The state in which the phase of a barrier, and of those it is one with, has ended. -/
def phaseEnded (s : State) (id : Nat) (b : Barrier) : State :=
  turnAll (combineParts s.fresh (s.partsOf b)) (joined s id b) { s with fresh := s.fresh + 1 }

theorem turnPhase_eq (s : State) (id : Nat) (b : Barrier) : s.turnPhase id b = (phaseEnded s id b).takeEarly := rfl

theorem phaseEnded_sget {s : State} {id : Nat} {b : Barrier} (hb : sget s.barriers id = some b)
    (hs : srising s.barriers = true) {e : Nat × Barrier} (he : e ∈ joined s id b) :
    sget (phaseEnded s id b).barriers e.1 = some (turned (combineParts s.fresh (s.partsOf b)) e) := by
  rw [phaseEnded, (turnAll_spec _ _ _).2]
  exact sget_sputAll _ _ _ (joined_inj hb hs) he

theorem phaseTurned_phaseEnded {s : State} {id : Nat} {b : Barrier} (hb : sget s.barriers id = some b)
    (hs : srising s.barriers = true) : PhaseTurned s (phaseEnded s id b) id b := by
  obtain ⟨hready, hbar⟩ := turnAll_spec (combineParts s.fresh (s.partsOf b)) (joined s id b) { s with fresh := s.fresh + 1 }
  refine ⟨fun e he => ⟨_, phaseEnded_sget hb hs he, rfl, rfl, rfl, rfl, ?_⟩, fun k hk => ?_, hready.1, ?_⟩
  · exact fun op sg hne hlike => combineParts_like hne hlike
  · rw [phaseEnded, hbar]
    exact sget_sputAll_other _ _ _ _ hk
  · exact congrArg (fun (x : State) => { x with fresh := s.fresh }) hready.2

theorem phaseEnded_early (s : State) (id : Nat) (b : Barrier) : (phaseEnded s id b).early = s.early := by
  obtain ⟨⟨-, hframe⟩, -⟩ :=
    turnAll_spec (combineParts s.fresh (s.partsOf b)) (joined s id b) { s with fresh := s.fresh + 1 }
  have h := congrArg State.early hframe
  exact h

theorem takeEarly_of_early_nil {s : State} (h : s.early = []) : s.takeEarly = s := by
  unfold State.takeEarly
  rw [h]
  exact congrArg (fun e => { s with early := e }) h.symm

/-! ### BARRIER_RELEASE -/

theorem exec_barrierRelease (id : Nat) (s : State) : exec (.barrierRelease id) s = .next (releaseBarrier id s).tick := rfl

theorem whole_iff (s : State) (b : Barrier) :
    Whole s b ↔ ¬ (b.broken ∨ (s.others b).any (fun e => e.2.broken) = true) := by
  simp [Whole]

section
variable {s : State} {id : Nat} {b : Barrier} (hb : sget s.barriers id = some b)
include hb

theorem releaseBarrier_broken (h : ¬ Whole s b) : releaseBarrier id s = s := by
  rw [whole_iff, not_not] at h
  unfold releaseBarrier
  rw [hb]
  exact if_pos h

theorem releaseBarrier_reports (hw : Whole s b) {k : Nat} {p : Packet} (hr : s.report b = some (k, p)) :
    releaseBarrier id s = ({ s with
      barriers := sputAll (fun e => { e.2 with packets := e.2.packets ++ [remoteMember s.ownDevice] }) (joined s id b) s.barriers
      fresh := s.fresh + 1 } : State).sendFlit k [p] := by
  unfold releaseBarrier
  simp only [hb, if_neg ((whole_iff s b).mp hw), hr]
  rfl

theorem releaseBarrier_full (hw : Whole s b) (hr : s.report b = none) (ha : b.arrived ≠ [] ∨ b.packets ≠ [])
    (hf : s.phaseFull b = true) {l : List (Nat × Packet)} (hl : s.releases b = some l) :
    releaseBarrier id s = sendEach l (s.turnPhase id b) := by
  unfold releaseBarrier
  simp only [hb, if_neg ((whole_iff s b).mp hw), hr, if_pos (And.intro ha hf), hl]
  rfl

theorem releaseBarrier_not_full (hr : s.report b = none) (h : (b.arrived = [] ∧ b.packets = []) ∨ s.phaseFull b = false) :
    releaseBarrier id s = s := by
  have hn : ¬ ((b.arrived ≠ [] ∨ b.packets ≠ []) ∧ s.phaseFull b = true) := by
    rintro ⟨ha, hf⟩
    rcases h with ⟨h1, h2⟩ | h
    · exact ha.elim (fun x => x h1) (fun x => x h2)
    · rw [h] at hf
      cases hf
  unfold releaseBarrier
  simp only [hb, hr, if_neg hn, ite_self]

end

/-! ### Reports and releases (R324) -/

theorem report_of_root {s : State} {b : Barrier} {x : Nat × Nat × Nat × List Nat} (hx : s.groupBarrier b = some x)
    (hroot : s.rootDevice x.2.2.1 = s.ownDevice) : s.report b = none := by
  unfold State.report
  rw [hx]
  dsimp only
  split
  · rfl
  · exact if_pos (.inl hroot)

theorem releases_of_not_root {s : State} {b : Barrier}
    (h : ∀ x, s.groupBarrier b = some x → s.rootDevice x.2.2.1 ≠ s.ownDevice) : s.releases b = some [] := by
  unfold State.releases
  split
  · rfl
  · rename_i g ph ctx gone hx
    exact if_pos (h _ hx)

/-- The members that the root releases. -/
def releasedMembers (s : State) (ctx ph : Nat) (gone : List Nat) : List Nat :=
  (s.groupDevices ctx).filter (fun d => d != s.ownDevice && !gone.contains (d + 16 * ph))

theorem mem_releasedMembers {s : State} {ctx ph d : Nat} {gone : List Nat} :
    d ∈ releasedMembers s ctx ph gone ↔ d ∈ s.groupDevices ctx ∧ d ≠ s.ownDevice ∧ gone.contains (d + 16 * ph) = false := by
  rw [releasedMembers, List.mem_filter, Bool.and_eq_true, bne_iff_ne, Bool.not_eq_true']

/-- The packet of the root's release (assumption 30). -/
def releasePacket (s : State) (b : Barrier) (ctx ph : Nat) : Packet :=
  barrierMessage (s.groupOf ctx) b.num ph (if (s.partsOf b).isEmpty then 3 else 4) 4 (combineParts s.fresh (s.partsOf b))

theorem foldl_links (f : Nat → Option Nat) (p : Packet) (l : List Nat) (h : ∀ d ∈ l, f d ≠ none) (a : List (Nat × Packet)) :
    ∃ r, l.foldl (fun a d => match a, f d with
        | some l, some k => some (l ++ [(k, p)])
        | _, _ => none) (some a) = some (a ++ r) ∧ ∀ d ∈ l, ∃ k, f d = some k ∧ (k, p) ∈ r := by
  induction l generalizing a with
  | nil => exact ⟨[], by rw [List.append_nil]; rfl, by simp⟩
  | cons d t ih =>
    obtain ⟨k, hk⟩ := Option.ne_none_iff_exists'.mp (h d List.mem_cons_self)
    obtain ⟨r, hr, hall⟩ := ih (fun d hd => h d (List.mem_cons_of_mem _ hd)) (a ++ [(k, p)])
    refine ⟨(k, p) :: r, ?_, ?_⟩
    · rw [List.foldl_cons, hk, hr, List.append_assoc, List.singleton_append]
    · refine List.forall_mem_cons.mpr ⟨⟨k, hk, List.mem_cons_self⟩, fun d hd => ?_⟩
      obtain ⟨k', hk', hm⟩ := hall d hd
      exact ⟨k', hk', List.mem_cons_of_mem _ hm⟩

/-- The root releases each member that it has a link to. -/
theorem releases_of_root {s : State} {b : Barrier} {g ph ctx : Nat} {gone : List Nat}
    (hx : s.groupBarrier b = some (g, ph, ctx, gone)) (hroot : s.rootDevice ctx = s.ownDevice)
    (hlink : ∀ d ∈ releasedMembers s ctx ph gone, s.groupLink ctx d ≠ none) :
    ∃ l, s.releases b = some l ∧
      ∀ d ∈ releasedMembers s ctx ph gone, ∃ k, s.groupLink ctx d = some k ∧ (k, releasePacket s b ctx ph) ∈ l := by
  obtain ⟨r, hr, hall⟩ := foldl_links (s.groupLink ctx) (releasePacket s b ctx ph) _ hlink []
  refine ⟨r, ?_, hall⟩
  unfold State.releases
  simp only [hx, hroot, ne_eq, not_true_eq_false, if_false]
  rw [List.nil_append] at hr
  exact hr

/-! ### A block barrier on one core (R166, R204) -/

theorem getLsbD_slice_lt {m : BitVec 8} {j : Nat} (h : m.getLsbD j = true) : j < 8 := by
  by_contra hj
  rw [BitVec.getLsbD_of_ge m j (by omega)] at h
  cases h

theorem and_not_eq_zero_iff (x y : BitVec 8) : x &&& ~~~y = 0 ↔ ∀ j, x.getLsbD j = true → y.getLsbD j = true := by
  constructor
  · intro h j hx
    have hj := congrArg (fun z : BitVec 8 => z.getLsbD j) h
    simpa [hx, getLsbD_slice_lt hx] using hj
  · intro h
    apply BitVec.eq_of_getLsbD_eq
    intro j hj
    cases hx : x.getLsbD j with
    | false => simp [hx]
    | true => simp [hx, h j hx]

theorem ne_zero_iff (x : BitVec 8) : x ≠ 0 ↔ ∃ j, x.getLsbD j = true := by
  constructor
  · intro h
    by_contra hn
    simp only [not_exists, Bool.not_eq_true] at hn
    exact h (BitVec.eq_of_getLsbD_eq (fun j _ => by simp [hn j]))
  · rintro ⟨j, hj⟩ rfl
    simp at hj

/-- The unexited slices of a warp that has not ended. -/
def liveMask (s : State) (w : Nat) : BitVec 8 :=
  match sget s.warps w with
  | some W => if W.ended then 0 else W.live
  | none => 0

theorem getLsbD_liveMask (s : State) (w j : Nat) : (liveMask s w).getLsbD j = true ↔ liveSlice s w j := by
  unfold liveMask liveSlice
  cases hw : sget s.warps w with
  | none => simp
  | some W =>
    cases he : W.ended with
    | true => simp [he]
    | false =>
      simp only [Bool.false_eq_true, if_false, Option.some.injEq, exists_eq_left', he, true_and]
      constructor
      · intro h
        have hj := getLsbD_slice_lt h
        rw [live_iff W j hj] at h
        exact ⟨hj, by simpa using h⟩
      · rintro ⟨hj, hx⟩
        rw [live_iff W j hj, hx]
        rfl

theorem warpArrived_eq (s : State) (b : Barrier) (w : Nat) :
    s.warpArrived b w = (liveMask s w &&& ~~~(zget 0 b.arrived w) == 0 && !s.storesOut w (~~~liveMask s w) &&
      !s.drainsOut w (~~~liveMask s w) && (liveMask s w != 0 || !s.steps.any (fun e => e.2.warp == w))) := by
  unfold State.warpArrived liveMask
  rfl

theorem storesOut_exited (s : State) (w : Nat) : s.storesOut w (~~~liveMask s w) = false ↔
    ∀ e ∈ s.regq, e.2.warp = w → ∀ j, e.2.slices.getLsbD j = true → liveSlice s w j := by
  simp only [State.storesOut, List.any_eq_false, Bool.and_eq_true, decide_eq_true_eq, Bool.not_eq_true', not_and,
    Bool.not_eq_false, beq_iff_eq, and_not_eq_zero_iff, getLsbD_liveMask]

theorem drainsOut_exited (s : State) (w : Nat) : s.drainsOut w (~~~liveMask s w) = false ↔
    ∀ e ∈ s.cmds, e.2.warp = w → e.2.drain = true → ∀ j, e.2.slices.getLsbD j = true → liveSlice s w j := by
  simp only [State.drainsOut, List.any_eq_false, Bool.and_eq_true, decide_eq_true_eq, Bool.not_eq_true', not_and, and_imp,
    Bool.not_eq_false, beq_iff_eq, and_not_eq_zero_iff, getLsbD_liveMask]

/-- What it means that a warp has arrived. -/
theorem warpArrived_iff (s : State) (b : Barrier) (w : Nat) : s.warpArrived b w = true ↔
    (∀ j, liveSlice s w j → (zget 0 b.arrived w).getLsbD j = true) ∧
    (∀ e ∈ s.regq, e.2.warp = w → ∀ j, e.2.slices.getLsbD j = true → liveSlice s w j) ∧
    (∀ e ∈ s.cmds, e.2.warp = w → e.2.drain = true → ∀ j, e.2.slices.getLsbD j = true → liveSlice s w j) ∧
    ((∃ j, liveSlice s w j) ∨ ∀ e ∈ s.steps, e.2.warp ≠ w) := by
  have harr : liveMask s w &&& ~~~(zget 0 b.arrived w) = 0 ↔
      ∀ j, liveSlice s w j → (zget 0 b.arrived w).getLsbD j = true := by
    simp only [and_not_eq_zero_iff, getLsbD_liveMask]
  have hlive : liveMask s w ≠ 0 ↔ ∃ j, liveSlice s w j := by
    simp only [ne_zero_iff, getLsbD_liveMask]
  have hsteps : s.steps.any (fun e => e.2.warp == w) = false ↔ ∀ e ∈ s.steps, e.2.warp ≠ w := by
    simp [List.any_eq_false]
  rw [warpArrived_eq, Bool.and_eq_true, Bool.and_eq_true, Bool.and_eq_true, Bool.or_eq_true, beq_iff_eq, bne_iff_ne,
    Bool.not_eq_true', Bool.not_eq_true', Bool.not_eq_true', harr, storesOut_exited, drainsOut_exited, hlive, hsteps, and_assoc,
    and_assoc]

theorem phaseFull_block {s : State} {b : Barrier} {blk : Nat} {B : Block} (hl : b.level = 4) (hi : b.inst = [blk])
    (hB : sget s.blocks blk = some B) (hc : B.cores.length = 1) :
    s.phaseFull b = true ↔ ∀ w ∈ B.members, s.warpArrived b w = true := by
  unfold State.phaseFull
  simp only [hl, hi, hB, hc, List.all_eq_true, State.memberDone, bne_self_eq_false, Bool.not_false, Bool.true_or, Bool.and_true]

/-! ### Packets (R38, R324) -/

theorem remoteArrive_of_early_nil {s : State} (h : s.early = []) (dev : Nat) (p : Packet) (hp : Packet.read p.bytes = p) :
    s.remoteArrive dev p = (s.takeBarrier dev p).getD { s with early := [(dev, p.bytes)] } := by
  have hs : ({ s with early := [] } : State) = s := congrArg (fun e => { s with early := e }) h.symm
  unfold State.remoteArrive State.takeEarly
  simp only [h, List.nil_append, List.foldl_cons, List.foldl_nil, hs, List.any_nil, Bool.false_eq_true, if_false, hp]
  cases s.takeBarrier dev p <;> rfl

theorem takeBarrier_no_grove {s : State} (hr : s.roots = []) {dev : Nat} {p : Packet} (hg : s.groupGroves p.group = []) :
    s.takeBarrier dev p = none := by
  unfold State.takeBarrier
  rw [hr, hg]
  rfl

section
variable {s : State} (hr : s.roots = []) {dev g : Nat} {p : Packet} {G : Grove} (hg : s.groupGroves p.group = [(g, G)])
include hr hg

theorem takeBarrier_ended (he : s.tooEarly g (some G.phase) G.gone dev p = false) (ht : p.type = 5) :
    s.takeBarrier dev p = some (s.modGrove g (fun G => { G with gone := G.gone ++ endedPhases dev p })) := by
  unfold State.takeBarrier
  rw [hr, hg]
  simp [he, ht]

theorem takeBarrier_joins (he : s.tooEarly g (some G.phase) G.gone dev p = false) (ht : p.type ≠ 5) :
    s.takeBarrier dev p = some (s.joinBarrier g true dev p) := by
  unfold State.takeBarrier
  rw [hr, hg]
  simp [he, ht]

end

theorem tooEarly_ended (s : State) {g dev : Nat} {G : Grove} {p : Packet} (ho : p.other < 2)
    (hgone : G.gone.contains (dev + 16 * p.other) = false) (ht : p.type = 5) :
    s.tooEarly g (some G.phase) G.gone dev p = false := by
  have h2 : p.other ≠ 2 := by omega
  simp only [State.tooEarly, if_neg h2, hgone, ht, bne_self_eq_false, Bool.false_and, Bool.or_false]

theorem tooEarly_report {s : State} {g dev : Nat} {G : Grove} {p : Packet} (ho : p.other < 2) (hph : p.other = G.phase)
    (hgone : G.gone.contains (dev + 16 * p.other) = false)
    (hb : ∀ i x, s.findBarrier 7 [g, p.other] p.tag = some (i, x) → x.packets.contains (remoteMember dev) = false) :
    s.tooEarly g (some G.phase) G.gone dev p = false := by
  have h2 : p.other ≠ 2 := by omega
  have hlt : decide (G.phase < p.other) = false := by simp [hph]
  simp only [State.tooEarly, if_neg h2, hgone, Option.map_some, Option.getD_some, hlt, Bool.false_or]
  cases hf : s.findBarrier 7 [g, p.other] p.tag with
  | none => simp only [Bool.and_false]
  | some e => simp only [hb e.1 e.2 hf, Bool.and_false]

/-- A packet that joins a barrier stands among its packets; the arrivals stay. -/
theorem joinBarrier_spec (s : State) (g : Nat) (first : Bool) (dev : Nat) (p : Packet) :
    (s.joinBarrier g first dev p).early = s.early ∧ ∃ i x,
      ((s.findBarrier 7 [g, p.other] p.tag = some (i, x)) ∨
        (s.findBarrier 7 [g, p.other] p.tag = none ∧ i = s.nextId ∧ x.packets = [] ∧ x.arrived = [])) ∧
      ∃ y, sget (s.joinBarrier g first dev p).barriers i = some y ∧ y.packets = x.packets ++ [remoteMember dev] ∧
        y.arrived = x.arrived := by
  unfold State.joinBarrier State.deviceBarrier
  cases hf : s.findBarrier 7 [g, p.other] p.tag with
  | some e => exact ⟨rfl, e.1, e.2, .inl rfl, _, sget_sput_same .., rfl, rfl⟩
  | none =>
    exact ⟨rfl, s.nextId, Barrier.unused 7 [g, p.other] p.tag, .inr ⟨rfl, rfl, rfl, rfl⟩, _, sget_sput_same .., rfl, rfl⟩

theorem sget_groves_modGrove {s : State} {g : Nat} {G : Grove} (h : sget s.groves g = some G) (f : Grove → Grove) :
    sget (s.modGrove g f).groves g = some (f G) := by
  rw [State.modGrove_groves, smod_eq _ _ _ _ h, sget_sput_same]

theorem barrierPacket_arrived {s : State} {id w : Nat} {b : Barrier} (hb : sget s.barriers id = some b)
    (hwide : s.isWide b = true) (hin : (sget b.arrived w).isSome = true) (harr : s.warpArrived b w = true)
    (hnew : b.packets.contains w = false) :
    barrierPacket id w s = { s with barriers := sput s.barriers id { b with packets := b.packets ++ [w] } } := by
  unfold barrierPacket
  rw [hb]
  exact if_pos ⟨hwide, hin, harr, hnew⟩

theorem barrierPacket_again {s : State} {id w : Nat} {b : Barrier} (hb : sget s.barriers id = some b)
    (hold : b.packets.contains w = true) : barrierPacket id w s = s := by
  unfold barrierPacket
  rw [hb]
  refine if_neg ?_
  rintro ⟨-, -, -, hnew⟩
  rw [hold] at hnew
  cases hnew

/-! ### The clauses of BarrierPhases -/

section
variable {s : State} {id : Nat} {b : Barrier} (hb : sget s.barriers id = some b) (hs : srising s.barriers = true)
include hb hs

/-- A barrier that no group root of this device releases ends its phase alone. -/
theorem release_phaseTurned (hw : Whole s b) (ha : b.arrived ≠ [] ∨ b.packets ≠ []) (hf : s.phaseFull b = true)
    (hr : s.report b = none) (hn : ∀ x, s.groupBarrier b = some x → s.rootDevice x.2.2.1 ≠ s.ownDevice) :
    ∃ u, PhaseTurned s u id b ∧ exec (.barrierRelease id) s = .next u.takeEarly.tick ∧ (s.early = [] → u.takeEarly = u) := by
  refine ⟨phaseEnded s id b, phaseTurned_phaseEnded hb hs, ?_, fun he => ?_⟩
  · rw [exec_barrierRelease, releaseBarrier_full hb hw hr ha hf (releases_of_not_root hn), turnPhase_eq]
    rfl
  · exact takeEarly_of_early_nil ((phaseEnded_early s id b).trans he)

/-- A member's report stands among the packets of its barriers, and is sent or waits for its link. -/
theorem release_reports (hw : Whole s b) {k : Nat} {p : Packet} (hr : s.report b = some (k, p)) :
    ∃ t, exec (.barrierRelease id) s = .next t ∧
      sget t.barriers id = some { b with packets := b.packets ++ [remoteMember s.ownDevice] } ∧ t.warps = s.warps ∧
      if (s.link k).phase = 2 ∧ (s.link k).room = true ∧ (s.link k).waiting = [] then
        .flit k (flitOf (s.link k).sendSeq.toNat ((s.link k).recvSeq - 1).toNat (Config.flitHead (s.fresh + 1)) [p]) ∈ t.outbox
      else (t.link k).waiting = (s.link k).waiting ++ [p.bytes] := by
  have htold := sget_sputAll (fun e => { e.2 with packets := e.2.packets ++ [remoteMember s.ownDevice] }) (joined s id b)
    s.barriers (joined_inj hb hs) (List.mem_cons_self (a := (id, b)))
  rw [exec_barrierRelease, releaseBarrier_reports hb hw hr]
  refine ⟨_, rfl, ?_, ?_, ?_⟩
  · rw [State.tick_barriers, sendFlit_barriers]
    exact htold
  · rw [State.tick_warps, sendFlit_warps]
  · split
    · rw [State.tick_outbox, sendFlit_clear ‹_›]
      exact mem_outbox_emitFlit _ k [p]
    · rw [sendFlit_waits ‹_›]
      exact congrArg Link.waiting ((State.link_setLink _ k _ k).trans (if_pos rfl))

/-- The root of a device group ends the phase and releases every other member that has not ended it. -/
theorem release_of_root (hw : Whole s b) {g ph ctx : Nat} {gone : List Nat} (hx : s.groupBarrier b = some (g, ph, ctx, gone))
    (hroot : s.rootDevice ctx = s.ownDevice) (he : s.early = []) (ha : b.arrived ≠ [] ∨ b.packets ≠ [])
    (hf : s.phaseFull b = true)
    (hlink : ∀ d ∈ s.groupDevices ctx, d ≠ s.ownDevice → gone.contains (d + 16 * ph) = false → s.groupLink ctx d ≠ none) :
    ∃ t B, exec (.barrierRelease id) s = .next t ∧ sget t.barriers id = some B ∧ B.phase = b.phase + 1 ∧ B.arrived = [] ∧
      (∀ d ∈ s.groupDevices ctx, d ≠ s.ownDevice → gone.contains (d + 16 * ph) = false → ∃ k m, s.groupLink ctx d = some k ∧
        ((∃ f, .flit k f ∈ t.outbox ∧ Packet.read m ∈ flitPackets f) ∨ m ∈ (t.link k).waiting) ∧ (Packet.read m).kind = 5 ∧
        (Packet.read m).tag = b.num % 2 ^ 32 ∧ (Packet.read m).type = if s.partsOf b = [] then 3 else 4) := by
  have hlink' : ∀ d ∈ releasedMembers s ctx ph gone, s.groupLink ctx d ≠ none := fun d hd =>
    let ⟨h1, h2, h3⟩ := mem_releasedMembers.mp hd
    hlink d h1 h2 h3
  obtain ⟨l, hl, hall⟩ := releases_of_root hx hroot hlink'
  have hended : s.turnPhase id b = phaseEnded s id b :=
    takeEarly_of_early_nil ((phaseEnded_early s id b).trans he)
  have hkind : (Packet.read (releasePacket s b ctx ph).bytes).kind = 5 := read_bytes_kind _
  rw [exec_barrierRelease, releaseBarrier_full hb hw (report_of_root hx hroot) ha hf hl, hended]
  refine ⟨_, turned (combineParts s.fresh (s.partsOf b)) (id, b), rfl, ?_, rfl, rfl, fun d hd hne hg => ?_⟩
  · rw [State.tick_barriers, sendEach_barriers]
    exact phaseEnded_sget hb hs (List.mem_cons_self (a := (id, b)))
  · obtain ⟨k, hk, hmem⟩ := hall d (mem_releasedMembers.mpr ⟨hd, hne, hg⟩)
    refine ⟨k, (releasePacket s b ctx ph).bytes, hk, ?_, hkind, read_bytes_tag _, ?_⟩
    · exact sent_sendEach l (phaseEnded s id b) hmem (by rw [hkind]; decide)
    · rw [read_bytes_type]
      show (if (s.partsOf b).isEmpty = true then 3 else 4) % 256 = _
      simp only [List.isEmpty_iff]
      split <;> rfl

end

/-- Settles O40: the branches of BARRIER_RELEASE and BARRIER_PACKET, and the packets that a device group's barriers take. -/
theorem barrierPhases : Obligations.BarrierPhases := by
  intro s id b hb hs
  refine ⟨?_, ?_, ?_, ?_, ?_, ?_, ?_, ?_, ?_⟩
  · intro hw
    rw [exec_barrierRelease, releaseBarrier_broken hb hw]
  · exact fun hw ha hf hr hn => release_phaseTurned hb hs hw ha hf hr hn
  · intro h hr
    rw [exec_barrierRelease, releaseBarrier_not_full hb hr h]
  · exact fun k p hw hr => release_reports hb hs hw hr
  · exact fun g ph ctx gone hw hx hroot he ha hf hlink => release_of_root hb hs hw hx hroot he ha hf hlink
  · intro blk B hl hi hB hc
    rw [phaseFull_block hl hi hB hc]
    simp only [warpArrived_iff]
  · intro w hwide hin harr hnew
    refine ⟨_, congrArg (fun t => Host.Outcome.next (State.tick t)) (barrierPacket_arrived hb hwide hin harr hnew),
      sget_sput_same .., fun k hk => sget_sput_other _ hk _, rfl⟩
  · intro w hold
    exact congrArg (fun t => Host.Outcome.next (State.tick t)) (barrierPacket_again hb hold)
  · intro dev p hp he hr
    rw [remoteArrive_of_early_nil he dev p hp]
    refine ⟨fun hg => ?_, fun g G hg hG ho hph hgone => ⟨fun ht => ?_, fun ht hfree => ?_⟩⟩
    · rw [takeBarrier_no_grove hr hg]
      rfl
    · rw [takeBarrier_ended hr hg (tooEarly_ended s ho hgone ht) ht]
      have h2 : p.other ≠ 2 := by omega
      refine ⟨?_, he⟩
      rw [Option.getD_some, sget_groves_modGrove hG, endedPhases, if_neg h2]
      rfl
    · rw [takeBarrier_joins hr hg (tooEarly_report ho hph hgone hfree) ht]
      obtain ⟨h1, h2⟩ := joinBarrier_spec s g true dev p
      exact ⟨h1.trans he, h2⟩

end Sys2Proof.Proofs.Barriers
end

section
/-! SUPPORT. Warps, gangs and slices after the shared operations: a gang that is changed, slices that go on, a gang whose slices stay
together, and what the end of an issue leaves of the machine (R16, R21, R61, R123). -/

namespace Sys2Proof.Proofs.Gangs

open Sys2Proof Sys2Proof.Machine Sys2Proof.Claims

/-! ### Masks of slices -/

theorem slice_lt {m : BitVec 8} {j : Nat} (h : m.getLsbD j = true) : j < 8 := by
  by_contra hj
  rw [BitVec.getLsbD_of_ge m j (by omega)] at h
  cases h

theorem ne_zero_of_slice {m : BitVec 8} {j : Nat} (h : m.getLsbD j = true) : m ≠ 0 := by
  rintro rfl
  simp at h

/-- The lowest slice of a mask that has one is a slice of it. -/
theorem getLsbD_lowSlice {m : BitVec 8} (h : m ≠ 0) : m.getLsbD (lowSlice m) = true := by
  unfold lowSlice
  cases hl : slicesOf m with
  | nil =>
    refine absurd (BitVec.eq_of_getLsbD_eq (fun j _ => ?_)) h
    have hj : j ∉ slicesOf m := by simp [hl]
    simpa [mem_slicesOf] using hj
  | cons j r =>
    have hj : j ∈ slicesOf m := by simp [hl]
    exact (mem_slicesOf m j).mp hj

theorem getLsbD_of_disjoint {a b : BitVec 8} (h : a &&& b = 0) {j : Nat} (hb : b.getLsbD j = true) : a.getLsbD j = false := by
  have hj := congrArg (fun x : BitVec 8 => x.getLsbD j) h
  simpa [hb] using hj

theorem getLsbD_foldl_slices (l : List Nat) (a : BitVec 8) (hl : ∀ i ∈ l, i < 8) (j : Nat) :
    (l.foldl (fun a i => a ||| (1#8 <<< i)) a).getLsbD j = (a.getLsbD j || l.contains j) := by
  induction l generalizing a with
  | nil => simp
  | cons i t ih =>
    have hi : i < 8 := hl i List.mem_cons_self
    have hbit : (1#8 <<< i).getLsbD j = (j == i) := by
      rw [BitVec.getLsbD_shiftLeft, BitVec.getLsbD_one]
      by_cases hj : j = i
      · simp [hj, hi]
      · have : (j == i) = false := beq_eq_false_iff_ne.mpr hj
        rw [this]
        by_cases hlt : j < i
        · simp [hlt]
        · simp [show j - i ≠ 0 by omega]
    rw [List.foldl_cons, ih _ (fun k hk => hl k (List.mem_cons_of_mem _ hk)), BitVec.getLsbD_or, hbit, List.contains_cons,
      Bool.or_assoc]

theorem foldl_slicesOf (m : BitVec 8) : (slicesOf m).foldl (fun a i => a ||| (1#8 <<< i)) 0 = m := by
  apply BitVec.eq_of_getLsbD_eq
  intro j _
  rw [getLsbD_foldl_slices _ _ (fun i hi => slice_lt ((mem_slicesOf m i).mp hi))]
  rw [Bool.eq_iff_iff]
  simp [mem_slicesOf]

/-! ### Slices of one PC stay together -/

/-- The groups of some slices after one more. -/
def joinGroup (W : Warp) (gs : List (BitVec 8)) (j : Nat) : List (BitVec 8) :=
  match gs.find? (fun x => (W.slice (lowSlice x)).pc == (W.slice j).pc) with
  | some x => gs.map (fun y => if y = x then y ||| (1#8 <<< j) else y)
  | none => gs ++ [1#8 <<< j]

theorem groupByPc_eq_foldl (W : Warp) (m : BitVec 8) : groupByPc W m = (slicesOf m).foldl (joinGroup W) [] := rfl

theorem joinGroup_one {W : Warp} {x : BitVec 8} {j : Nat} (h : (W.slice (lowSlice x)).pc = (W.slice j).pc) :
    joinGroup W [x] j = [x ||| (1#8 <<< j)] := by
  simp [joinGroup, h]

theorem foldl_joinGroup_one {W : Warp} {pc : DWord} (l : List Nat) (x : BitVec 8) (hx : x ≠ 0) (hl : ∀ j ∈ l, j < 8)
    (hpc : ∀ j ∈ l, (W.slice j).pc = pc) (hxpc : ∀ j, x.getLsbD j = true → (W.slice j).pc = pc) :
    l.foldl (joinGroup W) [x] = [l.foldl (fun a i => a ||| (1#8 <<< i)) x] := by
  induction l generalizing x with
  | nil => rfl
  | cons i t ih =>
    have hi := hpc i List.mem_cons_self
    have hstep := joinGroup_one ((hxpc _ (getLsbD_lowSlice hx)).trans hi.symm)
    have hbits (j : Nat) : (x ||| 1#8 <<< i).getLsbD j = (x.getLsbD j || [i].contains j) :=
      getLsbD_foldl_slices [i] x (fun k hk => hl k (by simp_all)) j
    rw [List.foldl_cons, hstep, List.foldl_cons]
    refine ih _ ?_ (fun j hj => hl j (List.mem_cons_of_mem _ hj)) (fun j hj => hpc j (List.mem_cons_of_mem _ hj)) ?_
    · refine ne_zero_of_slice (j := i) ?_
      rw [hbits]
      simp
    · intro j hj
      rw [hbits, Bool.or_eq_true] at hj
      rcases hj with hj | hj
      · exact hxpc j hj
      · have : j = i := by simpa using hj
        rw [this, hi]

/-- Slices of one PC are one group. -/
theorem groupByPc_together {W : Warp} {m : BitVec 8} {pc : DWord} (hm : m ≠ 0)
    (h : ∀ j, m.getLsbD j = true → (W.slice j).pc = pc) : groupByPc W m = [m] := by
  have hmem (j : Nat) (hj : j ∈ slicesOf m) : m.getLsbD j = true := (mem_slicesOf m j).mp hj
  rw [groupByPc_eq_foldl]
  have hfold := foldl_slicesOf m
  cases hl : slicesOf m with
  | nil =>
    rw [hl] at hfold
    exact absurd hfold.symm hm
  | cons i t =>
    rw [hl] at hfold hmem
    have hi8 : i < 8 := slice_lt (hmem i List.mem_cons_self)
    have h0 : joinGroup W [] i = [1#8 <<< i] := rfl
    have hbit (j : Nat) : (1#8 <<< i).getLsbD j = [i].contains j := by
      have := getLsbD_foldl_slices [i] 0 (fun k hk => by simp_all) j
      simpa using this
    rw [List.foldl_cons, h0, foldl_joinGroup_one (pc := pc) t]
    · rw [← hfold, List.foldl_cons]
      simp
    · exact ne_zero_of_slice (j := i) (by rw [hbit]; simp)
    · exact fun j hj => slice_lt (hmem j (List.mem_cons_of_mem _ hj))
    · exact fun j hj => h j (hmem j (List.mem_cons_of_mem _ hj))
    · intro j hj
      rw [hbit] at hj
      have : j = i := by simpa using hj
      exact this ▸ h i (hmem i List.mem_cons_self)

/-! ### A gang that is changed -/

theorem gangAt_modGang (W : Warp) (i j : Nat) (f : Gang → Gang) (hf : ∀ g, (f g).slices = g.slices) :
    (W.modGang i f).gangAt j = (W.gangAt j).map (fun g => if g.slices.getLsbD i then f g else g) :=
  find_map_gangs _ _ _ (fun g => by split <;> simp [hf])

theorem slices_of_gangAt {W : Warp} {j : Nat} {g : Gang} (h : W.gangAt j = some g) : g.slices.getLsbD j = true := by
  simpa using List.find?_some h

theorem gangAt_modGang_same {W : Warp} {j : Nat} {g : Gang} (h : W.gangAt j = some g) (f : Gang → Gang)
    (hf : ∀ g, (f g).slices = g.slices) : (W.modGang j f).gangAt j = some (f g) := by
  rw [gangAt_modGang W j j f hf, h, Option.map_some, if_pos (slices_of_gangAt h)]

/-- A gang that shares no slice with the changed one stays. -/
theorem gangAt_modGang_other {W : Warp} {i j : Nat} {G g : Gang} (hG : W.gangAt i = some G) (hg : W.gangAt j = some g)
    (hd : g.slices &&& G.slices = 0) (f : Gang → Gang) (hf : ∀ g, (f g).slices = g.slices) :
    (W.modGang i f).gangAt j = some g := by
  rw [gangAt_modGang W i j f hf, hg, Option.map_some, if_neg]
  rw [getLsbD_of_disjoint hd (slices_of_gangAt hG)]
  exact Bool.false_ne_true

/-! ### Gangs that part, slices that go on -/

theorem lone_frame (W : Warp) : { W.lone with gangs := W.gangs } = W := by
  unfold Warp.lone
  split <;> rfl

/-- Parting changes gangs alone. -/
theorem sunder_frame (W : Warp) (m : BitVec 8) (keep : Option DWord) : { W.sunder m keep with gangs := W.gangs } = W := by
  unfold Warp.sunder
  exact congrArg (fun V : Warp => { V with gangs := W.gangs }) (lone_frame _)

/-- Going on changes gangs and slices alone. -/
theorem go_frame (W : Warp) (m : BitVec 8) (keep : Option DWord) (f : Nat → Slice → Slice) :
    { W.go m keep f with gangs := W.gangs, slices := W.slices } = W := by
  unfold Warp.go
  exact congrArg (fun V : Warp => { V with slices := W.slices }) (sunder_frame (W.modSlices m (fun j x => Slice.settle 20 (f j x))) m keep)

theorem slice_sunder (W : Warp) (m : BitVec 8) (keep : Option DWord) (j : Nat) : (W.sunder m keep).slice j = W.slice j := by
  unfold Warp.slice
  rw [sunder_slices]

theorem live_congr {W V : Warp} (h : ∀ j, (W.slice j).exited = (V.slice j).exited) : W.live = V.live := by
  apply BitVec.eq_of_getLsbD_eq
  intro j hj
  rw [live_iff W j hj, live_iff V j hj, h]

theorem mem_lone_gangs {W : Warp} {g : Gang} (h : g ∈ W.lone.gangs) : ∃ g' ∈ W.gangs, g = g' ∨ g = { g' with written := 0 } := by
  unfold Warp.lone at h
  split at h
  · rename_i g' hg
    rw [List.mem_singleton.mp h, hg]
    exact ⟨g', List.mem_cons_self, .inr rfl⟩
  · exact ⟨g, h, .inl rfl⟩

/-- A gang after some part: a part of a gang before. -/
theorem mem_sunder_gangs {W : Warp} {m : BitVec 8} {keep : Option DWord} {g : Gang} (h : g ∈ (W.sunder m keep).gangs) :
    ∃ g' ∈ W.gangs, g = { g' with slices := g.slices, hints := g.hints, written := g.written } := by
  obtain ⟨x, hx, hg⟩ := mem_lone_gangs h
  obtain ⟨g', hg', hmem⟩ := List.mem_flatMap.mp hx
  refine ⟨g', hg', ?_⟩
  have hxg : x = { g' with slices := x.slices, hints := x.hints } := by
    split at hmem
    · obtain ⟨y, -, rfl⟩ := List.mem_map.mp hmem
      rfl
    · rw [List.mem_singleton.mp hmem]
  rcases hg with rfl | rfl <;> rw [hxg]

/-- What becomes of a gang where the gang of a mask goes on together at a PC: that gang loses its exited slices, and keeps its hints
where the PC is `keep`. -/
def together (m live : BitVec 8) (pc : DWord) (keep : Option DWord) (g : Gang) : Gang :=
  if g.slices = m then { g with slices := m &&& live, hints := if some pc = keep then g.hints else [] } else g

/-- Where the unexited slices of a gang have one PC it does not part. -/
theorem sunder_together {W : Warp} {m : BitVec 8} {pc : DWord} (keep : Option DWord) (hm : m &&& W.live ≠ 0)
    (h : ∀ j, (m &&& W.live).getLsbD j = true → (W.slice j).pc = pc) :
    W.sunder m keep = { W with gangs := W.gangs.map (together m W.live pc keep) }.lone := by
  unfold Warp.sunder
  dsimp only
  rw [groupByPc_together hm h, List.map_eq_flatMap]
  congr 3
  funext g
  unfold together
  split
  · simp only [List.map_cons, List.map_nil, h _ (getLsbD_lowSlice hm)]
  · rfl

/-! ### The end of an issue -/

/-- The issuing warp once its gang has issued. -/
def issuedWarp (c : Ctx) (now : Nat) (V : Warp) : Warp :=
  V.modGangs c.G.slices (fun g => g.issued now c.h (c.W.groupPc c.G))

theorem issuedWarp_gangAt (c : Ctx) (now : Nat) (V : Warp) (j : Nat) :
    (issuedWarp c now V).gangAt j = (V.gangAt j).map (fun g =>
      if g.slices &&& c.G.slices = 0 then g else g.issued now c.h (c.W.groupPc c.G)) :=
  find_map_gangs _ _ _ (fun g => by split <;> rfl)

theorem finish_spec {t : State} {c : Ctx} {V : Warp} (h : sget t.warps c.w = some V) :
    sget (t.finish c).warps c.w = some (issuedWarp c t.time V) ∧
    (∀ w, w ≠ c.w → sget (t.finish c).warps w = sget t.warps w) ∧
    { t.finish c with warps := t.warps, counters := t.counters, outbox := t.outbox, progress := t.progress } = t := by
  obtain ⟨cs, o, p, e⟩ := finish_frame t c
  rw [e]
  refine ⟨?_, fun w hw => sget_smod_other _ hw _, rfl⟩
  rw [smod_eq _ _ _ _ h]
  exact sget_sput_same ..

/-- The issuing warp once its gang has gone on at the next word. -/
def advancedWarp (c : Ctx) (V : Warp) : Warp :=
  V.go c.G.slices (some (c.W.pcOf c.G + 4)) (fun _ x => { x with pc := x.pc + 4 })

theorem advance_eq {t : State} {c : Ctx} {V : Warp} (h : sget t.warps c.w = some V) :
    t.advance c = t.setWarp c.w (advancedWarp c V) := by
  unfold State.advance State.modWarp State.setWarp
  rw [smod_eq _ _ _ _ h]
  rfl

theorem settle_done {s t : State} {c : Ctx} {V : Warp} (h : sget t.warps c.w = some V) :
    s.settle c (.done t) = (t.setWarp c.w (advancedWarp c V)).finish c := by
  rw [State.settle, advance_eq h]

theorem slice_advancedWarp (c : Ctx) (V : Warp) (j : Nat) (hj : j < V.slices.length) :
    (advancedWarp c V).slice j =
      if c.G.slices.getLsbD j then Slice.settle 20 { V.slice j with pc := (V.slice j).pc + 4 } else V.slice j := by
  unfold advancedWarp Warp.go
  rw [slice_sunder, slice_modSlices _ _ _ _ hj]

/-! ### Fields that going on leaves -/

section
variable (W : Warp) (m : BitVec 8) (keep : Option DWord) (f : Nat → Slice → Slice)

@[simp] theorem go_v : (W.go m keep f).v = W.v := by
  have h := congrArg Warp.v (go_frame W m keep f)
  exact h

@[simp] theorem go_p : (W.go m keep f).p = W.p := by
  have h := congrArg Warp.p (go_frame W m keep f)
  exact h

@[simp] theorem go_flags : (W.go m keep f).flags = W.flags := by
  have h := congrArg Warp.flags (go_frame W m keep f)
  exact h

@[simp] theorem go_age : (W.go m keep f).age = W.age := by
  have h := congrArg Warp.age (go_frame W m keep f)
  exact h

end

theorem slice_go (W : Warp) (m : BitVec 8) (keep : Option DWord) (f : Nat → Slice → Slice) {j : Nat}
    (hj : j < W.slices.length) :
    (W.go m keep f).slice j = if m.getLsbD j then Slice.settle 20 (f j (W.slice j)) else W.slice j := by
  unfold Warp.go
  rw [slice_sunder, slice_modSlices _ _ _ _ hj]

theorem lt_of_unexited {W : Warp} {j : Nat} (h : (W.slice j).exited = false) : j < W.slices.length := by
  by_contra hj
  rw [Warp.slice, List.getElem?_eq_none (by omega)] at h
  cases h

theorem settle_exited (n : Nat) (x : Slice) : (Slice.settle n x).exited = x.exited := by
  induction n generalizing x with
  | zero => rfl
  | succ n ih =>
    unfold Slice.settle
    split
    · rfl
    · split
      · split <;> rw [ih]
      · rfl

theorem modSlices_exited {W : Warp} {m : BitVec 8} {f : Nat → Slice → Slice} (hf : ∀ j x, (f j x).exited = x.exited)
    (j : Nat) : ((W.modSlices m f).slice j).exited = (W.slice j).exited := by
  by_cases hj : j < W.slices.length
  · rw [slice_modSlices _ _ _ _ hj]
    split
    · exact hf _ _
    · rfl
  · have hm : j ≥ (W.modSlices m f).slices.length := by
      simp only [Warp.modSlices, List.length_mapIdx]
      omega
    rw [Warp.slice, Warp.slice, List.getElem?_eq_none hm, List.getElem?_eq_none (by omega)]

/-- The next word of a slice. -/
def nextWord (_ : Nat) (x : Slice) : Slice := { x with pc := x.pc + 4 }

/-- The gang that holds an unexited slice, where the unexited slices of its mask have one PC and it does not part. -/
theorem sunder_gangAt_together {W : Warp} {m : BitVec 8} {pc : DWord} {j : Nat} {g : Gang} (keep : Option DWord)
    (hg : W.gangAt j = some g) (hgm : g.slices = m) (hj : (m &&& W.live).getLsbD j = true)
    (h : ∀ i, (m &&& W.live).getLsbD i = true → (W.slice i).pc = pc) :
    ∃ g', (W.sunder m keep).gangAt j = some g' ∧ g'.slices = m &&& W.live ∧ g'.s = g.s ∧ g'.q = g.q ∧
      g'.hints = if some pc = keep then g.hints else [] := by
  have hmj : m.getLsbD j = true := hgm ▸ slices_of_gangAt hg
  have hsame (x : Gang) : (together m W.live pc keep x).slices.getLsbD j = x.slices.getLsbD j := by
    unfold together
    split
    · rw [‹x.slices = m›, hmj]
      exact hj
    · rfl
  have hgang : ({ W with gangs := W.gangs.map (together m W.live pc keep) } : Warp).gangAt j =
      some (together m W.live pc keep g) := by
    unfold Warp.gangAt at hg ⊢
    rw [List.find?_map, show (fun g : Gang => g.slices.getLsbD j) ∘ together m W.live pc keep = _ from funext hsame, hg]
    rfl
  have htog : together m W.live pc keep g =
      { g with slices := m &&& W.live, hints := if some pc = keep then g.hints else [] } := if_pos hgm
  rw [sunder_together keep (ne_zero_of_slice hj) h]
  rcases lone_alike { W with gangs := W.gangs.map (together m W.live pc keep) } j with
    ⟨hnone, -⟩ | ⟨x, g', hx, hg', hs, hq, hh, hsl⟩
  · rw [hgang] at hnone
    cases hnone
  · rw [hgang, htog] at hx
    cases hx
    exact ⟨g', hg', hsl, hs, hq, hh⟩

/-- A gang whose slices wait for no lanes and have one PC goes on together at the next word. -/
theorem go_together {V : Warp} {m : BitVec 8} {pc : DWord} {j : Nat} {g : Gang} (keep : Option DWord)
    (hg : V.gangAt j = some g) (hgm : g.slices = m) (hj : (V.slice j).exited = false)
    (h : ∀ i, i < 8 → m.getLsbD i = true → (V.slice i).stack = [] ∧ (V.slice i).pc = pc) :
    ∃ g', (V.go m keep nextWord).gangAt j = some g' ∧ g'.slices = m &&& V.live ∧ g'.s = g.s ∧ g'.q = g.q ∧
      g'.hints = if some (pc + 4) = keep then g.hints else [] := by
  let Vm := V.modSlices m (fun j x => Slice.settle 20 (nextWord j x))
  have hex (i : Nat) : (Vm.slice i).exited = (V.slice i).exited :=
    modSlices_exited (fun j x => settle_exited 20 (nextWord j x)) i
  have hlive : Vm.live = V.live := live_congr hex
  have hmj : m.getLsbD j = true := hgm ▸ slices_of_gangAt hg
  have hmask : (m &&& Vm.live).getLsbD j = true := by
    rw [BitVec.getLsbD_and, hmj, live_iff Vm j (slice_lt hmj), hex, hj]
    rfl
  have hpc : ∀ i, (m &&& Vm.live).getLsbD i = true → (Vm.slice i).pc = pc + 4 := by
    intro i hi
    rw [BitVec.getLsbD_and, Bool.and_eq_true] at hi
    obtain ⟨him, hil⟩ := hi
    have hi8 := slice_lt him
    rw [live_iff Vm i hi8, hex, Bool.not_eq_true'] at hil
    obtain ⟨hstack, hpc⟩ := h i hi8 him
    have hslice : Vm.slice i = Slice.settle 20 (nextWord i (V.slice i)) := by
      rw [slice_modSlices _ _ _ _ (lt_of_unexited hil), if_pos him]
    rw [hslice, settle_nil 20 (nextWord i (V.slice i)) hstack]
    exact congrArg (· + 4) hpc
  obtain ⟨g', h1, h2, h3, h4, h5⟩ := sunder_gangAt_together (W := Vm) keep hg hgm hmask hpc
  exact ⟨g', h1, h2.trans (by rw [hlive]), h3, h4, h5⟩

end Sys2Proof.Proofs.Gangs
end

section
/-! SUPPORT. Gangs that merge (R18, R22): the registers of the merged gang and whether two gangs wrote one differently. -/

namespace Sys2Proof.Proofs.Merge

open Sys2Proof Sys2Proof.Machine Sys2Proof.Claims Sys2Proof.Proofs.Gangs

/-- Numbered results put in a map, with the sum of their flags. -/
def gatherWords (val : Nat → Word × Bool) (n : Nat) : SMap Word × Bool :=
  (List.range n).foldl (fun (a : SMap Word × Bool) i => (zput 0 a.1 i (val i).1, a.2 || (val i).2)) ([], false)

theorem gatherWords_spec (val : Nat → Word × Bool) (n : Nat) :
    (∀ i, i < n → zget 0 (gatherWords val n).1 i = (val i).1) ∧
      (gatherWords val n).2 = (List.range n).any (fun i => (val i).2) := by
  induction n with
  | zero => exact ⟨fun i hi => absurd hi (Nat.not_lt_zero i), rfl⟩
  | succ n ih =>
    obtain ⟨h1, h2⟩ := ih
    have hstep : gatherWords val (n + 1) =
        (zput 0 (gatherWords val n).1 n (val n).1, (gatherWords val n).2 || (val n).2) := by
      rw [gatherWords, List.range_succ, List.foldl_append]
      rfl
    rw [hstep]
    refine ⟨fun i hi => ?_, ?_⟩
    · rw [zget_zput]
      split
      · subst_vars; rfl
      · exact h1 i (by omega)
    · rw [h2, List.range_succ, List.any_append]
      simp

/-- Numbered bits put in a mask of three, with the sum of their flags. -/
def gatherBits (val : Nat → Bool × Bool) (b : Bool) (n : Nat) : BitVec 3 × Bool :=
  (List.range n).foldl (fun (a : BitVec 3 × Bool) i =>
    (if (val i).1 then a.1 ||| (1#3 <<< i) else a.1, a.2 || (val i).2)) (0, b)

theorem getLsbD_or_bit (x : BitVec 3) (b : Bool) {n i : Nat} (hn : n < 3) :
    (if b then x ||| (1#3 <<< n) else x).getLsbD i = (x.getLsbD i || (decide (i = n) && b)) := by
  cases b with
  | false => simp
  | true =>
    simp only [if_true, BitVec.getLsbD_or, BitVec.getLsbD_shiftLeft, BitVec.getLsbD_one, Bool.and_true]
    congr 1
    by_cases hi : i = n
    · simp [hi, hn]
    · by_cases hlt : i < n
      · simp [hlt, hi]
      · simp [hi, show i - n ≠ 0 by omega]

theorem gatherBits_spec (val : Nat → Bool × Bool) (b : Bool) (n : Nat) (hn : n ≤ 3) :
    (∀ i, (gatherBits val b n).1.getLsbD i = (decide (i < n) && (val i).1)) ∧
      (gatherBits val b n).2 = (b || (List.range n).any (fun i => (val i).2)) := by
  induction n with
  | zero => exact ⟨fun i => by simp [gatherBits], by simp [gatherBits]⟩
  | succ n ih =>
    obtain ⟨h1, h2⟩ := ih (by omega)
    have hstep : gatherBits val b (n + 1) =
        (if (val n).1 then (gatherBits val b n).1 ||| (1#3 <<< n) else (gatherBits val b n).1,
          (gatherBits val b n).2 || (val n).2) := by
      rw [gatherBits, List.range_succ, List.foldl_append]
      rfl
    rw [hstep]
    refine ⟨fun i => ?_, ?_⟩
    · rw [getLsbD_or_bit _ _ (by omega), h1]
      by_cases hi : i = n
      · subst hi; simp
      · by_cases hlt : i < n
        · simp [hi, hlt, Nat.lt_succ_of_lt hlt]
        · simp [hi, hlt, show ¬ i < n + 1 by omega]
    · rw [h2, List.range_succ, List.any_append, Bool.or_assoc]
      simp

/-- The arrivers of a merge, the one with the lowest slice first. -/
def byLowSlice (l : List Gang) : List Gang :=
  l.foldl (fun a g =>
    a.filter (fun x => decide (lowSlice x.slices < lowSlice g.slices)) ++ [g] ++
      a.filter (fun x => decide (lowSlice g.slices < lowSlice x.slices))) []

/-- The value of a scalar register where gangs merge, and whether it conflicts. -/
def mergedWord (l : List Gang) (i : Nat) : Word × Bool :=
  mergeValue (((l.head?).getD (Gang.start 0)).sget i) (l.map (fun g => (g.written.getLsbD i, g.sget i)))

/-- The value of a uniform predicate where gangs merge, and whether it conflicts. -/
def mergedBit (l : List Gang) (i : Nat) : Bool × Bool :=
  mergeValue (((l.head?).getD (Gang.start 0)).q.getLsbD i) (l.map (fun g => (g.written.getLsbD (96 + i), g.q.getLsbD i)))

theorem mergeGangs_eq (l : List Gang) (only : Bool) :
    mergeGangs l only =
      ({ Gang.start (slicesOfGangs l) with
          s := (gatherWords (mergedWord (byLowSlice l)) 96).1
          q := (gatherBits (mergedBit (byLowSlice l)) (gatherWords (mergedWord (byLowSlice l)) 96).2 3).1
          written := if only then 0 else l.foldl (fun m g => m ||| g.written) 0
          promoted := (((byLowSlice l).head?).getD (Gang.start 0)).promoted },
        (gatherBits (mergedBit (byLowSlice l)) (gatherWords (mergedWord (byLowSlice l)) 96).2 3).2) := rfl

theorem mergeGangs_slices (l : List Gang) (only : Bool) : (mergeGangs l only).1.slices = slicesOfGangs l := rfl

theorem mergeGangs_sget (l : List Gang) (only : Bool) {i : Nat} (hi : i < 96) :
    (mergeGangs l only).1.sget i = (mergedWord (byLowSlice l) i).1 := by
  rw [mergeGangs_eq]
  exact (gatherWords_spec _ 96).1 i hi

theorem mergeGangs_q (l : List Gang) (only : Bool) {i : Nat} (hi : i < 3) :
    (mergeGangs l only).1.q.getLsbD i = (mergedBit (byLowSlice l) i).1 := by
  rw [mergeGangs_eq]
  refine ((gatherBits_spec _ _ 3 (Nat.le_refl 3)).1 i).trans ?_
  simp [hi]

theorem mergeGangs_conflict (l : List Gang) (only : Bool) :
    (mergeGangs l only).2 = ((List.range 96).any (fun i => (mergedWord (byLowSlice l) i).2) ||
      (List.range 3).any (fun i => (mergedBit (byLowSlice l) i).2)) := by
  rw [mergeGangs_eq]
  refine ((gatherBits_spec _ _ 3 (Nat.le_refl 3)).2).trans ?_
  rw [(gatherWords_spec _ 96).2]

/-! ### One arriver, two arrivers -/

theorem mergeValue_one {α : Type} [DecidableEq α] (b : Bool) (x : α) : mergeValue x [(b, x)] = (x, false) := by
  cases b <;> rfl

theorem mergeValue_two {α : Type} [DecidableEq α] (a b : Bool) (x y : α) :
    mergeValue x [(a, x), (b, y)] = (if a then x else if b then y else x, a && b && (x != y)) := by
  cases a <;> cases b <;> simp [mergeValue]
  by_cases h : y = x
  · simp [h]
  · simp [h, Ne.symm h]

theorem byLowSlice_two {g h : Gang} (hne : lowSlice g.slices ≠ lowSlice h.slices) :
    byLowSlice [g, h] = if lowSlice g.slices < lowSlice h.slices then [g, h] else [h, g] := by
  have hlt : ¬ lowSlice g.slices < lowSlice h.slices → lowSlice h.slices < lowSlice g.slices := by omega
  have hgt : lowSlice g.slices < lowSlice h.slices → ¬ lowSlice h.slices < lowSlice g.slices := by omega
  by_cases hc : lowSlice g.slices < lowSlice h.slices
  · simp [byLowSlice, hc, hgt hc]
  · simp [byLowSlice, hc, hlt hc]

theorem mergeGangs_one (g : Gang) (only : Bool) :
    (mergeGangs [g] only).2 = false ∧ ∀ i, i < 96 → (mergeGangs [g] only).1.sget i = g.sget i := by
  have hw (i : Nat) : mergedWord (byLowSlice [g]) i = (g.sget i, false) := mergeValue_one _ _
  have hb (i : Nat) : mergedBit (byLowSlice [g]) i = (g.q.getLsbD i, false) := mergeValue_one _ _
  refine ⟨?_, fun i hi => ?_⟩
  · rw [mergeGangs_conflict]
    simp [hw, hb]
  · rw [mergeGangs_sget _ _ hi, hw]

/-- What two arrivers give, the one with the lower slice first: what it wrote, else what the other wrote, else its own (R22). -/
theorem mergedWord_two (first second : Gang) (i : Nat) : mergedWord [first, second] i =
    (if first.written.getLsbD i then first.sget i else if second.written.getLsbD i then second.sget i else first.sget i,
      first.written.getLsbD i && second.written.getLsbD i && (first.sget i != second.sget i)) := mergeValue_two _ _ _ _

theorem mergedBit_two (first second : Gang) (i : Nat) : mergedBit [first, second] i =
    (if first.written.getLsbD (96 + i) then first.q.getLsbD i else if second.written.getLsbD (96 + i) then second.q.getLsbD i
      else first.q.getLsbD i,
      first.written.getLsbD (96 + i) && second.written.getLsbD (96 + i) && (first.q.getLsbD i != second.q.getLsbD i)) :=
  mergeValue_two _ _ _ _

end Sys2Proof.Proofs.Merge
end

section
/-! SUPPORT. NOP, EXIT, SLEEP, YIELDQ, PARK, REGANG and the hints (R15, R18, R22, R59 to R65, R124, R129, R130, R133). -/

namespace Sys2Proof.Proofs.Control

open Sys2Proof Sys2Proof.Machine Sys2Proof.Claims Sys2Proof.Proofs.Gangs Sys2Proof.Proofs.Merge

section
variable {s : State} {c : Ctx}

/-! ### EXIT (R124) -/

theorem recordExits_frame (s : State) (w : Nat) (W : Warp) (m : Word) :
    ∃ ex n, s.recordExits w W m = { s with exits := ex, nextId := n } := by
  unfold State.recordExits
  generalize lanesOf m = l
  induction l generalizing s with
  | nil => exact ⟨s.exits, s.nextId, rfl⟩
  | cons lane r ih =>
    rw [List.foldl_cons]
    split
    · exact ih s
    · obtain ⟨ex, n, h⟩ := ih { s with exits := _, nextId := _ }
      exact ⟨ex, n, h⟩

theorem exitLanes_frame (W : Warp) (m : BitVec 8) :
    { W.exitLanes m with gangs := W.gangs, slices := W.slices, ended := W.ended } = W := by
  have h := congrArg (fun V : Warp => { V with slices := W.slices, ended := W.ended })
    (sunder_frame (W.modSlices m (fun _ x => Slice.afterExit 20 { x with active := 0 })) m none)
  exact h

theorem slice_exitLanes (W : Warp) (m : BitVec 8) {j : Nat} (hj : j < W.slices.length) :
    (W.exitLanes m).slice j = if m.getLsbD j then Slice.afterExit 20 { W.slice j with active := 0 } else W.slice j := by
  show ((W.modSlices m (fun _ x => Slice.afterExit 20 { x with active := 0 })).sunder m none).slice j = _
  rw [slice_sunder, slice_modSlices _ _ _ _ hj]

theorem live_eq_zero_iff (W : Warp) : W.live = 0 ↔ ∀ j, j < 8 → (W.slice j).exited = true := by
  constructor
  · intro h j hj
    have := live_iff W j hj
    rw [h] at this
    simpa using this.symm
  · intro h
    apply BitVec.eq_of_getLsbD_eq
    intro j hj
    rw [live_iff W j hj, h j hj]
    simp

theorem exitLanes_ended (W : Warp) (m : BitVec 8) :
    (W.exitLanes m).ended = true ↔ ∀ j, j < 8 → ((W.exitLanes m).slice j).exited = true := by
  rw [← live_eq_zero_iff]
  exact beq_iff_eq

/-- EXIT ends the gang's active lanes, and reports a warp that has ended to its block. -/
theorem exitBody_spec (hw : sget s.warps c.w = some c.W) :
    ∃ t, exitBody c s = .jump t ∧ sget t.warps c.w = some (c.W.exitLanes c.G.slices) ∧
      (∀ v, v ≠ c.w → sget t.warps v = sget s.warps v) ∧ t.mem = s.mem ∧
      (∀ b B, c.W.block = some b → sget s.blocks b = some B → ∃ B', sget t.blocks b = some B' ∧
        B'.ended = if (c.W.exitLanes c.G.slices).ended then B.ended ++ [c.W.index] else B.ended) := by
  obtain ⟨ex, n, hrec⟩ := recordExits_frame s c.w c.W c.base
  have hmine : sget (smod s.warps c.w (fun W => W.exitLanes c.G.slices)) c.w = some (c.W.exitLanes c.G.slices) := by
    rw [smod_eq _ _ _ _ hw, sget_sput_same]
  have hothers (v : Nat) (hv : v ≠ c.w) :
      sget (smod s.warps c.w (fun W => W.exitLanes c.G.slices)) v = sget s.warps v := sget_smod_other _ hv _
  unfold exitBody
  rw [hrec]
  simp only [State.modWarp_warps, hmine]
  cases hb : c.W.block with
  | none => exact ⟨_, rfl, hmine, hothers, rfl, fun b B h => by cases h⟩
  | some b =>
    refine ⟨_, rfl, ?_, ?_, ?_, ?_⟩
    · split <;> exact hmine
    · split <;> exact hothers
    · split <;> rfl
    · intro b' B h hB
      cases h
      split
      · exact ⟨_, by rw [State.modBlock_blocks, State.modWarp_blocks, smod_eq _ _ _ _ hB, sget_sput_same], rfl⟩
      · exact ⟨B, hB, rfl⟩

theorem exit_clause (h : s.passes (hinted (fun _ => Sig.plain)) = some c) :
    ∃ u W, exec .exit s = .next u ∧ sget u.warps c.w = some W ∧ W.v = c.W.v ∧ W.p = c.W.p ∧ W.flags = c.W.flags ∧
      u.mem = s.mem ∧ (∀ v, v ≠ c.w → sget u.warps v = sget s.warps v) ∧
      (∀ j, j < c.W.slices.length → W.slice j =
        if c.G.slices.getLsbD j = true then Slice.afterExit 20 { c.W.slice j with active := 0 } else c.W.slice j) ∧
      (W.ended = true ↔ ∀ j, j < 8 → (W.slice j).exited = true) ∧
      (∀ b B, c.W.block = some b → sget s.blocks b = some B → ∃ B', sget u.blocks b = some B' ∧
        B'.ended = if W.ended then B.ended ++ [c.W.index] else B.ended) := by
  obtain ⟨t, hbody, hmine, hothers, hmem, hblocks⟩ := exitBody_spec (passes_warp s _ c h).1
  obtain ⟨hwarp, hrest, hframe⟩ := finish_spec hmine
  have hexec : exec .exit s = .next (t.finish c) := by
    have := issue_passes s bareSig exitBody c h
    rw [hbody] at this
    exact this
  have hlanes := exitLanes_frame c.W c.G.slices
  have hv := congrArg Warp.v hlanes
  have hp := congrArg Warp.p hlanes
  have hf := congrArg Warp.flags hlanes
  have hfm := congrArg State.mem hframe
  have hfb := congrArg State.blocks hframe
  refine ⟨_, _, hexec, hwarp, hv, hp, hf, Eq.trans hfm hmem, fun v hv => (hrest v hv).trans (hothers v hv),
    fun j hj => slice_exitLanes c.W c.G.slices hj, exitLanes_ended c.W c.G.slices, fun b B hb hB => ?_⟩
  obtain ⟨B', hB', he⟩ := hblocks b B hb hB
  exact ⟨B', (congrArg (fun m => sget m b) hfb).trans hB', he⟩

/-! ### SLEEP (R129) -/

/-- Setting the issuing warp to itself changes nothing that completing speaks of. -/
theorem completes_setWarp_self {u : State} {x : Written} (h : Completes c s u x) : Completes c (s.setWarp c.w c.W) u x := by
  obtain ⟨hwarp, hothers, hmem, hrest⟩ := h
  refine ⟨hwarp, fun w hw => ?_, hmem, ?_⟩
  · rw [hothers w hw, State.setWarp_warps, sget_sput_other _ hw]
  · have := congrArg (fun x : State => { x with warps := sput s.warps c.w c.W }) hrest
    exact this

theorem setWarp_of_modWarp {f : Warp → Warp} (hw : sget s.warps c.w = some c.W) : s.modWarp c.w f = s.setWarp c.w (f c.W) := by
  unfold State.modWarp State.setWarp
  rw [smod_eq _ _ _ _ hw]

/-- An instruction that changes the issuing gang's place alone, and goes on. -/
theorem sleep_completes (hw : sget s.warps c.w = some c.W) (hg : c.W.gangAt c.j = some c.G) (t : Nat) :
    let f (g : Gang) : Gang := { g with sleep := some t }
    ∃ u W1, s.settle c (.done (s.modWarp c.w (fun W => W.modGang c.j f))) = u ∧ { W1 with gangs := c.W.gangs } = c.W ∧
      W1.gangAt c.j = some (f c.G) ∧ (∀ j, c.other j → W1.gangAt j = c.W.gangAt j) ∧
      Completes { c with W := W1, G := f c.G } (s.setWarp c.w W1) u Written.none := by
  intro f
  refine ⟨_, c.W.modGang c.j f, rfl, rfl, gangAt_modGang_same hg f (fun _ => rfl), ?_, ?_⟩
  · rintro j ⟨g, hgj, hd⟩
    rw [hgj]
    exact gangAt_modGang_other hg hgj hd f (fun _ => rfl)
  · rw [setWarp_of_modWarp hw]
    exact none_completes (s.setWarp c.w (c.W.modGang c.j f)) { c with W := c.W.modGang c.j f, G := f c.G }
      (sget_sput_same ..)

theorem sleep_clause (h : s.passes (hinted (fun _ => Sig.plain)) = some c) (n : BitVec 20) :
    let G1 := if n = 0 then c.G else { c.G with sleep := some (3 * (s.time / 3 + n.toNat)) }
    ∃ u W1, exec (.sleep n) s = .next u ∧ { W1 with gangs := c.W.gangs } = c.W ∧ W1.gangAt c.j = some G1 ∧
      (∀ j, c.other j → W1.gangAt j = c.W.gangAt j) ∧
      Completes { c with W := W1, G := G1 } (s.setWarp c.w W1) u Written.none := by
  intro G1
  obtain ⟨hw, hg⟩ := passes_warp s _ c h
  have hexec : exec (.sleep n) s = .next (s.settle c (sleepBody n.toNat c s)) := issue_passes s bareSig (sleepBody n.toNat) c h
  by_cases hn : n = 0
  · have hbody : sleepBody n.toNat c s = .done s := by rw [hn]; rfl
    have hG1 : G1 = c.G := if_pos hn
    rw [hexec, hbody, hG1]
    exact ⟨_, c.W, rfl, rfl, hg, fun _ _ => rfl, completes_setWarp_self (none_completes s c hw)⟩
  · have hn' : n.toNat ≠ 0 := fun e => hn (BitVec.eq_of_toNat_eq e)
    have hG1 : G1 = { c.G with sleep := some (3 * (s.time / 3 + n.toNat)) } := if_neg hn
    have hbody : sleepBody n.toNat c s = .done (s.modWarp c.w (fun W => W.modGang c.j
      (fun g => { g with sleep := some (3 * (s.time / 3 + n.toNat)) }))) := if_neg hn'
    rw [hexec, hbody, hG1]
    obtain ⟨u, W1, hu, hrest⟩ := sleep_completes hw hg (3 * (s.time / 3 + n.toNat))
    exact ⟨u, W1, congrArg _ hu, hrest⟩

/-! ### YIELDQ (R130) -/

theorem yieldq_clause (h : s.passes (hinted (fun _ => Sig.plain)) = some c) :
    ∃ u W, exec .yieldq s = .next u ∧ sget u.warps c.w = some W ∧ W.age = s.nextId ∧ W.v = c.W.v ∧ W.flags = c.W.flags ∧
      (∀ g ∈ W.gangs, g.promoted = false) ∧ u.nextId = s.nextId + 1 ∧ u.mem = s.mem ∧
      (∀ v, v ≠ c.w → sget u.warps v = sget s.warps v) := by
  obtain ⟨hw, hg⟩ := passes_warp s _ c h
  let f (W : Warp) : Warp :=
    { W with age := s.nextId, gangs := W.gangs.map (fun (g : Gang) => { g with promoted := false, unchosen := 0 }) }
  let t : State := { s.setWarp c.w (f c.W) with nextId := s.nextId + 1 }
  have ht : sget t.warps c.w = some (f c.W) := sget_sput_same ..
  have hbody : yieldqBody c s = .done t := by
    unfold yieldqBody
    rw [setWarp_of_modWarp hw]
  have hexec : exec .yieldq s = .next ((t.setWarp c.w (advancedWarp c (f c.W))).finish c) := by
    have := issue_passes s bareSig yieldqBody c h
    rw [hbody, settle_done ht] at this
    exact this
  obtain ⟨hwarp, hrest, hframe⟩ := finish_spec (t := t.setWarp c.w (advancedWarp c (f c.W))) (c := c) (sget_sput_same ..)
  have hn := congrArg State.nextId hframe
  have hm := congrArg State.mem hframe
  refine ⟨_, _, hexec, hwarp, go_age _ _ _ _, go_v _ _ _ _, go_flags _ _ _ _, ?_, hn, hm, fun v hv => ?_⟩
  · intro g hgm
    obtain ⟨g1, hg1, rfl⟩ := List.mem_map.mp hgm
    obtain ⟨g2, hg2, he⟩ := mem_sunder_gangs hg1
    obtain ⟨g3, -, rfl⟩ := List.mem_map.mp hg2
    split
    · rw [he]
    · rfl
  · rw [hrest v hv, State.setWarp_warps, sget_sput_other _ hv]
    exact sget_sput_other _ hv _

/-! ### PARK (R133) -/

theorem park_waits_clause (h : s.passes (hinted (fun _ => Sig.plain)) = some c)
    (hout : s.outstanding c.w = true ∨ s.called c.W = true) : exec .park s = .next (s.waitAt c) := by
  have := issue_passes s bareSig parkBody c h
  rw [show parkBody c s = .wait s from if_pos hout] at this
  exact this

theorem park_clause (h : s.passes (hinted (fun _ => Sig.plain)) = some c) (hout : s.outstanding c.w = false)
    (hcalled : s.called c.W = false) (hres : c.W.residency = .resident) :
    ∃ u s1 W1, exec .park s = .next u ∧ sget s1.warps c.w = some W1 ∧ W1.residency = .parked true s.nextId ∧
      { W1 with residency := c.W.residency, away := c.W.away, lastSlot := c.W.lastSlot, callers := c.W.callers } = c.W ∧
      Completes { c with W := W1 } s1 u Written.none := by
  obtain ⟨hw, -⟩ := passes_warp s _ c h
  let W1 : Warp :=
    { c.W with residency := .parked true s.nextId, away := if c.W.holds then 1 else c.W.away, lastSlot := false, callers := [] }
  have hpark : s.park c.w true = { s with warps := sput s.warps c.w W1, nextId := s.nextId + 1 } := by
    unfold State.park
    rw [hw]
    exact if_neg (by simp [hout, hcalled, hres])
  have hbody : parkBody c s = .done { s with warps := sput s.warps c.w W1, nextId := s.nextId + 1 } := by
    unfold parkBody
    rw [if_neg (by simp [hout, hcalled]), hpark]
  have hexec := issue_passes s bareSig parkBody c h
  rw [hbody] at hexec
  exact ⟨_, _, W1, hexec, sget_sput_same .., rfl, rfl, none_completes { s with warps := sput s.warps c.w W1, nextId := s.nextId + 1 }
    { c with W := W1 } (sget_sput_same ..)⟩

end

end Sys2Proof.Proofs.Control
end

section
/-! SUPPORT. REGANG: the arrivers merge and go on (R18, R19, R22). -/

namespace Sys2Proof.Proofs.Regang

open Sys2Proof Sys2Proof.Machine Sys2Proof.Claims Sys2Proof.Proofs.Gangs Sys2Proof.Proofs.Merge

/-! ### Waiting at a REGANG -/

/-- A gang whose wait alone has changed. -/
def Waits (f : Gang → Gang) : Prop :=
  ∀ g, f g = { g with wait := (f g).wait, pend := (f g).pend, since := (f g).since }

theorem Waits.slices {f : Gang → Gang} (hf : Waits f) (g : Gang) : (f g).slices = g.slices := by
  rw [hf g]

theorem waitWith_spec {s : State} {c : Ctx} (hw : sget s.warps c.w = some c.W) (p : Pending) :
    ∃ f, Waits f ∧ sget (s.waitWith c p).warps c.w = some (c.W.modGang c.j f) ∧ (s.waitWith c p).warps =
      smod s.warps c.w (fun W => W.modGang c.j f) := by
  unfold State.waitWith
  split
  · refine ⟨fun g => { g with wait := some s.progress }, fun g => rfl, ?_, rfl⟩
    exact (congrArg (fun m => sget m c.w) (smod_eq _ _ _ _ hw)).trans (sget_sput_same ..)
  · refine ⟨fun g => { g with wait := some s.tick.progress, pend := p, since := s.time }, fun g => rfl, ?_, rfl⟩
    exact (congrArg (fun m => sget m c.w) (smod_eq _ _ _ _ hw)).trans (sget_sput_same ..)

/-- A gang stands at a REGANG of an id. -/
def Wants (id : Nat) (g : Gang) : Prop := ∃ x, g.pend = .regang id x

/-- No other gang that stands at a REGANG of the id named another mask or stands at another PC. -/
theorem no_clash {c : Ctx} {id : Nat} {mask : BitVec 8}
    (h : ∀ g ∈ c.W.gangs, g.slices ≠ c.G.slices → ∀ m, g.pend = .regang id m → m = mask ∧ c.W.pcOf g = c.W.pcOf c.G) :
    c.W.gangs.any (fun x => x.slices != c.G.slices && (match x.pend with
      | .regang i m => i == id && (m != mask || c.W.pcOf x != c.W.pcOf c.G)
      | _ => false)) = false := by
  rw [List.any_eq_false]
  intro g hg
  by_cases hs : g.slices = c.G.slices
  · simp [hs]
  · cases hp : g.pend with
    | regang i m =>
      by_cases hi : i = id
      · subst hi
        obtain ⟨h1, h2⟩ := h g hg hs m hp
        simp [h1, h2]
      · simp [hi]
    | _ => simp

/-- The arrivers that a REGANG finds are all it names, and nothing of theirs is still to land: they merge and go on. -/
theorem regangBody_merges {s : State} {c : Ctx} {mask : BitVec 8} {id : Nat} {l : List Gang}
    (hw : sget s.warps c.w = some c.W)
    (hclash : ∀ g ∈ c.W.gangs, g.slices ≠ c.G.slices → ∀ m, g.pend = .regang id m → m = mask ∧ c.W.pcOf g = c.W.pcOf c.G)
    (hl : ∀ f, Waits f → (c.W.modGang c.j f).arrivers c.G id = l.map (fun g => if g.slices.getLsbD c.j then f g else g))
    (hfull : ∀ j, j < 8 → mask.getLsbD j = true → (c.W.slice j).exited = false → (slicesOfGangs l).getLsbD j = true)
    (hscal : s.scalarsOut c.w (slicesOfGangs l) = false) :
    ∃ f t, Waits f ∧ regangBody mask id c s = .jump t ∧
      sget t.warps c.w = some ((c.W.modGang c.j f).regather (l.map (fun g => if g.slices.getLsbD c.j then f g else g))) := by
  obtain ⟨f, hf, hwait, -⟩ := waitWith_spec hw (.regang id mask)
  have hslices : slicesOfGangs (l.map (fun g => if g.slices.getLsbD c.j then f g else g)) = slicesOfGangs l := by
    unfold slicesOfGangs
    rw [List.foldl_map]
    congr 1
    funext m g
    split
    · rw [hf.slices]
    · rfl
  have hfull' : (c.W.modGang c.j f).regangFull (l.map (fun g => if g.slices.getLsbD c.j then f g else g)) mask = true := by
    unfold Warp.regangFull
    rw [hslices, beq_iff_eq]
    apply BitVec.eq_of_getLsbD_eq
    intro j hj
    have hlive : (c.W.modGang c.j f).live.getLsbD j = !(c.W.slice j).exited := live_iff _ j hj
    rw [BitVec.getLsbD_and, BitVec.getLsbD_and, BitVec.getLsbD_not, hlive]
    cases hm : mask.getLsbD j with
    | false => simp
    | true =>
      cases he : (c.W.slice j).exited with
      | true => simp
      | false => simp [hfull j hj hm he]
  refine ⟨f, (s.waitWith c (.regang id mask)).modWarp c.w (fun W =>
    W.regather (l.map (fun g => if g.slices.getLsbD c.j then f g else g))), hf, ?_, ?_⟩
  · unfold regangBody
    refine (if_neg ?_).trans ?_
    · rintro ⟨-, hc⟩
      exact Bool.false_ne_true ((no_clash hclash).symm.trans hc)
    simp only [hwait, hl f hf, hfull', if_true, hslices, hscal, Bool.false_eq_true, if_false]
  · rw [State.modWarp_warps, smod_eq _ _ _ _ hwait, sget_sput_same]

/-! ### The warp after a merge -/

/-- The warp with its arrivers merged, before they go on. -/
def Warp.merged (W : Warp) (l : List Gang) : Warp :=
  let rest := W.gangs.filter (fun g => g.slices &&& slicesOfGangs l == 0)
  { W with gangs := rest ++ [(mergeGangs l rest.isEmpty).1], flags := W.flags ||| flagIf (mergeGangs l rest.isEmpty).2 fMC }

theorem regather_eq (W : Warp) (l : List Gang) : W.regather l = (Warp.merged W l).go (slicesOfGangs l) none nextWord := rfl

/-- The merged gang holds the slices of the arrivers. -/
theorem merged_gangAt {W : Warp} {l : List Gang} {j : Nat} (hj : (slicesOfGangs l).getLsbD j = true) :
    (Warp.merged W l).gangAt j =
      some (mergeGangs l (W.gangs.filter (fun g => g.slices &&& slicesOfGangs l == 0)).isEmpty).1 := by
  unfold Warp.gangAt Warp.merged
  dsimp only
  rw [find_append_none]
  · rw [List.find?_cons, mergeGangs_slices, hj]
  · intro g hg
    have hd : g.slices &&& slicesOfGangs l = 0 := beq_iff_eq.mp (List.mem_filter.mp hg).2
    exact getLsbD_of_disjoint hd hj

/-! ### A REGANG that names no other slice -/

section
variable {s : State} {c : Ctx} {m : BitVec 8} {id : BitVec 12}

/-- Only the issuing gang arrives where no other gang stands at the REGANG. -/
theorem arrivers_alone (hg : c.W.gangAt c.j = some c.G)
    (hdis : ∀ g ∈ c.W.gangs, g.slices = c.G.slices ∨ g.slices &&& c.G.slices = 0)
    (hwants : ∀ g ∈ c.W.gangs, ¬ Wants id.toNat g ∨ g.slices = c.G.slices)
    (hone : (c.W.gangs.filter (fun g => g.slices == c.G.slices)) = [c.G]) (f : Gang → Gang) (hf : Waits f) :
    (c.W.modGang c.j f).arrivers c.G id.toNat = [c.G].map (fun g => if g.slices.getLsbD c.j then f g else g) := by
  have hGj := slices_of_gangAt hg
  unfold Warp.arrivers
  rw [← hone]
  show List.filter _ (List.map _ _) = _
  rw [List.filter_map]
  refine congrArg _ (List.filter_congr (fun g hgm => ?_))
  have hsl : (if g.slices.getLsbD c.j = true then f g else g).slices = g.slices := by
    split
    · exact hf.slices g
    · rfl
  simp only [Function.comp_apply, hsl]
  by_cases hs : g.slices = c.G.slices
  · simp [hs]
  · have hd := (hdis g hgm).resolve_left hs
    have hnw := (hwants g hgm).resolve_right hs
    rw [getLsbD_of_disjoint hd hGj, if_neg Bool.false_ne_true]
    have hpend : ∀ x, g.pend ≠ .regang id.toNat x := fun x hx => hnw ⟨x, hx⟩
    have hmatch : (match g.pend with
        | .regang i _ => i == id.toNat && (c.W.modGang c.j f).pcOf g == (c.W.modGang c.j f).pcOf c.G
        | _ => false) = false := by
      cases hp : g.pend with
      | regang i x =>
        have hi : i ≠ id.toNat := fun e => hpend x (by rw [hp, e])
        simp [hi]
      | _ => rfl
    rw [beq_eq_false_iff_ne.mpr hs, Bool.false_or]
    exact hmatch

theorem regang_alone_clause (h : s.passes (hinted (fun _ => Sig.plain)) = some c)
    (hdis : ∀ g ∈ c.W.gangs, g.slices = c.G.slices ∨ g.slices &&& c.G.slices = 0)
    (hwants : ∀ g ∈ c.W.gangs, ¬ Wants id.toNat g ∨ g.slices = c.G.slices)
    (hfull : ∀ j, j < 8 → m.getLsbD j = true → (c.W.slice j).exited = false → c.G.slices.getLsbD j = true)
    (hscal : s.scalarsOut c.w c.G.slices = false)
    (hone : (c.W.gangs.filter (fun g => g.slices == c.G.slices)) = [c.G]) :
    ∃ u W, exec (.regang m id) s = .next u ∧ sget u.warps c.w = some W ∧ W.v = c.W.v ∧ W.flags = c.W.flags ∧
      (∀ j, j < c.W.slices.length → c.G.slices.getLsbD j = true → (c.W.slice j).stack = [] →
        (W.slice j).pc = (c.W.slice j).pc + 4) ∧
      (∀ j, c.has j → j < 8 → (∀ i, i < 8 → c.G.slices.getLsbD i = true → (c.W.slice i).stack = [] ∧
          (c.W.slice i).pc = c.W.pcOf c.G) →
        ∃ g, W.gangAt j = some g ∧ g.slices = c.G.slices &&& c.W.live ∧ ∀ i, i < 96 → g.sget i = c.G.sget i) := by
  obtain ⟨hw, hg⟩ := passes_warp s _ c h
  have hsl : slicesOfGangs [c.G] = c.G.slices := BitVec.zero_or
  obtain ⟨f, t, hf, hbody, ht⟩ := regangBody_merges (mask := m) (id := id.toNat) (l := [c.G]) hw
    (fun g hgm hs x hx => absurd ⟨x, hx⟩ ((hwants g hgm).resolve_right hs))
    (fun f hf => arrivers_alone hg hdis hwants hone f hf) (by rw [hsl]; exact hfull) (by rw [hsl]; exact hscal)
  have hl : [c.G].map (fun g => if g.slices.getLsbD c.j then f g else g) = [f c.G] := by
    rw [List.map_cons, if_pos (slices_of_gangAt hg), List.map_nil]
  have hslf : slicesOfGangs [f c.G] = c.G.slices := BitVec.zero_or.trans (hf.slices c.G)
  have hexec : exec (.regang m id) s = .next (t.finish c) := by
    have := issue_passes s bareSig (regangBody m id.toNat) c h
    rw [hbody] at this
    exact this
  rw [hl, regather_eq, hslf] at ht
  obtain ⟨hwarp, -, -⟩ := finish_spec ht
  have hmerge := mergeGangs_one (f c.G)
  refine ⟨_, _, hexec, hwarp, go_v .., ?_, ?_, ?_⟩
  · refine (go_flags ..).trans ?_
    show c.W.flags ||| flagIf (mergeGangs [f c.G] _).2 fMC = c.W.flags
    rw [(hmerge _).1]
    exact BitVec.or_zero
  · intro j hj hGj hstack
    have hgo := slice_go (Warp.merged (c.W.modGang c.j f) [f c.G]) c.G.slices none nextWord (j := j) hj
    rw [if_pos hGj] at hgo
    exact congrArg Slice.pc (hgo.trans (settle_nil 20 (nextWord j (c.W.slice j)) hstack))
  · intro j hhas hj8 hall
    obtain ⟨hgj, hlive⟩ := hhas
    have hGj := slices_of_gangAt hgj
    have hat := merged_gangAt (W := c.W.modGang c.j f) (l := [f c.G]) (j := j) (by rw [hslf]; exact hGj)
    obtain ⟨g', h1, h2, h3, -, -⟩ := go_together none hat ((mergeGangs_slices _ _).trans hslf) hlive
      (fun i hi him => hall i hi him)
    have hsget (i : Nat) (hi : i < 96) : g'.sget i = c.G.sget i := by
      have e : g'.sget i = (f c.G).sget i := (congrArg (fun x => zget 0 x i) h3).trans ((hmerge _).2 i hi)
      rw [e, hf c.G]
      rfl
    rw [issuedWarp_gangAt, h1, Option.map_some]
    refine ⟨_, rfl, ?_, ?_⟩
    · split <;> exact h2
    · intro i hi
      split <;> exact hsget i hi

/-! ### A REGANG at which two gangs merge -/

/-- A merge of every gang of a warp, whose slices wait for no lanes, have not exited and stand at one PC, leaves one gang. -/
theorem regather_all {W : Warp} {l : List Gang} {mask : BitVec 8} {pc : DWord} (hl : W.gangs = l)
    (hm : slicesOfGangs l = mask) (hne : mask ≠ 0) (hall : ∀ g ∈ l, g.slices &&& mask ≠ 0)
    (hstack : ∀ j, (W.slice j).stack = []) (hlive : mask &&& ~~~W.live = 0)
    (hpc : ∀ j, j < 8 → mask.getLsbD j = true → (W.slice j).pc = pc) :
    ∃ g, (W.regather l).gangs = [g] ∧ g.slices = mask ∧ g.written = 0 ∧ g.s = (mergeGangs l true).1.s ∧
      g.q = (mergeGangs l true).1.q ∧ (W.regather l).flags = W.flags ||| flagIf (mergeGangs l true).2 fMC ∧
      (W.regather l).v = W.v := by
  have hrest : W.gangs.filter (fun g => g.slices &&& slicesOfGangs l == 0) = [] := by
    rw [List.filter_eq_nil_iff]
    intro g hg
    rw [hm, beq_iff_eq]
    exact hall g (hl ▸ hg)
  have hmerged : Warp.merged W l =
      { W with gangs := [(mergeGangs l true).1], flags := W.flags ||| flagIf (mergeGangs l true).2 fMC } := by
    unfold Warp.merged
    rw [hrest]
    rfl
  have hmaskLive : mask &&& W.live = mask := by
    apply BitVec.eq_of_getLsbD_eq
    intro j hj
    have hb := congrArg (fun x : BitVec 8 => x.getLsbD j) hlive
    simp only [BitVec.getLsbD_and, BitVec.getLsbD_not, hj, decide_true, Bool.true_and] at hb ⊢
    cases h1 : mask.getLsbD j with
    | false => rfl
    | true => simpa [h1] using hb
  let V : Warp := { W with gangs := [(mergeGangs l true).1], flags := W.flags ||| flagIf (mergeGangs l true).2 fMC }
  let Vm := V.modSlices mask (fun j x => Slice.settle 20 (nextWord j x))
  have hVm : Vm.live = W.live := live_congr (fun i => modSlices_exited (fun j x => settle_exited 20 (nextWord j x)) i)
  have hpcs : ∀ j, (mask &&& Vm.live).getLsbD j = true → (Vm.slice j).pc = pc + 4 := by
    intro j hj
    rw [hVm] at hj
    have hjl : W.live.getLsbD j = true := by
      rw [BitVec.getLsbD_and, Bool.and_eq_true] at hj
      exact hj.2
    rw [hmaskLive] at hj
    have hj8 := slice_lt hj
    rw [live_iff W j hj8, Bool.not_eq_true'] at hjl
    have hs : Vm.slice j = Slice.settle 20 (nextWord j (W.slice j)) := by
      refine (slice_modSlices V _ _ _ (lt_of_unexited hjl)).trans ?_
      rw [if_pos hj]
      rfl
    rw [hs, settle_nil 20 (nextWord j (W.slice j)) (hstack j)]
    exact congrArg (· + 4) (hpc j hj8 hj)
  have hgo : W.regather l = { Vm with gangs := Vm.gangs.map (together mask Vm.live (pc + 4) none) }.lone := by
    rw [regather_eq, hmerged, hm]
    exact sunder_together (W := Vm) none (by rw [hVm, hmaskLive]; exact hne) hpcs
  have htog : Vm.gangs.map (together mask Vm.live (pc + 4) none) =
      [{ (mergeGangs l true).1 with slices := mask &&& Vm.live, hints := [] }] := by
    show [together mask Vm.live (pc + 4) none (mergeGangs l true).1] = _
    unfold together
    rw [if_pos ((mergeGangs_slices l true).trans hm), if_neg (by simp)]
  rw [hgo, htog]
  exact ⟨{ (mergeGangs l true).1 with slices := mask &&& Vm.live, hints := [], written := 0 }, rfl,
    by rw [hVm, hmaskLive], rfl, rfl, rfl, rfl, rfl⟩

end

end Sys2Proof.Proofs.Regang
end

section
/-! SUPPORT. REGANG of two gangs, and the hints; the statement about the control operations (R18, R22, R59 to R65). -/

namespace Sys2Proof.Proofs.Regang

open Sys2Proof Sys2Proof.Machine Sys2Proof.Claims Sys2Proof.Proofs.Gangs Sys2Proof.Proofs.Merge

/-! ### Two gangs -/

/-- Masks that share no slice have different lowest slices. -/
theorem lowSlice_ne {a b : BitVec 8} (ha : a ≠ 0) (hb : b ≠ 0) (hd : a &&& b = 0) : lowSlice a ≠ lowSlice b := by
  intro h
  have h1 := getLsbD_lowSlice ha
  rw [h, getLsbD_of_disjoint hd (getLsbD_lowSlice hb)] at h1
  cases h1

/-- Two gangs, the one with the lower slice first, in whichever order they stand. -/
theorem byLowSlice_pair {g h : Gang} (hne : lowSlice g.slices ≠ lowSlice h.slices) {l : List Gang}
    (hl : l = [g, h] ∨ l = [h, g]) :
    byLowSlice l = [if lowSlice g.slices < lowSlice h.slices then g else h,
      if lowSlice g.slices < lowSlice h.slices then h else g] := by
  rcases hl with rfl | rfl
  · rw [byLowSlice_two hne]
    split <;> rfl
  · rw [byLowSlice_two (Ne.symm hne)]
    by_cases hlt : lowSlice g.slices < lowSlice h.slices
    · rw [if_neg (by omega), if_pos hlt, if_pos hlt]
    · rw [if_pos (by omega), if_neg hlt, if_neg hlt]

theorem slicesOfGangs_pair {g h : Gang} {l : List Gang} (hl : l = [g, h] ∨ l = [h, g]) :
    slicesOfGangs l = g.slices ||| h.slices := by
  rcases hl with rfl | rfl
  · show 0#8 ||| g.slices ||| h.slices = _
    rw [BitVec.zero_or]
  · show 0#8 ||| h.slices ||| g.slices = _
    rw [BitVec.zero_or, BitVec.or_comm]

section
variable {s : State} {c : Ctx} {m : BitVec 8} {id : BitVec 12} {B : Gang}

/-- Both gangs arrive. -/
theorem arrivers_pair (hg : c.W.gangAt c.j = some c.G) {l : List Gang} (hgangs : c.W.gangs = l)
    (hl : l = [c.G, B] ∨ l = [B, c.G]) (hd : c.G.slices &&& B.slices = 0) (hB : B.pend = .regang id.toNat m)
    (hpc : c.W.pcOf B = c.W.pcOf c.G) (f : Gang → Gang) (hf : Waits f) :
    (c.W.modGang c.j f).arrivers c.G id.toNat = l.map (fun g => if g.slices.getLsbD c.j then f g else g) := by
  have hGj := slices_of_gangAt hg
  have hBj : B.slices.getLsbD c.j = false := getLsbD_of_disjoint (BitVec.and_comm .. ▸ hd) hGj
  have hpc' : (c.W.modGang c.j f).pcOf B = (c.W.modGang c.j f).pcOf c.G := hpc
  unfold Warp.arrivers
  show List.filter _ (c.W.gangs.map _) = _
  rw [hgangs, List.filter_eq_self]
  intro g hgm
  have hcases : g = f c.G ∨ g = B := by
    rcases hl with rfl | rfl
    · simpa [hGj, hBj] using hgm
    · have := hgm
      simp only [List.map_cons, List.map_nil, hBj, hGj, Bool.false_eq_true, if_false, if_true, List.mem_cons,
        List.not_mem_nil, or_false] at this
      exact this.symm
  rcases hcases with rfl | rfl
  · simp [hf.slices]
  · simp [hB, hpc']

theorem regang_pair_clause (h : s.passes (hinted (fun _ => Sig.plain)) = some c)
    (hgangs : c.W.gangs = [c.G, B] ∨ c.W.gangs = [B, c.G]) (hd : c.G.slices &&& B.slices = 0) (hG0 : c.G.slices ≠ 0)
    (hB0 : B.slices ≠ 0) (hB : B.pend = .regang id.toNat m) (hpc : c.W.pcOf B = c.W.pcOf c.G)
    (hfull : ∀ j, j < 8 → m.getLsbD j = true → (c.W.slice j).exited = false → (c.G.slices ||| B.slices).getLsbD j = true)
    (hscal : s.scalarsOut c.w (c.G.slices ||| B.slices) = false) (hstack : ∀ j, (c.W.slice j).stack = [])
    (hlive : (c.G.slices ||| B.slices) &&& ~~~c.W.live = 0)
    (hpcs : ∀ j, j < 8 → (c.G.slices ||| B.slices).getLsbD j = true → (c.W.slice j).pc = c.W.pcOf c.G) :
    let first := if lowSlice c.G.slices < lowSlice B.slices then c.G else B
    let second := if lowSlice c.G.slices < lowSlice B.slices then B else c.G
    let both (i : Nat) : Bool := first.written.getLsbD i && second.written.getLsbD i
    ∃ u W g, exec (.regang m id) s = .next u ∧ sget u.warps c.w = some W ∧ W.v = c.W.v ∧ W.gangs = [g] ∧
      g.slices = c.G.slices ||| B.slices ∧ g.written = 0 ∧
      (∀ i, i < 96 → g.sget i = if first.written.getLsbD i then first.sget i
        else if second.written.getLsbD i then second.sget i else first.sget i) ∧
      (∀ i, i < 3 → g.q.getLsbD i = if first.written.getLsbD (96 + i) then first.q.getLsbD i
        else if second.written.getLsbD (96 + i) then second.q.getLsbD i else first.q.getLsbD i) ∧
      W.flags = c.W.flags ||| (if (List.range 96).any (fun i => both i && first.sget i != second.sget i) ||
        (List.range 3).any (fun i => both (96 + i) && first.q.getLsbD i != second.q.getLsbD i) then fMC else 0) := by
  intro first second both
  obtain ⟨hw, hg⟩ := passes_warp s _ c h
  have hGj := slices_of_gangAt hg
  have hBj : B.slices.getLsbD c.j = false := getLsbD_of_disjoint (BitVec.and_comm .. ▸ hd) hGj
  have hmask := slicesOfGangs_pair hgangs
  obtain ⟨f, t, hf, hbody, ht⟩ := regangBody_merges (mask := m) (id := id.toNat) (l := c.W.gangs) hw
    (fun g hgm hs x hx => by
      have hgB : g = B := by
        rcases hgangs with e | e <;> rw [e] at hgm <;> simp only [List.mem_cons, List.not_mem_nil, or_false] at hgm
        · exact hgm.resolve_left (fun e => hs (by rw [e]))
        · exact hgm.resolve_right (fun e => hs (by rw [e]))
      rw [hgB, hB] at hx
      cases hx
      exact ⟨rfl, by rw [hgB, hpc]⟩)
    (fun f hf => arrivers_pair hg rfl hgangs hd hB hpc f hf) (by rw [hmask]; exact hfull) (by rw [hmask]; exact hscal)
  -- the arrivers as they wait
  have hwaiting : c.W.gangs.map (fun g => if g.slices.getLsbD c.j then f g else g) = [f c.G, B] ∨
      c.W.gangs.map (fun g => if g.slices.getLsbD c.j then f g else g) = [B, f c.G] := by
    rcases hgangs with e | e <;> simp [e, hGj, hBj]
  generalize hl : c.W.gangs.map (fun g => if g.slices.getLsbD c.j then f g else g) = l at ht hwaiting
  have hfs := hf.slices c.G
  have hlmask : slicesOfGangs l = c.G.slices ||| B.slices := by
    rw [slicesOfGangs_pair hwaiting, hfs]
  have hsorted := byLowSlice_pair (by rw [hfs]; exact lowSlice_ne hG0 hB0 hd) hwaiting
  have hword (i : Nat) : mergedWord (byLowSlice l) i = mergedWord [first, second] i := by
    rw [hsorted, hfs, hf c.G]
    unfold first second
    split <;> rfl
  have hbit (i : Nat) : mergedBit (byLowSlice l) i = mergedBit [first, second] i := by
    rw [hsorted, hfs, hf c.G]
    unfold first second
    split <;> rfl
  have hne : c.G.slices ||| B.slices ≠ 0 :=
    ne_zero_of_slice (j := c.j) (by rw [BitVec.getLsbD_or, hGj]; rfl)
  have hmeets : ∀ g ∈ l, g.slices &&& (c.G.slices ||| B.slices) ≠ 0 := by
    have meets (a : BitVec 8) (ha : a ≠ 0) (hsub : ∀ j, a.getLsbD j = true → (c.G.slices ||| B.slices).getLsbD j = true) :
        a &&& (c.G.slices ||| B.slices) ≠ 0 :=
      ne_zero_of_slice (j := lowSlice a)
        (by rw [BitVec.getLsbD_and, getLsbD_lowSlice ha, hsub _ (getLsbD_lowSlice ha)]; rfl)
    have hG := meets c.G.slices hG0 (fun j hj => by rw [BitVec.getLsbD_or, hj]; rfl)
    have hB' := meets B.slices hB0 (fun j hj => by rw [BitVec.getLsbD_or, hj, Bool.or_true])
    rcases hwaiting with e | e <;> rw [e]
    · exact List.forall_mem_cons.mpr ⟨by rw [hfs]; exact hG, List.forall_mem_singleton.mpr hB'⟩
    · exact List.forall_mem_cons.mpr ⟨hB', List.forall_mem_singleton.mpr (by rw [hfs]; exact hG)⟩
  obtain ⟨g, hgs, hgm, hgw, hgS, hgq, hflags, hv⟩ :=
    regather_all (W := c.W.modGang c.j f) hl hlmask hne hmeets hstack hlive hpcs
  obtain ⟨hwarp, -, -⟩ := finish_spec ht
  have hexec : exec (.regang m id) s = .next (t.finish c) := by
    have := issue_passes s bareSig (regangBody m id.toNat) c h
    rw [hbody] at this
    exact this
  have hissued : (issuedWarp c t.time ((c.W.modGang c.j f).regather l)).gangs =
      [g.issued t.time c.h (c.W.groupPc c.G)] := by
    show ((c.W.modGang c.j f).regather l).gangs.map _ = _
    rw [hgs, List.map_cons, List.map_nil, if_neg]
    rw [hgm, BitVec.and_comm]
    exact ne_zero_of_slice (j := c.j) (by rw [BitVec.getLsbD_and, BitVec.getLsbD_or, hGj]; rfl)
  refine ⟨_, _, _, hexec, hwarp, hv, hissued, hgm, hgw, fun i hi => ?_, fun i hi => ?_, ?_⟩
  · have e : g.sget i = (mergeGangs l true).1.sget i := congrArg (fun x => zget 0 x i) hgS
    refine e.trans ?_
    rw [mergeGangs_sget l true hi, hword, mergedWord_two]
  · have e : g.q.getLsbD i = (mergeGangs l true).1.q.getLsbD i := congrArg (fun x : BitVec 3 => x.getLsbD i) hgq
    refine e.trans ?_
    rw [mergeGangs_q l true hi, hbit, mergedBit_two]
  · refine hflags.trans ?_
    rw [mergeGangs_conflict]
    simp only [hword, hbit, mergedWord_two, mergedBit_two]
    rfl

end

end Sys2Proof.Proofs.Regang

namespace Sys2Proof.Proofs.Hints

open Sys2Proof Sys2Proof.Machine Sys2Proof.Claims Sys2Proof.Proofs.Gangs

variable {s : State} {c : Ctx}

theorem hintAs_illegal (hi : s.issuing = some c) (kind payload : Nat) :
    hintAs kind payload false s = .next (s.trapped c (Trap.of 1 0)) := by
  simp only [hintAs, hi, if_true]

/-- The gang once a hint has joined its group. -/
def hintedGang (now kind payload : Nat) (c : Ctx) (g : Gang) : Gang :=
  { g with hints := c.G.hints ++ [{ kind := kind, payload := BitVec.ofNat 22 payload }], hinted := now, promoted := false,
           unchosen := 0, wait := none }

theorem hintAs_legal (hi : s.issuing = some c) (hb : (bodyCheck c { Sig.plain with body := .free }).isNone = true)
    (kind payload : Nat) :
    hintAs kind payload true s = .next ((((s.setWarp c.w (c.W.modGang c.j (hintedGang s.time kind payload c))).setWarp c.w
      (advancedWarp c (c.W.modGang c.j (hintedGang s.time kind payload c)))).count (ctxFn c.W.ctx) 1 1).tick) := by
  obtain ⟨hw, -⟩ := issuing_warp s c hi
  have hadv : (s.modWarp c.w (fun W => W.modGang c.j (hintedGang s.time kind payload c))).advance c =
      (s.setWarp c.w (c.W.modGang c.j (hintedGang s.time kind payload c))).setWarp c.w
        (advancedWarp c (c.W.modGang c.j (hintedGang s.time kind payload c))) := by
    rw [Control.setWarp_of_modWarp hw]
    exact advance_eq (sget_sput_same ..)
  simp only [hintAs, hi, Bool.true_eq_false, if_false, Option.isNone_iff_eq_none.mp hb]
  exact congrArg (fun t : State => Host.Outcome.next (t.count (ctxFn c.W.ctx) 1 1).tick) hadv

/-- What a hint does: illegal it traps, legal it joins the group of its gang, which falls through. -/
theorem hint_row (hi : s.issuing = some c) (hb : (bodyCheck c { Sig.plain with body := .free }).isNone = true) (i : Instr)
    (kind payload : Nat) (legal : Bool) (hexec : exec i s = hintAs kind payload legal s) :
    (¬ legal = true → TrapsWith i s c 1 0) ∧
    (legal = true → ∃ u W, exec i s = .next u ∧ sget u.warps c.w = some W ∧ u.mem = s.mem ∧ W.v = c.W.v ∧ W.p = c.W.p ∧
      W.flags = c.W.flags ∧ (∀ v, v ≠ c.w → sget u.warps v = sget s.warps v) ∧
      (∀ j, j < c.W.slices.length → c.G.slices.getLsbD j = true → (c.W.slice j).stack = [] →
        W.slice j = { c.W.slice j with pc := (c.W.slice j).pc + 4 }) ∧
      ((∀ j, j < 8 → c.G.slices.getLsbD j = true → (c.W.slice j).stack = [] ∧ (c.W.slice j).exited = false) →
        (∀ j, j < 8 → c.G.slices.getLsbD j = true → (c.W.slice j).pc = c.W.pcOf c.G) →
        ∃ g, W.gangAt c.j = some g ∧ g.s = c.G.s ∧ g.q = c.G.q ∧
          g.hints = c.G.hints ++ [{ kind := kind, payload := BitVec.ofNat 22 payload }])) := by
  refine ⟨fun hl => ?_, fun hl => ?_⟩
  · rw [Bool.not_eq_true] at hl
    unfold TrapsWith
    rw [hexec, hl, hintAs_illegal hi]
  · subst hl
    obtain ⟨hw, hg⟩ := issuing_warp s c hi
    let V := c.W.modGang c.j (hintedGang s.time kind payload c)
    obtain ⟨cs, o, hcount⟩ := count_frame ((s.setWarp c.w V).setWarp c.w (advancedWarp c V)) (ctxFn c.W.ctx) 1 1
    have hnext := hexec.trans (hintAs_legal hi hb kind payload)
    rw [hcount] at hnext
    refine ⟨_, advancedWarp c V, hnext, sget_sput_same .., rfl, go_v _ _ _ _, go_p _ _ _ _, go_flags _ _ _ _,
      fun v hv => ?_, fun j hj hGj hstack => ?_, fun hstill hpc => ?_⟩
    · exact (sget_sput_other _ hv _).trans (sget_sput_other _ hv _)
    · refine (slice_advancedWarp c V j hj).trans ((if_pos hGj).trans ?_)
      exact settle_nil 20 (nextWord j (c.W.slice j)) hstack
    · have hGj := slices_of_gangAt hg
      have hat := gangAt_modGang_same hg (hintedGang s.time kind payload c) (fun _ => rfl)
      obtain ⟨g, h1, -, h3, h4, h5⟩ := go_together (V := V) (m := c.G.slices) (pc := c.W.pcOf c.G)
        (some (c.W.pcOf c.G + 4)) hat rfl (hstill c.j (slice_lt hGj) hGj).2
        (fun i hi8 him => ⟨(hstill i hi8 him).1, hpc i hi8 him⟩)
      exact ⟨g, h1, h3, h4, h5.trans (if_pos rfl)⟩

end Sys2Proof.Proofs.Hints

namespace Sys2Proof.Proofs.Control

open Sys2Proof Sys2Proof.Machine Sys2Proof.Claims

/-- Settles O54: each control operation's own lemma. -/
theorem controlOperations : Obligations.ControlOperations := by
  intro s c
  refine ⟨fun h => ?_, fun h => ⟨exit_clause h, sleep_clause h, yieldq_clause h, park_waits_clause h, park_clause h, ?_⟩, ?_⟩
  · exact ⟨_, issue_passes s (fun _ => { Sig.plain with body := .free }) (fun _ s => .done s) c h,
      none_completes s c (passes_warp s _ c h).1⟩
  · intro m id wants
    exact ⟨fun hdis hwants hfull hscal hone => Regang.regang_alone_clause h hdis hwants hfull hscal hone,
      fun B hgangs hd hG0 hB0 hB _ hpc hfull hscal hstack hlive hpcs =>
        Regang.regang_pair_clause h hgangs hd hG0 hB0 hB hpc hfull hscal hstack hlive hpcs⟩
  · intro c0 hi hb row
    have hrow {i : Instr} {kind payload : Nat} {legal : Bool} {P : Prop} (hP : legal = true ↔ P)
        (hexec : exec i s = hintAs kind payload legal s) : row i kind payload P := by
      obtain ⟨h1, h2⟩ := Hints.hint_row hi hb i kind payload legal hexec
      exact ⟨fun hn => h1 (fun hl => hn (hP.mp hl)), fun hp => h2 (hP.mpr hp)⟩
    refine ⟨fun i => ?_, fun n p => ?_, fun c b a => ?_, fun r => ?_, fun t => ?_, fun f t m => ?_, fun y st => ?_, fun p => ?_⟩
    · exact hrow (legal := true) (by simp) rfl
    · exact hrow (legal := p != 7) (by simp) rfl
    · exact hrow (legal := true) (by simp) rfl
    · exact hrow (legal := true) (by simp) rfl
    · refine hrow (legal := t != 15 && decide (t.toNat < 20)) ?_ rfl
      rw [Bool.and_eq_true, bne_iff_ne, decide_eq_true_eq, Nat.lt_succ_iff]
    · exact hrow (legal := decide (m.toNat ≤ 4)) (by simp) rfl
    · exact hrow (legal := true) (by simp) rfl
    · exact hrow (legal := decide (p.toNat ≤ 4)) (by simp) rfl

end Sys2Proof.Proofs.Control
end

section
/-! SUPPORT. A retirement that writes memory: the flags of a batch reach the image of a captured warp (R94, R266, R294). -/

namespace Sys2Proof.Proofs.Retirement

open Sys2Proof Sys2Proof.Machine Sys2Proof.Claims

/-- An MZERO of no quadrant in batch 0 of the placed block's team, streaming, with the flags it has retired with. -/
def zeroOp (flags : Option Word) : ArrayOp :=
  { block := 0, team := 0, kind := .zero 0, quads := [], batch := some 0, started := true, flags := flags, complete := false }

/-- The placed machine, its warp captured, when one operation of a batch has overflowed and the other is about to retire. -/
def capturedTeam : State :=
  { State.reset.placed.modWarp 0 (fun W => { W with residency := .saved true }) with ops := [(0, zeroOp (some fOF)), (1, zeroOp none)] }

/-- The last operation of the batch is due. -/
theorem capturedTeam_due : ∀ e ∈ capturedTeam.ops, e.1 < 1 → e.2.flags ≠ none := by decide

/-- Its retirement completes the batch, whose OF is set in the FLAGS of the warp's image: in memory. -/
theorem retireOp_writes_image : sget (retireOp 1 capturedTeam).mem 0x10 = some 4 := by decide

theorem capturedTeam_image : sget capturedTeam.mem 0x10 = none := by decide

/-- Refutes O56: the retirement of an array operation may change memory, where the obligation says it never does. The last operation
of a batch raises the batch's flags in every warp of the team, and for a warp that is saved the FLAGS word of its image in the save
area is written. -/
theorem not_schedulerAndMemorySteps : ¬ Obligations.SchedulerAndMemorySteps := by
  unfold Obligations.SchedulerAndMemorySteps
  intro h
  obtain ⟨-, -, -, -, -, -, -, -, -, -, -, -, -, hops, -⟩ := h capturedTeam
  obtain ⟨-, hop⟩ := hops 1
  obtain ⟨-, -, -, hretire⟩ := hop (zeroOp none) (by decide)
  obtain ⟨u, x, hexec, -, -, hmem, -⟩ :=
    hretire ⟨rfl, rfl, fun e ⟨hin, _, _, hlt⟩ hflags => absurd hflags (capturedTeam_due e hin hlt)⟩ List.nodup_nil
  have hstep : exec (.arrayOperationRetirement 1) capturedTeam = .next (retireOp 1 capturedTeam).tick := rfl
  have hu : (retireOp 1 capturedTeam).tick = u := Host.Outcome.next.inj (hstep.symm.trans hexec)
  rw [← hu, State.tick_mem] at hmem
  have hwritten := retireOp_writes_image
  rw [hmem, capturedTeam_image] at hwritten
  cases hwritten

end Sys2Proof.Proofs.Retirement
end

section
/-! SUPPORT. An acceptance that reaches another device: the locator of one node, written over a page table, takes the next node's page to a
peer (R209, R212, R322). -/

namespace Sys2Proof.Proofs.Acceptance

open Sys2Proof Sys2Proof.Machine Sys2Proof.Claims

/-! ### The machine -/

/-- The bytes of a number of `n` bytes at an address of device memory. -/
def cell (a n x : Nat) : List (Nat × Byte) := (bytesOf n x).zipIdx.map (fun e => (a + e.2, e.1))

/-- A submission record at 0x1000 with its kernel table at 0x1100 and completion word at 0x1140; nodes 0 and 1 at 0x1180, node 1 the
child of node 0. -/
def record : List (Nat × Nat × Nat) :=
  [(0x1000, 4, 0x4B470001), (0x1004, 1, 5), (0x1008, 8, 0x1180), (0x1010, 4, 2), (0x1014, 4, 2), (0x101C, 2, 2),
   (0x1028, 8, 0x1100), (0x1038, 4, 0x10000), (0x103C, 1, 1), (0x103E, 2, 1),
   (0x1058, 1, 1), (0x105C, 4, 1), (0x1060, 2, 0x101), (0x1064, 4, 1), (0x106C, 4, 1), (0x1074, 4, 1), (0x107C, 4, 1),
   (0x1080, 8, 0x1140), (0x108C, 2, 1), (0x1104, 1, 8), (0x1106, 1, 1),
   (0x1180, 2, 0xFFFF), (0x1188, 4, 1), (0x118C, 2, 1), (0x1190, 4, 0xFFFFFFFF), (0x11C0, 2, 0xFFFF), (0x11CE, 2, 1)]

/-- The page tables: the root table's only entry, two bytes before node 1's locator, is not legal, its bits 63:56 not being zero. The
table at 0xFFFF0000, which no entry names, holds itself and a page of device 1. -/
def tables : List (Nat × Nat × Nat) :=
  [(0x11F6, 8, 0x0100000000000001), (0xFFFF0000, 8, 0xFFFF0001), (0xFFFF0008, 8, 0x001000000000000B)]

/-- Context 0 has submitted the record. Its translations in the cache reach all that acceptance reads, but not node 0's locator, which
no page holds; link 0 leads to device 1. -/
def submitted : State :=
  { State.reset with
    mem := memPuts [] ((record ++ tables).flatMap (fun e => cell e.1 e.2.1 e.2.2))
    tlb := [{ ctx := 0, va := 0, size := 0x11B8, tgt := 0, base := 0, dev := 0, attr := 7 },
            { ctx := 0, va := 0x11C0, size := 0x40, tgt := 0, base := 0x11C0, dev := 0, attr := 7 }]
    contexts := [(0, { Context.reset with en := true, ptroot := 0x11F6 })]
    stands := [(0, { Stand.reset with state := 2, fhbm := 1, flink := 0x10000 })]
    links := [(0, { Link.reset with stat := 0x102 })]
    subs := [(0, { ctx := 0, addr := 0x1000 })] }

/-! ### Before the acceptance no page lies in another device -/

/-- No entry of the root table is legal. -/
theorem rootEntry_illegal : ∀ i < 512,
    submitted.num (keyOf 0 (submitted.remapped (0x11F6 + 8 * i))) 8 % 2 = 0 ∨
      submitted.num (keyOf 0 (submitted.remapped (0x11F6 + 8 * i))) 8 / 2 ^ 56 ≠ 0 := by
  decide +kernel

theorem walk_none (va : Nat) : submitted.walk 0 va 5 0x11F6 = none := by
  unfold State.walk
  cases haddr : submitted.devAddr 0 (0x11F6 + 8 * (va / 2 ^ (12 + 9 * 4) % 512)) with
  | none => rfl
  | some p =>
    have hp : p = submitted.remapped (0x11F6 + 8 * (va / 2 ^ (12 + 9 * 4) % 512)) := by
      unfold State.devAddr at haddr
      rw [if_pos rfl] at haddr
      split at haddr
      · exact (Option.some.inj haddr).symm
      · cases haddr
    have hbad := rootEntry_illegal _ (Nat.mod_lt (va / 2 ^ (12 + 9 * 4)) (by decide : 512 > 0))
    rw [← hp] at hbad
    exact if_pos (hbad.imp_right .inl)

/-- What a lookup finds is in the cache, and lies in device memory. -/
theorem lookup_tgt {va : Nat} {t : Tlb} (h : submitted.lookup 0 va = some t) : t.tgt = 0 := by
  unfold State.lookup at h
  cases hcached : submitted.cached 0 va with
  | some x =>
    rw [hcached] at h
    cases h
    have hall : ∀ x ∈ submitted.tlb, x.tgt = 0 := by decide
    exact hall _ (List.mem_of_find?_eq_some hcached)
  | none =>
    rw [hcached] at h
    have hroot : submitted.walk (ctxFn 0) va 5 (submitted.context 0).ptroot.toNat = none := walk_none va
    rw [hroot] at h
    cases h

theorem isRemote_keyOf_zero (p : Nat) : isRemote (keyOf 0 p) = false := by
  have hspace : spaceOf (keyOf 0 p) = 0 := by
    unfold spaceOf keyOf
    omega
  unfold isRemote
  rw [hspace]
  rfl

theorem submitted_local : Local submitted 0 := by
  intro va acc key o h
  unfold State.xlate at h
  cases hlook : submitted.lookup 0 va with
  | none =>
    rw [hlook] at h
    cases h
  | some t =>
    rw [hlook] at h
    simp only [lookup_tgt hlook] at h
    split at h
    · cases h
    · split at h
      · split at h
        · cases h
          exact isRemote_keyOf_zero _
        · cases h
      · cases h

/-! ### The acceptance -/

/-- What acceptance decides is that the grove is live. -/
def isLive : Verdict → Bool
  | .live _ => true
  | _ => false

theorem exists_live {v : Verdict} (h : isLive v = true) : ∃ G, v = .live G := by
  cases v with
  | live G => exact ⟨G, rfl⟩
  | refuse st node => cases h
  | wait a p => cases h

theorem submitted_live : isLive (submitted.verdict (.submission 0) 0 0x1000) = true := by decide +kernel

/-- The second locator goes to device 1, and its request takes the number that the grove was to have. -/
theorem acceptGrove_other_number : sget (acceptGrove 0 submitted).groves submitted.nextId = none := by decide +kernel

/-- Refutes O47, in its clause of a grove that goes live: that no page of the context lies in another device is asked of the state before
the acceptance, and does not hold while the locators are written. Here the root table is not aligned; the locator of node 1, which goes two
bytes above its illegal entry, makes the entry legal, and node 0's locator lies in a page of device 1. Its request takes the next number,
and the grove is not live under it. -/
theorem not_groveSteps : ¬ Obligations.GroveSteps := by
  unfold Obligations.GroveSteps
  rintro ⟨haccept, -⟩
  obtain ⟨-, -, -, -, -, -, hlive⟩ := haccept submitted 0 0 0x1000 rfl
  obtain ⟨G, hG⟩ := exists_live submitted_live
  have hon : (∀ e ∈ submitted.subs, e.1 < 0 → e.2.ctx ≠ 0) ∧ (submitted.context 0).saved = false ∧ (submitted.context 0).lost = false ∧
      (submitted.context 0).ladder = none ∧ submitted.freeze = none ∧ submitted.frozenMem = none ∧
      submitted.fnRuns (ctxFn 0) = true :=
    ⟨fun e _ h => absurd h (Nat.not_lt_zero _), rfl, rfl, rfl, rfl, rfl, rfl⟩
  obtain ⟨u, hexec, -, hgrove, -⟩ := hlive hon G hG submitted_local
  have hstep : exec (.groveAcceptance 0) submitted = .next (acceptGrove 0 submitted).tick := rfl
  have hu : (acceptGrove 0 submitted).tick = u := Host.Outcome.next.inj (hstep.symm.trans hexec)
  rw [← hu, State.tick_groves, acceptGrove_other_number] at hgrove
  cases hgrove

end Sys2Proof.Proofs.Acceptance
end

section
/-! SUPPORT. The encoder and the decoder agree (R43 to R50, R66 to R69): the word of an instruction decodes to it, from the bits and from
the bytes, and the events alone have no word. -/

namespace Sys2Proof.Proofs.Words

open Sys2Proof Sys2Proof.Machine Sys2Proof.Claims Sys2Proof.Laws

/-! ### The word of an instruction -/

/-- The law of each instruction; an event has no word. -/
theorem roundTrip (i : Instr) : RoundTrip.Statement i := by
  cases i with
  | iaddV g d a b => exact RoundTrip.iaddV g d a b
  | iaddS g d a b => exact RoundTrip.iaddS g d a b
  | iaddI g d a i => exact RoundTrip.iaddI g d a i
  | iaddUint d a b => exact RoundTrip.iaddUint d a b
  | iaddUintI d a i => exact RoundTrip.iaddUintI d a i
  | isubV g d a b => exact RoundTrip.isubV g d a b
  | isubS g d a b => exact RoundTrip.isubS g d a b
  | isubI g d a i => exact RoundTrip.isubI g d a i
  | isubUint d a b => exact RoundTrip.isubUint d a b
  | isubUintI d a i => exact RoundTrip.isubUintI d a i
  | imulV g d a b => exact RoundTrip.imulV g d a b
  | imulS g d a b => exact RoundTrip.imulS g d a b
  | imulI g d a i => exact RoundTrip.imulI g d a i
  | imulUint d a b => exact RoundTrip.imulUint d a b
  | imulUintI d a i => exact RoundTrip.imulUintI d a i
  | imulhV g d a b => exact RoundTrip.imulhV g d a b
  | imulhS g d a b => exact RoundTrip.imulhS g d a b
  | imulhI g d a i => exact RoundTrip.imulhI g d a i
  | imulhUint d a b => exact RoundTrip.imulhUint d a b
  | imulhUintI d a i => exact RoundTrip.imulhUintI d a i
  | iminV g d a b => exact RoundTrip.iminV g d a b
  | iminS g d a b => exact RoundTrip.iminS g d a b
  | iminI g d a i => exact RoundTrip.iminI g d a i
  | iminUint d a b => exact RoundTrip.iminUint d a b
  | iminUintI d a i => exact RoundTrip.iminUintI d a i
  | imaxV g d a b => exact RoundTrip.imaxV g d a b
  | imaxS g d a b => exact RoundTrip.imaxS g d a b
  | imaxI g d a i => exact RoundTrip.imaxI g d a i
  | imaxUint d a b => exact RoundTrip.imaxUint d a b
  | imaxUintI d a i => exact RoundTrip.imaxUintI d a i
  | iaddcV g d a b => exact RoundTrip.iaddcV g d a b
  | iaddcS g d a b => exact RoundTrip.iaddcS g d a b
  | iaddcI g d a i => exact RoundTrip.iaddcI g d a i
  | iaddcUint d a b => exact RoundTrip.iaddcUint d a b
  | iaddcUintI d a i => exact RoundTrip.iaddcUintI d a i
  | isubcV g d a b => exact RoundTrip.isubcV g d a b
  | isubcS g d a b => exact RoundTrip.isubcS g d a b
  | isubcI g d a i => exact RoundTrip.isubcI g d a i
  | isubcUint d a b => exact RoundTrip.isubcUint d a b
  | isubcUintI d a i => exact RoundTrip.isubcUintI d a i
  | andV g d a b => exact RoundTrip.andV g d a b
  | andS g d a b => exact RoundTrip.andS g d a b
  | andI g d a i => exact RoundTrip.andI g d a i
  | andUlog d a b => exact RoundTrip.andUlog d a b
  | andUlogI d a i => exact RoundTrip.andUlogI d a i
  | orV g d a b => exact RoundTrip.orV g d a b
  | orS g d a b => exact RoundTrip.orS g d a b
  | orI g d a i => exact RoundTrip.orI g d a i
  | orUlog d a b => exact RoundTrip.orUlog d a b
  | orUlogI d a i => exact RoundTrip.orUlogI d a i
  | xorV g d a b => exact RoundTrip.xorV g d a b
  | xorS g d a b => exact RoundTrip.xorS g d a b
  | xorI g d a i => exact RoundTrip.xorI g d a i
  | xorUlog d a b => exact RoundTrip.xorUlog d a b
  | xorUlogI d a i => exact RoundTrip.xorUlogI d a i
  | andnV g d a b => exact RoundTrip.andnV g d a b
  | andnS g d a b => exact RoundTrip.andnS g d a b
  | andnI g d a i => exact RoundTrip.andnI g d a i
  | andnUlog d a b => exact RoundTrip.andnUlog d a b
  | andnUlogI d a i => exact RoundTrip.andnUlogI d a i
  | shlV g d a b => exact RoundTrip.shlV g d a b
  | shlS g d a b => exact RoundTrip.shlS g d a b
  | shlI g d a i => exact RoundTrip.shlI g d a i
  | shlUlog d a b => exact RoundTrip.shlUlog d a b
  | shlUlogI d a i => exact RoundTrip.shlUlogI d a i
  | shrV g d a b => exact RoundTrip.shrV g d a b
  | shrS g d a b => exact RoundTrip.shrS g d a b
  | shrI g d a i => exact RoundTrip.shrI g d a i
  | shrUlog d a b => exact RoundTrip.shrUlog d a b
  | shrUlogI d a i => exact RoundTrip.shrUlogI d a i
  | sarV g d a b => exact RoundTrip.sarV g d a b
  | sarS g d a b => exact RoundTrip.sarS g d a b
  | sarI g d a i => exact RoundTrip.sarI g d a i
  | sarUlog d a b => exact RoundTrip.sarUlog d a b
  | sarUlogI d a i => exact RoundTrip.sarUlogI d a i
  | rotlV g d a b => exact RoundTrip.rotlV g d a b
  | rotlS g d a b => exact RoundTrip.rotlS g d a b
  | rotlI g d a i => exact RoundTrip.rotlI g d a i
  | rotlUlog d a b => exact RoundTrip.rotlUlog d a b
  | rotlUlogI d a i => exact RoundTrip.rotlUlogI d a i
  | idivV g d a b => exact RoundTrip.idivV g d a b
  | idivS g d a b => exact RoundTrip.idivS g d a b
  | iremV g d a b => exact RoundTrip.iremV g d a b
  | iremS g d a b => exact RoundTrip.iremS g d a b
  | iabsdV g d a b => exact RoundTrip.iabsdV g d a b
  | iabsdS g d a b => exact RoundTrip.iabsdS g d a b
  | iaddsatV g d a b => exact RoundTrip.iaddsatV g d a b
  | iaddsatS g d a b => exact RoundTrip.iaddsatS g d a b
  | isubsatV g d a b => exact RoundTrip.isubsatV g d a b
  | isubsatS g d a b => exact RoundTrip.isubsatS g d a b
  | leaV g d a b => exact RoundTrip.leaV g d a b
  | leaS g d a b => exact RoundTrip.leaS g d a b
  | bpermV g d a b => exact RoundTrip.bpermV g d a b
  | bpermS g d a b => exact RoundTrip.bpermS g d a b
  | imadV g d a b => exact RoundTrip.imadV g d a b
  | imadS g d a b => exact RoundTrip.imadS g d a b
  | clz g d a => exact RoundTrip.clz g d a
  | ctz g d a => exact RoundTrip.ctz g d a
  | popc g d a => exact RoundTrip.popc g d a
  | brev g d a => exact RoundTrip.brev g d a
  | iabs g d a => exact RoundTrip.iabs g d a
  | ineg g d a => exact RoundTrip.ineg g d a
  | notV g d a => exact RoundTrip.notV g d a
  | icvt g d a s x t => exact RoundTrip.icvt g d a s x t
  | bfx g d a b => exact RoundTrip.bfx g d a b
  | bfxn g d a b => exact RoundTrip.bfxn g d a b
  | bfi g d a b => exact RoundTrip.bfi g d a b
  | fshl g d a b => exact RoundTrip.fshl g d a b
  | fshr g d a b => exact RoundTrip.fshr g d a b
  | idot4 g d a b => exact RoundTrip.idot4 g d a b
  | idot4n g d a b => exact RoundTrip.idot4n g d a b
  | idot4m g d a b => exact RoundTrip.idot4m g d a b
  | idot2 g d a b => exact RoundTrip.idot2 g d a b
  | isetEqV g c p a b => exact RoundTrip.isetEqV g c p a b
  | isetEqS g c p a b => exact RoundTrip.isetEqS g c p a b
  | isetEqI g c p a i => exact RoundTrip.isetEqI g c p a i
  | isetNeV g c p a b => exact RoundTrip.isetNeV g c p a b
  | isetNeS g c p a b => exact RoundTrip.isetNeS g c p a b
  | isetNeI g c p a i => exact RoundTrip.isetNeI g c p a i
  | isetLtV g c p a b => exact RoundTrip.isetLtV g c p a b
  | isetLtS g c p a b => exact RoundTrip.isetLtS g c p a b
  | isetLtI g c p a i => exact RoundTrip.isetLtI g c p a i
  | isetGeV g c p a b => exact RoundTrip.isetGeV g c p a b
  | isetGeS g c p a b => exact RoundTrip.isetGeS g c p a b
  | isetGeI g c p a i => exact RoundTrip.isetGeI g c p a i
  | isetLtnV g c p a b => exact RoundTrip.isetLtnV g c p a b
  | isetLtnS g c p a b => exact RoundTrip.isetLtnS g c p a b
  | isetLtnI g c p a i => exact RoundTrip.isetLtnI g c p a i
  | isetGenV g c p a b => exact RoundTrip.isetGenV g c p a b
  | isetGenS g c p a b => exact RoundTrip.isetGenS g c p a b
  | isetGenI g c p a i => exact RoundTrip.isetGenI g c p a i
  | isetLeV g c p a b => exact RoundTrip.isetLeV g c p a b
  | isetLeS g c p a b => exact RoundTrip.isetLeS g c p a b
  | isetLeI g c p a i => exact RoundTrip.isetLeI g c p a i
  | isetGtV g c p a b => exact RoundTrip.isetGtV g c p a b
  | isetGtS g c p a b => exact RoundTrip.isetGtS g c p a b
  | isetGtI g c p a i => exact RoundTrip.isetGtI g c p a i
  | usetEq c p a b => exact RoundTrip.usetEq c p a b
  | usetNe c p a b => exact RoundTrip.usetNe c p a b
  | usetLt c p a b => exact RoundTrip.usetLt c p a b
  | usetGe c p a b => exact RoundTrip.usetGe c p a b
  | usetLtn c p a b => exact RoundTrip.usetLtn c p a b
  | usetGen c p a b => exact RoundTrip.usetGen c p a b
  | usetLe c p a b => exact RoundTrip.usetLe c p a b
  | usetGt c p a b => exact RoundTrip.usetGt c p a b
  | mov g d a => exact RoundTrip.mov g d a
  | sel g d a b => exact RoundTrip.sel g d a b
  | bcast g d b => exact RoundTrip.bcast g d b
  | extract g d a l => exact RoundTrip.extract g d a l
  | pmovToVector g d => exact RoundTrip.pmovToVector g d
  | pmovToPredicates g a => exact RoundTrip.pmovToPredicates g a
  | pset g c p a => exact RoundTrip.pset g c p a
  | plop g l p a b => exact RoundTrip.plop g l p a b
  | vote g d a m => exact RoundTrip.vote g d a m
  | moviVector g d i => exact RoundTrip.moviVector g d i
  | moviScalar d i => exact RoundTrip.moviScalar d i
  | faddV g d a b => exact RoundTrip.faddV g d a b
  | faddS g d a b => exact RoundTrip.faddS g d a b
  | fsubV g d a b => exact RoundTrip.fsubV g d a b
  | fsubS g d a b => exact RoundTrip.fsubS g d a b
  | fmulV g d a b => exact RoundTrip.fmulV g d a b
  | fmulS g d a b => exact RoundTrip.fmulS g d a b
  | ffmaV g d a b => exact RoundTrip.ffmaV g d a b
  | ffmaS g d a b => exact RoundTrip.ffmaS g d a b
  | fminV g d a b => exact RoundTrip.fminV g d a b
  | fminS g d a b => exact RoundTrip.fminS g d a b
  | fmaxV g d a b => exact RoundTrip.fmaxV g d a b
  | fmaxS g d a b => exact RoundTrip.fmaxS g d a b
  | fscaleV g d a b => exact RoundTrip.fscaleV g d a b
  | fscaleS g d a b => exact RoundTrip.fscaleS g d a b
  | fcopysignV g d a b => exact RoundTrip.fcopysignV g d a b
  | fcopysignS g d a b => exact RoundTrip.fcopysignS g d a b
  | fsetEqV g c p a b => exact RoundTrip.fsetEqV g c p a b
  | fsetEqS g c p a b => exact RoundTrip.fsetEqS g c p a b
  | fsetNeV g c p a b => exact RoundTrip.fsetNeV g c p a b
  | fsetNeS g c p a b => exact RoundTrip.fsetNeS g c p a b
  | fsetLtV g c p a b => exact RoundTrip.fsetLtV g c p a b
  | fsetLtS g c p a b => exact RoundTrip.fsetLtS g c p a b
  | fsetLeV g c p a b => exact RoundTrip.fsetLeV g c p a b
  | fsetLeS g c p a b => exact RoundTrip.fsetLeS g c p a b
  | fsetGtV g c p a b => exact RoundTrip.fsetGtV g c p a b
  | fsetGtS g c p a b => exact RoundTrip.fsetGtS g c p a b
  | fsetGeV g c p a b => exact RoundTrip.fsetGeV g c p a b
  | fsetGeS g c p a b => exact RoundTrip.fsetGeS g c p a b
  | fsetUnorderedV g c p a b => exact RoundTrip.fsetUnorderedV g c p a b
  | fsetUnorderedS g c p a b => exact RoundTrip.fsetUnorderedS g c p a b
  | fsetOrderedV g c p a b => exact RoundTrip.fsetOrderedV g c p a b
  | fsetOrderedS g c p a b => exact RoundTrip.fsetOrderedS g c p a b
  | frcp g d a => exact RoundTrip.frcp g d a
  | frsq g d a => exact RoundTrip.frsq g d a
  | fsqrt g d a => exact RoundTrip.fsqrt g d a
  | fexp2 g d a => exact RoundTrip.fexp2 g d a
  | flog2 g d a => exact RoundTrip.flog2 g d a
  | fsin g d a => exact RoundTrip.fsin g d a
  | fcos g d a => exact RoundTrip.fcos g d a
  | ftanh g d a => exact RoundTrip.ftanh g d a
  | fdiv g d a b => exact RoundTrip.fdiv g d a b
  | frnd g d a => exact RoundTrip.frnd g d a
  | fclass g d a => exact RoundTrip.fclass g d a
  | fabs g d a => exact RoundTrip.fabs g d a
  | fneg g d a => exact RoundTrip.fneg g d a
  | fsat g d a => exact RoundTrip.fsat g d a
  | fmed3 g d a b => exact RoundTrip.fmed3 g d a b
  | dadd g d a b => exact RoundTrip.dadd g d a b
  | dsub g d a b => exact RoundTrip.dsub g d a b
  | dmul g d a b => exact RoundTrip.dmul g d a b
  | dfma g d a b => exact RoundTrip.dfma g d a b
  | dmin g d a b => exact RoundTrip.dmin g d a b
  | dmax g d a b => exact RoundTrip.dmax g d a b
  | ddiv g d a b => exact RoundTrip.ddiv g d a b
  | dsqrt g d a => exact RoundTrip.dsqrt g d a
  | dsetEq g c p a b => exact RoundTrip.dsetEq g c p a b
  | dsetNe g c p a b => exact RoundTrip.dsetNe g c p a b
  | dsetLt g c p a b => exact RoundTrip.dsetLt g c p a b
  | dsetLe g c p a b => exact RoundTrip.dsetLe g c p a b
  | dsetGt g c p a b => exact RoundTrip.dsetGt g c p a b
  | dsetGe g c p a b => exact RoundTrip.dsetGe g c p a b
  | dsetUnordered g c p a b => exact RoundTrip.dsetUnordered g c p a b
  | dsetOrdered g c p a b => exact RoundTrip.dsetOrdered g c p a b
  | hadd2V g d a b => exact RoundTrip.hadd2V g d a b
  | hadd2S g d a b => exact RoundTrip.hadd2S g d a b
  | hmul2V g d a b => exact RoundTrip.hmul2V g d a b
  | hmul2S g d a b => exact RoundTrip.hmul2S g d a b
  | hfma2V g d a b => exact RoundTrip.hfma2V g d a b
  | hfma2S g d a b => exact RoundTrip.hfma2S g d a b
  | badd2V g d a b => exact RoundTrip.badd2V g d a b
  | badd2S g d a b => exact RoundTrip.badd2S g d a b
  | bmul2V g d a b => exact RoundTrip.bmul2V g d a b
  | bmul2S g d a b => exact RoundTrip.bmul2S g d a b
  | bfma2V g d a b => exact RoundTrip.bfma2V g d a b
  | bfma2S g d a b => exact RoundTrip.bfma2S g d a b
  | hmin2V g d a b => exact RoundTrip.hmin2V g d a b
  | hmin2S g d a b => exact RoundTrip.hmin2S g d a b
  | hmax2V g d a b => exact RoundTrip.hmax2V g d a b
  | hmax2S g d a b => exact RoundTrip.hmax2S g d a b
  | fcvt g d a s x t => exact RoundTrip.fcvt g d a s x t
  | f2i g d a s x t => exact RoundTrip.f2i g d a s x t
  | i2f g d a s x t => exact RoundTrip.i2f g d a s x t
  | fpack g d a s x t => exact RoundTrip.fpack g d a s x t
  | funpack g d a s x => exact RoundTrip.funpack g d a s x
  | bpack g d a => exact RoundTrip.bpack g d a
  | bunpack g d a => exact RoundTrip.bunpack g d a
  | xget g d a b => exact RoundTrip.xget g d a b
  | xrot g d a b => exact RoundTrip.xrot g d a b
  | xslide g d a b => exact RoundTrip.xslide g d a b
  | xmirr g d a b => exact RoundTrip.xmirr g d a b
  | lred g d a b => exact RoundTrip.lred g d a b
  | lscan g d a b => exact RoundTrip.lscan g d a b
  | compact g d a b => exact RoundTrip.compact g d a b
  | matchLanes g d a b => exact RoundTrip.matchLanes g d a b
  | intersect g d a b => exact RoundTrip.intersect g d a b
  | ld w g d a o => exact RoundTrip.ld w g d a o
  | st w g d a o => exact RoundTrip.st w g d a o
  | lds w g d a o => exact RoundTrip.lds w g d a o
  | sts w g d a o => exact RoundTrip.sts w g d a o
  | ld8 g d a i => exact RoundTrip.ld8 g d a i
  | ld8n g d a i => exact RoundTrip.ld8n g d a i
  | ld16 g d a i => exact RoundTrip.ld16 g d a i
  | ld16n g d a i => exact RoundTrip.ld16n g d a i
  | st8 g d a i => exact RoundTrip.st8 g d a i
  | st16 g d a i => exact RoundTrip.st16 g d a i
  | ldbc g d a i => exact RoundTrip.ldbc g d a i
  | pref g a i => exact RoundTrip.pref g a i
  | atomAdd g d a b => exact RoundTrip.atomAdd g d a b
  | atomMin g d a b => exact RoundTrip.atomMin g d a b
  | atomMax g d a b => exact RoundTrip.atomMax g d a b
  | atomAnd g d a b => exact RoundTrip.atomAnd g d a b
  | atomOr g d a b => exact RoundTrip.atomOr g d a b
  | atomXor g d a b => exact RoundTrip.atomXor g d a b
  | atomExch g d a b => exact RoundTrip.atomExch g d a b
  | atomCas g d a b => exact RoundTrip.atomCas g d a b
  | redAdd g a b => exact RoundTrip.redAdd g a b
  | redMin g a b => exact RoundTrip.redMin g a b
  | redMax g a b => exact RoundTrip.redMax g a b
  | redAnd g a b => exact RoundTrip.redAnd g a b
  | redOr g a b => exact RoundTrip.redOr g a b
  | redXor g a b => exact RoundTrip.redXor g a b
  | atomqAdd g d a b => exact RoundTrip.atomqAdd g d a b
  | atomqExch g d a b => exact RoundTrip.atomqExch g d a b
  | atomqCas g d a b => exact RoundTrip.atomqCas g d a b
  | fenceAcq => exact RoundTrip.fenceAcq
  | fenceRel => exact RoundTrip.fenceRel
  | fenceAr => exact RoundTrip.fenceAr
  | meet l b => exact RoundTrip.meet l b
  | meetArr l b => exact RoundTrip.meetArr l b
  | meetWait l b => exact RoundTrip.meetWait l b
  | meetRed l b o s r => exact RoundTrip.meetRed l b o s r
  | tfence => exact RoundTrip.tfence
  | tcopy x y z => exact RoundTrip.tcopy x y z
  | tstore x y z => exact RoundTrip.tstore x y z
  | tgather x y z => exact RoundTrip.tgather x y z
  | tscatter x y z => exact RoundTrip.tscatter x y z
  | tready x => exact RoundTrip.tready x
  | trelease x => exact RoundTrip.trelease x
  | tstate x y => exact RoundTrip.tstate x y
  | trows x y => exact RoundTrip.trows x y
  | mloadw x y => exact RoundTrip.mloadw x y
  | mma x y z => exact RoundTrip.mma x y z
  | mmavs x y z => exact RoundTrip.mmavs x y z
  | mfence x => exact RoundTrip.mfence x
  | mwait x => exact RoundTrip.mwait x
  | mstoreRegister x b z => exact RoundTrip.mstoreRegister x b z
  | mstoreTile x b z => exact RoundTrip.mstoreTile x b z
  | mzero x => exact RoundTrip.mzero x
  | medge x y z => exact RoundTrip.medge x y z
  | mpairLeave => exact RoundTrip.mpairLeave
  | mpairEnter => exact RoundTrip.mpairEnter
  | mshape x y => exact RoundTrip.mshape x y
  | noderead x y z => exact RoundTrip.noderead x y z
  | inbox x y z => exact RoundTrip.inbox x y z
  | yieldUp x y => exact RoundTrip.yieldUp x y
  | hand x y z => exact RoundTrip.hand x y z
  | nodealloc x y z => exact RoundTrip.nodealloc x y z
  | treegrow x y => exact RoundTrip.treegrow x y
  | grove x => exact RoundTrip.grove x
  | frame x => exact RoundTrip.frame x
  | spawn x y j w p => exact RoundTrip.spawn x y j w p
  | spawnf x => exact RoundTrip.spawnf x
  | joinwait x => exact RoundTrip.joinwait x
  | joinadd x y => exact RoundTrip.joinadd x y
  | payload x y => exact RoundTrip.payload x y
  | spquery x y => exact RoundTrip.spquery x y
  | capbegin x y => exact RoundTrip.capbegin x y
  | capend => exact RoundTrip.capend
  | capres x => exact RoundTrip.capres x
  | capabort => exact RoundTrip.capabort
  | bra n c o => exact RoundTrip.bra n c o
  | call n c o => exact RoundTrip.call n c o
  | joinat o => exact RoundTrip.joinat o
  | nop => exact RoundTrip.nop
  | exit => exact RoundTrip.exit
  | ret => exact RoundTrip.ret
  | brxVector r => exact RoundTrip.brxVector r
  | brxScalar r => exact RoundTrip.brxScalar r
  | regang m i => exact RoundTrip.regang m i
  | trap c => exact RoundTrip.trap c
  | bkpt c => exact RoundTrip.bkpt c
  | sleep n => exact RoundTrip.sleep n
  | yieldq => exact RoundTrip.yieldq
  | tstamp d => exact RoundTrip.tstamp d
  | sread s d => exact RoundTrip.sread s d
  | swrite s d => exact RoundTrip.swrite s d
  | iret => exact RoundTrip.iret
  | park => exact RoundTrip.park
  | hintImm i => exact RoundTrip.hintImm i
  | hintGuard n p => exact RoundTrip.hintGuard n p
  | hintSrcx c b a => exact RoundTrip.hintSrcx c b a
  | hintCreg r => exact RoundTrip.hintCreg r
  | hintType t => exact RoundTrip.hintType t
  | hintRound f s m => exact RoundTrip.hintRound f s m
  | hintSched y s => exact RoundTrip.hintSched y s
  | hintCache p => exact RoundTrip.hintCache p
  | _ => exact fun _ h => nomatch h

/-- Settles O5: by the law of each instruction. -/
theorem decodeOfEncode : Obligations.DecodeOfEncode := roundTrip

theorem reads_of_encode {x : Word} {i : Instr} (h : encode i = some x) : Reads x i := ⟨roundTrip i x h, h⟩

/-- Settles O4: each word is the encoder's, which decodes. -/
theorem decodedWords : Obligations.DecodedWords :=
  ⟨reads_of_encode rfl, reads_of_encode rfl, reads_of_encode rfl, reads_of_encode rfl, reads_of_encode rfl, reads_of_encode rfl,
    reads_of_encode rfl, reads_of_encode rfl, reads_of_encode rfl, reads_of_encode rfl, reads_of_encode rfl, reads_of_encode rfl,
    reads_of_encode rfl, reads_of_encode rfl, reads_of_encode rfl, reads_of_encode rfl, reads_of_encode rfl, reads_of_encode rfl,
    reads_of_encode rfl, reads_of_encode rfl, reads_of_encode rfl, reads_of_encode rfl, reads_of_encode rfl, reads_of_encode rfl⟩

/-! ### Which instructions have a word -/

theorem isEvent_eq_isNone (i : Instr) : isEvent i = (encode i).isNone := by
  cases i <;> rfl

/-! ### The word from its bits and from its bytes -/

/-- Four bytes of a number, lowest first, are read as the word of that number (R5, R43). -/
theorem decodeBytes_bytesOf (x : Nat) (rest : List Byte) :
    decodeBytes (bytesOf 4 x ++ rest) = (decode (BitVec.ofNat 32 x)).map (fun i => (i, rest)) := by
  have hb : bytesOf 4 x = [BitVec.ofNat 8 x, BitVec.ofNat 8 (x / 256), BitVec.ofNat 8 (x / 256 / 256),
      BitVec.ofNat 8 (x / 256 / 256 / 256)] := rfl
  have hx : BitVec.ofNat 32 (numOf (bytesOf 4 x)) = BitVec.ofNat 32 x := by
    rw [numOf_bytesOf]
    exact BitVec.eq_of_toNat_eq (by simp only [BitVec.toNat_ofNat]; omega)
  rw [← hx, hb]
  simp only [List.cons_append, List.nil_append, decodeBytes, Step.wordOfBytes_eq]

/-- A number of 32 bits is the table word of its four bytes. -/
theorem decodeTableWord_of_bytes {x : Nat} {i : Instr} {r : List Byte} (hx : x < 2 ^ 32)
    (h : decodeBytes (bytesOf 4 x) = .ok (i, r)) : decodeTableWord 32 x = some i := by
  have hb : bytesOf 4 x = [BitVec.ofNat 8 x, BitVec.ofNat 8 (x / 2 ^ 8), BitVec.ofNat 8 (x / 2 ^ 16),
      BitVec.ofNat 8 (x / 2 ^ 24)] := by
    simp only [bytesOf, Nat.div_div_eq_div_mul, Nat.reduceMul, Nat.reducePow]
  rw [hb] at h
  have hn : ¬ (32 = 0 ∨ 32 < 32 ∨ 2 ^ 32 ≤ x) := by omega
  simp only [decodeTableWord, hn, if_false, h]

/-- Settles O7: the events are the instructions without a word, and a word is read from its bits and its bytes as the decoder reads it. -/
theorem wellFormedEncodes : Obligations.WellFormedEncodes := by
  refine ⟨?_, ?_, ?_⟩
  · intro i _ hi
    rw [isEvent_eq_isNone, Option.isNone_eq_false_iff, Option.isSome_iff_exists] at hi
    exact hi
  · intro i hi
    rwa [isEvent_eq_isNone, Option.isNone_iff_eq_none] at hi
  · intro i w rest h
    have hbytes (r : List Byte) : decodeBytes (bytesOf 4 w.toNat ++ r) = .ok (i, r) := by
      rw [decodeBytes_bytesOf, BitVec.ofNat_toNat, BitVec.setWidth_eq, roundTrip i w h]
      rfl
    exact ⟨decodeTableWord_of_bytes w.isLt (hbytes []), hbytes rest⟩

end Sys2Proof.Proofs.Words
end

section
/-! SUPPORT. Each word has one spelling: what a row of the decoder accepts is the word that the encoder makes of its instruction (R45,
R69). One lemma for each major opcode, whose cases are the rows of the opcode map (R66 to R68). -/

namespace Sys2Proof.Proofs.Spelling

open Sys2Proof

/-- A decoder's answer beside the word it read: the instruction, if it answers one, is encoded as that word. -/
def Spells (x : Except DecodeError Instr) (w : Word) : Prop := ∀ i, x = .ok i → encode i = some w

namespace Spells
variable {x : Except DecodeError Instr} {i : Instr} {v w : Word} {p : Prop} [Decidable p]

theorem error (e : DecodeError) : Spells (.error e) w := fun _ h => nomatch h

theorem ok (h : encode i = some v) (e : v = w) : Spells (.ok i) w := by
  rintro _ ⟨⟩
  rw [h, e]

/-- A row whose fixed fields the word must hold. -/
theorem row (h : encode i = some v) (e : p → v = w) (hx : Spells x w) : Spells (if p then .ok i else x) w := by
  split
  next hp => exact ok h (e hp)
  next => exact hx

theorem of_eq (h : Spells x v) (e : v = w) : Spells x w := e ▸ h

end Spells

/-! ### Neighbouring fields -/

theorem bits_append {k n m lo hi : Nat} (x : BitVec k) (h : hi = lo + m) : bits x hi n ++ bits x lo m = bits x lo (n + m) :=
  BitVec.extractLsb'_append_extractLsb'_eq_extractLsb' h

theorem bits_all {k : Nat} (x : BitVec k) : bits x 0 k = x := Laws.extract_all x

theorem join_4_3 (x : BitVec 7) : bits x 3 4 ++ bits x 0 3 = x := (bits_append x rfl).trans (bits_all x)

theorem pad_4_3 {x : BitVec 7} {c : BitVec 4} (h : bits x 3 4 = c) : c ++ bits x 0 3 = x := h ▸ join_4_3 x

theorem pad_5_2 {x : BitVec 7} {c : BitVec 5} (h : bits x 2 5 = c) : c ++ bits x 0 2 = x :=
  h ▸ (bits_append x rfl).trans (bits_all x)

/-! ### Formats F1 and F2 -/

section
variable (f : Nat) (g : BitVec 2) (d a b : BitVec 7)

theorem spells_01 : Spells (decode01 f g d a b) (encF1 0x01#6 (BitVec.ofNat 3 f) g d a b) := by
  unfold decode01
  split
  case h_9 => exact .error _
  all_goals exact .ok rfl rfl

theorem spells_02 : Spells (decode02 f g d a b) (encF1 0x02#6 (BitVec.ofNat 3 f) g d a b) := by
  unfold decode02
  split
  case h_9 => exact .error _
  all_goals exact .ok rfl rfl

theorem spells_03 : Spells (decode03 f g d a b) (encF1 0x03#6 (BitVec.ofNat 3 f) g d a b) := by
  unfold decode03
  split
  case h_9 => exact .error _
  all_goals exact .ok rfl rfl

theorem spells_04 : Spells (decode04 f g d a b) (encF1 0x04#6 (BitVec.ofNat 3 f) g d a b) := by
  unfold decode04
  split
  case h_9 => exact .error _
  all_goals exact .ok rfl rfl

theorem spells_05 : Spells (decode05 f g d a b) (encF1 0x05#6 (BitVec.ofNat 3 f) g d a b) := by
  unfold decode05
  split
  case h_9 => exact .error _
  all_goals exact .ok rfl rfl

theorem spells_06 : Spells (decode06 f g d a b) (encF1 0x06#6 (BitVec.ofNat 3 f) g d a b) := by
  unfold decode06
  split
  case h_9 => exact .error _
  all_goals exact .ok rfl rfl

theorem spells_07 : Spells (decode07 f g d a b) (encF1 0x07#6 (BitVec.ofNat 3 f) g d a b) := by
  unfold decode07
  split
  case h_9 => exact .error _
  all_goals exact .ok rfl rfl

theorem spells_08 : Spells (decode08 f g d a b) (encF1 0x08#6 (BitVec.ofNat 3 f) g d a b) := by
  unfold decode08
  split
  case h_9 => exact .error _
  all_goals exact .ok rfl rfl

theorem spells_09 : Spells (decode09 f g d a b) (encF1 0x09#6 (BitVec.ofNat 3 f) g d a b) := by
  unfold decode09
  split
  case h_8 => exact .ok rfl (by simp (disch := rfl) only [bits_append, bits_all])
  case h_9 => exact .error _
  all_goals exact .row rfl (by rintro rfl; rfl) (.error _)

theorem spells_0A : Spells (decode0A f g d a b) (encF1 0x0A#6 (BitVec.ofNat 3 f) g d a b) := by
  unfold decode0A
  split
  case h_6 => exact .error _
  all_goals exact .ok rfl rfl

theorem spells_0B : Spells (decode0B f g d a b) (encF1 0x0B#6 (BitVec.ofNat 3 f) g d a b) := by
  unfold decode0B
  split
  case h_9 => exact .error _
  all_goals exact .ok rfl (by rw [join_4_3])

theorem spells_0C : Spells (decode0C f g d a b) (encF1 0x0C#6 (BitVec.ofNat 3 f) g d a b) := by
  unfold decode0C
  split
  case h_9 => exact .error _
  all_goals exact .ok rfl (by rw [join_4_3])

theorem spells_0D : Spells (decode0D f g d a b) (encF1 0x0D#6 (BitVec.ofNat 3 f) g d a b) := by
  unfold decode0D
  split
  case h_9 => exact .error _
  all_goals exact .ok rfl (by rw [join_4_3])

theorem spells_0E : Spells (decode0E f g d a b) (encF1 0x0E#6 (BitVec.ofNat 3 f) g d a b) := by
  unfold decode0E
  split
  case h_2 => exact .ok rfl rfl
  case h_4 => exact .row rfl (fun h => by simp (disch := rfl) only [← h, bits_append, bits_all]) (.error _)
  case h_5 =>
    refine .row rfl (by rintro ⟨rfl, rfl⟩; rfl) ?_
    exact .row rfl (by rintro ⟨rfl, rfl⟩; rfl) (.error _)
  case h_6 => exact .row rfl (by rintro rfl; rw [join_4_3]) (.error _)
  case h_7 => exact .row rfl (fun ⟨ha, hb⟩ => by rw [pad_4_3 ha, pad_4_3 hb, join_4_3]) (.error _)
  case h_8 => exact .row rfl (fun ⟨ha, hb⟩ => by rw [pad_4_3 ha, pad_5_2 hb]) (.error _)
  case h_9 => exact .error _
  all_goals exact .row rfl (by rintro rfl; rfl) (.error _)

theorem spells_10 : Spells (decode10 f g d a b) (encF1 0x10#6 (BitVec.ofNat 3 f) g d a b) := by
  unfold decode10
  split
  case h_9 => exact .error _
  all_goals exact .ok rfl rfl

theorem spells_11 : Spells (decode11 f g d a b) (encF1 0x11#6 (BitVec.ofNat 3 f) g d a b) := by
  unfold decode11
  split
  case h_9 => exact .error _
  all_goals exact .ok rfl rfl

theorem spells_12 : Spells (decode12 f g d a b) (encF1 0x12#6 (BitVec.ofNat 3 f) g d a b) := by
  unfold decode12
  split
  case h_9 => exact .error _
  all_goals exact .ok rfl (by rw [join_4_3])

theorem spells_13 : Spells (decode13 f g d a b) (encF1 0x13#6 (BitVec.ofNat 3 f) g d a b) := by
  unfold decode13
  split
  case h_9 => exact .error _
  all_goals exact .ok rfl (by rw [join_4_3])

theorem spells_14 : Spells (decode14 f g d a b) (encF1 0x14#6 (BitVec.ofNat 3 f) g d a b) := by
  unfold decode14
  split
  case h_9 => exact .error _
  all_goals exact .row rfl (by rintro rfl; rfl) (.error _)

theorem spells_15 : Spells (decode15 f g d a b) (encF1 0x15#6 (BitVec.ofNat 3 f) g d a b) := by
  unfold decode15
  split
  case h_1 | h_7 => exact .ok rfl rfl
  case h_8 => exact .error _
  all_goals exact .row rfl (by rintro rfl; rfl) (.error _)

theorem spells_16 : Spells (decode16 f g d a b) (encF1 0x16#6 (BitVec.ofNat 3 f) g d a b) := by
  unfold decode16
  split
  case h_8 => exact .row rfl (by rintro rfl; rfl) (.error _)
  case h_9 => exact .error _
  all_goals exact .ok rfl rfl

theorem spells_17 : Spells (decode17 f g d a b) (encF1 0x17#6 (BitVec.ofNat 3 f) g d a b) := by
  unfold decode17
  split
  case h_9 => exact .error _
  all_goals exact .ok rfl (by rw [join_4_3])

theorem spells_18 : Spells (decode18 f g d a b) (encF1 0x18#6 (BitVec.ofNat 3 f) g d a b) := by
  unfold decode18
  split
  case h_9 => exact .error _
  all_goals exact .ok rfl rfl

theorem spells_19 : Spells (decode19 f g d a b) (encF1 0x19#6 (BitVec.ofNat 3 f) g d a b) := by
  unfold decode19
  split
  case h_9 => exact .error _
  all_goals exact .ok rfl rfl

theorem spells_1A : Spells (decode1A f g d a b) (encF1 0x1A#6 (BitVec.ofNat 3 f) g d a b) := by
  unfold decode1A
  split
  case h_5 => exact .row rfl (fun h => by simp (disch := rfl) only [← h, bits_append, bits_all]) (.error _)
  case h_6 | h_7 => exact .row rfl (by rintro rfl; rfl) (.error _)
  case h_8 => exact .error _
  all_goals exact .ok rfl (by simp (disch := rfl) only [bits_append, bits_all])

theorem spells_1C : Spells (decode1C f g d a b) (encF1 0x1C#6 (BitVec.ofNat 3 f) g d a b) := by
  unfold decode1C
  split
  case h_9 => exact .error _
  all_goals exact .ok rfl rfl

theorem spells_1D : Spells (decode1D f g d a b) (encF1 0x1D#6 (BitVec.ofNat 3 f) g d a b) := by
  unfold decode1D
  split
  case h_2 => exact .error _
  all_goals exact .ok rfl rfl

theorem spells_1E : Spells (decode1E f g d a b) (encF1 0x1E#6 (BitVec.ofNat 3 f) g d a b) := by
  unfold decode1E
  split
  case h_5 => exact .error _
  all_goals exact .ok rfl rfl

theorem spells_24 : Spells (decode24 f g d a b) (encF1 0x24#6 (BitVec.ofNat 3 f) g d a b) := by
  unfold decode24
  split
  case h_8 => exact .row rfl (by rintro rfl; rfl) (.error _)
  case h_9 => exact .error _
  all_goals exact .ok rfl rfl

theorem spells_25 : Spells (decode25 f g d a b) (encF1 0x25#6 (BitVec.ofNat 3 f) g d a b) := by
  unfold decode25
  split
  case h_9 => exact .error _
  all_goals exact .ok rfl rfl

theorem spells_26 : Spells (decode26 f g d a b) (encF1 0x26#6 (BitVec.ofNat 3 f) g d a b) := by
  unfold decode26
  split
  case h_7 => exact .error _
  all_goals exact .row rfl (by rintro rfl; rfl) (.error _)

theorem spells_27 : Spells (decode27 f g d a b) (encF1 0x27#6 (BitVec.ofNat 3 f) g d a b) := by
  unfold decode27
  split
  case h_4 => exact .error _
  all_goals exact .ok rfl rfl

theorem spells_38 : Spells (decode38 f g d a b) (encF1 0x38#6 (BitVec.ofNat 3 f) g d a b) := by
  unfold decode38
  split
  case h_9 => exact .error _
  all_goals exact .row rfl (by rintro rfl; rfl) (.error _)

theorem spells_39 : Spells (decode39 f g d a b) (encF1 0x39#6 (BitVec.ofNat 3 f) g d a b) := by
  unfold decode39
  split
  case h_9 => exact .error _
  all_goals exact .row rfl (by rintro rfl; rfl) (.error _)

theorem spells_3A : Spells (decode3A f g d a b) (encF1 0x3A#6 (BitVec.ofNat 3 f) g d a b) := by
  unfold decode3A
  split
  case h_9 => exact .error _
  all_goals exact .row rfl (by rintro rfl; rfl) (.error _)

theorem spells_3B : Spells (decode3B f g d a b) (encF1 0x3B#6 (BitVec.ofNat 3 f) g d a b) := by
  unfold decode3B
  split
  case h_9 => exact .error _
  all_goals exact .row rfl (by rintro rfl; rfl) (.error _)

theorem spells_3D : Spells (decode3D f g d a b) (encF1 0x3D#6 (BitVec.ofNat 3 f) g d a b) := by
  unfold decode3D
  split
  case h_9 => exact .error _
  all_goals exact .row rfl (by rintro rfl; rw [join_4_3]) (.error _)

end

/-! ### Formats F3 to F5 -/

theorem spells_3C (f : Nat) (g : BitVec 2) (d : BitVec 7) (i : BitVec 16) :
    Spells (decode3C f g d i) (encF3 0x3C#6 (BitVec.ofNat 1 f) g d i) := by
  unfold decode3C
  split
  case h_1 => exact .ok rfl rfl
  case h_2 => exact .row rfl (by rintro rfl; rfl) (.error _)
  case h_3 => exact .error _

section
variable (w g : BitVec 2) (d a : BitVec 7) (o : BitVec 8)

theorem spells_20 : Spells (decode20 w g d a o) (encF5 0x20#6 w g d a o) := .ok rfl rfl

theorem spells_21 : Spells (decode21 w g d a o) (encF5 0x21#6 w g d a o) := .ok rfl rfl

theorem spells_22 : Spells (decode22 w g d a o) (encF5 0x22#6 w g d a o) := .ok rfl rfl

theorem spells_23 : Spells (decode23 w g d a o) (encF5 0x23#6 w g d a o) := .ok rfl rfl

end

section
variable (n : BitVec 1) (c : BitVec 3) (o : BitVec 22)

theorem spells_30 : Spells (decode30 n c o) (encF4 0x30#6 n c o) := .ok rfl rfl

theorem spells_31 : Spells (decode31 n c o) (encF4 0x31#6 n c o) :=
  .row rfl (fun h => by simp (disch := rfl) only [← h, bits_append, bits_all]) (.error _)

theorem spells_32 : Spells (decode32 n c o) (encF4 0x32#6 n c o) :=
  .row rfl (by rintro ⟨rfl, rfl⟩; rfl) (.error _)

end

/-! ### Formats F6 and F7 -/

section
variable (f : Nat) (r : BitVec 20)

theorem spells_28 : Spells (decode28 f r) (encF6 0x28#6 (BitVec.ofNat 6 f) r) := by
  unfold decode28
  split
  case h_4 | h_5 | h_6 | h_7 => exact .row rfl (fun h => by simp (disch := rfl) only [← h, bits_append, bits_all]) (.error _)
  case h_9 => exact .error _
  all_goals exact .row rfl (by rintro rfl; rfl) (.error _)

theorem spells_33 : Spells (decode33 f r) (encF6 0x33#6 (BitVec.ofNat 6 f) r) := by
  unfold decode33
  split
  case h_4 =>
    refine .row rfl (fun h => by simp (disch := rfl) only [← h, bits_append, bits_all]) ?_
    exact .row rfl (fun h => by simp (disch := rfl) only [← h, bits_append, bits_all]) (.error _)
  case h_8 => exact .ok rfl rfl
  case h_5 | h_11 | h_12 => exact .ok rfl (by simp (disch := rfl) only [bits_append, bits_all])
  case h_6 | h_7 | h_10 => exact .row rfl (fun h => by simp (disch := rfl) only [← h, bits_append, bits_all]) (.error _)
  case h_15 => exact .error _
  all_goals exact .row rfl (by rintro rfl; rfl) (.error _)

end

theorem spells_3F (f : Nat) (p : BitVec 22) : Spells (decode3F f p) (encF7 0x3F#6 (BitVec.ofNat 4 f) p) := by
  unfold decode3F
  split
  case h_1 => exact .ok rfl rfl
  case h_9 => exact .error _
  all_goals exact .row rfl (fun h => by simp (disch := rfl) only [← h, bits_append, bits_all]) (.error _)

/-! ### Format F8 -/

section
variable (f : Nat) (x y z : BitVec 7)

theorem spells_29 : Spells (decode29 f x y z) (encF8 0x29#6 (BitVec.ofNat 5 f) x y z) := by
  unfold decode29
  split
  case h_5 | h_6 => exact .row rfl (by rintro ⟨rfl, rfl⟩; rfl) (.error _)
  case h_7 | h_8 => exact .row rfl (by rintro rfl; rfl) (.error _)
  case h_9 => exact .error _
  all_goals exact .ok rfl rfl

theorem spells_2A : Spells (decode2A f x y z) (encF8 0x2A#6 (BitVec.ofNat 5 f) x y z) := by
  unfold decode2A
  split
  case h_1 | h_10 => exact .row rfl (by rintro rfl; rfl) (.error _)
  case h_4 | h_5 | h_7 => exact .row rfl (by rintro ⟨rfl, rfl⟩; rfl) (.error _)
  case h_6 =>
    refine .row rfl (fun h => by simp (disch := rfl) only [← h, bits_append, bits_all]) ?_
    exact .row rfl (fun h => by simp (disch := rfl) only [← h, bits_append, bits_all]) (.error _)
  case h_9 =>
    refine .row rfl (by rintro ⟨rfl, rfl, rfl⟩; rfl) ?_
    exact .row rfl (by rintro ⟨rfl, rfl, rfl⟩; rfl) (.error _)
  case h_11 => exact .error _
  all_goals exact .ok rfl rfl

theorem spells_2B : Spells (decode2B f x y z) (encF8 0x2B#6 (BitVec.ofNat 5 f) x y z) := by
  unfold decode2B
  split
  case h_3 | h_6 => exact .row rfl (by rintro rfl; rfl) (.error _)
  case h_7 | h_8 => exact .row rfl (by rintro ⟨rfl, rfl⟩; rfl) (.error _)
  case h_9 => exact .error _
  all_goals exact .ok rfl rfl

theorem spells_2C : Spells (decode2C f x y z) (encF8 0x2C#6 (BitVec.ofNat 5 f) x y z) := by
  unfold decode2C
  split
  case h_1 => exact .row rfl (fun h => by simp (disch := rfl) only [← h, bits_append, bits_all]) (.error _)
  case h_2 | h_3 => exact .row rfl (by rintro ⟨rfl, rfl⟩; rfl) (.error _)
  case h_7 => exact .error _
  all_goals exact .row rfl (by rintro rfl; rfl) (.error _)

theorem spells_2D : Spells (decode2D f x y z) (encF8 0x2D#6 (BitVec.ofNat 5 f) x y z) := by
  unfold decode2D
  split
  case h_1 => exact .row rfl (by rintro rfl; rfl) (.error _)
  case h_3 => exact .row rfl (by rintro ⟨rfl, rfl⟩; rfl) (.error _)
  case h_5 => exact .error _
  all_goals exact .row rfl (by rintro ⟨rfl, rfl, rfl⟩; rfl) (.error _)

end

/-! ### The word of its fields -/

section
variable {w : Word} {m : Nat} (h : (bits w 26 6).toNat = m)
include h

theorem word_F1 : encF1 (BitVec.ofNat 6 m) (BitVec.ofNat 3 (bits w 23 3).toNat) (bits w 21 2) (bits w 14 7) (bits w 7 7)
    (bits w 0 7) = w := by
  subst h
  simp (disch := rfl) only [encF1, BitVec.ofNat_toNat, BitVec.setWidth_eq, bits_append, bits_all]

theorem word_F3 : encF3 (BitVec.ofNat 6 m) (BitVec.ofNat 1 (bits w 25 1).toNat) (bits w 23 2) (bits w 16 7) (bits w 0 16) = w := by
  subst h
  simp (disch := rfl) only [encF3, BitVec.ofNat_toNat, BitVec.setWidth_eq, bits_append, bits_all]

theorem word_F4 : encF4 (BitVec.ofNat 6 m) (bits w 25 1) (bits w 22 3) (bits w 0 22) = w := by
  subst h
  simp (disch := rfl) only [encF4, BitVec.ofNat_toNat, BitVec.setWidth_eq, bits_append, bits_all]

theorem word_F5 : encF5 (BitVec.ofNat 6 m) (bits w 24 2) (bits w 22 2) (bits w 15 7) (bits w 8 7) (bits w 0 8) = w := by
  subst h
  simp (disch := rfl) only [encF5, BitVec.ofNat_toNat, BitVec.setWidth_eq, bits_append, bits_all]

theorem word_F6 : encF6 (BitVec.ofNat 6 m) (BitVec.ofNat 6 (bits w 20 6).toNat) (bits w 0 20) = w := by
  subst h
  simp (disch := rfl) only [encF6, BitVec.ofNat_toNat, BitVec.setWidth_eq, bits_append, bits_all]

theorem word_F7 : encF7 (BitVec.ofNat 6 m) (BitVec.ofNat 4 (bits w 22 4).toNat) (bits w 0 22) = w := by
  subst h
  simp (disch := rfl) only [encF7, BitVec.ofNat_toNat, BitVec.setWidth_eq, bits_append, bits_all]

theorem word_F8 : encF8 (BitVec.ofNat 6 m) (BitVec.ofNat 5 (bits w 21 5).toNat) (bits w 14 7) (bits w 7 7) (bits w 0 7) = w := by
  subst h
  simp (disch := rfl) only [encF8, BitVec.ofNat_toNat, BitVec.setWidth_eq, bits_append, bits_all]

end

theorem spells_decode (w : Word) : Spells (decode w) w := by
  unfold decode
  split
  next h => exact (spells_01 _ _ _ _ _).of_eq (word_F1 h)
  next h => exact (spells_02 _ _ _ _ _).of_eq (word_F1 h)
  next h => exact (spells_03 _ _ _ _ _).of_eq (word_F1 h)
  next h => exact (spells_04 _ _ _ _ _).of_eq (word_F1 h)
  next h => exact (spells_05 _ _ _ _ _).of_eq (word_F1 h)
  next h => exact (spells_06 _ _ _ _ _).of_eq (word_F1 h)
  next h => exact (spells_07 _ _ _ _ _).of_eq (word_F1 h)
  next h => exact (spells_08 _ _ _ _ _).of_eq (word_F1 h)
  next h => exact (spells_09 _ _ _ _ _).of_eq (word_F1 h)
  next h => exact (spells_0A _ _ _ _ _).of_eq (word_F1 h)
  next h => exact (spells_0B _ _ _ _ _).of_eq (word_F1 h)
  next h => exact (spells_0C _ _ _ _ _).of_eq (word_F1 h)
  next h => exact (spells_0D _ _ _ _ _).of_eq (word_F1 h)
  next h => exact (spells_0E _ _ _ _ _).of_eq (word_F1 h)
  next h => exact (spells_10 _ _ _ _ _).of_eq (word_F1 h)
  next h => exact (spells_11 _ _ _ _ _).of_eq (word_F1 h)
  next h => exact (spells_12 _ _ _ _ _).of_eq (word_F1 h)
  next h => exact (spells_13 _ _ _ _ _).of_eq (word_F1 h)
  next h => exact (spells_14 _ _ _ _ _).of_eq (word_F1 h)
  next h => exact (spells_15 _ _ _ _ _).of_eq (word_F1 h)
  next h => exact (spells_16 _ _ _ _ _).of_eq (word_F1 h)
  next h => exact (spells_17 _ _ _ _ _).of_eq (word_F1 h)
  next h => exact (spells_18 _ _ _ _ _).of_eq (word_F1 h)
  next h => exact (spells_19 _ _ _ _ _).of_eq (word_F1 h)
  next h => exact (spells_1A _ _ _ _ _).of_eq (word_F1 h)
  next h => exact (spells_1C _ _ _ _ _).of_eq (word_F1 h)
  next h => exact (spells_1D _ _ _ _ _).of_eq (word_F1 h)
  next h => exact (spells_1E _ _ _ _ _).of_eq (word_F1 h)
  next h => exact (spells_20 _ _ _ _ _).of_eq (word_F5 h)
  next h => exact (spells_21 _ _ _ _ _).of_eq (word_F5 h)
  next h => exact (spells_22 _ _ _ _ _).of_eq (word_F5 h)
  next h => exact (spells_23 _ _ _ _ _).of_eq (word_F5 h)
  next h => exact (spells_24 _ _ _ _ _).of_eq (word_F1 h)
  next h => exact (spells_25 _ _ _ _ _).of_eq (word_F1 h)
  next h => exact (spells_26 _ _ _ _ _).of_eq (word_F1 h)
  next h => exact (spells_27 _ _ _ _ _).of_eq (word_F1 h)
  next h => exact (spells_28 _ _).of_eq (word_F6 h)
  next h => exact (spells_29 _ _ _ _).of_eq (word_F8 h)
  next h => exact (spells_2A _ _ _ _).of_eq (word_F8 h)
  next h => exact (spells_2B _ _ _ _).of_eq (word_F8 h)
  next h => exact (spells_2C _ _ _ _).of_eq (word_F8 h)
  next h => exact (spells_2D _ _ _ _).of_eq (word_F8 h)
  next h => exact (spells_30 _ _ _).of_eq (word_F4 h)
  next h => exact (spells_31 _ _ _).of_eq (word_F4 h)
  next h => exact (spells_32 _ _ _).of_eq (word_F4 h)
  next h => exact (spells_33 _ _).of_eq (word_F6 h)
  next h => exact (spells_38 _ _ _ _ _).of_eq (word_F1 h)
  next h => exact (spells_39 _ _ _ _ _).of_eq (word_F1 h)
  next h => exact (spells_3A _ _ _ _ _).of_eq (word_F1 h)
  next h => exact (spells_3B _ _ _ _ _).of_eq (word_F1 h)
  next h => exact (spells_3C _ _ _ _).of_eq (word_F3 h)
  next h => exact (spells_3D _ _ _ _ _).of_eq (word_F1 h)
  next h => exact (spells_3F _ _).of_eq (word_F7 h)
  next => exact .error _

/-- Settles O6: the row that accepts a word has a field of the instruction, or a fixed value, for each of its bits. -/
theorem oneWordEach : Obligations.OneWordEach := fun w => spells_decode w

end Sys2Proof.Proofs.Spelling
end

section
/-! SUPPORT. The instruction that a gang runs at its turn (R26, R43, R69, R282). -/

namespace Sys2Proof.Proofs.Turn

open Sys2Proof Sys2Proof.Machine Sys2Proof.Claims Sys2Proof.Proofs.Step

/-- The word that another device has answered is what the fetch answers (R322). -/
theorem fetch_of_fetchesFar {s : State} {w : Nat} {W : Warp} {m : BitVec 8} {pc : DWord} {x : Word} (h : fetchesFar s w W m pc x) :
    s.fetch w W m pc = .word x := by
  obtain ⟨hc, hw, key, o, e, d, v, hx, hr, hreq, hans, rfl⟩ := h
  simp only [State.fetch, hc, hw, hx, hr, hreq, hans, Bool.true_eq_false, Bool.false_eq_true, if_false, if_true]

/-- A word that a gang keeps is its next one (R282). -/
theorem nextWord_of_kept {s : State} {w : Nat} {W : Warp} {g : Gang} {x : Word} (h : kept g = some x) :
    s.nextWord w W g = .word x := by
  unfold kept at h
  rw [State.nextWord, h]

/-- Settles O1: the turn is an issue, and the issue is of the word fetched, answered or kept. -/
theorem stepRunsDecoded : Obligations.StepRunsDecoded := by
  intro s s1 w j W g hturn hw hg hm
  rw [step_of_ready_turn hturn hw hg hm]
  refine ⟨?_, ?_, ?_⟩
  · exact fun b i hk hb hd => issueStep_of_fetches hw hg hk hb hd
  · exact fun x i hk hx hd => issueStep_of_decodes hw hg ((nextWord_of_kept_none hk).trans (fetch_of_fetchesFar hx)) hd
  · exact fun x i hk hd => issueStep_of_decodes hw hg (nextWord_of_kept hk) hd

end Sys2Proof.Proofs.Turn
end

section
/-! SUPPORT. The checks of an issue in their order, and the trap that a stopped instruction takes (R56, R70, R71). -/

namespace Sys2Proof.Proofs.Checks

open Sys2Proof Sys2Proof.Machine Sys2Proof.Claims

/-! ### An instruction that a check stops -/

/-- The same as issue_stopped for a signature that depends on the state. -/
theorem issueWith_stopped {s : State} {sig : Ctx → State → Sig} (body : Ctx → State → Res) {c : Ctx} {t : Trap}
    (h : s.stopped sig = some (c, t)) : issueWith sig body s = .next (s.trapped c t) := by
  unfold State.stopped at h
  unfold issueWith
  cases hi : s.issuing with
  | none => rw [hi] at h; cases h
  | some c0 =>
    simp only [hi] at h ⊢
    split at h
    next hstall =>
      obtain ⟨u, hfront, heq⟩ := Option.map_eq_some_iff.mp h
      cases heq
      simp only [issueAs, hstall, hfront]
    next => cases h

/-- An instruction whose signature depends on its hints alone. -/
theorem traps_of_issue {i : Instr} {sig : HintSet → Sig} {body : Ctx → State → Res} (h : ∀ s, exec i s = issue sig body s) :
    Traps i (hinted sig) :=
  fun s c t hst => (h s).trans (issue_stopped s sig body c t hst)

theorem traps_of_issueWith {i : Instr} {sig : Ctx → State → Sig} {body : Ctx → State → Res}
    (h : ∀ s, exec i s = issueWith sig body s) : Traps i sig :=
  fun s _ _ hst => (h s).trans (issueWith_stopped body hst)

/-! ### The families of ChecksInOrder -/

theorem stopsInteger : StopsInteger := by
  refine ⟨fun _ _ _ _ => ⟨?_, ?_, ?_, ?_, ?_, ?_, ?_, ?_, ?_, ?_, ?_, ?_, ?_, ?_, ?_⟩,
    fun _ _ _ _ _ => ⟨?_, ?_⟩, fun _ _ _ _ => ⟨?_, ?_, ?_⟩, fun _ _ => ?_⟩
  all_goals exact traps_of_issue fun _ => rfl

theorem stopsFloat : StopsFloat := by
  refine ⟨fun _ _ _ _ => ⟨?_, ?_, ?_, ?_, ?_, ?_, ?_, ?_, ?_, ?_, ?_, ?_⟩, fun _ _ _ _ _ => ⟨?_, ?_⟩,
    fun _ _ _ _ _ _ => ⟨?_, ?_, ?_⟩⟩
  all_goals exact traps_of_issue fun _ => rfl

theorem stopsMemory : StopsMemory := by
  refine ⟨fun _ _ _ _ _ => ⟨?_, ?_, ?_, ?_⟩, fun _ _ _ _ => ⟨?_, ?_, ?_, ?_, ?_, ?_⟩⟩
  all_goals exact traps_of_issue fun _ => rfl

theorem stopsTileMatrix : StopsTileMatrix := by
  refine ⟨fun _ _ _ => ⟨?_, ?_, ?_, ?_, ?_, ?_⟩, fun _ _ _ => ?_⟩
  all_goals exact traps_of_issueWith fun _ => rfl

theorem stopsTreeSpawn : StopsTreeSpawn := by
  refine fun _ _ _ => ⟨?_, ?_, ?_, ?_, ?_, ?_, ?_⟩
  all_goals exact traps_of_issue fun _ => rfl

theorem stopsControl : StopsControl := by
  refine ⟨fun _ _ => traps_of_issueWith fun _ => rfl, ?_, ?_, ?_, ?_, ?_, fun _ => ?_, fun _ _ _ => ?_, fun _ => ?_, fun _ _ => ?_, ?_⟩
  all_goals exact traps_of_issue fun _ => rfl

/-! ### The order of the checks -/

/-- A source that the SRCX hint marks and that is empty in a slice of the gang (R56). -/
def markedEmpty (c : Ctx) (o : Opnd × Option Nat) : Bool :=
  match c.h.srcx, o.2 with
  | some m, some i => m.getLsbD i && !(o.1.full c.W c.G.slices)
  | _, _ => false

section
variable {c : Ctx} {g : Sig}

theorem front_of_unlawful (hl : g.lawful c.G.hints = false) : front c g = some (Trap.of 1 0) := if_pos hl

variable (hl : g.lawful c.G.hints = true)
include hl

theorem front_of_privileged (ha : (!g.priv || c.W.inHandler c.j) = false) : front c g = some (Trap.of 2 0) := by
  have hp : g.priv = true ∧ c.W.inHandler c.j = false := by simpa using ha
  rw [front, if_neg (by simp [hl]), if_pos hp]

variable (ha : (!g.priv || c.W.inHandler c.j) = true)
include ha

theorem front_of_allowed : front c g =
    if (g.srcs.map (·.1) ++ g.dsts).all (Opnd.within c.W c.j) = false then some (Trap.of 3 0)
    else if c.G.pend ≠ .none then none
    else (g.srcs.find? (markedEmpty c)).map (fun o => Trap.of 4 o.1.field) := by
  have hp : ¬ (g.priv = true ∧ c.W.inHandler c.j = false) := by
    rintro ⟨hpriv, hout⟩
    rw [hpriv, hout] at ha
    cases ha
  rw [front, if_neg (by simp [hl]), if_neg hp]
  change (if _ then _ else if _ then _ else match g.srcs.find? (markedEmpty c) with
    | some o => some (Trap.of 4 o.1.field)
    | none => none) = _
  cases g.srcs.find? (markedEmpty c) <;> rfl

theorem front_of_outside (hi : (g.srcs.map (·.1) ++ g.dsts).all (Opnd.within c.W c.j) = false) : front c g = some (Trap.of 3 0) := by
  rw [front_of_allowed hl ha, if_pos hi]

variable (hi : (g.srcs.map (·.1) ++ g.dsts).all (Opnd.within c.W c.j) = true)
include hi

theorem front_of_within : front c g = if c.G.pend ≠ .none then none
    else (g.srcs.filter (markedEmpty c)).head?.map (fun o => Trap.of 4 o.1.field) := by
  rw [front_of_allowed hl ha, if_neg (by simp [hi]), List.head?_filter]

end

/-- Settles O10: the checks in turn, and each instruction is an issue under its signature. -/
theorem checksInOrder : Obligations.ChecksInOrder := by
  refine ⟨?_, stopsInteger, stopsFloat, stopsMemory, stopsTileMatrix, stopsTreeSpawn, stopsControl⟩
  intro c g opnds marked legal allowed inside
  have hmarked : marked = g.srcs.filter (markedEmpty c) := rfl
  refine ⟨front_of_unlawful, front_of_privileged, front_of_outside, ?_, ?_⟩
  · intro hl ha hi hp o rest hm
    rw [front_of_within hl ha hi, ← hmarked, hm, if_neg (fun hne => hne hp)]
    rfl
  · rintro hl ha hi (hm | hp)
    · rw [front_of_within hl ha hi, ← hmarked, hm]
      exact ite_self none
    · rw [front_of_within hl ha hi, if_pos hp]

end Sys2Proof.Proofs.Checks
end

section
/-! SUPPORT. SREAD, SWRITE, TSTAMP, TRAP, BKPT and IRET (R97 to R99, R129, R131, R132, R284, R286). -/

namespace Sys2Proof.Proofs.SystemRegisters

open Sys2Proof Sys2Proof.Machine Sys2Proof.Claims Sys2Proof.Proofs.Gangs Sys2Proof.Proofs.Control

/-! ### Maps, numbers and the checks passed -/

theorem sdel_splace {α : Type} (m : SMap α) (k : Nat) (x : α) : sdel (splace m k x) k = sdel m k := by
  induction m with
  | nil => simp [splace, sdel]
  | cons e r ih =>
    obtain ⟨j, y⟩ := e
    unfold splace
    split
    · simpa [sdel, List.filter_cons] using congrArg (fun l => if j = k then l else (j, y) :: l) ih
    · simp [sdel]

/-- The second of two entries set at a key stays. -/
theorem sput_sput {α : Type} (m : SMap α) (k : Nat) (x y : α) : sput (sput m k x) k y = sput m k y := by
  have hdel : sdel (sput m k x) k = sdel m k := by
    rw [sput, sdel_splace]
    simp [sdel]
  rw [sput, hdel, ← sput]

theorem setWarp_setWarp (s : State) (w : Nat) (V W : Warp) : (s.setWarp w V).setWarp w W = s.setWarp w W := by
  unfold State.setWarp
  dsimp only
  rw [sput_sput]

theorem numOf_lt (l : List Byte) : numOf l < 256 ^ l.length := by
  induction l with
  | nil => simp [numOf]
  | cons b r ih =>
    have hb := b.isLt
    rw [numOf, List.length_cons, Nat.pow_succ]
    omega

theorem devNum_lt (s : State) (fn a n : Nat) : s.devNum fn a n < 256 ^ n := by
  unfold State.devNum
  exact lt_of_lt_of_eq (numOf_lt _) (by rw [List.length_map, List.length_range])

/-- A gang that passes the checks of R71 issues a lawful instruction, and a privileged one in handler mode alone. -/
theorem lawful_of_passed {c : Ctx} {g : Sig} {s : State} (h : Passed c g s) :
    g.lawful c.G.hints = true ∧ (g.priv = true → c.W.inHandler c.j = true) := by
  have hfront := h.front
  unfold front at hfront
  split at hfront
  next => cases hfront
  next hlawful =>
    split at hfront
    next => cases hfront
    next hpriv => exact ⟨by simpa using hlawful, fun hp => by simpa [hp] using hpriv⟩

section
variable {s : State} {c : Ctx}

/-! ### SREAD (R97 to R99, R132, R284) -/

/-- FLAGS after a read of system register `n`: number 2 clears the nine flags (R99). -/
def flagsRead (n : BitVec 13) (f : Word) : Word := if n = 2 then f &&& ~~~0x1FF else f

/-- A warp once its flags have been read. -/
def readWarp (n : BitVec 13) (W : Warp) : Warp := { W with flags := flagsRead n W.flags }

theorem and_not_and (f m : Word) : f &&& ~~~(f &&& m) = f &&& ~~~m := by
  apply BitVec.eq_of_getLsbD_eq
  intro i hi
  cases hf : f.getLsbD i <;> simp [hf]

theorem slicePack_eq (W : Warp) (w : Nat) (f : Slice → Nat) :
    slicePack W w f = ((List.range 8).map (fun j => f (W.slice j) * 2 ^ (w * j))).sum := by
  rw [List.sum_eq_foldl, List.foldl_map]
  rfl

/-- Register 0x1000 reads 1 in a handler, 3 at a halt entry. -/
theorem sysRead_mode (h : c.W.inHandler c.j = true) : sysRead s c 0x1000 = 1 ∨ sysRead s c 0x1000 = 3 := by
  have hread : sysRead s c 0x1000 = BitVec.ofNat 32 ((if c.W.inHandler c.j then 1 else 0) +
      (if c.W.inHandler c.j && (c.W.handler.bind (·.halt)).isSome then 2 else 0)) := rfl
  rw [hread, h]
  cases (c.W.handler.bind (·.halt)).isSome
  · exact .inl rfl
  · exact .inr rfl

/-- The read itself: FLAGS first loses what the read clears, then the register is written. -/
theorem sreadBody_eq (n : BitVec 13) (d : Nat) (hw : sget s.warps c.w = some c.W) :
    sreadBody n.toNat d c s = .done ((s.setWarp c.w (readWarp n c.W)).modWarp c.w
      (fun W => Warp.sput W c.j d (sysRead s c n.toNat))) := by
  have hput : (s.setWarp c.w (readWarp n c.W)).modWarp c.w (fun W => Warp.sput W c.j d (sysRead s c n.toNat)) =
      s.setWarp c.w (Warp.sput (readWarp n c.W) c.j d (sysRead s c n.toNat)) := by
    rw [setWarp_of_modWarp (c := { c with W := readWarp n c.W }) (sget_sput_same ..)]
    exact setWarp_setWarp ..
  unfold sreadBody
  dsimp only
  rw [hput, setWarp_of_modWarp hw]
  by_cases hn : n = 2
  · subst hn
    exact congrArg (fun f => Res.done (s.setWarp c.w { Warp.sput c.W c.j d (sysRead s c 2) with flags := f }))
      (and_not_and c.W.flags 0x1FF)
  · have hn' : ¬ n.toNat = 2 := fun e => hn (BitVec.eq_of_toNat_eq e)
    have hkeep : flagsRead n c.W.flags = c.W.flags := if_neg hn
    rw [if_neg hn', readWarp, hkeep]

theorem sread_clause (n : BitVec 13) (d : BitVec 7) {known : Bool}
    (hknown : known = ((decide (1 ≤ n.toNat) && decide (n.toNat ≤ 6)) || (decide (0x1000 ≤ n.toNat) && decide (n.toNat ≤ 0x1006))))
    (h : s.passes (hinted (fun _ =>
      { Sig.plain with dsts := [.s d.toNat 1], priv := decide (0x1000 ≤ n.toNat), legal := known })) = some c) :
    ∃ u, exec (.sread n d) s = .next u ∧ (n = 0x1000 → c.W.inHandler c.j = true) ∧
      Completes { c with W := readWarp n c.W } (s.setWarp c.w (readWarp n c.W)) u
        (Written.scal d.toNat 1 ((sysRead s c n.toNat).setWidth 64)) := by
  subst hknown
  obtain ⟨hw, hg⟩ := passes_warp s _ c h
  obtain ⟨c0, -, -, hpassed⟩ := passes_cases s _ c h
  have hexec := issue_passes s _ (sreadBody n.toNat d.toNat) c h
  rw [sreadBody_eq n _ hw] at hexec
  refine ⟨_, hexec, fun hn => (lawful_of_passed hpassed).2 (by subst hn; rfl), ?_⟩
  exact sput_completes (s.setWarp c.w (readWarp n c.W)) { c with W := readWarp n c.W } d.toNat (sysRead s c n.toNat) (sget_sput_same ..) hg

/-! ### SWRITE (R99, R132, R284) -/

theorem swrite_flags_clause (d : BitVec 7) (h : s.passes (hinted (fun _ => { Sig.plain with
      srcs := [(.s d.toNat 1, some 0)], priv := true
      legal := (1 : BitVec 13).toNat == 1 || (decide (0x1001 ≤ (1 : BitVec 13).toNat) && decide ((1 : BitVec 13).toNat ≤ 0x1006)) })) =
      some c) :
    ∃ u, exec (.swrite 1 d) s = .next u ∧
      Completes { c with W := { c.W with flags := c.sread s d.toNat &&& 0x01FF01FF } }
        (s.setWarp c.w { c.W with flags := c.sread s d.toNat &&& 0x01FF01FF }) u Written.none := by
  obtain ⟨hw, -⟩ := passes_warp s _ c h
  have hbody : swriteBody (1 : BitVec 13).toNat d.toNat c s =
      .done (s.setWarp c.w { c.W with flags := c.sread s d.toNat &&& 0x01FF01FF }) :=
    congrArg Res.done (setWarp_of_modWarp hw)
  have hexec := issue_passes s _ (swriteBody (1 : BitVec 13).toNat d.toNat) c h
  rw [hbody] at hexec
  exact ⟨_, hexec, none_completes _ { c with W := { c.W with flags := c.sread s d.toNat &&& 0x01FF01FF } } (sget_sput_same ..)⟩

/-- The context after SWRITE of a half of tvec, hvec or tdeleg. -/
def contextWritten (n : BitVec 13) (v : Word) (x : Context) : Context :=
  { x with
    tvec := if n = 0x1001 then hiWord x.tvec ++ v else if n = 0x1002 then v ++ loWord x.tvec else x.tvec
    hvec := if n = 0x1003 then hiWord x.hvec ++ v else if n = 0x1004 then v ++ loWord x.hvec else x.hvec
    tdeleg := if n = 0x1005 then hiWord x.tdeleg ++ v else if n = 0x1006 then v ++ loWord x.tdeleg else x.tdeleg }

theorem swriteBody_context (n : BitVec 13) (d : Nat) (hn : 0x1001 ≤ n.toNat ∧ n.toNat ≤ 0x1006) :
    swriteBody n.toNat d c s =
      .done (s.setContext c.W.ctx (contextWritten n (c.sread s d) (s.context c.W.ctx))) := by
  obtain ⟨hlo, hhi⟩ := hn
  have hcases : n = 0x1001 ∨ n = 0x1002 ∨ n = 0x1003 ∨ n = 0x1004 ∨ n = 0x1005 ∨ n = 0x1006 := by
    simp only [← BitVec.toNat_inj]
    simp
    omega
  rcases hcases with rfl | rfl | rfl | rfl | rfl | rfl <;> rfl

theorem swrite_context_clause (n : BitVec 13) (d : BitVec 7) (hn : n ≠ 1) (h : s.passes (hinted (fun _ => { Sig.plain with
      srcs := [(.s d.toNat 1, some 0)], priv := true
      legal := n.toNat == 1 || (decide (0x1001 ≤ n.toNat) && decide (n.toNat ≤ 0x1006)) })) = some c) :
    ∃ u, exec (.swrite n d) s = .next u ∧
      Completes c (s.setContext c.W.ctx (contextWritten n (c.sread s d.toNat) (s.context c.W.ctx))) u Written.none := by
  obtain ⟨hw, -⟩ := passes_warp s _ c h
  obtain ⟨c0, -, -, hpassed⟩ := passes_cases s _ c h
  have hlegal : (n.toNat == 1 || (decide (0x1001 ≤ n.toNat) && decide (n.toNat ≤ 0x1006))) = true := by
    have := (lawful_of_passed hpassed).1
    unfold Sig.lawful at this
    simp only [Bool.and_eq_true] at this
    exact this.1.1.2
  have hrange : 0x1001 ≤ n.toNat ∧ n.toNat ≤ 0x1006 := by
    have hn' : n.toNat ≠ 1 := fun e => hn (BitVec.eq_of_toNat_eq e)
    simpa [hn'] using hlegal
  have hexec := issue_passes s _ (swriteBody n.toNat d.toNat) c h
  rw [swriteBody_context n _ hrange] at hexec
  exact ⟨_, hexec, none_completes _ c hw⟩

/-! ### TSTAMP, TRAP, BKPT (R129, R131) -/

theorem tstamp_clause (d : BitVec 7) (h : s.passes (hinted (fun _ => { Sig.plain with dsts := [.s d.toNat 2] })) = some c) :
    ∃ u, exec (.tstamp d) s = .next u ∧ Completes c s u (Written.scal d.toNat 2 (BitVec.ofNat 64 (s.time / 3))) := by
  obtain ⟨hw, hg⟩ := passes_warp s _ c h
  obtain ⟨c0, -, -, hpassed⟩ := passes_cases s _ c h
  have heven : d.toNat % 2 = 0 := by
    have := (lawful_of_passed hpassed).1
    simp only [Sig.lawful, hinted, List.all_cons, Opnd.legalDst, Bool.and_eq_true, beq_iff_eq] at this
    exact this.2.1.1
  have hbody : tstampBody d.toNat c s =
      .done (s.modWarp c.w (fun W => W.sgroup c.j d.toNat 2 (BitVec.ofNat 64 (s.time / 3)))) := by
    unfold tstampBody Warp.sgroup
    rfl
  have hexec := issue_passes s _ (tstampBody d.toNat) c h
  rw [hbody] at hexec
  refine ⟨_, hexec, ?_⟩
  exact sgroup_completes s c d.toNat 2 (BitVec.ofNat 64 (s.time / 3)) hw hg (fun _ => heven)

theorem trap_clause (code : BitVec 16) (h : s.passes (hinted (fun _ => Sig.plain)) = some c) :
    exec (.trap code) s = .next (s.trapped c { Trap.of 0x21 code.toNat with after := true }) ∧
      exec (.bkpt code) s = .next (s.trapped c (Trap.of 0x22 code.toNat)) :=
  ⟨issue_passes s bareSig (fun _ s => .trap s { Trap.of 0x21 code.toNat with after := true }) c h,
    issue_passes s bareSig (fun _ s => .trap s (Trap.of 0x22 code.toNat)) c h⟩

/-! ### IRET outside handler mode (R286) -/

theorem iret_outside {t : Trap} (h : s.stopped (hinted (fun _ => { Sig.plain with priv := true })) = some (c, t))
    (hhandler : c.W.handler = none) (hhints : c.G.hints = []) : t = Trap.of 0x02 0 := by
  unfold State.stopped at h
  split at h
  next => cases h
  next c0 _ =>
    split at h
    next =>
      obtain ⟨t', hfront, heq⟩ := Option.map_eq_some_iff.mp h
      cases heq
      have hmode : (c0.guarded (hinted (fun _ => { Sig.plain with priv := true }) c0 s)).W.inHandler
          (c0.guarded (hinted (fun _ => { Sig.plain with priv := true }) c0 s)).j = false := by
        unfold Warp.inHandler
        rw [hhandler]
      unfold front at hfront
      rw [hhints, hmode] at hfront
      exact (Option.some.inj hfront).symm
    next => cases h

/-! ### IRET at a halt entry (R286, R291) -/

theorem iret_halted {h : Handler} (hp : s.passes (hinted (fun _ => { Sig.plain with priv := true })) = some c)
    (hh : c.W.handler = some h) (hhalt : h.halt.isSome = true) :
    ∃ u W, exec .iret s = .next u ∧ sget u.warps c.w = some W ∧ W.residency = .saved false ∧ W.v = c.W.v ∧
      W.slices = c.W.slices ∧ u.mem = s.mem := by
  obtain ⟨hw, -⟩ := passes_warp s _ c hp
  have hbody : iretBody c s = .jump (s.saveWarp c.w false) := by
    unfold iretBody
    rw [hh]
    exact if_pos hhalt
  have hexec := issue_passes s _ iretBody c hp
  rw [hbody] at hexec
  have hsaved : sget (s.saveWarp c.w false).warps c.w = some { c.W with residency := .saved false, away := c.W.leave } := by
    unfold State.saveWarp
    rw [hw]
    exact sget_sput_same ..
  have hmem : (s.saveWarp c.w false).mem = s.mem := by
    unfold State.saveWarp
    rw [hw]
    rfl
  obtain ⟨hwarp, -, hframe⟩ := finish_spec (t := s.saveWarp c.w false) (c := c) hsaved
  have hfm := congrArg State.mem hframe
  exact ⟨_, _, hexec, hwarp, rfl, rfl, rfl, Eq.trans hfm hmem⟩

/-! ### IRET in the trap handler (R286) -/

/-- s92 to s95 of a gang's view take the words given. -/
def restored (ss : List Word) (g : Gang) : Gang :=
  { g with s := (List.range 4).foldl (fun m i => zput 0 m (92 + i) ((ss[i]?).getD 0)) g.s }

theorem restored_sget (ss : List Word) (g : Gang) (i : Nat) :
    (restored ss g).sget i = if 92 ≤ i ∧ i < 96 then (ss[i - 92]?).getD 0 else g.sget i := by
  have hput : (restored ss g).sget i = zget 0 (zput 0 (zput 0 (zput 0 (zput 0 g.s 92 ((ss[0]?).getD 0)) 93 ((ss[1]?).getD 0))
      94 ((ss[2]?).getD 0)) 95 ((ss[3]?).getD 0)) i := rfl
  rw [hput, zget_zput, zget_zput, zget_zput, zget_zput]
  by_cases hi : 92 ≤ i ∧ i < 96
  · rw [if_pos hi]
    have hcases : i = 92 ∨ i = 93 ∨ i = 94 ∨ i = 95 := by omega
    rcases hcases with rfl | rfl | rfl | rfl <;> rfl
  · rw [if_neg hi, if_neg (by omega), if_neg (by omega), if_neg (by omega), if_neg (by omega)]
    rfl

theorem restoreSs_eq (hw : sget s.warps c.w = some c.W) (ss : List Word) :
    s.restoreSs c.w c.j ss = s.setWarp c.w (c.W.modGang c.j (restored ss)) := setWarp_of_modWarp hw

/-- A gang that returns from its handler. -/
def resumedGang (trapPc resume : DWord) (completed : Word) (g : Gang) : Gang :=
  Gang.idle { g with hints := [], redo := if resume = trapPc ∧ completed ≠ 0 then some (trapPc, completed) else none }

/-- A warp whose slices of a mask are put at the resume PC, before R123 is applied. -/
def placedWarp (m : BitVec 8) (trapPc resume : DWord) (completed : Word) (V : Warp) : Warp :=
  { (V.modGang (lowSlice m) (resumedGang trapPc resume completed)).modSlices m
      (fun _ x => { x with pc := alignPc resume }) with handler := none, hostStop := false }

/-- A warp after IRET's return. -/
def resumedWarp (m : BitVec 8) (trapPc resume : DWord) (completed : Word) (V : Warp) : Warp :=
  let W := placedWarp m trapPc resume completed V
  if (slicesOf m).any (fun j => (W.slice j).atJoin) then W.go m none (fun _ x => x) else W

theorem resumeFrom_eq {V : Warp} (hV : sget s.warps c.w = some V) (m : BitVec 8) (trapPc resume : DWord) (completed : Word) :
    s.resumeFrom c.w m trapPc resume completed = s.setWarp c.w (resumedWarp m trapPc resume completed V) :=
  setWarp_of_modWarp (c := { c with W := V }) (f := resumedWarp m trapPc resume completed) hV

theorem settle_of_not_atJoin {x : Slice} (h : x.atJoin = false) : Slice.settle 20 x = x := by
  unfold Slice.atJoin at h
  unfold Slice.settle
  split
  next => rfl
  next e r hstack =>
    rw [hstack] at h
    exact if_neg (by simpa using h)

section
variable (m : BitVec 8) (trapPc resume : DWord) (completed : Word) (V : Warp)

/-- The return changes gangs, slices and the mode alone. -/
theorem resumedWarp_frame :
    { resumedWarp m trapPc resume completed V with
      gangs := V.gangs, slices := V.slices, handler := V.handler, hostStop := V.hostStop } = V ∧
    (resumedWarp m trapPc resume completed V).handler = none := by
  unfold resumedWarp
  dsimp only
  split
  · have hgo := go_frame (placedWarp m trapPc resume completed V) m none (fun _ x => x)
    have hback := congrArg (fun W : Warp =>
      { W with gangs := V.gangs, slices := V.slices, handler := V.handler, hostStop := V.hostStop }) hgo
    have hmode := congrArg Warp.handler hgo
    exact ⟨hback, hmode⟩
  · exact ⟨rfl, rfl⟩

theorem slice_placedWarp {j : Nat} (hj : j < V.slices.length) :
    (placedWarp m trapPc resume completed V).slice j =
      if m.getLsbD j then { V.slice j with pc := alignPc resume } else V.slice j :=
  slice_modSlices (V.modGang (lowSlice m) (resumedGang trapPc resume completed)) m
    (fun _ x => { x with pc := alignPc resume }) j hj

/-- The slices returned stand at the resume PC, moved by R123 where it is their join. -/
theorem slice_resumedWarp {j : Nat} (hj : j < V.slices.length) :
    (resumedWarp m trapPc resume completed V).slice j =
      if m.getLsbD j then Slice.settle 20 { V.slice j with pc := alignPc resume } else V.slice j := by
  have hplaced := slice_placedWarp m trapPc resume completed V hj
  unfold resumedWarp
  dsimp only
  split
  next =>
    have hlen : j < (placedWarp m trapPc resume completed V).slices.length := by
      simpa [placedWarp, Warp.modSlices, Warp.modGang] using hj
    rw [slice_go _ _ _ _ hlen, hplaced]
    split <;> rfl
  next hnone =>
    rw [hplaced]
    split
    next hm =>
      have hat : ((placedWarp m trapPc resume completed V).slice j).atJoin = false := by
        simp only [List.any_eq_true, not_exists, not_and, Bool.not_eq_true] at hnone
        exact hnone j ((mem_slicesOf m j).mpr hm)
      rw [hplaced, if_pos hm] at hat
      exact (settle_of_not_atJoin hat).symm
    next => rfl

/-- Where the resume PC is no slice's join the gang stays together. -/
theorem resumedWarp_apart
    (h : ∀ j, m.getLsbD j = true → ∀ e, (V.slice j).stack.head? = some e → e.join ≠ some (alignPc resume)) :
    resumedWarp m trapPc resume completed V = placedWarp m trapPc resume completed V := by
  refine if_neg ?_
  simp only [List.any_eq_true, not_exists, not_and, Bool.not_eq_true]
  intro j hj
  have hm := (mem_slicesOf m j).mp hj
  by_cases hlen : j < V.slices.length
  · rw [slice_placedWarp _ _ _ _ _ hlen, if_pos hm]
    unfold Slice.atJoin
    dsimp only
    cases hstack : (V.slice j).stack with
    | nil => rfl
    | cons e r => exact decide_eq_false (h j hm e (by rw [hstack]; rfl))
  · have hnone : (placedWarp m trapPc resume completed V).slices[j]? = none := by
      refine List.getElem?_eq_none ?_
      simpa [placedWarp, Warp.modSlices, Warp.modGang] using hlen
    rw [Warp.slice, hnone]
    rfl

end

/-- Some mask stack is deeper than at entry. -/
theorem deeper_iff (W : Warp) (h : Handler) :
    W.slices.zipIdx.any (fun e => decide ((h.depths[e.2]?).getD 0 < e.1.stack.length)) = true ↔
      ∃ (j : Nat) (x : Slice), W.slices[j]? = some x ∧ (h.depths[j]?).getD 0 < x.stack.length := by
  simp only [List.any_eq_true, decide_eq_true_eq, Prod.exists, List.mk_mem_zipIdx_iff_getElem?]
  exact exists_comm

/-- What IRET reads of the record at an address: the trapped class, the trap PC, the resume PC, the completed lanes and s92 to s95
(R283). -/
structure Record where
  /-- Class. -/
  cls : Nat
  /-- Trap PC. -/
  trapPc : Nat
  /-- Resume PC. -/
  resume : Nat
  /-- Completed lanes. -/
  completed : Nat
  /-- s92 to s95. -/
  ss : Nat → Nat

/-- The record a handler returns from. -/
def recordOf (s : State) (c : Ctx) (h : Handler) : Record :=
  let num := s.devNum (ctxFn c.W.ctx)
  let a := h.record.toNat
  { cls := num a 2, trapPc := num (a + 0x08) 8, resume := num (a + 0x10) 8, completed := num (a + 0x18) 4,
    ss := fun i => num (a + 0x40 + 4 * i) 4 }

/-- The four words of a record. -/
def Record.words (r : Record) : List Word := (List.range 4).map (fun i => BitVec.ofNat 32 (r.ss i))

/-- The warp that IRET's return makes of the issuing one, for the record read. -/
def Record.returned (r : Record) (c : Ctx) : Warp :=
  resumedWarp c.G.slices (BitVec.ofNat 64 r.trapPc) (BitVec.ofNat 64 r.resume) (BitVec.ofNat 32 r.completed)
    (c.W.modGang c.j (restored r.words))

section
variable {h : Handler} (hp : s.passes (hinted (fun _ => { Sig.plain with priv := true })) = some c)
  (hh : c.W.handler = some h) (hhalt : h.halt = none)
include hp hh hhalt

theorem iret_deeper (hdeep : ∃ (j : Nat) (x : Slice), c.W.slices[j]? = some x ∧ (h.depths[j]?).getD 0 < x.stack.length) :
    exec .iret s = .next ((s.restoreSs c.w c.j (recordOf s c h).words).trapped c (Trap.of (recordOf s c h).cls 0)) := by
  have hbody : iretBody c s = .trap (s.restoreSs c.w c.j (recordOf s c h).words) (Trap.of (recordOf s c h).cls 0) := by
    unfold iretBody
    rw [hh]
    dsimp only
    rw [hhalt]
    exact if_pos ((deeper_iff c.W h).mpr hdeep)
  have hexec := issue_passes s _ iretBody c hp
  rw [hbody] at hexec
  exact hexec

theorem iret_returns (hdeep : ¬ ∃ (j : Nat) (x : Slice), c.W.slices[j]? = some x ∧ (h.depths[j]?).getD 0 < x.stack.length) :
    exec .iret s = .next ((s.setWarp c.w ((recordOf s c h).returned c)).finish c) := by
  obtain ⟨hw, -⟩ := passes_warp s _ c hp
  have hbody : iretBody c s = .jump ((s.restoreSs c.w c.j (recordOf s c h).words).resumeFrom c.w c.G.slices
      (BitVec.ofNat 64 (recordOf s c h).trapPc) (BitVec.ofNat 64 (recordOf s c h).resume)
      (BitVec.ofNat 32 (recordOf s c h).completed)) := by
    unfold iretBody
    rw [hh]
    dsimp only
    rw [hhalt]
    exact if_neg (fun e => hdeep ((deeper_iff c.W h).mp e))
  have hexec := issue_passes s _ iretBody c hp
  rw [hbody, restoreSs_eq hw, resumeFrom_eq (sget_sput_same ..), setWarp_setWarp] at hexec
  exact hexec

end

/-- What the end of IRET's issue leaves of the lanes to leave out: the record's, where it traps and resumes at one PC, unless that is
IRET's own group. -/
theorem issued_redo (now : Nat) (g : Gang) {r : Record} (ht : r.trapPc < 2 ^ 64) (hr : r.resume < 2 ^ 64)
    (hc : r.completed < 2 ^ 32) {pc : DWord} (hpc : r.trapPc ≠ pc.toNat) :
    (Gang.issued (resumedGang (BitVec.ofNat 64 r.trapPc) (BitVec.ofNat 64 r.resume) (BitVec.ofNat 32 r.completed) g)
      now c.h pc).redo = if r.resume = r.trapPc ∧ r.completed ≠ 0 then
        some (BitVec.ofNat 64 r.trapPc, BitVec.ofNat 32 r.completed) else none := by
  have hiff : (BitVec.ofNat 64 r.resume = BitVec.ofNat 64 r.trapPc ∧ BitVec.ofNat 32 r.completed ≠ 0) ↔
      (r.resume = r.trapPc ∧ r.completed ≠ 0) := by
    simp only [← BitVec.toNat_inj, BitVec.toNat_ofNat, Nat.mod_eq_of_lt ht, Nat.mod_eq_of_lt hr, Nat.mod_eq_of_lt hc, ne_eq]
    rfl
  have hne : BitVec.ofNat 64 r.trapPc ≠ pc := by
    rintro rfl
    exact hpc (by rw [BitVec.toNat_ofNat, Nat.mod_eq_of_lt ht])
  unfold resumedGang Gang.idle Gang.issued
  simp only [hiff]
  by_cases hcond : r.resume = r.trapPc ∧ r.completed ≠ 0
  · simp only [if_pos hcond, if_neg hne]
  · simp only [if_neg hcond]

/-- The issuing gang after IRET, where no slice of it reaches its join. -/
theorem gangAt_placed (hg : c.W.gangAt c.j = some c.G) (ss : List Word) (trapPc resume : DWord) (completed : Word) :
    (placedWarp c.G.slices trapPc resume completed (c.W.modGang c.j (restored ss))).gangAt c.j =
      some (resumedGang trapPc resume completed (restored ss c.G)) := by
  have hrest := gangAt_modGang_same hg (restored ss) (fun _ => rfl)
  have hlow : (restored ss c.G).slices.getLsbD (lowSlice c.G.slices) = true :=
    getLsbD_lowSlice (m := c.G.slices) (ne_zero_of_slice (slices_of_gangAt hg))
  have hmod := gangAt_modGang (c.W.modGang c.j (restored ss)) (lowSlice c.G.slices) c.j
    (resumedGang trapPc resume completed) (fun _ => rfl)
  rw [hrest, Option.map_some, if_pos hlow] at hmod
  exact hmod

theorem recordOf_lt (s : State) (c : Ctx) (h : Handler) : (recordOf s c h).trapPc < 2 ^ 64 ∧ (recordOf s c h).resume < 2 ^ 64 ∧
    (recordOf s c h).completed < 2 ^ 32 :=
  ⟨lt_of_lt_of_eq (devNum_lt ..) (by norm_num), lt_of_lt_of_eq (devNum_lt ..) (by norm_num),
    lt_of_lt_of_eq (devNum_lt ..) (by norm_num)⟩

/-- The issuing gang once IRET has issued, where the resume PC is no slice's join. -/
theorem returned_gang (hg : c.W.gangAt c.j = some c.G) (now : Nat) {r : Record} (ht : r.trapPc < 2 ^ 64)
    (hr : r.resume < 2 ^ 64) (hc : r.completed < 2 ^ 32)
    (hjoin : ∀ j, c.G.slices.getLsbD j = true → ∀ e, (c.W.slice j).stack.head? = some e →
      e.join ≠ some (alignPc (BitVec.ofNat 64 r.resume))) :
    ∃ q, (issuedWarp c now (r.returned c)).gangAt c.j = some q ∧ q.hints = [] ∧
      (r.trapPc ≠ (c.W.groupPc c.G).toNat → q.redo = if r.resume = r.trapPc ∧ r.completed ≠ 0 then
        some (BitVec.ofNat 64 r.trapPc, BitVec.ofNat 32 r.completed) else none) ∧
      (∀ i, i < 4 → q.sget (92 + i) = BitVec.ofNat 32 (r.ss i)) ∧ ∀ i, i < 92 → q.sget i = c.G.sget i := by
  have happart : r.returned c = _ := resumedWarp_apart c.G.slices _ _ _ (c.W.modGang c.j (restored r.words)) hjoin
  have hself : c.G.slices &&& c.G.slices ≠ 0 := by
    rw [BitVec.and_self]
    exact ne_zero_of_slice (slices_of_gangAt hg)
  have hq := issuedWarp_gangAt c now (r.returned c) c.j
  rw [happart, gangAt_placed hg, Option.map_some] at hq
  rw [happart]
  refine ⟨_, hq.trans (congrArg some (if_neg hself)), rfl, fun hne => issued_redo now (restored r.words c.G) ht hr hc hne, fun i hi => ?_,
    fun i hi => ?_⟩
  · refine (restored_sget r.words c.G (92 + i)).trans ?_
    rw [if_pos (by omega), Nat.add_sub_cancel_left]
    simp [Record.words, hi]
  · exact (restored_sget r.words c.G i).trans (if_neg (by omega))

theorem iret_clause {h : Handler} (hp : s.passes (hinted (fun _ => { Sig.plain with priv := true })) = some c)
    (hh : c.W.handler = some h) (hhalt : h.halt = none)
    (hdeep : ¬ ∃ (j : Nat) (x : Slice), c.W.slices[j]? = some x ∧ (h.depths[j]?).getD 0 < x.stack.length) :
    let r := recordOf s c h
    let back : DWord := alignPc (BitVec.ofNat 64 r.resume)
    ∃ u W, exec .iret s = .next u ∧ sget u.warps c.w = some W ∧ W.handler = none ∧ W.v = c.W.v ∧ W.p = c.W.p ∧
      W.flags = c.W.flags ∧
      (∀ j, j < c.W.slices.length → W.slice j = if c.G.slices.getLsbD j = true then
        Slice.settle 20 { c.W.slice j with pc := back } else c.W.slice j) ∧
      ((∀ j, c.G.slices.getLsbD j = true → ∀ e, (c.W.slice j).stack.head? = some e → e.join ≠ some back) →
        ∃ q, W.gangAt c.j = some q ∧ q.hints = [] ∧
          (r.trapPc ≠ (c.W.groupPc c.G).toNat → q.redo = if r.resume = r.trapPc ∧ r.completed ≠ 0 then
            some (BitVec.ofNat 64 r.trapPc, BitVec.ofNat 32 r.completed) else none) ∧
          (∀ i, i < 4 → q.sget (92 + i) = BitVec.ofNat 32 (r.ss i)) ∧ ∀ i, i < 92 → q.sget i = c.G.sget i) ∧
      u.mem = s.mem ∧ ∀ v, v ≠ c.w → sget u.warps v = sget s.warps v := by
  obtain ⟨-, hg⟩ := passes_warp s _ c hp
  obtain ⟨ht, hr, hc⟩ := recordOf_lt s c h
  have hexec := iret_returns hp hh hhalt hdeep
  generalize recordOf s c h = r at ht hr hc hexec ⊢
  intro _ back
  obtain ⟨hwarp, hothers, hframe⟩ := finish_spec (t := s.setWarp c.w (r.returned c)) (c := c) (sget_sput_same ..)
  obtain ⟨hback, hmode⟩ := resumedWarp_frame c.G.slices (BitVec.ofNat 64 r.trapPc) (BitVec.ofNat 64 r.resume)
    (BitVec.ofNat 32 r.completed) (c.W.modGang c.j (restored r.words))
  have hv := congrArg Warp.v hback
  have hpred := congrArg Warp.p hback
  have hflags := congrArg Warp.flags hback
  have hmem := congrArg State.mem hframe
  refine ⟨_, _, hexec, hwarp, hmode, hv, hpred, hflags, fun j hj => ?_, returned_gang hg s.time ht hr hc, hmem,
    fun v hne => ?_⟩
  · exact slice_resumedWarp c.G.slices _ _ _ (c.W.modGang c.j (restored r.words)) hj
  · rw [hothers v hne]
    exact sget_sput_other _ hne _

end

/-- Settles O55: each instruction's own lemma. -/
theorem systemRegisters : Obligations.SystemRegisters := by
  intro n d code s c x known v pack
  refine ⟨fun h => ?_, fun h => ⟨?_, fun hn => ?_⟩, tstamp_clause d, trap_clause code, ?_⟩
  · obtain ⟨u, hexec, hmode, hdone⟩ := sread_clause n d rfl h
    refine ⟨u, readWarp n c.W, sysRead s c n.toNat, hexec, rfl, rfl, ?_, ?_, ?_, ?_, ?_, ?_, ?_, ?_, ?_, ?_, ?_, ?_, hdone⟩
    · rintro (rfl | rfl) <;> rfl
    · rintro rfl
      exact congrArg (BitVec.ofNat 32) (slicePack_eq c.W 4 _)
    · rintro rfl; rfl
    · rintro rfl; rfl
    · rintro rfl
      exact congrArg (BitVec.ofNat 32) (slicePack_eq c.W 1 _)
    · rintro rfl; rfl
    · rintro rfl; rfl
    · rintro rfl; rfl
    · rintro rfl; rfl
    · rintro rfl; rfl
    · rintro rfl; rfl
    · rintro rfl
      exact sysRead_mode (hmode rfl)
  · rintro rfl
    obtain ⟨u, hexec, hdone⟩ := swrite_flags_clause d h
    exact ⟨u, _, hexec, rfl, hdone⟩
  · obtain ⟨u, hexec, hdone⟩ := swrite_context_clause n d hn h
    exact ⟨u, _, hexec, hdone, rfl, rfl, rfl, rfl⟩
  · rintro sig rfl
    refine ⟨fun t hst hh hhints => iret_outside hst hh hhints, fun h hp hh hhalt => ⟨?_, ?_⟩,
      fun h hp hh hhalt => iret_halted hp hh hhalt⟩
    · exact fun hdeep => iret_deeper hp hh hhalt hdeep
    · exact fun hdeep => iret_clause hp hh hhalt hdeep

end Sys2Proof.Proofs.SystemRegisters
end

section
/-! SUPPORT. Rounding an exact magnitude once: to a whole number of units (R59, R79), and to a point of any rising grid. -/

namespace Sys2Proof.Proofs.Rounding

open Sys2Proof Sys2Proof.Machine Sys2Proof.Claims

section
variable {K : Type} [Field K] [LinearOrder K]

/-- Whether the magnitude a + t rounds up in a mode, for a whole number `a` and a fraction `t` below 1 (R59). -/
def GoesUp (mode : Nat) (neg odd : Bool) (t : K) : Prop :=
  match mode with
  | 0 => 1 / 2 < t ∨ (t = 1 / 2 ∧ odd = true)
  | 1 => False
  | 2 => 0 < t ∧ neg = false
  | 3 => 0 < t ∧ neg = true
  | _ => 1 / 2 ≤ t

/-- `A` is the magnitude m × 2^e and, where `sticky`, a little more. -/
structure Magnitude (m : Nat) (e : Int) (sticky : Bool) (A : K) : Prop where
  /-- At least the magnitude. -/
  lower : (m : K) * 2 ^ e ≤ A
  /-- Less than a unit more. -/
  upper : A < ((m : K) + 1) * 2 ^ e
  /-- More, where sticky. -/
  more : sticky = true ↔ (m : K) * 2 ^ e ≠ A

variable [IsStrictOrderedRing K]

theorem zpow_two_pos (q : Int) : (0 : K) < 2 ^ q := zpow_pos two_pos q

theorem zpow_two_sub {e q : Int} (h : q ≤ e) : (2 : K) ^ e = 2 ^ (e - q).toNat * 2 ^ q := by
  rw [← zpow_natCast, Int.toNat_of_nonneg (by omega), ← zpow_add₀ two_ne_zero, sub_add_cancel]

theorem magnitude_exact (m : Nat) (e : Int) : Magnitude m e false ((m : K) * 2 ^ e) := by
  refine ⟨le_rfl, ?_, by simp⟩
  have := zpow_two_pos (K := K) e
  rw [add_mul]
  linarith

/-- The remainder r of N, with a little more where sticky, decides the rounding as the fraction does. -/
theorem roundsUp_iff {mode : Nat} {neg odd sticky : Bool} {r N : Nat} {ρ : K} (hN : 0 < N) (heven : sticky = true → N % 2 = 0)
    (hlo : (r : K) ≤ ρ) (hhi : ρ < r + 1) (hst : sticky = true ↔ (r : K) ≠ ρ) :
    roundsUp mode neg odd (2 * r) N sticky = true ↔ GoesUp mode neg odd (ρ / N) := by
  have hNK : (0 : K) < N := Nat.cast_pos.mpr hN
  have hpos : 0 < ρ ↔ 0 < r ∨ sticky = true := by
    rw [hst]
    constructor
    · intro h
      by_cases hr : r = 0
      · right; rw [hr, Nat.cast_zero]; exact h.ne
      · left; omega
    · rintro (h | h)
      · exact lt_of_lt_of_le (Nat.cast_pos.mpr h) hlo
      · exact lt_of_le_of_lt (Nat.cast_nonneg r) (lt_of_le_of_ne hlo h)
  have hfrac : 0 < ρ / N ↔ 0 < r ∨ sticky = true := by rw [div_pos_iff_of_pos_right hNK, hpos]
  -- against the half unit
  have hgt : 1 / 2 < ρ / N ↔ N < 2 * r ∨ (2 * r = N ∧ sticky = true) := by
    rw [div_lt_div_iff₀ two_pos hNK, one_mul]
    constructor
    · intro h
      by_cases hlt : N < 2 * r
      · exact .inl hlt
      · right
        cases hs : sticky with
        | false =>
          have hρ : (r : K) = ρ := not_not.mp (fun h => by simpa [hs] using hst.mpr h)
          rw [← hρ] at h
          have : N < r * 2 := by exact_mod_cast h
          omega
        | true =>
          have h2 : (N : K) < ((r + 1) * 2 : Nat) := by
            push_cast
            linarith
          have h3 : N < (r + 1) * 2 := by exact_mod_cast h2
          have := heven hs
          exact ⟨by omega, rfl⟩
    · rintro (h | ⟨h, hs⟩)
      · have : (N : K) < 2 * r := by exact_mod_cast h
        linarith
      · have h1 : (2 : K) * r = N := by exact_mod_cast h
        have h2 := lt_of_le_of_ne hlo (hst.mp hs)
        linarith
  have hge : 1 / 2 ≤ ρ / N ↔ N ≤ 2 * r := by
    constructor
    · intro h
      rcases lt_or_eq_of_le h with h | h
      · rcases hgt.mp h with h | ⟨h, -⟩ <;> omega
      · rw [div_eq_div_iff two_ne_zero hNK.ne', one_mul] at h
        cases hs : sticky with
        | false =>
          have hρ : (r : K) = ρ := not_not.mp (fun h => by simpa [hs] using hst.mpr h)
          rw [← hρ] at h
          have : N = r * 2 := by exact_mod_cast h
          omega
        | true =>
          have h2 : (N : K) < ((r + 1) * 2 : Nat) := by
            push_cast
            linarith
          have h3 : N < (r + 1) * 2 := by exact_mod_cast h2
          have := heven hs
          omega
    · intro h
      have : (N : K) ≤ 2 * r := by exact_mod_cast h
      rw [div_le_div_iff₀ two_pos hNK]
      linarith
  unfold roundsUp GoesUp
  match mode with
  | 0 =>
    have heq : ρ / N = 1 / 2 ↔ 1 / 2 ≤ ρ / N ∧ ¬ 1 / 2 < ρ / N := by rw [not_lt, le_antisymm_iff, and_comm]
    simp only [heq, hgt, hge, Bool.or_eq_true, Bool.and_eq_true, decide_eq_true_eq, beq_iff_eq]
    cases sticky <;> cases odd <;> simp <;> omega
  | 1 => simp
  | 2 => simp [hfrac]
  | 3 => simp [hfrac]
  | n + 4 => simpa using hge.symm

/-- What roundAt delivers: the whole number of units below, or the next, as the fraction says, and whether it differs. -/
theorem roundAt_spec {mode : Nat} {neg sticky : Bool} {m : Nat} {e q : Int} {A : K} (hA : Magnitude m e sticky A)
    (hq : sticky = true → e < q) :
    ∃ (a : Nat) (up : Bool), (a : K) * 2 ^ q ≤ A ∧ A < ((a : K) + 1) * 2 ^ q ∧
      (up = true ↔ GoesUp mode neg (a % 2 == 1) (A / 2 ^ q - a)) ∧
      (roundAt mode neg m e sticky q).1 = (if up then a + 1 else a) ∧
      ((roundAt mode neg m e sticky q).2 = true ↔ (a : K) * 2 ^ q ≠ A) := by
  have hqpos := zpow_two_pos (K := K) q
  have hepos := zpow_two_pos (K := K) e
  unfold roundAt
  split
  next hle =>
    have hst : sticky = false := by
      cases hs : sticky with
      | false => rfl
      | true => have := hq hs; omega
    subst hst
    have hexact : (m : K) * 2 ^ e = A := by simpa using hA.more
    have hunits : ((m * 2 ^ (e - q).toNat : Nat) : K) * 2 ^ q = A := by
      rw [← hexact, zpow_two_sub hle]
      push_cast
      ring
    refine ⟨m * 2 ^ (e - q).toNat, _, hunits.le, ?_, ?_, rfl, ?_⟩
    · rw [← hunits]
      nlinarith
    · have hzero : A / 2 ^ q - ((m * 2 ^ (e - q).toNat : Nat) : K) = 0 / ((1 : Nat) : K) := by
        rw [← hunits, mul_div_assoc, div_self hqpos.ne']
        simp
      rw [hzero]
      exact roundsUp_iff (r := 0) one_pos (by simp) (by simp) (by simp) (by simp)
    · exact iff_of_false Bool.false_ne_true (not_not.mpr hunits)
  next hlt =>
    have hlt : e < q := not_le.mp hlt
    let sh := (q - e).toNat
    have hsh : 2 ^ sh % 2 = 0 := by
      obtain ⟨n, hn⟩ : ∃ n, sh = n + 1 := ⟨sh - 1, by omega⟩
      rw [hn, Nat.pow_succ]
      omega
    have hpow : (2 : K) ^ q = ((2 ^ sh : Nat) : K) * 2 ^ e := by
      rw [zpow_two_sub hlt.le]
      push_cast
      rfl
    have hNK : (0 : K) < ((2 ^ sh : Nat) : K) := by positivity
    let ρ : K := A / 2 ^ e - ((m / 2 ^ sh * 2 ^ sh : Nat) : K)
    have hdiv : ((m / 2 ^ sh * 2 ^ sh : Nat) : K) + ((m % 2 ^ sh : Nat) : K) = m := by
      exact_mod_cast Nat.div_add_mod' m (2 ^ sh)
    have hA1 : (m : K) ≤ A / 2 ^ e := (le_div_iff₀ hepos).mpr hA.lower
    have hA2 : A / 2 ^ e < m + 1 := (div_lt_iff₀ hepos).mpr hA.upper
    have hlo : ((m % 2 ^ sh : Nat) : K) ≤ ρ := by
      simp only [ρ]
      linarith
    have hhi : ρ < ((m % 2 ^ sh : Nat) : K) + 1 := by
      simp only [ρ]
      linarith
    have hmore : sticky = true ↔ ((m % 2 ^ sh : Nat) : K) ≠ ρ := by
      rw [hA.more, not_iff_not, ← eq_div_iff hepos.ne']
      simp only [ρ]
      constructor <;> intro h <;> linarith
    have hrN : ((m % 2 ^ sh : Nat) : K) + 1 ≤ ((2 ^ sh : Nat) : K) := by
      exact_mod_cast Nat.mod_lt m (Nat.two_pow_pos sh)
    have hρ0 : 0 ≤ ρ := le_trans (Nat.cast_nonneg _) hlo
    have hsum : A = (((m / 2 ^ sh : Nat) : K) * ((2 ^ sh : Nat) : K) + ρ) * 2 ^ e := by
      simp only [ρ]
      rw [← Nat.cast_mul, add_sub_cancel, div_mul_cancel₀ _ hepos.ne']
    have hfrac : A / 2 ^ q - ((m / 2 ^ sh : Nat) : K) = ρ / ((2 ^ sh : Nat) : K) := by
      rw [hsum, hpow]
      field_simp
      ring
    refine ⟨m / 2 ^ sh, _, ?_, ?_, ?_, rfl, ?_⟩
    · rw [hsum, hpow, ← mul_assoc]
      exact mul_le_mul_of_nonneg_right (by linarith) hepos.le
    · rw [hsum, hpow, ← mul_assoc]
      refine mul_lt_mul_of_pos_right ?_ hepos
      linarith
    · rw [hfrac]
      exact roundsUp_iff (Nat.two_pow_pos sh) (fun _ => hsh) hlo hhi hmore
    · have hdiff : ((m / 2 ^ sh : Nat) : K) * 2 ^ q ≠ A ↔ ρ ≠ 0 := by
        rw [hsum, hpow, ← mul_assoc, not_iff_not]
        constructor
        · intro h
          have := mul_right_cancel₀ hepos.ne' h
          linarith
        · intro h
          rw [h, add_zero]
      rw [hdiff, Bool.or_eq_true, decide_eq_true_eq, hmore]
      constructor
      · rintro (h | h)
        · exact (lt_of_lt_of_le (by positivity) hlo).ne'
        · exact (lt_of_le_of_lt (Nat.cast_nonneg _) (lt_of_le_of_ne hlo h)).ne'
      · intro h
        by_cases hr : m % 2 ^ sh = 0
        · right
          rw [hr, Nat.cast_zero]
          exact h.symm
        · exact .inl hr

/-- m × 2^e compared with n × 2^g. -/
theorem magGe_iff (m : Nat) (e : Int) (n : Nat) (g : Int) : magGe m e n g = true ↔ (n : K) * 2 ^ g ≤ (m : K) * 2 ^ e := by
  unfold magGe
  split
  next h =>
    rw [decide_eq_true_iff, zpow_two_sub h, ← mul_assoc, mul_le_mul_iff_left₀ (zpow_two_pos g)]
    norm_cast
  next h =>
    rw [decide_eq_true_iff, zpow_two_sub (not_le.mp h).le, ← mul_assoc, mul_le_mul_iff_left₀ (zpow_two_pos e)]
    norm_cast

end

/-- A point of a rising grid is a magnitude rounded in a mode: nearest, with the mode's rule for ties, or nearest above or below (R59). -/
def GridRounds (g : Nat → ℝ) (mode : Nat) (neg : Bool) (A : ℝ) (b : Nat) : Prop :=
  match mode with
  | 0 => ∀ c, |g b - A| ≤ |g c - A| ∧ (|g b - A| = |g c - A| → c ≠ b → b % 2 = 0)
  | 4 => ∀ c, |g b - A| ≤ |g c - A| ∧ (|g b - A| = |g c - A| → c ≤ b)
  | k => if k = 2 ∧ neg = false ∨ k = 3 ∧ neg = true then A ≤ g b ∧ ∀ c, A ≤ g c → b ≤ c
    else g b ≤ A ∧ ∀ c, g c ≤ A → c ≤ b

section
variable {g : Nat → ℝ} {A : ℝ} {b : Nat}

theorem dist_of_le (hg : StrictMono g) (h0 : g b ≤ A) {c : Nat} (hc : c ≤ b) : |g c - A| = A - g c := by
  rw [abs_sub_comm, abs_of_nonneg]
  have := hg.monotone hc
  linarith

theorem dist_of_gt (hg : StrictMono g) (h1 : A < g (b + 1)) {c : Nat} (hc : b < c) : |g c - A| = g c - A := by
  rw [abs_of_nonneg]
  have := hg.monotone (Nat.succ_le_of_lt hc)
  have h : g (b + 1) ≤ g c := this
  linarith

theorem dist_below (hg : StrictMono g) (h0 : g b ≤ A) {c : Nat} (hc : c ≤ b) : A - g b ≤ |g c - A| ∧ (A - g b = |g c - A| → c = b) := by
  rw [dist_of_le hg h0 hc]
  have := hg.monotone hc
  exact ⟨by linarith, fun h => hg.injective (by linarith)⟩

theorem dist_above (hg : StrictMono g) (h1 : A < g (b + 1)) {c : Nat} (hc : b < c) : g (b + 1) - A ≤ |g c - A| ∧ (g (b + 1) - A = |g c - A| → c = b + 1) := by
  rw [dist_of_gt hg h1 hc]
  have : g (b + 1) ≤ g c := hg.monotone hc
  exact ⟨by linarith, fun h => hg.injective (by linarith)⟩

section
variable (hg : StrictMono g) (h0 : g b ≤ A) (h1 : A < g (b + 1))
include hg h0 h1

/-- The lower neighbour is nearest where it is not farther than the upper; only the upper may be as near. -/
theorem nearest_lower (h : A - g b ≤ g (b + 1) - A) (c : Nat) :
    |g b - A| ≤ |g c - A| ∧ (|g b - A| = |g c - A| → c = b ∨ A - g b = g (b + 1) - A) := by
  rw [dist_of_le hg h0 le_rfl]
  rcases Nat.lt_or_ge b c with hc | hc
  · obtain ⟨hle, -⟩ := dist_above hg h1 hc
    exact ⟨by linarith, fun heq => .inr (by linarith)⟩
  · obtain ⟨hle, heq⟩ := dist_below hg h0 hc
    exact ⟨hle, fun h => .inl (heq h)⟩

/-- The upper neighbour is nearest where it is not farther than the lower; only points up to the lower may be as near. -/
theorem nearest_upper (h : g (b + 1) - A ≤ A - g b) (c : Nat) :
    |g (b + 1) - A| ≤ |g c - A| ∧ (|g (b + 1) - A| = |g c - A| → c = b + 1 ∨ (c ≤ b ∧ A - g b = g (b + 1) - A)) := by
  rw [dist_of_gt hg h1 (Nat.lt_succ_self b)]
  rcases Nat.lt_or_ge b c with hc | hc
  · obtain ⟨hle, heq⟩ := dist_above hg h1 hc
    exact ⟨hle, fun h => .inl (heq h)⟩
  · obtain ⟨hle, -⟩ := dist_below hg h0 hc
    exact ⟨by linarith, fun heq => .inr ⟨hc, by linarith⟩⟩

/-- The greatest point of the grid that is not above. -/
theorem toward_floor : g b ≤ A ∧ ∀ c, g c ≤ A → c ≤ b :=
  ⟨h0, fun _ hc => Nat.lt_succ_iff.mp (hg.lt_iff_lt.mp (lt_of_le_of_lt hc h1))⟩

/-- The least point of the grid that is not below. -/
theorem away_floor {up : Bool} (hup : up = true ↔ g b < A) :
    A ≤ g (if up then b + 1 else b) ∧ ∀ c, A ≤ g c → (if up then b + 1 else b) ≤ c := by
  cases up with
  | true => exact ⟨h1.le, fun c hc => hg.lt_iff_lt.mp (lt_of_lt_of_le (hup.mp rfl) hc)⟩
  | false =>
    have hle : A ≤ g b := not_lt.mp fun h => Bool.false_ne_true (hup.mpr h)
    exact ⟨hle, fun c hc => hg.le_iff_le.mp (le_trans h0 hc)⟩

/-- Between two neighbours of a grid the fraction decides. -/
theorem gridRounds_of_floor {mode : Nat} {neg up : Bool} (hmode : mode ≤ 4)
    (hup : up = true ↔ GoesUp mode neg (b % 2 == 1) ((A - g b) / (g (b + 1) - g b))) :
    GridRounds g mode neg A (if up then b + 1 else b) := by
  have hu : 0 < g (b + 1) - g b := by linarith
  have hhalf : 1 / 2 < (A - g b) / (g (b + 1) - g b) ↔ g (b + 1) - A < A - g b := by
    rw [div_lt_div_iff₀ two_pos hu]
    constructor <;> intro h <;> linarith
  have htie : (A - g b) / (g (b + 1) - g b) = 1 / 2 ↔ A - g b = g (b + 1) - A := by
    rw [div_eq_div_iff hu.ne' two_ne_zero]
    constructor <;> intro h <;> linarith
  have hge : 1 / 2 ≤ (A - g b) / (g (b + 1) - g b) ↔ g (b + 1) - A ≤ A - g b := by
    rw [div_le_div_iff₀ two_pos hu]
    constructor <;> intro h <;> linarith
  have hfrac : 0 < (A - g b) / (g (b + 1) - g b) ↔ g b < A := by
    rw [div_pos_iff_of_pos_right hu, sub_pos]
  unfold GoesUp at hup
  match mode with
  | 0 =>
    simp only [hhalf, htie, beq_iff_eq] at hup
    intro c
    cases up with
    | true =>
      have hup := hup.mp rfl
      obtain ⟨hle, heq⟩ := nearest_upper hg h0 h1 (hup.elim le_of_lt fun h => h.1.ge) c
      refine ⟨hle, fun h hne => ?_⟩
      obtain ⟨-, htie⟩ := (heq h).resolve_left hne
      rcases hup with hlt | ⟨-, hodd⟩
      · linarith
      · rw [if_pos rfl]
        omega
    | false =>
      have hno : ¬ (_ ∨ _) := fun h => Bool.false_ne_true (hup.mpr h)
      rw [not_or, not_and, not_lt] at hno
      obtain ⟨hle, heven⟩ := hno
      obtain ⟨hnear, heq⟩ := nearest_lower hg h0 h1 hle c
      refine ⟨hnear, fun h hne => ?_⟩
      have := heven ((heq h).resolve_left hne)
      rw [if_neg Bool.false_ne_true]
      omega
  | 1 =>
    have : up = false := by simpa using hup
    subst this
    exact toward_floor hg h0 h1
  | 2 =>
    rw [hfrac] at hup
    cases neg with
    | true =>
      have : up = false := by simpa using hup
      subst this
      exact toward_floor hg h0 h1
    | false => exact away_floor hg h0 h1 (hup.trans (and_iff_left rfl))
  | 3 =>
    rw [hfrac] at hup
    cases neg with
    | false =>
      have : up = false := by simpa using hup
      subst this
      exact toward_floor hg h0 h1
    | true => exact away_floor hg h0 h1 (hup.trans (and_iff_left rfl))
  | 4 =>
    have hup := hup.trans hge
    intro c
    cases up with
    | true =>
      obtain ⟨hle, heq⟩ := nearest_upper hg h0 h1 (hup.mp rfl) c
      exact ⟨hle, fun h => (heq h).elim (fun h => h.le) fun h => Nat.le_succ_of_le h.1⟩
    | false =>
      have hlt := not_le.mp fun h => Bool.false_ne_true (hup.mpr h)
      obtain ⟨hle, heq⟩ := nearest_lower hg h0 h1 hlt.le c
      exact ⟨hle, fun h => (heq h).elim (fun h => h.le) fun h => absurd h hlt.ne⟩

end

end

end Sys2Proof.Proofs.Rounding
end

section
/-! SUPPORT. The numbers of a floating format (R73, R74): the magnitudes that its bits stand for are a rising grid, and the largest of
them is finite. -/

namespace Sys2Proof.Proofs.Formats

open Sys2Proof Sys2Proof.Machine Sys2Proof.Claims Sys2Proof.Proofs.Rounding

/-! ### Magnitudes -/

/-- The magnitude of the exponent and fraction bits `b` of a format; past its largest finite number the pattern goes on. -/
noncomputable def mag (f : Fmt) (b : Nat) : ℝ :=
  ((b - (b / 2 ^ f.fbits - 1) * 2 ^ f.fbits : Nat) : ℝ) * 2 ^ (f.qmin + ((b / 2 ^ f.fbits - 1 : Nat) : Int))

/-- The bits of `k` units in the last place, `j` binades above the subnormals. -/
theorem mag_grid {f : Fmt} {j k : Nat} (h : j = 0 ∨ 2 ^ f.fbits ≤ k) (hk : k ≤ 2 ^ (f.fbits + 1)) :
    mag f (j * 2 ^ f.fbits + k) = k * 2 ^ (f.qmin + (j : Int)) := by
  have hP := Nat.two_pow_pos f.fbits
  rw [Nat.pow_succ] at hk
  unfold mag
  generalize 2 ^ f.fbits = P at *
  rcases Nat.lt_or_ge k (2 * P) with hlt | hge
  · have hdiv : (j * P + k) / P - 1 = j := by
      rw [Nat.mul_comm, Nat.mul_add_div hP]
      rcases Nat.lt_or_ge k P with hkP | hkP
      · rw [Nat.div_eq_of_lt hkP]
        omega
      · rw [Nat.div_eq_of_lt_le (k := 1) (by omega) (by omega)]
        omega
    rw [hdiv, Nat.add_sub_cancel_left]
  · have hkP : k = 2 * P := by omega
    subst hkP
    have hdiv : (j * P + 2 * P) / P - 1 = j + 1 := by
      rw [← Nat.add_mul, Nat.mul_div_cancel _ hP]
      omega
    have hsub : j * P + 2 * P - (j + 1) * P = P := by
      rw [← Nat.add_mul, ← Nat.sub_mul, show j + 2 - (j + 1) = 1 by omega, Nat.one_mul]
    rw [hdiv, hsub, Nat.cast_add, Nat.cast_one, ← add_assoc, zpow_add_one₀ two_ne_zero]
    push_cast
    ring

theorem exists_grid (f : Fmt) (b : Nat) :
    ∃ j k, b = j * 2 ^ f.fbits + k ∧ (j = 0 ∨ 2 ^ f.fbits ≤ k) ∧ k < 2 ^ (f.fbits + 1) := by
  have hP := Nat.two_pow_pos f.fbits
  have hmod := Nat.div_add_mod' b (2 ^ f.fbits)
  have hlt := Nat.mod_lt b hP
  rw [Nat.pow_succ]
  generalize 2 ^ f.fbits = P at *
  rcases Nat.eq_zero_or_pos (b / P) with h | h
  · exact ⟨0, b, by omega, .inl rfl, by rw [h] at hmod; omega⟩
  · refine ⟨b / P - 1, b % P + P, ?_, .inr (by omega), by omega⟩
    have : b / P * P = (b / P - 1) * P + P := by
      rw [← Nat.succ_mul]
      congr
      omega
    omega

theorem mag_strictMono (f : Fmt) : StrictMono (mag f) := by
  refine strictMono_nat_of_lt_succ fun b => ?_
  obtain ⟨j, k, rfl, hj, hk⟩ := exists_grid f b
  have hsucc : (j = 0 ∨ 2 ^ f.fbits ≤ k + 1) := hj.imp_right (fun h => by omega)
  rw [mag_grid hj hk.le, Nat.add_assoc, mag_grid hsucc hk]
  refine mul_lt_mul_of_pos_right ?_ (zpow_two_pos _)
  push_cast
  linarith

theorem mag_zero (f : Fmt) : mag f 0 = 0 := by simp [mag]

theorem mag_nonneg (f : Fmt) (b : Nat) : 0 ≤ mag f b := by
  rw [← mag_zero f]
  exact (mag_strictMono f).monotone (Nat.zero_le b)

/-! ### Signs -/

/-- A magnitude under a sign. -/
def withSign (n : Bool) (x : ℝ) : ℝ := if n then -x else x

theorem abs_withSign (n : Bool) {x : ℝ} (h : 0 ≤ x) : |withSign n x| = x := by
  cases n
  · exact abs_of_nonneg h
  · exact (abs_neg x).trans (abs_of_nonneg h)

theorem withSign_lt_zero {n : Bool} {x : ℝ} (h : 0 < x) : withSign n x < 0 ↔ n = true := by
  cases n
  · simp [withSign, h.le]
  · simp [withSign, h]

theorem zero_lt_withSign {n : Bool} {x : ℝ} (h : 0 < x) : 0 < withSign n x ↔ n = false := by
  cases n
  · simp [withSign, h]
  · simp [withSign, h.le]

/-- Numbers of one sign are as far apart as their magnitudes, and numbers of two signs as far as their sum. -/
theorem withSign_withSign (n : Bool) (x : ℝ) : withSign n (withSign n x) = x := by cases n <;> simp [withSign]

theorem withSign_ne {s n : Bool} (h : s ≠ n) (x : ℝ) : withSign n (withSign s x) = -x := by
  cases s <;> cases n <;> simp [withSign] at h ⊢

theorem withSign_zero (n : Bool) : withSign n 0 = 0 := by cases n <;> simp [withSign]

theorem dist_withSign {s n : Bool} {x A : ℝ} (hx : 0 ≤ x) (hA : 0 ≤ A) :
    |withSign s x - withSign n A| = if s = n then |x - A| else x + A := by
  cases s <;> cases n <;> simp only [withSign, Bool.false_eq_true, if_false, if_true, reduceCtorEq]
  · rw [sub_neg_eq_add, abs_of_nonneg (by linarith)]
  · rw [← neg_add', abs_neg, abs_of_nonneg (by linarith)]
  · rw [neg_sub_neg, abs_sub_comm]

theorem valR_fin (n : Bool) (m : Nat) (e : Int) : valR (.fin n m e) = withSign n ((m : ℝ) * 2 ^ e) := by
  cases n <;> simp [valR, valQ, withSign]

/-! ### Bits -/

theorem signBit_eq (f : Fmt) : f.signBit = 2 ^ f.ebits * 2 ^ f.fbits := Nat.pow_add ..

theorem width_sub_one (f : Fmt) : 2 ^ (f.width - 1) = f.signBit := by
  rw [Fmt.width, Fmt.signBit, Nat.add_assoc, Nat.add_sub_cancel_left]

theorem sign_eq (f : Fmt) (n : Bool) : f.sign n = n.toNat * f.signBit := by cases n <;> simp [Fmt.sign]

theorem width_eq (f : Fmt) : 2 ^ f.width = 2 * f.signBit := by
  rw [Fmt.width, Fmt.signBit, Nat.add_assoc, Nat.add_comm, Nat.pow_succ, Nat.mul_comm]

/-- Bits of a format are a sign above the exponent and the fraction. -/
theorem exists_bits {f : Fmt} {x : Nat} (h : x < 2 ^ f.width) : ∃ (n : Bool) (b : Nat), b < f.signBit ∧ x = b + f.sign n := by
  rw [width_eq] at h
  have hS : 0 < f.signBit := Nat.two_pow_pos _
  rcases Nat.lt_or_ge x f.signBit with hx | hx
  · exact ⟨false, x, hx, rfl⟩
  · exact ⟨true, x - f.signBit, by omega, by rw [Fmt.sign, if_pos rfl]; omega⟩

section
variable {f : Fmt} {b : Nat} (hb : b < f.signBit) (n : Bool)
include hb

theorem bits_sign : (b + f.sign n) / f.signBit = n.toNat := by
  have hS : 0 < f.signBit := Nat.two_pow_pos _
  rw [sign_eq, Nat.add_mul_div_right _ _ hS, Nat.div_eq_of_lt hb, Nat.zero_add]

omit hb in
theorem bits_fraction : (b + f.sign n) % 2 ^ f.fbits = b % 2 ^ f.fbits := by
  rw [sign_eq, signBit_eq, ← Nat.mul_assoc, Nat.add_mul_mod_self_right]

theorem bits_exponent : (b + f.sign n) / 2 ^ f.fbits % 2 ^ f.ebits = b / 2 ^ f.fbits := by
  have hP := Nat.two_pow_pos f.fbits
  have hlt : b / 2 ^ f.fbits < 2 ^ f.ebits := (Nat.div_lt_iff_lt_mul hP).mpr (by rwa [← signBit_eq])
  rw [sign_eq, signBit_eq, ← Nat.mul_assoc, Nat.add_mul_div_right _ _ hP, Nat.add_mul_mod_self_right, Nat.mod_eq_of_lt hlt]

end

/-- The finite number that exponent and fraction bits stand for. -/
def finPart (f : Fmt) (n : Bool) (b : Nat) : FVal :=
  if b / 2 ^ f.fbits = 0 then .fin n (b % 2 ^ f.fbits) f.qmin
  else .fin n (b % 2 ^ f.fbits + 2 ^ f.fbits) (f.qmin + (((b / 2 ^ f.fbits : Nat) : Int) - 1))

theorem finPart_eq (f : Fmt) (n : Bool) (b : Nat) : ∃ m e, finPart f n b = .fin n m e ∧ (m : ℝ) * 2 ^ e = mag f b := by
  have hmod := Nat.div_add_mod' b (2 ^ f.fbits)
  unfold finPart
  split
  next h =>
    refine ⟨_, _, rfl, ?_⟩
    rw [mag, h]
    rw [h] at hmod
    simp only [Nat.zero_mul, Nat.zero_add] at hmod
    simp [hmod]
  next h =>
    refine ⟨_, _, rfl, ?_⟩
    have hpos : 1 ≤ b / 2 ^ f.fbits := Nat.pos_of_ne_zero h
    have hsig : b - (b / 2 ^ f.fbits - 1) * 2 ^ f.fbits = b % 2 ^ f.fbits + 2 ^ f.fbits := by
      have hle : 2 ^ f.fbits ≤ b / 2 ^ f.fbits * 2 ^ f.fbits := Nat.le_mul_of_pos_left _ hpos
      rw [Nat.sub_mul, Nat.one_mul]
      generalize b / 2 ^ f.fbits * 2 ^ f.fbits = t at *
      generalize 2 ^ f.fbits = P at *
      omega
    rw [mag, hsig, Nat.cast_sub hpos]
    push_cast
    rfl

theorem read_bits {f : Fmt} {b : Nat} (hb : b < f.signBit) (n : Bool) :
    f.read (b + f.sign n) = match f.kind with
      | .ieee =>
        if b / 2 ^ f.fbits = 2 ^ f.ebits - 1 then
          if b % 2 ^ f.fbits = 0 then .inf n else .nan (decide (b % 2 ^ f.fbits < 2 ^ (f.fbits - 1)))
        else finPart f n b
      | .e4m3 =>
        if b / 2 ^ f.fbits = 2 ^ f.ebits - 1 ∧ b % 2 ^ f.fbits = 2 ^ f.fbits - 1 then .nan false else finPart f n b
      | .e2m1 => finPart f n b := by
  have hneg : decide ((b + f.sign n) / f.signBit % 2 = 1) = n := by rw [bits_sign hb]; cases n <;> rfl
  unfold Fmt.read
  simp only [hneg, bits_fraction, bits_exponent hb]
  rfl

/-- The largest finite number has bits below the sign. -/
theorem maxBits_lt (f : Fmt) : f.maxBits < f.signBit := by
  have hE := Nat.two_pow_pos f.ebits
  have hP := Nat.two_pow_pos f.fbits
  have hS : 0 < f.signBit := Nat.two_pow_pos _
  unfold Fmt.maxBits
  split
  · have : (2 ^ f.ebits - 1) * 2 ^ f.fbits < 2 ^ f.ebits * 2 ^ f.fbits := Nat.mul_lt_mul_of_pos_right (by omega) hP
    rw [signBit_eq]
    omega
  · change f.signBit - 2 < f.signBit
    omega
  · change f.signBit - 1 < f.signBit
    omega

section
variable {f : Fmt} (hE : 1 ≤ f.ebits) (n : Bool) {b : Nat}
include hE

/-- Bits up to the largest finite number's stand for numbers. -/
theorem read_finite (hb : b ≤ f.maxBits) : f.read (b + f.sign n) = finPart f n b := by
  rw [read_bits (lt_of_le_of_lt hb (maxBits_lt f))]
  have hP := Nat.two_pow_pos f.fbits
  have hE2 : 2 ≤ 2 ^ f.ebits := Nat.le_self_pow (by omega) 2
  have hmod := Nat.div_add_mod' b (2 ^ f.fbits)
  have hpow : 2 ^ (f.ebits + f.fbits) = 2 ^ f.ebits * 2 ^ f.fbits := Nat.pow_add ..
  unfold Fmt.maxBits at hb
  split
  next hk =>
    refine if_neg fun he => ?_
    rw [hk] at hb
    dsimp only at hb
    have : 0 < (2 ^ f.ebits - 1) * 2 ^ f.fbits := Nat.mul_pos (by omega) hP
    rw [he] at hmod
    omega
  next hk =>
    refine if_neg fun ⟨he, hfr⟩ => ?_
    rw [hk] at hb
    dsimp only at hb
    rw [he, hfr, Nat.sub_mul, Nat.one_mul] at hmod
    have : 1 * 2 ^ f.fbits ≤ 2 ^ f.ebits * 2 ^ f.fbits := Nat.mul_le_mul_right _ (by omega)
    have : 2 * 2 ^ f.fbits ≤ 2 ^ f.ebits * 2 ^ f.fbits := Nat.mul_le_mul_right _ hE2
    omega
  next => rfl

/-- Bits past them stand for none. -/
theorem read_not_finite (hlt : b < f.signBit) (hb : f.maxBits < b) : ¬ finite (f.read (b + f.sign n)) := by
  rw [read_bits hlt]
  have hP := Nat.two_pow_pos f.fbits
  have hE2 : 2 ≤ 2 ^ f.ebits := Nat.le_self_pow (by omega) 2
  have hmod := Nat.div_add_mod' b (2 ^ f.fbits)
  have hmodlt := Nat.mod_lt b hP
  have hdiv : b / 2 ^ f.fbits < 2 ^ f.ebits := (Nat.div_lt_iff_lt_mul hP).mpr (by rwa [← signBit_eq])
  have hpow : 2 ^ (f.ebits + f.fbits) = 2 ^ f.ebits * 2 ^ f.fbits := Nat.pow_add ..
  rw [signBit_eq] at hlt
  unfold Fmt.maxBits at hb
  split
  next hk =>
    rw [hk] at hb
    dsimp only at hb
    have he : b / 2 ^ f.fbits = 2 ^ f.ebits - 1 := by
      have : 2 ^ f.ebits - 1 ≤ b / 2 ^ f.fbits := (Nat.le_div_iff_mul_le hP).mpr (by omega)
      omega
    rw [if_pos he]
    rintro ⟨s, m, e, h⟩
    split at h <;> cases h
  next hk =>
    rw [hk] at hb
    dsimp only at hb
    have hb1 : b = 2 ^ f.ebits * 2 ^ f.fbits - 1 := by omega
    have he : b / 2 ^ f.fbits = 2 ^ f.ebits - 1 := by
      have : 2 ^ f.ebits - 1 ≤ b / 2 ^ f.fbits := by
        refine (Nat.le_div_iff_mul_le hP).mpr ?_
        rw [Nat.sub_mul, Nat.one_mul]
        omega
      omega
    have hfr : b % 2 ^ f.fbits = 2 ^ f.fbits - 1 := by
      rw [he, Nat.sub_mul, Nat.one_mul] at hmod
      have : 1 * 2 ^ f.fbits ≤ 2 ^ f.ebits * 2 ^ f.fbits := Nat.mul_le_mul_right _ (by omega)
      omega
    rw [if_pos ⟨he, hfr⟩]
    rintro ⟨s, m, e, h⟩
    cases h
  next hk =>
    rw [hk] at hb
    dsimp only at hb
    omega

theorem finite_read (hb : b ≤ f.maxBits) : finite (f.read (b + f.sign n)) := by
  obtain ⟨m, e, h, -⟩ := finPart_eq f n b
  exact ⟨n, m, e, (read_finite hE n hb).trans h⟩

theorem valR_read (hb : b ≤ f.maxBits) : valR (f.read (b + f.sign n)) = withSign n (mag f b) := by
  obtain ⟨m, e, h, hm⟩ := finPart_eq f n b
  rw [read_finite hE n hb, h, valR_fin, hm]

omit n in
/-- A number of a format has a sign and bits up to the largest finite number's. -/
theorem exists_of_num {x : Nat} (hx : x < 2 ^ f.width) (h : finite (f.read x)) :
    ∃ (s : Bool) (c : Nat), c ≤ f.maxBits ∧ x = c + f.sign s ∧ valR (f.read x) = withSign s (mag f c) := by
  obtain ⟨s, c, hc, rfl⟩ := exists_bits hx
  have hmax : c ≤ f.maxBits := not_lt.mp fun hlt => read_not_finite hE s hc hlt h
  exact ⟨s, c, hmax, rfl, valR_read hE s hmax⟩

end

theorem bits_lt_width {f : Fmt} {b : Nat} (hb : b < f.signBit) (n : Bool) : b + f.sign n < 2 ^ f.width := by
  rw [width_eq]
  cases n
  · rw [Fmt.sign, if_neg Bool.false_ne_true]
    omega
  · rw [Fmt.sign, if_pos rfl]
    omega

theorem signBit_le_bits {f : Fmt} {b : Nat} (hb : b < f.signBit) (n : Bool) : f.signBit ≤ b + f.sign n ↔ n = true := by
  cases n
  · simpa [Fmt.sign] using hb
  · simp [Fmt.sign]

/-! ### The seven formats -/

/-- What the seven formats of R73 have in common, with their largest finite number and its unit. -/
structure Standard (f : Fmt) : Prop where
  /-- An exponent. -/
  ebits : 1 ≤ f.ebits
  /-- A fraction. -/
  fbits : 1 ≤ f.fbits
  /-- The largest finite number is normal. -/
  normal : 2 ^ f.fbits ≤ f.maxBits
  /-- Only e4m3 and e2m1 have no infinity (R74). -/
  narrow : f.kind ≠ .ieee → f = e4m3 ∨ f = e2m1
  /-- The largest finite number and its unit. -/
  greatest : greatest f = (mag f f.maxBits, mag f (f.maxBits + 1) - mag f f.maxBits)

/-- The largest finite number and its unit from the number's place in the grid. -/
theorem greatest_of_grid {f : Fmt} {j k : Nat} (hmax : f.maxBits = j * 2 ^ f.fbits + k) (hk : 2 ^ f.fbits ≤ k)
    (hlt : k < 2 ^ (f.fbits + 1)) (h : greatest f = ((k : ℝ) * 2 ^ (f.qmin + (j : Int)), 2 ^ (f.qmin + (j : Int)))) :
    greatest f = (mag f f.maxBits, mag f (f.maxBits + 1) - mag f f.maxBits) := by
  rw [h, hmax, Nat.add_assoc, mag_grid (.inr hk) hlt.le, mag_grid (.inr (by omega)) hlt]
  push_cast
  congr 1
  ring

theorem standard_f64 : Standard f64 := by
  refine ⟨by decide, by decide, by decide, fun h => absurd rfl h,
    greatest_of_grid (j := 2045) (k := 2 ^ 53 - 1) (by decide) (by decide) (by decide) ?_⟩
  rw [greatest, if_pos rfl, show f64.qmin + ((2045 : Nat) : Int) = 971 by decide,
    show ((2 : ℝ) ^ (1023 : Int)) = 2 ^ 52 * 2 ^ (971 : Int) by rw [← zpow_natCast, ← zpow_add₀ two_ne_zero]; norm_num]
  congr 1
  rw [← mul_assoc]
  norm_num

theorem standard_f32 : Standard f32 := by
  refine ⟨by decide, by decide, by decide, fun h => absurd rfl h,
    greatest_of_grid (j := 253) (k := 2 ^ 24 - 1) (by decide) (by decide) (by decide) ?_⟩
  rw [greatest, if_neg (by decide), if_pos rfl, show f32.qmin + ((253 : Nat) : Int) = 104 by decide]
  norm_num

theorem standard_f16 : Standard f16 := by
  refine ⟨by decide, by decide, by decide, fun h => absurd rfl h,
    greatest_of_grid (j := 29) (k := 2047) (by decide) (by decide) (by decide) ?_⟩
  rw [greatest, if_neg (by decide), if_neg (by decide), if_pos rfl, show f16.qmin + ((29 : Nat) : Int) = 5 by decide]
  norm_num

theorem standard_bf16 : Standard bf16 := by
  refine ⟨by decide, by decide, by decide, fun h => absurd rfl h,
    greatest_of_grid (j := 253) (k := 255) (by decide) (by decide) (by decide) ?_⟩
  rw [greatest, if_neg (by decide), if_neg (by decide), if_neg (by decide), if_pos rfl,
    show bf16.qmin + ((253 : Nat) : Int) = 120 by decide]
  norm_num

theorem standard_e4m3 : Standard e4m3 := by
  refine ⟨by decide, by decide, by decide, fun _ => .inl rfl,
    greatest_of_grid (j := 14) (k := 14) (by decide) (by decide) (by decide) ?_⟩
  rw [greatest, if_neg (by decide), if_neg (by decide), if_neg (by decide), if_neg (by decide), if_pos rfl,
    show e4m3.qmin + ((14 : Nat) : Int) = 5 by decide]
  norm_num

theorem standard_e5m2 : Standard e5m2 := by
  refine ⟨by decide, by decide, by decide, fun h => absurd rfl h,
    greatest_of_grid (j := 29) (k := 7) (by decide) (by decide) (by decide) ?_⟩
  rw [greatest, if_neg (by decide), if_neg (by decide), if_neg (by decide), if_neg (by decide), if_neg (by decide), if_pos rfl,
    show e5m2.qmin + ((29 : Nat) : Int) = 13 by decide]
  norm_num

theorem standard_e2m1 : Standard e2m1 := by
  refine ⟨by decide, by decide, by decide, fun _ => .inr rfl,
    greatest_of_grid (j := 2) (k := 3) (by decide) (by decide) (by decide) ?_⟩
  rw [greatest, if_neg (by decide), if_neg (by decide), if_neg (by decide), if_neg (by decide), if_neg (by decide),
    if_neg (by decide), show e2m1.qmin + ((2 : Nat) : Int) = 1 by decide]
  norm_num

theorem standard_of_mem {f : Fmt} (h : f ∈ [f64, f32, f16, bf16, e4m3, e5m2, e2m1]) : Standard f := by
  simp only [List.mem_cons, List.not_mem_nil, or_false] at h
  rcases h with rfl | rfl | rfl | rfl | rfl | rfl | rfl
  · exact standard_f64
  · exact standard_f32
  · exact standard_f16
  · exact standard_bf16
  · exact standard_e4m3
  · exact standard_e5m2
  · exact standard_e2m1

end Sys2Proof.Proofs.Formats
end

section
/-! SUPPORT. The one rounding of a format delivers the number that R79 names, with its flags, at every exact magnitude (R59, R76, R79). -/

namespace Sys2Proof.Proofs.RoundOnce

open Sys2Proof Sys2Proof.Machine Sys2Proof.Claims Sys2Proof.Proofs.Rounding Sys2Proof.Proofs.Formats

section
variable {f : Fmt} {mode : Nat} {n : Bool} {A : ℝ} {b : Nat}

/-! ### A rounded point of the grid is the number R59 names -/

theorem bits_even (hf : Standard f) (b : Nat) (n : Bool) : (b + f.sign n) % 2 = b % 2 := by
  have hF := hf.fbits
  have hS : f.signBit % 2 = 0 := by
    rw [Fmt.signBit, show f.ebits + f.fbits = (f.ebits + f.fbits - 1) + 1 by omega, Nat.pow_succ]
    omega
  cases n
  · rfl
  · rw [Fmt.sign, if_pos rfl]
    omega

/-- No number of the format above a magnitude is nearer to it than the least point of the grid above. -/
theorem least_above (hf : Standard f) (hA : 0 < A) (h : A ≤ mag f b ∧ ∀ c, A ≤ mag f c → b ≤ c) {x : Nat} (hx : x < 2 ^ f.width)
    (hfin : finite (f.read x)) (hxA : A ≤ withSign n (valR (f.read x))) : mag f b ≤ withSign n (valR (f.read x)) := by
  obtain ⟨s, c, -, -, hwx⟩ := exists_of_num hf.ebits hx hfin
  have hc0 := mag_nonneg f c
  rw [hwx] at hxA ⊢
  by_cases hs : s = n
  · rw [hs, withSign_withSign] at hxA ⊢
    exact (mag_strictMono f).monotone (h.2 c hxA)
  · rw [withSign_ne hs] at hxA
    linarith

/-- No number of the format below a magnitude is nearer to it than the greatest point of the grid below. -/
theorem greatest_below (hf : Standard f) (h : mag f b ≤ A ∧ ∀ c, mag f c ≤ A → c ≤ b) {x : Nat} (hx : x < 2 ^ f.width)
    (hfin : finite (f.read x)) (hxA : withSign n (valR (f.read x)) ≤ A) : withSign n (valR (f.read x)) ≤ mag f b := by
  obtain ⟨s, c, -, -, hwx⟩ := exists_of_num hf.ebits hx hfin
  have hc0 := mag_nonneg f c
  have hb0 := mag_nonneg f b
  rw [hwx] at hxA ⊢
  by_cases hs : s = n
  · rw [hs, withSign_withSign] at hxA ⊢
    exact (mag_strictMono f).monotone (h.2 c hxA)
  · rw [withSign_ne hs]
    linarith

/-- How far a number of the format lies, of either sign. -/
theorem dist_signed (s : Bool) (c : Nat) (hA : 0 < A) : |mag f c - A| ≤ |withSign s (mag f c) - withSign n A| ∧
    (|withSign s (mag f c) - withSign n A| = |mag f c - A| → s ≠ n → mag f c = 0) := by
  have hc0 := mag_nonneg f c
  rw [dist_withSign hc0 hA.le]
  split
  next hs => exact ⟨le_rfl, fun _ hne => absurd hs hne⟩
  next =>
    refine ⟨abs_le.mpr ⟨by linarith, by linarith⟩, fun heq _ => ?_⟩
    rcases abs_cases (mag f c - A) with ⟨h, -⟩ | ⟨h, -⟩ <;> linarith

theorem roundsTo_of_grid (hf : Standard f) (hA : 0 < A) (hb : b ≤ f.maxBits) (h : GridRounds (mag f) mode n A b) :
    RoundsTo f mode (withSign n A) (b + f.sign n) := by
  have hlt := lt_of_le_of_lt hb (maxBits_lt f)
  have hw := valR_read hf.ebits n hb
  have hmono := mag_strictMono f
  have hb0 := mag_nonneg f b
  have hself : |withSign n (mag f b) - withSign n A| = |mag f b - A| := by rw [dist_withSign hb0 hA.le, if_pos rfl]
  unfold RoundsTo
  dsimp only
  rw [hw]
  refine ⟨⟨bits_lt_width hlt n, finite_read hf.ebits n hb⟩, ?_, ?_, ?_, ?_, ?_, ?_⟩
  · rw [width_sub_one, withSign_lt_zero hA, signBit_le_bits hlt]
  · rintro rfl x ⟨hx, hfin⟩
    obtain ⟨s, c, hc, rfl, hwx⟩ := exists_of_num hf.ebits hx hfin
    obtain ⟨hnear, htie⟩ := h c
    obtain ⟨hd, hz⟩ := dist_signed (f := f) (n := n) s c hA
    rw [hwx, hself, bits_even hf]
    refine ⟨hnear.trans hd, fun heq hne => htie (le_antisymm hnear (heq ▸ hd)) fun hcb => ?_⟩
    subst hcb
    refine hne ?_
    by_cases hs : s = n
    · rw [hs]
    · rw [hz heq.symm hs, withSign_zero, withSign_zero]
  · rintro rfl
    obtain ⟨hle, hmost⟩ : mag f b ≤ A ∧ ∀ c, mag f c ≤ A → c ≤ b := h
    rw [abs_withSign n hb0, abs_withSign n hA.le]
    refine ⟨hle, ?_⟩
    rintro x ⟨hx, hfin⟩ hxA
    obtain ⟨s, c, hc, rfl, hwx⟩ := exists_of_num hf.ebits hx hfin
    rw [hwx, abs_withSign s (mag_nonneg f c)] at hxA ⊢
    exact hmono.monotone (hmost c hxA)
  · rintro rfl
    cases n with
    | false => exact ⟨h.1, fun x hx hxA => least_above (n := false) hf hA h hx.1 hx.2 hxA⟩
    | true => exact ⟨neg_le_neg h.1, fun x hx hxA => neg_le.mp (greatest_below (n := true) hf h hx.1 hx.2 (neg_le.mp hxA))⟩
  · rintro rfl
    cases n with
    | false => exact ⟨h.1, fun x hx hxA => greatest_below (n := false) hf h hx.1 hx.2 hxA⟩
    | true => exact ⟨neg_le_neg h.1, fun x hx hxA => le_neg.mp (least_above (n := true) hf hA h hx.1 hx.2 (le_neg.mp hxA))⟩
  · rintro rfl x ⟨hx, hfin⟩
    obtain ⟨s, c, hc, rfl, hwx⟩ := exists_of_num hf.ebits hx hfin
    obtain ⟨hnear, htie⟩ := h c
    obtain ⟨hd, -⟩ := dist_signed (f := f) (n := n) s c hA
    rw [hwx, hself, abs_withSign s (mag_nonneg f c), abs_withSign n hb0]
    exact ⟨hnear.trans hd, fun heq => hmono.monotone (htie (le_antisymm hnear (heq ▸ hd)))⟩

/-! ### Overflow -/

/-- The rounded magnitude lies past the largest finite number: in the nearest modes where the magnitude reaches half a unit past it. -/
def PastMax (f : Fmt) (mode : Nat) (A : ℝ) (b : Nat) : Prop :=
  if mode = 0 ∨ mode = 4 then (mag f f.maxBits + mag f (f.maxBits + 1)) / 2 ≤ A else f.maxBits < b

theorem mag_unit_pos (f : Fmt) (b : Nat) : mag f b < mag f (b + 1) := mag_strictMono f (Nat.lt_succ_self b)

/-- A nearest point of a magnitude below the overflow threshold is finite. -/
theorem le_maxBits_of_nearest (hnear : |mag f b - A| ≤ |mag f f.maxBits - A|)
    (hA : A < (mag f f.maxBits + mag f (f.maxBits + 1)) / 2) : b ≤ f.maxBits := by
  by_contra hlt
  have hgt : mag f (f.maxBits + 1) ≤ mag f b := (mag_strictMono f).monotone (not_le.mp hlt)
  have hunit := mag_unit_pos f f.maxBits
  have hbA := le_abs_self (mag f b - A)
  rcases abs_cases (mag f f.maxBits - A) with ⟨h, -⟩ | ⟨h, -⟩ <;> linarith

theorem le_maxBits_of_not_past (hmode : mode ≤ 4) (h : GridRounds (mag f) mode n A b) (hpast : ¬ PastMax f mode A b) :
    b ≤ f.maxBits := by
  unfold PastMax at hpast
  split at hpast
  next hm =>
    rcases hm with rfl | rfl
    · exact le_maxBits_of_nearest (h f.maxBits).1 (not_le.mp hpast)
    · exact le_maxBits_of_nearest (h f.maxBits).1 (not_le.mp hpast)
  next => exact not_lt.mp hpast

theorem pastMax_iff_overflows (hf : Standard f) (hmode : mode ≤ 4) (hA : 0 < A) (h : GridRounds (mag f) mode n A b) :
    PastMax f mode A b ↔ Overflows f mode (withSign n A) := by
  have hmono := mag_strictMono f
  have haway (h : A ≤ mag f b ∧ ∀ c, A ≤ mag f c → b ≤ c) : f.maxBits < b ↔ mag f f.maxBits < A := by
    obtain ⟨hle, hleast⟩ := h
    exact ⟨fun hlt => not_le.mp fun hle' => absurd (hleast _ hle') (not_le.mpr hlt),
      fun hlt => hmono.lt_iff_lt.mp (lt_of_lt_of_le hlt hle)⟩
  have htoward (h : mag f b ≤ A ∧ ∀ c, mag f c ≤ A → c ≤ b) :
      f.maxBits < b ↔ mag f f.maxBits + (mag f (f.maxBits + 1) - mag f f.maxBits) ≤ A := by
    obtain ⟨hle, hmost⟩ := h
    rw [add_sub_cancel]
    exact ⟨fun hlt => (hmono.monotone (Nat.succ_le_of_lt hlt)).trans hle, fun hle' => Nat.lt_of_succ_le (hmost _ hle')⟩
  unfold PastMax Overflows
  rw [hf.greatest]
  simp only [abs_withSign n hA.le, zero_lt_withSign hA, withSign_lt_zero hA]
  have hmodes : mode = 0 ∨ mode = 1 ∨ mode = 2 ∨ mode = 3 ∨ mode = 4 := by omega
  rcases hmodes with rfl | rfl | rfl | rfl | rfl
  · rw [if_pos (.inl rfl), if_pos (.inl rfl)]
    constructor <;> intro h <;> linarith
  · simpa using htoward h
  · cases n
    · simpa using haway h
    · simpa using htoward h
  · cases n
    · simpa using htoward h
    · simpa using haway h
  · rw [if_pos (.inr rfl), if_pos (.inr rfl)]
    constructor <;> intro h <;> linarith

/-- The largest finite number delivered, of a sign. -/
theorem top_of_sign (hf : Standard f) (hA : 0 < A) :
    f.maxBits + f.sign n < 2 ^ f.width ∧ finite (f.read (f.maxBits + f.sign n)) ∧
      valR (f.read (f.maxBits + f.sign n)) = (if withSign n A < 0 then -1 else 1) * (greatest f).1 := by
  refine ⟨bits_lt_width (maxBits_lt f) n, finite_read hf.ebits n le_rfl, ?_⟩
  rw [valR_read hf.ebits n le_rfl, hf.greatest]
  simp only [withSign_lt_zero hA]
  cases n <;> simp [withSign]

/-- What an overflow delivers (R79). -/
theorem overflow_delivers (hf : Standard f) {r : Rnd} (hnarrow : f = e4m3 ∨ f = e2m1 → r.conv = true ∧ r.sat = true)
    (hA : 0 < A) :
    let v := withSign n A
    let d := f.overflow r n
    let top : Prop := d.1 < 2 ^ f.width ∧ finite (f.read d.1) ∧ valR (f.read d.1) = (if v < 0 then -1 else 1) * (greatest f).1
    if r.conv = true ∧ r.sat = true then top ∧ d.2 = fSAT ||| fNX
    else d.2 = fOF ||| fNX ∧
      if r.sat = true ∨ r.mode = 1 ∨ r.mode = 2 ∧ v < 0 ∨ r.mode = 3 ∧ 0 < v then top
      else d.1 = (2 ^ f.ebits - 1) * 2 ^ f.fbits + (if v < 0 then 2 ^ (f.width - 1) else 0) := by
  intro v d top
  have htop := top_of_sign (n := n) hf hA
  by_cases hsat : r.conv = true ∧ r.sat = true
  · have hd : d = (f.maxBits + f.sign n, fSAT ||| fNX) := if_pos (.inr hsat)
    rw [if_pos hsat]
    simp only [top, v, hd]
    exact ⟨htop, trivial⟩
  · have hieee : ¬ (f.kind ≠ .ieee ∨ (r.conv = true ∧ r.sat = true)) := by
      rintro (h | h)
      · exact hsat (hnarrow (hf.narrow h))
      · exact hsat h
    have hd : d = (if r.sat || r.mode == 1 || (r.mode == 2 && n) || (r.mode == 3 && !n) then f.maxBits + f.sign n
        else f.inf n, fOF ||| fNX) := if_neg hieee
    rw [if_neg hsat]
    simp only [top, v, hd, zero_lt_withSign hA, withSign_lt_zero hA]
    refine ⟨trivial, ?_⟩
    have hcond : (r.sat || r.mode == 1 || (r.mode == 2 && n) || (r.mode == 3 && !n)) = true ↔
        (r.sat = true ∨ r.mode = 1 ∨ r.mode = 2 ∧ n = true ∨ r.mode = 3 ∧ n = false) := by
      simp [or_assoc]
    by_cases hc : r.sat = true ∨ r.mode = 1 ∨ r.mode = 2 ∧ n = true ∨ r.mode = 3 ∧ n = false
    · rw [if_pos hc, if_pos (hcond.mpr hc)]
      simp only [withSign_lt_zero hA] at htop
      exact htop
    · rw [if_neg hc, if_neg (fun h => hc (hcond.mp h)), Fmt.inf, width_sub_one]

/-! ### The rounding itself -/

theorem bitLen_bounds {m : Nat} (hm : m ≠ 0) : 2 ^ (bitLen m - 1) ≤ m ∧ m + 1 ≤ 2 ^ bitLen m ∧ 1 ≤ bitLen m := by
  rw [bitLen, if_neg hm, Nat.add_sub_cancel]
  exact ⟨Nat.log2_self_le hm, Nat.lt_log2_self, by omega⟩

/-- The top bit of a magnitude. -/
theorem top_bounds {K : Type} [Field K] [LinearOrder K] [IsStrictOrderedRing K] {m : Nat} {e : Int} {sticky : Bool} {A : K}
    (hm : m ≠ 0) (hA : Magnitude m e sticky A) : (2 : K) ^ (e + bitLen m - 1) ≤ A ∧ A < 2 ^ (e + bitLen m - 1 + 1) := by
  obtain ⟨hlo, hhi, hlen⟩ := bitLen_bounds hm
  have hpos := zpow_two_pos (K := K) e
  have hloK : (2 : K) ^ (bitLen m - 1) ≤ m := by exact_mod_cast hlo
  have hhiK : (m : K) + 1 ≤ 2 ^ bitLen m := by exact_mod_cast hhi
  constructor
  · refine le_trans ?_ hA.lower
    rw [show e + bitLen m - 1 = ((bitLen m - 1 : Nat) : Int) + e by omega, zpow_add₀ two_ne_zero, zpow_natCast]
    exact mul_le_mul_of_nonneg_right hloK hpos.le
  · refine lt_of_lt_of_le hA.upper ?_
    rw [show e + bitLen m - 1 + 1 = (bitLen m : Int) + e by omega, zpow_add₀ two_ne_zero, zpow_natCast]
    exact mul_le_mul_of_nonneg_right hhiK hpos.le

/-- The units that a magnitude is rounded to: its own last place, or that of the subnormals. -/
theorem units_bounds {top q : Int} {a : Nat} (hq : q = max (top - f.fbits) f.qmin) (hlo : (2 : ℝ) ^ top ≤ A)
    (hhi : A < 2 ^ (top + 1)) (h0 : (a : ℝ) * 2 ^ q ≤ A) (h1 : A < ((a : ℝ) + 1) * 2 ^ q) :
    a < 2 ^ (f.fbits + 1) ∧ (q = f.qmin ∨ 2 ^ f.fbits ≤ a) := by
  have hpos := zpow_two_pos (K := ℝ) q
  have hsplit (i : Nat) : (2 : ℝ) ^ (i + q) = ((2 ^ i : Nat) : ℝ) * 2 ^ q := by
    rw [zpow_add₀ two_ne_zero, zpow_natCast]
    push_cast
    rfl
  constructor
  · have hle : (2 : ℝ) ^ (top + 1) ≤ 2 ^ (((f.fbits + 1 : Nat) : Int) + q) := zpow_le_zpow_right₀ one_le_two (by omega)
    rw [hsplit] at hle
    have := lt_of_mul_lt_mul_right (lt_of_le_of_lt h0 (lt_of_lt_of_le hhi hle)) hpos.le
    exact_mod_cast this
  · by_cases hqmin : q = f.qmin
    · exact .inl hqmin
    · right
      have hle : (2 : ℝ) ^ ((f.fbits : Int) + q) ≤ 2 ^ top := zpow_le_zpow_right₀ one_le_two (by omega)
      rw [hsplit] at hle
      have := lt_of_mul_lt_mul_right (lt_of_le_of_lt (hle.trans hlo) h1) hpos.le
      have : 2 ^ f.fbits < a + 1 := by exact_mod_cast this
      omega

/-- The bits of a rounded number of units. -/
theorem code_eq {j k : Nat} {q : Int} (hq : q = f.qmin + (j : Int)) (hj : j = 0 ∨ 2 ^ f.fbits ≤ k) (hk : k ≤ 2 ^ (f.fbits + 1)) :
    (if 2 ^ (f.fbits + 1) ≤ k then (q - f.qmin + 1).toNat * 2 ^ f.fbits + k / 2
      else if k < 2 ^ f.fbits then k
      else (q - f.qmin).toNat * 2 ^ f.fbits + k) = j * 2 ^ f.fbits + k := by
  have h1 : (q - f.qmin + 1).toNat = j + 1 := by omega
  have h2 : (q - f.qmin).toNat = j := by omega
  rw [Nat.pow_succ] at hk ⊢
  rw [h1, h2, Nat.succ_mul]
  split
  · omega
  · split
    next hlt =>
      have : j = 0 := by omega
      rw [this]
      omega
    next => rfl

/-- The place of the largest finite number in the grid. -/
theorem mag_maxBits (hf : Standard f) :
    let maxSig := f.maxBits % 2 ^ f.fbits + 2 ^ f.fbits
    let maxQ := f.qmin + (f.maxBits / 2 ^ f.fbits : Nat) - 1
    mag f f.maxBits = maxSig * 2 ^ maxQ ∧ mag f (f.maxBits + 1) = ((maxSig : ℝ) + 1) * 2 ^ maxQ ∧ maxSig < 2 ^ (f.fbits + 1) := by
  intro maxSig maxQ
  have hP := Nat.two_pow_pos f.fbits
  have hmod := Nat.div_add_mod' f.maxBits (2 ^ f.fbits)
  have hmodlt := Nat.mod_lt f.maxBits hP
  have hpos : 1 ≤ f.maxBits / 2 ^ f.fbits := (Nat.one_le_div_iff hP).mpr hf.normal
  have hmul : f.maxBits / 2 ^ f.fbits * 2 ^ f.fbits = (f.maxBits / 2 ^ f.fbits - 1) * 2 ^ f.fbits + 2 ^ f.fbits := by
    rw [Nat.sub_mul, Nat.one_mul]
    have := Nat.le_mul_of_pos_left (2 ^ f.fbits) hpos
    omega
  have hbits : f.maxBits = (f.maxBits / 2 ^ f.fbits - 1) * 2 ^ f.fbits + maxSig := by
    simp only [maxSig]
    omega
  have hlt : maxSig < 2 ^ (f.fbits + 1) := by
    rw [Nat.pow_succ]
    simp only [maxSig]
    omega
  have hQ : maxQ = f.qmin + ((f.maxBits / 2 ^ f.fbits - 1 : Nat) : Int) := by
    simp only [maxQ]
    omega
  have hle : 2 ^ f.fbits ≤ maxSig := Nat.le_add_left _ _
  rw [hQ]
  refine ⟨?_, ?_, hlt⟩
  · conv_lhs => rw [hbits]
    exact mag_grid (.inr hle) hlt.le
  · conv_lhs => rw [hbits, Nat.add_assoc]
    rw [mag_grid (.inr (by omega)) hlt]
    push_cast
    rfl

/-- The comparison with the overflow threshold takes a sticky magnitude for what it is: the threshold is a whole number of its units, or
lies far below it. -/
theorem magGe_magnitude {m M : Nat} {e g : Int} {sticky : Bool} (hA : Magnitude m e sticky A) (hst : sticky = true → g < e → M ≤ m) :
    magGe m e M g = true ↔ (M : ℝ) * 2 ^ g ≤ A := by
  rw [magGe_iff (K := ℝ)]
  refine ⟨fun h => h.trans hA.lower, fun h => ?_⟩
  have hpos := zpow_two_pos (K := ℝ) e
  cases hs : sticky with
  | false =>
    have hexact : (m : ℝ) * 2 ^ e = A := not_not.mp fun h => by simpa [hs] using hA.more.mpr h
    rw [hexact]
    exact h
  | true =>
    rcases lt_or_ge g e with hlt | hge
    · have hM : (M : ℝ) ≤ m := Nat.cast_le.mpr (hst hs hlt)
      have hge : (2 : ℝ) ^ g ≤ 2 ^ e := zpow_le_zpow_right₀ one_le_two hlt.le
      exact mul_le_mul hM hge (zpow_two_pos g).le (Nat.cast_nonneg m)
    · rw [zpow_two_sub hge, ← mul_assoc] at h ⊢
      have hlt := lt_of_mul_lt_mul_right (lt_of_le_of_lt h hA.upper) hpos.le
      have hN : M * 2 ^ (g - e).toNat < m + 1 := by exact_mod_cast hlt
      refine mul_le_mul_of_nonneg_right ?_ hpos.le
      exact_mod_cast Nat.lt_succ_iff.mp hN

/-- Where the units are the magnitude's last place or the subnormals', rounding to them is rounding to the grid. -/
theorem roundAt_grid (hf : Standard f) (hmode : mode ≤ 4) {m : Nat} {e q top : Int} {sticky : Bool} (hA : Magnitude m e sticky A)
    (hfine : sticky = true → e < q) (hq : q = max (top - f.fbits) f.qmin) (hlo : (2 : ℝ) ^ top ≤ A) (hhi : A < 2 ^ (top + 1)) :
    let p := roundAt mode n m e sticky q
    ∃ j : Nat, q = f.qmin + (j : Int) ∧ (j = 0 ∨ 2 ^ f.fbits ≤ p.1) ∧ p.1 ≤ 2 ^ (f.fbits + 1) ∧
      GridRounds (mag f) mode n A (j * 2 ^ f.fbits + p.1) ∧ mag f (j * 2 ^ f.fbits + p.1) = p.1 * 2 ^ q ∧
      (p.2 = true ↔ mag f (j * 2 ^ f.fbits + p.1) ≠ A) := by
  intro p
  have hF := hf.fbits
  have hqpos := zpow_two_pos (K := ℝ) q
  obtain ⟨a, up, ha0, ha1, hup, hk, hx⟩ := roundAt_spec (mode := mode) (neg := n) hA hfine
  obtain ⟨halt, hnormal⟩ := units_bounds hq hlo hhi ha0 ha1
  obtain ⟨j, hj⟩ : ∃ j : Nat, q = f.qmin + (j : Int) := ⟨(q - f.qmin).toNat, by omega⟩
  have hja : j = 0 ∨ 2 ^ f.fbits ≤ a := hnormal.imp_left fun h => by omega
  have hjsucc : j = 0 ∨ 2 ^ f.fbits ≤ a + 1 := hja.imp_right fun h => by omega
  have hfloor : mag f (j * 2 ^ f.fbits + a) = a * 2 ^ q := by rw [mag_grid hja halt.le, hj]
  have hceil : mag f (j * 2 ^ f.fbits + a + 1) = ((a : ℝ) + 1) * 2 ^ q := by
    rw [Nat.add_assoc, mag_grid hjsucc halt, hj]
    push_cast
    rfl
  have hparity : (j * 2 ^ f.fbits + a) % 2 = a % 2 := by
    have : 2 ^ f.fbits % 2 = 0 := by
      rw [show f.fbits = f.fbits - 1 + 1 by omega, Nat.pow_succ]
      omega
    rw [Nat.add_mod, Nat.mul_mod, this]
    simp
  have hfrac : (A - mag f (j * 2 ^ f.fbits + a)) / (mag f (j * 2 ^ f.fbits + a + 1) - mag f (j * 2 ^ f.fbits + a)) =
      A / 2 ^ q - a := by
    rw [hfloor, hceil]
    field_simp
    ring
  have hgrid := gridRounds_of_floor (neg := n) (up := up) (mag_strictMono f) (hfloor.le.trans ha0)
    (lt_of_lt_of_eq ha1 hceil.symm) hmode (by rw [hfrac, hparity]; exact hup)
  have hzero (h : (a : ℝ) * 2 ^ q = A) : up = false := by
    rw [← Bool.not_eq_true, hup, ← h, mul_div_assoc, div_self hqpos.ne', mul_one, sub_self]
    unfold GoesUp
    split <;> norm_num
  refine ⟨j, hj, ?_⟩
  rw [hk, hx]
  cases up with
  | false => exact ⟨hja, halt.le, hgrid, hfloor, by rw [if_neg Bool.false_ne_true, hfloor]⟩
  | true =>
    refine ⟨hjsucc, halt, hgrid, by rw [if_pos rfl, ← Nat.add_assoc, hceil]; push_cast; rfl, ?_⟩
    rw [if_pos rfl, ← Nat.add_assoc, hceil]
    exact iff_of_true (fun h => absurd (hzero h) (by simp)) ha1.ne'

/-- The comparison that finds an overflow. -/
theorem past_iff (hf : Standard f) {m k j : Nat} {e q : Int} {sticky : Bool} (hA : Magnitude m e sticky A)
    (hst : sticky = true → 2 ^ (f.fbits + 2) ≤ m) (hk : mag f (j * 2 ^ f.fbits + k) = k * 2 ^ q) :
    let maxSig := f.maxBits % 2 ^ f.fbits + 2 ^ f.fbits
    let maxQ := f.qmin + (f.maxBits / 2 ^ f.fbits : Nat) - 1
    (if mode = 0 ∨ mode = 4 then magGe m e (2 * maxSig + 1) (maxQ - 1)
      else magGe k q maxSig maxQ && !(magGe maxSig maxQ k q)) = true ↔ PastMax f mode A (j * 2 ^ f.fbits + k) := by
  intro maxSig maxQ
  obtain ⟨hmax, hmaxSucc, hmaxSig⟩ : mag f f.maxBits = (maxSig : ℝ) * 2 ^ maxQ ∧
    mag f (f.maxBits + 1) = ((maxSig : ℝ) + 1) * 2 ^ maxQ ∧ maxSig < 2 ^ (f.fbits + 1) := mag_maxBits hf
  unfold PastMax
  split
  next =>
    have hfar : sticky = true → maxQ - 1 < e → 2 * maxSig + 1 ≤ m := by
      intro hs _
      have h1 := hst hs
      rw [Nat.pow_succ] at h1
      omega
    have hhalf : (2 : ℝ) ^ maxQ = 2 * 2 ^ (maxQ - 1) := by
      conv_lhs => rw [← sub_add_cancel maxQ 1, zpow_add_one₀ two_ne_zero]
      ring
    rw [magGe_magnitude hA hfar, hmax, hmaxSucc, hhalf]
    push_cast
    constructor <;> intro h <;> linarith
  next =>
    rw [Bool.and_eq_true, Bool.not_eq_true', ← Bool.not_eq_true, magGe_iff (K := ℝ), magGe_iff (K := ℝ), ← hmax, ← hk,
      not_le, ← (mag_strictMono f).lt_iff_lt]
    exact ⟨fun h => h.2, fun h => ⟨h.le, h⟩⟩

end

/-- What the one rounding delivers of a magnitude: the point of the grid that the mode names, unless it lies past the largest finite
number; with NX where it differs, and UF where moreover the magnitude lies below the normal range; and the flush of a subnormal. -/
theorem round_spec {f : Fmt} (hf : Standard f) {r : Rnd} (hmode : r.mode ≤ 4) (n : Bool) {m : Nat} {e : Int} {sticky : Bool} {A : ℝ}
    (hm : m ≠ 0) (hA : Magnitude m e sticky A) (hst : sticky = true → 2 ^ (f.fbits + 2) ≤ m) :
    ∃ b, GridRounds (mag f) r.mode n A b ∧
      (PastMax f r.mode A b → f.round r n m e sticky = f.overflow r n) ∧
      (¬ PastMax f r.mode A b → ∃ w : Word, (mag f b = A → w = 0) ∧
        (mag f b ≠ A → w = if A < 2 ^ (1 - (f.bias : Int)) then fNX ||| fUF else fNX) ∧
        f.round r n m e sticky = if r.ftz && f.subnormal b then (f.sign n, w ||| fUF ||| fNX) else (b + f.sign n, w)) := by
  obtain ⟨hlo, hhi⟩ := top_bounds hm hA
  obtain ⟨-, hmhi, -⟩ := bitLen_bounds hm
  have hfine : sticky = true → e < max (e + bitLen m - 1 - f.fbits) f.qmin := by
    intro hs
    have hlt : f.fbits + 2 < bitLen m :=
      (Nat.pow_lt_pow_iff_right (by norm_num : 1 < 2)).mp (lt_of_le_of_lt (hst hs) (by omega))
    omega
  obtain ⟨j, hj, hkge, hkle, hgrid, hmag, hx⟩ := roundAt_grid (n := n) hf hmode hA hfine rfl hlo hhi
  have hne : ¬ (m = 0 ∧ sticky = false) := fun h => hm h.1
  have hcode := code_eq hj hkge hkle
  have hpast := past_iff (mode := r.mode) hf hA hst hmag
  have htiny : decide (e + bitLen m - 1 < 1 - (f.bias : Int)) = true ↔ A < 2 ^ (1 - (f.bias : Int)) := by
    rw [decide_eq_true_iff]
    exact ⟨fun h => lt_of_lt_of_le hhi (zpow_le_zpow_right₀ one_le_two (by omega)),
      fun h => (zpow_lt_zpow_iff_right₀ one_lt_two).mp (lt_of_le_of_lt hlo h)⟩
  refine ⟨_, hgrid, ?_⟩
  unfold Fmt.round
  rw [if_neg hne]
  dsimp only at hpast ⊢
  generalize roundAt r.mode n m e sticky (max (e + bitLen m - 1 - f.fbits) f.qmin) = p at *
  obtain ⟨k, x⟩ := p
  refine ⟨fun h => if_pos (hpast.mpr h),
    fun h => ⟨flagIf x fNX ||| flagIf (x && decide (e + bitLen m - 1 < 1 - (f.bias : Int))) fUF, fun he => ?_, fun he => ?_, ?_⟩⟩
  · have hxf : x = false := by rw [← Bool.not_eq_true, hx, not_not, he]
    rw [hxf, Bool.false_and]
    rfl
  · rw [show x = true from hx.mpr he, Bool.true_and]
    by_cases ht : A < 2 ^ (1 - (f.bias : Int))
    · rw [htiny.mpr ht, if_pos ht]
      rfl
    · rw [Bool.eq_false_iff.mpr fun h => ht (htiny.mp h), if_neg ht]
      rfl
  · rw [if_neg (fun h' => h (hpast.mp h')), hcode]

/-- The one rounding delivers what R79 names. -/
theorem round_delivered {f : Fmt} (hf : Standard f) {r : Rnd} (hmode : r.mode ≤ 4)
    (hnarrow : f = e4m3 ∨ f = e2m1 → r.conv = true ∧ r.sat = true) (n : Bool) {m : Nat} {e : Int} {sticky : Bool} {A : ℝ}
    (hm : m ≠ 0) (hA : Magnitude m e sticky A) (hst : sticky = true → 2 ^ (f.fbits + 2) ≤ m) :
    Delivered f r (withSign n A) (f.round r n m e sticky) := by
  obtain ⟨b, hgrid, hover, hin⟩ := round_spec hf hmode n hm hA hst
  have hA0 : 0 < A := lt_of_lt_of_le (zpow_two_pos _) (top_bounds hm hA).1
  have hiff := pastMax_iff_overflows hf hmode hA0 hgrid
  have hbias : (2 : Int) - 2 ^ (f.ebits - 1) = 1 - (f.bias : Int) := by
    rw [Fmt.bias, Nat.cast_sub Nat.one_le_two_pow]
    push_cast
    ring
  unfold Delivered
  refine ⟨fun h => ?_, fun h => ?_⟩
  · rw [hover (hiff.mpr h)]
    exact overflow_delivers hf hnarrow hA0
  · have hpast := fun hp => h (hiff.mp hp)
    have hb := le_maxBits_of_not_past hmode hgrid hpast
    have hlt := lt_of_le_of_lt hb (maxBits_lt f)
    obtain ⟨w, hw0, hw1, hround⟩ := hin hpast
    refine ⟨b + f.sign n, roundsTo_of_grid hf hA0 hb hgrid, ?_⟩
    have hsub : f.subnormal (b + f.sign n) = f.subnormal b := by
      have hexp := bits_exponent hlt false
      rw [Fmt.sign, if_neg Bool.false_ne_true, Nat.add_zero] at hexp
      rw [Fmt.subnormal, Fmt.subnormal, bits_exponent hlt, bits_fraction, hexp]
    have hflush : (b + f.sign n) / 2 ^ (f.width - 1) * 2 ^ (f.width - 1) = f.sign n := by
      rw [width_sub_one, bits_sign hlt, sign_eq]
    have hsame : valR (f.read (b + f.sign n)) = withSign n A ↔ mag f b = A := by
      rw [valR_read hf.ebits n hb]
      cases n <;> simp [withSign]
    rw [hsub, hflush, hround, abs_withSign n hA0.le, hbias]
    by_cases hz : r.ftz = true ∧ f.subnormal b = true
    · rw [if_pos hz, if_pos (by rw [hz.1, hz.2]; rfl)]
      by_cases he : mag f b = A
      · rw [hw0 he]
        rfl
      · rw [hw1 he]
        split <;> rfl
    · rw [if_neg hz, if_neg (fun h => hz (Bool.and_eq_true _ _ |>.mp h))]
      refine ⟨rfl, ?_⟩
      by_cases he : mag f b = A
      · rw [if_pos (hsame.mpr he)]
        exact hw0 he
      · rw [if_neg (fun h => he (hsame.mp h))]
        exact hw1 he

end Sys2Proof.Proofs.RoundOnce
end

section
/-! SUPPORT. The bits of each format (R73, R74), and the exact results that arithmetic rounds once (R79, R137, R139, R140, R142). -/

namespace Sys2Proof.Proofs.FloatResults

open Sys2Proof Sys2Proof.Machine Sys2Proof.Claims Sys2Proof.Proofs.Rounding Sys2Proof.Proofs.Formats Sys2Proof.Proofs.RoundOnce

/-! ### Signs -/

theorem withSign_eq (n : Bool) (x : ℝ) : withSign n x = (-1) ^ n.toNat * x := by cases n <;> simp [withSign]

theorem withSign_mul (s t : Bool) (x y : ℝ) : withSign (s != t) (x * y) = withSign s x * withSign t y := by
  cases s <;> cases t <;> simp [withSign]

theorem withSign_div (s t : Bool) (x y : ℝ) : withSign (s != t) (x / y) = withSign s x / withSign t y := by
  cases s <;> cases t <;> simp [withSign, neg_div, div_neg]

/-! ### What bits stand for -/

section
variable {f : Fmt}

theorem ieee_of_ne (hf : Standard f) (h : f ≠ e4m3 ∧ f ≠ e2m1) : f.kind = .ieee := by
  by_contra hk
  rcases hf.narrow hk with rfl | rfl
  · exact h.1 rfl
  · exact h.2 rfl

theorem mag_fields (f : Fmt) (b : Nat) :
    mag f b = (((b % 2 ^ f.fbits : Nat) : ℝ) + if b / 2 ^ f.fbits = 0 then 0 else (2 : ℝ) ^ f.fbits) *
      (2 : ℝ) ^ (((max (b / 2 ^ f.fbits) 1 : Nat) : Int) - ((2 : Int) ^ (f.ebits - 1) - 1) - (f.fbits : Int)) := by
  have hbias : f.qmin = 1 - ((2 : Int) ^ (f.ebits - 1) - 1) - (f.fbits : Int) := by
    rw [Fmt.qmin, Fmt.bias, Nat.cast_sub Nat.one_le_two_pow]
    push_cast
    ring
  obtain ⟨m, e, h, hm⟩ := finPart_eq f false b
  rw [← hm]
  unfold finPart at h
  split at h
  next h0 =>
    cases h
    rw [h0, if_pos rfl, add_zero, hbias]
    rfl
  next h0 =>
    have hpos := Nat.pos_of_ne_zero h0
    cases h
    rw [if_neg h0, hbias, max_eq_left (show 1 ≤ b / 2 ^ f.fbits from hpos)]
    push_cast
    congr 2
    ring

theorem read_finPart (hf : Standard f) {b : Nat} (hb : b < f.signBit) (n : Bool)
    (hieee : f ≠ e4m3 ∧ f ≠ e2m1 → b / 2 ^ f.fbits ≠ 2 ^ f.ebits - 1)
    (he4m3 : f = e4m3 → ¬ (b / 2 ^ f.fbits = 15 ∧ b % 2 ^ f.fbits = 7)) : f.read (b + f.sign n) = finPart f n b := by
  rw [read_bits hb]
  split
  next hk =>
    refine if_neg (hieee ⟨?_, ?_⟩) <;> rintro rfl <;> cases hk
  next hk =>
    rcases hf.narrow (by rw [hk]; decide) with rfl | rfl
    · exact if_neg (he4m3 rfl)
    · cases hk
  next => rfl

/-- The bits of a format are read as R73 and R74 lay them out. -/
theorem read_layout (hf : Standard f) {x : Nat} (hx : x < 2 ^ f.width) :
    let s : Nat := x / 2 ^ (f.width - 1)
    let e : Nat := x / 2 ^ f.fbits % 2 ^ f.ebits
    let m : Nat := x % 2 ^ f.fbits
    let ieee : Prop := f ≠ e4m3 ∧ f ≠ e2m1
    (ieee → e = 2 ^ f.ebits - 1 → f.read x = if m = 0 then .inf (decide (s = 1)) else .nan (decide (m < 2 ^ (f.fbits - 1)))) ∧
    (f = e4m3 → e = 15 → m = 7 → f.read x = .nan false) ∧
    ((ieee → e ≠ 2 ^ f.ebits - 1) → (f = e4m3 → ¬ (e = 15 ∧ m = 7)) → finite (f.read x) ∧
      valR (f.read x) = (-1 : ℝ) ^ s * ((m : ℝ) + if e = 0 then 0 else (2 : ℝ) ^ f.fbits) *
        (2 : ℝ) ^ (((max e 1 : Nat) : Int) - ((2 : Int) ^ (f.ebits - 1) - 1) - (f.fbits : Int))) := by
  obtain ⟨n, b, hb, rfl⟩ := exists_bits hx
  dsimp only
  rw [width_sub_one, bits_sign hb, bits_exponent hb, bits_fraction]
  refine ⟨fun hieee he => ?_, ?_, fun hieee he4m3 => ?_⟩
  · have hsign : decide (n.toNat = 1) = n := by cases n <;> rfl
    rw [read_bits hb, ieee_of_ne hf hieee, hsign]
    exact if_pos he
  · rintro rfl he hm
    rw [read_bits hb]
    exact if_pos ⟨he, hm⟩
  · obtain ⟨m, e, h, hm⟩ := finPart_eq f n b
    rw [read_finPart hf hb n hieee he4m3, h]
    refine ⟨⟨n, m, e, rfl⟩, ?_⟩
    rw [valR_fin, hm, mag_fields, withSign_eq, mul_assoc]

/-! ### Values rounded once -/

theorem valR_ne_zero {n : Bool} {m : Nat} {e : Int} : valR (.fin n m e) ≠ 0 ↔ m ≠ 0 := by
  have hpos := zpow_two_pos (K := ℝ) e
  rw [valR_fin]
  cases n <;> simp [withSign, hpos.ne']

/-- A finite value rounded once. -/
theorem round_fin_delivered (hf : Standard f) {r : Rnd} (hmode : r.mode ≤ 4)
    (hnarrow : f = e4m3 ∨ f = e2m1 → r.conv = true ∧ r.sat = true) (n : Bool) {m : Nat} (e : Int) (hm : m ≠ 0) :
    Delivered f r (valR (.fin n m e)) (f.round r n m e false) := by
  rw [valR_fin]
  exact round_delivered hf hmode hnarrow n hm (magnitude_exact m e) (fun h => by cases h)

theorem round_zero (f : Fmt) (r : Rnd) (n : Bool) (e : Int) : f.round r n 0 e false = (if n then 2 ^ (f.width - 1) else 0, 0) := by
  unfold Fmt.round
  rw [if_pos ⟨rfl, rfl⟩, width_sub_one]
  rfl

/-! ### Sums and products (R137) -/

theorem scaled_val (n : Bool) (m : Nat) {e q : Int} (h : q ≤ e) : (scaled n m e q : ℝ) * 2 ^ q = valR (.fin n m e) := by
  rw [valR_fin, zpow_two_sub h]
  cases n <;> simp [scaled, withSign] <;> ring

theorem valR_int (x q : Int) : valR (.fin (decide (x < 0)) x.natAbs q) = (x : ℝ) * 2 ^ q := by
  have habs : ((x.natAbs : Nat) : ℝ) = |(x : ℝ)| := by rw [Nat.cast_natAbs, Int.cast_abs]
  rw [valR_fin, habs]
  rcases lt_or_ge x 0 with h | h
  · have hR : (x : ℝ) < 0 := by exact_mod_cast h
    rw [decide_eq_true h, abs_of_neg hR]
    simp [withSign]
  · have hR : (0 : ℝ) ≤ x := by exact_mod_cast h
    rw [decide_eq_false (not_lt.mpr h), abs_of_nonneg hR]
    rfl

theorem times_fin (x y : Bool) (m n : Nat) (e g : Int) :
    valR (.fin (x != y) (m * n) (e + g)) = valR (.fin x m e) * valR (.fin y n g) := by
  rw [valR_fin, valR_fin, valR_fin, ← withSign_mul, zpow_add₀ two_ne_zero, Nat.cast_mul, mul_mul_mul_comm]

section
variable (hf : Standard f) {r : Rnd} (hmode : r.mode ≤ 4) (hnarrow : f = e4m3 ∨ f = e2m1 → r.conv = true ∧ r.sat = true)
include hf hmode hnarrow

theorem sumFin_delivered {n1 n2 : Bool} {m1 m2 : Nat} {e1 e2 : Int} (h : valR (.fin n1 m1 e1) + valR (.fin n2 m2 e2) ≠ 0) :
    Delivered f r (valR (.fin n1 m1 e1) + valR (.fin n2 m2 e2)) (f.sumFin r n1 m1 e1 n2 m2 e2) := by
  have hsum : ((scaled n1 m1 e1 (min e1 e2) + scaled n2 m2 e2 (min e1 e2) : Int) : ℝ) * 2 ^ min e1 e2 =
      valR (.fin n1 m1 e1) + valR (.fin n2 m2 e2) := by
    rw [← scaled_val n1 m1 (min_le_left e1 e2), ← scaled_val n2 m2 (min_le_right e1 e2)]
    push_cast
    ring
  rw [← hsum] at h ⊢
  unfold Fmt.sumFin
  dsimp only
  generalize scaled n1 m1 e1 (min e1 e2) + scaled n2 m2 e2 (min e1 e2) = x at *
  have hx : x ≠ 0 := by
    rintro rfl
    simp at h
  rw [if_neg hx, ← valR_int]
  exact round_fin_delivered hf hmode hnarrow _ _ (Int.natAbs_ne_zero.mpr hx)

theorem addV_delivered {x y : FVal} (hx : finite x) (hy : finite y) (h : valR x + valR y ≠ 0) :
    Delivered f r (valR x + valR y) (f.addV r x y) := by
  obtain ⟨n1, m1, e1, rfl⟩ := hx
  obtain ⟨n2, m2, e2, rfl⟩ := hy
  exact sumFin_delivered hf hmode hnarrow h

theorem mulV_delivered {x y : FVal} (hx : finite x) (hy : finite y) (h : valR x * valR y ≠ 0) :
    Delivered f r (valR x * valR y) (f.mulV r x y) := by
  obtain ⟨n1, m1, e1, rfl⟩ := hx
  obtain ⟨n2, m2, e2, rfl⟩ := hy
  rw [← times_fin] at h ⊢
  exact round_fin_delivered hf hmode hnarrow _ _ (valR_ne_zero.mp h)

theorem fmaV_delivered {x y z : FVal} (hx : finite x) (hy : finite y) (hz : finite z) (h : valR x * valR y + valR z ≠ 0) :
    Delivered f r (valR x * valR y + valR z) (f.fmaV r x y z) := by
  obtain ⟨n1, m1, e1, rfl⟩ := hx
  obtain ⟨n2, m2, e2, rfl⟩ := hy
  obtain ⟨n3, m3, e3, rfl⟩ := hz
  rw [← times_fin] at h ⊢
  have hsum := sumFin_delivered hf hmode hnarrow h
  have hflags : f.fmaV r (.fin n1 m1 e1) (.fin n2 m2 e2) (.fin n3 m3 e3) =
      f.sumFin r (n1 != n2) (m1 * m2) (e1 + e2) n3 m3 e3 := Prod.ext rfl BitVec.or_zero
  rw [hflags]
  exact hsum

end

/-! ### Quotients (R140, R142) -/

/-- The quotient's whole part, with what it leaves. -/
theorem quotient_magnitude {m n k : Nat} {e g : Int} (hn : n ≠ 0) :
    Magnitude (m * 2 ^ k / n) (e - g - k) (decide (m * 2 ^ k % n ≠ 0)) (((m : ℝ) * 2 ^ e) / ((n : ℝ) * 2 ^ g)) := by
  have hnR : (0 : ℝ) < n := Nat.cast_pos.mpr (Nat.pos_of_ne_zero hn)
  have hpos := zpow_two_pos (K := ℝ) (e - g - k)
  have hval : ((m : ℝ) * 2 ^ e) / ((n : ℝ) * 2 ^ g) = (((m * 2 ^ k : Nat) : ℝ) / n) * 2 ^ (e - g - k) := by
    rw [zpow_sub₀ two_ne_zero, zpow_sub₀ two_ne_zero, zpow_natCast]
    push_cast
    field_simp
  have hdiv : (((m * 2 ^ k / n : Nat) : ℝ)) * n + ((m * 2 ^ k % n : Nat) : ℝ) = ((m * 2 ^ k : Nat) : ℝ) := by
    exact_mod_cast Nat.div_add_mod' (m * 2 ^ k) n
  have hmod : ((m * 2 ^ k % n : Nat) : ℝ) < n := Nat.cast_lt.mpr (Nat.mod_lt _ (Nat.pos_of_ne_zero hn))
  have hmod0 : (0 : ℝ) ≤ ((m * 2 ^ k % n : Nat) : ℝ) := Nat.cast_nonneg _
  rw [hval]
  refine ⟨mul_le_mul_of_nonneg_right ?_ hpos.le, mul_lt_mul_of_pos_right ?_ hpos, ?_⟩
  · rw [le_div_iff₀ hnR]
    linarith
  · rw [div_lt_iff₀ hnR, add_mul, one_mul]
    linarith
  · rw [decide_eq_true_iff, not_iff_not, mul_left_inj' hpos.ne', eq_div_iff hnR.ne']
    constructor
    · intro h
      rw [h, Nat.cast_zero, add_zero] at hdiv
      exact hdiv
    · intro h
      have : ((m * 2 ^ k % n : Nat) : ℝ) = 0 := by linarith
      exact_mod_cast this

theorem divV_delivered (hf : Standard f) {r : Rnd} (hmode : r.mode ≤ 4)
    (hnarrow : f = e4m3 ∨ f = e2m1 → r.conv = true ∧ r.sat = true) {x y : FVal} (hx : finite x) (hy : finite y)
    (hx0 : valR x ≠ 0) (hy0 : valR y ≠ 0) : Delivered f r (valR x / valR y) (f.divV r x y) := by
  obtain ⟨s, m, e, rfl⟩ := hx
  obtain ⟨t, n, g, rfl⟩ := hy
  have hm := valR_ne_zero.mp hx0
  have hn := valR_ne_zero.mp hy0
  have hval : valR (.fin s m e) / valR (.fin t n g) = withSign (s != t) (((m : ℝ) * 2 ^ e) / ((n : ℝ) * 2 ^ g)) := by
    rw [valR_fin, valR_fin, withSign_div]
  have hbig : 2 ^ (f.fbits + 2) ≤ m * 2 ^ (f.fbits + 4 + bitLen n) / n := by
    obtain ⟨-, hnlt, -⟩ := bitLen_bounds hn
    rw [Nat.le_div_iff_mul_le (Nat.pos_of_ne_zero hn)]
    calc 2 ^ (f.fbits + 2) * n ≤ 2 ^ (f.fbits + 4) * 2 ^ bitLen n :=
          Nat.mul_le_mul (Nat.pow_le_pow_right two_pos (by omega)) (by omega)
      _ = 1 * 2 ^ (f.fbits + 4 + bitLen n) := by rw [Nat.one_mul, ← Nat.pow_add]
      _ ≤ m * 2 ^ (f.fbits + 4 + bitLen n) := Nat.mul_le_mul_right _ (Nat.pos_of_ne_zero hm)
  have hdiv : f.divV r (.fin s m e) (.fin t n g) = f.round r (s != t) (m * 2 ^ (f.fbits + 4 + bitLen n) / n)
      (e - g - ((f.fbits + 4 + bitLen n : Nat) : Int)) (decide (m * 2 ^ (f.fbits + 4 + bitLen n) % n ≠ 0)) := by
    unfold Fmt.divV
    dsimp only
    rw [if_neg hn, if_neg hm]
  rw [hval, hdiv]
  have hq0 : m * 2 ^ (f.fbits + 4 + bitLen n) / n ≠ 0 := by
    have := Nat.two_pow_pos (f.fbits + 2)
    omega
  exact round_delivered hf hmode hnarrow _ hq0 (quotient_magnitude hn) (fun _ => hbig)

/-! ### Square roots (R139, R142) -/

theorem isqrt_spec (n b acc : Nat) (h0 : acc * acc ≤ n) (h1 : n < (acc + 2 ^ b) * (acc + 2 ^ b)) :
    isqrt n b acc * isqrt n b acc ≤ n ∧ n < (isqrt n b acc + 1) * (isqrt n b acc + 1) := by
  induction b generalizing acc with
  | zero => exact ⟨h0, h1⟩
  | succ b ih =>
    unfold isqrt
    split
    next h => exact ih _ h (by rwa [Nat.add_assoc, ← Nat.two_mul, ← Nat.pow_succ'])
    next h => exact ih _ h0 (not_le.mp h)

/-- The bit-by-bit root of a number, from half its bits. -/
theorem isqrt_bounds (x : Nat) :
    let y := isqrt x ((bitLen x + 1) / 2) 0
    y * y ≤ x ∧ x < (y + 1) * (y + 1) := by
  refine isqrt_spec x _ 0 (Nat.zero_le x) ?_
  have hlt : x < 2 ^ bitLen x := by
    unfold bitLen
    split
    · omega
    · exact Nat.lt_log2_self
  rw [Nat.zero_add, ← Nat.pow_add]
  exact lt_of_lt_of_le hlt (Nat.pow_le_pow_right two_pos (by omega))

theorem sqrt_magnitude {x y : Nat} (g : Int) (h0 : y * y ≤ x) (h1 : x < (y + 1) * (y + 1)) :
    Magnitude y g (decide (y * y ≠ x)) (Real.sqrt ((x : ℝ) * 2 ^ (2 * g))) := by
  have hpos := zpow_two_pos (K := ℝ) g
  have h0R : (y : ℝ) ^ 2 ≤ x := by
    rw [pow_two]
    exact_mod_cast h0
  have h1R : (x : ℝ) < ((y : ℝ) + 1) ^ 2 := by
    rw [pow_two]
    exact_mod_cast h1
  have hval : Real.sqrt ((x : ℝ) * 2 ^ (2 * g)) = Real.sqrt x * 2 ^ g := by
    rw [Real.sqrt_mul (Nat.cast_nonneg x), two_mul, zpow_add₀ two_ne_zero, Real.sqrt_mul_self hpos.le]
  rw [hval]
  refine ⟨mul_le_mul_of_nonneg_right (Real.le_sqrt_of_sq_le h0R) hpos.le,
    mul_lt_mul_of_pos_right ((Real.sqrt_lt' (by positivity)).mpr h1R) hpos, ?_⟩
  rw [decide_eq_true_iff, not_iff_not, mul_left_inj' hpos.ne', eq_comm (a := (y : ℝ)),
    Real.sqrt_eq_iff_mul_self_eq (Nat.cast_nonneg x) (Nat.cast_nonneg y)]
  norm_cast
  exact eq_comm

theorem sqrtV_delivered (hf : Standard f) {r : Rnd} (hmode : r.mode ≤ 4)
    (hnarrow : f = e4m3 ∨ f = e2m1 → r.conv = true ∧ r.sat = true) {v : FVal} (hv : finite v) (h : 0 < valR v) :
    Delivered f r (Real.sqrt (valR v)) (f.sqrtV r v) := by
  obtain ⟨n, m, e, rfl⟩ := hv
  have hm := valR_ne_zero.mp h.ne'
  have hn : n = false := by
    cases n with
    | false => rfl
    | true =>
      rw [valR_fin] at h
      have : (0 : ℝ) ≤ (m : ℝ) * 2 ^ e := by positivity
      simp only [withSign, if_true] at h
      linarith
  subst hn
  -- the exponent made even
  let sh : Nat := 2 * (f.fbits + 4)
  let x : Nat := m * 2 ^ (if (e - (sh : Int)) % 2 ≠ 0 then sh + 1 else sh)
  let g : Int := if (e - (sh : Int)) % 2 ≠ 0 then e - sh - 1 else e - sh
  have hg : 2 * (g / 2) = g := by
    simp only [g]
    split <;> omega
  have hval : valR (.fin false m e) = (x : ℝ) * 2 ^ (2 * (g / 2)) := by
    rw [hg, valR_fin]
    simp only [x, g, withSign, Bool.false_eq_true, if_false]
    split
    · rw [show e - (sh : Int) - 1 = e - ((sh + 1 : Nat) : Int) by push_cast; ring, zpow_sub₀ two_ne_zero, zpow_natCast]
      push_cast
      field_simp
    · rw [zpow_sub₀ two_ne_zero, zpow_natCast]
      push_cast
      field_simp
  obtain ⟨h0, h1⟩ := isqrt_bounds x
  have hx : 2 ^ (f.fbits + 4) * 2 ^ (f.fbits + 4) ≤ x := by
    rw [← Nat.pow_add]
    simp only [x]
    calc 2 ^ (f.fbits + 4 + (f.fbits + 4)) = 1 * 2 ^ (f.fbits + 4 + (f.fbits + 4)) := (Nat.one_mul _).symm
      _ ≤ m * 2 ^ (if (e - (sh : Int)) % 2 ≠ 0 then sh + 1 else sh) := by
        refine Nat.mul_le_mul (Nat.pos_of_ne_zero hm) (Nat.pow_le_pow_right two_pos ?_)
        split <;> omega
  have hbig : 2 ^ (f.fbits + 2) ≤ isqrt x ((bitLen x + 1) / 2) 0 := by
    have hlt : 2 ^ (f.fbits + 4) < isqrt x ((bitLen x + 1) / 2) 0 + 1 :=
      Nat.mul_self_lt_mul_self_iff.mp (lt_of_le_of_lt hx h1)
    have : 2 ^ (f.fbits + 2) ≤ 2 ^ (f.fbits + 4) := Nat.pow_le_pow_right two_pos (by omega)
    omega
  have hy0 : isqrt x ((bitLen x + 1) / 2) 0 ≠ 0 := by
    have := Nat.two_pow_pos (f.fbits + 2)
    omega
  have hsqrt : f.sqrtV r (.fin false m e) = f.round r false (isqrt x ((bitLen x + 1) / 2) 0) (g / 2)
      (decide (isqrt x ((bitLen x + 1) / 2) 0 * isqrt x ((bitLen x + 1) / 2) 0 ≠ x)) := by
    unfold Fmt.sqrtV
    dsimp only
    rw [if_neg hm]
    rfl
  rw [hval, hsqrt]
  exact round_delivered hf hmode hnarrow false hy0 (sqrt_magnitude (g / 2) h0 h1) (fun _ => hbig)

/-! ### Scaling by a power of two (R137) -/

theorem round_of_huge (hf : Standard f) {r : Rnd} (hmode : r.mode ≤ 4) (n : Bool) {m : Nat} {e : Int} (hm : m ≠ 0)
    (hA : mag f (f.maxBits + 1) ≤ (m : ℝ) * 2 ^ e) : f.round r n m e false = f.overflow r n := by
  obtain ⟨b, hgrid, hover, -⟩ := round_spec hf hmode n hm (magnitude_exact m e) (fun h => by cases h)
  have hA0 : (0 : ℝ) < (m : ℝ) * 2 ^ e := lt_of_lt_of_le (zpow_two_pos _) (top_bounds hm (magnitude_exact m e)).1
  refine hover ((pastMax_iff_overflows hf hmode hA0 hgrid).mpr ?_)
  have hunit := mag_unit_pos f f.maxBits
  unfold Overflows
  rw [hf.greatest, abs_withSign n hA0.le]
  dsimp only
  split
  · linarith
  · split <;> linarith

/-- The bits of a magnitude below half the least subnormal, rounded. -/
def tinyBits (mode : Nat) (n : Bool) : Nat := if mode = 2 ∧ n = false ∨ mode = 3 ∧ n = true then 1 else 0

theorem mag_one (f : Fmt) : mag f 1 = 2 ^ f.qmin := by
  have hle : 1 ≤ 2 ^ (f.fbits + 1) := Nat.one_le_two_pow
  simpa using mag_grid (f := f) (j := 0) (k := 1) (.inl rfl) hle

theorem gridRounds_tiny {mode : Nat} (hmode : mode ≤ 4) {n : Bool} {A : ℝ} {b : Nat} (hA0 : 0 < A)
    (hA : 2 * A < 2 ^ f.qmin) (h : GridRounds (mag f) mode n A b) : b = tinyBits mode n := by
  have h0 := mag_zero f
  have h1 := mag_one f
  have hmono := mag_strictMono f
  have hnear (h : |mag f b - A| ≤ |mag f 0 - A|) : b = 0 := by
    by_contra hb
    have hle : mag f 1 ≤ mag f b := hmono.monotone (Nat.pos_of_ne_zero hb)
    rw [h0, zero_sub, abs_neg, abs_of_pos hA0] at h
    have := le_abs_self (mag f b - A)
    linarith
  have htoward (h : mag f b ≤ A ∧ ∀ c, mag f c ≤ A → c ≤ b) : b = 0 := by
    by_contra hb
    have hle : mag f 1 ≤ mag f b := hmono.monotone (Nat.pos_of_ne_zero hb)
    linarith [h.1]
  have haway (h : A ≤ mag f b ∧ ∀ c, A ≤ mag f c → b ≤ c) : b = 1 := by
    have hle := h.2 1 (by linarith)
    have hne : b ≠ 0 := by
      rintro rfl
      linarith [h.1]
    omega
  have hmodes : mode = 0 ∨ mode = 1 ∨ mode = 2 ∨ mode = 3 ∨ mode = 4 := by omega
  rcases hmodes with rfl | rfl | rfl | rfl | rfl
  · exact hnear (h 0).1
  · exact htoward h
  · cases n
    · exact haway h
    · exact htoward h
  · cases n
    · exact htoward h
    · exact haway h
  · exact hnear (h 0).1

/-- Every magnitude below half the least subnormal rounds alike. -/
theorem round_of_tiny (hf : Standard f) {r : Rnd} (hmode : r.mode ≤ 4) (n : Bool) {m : Nat} {e : Int} (hm : m ≠ 0)
    (hA : 2 * ((m : ℝ) * 2 ^ e) < 2 ^ f.qmin) :
    f.round r n m e false = if r.ftz && f.subnormal (tinyBits r.mode n) then (f.sign n, fNX ||| fUF ||| fUF ||| fNX)
      else (tinyBits r.mode n + f.sign n, fNX ||| fUF) := by
  obtain ⟨b, hgrid, -, hin⟩ := round_spec hf hmode n hm (magnitude_exact m e) (fun h => by cases h)
  have hA0 : (0 : ℝ) < (m : ℝ) * 2 ^ e := lt_of_lt_of_le (zpow_two_pos _) (top_bounds hm (magnitude_exact m e)).1
  have hb := gridRounds_tiny hmode hA0 hA hgrid
  have hmono := mag_strictMono f
  have hone : 1 ≤ f.maxBits := le_trans Nat.one_le_two_pow hf.normal
  have hmax : mag f 1 ≤ mag f f.maxBits := hmono.monotone hone
  have hunit := mag_unit_pos f f.maxBits
  rw [mag_one f] at hmax
  have hpast : ¬ PastMax f r.mode ((m : ℝ) * 2 ^ e) b := by
    unfold PastMax
    split
    · linarith
    · rw [hb, tinyBits]
      split <;> omega
  have hne : mag f b ≠ (m : ℝ) * 2 ^ e := by
    rw [hb, tinyBits]
    split
    · rw [mag_one f]
      linarith
    · rw [mag_zero]
      exact hA0.ne
  have hlow : (m : ℝ) * 2 ^ e < 2 ^ (1 - (f.bias : Int)) := by
    have hle : (2 : ℝ) ^ f.qmin ≤ 2 ^ (1 - (f.bias : Int)) :=
      zpow_le_zpow_right₀ one_le_two (by rw [Fmt.qmin]; omega)
    linarith
  obtain ⟨w, -, hw, hround⟩ := hin hpast
  rw [hround, hw hne, if_pos hlow, hb]

end

theorem flush_lt {a : Nat} (ftz : Bool) (h : a < 2 ^ 32) : f32.flush ftz a < 2 ^ f32.width := by
  unfold Fmt.flush
  split
  · have : a / f32.signBit % 2 < 2 := Nat.mod_lt _ two_pos
    change a / f32.signBit % 2 * 2 ^ 31 < 2 ^ 32
    omega
  · exact h

theorem f32_top : mag f32 (f32.maxBits + 1) = 2 ^ (128 : Int) := by
  have := mag_grid (f := f32) (j := 253) (k := 2 ^ 24) (.inr (by decide)) (by decide)
  rw [show f32.maxBits + 1 = 253 * 2 ^ f32.fbits + 2 ^ 24 by decide, this, show f32.qmin + ((253 : Nat) : Int) = 104 by decide]
  norm_num

/-- The range of the nonzero numbers of f32. -/
theorem f32_range {x : Nat} {n : Bool} {m : Nat} {e : Int} (hx : x < 2 ^ f32.width) (h : f32.read x = .fin n m e) (hm : m ≠ 0) :
    (2 : ℝ) ^ (-149 : Int) ≤ (m : ℝ) * 2 ^ e ∧ (m : ℝ) * 2 ^ e < 2 ^ (128 : Int) := by
  obtain ⟨s, c, hc, -, hval⟩ := exists_of_num standard_f32.ebits hx ⟨n, m, e, h⟩
  have hA : (m : ℝ) * 2 ^ e = mag f32 c := by
    have hnn : (0 : ℝ) ≤ (m : ℝ) * 2 ^ e := by positivity
    have := congrArg abs hval
    rwa [h, valR_fin, abs_withSign n hnn, abs_withSign s (mag_nonneg f32 c)] at this
  have hc0 : c ≠ 0 := by
    rintro rfl
    rw [mag_zero] at hA
    have : (0 : ℝ) < (m : ℝ) * 2 ^ e := mul_pos (Nat.cast_pos.mpr (Nat.pos_of_ne_zero hm)) (zpow_two_pos e)
    linarith
  have hmono := (mag_strictMono f32).monotone
  have hlo := hmono (Nat.pos_of_ne_zero hc0)
  have hhi := (mag_strictMono f32) (Nat.lt_succ_of_le hc)
  rw [hA]
  exact ⟨(mag_one f32).symm.le.trans hlo, f32_top ▸ hhi⟩

/-- fscale rounds once the multiple by the power of two: past ±1024 every multiple rounds as there. -/
theorem fscaleOp_delivered {r : Rnd} {a : Nat} (k : Int) (hmode : r.mode ≤ 4) (ha : a < 2 ^ 32)
    (hfin : finite (f32.read (f32.flush r.ftz a))) (h0 : valR (f32.read (f32.flush r.ftz a)) ≠ 0) :
    Delivered f32 r (valR (f32.read (f32.flush r.ftz a)) * 2 ^ k) (fscaleOp r a k) := by
  have hx := flush_lt r.ftz ha
  have hnarrow : f32 = e4m3 ∨ f32 = e2m1 → r.conv = true ∧ r.sat = true := by
    rintro (h | h)
    · exact absurd h (by decide)
    · exact absurd h (by decide)
  obtain ⟨n, m, e, hv⟩ := hfin
  rw [hv] at h0 ⊢
  have hm := valR_ne_zero.mp h0
  obtain ⟨hlo, hhi⟩ := f32_range hx hv hm
  have hop : fscaleOp r a k = f32.round r n m (e + max (-1024) (min 1024 k)) false := by
    unfold fscaleOp
    dsimp only
    rw [hv]
    exact if_neg hm
  have hsplit (i : Int) : (m : ℝ) * 2 ^ (e + i) = (m : ℝ) * 2 ^ e * 2 ^ i := by rw [zpow_add₀ two_ne_zero, mul_assoc]
  have hval : valR (.fin n m e) * 2 ^ k = valR (.fin n m (e + k)) := by
    rw [valR_fin, valR_fin, hsplit]
    cases n <;> simp [withSign]
  have hhuge (i : Int) (hi : 1024 ≤ i) : f32.round r n m (e + i) false = f32.overflow r n := by
    refine round_of_huge standard_f32 hmode n hm ?_
    have hge : (2 : ℝ) ^ (128 : Int) ≤ 2 ^ (-149 + i) := zpow_le_zpow_right₀ one_le_two (by omega)
    rw [f32_top, hsplit]
    refine hge.trans ?_
    rw [zpow_add₀ two_ne_zero]
    exact mul_le_mul_of_nonneg_right hlo (zpow_two_pos i).le
  have htiny (i : Int) (hi : i ≤ -1024) : 2 * ((m : ℝ) * 2 ^ (e + i)) < 2 ^ f32.qmin := by
    have hle : (2 : ℝ) ^ (1 + 128 + i) ≤ 2 ^ f32.qmin :=
      zpow_le_zpow_right₀ one_le_two (by have : f32.qmin = -149 := by decide
                                         omega)
    refine lt_of_lt_of_le ?_ hle
    rw [hsplit, zpow_add₀ two_ne_zero, zpow_add₀ two_ne_zero, zpow_one, mul_assoc 2]
    exact mul_lt_mul_of_pos_left (mul_lt_mul_of_pos_right hhi (zpow_two_pos i)) two_pos
  have hclamp : f32.round r n m (e + max (-1024) (min 1024 k)) false = f32.round r n m (e + k) false := by
    rcases lt_or_ge k (-1024) with hk | hk
    · rw [show max (-1024) (min 1024 k) = -1024 by omega, round_of_tiny standard_f32 hmode n hm (htiny (-1024) (by omega)),
        round_of_tiny standard_f32 hmode n hm (htiny k (by omega))]
    · rcases lt_or_ge 1024 k with hk' | hk'
      · rw [show max (-1024) (min 1024 k) = 1024 by omega, hhuge 1024 le_rfl, hhuge k (by omega)]
      · rw [show max (-1024) (min 1024 k) = k by omega]
  rw [hop, hclamp, hval]
  exact round_fin_delivered standard_f32 hmode hnarrow n (e + k) hm

/-- Settles O21: the bits of each format, the rounding, and the exact result of each operation rounded by it. -/
theorem roundedOnce : Obligations.RoundedOnce := by
  refine ⟨fun f hf x hx => read_layout (standard_of_mem hf) hx, fun f hf r n m e hmode hnarrow => ⟨?_, ?_⟩,
    fun f hf r x y z hmode hx hy hz => ?_, fun r a k hmode ha => ?_⟩
  · rintro rfl
    exact round_zero f r n e
  · exact round_fin_delivered (standard_of_mem hf) hmode hnarrow n e
  · have hstd : Standard f := standard_of_mem (by simp only [List.mem_cons, List.not_mem_nil, or_false] at hf ⊢; tauto)
    have hnarrow : f = e4m3 ∨ f = e2m1 → r.conv = true ∧ r.sat = true := by
      rintro (rfl | rfl) <;> exact absurd hf (by decide)
    exact ⟨addV_delivered hstd hmode hnarrow hx hy, mulV_delivered hstd hmode hnarrow hx hy,
      fmaV_delivered hstd hmode hnarrow hx hy hz, divV_delivered hstd hmode hnarrow hx hy,
      sqrtV_delivered hstd hmode hnarrow hx⟩
  · exact fscaleOp_delivered k hmode ha

end Sys2Proof.Proofs.FloatResults
end

section
/-! SUPPORT. What a conversion to a floating format and to an integer delivers (R81 to R84). -/

namespace Sys2Proof.Proofs.ConversionValues

open Sys2Proof Sys2Proof.Machine Sys2Proof.Claims Sys2Proof.Proofs.Rounding Sys2Proof.Proofs.Formats Sys2Proof.Proofs.FloatResults

/-! ### Conversions to a floating format (R81, R82, R84) -/

theorem convert_nan {k : Fmt} (hk : Standard k) (r : Rnd) (s : Bool) : ConvertsTo k r (.nan s) (k.convert r (.nan s)) := by
  have hieee (h : k.kind = .ieee) : k ≠ e4m3 ∧ k ≠ e2m1 := by
    constructor <;> rintro rfl <;> cases h
  change if k = e2m1 then _ else _
  by_cases hieeeKind : k.kind = .ieee
  · obtain ⟨h4, h2⟩ := hieee hieeeKind
    rw [if_neg h2, if_neg h4]
    change k.nanResult (flagIf s fNV) = _
    unfold Fmt.nanResult Fmt.nan
    rw [hieeeKind]
    cases s <;> rfl
  · rcases hk.narrow hieeeKind with rfl | rfl
    · rw [if_neg (by decide), if_pos rfl]
      cases s <;> rfl
    · rw [if_pos rfl]
      cases s <;> rfl

theorem convert_inf {k : Fmt} (hk : Standard k) (r : Rnd) (n : Bool) : ConvertsTo k r (.inf n) (k.convert r (.inf n)) := by
  change if k = e4m3 then _ else if k = e2m1 then _ else _
  by_cases hieee : k.kind = .ieee
  · have h4 : k ≠ e4m3 := by rintro rfl; cases hieee
    have h2 : k ≠ e2m1 := by rintro rfl; cases hieee
    have hconv : k.convert r (.inf n) = (k.inf n, 0) := by
      unfold Fmt.convert
      rw [hieee]
    rw [if_neg h4, if_neg h2, hconv, width_sub_one]
    rfl
  · rcases hk.narrow hieee with rfl | rfl
    · rw [if_pos rfl]
      cases n <;> rfl
    · rw [if_neg (by decide), if_pos rfl]
      cases n <;> rfl

/-- A conversion to a floating format delivers the exact value rounded once. -/
theorem convert_convertsTo {k : Fmt} (hk : Standard k) {r : Rnd} (hmode : r.mode ≤ 4) (v : FVal) :
    ConvertsTo k r v (k.convert r v) := by
  cases v with
  | nan s => exact convert_nan hk r s
  | inf n => exact convert_inf hk r n
  | fin n m e =>
    change if m = 0 then _ else _
    by_cases hm : m = 0
    · subst hm
      rw [if_pos rfl]
      exact round_zero k _ n e
    · rw [if_neg hm]
      refine round_fin_delivered (r := { r with conv := true, sat := r.sat || decide (k = e4m3 ∨ k = e5m2 ∨ k = e2m1) })
        hk hmode ?_ n e hm
      rintro (rfl | rfl) <;> exact ⟨rfl, Bool.or_true _⟩

/-! ### Rounding to an integer (R59, R83) -/

/-- A rational number of a magnitude and a sign. -/
def signedQ (n : Bool) (x : ℚ) : ℚ := if n then -x else x

theorem valQ_fin (n : Bool) (m : Nat) (e : Int) : valQ (.fin n m e) = signedQ n ((m : ℚ) * 2 ^ e) := by
  cases n <;> simp [valQ, signedQ]

/-- The nearest integer, the even one of two. -/
theorem roundTo_nearest {q : ℚ} {k : Int} (h : |q - k| < 1 / 2 ∨ (|q - k| = 1 / 2 ∧ k % 2 = 0)) : roundTo 0 q = k := by
  have hle : |q - k| ≤ 1 / 2 := h.elim le_of_lt fun h => h.1.le
  obtain ⟨hlo, hhi⟩ := abs_le.mp hle
  unfold roundTo
  rcases le_or_gt (k : ℚ) q with hge | hlt
  · have hfloor : ⌊q⌋ = k := Int.floor_eq_iff.mpr ⟨hge, by linarith⟩
    rw [abs_of_nonneg (sub_nonneg.mpr hge)] at h
    simp only [hfloor]
    rcases h with h | ⟨h, heven⟩
    · rw [if_pos h]
    · rw [if_neg (by linarith), if_neg (by linarith), if_pos heven]
  · have hfloor : ⌊q⌋ = k - 1 := by
      rw [Int.floor_eq_iff]
      push_cast
      exact ⟨by linarith, by linarith⟩
    rw [abs_of_neg (sub_neg.mpr hlt)] at h
    simp only [hfloor]
    push_cast
    rw [if_neg (by linarith), sub_add_cancel]
    rcases h with h | ⟨h, heven⟩
    · rw [if_pos (by linarith)]
    · rw [if_neg (by linarith), if_neg (by omega)]

section
variable {A : ℚ} {a : Nat} (h0 : (a : ℚ) ≤ A) (h1 : A < (a : ℚ) + 1)
include h0 h1

theorem floor_eq_cast : ⌊A⌋ = (a : Int) := Int.floor_eq_iff.mpr ⟨by exact_mod_cast h0, by exact_mod_cast h1⟩

theorem ceil_eq_cast : ⌈A⌉ = if (a : ℚ) < A then (a : Int) + 1 else (a : Int) := by
  split
  next h =>
    rw [Int.ceil_eq_iff]
    push_cast
    exact ⟨by linarith, h1.le⟩
  next h =>
    have : A = ((a : Int) : ℚ) := by
      push_cast
      linarith
    rw [this, Int.ceil_intCast]

/-- The half added rounds to the nearest, ties up. -/
theorem floor_add_half : ⌊A + 1 / 2⌋ = if 1 / 2 ≤ A - a then (a : Int) + 1 else (a : Int) := by
  split
  next h =>
    rw [Int.floor_eq_iff]
    push_cast
    exact ⟨by linarith, by linarith⟩
  next h =>
    rw [Int.floor_eq_iff]
    push_cast
    exact ⟨by linarith, by linarith⟩

/-- The nearest whole number, the even one of two. -/
theorem nearest_even {n up : Bool} (hup : up = true ↔ GoesUp 0 n (a % 2 == 1) (A - a)) :
    |A - ((if up then a + 1 else a : Nat) : ℚ)| < 1 / 2 ∨
      (|A - ((if up then a + 1 else a : Nat) : ℚ)| = 1 / 2 ∧ (if up then a + 1 else a) % 2 = 0) := by
  simp only [GoesUp, beq_iff_eq] at hup
  cases up with
  | true =>
    have habs : |A - ((a + 1 : Nat) : ℚ)| = a + 1 - A := by
      push_cast
      rw [abs_sub_comm]
      exact abs_of_nonneg (by linarith)
    rw [if_pos rfl, habs]
    rcases hup.mp rfl with h | ⟨h, hodd⟩
    · exact .inl (by linarith)
    · exact .inr ⟨by linarith, by omega⟩
  | false =>
    have hno : ¬ (1 / 2 < A - a ∨ A - a = 1 / 2 ∧ a % 2 = 1) := fun h => Bool.false_ne_true (hup.mpr h)
    rw [not_or, not_and, not_lt] at hno
    obtain ⟨hle, heven⟩ := hno
    rw [if_neg Bool.false_ne_true, abs_of_nonneg (sub_nonneg.mpr h0)]
    rcases lt_or_eq_of_le hle with h | h
    · exact .inl h
    · exact .inr ⟨h, by have := heven h; omega⟩

/-- Rounding to the nearest, ties away from zero. -/
theorem roundTo_away {n up : Bool} (hup : up = true ↔ 1 / 2 ≤ A - a) : roundTo 4 (signedQ n A) =
    if n then -(((if up then a + 1 else a : Nat)) : Int) else ((if up then a + 1 else a : Nat) : Int) := by
  have hA0 : 0 ≤ A := le_trans (Nat.cast_nonneg a) h0
  have hround : ⌊A + 1 / 2⌋ = ((if up then a + 1 else a : Nat) : Int) := by
    rw [floor_add_half h0 h1]
    cases up with
    | true => rw [if_pos (hup.mp rfl)]; rfl
    | false => rw [if_neg (fun h => Bool.false_ne_true (hup.mpr h))]; rfl
  cases n with
  | false =>
    simp only [roundTo, signedQ, Bool.false_eq_true, if_false, not_lt.mpr hA0]
    exact hround
  | true =>
    simp only [roundTo, signedQ, if_true]
    split
    · rw [← neg_add', Int.ceil_neg, hround]
    next h =>
      have hA : A = 0 := by linarith
      rw [hA] at hround ⊢
      have hz : ⌊(0 : ℚ) + 1 / 2⌋ = 0 := by norm_num
      rw [hz] at hround
      rw [← hround]
      norm_num

/-- The integer that a number rounds to, from the whole part of its magnitude and the fraction. -/
theorem roundTo_eq {mode : Nat} {n up : Bool} (hmode : mode ≤ 4) (hup : up = true ↔ GoesUp mode n (a % 2 == 1) (A - a)) :
    roundTo mode (signedQ n A) = if n then -(((if up then a + 1 else a : Nat)) : Int) else ((if up then a + 1 else a : Nat) : Int) := by
  have hfloor := floor_eq_cast h0 h1
  have hceil := ceil_eq_cast h0 h1
  have hA0 : 0 ≤ A := le_trans (Nat.cast_nonneg a) h0
  have hnegFloor : ⌊-A⌋ = -⌈A⌉ := Int.floor_neg
  have hnegCeil : ⌈-A⌉ = -⌊A⌋ := Int.ceil_neg
  match mode with
  | 0 =>
    have hnear := nearest_even h0 h1 hup
    generalize (if up then a + 1 else a) = k at *
    refine roundTo_nearest ?_
    cases n with
    | false =>
      rw [if_neg Bool.false_ne_true, Int.cast_natCast]
      exact hnear.imp_right fun h => ⟨h.1, by omega⟩
    | true =>
      have habs : |signedQ true A - ((-(k : Int) : Int) : ℚ)| = |A - k| := by
        rw [← abs_neg]
        congr 1
        simp [signedQ]
        ring
      rw [if_pos rfl, habs]
      exact hnear.imp_right fun h => ⟨h.1, by omega⟩
  | 1 =>
    have : up = false := by simpa [GoesUp] using hup
    subst this
    cases n with
    | false => simp [roundTo, signedQ, not_lt.mpr hA0, hfloor]
    | true =>
      simp only [roundTo, signedQ, if_true, Bool.false_eq_true, if_false, hnegCeil, hfloor, hnegFloor, hceil]
      split
      · rfl
      next h =>
        have hA : A = 0 := by linarith
        have ha : (a : ℚ) = 0 := le_antisymm (by linarith) (Nat.cast_nonneg a)
        rw [if_neg (by rw [hA, ha]; exact lt_irrefl _)]
  | 2 =>
    simp only [GoesUp, sub_pos] at hup
    cases n with
    | false =>
      simp only [roundTo, signedQ, Bool.false_eq_true, if_false, hceil]
      cases up with
      | true => rw [if_pos (hup.mp rfl).1]; rfl
      | false => rw [if_neg (fun h => by simpa using hup.mpr ⟨h, rfl⟩)]; rfl
    | true =>
      have : up = false := by simpa using hup
      simp [roundTo, signedQ, hnegCeil, hfloor, this]
  | 3 =>
    simp only [GoesUp, sub_pos] at hup
    cases n with
    | false =>
      have : up = false := by simpa using hup
      simp [roundTo, signedQ, hfloor, this]
    | true =>
      simp only [roundTo, signedQ, if_true, hnegFloor, hceil]
      cases up with
      | true => rw [if_pos (hup.mp rfl).1]; rfl
      | false => rw [if_neg (fun h => by simpa using hup.mpr ⟨h, rfl⟩)]; rfl
  | 4 => exact roundTo_away h0 h1 hup

end

/-- Rounding a magnitude to whole units is rounding the number to an integer. -/
theorem roundAt_roundTo {mode : Nat} (hmode : mode ≤ 4) (n : Bool) (m : Nat) (e : Int) :
    let p := roundAt mode n m e false 0
    roundTo mode (valQ (.fin n m e)) = (if n then -(p.1 : Int) else (p.1 : Int)) ∧
      (p.2 = true ↔ ((roundTo mode (valQ (.fin n m e)) : Int) : ℚ) ≠ valQ (.fin n m e)) := by
  intro p
  obtain ⟨a, up, h0, h1, hup, hk, hx⟩ := roundAt_spec (K := ℚ) (mode := mode) (neg := n) (q := 0) (magnitude_exact m e)
    (fun h => by cases h)
  rw [zpow_zero, mul_one] at h0 h1 hx
  rw [zpow_zero, div_one] at hup
  have hround := roundTo_eq h0 h1 hmode hup
  rw [← valQ_fin, ← hk] at hround
  refine ⟨hround, ?_⟩
  change (roundAt mode n m e false 0).2 = true ↔ _
  rw [hround, hx, valQ_fin, hk]
  have hsame : (a : ℚ) = (m : ℚ) * 2 ^ e ↔ (((if up then a + 1 else a : Nat) : Int) : ℚ) = (m : ℚ) * 2 ^ e := by
    cases hu : up with
    | false => rfl
    | true =>
      have hgo := hup.mp hu
      push_cast
      constructor
      · intro h
        rw [h, sub_self] at hgo
        unfold GoesUp at hgo
        split at hgo <;> norm_num at hgo
      · intro h
        rw [if_pos rfl] at h
        linarith
  rw [Ne, hsame]
  cases n
  · rfl
  · simp [signedQ]

/-! ### Conversions to an integer (R83) -/

/-- What f2i gives for a NaN or past the type where the saturate bit is 0. -/
theorem bad_integer {n : Nat} (hn : n ∈ [8, 16, 32, 64]) (signed : Bool) :
    (if signed then wrapInt n (typeMin true n) else wrapInt n (-1)) = if signed then 2 ^ (n - 1) else 2 ^ n - 1 := by
  simp only [List.mem_cons, List.not_mem_nil, or_false] at hn
  rcases hn with rfl | rfl | rfl | rfl <;> cases signed <;> rfl

theorem f2iV_toInteger {n : Nat} (hn : n ∈ [8, 16, 32, 64]) {mode : Nat} (hmode : mode ≤ 4) (sat signed : Bool) (v : FVal) :
    ToInteger mode sat signed n v (f2iV mode sat signed n v) := by
  have hbad := bad_integer hn signed
  unfold f2iV
  dsimp only
  rw [hbad]
  cases v with
  | nan s => rfl
  | inf neg => cases neg <;> rfl
  | fin neg m e =>
    obtain ⟨hround, hx⟩ := roundAt_roundTo hmode neg m e
    have hint : roundInt mode neg m e = (roundTo mode (valQ (.fin neg m e)), (roundAt mode neg m e false 0).2) :=
      Prod.ext hround.symm rfl
    dsimp only
    rw [hint]
    dsimp only [ToInteger]
    generalize roundTo mode (valQ (.fin neg m e)) = k at hx ⊢
    generalize (roundAt mode neg m e false 0).2 = x at hx ⊢
    change if k < typeMin signed n then _ else if typeMax signed n < k then _ else _
    by_cases hlo : k < typeMin signed n
    · rw [if_pos hlo, if_pos hlo]
      rfl
    · rw [if_neg hlo, if_neg hlo]
      by_cases hhi : typeMax signed n < k
      · rw [if_pos hhi, if_pos hhi]
        rfl
      · rw [if_neg hhi, if_neg hhi]
        refine Prod.ext rfl ?_
        by_cases he : (k : ℚ) = valQ (.fin neg m e)
        · rw [if_pos he, Bool.eq_false_iff.mpr fun h => hx.mp h he]
          rfl
        · rw [if_neg he, hx.mpr he]
          rfl

end Sys2Proof.Proofs.ConversionValues
end

section
/-! SUPPORT. The encoding of 16 values as a group of a block format (R87, R89, R146). -/

namespace Sys2Proof.Proofs.GroupEncoding

open Sys2Proof Sys2Proof.Machine Sys2Proof.Claims Sys2Proof.Proofs.Rounding Sys2Proof.Proofs.RoundOnce
  Sys2Proof.Proofs.ConversionValues

/-! ### Finite values: sizes, scaling, logarithms -/

theorem abs_signedQ (n : Bool) {x : ℚ} (h : 0 ≤ x) : |signedQ n x| = x := by
  cases n
  · exact abs_of_nonneg h
  · exact (abs_neg x).trans (abs_of_nonneg h)

theorem abs_valQ_fin (n : Bool) (m : Nat) (e : Int) : |valQ (.fin n m e)| = (m : ℚ) * 2 ^ e := by
  rw [valQ_fin, abs_signedQ n (by positivity)]

theorem valQ_fin_eq_zero {n : Bool} {m : Nat} {e : Int} : valQ (.fin n m e) = 0 ↔ m = 0 := by
  have hpos := zpow_two_pos (K := ℚ) e
  rw [← abs_eq_zero, abs_valQ_fin, mul_eq_zero, or_iff_left hpos.ne', Nat.cast_eq_zero]

theorem valQ_fin_scaled (n : Bool) (m : Nat) (e k : Int) : valQ (.fin n m e) * 2 ^ k = valQ (.fin n m (e + k)) := by
  rw [valQ_fin, valQ_fin, zpow_add₀ two_ne_zero, ← mul_assoc]
  cases n <;> simp [signedQ]

theorem roundScaled_spec {mode : Nat} (hmode : mode ≤ 4) {v : FVal} (hv : finite v) (k : Int) :
    ((roundScaled mode v k).1 : Int) = |roundTo mode (valQ v * 2 ^ k)| ∧
      ((roundScaled mode v k).2 = true ↔ ((roundTo mode (valQ v * 2 ^ k) : Int) : ℚ) ≠ valQ v * 2 ^ k) := by
  obtain ⟨n, m, e, rfl⟩ := hv
  rw [valQ_fin_scaled]
  obtain ⟨hround, hx⟩ := roundAt_roundTo hmode n m (e + k)
  refine ⟨?_, hx⟩
  change ((roundAt mode n m (e + k) false 0).1 : Int) = _
  rw [hround]
  cases n
  · exact (Nat.abs_cast _).symm
  · exact ((abs_neg _).trans (Nat.abs_cast _)).symm

/-- A zero rounds to zero at every scale. -/
theorem roundScaled_zero {mode : Nat} (hmode : mode ≤ 4) {v : FVal} (hv : finite v) (h0 : valQ v = 0) (k : Int) :
    (roundScaled mode v k).1 = 0 := by
  have hspec := (roundScaled_spec hmode hv k).1
  have hzero : roundTo mode (0 : ℚ) = 0 := by
    have := roundTo_eq (A := 0) (a := 0) (mode := mode) (n := false) (up := false) (by simp) (by simp) hmode (by
      unfold GoesUp
      split <;> simp)
    simpa [signedQ] using this
  rw [h0, zero_mul, hzero, abs_zero] at hspec
  exact_mod_cast hspec

theorem larger_eq {a b : FVal} (ha : finite a) (hb : finite b) : larger a b = if |valQ b| ≤ |valQ a| then a else b := by
  obtain ⟨n, m, e, rfl⟩ := ha
  obtain ⟨s, k, g, rfl⟩ := hb
  rw [abs_valQ_fin, abs_valQ_fin]
  unfold larger
  simp only [magGe_iff (K := ℚ)]

theorem largestAt_unique {n : Nat} {x : Nat → FVal} {a b : Nat} (ha : largestAt n x a) (hb : largestAt n x b) : a = b := by
  obtain ⟨han, ha⟩ := ha
  obtain ⟨hbn, hb⟩ := hb
  rcases Nat.lt_trichotomy a b with h | h | h
  · exact absurd ((hb a han).2 h) (not_lt.mpr (ha b hbn).1)
  · exact h
  · exact absurd ((ha b hbn).2 h) (not_lt.mpr (hb a han).1)

/-- Of two values the first of the larger magnitude. -/
theorem larger_pair {y : Nat → FVal} (h0 : finite (y 0)) (h1 : finite (y 1)) {b : Nat} (hb : largestAt 2 y b) :
    larger (y 0) (y 1) = y b := by
  obtain ⟨hb2, hmax⟩ := hb
  rw [larger_eq h0 h1]
  have hcases : b = 0 ∨ b = 1 := by omega
  rcases hcases with rfl | rfl
  · exact if_pos (hmax 1 (by omega)).1
  · exact if_neg (not_le.mpr ((hmax 0 (by omega)).2 (by omega)))

/-- The fold over a group finds the first of the largest magnitude, unless all are zero. -/
theorem foldl_larger_cases (n : Nat) {x : Nat → FVal} (hx : ∀ i, i < n → finite (x i)) :
    let r := ((List.range n).map x).foldl larger (.fin false 0 0)
    ((∀ i, i < n → valQ (x i) = 0) ∧ r = .fin false 0 0) ∨ ∃ i, largestAt n x i ∧ r = x i := by
  induction n with
  | zero => exact .inl ⟨fun i hi => by omega, rfl⟩
  | succ n ih =>
    intro r
    have hn := hx n (Nat.lt_succ_self n)
    have hr : r = larger (((List.range n).map x).foldl larger (.fin false 0 0)) (x n) := by
      simp only [r, List.range_succ, List.map_append, List.map_cons, List.map_nil, List.foldl_append, List.foldl_cons,
        List.foldl_nil]
    have hsplit (i : Nat) (hi : i < n + 1) : i < n ∨ i = n := by omega
    rcases ih (fun i hi => hx i (by omega)) with ⟨hzero, hseed⟩ | ⟨i, ⟨hi, hmax⟩, hseed⟩
    · have hseed0 : valQ (.fin false 0 0) = 0 := valQ_fin_eq_zero.mpr rfl
      rw [hr, hseed, larger_eq ⟨_, _, _, rfl⟩ hn, hseed0, abs_zero]
      by_cases hle : |valQ (x n)| ≤ 0
      · have h0 : valQ (x n) = 0 := abs_nonpos_iff.mp hle
        refine .inl ⟨fun j hj => ?_, if_pos hle⟩
        rcases hsplit j hj with h | rfl
        · exact hzero j h
        · exact h0
      · refine .inr ⟨n, ⟨Nat.lt_succ_self n, fun j hj => ?_⟩, if_neg hle⟩
        rcases hsplit j hj with h | rfl
        · rw [hzero j h, abs_zero]
          exact ⟨abs_nonneg _, fun _ => not_le.mp hle⟩
        · exact ⟨le_rfl, fun h => absurd h (lt_irrefl _)⟩
    · rw [hr, hseed, larger_eq (hx i (by omega)) hn]
      by_cases hle : |valQ (x n)| ≤ |valQ (x i)|
      · refine .inr ⟨i, ⟨by omega, fun j hj => ?_⟩, if_pos hle⟩
        rcases hsplit j hj with h | rfl
        · exact hmax j h
        · exact ⟨hle, fun h => by omega⟩
      · have hlt := not_le.mp hle
        refine .inr ⟨n, ⟨Nat.lt_succ_self n, fun j hj => ?_⟩, if_neg hle⟩
        rcases hsplit j hj with h | rfl
        · have := lt_of_le_of_lt (hmax j h).1 hlt
          exact ⟨this.le, fun _ => this⟩
        · exact ⟨le_rfl, fun h => absurd h (lt_irrefl _)⟩

theorem foldl_larger {n : Nat} {x : Nat → FVal} (hx : ∀ i, i < n → finite (x i)) {a : Nat} (ha : largestAt n x a)
    (h0 : valQ (x a) ≠ 0) : ((List.range n).map x).foldl larger (.fin false 0 0) = x a := by
  rcases foldl_larger_cases n hx with ⟨hzero, -⟩ | ⟨i, hi, h⟩
  · exact absurd (hzero a ha.1) h0
  · rw [h, largestAt_unique hi ha]

theorem log_valQ {n : Bool} {m : Nat} {e : Int} (hm : m ≠ 0) : Int.log 2 |valQ (.fin n m e)| = e + bitLen m - 1 := by
  obtain ⟨hlo, hhi⟩ := top_bounds hm (magnitude_exact (K := ℚ) m e)
  have hpos : (0 : ℚ) < (m : ℚ) * 2 ^ e := lt_of_lt_of_le (zpow_two_pos _) hlo
  rw [abs_valQ_fin]
  refine le_antisymm (Int.lt_add_one_iff.mp ?_) ?_
  · exact (Int.lt_zpow_iff_log_lt (by norm_num) hpos).mp (by exact_mod_cast hhi)
  · exact (Int.zpow_le_iff_le_log (by norm_num) hpos).mp (by exact_mod_cast hlo)

/-- The exponent of R87's step 3 before its limits. -/
theorem groupExp_eq {m mode : Nat} (hmode : mode ≤ 4) {a : FVal} (ha : finite a) (h0 : valQ a ≠ 0) :
    let l : Int := Int.log 2 |valQ a|
    groupExp m mode a = l + 127 + if |roundTo mode (valQ a * (2 : ℚ) ^ ((m : Int) - 1 - l))| = 2 ^ m then 1 else 0 := by
  intro l
  have hspec := (roundScaled_spec hmode ha ((m : Int) - 1 - l)).1
  obtain ⟨n, k, e, rfl⟩ := ha
  have hk : k ≠ 0 := fun h => h0 (valQ_fin_eq_zero.mpr h)
  have hl : l = e + bitLen k - 1 := log_valQ hk
  rw [← hspec]
  unfold groupExp
  dsimp only
  rw [← hl]
  congr 2
  rw [← Nat.cast_ofNat (n := 2), ← Nat.cast_pow]
  exact propext Nat.cast_inj.symm

/-! ### The encoding at an exponent -/

/-- The micro bit of pair `j` of a group of values at an exponent. -/
def microAt (m : Nat) (micro : Bool) (mode : Nat) (l : List FVal) (e : Int) (j : Nat) : Nat :=
  if micro && decide ((roundScaled mode (larger ((l[2 * j]?).getD (.fin false 0 0)) ((l[2 * j + 1]?).getD (.fin false 0 0)))
    ((m : Int) - (e - 127))).1 ≤ 2 ^ m - 1) then 1 else 0

/-- Micro bits as a number. -/
def microNum (u : Nat → Nat) : Nat := (List.range 8).foldl (fun acc j => acc + u j * 2 ^ j) 0

/-- The fields and the flags of a group of values at an exponent under micro bits. -/
def fieldsAt (m mode : Nat) (l : List FVal) (e : Int) (u : Nat → Nat) : List (Bool × Nat) × Word :=
  let els := l.zipIdx.map (fun x =>
    let r := roundScaled mode x.1 ((m : Int) - 1 + u (x.2 / 2) - (e - 127))
    (x.1.neg, r.1, r.2))
  (els.map (fun x => let k := min x.2.1 (2 ^ m - 1); (x.1 && decide (k ≠ 0), k)),
    flagIf (els.any (fun x => x.2.2)) fNX ||| flagIf (els.any (fun x => decide (2 ^ m - 1 < x.2.1))) (fSAT ||| fNX))

/-- An exponent within its limits (R87). -/
def limited (e0 : Int) : Int := if 0xFE < e0 then 0xFE else if e0 < 0 then 0 else e0

theorem limited_eq (e0 : Int) : limited e0 = max 0 (min 254 e0) := by
  unfold limited
  split
  · omega
  · split <;> omega

theorem encodeGroup_finite {m mode : Nat} {micro : Bool} {l : List FVal} (hgood : groupBad l = false)
    (hzero : l.all FVal.isZero = false) :
    let e := limited (groupExp m mode (l.foldl larger (.fin false 0 0)))
    let u := microAt m micro mode l e
    encodeGroup m micro mode l = ((fieldsAt m mode l e u).1, (microNum u, e.toNat), (fieldsAt m mode l e u).2) := by
  intro e u
  unfold encodeGroup
  rw [if_neg (by rw [hgood]; exact Bool.false_ne_true), if_neg (by rw [hzero]; exact Bool.false_ne_true)]
  rfl

theorem microNum_bit {u : Nat → Nat} (hu : ∀ j, u j ≤ 1) : microNum u < 256 ∧ ∀ j, j < 8 → microNum u / 2 ^ j % 2 = u j := by
  have hnum : microNum u = 0 + u 0 * 1 + u 1 * 2 + u 2 * 4 + u 3 * 8 + u 4 * 16 + u 5 * 32 + u 6 * 64 + u 7 * 128 := rfl
  have h0 := hu 0
  have h1 := hu 1
  have h2 := hu 2
  have h3 := hu 3
  have h4 := hu 4
  have h5 := hu 5
  have h6 := hu 6
  have h7 := hu 7
  rw [hnum]
  refine ⟨by omega, fun j hj => ?_⟩
  interval_cases j <;> omega

theorem microAt_le (m : Nat) (micro : Bool) (mode : Nat) (l : List FVal) (e : Int) (j : Nat) : microAt m micro mode l e j ≤ 1 := by
  unfold microAt
  split <;> omega

section
variable {m mode : Nat} (hmode : mode ≤ 4) {x : Nat → FVal} {e : Int} {u : Nat → Nat}

theorem getElem_group (x : Nat → FVal) {i : Nat} (hi : i < 16) : ((((List.range 16).map x)[i]?).getD (.fin false 0 0)) = x i := by
  simp [hi]

theorem zipIdx_group (x : Nat → FVal) : ((List.range 16).map x).zipIdx = (List.range 16).map (fun i => (x i, i)) := rfl

/-- A rounded element of a group. -/
def element (m mode : Nat) (x : Nat → FVal) (e : Int) (u : Nat → Nat) (i : Nat) : Nat × Bool :=
  roundScaled mode (x i) ((m : Int) - 1 + u (i / 2) - (e - 127))

theorem field_at {i : Nat} (hi : i < 16) :
    (((fieldsAt m mode ((List.range 16).map x) e u).1[i]?).getD (false, 0)) =
      ((x i).neg && decide (min (element m mode x e u i).1 (2 ^ m - 1) ≠ 0), min (element m mode x e u i).1 (2 ^ m - 1)) := by
  unfold fieldsAt
  rw [zipIdx_group]
  simp [hi, element]

theorem flags_at : (fieldsAt m mode ((List.range 16).map x) e u).2 =
    flagIf ((List.range 16).any (fun i => (element m mode x e u i).2)) fNX |||
      flagIf ((List.range 16).any (fun i => decide (2 ^ m - 1 < (element m mode x e u i).1))) (fSAT ||| fNX) := by
  unfold fieldsAt
  rw [zipIdx_group]
  dsimp only
  rw [List.map_map, List.any_map, List.any_map]
  rfl

end

/-- The sign of a nonzero number. -/
theorem neg_iff {v : FVal} (hv : finite v) (h0 : valQ v ≠ 0) : v.neg = true ↔ valQ v < 0 := by
  obtain ⟨n, m, e, rfl⟩ := hv
  have hm : m ≠ 0 := fun h => h0 (valQ_fin_eq_zero.mpr h)
  have hpos : (0 : ℚ) < (m : ℚ) * 2 ^ e := mul_pos (Nat.cast_pos.mpr (Nat.pos_of_ne_zero hm)) (zpow_two_pos e)
  rw [valQ_fin]
  cases n
  · simpa [FVal.neg, signedQ] using hpos.le
  · simpa [FVal.neg, signedQ] using hpos

section
variable {m mode : Nat} (hmode : mode ≤ 4) {x : Nat → FVal} {e : Int} {u : Nat → Nat} {i : Nat} (hv : finite (x i)) {k : Int}
  (hk : k = (m : Int) - 1 + u (i / 2) - (e - 127))
include hmode hv hk

theorem element_spec : ((element m mode x e u i).1 : Int) = |roundTo mode (valQ (x i) * 2 ^ k)| ∧
    ((element m mode x e u i).2 = true ↔ ((roundTo mode (valQ (x i) * 2 ^ k) : Int) : ℚ) ≠ valQ (x i) * 2 ^ k) := by
  subst hk
  exact roundScaled_spec hmode hv _

/-- The field of an element: the rounded magnitude, at most the largest, and the sign where it is not 0. -/
theorem element_field {p : Bool × Nat}
    (hp : p = ((x i).neg && decide (min (element m mode x e u i).1 (2 ^ m - 1) ≠ 0), min (element m mode x e u i).1 (2 ^ m - 1))) :
    (p.2 : Int) = min |roundTo mode (valQ (x i) * 2 ^ k)| (2 ^ m - 1) ∧ (p.1.toNat = 1 ↔ valQ (x i) < 0 ∧ p.2 ≠ 0) ∧
      p.1.toNat ≤ 1 := by
  obtain ⟨hmag, -⟩ := element_spec hmode hv hk
  have hnat : ((min (element m mode x e u i).1 (2 ^ m - 1) : Nat) : Int) = min |roundTo mode (valQ (x i) * 2 ^ k)| (2 ^ m - 1) := by
    rw [← hmag, Nat.cast_min, Nat.cast_sub Nat.one_le_two_pow]
    push_cast
    rfl
  subst hp
  refine ⟨hnat, ?_, Bool.toNat_le _⟩
  rw [Bool.toNat_eq_one, Bool.and_eq_true, decide_eq_true_iff]
  refine and_congr_left fun h => neg_iff hv fun h0 => h ?_
  have : (element m mode x e u i).1 = 0 := roundScaled_zero hmode hv h0 _
  rw [this, Nat.zero_min]

theorem element_past : 2 ^ m - 1 < (element m mode x e u i).1 ↔ (2 : Int) ^ m - 1 < |roundTo mode (valQ (x i) * 2 ^ k)| := by
  obtain ⟨hmag, -⟩ := element_spec hmode hv hk
  rw [← hmag, ← Nat.cast_lt (α := Int), Nat.cast_sub Nat.one_le_two_pow]
  push_cast
  rfl

end

section
variable {m mode : Nat} (hmode : mode ≤ 4) {x : Nat → FVal} (hx : ∀ i, i < 16 → finite (x i)) {e : Int} {u : Nat → Nat} {k : Nat → Int}
  (hk : ∀ i, i < 16 → k i = (m : Int) - 1 + u (i / 2) - (e - 127))
include hmode hx hk

theorem any_past_iff : ((List.range 16).any (fun i => decide (2 ^ m - 1 < (element m mode x e u i).1))) = true ↔
    ∃ i, i < 16 ∧ (2 : Int) ^ m - 1 < |roundTo mode (valQ (x i) * 2 ^ k i)| := by
  rw [List.any_eq_true]
  simp only [List.mem_range, decide_eq_true_iff]
  exact exists_congr fun i => and_congr_right fun hi => element_past hmode (hx i hi) (hk i hi)

theorem any_inexact_iff : ((List.range 16).any (fun i => (element m mode x e u i).2)) = true ↔
    ∃ i, i < 16 ∧ ((roundTo mode (valQ (x i) * 2 ^ k i) : Int) : ℚ) ≠ valQ (x i) * 2 ^ k i := by
  rw [List.any_eq_true]
  simp only [List.mem_range]
  exact exists_congr fun i => and_congr_right fun hi => (element_spec hmode (hx i hi) (hk i hi)).2

/-- The flags of a group: SAT and NX where a magnitude rounds past the field, NX where one is inexact. -/
theorem group_flags {w : Word} (hw : (fieldsAt m mode ((List.range 16).map x) e u).2 = w) :
    ((∃ i, i < 16 ∧ (2 : Int) ^ m - 1 < |roundTo mode (valQ (x i) * 2 ^ k i)|) → w = fSAT ||| fNX) ∧
    ((∀ i, i < 16 → |roundTo mode (valQ (x i) * 2 ^ k i)| ≤ 2 ^ m - 1) →
      (∃ i, i < 16 ∧ ((roundTo mode (valQ (x i) * 2 ^ k i) : Int) : ℚ) ≠ valQ (x i) * 2 ^ k i) → w = fNX) ∧
    ((∀ i, i < 16 → |roundTo mode (valQ (x i) * 2 ^ k i)| ≤ 2 ^ m - 1 ∧
      ((roundTo mode (valQ (x i) * 2 ^ k i) : Int) : ℚ) = valQ (x i) * 2 ^ k i) → w = 0) := by
  have hpast := any_past_iff hmode hx hk
  have hinexact := any_inexact_iff hmode hx hk
  rw [← hw, flags_at]
  have hfits (h : ∀ i, i < 16 → |roundTo mode (valQ (x i) * 2 ^ k i)| ≤ 2 ^ m - 1) :
      (List.range 16).any (fun i => decide (2 ^ m - 1 < (element m mode x e u i).1)) = false := by
    rw [← Bool.not_eq_true, hpast]
    rintro ⟨i, hi, hlt⟩
    exact absurd (h i hi) (not_le.mpr hlt)
  refine ⟨fun h => ?_, fun hle h => ?_, fun h => ?_⟩
  · rw [hpast.mpr h]
    cases (List.range 16).any (fun i => (element m mode x e u i).2) <;> rfl
  · rw [hinexact.mpr h, hfits hle]
    rfl
  · have hexact : (List.range 16).any (fun i => (element m mode x e u i).2) = false := by
      rw [← Bool.not_eq_true, hinexact]
      rintro ⟨i, hi, hne⟩
      exact hne (h i hi).2
    rw [hexact, hfits fun i hi => (h i hi).1]
    rfl

end

/-- The micro bit of a pair is set where the larger of its values fits with one more bit. -/
theorem microAt_iff {m mode : Nat} (hmode : mode ≤ 4) {micro : Bool} {x : Nat → FVal} (hx : ∀ i, i < 16 → finite (x i)) {e : Int}
    {j b : Nat} (hj : j < 8) (hb : largestAt 2 (fun i => x (2 * j + i)) b) :
    microAt m micro mode ((List.range 16).map x) e j = 1 ↔
      micro = true ∧ |roundTo mode (valQ (x (2 * j + b)) * (2 : ℚ) ^ ((m : Int) - (e - 127)))| ≤ 2 ^ m - 1 := by
  have hb2 := hb.1
  have hpair : larger (x (2 * j)) (x (2 * j + 1)) = x (2 * j + b) :=
    larger_pair (y := fun i => x (2 * j + i)) (hx _ (by omega)) (hx _ (by omega)) hb
  have hmag := (roundScaled_spec hmode (hx (2 * j + b) (by omega)) ((m : Int) - (e - 127))).1
  have hle : (roundScaled mode (x (2 * j + b)) ((m : Int) - (e - 127))).1 ≤ 2 ^ m - 1 ↔
      |roundTo mode (valQ (x (2 * j + b)) * (2 : ℚ) ^ ((m : Int) - (e - 127)))| ≤ 2 ^ m - 1 := by
    rw [← hmag, ← Nat.cast_le (α := Int), Nat.cast_sub Nat.one_le_two_pow]
    push_cast
    rfl
  unfold microAt
  rw [getElem_group x (by omega), getElem_group x (by omega), hpair, ← hle]
  cases micro
  · simp
  · simp

/-! ### NaN groups and zero groups (R87) -/

theorem not_finite_iff (v : FVal) : (match v with
    | .fin _ _ _ => false
    | _ => true) = true ↔ ¬ finite v := by
  cases v with
  | nan s => simp [finite]
  | inf n => simp [finite]
  | fin n m e => simp [finite]

theorem groupBad_iff (x : Nat → FVal) : groupBad ((List.range 16).map x) = true ↔ ∃ i, i < 16 ∧ ¬ finite (x i) := by
  unfold groupBad
  rw [List.any_map, List.any_eq_true]
  simp only [List.mem_range, Function.comp]
  exact exists_congr fun i => and_congr_right fun _ => not_finite_iff (x i)

theorem isZero_iff {v : FVal} (hv : finite v) : v.isZero = true ↔ valQ v = 0 := by
  obtain ⟨n, m, e, rfl⟩ := hv
  rw [valQ_fin_eq_zero]
  exact beq_iff_eq

theorem all_isZero_iff {x : Nat → FVal} (hx : ∀ i, i < 16 → finite (x i)) :
    ((List.range 16).map x).all FVal.isZero = true ↔ ∀ i, i < 16 → valQ (x i) = 0 := by
  rw [List.all_map, List.all_eq_true]
  simp only [List.mem_range, Function.comp]
  exact forall_congr' fun i => imp_congr_right fun hi => isZero_iff (hx i hi)

theorem invalid_iff (v : FVal) : (match v with
    | .inf _ => true
    | .nan s => s
    | .fin _ _ _ => false) = true ↔ (∃ n, v = .inf n) ∨ v = .nan true := by
  cases v <;> simp

/-- A NaN group: every field 0, exponent 0xFF, and NV for an infinity or a signalling NaN. -/
theorem encodeGroup_bad {m mode : Nat} {micro : Bool} {x : Nat → FVal} (h : ∃ i, i < 16 ∧ ¬ finite (x i)) :
    ∃ inv : Bool, (inv = true ↔ ∃ i, i < 16 ∧ ((∃ n, x i = .inf n) ∨ x i = .nan true)) ∧
      encodeGroup m micro mode ((List.range 16).map x) =
        (((List.range 16).map x).map (fun _ => (false, 0)), (0, 0xFF), flagIf inv fNV) := by
  refine ⟨_, ?_, if_pos ((groupBad_iff x).mpr h)⟩
  rw [List.any_map, List.any_eq_true]
  simp only [List.mem_range, Function.comp]
  exact exists_congr fun i => and_congr_right fun _ => invalid_iff (x i)

theorem encodeGroup_zero {m mode : Nat} {micro : Bool} {x : Nat → FVal} (h : ∀ i, i < 16 → finite (x i) ∧ valQ (x i) = 0) :
    encodeGroup m micro mode ((List.range 16).map x) = (((List.range 16).map x).map (fun _ => (false, 0)), (0, 0), 0) := by
  have hgood : ¬ groupBad ((List.range 16).map x) = true := by
    rw [groupBad_iff]
    rintro ⟨i, hi, hbad⟩
    exact hbad (h i hi).1
  unfold encodeGroup
  rw [if_neg hgood, if_pos ((all_isZero_iff fun i hi => (h i hi).1).mpr fun i hi => (h i hi).2)]

theorem zero_field (x : Nat → FVal) (i : Nat) :
    (((((List.range 16).map x).map (fun _ => ((false, 0) : Bool × Nat)))[i]?).getD (false, 0)) = (false, 0) := by
  rw [List.getElem?_map]
  cases ((List.range 16).map x)[i]? <;> rfl

/-! ### A group -/

theorem isPalush_iff {fmt : Nat} (h : fmt ∈ [16, 17, 18, 19]) : isPalush fmt = true ↔ fmt ≠ 19 := by
  simp only [List.mem_cons, List.not_mem_nil, or_false] at h
  rcases h with rfl | rfl | rfl | rfl <;> decide

/-- The group is encoded as R87's steps say, R89 and R146 for AL16. -/
theorem encodesGroup {fmt mode : Nat} (hfmt : fmt ∈ [16, 17, 18, 19]) (hmode : mode ≤ 4) (x : Nat → FVal)
    {mag sign : Nat → Nat} {e micro : Nat} {w : Word}
    (hfields : ∀ i, i < 16 → ((((encodeGroup (magBits fmt) (isPalush fmt) mode ((List.range 16).map x)).1[i]?).getD (false, 0)).2 =
      mag i ∧ (((encodeGroup (magBits fmt) (isPalush fmt) mode ((List.range 16).map x)).1[i]?).getD (false, 0)).1.toNat = sign i))
    (hrest : (encodeGroup (magBits fmt) (isPalush fmt) mode ((List.range 16).map x)).2 = ((micro, e), w)) :
    EncodesGroup fmt mode x e micro mag sign w := by
  unfold EncodesGroup
  dsimp only
  generalize hm : magBits fmt = m at *
  refine ⟨fun hbad => ?_, fun hzero => ?_, fun a hfin ha0 ha => ?_⟩
  · obtain ⟨inv, hinv, heq⟩ := encodeGroup_bad (m := m) (mode := mode) (micro := isPalush fmt) hbad
    rw [heq] at hfields hrest
    cases hrest
    refine ⟨rfl, rfl, fun i hi => ?_, fun h => ?_, fun h => ?_⟩
    · simp only [zero_field] at hfields
      exact ⟨(hfields i hi).1.symm, (hfields i hi).2.symm⟩
    · rw [hinv.mpr h]
      rfl
    · have : inv = false := Bool.eq_false_iff.mpr fun hi => by
        obtain ⟨i, hi, h' | h'⟩ := hinv.mp hi
        · obtain ⟨n, hn⟩ := h'
          exact (h i hi).1 n hn
        · exact (h i hi).2 h'
      rw [this]
      rfl
  · rw [encodeGroup_zero hzero] at hfields hrest
    cases hrest
    refine ⟨rfl, rfl, fun i hi => ?_, rfl⟩
    simp only [zero_field] at hfields
    exact ⟨(hfields i hi).1.symm, (hfields i hi).2.symm⟩
  · have hgood : groupBad ((List.range 16).map x) = false := by
      rw [← Bool.not_eq_true, groupBad_iff]
      rintro ⟨i, hi, hbad⟩
      exact hbad (hfin i hi)
    have hzero : ((List.range 16).map x).all FVal.isZero = false := by
      rw [← Bool.not_eq_true, all_isZero_iff hfin]
      exact fun h => ha0 (h a ha.1)
    have hexp := groupExp_eq (m := m) hmode (hfin a ha.1) ha0
    rw [encodeGroup_finite hgood hzero, foldl_larger hfin ha ha0] at hfields hrest
    rw [← hexp, ← limited_eq]
    generalize hE : limited (groupExp m mode (x a)) = E at *
    have hE0 : 0 ≤ E := by
      rw [← hE, limited_eq]
      omega
    generalize hu : microAt m (isPalush fmt) mode ((List.range 16).map x) E = u at *
    obtain ⟨-, hbit⟩ := microNum_bit (u := u) (fun j => by rw [← hu]; exact microAt_le ..)
    cases hrest
    have hk (i : Nat) (hi : i < 16) : (m : Int) - 1 + ((microNum u / 2 ^ (i / 2) % 2 : Nat) : Int) - (E - 127) =
        (m : Int) - 1 + u (i / 2) - (E - 127) := by rw [hbit (i / 2) (by omega)]
    refine ⟨Int.toNat_of_nonneg hE0, fun j b hj hb => ?_, fun i hi => ?_, group_flags hmode hfin hk rfl⟩
    · rw [hbit j hj, ← hu, microAt_iff hmode hfin hj hb, isPalush_iff hfmt]
    · obtain ⟨hmag, hsign⟩ := hfields i hi
      rw [field_at hi] at hmag hsign
      rw [← hmag, ← hsign]
      exact element_field hmode (hfin i hi) (hk i hi) rfl

end Sys2Proof.Proofs.GroupEncoding
end

section
/-! SUPPORT. Bytes and bits as numbers: what a row of a block format holds at each place (R85, R88). -/

namespace Sys2Proof.Proofs.BlockBits

open Sys2Proof Sys2Proof.Machine Sys2Proof.Claims

/-! ### Little-endian numbers of bytes -/

theorem numOf_append (l r : List Byte) : numOf (l ++ r) = numOf l + 256 ^ l.length * numOf r := by
  induction l with
  | nil => simp [numOf]
  | cons b t ih =>
    rw [List.cons_append, numOf, numOf, ih, List.length_cons, Nat.pow_succ]
    ring

theorem numOf_drop (l : List Byte) (k : Nat) : numOf (l.drop k) = numOf l / 256 ^ k := by
  induction k generalizing l with
  | zero => simp
  | succ k ih =>
    cases l with
    | nil => simp [numOf]
    | cons b t =>
      have hb := b.isLt
      have hdiv : (b.toNat + 256 * numOf t) / 256 = numOf t := by omega
      rw [List.drop_succ_cons, ih, numOf, Nat.pow_succ', ← Nat.div_div_eq_div_mul, hdiv]

theorem numOf_take (l : List Byte) (k : Nat) : numOf (l.take k) = numOf l % 256 ^ k := by
  induction k generalizing l with
  | zero => simp [numOf, Nat.mod_one]
  | succ k ih =>
    cases l with
    | nil => simp [numOf]
    | cons b t =>
      have hb := b.isLt
      have hdiv : (b.toNat + 256 * numOf t) / 256 = numOf t := by omega
      have hmod : (b.toNat + 256 * numOf t) % 256 = b.toNat := by omega
      rw [List.take_succ_cons, numOf, ih, numOf, Nat.pow_succ', Nat.mod_mul, hdiv, hmod]

theorem pow_256 (k : Nat) : 256 ^ k = 2 ^ (8 * k) := by rw [Nat.pow_mul]

theorem div_two_pow_add (N a b : Nat) : N / 2 ^ (a + b) = N / 2 ^ a / 2 ^ b := by rw [Nat.pow_add, ← Nat.div_div_eq_div_mul]

theorem numAt_eq (l : List Byte) (off n : Nat) : numAt l off n = numOf l / 2 ^ (8 * off) % 2 ^ (8 * n) := by
  rw [numAt, numOf_take, numOf_drop, pow_256, pow_256]

theorem byteAt_eq (l : List Byte) (k : Nat) : ((l[k]?).getD 0).toNat = numOf l / 2 ^ (8 * k) % 256 := by
  rw [← pow_256, ← numOf_drop]
  cases h : l.drop k with
  | nil =>
    have : l[k]? = none := List.getElem?_eq_none (List.drop_eq_nil_iff.mp h)
    rw [this]
    rfl
  | cons b t =>
    have hb := b.isLt
    have : l[k]? = some b := by
      have := congrArg List.head? h
      rwa [List.head?_drop, List.head?_cons] at this
    rw [this, numOf, Option.getD_some]
    omega

theorem bitOf_eq (l : List Byte) (i : Nat) : bitOf l i = (numOf l).testBit i := by
  rw [bitOf, BitVec.getLsbD, byteAt_eq, show 256 = 2 ^ 8 from rfl, Nat.testBit_mod_two_pow, Nat.testBit_div_two_pow,
    decide_eq_true (Nat.mod_lt i (by omega)), Bool.true_and, Nat.add_comm, Nat.div_add_mod]

/-- The low bits of a number, the topmost of them apart. -/
theorem mod_two_pow_bit (x n : Nat) : x % 2 ^ (n + 1) = x % 2 ^ n + 2 ^ n * (x.testBit n).toNat := by
  rw [Nat.pow_succ, Nat.mod_mul, Nat.toNat_testBit]

theorem bitsOf_eq (l : List Byte) (i n : Nat) : bitsOf l i n = numOf l / 2 ^ i % 2 ^ n := by
  unfold bitsOf
  induction n with
  | zero => simp [Nat.mod_one]
  | succ n ih =>
    rw [List.range_succ, List.foldl_append, ih, List.foldl_cons, List.foldl_nil, bitOf_eq, mod_two_pow_bit,
      Nat.testBit_div_two_pow, Nat.add_comm n i]
    cases (numOf l).testBit (i + n) <;> simp

/-- The words of a block are its bytes as one number. -/
theorem numOf_words (w : Nat → Word) (n : Nat) :
    numOf ((List.range n).flatMap (fun j => bytesOf 4 (w j).toNat)) =
      ((List.range n).map (fun j => (w j).toNat * 2 ^ (32 * j))).sum := by
  have hlen (n : Nat) : ((List.range n).flatMap (fun j => bytesOf 4 (w j).toNat)).length = 4 * n := by
    induction n with
    | zero => rfl
    | succ n ih =>
      rw [List.range_succ, List.flatMap_append, List.length_append, ih]
      simp [bytesOf]
      ring
  induction n with
  | zero => rfl
  | succ n ih =>
    have hword : numOf (bytesOf 4 (w n).toNat) = (w n).toNat := by
      rw [numOf_bytesOf]
      exact Nat.mod_eq_of_lt (w n).isLt
    rw [List.range_succ, List.flatMap_append, numOf_append, ih, hlen, List.map_append, List.sum_append, List.flatMap_singleton,
      hword, pow_256, show 8 * (4 * n) = 32 * n by ring]
    simp [Nat.mul_comm]

/-- A number cut in words and put together again. -/
theorem sum_words (N n : Nat) :
    ((List.range n).map (fun j => N / 2 ^ (32 * j) % 2 ^ 32 * 2 ^ (32 * j))).sum = N % 2 ^ (32 * n) := by
  induction n with
  | zero => simp [Nat.mod_one]
  | succ n ih =>
    rw [List.range_succ, List.map_append, List.sum_append, ih, Nat.mul_succ, Nat.pow_add, Nat.mod_mul]
    simp [Nat.mul_comm]

theorem blockWord_toNat (l : List Byte) (j : Nat) : (blockWord l j).toNat = numOf l / 2 ^ (32 * j) % 2 ^ 32 := by
  rw [blockWord, BitVec.toNat_ofNat, numAt_eq, show 8 * (4 * j) = 32 * j by ring, Nat.mod_mod]

theorem sum_blockWords {l : List Byte} {n : Nat} (hl : l.length = 4 * n) :
    ((List.range n).map (fun j => (blockWord l j).toNat * 2 ^ (32 * j))).sum = numOf l := by
  simp only [blockWord_toNat]
  rw [sum_words]
  refine Nat.mod_eq_of_lt ?_
  have := SystemRegisters.numOf_lt l
  rwa [hl, pow_256, show 8 * (4 * n) = 32 * n by ring] at this

/-! ### Digits -/

theorem div_two_pow_above {a k : Nat} (h : a < 2 ^ k) (b : Nat) : (a + 2 ^ k * b) / 2 ^ k = b := by
  rw [Nat.add_mul_div_left _ _ (Nat.two_pow_pos k), Nat.div_eq_of_lt h, Nat.zero_add]

/-- A digit of a number of digits with something above them. -/
theorem ofDigits_digit {B : Nat} (L : List Nat) (T : Nat) (hL : ∀ d ∈ L, d < B) {i : Nat} (hi : i < L.length) :
    (Nat.ofDigits B L + B ^ L.length * T) / B ^ i % B = L[i] := by
  induction L generalizing i with
  | nil => exact absurd hi (by simp)
  | cons d r ih =>
    have hd := hL d List.mem_cons_self
    have hB : 0 < B := by omega
    have hsplit : Nat.ofDigits B (d :: r) + B ^ (d :: r).length * T = d + B * (Nat.ofDigits B r + B ^ r.length * T) := by
      rw [Nat.ofDigits_cons, List.length_cons, Nat.pow_succ]
      ring
    rw [hsplit]
    cases i with
    | zero => rw [Nat.pow_zero, Nat.div_one, Nat.add_mul_mod_self_left, Nat.mod_eq_of_lt hd, List.getElem_cons_zero]
    | succ i =>
      rw [Nat.pow_succ', ← Nat.div_div_eq_div_mul, Nat.add_mul_div_left _ _ hB, Nat.div_eq_of_lt hd, Nat.zero_add,
        ih (fun d hd => hL d (List.mem_cons_of_mem _ hd)) (Nat.lt_of_succ_lt_succ hi), List.getElem_cons_succ]

theorem ofDigits_above {B : Nat} (hB : 0 < B) (L : List Nat) (T : Nat) (hL : ∀ d ∈ L, d < B) :
    (Nat.ofDigits B L + B ^ L.length * T) / B ^ L.length = T := by
  rw [Nat.add_mul_div_left _ _ (Nat.pow_pos hB), Nat.div_eq_of_lt, Nat.zero_add]
  induction L with
  | nil => simp
  | cons d r ih =>
    have hd := hL d List.mem_cons_self
    have hr := ih (fun d hd => hL d (List.mem_cons_of_mem _ hd))
    rw [Nat.ofDigits_cons, List.length_cons, Nat.pow_succ']
    calc d + B * Nat.ofDigits B r < B * (Nat.ofDigits B r + 1) := by rw [Nat.mul_succ]; omega
      _ ≤ B * B ^ r.length := Nat.mul_le_mul_left _ hr

/-! ### Bits packed in bytes -/

/-- The number of some bits, the first lowest. -/
def ofBits : List Bool → Nat
  | [] => 0
  | b :: r => b.toNat + 2 * ofBits r

theorem ofBits_append (l r : List Bool) : ofBits (l ++ r) = ofBits l + 2 ^ l.length * ofBits r := by
  induction l with
  | nil => simp [ofBits]
  | cons b t ih =>
    rw [List.cons_append, ofBits, ofBits, ih, List.length_cons, Nat.pow_succ]
    ring

theorem ofBits_lt (l : List Bool) : ofBits l < 2 ^ l.length := by
  induction l with
  | nil => simp [ofBits]
  | cons b t ih =>
    have := Bool.toNat_le b
    rw [ofBits, List.length_cons, Nat.pow_succ]
    omega

/-- The low bits of a number. -/
theorem ofBits_testBits (m x : Nat) : ofBits ((List.range m).map x.testBit) = x % 2 ^ m := by
  induction m with
  | zero => simp [ofBits, Nat.mod_one]
  | succ m ih =>
    rw [List.range_succ, List.map_append, ofBits_append, ih, mod_two_pow_bit]
    simp [ofBits]

/-- A byte of packed bits. -/
theorem byte_of_bits {l : List Bool} (h : l.length ≤ 8) :
    (BitVec.ofNat 8 (l.zipIdx.foldl (fun a e => if e.1 then a + 2 ^ e.2 else a) 0)).toNat = ofBits l := by
  have hfold (l : List Bool) (k a : Nat) :
      (l.zipIdx k).foldl (fun a e => if e.1 then a + 2 ^ e.2 else a) a = a + 2 ^ k * ofBits l := by
    induction l generalizing k a with
    | nil => simp [ofBits]
    | cons b t ih =>
      rw [List.zipIdx_cons, List.foldl_cons, ih, ofBits, Nat.pow_succ]
      cases b
      · simp
        ring
      · simp
        ring
  rw [hfold, Nat.pow_zero, Nat.one_mul, Nat.zero_add, BitVec.toNat_ofNat]
  exact Nat.mod_eq_of_lt (lt_of_lt_of_le (ofBits_lt l) (Nat.pow_le_pow_right two_pos h))

theorem numOf_packBits {n : Nat} {l : List Bool} (h : l.length = 8 * n) :
    numOf (packBits n l) = ofBits l ∧ (packBits n l).length = n := by
  induction n generalizing l with
  | zero =>
    have : l = [] := List.length_eq_zero_iff.mp (by omega)
    subst this
    exact ⟨rfl, rfl⟩
  | succ n ih =>
    have hdrop : (l.drop 8).length = 8 * n := by
      rw [List.length_drop]
      omega
    have htake : (l.take 8).length = 8 := by
      rw [List.length_take]
      omega
    obtain ⟨hnum, hlen⟩ := ih hdrop
    refine ⟨?_, by rw [packBits, List.length_cons, hlen]⟩
    rw [packBits, numOf, hnum, byte_of_bits htake.le]
    conv_rhs => rw [← List.take_append_drop 8 l, ofBits_append, htake]
    rfl

/-- A field as a digit: the magnitude, and the sign above it. -/
def fieldNum (m : Nat) (x : Bool × Nat) : Nat := x.2 + 2 ^ m * x.1.toNat

theorem fieldNum_lt {m : Nat} {x : Bool × Nat} (h : x.2 < 2 ^ m) : fieldNum m x < 2 ^ (1 + m) := by
  have := Bool.toNat_le x.1
  have hle : 2 ^ m * x.1.toNat ≤ 2 ^ m * 1 := Nat.mul_le_mul_left _ this
  rw [fieldNum, Nat.add_comm 1 m, Nat.pow_succ]
  omega

/-- What a digit holds. -/
theorem digit_parts {m D : Nat} {x : Bool × Nat} (h : x.2 < 2 ^ m) (hD : D % 2 ^ (1 + m) = fieldNum m x) :
    D % 2 ^ m = x.2 ∧ D / 2 ^ m % 2 = x.1.toNat := by
  have hpow : 2 ^ (1 + m) = 2 ^ m * 2 := by rw [Nat.add_comm, Nat.pow_succ]
  have hb := Bool.toNat_le x.1
  have hP := Nat.two_pow_pos m
  rw [hpow] at hD
  constructor
  · rw [← Nat.mod_mul_right_mod D (2 ^ m) 2, hD, fieldNum, Nat.add_mul_mod_self_left, Nat.mod_eq_of_lt h]
  · rw [← Nat.mod_mul_right_div_self, hD, fieldNum, Nat.add_mul_div_left _ _ hP, Nat.div_eq_of_lt h, Nat.zero_add]

theorem fieldBits_num {m : Nat} {x : Bool × Nat} (h : x.2 < 2 ^ m) :
    ofBits (fieldBits m x) = fieldNum m x ∧ (fieldBits m x).length = 1 + m := by
  refine ⟨?_, by simp [fieldBits, Nat.add_comm]⟩
  rw [fieldBits, ofBits_append, ofBits_testBits, Nat.mod_eq_of_lt h]
  simp [ofBits, fieldNum]

theorem ofBits_fields {m : Nat} (l : List (Bool × Nat)) (h : ∀ x ∈ l, x.2 < 2 ^ m) :
    ofBits (l.flatMap (fieldBits m)) = Nat.ofDigits (2 ^ (1 + m)) (l.map (fieldNum m)) ∧
      (l.flatMap (fieldBits m)).length = (1 + m) * l.length := by
  induction l with
  | nil => exact ⟨rfl, rfl⟩
  | cons x r ih =>
    obtain ⟨hnum, hlen⟩ := fieldBits_num (h x List.mem_cons_self)
    obtain ⟨hr, hrlen⟩ := ih fun y hy => h y (List.mem_cons_of_mem _ hy)
    constructor
    · rw [List.flatMap_cons, ofBits_append, hnum, hlen, hr, List.map_cons, Nat.ofDigits_cons]
    · rw [List.flatMap_cons, List.length_append, hlen, hrlen, List.length_cons, Nat.mul_succ, Nat.add_comm]

theorem numOf_halfwords (l : List (Bool × Nat)) (h : ∀ x ∈ l, x.2 < 2 ^ 15) :
    numOf (l.flatMap (fun x => bytesOf 2 (x.2 + if x.1 then 2 ^ 15 else 0))) = Nat.ofDigits (2 ^ (1 + 15)) (l.map (fieldNum 15)) ∧
      (l.flatMap (fun x => bytesOf 2 (x.2 + if x.1 then 2 ^ 15 else 0))).length = 2 * l.length := by
  induction l with
  | nil => exact ⟨rfl, rfl⟩
  | cons x r ih =>
    have hx := h x List.mem_cons_self
    have hnum : (x.2 + if x.1 then 2 ^ 15 else 0) = fieldNum 15 x := by
      unfold fieldNum
      cases x.1 <;> simp
    have hlt := fieldNum_lt hx
    obtain ⟨hr, hrlen⟩ := ih fun y hy => h y (List.mem_cons_of_mem _ hy)
    have hlen : (bytesOf 2 (fieldNum 15 x)).length = 2 := rfl
    constructor
    · rw [List.flatMap_cons, numOf_append, hnum, hlen, numOf_bytesOf, hr, List.map_cons, Nat.ofDigits_cons,
        Nat.mod_eq_of_lt (by simpa using hlt)]
      norm_num
    · rw [List.flatMap_cons, List.length_append, hnum, hlen, hrlen, List.length_cons, Nat.mul_succ, Nat.add_comm]

end Sys2Proof.Proofs.BlockBits
end

section
/-! SUPPORT. The elements of a block and the bits that bunpack delivers for them (R85, R86, R88, R147). -/

namespace Sys2Proof.Proofs.BlockElements

open Sys2Proof Sys2Proof.Machine Sys2Proof.Claims Sys2Proof.Proofs.Rounding Sys2Proof.Proofs.Formats Sys2Proof.Proofs.RoundOnce
  Sys2Proof.Proofs.FloatResults Sys2Proof.Proofs.ConversionValues Sys2Proof.Proofs.GroupEncoding Sys2Proof.Proofs.BlockBits

/-! ### Numbers of a format convert exactly -/

/-- A number of units that fit the significand is a magnitude of the format's grid. -/
theorem exists_mag {f : Fmt} {m : Nat} {e : Int} (hm : m ≠ 0) (hlt : m < 2 ^ (f.fbits + 1)) (he : f.qmin ≤ e) :
    ∃ c, mag f c = (m : ℝ) * 2 ^ e := by
  obtain ⟨hlo, hhi, hlen⟩ := bitLen_bounds hm
  have hfit : bitLen m ≤ f.fbits + 1 := by
    have := (Nat.pow_lt_pow_iff_right (by norm_num : 1 < 2)).mp (lt_of_le_of_lt hlo hlt)
    omega
  obtain ⟨d, hd⟩ : ∃ d : Nat, e = f.qmin + (d : Int) := ⟨(e - f.qmin).toNat, by omega⟩
  let s := min (f.fbits + 1 - bitLen m) d
  have hshift : m * 2 ^ s < 2 ^ (f.fbits + 1) := by
    calc m * 2 ^ s < 2 ^ bitLen m * 2 ^ s := Nat.mul_lt_mul_of_pos_right hhi (Nat.two_pow_pos s)
      _ = 2 ^ (bitLen m + s) := (Nat.pow_add ..).symm
      _ ≤ 2 ^ (f.fbits + 1) := Nat.pow_le_pow_right two_pos (by omega)
  have hnormal : d - s = 0 ∨ 2 ^ f.fbits ≤ m * 2 ^ s := by
    by_cases hsd : d ≤ s
    · exact .inl (by omega)
    · right
      calc 2 ^ f.fbits = 2 ^ (bitLen m - 1) * 2 ^ s := by rw [← Nat.pow_add]; congr 1; omega
        _ ≤ m * 2 ^ s := Nat.mul_le_mul_right _ hlo
  refine ⟨(d - s) * 2 ^ f.fbits + m * 2 ^ s, ?_⟩
  rw [mag_grid hnormal hshift.le, show e = (s : Int) + (f.qmin + ((d - s : Nat) : Int)) by omega, zpow_add₀ two_ne_zero (s : Int),
    zpow_natCast]
  push_cast
  ring

/-- A number of the format is delivered as it is. -/
theorem round_exact {f : Fmt} (hf : Standard f) {r : Rnd} (hmode : r.mode = 0) (hftz : r.ftz = false) (n : Bool) {m : Nat} {e : Int}
    (hm : m ≠ 0) (hlt : m < 2 ^ (f.fbits + 1)) (he : f.qmin ≤ e) (htop : (m : ℝ) * 2 ^ e < mag f (f.maxBits + 1)) :
    ∃ c, c ≤ f.maxBits ∧ mag f c = (m : ℝ) * 2 ^ e ∧ f.round r n m e false = (c + f.sign n, 0) := by
  obtain ⟨c, hc⟩ := exists_mag hm hlt he
  obtain ⟨b, hgrid, -, hin⟩ := round_spec hf (by rw [hmode]; omega) n hm (magnitude_exact m e) (fun h => by cases h)
  rw [hmode] at hgrid
  have hb : mag f b = (m : ℝ) * 2 ^ e := by
    have hle := (hgrid c).1
    rw [hc, sub_self, abs_zero] at hle
    linarith [abs_nonpos_iff.mp hle]
  have hmax : b ≤ f.maxBits := Nat.lt_succ_iff.mp ((mag_strictMono f).lt_iff_lt.mp (hb ▸ htop))
  have hpast : ¬ PastMax f r.mode ((m : ℝ) * 2 ^ e) b := by
    have hle := (mag_strictMono f).monotone hmax
    have hunit := mag_unit_pos f f.maxBits
    rw [PastMax, if_pos (.inl hmode)]
    linarith
  obtain ⟨w, hw, -, hround⟩ := hin hpast
  refine ⟨b, hmax, hb, ?_⟩
  rw [hround, hftz, Bool.false_and, if_neg Bool.false_ne_true, hw hb]

/-- A number of f32 converts to its own bits. -/
theorem convert_exact_of_fits (n : Bool) {m : Nat} {e : Int} (hm : m ≠ 0) (hlt : m < 2 ^ 24) (he : -149 ≤ e)
    (htop : (m : ℝ) * 2 ^ e < 2 ^ (128 : Int)) :
    let y := (f32.convert .rne (.fin n m e)).1
    y < 2 ^ 32 ∧ finite (f32.read y) ∧ valQ (f32.read y) = valQ (.fin n m e) := by
  intro y
  obtain ⟨c, hc, hmag, hround⟩ := round_exact (r := { Rnd.rne with conv := true }) standard_f32 rfl rfl n hm hlt he (f32_top ▸ htop)
  have hy : y = c + f32.sign n := congrArg Prod.fst hround
  rw [hy]
  have hval := valR_read standard_f32.ebits n hc
  rw [hmag, ← valR_fin] at hval
  exact ⟨bits_lt_width (lt_of_le_of_lt hc (maxBits_lt f32)) n, finite_read standard_f32.ebits n hc, Rat.cast_injective hval⟩

/-! ### A row's fields and groups in its number (R85, R88) -/

section
variable {fmt : Nat}

theorem format_cases (h : fmt ∈ [16, 17, 18, 19]) :
    (fmt = 19 ∧ isPalush fmt = false) ∨ (fmt ≠ 19 ∧ fmt ≠ 6 ∧ isPalush fmt = true) := by
  simp only [List.mem_cons, List.not_mem_nil, or_false] at h
  rcases h with rfl | rfl | rfl | rfl <;> decide

theorem magBits_bounds (h : fmt ∈ [16, 17, 18, 19]) : 1 ≤ magBits fmt ∧ magBits fmt ≤ 15 := by
  simp only [List.mem_cons, List.not_mem_nil, or_false] at h
  rcases h with rfl | rfl | rfl | rfl <;> decide

variable (N : Nat) {i g : Nat}

section
variable (h19 : fmt ≠ 19) (h6 : fmt ≠ 6)
include h19

theorem rowSign_palush (h6 : fmt ≠ 6) (hi : i < 32) :
    rowSign fmt false 32 N i = N / 2 ^ (i * (1 + magBits fmt) + magBits fmt) % 2 := by
  unfold rowSign
  simp only [Bool.false_eq_true, if_false, if_neg h19, if_neg h6, Nat.div_eq_of_lt hi, Nat.mod_eq_of_lt hi, Nat.zero_mul, Nat.zero_add]

theorem rowMag_palush (h6 : fmt ≠ 6) (hi : i < 32) :
    rowMag fmt false 32 N i = N / 2 ^ (i * (1 + magBits fmt)) % 2 ^ magBits fmt := by
  unfold rowMag
  simp only [Bool.false_eq_true, if_false, if_neg h19, if_neg h6, Nat.div_eq_of_lt hi, Nat.mod_eq_of_lt hi, Nat.zero_mul, Nat.zero_add]

theorem rowExp_palush (hg : g < 2) : rowExp fmt false 32 N g = N / 2 ^ (32 * (1 + magBits fmt) + 16 + 8 * g) % 256 := by
  unfold rowExp
  simp only [Bool.false_eq_true, if_false, if_neg h19, Nat.div_eq_of_lt hg, Nat.mod_eq_of_lt hg, Nat.zero_mul, Nat.zero_add]

theorem rowMicro_palush (hg : g < 2) : rowMicro fmt false 32 N g = N / 2 ^ (32 * (1 + magBits fmt) + 8 * g) % 256 := by
  unfold rowMicro
  simp only [Bool.false_eq_true, if_false, if_neg h19, Nat.div_eq_of_lt hg, Nat.mod_eq_of_lt hg, Nat.zero_mul, Nat.zero_add]

end

theorem rowSign_al16 : rowSign 19 false 32 N i = N / 2 ^ (272 * (i / 16) + 16 * (i % 16) + 15) % 2 := rfl

theorem rowMag_al16 : rowMag 19 false 32 N i = N / 2 ^ (272 * (i / 16) + 16 * (i % 16)) % 2 ^ 15 := rfl

theorem rowExp_al16 : rowExp 19 false 32 N g = N / 2 ^ (272 * g + 256) % 256 := rfl

/-! ### Reading the packed layout -/

theorem testBit_eq_decide (i : Nat) : N.testBit i = decide (N / 2 ^ i % 2 = 1) := by
  rw [Nat.testBit_eq_decide_div_mod_eq]

/-- A field read from the packed layout. -/
theorem ofPacked_field (hfmt : fmt ∈ [16, 17, 18, 19]) (l : List Byte) (hi : i < 32) :
    ((RawRow.ofPacked fmt 32 l).fields[i]?).getD (false, 0) =
      (decide (rowSign fmt false 32 (numOf l) i = 1), rowMag fmt false 32 (numOf l) i) := by
  rcases format_cases hfmt with ⟨rfl, -⟩ | ⟨h19, h6, hpalush⟩
  · have hread : ((RawRow.ofPacked 19 32 l).fields[i]?).getD (false, 0) =
        ((numAt l (i / 16 * 34 + 2 * (i % 16)) 2).testBit 15, numAt l (i / 16 * 34 + 2 * (i % 16)) 2 % 2 ^ 15) := by
      simp [RawRow.ofPacked, isPalush, hi]
    have hplace : 8 * (i / 16 * 34 + 2 * (i % 16)) = 272 * (i / 16) + 16 * (i % 16) := by ring
    rw [hread, numAt_eq, hplace, testBit_eq_decide, rowSign_al16, rowMag_al16,
      div_two_pow_add _ (272 * (i / 16) + 16 * (i % 16)) 15]
    generalize numOf l / 2 ^ (272 * (i / 16) + 16 * (i % 16)) = x
    have hsign : x % 2 ^ (8 * 2) / 2 ^ 15 % 2 = x / 2 ^ 15 % 2 := by omega
    have hmag : x % 2 ^ (8 * 2) % 2 ^ 15 = x % 2 ^ 15 := by omega
    rw [hsign, hmag]
  · have hread : ((RawRow.ofPacked fmt 32 l).fields[i]?).getD (false, 0) =
        (bitOf l (i * (1 + magBits fmt) + magBits fmt), bitsOf l (i * (1 + magBits fmt)) (magBits fmt)) := by
      simp [RawRow.ofPacked, hpalush, hi, Nat.div_eq_of_lt hi, Nat.mod_eq_of_lt hi]
    rw [hread, bitOf_eq, bitsOf_eq, testBit_eq_decide, rowSign_palush _ h19 h6 hi, rowMag_palush _ h19 h6 hi]

/-- The micro bits and the exponent of a group read from the packed layout. -/
theorem ofPacked_group (hfmt : fmt ∈ [16, 17, 18, 19]) (l : List Byte) (hg : g < 2) :
    ((RawRow.ofPacked fmt 32 l).groups[g]?).getD (0, 0) = (rowMicro fmt false 32 (numOf l) g, rowExp fmt false 32 (numOf l) g) := by
  rcases format_cases hfmt with ⟨rfl, -⟩ | ⟨h19, h6, hpalush⟩
  · have hread : ((RawRow.ofPacked 19 32 l).groups[g]?).getD (0, 0) = (0, numAt l (g * 34 + 32) 1) := by
      simp [RawRow.ofPacked, isPalush, hg]
    rw [hread, numAt_eq, rowExp_al16, show 8 * (g * 34 + 32) = 272 * g + 256 by ring]
    rfl
  · have hread : ((RawRow.ofPacked fmt 32 l).groups[g]?).getD (0, 0) =
        (numAt l (4 * (1 + magBits fmt) + g) 1, numAt l (4 * (1 + magBits fmt) + 2 + g) 1) := by
      simp [RawRow.ofPacked, hpalush, hg, Nat.div_eq_of_lt hg, Nat.mod_eq_of_lt hg, palushBytes]
    rw [hread, numAt_eq, numAt_eq, rowMicro_palush _ h19 hg, rowExp_palush _ h19 hg,
      show 8 * (4 * (1 + magBits fmt) + g) = 32 * (1 + magBits fmt) + 8 * g by ring,
      show 8 * (4 * (1 + magBits fmt) + 2 + g) = 32 * (1 + magBits fmt) + 16 + 8 * g by ring]
    rfl

/-- The micro bit of an element as a number: none in AL16. -/
theorem microBit_eq (hfmt : fmt ∈ [16, 17, 18, 19]) (g j : Nat) :
    (if isPalush fmt ∧ (rowMicro fmt false 32 N g).testBit j then 1 else 0) = rowMicro fmt false 32 N g / 2 ^ j % 2 := by
  rcases format_cases hfmt with ⟨rfl, -⟩ | ⟨-, -, hpalush⟩
  · have hzero : rowMicro 19 false 32 N g = 0 := rfl
    rw [hzero, Nat.zero_div, if_neg (fun h => absurd h.1 (by decide))]
  · rw [testBit_eq_decide, hpalush]
    simp only [true_and, decide_eq_true_iff]
    split <;> omega

/-- The value of an element as the model reads it. -/
theorem value_ofPacked (hfmt : fmt ∈ [16, 17, 18, 19]) (l : List Byte) (hi : i < 32) :
    (RawRow.ofPacked fmt 32 l).value fmt i =
      let N := numOf l
      let e := rowExp fmt false 32 N (i / 16)
      let u := rowMicro fmt false 32 N (i / 16) / 2 ^ (i % 16 / 2) % 2
      if e = 255 then .nan false
      else if rowMag fmt false 32 N i = 0 then .fin false 0 0
      else .fin (decide (rowSign fmt false 32 N i = 1)) (rowMag fmt false 32 N i)
        ((e : Int) - 127 - (u : Int) - ((magBits fmt : Int) - 1)) := by
  have hm := (magBits_bounds hfmt).1
  dsimp only
  rw [← microBit_eq _ hfmt, RawRow.value, ofPacked_field hfmt l hi, ofPacked_group hfmt l (by omega), Nat.cast_sub hm]
  rfl

theorem rowMag_lt (hfmt : fmt ∈ [16, 17, 18, 19]) (hi : i < 32) : rowMag fmt false 32 N i < 2 ^ magBits fmt := by
  rcases format_cases hfmt with ⟨rfl, -⟩ | ⟨h19, h6, -⟩
  · exact Nat.mod_lt _ (Nat.two_pow_pos _)
  · rw [rowMag_palush _ h19 h6 hi]
    exact Nat.mod_lt _ (Nat.two_pow_pos _)

theorem rowExp_lt (hfmt : fmt ∈ [16, 17, 18, 19]) (hg : g < 2) : rowExp fmt false 32 N g < 256 := by
  rcases format_cases hfmt with ⟨rfl, -⟩ | ⟨h19, h6, -⟩
  · exact Nat.mod_lt _ (by omega)
  · rw [rowExp_palush _ h19 hg]
    exact Nat.mod_lt _ (by omega)

/-- An element below `2 ^ m` units at its exponent lies below 2^128. -/
theorem element_lt {m M : Nat} {E u : Int} (hM : M < 2 ^ m) (hE : E ≤ 254) (hu : 0 ≤ u) :
    (M : ℝ) * 2 ^ (E - 127 - u - ((m : Int) - 1)) < 2 ^ (128 : Int) := by
  have hM' : (M : ℝ) < 2 ^ m := by exact_mod_cast hM
  calc (M : ℝ) * 2 ^ (E - 127 - u - ((m : Int) - 1)) < 2 ^ m * 2 ^ (E - 127 - u - ((m : Int) - 1)) :=
        mul_lt_mul_of_pos_right hM' (zpow_two_pos _)
    _ = 2 ^ ((m : Int) + (E - 127 - u - ((m : Int) - 1))) := by rw [zpow_add₀ two_ne_zero, zpow_natCast]
    _ ≤ 2 ^ (128 : Int) := zpow_le_zpow_right₀ one_le_two (by omega)

/-- bunpack delivers the number of each element, the canonical NaN in a NaN group (R86, R88, R147). -/
theorem unpacked_element (hfmt : fmt ∈ [16, 17, 18, 19]) (l : List Byte) (hi : i < 32) :
    let y := (f32.convert .rne ((RawRow.ofPacked fmt 32 l).value fmt i)).1
    (rowValue fmt false 32 (numOf l) i = none → y = 0x7FC00000) ∧
    ∀ q, rowValue fmt false 32 (numOf l) i = some q →
      if q = 0 then y = 0 else y < 2 ^ 32 ∧ finite (f32.read y) ∧ valQ (f32.read y) = q := by
  intro y
  have hvalue := value_ofPacked hfmt l hi
  have hmag := rowMag_lt (numOf l) hfmt hi
  have hexp := rowExp_lt (numOf l) hfmt (g := i / 16) (by omega)
  have hbits := magBits_bounds hfmt
  dsimp only at hvalue
  unfold rowValue
  dsimp only
  simp only [y]
  rw [hvalue]
  generalize rowExp fmt false 32 (numOf l) (i / 16) = e at *
  have hu : rowMicro fmt false 32 (numOf l) (i / 16) / 2 ^ (i % 16 / 2) % 2 < 2 := Nat.mod_lt _ two_pos
  generalize rowMicro fmt false 32 (numOf l) (i / 16) / 2 ^ (i % 16 / 2) % 2 = u at *
  generalize rowMag fmt false 32 (numOf l) i = M at *
  generalize rowSign fmt false 32 (numOf l) i = s at *
  by_cases he : e = 255
  · rw [if_pos he, if_pos he]
    exact ⟨fun _ => rfl, nofun⟩
  · rw [if_neg he, if_neg he]
    refine ⟨nofun, fun q h => ?_⟩
    rw [Option.some.injEq] at h
    have hq : q = valQ (.fin (decide (s = 1)) M ((e : Int) - 127 - (u : Int) - ((magBits fmt : Int) - 1))) := by
      rw [← h]
      simp [valQ]
    by_cases hM : M = 0
    · rw [if_pos hM, if_pos (by rw [hq]; exact valQ_fin_eq_zero.mpr hM)]
      rfl
    · rw [if_neg hM, if_neg (by rw [hq]; exact fun h => hM (valQ_fin_eq_zero.mp h)), hq]
      refine convert_exact_of_fits _ hM ?_ (by omega) (element_lt hmag (by omega) (by omega))
      exact lt_of_lt_of_le hmag (Nat.pow_le_pow_right two_pos (by omega))

end

end Sys2Proof.Proofs.BlockElements
end

section
/-! SUPPORT. A row written in the packed layout of a block format, and what bpack writes (R85, R87, R88, R89, R146). -/

namespace Sys2Proof.Proofs.BlockWriting

open Sys2Proof Sys2Proof.Machine Sys2Proof.Claims Sys2Proof.Proofs.GroupEncoding Sys2Proof.Proofs.BlockBits
  Sys2Proof.Proofs.BlockElements

/-! ### Fields as digits -/

/-- The fields of a list are the digits of its number, with something above them. -/
theorem field_of_digits {m N T : Nat} {l : List (Bool × Nat)} (hl : ∀ x ∈ l, x.2 < 2 ^ m)
    (hN : N = Nat.ofDigits (2 ^ (1 + m)) (l.map (fieldNum m)) + (2 ^ (1 + m)) ^ l.length * T) {i : Nat} (hi : i < l.length) :
    N / 2 ^ (i * (1 + m)) % 2 ^ m = ((l[i]?).getD (false, 0)).2 ∧
      N / 2 ^ (i * (1 + m) + m) % 2 = ((l[i]?).getD (false, 0)).1.toNat := by
  have hdigits : ∀ d ∈ l.map (fieldNum m), d < 2 ^ (1 + m) := by
    intro d hd
    obtain ⟨x, hx, rfl⟩ := List.mem_map.mp hd
    exact fieldNum_lt (hl x hx)
  have hdigit := ofDigits_digit _ T hdigits (i := i) (by rwa [List.length_map])
  simp only [List.length_map, List.getElem_map] at hdigit
  rw [← hN, ← Nat.pow_mul, Nat.mul_comm (1 + m) i] at hdigit
  obtain ⟨hmag, hsign⟩ := digit_parts (hl _ (List.getElem_mem hi)) hdigit
  rw [div_two_pow_add, List.getElem?_eq_getElem hi, Option.getD_some]
  exact ⟨hmag, hsign⟩

theorem above_digits {m N T : Nat} {l : List (Bool × Nat)} (hl : ∀ x ∈ l, x.2 < 2 ^ m)
    (hN : N = Nat.ofDigits (2 ^ (1 + m)) (l.map (fieldNum m)) + (2 ^ (1 + m)) ^ l.length * T) : N / 2 ^ (l.length * (1 + m)) = T := by
  have hdigits : ∀ d ∈ l.map (fieldNum m), d < 2 ^ (1 + m) := by
    intro d hd
    obtain ⟨x, hx, rfl⟩ := List.mem_map.mp hd
    exact fieldNum_lt (hl x hx)
  have habove := ofDigits_above (Nat.two_pow_pos (1 + m)) _ T hdigits
  rwa [List.length_map, ← hN, ← Nat.pow_mul, Nat.mul_comm (1 + m)] at habove

/-! ### A row of two groups -/

/-- A group's fields, micro bits and exponent within the bounds of a format, its micro bits 0 in AL16. -/
structure GroupFits (fmt : Nat) (fields : List (Bool × Nat)) (micro e : Nat) : Prop where
  length : fields.length = 16
  mag : ∀ x ∈ fields, x.2 < 2 ^ magBits fmt
  micro_lt : micro < 256
  exponent_lt : e < 256
  al16 : fmt = 19 → micro = 0

/-- A number holds a group as group `g` of a row. -/
def HoldsGroup (fmt N g : Nat) (fields : List (Bool × Nat)) (micro e : Nat) : Prop :=
  (∀ i, i < 16 → rowMag fmt false 32 N (16 * g + i) = ((fields[i]?).getD (false, 0)).2 ∧
    rowSign fmt false 32 N (16 * g + i) = ((fields[i]?).getD (false, 0)).1.toNat) ∧
  rowMicro fmt false 32 N g = micro ∧ rowExp fmt false 32 N g = e

section
variable {fmt : Nat} {f0 f1 : List (Bool × Nat)} {u0 u1 e0 e1 : Nat} (h0 : GroupFits fmt f0 u0 e0)
include h0

theorem getElem_second {i : Nat} : (((f0 ++ f1)[16 + i]?).getD (false, 0)) = ((f1[i]?).getD (false, 0)) := by
  rw [List.getElem?_append_right (by rw [h0.length]; omega), h0.length, Nat.add_sub_cancel_left]

theorem getElem_first {i : Nat} (hi : i < 16) : (((f0 ++ f1)[i]?).getD (false, 0)) = ((f0[i]?).getD (false, 0)) := by
  rw [List.getElem?_append_left (by rwa [h0.length])]

/-- The bytes of a Palush block: the fields, then the micro bits of the groups and their exponents (R85). -/
theorem toPacked_palush (h1 : GroupFits fmt f1 u1 e1) (h19 : fmt ≠ 19) (h6 : fmt ≠ 6) (hpalush : isPalush fmt = true) :
    let l := RawRow.toPacked fmt { fields := f0 ++ f1, groups := [(u0, e0), (u1, e1)] }
    l.length = 4 * (1 + magBits fmt) + 4 ∧ HoldsGroup fmt (numOf l) 0 f0 u0 e0 ∧ HoldsGroup fmt (numOf l) 1 f1 u1 e1 := by
  intro l
  have hlen : (f0 ++ f1).length = 32 := by rw [List.length_append, h0.length, h1.length]
  have hl : l = packBits (4 * (1 + magBits fmt)) ((f0 ++ f1).flatMap (fieldBits (magBits fmt))) ++
      [BitVec.ofNat 8 u0, BitVec.ofNat 8 u1, BitVec.ofNat 8 e0, BitVec.ofNat 8 e1] := by
    simp only [l, RawRow.toPacked, if_pos hpalush, hlen]
    have htake : (f0 ++ f1).take 32 = f0 ++ f1 := List.take_of_length_le hlen.le
    simp [htake]
  have hmag : ∀ x ∈ f0 ++ f1, x.2 < 2 ^ magBits fmt := by
    intro x hx
    exact (List.mem_append.mp hx).elim (h0.mag x) (h1.mag x)
  obtain ⟨hbits, hbitsLen⟩ := ofBits_fields (f0 ++ f1) hmag
  rw [hlen] at hbitsLen
  obtain ⟨hpack, hpackLen⟩ := numOf_packBits (n := 4 * (1 + magBits fmt)) (hbitsLen.trans (by ring))
  have hu0 := h0.micro_lt
  have hu1 := h1.micro_lt
  have he0 := h0.exponent_lt
  have he1 := h1.exponent_lt
  have htail : numOf [BitVec.ofNat 8 u0, BitVec.ofNat 8 u1, BitVec.ofNat 8 e0, BitVec.ofNat 8 e1] =
      u0 + 256 * (u1 + 256 * (e0 + 256 * e1)) := by
    simp only [numOf, BitVec.toNat_ofNat]
    omega
  have hN : numOf l = Nat.ofDigits (2 ^ (1 + magBits fmt)) ((f0 ++ f1).map (fieldNum (magBits fmt))) +
      (2 ^ (1 + magBits fmt)) ^ (f0 ++ f1).length * (u0 + 256 * (u1 + 256 * (e0 + 256 * e1))) := by
    rw [hl, numOf_append, hpack, hpackLen, hbits, htail, hlen, pow_256, ← Nat.pow_mul]
    ring_nf
  have habove := above_digits hmag hN
  rw [hlen] at habove
  have hplace (k : Nat) : numOf l / 2 ^ (32 * (1 + magBits fmt) + k) = (u0 + 256 * (u1 + 256 * (e0 + 256 * e1))) / 2 ^ k := by
    rw [div_two_pow_add, habove]
  have hfield {i : Nat} (hi : i < 32) := field_of_digits hmag hN (i := i) (by rwa [hlen])
  refine ⟨by rw [hl, List.length_append, hpackLen]; rfl, ⟨fun i hi => ?_, ?_, ?_⟩, fun i hi => ?_, ?_, ?_⟩
  · rw [Nat.mul_zero, Nat.zero_add, rowMag_palush _ h19 h6 (by omega), rowSign_palush _ h19 h6 (by omega), ← getElem_first h0 hi]
    exact hfield (by omega)
  · rw [rowMicro_palush _ h19 (by omega), hplace]
    omega
  · rw [rowExp_palush _ h19 (by omega), Nat.add_assoc, hplace]
    omega
  · rw [Nat.mul_one, rowMag_palush _ h19 h6 (by omega), rowSign_palush _ h19 h6 (by omega), ← getElem_second h0]
    exact hfield (by omega)
  · rw [rowMicro_palush _ h19 (by omega), hplace]
    omega
  · rw [rowExp_palush _ h19 (by omega), Nat.add_assoc, hplace]
    omega

end

/-- A group of AL16 at its place in a number. -/
theorem holdsGroup_al16 {N g T u e : Nat} {f : List (Bool × Nat)} (h : GroupFits 19 f u e)
    (hN : N / 2 ^ (272 * g) = Nat.ofDigits (2 ^ (1 + 15)) (f.map (fieldNum 15)) + (2 ^ (1 + 15)) ^ f.length * T)
    (hT : T % 256 = e) : HoldsGroup 19 N g f u e := by
  have habove := above_digits h.mag hN
  rw [h.length] at habove
  refine ⟨fun i hi => ?_, (h.al16 rfl).symm, ?_⟩
  · have hdiv : (16 * g + i) / 16 = g := by omega
    have hmod : (16 * g + i) % 16 = i := by omega
    obtain ⟨hmag, hsign⟩ := field_of_digits h.mag hN (i := i) (by rwa [h.length])
    rw [rowMag_al16, rowSign_al16, hdiv, hmod, Nat.add_assoc, div_two_pow_add, div_two_pow_add, Nat.mul_comm 16 i]
    exact ⟨hmag, hsign⟩
  · rw [rowExp_al16, div_two_pow_add, ← hT, ← habove]
    rfl

/-- A group's 34 bytes in AL16: the halfwords, the exponent and a zero byte (R88). -/
theorem numOf_al16Group {f : List (Bool × Nat)} {u e : Nat} (h : GroupFits 19 f u e) :
    let l := f.flatMap (fun x => bytesOf 2 (x.2 + if x.1 then 2 ^ 15 else 0)) ++ [BitVec.ofNat 8 e, 0]
    numOf l = Nat.ofDigits (2 ^ (1 + 15)) (f.map (fieldNum 15)) + (2 ^ (1 + 15)) ^ f.length * e ∧ l.length = 34 := by
  intro l
  obtain ⟨hnum, hlen⟩ := numOf_halfwords f h.mag
  have he := h.exponent_lt
  have htail : numOf [BitVec.ofNat 8 e, 0] = e := by
    change (BitVec.ofNat 8 e).toNat + 256 * (0 + 256 * 0) = e
    rw [BitVec.toNat_ofNat]
    omega
  rw [h.length] at hlen
  constructor
  · simp only [l]
    rw [numOf_append, hnum, hlen, htail, h.length, pow_256, ← Nat.pow_mul]
  · simp only [l]
    rw [List.length_append, hlen]
    rfl

/-- The bytes of an AL16 block: its two groups, each with a zero byte at its end (R88). -/
theorem toPacked_al16 {f0 f1 : List (Bool × Nat)} {u0 u1 e0 e1 : Nat} (h0 : GroupFits 19 f0 u0 e0) (h1 : GroupFits 19 f1 u1 e1) :
    let l := RawRow.toPacked 19 { fields := f0 ++ f1, groups := [(u0, e0), (u1, e1)] }
    l.length = 68 ∧ HoldsGroup 19 (numOf l) 0 f0 u0 e0 ∧ HoldsGroup 19 (numOf l) 1 f1 u1 e1 ∧
      numOf l / 2 ^ 264 % 256 = 0 ∧ numOf l / 2 ^ 536 % 256 = 0 := by
  intro l
  have hlen : (f0 ++ f1).length = 32 := by rw [List.length_append, h0.length, h1.length]
  obtain ⟨hnum0, hlen0⟩ := numOf_al16Group h0
  obtain ⟨hnum1, hlen1⟩ := numOf_al16Group h1
  generalize hb0 : f0.flatMap (fun x => bytesOf 2 (x.2 + if x.1 then 2 ^ 15 else 0)) ++ [BitVec.ofNat 8 e0, 0] = b0 at *
  generalize hb1 : f1.flatMap (fun x => bytesOf 2 (x.2 + if x.1 then 2 ^ 15 else 0)) ++ [BitVec.ofNat 8 e1, 0] = b1 at *
  have hl : l = b0 ++ b1 := by
    have hfirst : ((f0 ++ f1).drop (16 * 0)).take 16 = f0 := List.take_left' h0.length
    have hsecond : ((f0 ++ f1).drop (16 * 1)).take 16 = f1 := by
      rw [List.drop_left' h0.length]
      exact List.take_of_length_le h1.length.le
    have hgroups : l = (List.range 2).flatMap (fun g =>
        (((f0 ++ f1).drop (16 * g)).take 16).flatMap (fun x => bytesOf 2 (x.2 + if x.1 then 2 ^ 15 else 0)) ++
          [BitVec.ofNat 8 (([(u0, e0), (u1, e1)][g]?).getD (0, 0)).2, 0]) := by
      simp only [l, RawRow.toPacked, hlen]
      rfl
    rw [hgroups, List.range_succ, List.range_one, List.cons_append, List.nil_append, List.flatMap_cons, List.flatMap_cons,
      List.flatMap_nil, List.append_nil, hfirst, hsecond]
    exact congrArg₂ _ hb0 hb1
  have hN : numOf l = numOf b0 + 2 ^ 272 * numOf b1 := by rw [hl, numOf_append, hlen0, pow_256]
  have hlow : numOf b0 < 2 ^ 272 := by
    have := SystemRegisters.numOf_lt b0
    rwa [hlen0, pow_256, (by rfl : 8 * 34 = 272)] at this
  have hhigh : numOf l / 2 ^ (272 * 1) = numOf b1 := by
    rw [hN, Nat.mul_one]
    exact div_two_pow_above hlow _
  have hfirst : numOf l / 2 ^ (272 * 0) =
      Nat.ofDigits (2 ^ (1 + 15)) (f0.map (fieldNum 15)) + (2 ^ (1 + 15)) ^ f0.length * (e0 + 256 * (256 * numOf b1)) := by
    rw [Nat.mul_zero, Nat.pow_zero, Nat.div_one, hN, hnum0, h0.length, show 272 = (1 + 15) * 16 + 16 by rfl,
      Nat.pow_add 2 ((1 + 15) * 16) 16, Nat.pow_mul]
    ring
  have habove0 := above_digits h0.mag hfirst
  have habove1 := above_digits h1.mag hnum1
  rw [h0.length, Nat.mul_zero, Nat.pow_zero, Nat.div_one] at habove0
  rw [h1.length] at habove1
  have he0 := h0.exponent_lt
  have he1 := h1.exponent_lt
  refine ⟨by rw [hl, List.length_append, hlen0, hlen1],
    holdsGroup_al16 h0 hfirst ((Nat.add_mul_mod_self_left ..).trans (Nat.mod_eq_of_lt he0)),
    holdsGroup_al16 h1 (hhigh.trans hnum1) (Nat.mod_eq_of_lt he1), ?_, ?_⟩
  · rw [show 264 = 16 * (1 + 15) + 8 by rfl, div_two_pow_add]
    change numOf l / 2 ^ (16 * (1 + magBits 19)) / 2 ^ 8 % 256 = 0
    rw [habove0]
    omega
  · rw [show 536 = 272 * 1 + (16 * (1 + 15) + 8) by rfl, div_two_pow_add, hhigh, div_two_pow_add]
    change numOf b1 / 2 ^ (16 * (1 + magBits 19)) / 2 ^ 8 % 256 = 0
    rw [habove1]
    omega

theorem blockWords_palush {fmt : Nat} (hfmt : fmt ∈ [16, 17, 18, 19]) (h19 : fmt ≠ 19) :
    4 * blockWords fmt = 4 * (1 + magBits fmt) + 4 := by
  simp only [List.mem_cons, List.not_mem_nil, or_false] at hfmt
  rcases hfmt with rfl | rfl | rfl | rfl
  · rfl
  · rfl
  · rfl
  · exact absurd rfl h19

/-- A row of two groups in the packed layout: its words hold both groups, and AL16's reserved bytes are zero. -/
theorem toPacked_holds {fmt : Nat} (hfmt : fmt ∈ [16, 17, 18, 19]) {f0 f1 : List (Bool × Nat)} {u0 u1 e0 e1 : Nat}
    (h0 : GroupFits fmt f0 u0 e0) (h1 : GroupFits fmt f1 u1 e1) :
    let l := RawRow.toPacked fmt { fields := f0 ++ f1, groups := [(u0, e0), (u1, e1)] }
    l.length = 4 * blockWords fmt ∧ HoldsGroup fmt (numOf l) 0 f0 u0 e0 ∧ HoldsGroup fmt (numOf l) 1 f1 u1 e1 ∧
      (fmt = 19 → numOf l / 2 ^ 264 % 256 = 0 ∧ numOf l / 2 ^ 536 % 256 = 0) := by
  intro l
  rcases format_cases hfmt with ⟨rfl, -⟩ | ⟨h19, h6, hpalush⟩
  · obtain ⟨hlen, hfirst, hsecond, hzero⟩ := toPacked_al16 h0 h1
    exact ⟨hlen, hfirst, hsecond, fun _ => hzero⟩
  · obtain ⟨hlen, hfirst, hsecond⟩ := toPacked_palush h0 h1 h19 h6 hpalush
    refine ⟨hlen.trans ?_, hfirst, hsecond, fun h => absurd h h19⟩
    exact (blockWords_palush hfmt h19).symm

/-! ### What the encoder writes -/

theorem field_lt {m mode : Nat} {l : List FVal} {e : Int} {u : Nat → Nat} : ∀ x ∈ (fieldsAt m mode l e u).1, x.2 < 2 ^ m := by
  intro x hx
  unfold fieldsAt at hx
  obtain ⟨y, -, rfl⟩ := List.mem_map.mp hx
  have := Nat.two_pow_pos m
  dsimp only
  omega

/-- The encoder's groups fit their format. -/
theorem encodeGroup_fits (fmt mode : Nat) (x : Nat → FVal) :
    let p := encodeGroup (magBits fmt) (isPalush fmt) mode ((List.range 16).map x)
    GroupFits fmt p.1 p.2.1.1 p.2.1.2 := by
  intro p
  have hzeros : ∀ y ∈ ((List.range 16).map x).map (fun _ => ((false, 0) : Bool × Nat)), y.2 < 2 ^ magBits fmt := by
    intro y hy
    obtain ⟨-, -, rfl⟩ := List.mem_map.mp hy
    exact Nat.two_pow_pos _
  by_cases hbad : ∃ i, i < 16 ∧ ¬ finite (x i)
  · obtain ⟨inv, -, hp⟩ := encodeGroup_bad (m := magBits fmt) (micro := isPalush fmt) (mode := mode) hbad
    simp only [p, hp]
    exact ⟨rfl, hzeros, by omega, by omega, fun _ => rfl⟩
  · have hfin : ∀ i, i < 16 → finite (x i) := fun i hi => by
      by_contra h
      exact hbad ⟨i, hi, h⟩
    by_cases hzero : ∀ i, i < 16 → valQ (x i) = 0
    · have hp := encodeGroup_zero (m := magBits fmt) (micro := isPalush fmt) (mode := mode) fun i hi => ⟨hfin i hi, hzero i hi⟩
      simp only [p, hp]
      exact ⟨rfl, hzeros, by omega, by omega, fun _ => rfl⟩
    · have hp := encodeGroup_finite (m := magBits fmt) (mode := mode) (micro := isPalush fmt) (l := (List.range 16).map x)
        (Bool.eq_false_iff.mpr fun h => hbad ((groupBad_iff x).mp h)) (Bool.eq_false_iff.mpr fun h => hzero ((all_isZero_iff hfin).mp h))
      simp only [p, hp]
      refine ⟨by simp [fieldsAt], field_lt, (microNum_bit fun j => microAt_le ..).1, ?_, ?_⟩
      · rw [limited_eq]
        omega
      · rintro rfl
        rfl

/-- The encoder writes a row group by group. -/
theorem encodeRow_two (fmt mode : Nat) (x : Nat → FVal) :
    let p (g : Nat) := encodeGroup (magBits fmt) (isPalush fmt) mode ((List.range 16).map fun i => x (16 * g + i))
    encodeRow fmt mode 2 ((List.range 32).map x) =
      ({ fields := (p 0).1 ++ (p 1).1, groups := [(p 0).2.1, (p 1).2.1] }, (p 0).2.2 ||| (p 1).2.2) := by
  intro p
  have hrow : encodeRow fmt mode 2 ((List.range 32).map x) =
      ({ fields := (p 0).1 ++ ((p 1).1 ++ []), groups := [(p 0).2.1, (p 1).2.1] }, (p 0).2.2 ||| ((p 1).2.2 ||| 0)) := rfl
  have hflags : (p 1).2.2 ||| 0 = (p 1).2.2 := BitVec.or_zero
  rw [hrow, List.append_nil, hflags]

/-- A number that holds an encoded group encodes its values. -/
theorem encodesGroup_of_holds {fmt mode N g : Nat} (hfmt : fmt ∈ [16, 17, 18, 19]) (hmode : mode ≤ 4) (x : Nat → FVal)
    (h : let p := encodeGroup (magBits fmt) (isPalush fmt) mode ((List.range 16).map x)
      HoldsGroup fmt N g p.1 p.2.1.1 p.2.1.2) :
    EncodesGroup fmt mode x (rowExp fmt false 32 N g) (rowMicro fmt false 32 N g) (fun i => rowMag fmt false 32 N (16 * g + i))
      (fun i => rowSign fmt false 32 N (16 * g + i)) (encodeGroup (magBits fmt) (isPalush fmt) mode ((List.range 16).map x)).2.2 := by
  obtain ⟨hfields, hmicro, hexp⟩ := h
  exact encodesGroup hfmt hmode x (fun i hi => ⟨(hfields i hi).1.symm, (hfields i hi).2.symm⟩) (by rw [hmicro, hexp])

/-- bpack's words hold both groups as R87's steps say, R89 and R146 for AL16, with the reserved bytes zero. -/
theorem packed_row {fmt mode : Nat} (hfmt : fmt ∈ [16, 17, 18, 19]) (hmode : mode ≤ 4) (x : Nat → FVal) :
    let e := encodeRow fmt mode 2 ((List.range 32).map x)
    let N := ((List.range (blockWords fmt)).map (fun j => (blockWord (e.1.toPacked fmt) j).toNat * 2 ^ (32 * j))).sum
    EncodesRow fmt mode false 32 x N e.2 ∧ (fmt = 19 → N / 2 ^ 264 % 256 = 0 ∧ N / 2 ^ 536 % 256 = 0) := by
  intro e N
  let p (g : Nat) := encodeGroup (magBits fmt) (isPalush fmt) mode ((List.range 16).map fun i => x (16 * g + i))
  have hrow : e = ({ fields := (p 0).1 ++ (p 1).1, groups := [(p 0).2.1, (p 1).2.1] }, (p 0).2.2 ||| (p 1).2.2) :=
    encodeRow_two fmt mode x
  obtain ⟨hlen, hfirst, hsecond, hzero⟩ := toPacked_holds hfmt (encodeGroup_fits fmt mode fun i => x (16 * 0 + i))
    (encodeGroup_fits fmt mode fun i => x (16 * 1 + i))
  have hN : N = numOf (e.1.toPacked fmt) := sum_blockWords (by rw [hrow]; exact hlen)
  rw [hrow] at hN
  rw [hrow, hN]
  refine ⟨⟨fun g => (p g).2.2, ?_, fun g hg => ?_⟩, hzero⟩
  · change (p 0).2.2 ||| (p 1).2.2 = 0 ||| (p 0).2.2 ||| (p 1).2.2
    exact congrArg (· ||| (p 1).2.2) BitVec.zero_or.symm
  · have hcases : g = 0 ∨ g = 1 := by omega
    rcases hcases with rfl | rfl
    · exact encodesGroup_of_holds hfmt hmode _ hfirst
    · exact encodesGroup_of_holds hfmt hmode _ hsecond

end Sys2Proof.Proofs.BlockWriting
end

section
/-! SUPPORT. The conversions' results (R81 to R89, R146, R147). -/

namespace Sys2Proof.Proofs.ConversionResults

open Sys2Proof Sys2Proof.Machine Sys2Proof.Claims Sys2Proof.Proofs.Formats Sys2Proof.Proofs.ConversionValues
  Sys2Proof.Proofs.BlockBits Sys2Proof.Proofs.BlockElements Sys2Proof.Proofs.BlockWriting

/-- Settles O29: what the conversions to a floating format, to an integer and from one deliver, and the elements that bunpack reads and
bpack writes. -/
theorem conversionResults : Obligations.ConversionResults := by
  have hstd {k : Fmt} (hk : k ∈ [f32, f16, bf16, e4m3, e5m2, e2m1, f64]) : Standard k :=
    standard_of_mem (by simp only [List.mem_cons, List.not_mem_nil, or_false] at hk ⊢; tauto)
  refine ⟨fun k hk r hmode v => convert_convertsTo (hstd hk) hmode v,
    fun n hn mode sat signed v hmode => f2iV_toInteger hn hmode sat signed v,
    fun k hk r x hmode => convert_convertsTo (hstd hk) hmode _, fun fmt hfmt w i hi => ?_,
    fun fmt hfmt mode x hmode _ => packed_row hfmt hmode fun i => f32.read (x i)⟩
  rw [← numOf_words]
  exact unpacked_element hfmt _ hi

end Sys2Proof.Proofs.ConversionResults
end

