-- ==== Sys2Proof/Proofs/FixedPoint.lean ====
section
/-! SUPPORT. The fixed-point values in which FUN's results are computed (R139; assumption 11): products, quotients and power series, each
within a number of fixed-point units of the real ones. -/

namespace Sys2Proof.Proofs.FixedPoint

open Sys2Proof Sys2Proof.Machine Sys2Proof.Claims Sys2Proof.Proofs.FloatResults

/-- The unit of the fixed-point values. -/
noncomputable def fixUnit : ℝ := 2 ^ (-512 : Int)

/-- The real number that a fixed-point value is. -/
noncomputable def fixReal (x : Int) : ℝ := x * fixUnit

theorem fixUnit_pos : 0 < fixUnit := zpow_pos two_pos _

theorem fixOne_mul_unit : (fixOne : ℝ) * fixUnit = 1 := by
  have hcast : (fixOne : ℝ) = 2 ^ (512 : Int) := by
    rw [fixOne, Int.cast_natCast, Nat.cast_pow, Nat.cast_ofNat]
    exact (zpow_natCast 2 512).symm
  rw [hcast, fixUnit, ← zpow_add₀ two_ne_zero]
  norm_num

theorem fixOne_pos : 0 < fixOne := Int.natCast_pos.mpr (Nat.two_pow_pos _)

theorem fixUnit_eq : fixUnit = 1 / fixOne := eq_one_div_of_mul_eq_one_right fixOne_mul_unit

@[simp] theorem fixReal_zero : fixReal 0 = 0 := by simp [fixReal]

@[simp] theorem fixReal_one : fixReal fixOne = 1 := fixOne_mul_unit

theorem fixReal_add (x y : Int) : fixReal (x + y) = fixReal x + fixReal y := by simp [fixReal, add_mul]

theorem fixReal_sub (x y : Int) : fixReal (x - y) = fixReal x - fixReal y := by simp [fixReal, sub_mul]

theorem fixReal_neg (x : Int) : fixReal (-x) = -fixReal x := by simp [fixReal]

theorem fixReal_intMul (a x : Int) : fixReal (a * x) = a * fixReal x := by simp [fixReal, mul_assoc]

theorem fixReal_mono {x y : Int} (h : x ≤ y) : fixReal x ≤ fixReal y :=
  mul_le_mul_of_nonneg_right (Int.cast_le.mpr h) fixUnit_pos.le

theorem fixReal_le_iff {x y : Int} : fixReal x ≤ fixReal y ↔ x ≤ y := by
  rw [fixReal, fixReal, mul_le_mul_iff_left₀ fixUnit_pos, Int.cast_le]

theorem fixReal_lt_iff {x y : Int} : fixReal x < fixReal y ↔ x < y := by
  rw [fixReal, fixReal, mul_lt_mul_iff_left₀ fixUnit_pos, Int.cast_lt]

theorem valR_fixVal (x : Int) : valR (fixVal x) = fixReal x := by
  rw [fixVal, valR_int]
  rfl

/-- A source of binary32 is exact in fixed point. -/
theorem fixReal_toFix {n : Bool} {m : Nat} {e : Int} (he : -512 ≤ e) : fixReal (toFix n m e) = valR (.fin n m e) :=
  scaled_val n m he

/-! ### Quotients and products -/

/-- A quotient by a positive number falls short by less than a unit. -/
theorem fixReal_div (x : Int) {d : Int} (hd : 0 < d) :
    fixReal x / d - fixUnit < fixReal (x / d) ∧ fixReal (x / d) ≤ fixReal x / d := by
  have hdR : (0 : ℝ) < d := Int.cast_pos.mpr hd
  have hlo : ((x / d : Int) : ℝ) * d ≤ x := by exact_mod_cast Int.ediv_mul_le x hd.ne'
  have hhi : (x : ℝ) < (((x / d : Int) : ℝ) + 1) * d := by exact_mod_cast Int.lt_ediv_add_one_mul_self x hd
  have hu := fixUnit_pos
  rw [fixReal, fixReal, mul_div_right_comm]
  refine ⟨?_, mul_le_mul_of_nonneg_right ((le_div_iff₀ hdR).mpr hlo) hu.le⟩
  have := mul_lt_mul_of_pos_right ((div_lt_iff₀ hdR).mpr hhi) hu
  linarith

theorem abs_fixReal_div (x : Int) {d : Int} (hd : 0 < d) : |fixReal (x / d) - fixReal x / d| ≤ fixUnit := by
  obtain ⟨hlo, hhi⟩ := fixReal_div x hd
  exact abs_le.mpr ⟨by linarith, by linarith [fixUnit_pos]⟩

/-- A product falls short by less than a unit. -/
theorem fixReal_fixMul (a b : Int) :
    fixReal a * fixReal b - fixUnit < fixReal (fixMul a b) ∧ fixReal (fixMul a b) ≤ fixReal a * fixReal b := by
  have hval : fixReal (a * b) / fixOne = fixReal a * fixReal b := by
    rw [div_eq_mul_one_div, ← fixUnit_eq]
    simp only [fixReal, Int.cast_mul]
    ring
  rw [← hval]
  exact fixReal_div (a * b) fixOne_pos

theorem abs_fixReal_fixMul (a b : Int) : |fixReal (fixMul a b) - fixReal a * fixReal b| ≤ fixUnit := by
  obtain ⟨hlo, hhi⟩ := fixReal_fixMul a b
  exact abs_le.mpr ⟨by linarith, by linarith [fixUnit_pos]⟩

/-! ### Power series -/

/-- The terms of a fixed-point power series. -/
def fixTerm (x : Int) (d : Nat → Nat) (t : Int) : Nat → Int
  | 0 => t
  | k + 1 => fixMul (fixTerm x d t k) x / (d k : Nat)

theorem fixSeries_eq_sum (x : Int) (d : Nat → Nat) (t : Int) (n k : Nat) :
    fixSeries x d n k (fixTerm x d t k) = ∑ i ∈ Finset.range n, fixTerm x d t (k + i) := by
  induction n generalizing k with
  | zero => rfl
  | succ n ih =>
    rw [Finset.sum_range_succ', fixSeries, add_comm]
    congr 1
    rw [show fixMul (fixTerm x d t k) x / (d k : Nat) = fixTerm x d t (k + 1) from rfl, ih]
    refine Finset.sum_congr rfl fun i _ => ?_
    rw [Nat.add_right_comm, Nat.add_assoc]

theorem fixReal_sum (n : Nat) (f : Nat → Int) : fixReal (∑ i ∈ Finset.range n, f i) = ∑ i ∈ Finset.range n, fixReal (f i) := by
  simp [fixReal, Finset.sum_mul]

/-- The part of the exponential series before a term, by which the errors of the terms grow. -/
noncomputable def expPart (B : ℝ) (k : Nat) : ℝ := ∑ j ∈ Finset.range k, B ^ j / j.factorial

theorem expPart_succ {B : ℝ} (hB : 0 ≤ B) (k : Nat) : expPart B k * (B / (k + 1 : Nat)) + 1 ≤ expPart B (k + 1) := by
  rw [expPart, expPart, Finset.sum_range_succ', Finset.sum_mul]
  simp only [pow_zero, Nat.factorial_zero, Nat.cast_one, div_one]
  refine add_le_add_left (Finset.sum_le_sum fun j hj => ?_) 1
  have hjk : (j + 1) * j.factorial ≤ (k + 1) * j.factorial := Nat.mul_le_mul_right _ (by have := Finset.mem_range.mp hj; omega)
  have hpos : (0 : ℝ) < ((j + 1) * j.factorial : Nat) := Nat.cast_pos.mpr (Nat.mul_pos j.succ_pos j.factorial_pos)
  rw [div_mul_div_comm, ← pow_succ, Nat.factorial_succ, mul_comm ((j.factorial : Nat) : ℝ), ← Nat.cast_mul]
  exact div_le_div_of_nonneg_left (pow_nonneg hB _) hpos (Nat.cast_le.mpr hjk)

section
variable {x : Int} {d : Nat → Nat} {t : Int} {X B C : ℝ} {T : Nat → ℝ}

/-- Each term's error, where the ratio has an error of a unit. -/
theorem fixTerm_near (hd : ∀ k, k + 1 ≤ d k) (hx : |fixReal x - X| ≤ fixUnit) (hB : |fixReal x| ≤ B)
    (h0 : T 0 = fixReal t) (hT : ∀ k, T (k + 1) = T k * X / d k) (hC : ∀ k, |T k| ≤ C) (k : Nat) :
    |fixReal (fixTerm x d t k) - T k| ≤ (2 + C) * fixUnit * expPart B k := by
  have hu := fixUnit_pos
  have hC0 : 0 ≤ C := (abs_nonneg _).trans (hC 0)
  have hB0 : 0 ≤ B := (abs_nonneg _).trans hB
  induction k with
  | zero => simp [fixTerm, h0, expPart]
  | succ k ih =>
    let u := fixTerm x d t k
    have hdk : (0 : Int) < (d k : Nat) := by have := hd k; omega
    have hd1 : (1 : ℝ) ≤ (d k : Nat) := by have := hd k; exact_mod_cast (by omega : 1 ≤ d k)
    have hdk1 : ((k + 1 : Nat) : ℝ) ≤ (d k : Nat) := Nat.cast_le.mpr (hd k)
    have hk1 : (0 : ℝ) < ((k + 1 : Nat) : ℝ) := Nat.cast_pos.mpr k.succ_pos
    have hprod : |fixReal u * fixReal x - T k * X| ≤ |fixReal u - T k| * B + C * fixUnit := by
      have hsplit : fixReal u * fixReal x - T k * X = (fixReal u - T k) * fixReal x + T k * (fixReal x - X) := by ring
      rw [hsplit]
      refine (abs_add_le _ _).trans (add_le_add ?_ ?_)
      · rw [abs_mul]
        exact mul_le_mul_of_nonneg_left hB (abs_nonneg _)
      · rw [abs_mul]
        exact mul_le_mul (hC k) hx (abs_nonneg _) hC0
    have hmul : |fixReal (fixMul u x) - T k * X| ≤ |fixReal u - T k| * B + (1 + C) * fixUnit := by
      have := abs_sub_le (fixReal (fixMul u x)) (fixReal u * fixReal x) (T k * X)
      linarith [abs_fixReal_fixMul u x]
    have hquot : |fixReal (fixMul u x) / (d k : Nat) - T k * X / (d k : Nat)| ≤
        |fixReal u - T k| * (B / (k + 1 : Nat)) + (1 + C) * fixUnit := by
      rw [← sub_div, abs_div, abs_of_pos (by linarith : (0 : ℝ) < (d k : Nat))]
      calc |fixReal (fixMul u x) - T k * X| / (d k : Nat)
          ≤ (|fixReal u - T k| * B + (1 + C) * fixUnit) / (d k : Nat) := div_le_div_of_nonneg_right hmul (by linarith)
        _ = |fixReal u - T k| * B / (d k : Nat) + (1 + C) * fixUnit / (d k : Nat) := add_div _ _ _
        _ ≤ |fixReal u - T k| * B / (k + 1 : Nat) + (1 + C) * fixUnit := by
          refine add_le_add (div_le_div_of_nonneg_left (by positivity) hk1 hdk1) (div_le_self (by positivity) hd1)
        _ = _ := by rw [mul_div_assoc]
    have hfloor := abs_fixReal_div (fixMul u x) hdk
    rw [Int.cast_natCast] at hfloor
    have htri := abs_sub_le (fixReal (fixTerm x d t (k + 1))) (fixReal (fixMul u x) / (d k : Nat)) (T (k + 1))
    rw [hT] at htri ⊢
    have hstep : |fixReal (fixTerm x d t (k + 1)) - T k * X / (d k : Nat)| ≤
        |fixReal u - T k| * (B / (k + 1 : Nat)) + (2 + C) * fixUnit := by
      change |fixReal (fixMul u x / (d k : Nat)) - _| ≤ _
      change |fixReal (fixMul u x / (d k : Nat)) - _| ≤ |fixReal (fixMul u x / (d k : Nat)) - _| + _ at htri
      linarith
    calc |fixReal (fixTerm x d t (k + 1)) - T k * X / (d k : Nat)|
        ≤ |fixReal u - T k| * (B / (k + 1 : Nat)) + (2 + C) * fixUnit := hstep
      _ ≤ (2 + C) * fixUnit * expPart B k * (B / (k + 1 : Nat)) + (2 + C) * fixUnit :=
        add_le_add_left (mul_le_mul_of_nonneg_right ih (by positivity)) _
      _ = (2 + C) * fixUnit * (expPart B k * (B / (k + 1 : Nat)) + 1) := by ring
      _ ≤ _ := mul_le_mul_of_nonneg_left (expPart_succ hB0 k) (by positivity)

/-- What terms that halve leave out of a sum. -/
theorem sum_remainder {s : ℝ} {n : Nat} (hs : HasSum T s) (hhalf : ∀ k, n ≤ k → |T (k + 1)| ≤ |T k| / 2) :
    |∑ k ∈ Finset.range n, T k - s| ≤ 2 * |T n| := by
  have hbound (j : Nat) : |T (n + j)| ≤ |T n| * (1 / 2) ^ j := by
    induction j with
    | zero => simp
    | succ j ih =>
      have := hhalf (n + j) (Nat.le_add_right n j)
      rw [← Nat.add_assoc, pow_succ]
      linarith
  have hdist (j : Nat) : dist (∑ k ∈ Finset.range (n + j), T k) (∑ k ∈ Finset.range (n + (j + 1)), T k) ≤ |T n| * (1 / 2) ^ j := by
    rw [← Nat.add_assoc, Finset.sum_range_succ, dist_self_add_right, Real.norm_eq_abs]
    exact hbound j
  have htend : Filter.Tendsto (fun j => ∑ k ∈ Finset.range (n + j), T k) Filter.atTop (nhds s) := by
    simpa only [Function.comp_def, Nat.add_comm] using hs.tendsto_sum_nat.comp (Filter.tendsto_add_atTop_nat n)
  have := dist_le_of_le_geometric_of_tendsto₀ (1 / 2) (|T n|) (by norm_num) hdist htend
  rw [Nat.add_zero, Real.dist_eq] at this
  exact this.trans_eq (by ring)

/-- A fixed-point power series lies near the sum of the real one. -/
theorem fixSeries_near {s : ℝ} {n : Nat} (hd : ∀ k, k + 1 ≤ d k) (hx : |fixReal x - X| ≤ fixUnit) (hB : |fixReal x| ≤ B)
    (hX : |X| ≤ B) (h0 : T 0 = fixReal t) (hT : ∀ k, T (k + 1) = T k * X / d k) (hC : ∀ k, |T k| ≤ C) (hs : HasSum T s)
    (hn : 2 * B ≤ n) :
    |fixReal (fixSeries x d n 0 t) - s| ≤ n * ((2 + C) * fixUnit * Real.exp B) + 2 * |T n| := by
  have hu := fixUnit_pos
  have hC0 : 0 ≤ C := (abs_nonneg _).trans (hC 0)
  have hB0 : 0 ≤ B := (abs_nonneg _).trans hB
  have hhalf (k : Nat) (hk : n ≤ k) : |T (k + 1)| ≤ |T k| / 2 := by
    have hdk : (k : ℝ) + 1 ≤ (d k : Nat) := by exact_mod_cast hd k
    have hnk : (n : ℝ) ≤ k := Nat.cast_le.mpr hk
    have hratio : |X| / (d k : Nat) ≤ 1 / 2 := (div_le_div_iff₀ (by linarith) two_pos).mpr (by linarith)
    have hd0 : (0 : ℝ) ≤ (d k : Nat) := Nat.cast_nonneg _
    rw [hT, mul_div_assoc, abs_mul, abs_div, abs_of_nonneg hd0]
    calc |T k| * (|X| / (d k : Nat)) ≤ |T k| * (1 / 2) := mul_le_mul_of_nonneg_left hratio (abs_nonneg _)
      _ = |T k| / 2 := by ring
  have hterms : |fixReal (fixSeries x d n 0 t) - ∑ k ∈ Finset.range n, T k| ≤ n * ((2 + C) * fixUnit * Real.exp B) := by
    have hsum := fixSeries_eq_sum x d t n 0
    rw [show fixTerm x d t 0 = t from rfl] at hsum
    rw [hsum, fixReal_sum, ← Finset.sum_sub_distrib]
    simp only [Nat.zero_add]
    refine (Finset.abs_sum_le_sum_abs _ _).trans ?_
    have hterm (k : Nat) (_ : k ∈ Finset.range n) : |fixReal (fixTerm x d t k) - T k| ≤ (2 + C) * fixUnit * Real.exp B :=
      (fixTerm_near hd hx hB h0 hT hC k).trans
        (mul_le_mul_of_nonneg_left (Real.sum_le_exp_of_nonneg hB0 k) (by positivity))
    simpa using Finset.sum_le_card_nsmul _ _ _ hterm
  have := abs_sub_le (fixReal (fixSeries x d n 0 t)) (∑ k ∈ Finset.range n, T k) s
  linarith [sum_remainder hs hhalf]

end

end Sys2Proof.Proofs.FixedPoint
end

