-- ==== Sys2Proof/Proofs/FixedConstants.lean ====
section
/-! SUPPORT. The fixed-point values of π, by Machin's formula, and of the natural logarithm of 2 (R139; assumption 11). -/

namespace Sys2Proof.Proofs.FixedConstants

open Sys2Proof Sys2Proof.Machine Sys2Proof.Proofs.FixedPoint

/-! ### The arctangent of 1 over a number -/

/-- The odd powers of 1 over a number, in fixed point. -/
def fixPower (n : Nat) (t : Int) : Nat → Int
  | 0 => t
  | k + 1 => fixPower n t k / (n * n : Nat)

/-- The terms of the arctangent's series, in fixed point. -/
def atanTerm (n : Nat) (t : Int) (k : Nat) : Int :=
  if k % 2 = 0 then fixPower n t k / (2 * k + 1 : Nat) else -(fixPower n t k / (2 * k + 1 : Nat))

theorem fixAtanInv_eq_sum (n : Nat) (t : Int) (f k : Nat) :
    fixAtanInv n f k (fixPower n t k) = ∑ i ∈ Finset.range f, atanTerm n t (k + i) := by
  induction f generalizing k with
  | zero => rfl
  | succ f ih =>
    rw [Finset.sum_range_succ', fixAtanInv, add_comm]
    congr 1
    rw [show fixPower n t k / (n * n : Nat) = fixPower n t (k + 1) from rfl, ih]
    refine Finset.sum_congr rfl fun i _ => ?_
    rw [Nat.add_right_comm, Nat.add_assoc]

section
variable {n : Nat} (hn : 4 ≤ n)
include hn

theorem fixPower_near (k : Nat) :
    |fixReal (fixPower n (fixOne / (n : Nat)) k) - ((n : ℝ)⁻¹) ^ (2 * k + 1)| ≤ 2 * fixUnit := by
  have hnR : (4 : ℝ) ≤ n := by exact_mod_cast hn
  induction k with
  | zero =>
    have := abs_fixReal_div fixOne (d := (n : Nat)) (by omega)
    rw [fixReal_one, one_div, Int.cast_natCast] at this
    simpa [fixPower] using this.trans (by linarith [fixUnit_pos])
  | succ k ih =>
    have hsq : (1 : ℝ) * 2 ≤ n * n := by nlinarith
    have hpow : ((n : ℝ)⁻¹) ^ (2 * (k + 1) + 1) = ((n : ℝ)⁻¹) ^ (2 * k + 1) / (n * n) := by
      rw [show 2 * (k + 1) + 1 = 2 * k + 1 + 2 by ring, pow_add, inv_pow _ 2, pow_two, div_eq_mul_inv]
    have hfloor := abs_fixReal_div (fixPower n (fixOne / (n : Nat)) k) (d := (n * n : Nat)) (by positivity)
    have hquot : |fixReal (fixPower n (fixOne / (n : Nat)) k) / (n * n) - ((n : ℝ)⁻¹) ^ (2 * k + 1) / (n * n)| ≤ fixUnit := by
      rw [← sub_div, abs_div, abs_of_pos (by linarith : (0 : ℝ) < n * n), div_le_iff₀ (by linarith)]
      nlinarith [fixUnit_pos]
    push_cast at hfloor
    rw [hpow]
    refine (abs_sub_le _ (fixReal (fixPower n (fixOne / (n : Nat)) k) / (n * n)) _).trans ?_
    exact (add_le_add hfloor hquot).trans_eq (by ring)

theorem atanTerm_near (k : Nat) :
    |fixReal (atanTerm n (fixOne / (n : Nat)) k) - (-1) ^ k * ((n : ℝ)⁻¹) ^ (2 * k + 1) / (2 * k + 1 : Nat)| ≤ 3 * fixUnit := by
  have hd : (1 : ℝ) ≤ (2 * k + 1 : Nat) := by exact_mod_cast (by omega : 1 ≤ 2 * k + 1)
  have hquot : |fixReal (fixPower n (fixOne / (n : Nat)) k / (2 * k + 1 : Nat)) -
      ((n : ℝ)⁻¹) ^ (2 * k + 1) / (2 * k + 1 : Nat)| ≤ 3 * fixUnit := by
    have hfloor := abs_fixReal_div (fixPower n (fixOne / (n : Nat)) k) (d := (2 * k + 1 : Nat)) (by positivity)
    rw [Int.cast_natCast] at hfloor
    have hpower : |fixReal (fixPower n (fixOne / (n : Nat)) k) / (2 * k + 1 : Nat) -
        ((n : ℝ)⁻¹) ^ (2 * k + 1) / (2 * k + 1 : Nat)| ≤ 2 * fixUnit := by
      rw [← sub_div, abs_div, abs_of_pos (by linarith : (0 : ℝ) < (2 * k + 1 : Nat))]
      exact (div_le_self (abs_nonneg _) hd).trans (fixPower_near hn k)
    refine (abs_sub_le _ (fixReal (fixPower n (fixOne / (n : Nat)) k) / (2 * k + 1 : Nat)) _).trans ?_
    linarith
  unfold atanTerm
  split
  next h => rwa [Even.neg_one_pow (Nat.even_iff.mpr h), one_mul]
  next h =>
    rw [Odd.neg_one_pow (Nat.odd_iff.mpr (by omega)), fixReal_neg, neg_one_mul, neg_div, ← neg_sub', abs_neg]
    exact hquot

theorem fixAtanInv_near : |fixReal (fixAtanInv n 130 0 (fixOne / (n : Nat))) - Real.arctan (n : ℝ)⁻¹| ≤ 391 * fixUnit := by
  have hnR : (4 : ℝ) ≤ n := by exact_mod_cast hn
  let T (k : Nat) : ℝ := (-1) ^ k * ((n : ℝ)⁻¹) ^ (2 * k + 1) / (2 * k + 1 : Nat)
  have hinv0 : (0 : ℝ) < (n : ℝ)⁻¹ := inv_pos.mpr (by linarith)
  have hinv : (n : ℝ)⁻¹ ≤ 1 / 4 := by rw [one_div]; exact inv_anti₀ (by norm_num) hnR
  have habs (k : Nat) : |T k| = ((n : ℝ)⁻¹) ^ (2 * k + 1) / (2 * k + 1 : Nat) := by
    rw [abs_div, abs_mul, abs_pow, abs_neg, abs_one, one_pow, one_mul, abs_of_pos (pow_pos hinv0 _), Nat.abs_cast]
  have hhalf (k : Nat) (_ : 130 ≤ k) : |T (k + 1)| ≤ |T k| / 2 := by
    have hd : (0 : ℝ) < (2 * k + 1 : Nat) := by positivity
    rw [habs, habs, div_div, div_le_div_iff₀ (by positivity) (by positivity), show 2 * (k + 1) + 1 = 2 * k + 1 + 2 by ring,
      pow_add, mul_assoc]
    refine mul_le_mul_of_nonneg_left ?_ (pow_pos hinv0 _).le
    have hsq : (n : ℝ)⁻¹ ^ 2 ≤ 1 / 4 := by nlinarith
    push_cast at hd ⊢
    nlinarith
  have hlast : 2 * |T 130| ≤ fixUnit := by
    rw [habs, fixUnit]
    have hpow : ((n : ℝ)⁻¹) ^ (2 * 130 + 1) ≤ (1 / 4) ^ 261 := pow_le_pow_left₀ hinv0.le hinv _
    have hdiv := div_le_self (pow_pos hinv0 (2 * 130 + 1)).le (by norm_num : (1 : ℝ) ≤ (2 * 130 + 1 : Nat))
    have hbound := mul_le_mul_of_nonneg_left (hdiv.trans hpow) two_pos.le
    have h4 : (2 : ℝ) * (1 / 4) ^ 261 ≤ 2 ^ (-512 : Int) := by
      rw [show (1 / 4 : ℝ) = 2 ^ (-2 : Int) by norm_num, ← zpow_natCast, ← zpow_mul, ← zpow_one_add₀ two_ne_zero]
      exact zpow_le_zpow_right₀ one_le_two (by norm_num)
    exact hbound.trans h4
  have hsum := Real.hasSum_arctan (x := (n : ℝ)⁻¹) (by rw [Real.norm_eq_abs, abs_of_pos hinv0]; linarith)
  have hterms : |fixReal (fixAtanInv n 130 0 (fixOne / (n : Nat))) - ∑ k ∈ Finset.range 130, T k| ≤ 390 * fixUnit := by
    have heq := fixAtanInv_eq_sum n (fixOne / (n : Nat)) 130 0
    rw [show fixPower n (fixOne / (n : Nat)) 0 = fixOne / (n : Nat) from rfl] at heq
    rw [heq, fixReal_sum, ← Finset.sum_sub_distrib]
    simp only [Nat.zero_add]
    refine (Finset.abs_sum_le_sum_abs _ _).trans ?_
    refine (Finset.sum_le_card_nsmul _ _ _ fun k _ => atanTerm_near hn k).trans_eq ?_
    rw [Finset.card_range, nsmul_eq_mul]
    push_cast
    ring
  have := abs_sub_le (fixReal (fixAtanInv n 130 0 (fixOne / (n : Nat)))) (∑ k ∈ Finset.range 130, T k) (Real.arctan (n : ℝ)⁻¹)
  linarith [sum_remainder (T := T) hsum hhalf]

end

/-- Machin's formula. -/
theorem fixPi_near : |fixReal fixPi - Real.pi| ≤ 2 ^ (13 : Int) * fixUnit := by
  have h5 := fixAtanInv_near (n := 5) (by norm_num)
  have h239 := fixAtanInv_near (n := 239) (by norm_num)
  have hmachin := Real.four_mul_arctan_inv_5_sub_arctan_inv_239
  have hpi : Real.pi = 16 * Real.arctan (5 : Nat)⁻¹ - 4 * Real.arctan (239 : Nat)⁻¹ := by
    push_cast
    linarith
  rw [fixPi, fixReal_sub, fixReal_intMul, fixReal_intMul, hpi]
  obtain ⟨h5l, h5u⟩ := abs_le.mp h5
  obtain ⟨h239l, h239u⟩ := abs_le.mp h239
  push_cast at *
  have hu := fixUnit_pos
  rw [abs_le]
  norm_num
  constructor <;> linarith

/-! ### The logarithm of 2 -/

theorem fixLn2_eq_sum : fixLn2 = ∑ i ∈ Finset.range 512, fixOne / ((i + 1) * 2 ^ (i + 1) : Nat) := by
  have hlist (n : Nat) (f : Nat → Int) : ((List.range' 1 n).map f).foldl (· + ·) 0 = ∑ i ∈ Finset.range n, f (i + 1) := by
    induction n with
    | zero => rfl
    | succ n ih =>
      rw [List.range'_1_concat, List.map_append, List.foldl_append, ih, Finset.sum_range_succ, Nat.add_comm 1 n]
      rfl
  exact hlist 512 _

theorem fixLn2_near : |fixReal fixLn2 - Real.log 2| ≤ 513 * fixUnit := by
  let T (i : Nat) : ℝ := (1 / 2) ^ (i + 1) / (i + 1)
  have hterm (i : Nat) : |fixReal (fixOne / ((i + 1) * 2 ^ (i + 1) : Nat)) - T i| ≤ fixUnit := by
    have hfloor := abs_fixReal_div fixOne (d := ((i + 1) * 2 ^ (i + 1) : Nat)) (by positivity)
    have hT : T i = fixReal fixOne / (((i + 1) * 2 ^ (i + 1) : Nat) : Int) := by
      simp only [T, fixReal_one]
      push_cast
      rw [div_pow, one_pow, div_div, mul_comm]
    rw [hT]
    exact hfloor
  have hrest : |∑ i ∈ Finset.range 512, T i - Real.log 2| ≤ fixUnit := by
    have h := Real.abs_log_sub_add_sum_range_le (x := 1 / 2) (by norm_num [abs_of_pos]) 512
    rw [show (1 : ℝ) - 1 / 2 = 2⁻¹ by norm_num, Real.log_inv, ← sub_eq_add_neg, abs_of_pos (by norm_num : (0 : ℝ) < 1 / 2),
      pow_succ, show (1 : ℝ) - 1 / 2 = 1 / 2 by norm_num, mul_div_cancel_right₀ _ (by norm_num)] at h
    refine h.trans_eq ?_
    rw [fixUnit, one_div, inv_pow, zpow_neg]
    rfl
  have hsum : |fixReal fixLn2 - ∑ i ∈ Finset.range 512, T i| ≤ 512 * fixUnit := by
    rw [fixLn2_eq_sum, fixReal_sum, ← Finset.sum_sub_distrib]
    refine (Finset.abs_sum_le_sum_abs _ _).trans ?_
    refine (Finset.sum_le_card_nsmul _ _ _ fun i _ => hterm i).trans_eq ?_
    rw [Finset.card_range, nsmul_eq_mul]
    push_cast
    rfl
  have := abs_sub_le (fixReal fixLn2) (∑ i ∈ Finset.range 512, T i) (Real.log 2)
  linarith

end Sys2Proof.Proofs.FixedConstants
end

