-- ==== Sys2Proof/Proofs/FixedFunctions.lean ====
section
/-! SUPPORT. The fixed-point exponential, sine, cosine, hyperbolic tangent and binary logarithm lie near the real ones (R139; assumption 11). -/

namespace Sys2Proof.Proofs.FixedFunctions

open Sys2Proof Sys2Proof.Machine Sys2Proof.Proofs.FixedPoint Sys2Proof.Proofs.FixedConstants

/-! ### The exponential -/

theorem exp_natCast_le (n : Nat) : Real.exp n ≤ 2.72 ^ n := by
  rw [← Real.exp_one_pow]
  exact pow_le_pow_left₀ (Real.exp_pos 1).le (Real.exp_one_lt_d9.le.trans (by norm_num)) n

theorem unit_mul_pow (k : Nat) : 2 ^ k * fixUnit = 2 ^ ((k : Int) - 512) := by
  rw [fixUnit, ← zpow_natCast, ← zpow_add₀ two_ne_zero]
  rfl

theorem fixExp_near {x : Int} (hx : |fixReal x| ≤ 19) : |fixReal (fixExp x) - Real.exp (fixReal x)| ≤ 2 ^ (-368 : Int) := by
  let T (k : Nat) : ℝ := fixReal x ^ k / k.factorial
  have hexp : Real.exp 19 ≤ 2 ^ 28 := (exp_natCast_le 19).trans (by norm_num)
  have hC (k : Nat) : |T k| ≤ Real.exp 19 := by
    rw [abs_div, abs_pow, Nat.abs_cast]
    refine le_trans ?_ (Real.pow_div_factorial_le_exp 19 (by norm_num) k)
    exact div_le_div_of_nonneg_right (pow_le_pow_left₀ (abs_nonneg _) hx k) (Nat.cast_nonneg _)
  have hT (k : Nat) : T (k + 1) = T k * fixReal x / (k + 1 : Nat) := by
    simp only [T]
    rw [pow_succ, Nat.factorial_succ, Nat.cast_mul, div_mul_eq_mul_div, div_div, mul_comm ((k + 1 : Nat) : ℝ)]
  have hsum : HasSum T (Real.exp (fixReal x)) := by
    rw [Real.exp_eq_exp_ℝ]
    exact NormedSpace.expSeries_div_hasSum_exp _
  have hnear := fixSeries_near (x := x) (d := fun k => k + 1) (t := fixOne) (n := 200) (fun k => le_rfl)
    (by simp [fixUnit_pos.le]) hx hx (by simp [T]) hT hC hsum (by norm_num)
  have hlast : 2 * |T 200| ≤ 2 ^ (-369 : Int) := by
    have hpow : |fixReal x| ^ 200 / (Nat.factorial 200 : ℝ) ≤ 19 ^ 200 / (Nat.factorial 200 : ℝ) :=
      div_le_div_of_nonneg_right (pow_le_pow_left₀ (abs_nonneg _) hx 200) (Nat.cast_nonneg _)
    have hnum : (2 : ℝ) * (19 ^ 200 / (Nat.factorial 200 : ℝ)) ≤ 1 / (2 ^ 185 * 2 ^ 184) := by
      rw [← mul_div_assoc, div_le_div_iff₀ (by positivity) (by positivity)]
      norm_num [Nat.factorial]
    rw [abs_div, abs_pow, Nat.abs_cast]
    refine ((mul_le_mul_of_nonneg_left hpow two_pos.le).trans hnum).trans_eq ?_
    rw [← pow_add, one_div, zpow_neg]
    rfl
  have hterms : (200 : Nat) * ((2 + Real.exp 19) * fixUnit * Real.exp 19) ≤ 2 ^ (-369 : Int) := by
    have hu := fixUnit_pos
    have hprod : (200 : Nat) * ((2 + Real.exp 19) * Real.exp 19) ≤ (2 : ℝ) ^ 65 := by
      have := Real.exp_pos 19
      push_cast
      nlinarith
    calc (200 : Nat) * ((2 + Real.exp 19) * fixUnit * Real.exp 19) = (200 : Nat) * ((2 + Real.exp 19) * Real.exp 19) * fixUnit := by ring
      _ ≤ 2 ^ 65 * fixUnit := mul_le_mul_of_nonneg_right hprod hu.le
      _ = 2 ^ (((65 : Nat) : Int) - 512) := unit_mul_pow 65
      _ ≤ _ := zpow_le_zpow_right₀ one_le_two (by norm_num)
  rw [show (2 : ℝ) ^ (-368 : Int) = 2 ^ (-369 : Int) + 2 ^ (-369 : Int) by
    rw [← two_mul, ← zpow_one_add₀ two_ne_zero]; norm_num]
  exact hnear.trans (add_le_add hterms hlast)

/-! ### Sine and cosine -/

section
variable {x : Int} (h0 : 0 ≤ x) (h7 : fixReal x ≤ 7)
include h0 h7

/-- A series in minus the square of a value of at most a turn. -/
theorem squareSeries_near {d : Nat → Nat} {t : Int} {T : Nat → ℝ} {s : ℝ} (hd : ∀ k, k + 1 ≤ d k) (hT0 : T 0 = fixReal t)
    (hT : ∀ k, T (k + 1) = T k * -(fixReal x * fixReal x) / d k) (hC : ∀ k, |T k| ≤ Real.exp 7) (hs : HasSum T s)
    (hlast : |T 120| ≤ 2 ^ (-400 : Int)) :
    |fixReal (fixSeries (-(fixMul x x)) d 120 0 t) - s| ≤ 2 ^ (-398 : Int) := by
  have hu := fixUnit_pos
  have hx0 : 0 ≤ fixReal x := by simpa using fixReal_mono h0
  have hsq : fixReal x * fixReal x ≤ 50 := by nlinarith
  have hsq0 : 0 ≤ fixReal x * fixReal x := mul_nonneg hx0 hx0
  obtain ⟨-, hmul⟩ := fixReal_fixMul x x
  have hmul0 : 0 ≤ fixReal (fixMul x x) := by
    have : 0 ≤ fixMul x x := Int.ediv_nonneg (mul_nonneg h0 h0) fixOne_pos.le
    simpa using fixReal_mono this
  have hnear := fixSeries_near (x := -(fixMul x x)) (n := 120) (B := 50) hd
    (by rw [fixReal_neg, ← neg_sub', abs_neg]; exact abs_fixReal_fixMul x x)
    (by rw [fixReal_neg, abs_neg, abs_of_nonneg hmul0]; linarith)
    (by rw [abs_neg, abs_of_nonneg hsq0]; exact hsq) hT0 hT hC hs (by norm_num)
  have hexp7 : Real.exp 7 ≤ 2 ^ 11 := (exp_natCast_le 7).trans (by norm_num)
  have hexp50 : Real.exp 50 ≤ 2 ^ 73 := (exp_natCast_le 50).trans (by norm_num)
  have hterms : (120 : Nat) * ((2 + Real.exp 7) * fixUnit * Real.exp 50) ≤ 2 ^ (-399 : Int) := by
    have hprod : (120 : Nat) * ((2 + Real.exp 7) * Real.exp 50) ≤ (2 : ℝ) ^ 92 := by
      have := mul_le_mul (add_le_add_left hexp7 2) hexp50 (Real.exp_pos 50).le (by positivity)
      push_cast
      linarith
    calc (120 : Nat) * ((2 + Real.exp 7) * fixUnit * Real.exp 50) = (120 : Nat) * ((2 + Real.exp 7) * Real.exp 50) * fixUnit := by ring
      _ ≤ 2 ^ 92 * fixUnit := mul_le_mul_of_nonneg_right hprod hu.le
      _ = 2 ^ (((92 : Nat) : Int) - 512) := unit_mul_pow 92
      _ ≤ _ := zpow_le_zpow_right₀ one_le_two (by norm_num)
  have hdouble (k : Int) : (2 : ℝ) ^ (1 + k) = 2 * 2 ^ k := zpow_one_add₀ two_ne_zero k
  have h1 := hdouble (-399)
  have h2 := hdouble (-400)
  norm_num1 at h1 h2
  linarith

/-- The series of the cosine, for c = 0, and of the sine, for c = 1. -/
theorem angleSeries_near (c : Nat) {d : Nat → Nat} {t : Int} {s : ℝ} (hd : ∀ k, d k = (2 * k + c + 1) * (2 * k + c + 2))
    (ht : fixReal t = fixReal x ^ c / c.factorial)
    (hs : HasSum (fun k => (-1) ^ k * fixReal x ^ (2 * k + c) / ((2 * k + c).factorial : ℝ)) s) (hc : c ≤ 1) :
    |fixReal (fixSeries (-(fixMul x x)) d 120 0 t) - s| ≤ 2 ^ (-398 : Int) := by
  have hx0 : 0 ≤ fixReal x := by simpa using fixReal_mono h0
  have habs (k : Nat) : |(-1) ^ k * fixReal x ^ (2 * k + c) / ((2 * k + c).factorial : ℝ)| ≤ 7 ^ (2 * k + c) / (2 * k + c).factorial := by
    rw [abs_div, abs_mul, abs_pow, abs_neg, abs_one, one_pow, one_mul, abs_of_nonneg (pow_nonneg hx0 _), Nat.abs_cast]
    exact div_le_div_of_nonneg_right (pow_le_pow_left₀ hx0 h7 _) (Nat.cast_nonneg _)
  refine squareSeries_near h0 h7 (fun k => by rw [hd]; nlinarith) (by simp [ht]) (fun k => ?_)
    (fun k => (habs k).trans (Real.pow_div_factorial_le_exp 7 (by norm_num) _)) hs ((habs 120).trans ?_)
  · have hfact : (2 * (k + 1) + c).factorial = d k * (2 * k + c).factorial := by
      rw [hd, show 2 * (k + 1) + c = 2 * k + c + 1 + 1 by ring, Nat.factorial_succ, Nat.factorial_succ]
      ring
    rw [hfact, Nat.cast_mul, show 2 * (k + 1) + c = 2 * k + c + 2 by ring, pow_add _ _ 2, pow_succ, div_mul_eq_mul_div, div_div]
    congr 1 <;> ring
  · rw [show (2 : ℝ) ^ (-400 : Int) = 1 / (2 ^ 200 * 2 ^ 200) by rw [← pow_add, one_div, zpow_neg]; rfl,
      div_le_div_iff₀ (by positivity) (by positivity)]
    interval_cases c <;> norm_num [Nat.factorial]

theorem fixSin_near : |fixReal (fixSin x) - Real.sin (fixReal x)| ≤ 2 ^ (-398 : Int) :=
  angleSeries_near h0 h7 1 (fun _ => rfl) (by simp) (Real.hasSum_sin _) le_rfl

theorem fixCos_near : |fixReal (fixCos x) - Real.cos (fixReal x)| ≤ 2 ^ (-398 : Int) :=
  angleSeries_near h0 h7 0 (fun _ => rfl) (by simp) (Real.hasSum_cos _) zero_le_one

end

/-- A value less some whole turns, in fixed point, is near the value less as many real turns. -/
theorem turns_near {x : Int} (hx : |fixReal x| ≤ 2 ^ (128 : Int)) :
    0 ≤ x % (2 * fixPi) ∧ fixReal (x % (2 * fixPi)) ≤ 7 ∧
      ∃ q : Int, |fixReal (x % (2 * fixPi)) - (fixReal x - q * (2 * Real.pi))| ≤ 2 ^ (-370 : Int) := by
  have hu := fixUnit_pos
  have hsmall : 2 ^ (13 : Int) * fixUnit ≤ 1 / 1000 := by
    rw [fixUnit, ← zpow_add₀ two_ne_zero]
    refine (zpow_le_zpow_right₀ one_le_two (by norm_num : (13 : Int) + -512 ≤ -10)).trans ?_
    norm_num
  have hpi := fixPi_near
  obtain ⟨hlo, hhi⟩ := abs_le.mp hpi
  have hpi3 := Real.pi_gt_three
  have hpi4 := Real.pi_lt_d2
  let p := fixReal (2 * fixPi)
  have hp : p = 2 * fixReal fixPi := by simpa using fixReal_intMul 2 fixPi
  have hp0 : 0 < 2 * fixPi := fixReal_lt_iff.mp (by rw [fixReal_zero]; change 0 < p; linarith)
  have hmod0 := Int.emod_nonneg x hp0.ne'
  have hmodp : fixReal (x % (2 * fixPi)) < p := fixReal_lt_iff.mpr (Int.emod_lt_of_pos x hp0)
  have hmodR : 0 ≤ fixReal (x % (2 * fixPi)) := by simpa using fixReal_mono hmod0
  let q := x / (2 * fixPi)
  have hdiv : fixReal (x % (2 * fixPi)) = fixReal x - q * p := by
    rw [← fixReal_intMul, ← fixReal_sub, Int.emod_def, mul_comm]
  refine ⟨hmod0, by linarith, q, ?_⟩
  have hq : |(q : ℝ)| ≤ 2 ^ (128 : Int) := by
    have habs : |(q : ℝ) * p| ≤ 2 ^ (128 : Int) + 7 := by
      rw [show (q : ℝ) * p = fixReal x - fixReal (x % (2 * fixPi)) by rw [hdiv]; ring]
      refine (abs_sub _ _).trans (add_le_add hx ?_)
      rw [abs_of_nonneg hmodR]
      linarith
    rw [abs_mul, abs_of_pos (by linarith : 0 < p)] at habs
    have h128 : (7 : ℝ) ≤ 2 ^ (128 : Int) := by norm_num
    have h2 : |(q : ℝ)| * 2 ≤ |(q : ℝ)| * p := mul_le_mul_of_nonneg_left (by linarith) (abs_nonneg _)
    generalize (2 : ℝ) ^ (128 : Int) = M at *
    linarith
  rw [hdiv, hp, show fixReal x - q * (2 * fixReal fixPi) - (fixReal x - q * (2 * Real.pi)) = -((2 * q) * (fixReal fixPi - Real.pi)) by ring,
    abs_neg, abs_mul, abs_mul, abs_two]
  calc 2 * |(q : ℝ)| * |fixReal fixPi - Real.pi| ≤ 2 * 2 ^ (128 : Int) * (2 ^ (13 : Int) * fixUnit) :=
        mul_le_mul (by linarith) hpi (abs_nonneg _) (by positivity)
    _ = 2 ^ (1 + (128 + (13 + -512)) : Int) := by
        rw [fixUnit, ← zpow_add₀ two_ne_zero, mul_assoc, ← zpow_add₀ two_ne_zero, zpow_one_add₀ two_ne_zero]
    _ ≤ _ := zpow_le_zpow_right₀ one_le_two (by norm_num)

theorem sum_of_errors {a b : Int} {k : Int} (ha : a < k) (hb : b < k) : (2 : ℝ) ^ a + 2 ^ b ≤ 2 ^ k := by
  have h : (2 : ℝ) ^ k = 2 ^ (k - 1) + 2 ^ (k - 1) := by
    rw [← two_mul, ← zpow_one_add₀ two_ne_zero]
    ring_nf
  rw [h]
  exact add_le_add (zpow_le_zpow_right₀ one_le_two (by omega)) (zpow_le_zpow_right₀ one_le_two (by omega))

theorem fixSin_turns {x : Int} (hx : |fixReal x| ≤ 2 ^ (128 : Int)) :
    |fixReal (fixSin (x % (2 * fixPi))) - Real.sin (fixReal x)| ≤ 2 ^ (-369 : Int) := by
  obtain ⟨h0, h7, q, hq⟩ := turns_near hx
  have hlip := (Real.abs_sin_sub_sin_le _ _).trans hq
  rw [Real.sin_sub_int_mul_two_pi] at hlip
  exact (abs_sub_le _ _ _).trans ((add_le_add (fixSin_near h0 h7) hlip).trans (sum_of_errors (by norm_num) (by norm_num)))

theorem fixCos_turns {x : Int} (hx : |fixReal x| ≤ 2 ^ (128 : Int)) :
    |fixReal (fixCos (x % (2 * fixPi))) - Real.cos (fixReal x)| ≤ 2 ^ (-369 : Int) := by
  obtain ⟨h0, h7, q, hq⟩ := turns_near hx
  have hlip := (Real.abs_cos_sub_cos_le _ _).trans hq
  rw [Real.cos_sub_int_mul_two_pi] at hlip
  exact (abs_sub_le _ _ _).trans ((add_le_add (fixCos_near h0 h7) hlip).trans (sum_of_errors (by norm_num) (by norm_num)))

/-! ### The hyperbolic tangent -/

theorem tanh_eq_exp (a : ℝ) : Real.tanh a = (Real.exp (2 * a) - 1) / (Real.exp (2 * a) + 1) := by
  have hpos := Real.exp_pos a
  rw [Real.tanh_eq, Real.exp_neg, two_mul, Real.exp_add]
  field_simp

theorem fixTanh_near {x : Int} (hx : |fixReal x| ≤ 19) :
    let y := fixExp x
    |fixReal ((y - fixOne) * fixOne / (y + fixOne)) - Real.tanh (fixReal x / 2)| ≤ 2 ^ (-365 : Int) := by
  intro y
  let E := Real.exp (fixReal x)
  have hE0 : 0 < E := Real.exp_pos _
  have hnear : |fixReal y - E| ≤ 2 ^ (-368 : Int) := fixExp_near hx
  have hsmall : (2 : ℝ) ^ (-368 : Int) ≤ 1 / 2 := by
    refine (zpow_le_zpow_right₀ one_le_two (by norm_num : (-368 : Int) ≤ -1)).trans ?_
    norm_num
  have hylo : -(1 / 2) ≤ fixReal y := by
    have := (abs_le.mp hnear).1
    linarith
  have hden : 0 < y + fixOne := fixReal_lt_iff.mp (by rw [fixReal_zero, fixReal_add, fixReal_one]; linarith)
  have hdenR : fixReal y + 1 = (y + fixOne : Int) * fixUnit := by rw [← fixReal_one, ← fixReal_add, fixReal]
  have hquot : fixReal ((y - fixOne) * fixOne) / (y + fixOne : Int) = (fixReal y - 1) / (fixReal y + 1) := by
    have hu := fixUnit_pos
    have hd : (0 : ℝ) < (y + fixOne : Int) := Int.cast_pos.mpr hden
    have hnum : fixReal ((y - fixOne) * fixOne) = (fixReal y - 1) / fixUnit := by
      rw [fixReal_intMul, fixReal_one, mul_one, ← fixReal_one, ← fixReal_sub, fixReal, mul_div_cancel_right₀ _ hu.ne']
    rw [hnum, hdenR, div_div, mul_comm]
  have hfloor := abs_fixReal_div ((y - fixOne) * fixOne) hden
  rw [hquot] at hfloor
  have htanh : Real.tanh (fixReal x / 2) = (E - 1) / (E + 1) := by
    rw [tanh_eq_exp, mul_div_cancel₀ _ two_ne_zero]
  have hratio : |(fixReal y - 1) / (fixReal y + 1) - (E - 1) / (E + 1)| ≤ 4 * 2 ^ (-368 : Int) := by
    have hy1 : 1 / 2 ≤ fixReal y + 1 := by linarith
    have hdiff : (fixReal y - 1) / (fixReal y + 1) - (E - 1) / (E + 1) = 2 * (fixReal y - E) / ((fixReal y + 1) * (E + 1)) := by
      rw [div_sub_div _ _ (by linarith) (by linarith)]
      congr 1
      ring
    have hprod : 1 / 2 ≤ (fixReal y + 1) * (E + 1) := by nlinarith
    have hpos : 0 < (fixReal y + 1) * (E + 1) := by linarith
    rw [hdiff, abs_div, abs_mul, abs_two, abs_of_pos hpos, div_le_iff₀ hpos]
    calc 2 * |fixReal y - E| ≤ 4 * 2 ^ (-368 : Int) * (1 / 2) := by linarith
      _ ≤ _ := mul_le_mul_of_nonneg_left hprod (by positivity)
  rw [htanh]
  refine (abs_sub_le _ _ _).trans ((add_le_add hfloor hratio).trans ?_)
  rw [show (4 : ℝ) = 2 ^ (2 : Int) by norm_num, ← zpow_add₀ two_ne_zero]
  exact sum_of_errors (by norm_num) (by norm_num)

/-! ### Powers of 2 -/

theorem abs_exp_sub_exp_le {a b : ℝ} (hb : b ≤ 1) (h : |a - b| ≤ 1) : |Real.exp a - Real.exp b| ≤ 6 * |a - b| := by
  have hexp : Real.exp b ≤ 3 := (Real.exp_le_exp.mpr hb).trans (Real.exp_one_lt_d9.le.trans (by norm_num))
  have hsplit : Real.exp a - Real.exp b = Real.exp b * (Real.exp (a - b) - 1) := by
    rw [mul_sub, ← Real.exp_add, add_sub_cancel, mul_one]
  rw [hsplit, abs_mul, abs_of_pos (Real.exp_pos b)]
  calc Real.exp b * |Real.exp (a - b) - 1| ≤ 3 * (2 * |a - b|) :=
        mul_le_mul hexp (Real.abs_exp_sub_one_le h) (abs_nonneg _) (by norm_num)
    _ = 6 * |a - b| := by ring

/-- The power of 2 of a fraction. -/
theorem fixExp2_near {f : Int} (h0 : 0 ≤ f) (h1 : f < fixOne) :
    |fixReal (fixExp (fixMul f fixLn2)) - 2 ^ fixReal f| ≤ 2 ^ (-367 : Int) := by
  have hu := fixUnit_pos
  have hf0 : 0 ≤ fixReal f := by simpa using fixReal_mono h0
  have hf1 : fixReal f ≤ 1 := by simpa using fixReal_mono h1.le
  have hln := fixLn2_near
  have hlog0 := Real.log_two_gt_d9
  have hlog1 := Real.log_two_lt_d9
  have hsmall : 2 ^ 13 * fixUnit ≤ 1 := by
    rw [unit_mul_pow]
    exact zpow_le_one_of_nonpos₀ one_le_two (by norm_num)
  have harg : |fixReal (fixMul f fixLn2) - Real.log 2 * fixReal f| ≤ 514 * fixUnit := by
    have hprod : |fixReal f * fixReal fixLn2 - Real.log 2 * fixReal f| ≤ 513 * fixUnit := by
      rw [mul_comm, ← sub_mul, abs_mul, abs_of_nonneg hf0]
      exact (mul_le_of_le_one_right (abs_nonneg _) hf1).trans hln
    have := abs_sub_le (fixReal (fixMul f fixLn2)) (fixReal f * fixReal fixLn2) (Real.log 2 * fixReal f)
    linarith [abs_fixReal_fixMul f fixLn2]
  have hexact : Real.log 2 * fixReal f ≤ 1 := by nlinarith
  have hexact0 : 0 ≤ Real.log 2 * fixReal f := mul_nonneg (by linarith) hf0
  have h19 : |fixReal (fixMul f fixLn2)| ≤ 19 := by
    obtain ⟨hlo, hhi⟩ := abs_le.mp harg
    exact abs_le.mpr ⟨by linarith, by linarith⟩
  have hlip := abs_exp_sub_exp_le hexact (harg.trans (by linarith))
  rw [Real.rpow_def_of_pos two_pos]
  have herr : 6 * |fixReal (fixMul f fixLn2) - Real.log 2 * fixReal f| ≤ 2 ^ (((13 : Nat) : Int) - 512) := by
    rw [← unit_mul_pow]
    linarith
  exact (abs_sub_le _ _ _).trans ((add_le_add (fixExp_near h19) (hlip.trans herr)).trans
    (sum_of_errors (by norm_num) (by norm_num)))

/-! ### The binary logarithm -/

/-- A small fall of a number from 1 up lowers its logarithm little. -/
theorem logb_fall {a b δ : ℝ} (hb : 1 ≤ b) (hba : b ≤ a) (hδ : a - b ≤ δ) :
    Real.logb 2 b ≤ Real.logb 2 a ∧ Real.logb 2 a ≤ Real.logb 2 b + 2 * δ := by
  have hlog := Real.log_two_gt_d9
  refine ⟨Real.logb_le_logb_of_le one_lt_two (by linarith) hba, ?_⟩
  have hratio : Real.log a - Real.log b ≤ δ := by
    rw [← Real.log_div (by linarith) (by linarith)]
    have h1 := Real.log_le_sub_one_of_pos (div_pos (by linarith : 0 < a) (by linarith : 0 < b))
    have h2 : a / b - 1 ≤ a - b := by
      rw [div_sub_one (by linarith)]
      exact div_le_self (by linarith) hb
    linarith
  have hδ0 : 0 ≤ δ := by linarith
  rw [Real.logb, Real.logb, div_le_iff₀ (by linarith), add_mul, div_mul_cancel₀ _ (by linarith)]
  nlinarith

/-- The square of a value from 1 up to 2. -/
theorem fixMul_self {y : Int} (h1 : fixOne ≤ y) (h2 : y < 2 * fixOne) :
    fixOne ≤ fixMul y y ∧ fixMul y y < 4 * fixOne ∧
      Real.logb 2 (fixReal (fixMul y y)) ≤ 2 * Real.logb 2 (fixReal y) ∧
      2 * Real.logb 2 (fixReal y) ≤ Real.logb 2 (fixReal (fixMul y y)) + 2 * fixUnit := by
  have hone := fixOne_pos
  have hy1 : 1 ≤ fixReal y := by simpa using fixReal_mono h1
  obtain ⟨hlo, hhi⟩ := fixReal_fixMul y y
  have hz1 : fixOne ≤ fixMul y y := (Int.le_ediv_iff_mul_le hone).mpr (mul_le_mul h1 h1 hone.le (hone.le.trans h1))
  have hz4 : fixMul y y < 4 * fixOne := (Int.ediv_lt_iff_lt_mul hone).mpr (by generalize fixOne = w at *; nlinarith)
  have hz1R : 1 ≤ fixReal (fixMul y y) := by simpa using fixReal_mono hz1
  have hsq : Real.logb 2 (fixReal y * fixReal y) = 2 * Real.logb 2 (fixReal y) := by
    rw [Real.logb_mul (by linarith) (by linarith), two_mul]
  rw [← hsq]
  obtain ⟨hle, hge⟩ := logb_fall hz1R hhi (by linarith : _ ≤ fixUnit)
  exact ⟨hz1, hz4, hle, hge⟩

/-- One bit of a logarithm before the bits of the rest. -/
theorem logBit_near {i : Nat} (hi : 1 ≤ i) {b L l l' E u : ℝ} (hl : l' ≤ 2 * l - b) (hl' : 2 * l - b ≤ l' + u)
    (h : |L / 2 ^ (i - 1) - l'| ≤ E) : |(b * 2 ^ (i - 1) + L) / 2 ^ i - l| ≤ (E + u) / 2 := by
  have hpow : (2 : ℝ) ^ i = 2 ^ (i - 1) * 2 := by rw [← pow_succ, Nat.sub_add_cancel hi]
  have hpos : (0 : ℝ) < 2 ^ (i - 1) := by positivity
  have hsplit : (b * 2 ^ (i - 1) + L) / 2 ^ i = (b + L / 2 ^ (i - 1)) / 2 := by
    rw [hpow]
    field_simp
  obtain ⟨hlo, hhi⟩ := abs_le.mp h
  rw [hsplit, abs_le]
  constructor <;> linarith

/-- The bits of the binary logarithm of a value from 1 up to 2. -/
theorem fixLogBits_near (n i : Nat) (hni : n ≤ i) {y : Int} (h1 : fixOne ≤ y) (h2 : y < 2 * fixOne) :
    |(fixLogBits n i y : ℝ) / 2 ^ i - Real.logb 2 (fixReal y)| ≤ (1 / 2) ^ n + 4 * fixUnit := by
  have hu := fixUnit_pos
  induction n generalizing i y with
  | zero =>
    have hy1 : 1 ≤ fixReal y := by simpa using fixReal_mono h1
    have hy2 : fixReal y ≤ 2 := by simpa [fixReal_intMul] using fixReal_mono h2.le
    have hlo := Real.logb_nonneg one_lt_two hy1
    have hhi := Real.logb_le_logb_of_le one_lt_two (by linarith) hy2
    rw [Real.logb_self_eq_one one_lt_two] at hhi
    simp only [fixLogBits, Int.cast_zero, zero_div, zero_sub, abs_neg, pow_zero]
    rw [abs_of_nonneg hlo]
    linarith
  | succ n ih =>
    have hone := fixOne_pos
    obtain ⟨hz1, hz4, hle, hge⟩ := fixMul_self h1 h2
    have hbound : ((1 / 2) ^ n + 4 * fixUnit + 4 * fixUnit) / 2 = (1 / 2) ^ (n + 1) + 4 * fixUnit := by ring
    rw [← hbound]
    unfold fixLogBits
    dsimp only
    split
    next hbit =>
      have hhalf1 : fixOne ≤ fixMul y y / 2 := by omega
      have hhalf2 : fixMul y y / 2 < 2 * fixOne := by omega
      obtain ⟨hflo, hfhi⟩ := fixReal_div (fixMul y y) two_pos
      have hhalfR : 1 ≤ fixReal (fixMul y y / 2) := by simpa using fixReal_mono hhalf1
      have hz : 1 ≤ fixReal (fixMul y y) := by simpa using fixReal_mono hz1
      rw [Int.cast_ofNat] at hflo hfhi
      obtain ⟨hle', hge'⟩ := logb_fall hhalfR hfhi (by linarith : _ ≤ fixUnit)
      rw [Real.logb_div (by linarith) two_ne_zero, Real.logb_self_eq_one one_lt_two] at hle' hge'
      have := logBit_near (b := 1) (l := Real.logb 2 (fixReal y)) (u := 4 * fixUnit) (by omega : 1 ≤ i) (by linarith) (by linarith)
        (ih (i - 1) (by omega) hhalf1 hhalf2)
      push_cast
      rwa [one_mul] at this
    next hbit =>
      have := logBit_near (b := 0) (l := Real.logb 2 (fixReal y)) (u := 4 * fixUnit) (by omega : 1 ≤ i) (by linarith) (by linarith)
        (ih (i - 1) (by omega) hz1 (not_le.mp hbit))
      rwa [zero_mul, zero_add] at this

end Sys2Proof.Proofs.FixedFunctions
end

