-- ==== Sys2Proof/Proofs/FunRounding.lean ====
section
/-! SUPPORT. The binary32 numbers that FUN delivers (R139): exact ones, a value rounded to nearest even, and a free value within the bound. -/

namespace Sys2Proof.Proofs.FunRounding

open Sys2Proof Sys2Proof.Machine Sys2Proof.Claims Sys2Proof.Proofs.Rounding Sys2Proof.Proofs.Formats Sys2Proof.Proofs.RoundOnce
  Sys2Proof.Proofs.FloatResults Sys2Proof.Proofs.FixedPoint

/-! ### Units in the last place (R139) -/

theorem ulp_ge_least (w : ℝ) : (2 : ℝ) ^ (-149 : Int) ≤ ulp w := by
  unfold ulp
  split
  · exact le_rfl
  next h =>
    have hlog := (Int.zpow_le_iff_le_log (b := 2) one_lt_two (lt_of_lt_of_le (zpow_two_pos _) (not_lt.mp h))).mp (not_lt.mp h)
    exact zpow_le_zpow_right₀ one_le_two (by omega)

theorem ulp_pos (w : ℝ) : 0 < ulp w := lt_of_lt_of_le (zpow_two_pos _) (ulp_ge_least w)

theorem ulp_ge_ratio (w : ℝ) : 2 ^ (-24 : Int) * |w| ≤ ulp w := by
  unfold ulp
  split
  next h =>
    have : (2 : ℝ) ^ (-149 : Int) = 2 ^ (-23 : Int) * 2 ^ (-126 : Int) := by rw [← zpow_add₀ two_ne_zero]; norm_num
    rw [this]
    exact mul_le_mul (zpow_le_zpow_right₀ one_le_two (by norm_num)) h.le (abs_nonneg w) (zpow_two_pos _).le
  next h =>
    have hlt : |w| < 2 ^ (Int.log 2 |w| + 1) := by exact_mod_cast Int.lt_zpow_succ_log_self (b := 2) one_lt_two |w|
    calc 2 ^ (-24 : Int) * |w| ≤ 2 ^ (-24 : Int) * 2 ^ (Int.log 2 |w| + 1) := mul_le_mul_of_nonneg_left hlt.le (zpow_two_pos _).le
      _ = 2 ^ (Int.log 2 |w| - 23) := by rw [← zpow_add₀ two_ne_zero]; ring_nf

/-- The unit in the last place of a value, from its bits. -/
theorem ulp_fin (n : Bool) {m : Nat} {e : Int} (h : m ≠ 0 ∨ e ≤ -125) : ulp (valR (.fin n m e)) = 2 ^ ulpExp m e := by
  have hnn : (0 : ℝ) ≤ (m : ℝ) * 2 ^ e := by positivity
  rw [valR_fin, ulp, abs_withSign n hnn, ulpExp]
  by_cases hm : m = 0
  · have he := h.resolve_left (not_not.mpr hm)
    subst hm
    rw [if_pos (by rw [Nat.cast_zero, zero_mul]; exact zpow_two_pos _), max_eq_right]
    simp only [bitLen, if_true]
    omega
  · obtain ⟨hlo, hhi⟩ := top_bounds hm (magnitude_exact (K := ℝ) m e)
    split
    next hlt =>
      have := (zpow_lt_zpow_iff_right₀ (one_lt_two (α := ℝ))).mp (lt_of_le_of_lt hlo hlt)
      rw [max_eq_right (by omega)]
    next hge =>
      have hpos : (0 : ℝ) < (m : ℝ) * 2 ^ e := lt_of_lt_of_le (zpow_two_pos _) hlo
      have h1 := (Int.zpow_le_iff_le_log (b := 2) one_lt_two hpos).mp (by exact_mod_cast hlo)
      have h2 := (Int.lt_zpow_iff_log_lt (b := 2) one_lt_two hpos).mp (by exact_mod_cast hhi)
      have h3 := (zpow_lt_zpow_iff_right₀ (one_lt_two (α := ℝ))).mp (lt_of_le_of_lt (not_lt.mp hge) hhi)
      rw [max_eq_left (by omega)]
      congr 1
      omega

/-! ### Numbers that are exact -/

theorem gridRounds_exact {f : Fmt} {mode : Nat} {n : Bool} {b c : Nat} (hmode : mode ≤ 4) (h : GridRounds (mag f) mode n (mag f c) b) :
    b = c := by
  have hmono := mag_strictMono f
  have hnear (h : |mag f b - mag f c| ≤ |mag f c - mag f c|) : b = c := by
    rw [sub_self, abs_zero] at h
    exact hmono.injective (sub_eq_zero.mp (abs_eq_zero.mp (le_antisymm h (abs_nonneg _))))
  have htoward (h : mag f b ≤ mag f c ∧ ∀ k, mag f k ≤ mag f c → k ≤ b) : b = c :=
    le_antisymm (hmono.le_iff_le.mp h.1) (h.2 c le_rfl)
  have haway (h : mag f c ≤ mag f b ∧ ∀ k, mag f c ≤ mag f k → b ≤ k) : b = c :=
    le_antisymm (h.2 c le_rfl) (hmono.le_iff_le.mp h.1)
  have hmodes : mode = 0 ∨ mode = 1 ∨ mode = 2 ∨ mode = 3 ∨ mode = 4 := by omega
  rcases hmodes with rfl | rfl | rfl | rfl | rfl
  · exact hnear (h c).1
  · exact htoward h
  · cases n
    · exact haway h
    · exact htoward h
  · cases n
    · exact htoward h
    · exact haway h
  · exact hnear (h c).1

/-- A number of the format is rounded to itself, without a flag. -/
theorem round_exact {f : Fmt} (hf : Standard f) {r : Rnd} (hmode : r.mode ≤ 4) (hftz : r.ftz = false) (n : Bool) {m : Nat} {e : Int}
    {b : Nat} (hb : b ≤ f.maxBits) (h : mag f b = m * 2 ^ e) : f.round r n m e false = (b + f.sign n, 0) := by
  by_cases hm : m = 0
  · subst hm
    rw [Nat.cast_zero, zero_mul, ← mag_zero f] at h
    rw [(mag_strictMono f).injective h, round_zero, width_sub_one, Nat.zero_add]
    rfl
  · obtain ⟨b', hgrid, -, hin⟩ := round_spec hf hmode n hm (magnitude_exact m e) (fun h => by cases h)
    rw [← h] at hgrid hin
    have hbb := gridRounds_exact hmode hgrid
    subst hbb
    have hmax := (mag_strictMono f).monotone hb
    have hunit := mag_unit_pos f f.maxBits
    have hpast : ¬ PastMax f r.mode (mag f b') b' := by
      unfold PastMax
      split
      · linarith
      · omega
    obtain ⟨w, hw, -, hround⟩ := hin hpast
    rw [hround, hw rfl, hftz, Bool.false_and, if_neg Bool.false_ne_true]

/-! ### A value rounded to nearest even -/

theorem f32_half_past : (mag f32 f32.maxBits + mag f32 (f32.maxBits + 1)) / 2 = (2 - (2 : ℝ) ^ (-24 : Int)) * 2 ^ (127 : Int) := by
  have hmax : mag f32 f32.maxBits = (2 - (2 : ℝ) ^ (-23 : Int)) * 2 ^ (127 : Int) := by
    have h := congrArg Prod.fst standard_f32.greatest
    dsimp only at h
    rw [← h, greatest, if_neg (by decide), if_pos rfl]
  rw [hmax, f32_top]
  norm_num

/-- A value rounded to nearest even is a number within a unit in the last place, or an overflow. -/
theorem rne_cases (n : Bool) {m : Nat} {e : Int} (hm : m ≠ 0) :
    (∃ b ≤ f32.maxBits, (f32.round .rne n m e false).1 = b + f32.sign n ∧ |mag f32 b - m * 2 ^ e| ≤ 2 ^ ulpExp m e) ∨
    ((f32.round .rne n m e false).1 = f32.inf n ∧ (2 - (2 : ℝ) ^ (-24 : Int)) * 2 ^ (127 : Int) ≤ m * 2 ^ e) := by
  obtain ⟨b, hgrid, hover, hin⟩ := round_spec standard_f32 (r := .rne) (Nat.zero_le 4) n hm (magnitude_exact m e) (fun h => by cases h)
  by_cases hpast : PastMax f32 Rnd.rne.mode ((m : ℝ) * 2 ^ e) b
  · right
    refine ⟨by rw [hover hpast]; rfl, ?_⟩
    rw [← f32_half_past]
    exact hpast
  · left
    obtain ⟨w, -, -, hround⟩ := hin hpast
    have hb := le_maxBits_of_not_past (Nat.zero_le 4) hgrid hpast
    refine ⟨b, hb, by rw [hround]; rfl, ?_⟩
    obtain ⟨hlo, hhi⟩ := top_bounds hm (magnitude_exact (K := ℝ) m e)
    have hq : ulpExp m e = max (e + bitLen m - 1 - f32.fbits) f32.qmin := rfl
    generalize ulpExp m e = q at *
    have hqpos := zpow_two_pos (K := ℝ) q
    -- the point of the grid below
    let a := ⌊(m : ℝ) * 2 ^ e / 2 ^ q⌋₊
    have h0 : (a : ℝ) * 2 ^ q ≤ m * 2 ^ e := (le_div_iff₀ hqpos).mp (Nat.floor_le (by positivity))
    have h1 : (m : ℝ) * 2 ^ e < (a + 1) * 2 ^ q := (div_lt_iff₀ hqpos).mp (Nat.lt_floor_add_one _)
    obtain ⟨halt, hnormal⟩ := units_bounds (f := f32) hq hlo hhi h0 h1
    obtain ⟨j, hj⟩ : ∃ j : Nat, q = f32.qmin + (j : Int) := ⟨(q - f32.qmin).toNat, by omega⟩
    have hgridPoint : mag f32 (j * 2 ^ f32.fbits + a) = a * 2 ^ q := by
      rw [mag_grid (hnormal.imp_left fun h => by omega) halt.le, hj]
    have hnearest := (hgrid (j * 2 ^ f32.fbits + a)).1
    rw [hgridPoint] at hnearest
    refine hnearest.trans ?_
    rw [abs_sub_comm, abs_of_nonneg (sub_nonneg.mpr h0)]
    linarith

/-! ### What FUN delivers -/

/-- A delivered result lies within a limit of a number, or is the overflow's infinity, and has the flags of its bits (R139). -/
def WithinLimit (limit w : ℝ) (d : Nat × Word) : Prop :=
  (finite (f32.read d.1) → |valR (f32.read d.1) - w| ≤ limit) ∧
  (¬ finite (f32.read d.1) → f32.read d.1 = .inf (decide (w < 0)) ∧ (2 - (2 : ℝ) ^ (-24 : Int)) * 2 ^ (127 : Int) ≤ |w|) ∧
  d.2 = (if f32.subnormal d.1 then fUF else if d.1 / 2 ^ 23 % 256 = 255 then fOF else 0)

theorem funFlags_snd (x : Nat) :
    (funFlags x).2 = if f32.subnormal x then fUF else if x / 2 ^ 23 % 256 = 255 then fOF else 0 := by
  unfold funFlags
  by_cases hs : f32.subnormal x = true
  · have hexp : x / 2 ^ 23 % 256 = 0 := by
      have := (Bool.and_eq_true _ _ |>.mp hs).1
      exact beq_iff_eq.mp this
    rw [if_pos hs, hs, hexp]
    rfl
  · rw [if_neg hs, Bool.eq_false_iff.mpr hs]
    by_cases h : x / 2 ^ 23 % 256 = 255
    · rw [if_pos h, h]
      rfl
    · rw [if_neg h, beq_eq_false_iff_ne.mpr h]
      rfl

section
variable {limit w : ℝ}

theorem withinLimit_of_finite {x : Nat} (hfin : finite (f32.read x)) (h : |valR (f32.read x) - w| ≤ limit) :
    WithinLimit limit w (funFlags x) :=
  ⟨fun _ => h, fun hn => absurd hfin hn, funFlags_snd x⟩

theorem withinLimit_of_bits {b : Nat} (n : Bool) (hb : b ≤ f32.maxBits) (h : |withSign n (mag f32 b) - w| ≤ limit) :
    WithinLimit limit w (funFlags (b + f32.sign n)) :=
  withinLimit_of_finite (finite_read standard_f32.ebits n hb) (by rwa [valR_read standard_f32.ebits n hb])

theorem read_inf (n : Bool) : f32.read (f32.inf n) = .inf n := by cases n <;> decide

theorem withinLimit_of_inf {n : Bool} (hn : w < 0 ↔ n = true) (h : (2 - (2 : ℝ) ^ (-24 : Int)) * 2 ^ (127 : Int) ≤ |w|) :
    WithinLimit limit w (funFlags (f32.inf n)) := by
  have hsign : decide (w < 0) = n := by
    rw [Bool.eq_iff_iff, decide_eq_true_iff]
    exact hn
  refine ⟨fun hfin => ?_, fun _ => ⟨?_, h⟩, funFlags_snd _⟩
  · obtain ⟨s, m, e, heq⟩ := hfin
    exact absurd ((read_inf n).symm.trans heq) (by simp)
  · rw [hsign]
    exact read_inf n

/-- The exponent field of a number's bits is not that of an infinity. -/
theorem exponent_of_bits {b : Nat} (n : Bool) (hb : b ≤ f32.maxBits) : (b + f32.sign n) / 2 ^ 23 % 256 ≠ 255 := by
  have h : (b + f32.sign n) / 2 ^ 23 % 256 = b / 2 ^ 23 := bits_exponent (f := f32) (lt_of_le_of_lt hb (maxBits_lt f32)) n
  have hmax : f32.maxBits = 255 * 2 ^ 23 - 1 := by decide
  rw [h]
  omega

/-- A candidate that lies within a bound of a value. -/
theorem nearBy_spec {k : Bool} {r : Nat} {g : Int} {b : Nat × Int} {c : FVal} (h : nearBy (.fin k r g) b c = true) :
    finite c ∧ |valR c - valR (.fin k r g)| ≤ b.1 * 2 ^ b.2 := by
  cases c with
  | nan s => cases h
  | inf s => cases h
  | fin s m e =>
    refine ⟨⟨s, m, e, rfl⟩, ?_⟩
    let q := min (min g e) b.2
    have hdiff : (scaled k r g q - scaled s m e q).natAbs ≤ b.1 * 2 ^ (b.2 - q).toNat  :=
      of_decide_eq_true h
    have hq : (2 : ℝ) ^ b.2 = 2 ^ (b.2 - q).toNat * 2 ^ q := zpow_two_sub (min_le_right _ _)
    have hpos := zpow_two_pos (K := ℝ) q
    rw [abs_sub_comm, ← scaled_val k r (show q ≤ g from (min_le_left _ _).trans (min_le_left _ _)),
      ← scaled_val s m (show q ≤ e from (min_le_left _ _).trans (min_le_right _ _)), ← sub_mul, abs_mul, abs_of_pos hpos, hq, ← mul_assoc]
    refine mul_le_mul_of_nonneg_right ?_ hpos.le
    rw [← Int.cast_sub, ← Int.cast_abs, ← Nat.cast_natAbs]
    exact_mod_cast hdiff

/-- A bounded result: the value rounded, or a free one within the bound. -/
theorem funBounded_within {fn bits : Nat} {x : FVal} {n k : Bool} {m r : Nat} {e g : Int} (hnear : funNear fn n m e = .fin k r g)
    (hulp : 2 ^ ulpExp r g ≤ limit)
    (hbound : ((funBound fn x (.fin k r g)).1 : ℝ) * 2 ^ (funBound fn x (.fin k r g)).2 ≤ limit) :
    WithinLimit limit (valR (.fin k r g)) (funBounded fn bits x n m e) := by
  have hlimit : 0 ≤ limit := (zpow_two_pos _).le.trans hulp
  unfold funBounded
  dsimp only
  rw [hnear]
  dsimp only
  generalize (Config.funResult fn (BitVec.ofNat 32 bits)).toNat = free
  have hround {z b : Nat} (hz : z = b + f32.sign k) (hb : b ≤ f32.maxBits) (hnear : |withSign k (mag f32 b) - valR (.fin k r g)| ≤ limit) :
      WithinLimit limit (valR (.fin k r g)) (funFlags (if z / 2 ^ 23 % 256 = 255 then z
        else if nearBy (.fin k r g) (funBound fn x (.fin k r g)) (f32.read free) = true then free else z)) := by
    rw [hz, if_neg (exponent_of_bits k hb)]
    split
    next h =>
      obtain ⟨hfin, hdist⟩ := nearBy_spec h
      exact withinLimit_of_finite hfin (hdist.trans hbound)
    next => exact withinLimit_of_bits k hb hnear
  by_cases hr : r = 0
  · subst hr
    refine hround (b := 0) ?_ (Nat.zero_le _) ?_
    · rw [round_zero]
      cases k <;> rfl
    · simpa [mag_zero, valR_fin, withSign_zero] using hlimit
  · have hA : (0 : ℝ) < (r : ℝ) * 2 ^ g := mul_pos (Nat.cast_pos.mpr (Nat.pos_of_ne_zero hr)) (zpow_two_pos g)
    rcases rne_cases k (e := g) hr with ⟨b, hb, hz, hdist⟩ | ⟨hz, hbig⟩
    · refine hround hz hb ?_
      rw [valR_fin, dist_withSign (mag_nonneg f32 b) hA.le, if_pos rfl]
      exact hdist.trans hulp
    · rw [hz, if_pos (by cases k <;> decide)]
      refine withinLimit_of_inf ?_ ?_
      · rw [valR_fin, withSign_lt_zero hA]
      · rw [valR_fin, abs_withSign k hA.le]
        exact hbig

end

end Sys2Proof.Proofs.FunRounding
end

