-- ==== Sys2Proof/Proofs/FunNear.lean ====
section
/-! SUPPORT. The values from which FUN's bounds are measured lie within 2^-200 units in the last place of the exact results (R139;
assumption 11). -/

namespace Sys2Proof.Proofs.FunNear

open Sys2Proof Sys2Proof.Machine Sys2Proof.Claims Sys2Proof.Proofs.Rounding Sys2Proof.Proofs.Formats Sys2Proof.Proofs.RoundOnce
  Sys2Proof.Proofs.FloatResults Sys2Proof.Proofs.FixedPoint Sys2Proof.Proofs.FixedFunctions Sys2Proof.Proofs.FunRounding

/-! ### Sources of binary32 -/

/-- The significand and the exponent of a source. -/
theorem f32_fields {x : Nat} {n : Bool} {m : Nat} {e : Int} (h : f32.read x = .fin n m e) : m < 2 ^ 24 ∧ -149 ≤ e := by
  have hfr : x % 2 ^ f32.fbits < 2 ^ 23 := Nat.mod_lt _ (Nat.two_pow_pos 23)
  have hq : f32.qmin = -149 := by decide
  have hP : 2 ^ f32.fbits = 2 ^ 23 := rfl
  unfold Fmt.read at h
  simp only [show f32.kind = .ieee from rfl] at h
  split at h
  · split at h <;> cases h
  · split at h
    · cases h
      omega
    · cases h
      omega

/-- A source other than 1 is not very near to it. -/
theorem away_from_one {m : Nat} {e : Int} (hm : m < 2 ^ 24) (h : (m : ℝ) * 2 ^ e ≠ 1) :
    (m : ℝ) * 2 ^ e ≤ 1 - 2 ^ (-24 : Int) ∨ 1 + 2 ^ (-23 : Int) ≤ (m : ℝ) * 2 ^ e := by
  have hmR : (m : ℝ) < 2 ^ (24 : Int) := by exact_mod_cast hm
  have hmult (k : Nat) (hk : -(k : Int) ≤ e) : (m : ℝ) * 2 ^ e = ((m * 2 ^ (e + k).toNat : Nat) : ℝ) / 2 ^ k := by
    rw [zpow_two_sub hk, sub_neg_eq_add, zpow_neg, zpow_natCast]
    push_cast
    ring
  have hsmall (k : Int) (he : e ≤ k) : (m : ℝ) * 2 ^ e ≤ 2 ^ (24 + k) := by
    rw [zpow_add₀ two_ne_zero]
    exact mul_le_mul hmR.le (zpow_le_zpow_right₀ one_le_two he) (zpow_two_pos e).le (zpow_two_pos _).le
  rcases lt_or_gt_of_ne h with hlt | hgt
  · left
    by_cases he : -24 ≤ e
    · rw [hmult 24 (by exact_mod_cast he)] at hlt ⊢
      generalize m * 2 ^ (e + (24 : Nat)).toNat = N at *
      have hN : N + 1 ≤ 2 ^ 24 := by exact_mod_cast (div_lt_one (by positivity)).mp hlt
      have hNR : (N : ℝ) + 1 ≤ 2 ^ 24 := by exact_mod_cast hN
      rw [div_le_iff₀ (by positivity)]
      norm_num only at hNR ⊢
      linarith
    · refine (hsmall (-25) (by omega)).trans ?_
      norm_num
  · right
    have he : -23 ≤ e := by
      by_contra hlt
      refine absurd ((hsmall (-24) (by omega)).trans_lt' hgt) ?_
      norm_num
    rw [hmult 23 (by exact_mod_cast he)] at hgt ⊢
    generalize m * 2 ^ (e + (23 : Nat)).toNat = N at *
    have hN : 2 ^ 23 + 1 ≤ N := by exact_mod_cast (one_lt_div (by positivity)).mp hgt
    have hNR : (2 : ℝ) ^ 23 + 1 ≤ N := by exact_mod_cast hN
    rw [le_div_iff₀ (by positivity)]
    norm_num only at hNR ⊢
    linarith

/-! ### Nearness -/

/-- A value is near to a number: within 2^-200 of a unit in the last place. -/
def Near (w y : ℝ) : Prop := |w - y| ≤ 2 ^ (-200 : Int) * ulp w

theorem near_self (w : ℝ) : Near w w := by
  rw [Near, sub_self, abs_zero]
  exact mul_nonneg (zpow_two_pos _).le (ulp_pos w).le

theorem near_of_abs {w y : ℝ} (h : |w - y| ≤ 2 ^ (-349 : Int)) : Near w y := by
  refine h.trans ?_
  rw [show (2 : ℝ) ^ (-349 : Int) = 2 ^ (-200 : Int) * 2 ^ (-149 : Int) by rw [← zpow_add₀ two_ne_zero]; norm_num]
  exact mul_le_mul_of_nonneg_left (ulp_ge_least w) (zpow_two_pos _).le

theorem near_of_ratio {w y : ℝ} (h : |w - y| ≤ 2 ^ (-224 : Int) * |w|) : Near w y := by
  refine h.trans ?_
  rw [show (2 : ℝ) ^ (-224 : Int) = 2 ^ (-200 : Int) * 2 ^ (-24 : Int) by rw [← zpow_add₀ two_ne_zero]; norm_num, mul_assoc]
  exact mul_le_mul_of_nonneg_left (ulp_ge_ratio w) (zpow_two_pos _).le

theorem near_withSign (n : Bool) {w y : ℝ} (h : Near w y) : Near (withSign n w) (withSign n y) := by
  cases n with
  | false => exact h
  | true =>
    have hulp : ulp (-w) = ulp w := by rw [ulp, ulp, abs_neg]
    rw [Near, withSign, withSign, if_pos rfl, if_pos rfl, hulp, ← neg_sub', abs_neg]
    exact h

/-- A large whole part is near to the number. -/
theorem near_of_floor {Q : Nat} {R : ℝ} (q : Int) (h0 : (Q : ℝ) ≤ R) (h1 : R < Q + 1) (hQ : 2 ^ 224 ≤ Q) :
    Near (Q * 2 ^ q) (R * 2 ^ q) := by
  have hpos := zpow_two_pos (K := ℝ) q
  have hQR : (2 : ℝ) ^ (224 : Int) ≤ Q := by exact_mod_cast hQ
  have hunit : 1 ≤ 2 ^ (-224 : Int) * (Q : ℝ) := by
    calc (1 : ℝ) = 2 ^ (-224 : Int) * 2 ^ (224 : Int) := by rw [← zpow_add₀ two_ne_zero]; norm_num
      _ ≤ _ := mul_le_mul_of_nonneg_left hQR (zpow_two_pos _).le
  refine near_of_ratio ?_
  rw [← sub_mul, abs_mul, abs_of_pos hpos, abs_of_nonneg (mul_nonneg (Nat.cast_nonneg Q) hpos.le), ← mul_assoc]
  refine mul_le_mul_of_nonneg_right ?_ hpos.le
  rw [abs_le]
  constructor <;> linarith

/-! ### Reciprocals and reciprocal roots -/

theorem funNear_rcp (n : Bool) {m : Nat} (e : Int) (hm : m ≠ 0) : ∃ r g, funNear 0 n m e = .fin n r g ∧ r ≠ 0 ∧
    Near (valR (.fin n r g)) (funReal 0 (valR (.fin n m e))) := by
  obtain ⟨-, hlt, -⟩ := bitLen_bounds hm
  let k := fixP + bitLen m
  have hmpos : 0 < m := Nat.pos_of_ne_zero hm
  have hmR : (0 : ℝ) < m := Nat.cast_pos.mpr hmpos
  have hQ : 2 ^ 224 ≤ 2 ^ k / m := by
    have hfix : 224 ≤ fixP := by decide
    rw [Nat.le_div_iff_mul_le hmpos, show 2 ^ k = 2 ^ fixP * 2 ^ bitLen m from Nat.pow_add ..]
    generalize fixP = P at *
    exact Nat.mul_le_mul (Nat.pow_le_pow_right two_pos hfix) (by omega)
  refine ⟨2 ^ k / m, -(k : Int) - e, rfl, by have := Nat.two_pow_pos 224; omega, ?_⟩
  have h0 : ((2 ^ k / m : Nat) : ℝ) ≤ (2 ^ k : Nat) / m := Nat.cast_div_le
  have h1 : ((2 ^ k : Nat) : ℝ) / m < (2 ^ k / m : Nat) + 1 := by
    rw [div_lt_iff₀ hmR]
    exact_mod_cast Nat.lt_mul_of_div_lt (Nat.lt_succ_self (2 ^ k / m)) hmpos
  have hexact : funReal 0 (valR (.fin n m e)) = withSign n (((2 ^ k : Nat) : ℝ) / m * 2 ^ (-(k : Int) - e)) := by
    have hpos := zpow_two_pos (K := ℝ) e
    change 1 / valR (.fin n m e) = _
    have hval : ((2 ^ k : Nat) : ℝ) / m * 2 ^ (-(k : Int) - e) = 1 / (m * 2 ^ e) := by
      rw [zpow_sub₀ two_ne_zero, zpow_neg, zpow_natCast]
      push_cast
      field_simp
    rw [valR_fin, hval]
    cases n <;> simp [withSign]
  rw [hexact, valR_fin]
  exact near_withSign n (near_of_floor _ h0 h1 hQ)

theorem funNear_rsq {m : Nat} {e : Int} (hm : m ≠ 0) (hlt : m < 2 ^ 24) : ∃ r g, funNear 1 false m e = .fin false r g ∧ r ≠ 0 ∧
    Near (valR (.fin false r g)) (funReal 1 (valR (.fin false m e))) := by
  -- the exponent made even
  obtain ⟨m1, h, hm1, hlt1, hval, hnear⟩ : ∃ (m1 : Nat) (h : Int), m1 ≠ 0 ∧ m1 ≤ 2 ^ 25 ∧ (m : ℝ) * 2 ^ e = m1 * 2 ^ (2 * h) ∧
      funNear 1 false m e = .fin false (isqrt (2 ^ (2 * fixP) / m1) ((bitLen (2 ^ (2 * fixP) / m1) + 1) / 2) 0) (-(fixP : Int) - h) := by
    by_cases hodd : e % 2 ≠ 0
    · refine ⟨2 * m, (e - 1) / 2, by omega, by omega, ?_, ?_⟩
      · rw [show e = 2 * ((e - 1) / 2) + 1 by omega, zpow_add_one₀ two_ne_zero, show (2 * ((e - 1) / 2) + 1 - 1) / 2 = (e - 1) / 2 by omega]
        push_cast
        ring
      · unfold funNear
        simp only [if_pos hodd]
    · refine ⟨m, e / 2, hm, by omega, ?_, ?_⟩
      · rw [show 2 * (e / 2) = e by omega]
      · unfold funNear
        simp only [if_neg hodd]
  obtain ⟨h0, h1⟩ := isqrt_bounds (2 ^ (2 * fixP) / m1)
  generalize isqrt (2 ^ (2 * fixP) / m1) ((bitLen (2 ^ (2 * fixP) / m1) + 1) / 2) 0 = y at *
  have hm1pos : 0 < m1 := Nat.pos_of_ne_zero hm1
  have hm1R : (0 : ℝ) < m1 := Nat.cast_pos.mpr hm1pos
  let R : ℝ := Real.sqrt ((2 ^ (2 * fixP) : Nat) / m1)
  have hx0 : ((2 ^ (2 * fixP) / m1 : Nat) : ℝ) ≤ (2 ^ (2 * fixP) : Nat) / m1 := Nat.cast_div_le
  have hx1 : ((2 ^ (2 * fixP) : Nat) : ℝ) / m1 < (2 ^ (2 * fixP) / m1 : Nat) + 1 := by
    rw [div_lt_iff₀ hm1R]
    exact_mod_cast Nat.lt_mul_of_div_lt (Nat.lt_succ_self (2 ^ (2 * fixP) / m1)) hm1pos
  have hy0 : (y : ℝ) ≤ R := by
    refine Real.le_sqrt_of_sq_le (le_trans ?_ hx0)
    rw [pow_two]
    exact_mod_cast h0
  have hy1 : R < y + 1 := by
    refine (Real.sqrt_lt' (by positivity)).mpr (lt_of_lt_of_le hx1 ?_)
    rw [pow_two]
    exact_mod_cast h1
  have hbig : 2 ^ 225 ≤ y := by
    have hx : 2 ^ 225 * 2 ^ 225 ≤ 2 ^ (2 * fixP) / m1 := by
      have hfix : 238 ≤ fixP := by decide
      rw [Nat.le_div_iff_mul_le hm1pos, two_mul, Nat.pow_add]
      generalize fixP = P at *
      calc 2 ^ 225 * 2 ^ 225 * m1 ≤ 2 ^ 225 * 2 ^ 225 * (2 ^ 13 * 2 ^ 13) := Nat.mul_le_mul_left _ (hlt1.trans (by norm_num))
        _ = 2 ^ 238 * 2 ^ 238 := by norm_num
        _ ≤ 2 ^ P * 2 ^ P := Nat.mul_le_mul (Nat.pow_le_pow_right two_pos hfix) (Nat.pow_le_pow_right two_pos hfix)
    exact Nat.lt_succ_iff.mp (Nat.mul_self_lt_mul_self_iff.mp (lt_of_le_of_lt hx h1))
  have hexact : funReal 1 (valR (.fin false m e)) = R * 2 ^ (-(fixP : Int) - h) := by
    have hsq : Real.sqrt ((m : ℝ) * 2 ^ e) = Real.sqrt m1 * 2 ^ h := by
      rw [hval, Real.sqrt_mul hm1R.le, two_mul, zpow_add₀ two_ne_zero, Real.sqrt_mul_self (zpow_two_pos h).le]
    have hR : R = 2 ^ fixP / Real.sqrt m1 := by
      simp only [R]
      rw [Real.sqrt_div (Nat.cast_nonneg _), Nat.cast_pow, Nat.mul_comm, pow_mul, Real.sqrt_sq (by positivity)]
      norm_num
    change 1 / Real.sqrt (valR (.fin false m e)) = _
    rw [valR_fin, withSign, if_neg Bool.false_ne_true, hsq, hR, zpow_sub₀ two_ne_zero, zpow_neg, zpow_natCast]
    have := Real.sqrt_pos.mpr hm1R
    field_simp
  refine ⟨y, -(fixP : Int) - h, hnear, by have := Nat.two_pow_pos 225; omega, ?_⟩
  rw [hexact, valR_fin]
  exact near_of_floor _ hy0 hy1 (le_trans (Nat.pow_le_pow_right two_pos (by norm_num)) hbig)

/-! ### Sine, cosine and hyperbolic tangent -/

section
variable {n : Bool} {m : Nat} {e : Int} (he : -512 ≤ e)
include he

theorem funNear_sin (hlt : (m : ℝ) * 2 ^ e < 2 ^ (128 : Int)) : ∃ x, funNear 5 n m e = fixVal x ∧
    Near (valR (fixVal x)) (funReal 5 (valR (.fin n m e))) := by
  have hx := fixReal_toFix (n := n) (m := m) he
  have habs : |fixReal (toFix n m e)| ≤ 2 ^ (128 : Int) := by
    rw [hx, valR_fin, abs_withSign n (by positivity)]
    exact hlt.le
  refine ⟨_, rfl, near_of_abs ?_⟩
  rw [valR_fixVal, ← hx]
  exact (fixSin_turns habs).trans (zpow_le_zpow_right₀ one_le_two (by norm_num))

theorem funNear_cos (hlt : (m : ℝ) * 2 ^ e < 2 ^ (128 : Int)) : ∃ x, funNear 6 n m e = fixVal x ∧
    Near (valR (fixVal x)) (funReal 6 (valR (.fin n m e))) := by
  have hx := fixReal_toFix (n := n) (m := m) he
  have habs : |fixReal (toFix n m e)| ≤ 2 ^ (128 : Int) := by
    rw [hx, valR_fin, abs_withSign n (by positivity)]
    exact hlt.le
  refine ⟨_, rfl, near_of_abs ?_⟩
  rw [valR_fixVal, ← hx]
  exact (fixCos_turns habs).trans (zpow_le_zpow_right₀ one_le_two (by norm_num))

theorem funNear_tanh (hlt : (m : ℝ) * 2 ^ e ≤ 9.1) : ∃ x, funNear 7 n m e = fixVal x ∧
    Near (valR (fixVal x)) (funReal 7 (valR (.fin n m e))) := by
  have hx : fixReal (2 * toFix false m e) = 2 * (m * 2 ^ e) := by
    rw [fixReal_intMul, fixReal_toFix he, valR_fin]
    rfl
  have hA : (0 : ℝ) ≤ m * 2 ^ e := by positivity
  have h19 : |fixReal (2 * toFix false m e)| ≤ 19 := by
    rw [hx, abs_of_nonneg (by linarith)]
    norm_num at hlt ⊢
    linarith
  have hnear := fixTanh_near h19
  rw [hx, mul_div_cancel_left₀ _ two_ne_zero] at hnear
  refine ⟨_, rfl, ?_⟩
  have hodd : funReal 7 (valR (.fin n m e)) = withSign n (Real.tanh (m * 2 ^ e)) := by
    rw [valR_fin]
    cases n
    · rfl
    · exact Real.tanh_neg _
  have hsign (x : Int) : fixReal ((if n then -1 else 1) * x) = withSign n (fixReal x) := by
    cases n <;> simp [withSign, fixReal_neg]
  rw [valR_fixVal, hodd, hsign]
  exact near_withSign n (near_of_abs (hnear.trans (zpow_le_zpow_right₀ one_le_two (by norm_num))))

end

/-! ### Powers of 2 -/

theorem funNear_exp2 {n : Bool} {m : Nat} {e : Int} (he : -512 ≤ e) (hlo : -300 < valR (.fin n m e)) (hhi : valR (.fin n m e) < 200) :
    ∃ r g, funNear 3 n m e = .fin false r g ∧ r ≠ 0 ∧ Near (valR (.fin false r g)) (funReal 3 (valR (.fin n m e))) := by
  have hxR := fixReal_toFix (n := n) (m := m) he
  let x := toFix n m e
  have hone := fixOne_pos
  have h200 : ¬ 200 * fixOne ≤ x := by
    rw [← fixReal_le_iff, fixReal_intMul, fixReal_one, hxR]
    push_cast
    linarith
  have h300 : ¬ x ≤ -300 * fixOne := by
    rw [← fixReal_le_iff, fixReal_intMul, fixReal_one, hxR]
    push_cast
    linarith
  let f := x % fixOne
  let i := x / fixOne
  have hf := fixExp2_near (Int.emod_nonneg x hone.ne') (Int.emod_lt_of_pos x hone)
  change |_ - (2 : ℝ) ^ fixReal f| ≤ _ at hf
  let y := fixExp (fixMul f fixLn2)
  have hf0 : 0 ≤ fixReal f := by simpa using fixReal_mono (Int.emod_nonneg x hone.ne')
  have hone2 : (1 : ℝ) ≤ 2 ^ fixReal f := Real.one_le_rpow one_le_two hf0
  have hsmall : (2 : ℝ) ^ (-367 : Int) ≤ 2 ^ (-224 : Int) * (1 / 2) := by
    rw [show (1 / 2 : ℝ) = 2 ^ (-1 : Int) by norm_num, ← zpow_add₀ two_ne_zero]
    exact zpow_le_zpow_right₀ one_le_two (by norm_num)
  have hhalf : (2 : ℝ) ^ (-367 : Int) ≤ 1 / 2 := by
    rw [show (1 / 2 : ℝ) = 2 ^ (-1 : Int) by norm_num]
    exact zpow_le_zpow_right₀ one_le_two (by norm_num)
  have hylo : 1 / 2 ≤ fixReal y := by
    have := (abs_le.mp hf).1
    change _ ≤ fixReal y - _ at this
    linarith
  have hy0 : 0 < y := fixReal_lt_iff.mp (by rw [fixReal_zero]; linarith)
  have hval : valR (.fin false y.natAbs (i - fixP)) = fixReal y * 2 ^ i := by
    have hcast : ((y.natAbs : Nat) : ℝ) = y := by
      rw [Nat.cast_natAbs, abs_of_pos hy0]
    rw [valR_fin, withSign, if_neg Bool.false_ne_true, hcast, sub_eq_neg_add, zpow_add₀ two_ne_zero, ← mul_assoc]
    rfl
  have hexact : funReal 3 (valR (.fin n m e)) = 2 ^ fixReal f * 2 ^ i := by
    change (2 : ℝ) ^ valR (.fin n m e) = _
    have hsplit : valR (.fin n m e) = fixReal f + i := by
      have hf : fixReal f = fixReal x - i := by
        change fixReal (x % fixOne) = _
        rw [Int.emod_def, fixReal_sub, mul_comm, fixReal_intMul, fixReal_one, mul_one]
      rw [← hxR, hf, sub_add_cancel]
    rw [hsplit, Real.rpow_add two_pos, Real.rpow_intCast]
  refine ⟨y.natAbs, i - fixP, ?_, by omega, ?_⟩
  · unfold funNear
    simp only
    rw [if_neg h200, if_neg h300]
  · rw [hexact, hval]
    have hpos := zpow_two_pos (K := ℝ) i
    refine near_of_ratio ?_
    rw [← sub_mul, abs_mul, abs_mul, abs_of_pos hpos, ← mul_assoc, abs_of_pos (by linarith : 0 < fixReal y)]
    refine mul_le_mul_of_nonneg_right ((hf.trans hsmall).trans ?_) hpos.le
    exact mul_le_mul_of_nonneg_left hylo (zpow_two_pos _).le

/-! ### Binary logarithms -/

theorem abs_log_ge {m : Nat} {e : Int} (hm : m ≠ 0) (hlt : m < 2 ^ 24) (h1 : (m : ℝ) * 2 ^ e ≠ 1) :
    2 ^ (-24 : Int) ≤ |Real.logb 2 (m * 2 ^ e)| := by
  have hA : (0 : ℝ) < m * 2 ^ e := mul_pos (Nat.cast_pos.mpr (Nat.pos_of_ne_zero hm)) (zpow_two_pos e)
  have hlog := Real.log_two_lt_d9
  have hlog0 := Real.log_two_gt_d9
  have hln : 2 ^ (-24 : Int) ≤ |Real.log (m * 2 ^ e)| := by
    have haway := away_from_one hlt h1
    generalize (m : ℝ) * 2 ^ e = A at *
    rcases haway with h | h
    · have := Real.log_le_sub_one_of_pos hA
      rw [abs_of_nonpos (by norm_num at h; linarith)]
      linarith
    · have hlow := Real.one_sub_inv_le_log_of_pos hA
      have hinv : A⁻¹ ≤ (1 + 2 ^ (-23 : Int))⁻¹ := inv_anti₀ (by positivity) h
      rw [abs_of_nonneg]
      · norm_num at hinv ⊢
        linarith
      · norm_num at hinv
        linarith
  rw [Real.logb, abs_div, abs_of_pos (by linarith : 0 < Real.log 2)]
  refine hln.trans (le_div_self (abs_nonneg _) (by linarith) (by linarith))

theorem funNear_log2 {m : Nat} {e : Int} (hm : m ≠ 0) (hlt : m < 2 ^ 24) (h1 : (m : ℝ) * 2 ^ e ≠ 1) : ∃ x, funNear 4 false m e = fixVal x ∧
    Near (valR (fixVal x)) (funReal 4 (valR (.fin false m e))) ∧ |valR (fixVal x) - funReal 4 (valR (.fin false m e))| ≤ 2 ^ (-255 : Int) := by
  let top : Int := e + bitLen m - 1
  obtain ⟨hlo, hhi⟩ := top_bounds hm (magnitude_exact (K := ℝ) m e)
  have hlen : bitLen m ≤ 24 := by
    obtain ⟨hle, -, hpos⟩ := bitLen_bounds hm
    have := (Nat.pow_lt_pow_iff_right (by norm_num : 1 < 2)).mp (lt_of_le_of_lt hle hlt)
    omega
  let y := scaled false m (e - top) (-(fixP : Int))
  have hyR : fixReal y = m * 2 ^ e / 2 ^ top := by
    have := scaled_val false m (show -(fixP : Int) ≤ e - top by simp only [top, fixP]; omega)
    change fixReal y = _ at this
    rw [this, valR_fin, withSign, if_neg Bool.false_ne_true, zpow_sub₀ two_ne_zero, mul_div_assoc]
  have htop := zpow_two_pos (K := ℝ) top
  have hy1 : fixOne ≤ y := by
    rw [← fixReal_le_iff, fixReal_one, hyR, one_le_div htop]
    exact hlo
  have hy2 : y < 2 * fixOne := by
    rw [← fixReal_lt_iff, fixReal_intMul, fixReal_one, hyR, div_lt_iff₀ htop]
    have : (2 : ℝ) ^ (top + 1) = 2 ^ top * 2 := zpow_add_one₀ two_ne_zero top
    push_cast
    linarith
  have hbits := fixLogBits_near 256 512 (by norm_num) hy1 hy2
  have hL : ((fixLogBits 256 512 y : Int) : ℝ) / 2 ^ 512 = fixReal (fixLogBits 256 512 y) := by
    rw [fixReal, fixUnit, zpow_neg, div_eq_mul_inv]
    rfl
  have hlogb : Real.logb 2 (m * 2 ^ e) = top + Real.logb 2 (fixReal y) := by
    have hA : (m : ℝ) * 2 ^ e ≠ 0 := (lt_of_lt_of_le (zpow_two_pos _) hlo).ne'
    have hpow : Real.logb 2 ((2 : ℝ) ^ top) = top := by rw [← Real.rpow_intCast, Real.logb_rpow two_pos (by norm_num)]
    rw [hyR, Real.logb_div hA htop.ne', hpow]
    ring
  have hexact : funReal 4 (valR (.fin false m e)) = Real.logb 2 (m * 2 ^ e) := by
    rw [valR_fin]
    rfl
  refine ⟨_, rfl, ?_⟩
  rw [hexact, valR_fixVal, fixReal_add, fixReal_intMul, fixReal_one, mul_one]
  have herr : |(top : ℝ) + fixReal (fixLogBits 256 512 y) - Real.logb 2 (m * 2 ^ e)| ≤ 2 ^ (-255 : Int) := by
    rw [hlogb, add_sub_add_left_eq_sub, ← hL]
    refine hbits.trans ?_
    rw [fixUnit, one_div, inv_pow, ← zpow_natCast, ← zpow_neg, show (4 : ℝ) = 2 ^ (2 : Int) by norm_num, ← zpow_add₀ two_ne_zero]
    exact sum_of_errors (by norm_num) (by norm_num)
  refine ⟨?_, herr⟩
  have hbig := abs_log_ge hm hlt h1
  have hw : 2 ^ (-25 : Int) ≤ |(top : ℝ) + fixReal (fixLogBits 256 512 y)| := by
    have hsub := abs_sub_abs_le_abs_sub (Real.logb 2 (m * 2 ^ e)) ((top : ℝ) + fixReal (fixLogBits 256 512 y))
    rw [abs_sub_comm (Real.logb 2 (m * 2 ^ e))] at hsub
    have := sum_of_errors (a := -25) (b := -255) (k := -24) (by norm_num) (by norm_num)
    linarith
  refine near_of_ratio (herr.trans ?_)
  calc (2 : ℝ) ^ (-255 : Int) ≤ 2 ^ (-224 + -25 : Int) := zpow_le_zpow_right₀ one_le_two (by norm_num)
    _ = 2 ^ (-224 : Int) * 2 ^ (-25 : Int) := zpow_add₀ two_ne_zero _ _
    _ ≤ _ := mul_le_mul_of_nonneg_left hw (zpow_two_pos _).le

end Sys2Proof.Proofs.FunNear
end

