-- ==== Sys2Proof/Proofs/FunBounds.lean ====
section
/-! SUPPORT. Every result of FUN on a finite nonzero source lies within the bound of R139. -/

namespace Sys2Proof.Proofs.FunBounds

open Sys2Proof Sys2Proof.Machine Sys2Proof.Claims Sys2Proof.Proofs.Rounding Sys2Proof.Proofs.Formats Sys2Proof.Proofs.RoundOnce
  Sys2Proof.Proofs.FloatResults Sys2Proof.Proofs.FixedPoint Sys2Proof.Proofs.FixedFunctions Sys2Proof.Proofs.FunRounding
  Sys2Proof.Proofs.FunNear

/-! ### Powers of two in binary32 -/

theorem mag_normal {k : Int} (h0 : -126 ≤ k) : mag f32 ((k + 127).toNat * 2 ^ 23) = 2 ^ k := by
  have hq : f32.qmin = -149 := by decide
  have h := mag_grid (f := f32) (j := (k + 126).toNat) (k := 2 ^ 23) (.inr le_rfl) (by decide)
  rw [show (k + 127).toNat = (k + 126).toNat + 1 by omega, Nat.add_mul, Nat.one_mul]
  refine h.trans ?_
  rw [Nat.cast_pow, Nat.cast_ofNat, ← zpow_natCast, ← zpow_add₀ two_ne_zero, hq]
  congr 1
  omega

theorem mag_subnormal {k : Int} (h0 : -149 ≤ k) (h1 : k ≤ -126) : mag f32 (2 ^ (k + 149).toNat) = 2 ^ k := by
  have hq : f32.qmin = -149 := by decide
  have hle : 2 ^ (k + 149).toNat ≤ 2 ^ (f32.fbits + 1) := Nat.pow_le_pow_right two_pos (by change _ ≤ 24; omega)
  have h := mag_grid (f := f32) (j := 0) (.inl rfl) hle
  rw [Nat.zero_mul, Nat.zero_add] at h
  rw [h, Nat.cast_pow, Nat.cast_ofNat, ← zpow_natCast, ← zpow_add₀ two_ne_zero, hq]
  congr 1
  omega

/-- A power of two of the format is exact. -/
theorem pow2Bits_exact {k : Int} {b : Nat} (hb : b ≤ f32.maxBits) (h : mag f32 b = 2 ^ k) (h0 : -400 ≤ k) (h1 : k ≤ 400) :
    pow2Bits k = b := by
  unfold pow2Bits
  rw [show max (-400) (min 400 k) = k by omega, round_exact standard_f32 (r := .rne) (Nat.zero_le 4) rfl false hb (by rw [h]; simp)]
  rfl

theorem pow2Bits_normal {k : Int} (h0 : -126 ≤ k) (h1 : k ≤ 127) : pow2Bits k = (k + 127).toNat * 2 ^ 23 :=
  pow2Bits_exact (by rw [show f32.maxBits = 255 * 2 ^ 23 - 1 by decide]; omega) (mag_normal h0) (by omega) (by omega)

theorem pow2Bits_subnormal {k : Int} (h0 : -149 ≤ k) (h1 : k < -126) : pow2Bits k = 2 ^ (k + 149).toNat := by
  have hle : 2 ^ (k + 149).toNat ≤ 2 ^ 23 := Nat.pow_le_pow_right two_pos (by omega)
  exact pow2Bits_exact (by rw [show f32.maxBits = 255 * 2 ^ 23 - 1 by decide]; omega) (mag_subnormal h0 h1.le) (by omega) (by omega)

/-- Half the least number rounds to the even zero, and less rounds to zero. -/
theorem pow2Bits_low {k : Int} (h : k < -149) : pow2Bits k = 0 := by
  unfold pow2Bits
  by_cases hk : k = -150
  · subst hk
    decide
  · have hc : max (-400) (min 400 k) ≤ -151 := by omega
    have hqmin : f32.qmin = -149 := by decide
    have htiny : 2 * (((1 : Nat) : ℝ) * 2 ^ max (-400) (min 400 k)) < 2 ^ f32.qmin := by
      rw [Nat.cast_one, one_mul, ← zpow_one_add₀ two_ne_zero, hqmin]
      exact zpow_lt_zpow_right₀ one_lt_two (by omega)
    rw [round_of_tiny standard_f32 (r := .rne) (Nat.zero_le 4) false one_ne_zero htiny]
    rfl

theorem pow2Bits_high {k : Int} (h : 127 < k) : pow2Bits k = f32.inf false := by
  have hhuge : mag f32 (f32.maxBits + 1) ≤ ((1 : Nat) : ℝ) * 2 ^ max (-400) (min 400 k) := by
    rw [f32_top, Nat.cast_one, one_mul]
    exact zpow_le_zpow_right₀ one_le_two (by omega)
  unfold pow2Bits
  rw [round_of_huge standard_f32 (r := .rne) (Nat.zero_le 4) false one_ne_zero hhuge]
  rfl

theorem big_le_zpow {k : Int} (h : 127 < k) : (2 - (2 : ℝ) ^ (-24 : Int)) * 2 ^ (127 : Int) ≤ 2 ^ k := by
  refine le_trans ?_ (zpow_le_zpow_right₀ one_le_two (show (128 : Int) ≤ k by omega))
  norm_num

/-- A power of two, of either sign, is delivered within any limit from the least number up. -/
theorem pow2_within {limit : ℝ} (hlimit : (2 : ℝ) ^ (-149 : Int) ≤ limit) (n : Bool) (k : Int) :
    WithinLimit limit (withSign n (2 ^ k)) (funFlags (pow2Bits k + f32.sign n)) := by
  have hpos := zpow_two_pos (K := ℝ) k
  have hlimit0 : 0 ≤ limit := (zpow_two_pos _).le.trans hlimit
  have hmax : f32.maxBits = 255 * 2 ^ 23 - 1 := by decide
  by_cases h1 : 127 < k
  · have hinf : pow2Bits k + f32.sign n = f32.inf n := by rw [pow2Bits_high h1]; rfl
    rw [hinf]
    refine withinLimit_of_inf (withSign_lt_zero hpos) ?_
    rw [abs_withSign n hpos.le]
    exact big_le_zpow h1
  · by_cases h2 : -126 ≤ k
    · rw [pow2Bits_normal h2 (by omega)]
      refine withinLimit_of_bits n (by omega) ?_
      rw [mag_normal h2, sub_self, abs_zero]
      exact hlimit0
    · by_cases h3 : -149 ≤ k
      · have hle : 2 ^ (k + 149).toNat ≤ 2 ^ 23 := Nat.pow_le_pow_right two_pos (by omega)
        rw [pow2Bits_subnormal h3 (by omega)]
        refine withinLimit_of_bits n (by omega) ?_
        rw [mag_subnormal h3 (by omega), sub_self, abs_zero]
        exact hlimit0
      · rw [pow2Bits_low (by omega)]
        refine withinLimit_of_bits n (Nat.zero_le _) ?_
        rw [mag_zero, withSign_zero, zero_sub, abs_neg, abs_withSign n hpos.le]
        exact (zpow_le_zpow_right₀ one_le_two (by omega)).trans hlimit

/-! ### Whole numbers in binary32 -/

theorem funFlags_normal {b : Nat} (h : b = 0 ∨ 2 ^ 23 ≤ b) (hb : b ≤ f32.maxBits) (n : Bool) :
    funFlags (b + f32.sign n) = (b + f32.sign n, 0) := by
  have hlt := lt_of_le_of_lt hb (maxBits_lt f32)
  have hsub : f32.subnormal (b + f32.sign n) = false := by
    rw [Fmt.subnormal, bits_exponent hlt, bits_fraction]
    change (b / 2 ^ 23 == 0 && !(b % 2 ^ 23 == 0)) = false
    rcases h with rfl | h
    · rfl
    · rw [beq_eq_false_iff_ne.mpr (by omega), Bool.false_and]
  refine Prod.ext rfl ?_
  rw [funFlags_snd, hsub, if_neg Bool.false_ne_true, if_neg (exponent_of_bits n hb)]

/-- A whole number below 2^24 is a number of the format, and no subnormal. -/
theorem exists_natBits {N : Nat} (hN : N < 2 ^ 24) : ∃ b ≤ f32.maxBits, mag f32 b = N ∧ (b = 0 ∨ 2 ^ 23 ≤ b) := by
  by_cases h0 : N = 0
  · exact ⟨0, Nat.zero_le _, by rw [h0, mag_zero, Nat.cast_zero], .inl rfl⟩
  · obtain ⟨hlo, hhi, hlen⟩ := bitLen_bounds h0
    have hle : bitLen N ≤ 24 := by
      have := (Nat.pow_lt_pow_iff_right (by norm_num : 1 < 2)).mp (lt_of_le_of_lt hlo hN)
      omega
    let a := N * 2 ^ (24 - bitLen N)
    have ha0 : 2 ^ 23 ≤ a := by
      calc 2 ^ 23 = 2 ^ (bitLen N - 1) * 2 ^ (24 - bitLen N) := by rw [← Nat.pow_add]; congr 1; omega
        _ ≤ a := Nat.mul_le_mul_right _ hlo
    have ha1 : a ≤ 2 ^ 24 := by
      calc a ≤ 2 ^ bitLen N * 2 ^ (24 - bitLen N) := Nat.mul_le_mul_right _ (by omega)
        _ = 2 ^ 24 := by rw [← Nat.pow_add]; congr 1; omega
    have hmax : f32.maxBits = 255 * 2 ^ 23 - 1 := by decide
    have hgrid := mag_grid (f := f32) (j := bitLen N + 125) (.inr ha0) ha1
    refine ⟨(bitLen N + 125) * 2 ^ 23 + a, by omega, hgrid.trans ?_, .inr (by omega)⟩
    have hq : f32.qmin + ((bitLen N + 125 : Nat) : Int) = -((24 - bitLen N : Nat) : Int) := by
      rw [show f32.qmin = -149 by decide]
      omega
    have ha : (a : ℝ) = N * 2 ^ (24 - bitLen N) := by simp [a]
    rw [hq, zpow_neg, zpow_natCast, ha]
    field_simp

/-- An integer below 2^24 is delivered exactly, without a flag. -/
theorem int_within {limit : ℝ} (hlimit : 0 ≤ limit) {k : Int} (hk : k.natAbs < 2 ^ 24) :
    WithinLimit limit k ((f32.round .rne (decide (k < 0)) k.natAbs 0 false).1, 0) := by
  obtain ⟨b, hb, hmag, hnormal⟩ := exists_natBits hk
  have hround := round_exact standard_f32 (r := .rne) (Nat.zero_le 4) rfl (decide (k < 0)) (m := k.natAbs) (e := 0) hb (by rw [hmag]; simp)
  rw [hround, ← funFlags_normal hnormal hb]
  refine withinLimit_of_bits _ hb ?_
  have hval : withSign (decide (k < 0)) (mag f32 b) = k := by
    have := valR_int k 0
    rw [valR_fin, zpow_zero, mul_one, mul_one] at this
    rw [hmag, this]
  rw [hval, sub_self, abs_zero]
  exact hlimit

/-! ### The bound as a real number -/

section
variable {n k : Bool} {m r : Nat} {e g : Int}

/-- The bound that the model measures is R139's. -/
theorem funBound_le {fn : Nat} (hfn : fn ∈ [0, 1, 3, 4, 5, 6, 7]) (hr : r ≠ 0 ∨ g ≤ -125)
    (hlog : fn = 4 → n = false ∧ (valR (.fin n m e) ≤ 2 → 1 / 2 ≤ valR (.fin n m e) → |valR (.fin k r g)| < 2)) :
    let limit := funLimit fn (valR (.fin n m e)) (valR (.fin k r g))
    2 ^ ulpExp r g ≤ limit ∧
      ((funBound fn (.fin n m e) (.fin k r g)).1 : ℝ) * 2 ^ (funBound fn (.fin n m e) (.fin k r g)).2 ≤ limit := by
  have hulp := ulp_fin k hr
  have hpos := zpow_two_pos (K := ℝ) (ulpExp r g)
  have hdouble : (2 : ℝ) ^ (ulpExp r g + 1) = 2 * 2 ^ ulpExp r g := by rw [zpow_add_one₀ two_ne_zero, mul_comm]
  unfold funLimit funBound
  rw [hulp]
  simp only [List.mem_cons, List.not_mem_nil, or_false] at hfn
  have hwave : (((1 : Nat) : ℝ)) * 2 ^ max (-24) (ulpExp r g + 1) ≤ max (2 * 2 ^ ulpExp r g) (2 ^ (-24 : Int)) := by
    rw [Nat.cast_one, one_mul, ← hdouble]
    rcases le_total (-24) (ulpExp r g + 1) with h | h
    · rw [max_eq_right h]
      exact le_max_left _ _
    · rw [max_eq_left h]
      exact le_max_right _ _
  have htwo : (2 : ℝ) ^ ulpExp r g ≤ 2 * 2 ^ ulpExp r g := by linarith
  rcases hfn with rfl | rfl | rfl | rfl | rfl | rfl | rfl
  · simp
  · exact ⟨htwo, by norm_num⟩
  · exact ⟨htwo, by norm_num⟩
  · obtain ⟨rfl, hsmall⟩ := hlog rfl
    have hval : valR (.fin false m e) = (m : ℝ) * 2 ^ e := by rw [valR_fin]; rfl
    have hinside : (magGe m e 1 (-1) && magGe 1 1 m e) = true ↔ 1 / 2 ≤ (m : ℝ) * 2 ^ e ∧ (m : ℝ) * 2 ^ e ≤ 2 := by
      rw [Bool.and_eq_true, magGe_iff (K := ℝ), magGe_iff (K := ℝ)]
      norm_num
    rw [hval] at hsmall ⊢
    rw [if_neg (by norm_num)]
    dsimp only
    by_cases hin : 1 / 2 ≤ (m : ℝ) * 2 ^ e ∧ (m : ℝ) * 2 ^ e ≤ 2
    · have hlt := hsmall hin.2 hin.1
      have hexp : ulpExp r g ≤ -23 := by
        by_cases hr0 : r = 0
        · have hg := hr.resolve_left (not_not.mpr hr0)
          subst hr0
          simp only [ulpExp, bitLen, if_true]
          omega
        · rw [valR_fin, abs_withSign k (by positivity)] at hlt
          have := lt_of_le_of_lt (top_bounds hr0 (magnitude_exact (K := ℝ) r g)).1 (hlt.trans_eq (zpow_one 2).symm)
          have := (zpow_lt_zpow_iff_right₀ (one_lt_two (α := ℝ))).mp this
          unfold ulpExp
          omega
      rw [if_pos ⟨rfl, hin⟩, if_pos (hinside.mpr hin)]
      change _ ∧ (((1 : Nat) : ℝ)) * 2 ^ max (-22) (ulpExp r g + 1) ≤ _
      rw [Nat.cast_one, one_mul, max_eq_left (by omega)]
      exact ⟨zpow_le_zpow_right₀ one_le_two (by omega), le_rfl⟩
    · rw [if_neg (fun h => hin h.2), if_neg (fun h => hin (hinside.mp h)), if_neg (by norm_num)]
      exact ⟨htwo, by norm_num⟩
  · rw [if_neg (by norm_num), if_neg (by norm_num), if_pos (.inl rfl)]
    exact ⟨htwo.trans (le_max_left _ _), hwave⟩
  · rw [if_neg (by norm_num), if_neg (by norm_num), if_pos (.inr rfl)]
    exact ⟨htwo.trans (le_max_left _ _), hwave⟩
  · exact ⟨htwo, by norm_num⟩

/-- A bounded result lies within R139's limit of the value it is measured from. -/
theorem funBounded_limit {fn bits : Nat} (hfn : fn ∈ [0, 1, 3, 4, 5, 6, 7]) (hr : r ≠ 0 ∨ g ≤ -125)
    (hnear : funNear fn n m e = .fin k r g)
    (hlog : fn = 4 → n = false ∧ (valR (.fin n m e) ≤ 2 → 1 / 2 ≤ valR (.fin n m e) → |valR (.fin k r g)| < 2)) :
    WithinLimit (funLimit fn (valR (.fin n m e)) (valR (.fin k r g))) (valR (.fin k r g)) (funBounded fn bits (.fin n m e) n m e) := by
  obtain ⟨hulp, hbound⟩ := funBound_le hfn hr hlog
  exact funBounded_within hnear hulp hbound

end

theorem ulp_le_limit {fn : Nat} (hfn : fn ≠ 4) (x w : ℝ) : ulp w ≤ funLimit fn x w := by
  have := ulp_pos w
  unfold funLimit
  split
  · exact le_rfl
  · rw [if_neg (fun h => hfn h.1)]
    split
    · exact le_trans (by linarith) (le_max_left _ _)
    · linarith

theorem limit_nonneg (fn : Nat) (x w : ℝ) : 0 ≤ funLimit fn x w := by
  have := ulp_pos w
  unfold funLimit
  split_ifs
  · exact this.le
  · positivity
  · exact le_trans (by linarith) (le_max_left _ _)
  · linarith

/-! ### Each fn -/

/-- What R139 asks of a result: it lies within the limit of a number near the exact one. -/
def Bounded (fn : Nat) (v : ℝ) (d : Nat × Word) : Prop := ∃ w : ℝ, Near w (funReal fn v) ∧ WithinLimit (funLimit fn v w) w d

section
variable {z : Bool} {x : Nat} {n : Bool} {m : Nat} {e : Int} (hread : f32.read (f32.flush z x) = .fin n m e) (hm : m ≠ 0)
include hread hm

theorem frcp_power {k : Int} (hk : pow2Exp m e = some k) : funOp 0 z x = funFlags (pow2Bits (-k) + f32.sign n) := by
  unfold funOp
  simp only [hread, if_neg hm, hk]

theorem frcp_other (hk : pow2Exp m e = none) : funOp 0 z x = funBounded 0 (f32.flush z x) (.fin n m e) n m e := by
  unfold funOp
  simp only [hread, if_neg hm, hk]

theorem frsq_power (hn : n = false) {k : Int} (hk : pow2Exp m e = some k) (heven : k % 2 = 0) :
    funOp 1 z x = funFlags (pow2Bits (-(k / 2))) := by
  unfold funOp
  simp only [hread, if_neg hm, hn, Bool.false_eq_true, if_false, hk, if_pos heven]

theorem frsq_other (hn : n = false) (hk : ∀ k, pow2Exp m e = some k → k % 2 ≠ 0) :
    funOp 1 z x = funBounded 1 (f32.flush z x) (.fin n m e) n m e := by
  unfold funOp
  simp only [hread, if_neg hm, hn, Bool.false_eq_true, if_false]
  cases h : pow2Exp m e with
  | none => rfl
  | some k => exact if_neg (hk k h)

theorem fexp2_integer {k : Int} (hk : intOf n m e = some k) : funOp 3 z x = funFlags (pow2Bits k) := by
  unfold funOp
  simp only [hread, if_neg hm, hk]

theorem fexp2_other (hk : intOf n m e = none) : funOp 3 z x = funBounded 3 (f32.flush z x) (.fin n m e) n m e := by
  unfold funOp
  simp only [hread, if_neg hm, hk]

theorem flog2_power (hn : n = false) {k : Int} (hk : pow2Exp m e = some k) :
    funOp 4 z x = ((f32.round .rne (decide (k < 0)) k.natAbs 0 false).1, 0) := by
  unfold funOp
  simp only [hread, if_neg hm, hn, Bool.false_eq_true, if_false, hk]

theorem flog2_other (hn : n = false) (hk : pow2Exp m e = none) : funOp 4 z x = funBounded 4 (f32.flush z x) (.fin n m e) n m e := by
  unfold funOp
  simp only [hread, if_neg hm, hn, Bool.false_eq_true, if_false, hk]

/-- The root and the logarithm of a negative number are invalid. -/
theorem negative_invalid (hn : n = true) : funOp 1 z x = f32.nanResult fNV ∧ funOp 4 z x = f32.nanResult fNV := by
  unfold funOp
  simp only [hread, if_neg hm, hn, if_true, and_self]

theorem fsin_fcos_fin : funOp 5 z x = funBounded 5 (f32.flush z x) (.fin n m e) n m e ∧
    funOp 6 z x = funBounded 6 (f32.flush z x) (.fin n m e) n m e := by
  unfold funOp
  simp only [hread, if_neg hm, and_self]

theorem ftanh_far (h : magGe (10 * m) e 91 0 = true) : funOp 7 z x = (f32.bias * 2 ^ 23 + f32.sign n, 0) := by
  unfold funOp
  simp only [hread, if_neg hm, if_pos h]

theorem ftanh_other (h : magGe (10 * m) e 91 0 = false) : funOp 7 z x = funBounded 7 (f32.flush z x) (.fin n m e) n m e := by
  unfold funOp
  simp only [hread, if_neg hm, h, Bool.false_eq_true, if_false]

end

/-- A significand that is a power of two. -/
theorem pow2Exp_some {m : Nat} {e k : Int} (hm : m ≠ 0) (h : pow2Exp m e = some k) : (m : ℝ) * 2 ^ e = 2 ^ k := by
  obtain ⟨-, -, hlen⟩ := bitLen_bounds hm
  unfold pow2Exp at h
  split at h
  next hpow =>
    have hk := (Option.some.inj h).symm
    have hmR : (m : ℝ) = 2 ^ ((bitLen m - 1 : Nat) : Int) := by
      rw [zpow_natCast]
      exact_mod_cast hpow
    rw [hmR, ← zpow_add₀ two_ne_zero, hk]
    congr 1
    omega
  next => cases h

theorem pow2Exp_none {m : Nat} {e : Int} (hm : m ≠ 0) (h : pow2Exp m e = none) : (m : ℝ) * 2 ^ e ≠ 1 := by
  intro h1
  obtain ⟨hlo, hhi⟩ := top_bounds hm (magnitude_exact (K := ℝ) m e)
  obtain ⟨-, -, hlen⟩ := bitLen_bounds hm
  rw [h1, ← zpow_zero (2 : ℝ)] at hlo hhi
  have h0 := (zpow_le_zpow_iff_right₀ (one_lt_two (α := ℝ))).mp hlo
  have h2 := (zpow_lt_zpow_iff_right₀ (one_lt_two (α := ℝ))).mp hhi
  have hm2 : m = 2 ^ (bitLen m - 1) := by
    have hmR : (m : ℝ) = 2 ^ ((bitLen m - 1 : Nat) : Int) := by
      rw [show ((bitLen m - 1 : Nat) : Int) = -e by omega, zpow_neg]
      exact eq_inv_of_mul_eq_one_left h1
    rw [zpow_natCast] at hmR
    exact_mod_cast hmR
  unfold pow2Exp at h
  rw [if_pos hm2] at h
  cases h

/-- The exponent of a power of two of binary32. -/
theorem f32_exponent {x : Nat} {n : Bool} {m : Nat} {e k : Int} (hx : x < 2 ^ f32.width) (hread : f32.read x = .fin n m e) (hm : m ≠ 0)
    (h : (m : ℝ) * 2 ^ e = 2 ^ k) : -149 ≤ k ∧ k ≤ 127 := by
  obtain ⟨hlo, hhi⟩ := f32_range hx hread hm
  rw [h] at hlo hhi
  have h1 := (zpow_le_zpow_iff_right₀ (one_lt_two (α := ℝ))).mp hlo
  have h2 := (zpow_lt_zpow_iff_right₀ (one_lt_two (α := ℝ))).mp hhi
  omega

section
variable {z : Bool} {x : Nat} {n : Bool} {m : Nat} {e : Int} (hx : x < 2 ^ 32) (hread : f32.read (f32.flush z x) = .fin n m e) (hm : m ≠ 0)
include hread hm

theorem frcp_bounded : Bounded 0 (valR (.fin n m e)) (funOp 0 z x) := by
  cases hk : pow2Exp m e with
  | some k =>
    have hval := pow2Exp_some hm hk
    have hexact : funReal 0 (valR (.fin n m e)) = withSign n (2 ^ (-k)) := by
      change 1 / valR (.fin n m e) = _
      rw [valR_fin, hval, zpow_neg]
      cases n <;> simp [withSign]
    rw [frcp_power hread hm hk]
    refine ⟨withSign n (2 ^ (-k)), by rw [hexact]; exact near_self _, pow2_within ?_ n (-k)⟩
    exact (ulp_ge_least _).trans (ulp_le_limit (by norm_num) _ _)
  | none =>
    obtain ⟨r, g, hnear, hr, hw⟩ := funNear_rcp n e hm
    rw [frcp_other hread hm hk]
    exact ⟨_, hw, funBounded_limit (by simp) (.inl hr) hnear (by norm_num)⟩

omit hread in
theorem sign_of_pos (h0 : 0 < valR (.fin n m e)) : n = false := by
  rw [valR_fin, zero_lt_withSign (mul_pos (Nat.cast_pos.mpr (Nat.pos_of_ne_zero hm)) (zpow_two_pos e))] at h0
  exact h0

theorem frsq_bounded (h0 : 0 < valR (.fin n m e)) : Bounded 1 (valR (.fin n m e)) (funOp 1 z x) := by
  have hn := sign_of_pos hm h0
  by_cases heven : ∃ k, pow2Exp m e = some k ∧ k % 2 = 0
  · obtain ⟨k, hk, heven⟩ := heven
    have hval := pow2Exp_some hm hk
    have hexact : funReal 1 (valR (.fin n m e)) = withSign false (2 ^ (-(k / 2))) := by
      have hsq : (2 : ℝ) ^ k = 2 ^ (k / 2) * 2 ^ (k / 2) := by
        rw [← zpow_add₀ two_ne_zero]
        congr 1
        omega
      change 1 / Real.sqrt (valR (.fin n m e)) = _
      rw [hn, valR_fin, withSign, if_neg Bool.false_ne_true, hval, hsq, Real.sqrt_mul_self (zpow_two_pos _).le, zpow_neg, one_div]
      rfl
    rw [frsq_power hread hm hn hk heven]
    refine ⟨withSign false (2 ^ (-(k / 2))), by rw [hexact]; exact near_self _, pow2_within ?_ false _⟩
    exact (ulp_ge_least _).trans (ulp_le_limit (by norm_num) _ _)
  · rw [frsq_other hread hm hn fun k hk h => heven ⟨k, hk, h⟩]
    subst hn
    obtain ⟨r, g, hnear, hr, hw⟩ := funNear_rsq hm (f32_fields hread).1
    exact ⟨_, hw, funBounded_limit (by simp) (.inl hr) hnear (by norm_num)⟩

include hx

theorem flog2_bounded (h0 : 0 < valR (.fin n m e)) : Bounded 4 (valR (.fin n m e)) (funOp 4 z x) := by
  have hn := sign_of_pos hm h0
  have hval : valR (.fin n m e) = m * 2 ^ e := by rw [valR_fin, hn]; rfl
  cases hk : pow2Exp m e with
  | some k =>
    have hpow := pow2Exp_some hm hk
    have hrange := f32_exponent (flush_lt z hx) hread hm hpow
    have hexact : funReal 4 (valR (.fin n m e)) = k := by
      change Real.logb 2 (valR (.fin n m e)) = _
      rw [hval, hpow, ← Real.rpow_intCast, Real.logb_rpow two_pos (by norm_num)]
    rw [flog2_power hread hm hn hk]
    exact ⟨k, by rw [hexact]; exact near_self _, int_within (limit_nonneg _ _ _) (by omega)⟩
  | none =>
    rw [flog2_other hread hm hn hk]
    subst hn
    obtain ⟨y, hnear, hw, herr⟩ := funNear_log2 hm (f32_fields hread).1 (pow2Exp_none hm hk)
    refine ⟨_, hw, funBounded_limit (by simp) (.inr (by decide)) hnear fun _ => ⟨rfl, fun hhi hlo => ?_⟩⟩
    change |valR (fixVal y)| < 2
    have hlog : |funReal 4 (valR (.fin false m e))| ≤ 1 := by
      change |Real.logb 2 (valR (.fin false m e))| ≤ 1
      rw [abs_le]
      constructor
      · rw [Real.le_logb_iff_rpow_le one_lt_two h0, Real.rpow_neg_one, ← one_div]
        exact hlo
      · rw [Real.logb_le_iff_le_rpow one_lt_two h0, Real.rpow_one]
        exact hhi
    have hsmall : (2 : ℝ) ^ (-255 : Int) ≤ 1 / 2 := by
      rw [show (1 / 2 : ℝ) = 2 ^ (-1 : Int) by norm_num]
      exact zpow_le_zpow_right₀ one_le_two (by norm_num)
    have htri := (abs_sub_abs_le_abs_sub (valR (fixVal y)) (funReal 4 (valR (.fin false m e)))).trans (herr.trans hsmall)
    linarith

theorem fsin_bounded : Bounded 5 (valR (.fin n m e)) (funOp 5 z x) := by
  obtain ⟨-, he⟩ := f32_fields hread
  obtain ⟨-, hhi⟩ := f32_range (flush_lt z hx) hread hm
  obtain ⟨y, hnear, hw⟩ := funNear_sin (n := n) (m := m) (e := e) (by omega) hhi
  rw [(fsin_fcos_fin hread hm).1]
  exact ⟨_, hw, funBounded_limit (by simp) (.inr (by decide)) hnear (by norm_num)⟩

theorem fcos_bounded : Bounded 6 (valR (.fin n m e)) (funOp 6 z x) := by
  obtain ⟨-, he⟩ := f32_fields hread
  obtain ⟨-, hhi⟩ := f32_range (flush_lt z hx) hread hm
  obtain ⟨y, hnear, hw⟩ := funNear_cos (n := n) (m := m) (e := e) (by omega) hhi
  rw [(fsin_fcos_fin hread hm).2]
  exact ⟨_, hw, funBounded_limit (by simp) (.inr (by decide)) hnear (by norm_num)⟩

end

/-! ### fexp2 -/

/-- An integer source, of which one past the range stands for another past it. -/
theorem intOf_some {n : Bool} {m : Nat} {e k : Int} (hm : m ≠ 0) (h : intOf n m e = some k) :
    valR (.fin n m e) = k ∨ (128 ≤ k ∧ 128 ≤ valR (.fin n m e)) ∨ (k ≤ -150 ∧ valR (.fin n m e) ≤ -150) := by
  have hsign (N : Nat) (A : ℝ) (hA : (N : ℝ) = A) : ((((if n then -1 else 1) * (N : Int) : Int)) : ℝ) = withSign n A := by
    rw [← hA]
    cases n <;> simp [withSign]
  unfold intOf at h
  split at h
  next he =>
    have hk := Option.some.inj h
    by_cases h64 : e ≤ 64
    · left
      rw [valR_fin, ← hk]
      refine (hsign _ _ ?_).symm
      rw [min_eq_left h64, Nat.cast_mul, Nat.cast_pow, Nat.cast_ofNat, ← zpow_natCast, Int.toNat_of_nonneg he]
    · right
      rw [min_eq_right (by omega), show (64 : Int).toNat = 64 from rfl] at hk
      have hN : 2 ^ 64 ≤ m * 2 ^ 64 := Nat.le_mul_of_pos_left _ (Nat.pos_of_ne_zero hm)
      have hA : (150 : ℝ) ≤ m * 2 ^ e := by
        have hm1 : (1 : ℝ) ≤ m := by exact_mod_cast Nat.pos_of_ne_zero hm
        have he64 : (2 : ℝ) ^ (64 : Int) ≤ 2 ^ e := zpow_le_zpow_right₀ one_le_two (by omega)
        have := mul_le_mul hm1 he64 (zpow_two_pos _).le (by linarith)
        norm_num at this ⊢
        linarith
      rw [valR_fin]
      cases n with
      | false =>
        rw [withSign, if_neg Bool.false_ne_true]
        rw [if_neg Bool.false_ne_true, one_mul] at hk
        exact .inl ⟨by omega, by linarith⟩
      | true =>
        rw [withSign, if_pos rfl]
        rw [if_pos rfl] at hk
        exact .inr ⟨by omega, by linarith⟩
  next he =>
    split at h
    next hmod =>
      left
      rw [valR_fin, ← Option.some.inj h]
      refine (hsign _ _ ?_).symm
      have hdiv : (((m / 2 ^ (-e).toNat : Nat)) : ℝ) * 2 ^ (-e).toNat = m := by
        exact_mod_cast Nat.div_mul_cancel (Nat.dvd_of_mod_eq_zero hmod)
      rw [← hdiv, mul_assoc, ← zpow_natCast, Int.toNat_of_nonneg (by omega), ← zpow_add₀ two_ne_zero, neg_add_cancel, zpow_zero, mul_one]
    next => cases h

/-- A power of 2 past the range is the infinity of an overflow. -/
theorem exp2_overflow {limit v : ℝ} (h : 128 ≤ v) : WithinLimit limit (2 ^ v) (funFlags (f32.inf false)) := by
  have hpos : (0 : ℝ) < 2 ^ v := Real.rpow_pos_of_pos two_pos v
  refine withinLimit_of_inf (by simp [hpos.le]) ?_
  rw [abs_of_pos hpos]
  refine (big_le_zpow (k := 128) (by norm_num)).trans ?_
  rw [← Real.rpow_intCast]
  exact Real.rpow_le_rpow_of_exponent_le one_le_two (by exact_mod_cast h)

/-- Zero for a power of 2 below half the least number. -/
theorem exp2_underflow {limit v : ℝ} (hlimit : (2 : ℝ) ^ (-149 : Int) ≤ limit) (h : v ≤ -150) : WithinLimit limit (2 ^ v) (funFlags 0) := by
  have hpos : (0 : ℝ) < 2 ^ v := Real.rpow_pos_of_pos two_pos v
  refine withinLimit_of_bits false (Nat.zero_le _) ?_
  rw [mag_zero, withSign_zero, zero_sub, abs_neg, abs_of_pos hpos]
  refine le_trans ?_ hlimit
  rw [← Real.rpow_intCast]
  exact Real.rpow_le_rpow_of_exponent_le one_le_two (by push_cast; linarith)

/-- A number of the format within two of the least numbers of a far smaller positive number. -/
theorem tiny_neighbour {c : Nat} {s : Bool} {t y : ℝ} (h : |withSign s (mag f32 c) - t| ≤ 2 * 2 ^ (-149 : Int)) (hy0 : 0 < y) (hyt : y ≤ t)
    (ht : t < 2 ^ (-149 : Int)) : |withSign s (mag f32 c) - y| ≤ 2 * 2 ^ (-149 : Int) := by
  have hmono := mag_strictMono f32
  have hgrid (k : Nat) (hk : k ≤ 2 ^ (f32.fbits + 1)) : mag f32 k = k * 2 ^ (-149 : Int) := by
    have := mag_grid (f := f32) (j := 0) (.inl rfl) hk
    rwa [Nat.zero_mul, Nat.zero_add] at this
  obtain ⟨hlo, hhi⟩ := abs_le.mp h
  rw [abs_le]
  refine ⟨by linarith, ?_⟩
  cases s with
  | true =>
    have := mag_nonneg f32 c
    rw [withSign, if_pos rfl]
    linarith
  | false =>
    rw [withSign, if_neg Bool.false_ne_true] at hhi ⊢
    have h3 := hgrid 3 (by decide)
    have h2 := hgrid 2 (by decide)
    have hc : c < 3 := hmono.lt_iff_lt.mp (by rw [h3]; push_cast; linarith)
    have hle := hmono.monotone (show c ≤ 2 by omega)
    rw [h2] at hle
    push_cast at hle
    linarith

section
variable {z : Bool} {x : Nat} {n : Bool} {m : Nat} {e : Int} (hread : f32.read (f32.flush z x) = .fin n m e) (hm : m ≠ 0)
include hread hm

omit hread hm in
/-- Past the range the model measures from a power of 2 that rounds alike. -/
theorem exp2_far (he : -512 ≤ e) (hv : valR (.fin n m e) ≤ -300 ∨ 200 ≤ valR (.fin n m e)) (bits : Nat) :
    Bounded 3 (valR (.fin n m e)) (funBounded 3 bits (.fin n m e) n m e) := by
  have hxR := fixReal_toFix (n := n) (m := m) he
  have hone : fixReal (200 * fixOne) = 200 ∧ fixReal (-300 * fixOne) = -300 := by
    rw [fixReal_intMul, fixReal_intMul, fixReal_one]
    norm_num
  have h200 : 200 * fixOne ≤ toFix n m e ↔ 200 ≤ valR (.fin n m e) := by rw [← fixReal_le_iff, hone.1, hxR]
  have h300 : toFix n m e ≤ -300 * fixOne ↔ valR (.fin n m e) ≤ -300 := by rw [← fixReal_le_iff, hone.2, hxR]
  refine ⟨_, near_self _, ?_⟩
  change WithinLimit (funLimit 3 _ ((2 : ℝ) ^ valR (.fin n m e))) (2 ^ valR (.fin n m e)) _
  have hulp := ulp_ge_least ((2 : ℝ) ^ valR (.fin n m e))
  have hlimit : funLimit 3 (valR (.fin n m e)) ((2 : ℝ) ^ valR (.fin n m e)) = 2 * ulp ((2 : ℝ) ^ valR (.fin n m e)) := by
    unfold funLimit
    norm_num
  rw [hlimit]
  rcases hv with hv | hv
  · have hnear : funNear 3 n m e = .fin false 1 (-300) := by
      unfold funNear
      simp only
      rw [if_neg (fun h => by linarith [h200.mp h]), if_pos (h300.mpr hv)]
    have hz : (f32.round .rne false 1 (-300) false).1 = 0 := by decide
    have hbound : funBound 3 (.fin n m e) (.fin false 1 (-300)) = (2, -149) := rfl
    unfold funBounded
    dsimp only
    rw [hnear]
    dsimp only
    rw [hz, if_neg (by decide), hbound]
    split
    next h =>
      obtain ⟨hfin, hdist⟩ := nearBy_spec h
      obtain ⟨s, c, -, -, hval⟩ := exists_of_num (f := f32) (x := (Config.funResult 3 (BitVec.ofNat 32 bits)).toNat) standard_f32.ebits
        (BitVec.isLt _) hfin
      refine withinLimit_of_finite hfin ?_
      have ht : valR (.fin false 1 (-300)) = 2 ^ (-300 : Int) := by rw [valR_fin]; simp [withSign]
      rw [ht, hval] at hdist
      rw [hval]
      refine (tiny_neighbour (hdist.trans_eq (by norm_num)) (Real.rpow_pos_of_pos two_pos _) ?_ ?_).trans (by linarith)
      · rw [← Real.rpow_intCast]
        exact Real.rpow_le_rpow_of_exponent_le one_le_two (by push_cast; exact hv)
      · exact zpow_lt_zpow_right₀ one_lt_two (by norm_num)
    next => exact exp2_underflow (hulp.trans (by linarith [ulp_pos ((2 : ℝ) ^ valR (.fin n m e))])) (by linarith)
  · have hnear : funNear 3 n m e = .fin false 1 200 := by
      unfold funNear
      simp only
      rw [if_pos (h200.mpr hv)]
    have hz : (f32.round .rne false 1 200 false).1 = f32.inf false := by decide
    unfold funBounded
    dsimp only
    rw [hnear]
    dsimp only
    rw [hz, if_pos (by decide)]
    exact exp2_overflow (by linarith)

theorem fexp2_bounded : Bounded 3 (valR (.fin n m e)) (funOp 3 z x) := by
  have hlimit (w : ℝ) : (2 : ℝ) ^ (-149 : Int) ≤ funLimit 3 (valR (.fin n m e)) w :=
    (ulp_ge_least w).trans (ulp_le_limit (by norm_num) _ _)
  cases hk : intOf n m e with
  | some k =>
    rw [fexp2_integer hread hm hk]
    refine ⟨_, near_self _, ?_⟩
    change WithinLimit _ ((2 : ℝ) ^ valR (.fin n m e)) _
    rcases intOf_some hm hk with hv | ⟨hk, hv⟩ | ⟨hk, hv⟩
    · rw [hv, Real.rpow_intCast]
      rw [hv] at hlimit
      exact pow2_within (hlimit _) false k
    · rw [pow2Bits_high (by omega)]
      exact exp2_overflow hv
    · rw [pow2Bits_low (by omega)]
      exact exp2_underflow (hlimit _) hv
  | none =>
    have he : -512 ≤ e := by have := (f32_fields hread).2; omega
    rw [fexp2_other hread hm hk]
    by_cases hv : valR (.fin n m e) ≤ -300 ∨ 200 ≤ valR (.fin n m e)
    · exact exp2_far he hv _
    · rw [not_or, not_le, not_le] at hv
      obtain ⟨r, g, hnear, hr, hw⟩ := funNear_exp2 he hv.1 hv.2
      exact ⟨_, hw, funBounded_limit (by simp) (.inl hr) hnear (by norm_num)⟩

/-! ### ftanh -/

omit hread hm in
theorem magGe_far (m : Nat) (e : Int) : magGe (10 * m) e 91 0 = true ↔ 9.1 ≤ (m : ℝ) * 2 ^ e := by
  rw [magGe_iff (K := ℝ)]
  push_cast
  norm_num
  constructor <;> intro h <;> linarith

omit hread hm in
/-- From magnitude 9.1 on the hyperbolic tangent is within two units in the last place of 1. -/
theorem tanh_far {A : ℝ} (hA : 9.1 ≤ A) : 1 - 2 ^ (-23 : Int) ≤ Real.tanh A ∧ Real.tanh A < 1 := by
  have hexp : (2 : ℝ) ^ 24 ≤ Real.exp (2 * A) := by
    have h18 : Real.exp ((18 : Nat) : ℝ) ≤ Real.exp (2 * A) := Real.exp_le_exp.mpr (by norm_num at hA ⊢; linarith)
    refine le_trans ?_ h18
    rw [← Real.exp_one_pow]
    refine le_trans ?_ (pow_le_pow_left₀ (by norm_num) Real.exp_one_gt_d9.le 18)
    norm_num
  rw [tanh_eq_exp]
  generalize Real.exp (2 * A) = E at *
  norm_num at hexp
  constructor
  · rw [le_div_iff₀ (by linarith)]
    norm_num
    linarith
  · rw [div_lt_one (by linarith)]
    linarith

theorem ftanh_bounded : Bounded 7 (valR (.fin n m e)) (funOp 7 z x) := by
  cases hfar : magGe (10 * m) e 91 0 with
  | false =>
    have hlt : (m : ℝ) * 2 ^ e ≤ 9.1 := by
      by_contra h
      have := (magGe_far m e).mpr (not_le.mp h).le
      rw [hfar] at this
      cases this
    have he : -512 ≤ e := by have := (f32_fields hread).2; omega
    obtain ⟨y, hnear, hw⟩ := funNear_tanh (n := n) he hlt
    rw [ftanh_other hread hm hfar]
    exact ⟨_, hw, funBounded_limit (by simp) (.inr (by decide)) hnear (by norm_num)⟩
  | true =>
    have hA := (magGe_far m e).mp hfar
    obtain ⟨hlo, hhi⟩ := tanh_far hA
    have hodd : funReal 7 (valR (.fin n m e)) = withSign n (Real.tanh (m * 2 ^ e)) := by
      rw [valR_fin]
      cases n
      · rfl
      · exact Real.tanh_neg _
    have hbits : f32.bias * 2 ^ 23 = (0 + 127 : Int).toNat * 2 ^ 23 := by decide
    have hmax : f32.bias * 2 ^ 23 ≤ f32.maxBits := by decide
    have hone : mag f32 (f32.bias * 2 ^ 23) = 1 := by rw [hbits, mag_normal (by norm_num), zpow_zero]
    rw [ftanh_far hread hm hfar, ← funFlags_normal (.inr (by decide)) hmax]
    refine ⟨_, near_self _, ?_⟩
    rw [hodd]
    refine withinLimit_of_bits n hmax ?_
    generalize Real.tanh (m * 2 ^ e) = t at *
    have ht : (1 : ℝ) / 2 ≤ t := le_trans (by norm_num) hlo
    have hlimit : (2 : ℝ) ^ (-23 : Int) ≤ funLimit 7 (valR (.fin n m e)) (withSign n t) := by
      have hulp := ulp_ge_ratio (withSign n t)
      have htwo : funLimit 7 (valR (.fin n m e)) (withSign n t) = 2 * ulp (withSign n t) := by
        unfold funLimit
        norm_num
      have hge : (2 : ℝ) ^ (-24 : Int) ≤ ulp (withSign n t) := by
        unfold ulp
        rw [abs_withSign n (by linarith), if_neg (not_lt.mpr (le_trans (by norm_num) ht))]
        have hlog := (Int.zpow_le_iff_le_log (b := 2) (x := -1) one_lt_two (by linarith : 0 < t)).mp (by norm_num at ht ⊢; exact ht)
        refine zpow_le_zpow_right₀ one_le_two ?_
        clear * - hlog
        omega
      rw [htwo, show (2 : ℝ) ^ (-23 : Int) = 2 * 2 ^ (-24 : Int) by norm_num]
      linarith
    rw [hone, dist_withSign zero_le_one (by linarith), if_pos rfl, abs_of_nonneg (by linarith)]
    linarith

end

/-- Settles O28: every fn's value is measured from a number within 2^-200 units in the last place of the exact result, and what is
delivered lies within R139's bound of it. -/
theorem funBounds : Obligations.FunBounds := by
  intro z x hx fn hfn v d hfin h0 hpos
  obtain ⟨n, m, e, hread⟩ := hfin
  have hv : v = .fin n m e := hread
  rw [hv] at h0 hpos ⊢
  have hm := valR_ne_zero.mp h0
  have hbounded : Bounded fn (valR (.fin n m e)) (funOp fn z x) := by
    simp only [List.mem_cons, List.not_mem_nil, or_false] at hfn
    rcases hfn with rfl | rfl | rfl | rfl | rfl | rfl | rfl
    · exact frcp_bounded hread hm
    · exact frsq_bounded hread hm (hpos (.inl rfl))
    · exact fexp2_bounded hread hm
    · exact flog2_bounded hx hread hm (hpos (.inr rfl))
    · exact fsin_bounded hx hread hm
    · exact fcos_bounded hx hread hm
    · exact ftanh_bounded hread hm
  obtain ⟨w, hnear, hfinite, hinfinite, hflags⟩ := hbounded
  exact ⟨w, hnear, hfinite, hinfinite, hflags⟩

end Sys2Proof.Proofs.FunBounds
end

