-- ==== Sys2Proof/Proofs/FunSpecialCases.lean ====
section
/-! SUPPORT. The exact and special cases of FUN (R139), each from the equation of its fn. -/

namespace Sys2Proof.Proofs.FunSpecialCases

open Sys2Proof Sys2Proof.Machine Sys2Proof.Claims Sys2Proof.Proofs.Rounding Sys2Proof.Proofs.Formats Sys2Proof.Proofs.RoundOnce Sys2Proof.Proofs.FloatResults
  Sys2Proof.Proofs.FunRounding Sys2Proof.Proofs.FunNear Sys2Proof.Proofs.FunBounds

/-! ### The source under the flush bit -/

theorem flush_of_normal {f : Fmt} {z : Bool} {x : Nat} (h : z = true → f.subnormal x = false) : f.flush z x = x := by
  refine if_neg fun hz => ?_
  rw [Bool.and_eq_true] at hz
  rw [h hz.1] at hz
  exact absurd hz.2 Bool.false_ne_true

/-- FUN depends on its source only after the flush. -/
theorem funOp_flush {fn x y : Nat} {z : Bool} (h : f32.flush z x = f32.flush z y) : funOp fn z x = funOp fn z y := by
  unfold funOp
  rw [h]

/-- A subnormal source acts as the zero of its sign. -/
theorem flush_subnormal {x : Nat} (hx : x < 2 ^ 32) (h : f32.subnormal x = true) :
    f32.flush true x = f32.flush true (x / 2 ^ 31 * 2 ^ 31) := by
  have hsign : x / f32.signBit % 2 * f32.signBit = x / 2 ^ 31 * 2 ^ 31 := by
    change x / 2 ^ 31 % 2 * 2 ^ 31 = _
    omega
  have hzero : f32.subnormal (x / 2 ^ 31 * 2 ^ 31) = false := by
    have hfr : x / 2 ^ 31 * 2 ^ 31 % 2 ^ f32.fbits = 0 := by
      change x / 2 ^ 31 * 2 ^ 31 % 2 ^ 23 = 0
      omega
    rw [Fmt.subnormal, hfr]
    exact Bool.and_false _
  rw [flush_of_normal (fun _ => hzero), ← hsign]
  exact if_pos h

theorem subnormal_of_nan {x : Nat} (h : (f32.read x).isNan = true) : f32.subnormal x = false := by
  unfold Fmt.read at h
  unfold Fmt.subnormal
  rw [Bool.and_eq_false_iff, beq_eq_false_iff_ne]
  left
  intro hex
  simp [hex, show f32.kind = .ieee from rfl, FVal.isNan, show (0 : Nat) ≠ 2 ^ f32.ebits - 1 by decide] at h

theorem funOp_of_nan {fn x : Nat} {z s : Bool} (h : f32.read (f32.flush z x) = .nan s) : funOp fn z x = f32.nanResult (flagIf s fNV) := by
  unfold funOp
  simp only [h]

theorem funOp_of_negInf {x : Nat} {z : Bool} (h : f32.read (f32.flush z x) = .inf true) :
    funOp 1 z x = f32.nanResult fNV ∧ funOp 4 z x = f32.nanResult fNV := by
  unfold funOp
  simp only [h, if_true, and_self]

theorem funOp_nan {fn x : Nat} {z : Bool} (h : (f32.read x).isNan = true) :
    funOp fn z x = (0x7FC00000, if (f32.read x).snan then fNV else 0) := by
  have hflush : f32.flush z x = x := flush_of_normal fun _ => subnormal_of_nan h
  cases hv : f32.read x with
  | nan s =>
    rw [funOp_of_nan (s := s) (hflush.symm ▸ hv)]
    cases s <;> rfl
  | inf n => rw [hv] at h; cases h
  | fin n m e => rw [hv] at h; cases h

/-! ### Zeros and infinities -/

theorem zeros_and_infinities : ∀ z n : Bool,
    funOp 0 z (f32.sign n) = (0x7F800000 + f32.sign n, fDZ) ∧ funOp 0 z (0x7F800000 + f32.sign n) = (f32.sign n, 0) ∧
    funOp 1 z (f32.sign n) = (0x7F800000 + f32.sign n, fDZ) ∧ funOp 4 z (f32.sign n) = (0x7F800000 + 2 ^ 31, fDZ) ∧
    funOp 5 z (f32.sign n) = (f32.sign n, 0) ∧ funOp 5 z (0x7F800000 + f32.sign n) = (0x7FC00000, fNV) ∧
    funOp 6 z (f32.sign n) = (0x3F800000, 0) ∧ funOp 6 z (0x7F800000 + f32.sign n) = (0x7FC00000, fNV) ∧
    funOp 7 z (f32.sign n) = (f32.sign n, 0) ∧ funOp 7 z (0x7F800000 + f32.sign n) = (0x3F800000 + f32.sign n, 0) ∧
    funOp 3 z (f32.sign n) = (0x3F800000, 0) := by
  decide

theorem positive_infinity : ∀ z : Bool, funOp 1 z 0x7F800000 = (0, 0) ∧ funOp 3 z 0x7F800000 = (0x7F800000, 0) ∧
    funOp 3 z (0x7F800000 + 2 ^ 31) = (0, 0) ∧ funOp 4 z 0x7F800000 = (0x7F800000, 0) := by
  decide

/-! ### Negative sources -/

theorem negative_source {z : Bool} {x : Nat} (hx : x < 2 ^ 32) (hneg : 2 ^ 31 < x) (hnan : (f32.read x).isNan = false)
    (hz : z = true → f32.subnormal x = false) : funOp 1 z x = (0x7FC00000, fNV) ∧ funOp 4 z x = (0x7FC00000, fNV) := by
  have hflush := flush_of_normal hz
  obtain ⟨n, b, hb, rfl⟩ := exists_bits (f := f32) hx
  have hn : n = true := by
    cases n
    · exact absurd hb (not_lt.mpr hneg.le)
    · rfl
  subst hn
  have hb0 : 0 < b := by
    change 2 ^ 31 < b + 2 ^ 31 at hneg
    omega
  cases hread : f32.read (b + f32.sign true) with
  | nan s => rw [hread] at hnan; cases hnan
  | inf n =>
    have hn : n = true := by
      rw [read_bits hb] at hread
      simp only [show f32.kind = .ieee from rfl] at hread
      split at hread
      · split at hread <;> cases hread
        rfl
      · obtain ⟨m, e, hfin, -⟩ := finPart_eq f32 true b
        rw [hfin] at hread
        cases hread
    subst hn
    exact funOp_of_negInf (hflush.symm ▸ hread)
  | fin n m e =>
    have hmax : b ≤ f32.maxBits := not_lt.mp fun h => read_not_finite standard_f32.ebits true hb h ⟨_, _, _, hread⟩
    have hval := valR_read standard_f32.ebits true hmax
    have hmag : 0 < mag f32 b := by
      rw [← mag_zero f32]
      exact mag_strictMono f32 hb0
    have hneg' : valR (.fin n m e) < 0 := by
      rw [← hread, hval]
      exact (withSign_lt_zero hmag).mpr rfl
    have hm : m ≠ 0 := by
      rintro rfl
      rw [valR_fin, Nat.cast_zero, zero_mul, withSign_zero] at hneg'
      exact lt_irrefl _ hneg'
    have hn : n = true := by
      rw [valR_fin] at hneg'
      exact (withSign_lt_zero (mul_pos (Nat.cast_pos.mpr (Nat.pos_of_ne_zero hm)) (zpow_two_pos e))).mp hneg'
    exact negative_invalid (hflush.symm ▸ hread) hm hn

/-! ### Powers of two -/

theorem read_normalPower {k : Nat} (h0 : 0 < k) (h1 : k < 255) (n : Bool) :
    f32.read (k * 2 ^ 23 + f32.sign n) = .fin n (2 ^ 23) (k - 150) := by
  have hb : k * 2 ^ 23 < f32.signBit := by
    change _ < 2 ^ 31
    omega
  have hdiv : k * 2 ^ 23 / 2 ^ f32.fbits = k := Nat.mul_div_cancel k (Nat.two_pow_pos 23)
  have hmod : k * 2 ^ 23 % 2 ^ f32.fbits = 0 := Nat.mul_mod_left k (2 ^ 23)
  rw [read_bits hb, finPart, hdiv, hmod]
  change (if k = 255 then _ else if k = 0 then _ else _) = _
  rw [if_neg (by omega), if_neg (by omega), show f32.qmin = -149 by decide, Nat.zero_add]
  exact congrArg _ (by omega)

theorem subnormal_normalPower (k : Nat) (n : Bool) : f32.subnormal (k * 2 ^ 23 + f32.sign n) = false := by
  rw [Fmt.subnormal, bits_fraction, show k * 2 ^ 23 % 2 ^ f32.fbits = 0 from Nat.mul_mod_left k (2 ^ 23)]
  exact Bool.and_false _

theorem flush_normalPower (z : Bool) {k : Nat} (h0 : 0 < k) (h1 : k < 255) (n : Bool) :
    f32.read (f32.flush z (k * 2 ^ 23 + f32.sign n)) = .fin n (2 ^ 23) (k - 150) := by
  rw [flush_of_normal (fun _ => subnormal_normalPower k n), read_normalPower h0 h1]

theorem read_subnormalPower {j : Nat} (h : j < 23) (n : Bool) : f32.read (2 ^ j + f32.sign n) = .fin n (2 ^ j) (-149) := by
  have hlt : 2 ^ j < 2 ^ 23 := Nat.pow_lt_pow_right one_lt_two h
  have hb : 2 ^ j < f32.signBit := hlt.trans (by decide)
  have hdiv : 2 ^ j / 2 ^ f32.fbits = 0 := Nat.div_eq_of_lt hlt
  have hmod : 2 ^ j % 2 ^ f32.fbits = 2 ^ j := Nat.mod_eq_of_lt hlt
  rw [read_bits hb, finPart, hdiv, hmod]
  rfl

theorem bitLen_two_pow (j : Nat) : bitLen (2 ^ j) = j + 1 := by
  rw [bitLen, if_neg (Nat.two_pow_pos j).ne', Nat.log2_two_pow]

theorem pow2Exp_two_pow (j : Nat) (e : Int) : pow2Exp (2 ^ j) e = some (e + j) := by
  rw [pow2Exp, bitLen_two_pow, if_pos (by simp)]
  congr 1
  push_cast
  omega

theorem bits_positive (b : Nat) : b + f32.sign false = b := Nat.add_zero b

theorem normalPower_exponent (k : Nat) : pow2Exp (2 ^ 23) ((k : Int) - 150) = some ((k : Int) - 127) := by
  rw [pow2Exp_two_pow 23]
  congr 1
  push_cast
  omega

theorem funFlags_two_pow {k : Int} (h0 : -126 ≤ k) (h1 : k ≤ 127) (n : Bool) :
    funFlags (pow2Bits k + f32.sign n) = ((k + 127).toNat * 2 ^ 23 + f32.sign n, 0) := by
  have hmax : f32.maxBits = 255 * 2 ^ 23 - 1 := by decide
  rw [pow2Bits_normal h0 h1, funFlags_normal (.inr (by omega)) (by omega)]

theorem flog2_normalPower (z : Bool) {k : Nat} (h0 : 0 < k) (h1 : k < 255) :
    funOp 4 z (k * 2 ^ 23) = ((f32.round .rne (decide (k < 127)) (k - 127 : Int).natAbs 0 false).1, 0) := by
  have h := flog2_power (flush_normalPower z h0 h1 false) (by decide) rfl (normalPower_exponent k)
  rw [bits_positive, show decide (((k : Int) - 127) < 0) = decide (k < 127) by rw [decide_eq_decide]; omega] at h
  exact h

theorem flog2_subnormalPower {j : Nat} (hj : j < 23) :
    funOp 4 false (2 ^ j) = ((f32.round .rne true (149 - j) 0 false).1, 0) := by
  have h := flog2_power (z := false) (read_subnormalPower hj false) (Nat.two_pow_pos j).ne' rfl (pow2Exp_two_pow j (-149))
  rw [bits_positive, show decide ((-149 + (j : Int)) < 0) = true by rw [decide_eq_true_iff]; omega,
    show (-149 + (j : Int)).natAbs = 149 - j by omega] at h
  exact h

theorem frcp_normalPower (z : Bool) {k : Nat} (h0 : 0 < k) (h1 : k < 254) (n : Bool) :
    funOp 0 z (k * 2 ^ 23 + f32.sign n) = ((254 - k) * 2 ^ 23 + f32.sign n, 0) := by
  rw [frcp_power (flush_normalPower z h0 (by omega) n) (by decide) (normalPower_exponent k), funFlags_two_pow (by omega) (by omega),
    show (-((k : Int) - 127) + 127).toNat = 254 - k by omega]

/-- The reciprocal of the greatest power of two is a subnormal, and that one's is the power. -/
theorem frcp_greatestPower (z n : Bool) :
    funOp 0 z (254 * 2 ^ 23 + f32.sign n) = (2 ^ 22 + f32.sign n, fUF) ∧
    funOp 0 false (2 ^ 22 + f32.sign n) = (254 * 2 ^ 23 + f32.sign n, 0) := by
  constructor
  · have h := frcp_power (flush_normalPower z (k := 254) (by norm_num) (by norm_num) n) (by decide) (normalPower_exponent 254)
    refine h.trans ?_
    rw [show pow2Bits (-(((254 : Nat) : Int) - 127)) = 2 ^ 22 from pow2Bits_subnormal (by norm_num) (by norm_num)]
    cases n <;> decide
  · have h := frcp_power (z := false) (read_subnormalPower (j := 22) (by norm_num) n) (by decide) (pow2Exp_two_pow 22 (-149))
    exact h.trans (funFlags_two_pow (by norm_num) (by norm_num) n)

theorem frsq_normalPower (z : Bool) {k : Nat} (h0 : 0 < k) (h1 : k < 255) (hodd : k % 2 = 1) :
    funOp 1 z (k * 2 ^ 23) = ((381 - k) / 2 * 2 ^ 23, 0) := by
  have h := frsq_power (flush_normalPower z h0 h1 false) (by decide) rfl (normalPower_exponent k) (by omega)
  have hflags := funFlags_two_pow (k := -(((k : Int) - 127) / 2)) (by omega) (by omega) false
  rw [bits_positive, show (-(((k : Int) - 127) / 2) + 127).toNat = (381 - k) / 2 by omega] at hflags
  rw [bits_positive] at h hflags
  exact h.trans hflags

theorem frsq_subnormalPower {j : Nat} (hj : j < 23) (hodd : j % 2 = 1) :
    funOp 1 false (2 ^ j) = ((127 + (149 - j) / 2) * 2 ^ 23, 0) := by
  have h := frsq_power (z := false) (read_subnormalPower hj false) (Nat.two_pow_pos j).ne' rfl (pow2Exp_two_pow j (-149)) (by omega)
  have hflags := funFlags_two_pow (k := -((-149 + (j : Int)) / 2)) (by omega) (by omega) false
  rw [bits_positive, show (-((-149 + (j : Int)) / 2) + 127).toNat = 127 + (149 - j) / 2 by omega] at hflags
  rw [bits_positive] at h hflags
  exact h.trans hflags

/-! ### fexp2 of an integer -/

/-- A subnormal lies below 1. -/
theorem abs_lt_one_of_subnormal {x : Nat} (hx : x < 2 ^ 32) (h : f32.subnormal x = true) :
    0 < |valR (f32.read x)| ∧ |valR (f32.read x)| < 1 := by
  obtain ⟨n, b, hb, rfl⟩ := exists_bits (f := f32) hx
  rw [Fmt.subnormal, bits_exponent hb, bits_fraction, Bool.and_eq_true] at h
  change (b / 2 ^ 23 == 0) = true ∧ (!(b % 2 ^ 23 == 0)) = true at h
  rw [beq_iff_eq, Bool.not_eq_true', beq_eq_false_iff_ne] at h
  have hmax : f32.maxBits = 255 * 2 ^ 23 - 1 := by decide
  have hmono := mag_strictMono f32
  rw [valR_read standard_f32.ebits n (by omega), abs_withSign n (mag_nonneg f32 b)]
  constructor
  · rw [← mag_zero f32]
    exact hmono (by omega)
  · have hone : mag f32 (127 * 2 ^ 23) = 1 := (mag_normal (k := 0) (by norm_num)).trans (zpow_zero 2)
    rw [← hone]
    exact hmono (by omega)

/-- The model finds every integer source. -/
theorem intOf_of_int {n : Bool} {m : Nat} {e k : Int} (h : valR (.fin n m e) = k) : ∃ k', intOf n m e = some k' := by
  unfold intOf
  split
  · exact ⟨_, rfl⟩
  next he =>
    have hm : (m : ℝ) * 2 ^ e = k.natAbs := by
      have hnn : (0 : ℝ) ≤ (m : ℝ) * 2 ^ e := by positivity
      have := congrArg abs h
      rw [valR_fin, abs_withSign n hnn] at this
      rw [this, Nat.cast_natAbs, Int.cast_abs]
    have hmul : m = k.natAbs * 2 ^ (-e).toNat := by
      have hR : (m : ℝ) = k.natAbs * 2 ^ (-e).toNat := by
        rw [← hm, mul_assoc, ← zpow_natCast, Int.toNat_of_nonneg (by omega), ← zpow_add₀ two_ne_zero, add_neg_cancel, zpow_zero, mul_one]
      exact_mod_cast hR
    rw [if_pos (by rw [hmul, Nat.mul_mod_left])]
    exact ⟨_, rfl⟩

theorem pow2Bits_saturates {k k' : Int} (h : k = k' ∨ (128 ≤ k ∧ 128 ≤ k') ∨ (k ≤ -150 ∧ k' ≤ -150)) : pow2Bits k = pow2Bits k' := by
  rcases h with rfl | ⟨h, h'⟩ | ⟨h, h'⟩
  · rfl
  · rw [pow2Bits_high (by omega), pow2Bits_high (by omega)]
  · rw [pow2Bits_low (by omega), pow2Bits_low (by omega)]

theorem fexp2_of_int {z : Bool} {x : Nat} (hx : x < 2 ^ 32) {k : Int} (hfin : finite (f32.read x)) (hk : valQ (f32.read x) = k) :
    funOp 3 z x = funFlags (pow2Bits k) := by
  have hkR : valR (f32.read x) = k := by
    rw [valR, hk, Rat.cast_intCast]
  have hnormal : f32.subnormal x = false := by
    refine Bool.eq_false_iff.mpr fun hs => ?_
    obtain ⟨h0, h1⟩ := abs_lt_one_of_subnormal hx hs
    rw [hkR, ← Int.cast_abs] at h0 h1
    have h0' : 0 < |k| := by exact_mod_cast h0
    have h1' : |k| < 1 := by exact_mod_cast h1
    omega
  have hflush : f32.flush z x = x := flush_of_normal fun _ => hnormal
  obtain ⟨n, m, e, hread⟩ := hfin
  rw [hread] at hkR
  by_cases hm : m = 0
  · have hk0 : k = 0 := by
      rw [valR_fin, hm, Nat.cast_zero, zero_mul, withSign_zero] at hkR
      exact_mod_cast hkR.symm
    subst hk0
    unfold funOp
    simp only [hflush, hread, hm, if_true]
    decide
  · obtain ⟨k', hk'⟩ := intOf_of_int hkR
    rw [fexp2_integer (hflush.symm ▸ hread) hm hk']
    congr 1
    refine pow2Bits_saturates ?_
    rcases intOf_some hm hk' with hv | ⟨h, hv⟩ | ⟨h, hv⟩
    · rw [hkR] at hv
      exact .inl (by exact_mod_cast hv.symm)
    · rw [hkR] at hv
      exact .inr (.inl ⟨h, by exact_mod_cast hv⟩)
    · rw [hkR] at hv
      exact .inr (.inr ⟨h, by exact_mod_cast hv⟩)

theorem funFlags_subnormalPower : ∀ j < 23, funFlags (2 ^ j) = (2 ^ j, fUF) := by decide

/-! ### ftanh -/

theorem ftanh_of_far {z : Bool} {x : Nat} (hx : x < 2 ^ 32) (hfin : finite (f32.read x)) (h : 91 / 10 ≤ |valQ (f32.read x)|) :
    funOp 7 z x = (0x3F800000 + x / 2 ^ 31 * 2 ^ 31, 0) := by
  have hR : (9.1 : ℝ) ≤ |valR (f32.read x)| := by
    have : ((91 / 10 : ℚ) : ℝ) ≤ ((|valQ (f32.read x)| : ℚ) : ℝ) := by exact_mod_cast h
    rw [Rat.cast_abs] at this
    refine le_trans (le_of_eq ?_) this
    norm_num
  have hnormal : f32.subnormal x = false := by
    refine Bool.eq_false_iff.mpr fun hs => ?_
    have := (abs_lt_one_of_subnormal hx hs).2
    norm_num at hR
    linarith
  have hflush : f32.flush z x = x := flush_of_normal fun _ => hnormal
  obtain ⟨s, b, hb, rfl⟩ := exists_bits (f := f32) hx
  have hmax : b ≤ f32.maxBits := not_lt.mp fun hlt => read_not_finite standard_f32.ebits s hb hlt hfin
  obtain ⟨m, e, hread, hmag⟩ := finPart_eq f32 s b
  rw [← read_finite standard_f32.ebits s hmax] at hread
  have hA : (9.1 : ℝ) ≤ m * 2 ^ e := by rwa [hread, valR_fin, abs_withSign s (by positivity)] at hR
  have hm : m ≠ 0 := by
    rintro rfl
    norm_num at hA
  have hsign : (b + f32.sign s) / 2 ^ 31 * 2 ^ 31 = f32.sign s := by
    have := bits_sign hb (n := s)
    rw [sign_eq, ← sign_eq] at this
    exact (congrArg (· * 2 ^ 31) this).trans (sign_eq f32 s).symm
  rw [ftanh_far (hflush.symm ▸ hread) hm ((magGe_far m e).mpr hA), hsign]
  rfl

/-- Settles O27: the special-cases column by evaluation, the exact powers from the binary32 numbers that powers of two are. -/
theorem funSpecialCases : Obligations.FunSpecialCases := by
  intro z x hx
  obtain ⟨hrsq, hexp, hexpNeg, hlog⟩ := positive_infinity z
  refine ⟨fun fn _ => ⟨funOp_nan, fun hz hs => ?_⟩, zeros_and_infinities z, hrsq, hexp, hexpNeg, hlog, fun fn hfn hneg hnan hz => ?_,
    fun k h1 h0 => flog2_normalPower z h0 h1, fun j => flog2_subnormalPower, fun k n h0 h1 => frcp_normalPower z h0 h1 n,
    frcp_greatestPower z, fun k => frsq_normalPower z, fun j => frsq_subnormalPower, fun k hfin hk => ?_, ftanh_of_far hx⟩
  · rw [hz]
    exact funOp_flush (flush_subnormal hx hs)
  · obtain ⟨hroot, hlogNeg⟩ := negative_source hx hneg hnan hz
    rcases List.mem_cons.mp hfn with rfl | hfn
    · exact hroot
    · rw [List.mem_singleton.mp hfn]
      exact hlogNeg
  · rw [fexp2_of_int hx hfin hk]
    refine ⟨fun h0 h1 => ?_, fun h0 h1 => ?_, fun h => ?_, fun h => ?_⟩
    · have h := funFlags_two_pow h0 h1 false
      rwa [bits_positive, bits_positive] at h
    · rw [pow2Bits_subnormal h0 h1]
      exact funFlags_subnormalPower _ (by omega)
    · rw [pow2Bits_low h]
      rfl
    · rw [pow2Bits_high h]
      rfl

end Sys2Proof.Proofs.FunSpecialCases
end

