-- ==== Sys2Proof/Proofs/VectorResults.lean ====
section
/-! SUPPORT. Vector instructions in one step: what passing the checks says of the hints, and the registers that a vector result
that is ready at once has written. -/

namespace Sys2Proof.Proofs.VectorResults

open Sys2Proof Sys2Proof.Machine Sys2Proof.Claims

/-! ### What passing says of the hints -/

section
variable {s : State} {sig : HintSet → Sig} {c : Ctx}

theorem lawful_of_passes (h : s.passes (hinted sig) = some c) : c.h = HintSet.read c.G.hints ∧ (sig c.h).lawful c.G.hints = true := by
  obtain ⟨c0, hissuing, rfl, hpassed⟩ := passes_cases s _ c h
  have hread : c0.h = HintSet.read c0.G.hints := by
    unfold State.issuing at hissuing
    split at hissuing
    · cases hissuing
    · split at hissuing
      · cases hissuing
      · split at hissuing
        · cases hissuing
        · cases hissuing
          rfl
  exact ⟨hread, (SystemRegisters.lawful_of_passed hpassed).1⟩

theorem legal_of_passes (h : s.passes (hinted sig) = some c) : (sig c.h).legal = true := by
  have hlawful := (lawful_of_passes h).2
  simp only [Sig.lawful, Bool.and_eq_true] at hlawful
  exact hlawful.1.1.2

/-- A TYPE hint names a type that the instruction accepts. -/
theorem type_mem_of_passes (h : s.passes (hinted sig) = some c) {t : Nat} (ht : c.h.type = some t) : t ∈ (sig c.h).types := by
  obtain ⟨hread, hlawful⟩ := lawful_of_passes h
  simp only [Sig.lawful, Bool.and_eq_true] at hlawful
  have hsuits := hlawful.1.1.1
  simp only [suits, ← hread, ht, Bool.and_eq_true] at hsuits
  exact List.contains_iff_mem.mp hsuits.1.1.2

end

/-! ### Results that are ready at once -/

theorem group_one (act : Word) (d : Nat) (f : Nat → DWord) (flags : Word) :
    Written.group act d 1 f flags = Written.vec act d (fun lane => loWord (f lane)) flags := by
  unfold Written.group Written.vec
  simp only [show ¬ (1 : Nat) = 2 by decide, false_and, if_false]

section
variable {i : Instr} {sig : HintSet → Sig} {d n : Nat} {f : Ctx → State → Nat → DWord × Word}

/-- What a vector instruction writes, its value and flags given lane by lane. -/
theorem runs_group (hexec : ∀ s, exec i s = issue sig (vecDone d n f) s) {x : Ctx → State → Nat → DWord × Word}
    (hx : ∀ s c, s.passes (hinted sig) = some c → ∀ lane, f c s lane = x c s lane) :
    Runs i (hinted sig) (fun c s =>
      Written.group c.act d n (fun lane => (x c s lane).1) (flagsOf c.act fun lane => (x c s lane).2)) := by
  intro s c h
  refine ⟨_, (hexec s).trans (issue_passes s sig _ c h), ?_⟩
  dsimp only
  rw [show x c s = f c s from funext fun lane => (hx s c h lane).symm]
  exact vecDone_completes s c d n f (passes_warp s _ c h).1

end

/-- A number with flags as the result of each lane. -/
theorem runs_flagged {i : Instr} {sig : HintSet → Sig} {d n : Nat} {f x : Ctx → State → Nat → Nat × Word}
    (hexec : ∀ s, exec i s = issue sig (vecDone d n fun c s lane => outOf (f c s lane)) s)
    (hx : ∀ s c, s.passes (hinted sig) = some c → ∀ lane, f c s lane = x c s lane) :
    Runs i (hinted sig) (fun c s => flagged c d n (x c s)) :=
  runs_group hexec (x := fun c s lane => outOf (x c s lane)) fun s c h lane => congrArg outOf (hx s c h lane)

theorem flagsOf_zero (act : Word) : (flagsOf act fun _ => 0) = 0 := by
  unfold flagsOf
  induction lanesOf act with
  | nil => rfl
  | cons lane l ih =>
    have hzero : (0 : Word) ||| 0 = 0 := by decide
    rw [List.foldl_cons]
    dsimp only
    rw [hzero]
    exact ih

theorem loWord_setWidth (x : Word) : loWord (x.setWidth 64) = x := by
  apply BitVec.eq_of_getLsbD_eq
  intro i hi
  simp [loWord, hi]
  intro _
  omega

theorem setWidth_eq_loWord (x : DWord) : x.setWidth 32 = loWord x := by
  apply BitVec.eq_of_getLsbD_eq
  intro i hi
  simp [loWord, hi]

/-- A word without flags as the result of each lane. -/
theorem runs_word {i : Instr} {sig : HintSet → Sig} {d : BitVec 7} {f x : Ctx → State → Nat → Word}
    (hexec : ∀ s, exec i s = issue sig (vecDone d.toNat 1 fun c s lane => wordOut (f c s lane)) s)
    (hx : ∀ s c, s.passes (hinted sig) = some c → ∀ lane, f c s lane = x c s lane) :
    Runs i (hinted sig) (fun c s => word c d (x c s)) := by
  have h := runs_group hexec (x := fun c s lane => wordOut (x c s lane)) fun s c h lane => congrArg wordOut (hx s c h lane)
  simp only [wordOut, group_one, loWord_setWidth, flagsOf_zero] at h
  exact h

end Sys2Proof.Proofs.VectorResults
end

