-- ==== Sys2Proof/Proofs/FloatArithmetic.lean ====
section
/-! SUPPORT. F32, F64 and H2 arithmetic deliver the exact result of their sources, rounded once (R137, R142, R143). -/

namespace Sys2Proof.Proofs.FloatArithmetic

open Sys2Proof Sys2Proof.Machine Sys2Proof.Claims Sys2Proof.Proofs.Formats Sys2Proof.Proofs.RoundOnce Sys2Proof.Proofs.VectorResults

/-! ### Sources under the flush bit -/

theorem read_zero {f : Fmt} (hE : 1 ≤ f.ebits) (n : Bool) : f.read (f.sign n) = .fin n 0 f.qmin := by
  have h := read_finite hE n (Nat.zero_le f.maxBits)
  rwa [Nat.zero_add, finPart, Nat.zero_div, if_pos rfl, Nat.zero_mod] at h

/-- A subnormal under the flush bit reads as the zero of its sign. -/
theorem source_eq_src {f : Fmt} (hE : 1 ≤ f.ebits) (c : Ctx) {x : Nat} (hx : x < 2 ^ f.width) :
    f.source (rnd c).ftz x = src f c x := by
  unfold Fmt.source Fmt.flush src
  by_cases h : (rnd c).ftz = true ∧ f.subnormal x = true
  · rw [if_pos (by simpa using h), if_pos h]
    obtain ⟨n, b, hb, rfl⟩ := exists_bits hx
    have hbit : (b + f.sign n) / f.signBit % 2 * f.signBit = f.sign n := by
      rw [bits_sign hb, sign_eq]
      cases n <;> rfl
    have hsign : decide (f.signBit ≤ b + f.sign n) = n := by
      cases n
      · exact decide_eq_false (not_le.mpr hb)
      · exact decide_eq_true (Nat.le_add_left _ _)
    rw [hbit, hsign, read_zero hE]
  · rw [if_neg (by simpa using h), if_neg h]

theorem arithOp_eq {f : Fmt} (hE : 1 ≤ f.ebits) (fn : Nat) (c : Ctx) {a b k : Nat} (ha : a < 2 ^ f.width) (hb : b < 2 ^ f.width)
    (hk : k < 2 ^ f.width) : arithOp f fn (c.h.rnd 0) a b k = Arith f fn c a b k := by
  have hx := source_eq_src hE c ha
  have hy := source_eq_src hE c hb
  have hz := source_eq_src hE c hk
  unfold arithOp Arith
  change f.source (c.h.rnd 0).ftz a = _ at hx
  change f.source (c.h.rnd 0).ftz b = _ at hy
  change f.source (c.h.rnd 0).ftz k = _ at hz
  rw [hx, hy, hz]
  rfl

/-! ### F32 -/

theorem f32_row {fn : Nat} {v s : BitVec 2 → BitVec 7 → BitVec 7 → BitVec 7 → Instr}
    (hv : ∀ g d a b st, exec (v g d a b) st = issue (f32Sig fn g d a (.v b)) (f32Body fn d a (.v b)) st)
    (hs : ∀ g d a b st, exec (s g d a b) st = issue (f32Sig fn g d a (.s b)) (f32Body fn d a (.s b)) st) :
    F32Row fn (fun c a b k => Arith f32 fn c a b.toNat k) v s := by
  have hop (c : Ctx) (x y z : Word) : arithOp f32 fn (c.h.rnd 0) x.toNat y.toNat z.toNat = Arith f32 fn c x.toNat y.toNat z.toNat :=
    arithOp_eq (by decide) fn c x.isLt y.isLt z.isLt
  intro g d a b
  refine ⟨runs_flagged (hv g d a b) fun st c _ lane => ?_, runs_flagged (hs g d a b) fun st c _ lane => ?_⟩
  · rw [setWidth_eq_loWord]
    exact hop c ..
  · rw [setWidth_eq_loWord]
    exact hop c ..

theorem fscale_row : F32Row 6 (fun c a b _ => fscaleOp (rnd c) a b.toInt) .fscaleV .fscaleS := by
  intro g d a b
  refine ⟨runs_flagged (fun st => rfl) fun st c _ lane => ?_, runs_flagged (fun st => rfl) fun st c _ lane => ?_⟩
  · rw [setWidth_eq_loWord]
    rfl
  · rw [setWidth_eq_loWord]
    rfl

/-- The magnitude of one word under the sign of another. -/
theorem copysign_bits (x y : Word) :
    ((x &&& 0x7FFFFFFF) ||| (y &&& 0x80000000)).setWidth 64 = BitVec.ofNat 64 (x.toNat % 2 ^ 31 + y.toNat / 2 ^ 31 * 2 ^ 31) := by
  have hx := x.isLt
  have hy := y.isLt
  have hlow : (x &&& 0x7FFFFFFF).toNat = x.toNat % 2 ^ 31 := Nat.and_two_pow_sub_one_eq_mod x.toNat 31
  have hhigh : (y &&& 0x80000000).toNat = y.toNat / 2 ^ 31 * 2 ^ 31 := by
    refine (Nat.and_two_pow y.toNat 31).trans ?_
    rw [Nat.toNat_testBit]
    omega
  have hor := Nat.two_pow_add_eq_or_of_lt (i := 31) (Nat.mod_lt x.toNat (by norm_num : 0 < 2 ^ 31)) (y.toNat / 2 ^ 31)
  apply BitVec.eq_of_toNat_eq
  rw [BitVec.toNat_setWidth, BitVec.toNat_or, hlow, hhigh, BitVec.toNat_ofNat, Nat.or_comm, Nat.mul_comm, ← hor, Nat.add_comm, Nat.mul_comm]

theorem fcopysign_row : F32Row 7 (fun _ a b _ => (a % 2 ^ 31 + b.toNat / 2 ^ 31 * 2 ^ 31, 0)) .fcopysignV .fcopysignS := by
  intro g d a b
  refine ⟨runs_group (fun st => rfl) (x := fun c s lane => outOf (_, 0)) fun st c _ lane => ?_,
    runs_group (fun st => rfl) (x := fun c s lane => outOf (_, 0)) fun st c _ lane => ?_⟩
  · rw [setWidth_eq_loWord]
    exact Prod.ext (copysign_bits _ _) rfl
  · rw [setWidth_eq_loWord]
    exact Prod.ext (copysign_bits _ _) rfl

/-! ### F64 -/

theorem f64_row {fn : Nat} {i : BitVec 2 → BitVec 7 → BitVec 7 → BitVec 7 → Instr}
    (hi : ∀ g d a b st, exec (i g d a b) st = issue (f64Sig fn g d a b) (f64Body fn d a b) st) : F64Row fn i := by
  intro g d a b
  refine runs_flagged (hi g d a b) fun st c _ lane => ?_
  exact arithOp_eq (by decide) fn c (BitVec.isLt _) (BitVec.isLt _) (BitVec.isLt _)

/-! ### H2 -/

/-- What the arithmetic delivers in half `j` of packed words. -/
def halfArith (f : Fmt) (fn : Nat) (c : Ctx) (x y z : Word) (j : Nat) : Nat × Word :=
  Arith f fn c (field x.toNat (16 * j) 16) (field y.toNat (16 * j) 16) (field z.toNat (16 * j) 16)

theorem halves_eq {f : Fmt} (hE : 1 ≤ f.ebits) (hw : f.width = 16) (fn : Nat) (c : Ctx) (x y z : Word) :
    halves (arithOp f fn (c.h.rnd 0)) x y z = outOf ((halfArith f fn c x y z 0).1 + (halfArith f fn c x y z 1).1 * 2 ^ 16,
      (halfArith f fn c x y z 0).2 ||| (halfArith f fn c x y z 1).2) := by
  have hlt (x : Word) (j : Nat) : field x.toNat (16 * j) 16 < 2 ^ f.width := by
    rw [hw]
    exact Nat.mod_lt _ (by norm_num)
  unfold halfArith
  rw [← arithOp_eq hE fn c (hlt x 0) (hlt y 0) (hlt z 0), ← arithOp_eq hE fn c (hlt x 1) (hlt y 1) (hlt z 1)]
  rfl

/-- Both halves of every lane, in the format that the hints name. -/
theorem h2_row {fn : Nat} {fmt : HintSet → Fmt} {f : Ctx → Fmt} {types : List Nat} {v s : BitVec 2 → BitVec 7 → BitVec 7 → BitVec 7 → Instr}
    (hv : ∀ g d a b st, exec (v g d a b) st = issue (h2Sig fn types g d a (.v b)) (h2Body fmt fn d a (.v b)) st)
    (hs : ∀ g d a b st, exec (s g d a b) st = issue (h2Sig fn types g d a (.s b)) (h2Body fmt fn d a (.s b)) st)
    (hf : ∀ c, (∀ t, c.h.type = some t → t ∈ types) → fmt c.h = f c ∧ 1 ≤ (f c).ebits ∧ (f c).width = 16) :
    H2Row fn f types v s := by
  have htypes (g : BitVec 2) (d a : BitVec 7) (b : Src) (h : HintSet) : (h2Sig fn types g d a b h).types = types := by
    unfold h2Sig
    dsimp only
    split <;> (unfold Sig.rounds; split <;> rfl)
  have hlane (g : BitVec 2) (d a : BitVec 7) (b : Src) (st : State) (c : Ctx) (h : st.passes (hinted (h2Sig fn types g d a b)) = some c) :=
    hf c fun t ht => htypes g d a b c.h ▸ type_mem_of_passes h ht
  intro g d a b
  refine ⟨runs_group (hv g d a b) (x := fun c s lane => outOf (_, _)) fun st c h lane => ?_,
    runs_group (hs g d a b) (x := fun c s lane => outOf (_, _)) fun st c h lane => ?_⟩
  · obtain ⟨hfmt, hE, hw⟩ := hlane g d a _ st c h
    rw [hfmt, halves_eq hE hw, ← setWidth_eq_loWord]
    rfl
  · obtain ⟨hfmt, hE, hw⟩ := hlane g d a _ st c h
    rw [hfmt, halves_eq hE hw, ← setWidth_eq_loWord]
    rfl

/-- The format of the packed minimum and maximum: the hint's, which names one of the two. -/
theorem pickFmt_eq (c : Ctx) (h : ∀ t, c.h.type = some t → t ∈ [9, 10]) :
    pickFmt c.h = (if c.h.type = some 10 then bf16 else f16) ∧ 1 ≤ (if c.h.type = some 10 then bf16 else f16).ebits ∧
      (if c.h.type = some 10 then bf16 else f16).width = 16 := by
  unfold pickFmt HintSet.typeOr
  cases ht : c.h.type with
  | none => decide
  | some t =>
    have hmem := h t ht
    simp only [List.mem_cons, List.not_mem_nil, or_false] at hmem
    rcases hmem with rfl | rfl <;> decide

/-- Settles O22: every arithmetic instruction reads its sources under the flush bit and delivers the operation of its format. -/
theorem floatArithmetic : Obligations.FloatArithmetic := by
  have hf16 (c : Ctx) (_ : ∀ t, c.h.type = some t → t ∈ ([] : List Nat)) : f16 = f16 ∧ 1 ≤ f16.ebits ∧ f16.width = 16 := by decide
  have hbf16 (c : Ctx) (_ : ∀ t, c.h.type = some t → t ∈ ([] : List Nat)) : bf16 = bf16 ∧ 1 ≤ bf16.ebits ∧ bf16.width = 16 := by decide
  exact ⟨⟨f32_row (fun _ _ _ _ _ => rfl) (fun _ _ _ _ _ => rfl), f32_row (fun _ _ _ _ _ => rfl) (fun _ _ _ _ _ => rfl),
      f32_row (fun _ _ _ _ _ => rfl) (fun _ _ _ _ _ => rfl), f32_row (fun _ _ _ _ _ => rfl) (fun _ _ _ _ _ => rfl),
      f32_row (fun _ _ _ _ _ => rfl) (fun _ _ _ _ _ => rfl), f32_row (fun _ _ _ _ _ => rfl) (fun _ _ _ _ _ => rfl),
      fscale_row, fcopysign_row⟩,
    ⟨f64_row fun _ _ _ _ _ => rfl, f64_row fun _ _ _ _ _ => rfl, f64_row fun _ _ _ _ _ => rfl, f64_row fun _ _ _ _ _ => rfl,
      f64_row fun _ _ _ _ _ => rfl, f64_row fun _ _ _ _ _ => rfl⟩,
    h2_row (fun _ _ _ _ _ => rfl) (fun _ _ _ _ _ => rfl) hf16, h2_row (fun _ _ _ _ _ => rfl) (fun _ _ _ _ _ => rfl) hf16,
    h2_row (fun _ _ _ _ _ => rfl) (fun _ _ _ _ _ => rfl) hf16, h2_row (fun _ _ _ _ _ => rfl) (fun _ _ _ _ _ => rfl) hbf16,
    h2_row (fun _ _ _ _ _ => rfl) (fun _ _ _ _ _ => rfl) hbf16, h2_row (fun _ _ _ _ _ => rfl) (fun _ _ _ _ _ => rfl) hbf16,
    h2_row (fun _ _ _ _ _ => rfl) (fun _ _ _ _ _ => rfl) pickFmt_eq, h2_row (fun _ _ _ _ _ => rfl) (fun _ _ _ _ _ => rfl) pickFmt_eq⟩

end Sys2Proof.Proofs.FloatArithmetic
end

