-- ==== Sys2Proof/Proofs/FloatComparisons.lean ====
section
/-! SUPPORT. The order that the model computes is the order of the exact values; FSET and DSET (R138, R142). -/

namespace Sys2Proof.Proofs.FloatComparisons

open Sys2Proof Sys2Proof.Machine Sys2Proof.Claims Sys2Proof.Proofs.Rounding Sys2Proof.Proofs.FloatResults
  Sys2Proof.Proofs.VectorResults Sys2Proof.Proofs.FloatArithmetic

/-! ### The order of values -/

theorem scaled_lt_iff {n k : Bool} {m r : Nat} {e g q : Int} (he : q ≤ e) (hg : q ≤ g) :
    scaled n m e q < scaled k r g q ↔ valQ (.fin n m e) < valQ (.fin k r g) := by
  have hcast : valQ (.fin n m e) < valQ (.fin k r g) ↔ valR (.fin n m e) < valR (.fin k r g) := by
    unfold valR
    exact Rat.cast_lt.symm
  rw [hcast, ← scaled_val n m he, ← scaled_val k r hg, mul_lt_mul_iff_left₀ (zpow_two_pos q), Int.cast_lt]

theorem below_iff (x y : FVal) : x.below false y = true ↔ lessQ x y := by
  cases x with
  | nan s => simp [FVal.below, lessQ]
  | inf n => cases y <;> simp [FVal.below, lessQ]
  | fin n m e =>
    cases y with
    | nan s => simp [FVal.below, lessQ]
    | inf k => simp [FVal.below, lessQ]
    | fin k r g =>
      rw [FVal.below, lessQ, ← scaled_lt_iff (min_le_left e g) (min_le_right e g)]
      simp

theorem same_iff (x y : FVal) : x.same y = true ↔ sameQ x y := by
  unfold FVal.same sameQ
  rw [← below_iff x y, ← below_iff y x]
  simp [and_assoc]

/-! ### FSET and DSET -/

/-- The test of a comparison. -/
def compare (fn : Nat) (x y : FVal) : Bool :=
  match fn with
  | 0 => x.same y
  | 1 => !x.same y
  | 2 => x.below false y
  | 3 => x.below false y || x.same y
  | 4 => y.below false x
  | 5 => y.below false x || x.same y
  | 6 => x.isNan || y.isNan
  | _ => !(x.isNan || y.isNan)

theorem fsetOp_test (f : Fmt) (fn : Nat) (z : Bool) (a b : Nat) :
    (fsetOp f fn z a b).1 = compare fn (f.source z a) (f.source z b) := rfl

theorem isNan_of_snan {x : FVal} (h : x.snan = true) : x.isNan = true := by
  cases x with
  | nan s => rfl
  | inf n => exact h
  | fin n m e => exact h

theorem fsetOp_flags (f : Fmt) (fn : Nat) (z : Bool) (a b : Nat) {x y : FVal} (hx : f.source z a = x) (hy : f.source z b = y) :
    (fsetOp f fn z a b).2 =
      if x.snan || y.snan || (decide (2 ≤ fn ∧ fn ≤ 5) && (x.isNan || y.isNan)) then fNV else 0 := by
  unfold fsetOp
  dsimp only
  rw [hx, hy]
  by_cases h : 2 ≤ fn ∧ fn ≤ 5
  · have hor : (x.snan || y.snan || (x.isNan || y.isNan)) = (x.isNan || y.isNan) := by
      rw [Bool.or_eq_right_iff_imp, Bool.or_eq_true, Bool.or_eq_true]
      exact Or.imp isNan_of_snan isNan_of_snan
    rw [if_pos h, decide_eq_true h, Bool.true_and, hor]
    rfl
  · rw [if_neg h, decide_eq_false h, Bool.false_and, Bool.or_false]
    simp [nvOf, flagIf]

theorem combine_eq {k : BitVec 4} (hk : k.toNat < 4) (old t : Bool) : combinePred k.toNat old t = combine k old t := by
  have hcode : k = 0#4 ∨ k = 1#4 ∨ k = 2#4 ∨ k = 3#4 := by bv_omega
  rcases hcode with rfl | rfl | rfl | rfl <;> rfl

section
variable {f : Fmt} {n fn : Nat} {i : Instr} {g : BitVec 2} {k : BitVec 4} {p : BitVec 3} {a : BitVec 7} {b : Src}
  {test : FVal → FVal → Prop}

/-- A comparison in a format whose operands fit it. -/
theorem fset_clause (hE : 1 ≤ f.ebits) (hn : f.regs = n) (htest : ∀ x y, compare fn x y = true ↔ test x y)
    (hexec : ∀ st, exec i st = issue (fsetSig n g k a b) (fsetBody f fn k p a b) st)
    (ha : ∀ c lane, (vec c n a lane).toNat < 2 ^ f.width) (hb : ∀ c st lane, (b.value c st n lane).toNat < 2 ^ f.width)
    {st : State} {c : Ctx} (h : st.passes (hinted (fsetSig n g k a b)) = some c) :
    ∃ t w, exec i st = .next t ∧ Completes c st t w ∧ ∃ q : Nat → Bool,
      (∀ lane, q lane = true ↔ test (src f c (vec c n a lane).toNat) (src f c (b.value c st n lane).toNat)) ∧
      w = Written.pred c.act p.toNat (fun lane => combine k ((c.W.pmask p.toNat).getLsbD lane) (q lane))
        (flagsOf c.act (fun lane =>
          if (src f c (vec c n a lane).toNat).snan || (src f c (b.value c st n lane).toNat).snan ||
            (decide (2 ≤ fn ∧ fn ≤ 5) && ((src f c (vec c n a lane).toNat).isNan || (src f c (b.value c st n lane).toNat).isNan))
          then fNV else 0)) := by
  have hk : k.toNat < 4 := by simpa [fsetSig] using legal_of_passes h
  have hx (lane : Nat) := source_eq_src hE c (ha c lane)
  have hy (lane : Nat) := source_eq_src hE c (hb c st lane)
  subst hn
  refine ⟨_, _, (hexec st).trans (issue_passes st _ _ c h), predDone_completes st c _ _ _ (passes_warp st _ c h).1,
    fun lane => (fsetOp f fn c.h.ftz (c.W.group a.toNat f.regs lane).toNat (b.value c st f.regs lane).toNat).1, fun lane => ?_, ?_⟩
  · dsimp only
    rw [fsetOp_test, ← htest, ← hx lane, ← hy lane]
    rfl
  · simp only [combine_eq hk]
    refine congrArg _ (congrArg (flagsOf c.act) (funext fun lane => ?_))
    exact fsetOp_flags f fn _ _ _ (hx lane) (hy lane)

end

theorem setWidth_lt (x : Word) : (x.setWidth 64).toNat < 2 ^ f32.width := by
  rw [BitVec.toNat_setWidth_of_le (by decide)]
  exact x.isLt

theorem vec_lt (c : Ctx) (a : BitVec 7) (lane : Nat) : (vec c 1 a lane).toNat < 2 ^ f32.width := by
  rw [vec, if_neg (by decide)]
  exact setWidth_lt _

theorem value_v_lt (b : BitVec 7) (c : Ctx) (st : State) (lane : Nat) : ((Src.v b).value c st 1 lane).toNat < 2 ^ f32.width := by
  rw [Src.value, Warp.group, if_neg (by decide)]
  exact setWidth_lt _

theorem value_s_lt (b : BitVec 7) (c : Ctx) (st : State) (lane : Nat) : ((Src.s b).value c st 1 lane).toNat < 2 ^ f32.width := by
  rw [Src.value, if_neg (by decide)]
  exact setWidth_lt _

theorem fset_row {fn : Nat} {test : FVal → FVal → Prop} {v s dv : BitVec 2 → BitVec 4 → BitVec 3 → BitVec 7 → BitVec 7 → Instr}
    (htest : ∀ x y, compare fn x y = true ↔ test x y)
    (hv : ∀ g k p a b st, exec (v g k p a b) st = issue (fsetSig 1 g k a (.v b)) (fsetBody f32 fn k p a (.v b)) st)
    (hs : ∀ g k p a b st, exec (s g k p a b) st = issue (fsetSig 1 g k a (.s b)) (fsetBody f32 fn k p a (.s b)) st)
    (hd : ∀ g k p a b st, exec (dv g k p a b) st = issue (fsetSig 2 g k a (.v b)) (fsetBody f64 fn k p a (.v b)) st) :
    FsetRow test (decide (2 ≤ fn ∧ fn ≤ 5)) v s dv := by
  intro g k p a b
  have hF64 (x : DWord) : x.toNat < 2 ^ f64.width := x.isLt
  refine ⟨fun st c h => ?_, fun st c h => ?_, fun st c h => ?_⟩
  · exact fset_clause (f := f32) (by decide) rfl htest (hv g k p a b) (fun c => vec_lt c a) (value_v_lt b) h
  · exact fset_clause (f := f32) (by decide) rfl htest (hs g k p a b) (fun c => vec_lt c a) (value_s_lt b) h
  · exact fset_clause (f := f64) (by decide) rfl htest (hd g k p a b) (fun _ _ => hF64 _) (fun _ _ _ => hF64 _) h

/-- Settles O24: the model compares scaled integers, which lie in the order of the exact values. -/
theorem floatComparisons : Obligations.FloatComparisons := by
  refine ⟨fset_row (fn := 0) same_iff ?_ ?_ ?_, fset_row (fn := 1) (fun x y => ?_) ?_ ?_ ?_, fset_row (fn := 2) below_iff ?_ ?_ ?_,
    fset_row (fn := 3) (fun x y => ?_) ?_ ?_ ?_, fset_row (fn := 4) (fun x y => below_iff y x) ?_ ?_ ?_,
    fset_row (fn := 5) (fun x y => ?_) ?_ ?_ ?_, fset_row (fn := 6) (fun x y => ?_) ?_ ?_ ?_, fset_row (fn := 7) (fun x y => ?_) ?_ ?_ ?_⟩
  case refine_4 => simp [compare, ← same_iff]
  case refine_11 => simp [compare, below_iff, same_iff]
  case refine_18 => simp [compare, below_iff, same_iff]
  case refine_22 => simp [compare]
  case refine_26 => simp [compare]
  all_goals exact fun _ _ _ _ _ _ => rfl

end Sys2Proof.Proofs.FloatComparisons
end

