-- ==== Sys2Proof/Proofs/FloatSpecialCases.lean ====
section
/-! SUPPORT. NaNs, infinities and zeros of the arithmetic in the IEEE formats (R75, R137, R140). -/

namespace Sys2Proof.Proofs.FloatSpecialCases

open Sys2Proof Sys2Proof.Machine Sys2Proof.Claims Sys2Proof.Proofs.FloatComparisons

/-- The canonical NaN of an IEEE format. -/
def nanBits (f : Fmt) : Nat := (2 ^ f.ebits - 1) * 2 ^ f.fbits + 2 ^ (f.fbits - 1)

/-! ### NaN sources -/

section
variable {f : Fmt} (hf : f.kind = .ieee) (r : Rnd) {x y : FVal}
include hf

theorem nan_ieee : f.nan = nanBits f := by
  unfold Fmt.nan
  rw [hf]
  rfl

theorem nanResult_ieee (w : Word) : f.nanResult w = (nanBits f, w) := by
  unfold Fmt.nanResult
  rw [nan_ieee hf, hf]
  simp

theorem addV_nan (h : x.isNan = true ∨ y.isNan = true) : f.addV r x y = (nanBits f, flagIf (x.snan || y.snan) fNV) := by
  rw [show (x.snan || y.snan) = [x, y].any FVal.snan by simp, ← nanResult_ieee hf]
  cases x with
  | nan s => rfl
  | inf n => cases y <;> simp [FVal.isNan] at h; rfl
  | fin n m e => cases y <;> simp [FVal.isNan] at h; rfl

omit hf in
/-- The product of a NaN is a NaN, signalling where a source is. -/
theorem times_nan (h : x.isNan = true ∨ y.isNan = true) : x.times y = some (.nan (x.snan || y.snan)) := by
  cases x with
  | nan s => rfl
  | inf n =>
    cases y with
    | nan s => cases s <;> rfl
    | inf k => simp [FVal.isNan] at h
    | fin k m e => simp [FVal.isNan] at h
  | fin n m e =>
    cases y with
    | nan s => cases s <;> rfl
    | inf k => simp [FVal.isNan] at h
    | fin k r g => simp [FVal.isNan] at h

theorem mulV_nan (h : x.isNan = true ∨ y.isNan = true) : f.mulV r x y = (nanBits f, flagIf (x.snan || y.snan) fNV) := by
  unfold Fmt.mulV
  rw [times_nan h]
  exact nanResult_ieee hf _

theorem divV_nan (h : x.isNan = true ∨ y.isNan = true) : f.divV r x y = (nanBits f, flagIf (x.snan || y.snan) fNV) := by
  rw [show (x.snan || y.snan) = [x, y].any FVal.snan by simp, ← nanResult_ieee hf]
  cases x with
  | nan s => rfl
  | inf n => cases y <;> simp [FVal.isNan] at h; rfl
  | fin n m e => cases y <;> simp [FVal.isNan] at h; rfl

omit hf in
theorem flagIf_or (a b : Bool) (w : Word) : flagIf a w ||| flagIf b w = flagIf (a || b) w := by
  cases a <;> cases b <;> simp [flagIf]

omit hf in
theorem fmaV_of_times {p z : FVal} (h : x.times y = some p) :
    f.fmaV r x y z = ((f.addV r p z).1, (f.addV r p z).2 ||| nvOf [x, y, z]) := by
  unfold Fmt.fmaV
  rw [h]

omit hf in
/-- Without a signalling source the flags are the sum's. -/
theorem fmaV_quiet {p z : FVal} (h : x.times y = some p) (hq : nvOf [x, y, z] = 0) : f.fmaV r x y z = f.addV r p z := by
  rw [fmaV_of_times r h, hq]
  exact Prod.ext rfl BitVec.or_zero

theorem fmaV_none {z : FVal} (h : x.times y = none) : f.fmaV r x y z = (nanBits f, fNV) := by
  unfold Fmt.fmaV
  rw [h]
  exact nanResult_ieee hf _

theorem fmaV_nan (z : FVal) (h : x.isNan = true ∨ y.isNan = true) :
    f.fmaV r x y z = (nanBits f, flagIf (x.snan || y.snan || z.snan) fNV) := by
  rw [fmaV_of_times r (times_nan h), addV_nan hf r (.inl rfl)]
  simp [FVal.snan, nvOf, Bool.or_assoc]

omit hf in
/-- Zero times infinity has no product. -/
theorem times_none (h : infTimesZero x y = true) : x.times y = none := by
  cases x with
  | nan s => cases h
  | inf n =>
    cases y with
    | nan s => cases h
    | inf k => cases h
    | fin k m e => exact if_pos (beq_iff_eq.mp h)
  | fin n m e =>
    cases y with
    | nan s => cases h
    | inf k => exact if_pos (beq_iff_eq.mp h)
    | fin k r g => cases h

omit hf in
/-- Every other product of numbers is a number. -/
theorem times_number (hx : x.isNan = false) (hy : y.isNan = false) (h : infTimesZero x y = false) :
    ∃ p, x.times y = some p ∧ p.snan = false := by
  cases x with
  | nan s => cases hx
  | inf n =>
    cases y with
    | nan s => cases hy
    | inf k => exact ⟨_, rfl, rfl⟩
    | fin k m e => exact ⟨_, if_neg (beq_eq_false_iff_ne.mp h), rfl⟩
  | fin n m e =>
    cases y with
    | nan s => cases hy
    | inf k => exact ⟨_, if_neg (beq_eq_false_iff_ne.mp h), rfl⟩
    | fin k r g => exact ⟨_, rfl, rfl⟩

/-- A NaN addend of a valid product, and of an invalid one. -/
theorem fmaV_nan_addend {z : FVal} (hx : x.isNan = false) (hy : y.isNan = false) (hz : z.isNan = true) :
    f.fmaV r x y z = (nanBits f, if infTimesZero x y = true ∨ z.snan = true then fNV else 0) := by
  have hsnan {v : FVal} (h : v.isNan = false) : v.snan = false := by
    refine Bool.eq_false_iff.mpr fun hs => ?_
    rw [isNan_of_snan hs] at h
    cases h
  by_cases hinf : infTimesZero x y = true
  · rw [fmaV_none hf r (times_none hinf), if_pos (.inl hinf)]
  · obtain ⟨p, hp, hquiet⟩ := times_number hx hy (Bool.eq_false_iff.mpr hinf)
    rw [fmaV_of_times r hp, addV_nan hf r (.inr hz), hquiet]
    simp [nvOf, hsnan hx, hsnan hy, flagIf, hinf]

/-! ### Infinities -/

theorem infinite_sums (n : Bool) : f.addV r (.inf n) (.inf (!n)) = (nanBits f, fNV) ∧ f.addV r (.inf n) (.inf n) = (f.inf n, 0) := by
  refine ⟨?_, if_pos rfl⟩
  refine (if_neg (by cases n <;> decide)).trans ((nanResult_ieee hf _).trans ?_)
  exact Prod.ext rfl BitVec.zero_or

theorem infinities (n k : Bool) {m : Nat} (e : Int) (hm : m ≠ 0) :
    f.fmaV r (.inf n) (.fin k m e) (.inf (n ^^ k)) = (f.inf (n ^^ k), 0) ∧
    f.fmaV r (.inf n) (.fin k m e) (.inf !(n ^^ k)) = (nanBits f, fNV) ∧
    f.fmaV r (.fin k m e) (.inf n) (.inf !(n ^^ k)) = (nanBits f, fNV) ∧
    f.mulV r (.inf n) (.fin k m e) = (f.inf (n ^^ k), 0) ∧ f.mulV r (.fin k m e) (.inf n) = (f.inf (n ^^ k), 0) ∧
    f.addV r (.inf n) (.fin k m e) = (f.inf n, 0) ∧ f.addV r (.fin k m e) (.inf n) = (f.inf n, 0) ∧
    f.fmaV r (.fin k m e) (.fin n 0 e) (.inf n) = (f.inf n, 0) := by
  have hleft : (FVal.inf n).times (.fin k m e) = some (.inf (n ^^ k)) := if_neg hm
  have hright : (FVal.fin k m e).times (.inf n) = some (.inf (n ^^ k)) := by
    rw [Bool.xor_comm]
    exact if_neg hm
  obtain ⟨hopposite, hsame⟩ := infinite_sums hf r (n ^^ k)
  refine ⟨(fmaV_quiet r hleft rfl).trans hsame, (fmaV_quiet r hleft rfl).trans hopposite, (fmaV_quiet r hright rfl).trans hopposite,
    ?_, ?_, rfl, rfl, (fmaV_quiet (z := .inf n) r (rfl : (FVal.fin k m e).times (.fin n 0 e) = _) rfl).trans rfl⟩
  · unfold Fmt.mulV
    rw [hleft]
  · unfold Fmt.mulV
    rw [hright]

theorem inf_times_zero (n k : Bool) (e : Int) (z : FVal) : f.mulV r (.inf n) (.fin k 0 e) = (nanBits f, fNV) ∧
    f.mulV r (.fin k 0 e) (.inf n) = (nanBits f, fNV) ∧ f.fmaV r (.inf n) (.fin k 0 e) z = (nanBits f, fNV) :=
  ⟨nanResult_ieee hf _, nanResult_ieee hf _, fmaV_none hf r rfl⟩

/-! ### Zeros -/

omit hf in
theorem round_zero (n : Bool) (e : Int) : f.round r n 0 e false = (f.sign n, 0) := if_pos ⟨rfl, rfl⟩

omit hf in
theorem mulV_zero (n k : Bool) (m : Nat) (e g : Int) : f.mulV r (.fin n 0 e) (.fin k m g) = (f.sign (n ^^ k), 0) := by
  change f.round r (n ^^ k) (0 * m) (e + g) false = _
  rw [Nat.zero_mul, round_zero]

omit hf in
theorem scaled_zero (n : Bool) (e q : Int) : scaled n 0 e q = 0 := by cases n <;> simp [scaled]

omit hf in
theorem sumFin_zeros (n k : Bool) (e g : Int) : f.sumFin r n 0 e k 0 g = (f.sign (if n = k then n else r.mode == 3), 0) := by
  unfold Fmt.sumFin
  simp only [scaled_zero]
  simp

omit hf in
theorem sign_mode : f.sign (r.mode == 3) = if r.mode = 3 then f.signBit else 0 := by
  unfold Fmt.sign
  simp

omit hf in
theorem fmaV_zeros (n k : Bool) (m : Nat) (e g : Int) :
    f.fmaV r (.fin n 0 e) (.fin k m g) (.fin (n ^^ k) 0 g) = (f.sign (n ^^ k), 0) ∧
    f.fmaV r (.fin n 0 e) (.fin k m g) (.fin (!(n ^^ k)) 0 g) = (f.sign (r.mode == 3), 0) := by
  have htimes : (FVal.fin n 0 e).times (.fin k m g) = some (.fin (n ^^ k) 0 (e + g)) := by
    rw [FVal.times, Nat.zero_mul]
  have hsum (b : Bool) : f.addV r (.fin (n ^^ k) 0 (e + g)) (.fin b 0 g) =
      (f.sign (if (n ^^ k) = b then n ^^ k else r.mode == 3), 0) := sumFin_zeros ..
  constructor
  · rw [fmaV_quiet r htimes rfl, hsum, if_pos rfl]
  · rw [fmaV_quiet r htimes rfl, hsum, if_neg (by cases n ^^ k <;> decide)]

omit hf in
theorem addV_opposites (n : Bool) {m : Nat} (e : Int) (hm : m ≠ 0) :
    f.addV r (.fin n m e) (.fin (!n) m e) = (f.sign (r.mode == 3), 0) := by
  have hsum : scaled n m e (min e e) + scaled (!n) m e (min e e) = 0 := by cases n <;> simp [scaled]
  change f.sumFin r n m e (!n) m e = _
  unfold Fmt.sumFin
  dsimp only
  rw [hsum]
  simp [hm]

/-! ### Divisions by zero and roots -/

omit hf in
theorem divV_by_zero (n k : Bool) (m : Nat) (e g : Int) :
    f.divV r (.fin n m e) (.fin k 0 g) = if m = 0 then f.nanResult fNV else (f.inf (n ^^ k), fDZ) := by
  unfold Fmt.divV
  dsimp only
  rw [if_pos rfl]

omit hf in
theorem divV_of_zero (n k : Bool) {m : Nat} (e g : Int) (hm : m ≠ 0) : f.divV r (.fin n 0 e) (.fin k m g) = (f.sign (n ^^ k), 0) := by
  unfold Fmt.divV
  dsimp only
  rw [if_neg hm, if_pos rfl]

omit hf in
theorem sqrtV_zero (n : Bool) (e : Int) : f.sqrtV r (.fin n 0 e) = (f.sign n, 0) := by
  unfold Fmt.sqrtV
  dsimp only
  rw [if_pos rfl]

theorem sqrtV_negative {m : Nat} (e : Int) (hm : m ≠ 0) : f.sqrtV r (.fin true m e) = (nanBits f, fNV) := by
  unfold Fmt.sqrtV
  dsimp only
  rw [if_neg hm, if_pos rfl]
  exact nanResult_ieee hf _

end

/-! ### minimumNumber and maximumNumber -/

theorem below_zeros_of_lessQ {x y : FVal} (h : lessQ x y) : x.below true y = true ∧ y.below true x = false := by
  have h1 := (below_iff x y).mpr h
  cases x with
  | nan s => cases h1
  | inf n =>
    cases y with
    | nan s => cases h1
    | inf k => revert h1; cases n <;> cases k <;> decide
    | fin k r g => exact ⟨h1, by simpa [FVal.below] using h1⟩
  | fin n m e =>
    cases y with
    | nan s => cases h1
    | inf k => exact ⟨h1, by simpa [FVal.below] using h1⟩
    | fin k r g =>
      simp only [FVal.below, Bool.false_and, Bool.or_false, decide_eq_true_iff] at h1
      refine ⟨by simp [FVal.below, h1], ?_⟩
      rw [min_comm] at h1
      simp [FVal.below, h1.le, h1.ne']

theorem not_nan_of_lessQ {x y : FVal} (h : lessQ x y) : x.isNan = false ∧ y.isNan = false := by
  cases x with
  | nan s => exact h.elim
  | inf n =>
    cases y with
    | nan s => exact h.elim
    | inf k => exact ⟨rfl, rfl⟩
    | fin k r g => exact ⟨rfl, rfl⟩
  | fin n m e =>
    cases y with
    | nan s => exact h.elim
    | inf k => exact ⟨rfl, rfl⟩
    | fin k r g => exact ⟨rfl, rfl⟩

section
variable {f : Fmt} {a b : Nat}

theorem pick_less (h : lessQ (f.read a) (f.read b)) : (f.pick false a b).1 = a ∧ (f.pick true a b).1 = b ∧
    (f.pick false b a).1 = a ∧ (f.pick true b a).1 = b := by
  obtain ⟨ha, hb⟩ := not_nan_of_lessQ h
  obtain ⟨hlt, hge⟩ := below_zeros_of_lessQ h
  simp [Fmt.pick, ha, hb, hlt, hge]

theorem pick_nan_left (ha : (f.read a).isNan = true) (hb : (f.read b).isNan = false) (largest : Bool) : (f.pick largest a b).1 = b := by
  simp [Fmt.pick, ha, hb]

theorem pick_nan_right (ha : (f.read a).isNan = false) (hb : (f.read b).isNan = true) (largest : Bool) : (f.pick largest a b).1 = a := by
  simp [Fmt.pick, ha, hb]

theorem pick_nans (ha : (f.read a).isNan = true) (hb : (f.read b).isNan = true) (largest : Bool) : (f.pick largest a b).1 = f.nan := by
  simp [Fmt.pick, ha, hb]

end

theorem pick_zeros : ∀ f ∈ [f64, f32, f16, bf16], (f.pick false 0 f.signBit).1 = f.signBit ∧ (f.pick true f.signBit 0).1 = 0 := by decide

/-- Settles O23: each case is the branch of the operation that its sources name. -/
theorem floatSpecialCases : Obligations.FloatSpecialCases := by
  intro f hf r x y z
  have hk : f.kind = .ieee := by
    simp only [List.mem_cons, List.not_mem_nil, or_false] at hf
    rcases hf with rfl | rfl | rfl | rfl <;> rfl
  obtain ⟨hmin, hmax⟩ := pick_zeros f hf
  refine ⟨fun h => ?_, fmaV_nan_addend hk r, fun n k m e => infinities hk r n k e, fun n k m e g => ?_, fun b => ?_, rfl,
    nanResult_ieee hk _, infinite_sums hk r, fun n k e => inf_times_zero hk r n k e z, fun n k m e g hm => ?_, fun n k e g => ?_,
    fun n k => nanResult_ieee hk _, fun n k m e => rfl, fun n e g => ?_, fun n m e hm => ?_, sqrtV_zero r, fun m e => sqrtV_negative hk r e,
    fun a b _ _ => ?_, hmin, hmax⟩
  · rw [addV_nan hk r h, mulV_nan hk r h, divV_nan hk r h, fmaV_nan hk r z h]
    refine ⟨rfl, rfl, rfl, rfl, rfl, fun hs => ?_, fun hx hy => ?_⟩
    · rw [show (x.snan || y.snan) = true by simpa using hs]
      exact ⟨rfl, rfl, rfl⟩
    · rw [hx, hy]
      exact ⟨rfl, rfl, rfl⟩
  · obtain ⟨hsame, hother⟩ := fmaV_zeros r n k m e g
    exact ⟨mulV_zero r n k m e g, divV_of_zero r n k e g, hsame, hother.trans (by rw [sign_mode])⟩
  · cases b <;> exact nanResult_ieee hk _
  · rw [divV_by_zero, if_neg hm]
  · rw [divV_by_zero, if_pos rfl, nanResult_ieee hk]
    rfl
  · refine (sumFin_zeros r n n e g).trans ?_
    rw [if_pos rfl]
    rfl
  · rw [addV_opposites r n e hm, sign_mode]
  · exact ⟨fun ha hb => ⟨(pick_nans ha hb false).trans (nan_ieee hk), (pick_nans ha hb true).trans (nan_ieee hk)⟩,
      fun ha hb => ⟨pick_nan_left ha hb false, pick_nan_left ha hb true⟩,
      fun ha hb => ⟨pick_nan_right ha hb false, pick_nan_right ha hb true⟩, pick_less⟩

end Sys2Proof.Proofs.FloatSpecialCases
end

