-- ==== Sys2Proof/Proofs/FloatMedian.lean ====
section
/-! SUPPORT. The binary32 numbers in order, -0 below +0: each has a key, minimumNumber and maximumNumber take the lesser and the
greater key, and fmed3 takes the middle one (R137, R140). -/

namespace Sys2Proof.Proofs.FloatMedian

open Sys2Proof Sys2Proof.Machine Sys2Proof.Claims Sys2Proof.Proofs.Rounding Sys2Proof.Proofs.Formats Sys2Proof.Proofs.RoundOnce
  Sys2Proof.Proofs.FloatResults Sys2Proof.Proofs.FunRounding Sys2Proof.Proofs.FloatArithmetic Sys2Proof.Proofs.FloatComparisons
  Sys2Proof.Proofs.FloatSpecialCases

/-! ### The order on bits -/

/-- The place of a number among all, from its bits. -/
def orderKey (x : Nat) : Int := if x < 2 ^ 31 then x else 2 ^ 31 - 1 - x

theorem orderKey_injective {x y : Nat} (hx : x < 2 ^ 32) (hy : y < 2 ^ 32) (h : orderKey x = orderKey y) : x = y := by
  unfold orderKey at h
  split at h <;> split at h <;> omega

/-- Bits that are no NaN are a sign and bits up to the infinity's. -/
theorem exists_of_not_nan {x : Nat} (hx : x < 2 ^ 32) (h : (f32.read x).isNan = false) :
    ∃ (s : Bool) (c : Nat), x = c + f32.sign s ∧ c ≤ f32.maxBits + 1 := by
  obtain ⟨s, c, hc, rfl⟩ := exists_bits (f := f32) hx
  refine ⟨s, c, rfl, not_lt.mp fun hlt => ?_⟩
  have hmax : f32.maxBits = 255 * 2 ^ 23 - 1 := by decide
  have hsign : f32.signBit = 2 ^ 31 := by decide
  have hdiv : c / 2 ^ f32.fbits = 2 ^ f32.ebits - 1 := by
    change c / 2 ^ 23 = 255
    omega
  have hmod : c % 2 ^ f32.fbits ≠ 0 := by
    change c % 2 ^ 23 ≠ 0
    omega
  rw [read_bits hc] at h
  simp only [show f32.kind = .ieee from rfl, if_pos hdiv, if_neg hmod] at h
  cases h

theorem read_top (s : Bool) : f32.read (f32.maxBits + 1 + f32.sign s) = .inf s := by
  rw [← read_inf s]
  congr 1

/-- The order of values is the order of signed magnitudes, an infinity's lying above all numbers'. -/
theorem lessQ_iff_mag {s t : Bool} {c d : Nat} (hc : c ≤ f32.maxBits + 1) (hd : d ≤ f32.maxBits + 1) :
    lessQ (f32.read (c + f32.sign s)) (f32.read (d + f32.sign t)) ↔ withSign s (mag f32 c) < withSign t (mag f32 d) := by
  have hmono := mag_strictMono f32
  have hval {n : Bool} {b : Nat} (hb : b ≤ f32.maxBits) := valR_read standard_f32.ebits n hb
  have hbelow {b : Nat} (hb : b ≤ f32.maxBits) : 0 ≤ mag f32 b ∧ mag f32 b < mag f32 (f32.maxBits + 1) :=
    ⟨mag_nonneg f32 b, hmono (by omega)⟩
  have hpos := (hbelow (Nat.zero_le _)).2
  rw [mag_zero] at hpos
  rcases Nat.lt_or_eq_of_le hc with hc | rfl
  · obtain ⟨n, m, e, hx⟩ := finite_read standard_f32.ebits s (show c ≤ f32.maxBits by omega)
    have hxv := hval (n := s) (show c ≤ f32.maxBits by omega)
    rcases Nat.lt_or_eq_of_le hd with hd | rfl
    · obtain ⟨k, r, g, hy⟩ := finite_read standard_f32.ebits t (show d ≤ f32.maxBits by omega)
      have hyv := hval (n := t) (show d ≤ f32.maxBits by omega)
      rw [← hxv, ← hyv, hx, hy, lessQ]
      unfold valR
      exact Rat.cast_lt.symm
    · obtain ⟨h0, h1⟩ := hbelow (show c ≤ f32.maxBits by omega)
      rw [hx, read_top, lessQ]
      cases s <;> cases t <;> simp [withSign] <;> linarith
  · rcases Nat.lt_or_eq_of_le hd with hd | rfl
    · obtain ⟨k, r, g, hy⟩ := finite_read standard_f32.ebits t (show d ≤ f32.maxBits by omega)
      obtain ⟨h0, h1⟩ := hbelow (show d ≤ f32.maxBits by omega)
      rw [hy, read_top, lessQ]
      cases s <;> cases t <;> simp [withSign] <;> linarith
    · rw [read_top, read_top, lessQ]
      cases s <;> cases t <;> simp [withSign] <;> linarith

/-- Signed magnitudes lie in the order of signed bits. -/
theorem mag_lt_iff {s t : Bool} {c d : Nat} : withSign s (mag f32 c) < withSign t (mag f32 d) ↔
    (if s then -(c : Int) else c) < (if t then -(d : Int) else d) := by
  have hmono := mag_strictMono f32
  have hc := mag_nonneg f32 c
  have hd := mag_nonneg f32 d
  have hzero (b : Nat) : mag f32 b ≤ 0 ↔ b = 0 := by
    rw [← mag_zero f32, hmono.le_iff_le, Nat.le_zero]
  cases s <;> cases t <;> simp only [withSign, Bool.false_eq_true, if_false, if_true]
  · rw [hmono.lt_iff_lt, Nat.cast_lt]
  · constructor <;> intro h
    · linarith
    · omega
  · rw [← not_iff_not, not_lt, not_lt]
    constructor <;> intro h
    · have h1 := (hzero c).mp (by linarith)
      have h2 := (hzero d).mp (by linarith)
      omega
    · rw [show c = 0 by omega, show d = 0 by omega, mag_zero, neg_zero]
  · rw [neg_lt_neg_iff, neg_lt_neg_iff, hmono.lt_iff_lt, Nat.cast_lt]

theorem orderKey_bits (s : Bool) {c : Nat} (hc : c ≤ f32.maxBits + 1) : orderKey (c + f32.sign s) = if s then -(c : Int) - 1 else c := by
  have hmax : f32.maxBits = 255 * 2 ^ 23 - 1 := by decide
  unfold orderKey
  cases s
  · rw [show f32.sign false = 0 from rfl, if_pos (by omega), if_neg Bool.false_ne_true, Nat.add_zero]
  · rw [show f32.sign true = 2 ^ 31 by decide, if_neg (by omega), if_pos rfl]
    omega

/-- The order in which -0 lies below +0. -/
theorem below_zeros_iff (x y : FVal) :
    x.below true y = true ↔ lessQ x y ∨ ∃ e g, x = .fin true 0 e ∧ y = .fin false 0 g := by
  rw [← below_iff]
  cases x with
  | nan s => simp [FVal.below]
  | inf n => cases y <;> simp [FVal.below]
  | fin n m e =>
    cases y with
    | nan s => simp [FVal.below]
    | inf k => simp [FVal.below]
    | fin k r g =>
      simp only [FVal.below, Bool.false_and, Bool.or_false, Bool.true_and, Bool.or_eq_true, Bool.and_eq_true, decide_eq_true_iff, beq_iff_eq,
        Bool.not_eq_true']
      refine or_congr_right ⟨?_, ?_⟩
      · rintro ⟨⟨⟨heq, rfl⟩, rfl⟩, rfl⟩
        rw [scaled_zero] at heq
        have hr : r = 0 := by
          simp only [scaled, Bool.false_eq_true, if_false] at heq
          have hprod : r * 2 ^ (g - min e g).toNat = 0 := by exact_mod_cast heq.symm
          exact (Nat.mul_eq_zero.mp hprod).resolve_right (Nat.two_pow_pos _).ne'
        exact ⟨e, g, rfl, by rw [hr]⟩
      · rintro ⟨e', g', hx, hy⟩
        cases hx
        cases hy
        exact ⟨⟨⟨by rw [scaled_zero, scaled_zero], rfl⟩, rfl⟩, rfl⟩

/-- A zero of a sign has one spelling. -/
theorem bits_of_zero {s n : Bool} {c : Nat} {e : Int} (hc : c ≤ f32.maxBits + 1) (h : f32.read (c + f32.sign s) = .fin n 0 e) :
    c = 0 ∧ s = n := by
  have hmax : c ≤ f32.maxBits := by
    by_contra hlt
    rw [show c = f32.maxBits + 1 by omega, read_top] at h
    cases h
  have hval := valR_read standard_f32.ebits s hmax
  rw [h, valR_fin, Nat.cast_zero, zero_mul, withSign_zero] at hval
  have hmag : mag f32 c = mag f32 0 := by
    rw [mag_zero]
    cases s
    · exact hval.symm
    · exact neg_eq_zero.mp hval.symm
  have hc0 := (mag_strictMono f32).injective hmag
  subst hc0
  rw [Nat.zero_add, read_zero standard_f32.ebits] at h
  cases h
  exact ⟨rfl, rfl⟩

section
variable {x y : Nat} (hx : x < 2 ^ 32) (hy : y < 2 ^ 32) (hxn : (f32.read x).isNan = false) (hyn : (f32.read y).isNan = false)
include hx hy hxn hyn

theorem below_iff_key : (f32.read x).below true (f32.read y) = true ↔ orderKey x < orderKey y := by
  obtain ⟨s, c, rfl, hc⟩ := exists_of_not_nan hx hxn
  obtain ⟨t, d, rfl, hd⟩ := exists_of_not_nan hy hyn
  rw [below_zeros_iff, lessQ_iff_mag hc hd, mag_lt_iff, orderKey_bits s hc, orderKey_bits t hd]
  have hzeros : (∃ e g, f32.read (c + f32.sign s) = .fin true 0 e ∧ f32.read (d + f32.sign t) = .fin false 0 g) ↔
      c = 0 ∧ s = true ∧ d = 0 ∧ t = false := by
    constructor
    · rintro ⟨e, g, h1, h2⟩
      obtain ⟨hc0, hs⟩ := bits_of_zero hc h1
      obtain ⟨hd0, ht⟩ := bits_of_zero hd h2
      exact ⟨hc0, hs, hd0, ht⟩
    · rintro ⟨rfl, rfl, rfl, rfl⟩
      rw [Nat.zero_add, Nat.zero_add, read_zero standard_f32.ebits, read_zero standard_f32.ebits]
      exact ⟨_, _, rfl, rfl⟩
  rw [hzeros]
  cases s <;> cases t <;> simp <;> omega

theorem atMost_iff_key : atMost x y ↔ orderKey x ≤ orderKey y := by
  rw [← not_lt, ← below_iff_key hy hx hyn hxn, below_zeros_iff]
  unfold atMost
  have hzeros : (∃ e g, f32.read y = .fin true 0 e ∧ f32.read x = .fin false 0 g) ↔ x = 0 ∧ y = 2 ^ 31 := by
    constructor
    · rintro ⟨e, g, h1, h2⟩
      obtain ⟨s, c, rfl, hc⟩ := exists_of_not_nan hx hxn
      obtain ⟨t, d, rfl, hd⟩ := exists_of_not_nan hy hyn
      obtain ⟨rfl, rfl⟩ := bits_of_zero hd h1
      obtain ⟨rfl, rfl⟩ := bits_of_zero hc h2
      exact ⟨rfl, by decide⟩
    · rintro ⟨rfl, rfl⟩
      exact ⟨-149, -149, by decide, by decide⟩
  rw [hzeros]
  simp [hxn, hyn]

theorem pick_min : orderKey (f32.pick false x y).1 = min (orderKey x) (orderKey y) ∧ ((f32.pick false x y).1 = x ∨ (f32.pick false x y).1 = y) := by
  have hkey := below_iff_key hy hx hyn hxn
  unfold Fmt.pick
  by_cases h : orderKey y < orderKey x
  · simp [hxn, hyn, hkey.mpr h, min_eq_right h.le]
  · have hno : (f32.read y).below true (f32.read x) = false := Bool.eq_false_iff.mpr fun ht => h (hkey.mp ht)
    simp [hxn, hyn, hno, min_eq_left (not_lt.mp h)]

theorem pick_max : orderKey (f32.pick true x y).1 = max (orderKey x) (orderKey y) ∧ ((f32.pick true x y).1 = x ∨ (f32.pick true x y).1 = y) := by
  have hkey := below_iff_key hx hy hxn hyn
  unfold Fmt.pick
  by_cases h : orderKey x < orderKey y
  · simp [hxn, hyn, hkey.mpr h, max_eq_right h.le]
  · have hno : (f32.read x).below true (f32.read y) = false := Bool.eq_false_iff.mpr fun ht => h (hkey.mp ht)
    simp [hxn, hyn, hno, max_eq_left (not_lt.mp h)]

end

/-! ### The median -/

/-- The middle one of three. -/
def median (x y z : Nat) : Nat :=
  if (f32.read z).isNan then (f32.pick false x y).1
  else (f32.pick true (f32.pick false x y).1 (f32.pick false (f32.pick true x y).1 z).1).1

section
variable {x y z : Nat} (hx : x < 2 ^ 32) (hy : y < 2 ^ 32) (hz : z < 2 ^ 32)
include hx hy hz

theorem median_key (hxn : (f32.read x).isNan = false) (hyn : (f32.read y).isNan = false) (hzn : (f32.read z).isNan = false) :
    orderKey (median x y z) = max (min (orderKey x) (orderKey y)) (min (max (orderKey x) (orderKey y)) (orderKey z)) ∧
    (median x y z = x ∨ median x y z = y ∨ median x y z = z) := by
  obtain ⟨hlo, hlo'⟩ := pick_min hx hy hxn hyn
  obtain ⟨hhi, hhi'⟩ := pick_max hx hy hxn hyn
  have hlot : (f32.pick false x y).1 < 2 ^ 32 ∧ (f32.read (f32.pick false x y).1).isNan = false := by
    rcases hlo' with h | h <;> rw [h]
    · exact ⟨hx, hxn⟩
    · exact ⟨hy, hyn⟩
  have hhit : (f32.pick true x y).1 < 2 ^ 32 ∧ (f32.read (f32.pick true x y).1).isNan = false := by
    rcases hhi' with h | h <;> rw [h]
    · exact ⟨hx, hxn⟩
    · exact ⟨hy, hyn⟩
  obtain ⟨hmid, hmid'⟩ := pick_min hhit.1 hz hhit.2 hzn
  have hmidt : (f32.pick false (f32.pick true x y).1 z).1 < 2 ^ 32 ∧ (f32.read (f32.pick false (f32.pick true x y).1 z).1).isNan = false := by
    rcases hmid' with h | h <;> rw [h]
    · exact hhit
    · exact ⟨hz, hzn⟩
  obtain ⟨hmed, hmed'⟩ := pick_max hlot.1 hmidt.1 hlot.2 hmidt.2
  unfold median
  rw [if_neg (by simp [hzn])]
  refine ⟨by rw [hmed, hlo, hmid, hhi], ?_⟩
  rcases hmed' with h | h <;> rw [h]
  · exact hlo'.imp_right .inl
  · rcases hmid' with h | h <;> rw [h]
    · exact hhi'.imp_right .inl
    · exact .inr (.inr rfl)

/-- Of three in ascending order it is the second. -/
theorem median_of_sorted {a b c : Nat} (hperm : [a, b, c].Perm [x, y, z]) (hab : atMost a b) (hbc : atMost b c) : median x y z = b := by
  have hmem {v : Nat} : v ∈ [a, b, c] ↔ v ∈ [x, y, z] := hperm.mem_iff
  have hnan {v : Nat} (hv : v ∈ [a, b, c]) : (f32.read v).isNan = false := by
    simp only [List.mem_cons, List.not_mem_nil, or_false] at hv
    rcases hv with rfl | rfl | rfl
    · exact hab.1
    · exact hbc.1
    · exact hbc.2.1
  have hlt {v : Nat} (hv : v ∈ [a, b, c]) : v < 2 ^ 32 := by
    have hv' := hmem.mp hv
    simp only [List.mem_cons, List.not_mem_nil, or_false] at hv'
    rcases hv' with rfl | rfl | rfl
    · exact hx
    · exact hy
    · exact hz
  have ha : a ∈ [a, b, c] := by simp
  have hb : b ∈ [a, b, c] := by simp
  have hc : c ∈ [a, b, c] := by simp
  have hab' := (atMost_iff_key (hlt ha) (hlt hb) (hnan ha) (hnan hb)).mp hab
  have hbc' := (atMost_iff_key (hlt hb) (hlt hc) (hnan hb) (hnan hc)).mp hbc
  have hbetween {v : Nat} (hv : v ∈ [x, y, z]) : orderKey a ≤ orderKey v ∧ orderKey v ≤ orderKey c := by
    have hv' := hmem.mpr hv
    simp only [List.mem_cons, List.not_mem_nil, or_false] at hv'
    rcases hv' with rfl | rfl | rfl <;> omega
  have hX := hbetween (v := x) (by simp)
  have hY := hbetween (v := y) (by simp)
  have hZ := hbetween (v := z) (by simp)
  have hend {v : Nat} (hv : v ∈ [a, b, c]) : orderKey v = orderKey x ∨ orderKey v = orderKey y ∨ orderKey v = orderKey z := by
    have hv' := hmem.mp hv
    simp only [List.mem_cons, List.not_mem_nil, or_false] at hv'
    rcases hv' with rfl | rfl | rfl <;> simp
  have hA := hend ha
  have hC := hend hc
  have hsum : orderKey a + (orderKey b + (orderKey c + 0)) = orderKey x + (orderKey y + (orderKey z + 0)) :=
    (hperm.map orderKey).sum_eq
  have hin {v : Nat} (hv : v ∈ [x, y, z]) := hnan (hmem.mpr hv)
  obtain ⟨hkey, hone⟩ := median_key hx hy hz (hin (by simp)) (hin (by simp)) (hin (by simp))
  have hmlt : median x y z < 2 ^ 32 := by rcases hone with h | h | h <;> rw [h] <;> assumption
  refine orderKey_injective hmlt (hlt hb) ?_
  rw [hkey]
  omega

omit hx hy in
/-- Beside one NaN among the first two the other one is delivered. -/
theorem median_of_equal {v : Nat} (hv : v < 2 ^ 32) (hvn : (f32.read v).isNan = false) (hlo : (f32.pick false x y).1 = v)
    (hhi : (f32.pick true x y).1 = v) : median x y z = v := by
  unfold median
  rw [hlo, hhi]
  split
  next => rfl
  next hzn =>
    have hzn := Bool.eq_false_iff.mpr hzn
    obtain ⟨hmid, hmid'⟩ := pick_min hv hz hvn hzn
    rcases hmid' with h | h <;> rw [h] at hmid ⊢
    · rcases (pick_max hv hv hvn hvn).2 with h | h <;> exact h
    · obtain ⟨hmax, hmax'⟩ := pick_max hv hz hvn hzn
      refine orderKey_injective ?_ hv (by omega)
      rcases hmax' with h | h <;> rw [h] <;> assumption

theorem median_spec : Median x y z (median x y z) := by
  refine ⟨fun a b c => median_of_sorted hx hy hz, fun hxn hyn => ?_, fun hyn hxn => ?_, fun hzn hxy => ?_, fun hzn hyx => ?_,
    fun hxn hyn hzn => ?_, fun hxn hyn hzn => ?_⟩
  · exact median_of_equal hz hy hyn (pick_nan_left hxn hyn false) (pick_nan_left hxn hyn true)
  · exact median_of_equal hz hx hxn (pick_nan_right hxn hyn false) (pick_nan_right hxn hyn true)
  · obtain ⟨hmin, hmin'⟩ := pick_min hx hy hxy.1 hxy.2.1
    have hle := (atMost_iff_key hx hy hxy.1 hxy.2.1).mp hxy
    unfold median
    rw [if_pos hzn]
    refine orderKey_injective ?_ hx (by omega)
    rcases hmin' with h | h <;> rw [h] <;> assumption
  · obtain ⟨hmin, hmin'⟩ := pick_min hx hy hyx.2.1 hyx.1
    have hle := (atMost_iff_key hy hx hyx.1 hyx.2.1).mp hyx
    unfold median
    rw [if_pos hzn]
    refine orderKey_injective ?_ hy (by omega)
    rcases hmin' with h | h <;> rw [h] <;> assumption
  · have hnan : (f32.read f32.nan).isNan = true := by decide
    unfold median
    rw [if_neg (by simpa using hzn), pick_nans hxn hyn, pick_nans hxn hyn, pick_nan_left hnan hzn, pick_nan_left hnan hzn]
  · unfold median
    rw [if_pos hzn, pick_nans hxn hyn]
    rfl

end

end Sys2Proof.Proofs.FloatMedian
end

