-- ==== Sys2Proof/Proofs/FloatMisc.lean ====
section
/-! SUPPORT. The instructions of FMISC that are ready at once: signs, classes, the clamp, the rounding to an integer and the median (R140,
R141). -/

namespace Sys2Proof.Proofs.FloatMisc

open Sys2Proof Sys2Proof.Machine Sys2Proof.Claims Sys2Proof.Proofs.Rounding Sys2Proof.Proofs.Formats Sys2Proof.Proofs.RoundOnce
  Sys2Proof.Proofs.FloatResults Sys2Proof.Proofs.ConversionValues Sys2Proof.Proofs.FunRounding Sys2Proof.Proofs.FunNear
  Sys2Proof.Proofs.FunBounds Sys2Proof.Proofs.FunSpecialCases Sys2Proof.Proofs.VectorResults Sys2Proof.Proofs.FloatArithmetic
  Sys2Proof.Proofs.FloatComparisons Sys2Proof.Proofs.FloatMedian

/-! ### Signs -/

theorem clear_sign (x : Word) : x &&& 0x7FFFFFFF = BitVec.ofNat 32 (x.toNat % 2 ^ 31) := by
  apply BitVec.eq_of_toNat_eq
  rw [BitVec.toNat_and, BitVec.toNat_ofNat, Nat.mod_eq_of_lt (b := 2 ^ 32) (by omega)]
  exact Nat.and_two_pow_sub_one_eq_mod x.toNat 31

theorem turn_sign (x : Word) : x ^^^ 0x80000000 = BitVec.ofNat 32 (x.toNat + 2 ^ 31) := by
  apply BitVec.eq_of_getLsbD_eq
  intro i hi
  rw [BitVec.getLsbD_xor, BitVec.getLsbD_ofNat, decide_eq_true hi, Bool.true_and, Nat.add_comm, show (0x80000000 : Word) = BitVec.ofNat 32 (2 ^ 31) from rfl,
    BitVec.getLsbD_ofNat, decide_eq_true hi, Bool.true_and, Nat.testBit_two_pow]
  by_cases h : i = 31
  · subst h
    rw [Nat.testBit_two_pow_add_eq]
    simp [BitVec.getLsbD]
  · rw [Nat.testBit_two_pow_add_gt (by omega)]
    simp [BitVec.getLsbD, show ¬ 31 = i by omega]

/-! ### Classes (R141) -/

/-- The number of the class of a value. -/
def classIndex (f : Fmt) (x : Nat) : Nat :=
  match f.read x with
  | .nan s => if s then 0 else 1
  | .inf n => if n then 2 else 9
  | .fin n m _ => if m = 0 then (if n then 5 else 6) else if f.subnormal x then (if n then 4 else 7) else (if n then 3 else 8)

theorem classOp_eq (f : Fmt) (x : Nat) : classOp f x = BitVec.ofNat 32 (2 ^ classIndex f x) := by
  unfold classOp classIndex
  cases f.read x <;> rfl

/-- A subnormal has a significand below the least normal one's. -/
theorem subnormal_iff {f : Fmt} {x : Nat} {n : Bool} {m : Nat} {e : Int} (h : f.read x = .fin n m e) (hm : m ≠ 0) :
    f.subnormal x = true ↔ m < 2 ^ f.fbits := by
  have hP := Nat.two_pow_pos f.fbits
  have hfr : x % 2 ^ f.fbits < 2 ^ f.fbits := Nat.mod_lt _ hP
  have hfin : (if x / 2 ^ f.fbits % 2 ^ f.ebits = 0 then FVal.fin (decide (x / f.signBit % 2 = 1)) (x % 2 ^ f.fbits) f.qmin
      else .fin (decide (x / f.signBit % 2 = 1)) (x % 2 ^ f.fbits + 2 ^ f.fbits) (f.qmin + ((x / 2 ^ f.fbits % 2 ^ f.ebits : Nat) - 1))) =
      .fin n m e := by
    unfold Fmt.read at h
    dsimp only at h
    split at h
    · split at h
      · split at h <;> cases h
      · exact h
    · split at h
      · cases h
      · exact h
    · exact h
  unfold Fmt.subnormal
  rw [Bool.and_eq_true, beq_iff_eq, Bool.not_eq_true', beq_eq_false_iff_ne]
  split at hfin
  next hex =>
    cases hfin
    exact ⟨fun _ => hfr, fun _ => ⟨hex, hm⟩⟩
  next hex =>
    cases hfin
    exact ⟨fun hs => absurd hs.1 hex, fun hlt => by omega⟩

theorem classIndex_eq (f : Fmt) (x : Nat) : classIndex f x =
    match f.read x with
    | .nan true => 0
    | .nan false => 1
    | .inf true => 2
    | .inf false => 9
    | .fin true 0 _ => 5
    | .fin false 0 _ => 6
    | .fin true m _ => if m < 2 ^ f.fbits then 4 else 3
    | .fin false m _ => if m < 2 ^ f.fbits then 7 else 8 := by
  unfold classIndex
  cases h : f.read x with
  | nan s => cases s <;> rfl
  | inf n => cases n <;> rfl
  | fin n m e =>
    cases m with
    | zero => cases n <;> rfl
    | succ m =>
      have hsub := subnormal_iff h (Nat.succ_ne_zero m)
      by_cases hlt : m + 1 < 2 ^ f.fbits
      · cases n <;> simp [hlt, hsub.mpr hlt]
      · cases n <;> simp [hlt, Bool.eq_false_iff.mpr fun hs => hlt (hsub.mp hs)]

theorem classFmt_regs (h : HintSet) : (classFmt h).regs = if h.type = some 14 then 2 else 1 := by
  unfold classFmt HintSet.typeOr fmtOf
  cases h.type with
  | none => rfl
  | some t =>
    by_cases ht : t = 14
    · subst ht
      rfl
    · simp only [Option.getD_some, Option.some.injEq, if_neg ht]
      split
      case h_6 => exact absurd rfl ht
      all_goals rfl

/-! ### Under the flush bit -/

theorem flush_of_nonzero {z : Bool} {x : Nat} (hx : x < 2 ^ 32) (h : ∀ n e, f32.read (f32.flush z x) ≠ .fin n 0 e) : f32.flush z x = x := by
  refine flush_of_normal fun hz => Bool.eq_false_iff.mpr fun hs => ?_
  obtain ⟨n, b, hb, rfl⟩ := exists_bits (f := f32) hx
  have hflush : f32.flush z (b + f32.sign n) = f32.sign n := by
    unfold Fmt.flush
    rw [hz, hs, Bool.and_self, if_pos rfl, bits_sign hb, sign_eq]
    cases n <;> rfl
  exact h n f32.qmin (by rw [hflush, read_zero standard_f32.ebits])

/-- The flush leaves every NaN, and makes none. -/
theorem snan_flush {z : Bool} {x : Nat} (hx : x < 2 ^ 32) : (f32.read (f32.flush z x)).snan = (f32.read x).snan := by
  by_cases hs : f32.subnormal x = true
  · have hnot : (f32.read x).isNan = false := Bool.eq_false_iff.mpr fun hn => by
      rw [subnormal_of_nan hn] at hs
      cases hs
    have hsnan : (f32.read x).snan = false := Bool.eq_false_iff.mpr fun h => by
      rw [isNan_of_snan h] at hnot
      cases hnot
    cases z with
    | false => rfl
    | true =>
      obtain ⟨n, b, hb, rfl⟩ := exists_bits (f := f32) hx
      have hflush : f32.flush true (b + f32.sign n) = f32.sign n := by
        unfold Fmt.flush
        rw [hs, Bool.and_self, if_pos rfl, bits_sign hb, sign_eq]
        cases n <;> rfl
      rw [hsnan, hflush, read_zero standard_f32.ebits]
      rfl
  · rw [flush_of_normal fun _ => Bool.eq_false_iff.mpr hs]

/-! ### fsat (R140) -/

/-- The clamp of a value, that bits stand for. -/
def clamp (bits : Nat) (v : FVal) : Nat × Word :=
  if v.isNan then (0, nvOf [v]) else if v.below false (.fin false 0 0) || v.same (.fin false 0 0) then (0, 0)
  else if (FVal.fin false 1 0).below false v then (f32.bias * 2 ^ 23, 0) else (bits, 0)

theorem fsatOp_eq (z : Bool) (x : Nat) : fsatOp z x = clamp (f32.flush z x) (f32.read (f32.flush z x)) := rfl

theorem clamp_flags (bits : Nat) (v : FVal) : (clamp bits v).2 = if v.snan then fNV else 0 := by
  cases v with
  | nan s => cases s <;> rfl
  | inf n => cases n <;> rfl
  | fin n m e =>
    unfold clamp
    rw [if_neg (show ¬ (FVal.fin n m e).isNan = true from Bool.false_ne_true), if_neg (show ¬ (FVal.fin n m e).snan = true from Bool.false_ne_true)]
    split_ifs <;> rfl

theorem fsat_flags (z : Bool) {x : Nat} (hx : x < 2 ^ 32) : (fsatOp z x).2 = if (f32.read x).snan then fNV else 0 := by
  rw [← snan_flush (z := z) hx, fsatOp_eq, clamp_flags]

/-- Not above zero, and no NaN: below it or equal. -/
theorem not_positive_iff {v : FVal} (hv : v.isNan = false) :
    (v.below false (.fin false 0 0) || v.same (.fin false 0 0)) = true ↔ ¬ lessQ (.fin false 0 0) v := by
  rw [Bool.or_eq_true, below_iff, same_iff]
  have hasymm : lessQ v (.fin false 0 0) → ¬ lessQ (.fin false 0 0) v := by
    cases v with
    | nan s => cases hv
    | inf n => simp [lessQ]
    | fin n m e => exact fun h => not_lt.mpr (le_of_lt h)
  constructor
  · rintro (h | ⟨-, -, -, h⟩)
    · exact hasymm h
    · exact h
  · intro h
    by_cases hlt : lessQ v (.fin false 0 0)
    · exact .inl hlt
    · exact .inr ⟨hv, rfl, hlt, h⟩

/-- The only bits of the number 1. -/
theorem bits_of_one {x : Nat} (hx : x < 2 ^ 32) (h : valR (f32.read x) = 1) (hfin : finite (f32.read x)) : x = 0x3F800000 := by
  obtain ⟨s, c, -, rfl, hval⟩ := exists_of_num standard_f32.ebits (show x < 2 ^ f32.width from hx) hfin
  rw [h] at hval
  have hnn := mag_nonneg f32 c
  cases s with
  | true =>
    have : -mag f32 c = 1 := hval.symm
    linarith
  | false =>
    have hone : mag f32 c = mag f32 (127 * 2 ^ 23) := (hval.symm.trans (zpow_zero 2).symm).trans (mag_normal (k := 0) (by norm_num)).symm
    rw [(mag_strictMono f32).injective hone]
    rfl

theorem fsat_spec (z : Bool) {x : Nat} (hx : x < 2 ^ 32) : let v := f32.read (f32.flush z x)
    (v.isNan = true ∨ ¬ lessQ (.fin false 0 0) v → (fsatOp z x).1 = 0) ∧
    (¬ lessQ v (.fin false 1 0) → v.isNan = false → (fsatOp z x).1 = 0x3F800000) ∧
    (lessQ (.fin false 0 0) v → lessQ v (.fin false 1 0) → (fsatOp z x).1 = x) := by
  intro v
  have hflush : f32.flush z x < 2 ^ 32 := flush_lt z hx
  rw [show fsatOp z x = clamp (f32.flush z x) v from fsatOp_eq z x, clamp]
  refine ⟨fun h => ?_, fun h1 hv => ?_, fun h0 h1 => ?_⟩
  · by_cases hv : v.isNan = true
    · rw [if_pos hv]
    · rw [if_neg hv, if_pos ((not_positive_iff (Bool.eq_false_iff.mpr hv)).mpr (h.resolve_left hv))]
  · have hpos : lessQ (.fin false 0 0) v := by
      cases hvv : v with
      | nan s => rw [hvv] at hv; cases hv
      | inf n =>
        rw [hvv] at h1
        cases n
        · rfl
        · exact absurd rfl h1
      | fin n m e =>
        rw [hvv] at h1
        have hge : valQ (.fin false 1 0) ≤ valQ (.fin n m e) := not_lt.mp h1
        have hone : valQ (.fin false 1 0) = 1 := by norm_num [valQ]
        have hzero : valQ (.fin false 0 0) = 0 := by norm_num [valQ]
        change valQ (.fin false 0 0) < valQ (.fin n m e)
        rw [hzero]
        linarith
    rw [if_neg (by simp [hv]), if_neg fun h => (not_positive_iff hv).mp h hpos]
    split
    next => rfl
    next hno =>
      rw [below_iff] at hno
      have hfin : finite v := by
        cases hvv : v with
        | nan s => rw [hvv] at hv; cases hv
        | inf n =>
          rw [hvv] at h1 hno
          cases n
          · exact absurd rfl hno
          · exact absurd rfl h1
        | fin n m e => exact ⟨n, m, e, rfl⟩
      refine bits_of_one hflush ?_ hfin
      obtain ⟨n, m, e, hvv⟩ := hfin
      change valR v = 1
      rw [hvv] at h1 hno ⊢
      have heq : valQ (.fin n m e) = valQ (.fin false 1 0) := le_antisymm (not_lt.mp hno) (not_lt.mp h1)
      unfold valR
      rw [heq]
      norm_num [valQ]
  · have hv : v.isNan = false := by
      cases hvv : v with
      | nan s => rw [hvv] at h1; exact h1.elim
      | inf n => rfl
      | fin n m e => rfl
    have hnone : ¬ (FVal.fin false 1 0).below false v = true := by
      rw [below_iff]
      cases hvv : v with
      | nan s => exact fun h => h
      | inf n =>
        rw [hvv] at h1
        intro h
        rw [show n = false from h] at h1
        cases h1
      | fin n m e =>
        rw [hvv] at h1
        exact not_lt.mpr (le_of_lt h1)
    rw [if_neg (by simp [hv]), if_neg fun h => (not_positive_iff hv).mp h h0, if_neg hnone]
    refine flush_of_nonzero hx fun n e he => ?_
    rw [show v = .fin n 0 e from he] at h0
    have hzero (n : Bool) (e : Int) : valQ (.fin n 0 e) = 0 := by simp [valQ]
    have hlt : valQ (.fin false 0 0) < valQ (.fin n 0 e) := h0
    rw [hzero, hzero] at hlt
    exact lt_irrefl _ hlt

/-! ### frnd (R140) -/

/-- The integer of a mode lies as near as the mode says. -/
theorem roundTo_bounds (v : ℚ) :
    (|(roundTo 0 v : ℚ) - v| ≤ 1 / 2 ∧ (|(roundTo 0 v : ℚ) - v| = 1 / 2 → roundTo 0 v % 2 = 0)) ∧
    (|(roundTo 1 v : ℚ)| ≤ |v| ∧ |v| < |(roundTo 1 v : ℚ)| + 1) ∧
    (v ≤ roundTo 2 v ∧ (roundTo 2 v : ℚ) < v + 1) ∧ ((roundTo 3 v : ℚ) ≤ v ∧ v < roundTo 3 v + 1) ∧
    (|(roundTo 4 v : ℚ) - v| ≤ 1 / 2 ∧ (|(roundTo 4 v : ℚ) - v| = 1 / 2 → |v| < |(roundTo 4 v : ℚ)|)) := by
  have hfl := Int.floor_le v
  have hlf := Int.lt_floor_add_one v
  have hcl := Int.le_ceil v
  have hlc := Int.ceil_lt_add_one v
  refine ⟨?_, ?_, ⟨hcl, hlc⟩, ⟨hfl, hlf⟩, ?_⟩
  · rw [show roundTo 0 v = if v - ⌊v⌋ < 1 / 2 then ⌊v⌋ else if 1 / 2 < v - ⌊v⌋ then ⌊v⌋ + 1
      else if ⌊v⌋ % 2 = 0 then ⌊v⌋ else ⌊v⌋ + 1 from rfl]
    have hdown : |(⌊v⌋ : ℚ) - v| = v - ⌊v⌋ := by
      rw [abs_sub_comm]
      exact abs_of_nonneg (by linarith)
    have hup : |((⌊v⌋ + 1 : Int) : ℚ) - v| = ⌊v⌋ + 1 - v := by
      push_cast
      exact abs_of_nonneg (by linarith)
    split_ifs with h1 h2 h3
    · rw [hdown]
      exact ⟨h1.le, fun h => by linarith⟩
    · rw [hup]
      exact ⟨by linarith, fun h => by linarith⟩
    · rw [hdown]
      exact ⟨by linarith, fun _ => h3⟩
    · rw [hup]
      exact ⟨by linarith, fun _ => by omega⟩
  · rw [show roundTo 1 v = if v < 0 then ⌈v⌉ else ⌊v⌋ from rfl]
    split_ifs with hneg
    · have hc0 : (⌈v⌉ : ℚ) ≤ 0 := by exact_mod_cast Int.ceil_le.mpr (by simpa using hneg.le)
      rw [abs_of_nonpos hc0, abs_of_neg hneg]
      exact ⟨by linarith, by linarith⟩
    · have hv0 := not_lt.mp hneg
      have hf0 : (0 : ℚ) ≤ ⌊v⌋ := by exact_mod_cast Int.floor_nonneg.mpr hv0
      rw [abs_of_nonneg hf0, abs_of_nonneg hv0]
      exact ⟨hfl, hlf⟩
  · rw [show roundTo 4 v = if v < 0 then ⌈v - 1 / 2⌉ else ⌊v + 1 / 2⌋ from rfl]
    split_ifs with hneg
    · have h1 := Int.le_ceil (v - 1 / 2)
      have h2 := Int.ceil_lt_add_one (v - 1 / 2)
      refine ⟨abs_le.mpr ⟨by linarith, by linarith⟩, fun h => ?_⟩
      have hlow : (⌈v - 1 / 2⌉ : ℚ) = v - 1 / 2 := by
        rcases abs_eq (by norm_num : (0 : ℚ) ≤ 1 / 2) |>.mp h with h | h <;> linarith
      rw [hlow, abs_of_neg hneg, abs_of_neg (by linarith)]
      linarith
    · have hv0 := not_lt.mp hneg
      have h1 := Int.floor_le (v + 1 / 2)
      have h2 := Int.lt_floor_add_one (v + 1 / 2)
      refine ⟨abs_le.mpr ⟨by linarith, by linarith⟩, fun h => ?_⟩
      have hhigh : (⌊v + 1 / 2⌋ : ℚ) = v + 1 / 2 := by
        rcases abs_eq (by norm_num : (0 : ℚ) ≤ 1 / 2) |>.mp h with h | h <;> linarith
      rw [hhigh, abs_of_nonneg hv0, abs_of_nonneg (by linarith)]
      linarith

/-- An integer lies on itself in every mode. -/
theorem rounds_self {v : ℚ} {k : Int} (h : (k : ℚ) = v) (mode : Nat) :
    (mode = 0 → |(k : ℚ) - v| ≤ 1 / 2 ∧ (|(k : ℚ) - v| = 1 / 2 → k % 2 = 0)) ∧
    (mode = 1 → |(k : ℚ)| ≤ |v| ∧ |v| < |(k : ℚ)| + 1) ∧ (mode = 2 → v ≤ k ∧ (k : ℚ) < v + 1) ∧
    (mode = 3 → (k : ℚ) ≤ v ∧ v < k + 1) ∧
    (mode = 4 → |(k : ℚ) - v| ≤ 1 / 2 ∧ (|(k : ℚ) - v| = 1 / 2 → |v| < |(k : ℚ)|)) := by
  subst h
  simp

/-- The integer that a mode names. -/
theorem rounds_roundTo (v : ℚ) {mode : Nat} {k : Int} (h : mode ≤ 4 → roundTo mode v = k) :
    (mode = 0 → |(k : ℚ) - v| ≤ 1 / 2 ∧ (|(k : ℚ) - v| = 1 / 2 → k % 2 = 0)) ∧
    (mode = 1 → |(k : ℚ)| ≤ |v| ∧ |v| < |(k : ℚ)| + 1) ∧ (mode = 2 → v ≤ k ∧ (k : ℚ) < v + 1) ∧
    (mode = 3 → (k : ℚ) ≤ v ∧ v < k + 1) ∧
    (mode = 4 → |(k : ℚ) - v| ≤ 1 / 2 ∧ (|(k : ℚ) - v| = 1 / 2 → |v| < |(k : ℚ)|)) := by
  obtain ⟨h0, h1, h2, h3, h4⟩ := roundTo_bounds v
  refine ⟨fun hm => ?_, fun hm => ?_, fun hm => ?_, fun hm => ?_, fun hm => ?_⟩ <;> subst hm <;> rw [← h (by norm_num)] <;> assumption

/-- A source below the integers' exponent rounds to one of 23 bits or one more. -/
theorem roundAt_lt {mode : Nat} {n : Bool} {m : Nat} {e : Int} (hm : m < 2 ^ 24) (he : e < 0) : (roundAt mode n m e false 0).1 < 2 ^ 24 := by
  have hsh : 2 ^ 1 ≤ 2 ^ (0 - e).toNat := Nat.pow_le_pow_right two_pos (by omega)
  have hdiv : m / 2 ^ (0 - e).toNat ≤ m / 2 ^ 1 := Nat.div_le_div_left hsh (by norm_num)
  unfold roundAt
  rw [if_neg (by omega)]
  dsimp only
  split <;> omega

/-- The sign of what is read is the sign bit. -/
theorem sign_of_read {x : Nat} (hx : x < 2 ^ 32) {n : Bool} {m : Nat} {e : Int} (h : f32.read x = .fin n m e) : x / 2 ^ 31 = n.toNat := by
  obtain ⟨s, b, hb, rfl⟩ := exists_bits (f := f32) hx
  have hmax : b ≤ f32.maxBits := not_lt.mp fun hlt => read_not_finite standard_f32.ebits s hb hlt ⟨_, _, _, h⟩
  obtain ⟨m', e', hfin, -⟩ := finPart_eq f32 s b
  rw [read_finite standard_f32.ebits s hmax, hfin] at h
  have hn : s = n := by
    cases h
    rfl
  rw [← hn]
  exact bits_sign hb s

theorem sign_of_flush (z : Bool) {x : Nat} (hx : x < 2 ^ 32) : f32.flush z x / 2 ^ 31 = x / 2 ^ 31 := by
  unfold Fmt.flush
  split
  · change x / 2 ^ 31 % 2 * 2 ^ 31 / 2 ^ 31 = _
    omega
  · rfl

/-- The integer of a value in a mode, bits standing for the value. -/
def wholeOf (mode bits : Nat) (v : FVal) : Nat × Word :=
  match v with
  | .nan s => f32.nanResult (flagIf s fNV)
  | .inf _ => (bits, 0)
  | .fin n m e => if 0 ≤ e then (bits, 0) else ((f32.round .rne n (roundAt mode n m e false 0).1 0 false).1, 0)

theorem frndOp_eq (q : Rnd) (x : Nat) : frndOp q x = wholeOf q.mode (f32.flush q.ftz x) (f32.read (f32.flush q.ftz x)) :=
  rfl

theorem frnd_flags (q : Rnd) {x : Nat} (hx : x < 2 ^ 32) : (frndOp q x).2 = if (f32.read x).snan then fNV else 0 := by
  rw [← snan_flush (z := q.ftz) hx, frndOp_eq]
  cases f32.read (f32.flush q.ftz x) with
  | nan s => cases s <;> rfl
  | inf n => rfl
  | fin n m e =>
    unfold wholeOf
    dsimp only
    split <;> rfl

theorem frnd_spec (q : Rnd) {x : Nat} (hx : x < 2 ^ 32) : IntegerRounded q x (frndOp q x).1 := by
  have hflush : f32.flush q.ftz x < 2 ^ 32 := flush_lt q.ftz hx
  rw [frndOp_eq]
  refine ⟨fun h => ?_, fun n h => ?_, fun h => ?_⟩
  · cases hv : f32.read (f32.flush q.ftz x) with
    | nan s => rfl
    | inf n => rw [hv] at h; cases h
    | fin n m e => rw [hv] at h; cases h
  · rw [h]
    refine flush_of_nonzero hx fun k e he => ?_
    rw [h] at he
    cases he
  · obtain ⟨n, m, e, hv⟩ := h
    obtain ⟨hm, -⟩ := f32_fields hv
    have hsign := (sign_of_flush q.ftz hx).symm.trans (sign_of_read hflush hv)
    rw [hv, hsign, wholeOf]
    split
    next he =>
      refine ⟨⟨n, m, e, hv⟩, sign_of_read hflush hv, hflush, ?_⟩
      have hint : ((((if n then -1 else 1) * (m * 2 ^ e.toNat : Nat)) : Int) : ℚ) = valQ (.fin n m e) := by
        have hpow : (2 : ℚ) ^ e = 2 ^ e.toNat := by rw [← zpow_natCast, Int.toNat_of_nonneg he]
        rw [valQ, hpow]
        cases n <;> push_cast <;> ring
      refine ⟨_, ?_, rounds_self hint q.mode⟩
      rw [hv, hint]
    next he =>
      have hN := roundAt_lt (mode := q.mode) (n := n) hm (not_le.mp he)
      have hto (hmode : q.mode ≤ 4) := (roundAt_roundTo hmode n m e).1
      generalize (roundAt q.mode n m e false 0).1 = N at hN hto ⊢
      obtain ⟨b, hb, hmag, -⟩ := exists_natBits hN
      have hlt : b < f32.signBit := lt_of_le_of_lt hb (maxBits_lt f32)
      rw [round_exact standard_f32 (r := .rne) (Nat.zero_le 4) rfl n hb (by rw [hmag]; simp)]
      have hval : valQ (f32.read (b + f32.sign n)) = ((if n then -(N : Int) else (N : Int) : Int) : ℚ) := by
        have hR := valR_read standard_f32.ebits n hb
        rw [hmag] at hR
        have hcast : withSign n (N : ℝ) = ((((if n then -(N : Int) else (N : Int)) : Int) : ℚ) : ℝ) := by
          cases n <;> simp [withSign]
        rw [hcast] at hR
        exact Rat.cast_injective hR
      refine ⟨finite_read standard_f32.ebits n hb, bits_sign hlt n, ?_, _, hval, rounds_roundTo _ hto⟩
      rw [sign_eq]
      have hone : n.toNat ≤ 1 := Bool.toNat_le n
      have hS : f32.signBit = 2 ^ 31 := by decide
      have := Nat.mul_le_mul_right f32.signBit hone
      omega

/-! ### fmed3 (R140) -/

theorem fmed3_value (z : Bool) (x y k : Nat) : (fmed3Op z x y k).1 = median (f32.flush z x) (f32.flush z y) (f32.flush z k) := by
  unfold fmed3Op median
  by_cases h : (f32.read (f32.flush z k)).isNan = true
  · simp only [h, if_true]
  · simp only [h, Bool.false_eq_true, if_false]

theorem fmed3_flags (z : Bool) {x y k : Nat} (hx : x < 2 ^ 32) (hy : y < 2 ^ 32) (hk : k < 2 ^ 32) :
    (fmed3Op z x y k).2 = if [x, y, k].any (fun x => (f32.read x).snan) then fNV else 0 := by
  have hflags : (fmed3Op z x y k).2 = nvOf [f32.read (f32.flush z x), f32.read (f32.flush z y), f32.read (f32.flush z k)] := by
    unfold fmed3Op
    by_cases h : (f32.read (f32.flush z k)).isNan = true
    · simp only [h, if_true]
    · simp only [h, Bool.false_eq_true, if_false]
  rw [hflags, nvOf]
  simp only [List.any_cons, List.any_nil, snan_flush hx, snan_flush hy, snan_flush hk]
  rfl

/-- Settles O25: bits for the signs and classes, the order of values for the clamp and the median, and the exact numbers of the format
that whole numbers are for the rounding. -/
theorem floatMisc : Obligations.FloatMisc := by
  intro g d a b
  refine ⟨runs_word (fun s => rfl) fun s c _ lane => clear_sign _, runs_word (fun s => rfl) fun s c _ lane => turn_sign _,
    ⟨classIndex, fun f _ x _ => classIndex_eq f x, ?_⟩, ⟨fun z x => (fsatOp z x).1, fun z x hx => fsat_spec z hx, ?_⟩,
    ⟨fun q x => (frndOp q x).1, fun q x hx => frnd_spec q hx, ?_⟩,
    ⟨fun q x y z => (fmed3Op q x y z).1, fun q x y z hx hy hz => ?_, ?_⟩⟩
  · have hsig : (fun h : HintSet => { fpSig g d.toNat 1 a.toNat (if h.type = some 14 then 2 else 1) [] .vec with types := [8, 14] }) =
        fun h => { fpSig g d.toNat 1 a.toNat (classFmt h).regs [] .vec with types := [8, 14] } :=
      funext fun h => by rw [classFmt_regs]
    rw [hsig]
    refine runs_word (fun s => rfl) fun s c h lane => ?_
    have htype {t : Nat} (ht : c.h.type = some t) : t ∈ [8, 14] := type_mem_of_passes h ht
    rw [classOp_eq]
    cases ht : c.h.type with
    | none =>
      have hfmt : classFmt c.h = f32 := by rw [classFmt, HintSet.typeOr, ht]; rfl
      rw [hfmt, if_neg (by simp)]
      congr 3
    | some t =>
      have hmem := htype ht
      simp only [List.mem_cons, List.not_mem_nil, or_false] at hmem
      rcases hmem with rfl | rfl
      · have hfmt : classFmt c.h = f32 := by rw [classFmt, HintSet.typeOr, ht]; rfl
        rw [hfmt, if_neg (by simp)]
        congr 3
      · have hfmt : classFmt c.h = f64 := by rw [classFmt, HintSet.typeOr, ht]; rfl
        rw [hfmt, if_pos rfl]
        rfl
  · exact runs_flagged (fun s => rfl) fun s c _ lane => Prod.ext rfl (fsat_flags _ (BitVec.isLt _))
  · exact runs_flagged (fun s => rfl) fun s c _ lane => Prod.ext rfl (frnd_flags _ (BitVec.isLt _))
  · change Median _ _ _ (fmed3Op q x y z).1
    rw [fmed3_value]
    exact median_spec (flush_lt q hx) (flush_lt q hy) (flush_lt q hz)
  · exact runs_flagged (fun s => rfl) fun s c _ lane => Prod.ext rfl (fmed3_flags _ (BitVec.isLt _) (BitVec.isLt _) (BitVec.isLt _))

end Sys2Proof.Proofs.FloatMisc
end

