-- ==== Sys2Proof/Proofs/LongResults.lean ====
section
/-! SUPPORT. A long-latency vector result: the issue marks its destinations empty and changes no register, and the landing writes them,
sets the flags and marks them full (R54 to R57). -/

namespace Sys2Proof.Proofs.LongResults

open Sys2Proof Sys2Proof.Machine Sys2Proof.Claims Sys2Proof.Proofs.VectorResults

/-! ### The slices of a mask of lanes -/

theorem fold_bits (p : Nat → Prop) [DecidablePred p] (l : List Nat) (a : BitVec 8) {j : Nat} (hj : j < 8) :
    (l.foldl (fun a i => if p i then a else a ||| (1#8 <<< i)) a).getLsbD j = true ↔ a.getLsbD j = true ∨ (j ∈ l ∧ ¬ p j) := by
  induction l generalizing a with
  | nil => simp
  | cons i l ih =>
    rw [List.foldl_cons, ih]
    by_cases hp : p i
    · rw [if_pos hp, List.mem_cons]
      constructor
      · exact fun h => h.imp_right fun ⟨hl, hn⟩ => ⟨.inr hl, hn⟩
      · rintro (h | ⟨rfl | hl, hn⟩)
        · exact .inl h
        · exact absurd hp hn
        · exact .inr ⟨hl, hn⟩
    · have hbit : (1#8 <<< i).getLsbD j = true ↔ j = i := by
        rw [BitVec.getLsbD_shiftLeft]
        by_cases h : j = i
        · subst h
          simp [hj]
        · simp only [h, iff_false]
          simp
          intro _ _
          omega
      rw [if_neg hp, BitVec.getLsbD_or, Bool.or_eq_true, hbit, List.mem_cons]
      constructor
      · rintro ((h | rfl) | h)
        · exact .inl h
        · exact .inr ⟨.inl rfl, hp⟩
        · exact .inr ⟨.inr h.1, h.2⟩
      · rintro (h | ⟨rfl | hl, hn⟩)
        · exact .inl (.inl h)
        · exact .inl (.inr rfl)
        · exact .inr ⟨hl, hn⟩

/-- A slice is named by its lanes. -/
theorem sliceMask_bit (m : Word) {j : Nat} (hj : j < 8) :
    (sliceMask m).getLsbD j = true ↔ ∃ lane, lane / 4 = j ∧ m.getLsbD lane = true := by
  have hquad (lane : Nat) : (15#32 <<< (4 * j)).getLsbD lane = true ↔ lane / 4 = j := by
    have hfour (i : Nat) : (15#32).getLsbD i = true ↔ i < 4 := by
      by_cases hi : i < 32
      · interval_cases i <;> decide
      · exact iff_of_false (by simp [BitVec.getLsbD_of_ge _ _ (not_lt.mp hi)]) (by omega)
    rw [BitVec.getLsbD_shiftLeft, Bool.and_eq_true, Bool.and_eq_true, hfour, decide_eq_true_iff, Bool.not_eq_true', decide_eq_false_iff_not]
    omega
  unfold sliceMask
  rw [fold_bits (fun j => m &&& (15#32 <<< (4 * j)) = 0) _ _ hj]
  have hnone : m &&& (15#32 <<< (4 * j)) = 0 ↔ ¬ ∃ lane, lane / 4 = j ∧ m.getLsbD lane = true := by
    constructor
    · rintro h ⟨lane, hl, hm⟩
      have := congrArg (fun b : Word => b.getLsbD lane) h
      simp [hm, (hquad lane).mpr hl] at this
    · intro h
      apply BitVec.eq_of_getLsbD_eq
      intro lane _
      rw [BitVec.getLsbD_and]
      cases hm : m.getLsbD lane with
      | false => simp
      | true =>
        have : (15#32 <<< (4 * j)).getLsbD lane = false := Bool.eq_false_iff.mpr fun hq => h ⟨lane, (hquad lane).mp hq, hm⟩
        simp [this]
  rw [hnone, not_not]
  simp [List.mem_range, hj]

/-! ### The marks of a group -/

theorem group_isSome (act : Word) (d n : Nat) (f : Nat → DWord) (flags : Word) (r lane : Nat) :
    ((Written.group act d n f flags).v r lane).isSome = true ↔ (r = d ∨ n = 2 ∧ r = d + 1) ∧ act.getLsbD lane = true := by
  unfold Written.group
  dsimp only
  split_ifs with h1 h2
  · simp [h1]
  · simp [h2]
  · simp only [Option.isSome_none, Bool.false_eq_true, false_iff]
    tauto

theorem group_marked (act : Word) (d n : Nat) (f : Nat → DWord) (flags : Word) (r : Nat) {j : Nat} (hj : j < 8) :
    (∃ lane, lane / 4 = j ∧ ((Written.group act d n f flags).v r lane).isSome = true) ↔
      (r = d ∨ n = 2 ∧ r = d + 1) ∧ (sliceMask act).getLsbD j = true := by
  rw [sliceMask_bit act hj]
  simp only [group_isSome]
  exact ⟨fun ⟨lane, hl, hr, ha⟩ => ⟨hr, lane, hl, ha⟩, fun ⟨hr, lane, hl, ha⟩ => ⟨lane, hl, hr, ha⟩⟩

/-- The registers of a group. -/
def groupMarks (act : Word) (d n : Nat) : List (Nat × BitVec 8) := (List.range n).map (fun i => (d + i, sliceMask act))

section
variable {n : Nat} (hn : n = 1 ∨ n = 2) (act : Word) (d : Nat) (m : SMap (BitVec 8)) (r j : Nat)
include hn

theorem set_marks : (zget 0 ((groupMarks act d n).foldl (fun m e => zput 0 m e.1 (zget 0 m e.1 ||| e.2)) m) r).getLsbD j = true ↔
    (zget 0 m r).getLsbD j = true ∨ ((r = d ∨ n = 2 ∧ r = d + 1) ∧ (sliceMask act).getLsbD j = true) := by
  rcases hn with rfl | rfl
  · change (zget 0 (zput 0 m d (zget 0 m d ||| sliceMask act)) r).getLsbD j = true ↔ _
    rw [zget_zput]
    by_cases h : r = d <;> simp [h]
  · change (zget 0 (zput 0 (zput 0 m d (zget 0 m d ||| sliceMask act)) (d + 1)
      (zget 0 (zput 0 m d (zget 0 m d ||| sliceMask act)) (d + 1) ||| sliceMask act)) r).getLsbD j = true ↔ _
    rw [zget_zput, zget_zput, zget_zput]
    by_cases h : r = d
    · simp [h]
    · by_cases h1 : r = d + 1 <;> simp [h, h1]

theorem clear_marks (hj : j < 8) :
    (zget 0 ((groupMarks act d n).foldl (fun m e => zput 0 m e.1 (zget 0 m e.1 &&& ~~~e.2)) m) r).getLsbD j = true ↔
    (zget 0 m r).getLsbD j = true ∧ ¬ ((r = d ∨ n = 2 ∧ r = d + 1) ∧ (sliceMask act).getLsbD j = true) := by
  rcases hn with rfl | rfl
  · change (zget 0 (zput 0 m d (zget 0 m d &&& ~~~sliceMask act)) r).getLsbD j = true ↔ _
    rw [zget_zput]
    by_cases h : r = d <;> simp [h, hj]
  · change (zget 0 (zput 0 (zput 0 m d (zget 0 m d &&& ~~~sliceMask act)) (d + 1)
      (zget 0 (zput 0 m d (zget 0 m d &&& ~~~sliceMask act)) (d + 1) &&& ~~~sliceMask act)) r).getLsbD j = true ↔ _
    rw [zget_zput, zget_zput, zget_zput]
    by_cases h : r = d
    · simp [h, hj]
    · by_cases h1 : r = d + 1 <;> simp [h, h1, hj]

end

/-! ### The issue -/

/-- The result that a vector instruction starts. -/
def landOf (c : Ctx) (d n : Nat) (flags : Word) (f : Nat → Nat → Word) : Land :=
  { warp := c.w, slices := c.G.slices, vecs := groupResult c.act d n f, marks := groupMarks c.act d n, scals := [], quni := none,
    flags := flags, memory := false, acquire := false, mayFlag := true }

/-- The issuing warp with the destinations of the group marked empty. -/
def markedWarp (c : Ctx) (d n : Nat) : Warp :=
  { c.W with emptyV := (groupMarks c.act d n).foldl (fun m e => zput 0 m e.1 (zget 0 m e.1 ||| e.2)) c.W.emptyV }

/-- The machine with that warp, and the result to come. -/
def startedState (s : State) (c : Ctx) (d n : Nat) (flags : Word) (f : Nat → Nat → Word) : State :=
  { s with
    warps := sput s.warps c.w (markedWarp c d n)
    inflight := sput s.inflight s.nextId (landOf c d n flags f)
    nextId := s.nextId + 1 }

theorem produce_eq {s : State} {c : Ctx} (hw : sget s.warps c.w = some c.W) (d n : Nat) (flags : Word) (f : Nat → Nat → Word) :
    s.produce c (groupResult c.act d n f) [] none flags .arith = startedState s c d n flags f := by
  have hmarks : (groupResult c.act d n f).map (fun e => (e.1, sliceMask e.2.1)) = groupMarks c.act d n := by
    unfold groupResult groupMarks
    rw [List.map_map]
    rfl
  unfold State.produce State.modWarp
  rw [hmarks]
  dsimp only
  rw [smod_eq _ _ _ _ hw]
  rfl

/-- The value of a group of one or two registers, by register. -/
def groupWord (f : Nat → DWord) (i lane : Nat) : Word := if i = 0 then loWord (f lane) else hiWord (f lane)

section
variable {n : Nat} (hn : n = 1 ∨ n = 2) {s t : State} {c : Ctx} {d : Nat} {flags : Word} {f : Nat → DWord}

theorem laneWords_get (g : Nat → Word) {lane : Nat} (h : lane < 32) : ((laneWords g)[lane]?).getD 0 = g lane := by
  unfold laneWords
  rw [List.getElem?_map, List.getElem?_range h]
  rfl

include hn in
/-- The registers of a warp in which the result lands. -/
theorem land_vget (W : Warp) (r : Nat) {lane : Nat} (h : lane < 32) :
    (W.land (landOf c d n flags (groupWord f))).vget r lane = ((Written.group c.act d n f flags).v r lane).getD (W.vget r lane) := by
  unfold Written.group
  dsimp only
  rcases hn with rfl | rfl
  · change (W.vputs c.act d (fun lane => ((laneWords (groupWord f 0))[lane]?).getD 0)).vget r lane = _
    have hone : ¬ ((1 : Nat) = 2 ∧ r = d + 1 ∧ c.act.getLsbD lane = true) := fun h => absurd h.1 (by decide)
    rw [Warp.vget_vputs _ _ _ _ _ _ h, laneWords_get _ h, if_neg hone]
    split_ifs <;> rfl
  · change ((W.vputs c.act d (fun lane => ((laneWords (groupWord f 0))[lane]?).getD 0)).vputs c.act (d + 1)
      (fun lane => ((laneWords (groupWord f 1))[lane]?).getD 0)).vget r lane = _
    rw [Warp.vget_vputs _ _ _ _ _ _ h, Warp.vget_vputs _ _ _ _ _ _ h, laneWords_get _ h, laneWords_get _ h]
    simp only [true_and]
    split_ifs <;> rfl

theorem land_gangs (W : Warp) (g : Nat → Nat → Word) : (W.land (landOf c d n flags g)).gangs =
    W.gangs := by
  unfold Warp.land
  change (List.foldl _ W _).gangs.map (fun g => if g.slices &&& c.G.slices = 0 then g else g) = W.gangs
  simp only [ite_self, List.map_id']
  generalize (landOf c d n flags g).vecs = l
  induction l generalizing W with
  | nil => rfl
  | cons e l ih => exact ih (W.vputs e.2.1 e.1 fun lane => (e.2.2[lane]?).getD 0)

theorem land_flags (W : Warp) (g : Nat → Nat → Word) : (W.land (landOf c d n flags g)).flags = W.flags ||| flags := by
  unfold Warp.land
  change (List.foldl _ W _).flags ||| flags = _
  congr 1
  generalize (landOf c d n flags g).vecs = l
  induction l generalizing W with
  | nil => rfl
  | cons e l ih => exact ih (W.vputs e.2.1 e.1 fun lane => (e.2.2[lane]?).getD 0)

theorem land_frame (W : Warp) (g : Nat → Nat → Word) :
    { W.land (landOf c d n flags g) with v := W.v, flags := W.flags, emptyV := W.emptyV, emptyS := W.emptyS, gangs := W.gangs } = W := by
  have hvecs (l : List (Nat × Word × List Word)) (W : Warp) :
      { l.foldl (fun (W : Warp) e => W.vputs e.2.1 e.1 (fun lane => (e.2.2[lane]?).getD 0)) W with v := W.v } = W := by
    induction l generalizing W with
    | nil => rfl
    | cons e l ih => exact congrArg (fun V : Warp => { V with v := W.v }) (ih (W.vputs e.2.1 e.1 fun lane => (e.2.2[lane]?).getD 0))
  exact congrArg (fun V : Warp => { V with flags := W.flags, emptyV := W.emptyV, emptyS := W.emptyS, gangs := W.gangs }) (hvecs _ W)

include hn in
/-- The result lands. -/
theorem landing_arrives {W : Warp} {id : Nat} (hW : sget t.warps c.w = some W)
    (hland : sget t.inflight id = some (landOf c d n flags (groupWord f))) :
    ∃ u, exec (.registerBecomesFull id) t = .next u ∧ Arrives id c.w c.G.slices false t u (Written.group c.act d n f flags) := by
  have hresult : landResult id t =
      ({ t with inflight := sdel t.inflight id } : State).modWarp c.w (fun W => W.land (landOf c d n flags (groupWord f))) := by
    unfold landResult
    rw [hland]
    rfl
  refine ⟨(landResult id t).tick, rfl, ?_⟩
  rw [hresult]
  refine ⟨⟨W, W.land (landOf c d n flags (groupWord f)), hW, ?_, fun r lane h => land_vget hn W r h, land_flags W _, fun r j hj => ?_,
    fun i _ => ?_, fun j g hg => ⟨g, ?_, ?_⟩, land_frame W _, rfl⟩, fun v hv => ?_, fun k => ?_, rfl⟩
  · change sget (smod t.warps c.w _) c.w = _
    rw [sget_smod, if_pos rfl, hW]
    rfl
  · rw [group_marked _ _ _ _ _ _ hj]
    exact clear_marks hn c.act d W.emptyV r j hj
  · exact ⟨fun h => ⟨h, rfl⟩, fun h => h.1⟩
  · unfold Warp.gangAt
    rw [land_gangs]
    exact hg
  · unfold Gang.has
    split
    · rfl
    · exact ⟨fun _ _ => rfl, fun _ _ => rfl, rfl⟩
  · exact sget_smod_other _ hv _
  · change sget (sdel t.inflight id) k = _
    split
    next h => rw [h, sget_sdel_same]
    next h => exact sget_sdel_other _ h

/-- What is no register and no place of a gang includes the marks. -/
theorem marks_of_rest {V W : Warp} (h : V.rest = W.rest) : V.emptyV = W.emptyV ∧ V.emptyS = W.emptyS ∧ V.marked = W.marked := by
  have hV : V.rest.emptyV = W.rest.emptyV := by rw [h]
  have hS : V.rest.emptyS = W.rest.emptyS := by rw [h]
  exact ⟨hV, hS, by rw [Warp.marked, Warp.marked, h]⟩

theorem markedWarp_marked (c : Ctx) (d n : Nat) : (markedWarp c d n).marked = c.W.marked := rfl

/-- The end of the issue depends on the warp's slices and gangs alone. -/
theorem settle_marked (s u : State) (c : Ctx) (d n : Nat) :
    s.settle c (.done u) = u.settle { c with W := markedWarp c d n } (.done u) := rfl

/-- The rest of the machine after an issue that has started a result. -/
theorem started_frame (h : { t with
      warps := (startedState s c d n flags (groupWord f)).warps, counters := (startedState s c d n flags (groupWord f)).counters
      outbox := (startedState s c d n flags (groupWord f)).outbox, progress := (startedState s c d n flags (groupWord f)).progress } =
      startedState s c d n flags (groupWord f)) :
    sget t.inflight s.nextId = some (landOf c d n flags (groupWord f)) ∧
    { t with
      warps := s.warps, counters := s.counters, outbox := s.outbox, progress := s.progress, inflight := s.inflight,
      nextId := s.nextId } = s := by
  have hinflight : t.inflight = (startedState s c d n flags (groupWord f)).inflight := by rw [← h]
  constructor
  · rw [hinflight]
    exact sget_sput_same ..
  · exact congrArg (fun v : State => { v with warps := s.warps, inflight := s.inflight, nextId := s.nextId }) h

include hn in
/-- The issue of a vector result in some lane. -/
theorem started_produces :
    Produces c false s (s.settle c (.done (startedState s c d n flags (groupWord f)))) (Written.group c.act d n f flags) := by
  have hwarp : sget (startedState s c d n flags (groupWord f)).warps c.w = some (markedWarp c d n) := sget_sput_same ..
  have hdone := none_completes (startedState s c d n flags (groupWord f)) { c with W := markedWarp c d n } hwarp
  rw [← settle_marked s] at hdone
  generalize s.settle c (.done (startedState s c d n flags (groupWord f))) = t at hdone ⊢
  obtain ⟨⟨W, hW, hregs, hfalls, hrest⟩, hothers, -, hframe⟩ := hdone
  obtain ⟨hemptyV, hemptyS, hmarked⟩ := marks_of_rest hrest
  obtain ⟨hinflight, hframe⟩ := started_frame hframe
  refine ⟨⟨W, hW, ⟨hregs.vec, hregs.pred, hregs.flags, hregs.scal, hregs.uni, hregs.others⟩, ⟨hfalls.next, hfalls.used, hfalls.stay⟩,
    hmarked.trans (markedWarp_marked c d n), fun r j hj => ?_, fun i _ => ?_⟩,
    fun w hne => (hothers w hne).trans (sget_sput_other _ hne _), fun _ => landing_arrives hn hW hinflight, hframe⟩
  · rw [hemptyV, group_marked _ _ _ _ _ _ hj]
    exact set_marks hn c.act d c.W.emptyV r j
  · rw [hemptyS]
    exact ⟨.inl, fun h => h.elim id fun h => absurd h (by simp [Written.group, Written.none])⟩

/-- Where no lane is active nothing is to come. -/
theorem none_produces (hw : sget s.warps c.w = some c.W) (hact : c.act = 0) (d n : Nat) (f : Nat → DWord) (flags : Word) :
    Produces c false s (s.settle c (.done s)) (Written.group c.act d n f flags) := by
  have hdone := none_completes s c hw
  generalize s.settle c (.done s) = t at hdone ⊢
  obtain ⟨⟨W, hW, hregs, hfalls, hrest⟩, hothers, -, hframe⟩ := hdone
  obtain ⟨hemptyV, hemptyS, hmarked⟩ := marks_of_rest hrest
  have hnone (r lane : Nat) : ¬ ((Written.group c.act d n f flags).v r lane).isSome = true := by
    rw [group_isSome, hact]
    simp
  refine ⟨⟨W, hW, hregs, hfalls, hmarked, fun r j _ => ?_, fun i _ => ?_⟩, hothers, fun h => ?_,
    congrArg (fun v : State => { v with inflight := s.inflight, nextId := s.nextId }) hframe⟩
  · rw [hemptyV]
    exact ⟨.inl, fun h => h.elim id fun ⟨lane, hlane⟩ => absurd hlane.2 (hnone r lane)⟩
  · rw [hemptyS]
    exact ⟨.inl, fun h => h.elim id fun h => absurd h (by simp [Written.group, Written.none])⟩
  · rcases h with ⟨r, lane, h⟩ | ⟨i, h⟩
    · exact absurd h (hnone r lane)
    · exact absurd h (by simp [Written.group, Written.none])

end

/-- A number with flags as the result of each lane, to come. -/
theorem long_row {i : Instr} {sig : HintSet → Sig} {d n : Nat} (hn : n = 1 ∨ n = 2) {f : Ctx → State → Nat → Nat × Word}
    {r : Ctx → Nat → Nat × Word} (hexec : ∀ s, exec i s = issue sig (vecLong d n fun c s lane => outOf (f c s lane)) s)
    (hr : ∀ c s lane, f c s lane = r c lane) : LongRow i sig d n r := by
  intro s c h
  obtain ⟨hw, -⟩ := passes_warp s _ c h
  have hx (s : State) : f c s = r c := funext fun lane => hr c s lane
  refine ⟨_, (hexec s).trans (issue_passes s sig _ c h), ?_⟩
  unfold vecLong longVec
  simp only [hx]
  split
  next hact => exact none_produces hw hact d n _ _
  next =>
    rw [produce_eq hw]
    exact started_produces hn

end Sys2Proof.Proofs.LongResults
end

