-- ==== Sys2Proof/Proofs/LongLatencyFloat.lean ====
section
/-! SUPPORT. FUN, fdiv, ddiv, fsqrt and dsqrt (R139, R140, R142). -/

namespace Sys2Proof.Proofs.LongLatencyFloat

open Sys2Proof Sys2Proof.Machine Sys2Proof.Claims Sys2Proof.Proofs.FloatArithmetic Sys2Proof.Proofs.LongResults

/-- A register of a lane as a source of binary32. -/
theorem source_word (c : Ctx) (r lane : Nat) :
    f32.source (c.h.rnd 0).ftz (c.W.group r f32.regs lane).toNat = src f32 c (c.W.vget r lane).toNat := by
  have hgroup : (c.W.group r f32.regs lane).toNat = (c.W.vget r lane).toNat := by
    rw [Warp.group, if_neg (by decide)]
    exact BitVec.toNat_setWidth_of_le (by decide)
  rw [hgroup]
  exact source_eq_src (by decide) c (BitVec.isLt _)

/-- A pair of a lane as a source of binary64. -/
theorem source_pair (c : Ctx) (r lane : Nat) :
    f64.source (c.h.rnd 0).ftz (c.W.group r f64.regs lane).toNat = src f64 c (c.W.vget2 r lane).toNat :=
  source_eq_src (by decide) c (BitVec.isLt _)

/-- Settles O26: the producer's issue and the landing of its result, with the model's operation on the flushed sources. -/
theorem longLatencyFloat : Obligations.LongLatencyFloat := by
  intro g d a b
  refine ⟨fun e he => ?_, long_row (.inl rfl) (fun s => rfl) fun c s lane => ?_, long_row (.inr rfl) (fun s => rfl) fun c s lane => ?_,
    long_row (.inl rfl) (fun s => rfl) fun c s lane => ?_, long_row (.inr rfl) (fun s => rfl) fun c s lane => ?_⟩
  · simp only [List.mem_cons, List.not_mem_nil, or_false] at he
    rcases he with rfl | rfl | rfl | rfl | rfl | rfl | rfl <;> exact long_row (.inl rfl) (fun s => rfl) fun c s lane => rfl
  · rw [source_word]
    rfl
  · rw [source_pair]
    rfl
  · rw [source_word, source_word]
    rfl
  · rw [source_pair, source_pair]
    rfl

end Sys2Proof.Proofs.LongLatencyFloat
end

