-- ==== Sys2Proof/Proofs/Conversions.lean ====
section
/-! SUPPORT. CVT: each conversion is the exact value of its source, delivered in the destination format (R144 to R147). -/

namespace Sys2Proof.Proofs.Conversions

open Sys2Proof Sys2Proof.Machine Sys2Proof.Claims Sys2Proof.Proofs.VectorResults Sys2Proof.Proofs.FloatArithmetic

/-! ### Codes -/

theorem codeFmt_ebits (k : Nat) : 1 ≤ (codeFmt k).ebits := by
  unfold codeFmt
  split <;> decide

theorem icBits_eq (k : Nat) : icBits k = codeBits k := by
  unfold codeBits
  match k with
  | 0 => rfl
  | 1 => rfl
  | 2 => rfl
  | 3 => rfl
  | 4 => rfl
  | 5 => rfl
  | k + 6 => rw [if_neg (by omega), if_neg (by omega), if_neg (by omega)]; rfl

theorem codeBits_pos (k : Nat) : 1 ≤ codeBits k := by
  unfold codeBits
  split_ifs <;> decide

/-- The low bits of a value read as an unsigned number. -/
theorem readInt_unsigned {w : Nat} (n : Nat) (x : BitVec w) : readInt false n x.toNat = ((x.setWidth n).toNat : Int) := by
  rw [readInt, BitVec.toNat_setWidth]
  exact if_neg fun h => absurd h.1 Bool.false_ne_true

/-- The low bits of a value read as a signed number. -/
theorem readInt_signed {w n : Nat} (hn : 1 ≤ n) (x : BitVec w) : readInt true n x.toNat = (x.setWidth n).toInt := by
  have hpow : 2 ^ n = 2 * 2 ^ (n - 1) := by rw [← pow_succ', Nat.sub_add_cancel hn]
  rw [readInt, BitVec.toInt_eq_toNat_cond, BitVec.toNat_setWidth]
  by_cases h : 2 ^ (n - 1) ≤ x.toNat % 2 ^ n
  · rw [if_pos ⟨rfl, h⟩, if_neg (by omega)]
    push_cast
    rfl
  · rw [if_neg fun hc => h hc.2, if_pos (by omega)]

theorem readInt_code (k : Nat) (x : DWord) : readInt (k % 2 == 0) (icBits k) x.toNat = codeInt k x := by
  rw [icBits_eq, codeInt]
  by_cases h : k % 2 = 0
  · rw [if_pos h, show (k % 2 == 0) = true by simp [h], readInt_signed (codeBits_pos k)]
  · rw [if_neg h, show (k % 2 == 0) = false by simp [h], readInt_unsigned]

theorem convRnd_eq (c : Ctx) (t : BitVec 1) : ({ c.h.rnd 0 with sat := t == 1 } : Rnd) = convRnd c t := by
  unfold convRnd rnd HintSet.rnd
  cases c.h.round <;> rfl

/-! ### One element -/

/-- The conversion of a source under the flush bit. -/
theorem fcvtOp_eq {f : Fmt} (hE : 1 ≤ f.ebits) (k : Fmt) (c : Ctx) (t : BitVec 1) (x : Nat) :
    fcvtOp f k (convRnd c t) x = k.convert (convRnd c t) (src f c (x % 2 ^ f.width)) := by
  unfold fcvtOp
  rw [← source_eq_src hE c (Nat.mod_lt _ (Nat.two_pow_pos _))]
  rfl

/-- The exact conversion of an element of a packed register. -/
theorem fcvtOp_elem (f k : Fmt) (x : Word) (j : Nat) :
    fcvtOp f k .rne (field x.toNat (f.width * j) f.width) = k.convert .rne (f.read (elem f.width j x)) := by
  have hmod : field x.toNat (f.width * j) f.width % 2 ^ f.width = elem f.width j x := Nat.mod_mod _ _
  unfold fcvtOp
  rw [hmod]
  rfl

/-! ### Packing -/

/-- Numbers and flags gathered together. -/
theorem fold_pair (l : List Nat) (u : Nat → Nat) (w : Nat → Word) (p : Nat × Word) :
    l.foldl (fun (x : Nat × Word) j => (x.1 + u j, x.2 ||| w j)) p = (p.1 + (l.map u).sum, l.foldl (fun x j => x ||| w j) p.2) := by
  induction l generalizing p with
  | nil => rfl
  | cons j l ih => rw [List.foldl_cons, ih, List.map_cons, List.sum_cons, List.foldl_cons, Nat.add_assoc]

/-! ### Unpacking -/

/-- A warp after the elements of a register have been written, each to a register of its own. -/
def unpack (c : Ctx) (d : Nat) (one : Nat → Nat → Nat × Word) (n : Nat) (W : Warp) : Warp :=
  (List.range n).foldl (fun (W : Warp) j =>
    (W.vputs c.act (d + j) (fun lane => BitVec.ofNat 32 (one j lane).1)).raise
      ((lanesOf c.act).foldl (fun x lane => x ||| (one j lane).2) 0)) W

section
variable (c : Ctx) (d : Nat) (one : Nat → Nat → Nat × Word) (n : Nat) (W : Warp)

theorem unpack_succ : unpack c d one (n + 1) W =
    ((unpack c d one n W).vputs c.act (d + n) (fun lane => BitVec.ofNat 32 (one n lane).1)).raise
      ((lanesOf c.act).foldl (fun x lane => x ||| (one n lane).2) 0) := by
  unfold unpack
  rw [List.range_succ, List.foldl_append]
  rfl

theorem unpack_frame : (unpack c d one n W).slices = W.slices ∧ (unpack c d one n W).rest = W.rest ∧
    (unpack c d one n W).gangs = W.gangs ∧ ∀ i, (unpack c d one n W).pmask i = W.pmask i := by
  induction n with
  | zero => exact ⟨rfl, rfl, rfl, fun _ => rfl⟩
  | succ n ih =>
    rw [unpack_succ]
    exact ih

theorem unpack_vget (r : Nat) {lane : Nat} (h : lane < 32) : (unpack c d one n W).vget r lane =
    if d ≤ r ∧ r < d + n ∧ c.act.getLsbD lane = true then BitVec.ofNat 32 (one (r - d) lane).1 else W.vget r lane := by
  induction n with
  | zero => exact (if_neg (by omega)).symm
  | succ n ih =>
    rw [unpack_succ]
    change ((unpack c d one n W).vputs c.act (d + n) _).vget r lane = _
    rw [Warp.vget_vputs _ _ _ _ _ _ h, ih]
    by_cases hr : r = d + n
    · subst hr
      by_cases hact : c.act.getLsbD lane = true
      · rw [if_pos ⟨rfl, hact⟩, if_pos ⟨by omega, by omega, hact⟩, Nat.add_sub_cancel_left]
      · rw [if_neg fun h => hact h.2, if_neg fun h => hact h.2.2, if_neg fun h => hact h.2.2]
    · rw [if_neg fun h => hr h.1]
      by_cases hin : d ≤ r ∧ r < d + n ∧ c.act.getLsbD lane = true
      · rw [if_pos hin, if_pos ⟨hin.1, by omega, hin.2.2⟩]
      · rw [if_neg hin, if_neg fun h => hin ⟨h.1, by omega, h.2.2⟩]

theorem unpack_flags : (unpack c d one n W).flags =
    W.flags ||| (List.range n).foldl (fun w j => w ||| flagsOf c.act (fun lane => (one j lane).2)) 0 := by
  induction n with
  | zero => exact BitVec.or_zero.symm
  | succ n ih =>
    rw [unpack_succ, List.range_succ, List.foldl_append]
    change (unpack c d one n W).flags ||| _ = _
    rw [ih, BitVec.or_assoc]
    rfl

end

theorem getD_ite {α : Type} (p : Prop) [Decidable p] (x y : α) : (if p then some x else none).getD y = if p then x else y := by
  split <;> rfl

theorem funpack_runs (g : BitVec 2) (d a : BitVec 7) (x y : BitVec 3) :
    Runs (.funpack g d a x y) (hinted (funpackSig g d a x y)) (fun c _ =>
      let one (j lane : Nat) : Nat × Word := f32.convert .rne ((codeFmt x.toNat).read (elem (codeFmt x.toNat).width j (c.W.vget a.toNat lane)))
      { Written.none with
        v := fun r lane => if d.toNat ≤ r ∧ r < d.toNat + packOf (codeFmt x.toNat) ∧ c.act.getLsbD lane = true then
          some (BitVec.ofNat 32 (one (r - d.toNat) lane).1) else none
        flags := (List.range (packOf (codeFmt x.toNat))).foldl (fun w j => w ||| flagsOf c.act (fun lane => (one j lane).2)) 0 }) := by
  intro s c h
  obtain ⟨hw, -⟩ := passes_warp s _ c h
  let one (j lane : Nat) : Nat × Word := f32.convert .rne ((codeFmt x.toNat).read (elem (codeFmt x.toNat).width j (c.W.vget a.toNat lane)))
  have hone (j lane : Nat) : fcvtOp (codeFmt x.toNat) f32 .rne (field (c.W.vget a.toNat lane).toNat ((codeFmt x.toNat).width * j) (codeFmt x.toNat).width) =
    one j lane := fcvtOp_elem ..
  have hbody : funpackBody d a x c s = .done (s.modWarp c.w (unpack c d.toNat one (packCount x.toNat))) := by
    unfold funpackBody
    simp only [hone]
    rfl
  have hexec := issue_passes s _ (funpackBody d a x) c h
  rw [hbody] at hexec
  obtain ⟨hslices, hrest, hgangs, hpreds⟩ := unpack_frame c d.toNat one (packCount x.toNat) c.W
  refine ⟨_, hexec, lanes_completes s c _ _ hw hslices hrest hgangs (fun _ => rfl) (fun _ => rfl) (fun r lane hl => ?_) (fun i lane => ?_)
    (unpack_flags ..)⟩
  · rw [unpack_vget _ _ _ _ _ _ hl]
    exact (getD_ite _ _ _).symm
  · rw [hpreds]
    rfl

/-! ### Blocks -/

theorem bpack_runs (g : BitVec 2) (d a : BitVec 7) :
    Runs (.bpack g d a) (hinted (blockSig true g d a)) (fun c _ =>
      let fmt := c.h.type.getD 16
      let e := encodeRow fmt (rnd c).mode 2 ((List.range 32).map (fun lane =>
        f32.read (if c.act.getLsbD lane then (c.W.vget a.toNat lane).toNat else 0)))
      Written.vec c.act d.toNat
        (fun lane => if lane < blockWords fmt then blockWord (e.1.toPacked fmt) lane else 0) (if c.act = 0 then 0 else e.2)) := by
  intro s c h
  obtain ⟨hw, -⟩ := passes_warp s _ c h
  refine ⟨_, issue_passes s _ (bpackBody d a) c h, lanes_completes s c _ _ hw rfl rfl rfl (fun _ => rfl) (fun _ => rfl) (fun r lane hl => ?_)
    (fun i lane => rfl) rfl⟩
  change (c.W.vputs c.act d.toNat _).vget r lane = _
  rw [Warp.vget_vputs _ _ _ _ _ _ hl]
  exact (getD_ite _ _ _).symm

theorem loWord_ofNat (x : Nat) : loWord (BitVec.ofNat 64 x) = BitVec.ofNat 32 x := by
  rw [← setWidth_eq_loWord]
  exact BitVec.setWidth_ofNat_of_le (by decide) x

theorem bunpack_runs (g : BitVec 2) (d a : BitVec 7) :
    Runs (.bunpack g d a) (hinted (blockSig false g d a)) (fun c _ =>
      let fmt := c.h.type.getD 16
      let w (j : Nat) : Nat := if c.G.slices.getLsbD (j / 4) then (c.W.vget a.toNat j).toNat else 0
      let b := RawRow.ofPacked fmt 32 ((List.range (blockWords fmt)).flatMap (fun j => bytesOf 4 (w j)))
      word c d (fun lane => BitVec.ofNat 32 (f32.convert .rne (b.value fmt lane)).1)) := by
  have h := runs_group (i := .bunpack g d a) (sig := blockSig false g d a) (fun s => rfl)
    (x := fun c _ lane => plain (BitVec.ofNat 64 (f32.convert .rne ((RawRow.ofPacked (c.h.typeOr 16) 32
      ((List.range (blockWords (c.h.typeOr 16))).flatMap (fun j =>
        bytesOf 4 (if c.G.slices.getLsbD (j / 4) then (c.W.vget a.toNat j).toNat else 0)))).value (c.h.typeOr 16) lane)).1))
    fun s c _ lane => rfl
  simp only [plain, group_one, flagsOf_zero, loWord_ofNat] at h
  exact h

/-- Settles O30: the model converts the value that it reads under the flush bit, element by element. -/
theorem conversions : Obligations.Conversions := by
  intro g d a x y t
  refine ⟨runs_flagged (fun s => rfl) fun s c _ lane => ?_, runs_flagged (fun s => rfl) fun s c _ lane => ?_,
    runs_flagged (fun s => rfl) fun s c _ lane => ?_, runs_flagged (fun s => rfl) fun s c _ lane => ?_, funpack_runs g d a x y,
    bpack_runs g d a, bunpack_runs g d a⟩
  · rw [convRnd_eq]
    exact fcvtOp_eq (codeFmt_ebits _) _ c t _
  · rw [icBits_eq]
    rfl
  · rw [convRnd_eq, readInt_code]
    rfl
  · rw [convRnd_eq]
    refine (fold_pair _ (fun j => (fcvtOp f32 (codeFmt y.toNat) (convRnd c t) (c.W.vget (a.toNat + j) lane).toNat).1 *
      2 ^ ((codeFmt y.toNat).width * j)) (fun j => (fcvtOp f32 (codeFmt y.toNat) (convRnd c t) (c.W.vget (a.toNat + j) lane).toNat).2) _).trans ?_
    have hone (j : Nat) : fcvtOp f32 (codeFmt y.toNat) (convRnd c t) (c.W.vget (a.toNat + j) lane).toNat =
        (codeFmt y.toNat).convert (convRnd c t) (src f32 c (c.W.vget (a.toNat + j) lane).toNat) := by
      have hlt : (c.W.vget (a.toNat + j) lane).toNat < 2 ^ f32.width := BitVec.isLt _
      rw [fcvtOp_eq (by decide), Nat.mod_eq_of_lt hlt]
    simp only [hone, Nat.zero_add]
    rfl

end Sys2Proof.Proofs.Conversions
end

