-- ==== Sys2Proof/Proofs/LaneSegments.lean ====
section
/-! SUPPORT. LRED and LSCAN: the segments of the active lanes, the fixed tree over the lanes that are kept, and the aligned blocks of a scan
(R95, R149). -/

namespace Sys2Proof.Proofs.LaneSegments

open Sys2Proof Sys2Proof.Machine Sys2Proof.Claims Sys2Proof.Proofs.VectorResults

/-! ### What active lanes determine -/

theorem group_congr {act : Word} {d n : Nat} {f g : Nat → DWord} {flags : Word}
    (h : ∀ lane, act.getLsbD lane = true → f lane = g lane) : Written.group act d n f flags = Written.group act d n g flags := by
  refine congrArg (fun v => { Written.none with v := v, flags := flags }) ?_
  funext r lane
  by_cases hact : act.getLsbD lane = true
  · rw [h lane hact]
  · simp [hact]

theorem flagsOf_congr {act : Word} {f g : Nat → Word} (h : ∀ lane, act.getLsbD lane = true → f lane = g lane) :
    flagsOf act f = flagsOf act g := by
  have hfold (l : List Nat) (hl : ∀ lane ∈ l, act.getLsbD lane = true) (w : Word) :
      l.foldl (fun a lane => a ||| f lane) w = l.foldl (fun a lane => a ||| g lane) w := by
    induction l generalizing w with
    | nil => rfl
    | cons lane l ih =>
      rw [List.foldl_cons, List.foldl_cons, h lane (hl lane List.mem_cons_self)]
      exact ih (fun k hk => hl k (List.mem_cons_of_mem _ hk)) _
  exact hfold _ (fun lane hlane => (mem_lanesOf act lane).mp hlane) 0

theorem mem_active {c : Ctx} {m : Nat} : m ∈ active c ↔ c.act.getLsbD m = true := mem_lanesOf c.act m

theorem lt_of_active {act : Word} {m : Nat} (h : act.getLsbD m = true) : m < 32 := by
  by_contra hge
  rw [BitVec.getLsbD_of_ge _ _ (not_lt.mp hge)] at h
  cases h

/-! ### Segments -/

section
variable {act : Word} {marks : Nat → Bool}

theorem segOf_zero : segOf act marks 0 = 0 := by
  unfold segOf
  rw [Nat.zero_add, List.range_one]
  cases h : segStart act marks 0 <;> simp [h]

theorem segOf_succ (lane : Nat) :
    segOf act marks (lane + 1) = if segStart act marks (lane + 1) = true then lane + 1 else segOf act marks lane := by
  unfold segOf
  rw [List.range_succ, List.filter_append]
  by_cases h : segStart act marks (lane + 1) = true
  · simp [h]
  · simp [h]

/-- A segment starts at or before the lane. -/
theorem segOf_le (lane : Nat) : segOf act marks lane ≤ lane := by
  induction lane with
  | zero => exact segOf_zero.le
  | succ lane ih =>
    rw [segOf_succ]
    split <;> omega

theorem segStart_segOf (lane : Nat) : segStart act marks (segOf act marks lane) = true ∨ segOf act marks lane = 0 := by
  induction lane with
  | zero => exact .inr segOf_zero
  | succ lane ih =>
    rw [segOf_succ]
    split
    next h => exact .inl h
    next => exact ih

/-- No later lane up to this one starts a segment. -/
theorem le_segOf {k lane : Nat} (hk : segStart act marks k = true) (hle : k ≤ lane) : k ≤ segOf act marks lane := by
  induction lane with
  | zero => omega
  | succ lane ih =>
    rw [segOf_succ]
    split
    next => exact hle
    next h =>
      refine ih ?_
      by_contra hgt
      rw [show k = lane + 1 by omega] at hk
      exact h hk

theorem segOf_le_iff {m lane : Nat} : segOf act marks lane ≤ m ↔ ∀ k, m < k → k ≤ lane → ¬ segStart act marks k = true := by
  constructor
  · intro h k hmk hkl hk
    have := le_segOf hk hkl
    omega
  · intro h
    by_contra hgt
    rcases segStart_segOf (act := act) (marks := marks) lane with hs | h0
    · exact h _ (not_le.mp hgt) (segOf_le lane) hs
    · omega

theorem segOf_eq {m lane : Nat} (hml : m ≤ lane) (h : segOf act marks lane ≤ m) : segOf act marks m = segOf act marks lane := by
  refine le_antisymm ?_ ?_
  · rcases segStart_segOf (act := act) (marks := marks) m with hs | h0
    · exact le_segOf hs ((segOf_le m).trans hml)
    · omega
  · rcases segStart_segOf (act := act) (marks := marks) lane with hs | h0
    · exact le_segOf hs h
    · omega

end

/-- The marks of b: none where it names the register of a. -/
def markOf (c : Ctx) (a b : BitVec 7) (lane : Nat) : Bool := a != b && (c.W.vget b.toNat lane).getLsbD 0

/-- The lane that the segment of a lane starts at. -/
def segment (c : Ctx) (a b : BitVec 7) (lane : Nat) : Nat := segOf c.act (markOf c a b) lane

section
variable {c : Ctx} {a b : BitVec 7}

theorem head_active {k : Nat} (hk : k ∈ active c) : ((lanesOf c.act).head? == some k) = true ↔ ∀ m ∈ active c, k ≤ m := by
  have hsorted : (active c).Pairwise (· < ·) := List.Pairwise.filter _ List.pairwise_lt_range
  change ((active c).head? == some k) = true ↔ _
  rw [beq_iff_eq]
  cases hl : active c with
  | nil => rw [hl] at hk; cases hk
  | cons x l =>
    rw [hl] at hk hsorted
    rw [List.pairwise_cons] at hsorted
    rw [List.head?_cons, Option.some.injEq]
    constructor
    · rintro rfl m hm
      rcases List.mem_cons.mp hm with rfl | hm
      · exact le_rfl
      · exact (hsorted.1 m hm).le
    · intro h
      have hxk := h x List.mem_cons_self
      rcases List.mem_cons.mp hk with rfl | hk
      · rfl
      · have := hsorted.1 k hk
        omega

theorem segStart_iff {k : Nat} : segStart c.act (markOf c a b) k = true ↔ starts c a b k := by
  unfold segStart starts markOf
  rw [Bool.and_eq_true, Bool.or_eq_true, Bool.and_eq_true, bne_iff_ne, ← mem_active]
  constructor
  · rintro ⟨hk, hmark | hhead⟩
    · exact ⟨hk, .inr hmark⟩
    · exact ⟨hk, .inl ((head_active hk).mp hhead)⟩
  · rintro ⟨hk, hfirst | hmark⟩
    · exact ⟨hk, .inr ((head_active hk).mpr hfirst)⟩
    · exact ⟨hk, .inl hmark⟩

theorem joined_iff {m lane : Nat} : joined c a b m lane ↔ m ≤ lane ∧ segment c a b lane ≤ m := by
  unfold joined segment
  rw [segOf_le_iff]
  simp only [segStart_iff]

theorem joined_either_iff {m lane : Nat} : joined c a b m lane ∨ joined c a b lane m ↔
    segment c a b lane ≤ m ∧ segment c a b m = segment c a b lane := by
  rw [joined_iff, joined_iff]
  constructor
  · rintro (⟨hle, h⟩ | ⟨hle, h⟩)
    · exact ⟨h, segOf_eq hle h⟩
    · exact ⟨(segOf_le lane).trans hle, (segOf_eq hle h).symm⟩
  · rintro ⟨h, heq⟩
    rcases Nat.le_total m lane with hle | hle
    · exact .inl ⟨hle, h⟩
    · exact .inr ⟨hle, heq.le.trans (segOf_le lane)⟩

end

/-! ### The lanes that are kept -/

open Classical in
/-- The sources of the active lanes that are kept. -/
noncomputable def keptLane (c : Ctx) (a : BitVec 7) (keep : Nat → Prop) (m : Nat) : Option DWord :=
  if m ∈ active c ∧ keep m then some (laneSource (c.h.typeOr 0) c.h.ftz (c.W.group a.toNat (laneRegs c.h) m)) else none

/-- The model's choice of lanes: active ones from the first of a segment on that a condition keeps. -/
def fromFirst (c : Ctx) (a : BitVec 7) (first : Nat) (keep : Nat → Bool) (m : Nat) : Option DWord :=
  if c.act.getLsbD m && decide (first ≤ m) && keep m then some (laneSource (c.h.typeOr 0) c.h.ftz (c.W.group a.toNat (laneRegs c.h) m))
  else none

section
variable {c : Ctx} {a b : BitVec 7} {lane : Nat}

theorem fromFirst_red : fromFirst c a (segment c a b lane) (fun m => segment c a b m == segment c a b lane) =
    keptLane c a (fun m => joined c a b m lane ∨ joined c a b lane m) := by
  funext m
  unfold fromFirst keptLane
  congr 1
  dsimp only
  rw [Bool.and_eq_true, Bool.and_eq_true, decide_eq_true_iff, beq_iff_eq, and_assoc, mem_active, joined_either_iff]

theorem fromFirst_scan {m : Nat} (hm : m ≤ lane) :
    fromFirst c a (segment c a b lane) (fun _ => true) m = keptLane c a (fun m => joined c a b m lane) m := by
  unfold fromFirst keptLane
  congr 1
  dsimp only
  rw [Bool.and_true, Bool.and_eq_true, decide_eq_true_iff, mem_active, joined_iff]
  simp [hm]

end

/-! ### The tree and the blocks -/

section
variable {op : DWord → DWord → DWord × Word} {f g : Nat → Option DWord}

/-- A node depends on its own lanes. -/
theorem laneTree_congr {k i : Nat} (h : ∀ m, m / 2 ^ k = i → f m = g m) : laneTree op f k i = laneTree op g k i := by
  induction k generalizing i with
  | zero => rw [laneTree, laneTree, h i (by simp)]
  | succ k ih =>
    have hhalf (m : Nat) : m / 2 ^ (k + 1) = m / 2 ^ k / 2 := by rw [pow_succ, Nat.div_div_eq_div_mul]
    have hchild {m : Nat} (hm : m / 2 ^ k / 2 = i) : f m = g m := h m ((hhalf m).trans hm)
    rw [laneTree, laneTree, ih fun m hm => hchild (by omega), ih fun m hm => hchild (by omega)]

/-- A block that covers some of the lanes below a count. -/
theorem lt_of_block {n m : Nat} {e : Nat × Nat} (he : e ∈ blocksOf n) (hm : m / 2 ^ e.1 = e.2) : m < n := by
  unfold blocksOf at he
  obtain ⟨j, hj, rfl⟩ := List.mem_map.mp he
  have hbit : n / 2 ^ j % 2 = 1 := by simpa using (List.mem_filter.mp hj).2
  have hhalf : n / 2 ^ (j + 1) = n / 2 ^ j / 2 := by rw [pow_succ, Nat.div_div_eq_div_mul]
  dsimp only at hm
  by_contra hge
  have := Nat.div_le_div_right (c := 2 ^ j) (not_lt.mp hge)
  omega

/-- The blocks of a scan from some level down, in ascending order. -/
theorem scanBlocks_fold (count k : Nat) (acc : Option (DWord × Word)) :
    scanBlocks op f count k (count / 2 ^ k * 2 ^ k) acc =
      (((List.range k).reverse.filter (fun j => count / 2 ^ j % 2 = 1)).map (fun j => (j, count / 2 ^ (j + 1) * 2))).foldl
        (fun acc e => combineSides op acc (laneTree op f e.1 e.2)) acc := by
  induction k generalizing acc with
  | zero => rfl
  | succ k ih =>
    have hhalf : count / 2 ^ (k + 1) = count / 2 ^ k / 2 := by rw [pow_succ, Nat.div_div_eq_div_mul]
    have hstart : count / 2 ^ (k + 1) * 2 ^ (k + 1) = count / 2 ^ (k + 1) * 2 * 2 ^ k := by rw [pow_succ]; ring
    have hbit : count.testBit k = decide (count / 2 ^ k % 2 = 1) := Nat.testBit_eq_decide_div_mod_eq
    rw [scanBlocks, List.range_succ, List.reverse_append, List.reverse_singleton, List.singleton_append, hbit]
    by_cases h : count / 2 ^ k % 2 = 1
    · have hnext : count / 2 ^ (k + 1) * 2 ^ (k + 1) + 2 ^ k = count / 2 ^ k * 2 ^ k := by
        rw [hstart, ← Nat.succ_mul]
        congr 1
        omega
      rw [if_pos (by simpa using h), List.filter_cons_of_pos (by simpa using h), List.map_cons, List.foldl_cons, hnext, ih, hstart,
        Nat.mul_div_cancel _ (Nat.two_pow_pos k)]
    · have hnext : count / 2 ^ (k + 1) * 2 ^ (k + 1) = count / 2 ^ k * 2 ^ k := by
        rw [hstart]
        congr 1
        omega
      rw [if_neg (by simpa using h), List.filter_cons_of_neg (by simpa using h), hnext, ih]

/-- A scan combines the blocks that cover its lanes. -/
theorem scanBlocks_eq {lane : Nat} (hlane : lane < 32) (h : ∀ m, m ≤ lane → f m = g m) :
    scanBlocks op f (lane + 1) 6 0 none =
      (blocksOf (lane + 1)).foldl (fun acc e => combineSides op acc (laneTree op g e.1 e.2)) none := by
  have hzero : (lane + 1) / 2 ^ 6 * 2 ^ 6 = 0 := by omega
  have hfold := scanBlocks_fold (op := op) (f := f) (lane + 1) 6 none
  rw [hzero] at hfold
  refine hfold.trans ?_
  change (blocksOf (lane + 1)).foldl _ none = _
  have hstep (l : List (Nat × Nat)) (hl : ∀ e ∈ l, e ∈ blocksOf (lane + 1)) (acc : Option (DWord × Word)) :
      l.foldl (fun acc e => combineSides op acc (laneTree op f e.1 e.2)) acc =
        l.foldl (fun acc e => combineSides op acc (laneTree op g e.1 e.2)) acc := by
    induction l generalizing acc with
    | nil => rfl
    | cons e l ih =>
      have he := hl e List.mem_cons_self
      rw [List.foldl_cons, List.foldl_cons, laneTree_congr fun m hm => h m (by have := lt_of_block he hm; omega)]
      exact ih (fun e he => hl e (List.mem_cons_of_mem _ he)) _
  exact hstep _ (fun e he => he) none

end

/-! ### What the instructions deliver -/

/-- The sum of a lane's segment. -/
noncomputable def redResult (c : Ctx) (a b : BitVec 7) (lane : Nat) : DWord × Word :=
  (laneTree (laneAdd (c.h.typeOr 0) (c.h.rnd 0)) (keptLane c a (fun m => joined c a b m lane ∨ joined c a b lane m)) 5 0).getD (0, 0)

/-- The sum of a lane's segment up to it. -/
noncomputable def scanResult (c : Ctx) (a b : BitVec 7) (lane : Nat) : DWord × Word :=
  ((blocksOf (lane + 1)).foldl (fun acc e => combineSides (laneAdd (c.h.typeOr 0) (c.h.rnd 0)) acc
    (laneTree (laneAdd (c.h.typeOr 0) (c.h.rnd 0)) (keptLane c a (fun m => joined c a b m lane)) e.1 e.2)) none).getD (0, 0)

section
variable {s : State} {c : Ctx} {g : BitVec 2} {d a b : BitVec 7}

theorem lred_completes (h : s.passes (hinted (laneSig g d a b)) = some c) : ∃ t, exec (.lred g d a b) s = .next t ∧ Completes c s t
    (Written.group c.act d.toNat (laneRegs c.h) (fun lane => (redResult c a b lane).1) (flagsOf c.act fun lane => (redResult c a b lane).2)) := by
  have hresult (lane : Nat) : (laneTree (laneAdd (c.h.typeOr 0) (c.h.rnd 0))
      (fromFirst c a (segment c a b lane) (fun m => segment c a b m == segment c a b lane)) 5 0).getD (0, 0) = redResult c a b lane := by
    rw [fromFirst_red]
    rfl
  refine ⟨_, issue_passes s _ (laneBody false d a b) c h, ?_⟩
  rw [← funext hresult]
  exact vecDone_completes s c d.toNat (laneRegs c.h) (fun _ _ lane => (laneTree (laneAdd (c.h.typeOr 0) (c.h.rnd 0))
      (fromFirst c a (segment c a b lane) (fun m => segment c a b m == segment c a b lane)) 5 0).getD (0, 0)) (passes_warp s _ c h).1

theorem lscan_completes (h : s.passes (hinted (laneSig g d a b)) = some c) : ∃ t, exec (.lscan g d a b) s = .next t ∧ Completes c s t
    (Written.group c.act d.toNat (laneRegs c.h) (fun lane => (scanResult c a b lane).1) (flagsOf c.act fun lane => (scanResult c a b lane).2)) := by
  have hresult (lane : Nat) (hact : c.act.getLsbD lane = true) : scanResult c a b lane = (scanBlocks (laneAdd (c.h.typeOr 0) (c.h.rnd 0))
      (fromFirst c a (segment c a b lane) (fun _ => true)) (lane + 1) 6 0 none).getD (0, 0) := by
    rw [scanBlocks_eq (lt_of_active hact) fun m hm => fromFirst_scan hm]
    rfl
  refine ⟨_, issue_passes s _ (laneBody true d a b) c h, ?_⟩
  rw [group_congr fun lane hact => congrArg Prod.fst (hresult lane hact), flagsOf_congr fun lane hact => congrArg Prod.snd (hresult lane hact)]
  exact vecDone_completes s c d.toNat (laneRegs c.h) (fun _ _ lane => (scanBlocks (laneAdd (c.h.typeOr 0) (c.h.rnd 0))
      (fromFirst c a (segment c a b lane) (fun _ => true)) (lane + 1) 6 0 none).getD (0, 0)) (passes_warp s _ c h).1

end

end Sys2Proof.Proofs.LaneSegments
end

