-- ==== Sys2Proof/Proofs/FloatLaneSums.lean ====
section
/-! SUPPORT. LRED and LSCAN of the floating types: the model's tree and blocks are those of R95 (R149). -/

namespace Sys2Proof.Proofs.FloatLaneSums

open Sys2Proof Sys2Proof.Machine Sys2Proof.Claims Sys2Proof.Proofs.FloatArithmetic Sys2Proof.Proofs.LaneSegments

/-- The flags of two sides gather in any order. -/
theorem combineSides_eq (op : DWord → DWord → DWord × Word) (x y : Option (DWord × Word)) : combineSides op x y = sides op x y := by
  cases x with
  | none => rfl
  | some p =>
    cases y with
    | none => rfl
    | some q =>
      change some ((op p.1 q.1).1, p.2 ||| q.2 ||| (op p.1 q.1).2) = some ((op p.1 q.1).1, (op p.1 q.1).2 ||| p.2 ||| q.2)
      rw [BitVec.or_comm (p.2 ||| q.2), ← BitVec.or_assoc]

theorem laneTree_eq (op : DWord → DWord → DWord × Word) (f : Nat → Option DWord) (k i : Nat) : laneTree op f k i = treeNode op f k i := by
  induction k generalizing i with
  | zero => rfl
  | succ k ih => rw [laneTree, treeNode, combineSides_eq, ih, ih]

/-- The format of a floating type, and its sum. -/
def laneFmt (c : Ctx) : Fmt := if c.h.type = some 14 then f64 else f32

/-- A sum in that format. -/
def floatAdd (c : Ctx) (x y : DWord) : DWord × Word :=
  outOf (Arith (laneFmt c) 0 c (x.toNat % 2 ^ (laneFmt c).width) (y.toNat % 2 ^ (laneFmt c).width) 0)

section
variable {c : Ctx} (h : c.h.type = some 8 ∨ c.h.type = some 14)
include h

theorem laneAdd_eq (x y : DWord) : laneAdd (c.h.typeOr 0) (c.h.rnd 0) x y = floatAdd c x y := by
  have hmod (w : Nat) (x : DWord) : x.toNat % 2 ^ w < 2 ^ w := Nat.mod_lt _ (Nat.two_pow_pos w)
  unfold floatAdd laneFmt HintSet.typeOr
  rcases h with h | h
  · rw [h, if_neg (by simp)]
    exact congrArg outOf (arithOp_eq (f := f32) (by decide) 0 c (hmod f32.width x) (hmod f32.width y) (Nat.two_pow_pos _))
  · have hlt (x : DWord) : x.toNat < 2 ^ f64.width := x.isLt
    rw [h, if_pos rfl, Nat.mod_eq_of_lt (hlt x), Nat.mod_eq_of_lt (hlt y)]
    exact congrArg outOf (arithOp_eq (f := f64) (by decide) 0 c (hlt x) (hlt y) (Nat.two_pow_pos _))

theorem laneRegs_eq : laneRegs c.h = if c.h.type = some 14 then 2 else 1 := by
  unfold laneRegs HintSet.typeOr
  rcases h with h | h <;> rw [h] <;> rfl

theorem laneSource_eq (x : DWord) : laneSource (c.h.typeOr 0) c.h.ftz x =
    BitVec.ofNat 64 ((laneFmt c).flush (rnd c).ftz (x.toNat % 2 ^ (laneFmt c).width)) := by
  unfold laneFmt HintSet.typeOr
  rcases h with h | h
  · rw [h, if_neg (by simp)]
    rfl
  · have hlt : x.toNat < 2 ^ f64.width := x.isLt
    rw [h, if_pos rfl, Nat.mod_eq_of_lt hlt]
    rfl

end

/-- Settles O32: the model's combination of two sides, its tree and its blocks are those of the statement. -/
theorem floatLaneSums : Obligations.FloatLaneSums := by
  intro g d a b s c hpass htype
  have hop : laneAdd (c.h.typeOr 0) (c.h.rnd 0) = floatAdd c := funext fun x => funext fun y => laneAdd_eq htype x y
  have hregs := laneRegs_eq htype
  refine ⟨keptLane c a, fun keep m => ⟨fun h => ?_, fun h => if_neg h⟩, ?_, ?_⟩
  · rw [keptLane, if_pos h, laneSource_eq htype, hregs]
    rfl
  · obtain ⟨t, hexec, hdone⟩ := lred_completes hpass
    refine ⟨t, hexec, ?_⟩
    unfold redResult at hdone
    rw [hregs] at hdone
    simp only [hop, laneTree_eq] at hdone
    exact hdone
  · obtain ⟨t, hexec, hdone⟩ := lscan_completes hpass
    refine ⟨t, hexec, ?_⟩
    unfold scanResult at hdone
    rw [hregs] at hdone
    simp only [hop, laneTree_eq, combineSides_eq] at hdone
    exact hdone

end Sys2Proof.Proofs.FloatLaneSums
end

