-- ==== Sys2Proof/Proofs/LaneExchange.lean ====
section
/-! SUPPORT. XLANE: picks, compact, match, the integer sums and the intersection (R148 to R151). -/

namespace Sys2Proof.Proofs.LaneExchange

open Sys2Proof Sys2Proof.Machine Sys2Proof.Claims Sys2Proof.Proofs.VectorResults Sys2Proof.Proofs.Conversions
  Sys2Proof.Proofs.LaneSegments

/-! ### Picks (R148) -/

/-- A lane that is named is read where it is active. -/
theorem pick_named {act : Word} (x : Nat → Word) (own : Word) (j : Nat) :
    (if act.getLsbD j then x j else own) = if 0 ≤ (j : Int) ∧ (j : Int) ≤ 31 ∧ act.getLsbD (j : Int).toNat = true then x (j : Int).toNat else own := by
  rw [Int.toNat_natCast]
  by_cases h : act.getLsbD j = true
  · have := lt_of_active h
    rw [if_pos h, if_pos ⟨by omega, by omega, h⟩]
  · rw [if_neg h, if_neg fun hc => h hc.2.2]

theorem pick_row {fn : Nat} {pick : Nat → Word → Int} {i : BitVec 2 → BitVec 7 → BitVec 7 → BitVec 7 → Instr}
    (hi : ∀ g d a b st, exec (i g d a b) st = issue (xlaneSig g d a b) (pickBody fn d a b) st)
    (hpick : ∀ lane y, pickLane fn lane y = (if 0 ≤ pick lane y ∧ pick lane y ≤ 31 then some (pick lane y).toNat else none) ∨
      ∃ j : Nat, pick lane y = j ∧ pickLane fn lane y = some j) : PickRow pick i := by
  intro g d a b
  refine runs_word (hi g d a b) fun s c _ lane => ?_
  rcases hpick lane (c.W.vget b.toNat lane) with h | ⟨j, hj, h⟩
  · rw [h]
    by_cases hin : 0 ≤ pick lane (c.W.vget b.toNat lane) ∧ pick lane (c.W.vget b.toNat lane) ≤ 31
    · rw [if_pos hin]
      simp only [hin, true_and]
    · rw [if_neg hin, if_neg fun hc => hin ⟨hc.1, hc.2.1⟩]
  · rw [h, hj]
    exact pick_named (c.W.vget a.toNat) _ j

/-! ### match (R150) -/

theorem bitW_bit {i : Nat} (hi : i < 32) (j : Nat) : (bitW i).getLsbD j = true ↔ j = i := by
  unfold bitW
  rw [BitVec.getLsbD_ofNat, Nat.testBit_two_pow, Bool.and_eq_true, decide_eq_true_iff, decide_eq_true_iff]
  omega

/-- The sum of the bits of some lanes is their mask. -/
theorem ofNat_sum_bit {l : List Nat} (hnodup : l.Nodup) (hl : ∀ i ∈ l, i < 32) (j : Nat) :
    (BitVec.ofNat 32 (l.map (fun i => 2 ^ i)).sum).getLsbD j = true ↔ j ∈ l := by
  induction l generalizing j with
  | nil => simp
  | cons i l ih =>
    obtain ⟨hi, hnodup⟩ := List.nodup_cons.mp hnodup
    have hmem := ih hnodup fun k hk => hl k (List.mem_cons_of_mem _ hk)
    have hbit := bitW_bit (hl i List.mem_cons_self)
    have hdisjoint : bitW i &&& BitVec.ofNat 32 (l.map (fun i => 2 ^ i)).sum = 0 := by
      apply BitVec.eq_of_getLsbD_eq
      intro k _
      rw [BitVec.getLsbD_and]
      refine (Bool.eq_false_iff.mpr fun h => ?_).trans BitVec.getLsbD_zero.symm
      rw [Bool.and_eq_true, hbit, hmem] at h
      exact hi (h.1 ▸ h.2)
    rw [List.map_cons, List.sum_cons, BitVec.ofNat_add, ← bitW, BitVec.add_eq_or_of_and_eq_zero _ _ hdisjoint, BitVec.getLsbD_or,
      Bool.or_eq_true, hbit, hmem, List.mem_cons]

theorem maskOf_eq_sum {l : List Nat} (hnodup : l.Nodup) (hl : ∀ i ∈ l, i < 32) : maskOf l = BitVec.ofNat 32 (l.map (fun i => 2 ^ i)).sum := by
  apply BitVec.eq_of_getLsbD_eq
  intro j _
  rw [maskOf_bit l hl, Bool.eq_iff_iff, ofNat_sum_bit hnodup hl]
  simp

theorem sum_filter {α M : Type} [AddMonoid M] (l : List α) (p : α → Bool) (f : α → M) :
    ((l.filter p).map f).sum = (l.map (fun m => if p m = true then f m else 0)).sum := by
  induction l with
  | nil => rfl
  | cons x l ih =>
    by_cases h : p x = true
    · rw [List.filter_cons_of_pos h, List.map_cons, List.map_cons, List.sum_cons, List.sum_cons, if_pos h, ih]
    · rw [List.filter_cons_of_neg h, List.map_cons, List.sum_cons, if_neg h, zero_add, ih]

theorem active_nodup (c : Ctx) : (active c).Nodup := List.Nodup.filter _ List.nodup_range

theorem matchLanes_runs (g : BitVec 2) (d a b : BitVec 7) :
    Runs (.matchLanes g d a b) (hinted (xlaneSig g d a b)) (fun c _ =>
      word c d (fun lane => BitVec.ofNat 32 (((active c).map (fun m =>
        if c.W.vget a.toNat m = c.W.vget a.toNat lane ∧ c.W.vget b.toNat m = c.W.vget b.toNat lane then 2 ^ m else 0)).sum))) := by
  refine runs_word (fun s => rfl) fun s c _ lane => ?_
  refine (maskOf_eq_sum ((active_nodup c).filter _) fun i hi => lt_of_active (mem_active.mp (List.mem_filter.mp hi).1)).trans ?_
  refine congrArg (BitVec.ofNat 32) ((sum_filter (active c) _ _).trans ?_)
  simp only [Bool.and_eq_true, beq_iff_eq]

/-! ### The integer sums (R149) -/

section
variable {w : Nat} (φ : DWord → BitVec w)

/-- The value of a side of a tree under a homomorphism, an absent side counting 0. -/
def sideValue (o : Option (DWord × Word)) : BitVec w := (o.map (fun p => φ p.1)).getD 0

/-- The value of a lane under it. -/
def laneValue (o : Option DWord) : BitVec w := (o.map φ).getD 0

variable {φ} {op : DWord → DWord → DWord × Word} (hop : ∀ x y, φ (op x y).1 = φ x + φ y)

include hop in
theorem sideValue_combine (x y : Option (DWord × Word)) : sideValue φ (combineSides op x y) = sideValue φ x + sideValue φ y := by
  cases x with
  | none => exact (zero_add _).symm
  | some p =>
    cases y with
    | none => exact (add_zero _).symm
    | some q => exact hop p.1 q.1

include hop in
/-- A node of the tree is the sum of its lanes. -/
theorem tree_sum (f : Nat → Option DWord) (k i : Nat) :
    sideValue φ (laneTree op f k i) = ((List.range' (i * 2 ^ k) (2 ^ k)).map (fun m => laneValue φ (f m))).sum := by
  induction k generalizing i with
  | zero =>
    rw [laneTree, pow_zero, Nat.mul_one, List.range'_one, List.map_singleton, List.sum_singleton]
    cases f i <;> rfl
  | succ k ih =>
    have hsplit : List.range' (i * 2 ^ (k + 1)) (2 ^ (k + 1)) = List.range' (2 * i * 2 ^ k) (2 ^ k) ++ List.range' ((2 * i + 1) * 2 ^ k) (2 ^ k) := by
      have hlen : 2 ^ (k + 1) = 2 ^ k + 2 ^ k := by rw [pow_succ, Nat.mul_two]
      have hnext : (2 * i + 1) * 2 ^ k = 2 * i * 2 ^ k + 2 ^ k := by ring
      have hstart : i * 2 ^ (k + 1) = 2 * i * 2 ^ k := by rw [pow_succ]; ring
      rw [hstart, hlen, hnext, List.range'_append_1]
    rw [laneTree, sideValue_combine hop, ih, ih, hsplit, List.map_append, List.sum_append]

include hop in
/-- A scan from a lane on is the sum of the lanes up to the count. -/
theorem scan_sum (f : Nat → Option DWord) (count k : Nat) {start : Nat} (hstart : 2 ^ k ∣ start) (acc : Option (DWord × Word)) :
    sideValue φ (scanBlocks op f count k start acc) =
      sideValue φ acc + ((List.range' start (count % 2 ^ k)).map (fun m => laneValue φ (f m))).sum := by
  induction k generalizing start acc with
  | zero =>
    rw [scanBlocks, pow_zero, Nat.mod_one]
    exact (add_zero _).symm
  | succ k ih =>
    have hdvd : 2 ^ k ∣ start := (pow_dvd_pow 2 (Nat.le_succ k)).trans hstart
    rw [scanBlocks, Nat.mod_pow_succ, ← Nat.toNat_testBit]
    cases hbit : count.testBit k with
    | true =>
      rw [if_pos rfl, ih (dvd_add hdvd dvd_rfl), sideValue_combine hop, tree_sum hop, Nat.div_mul_cancel hdvd, Bool.toNat_true, Nat.mul_one,
        Nat.add_comm (count % 2 ^ k), ← List.range'_append_1, List.map_append, List.sum_append, add_assoc]
    | false =>
      rw [if_neg Bool.false_ne_true, ih hdvd, Bool.toNat_false, Nat.mul_zero, Nat.add_zero]

end

/-- An operation that sets no flag. -/
def Silent (op : DWord → DWord → DWord × Word) : Prop := ∀ x y, (op x y).2 = 0

/-- A side without flags. -/
def silentSide (o : Option (DWord × Word)) : Prop := (o.getD (0, 0)).2 = 0

section
variable {op : DWord → DWord → DWord × Word} (hop : Silent op)
include hop

theorem combine_silent {x y : Option (DWord × Word)} (hx : silentSide x) (hy : silentSide y) : silentSide (combineSides op x y) := by
  cases x with
  | none => exact hy
  | some p =>
    cases y with
    | none => exact hx
    | some q =>
      change p.2 ||| q.2 ||| (op p.1 q.1).2 = 0
      rw [hop, show p.2 = 0 from hx, show q.2 = 0 from hy]
      decide

theorem tree_silent (f : Nat → Option DWord) (k i : Nat) : silentSide (laneTree op f k i) := by
  induction k generalizing i with
  | zero => cases h : f i <;> simp [silentSide, laneTree, h]
  | succ k ih => exact combine_silent hop (ih _) (ih _)

theorem scan_silent (f : Nat → Option DWord) (count k start : Nat) {acc : Option (DWord × Word)} (hacc : silentSide acc) :
    silentSide (scanBlocks op f count k start acc) := by
  induction k generalizing start acc with
  | zero => exact hacc
  | succ k ih =>
    rw [scanBlocks]
    split
    · exact ih _ (combine_silent hop hacc (tree_silent hop f _ _))
    · exact ih _ hacc

end

section
variable {c : Ctx} {a b : BitVec 7}

/-- A sum over kept lanes, lane by lane. -/
theorem sumOver_eq {w n : Nat} {φ : DWord → BitVec w} (hzero : φ 0 = 0) (hadd : ∀ x y, φ (x + y) = φ x + φ y)
    (hn : laneRegs c.h = n) (hsource : ∀ x, laneSource (c.h.typeOr 0) c.h.ftz x = x) (keep : Nat → Prop) :
    φ (sumOver c n a keep) = ((List.range 32).map (fun m => laneValue φ (keptLane c a keep m))).sum := by
  have hsum (l : List DWord) : φ l.sum = (l.map φ).sum := by
    induction l with
    | nil => exact hzero
    | cons x l ih => rw [List.sum_cons, hadd, ih, List.map_cons, List.sum_cons]
  unfold sumOver
  rw [hsum, List.map_map]
  refine (sum_filter (List.range 32) _ _).trans (congrArg List.sum (List.map_congr_left fun m _ => ?_))
  unfold keptLane
  subst hn
  by_cases hact : c.act.getLsbD m = true
  · by_cases hkeep : keep m
    · rw [if_pos hact, if_pos ⟨mem_active.mpr hact, hkeep⟩, Function.comp, if_pos hkeep, hsource]
      rfl
    · rw [if_pos hact, if_neg fun hk => hkeep hk.2, Function.comp, if_neg hkeep, hzero]
      rfl
  · rw [if_neg hact, if_neg fun hk => hact (mem_active.mp hk.1)]
    rfl

/-- Lanes after this one are not joined to it. -/
theorem scan_lanes {w : Nat} {φ : DWord → BitVec w} {lane : Nat} (h : lane < 32) :
    ((List.range' 0 (lane + 1)).map (fun m => laneValue φ (keptLane c a (fun m => joined c a b m lane) m))).sum =
      ((List.range 32).map (fun m => laneValue φ (keptLane c a (fun m => joined c a b m lane) m))).sum := by
  have hlen : 32 = (lane + 1) + (31 - lane) := by omega
  rw [List.range_eq_range', show List.range' 0 32 = List.range' 0 (lane + 1) ++ List.range' (0 + (lane + 1)) (31 - lane) by
    rw [List.range'_append_1, ← hlen], List.map_append, List.sum_append]
  refine (add_zero _).symm.trans (congrArg _ (List.sum_eq_zero fun x hx => ?_).symm)
  obtain ⟨m, hm, rfl⟩ := List.mem_map.mp hx
  have hgt : lane < m := by
    have := (List.mem_range'_1.mp hm).1
    omega
  have hnone : keptLane c a (fun m => joined c a b m lane) m = none := if_neg fun hk => absurd hk.2.1 (not_le.mpr hgt)
  rw [hnone]
  rfl

/-- What makes a type's sums those of its values: a homomorphism that keeps what the registers hold. -/
structure SumsAs (c : Ctx) (n w : Nat) (φ : DWord → BitVec w) : Prop where
  /-- Zero. -/
  zero : φ 0 = 0
  /-- A sum of values. -/
  add : ∀ x y, φ (x + y) = φ x + φ y
  /-- The model's sum. -/
  op : ∀ x y, φ (laneAdd (c.h.typeOr 0) (c.h.rnd 0) x y).1 = φ x + φ y
  /-- It sets no flag. -/
  silent : Silent (laneAdd (c.h.typeOr 0) (c.h.rnd 0))
  /-- A source is itself. -/
  source : ∀ x, laneSource (c.h.typeOr 0) c.h.ftz x = x
  /-- The registers of the type. -/
  regs : laneRegs c.h = n
  /-- What the registers hold. -/
  holds : ∀ (d : Nat) (f g : Nat → DWord) (flags : Word), (∀ lane, c.act.getLsbD lane = true → φ (f lane) = φ (g lane)) →
    Written.group c.act d n f flags = Written.group c.act d n g flags

theorem sumsAs_wide (h : c.h.typeOr 0 = 2 ∨ c.h.typeOr 0 = 3) : SumsAs c 2 64 id := by
  refine ⟨rfl, fun _ _ => rfl, ?_, ?_, ?_, ?_, fun d f g flags hfg => group_congr hfg⟩
  · rcases h with h | h <;> rw [h] <;> exact fun _ _ => rfl
  · rcases h with h | h <;> rw [h] <;> exact fun _ _ => rfl
  · rcases h with h | h <;> rw [h] <;> exact fun _ => rfl
  · unfold laneRegs
    rcases h with h | h <;> rw [h] <;> rfl

theorem loWord_add (x y : DWord) : loWord (x + y) = loWord x + loWord y := by
  rw [← setWidth_eq_loWord, ← setWidth_eq_loWord, ← setWidth_eq_loWord, BitVec.setWidth_add _ _ (by decide)]

theorem sumsAs_narrow (h : c.h.typeOr 0 = 0 ∨ c.h.typeOr 0 = 1) : SumsAs c 1 32 loWord := by
  refine ⟨by decide, loWord_add, ?_, ?_, ?_, ?_, fun d f g flags hfg => ?_⟩
  · rcases h with h | h <;> rw [h] <;> exact fun _ _ => loWord_setWidth _
  · rcases h with h | h <;> rw [h] <;> exact fun _ _ => rfl
  · rcases h with h | h <;> rw [h] <;> exact fun _ => rfl
  · unfold laneRegs
    rcases h with h | h <;> rw [h] <;> rfl
  · have hwide : Written.group c.act d 1 (fun lane => (loWord (f lane)).setWidth 64) flags =
        Written.group c.act d 1 (fun lane => (loWord (g lane)).setWidth 64) flags := group_congr fun lane hact => by rw [hfg lane hact]
    simpa only [group_one, loWord_setWidth] using hwide

section
variable {n w : Nat} {φ : DWord → BitVec w} (hφ : SumsAs c n w φ)
include hφ

theorem sideValue_getD (o : Option (DWord × Word)) : φ (o.getD (0, 0)).1 = sideValue φ o := by
  cases o with
  | none => exact hφ.zero
  | some p => rfl

theorem redResult_sum (lane : Nat) :
    φ (redResult c a b lane).1 = φ (sumOver c n a (fun m => joined c a b m lane ∨ joined c a b lane m)) := by
  rw [redResult, sideValue_getD hφ, tree_sum hφ.op, sumOver_eq hφ.zero hφ.add hφ.regs hφ.source, List.range_eq_range']
  rfl

omit hφ in
theorem scanResult_eq {lane : Nat} (h : lane < 32) : scanResult c a b lane = (scanBlocks (laneAdd (c.h.typeOr 0) (c.h.rnd 0))
    (keptLane c a (fun m => joined c a b m lane)) (lane + 1) 6 0 none).getD (0, 0) := by
  rw [scanBlocks_eq h fun _ _ => rfl]
  rfl

theorem scanResult_sum {lane : Nat} (h : lane < 32) : φ (scanResult c a b lane).1 = φ (sumOver c n a (fun m => joined c a b m lane)) := by
  have hcount : (lane + 1) % 2 ^ 6 = lane + 1 := Nat.mod_eq_of_lt (by omega)
  rw [scanResult_eq h, sideValue_getD hφ, scan_sum hφ.op _ _ _ (dvd_zero _), hcount, scan_lanes h,
    sumOver_eq hφ.zero hφ.add hφ.regs hφ.source]
  exact zero_add _

theorem red_flags : (flagsOf c.act fun lane => (redResult c a b lane).2) = 0 := by
  exact (flagsOf_congr (g := fun _ => 0) fun lane _ => tree_silent hφ.silent _ 5 0).trans (flagsOf_zero _)

theorem scan_flags : (flagsOf c.act fun lane => (scanResult c a b lane).2) = 0 := by
  rw [flagsOf_congr (g := fun _ => 0) fun lane hact => ?_]
  · exact flagsOf_zero _
  · rw [scanResult_eq (lt_of_active hact)]
    exact scan_silent hφ.silent _ _ _ _ rfl

end

end

theorem integer_sums {s : State} {c : Ctx} {g : BitVec 2} {d a b : BitVec 7} (h : s.passes (hinted (laneSig g d a b)) = some c)
    {w n : Nat} {φ : DWord → BitVec w} (hφ : SumsAs c n w φ) (hn : regs (ty c) = n) :
    (∃ t, exec (.lred g d a b) s = .next t ∧ Completes c s t
      (Written.group c.act d.toNat (regs (ty c)) (fun lane => sumOver c (regs (ty c)) a
        (fun m => joined c a b m lane ∨ joined c a b lane m)) 0)) ∧
    (∃ t, exec (.lscan g d a b) s = .next t ∧ Completes c s t
      (Written.group c.act d.toNat (regs (ty c)) (fun lane => sumOver c (regs (ty c)) a (fun m => joined c a b m lane)) 0)) := by
  rw [hn]
  constructor
  · obtain ⟨t, hexec, hdone⟩ := lred_completes h
    rw [red_flags hφ, hφ.regs, hφ.holds _ _ _ _ fun lane _ => redResult_sum hφ lane] at hdone
    exact ⟨t, hexec, hdone⟩
  · obtain ⟨t, hexec, hdone⟩ := lscan_completes h
    rw [scan_flags hφ, hφ.regs, hφ.holds _ _ _ _ fun lane hact => scanResult_sum hφ (lt_of_active hact)] at hdone
    exact ⟨t, hexec, hdone⟩

/-! ### The intersection (R151) -/

theorem typeSigned_eq {c : Ctx} (h : ∀ t, c.h.type = some t → t ∈ [0, 1]) : typeSigned (c.h.typeOr 1) = decide (c.h.type = some 0) := by
  unfold HintSet.typeOr
  cases ht : c.h.type with
  | none => rfl
  | some t =>
    have hmem := h t ht
    simp only [List.mem_cons, List.not_mem_nil, or_false] at hmem
    rcases hmem with rfl | rfl <;> rfl

theorem readInt_word (signed : Bool) (x : Word) : readInt signed 32 x.toNat = if signed then x.toInt else (x.toNat : Int) := by
  cases signed
  · rw [readInt_unsigned, BitVec.setWidth_eq]
    rfl
  · rw [readInt_signed (by decide), BitVec.setWidth_eq]
    rfl

theorem intersect_runs (g : BitVec 2) (d a b : BitVec 7) :
    Runs (.intersect g d a b) (hinted (fun h => { xlaneSig g d a b h with types := [0, 1] })) (fun c _ =>
      let num (x : Word) : Int := if c.h.type = some 0 then x.toInt else (x.toNat : Int)
      let h := (active c).getLast?.getD 0
      let lim := min (num (c.W.vget a.toNat h)) (num (c.W.vget b.toNat h))
      let adv (r : BitVec 7) : Nat := ((active c).filter (fun m => decide (num (c.W.vget r.toNat m) ≤ lim))).length
      word c d (fun lane =>
        let hits := (active c).filter (fun m => decide (c.W.vget b.toNat m = c.W.vget a.toNat lane))
        BitVec.ofNat 32 (adv b * 2 ^ 16 + adv a * 2 ^ 8 + (if hits = [] then 0 else 2 ^ 5 + hits.head?.getD 0)))) := by
  refine runs_word (fun s => rfl) fun s c h lane => ?_
  have hsigned := typeSigned_eq fun t ht => (type_mem_of_passes h ht : t ∈ [0, 1])
  have hnum (x : Word) : readInt (typeSigned (c.h.typeOr 1)) 32 x.toNat = if c.h.type = some 0 then x.toInt else (x.toNat : Int) := by
    rw [readInt_word, hsigned]
    simp only [decide_eq_true_eq]
  have hhit : (match (lanesOf c.act).find? (fun m => c.W.vget b.toNat m == c.W.vget a.toNat lane) with
      | some j => 32 + j
      | none => 0) =
      if (active c).filter (fun m => decide (c.W.vget b.toNat m = c.W.vget a.toNat lane)) = [] then 0
      else 2 ^ 5 + ((active c).filter (fun m => decide (c.W.vget b.toNat m = c.W.vget a.toNat lane))).head?.getD 0 := by
    rw [← List.head?_filter]
    change (match ((active c).filter (fun m => decide (c.W.vget b.toNat m = c.W.vget a.toNat lane))).head? with
      | some j => 32 + j
      | none => 0) = _
    cases (active c).filter (fun m => decide (c.W.vget b.toNat m = c.W.vget a.toNat lane)) <;> rfl
  unfold isectOp
  simp only [hnum]
  exact congrArg (BitVec.ofNat 32) (congrArg _ hhit)

/-- Settles O31: the picks and counts lane by lane, and the sums of a segment through a homomorphism of the model's combination. -/
theorem laneExchange : Obligations.LaneExchange := by
  refine ⟨pick_row (fn := 0) (fun _ _ _ _ _ => rfl) fun lane y => .inr ⟨_, rfl, rfl⟩,
    pick_row (fn := 1) (fun _ _ _ _ _ => rfl) fun lane y => .inr ⟨_, rfl, rfl⟩,
    pick_row (fn := 2) (fun _ _ _ _ _ => rfl) fun lane y => .inl ?_,
    pick_row (fn := 3) (fun _ _ _ _ _ => rfl) fun lane y => .inr ⟨_, rfl, rfl⟩,
    fun g d a b => ⟨runs_word (fun s => rfl) fun s c _ lane => ?_, matchLanes_runs g d a b, fun s c h htype => ?_, intersect_runs g d a b⟩⟩
  · rw [pickLane, readInt_signed (by decide)]
  · simp only [decide_not]
    rfl
  · have hty : ty c = 0 ∨ ty c = 1 ∨ ty c = 2 ∨ ty c = 3 := by simpa using htype
    rcases hty with h0 | h1 | h2 | h3
    · exact integer_sums h (sumsAs_narrow (.inl h0)) (by rw [h0]; rfl)
    · exact integer_sums h (sumsAs_narrow (.inr h1)) (by rw [h1]; rfl)
    · exact integer_sums h (sumsAs_wide (.inl h2)) (by rw [h2]; rfl)
    · exact integer_sums h (sumsAs_wide (.inr h3)) (by rw [h3]; rfl)

end Sys2Proof.Proofs.LaneExchange
end
